-- ==== Sys2Proof/Word.lean ====
section
/-! DEFINITION. The word types of the module: bytes, 16- and 32-bit words, result codes, digests. -/

namespace Sys2Proof

/-- One byte of a store. -/
abbrev Byte := BitVec 8
/-- A 16-bit word. -/
abbrev W16 := BitVec 16
/-- A 32-bit word: the unit of registers, descriptors and tables (R7, R116). -/
abbrev W32 := BitVec 32
/-- A 64-bit word: bus addresses, TSY times, keys. -/
abbrev W64 := BitVec 64
/-- A 12-bit result code (R428). -/
abbrev Code := BitVec 12
/-- A 256-bit digest, byte 0 in bits [7:0] (R465). -/
abbrev Digest := BitVec 256
/-- A leaf handle (R146): an index of the leaf table, or the null handle 0xFFFF_FFFF. -/
abbrev Handle := Nat

end Sys2Proof
end

