-- ==== Sys2Proof/Syntax.lean ====
section
/-! DEFINITION. The commands and events of spec/opcode_table.json: one constructor of Instr per row, with what the
environment supplies as operands. Where a row has no text of its own the constructor's docstring names its rule. -/

namespace Sys2Proof

/-- A parcel: the header of R348 and its payload. LENGTH is the payload's length. The field ident is header word 2
[23:0]: EXPERT for TYPE 1 and 2, CHANNEL in [15:0] for TYPE 3, 4 and 9. -/
structure Parcel where
  dest : BitVec 20
  ptype : BitVec 4
  epochLo : BitVec 8
  src : BitVec 20
  alive : BitVec 8
  ident : BitVec 24
  stream : BitVec 16
  token : W32
  shortColophon : W32
  segs : List (BitVec 10)
  reversed : Bool
  second : Bool
  payload : List Byte
  deriving DecidableEq, Repr

/-- What a fetch of the submission ring meets: the 16 words of the entry (R415), a bus error, or a bus error on the
pair's last completion write (R413). -/
inductive HostFetch where
  | entry (words : List W32)
  | busError
  | completionError
  deriving DecidableEq, Repr

/-- The session answer of R454 as the security engine judges it: whether the signature over the challenge verifies
under the key the role names, the hash of the installer key it used, and for enrolment (R460) whether the token
verifies and the hash of the key it names. -/
structure SessionAnswer where
  sigOk : Bool
  keyHash : Digest
  token : Bool
  tokenOk : Bool
  deriving DecidableEq, Repr

/-- An imprint (R445): header words, system section, module section, signer block. The two verdicts are the security
engine's for SIGNATURE and ROT_SIG; signerHash is the SHAKE256 of SIGNER_PK, rotHash of the key ROT_SIG verifies under. -/
structure Imprint where
  header : List W32
  system : List W32
  modsec : List W32
  rotation : Bool
  signerHash : Digest
  rotHash : Digest
  sigOk : Bool
  rotOk : Bool
  deriving DecidableEq, Repr

/-- A firmware image (R443, R458): its version, the bytes that FW_DIGEST covers, and the verdict on its maker
signature, key digest included. -/
structure Firmware where
  version : W32
  body : List Byte
  sigOk : Bool
  deriving DecidableEq, Repr

/-- What one memory port's devices answer when saved training is restored (R266). -/
structure PortRead where
  dev0 : W32
  dev1 : W32
  temp : BitVec 8
  checkOk : Bool
  deriving DecidableEq, Repr

/-- The outcome of a port's full training (R264, R265): whether every pin passed within two trials, and the values of
its saved training record. -/
structure PortTrain where
  port : Nat
  ok : Bool
  dev0 : W32
  dev1 : W32
  temp : BitVec 8
  pins : List W32
  ca : List W32
  deriving DecidableEq, Repr

/-- What a start meets in the silicon: failed PUF derivations before the first good one (R442), the physical cores of
each section that fail self-test (R472), and each memory port's answer (R266). -/
structure StartIn where
  pufFails : Nat
  selfTest : List (BitVec 17)
  ports : List PortRead
  deriving DecidableEq, Repr

/-- A fault of one lane pair found by sensing (R489, R490): 4 open, 5 P to N, 6 to ground, 7 crossed. -/
structure LaneFault where
  lane : Nat
  receive : Bool
  fault : BitVec 8
  deriving DecidableEq, Repr

/-- What a native port meets in a negotiation (R340): lane faults of step 1; whether the partner trains; inverted
physical lanes; the physical lane that carries each logical lane; the partner's offer; the lanes good in both
directions at 212.5, 106.25 and 53.125 Gb/s; FEC lock; and the partner's hello. -/
structure NegIn where
  partner : Bool
  faults : List LaneFault
  inverted : BitVec 5
  order : List Nat
  native : Bool
  rates : BitVec 3
  rs544 : Bool
  looped : Bool
  good212 : BitVec 5
  good106 : BitVec 5
  good53 : BitVec 5
  fecLock : Bool
  hello : List W32
  deriving DecidableEq, Repr

/-- A frame at an edge port that holds a UDP datagram (R364, R365). good is false for any failed frame, header or
checksum test of R364; vlan is 0 for an untagged frame; ip6 tells the address family; words are the 16 header words and data the input bytes. -/
structure Datagram where
  good : Bool
  ip6 : Bool
  srcIp : BitVec 128
  dstIp : BitVec 128
  srcPort : W16
  dstPort : W16
  srcMac : BitVec 48
  vlan : BitVec 12
  words : List W32
  data : List Byte
  deriving DecidableEq, Repr

/-- The sensors of the module at a sample: mean input power and die power in mW, input voltage in mV, the four
junctions, the GDDR7, NAND, Maltster and board temperatures in °C, and the energy drawn since the last sample in mJ. -/
structure Sensors where
  powerIn : Nat
  powerDie : Nat
  vin : Nat
  tj : List Nat
  tCask : Nat
  tNand : Nat
  tMalt : Nat
  tBoard : Nat
  energy : Nat
  deriving DecidableEq, Repr

/-- A cask sector in error met by a read (R250): its byte address, whether it was uncorrectable, and, where it was not, whether
three or more of its symbols were wrong and passed for one. With line, it is instead a line of a core store (R471). -/
structure SectorError where
  addr : Nat
  uncorrectable : Bool
  passed : Bool := false
  line : Bool := false
  deriving DecidableEq, Repr

/-- The step of the cellar error ladder at which a read ended (R297). -/
inductive Rung where
  | hard | retry | soft | uncorrectable
  deriving DecidableEq, Repr

/-- A configuration write of the PCI Express function (R407, R408). -/
inductive ConfigWrite where
  | busMaster (on : Bool)
  | memorySpace (on : Bool)
  | d3hot (on : Bool)
  | absent
  deriving DecidableEq, Repr

/-- The sideband and management outputs that are read back, numbered as SUBJECT 0x100 + n of R490 numbers them. -/
inductive Pin where
  | sda | scl | wake | present | sync | uartTx | tdo
  deriving DecidableEq, Repr

/-- What a host read of a DMA transfer delivers (R431): the bytes, in the order the copy reads them. -/
abbrev HostData := List Byte

/-- The commands and events of the module: one constructor per row of spec/opcode_table.json, in its order. q and tag
name a started command of the control port; id names an issued plan command; rq names a receive-area slot. -/
inductive Instr where
  /-- R419. -/
  | nop (q tag : Nat)
  /-- R454, step 0. -/
  | openSessionChallenge (q tag : Nat)
  /-- R454, step 1. -/
  | openSessionAnswer (q tag : Nat) (answer : SessionAnswer)
  /-- R454. -/
  | closeSession (q tag : Nat)
  /-- R111; image is the buffer of R109. -/
  | loadPlan (q tag : Nat) (image : List Byte)
  /-- R307; the buffer holds no weight image and no tag plane. -/
  | loadPlanAdopt (q tag : Nat) (image : List Byte)
  /-- R421. -/
  | unloadPlan (q tag : Nat)
  /-- R420; the buffer is one request header of R365. -/
  | grist (q tag : Nat) (header : List W32)
  /-- R373; the buffer holds the run entries of R422. -/
  | train (q tag : Nat) (runs : List W32)
  /-- R424. -/
  | plainRerun (q tag : Nat)
  /-- R217. -/
  | setRefresh (q tag : Nat)
  /-- R423. -/
  | readTable (q tag : Nat)
  /-- R423; the buffer holds the entries as words. -/
  | loadTable (q tag : Nat) (entries : List W32)
  /-- R401. -/
  | initSet (q tag : Nat)
  /-- R430. -/
  | dmaStart (q tag : Nat)
  /-- R437. -/
  | dmaControlResume (q tag : Nat)
  /-- R437. -/
  | dmaControlAbort (q tag : Nat)
  /-- R108. -/
  | simmerDisable (q tag : Nat)
  /-- R108. -/
  | simmerEnable (q tag : Nat)
  /-- R495. -/
  | powerSetRest (q tag : Nat)
  /-- R496. -/
  | powerSetDormant (q tag : Nat)
  /-- R496. -/
  | powerSetStandby (q tag : Nat)
  /-- R503. -/
  | powerCap (q tag : Nat)
  /-- R500. -/
  | readTelemetry (q tag : Nat)
  /-- R457. -/
  | installImprint (q tag : Nat) (image : Imprint)
  /-- R458. -/
  | installFirmware (q tag : Nat) (image : Firmware)
  /-- R450. -/
  | commitVersion (q tag : Nat)
  /-- R453; start is what the warm start meets. -/
  | restart (q tag : Nat) (start : StartIn)
  /-- R464. -/
  | readErrata (q tag : Nat)
  /-- R468; the buffer holds the companion colophon. -/
  | openWindow (q tag : Nat) (companion : Digest)
  /-- R468. -/
  | closeWindow (q tag : Nat)
  /-- R459. -/
  | attest (q tag : Nat)
  /-- R488. -/
  | coreService (q tag : Nat)
  /-- R488; failed is the set of physical cores that fail the test. -/
  | selfTest (q tag : Nat) (failed : BitVec 17)
  /-- R488; net is what the port's renegotiation meets. -/
  | laneService (q tag : Nat) (net : NegIn)
  /-- R488. -/
  | portService (q tag : Nat)
  /-- R488. -/
  | readSpares (q tag : Nat)
  /-- R417. -/
  | sqTail (q : Nat) (value : W32)
  /-- R417. -/
  | cqHead (q : Nat) (value : W32)
  /-- R412; value is the QCFG word, whose ENABLE is 1. -/
  | queueEnable (q : Nat) (value : W32)
  /-- R414; value is the QCFG word, whose ENABLE is 0. -/
  | queueDisable (q : Nat) (value : W32)
  /-- R426; events is the set of classes raised in the same NOC cycle (R11). -/
  | attnPendingClear (value : W32) (events : BitVec 8)
  /-- R411. -/
  | timeLoRead
  /-- R9, R11; offset is the BAR0 offset; event tells that one event arrives in the same NOC cycle. -/
  | readClearField (offset : Nat) (event : Bool)
  /-- R411; size is the access's size in bytes. -/
  | registerWriteOther (offset : Nat) (value : W32) (size : Nat)
  /-- R417. -/
  | submissionFetch (got : HostFetch)
  /-- R409. -/
  | conventionalReset
  /-- R409. -/
  | hotReset
  /-- R409. -/
  | functionLevelReset
  /-- R509; refclk tells whether the host's REFCLK is present. -/
  | perstRelease (refclk : Bool)
  /-- R408. -/
  | configWrite (w : ConfigWrite)
  /-- R522. -/
  | sidebandStatus
  /-- R499, R522; pec tells whether the PEC byte is present and right. -/
  | sidebandWake (data : Byte) (pec : Bool)
  /-- R499, R522. -/
  | sidebandStandby (data : Byte) (pec : Bool)
  /-- R514. -/
  | supplyTurnOn
  /-- R451. -/
  | coldStart (start : StartIn)
  /-- R264. -/
  | caskTrainingDone (results : List PortTrain)
  /-- R305. -/
  | cellarRebuildDone
  /-- R514. -/
  | undervoltage
  /-- R514. -/
  | overvoltage
  /-- R521; straps is ADDR1, ADDR0. -/
  | auxPowerApplied (straps : BitVec 2)
  /-- R533. -/
  | auxPowerLost
  /-- R506. -/
  | thermalTrip
  /-- R505; temp is the junction of the section. -/
  | emergencyDrop (sec temp : Nat)
  /-- R504; the mean power of the last 100 µs and the temperatures. -/
  | throttleAdjust (sensors : Sensors)
  /-- R501. -/
  | telemetrySample (sensors : Sensors)
  /-- R494. -/
  | enterReady
  /-- R494. -/
  | returnToRun
  /-- R495. -/
  | autoRest
  /-- R495; start is what a stop's next start needs nothing of: the entry's last step. -/
  | powerEntryComplete
  /-- R498. -/
  | wakeAtReached
  /-- R498. -/
  | exitRest
  /-- R498; ports is what the memory ports answer (R266). -/
  | exitDormant (ports : List PortRead)
  /-- R498. -/
  | exitStandby (start : StartIn)
  /-- R366. -/
  | requestDatagram (port : Nat) (dgram : Datagram)
  /-- R366; ctx is the reply context. -/
  | requestAssemblyTimeout (port ctx : Nat)
  /-- R366. -/
  | replyContextExpiry (port ctx : Nat)
  /-- R364; an ARP request or neighbour solicitation for target. -/
  | neighbourRequest (port : Nat) (ip6 : Bool) (target : BitVec 128)
  /-- R194; sec and rec name the request record (R312). -/
  | requestAdmit (sec rec : Nat)
  /-- R316. -/
  | requestContinue (sec rec : Nat)
  /-- R327. -/
  | requestFork (sec rec : Nat)
  /-- R194. -/
  | requestReset (sec rec : Nat)
  /-- R194. -/
  | requestEnd (sec rec : Nat)
  /-- R194. -/
  | requestPause (sec rec : Nat)
  /-- R194. -/
  | requestResume (sec rec : Nat)
  /-- R318; part is the partition. -/
  | gristCycleStart (part : Nat)
  /-- R319. -/
  | gristTick (part : Nat)
  /-- R318. -/
  | gristCycleEnd (part : Nat)
  /-- R327. -/
  | forkCycle (part : Nat)
  /-- R327. -/
  | endCycle (part : Nat)
  /-- R126. -/
  | matmul (id : Nat)
  /-- R132. -/
  | matmulPair (id : Nat)
  /-- R185. -/
  | attend (id : Nat)
  /-- R211. -/
  | scan (id : Nat)
  /-- R229. -/
  | conv (id : Nat)
  /-- R238. -/
  | pool (id : Nat)
  /-- R97. -/
  | dist (id : Nat)
  /-- R535. -/
  | reduce (id : Nat)
  /-- R123. -/
  | vector (id : Nat)
  /-- R355. -/
  | route (id : Nat)
  /-- R359. -/
  | send (id : Nat)
  /-- R357. -/
  | recvGather (id : Nat)
  /-- R360. -/
  | recvSum (id : Nat)
  /-- R360. -/
  | recvChannel (id : Nat)
  /-- R172. -/
  | fork (id : Nat)
  /-- R171. -/
  | leafAppend (id : Nat)
  /-- R171. -/
  | leafTrim (id : Nat)
  /-- R171. -/
  | leafFree (id : Nat)
  /-- R381. -/
  | sparge (id : Nat)
  /-- R124. -/
  | fence (id : Nat)
  /-- R88; errs are the sectors that the pass's reads find in error (R250), or, where no pass runs, that the next read of
  another row will. -/
  | passStart (id : Nat) (errs : List SectorError)
  /-- R138; arrTime is the ARR cycles from issue to the end of the last slice. -/
  | commitFlip (id arrTime : Nat)
  /-- R105; core is the module-wide number. -/
  | simmerRampDown (core : Nat)
  /-- R106. -/
  | rampUpStep (core : Nat)
  /-- R145; waiting tells that the slice waits at a pass boundary for an operand. -/
  | commandTimeLimit (id : Nat) (waiting : Bool)
  /-- R170. -/
  | leafExhausted (id : Nat)
  /-- R370. -/
  | commitSweep
  /-- R281. -/
  | heatEpoch
  /-- R284. -/
  | promotionDone (handle : Handle)
  /-- R283. -/
  | cellarDirectReadDone (handle : Handle)
  /-- R309. -/
  | sectionStoreCopyDone (handle : Handle)
  /-- R288; handle is the leaf chosen under the age rule. -/
  | earlyWriteBack (part : Nat) (handle : Handle)
  /-- R290. -/
  | writeBackAdmitted (handle : Handle)
  /-- R289. -/
  | writeBufferAccept (handle : Handle)
  /-- R295. -/
  | nandProgram
  /-- R295; die is the number of f[6:0]. -/
  | reclamation (die : Nat)
  /-- R301; block is the logical data superblock. -/
  | programEraseFailure (die block : Nat)
  /-- R297. -/
  | cellarReadDone (handle : Handle) (rung : Rung)
  /-- R299; data is the leaf's 65 536 bytes and tags its sequence tags. -/
  | weightCopyArrival (handle : Handle) (data : List Byte) (tags : List (BitVec 4))
  /-- R300. -/
  | weightFetchTimeout (handle : Handle)
  /-- R267; pins are words 4 to 39 as R265 has them where any has moved, else none, answered that the devices answer, pinsOk that no pin failed twice. -/
  | retrainingPause (port : Nat) (pins : List W32) (answered pinsOk : Bool)
  /-- R273; ports is what the remaining ports answer. -/
  | caskRestartDone (ports : List PortRead)
  /-- R261; the two devices' temperatures. -/
  | deviceTemperatureRead (port t0 t1 : Nat)
  /-- R340. -/
  | negotiation (port : Nat) (net : NegIn)
  /-- R340; step is the step that exceeded its limit. -/
  | negotiationStepLimit (port step : Nat)
  /-- R343. -/
  | negotiationRetry (port : Nat)
  /-- R342. -/
  | renegotiation (port : Nat) (net : NegIn)
  /-- R343. -/
  | partnerLoss (port : Nat)
  /-- R344. -/
  | edgePortUp (port : Nat)
  /-- R344. -/
  | edgePortDown (port : Nat)
  /-- R345. -/
  | helloSend (port : Nat)
  /-- R347; hello is the 16 words of the payload. -/
  | helloReceive (port : Nat) (hello : List W32)
  /-- R368; trailer is the CRC-32C at the parcel's end. -/
  | parcelArrival (port : Nat) (parcel : Parcel) (trailer : W32)
  /-- R369. -/
  | resendRequestReceive (rq : Nat)
  /-- R363. -/
  | queryReceive (rq : Nat)
  /-- R363. -/
  | queryReplyReceive (rq : Nat)
  /-- R363. -/
  | queryDataReceive (rq : Nat)
  /-- R361. -/
  | parcelExpiry (rq : Nat)
  /-- R475. -/
  | unreachableQuery (addr : Nat)
  /-- R511. -/
  | timeParcelSend (port : Nat)
  /-- R512; payload is the 8 words of R511, arrival the port's stamp. -/
  | timeParcelReceive (port : Nat) (payload : List W32) (arrival : W64)
  /-- R512. -/
  | syncRisingEdge
  /-- R386. -/
  | addBlock (channel : Nat)
  /-- R388. -/
  | downBlockReceive (channel : Nat)
  /-- R388. -/
  | downBlockResendWait (channel : Nat)
  /-- R399. -/
  | updateLeafWaitTimeout
  /-- R400. -/
  | publish (slot : Nat)
  /-- R384. -/
  | spargeResendReceive (rq : Nat)
  /-- R380. -/
  | creditParcelReceive (rq : Nat)
  /-- R391. -/
  | backupBlockArrival (rq : Nat)
  /-- R391; seq is the block whose deadline passes. -/
  | backupDeadline (channel seq : Nat)
  /-- R392. -/
  | stepTimerExpiry (channel : Nat)
  /-- R392. -/
  | abortReceive (rq : Nat)
  /-- R481. -/
  | mirrorParcelReceive (rq : Nat)
  /-- R481. -/
  | mirrorAdmissionTimeout (owner stream : Nat)
  /-- R482. -/
  | mirrorAckReceive (rq : Nat)
  /-- R481. -/
  | mirrorRefusalReceive (rq : Nat)
  /-- R482. -/
  | mirrorAckTimeout (stream : Nat)
  /-- R483. -/
  | mirrorReleaseReceive (rq : Nat)
  /-- R483. -/
  | mirrorMapSweep
  /-- R485. -/
  | rollCall
  /-- R485. -/
  | rollCallReceive (rq : Nat)
  /-- R485. -/
  | rollAnswerReceive (rq : Nat)
  /-- R485. -/
  | ownerLost (owner : Nat)
  /-- R471; phys is the physical core. -/
  | coreFailure (sec phys : Nat)
  /-- R471. -/
  | sliceReportTimeout (id core : Nat)
  /-- R430. -/
  | dmaChannelStart (sec : Nat)
  /-- R431; host is what the host reads delivered. -/
  | dmaChannelDone (sec : Nat) (host : HostData)
  /-- R436; cause as in CH_STATE's CAUSE, dir 1 when writing, done the bytes moved, addr the failing block, host what the host reads delivered before it. -/
  | dmaHalt (sec : Nat) (cause : BitVec 4) (dir : Bool) (addr : W64) (done : Nat) (host : HostData)
  /-- R463. -/
  | errataFoldFlush
  /-- R468. -/
  | windowExpiry
  /-- R454. -/
  | makerSessionExpiry (q : Nat)
  /-- R489; low tells a short to ground. -/
  | outputShort (pin : Pin) (low : Bool)
  /-- R489; good tells that the readback agrees. -/
  | shortRetry (pin : Pin) (good : Bool)
  /-- R520; low tells that the pin is still low. -/
  | presentTest (low : Bool)
  /-- R489. -/
  | syncHeld
  /-- R526. -/
  | debugInstruction
  /-- R512. -/
  | timeSourceExpiry
  /-- R503. -/
  | syncThrottleInput (level : Bool)
  /-- R498. -/
  | linkRetrained
  /-- R514; reversed tells the input's level. -/
  | inputReversed (reversed : Bool)
  /-- R455. -/
  | sessionLockoutExpiry
  /-- R454. -/
  | challengeExpiry (q : Nat)
  /-- R479; sid is the stream, handle the leaf. -/
  | mirrorLeafSent (sid : Nat) (handle : Handle)
  /-- R338; units of 256 bytes. -/
  | linkCreditGrant (port units : Nat)
  deriving DecidableEq, Repr

end Sys2Proof
end

