-- ==== Sys2Proof/Config.lean ====
section
/-! DEFINITION. What the spec leaves to the die or to chance, as constants without a body, and the fixed sizes of the
module. A statement about a free value holds for every value of it. -/

namespace Sys2Proof.Config

/-- FREE VALUE: the n-th 64-bit draw of the security engine: challenges (R454), NONCEs (R340), START_IDs (R485). -/
opaque freeDraw : Nat → W64

/-- FREE VALUE: the n-th choice of the racking agent among the leaves the age rule of R287 allows. -/
opaque freeChoice : Nat → Nat

/-- FREE VALUE: the bits the transcendental unit returns for function f (0 exp2, 1 reciprocal, 2 reciprocal square
root, 3 tanh, 4 sigmoid, 5 GELU, 6 SiLU) of an FP32 word (R69). It is used only within R69's bound. -/
opaque transc : Nat → W32 → W32

/-- FREE VALUE: the scale byte of group i of the initial values that the n-th draw's INIT_SET reads, whose place the spec does
not give (R401, log 73). -/
opaque freeByte : Nat → Nat → Byte

/-- FREE VALUE: which order code the module is: KCM-4816-W, with a cold plate, or KCM-4816-A (R1). -/
opaque coldPlate : Bool

/-- FREE VALUE: the manufacturer field of IDCODE, which Savober's boundary-scan description file gives (R526). -/
opaque idManufacturer : BitVec 11

/-- FREE VALUE: the module's identity digest, derived from its PUF (R441). -/
opaque identityDigest : Digest

/-- FREE VALUE: the attestation public key derived from the PUF (R441), as 32 bytes. -/
opaque attestKey : BitVec 256

/-- FREE VALUE: byte i of the attestation key's signature over a report, given the report's bytes (R459). -/
opaque attestSign : List Byte → Nat → Byte

/-- FREE VALUE: the cosine of pi times f, as a binary64 word, for a binary64 word f, by the one fixed method of R404. -/
opaque cosPi : W64 → W64

/-- FREE VALUE: the member a trunk's hash of SRC and DEST picks among n that are up (R353). -/
opaque trunkHash : BitVec 20 → BitVec 20 → Nat → Nat

/-- FREE VALUE: the ARR cycles from its issue at which the n-th kill stops a command (R141). -/
opaque killTime : Nat → Nat

/-- FREE VALUE: the heat epochs after which the replicas asked by query n count as not answering (R299). -/
opaque answerWait : Nat → Nat

/-- FREE VALUE: the bytes that the n-th program of index records or of a checkpoint writes, which the spec does not give (R290,
R304). -/
opaque indexBytes : Nat → Nat

/-- FREE VALUE: the steering in ppm for a median offset in ticks (R512); it is used only within ±50. -/
opaque steer : Int → Int

/-- FREE VALUE: the next value of simmer's LFSR, whose polynomial the spec does not give (R103). -/
opaque simmerNext : W32 → W32

/-- FREE VALUE: the running level that a core's n-th measurement of its supply current gives (R104). -/
opaque runLevel : Nat → Nat

/-- FREE VALUE: the sixteenths of the row wires whose drive keeps a core within 10 % of a running level; it is used only up to
16 (R104). -/
opaque holdDrive : Nat → Nat

/-- FREE VALUE: the byte that a line of the vector scratch that holds no current data bears at an address, once the n-th
working data of a command have used the lines (R134, R184): the spec does not give their layout. -/
opaque scratchFill : Nat → Nat → Byte

/-- FREE VALUE: byte i of what the n-th sector with three or more wrong symbols decodes to where they pass for one; byte 64 is
its meta symbol (R250). -/
opaque misread : Nat → Nat → Byte

/-- FREE VALUE: the completion record that a sector of the module tables holds: its section, and 4 times its place (R253, R262). -/
opaque recordAt : Nat → Nat

/-- The bytes of the n-th leaf content that the spec leaves undefined until it is written (R540), by offset: free. -/
opaque leafFill : Nat → Nat → Byte

/-- The tags of that content, by block: free. -/
opaque leafTag : Nat → Nat → BitVec 4

/-- FREE VALUE: whether the read of record k of the n-th set that is updated meets an uncorrectable error (R394). -/
opaque recordLost : Nat → Nat → Bool

/-- FREE VALUE: what the n-th transfer out of a core store finds in the byte at an address of the weight buffer or the
accumulator file once commands have run, and past the core stores, in the tag of a block there (R81, R91, R120). -/
opaque coreFill : Nat → Nat → Byte

/-- Leaf bytes (64 KiB). -/
abbrev leafBytes : Nat := 65536
/-- Frames of the leaf pool with all ports in service (R253). -/
abbrev poolFrames16 : Nat := 1769472
/-- Cellar frames in service with every die (R292). -/
abbrev cellarFramesAll : Nat := 454557696
/-- Frames per die (R292). -/
abbrev framesPerDie : Nat := 3551232
/-- NAND bytes a frame programs (R294). -/
abbrev frameNand : Nat := 73728
/-- The null handle (R146). -/
abbrev nullHandle : Nat := 0xFFFFFFFF
/-- Bytes of a core store (R120). -/
abbrev coreBytes : Nat := 0x600000
/-- Bytes of a section store (R17). -/
abbrev sectionBytes : Nat := 0x2000000

end Sys2Proof.Config
end

