-- ==== Sys2Proof/Machine/Num.lean ====
section
/-! DEFINITION. Exact values, element formats and roundings (R36 to R38, R52, R54, R56, R62, R69's ulp). -/

namespace Sys2Proof.Machine

/-- An exact value: NaN, an infinity (true: negative), or (-1)^neg * mag * 2^exp. A zero keeps its sign. -/
inductive FVal where
  | nan
  | inf (neg : Bool)
  | fin (neg : Bool) (mag : Nat) (exp : Int)
  deriving DecidableEq, Repr

/-- +0. -/
def fzero : FVal := .fin false 0 0
/-- 1. -/
def fone : FVal := .fin false 1 0
/-- An integer as an exact value. -/
def ofInt (i : Int) : FVal := .fin (i < 0) i.natAbs 0
/-- A natural number as an exact value. -/
def ofNat (n : Nat) : FVal := .fin false n 0

/-- The signed integer that mag stands for when its unit is lowered to 2^e. -/
def sigAt (neg : Bool) (mag : Nat) (exp e : Int) : Int :=
  let m : Int := (mag <<< (exp - e).toNat : Nat)
  if neg then -m else m

/-- Exact sum; the sum of +0 and -0 is +0 (R38), of unlike infinities NaN (R58). -/
def fadd : FVal → FVal → FVal
  | .nan, _ => .nan
  | _, .nan => .nan
  | .inf a, .inf b => if a = b then .inf a else .nan
  | .inf a, .fin _ _ _ => .inf a
  | .fin _ _ _, .inf b => .inf b
  | .fin n1 m1 e1, .fin n2 m2 e2 =>
    let e := min e1 e2
    let s := sigAt n1 m1 e1 e + sigAt n2 m2 e2 e
    if s = 0 then .fin (n1 && n2 && m1 == 0 && m2 == 0) 0 e else .fin (s < 0) s.natAbs e

/-- Exact product; infinity times 0 is NaN. -/
def fmul : FVal → FVal → FVal
  | .nan, _ => .nan
  | _, .nan => .nan
  | .inf a, .inf b => .inf (a != b)
  | .inf a, .fin n m _ => if m = 0 then .nan else .inf (a != n)
  | .fin n m _, .inf a => if m = 0 then .nan else .inf (a != n)
  | .fin n1 m1 e1, .fin n2 m2 e2 => .fin (n1 != n2) (m1 * m2) (e1 + e2)

/-- Negation. -/
def fneg : FVal → FVal
  | .nan => .nan
  | .inf a => .inf (!a)
  | .fin n m e => .fin (!n) m e

/-- Magnitude. -/
def fabs : FVal → FVal
  | .nan => .nan
  | .inf _ => .inf false
  | .fin _ m e => .fin false m e

/-- Exact difference. -/
def fsub (a b : FVal) : FVal := fadd a (fneg b)

/-- Is it NaN? -/
def isNan : FVal → Bool
  | .nan => true
  | _ => false
/-- Is it infinite? -/
def isInf : FVal → Bool
  | .inf _ => true
  | _ => false
/-- Is it a finite value? -/
def isFin : FVal → Bool
  | .fin _ _ _ => true
  | _ => false
/-- Is it a zero of either sign? -/
def isZero : FVal → Bool
  | .fin _ 0 _ => true
  | _ => false
/-- The sign of the value, false for NaN. -/
def isNeg : FVal → Bool
  | .nan => false
  | .inf a => a
  | .fin n _ _ => n

/-- a < b, exactly; false when either is NaN; zeros of both signs are equal. -/
def flt : FVal → FVal → Bool
  | .nan, _ => false
  | _, .nan => false
  | .inf a, .inf b => a && !b
  | .inf a, .fin _ _ _ => a
  | .fin _ _ _, .inf b => !b
  | .fin n1 m1 e1, .fin n2 m2 e2 =>
    let e := min e1 e2
    decide (sigAt n1 m1 e1 e < sigAt n2 m2 e2 e)

/-- a ≤ b, exactly; false when either is NaN. -/
def fle (a b : FVal) : Bool := !isNan a && !isNan b && !flt b a

/-- Number of bits of a natural number. -/
def bitLen (n : Nat) : Nat := if n = 0 then 0 else Nat.log2 n + 1

/-- Shift right by s, rounded to nearest even. -/
def rneShr (m s : Nat) : Nat :=
  if s = 0 then m else
    let q := m >>> s
    let r := m - (q <<< s)
    let half := 1 <<< (s - 1)
    if half < r ∨ (r = half ∧ q % 2 = 1) then q + 1 else q

/-- Shift right by s, rounded up. -/
def upShr (m s : Nat) : Nat :=
  let q := m >>> s
  if q <<< s = m then q else q + 1

/-- Shift right by s under R52: up when d + r is 2^24 or more, d the 24 bits below the last place. -/
def stoShr (r m s : Nat) : Nat :=
  let q := m >>> s
  let d := if 24 ≤ s then (m >>> (s - 24)) % 0x1000000 else (m % (1 <<< s)) <<< (24 - s)
  if 0x1000000 ≤ d + r then q + 1 else q

/-- A finite magnitude rounded to prec bits with a unit of at least 2^emin, by the shift f; no upper limit. -/
def roundMag (f : Nat → Nat → Nat) (prec : Nat) (emin : Int) (mag : Nat) (exp : Int) : Nat × Int :=
  if mag = 0 then (0, emin) else
    let q := max (exp + bitLen mag - prec) emin
    if q ≤ exp then (mag <<< (exp - q).toNat, q) else (f mag (q - exp).toNat, q)

/-- A value rounded to prec bits with no upper limit on its exponent. -/
def roundFree (f : Nat → Nat → Nat) (prec : Nat) (emin : Int) : FVal → FVal
  | .fin n m e => let r := roundMag f prec emin m e; .fin n r.1 r.2
  | v => v

/-- Is the finite value's magnitude at least 2^k? -/
def geTwoPow (v : FVal) (k : Int) : Bool :=
  match v with
  | .fin _ m e => m != 0 && decide (k < e + (bitLen m : Int))
  | _ => false

/-- Rounded to FP32; a magnitude of 2^128 or more becomes infinity (R52, R58). -/
def round32 (f : Nat → Nat → Nat) (v : FVal) : FVal :=
  let r := roundFree f 24 (-149) v
  if geTwoPow r 128 then .inf (isNeg r) else r

/-- Rounded to FP32 to nearest even. -/
def rne32 (v : FVal) : FVal := round32 rneShr v

/-- Rounded to binary64 to nearest even (R404). -/
def rne64 (v : FVal) : FVal :=
  let r := roundFree rneShr 53 (-1074) v
  if geTwoPow r 1024 then .inf (isNeg r) else r

/-- The quotient of two finite nonzero values with a sticky bit below 64 or more exact bits: any rounding of at most
53 bits by rneShr, stoShr or upShr sees the exact quotient. -/
def quot (n1 : Bool) (m1 : Nat) (e1 : Int) (n2 : Bool) (m2 : Nat) (e2 : Int) : FVal :=
  let k := 96 + bitLen m2
  let q := (m1 <<< k) / m2
  let s := if q * m2 = m1 <<< k then 0 else 1
  .fin (n1 != n2) (2 * q + s) (e1 - e2 - k - 1)

/-- Division, exact but for the sticky bit of quot. -/
def fdiv : FVal → FVal → FVal
  | .nan, _ => .nan
  | _, .nan => .nan
  | .inf _, .inf _ => .nan
  | .inf a, .fin n _ _ => .inf (a != n)
  | .fin n _ _, .inf a => .fin (n != a) 0 0
  | .fin n1 m1 e1, .fin n2 m2 e2 =>
    if m2 = 0 then (if m1 = 0 then .nan else .inf (n1 != n2))
    else if m1 = 0 then .fin (n1 != n2) 0 0
    else quot n1 m1 e1 n2 m2 e2

/-- The decoding of an IEEE-style word of ebits exponent bits and mbits fraction bits. -/
def decodeIeee (ebits mbits : Nat) (w : Nat) : FVal :=
  let bias : Int := (1 <<< (ebits - 1) : Nat) - 1
  let frac := w % (1 <<< mbits)
  let ex := (w >>> mbits) % (1 <<< ebits)
  let neg := (w >>> (mbits + ebits)) % 2 == 1
  if ex = (1 <<< ebits) - 1 then (if frac = 0 then .inf neg else .nan)
  else if ex = 0 then .fin neg frac (1 - bias - mbits)
  else .fin neg (frac + (1 <<< mbits)) (ex - bias - mbits)

/-- The word of a finite value that the format holds exactly. -/
def encodeFin (ebits mbits : Nat) (neg : Bool) (mag : Nat) (exp : Int) : Nat :=
  let bias : Int := (1 <<< (ebits - 1) : Nat) - 1
  let sign := if neg then 1 <<< (ebits + mbits) else 0
  let at_ (u : Int) : Nat := if u ≤ exp then mag <<< (exp - u).toNat else mag >>> (u - exp).toNat
  if mag = 0 then sign else
    let e : Int := exp + bitLen mag - 1
    if e < 1 - bias then sign + at_ (1 - bias - mbits)
    else sign + ((e + bias).toNat <<< mbits) + (at_ (e - mbits) - (1 <<< mbits))

/-- The word of an IEEE-style format for a value it holds exactly; NaN is the canonical one (R37). -/
def encodeIeee (ebits mbits : Nat) : FVal → Nat
  | .nan => (((1 <<< ebits) - 1) <<< mbits) + (1 <<< (mbits - 1))
  | .inf n => (if n then 1 <<< (ebits + mbits) else 0) + (((1 <<< ebits) - 1) <<< mbits)
  | .fin n m e => encodeFin ebits mbits n m e

/-- E4M3 (R36): no infinity, NaN at exponent 15 and mantissa 7. -/
def decodeE4M3 (w : Nat) : FVal :=
  let frac := w % 8
  let ex := (w / 8) % 16
  let neg := (w / 128) % 2 == 1
  if ex = 15 ∧ frac = 7 then .nan
  else if ex = 0 then .fin neg frac (-9)
  else .fin neg (frac + 8) (ex - 10)

/-- The E4M3 word of a value it holds exactly; NaN is 0x7F. An infinity stands for 448 of its sign (R62). -/
def encodeE4M3 : FVal → Nat
  | .nan => 0x7F
  | .inf n => if n then 0xFE else 0x7E
  | .fin n m e => encodeFin 4 3 n m e

/-- E8M0 (R36). -/
def decodeE8M0 (w : Nat) : FVal := if w = 0xFF then .nan else .fin false 1 ((w : Int) - 127)

/-- FP32 of a word. -/
def ofW32 (w : W32) : FVal := decodeIeee 8 23 w.toNat
/-- The word of an FP32 value. -/
def toW32 (v : FVal) : W32 := BitVec.ofNat 32 (encodeIeee 8 23 v)

/-- The value of an element of format code fmt (R36); reserved codes have no value and give NaN. -/
def decodeElem (fmt : Nat) (w : Nat) : FVal :=
  match fmt with
  | 0 => ofInt (if w % 256 < 128 then (w % 256 : Nat) else (w % 256 : Nat) - 256)
  | 1 => ofNat (w % 256)
  | 2 => ofInt (if w % 16 < 8 then (w % 16 : Nat) else (w % 16 : Nat) - 16)
  | 3 => decodeE4M3 (w % 256)
  | 4 => decodeIeee 5 2 (w % 256)
  | 5 => decodeIeee 8 7 (w % 65536)
  | 6 => decodeIeee 5 10 (w % 65536)
  | 7 => decodeIeee 8 23 (w % 0x100000000)
  | _ => .nan

/-- Bits of an element of format code fmt. -/
def elemBits (fmt : Nat) : Nat :=
  match fmt with
  | 2 => 4
  | 0 | 1 | 3 | 4 => 8
  | 5 | 6 => 16
  | _ => 32

/-- Is the format an integer format? -/
def isIntFmt (fmt : Nat) : Bool := fmt ≤ 2

/-- Precision of a floating format. -/
def fmtPrec (fmt : Nat) : Nat :=
  match fmt with
  | 3 => 4
  | 4 => 3
  | 5 => 8
  | 6 => 11
  | _ => 24
/-- Exponent of the least unit of a floating format. -/
def fmtEmin (fmt : Nat) : Int :=
  match fmt with
  | 3 => -9
  | 4 => -16
  | 5 => -133
  | 6 => -24
  | _ => -149
/-- The greatest finite magnitude of a floating format. -/
def fmtMax (fmt : Nat) : FVal :=
  match fmt with
  | 3 => .fin false 7 6
  | 4 => .fin false 7 13
  | 5 => .fin false 255 120
  | 6 => .fin false 2047 5
  | _ => .fin false 0xFFFFFF 104
/-- Least and greatest value of an integer format. -/
def intRange (fmt : Nat) : Int × Int :=
  match fmt with
  | 0 => (-128, 127)
  | 1 => (0, 255)
  | _ => (-8, 7)

/-- The word of a value in a floating format that holds it. -/
def encodeElem (fmt : Nat) (v : FVal) : Nat :=
  match fmt with
  | 3 => encodeE4M3 v
  | 4 => encodeIeee 5 2 v
  | 5 => encodeIeee 8 7 v
  | 6 => encodeIeee 5 10 v
  | _ => encodeIeee 8 23 v

/-- A finite value rounded to an integer by the shift f, with no limit on its range. -/
def roundInt (f : Nat → Nat → Nat) (v : FVal) : Int :=
  match v with
  | .fin n m e =>
    let q : Nat := if 0 ≤ e then m <<< e.toNat else f m (-e).toNat
    if n then -(q : Int) else q
  | _ => 0

/-- x clamped to lo..hi. -/
def clampInt (lo hi x : Int) : Int := if x < lo then lo else if hi < x then hi else x

/-- One element of an output conversion (R62) under the shift f: the word and whether it saturated. -/
def convElem (f : Nat → Nat → Nat) (fmt : Nat) (zp : Int) (v : FVal) : Nat × Bool :=
  if isIntFmt fmt then
    let r := intRange fmt
    let word (i : Int) : Nat := (i % (1 <<< elemBits fmt : Nat)).toNat
    match v with
    | .nan => (word (clampInt r.1 r.2 zp), false)
    | .inf n => (word (if n then r.1 else r.2), true)
    | .fin _ _ _ =>
      let s := roundInt f v + zp
      (word (clampInt r.1 r.2 s), decide (s < r.1 ∨ r.2 < s))
  else if fmt = 7 then (encodeElem 7 v, false)
  else
    match v with
    | .nan => (encodeElem fmt .nan, false)
    | .inf n => (encodeElem fmt (.inf n), fmt == 3)
    | .fin _ _ _ =>
      let r := roundFree f (fmtPrec fmt) (fmtEmin fmt) v
      if flt (fmtMax fmt) (fabs r) then (encodeElem fmt (.inf (isNeg r)), fmt == 3)
      else (encodeElem fmt r, false)

/-- One step of a generator (R54): x^32 + x^22 + x^2 + x + 1. -/
def lfsrStep (x : W32) : W32 := if x.getLsbD 0 then (x >>> 1) ^^^ 0x80200003#32 else x >>> 1

/-- A number of generator steps. -/
def lfsrSteps : Nat → W32 → W32
  | 0, x => x
  | n + 1, x => lfsrSteps n (lfsrStep x)

/-- The seed of a generator at issue (R56). -/
def seedGen (srSeed : W64) (serial : BitVec 48) (core column : Nat) : W32 :=
  let lo : W32 := srSeed.setWidth 32
  let hi : W32 := (srSeed >>> 32).setWidth 32
  let x := lo ^^^ hi.rotateLeft 13
  let x := x ^^^ serial.setWidth 32 ^^^ ((serial >>> 32).setWidth 32 <<< 16)
  let x := x ^^^ BitVec.ofNat 32 (core <<< 9) ^^^ BitVec.ofNat 32 column
  let x := x ^^^ (x >>> 15)
  let x := x * 0x6C8E9CF5#32
  let x := x ^^^ (x >>> 13)
  let x := x * 0x2F1AB3D7#32
  let x := x ^^^ (x >>> 16)
  if x = 0 then 1 else x

/-- The 257 generators of a core seeded at an issue (R54, R56). -/
def seedAll (srSeed : W64) (serial : BitVec 48) (core : Nat) : List W32 :=
  (List.range 257).map (seedGen srSeed serial core)

end Sys2Proof.Machine
end

