-- ==== Sys2Proof/Machine/Shake.lean ====
section
/-! DEFINITION. SHAKE256 with a 256-bit output and CRC-32C, the two functions the spec takes from outside by name
(R441, R462, R465; R368). PRESUMED: FIPS 202 and the Castagnoli polynomial (log 7). -/

namespace Sys2Proof.Machine

/-! ### Keccak by planes

The 1600 bits are held as five planes of five lanes: plane y is a 320-bit word with lane x in bits [64 x + 63 : 64 x], so
that a shift along x is a rotation of the plane by 64 bits. -/

/-- A row of five 64-bit lanes. -/
abbrev Plane := BitVec 320

/-- Lane x of a plane. -/
def planeLane (p : Plane) (x : Nat) : W64 := p.extractLsb' (64 * x) 64

/-- The plane of five lanes, lane 0 first. -/
def packLanes (ws : List W64) : Plane := ws.foldr (fun w p => (p <<< 64) ||| w.setWidth 320) 0

/-- Theta: every plane takes the parity of the columns one lane below, and of those one lane above turned by one bit. -/
def planesTheta (ps : List Plane) : List Plane :=
  let sum := ps.foldl (· ^^^ ·) 0
  let up := sum.rotateRight 64
  let mix := sum.rotateLeft 64 ^^^ packLanes ((List.range 5).map fun x => (planeLane up x).rotateLeft 1)
  ps.map (· ^^^ mix)

/-- Where pi moves the lane at place x + 5 y: to column y of row 2 x + 3 y. -/
def piPlace (p : Nat) : Nat := p / 5 + 5 * ((2 * (p % 5) + 3 * (p / 5)) % 5)

/-- The walk of rho and pi from place p: its step t turns the lane it stands on by the triangular number
(t + 1)(t + 2) / 2 and lays it down one move further. Lane 0 stays. -/
def rhoPiWalk (old : List W64) : Nat → Nat → Nat → List W64 → List W64
  | 0, _, _, out => out
  | n + 1, t, p, out =>
    rhoPiWalk old n (t + 1) (piPlace p) (out.set (piPlace p) ((old.getD p 0).rotateLeft ((t + 1) * (t + 2) / 2)))

/-- The lanes of planes in the order of their places. -/
def lanesOf (ps : List Plane) : List W64 := ps.flatMap fun p => (List.range 5).map (planeLane p)

/-- Lanes in the order of their places as planes. -/
def planesOf (ws : List W64) : List Plane := (List.range 5).map fun y => packLanes ((ws.drop (5 * y)).take 5)

/-- Chi: each lane takes the next but one where the next holds 0. -/
def planeChi (p : Plane) : Plane := p ^^^ (~~~ p.rotateRight 64 &&& p.rotateRight 128)

/-- One step of the 8-bit register of iota, whose polynomial is x^8 + x^6 + x^5 + x^4 + 1. -/
def iotaStep (r : BitVec 8) : BitVec 8 := if r.getLsbD 7 then (r <<< 1) ^^^ 0x71#8 else r <<< 1

/-- The round constant that seven steps of the register give, bit 2^j - 1 from step j, and the register after them. -/
def iotaRound : Nat → BitVec 8 → W64 × BitVec 8
  | 0, r => (0, r)
  | n + 1, r =>
    let rest := iotaRound n (iotaStep r)
    (if r.getLsbD 0 then rest.1 ||| (1#64 <<< ((1 <<< (6 - n)) - 1)) else rest.1, rest.2)

/-- n rounds of the permutation, the register of iota moving on. -/
def keccakRounds : Nat → BitVec 8 → List Plane → List Plane
  | 0, _, ps => ps
  | n + 1, r, ps =>
    let ws := lanesOf (planesTheta ps)
    let chi := (planesOf (rhoPiWalk ws 24 0 1 ws)).map planeChi
    let k := iotaRound 7 r
    keccakRounds n k.2 (chi.set 0 (chi.getD 0 0 ^^^ k.1.setWidth 320))

/-- A block of 136 bytes, the first 17 lanes, taken in. -/
def takeBlock (ps : List Plane) (blk : List Byte) : List Plane :=
  let word (i : Nat) : W64 := ((blk.drop (8 * i)).take 8).foldr (fun b w => (w <<< 8) ||| b.setWidth 64) 0
  keccakRounds 24 1 (ps.zipWith (· ^^^ ·) (planesOf ((List.range 25).map word)))

/-- Whole blocks taken in, at most fuel of them. -/
def takeBlocks : Nat → List Plane → List Byte → List Plane
  | 0, ps, _ => ps
  | n + 1, ps, bs => takeBlocks n (takeBlock ps (bs.take 136)) (bs.drop 136)

/-- The message padded for SHAKE256 to a multiple of 136 bytes. -/
def shakePad (bs : List Byte) : List Byte :=
  let k := 136 - bs.length % 136
  if k = 1 then bs ++ [0x9F] else bs ++ [0x1F] ++ List.replicate (k - 2) 0 ++ [0x80]

/-- The first 256 bits of SHAKE256, byte 0 in bits [7:0]. -/
def shake256 (bs : List Byte) : Digest :=
  let p := shakePad bs
  ((takeBlocks (p.length / 136) (List.replicate 5 0) p).getD 0 0).setWidth 256

/-- The bytes of an ASCII string. -/
def ascii (s : String) : List Byte := s.toList.map fun c => BitVec.ofNat 8 c.toNat

/-- The n low bytes of a number, least significant first (R7). -/
def leBytes (n : Nat) (v : Nat) : List Byte := (List.range n).map fun i => BitVec.ofNat 8 (v >>> (8 * i))

/-- The number of little-endian bytes. -/
def leNat (bs : List Byte) : Nat := bs.foldr (fun b acc => acc * 256 + b.toNat) 0

/-- The bytes of 32-bit words, little-endian. -/
def wordsBytes (ws : List W32) : List Byte := ws.flatMap fun w => leBytes 4 w.toNat

/-- The 32-bit words of bytes, n of them. -/
def bytesWords (n : Nat) (bs : List Byte) : List W32 :=
  (List.range n).map fun i => BitVec.ofNat 32 (leNat ((bs.drop (4 * i)).take 4))

/-- Eight bit steps of the reflected CRC. -/
def crcBits : Nat → W32 → W32
  | 0, c => c
  | n + 1, c => crcBits n (if c.getLsbD 0 then (c >>> 1) ^^^ 0x82F63B78#32 else c >>> 1)

/-- CRC-32C of bytes. -/
def crc32c (bs : List Byte) : W32 :=
  ~~~ (bs.foldl (fun c b => crcBits 8 (c ^^^ b.setWidth 32)) 0xFFFFFFFF#32)

end Sys2Proof.Machine
end

