-- ==== Sys2Proof/Machine/State.lean ====
section
/-! DEFINITION. The state of the module as plain data, the reasons a step can stop, and the state after reset. -/

namespace Sys2Proof.Machine

/-- Why the machine stops. No meaning raises it: the spec reports every error by a result code (R428) and goes on. It
stands for a state the model could not have reached; raised by nothing, so safe. -/
inductive Fault where
  /-- A store lost its canonical form. Raised by no command: safe. -/
  | malformedStore
  deriving DecidableEq, Repr

/-- Why a command has no meaning here. -/
inductive Refusal where
  /-- The command of that mnemonic has no meaning in the model: safe. -/
  | notModelled (mnemonic : String)
  deriving DecidableEq, Repr

/-! ### Byte stores -/

/-- What an unlisted byte of a store reads as: zero; the form of a new spine root, spine leaf or state leaf, whose handles
and ADV_POS are null; or, in any other new leaf, bytes and tags that the spec leaves undefined, the n-th such content of the
run (R540, log 2). -/
inductive Form where
  | plain | root | spine | state
  | free (n : Nat)
  deriving DecidableEq, Repr

/-- A store of bytes with the 4 tag bits of each 64-byte block (R142) and the numbers of its poisoned 64-byte sectors
(R252). All three lists are canonical: keys strictly rising, no entry equal to what an unlisted key reads as. In a content
that is undefined where it has not been written, every written key is listed. -/
structure Bytes where
  form : Form
  cells : List Host.Cell
  tags : List (Nat × BitVec 4)
  poison : List Nat
  deriving DecidableEq, Repr

/-! ### Control port (R407 to R437) -/

/-- A completion not yet written: code, TAG, RESULT0 and RESULT1. -/
structure Completion where
  code : Code
  tag : Nat
  r0 : W32
  r1 : W32
  deriving DecidableEq, Repr

/-- A queue pair: its registers (R412), what it latched at ENABLE, the completions held while its ring is full (R417),
its session challenge and the KEY its session was opened with (R454, R456). -/
structure Queue where
  sqBase : W64
  cqBase : W64
  sqLog : Nat
  cqLog : Nat
  enable : Bool
  qstate : Nat
  role : Nat
  haltCause : Nat
  sqHead : Nat
  cqTail : Nat
  sqTail : Nat
  cqHead : Nat
  phase : Bool
  lSqBase : W64
  lCqBase : W64
  lSqLog : Nat
  lCqLog : Nat
  held : List Completion
  challenge : Option W64
  key : Nat
  deriving DecidableEq, Repr

/-- A command the control port has started and not completed (R417): its pair, the fields of its entry, the role it was
issued under, the buffer channel of S0 that carries its buffer, whether it has begun, and whether its completion is
discarded (R409, R414). -/
structure Started where
  q : Nat
  tag : Nat
  opc : Nat
  args : List W32
  bufAddr : W64
  bufBytes : Nat
  role : Nat
  chan : Option Nat
  begun : Bool
  discard : Bool
  deriving DecidableEq, Repr

/-- A DMA channel (R437). -/
structure Channel where
  src : W64
  dst : W64
  cfg : W32
  rows : W32
  rowBytes : W32
  srcPitch : W32
  dstPitch : W32
  state : Nat
  dir : Bool
  cause : BitVec 4
  queue : Nat
  tag : Nat
  fail : W64
  done : W64
  deriving DecidableEq, Repr

/-- A DMA engine: its eight channels, the channel served or halted, and the channel last served (R430). -/
structure Dma where
  channels : List Channel
  current : Nat
  last : Nat
  deriving DecidableEq, Repr

/-- The control port's registers and queues. -/
structure Port where
  linkUp : Bool
  busMaster : Bool
  memSpace : Bool
  d3hot : Bool
  hostClock : Bool
  queues : List Queue
  started : List Started
  rrNext : Nat
  attnPending : BitVec 8
  attnCount : List W32
  attnLast : List Code
  timeHi : W32
  simmerOff : BitVec 4
  engines : List Dma
  deriving DecidableEq, Repr

/-! ### Imprint flash, identity, errata log (R439 to R468) -/

/-- A saved training record: its 64 words (R265). -/
structure TrainRec where
  words : List W32
  deriving DecidableEq, Repr

/-- The NOR flash: both slots' firmware and imprints, the anchor record, the version counter, PREFERRED, the core record
and the saved training. -/
structure Nor where
  fw : List (Option Firmware)
  im : List (Option Imprint)
  keyHash : Digest
  prevHash : Digest
  anchorSerial : W32
  versionCounter : W32
  preferred : Nat
  coreRecord : List (BitVec 17)
  training : List (Option TrainRec)
  deriving DecidableEq, Repr

/-- An errata record (R461). -/
structure ErrRec where
  seq : W64
  time : W64
  kind : BitVec 8
  cls : Nat
  role : Nat
  pair : Nat
  code : Code
  count : Nat
  subject : W32
  detail : W32
  chain : Digest
  deriving DecidableEq, Repr

/-- The errata log: the records held by the ring, oldest first, the next SEQ, the newest CHAIN, the record being folded
(R463), how many records, from SEQ 1, have been mirrored to the cellar (R464), and the records of an attention class of 4 or
above, of each of which UART_TX has sent a one-line copy (R527). -/
structure Errata where
  ring : List ErrRec
  nextSeq : W64
  chain : Digest
  fold : Option ErrRec
  mirrored : Nat
  console : List ErrRec
  deriving DecidableEq, Repr

/-- Identity and configuration in force. -/
structure Ident where
  identityOk : Bool
  runSlot : Nat
  imprint : Option Imprint
  firmware : Option Firmware
  startId : W64
  window : Option Digest
  colophon : Digest
  failures : Nat
  lockout : Bool
  debugStop : Bool
  deriving DecidableEq, Repr

/-! ### Sections and cores (R14, R54, R55, R102 to R106) -/

/-- A section's physical cores: failed and excluded ones, the physical core of each logical one, and the physical core
that serves as spare, if any, and the failed cores whose remap waits for a held command (R473). -/
structure Sect where
  failed : BitVec 17
  excluded : BitVec 17
  map : List Nat
  spare : Option Nat
  failing : List Nat
  deriving DecidableEq, Repr

/-- A block of weights: 128 values of k by the columns of one tile (R75, R91). It is named by its command, batch element,
column tile and K-block; where only the tile matters, the K-block is 0. -/
structure WBlock where
  cmd : Nat
  b : Nat
  tile : Nat
  kb : Nat
  deriving DecidableEq, Repr

/-- A pass of a slice: the block it multiplies by, the codes of that block array row by array row (R76), and whether the
array then waits for the vector unit (R539). -/
structure Pass where
  blk : WBlock
  codes : List (List (BitVec 9))
  rest : Bool
  deriving DecidableEq, Repr

/-- A core: command serial number and generators (R55, R54); the stationary registers and the latches of the array by row,
an empty latch row being none, and the block that each of the two holds (R76, R91, R92); the tile whose weights each half of
the weight buffer holds and the half that feeds the front (R91); the rows of the accumulator file that are not all zero, at
256 × bank + entry, each with 128 columns and the hidden one (R81); how often its vector scratch has served a command's
working data (R134, R184); whether the array runs passes, the eighths of full rate it runs them at (R106), the eighths of its
drive that simmer holds, the running level and the drive that holds it in sixteenths, when the gap began, and simmer's LFSR
(R102 to R105). -/
structure CoreSt where
  serial : BitVec 48
  gens : List W32
  cells : List (List (BitVec 9))
  latches : List (Option (List (BitVec 9)))
  held : Option WBlock
  loaded : Option WBlock
  halves : List (Option WBlock)
  feed : Nat
  acc : List (Nat × List W32)
  scratch : Nat
  busy : Bool
  ramp : Nat
  simmer : Nat
  level : Nat
  drive : Nat
  gapAt : Option W64
  lfsr : W32
  deriving DecidableEq, Repr

/-! ### Cask, leaves, racking, cellar (R246 to R311) -/

/-- A cask port's status (R268), the training in force: words 4 to 39 and 40 to 47 as the record of R265 has them, whether a
value has moved since the record was written (R267), and the times of the uncorrectable sectors that may still count towards
its failure (R269). -/
structure MemPort where
  state : Nat
  restored : Bool
  hot : Bool
  temp : BitVec 8
  cause : Nat
  corrected : Nat
  uncorrected : Nat
  lastUncorr : W32
  pins : List W32
  ca : List W32
  moved : Bool
  recent : List Nat
  deriving DecidableEq, Repr

/-- A leaf-table entry (R274). -/
structure Leaf where
  ref : Nat
  pin : Nat
  heat : Nat
  age : Nat
  inSs : Bool
  inCask : Bool
  inCellar : Bool
  dirty : Bool
  poisoned : Bool
  pending : Bool
  tierPinned : Bool
  moving : Bool
  format : Nat
  partition : Nat
  remote : Bool
  ssStale : Bool
  caskFrame : Nat
  ssFrame : Nat
  ssSection : Nat
  cellarFrame : Nat
  deriving DecidableEq, Repr

/-- A free entry: all 16 bytes 0 (R275). -/
def Leaf.free : Leaf :=
  { ref := 0, pin := 0, heat := 0, age := 0, inSs := false, inCask := false, inCellar := false, dirty := false,
    poisoned := false, pending := false, tierPinned := false, moving := false, format := 0, partition := 0,
    remote := false, ssStale := false, caskFrame := 0, ssFrame := 0, ssSection := 0, cellarFrame := 0 }

/-- What a racking move does (R309): promotion, eviction write-back, early write-back, section-store copy, rewrite of an
uncorrectable sector's leaf, or rewrite after a soft decode. -/
inductive MoveKind where
  | promote | evict | early | store | rewrite | soft
  deriving DecidableEq, Repr

/-- Who asked for the frame that an eviction frees (R287): no one that still waits, a stream that needs a leaf, or a leaf to be
promoted. -/
inductive Wanter where
  | none_ | stream (i : Nat) | leaf (h : Handle)
  deriving DecidableEq, Repr

/-- A racking move in progress: its leaf, its kind, the section of a section-store copy, whether the governor has
admitted it (R289), and for whom an eviction frees its frame (R287). -/
structure Move where
  handle : Handle
  kind : MoveKind
  section_ : Nat
  admitted : Bool
  want : Wanter := .none_
  deriving DecidableEq, Repr

/-- A cellar frame (R294): its descriptor, its 65 536 bytes with tags, whether it is current, and whether it has been
programmed or still lies in the write buffer. -/
structure CellarFrame where
  handle : W32
  kind : Nat
  partition : Nat
  slot : Nat
  writeSeq : Nat
  w4 : W32
  w5 : W32
  w6 : W32
  w7 : W32
  data : Bytes
  current : Bool
  programmed : Bool
  deriving DecidableEq, Repr

/-- A NAND die (R292, R295, R301, R302): whether it is retired; spare superblocks in use; physical superblocks out of
service; the map from logical to physical superblocks; erasures per physical superblock; the open logical superblock and
its next page; journal records since the last checkpoint (R304). -/
structure Die where
  retired : Bool
  spares : Nat
  bad : List Nat
  map : List (Nat × Nat)
  erases : List (Nat × Nat)
  open_ : Option (Nat × Nat)
  journal : Nat
  deriving DecidableEq, Repr

/-- The cellar and the Maltster's racking side: frames by number, dies, the die last chosen, the count of frames written,
the governor's bucket in hundredths of a byte and the time of its next admission under GOV_PEAK, the index records and
checkpoints that wait for its admission (R290, R304), and the status counters of R311. -/
structure Cellar where
  frames : List (Nat × CellarFrame)
  dies : List Die
  lastDie : Nat
  writeSeq : Nat
  level : Int
  peakAt : Nat
  indexDue : Nat
  belowMin : Bool
  rebuilding : Bool
  ready : Bool
  stalls : Nat
  retries : Nat
  uncorrectable : Nat
  deriving DecidableEq, Repr

/-- The leaf table, the racking moves, the pool and section-store frames that hold bytes, the handles and frames lost
with their leaf-table sectors (R262), the heat-epoch count (R281), the pins each section's cores made in the running
grist cycle (handle, section, core; R285), the poisoned weight leaves being fetched (R299), the poisoned
leaves whose handle the errata log has (R176), the frames that evictions have given to streams that wait for a leaf (R287),
the leaves whose rewrite to a new frame waits for another move (R297, R309), and the sectors in error that no read has met yet
(R250). -/
structure Rack where
  leaves : List (Nat × Leaf)
  moves : List Move
  pool : List (Nat × Bytes)
  poolSize : Nat
  ss : List ((Nat × Nat) × Bytes)
  lostHandles : List Handle
  lostFrames : List Nat
  heatCount : Nat
  corePins : List (Handle × Nat × Nat)
  fetches : List Handle
  choices : Nat
  logged : List Handle
  grants : List (Nat × Nat)
  rewrites : List Handle
  flawed : List SectorError
  deriving DecidableEq, Repr

/-! ### Streams (R190 to R223) -/

/-- A stream-table entry (R191), with the reservation of R327, the mirror record of R478 (LAST_ACK, the position of a mirror
outstanding, its leaves still to be sent, the entry copied for its manifest) and the progress of a keyframe refresh (R217). -/
structure Stream where
  partition : Nat
  slot : Nat
  prio : Bool
  live : Bool
  reset : Bool
  pause : Bool
  resident : Bool
  ending : Bool
  refresh : Bool
  exh : Nat
  stateLeaf : Handle
  spineRoot : Handle
  position : Nat
  epoch : W32
  parent : Nat
  forked : Bool
  keyPos : Nat
  pauseCause : Code
  stepsLeft : Nat
  reqIndex : Nat
  lastClose : W32
  reserved : Bool
  lastAck : Nat
  mirrorOut : Option Nat
  mirrorLeaves : List Handle
  mirrorEntry : List W32
  refreshDone : Nat
  refreshLog : Nat
  refreshTo : Nat
  pauseNext : Option Code
  deriving DecidableEq, Repr

/-- A free entry that keeps an EPOCH (R192). -/
def Stream.free (epoch : W32) : Stream :=
  { partition := 0, slot := 0, prio := false, live := false, reset := false, pause := false, resident := false,
    ending := false, refresh := false, exh := 0, stateLeaf := Config.nullHandle, spineRoot := Config.nullHandle,
    position := 0, epoch := epoch, parent := 0, forked := false, keyPos := 0, pauseCause := 0, stepsLeft := 0,
    reqIndex := 0, lastClose := 0, reserved := false, lastAck := 0, mirrorOut := none, mirrorLeaves := [], mirrorEntry := [],
    refreshDone := 0, refreshLog := 0, refreshTo := 0, pauseNext := none }

/-! ### Plans, waves and commands (R109 to R145, R312 to R334) -/

/-- A length-table entry (R178). -/
structure Run where
  rowFirst : Nat
  rowCount : Nat
  kvLen : Nat
  qPos0 : Nat
  maskSel : Nat
  full : Bool
  group : Nat
  deriving DecidableEq, Repr

/-- A shape table with its row list and length table (R114). -/
structure Shape where
  dims : List W32
  rows : List Nat
  runs : List Run
  deriving DecidableEq, Repr

/-- A loaded plan: header words, descriptors of 16 words, table image, weight leaves in order, TABLE_BASE and scratch
bases (R113), the 64 KiB units of its plan region (R254), the suspect mark (R144) and the sections it no longer fits
(R33). -/
structure Plan where
  header : List W32
  descs : List (List W32)
  table : List Byte
  leaves : List Handle
  tableBase : Nat
  scratch : List Nat
  regionBase : Nat
  regionUnits : Nat
  suspect : Bool
  unfit : BitVec 4
  deriving DecidableEq, Repr

/-- A model slot: its plan, WEIGHT_KEY, retained weight set (key, image index and leaf; R306), keyframe refresh setting
(R217), and its most recent shape table (R114, R424). -/
structure Slot where
  plan : Option Plan
  key : W64
  retained : Option (W64 × List (Nat × Handle))
  refreshLog : Nat
  refreshSlot : Nat
  shape : Shape
  deriving DecidableEq, Repr

/-- A request record (R312). open_ tells that it is in use and not ended. -/
structure Req where
  open_ : Bool
  kind : Nat
  prio : Bool
  anyId : Bool
  slot : Nat
  stream : Nat
  parent : Nat
  epoch : W32
  steps : Nat
  inputCount : Nat
  inputFrames : Bool
  inputDone : Nat
  inputAddr : W32
  replyCtx : Nat
  result : Code
  dims : List W32
  queued : W32
  next : Nat
  admitted : Bool
  started : Option (Nat × Nat)
  deriving DecidableEq, Repr

/-- What a run of a wave serves. -/
inductive ItemKind where
  | step | chunk | refresh | train
  deriving DecidableEq, Repr

/-- A run of a wave: its stream, its request record (section and index), the EPOCH its item was queued under, its
length-table entry, whether it is void (R325), whether a command with a row in it has issued (R193), and whether it has
closed (1) and its reply has left (2). -/
structure WaveRun where
  stream : Nat
  req : Option (Nat × Nat)
  epoch : W32
  kind : ItemKind
  run : Run
  void : Bool
  begun : Bool
  closed : Nat
  deriving DecidableEq, Repr

/-- A training command that has been accepted (R373): the started command, its slot, LAST, its dimensions, the time of its
arrival, and its runs with their streams. -/
structure Train where
  q : Nat
  tag : Nat
  slot : Nat
  last : Bool
  dims : List W32
  queued : W32
  runs : List (Nat × Run)
  deriving DecidableEq, Repr

/-- A wave (R318): its slot, class, the legs of its sequence as first and last descriptor, the leg to run next, its runs,
its shape table, for a training wave its command, and the code that abandoned it (R377). -/
structure Wave where
  slot : Nat
  prio : Bool
  legs : List (Nat × Nat)
  leg : Nat
  runs : List WaveRun
  shape : Shape
  train : Option Train
  code : Code
  deriving DecidableEq, Repr

/-- A running grist cycle: whether it is the priority wave's, its start, its ticks so far, and whether it overran. -/
structure Cycle where
  prio : Bool
  start : W64
  ticks : Nat
  overran : Bool
  deriving DecidableEq, Repr

/-- A partition's lead: its waves, whether the bulk wave is suspended and which commands of its leg
remain (descriptor, whether it was killed, its SCALE_SKEW kills), the running
cycle, whether the bulk wave must run a cycle before the next priority wave (R329), training commands waiting, and the
counters of R334. -/
structure Partition where
  bulk : Option Wave
  prio : Option Wave
  suspended : Bool
  remaining : List (Nat × Bool × Nat)
  cycle : Option Cycle
  bulkFirst : Bool
  trains : List Train
  waves : Nat
  overruns : Nat
  suspensions : Nat
  preemptKills : Nat
  deriving DecidableEq, Repr

/-! ### Issued commands (R20 to R24, R129 to R145, R537) -/

/-- Where a shadow effect lands: a core store, the plan scratch of a section, a leaf's cask copy, a slot's weight image, or
a stream's output area before its shadow leaves are taken. -/
inductive Loc where
  | core (c : Nat)
  | sect (s : Nat)
  | leaf (h : Handle)
  | image (slot : Nat)
  | out (stream : Nat)
  deriving DecidableEq, Repr

/-- A shadow effect of an uncommitted command, made current by its commit flip (R20, R137, R166). -/
inductive Eff where
  /-- Bytes written at an address. -/
  | bytes (l : Loc) (addr : Nat) (data : List Byte)
  /-- One nibble of a byte (R128). -/
  | nibble (l : Loc) (addr : Nat) (high : Bool) (v : Nat)
  /-- The tag of a 64-byte block (R142). -/
  | tag (l : Loc) (block : Nat) (t : BitVec 4)
  /-- A key or value row of a history (R163): stream, position, chain, value part, 128 FP32 words, and whether the
  epilogue's OUT_SAT may be set. -/
  | hist (stream pos chain : Nat) (value : Bool) (vals : List W32)
  /-- A handle word written into a leaf: naming or repointing. -/
  | name (h : Handle) (off : Nat) (v : Handle)
  /-- One reference less on a leaf; a page falls back to the stream's quire (R206). -/
  | deref (stream : Nat) (h : Handle)
  /-- ROWS of a root raised to n (R154). -/
  | rows (root : Handle) (n : Nat)
  /-- LEAF append: every chain's path to positions from pos on made private (R171). -/
  | path (stream pos count : Nat)
  /-- Copy pending cleared and the leaf counted once. -/
  | adopt (h : Handle)
  | stateLeaf (stream : Nat) (h : Handle)
  /-- State blocks of a SCAN run (R206): state leaf's stream, first unit, the blocks' bytes, the position reached. -/
  | state (stream : Nat) (unit_ : Nat) (data : List Byte) (pos : Nat)
  /-- A leaf that the commit makes dirty (R277). -/
  | dirty (h : Handle)
  /-- The advance of a page named at commit: stream, page, new leaf, position reached. -/
  | advance (stream : Nat) (page : Nat) (new : Handle) (pos : Nat)
  | trim (stream : Nat) (pos : Nat)
  /-- A child made (R172): its stream, its parent, its root, its service class, and the copy of the parent's state leaf that
  it names where the count of that leaf stands at its limit (R158), else null. -/
  | child (stream parent : Nat) (root : Handle) (prio : Bool) (state : Handle)
  | free (stream : Nat)
  | send (p : Parcel)
  | consume (rq : Nat)
  | wrote (stream : Nat)
  /-- A run of a ROUTE that met a lost expert (R355): its requests end with WEIGHT_LOST. -/
  | lost (stream : Nat)
  /-- A block of a SPARGE (R383): channel, attempt, sequence number, deadline, the 464 bytes of the block. -/
  | block (ch : Nat) (attempt : BitVec 8) (seq : Nat) (deadline : W32) (data : List Byte)
  deriving DecidableEq, Repr

/-- The life of a command: placed in its queues, issued, or held for the sweep (R139). -/
inductive Phase where
  | placed | issued | held
  deriving DecidableEq, Repr

/-- Why a command was placed: a wave's leg, a service cycle, a plain rerun ordered by the installer, or a recovery run. -/
inductive Origin where
  | wave (prio : Bool)
  | service
  | plainRerun (q tag : Nat)
  | recovery
  deriving DecidableEq, Repr

/-- A plan command from its placing to its end: what it was placed with; its issue (serial of the CORE_BASE core, passes to
come, the array passes of each core, the accumulator file each core is left with, the bytes spilled by section (R134), flags
of R59, shadow effects, pins, leaves taken by stream, parcels consumed); the leaves it waits for; whether it waits
for a new leaf (R170); the leaves of its block-scaled operands (R144); its channel's ATTEMPT at issue, for SPARGE
(R383); and, while it is held, the ARR time its slices took (R139, R141). -/
structure Cmd where
  id : Nat
  part : Nat
  slot : Nat
  desc : Nat
  words : List W32
  origin : Origin
  shape : Shape
  runs : List WaveRun
  closes : List Nat
  phase : Phase
  rerun : Bool
  plain : Bool
  skews : Nat
  timeouts : Nat
  cores : List Nat
  serial : BitVec 48
  passes : Nat
  order : List (Nat × List Pass)
  sums : List (Nat × List (Nat × List W32))
  spill : List (Nat × Nat)
  infSeen : Bool
  nanSeen : Bool
  outSat : Bool
  empty : Bool
  skewed : Bool
  effs : List Eff
  pins : List Handle
  taken : List (Nat × Handle × Bool)
  consumed : List Nat
  waits : List Handle
  starved : Bool
  scaled : List Handle
  attempt : BitVec 8
  arr : Nat
  deriving DecidableEq, Repr

/-! ### Fabric (R335 to R372) -/

/-- A parcel in the receive area (R338): its slot, the port it came by (none for a local parcel), whether its CRC or
alive check failed, the visibility number in its port, and the command that has taken it. -/
structure Rx where
  rq : Nat
  units : List Nat
  parcel : Parcel
  port : Option Nat
  bad : Bool
  vis : Nat
  swept : Bool
  takenBy : Option Nat
  deriving DecidableEq, Repr

/-- A source of a check-value unit: address, LAST, and MISSING as the list of missing ALIVE values (R368). -/
structure Source where
  addr : BitVec 20
  last : BitVec 8
  missing : List (BitVec 8)
  deriving DecidableEq, Repr

/-- A check-value unit (R368, R369); sources from the most recently seen to the least; mark is the visibility number of
the last parcel made visible, prevMark the one at the previous sweep. -/
structure Cvu where
  head : Nat
  tail : Nat
  overflow : Bool
  checked : Nat
  crcFails : Nat
  gaps : Nat
  repeats : Nat
  ring : List (List W32)
  sources : List Source
  mark : Nat
  prevMark : Nat
  deriving DecidableEq, Repr

/-- A parcel that waits in a transmit queue for credit, with the port it came by, whose input buffer it fills (R338); none for one that
this module emits. -/
structure Waiting where
  parcel : Parcel
  came : Option Nat
  deriving DecidableEq, Repr

/-- A Dareno port (R371) with its excluded lanes (R488), its nonce, credits for the partner's buffer (R338), the parcels
waiting for credit, the partners whose colophon mismatch is logged
(R347), the lane faults last sensed and whether it must not retry (R489), whether it has been up since the start (R32), its
check-value unit, and the last time parcel with its arrival (R512). -/
structure FPort where
  state : Nat
  mode : Nat
  rate : Nat
  width : Nat
  spareUsed : Bool
  reason : Nat
  polInv : BitVec 5
  laneMap : BitVec 15
  partner : BitVec 20
  partnerPort : BitVec 4
  fecCorrected : Nat
  fecUncorrected : Nat
  mismatches : Nat
  dropped : Nat
  renegotiations : Nat
  excluded : BitVec 5
  nonce : W16
  credits : Nat
  txQueue : List Waiting
  logged : List (BitVec 20)
  faults : List LaneFault
  noRetry : Bool
  everUp : Bool
  cvu : Cvu
  timeParcel : Option (List W32 × W64)
  offsets : List Int
  deriving DecidableEq, Repr

/-- A reply context of an edge port (R366): requester, REQ_TAG, the header of its first datagram, the bytes that have
arrived, and the request record once passed on. -/
structure Ctxt where
  id : Nat
  port : Nat
  ip6 : Bool
  ip : BitVec 128
  udp : W16
  mac : BitVec 48
  vlan : BitVec 12
  reqTag : W32
  header : List W32
  got : List (Nat × Nat)
  area : Nat
  passed : Bool
  done : Bool
  deriving DecidableEq, Repr

/-- An outstanding query for a weight leaf: its QUERY_ID, the leaf, and what its answers have brought so far: the bytes with
tags, the offsets that have come (R363), the modules asked, and the heat epochs left until they count as not answering
(R299). -/
structure Query where
  id : Nat
  handle : Handle
  data : Bytes
  got : List Nat
  asked : List (BitVec 20)
  wait : Nat
  deriving DecidableEq, Repr

/-- The fabric: ports, receive area, alive counters by destination, resend ring oldest first, expert directory entries
that are not all zero, its version, the slot origin table, the unreachable list oldest first, reply contexts, and
outstanding queries. -/
structure Fabric where
  ports : List FPort
  rx : List Rx
  alive : List (Nat × BitVec 8)
  resend : List Parcel
  directory : List (Nat × List W32)
  dirVersion : W32
  origins : List (List W32)
  unreachable : List (BitVec 20)
  ctxs : List Ctxt
  queries : List Query
  nextQuery : Nat
  deriving DecidableEq, Repr

/-! ### Sparge and Maltster (R373 to R406) -/

/-- A staged up block: sequence number, its 464 bytes, and for a backup the time at which its deadline has passed. -/
structure Block where
  seq : Nat
  data : List Byte
  deriving DecidableEq, Repr

/-- A reduction channel: its entry of 16 words, status (R405), exponent table, staging of local, backup and children
inputs, the greatest sequence number each receiver's credit allows, the down blocks held or forwarded, down blocks
waiting, the next block to forward, failures of the down block in hand, the committed ranges of this attempt, and blocks of a later step or attempt with their input (1 backup, 2 and up children). -/
structure Channel64 where
  entry : List W32
  state : Nat
  attempt : BitVec 8
  lastCause : Code
  step : W32
  blocksDone : Nat
  saturations : Nat
  backups : Nat
  late : Nat
  lastHop : BitVec 23
  globalSat : Nat
  exps : List (Nat × BitVec 8)
  local_ : List Block
  backup : List Block
  backupDue : List Nat
  children : List (List Block)
  upCredit : Int
  downCredit : List Int
  sums : List (Nat × List Byte)
  down : List Block
  downNext : Nat
  downFails : Nat
  committed : List (Nat × Nat)
  backupUsed : Bool
  timer : Bool
  early : List (Nat × W32 × BitVec 8 × Block)
  leaves : List Handle
  deriving DecidableEq, Repr

/-- A parameter set (R395): its entry, its count of updates t, behind and damaged marks. -/
structure PSet where
  entry : List W32
  t : Nat
  behind : Bool
  damaged : Bool
  deriving DecidableEq, Repr

/-- The Maltster's update engine (R394 to R406): sets, schedules, update area bytes, status, and new weight leaves ready
to publish by slot (image index and leaf), with the slots and channels whose step is ready and whether a backup stood in; and the
replaced leaves on which waves finish that began before a publish: partition, class, image index and leaf (R400). -/
structure Malt where
  sets : List (Nat × PSet)
  schedules : List (Nat × List W32)
  lpddr : Bytes
  updState : Nat
  updSlot : Nat
  updSet : Nat
  applied : Nat
  skipped : Nat
  nonfinite : Nat
  masterUncorr : Nat
  publishes : Nat
  lastPublish : W32
  ready : List (Nat × Nat × Bool)
  newLeaves : List (Nat × List (Nat × Handle))
  waitingSets : List Nat
  old : List (Nat × Bool × Nat × Handle)
  deriving DecidableEq, Repr

/-! ### Mirrors (R477 to R487) -/

/-- A manifest held by a buddy: owner, stream, slot, MIRROR_POS and the 64-byte stream-table entry, with its frame. -/
structure Manifest where
  owner : BitVec 20
  stream : Nat
  slot : Nat
  pos : Nat
  entry : List W32
  handle : Handle
  deriving DecidableEq, Repr

/-- A mirrored leaf on its way: the owner's handle, its FORMAT, what has come of it, the offsets that have come, and the
buddy's handle once its frame lies in the write buffer. -/
structure InLeaf where
  owner : W32
  format : Nat
  data : Bytes
  got : List Nat
  own : Option Handle
  deriving DecidableEq, Repr

/-- A mirror being received: its owner, stream, slot and position, the leaves so far, its manifest once it has come, and whether
its stream has been released meanwhile (R491). -/
structure Incoming where
  owner : BitVec 20
  stream : Nat
  slot : Nat
  pos : Nat
  leaves : List InLeaf
  manifest : Option (List W32)
  released : Bool
  deriving DecidableEq, Repr

/-- The buddy's side: the mirror map, manifests, mirrors being received, recorded START_IDs, and owners that have not
answered the last roll call. -/
structure Buddy where
  map : List ((BitVec 20 × W32) × Handle)
  manifests : List Manifest
  incoming : List Incoming
  startIds : List (BitVec 20 × W64)
  deriving DecidableEq, Repr

/-! ### Power, clocks, sideband (R492 to R533) -/

/-- The power states (R492), with the start sequence and the state without supplies. -/
inductive PowerState where
  | run | ready | rest | dormant | standby | starting | off
  deriving DecidableEq, Repr

/-- Power management: the state, CONFIG (R411), the CONFIG to be entered when a start or cask restart ends, the entry in progress (target, and the POWER_SET command it completes),
WAKE_AT, the operator cap, the SYNC throttle input, F of each section, temperatures, throttling flags, the latest
telemetry record, energy, whether memory ports still train for a start or an exit, whether a wake waits, whether a sideband STANDBY
waits for the entry under way, and whether the next start is cold. -/
structure Power where
  state : PowerState
  config : Nat
  next : Nat
  entry : Option (Nat × Option (Nat × Nat))
  wakeAt : W64
  opCap : Nat
  syncCap : Bool
  frac : List Nat
  tj : List Nat
  tCask : Nat
  emergency : List Bool
  capping : Bool
  thermal : Bool
  telemetry : List W32
  energy : W64
  training : Bool
  queuedWake : Bool
  sbStandby : Bool
  cold : Bool
  deriving DecidableEq, Repr

/-- The time base (R510 to R512): whether the count runs, the key and port of the chosen source, whether the first-choice
step has been made, the steering in ppm, and whether SYNC toggles. -/
structure TimeBase where
  tsy : W64
  counting : Bool
  source : Option Nat
  stepped : Bool
  steer : Int
  syncToggles : Bool
  deriving DecidableEq, Repr

/-- The board management controller and the outside pins (R489, R499, R519 to R522): address straps, supplies, trip,
reversed input, hottest sensor, input power, last fault, the outputs' faults (0 driven, 1 shorted low, 2 shorted high),
PRESENT# driven, WAKE# asserted, commands and a trip not yet logged. -/
structure Board where
  straps : BitVec 2
  v54Ok : Bool
  auxOk : Bool
  trip : Bool
  reversed : Bool
  hotC : BitVec 8
  hotId : BitVec 8
  powerIn : W32
  faultSubject : W16
  faultDetail : W32
  pins : List Nat
  presentLow : Bool
  wake : Bool
  unlogged : List Nat
  tripUnlogged : Bool
  deriving DecidableEq, Repr

/-! ### What leaves the module -/

/-- How far a start has come, as the console shows it (R527): its firmware slot chosen, or its end with CONFIG. The words of the
lines are not the spec's (log 158). -/
inductive Progress where
  | slot (k : Nat)
  | ended (config : Nat)
  deriving DecidableEq, Repr

/-- Something the module sends out (log 13). -/
inductive Out where
  /-- Bytes written to host memory at a bus address: completions, buffers, DMA. -/
  | host (addr : W64) (data : List Byte)
  /-- A UDP reply of an edge port (R367). -/
  | reply (port : Nat) (ip : BitVec 128) (udp : W16) (mac : BitVec 48) (vlan : BitVec 12) (words : List W32) (data : List Byte)
  /-- An answer to ARP or neighbour discovery (R364). -/
  | neighbour (port : Nat) (ip6 : Bool) (target : BitVec 128)
  /-- A parcel on a native port, with its CRC-32C (R337, R350). -/
  | parcel (port : Nat) (p : Parcel) (crc : W32)
  /-- 256-byte units of a native port's input buffer granted to its partner (R338). -/
  | credit (port units : Nat)
  /-- The offer word that a negotiation sends on a physical lane (R340). -/
  | offer (port lane : Nat) (word : W32)
  /-- Bytes of a sideband block read (R522). -/
  | sideband (data : List Byte)
  /-- A line of start progress on UART_TX (R527). -/
  | console (line : Progress)
  /-- A BAR0 read's value (R411). -/
  | read (value : W32)
  deriving DecidableEq, Repr

/-! ### The whole state -/

/-- The state of the module. coreLines and sectLines are the 64-byte lines of the core and section stores that hold current
data (R135, R137), in rising order. -/
structure State where
  pending : List Instr
  out : List Out
  draws : Nat
  port : Port
  nor : Nor
  ident : Ident
  errata : Errata
  sects : List Sect
  cores : List CoreSt
  cap : List W32
  coreMem : Bytes
  coreLines : List Nat
  sectMem : Bytes
  sectLines : List Nat
  caskRaw : Bytes
  mem : List MemPort
  rack : Rack
  cellar : Cellar
  streams : List (Nat × Stream)
  slots : List Slot
  reqs : List (Nat × Req)
  parts : List Partition
  cmds : List Cmd
  nextCmd : Nat
  logs : List (List (List W32))
  fabric : Fabric
  channels : List Channel64
  malt : Malt
  buddy : Buddy
  power : Power
  time : TimeBase
  board : Board
  deriving DecidableEq, Repr

/-! ### Reset

The state at the first application of auxiliary power to a module as it ships (R522, R532; log 1): the board management
controller answers, P54V is absent, both firmware slots hold maker firmware, both imprint slots are empty. -/

/-- A store that lists nothing. -/
def Bytes.blank : Bytes := { form := .plain, cells := [], tags := [], poison := [] }

/-- A queue pair at power-on (R412). -/
def Queue.reset : Queue :=
  { sqBase := 0, cqBase := 0, sqLog := 0, cqLog := 0, enable := false, qstate := 0, role := 0, haltCause := 0,
    sqHead := 0, cqTail := 0, sqTail := 0, cqHead := 0, phase := true, lSqBase := 0, lCqBase := 0, lSqLog := 0,
    lCqLog := 0, held := [], challenge := none, key := 0 }

/-- A DMA channel at power-on (R437). -/
def Channel.reset : Channel :=
  { src := 0, dst := 0, cfg := 0, rows := 0, rowBytes := 0, srcPitch := 0, dstPitch := 0, state := 0, dir := false,
    cause := 0, queue := 0, tag := 0, fail := 0, done := 0 }

/-- A DMA engine at power-on. -/
def Dma.reset : Dma := { channels := List.replicate 8 Channel.reset, current := 0, last := 7 }

/-- The control port at power-on (R411). -/
def Port.reset : Port :=
  { linkUp := false, busMaster := false, memSpace := false, d3hot := false, hostClock := false,
    queues := List.replicate 16 Queue.reset, started := [], rrNext := 0, attnPending := 0,
    attnCount := List.replicate 7 0, attnLast := List.replicate 7 0, timeHi := 0, simmerOff := 0,
    engines := List.replicate 4 Dma.reset }

/-- The maker firmware that ships in both slots (log 1). -/
def Firmware.shipped : Firmware := { version := 0, body := [], sigOk := true }

/-- The NOR flash as shipped (R532). -/
def Nor.reset : Nor :=
  { fw := [some Firmware.shipped, some Firmware.shipped], im := [none, none], keyHash := 0, prevHash := 0,
    anchorSerial := 0, versionCounter := 0, preferred := 0, coreRecord := List.replicate 4 0,
    training := List.replicate 16 none }

/-- The CHAIN before the first record (R462). -/
def chainStart : Digest := shake256 (ascii "KCM-ERRATA" ++ leBytes 32 Config.identityDigest.toNat)

/-- The empty errata log. -/
def Errata.reset : Errata := { ring := [], nextSeq := 1, chain := chainStart, fold := none, mirrored := 0, console := [] }

/-- Identity and configuration before a start. -/
def Ident.reset : Ident :=
  { identityOk := false, runSlot := 0, imprint := none, firmware := none, startId := 0, window := none, colophon := 0,
    failures := 0, lockout := false, debugStop := false }

/-- A section before its cores are mapped: 16 logical cores on physical cores 0 to 15, physical core 16 spare. -/
def Sect.reset : Sect := { failed := 0, excluded := 0, map := List.range 16, spare := some 16, failing := [] }

/-- A core at power-on. -/
def CoreSt.reset : CoreSt :=
  { serial := 0, gens := List.replicate 257 1, cells := List.replicate 128 (List.replicate 128 0),
    latches := List.replicate 128 none, held := none, loaded := none, halves := [none, none], feed := 0, acc := [],
    scratch := 0, busy := false, ramp := 8, simmer := 0, level := 0, drive := 0, gapAt := none, lfsr := 1 }

/-- A cask port that has not been trained (R268). -/
def MemPort.reset : MemPort :=
  { state := 0, restored := false, hot := false, temp := 0, cause := 0, corrected := 0, uncorrected := 0,
    lastUncorr := 0, pins := [], ca := [], moved := false, recent := [] }

/-- The empty rack. -/
def Rack.reset : Rack :=
  { leaves := [], moves := [], pool := [], poolSize := 0, ss := [], lostHandles := [], lostFrames := [], heatCount := 0,
    corePins := [], fetches := [], choices := 0, logged := [], grants := [], rewrites := [], flawed := [] }

/-- A die with all its spares. -/
def Die.reset : Die :=
  { retired := false, spares := 0, bad := [], map := [], erases := [], open_ := none, journal := 0 }

/-- The cellar of a module as shipped. -/
def Cellar.reset : Cellar :=
  { frames := [], dies := List.replicate 128 Die.reset, lastDie := 127, writeSeq := 0, level := 0, peakAt := 0, indexDue := 0,
    belowMin := false, rebuilding := false, ready := false, stalls := 0, retries := 0, uncorrectable := 0 }

/-- An empty model slot. -/
def Slot.empty : Slot :=
  { plan := none, key := 0, retained := none, refreshLog := 0, refreshSlot := 0, shape := ⟨[], [], []⟩ }

/-- A partition that runs nothing. -/
def Partition.reset : Partition :=
  { bulk := none, prio := none, suspended := false, remaining := [], cycle := none, bulkFirst := false, trains := [],
    waves := 0, overruns := 0, suspensions := 0, preemptKills := 0 }

/-- A check-value unit at power-on. -/
def Cvu.reset : Cvu :=
  { head := 0, tail := 0, overflow := false, checked := 0, crcFails := 0, gaps := 0, repeats := 0, ring := [],
    sources := [], mark := 0, prevMark := 0 }

/-- A Dareno port at power-on (R371). -/
def FPort.reset : FPort :=
  { state := 0, mode := 0, rate := 0, width := 0, spareUsed := false, reason := 0, polInv := 0, laneMap := 0,
    partner := 0, partnerPort := 0, fecCorrected := 0, fecUncorrected := 0, mismatches := 0, dropped := 0,
    renegotiations := 0, excluded := 0, nonce := 0, credits := 0, txQueue := [], logged := [], faults := [], noRetry := false,
    everUp := false, cvu := Cvu.reset, timeParcel := none, offsets := [] }

/-- The fabric at power-on. -/
def Fabric.reset : Fabric :=
  { ports := List.replicate 16 FPort.reset, rx := [], alive := [], resend := [], directory := [], dirVersion := 0,
    origins := List.replicate 64 [], unreachable := [], ctxs := [], queries := [], nextQuery := 0 }

/-- A reduction channel at power-on (R378, R405). -/
def Channel64.reset : Channel64 :=
  { entry := [], state := 0, attempt := 0, lastCause := 0, step := 0, blocksDone := 0, saturations := 0, backups := 0,
    late := 0, lastHop := 0, globalSat := 0, exps := [], local_ := [], backup := [], backupDue := [], children := [],
    upCredit := 0, downCredit := [], sums := [], down := [], downNext := 0, downFails := 0,
    committed := [], backupUsed := false, timer := false, early := [], leaves := [] }

/-- The Maltster's update engine at power-on. -/
def Malt.reset : Malt :=
  { sets := [], schedules := [], lpddr := Bytes.blank, updState := 0, updSlot := 0, updSet := 0, applied := 0,
    skipped := 0, nonfinite := 0, masterUncorr := 0, publishes := 0, lastPublish := 0, ready := [], newLeaves := [], old := [],
    waitingSets := [] }

/-- A buddy that keeps no mirror. -/
def Buddy.reset : Buddy := { map := [], manifests := [], incoming := [], startIds := [] }

/-- Power management before a start: state Standby, the controller answering (R522). -/
def Power.reset : Power :=
  { state := .standby, config := 0, next := 0, entry := none, wakeAt := 0, opCap := 0, syncCap := false,
    frac := [16, 16, 16, 16], tj := [0, 0, 0, 0], tCask := 0, emergency := [false, false, false, false],
    capping := false, thermal := false, telemetry := [], energy := 0, training := false, queuedWake := false, sbStandby := false,
    cold := true }

/-- The time base before a start. -/
def TimeBase.reset : TimeBase :=
  { tsy := 0, counting := false, source := none, stepped := false, steer := 0, syncToggles := false }

/-- The board management controller at the first application of auxiliary power (R522). -/
def Board.reset : Board :=
  { straps := 0, v54Ok := false, auxOk := true, trip := false, reversed := false, hotC := 0, hotId := 0, powerIn := 0,
    faultSubject := 0, faultDetail := 0, pins := List.replicate 7 0, presentLow := true, wake := false, unlogged := [],
    tripUnlogged := false }

/-- The state of the module right after reset (log 1). -/
def State.reset : State :=
  { pending := [], out := [], draws := 0, port := Port.reset, nor := Nor.reset, ident := Ident.reset,
    errata := Errata.reset, sects := List.replicate 4 Sect.reset, cores := List.replicate 64 CoreSt.reset,
    cap := List.replicate 16 0, coreMem := Bytes.blank, coreLines := [], sectMem := Bytes.blank, sectLines := [], caskRaw := Bytes.blank,
    mem := List.replicate 16 MemPort.reset, rack := Rack.reset, cellar := Cellar.reset, streams := [],
    slots := List.replicate 64 Slot.empty, reqs := [], parts := List.replicate 8 Partition.reset, cmds := [],
    nextCmd := 0, logs := List.replicate 4 [], fabric := Fabric.reset,
    channels := List.replicate 64 Channel64.reset, malt := Malt.reset, buddy := Buddy.reset, power := Power.reset,
    time := TimeBase.reset, board := Board.reset }

end Sys2Proof.Machine
end

