-- ==== Sys2Proof/Machine/Ops.lean ====
section
/-! DEFINITION. The named operations that every chapter shares: sparse lists in canonical form, byte stores, attention
(R426), the errata log (R461 to R464), and writing a completion (R416, R417, R425). -/

namespace Sys2Proof.Machine

/-! ### Sparse lists with rising keys -/

/-- The value at a key, d where it is not listed. -/
def alGet {α : Type} (d : α) (k : Nat) (l : List (Nat × α)) : α :=
  match l.find? (fun e => e.1 == k) with
  | some e => e.2
  | none => d

/-- The list with value v at key k, unlisted when it equals d. -/
def alSet {α : Type} [DecidableEq α] (d : α) (k : Nat) (v : α) (l : List (Nat × α)) : List (Nat × α) :=
  l.filter (fun e => e.1 < k) ++ (if v = d then [] else [(k, v)]) ++ l.filter (fun e => k < e.1)

/-- The list without key k. -/
def alDel {α : Type} (k : Nat) (l : List (Nat × α)) : List (Nat × α) := l.filter fun e => e.1 != k

/-- Element i of a list replaced by f of it. -/
def modAt {α : Type} (l : List α) (i : Nat) (f : α → α) : List α :=
  match l, i with
  | [], _ => []
  | a :: t, 0 => f a :: t
  | a :: t, i + 1 => a :: modAt t i f

/-- One more, saturating at 0xFFFF_FFFF. -/
def sat32 (n : Nat) : Nat := min n 0xFFFFFFFF

/-- The bits [hi:lo] of a word. -/
def bits (w : W32) (hi lo : Nat) : Nat := (w.toNat >>> lo) % (1 <<< (hi + 1 - lo))

/-- Word i of a list of words, 0 beyond it. -/
def wd (ws : List W32) (i : Nat) : W32 := ws.getD i 0

/-- A natural number as a word. -/
def w32 (n : Nat) : W32 := BitVec.ofNat 32 n

/-- A word with bits [hi:lo] replaced by n. -/
def setBits (w : W32) (hi lo n : Nat) : W32 :=
  let m := (1 <<< (hi + 1 - lo)) - 1
  w32 ((w.toNat &&& (0xFFFFFFFF - (m <<< lo))) + ((n &&& m) <<< lo))

/-! ### Byte stores -/

/-- What an unlisted byte reads as (R540): 0xFF in the handle and ADV_POS places of a root, spine leaf or state leaf. -/
def Form.dflt : Form → Nat → Byte
  | .plain, _ => 0
  | .root, a => if 0x40 ≤ a ∧ a < 0x4880 then 0xFF else 0
  | .spine, _ => 0xFF
  | .state, a => if 0x40 ≤ a ∧ a < 0xC040 then 0xFF else 0
  | .free n, a => Config.leafFill n a

/-- The tag that an unlisted block reads as. -/
def Form.dfltTag : Form → Nat → BitVec 4
  | .free n, k => Config.leafTag n k
  | _, _ => 0

/-- Is a byte left out of the list because it equals the unlisted one? In an undefined content none is. -/
def Form.skips : Form → Nat → Byte → Bool
  | .free _, _, _ => false
  | .plain, _, b => b == 0
  | .root, a, b => b == Form.dflt .root a
  | .spine, a, b => b == Form.dflt .spine a
  | .state, a, b => b == Form.dflt .state a

/-- The same of a tag. -/
def Form.skipsTag : Form → BitVec 4 → Bool
  | .free _, _ => false
  | _, t => t == 0

/-- The empty store of a form. -/
def Bytes.empty (f : Form) : Bytes := { form := f, cells := [], tags := [], poison := [] }

/-- One byte of a list of cells. -/
def cellGet (f : Form) (cells : List Host.Cell) (a : Nat) : Byte :=
  match cells.find? (fun c => c.1 == a) with
  | some c => c.2
  | none => f.dflt a

/-- Consecutive bytes as cells, those that equal the unlisted value left out. -/
def cellRun (f : Form) : Nat → List Byte → List Host.Cell
  | _, [] => []
  | a, b :: bs => if f.skips a b then cellRun f (a + 1) bs else (a, b) :: cellRun f (a + 1) bs

/-- Cells with consecutive bytes written at a. -/
def cellPut (f : Form) (cells : List Host.Cell) (a : Nat) (bs : List Byte) : List Host.Cell :=
  cells.filter (fun c => c.1 < a) ++ cellRun f a bs ++ cells.filter (fun c => a + bs.length ≤ c.1)

/-- Read of one byte of a store. -/
def Bytes.get (m : Bytes) (a : Nat) : Byte := cellGet m.form m.cells a

/-- Read of n bytes from a. -/
def Bytes.read (m : Bytes) (a n : Nat) : List Byte :=
  let near := m.cells.filter fun c => a ≤ c.1 ∧ c.1 < a + n
  (List.range n).map fun i => cellGet m.form near (a + i)

/-- Write of bytes at a; the sectors they lie in are no longer poisoned (R252). -/
def Bytes.write (m : Bytes) (a : Nat) (bs : List Byte) : Bytes :=
  { m with
    cells := cellPut m.form m.cells a bs
    poison := m.poison.filter fun k => !(decide (a < 64 * (k + 1)) && decide (64 * k < a + bs.length)) }

/-- Write that leaves POISON as it is. -/
def Bytes.patch (m : Bytes) (a : Nat) (bs : List Byte) : Bytes := { m with cells := cellPut m.form m.cells a bs }

/-- The tag of a 64-byte block. -/
def Bytes.tag (m : Bytes) (blk : Nat) : BitVec 4 := alGet (m.form.dfltTag blk) blk m.tags

/-- A tag written. -/
def Bytes.setTag (m : Bytes) (blk : Nat) (t : BitVec 4) : Bytes :=
  { m with tags := m.tags.filter (fun e => e.1 < blk) ++ (if m.form.skipsTag t then [] else [(blk, t)]) ++
      m.tags.filter fun e => blk < e.1 }

/-- Word at byte address a. -/
def Bytes.word (m : Bytes) (a : Nat) : Nat := leNat (m.read a 4)

/-- Word written at byte address a. -/
def Bytes.putWord (m : Bytes) (a : Nat) (v : Nat) : Bytes := m.patch a (leBytes 4 v)

/-- Is a sector of the range poisoned? -/
def Bytes.bad (m : Bytes) (a n : Nat) : Bool :=
  m.poison.any fun k => decide (a < 64 * (k + 1)) && decide (64 * k < a + n)

/-- POISON of one sector set or cleared (R252). -/
def Bytes.mark (m : Bytes) (k : Nat) (bad : Bool) : Bytes :=
  { m with poison := m.poison.filter (fun i => decide (i < k)) ++ (if bad then [k] else []) ++
      m.poison.filter fun i => decide (k < i) }

/-- The canonical form of a store: its three lists strictly rising, no entry equal to what an unlisted one reads as. -/
def Bytes.wf (m : Bytes) : Bool :=
  decide (m.cells.Pairwise fun a b => a.1 < b.1) && m.cells.all (fun c => !m.form.skips c.1 c.2) &&
  decide (m.tags.Pairwise fun a b => a.1 < b.1) && m.tags.all (fun t => !m.form.skipsTag t.2) &&
  decide (m.poison.Pairwise fun a b => a < b)

/-- The byte addresses, multiples of 4 in [lo, hi), whose word differs from the unlisted one. -/
def Bytes.listedWords (m : Bytes) (lo hi : Nat) : List Nat :=
  ((m.cells.filter fun c => lo ≤ c.1 ∧ c.1 < hi).map fun c => c.1 / 4 * 4).eraseDups

/-- The non-null handles in [lo, hi) with their byte addresses, for a form whose unlisted words there are null. -/
def Bytes.handles (m : Bytes) (lo hi : Nat) : List (Nat × Handle) :=
  ((m.listedWords lo hi).map fun a => (a, m.word a)).filter fun e => e.2 != Config.nullHandle

/-- A block copied with its tag and, where the source is poisoned, POISON (R252). -/
def Bytes.copyBlock (src : Bytes) (a : Nat) (dst : Bytes) (b : Nat) : Bytes :=
  ((dst.write (64 * b) (src.read (64 * a) 64)).setTag b (src.tag a)).mark b (src.poison.contains a)

/-! ### Current lines (R135, R137) -/

/-- The 64-byte lines that n bytes from a lie in, among lines already listed, rising. -/
def addLines (ls : List Nat) (a n : Nat) : List Nat :=
  if n = 0 then ls else
    let lo := a / 64
    let hi := (a + n + 63) / 64
    ls.filter (· < lo) ++ (List.range (hi - lo)).map (lo + ·) ++ ls.filter (hi ≤ ·)

/-- The lines listed in n bytes from a, a multiple of 64. -/
def linesIn (ls : List Nat) (a n : Nat) : List Nat := ls.filter fun l => decide (a / 64 ≤ l) && decide (64 * l < a + n)

/-- The lines without those in n bytes from a. -/
def dropLines (ls : List Nat) (a n : Nat) : List Nat := ls.filter fun l => !(decide (a / 64 ≤ l) && decide (64 * l < a + n))

/-- Bytes written to the core stores, whose lines they make current. -/
def State.putCore (s : State) (a : Nat) (bs : List Byte) : State :=
  { s with coreMem := s.coreMem.write a bs, coreLines := addLines s.coreLines a bs.length }

/-- Bytes written to the section stores, whose lines they make current. -/
def State.putSect (s : State) (a : Nat) (bs : List Byte) : State :=
  { s with sectMem := s.sectMem.write a bs, sectLines := addLines s.sectLines a bs.length }

/-! ### State access -/

/-- The running imprint's system-section word. -/
def State.sys (s : State) (i : Nat) : W32 :=
  match s.ident.imprint with
  | some im => wd im.system i
  | none => 0

/-- The running imprint's module-section word. -/
def State.modw (s : State) (i : Nat) : W32 :=
  match s.ident.imprint with
  | some im => wd im.modsec i
  | none => 0

/-- This module's fabric address (R31). -/
def State.addr (s : State) : BitVec 20 := BitVec.ofNat 20 (bits (s.modw 0) 19 0)

/-- The TSY time that records and stamps bear (R510). -/
def State.now (s : State) : W64 := s.time.tsy

/-- Something leaves the module. -/
def State.emit (s : State) (o : Out) : State := { s with out := s.out ++ [o] }

/-- The next free draw (log 8). -/
def State.draw (s : State) : W64 × State := (Config.freeDraw s.draws, { s with draws := s.draws + 1 })

/-! ### Errata log (R461 to R464) -/

/-- Bytes 0 to 31 of a record (R461). -/
def recordHead (r : ErrRec) : List Byte :=
  leBytes 8 r.seq.toNat ++ leBytes 8 r.time.toNat ++
  leBytes 4 (r.kind.toNat + (r.cls <<< 8) + (r.role <<< 11) + (r.pair <<< 13)) ++
  leBytes 4 (r.code.toNat + (r.count <<< 16)) ++ leBytes 4 r.subject.toNat ++ leBytes 4 r.detail.toNat

/-- The 64 bytes of a record. -/
def recordBytes (r : ErrRec) : List Byte := recordHead r ++ leBytes 32 r.chain.toNat

/-- Records the errata ring holds (R439). -/
def ringSize : Nat := 131072

/-- One record appended with its SEQ and CHAIN (R461, R462), and copied to the console from class 4 on (R527). -/
def Errata.append (e : Errata) (r : ErrRec) : Errata :=
  let r := { r with seq := e.nextSeq }
  let c := shake256 (leBytes 32 e.chain.toNat ++ recordHead r)
  { e with
    ring := e.ring ++ [{ r with chain := c }], nextSeq := e.nextSeq + 1, chain := c
    console := if 4 ≤ r.cls then e.console ++ [{ r with chain := c }] else e.console }

/-- A records-lost record (KIND 0x0C) for two overwritten records, the second to make room for this one. -/
def lostRecord (time : W64) (first : ErrRec) : ErrRec :=
  { seq := 0, time := time, kind := 0x0C, cls := 0, role := 0, pair := 0, code := 0, count := 1,
    subject := first.seq.setWidth 32, detail := 2, chain := 0 }

/-- A record written to the ring: the oldest is overwritten once it has been mirrored to the cellar; an unmirrored one is
overwritten too and a records-lost record written (R464). -/
def Errata.write (e : Errata) (time : W64) (r : ErrRec) : Errata :=
  match e.ring with
  | first :: rest =>
    if e.ring.length < ringSize then e.append r
    else if first.seq.toNat ≤ e.mirrored then ({ e with ring := rest }).append r
    else ((({ e with ring := rest.drop 1 }).append (lostRecord time first))).append r
  | [] => e.append r

/-- The record being folded written (R463). -/
def Errata.flush (e : Errata) (time : W64) : Errata :=
  match e.fold with
  | some r => ({ e with fold := none }).write time r
  | none => e

/-- A record of any kind but 0x0B: a folded record goes before it. -/
def Errata.record (e : Errata) (r : ErrRec) : Errata := (e.flush r.time).write r.time r

/-- A record of KIND 0x0B: folded with an equal CODE and SUBJECT within 1 s, else the new one to be folded (R463). 1 s is
312 500 000 ticks. -/
def Errata.event (e : Errata) (r : ErrRec) : Errata :=
  match e.fold with
  | some f =>
    if f.code = r.code ∧ f.subject = r.subject ∧ r.time.toNat ≤ f.time.toNat + 312500000 then
      let f' := { f with count := f.count + 1 }
      if f'.count = 65535 then ({ e with fold := some f' }).flush r.time else { e with fold := some f' }
    else { e.flush r.time with fold := some r }
  | none => { e with fold := some r }

/-- A record of the module's own action. -/
def mkRecord (time : W64) (kind : BitVec 8) (cls : Nat) (code : Code) (subject detail : W32) : ErrRec :=
  { seq := 0, time := time, kind := kind, cls := cls, role := 0, pair := 0, code := code, count := 1,
    subject := subject, detail := detail, chain := 0 }

/-- A record of a kind that is not folded. -/
def State.record (s : State) (kind : BitVec 8) (code : Code) (subject detail : W32) : State :=
  { s with errata := s.errata.record (mkRecord s.now kind 0 code subject detail) }

/-- A record that names the acting role and pair (R461). -/
def State.recordBy (s : State) (kind : BitVec 8) (role pair : Nat) (code : Code) (subject detail : W32) : State :=
  let r := { mkRecord s.now kind 0 code subject detail with role := role, pair := pair }
  { s with errata := s.errata.record r }

/-- An event logged under KIND 0x0B without attention. -/
def State.log (s : State) (code : Code) (subject detail : W32) : State :=
  { s with errata := s.errata.event (mkRecord s.now 0x0B 0 code subject detail) }

/-- ERRATA_SEQ: the SEQ of the newest record written, 0 while there is none (R411). -/
def State.errataSeq (s : State) : W64 := s.errata.nextSeq - 1

/-! ### Attention (R425, R426) -/

/-- The registers of an event of class c: bit c set, ATTN_COUNT_c one more, ATTN_LAST_c the code. -/
def Port.attend (p : Port) (c : Nat) (code : Code) : Port :=
  { p with
    attnPending := p.attnPending ||| (1#8 <<< c)
    attnCount := modAt p.attnCount (c - 1) fun n => if n = 0xFFFFFFFF then n else n + 1
    attnLast := modAt p.attnLast (c - 1) fun _ => code }

/-- An event of class c: attention and an errata record of KIND 0x0B (R426). -/
def State.attention (s : State) (c : Nat) (code : Code) (subject detail : W32) : State :=
  { s with port := s.port.attend c code
           errata := s.errata.event (mkRecord s.now 0x0B c code subject detail) }

/-- The highest class pending, 0 when none. -/
def attnClass (p : BitVec 8) : Nat :=
  ((List.range 8).filter fun c => c != 0 && p.getLsbD c).foldl max 0

/-- The status word of a completion (R425). -/
def statusWord (p : BitVec 8) (code : Code) : Nat :=
  let c := attnClass p
  code.toNat + (c <<< 12) + (if c = 0 then 0 else 0x8000)

/-! ### Result codes (R428) -/

/-- DONE. -/
def cDone : Code := 0
/-- KILLED_RERUN. -/
def cRerun : Code := 0x010
/-- STALE_EPOCH. -/
def cStale : Code := 0x011
/-- SHAPE_ABOVE_PLAN. -/
def cShape : Code := 0x101
/-- RESOURCE_OVERFLOW. -/
def cOverflow : Code := 0x102
/-- SCALE_SKEW. -/
def cSkew : Code := 0x103
/-- OPERAND_ALIGN. -/
def cAlign : Code := 0x104
/-- LEAF_EXHAUSTED. -/
def cExhausted : Code := 0x201
/-- LEAF_POISONED. -/
def cPoisoned : Code := 0x202
/-- WEIGHT_LOST. -/
def cWeightLost : Code := 0x203
/-- STREAM_PAUSED. -/
def cPaused : Code := 0x204
/-- RESIDUE_MISMATCH. -/
def cResidue : Code := 0x301
/-- CASK_UNCORRECTED. -/
def cCask : Code := 0x302
/-- CHECK_FAILED. -/
def cCheck : Code := 0x303
/-- COLOPHON_MISMATCH. -/
def cColophon : Code := 0x401
/-- PARTNER_LOST. -/
def cPartner : Code := 0x402
/-- BACKUP_TAKEN. -/
def cBackup : Code := 0x403
/-- DMA_ALIGN. -/
def cDmaAlign : Code := 0x501
/-- DMA_BUS_ERROR. -/
def cDmaBus : Code := 0x502
/-- ROLE_DENIED. -/
def cRole : Code := 0x601
/-- SIGNATURE_INVALID. -/
def cSig : Code := 0x602
/-- THERMAL_LIMIT. -/
def cThermal : Code := 0x701
/-- POWER_CAP. -/
def cPowerCap : Code := 0x702
/-- IMPRINT_CONFLICT. -/
def cConflict : Code := 0x801
/-- IMPRINT_ROLLBACK. -/
def cRollback : Code := 0x802

/-! ### Completions (R416, R417) -/

/-- Queue pair q. -/
def State.queue (s : State) (q : Nat) : Queue :=
  s.port.queues.getD q
    { sqBase := 0, cqBase := 0, sqLog := 0, cqLog := 0, enable := false, qstate := 0, role := 0, haltCause := 0,
      sqHead := 0, cqTail := 0, sqTail := 0, cqHead := 0, phase := true, lSqBase := 0, lCqBase := 0, lSqLog := 0,
      lCqLog := 0, held := [], challenge := none, key := 0 }

/-- The control port as after power is applied. -/
def Port.blank (p : Port) : Port :=
  { Port.reset with
    queues := p.queues.map fun _ => Queue.reset, attnCount := p.attnCount.map fun _ => 0
    attnLast := p.attnLast.map fun _ => 0, engines := p.engines.map fun _ => Dma.reset }

/-- The port with queue pair q changed. -/
def Port.modQueue (p : Port) (q : Nat) (f : Queue → Queue) : Port := { p with queues := modAt p.queues q f }

/-- The state with queue pair q changed. -/
def State.modQueue (s : State) (q : Nat) (f : Queue → Queue) : State := { s with port := s.port.modQueue q f }

/-- Entries of a ring. -/
def ringEntries (log : Nat) : Nat := 1 <<< log

/-- Is the completion ring full? One slot stays empty, so that CQ_HEAD = CQ_TAIL means an empty ring (log 15). -/
def Queue.cqFull (q : Queue) : Bool := (q.cqTail + 1) % ringEntries q.lCqLog == q.cqHead

/-- The 16 bytes of a completion entry written now (R416). -/
def entryBytes (q : Queue) (attn : BitVec 8) (c : Completion) : List Byte :=
  leBytes 2 (statusWord attn c.code) ++ leBytes 2 c.tag ++ leBytes 2 q.sqHead ++
  leBytes 2 (if q.phase then 0x8000 else 0) ++ leBytes 4 c.r0.toNat ++ leBytes 4 c.r1.toNat

/-- CQ_TAIL moved past an entry; PHASE changes when the ring wraps. -/
def Queue.advance (q : Queue) : Queue :=
  let t := (q.cqTail + 1) % ringEntries q.lCqLog
  { q with cqTail := t, phase := if t = 0 then !q.phase else q.phase }

/-- A completion written into the ring. -/
def State.writeEntry (s : State) (q : Nat) (c : Completion) : State :=
  let k := s.queue q
  (s.emit (.host (k.lCqBase + BitVec.ofNat 64 (16 * k.cqTail)) (entryBytes k s.port.attnPending c))).modQueue q
    Queue.advance

/-- A finished completion: written where the ring has room and the module may write to the host (R408), else held in
order (R417). -/
def State.complete (s : State) (q tag : Nat) (code : Code) (r0 r1 : W32) : State :=
  let c : Completion := ⟨code, tag, r0, r1⟩
  let k := s.queue q
  if k.held.isEmpty && !k.cqFull && s.port.busMaster then s.writeEntry q c
  else s.modQueue q fun k => { k with held := k.held ++ [c] }

/-- Held completions written while there is room, at most fuel of them. -/
def State.drainHeld : Nat → Nat → State → State
  | 0, _, s => s
  | n + 1, q, s =>
    let k := s.queue q
    match k.held with
    | c :: rest =>
      if k.cqFull || !s.port.busMaster then s
      else State.drainHeld n q ((s.modQueue q fun k => { k with held := rest }).writeEntry q c)
    | [] => s

/-! ### Started commands -/

/-- The started command of a pair and TAG. -/
def State.started? (s : State) (q tag : Nat) : Option Started :=
  s.port.started.find? fun t => t.q == q && t.tag == tag

/-- A session ends: ROLE becomes none, and the end is logged with the session's role and key (R454, R456). -/
def State.endSession (s : State) (q : Nat) : State :=
  let k := s.queue q
  if k.role = 0 then s
  else (s.modQueue q fun k => { k with role := 0, key := 0 }).recordBy 0x05 k.role q 0 (w32 k.role) (w32 k.key)

/-- A draining pair with no started command left becomes disabled, and its session ends (R414, R454). -/
def State.settleDrain (s : State) (q : Nat) : State :=
  let k := s.queue q
  if k.qstate = 3 && !(s.port.started.any fun t => t.q == q) then
    (s.endSession q).modQueue q fun k => { k with qstate := 0, challenge := none, held := [] }
  else s

/-- The lowest idle buffer channel (4 to 7) of S0's engine (R429). -/
def freeBuffer (p : Port) : Option Nat :=
  match p.engines.head? with
  | some e => ([4, 5, 6, 7].find? fun c => ((e.channels[c]?).map fun ch => ch.state == 0).getD false)
  | none => none

/-- One waiting buffer command armed on a free buffer channel. -/
def armBuffer (p : Port) (t : Started) : Port :=
  if t.bufBytes = 0 || t.chan.isSome then p else
    match freeBuffer p with
    | none => p
    | some c =>
      { p with
        started := p.started.map fun u => if u.q == t.q && u.tag == t.tag then { u with chan := some c } else u
        engines := modAt p.engines 0 fun e => { e with channels := modAt e.channels c fun ch =>
          { ch with state := 1, queue := t.q, tag := t.tag, cause := 0, dir := false, fail := 0, done := 0 } } }

/-- Buffer commands that wait for a channel take the free ones in order (R429). -/
def Port.armBuffers (p : Port) : Port := p.started.foldl armBuffer p

/-- The port without a started command, whose buffer channel, if it has one, is idle again and the last one served. -/
def Port.leave (p : Port) (q tag : Nat) (chan : Option Nat) : Port :=
  { p with
    started := p.started.filter fun u => !(u.q == q && u.tag == tag)
    engines := modAt p.engines 0 fun e =>
      match chan with
      | some c => { e with channels := modAt e.channels c fun ch => { ch with state := 0 }, last := c }
      | none => e }

/-- A started command ends: its entry leaves the list, its completion is written unless it is discarded (R409, R414), its
buffer channel is freed, and a waiting buffer command takes it. -/
def State.finish (s : State) (q tag : Nat) (code : Code) (r0 r1 : W32) : State :=
  match s.started? q tag with
  | none => s
  | some t =>
    let s := { s with port := (s.port.leave q tag t.chan).armBuffers }
    let s := if t.discard then s else s.complete q tag code r0 r1
    s.settleDrain q

/-- Does the buffer of a started command move now: it has none, or its channel runs (R430)? -/
def State.bufReady (s : State) (t : Started) : Bool :=
  t.bufBytes = 0 ||
  match t.chan, s.port.engines.head? with
  | some c, some e => ((e.channels[c]?).map fun ch => ch.state == 2).getD false
  | _, _ => false

/-- A command of the role matrix that an installer may issue and an operator may not, issued by an installer (R456). -/
def Started.installer (t : Started) : Bool :=
  t.role == 2 && [0x14, 0x15, 0x40, 0x50, 0x51, 0x52, 0x53, 0x54, 0x55, 0x56].contains t.opc

/-- Installer commands run one at a time, in arrival order (R457): is it a started command's turn (log 169)? -/
def State.installerTurn (s : State) (t : Started) : Bool :=
  !t.installer || !((s.port.started.takeWhile fun u => !(u.q == t.q && u.tag == t.tag)).any Started.installer)

/-- A row of a control-port command: it acts where the pair has started that command, the row's ACTION holds for its
arguments, its buffer moves, and no installer command must end before it; else nothing happens (log 3). -/
def State.onStarted (s : State) (q tag opc : Nat) (ok : Started → Bool) (f : Started → State) : State :=
  match s.started? q tag with
  | some t => if t.opc = opc && !t.begun && ok t && s.bufReady t && s.installerTurn t then f t else s
  | none => s

/-- The state with a started command changed. -/
def State.modStarted (s : State) (q tag : Nat) (f : Started → Started) : State :=
  { s with port := { s.port with
      started := s.port.started.map fun t => if t.q == q && t.tag == tag then f t else t } }

/-- Bytes delivered to a started command's buffer in host memory. -/
def State.toBuffer (s : State) (t : Started) (bs : List Byte) : State :=
  if t.discard then s else s.emit (.host t.bufAddr bs)

/-- Argument n of a started command, ARG1 first. -/
def Started.arg (t : Started) (n : Nat) : W32 := wd t.args (n - 1)

end Sys2Proof.Machine
end

