-- ==== Sys2Proof/Machine/Flags.lean ====
section
/-! DEFINITION. The arithmetic context of one core during one command: its generators and the numerical completion
flags (R53, R54, R59), the roundings that draw and flag, the epilogue (R60 to R62) and the compressions (R71, R72). -/

namespace Sys2Proof.Machine

/-- A core's 257 generators, the rows of its accumulator file (R81) and the flags of R59 while a command computes. -/
structure Ctx where
  gens : List W32
  acc : List (Nat × List W32)
  infSeen : Bool
  nanSeen : Bool
  outSat : Bool
  empty : Bool
  deriving DecidableEq, Repr

/-- A computation of a core. -/
abbrev Cm := StateM Ctx

/-- One draw of generator g: 32 steps, then bits [23:0] (R54). -/
def draw (g : Nat) : Cm Nat := fun c =>
  let x := lfsrSteps 32 (c.gens.getD g 1)
  (x.toNat % 0x1000000, { c with gens := c.gens.set g x })

/-- A produced value sets INF_SEEN or NAN_SEEN (R59). -/
def note (v : FVal) : Cm FVal := fun c =>
  (v, { c with infSeen := c.infSeen || isInf v, nanSeen := c.nanSeen || isNan v })

/-- OUT_SAT is set when sat holds. -/
def noteSat (sat : Bool) : Cm Unit := fun c => ((), { c with outSat := c.outSat || sat })

/-- A produced element of a format: a floating one may set INF_SEEN or NAN_SEEN (R59). -/
def noteElem (fmt w : Nat) : Cm Unit := fun c => ((), if isIntFmt fmt then c else (note (decodeElem fmt w) c).2)

/-- Every value of a list produced. -/
def noteAll (xs : List FVal) : Cm Unit := fun c =>
  ((), { c with infSeen := c.infSeen || xs.any isInf, nanSeen := c.nanSeen || xs.any isNan })

/-- EMPTY is set. -/
def noteEmpty : Cm Unit := fun c => ((), { c with empty := true })

/-- The words of a row of the accumulator file with words written from place i on; a row not listed is all zero. -/
def rowWith (old : List W32) (i : Nat) (ws : List W32) : List W32 :=
  let r := if old.isEmpty then List.replicate 129 0 else old
  r.take i ++ ws ++ r.drop (i + ws.length)

/-- Words written from column i on in row k of the accumulator file (R81). -/
def accPut (k i : Nat) (ws : List W32) : Cm Unit := fun c =>
  ((), { c with acc := alSet [] k (rowWith (alGet [] k c.acc) i ws) c.acc })

/-- NAN_SEEN is set. -/
def noteNan : Cm Unit := fun c => ((), { c with nanSeen := true })

/-- An exact value rounded to FP32 to nearest even. -/
def rneC (v : FVal) : Cm FVal := note (rne32 v)

/-- An exact value rounded to FP32 stochastically with a draw of generator g (R52, R53). -/
def stoC (g : Nat) (v : FVal) : Cm FVal := do
  let r ← draw g
  note (round32 (stoShr r) v)

/-- The rounding of the command's mode: true is stochastic. -/
def rndC (sto : Bool) (g : Nat) (v : FVal) : Cm FVal := if sto then stoC g v else rneC v

/-- Conversion to an output format (R62) under the command's mode; the word of the element. A floating result counts as a
value produced, so that an overflow to infinity sets INF_SEEN (R59). -/
def convC (sto : Bool) (g fmt : Nat) (zp : Int) (v : FVal) : Cm Nat := do
  let f ← if sto then (do let r ← draw g; pure (stoShr r)) else pure rneShr
  let r := convElem f fmt zp v
  noteSat r.2
  noteElem fmt r.1
  pure r.1

/-- An epilogue entry (R60). -/
structure EpiEntry where
  scale : FVal
  bias : FVal
  colSum : Int
  outZp : Int
  deriving DecidableEq, Repr

/-- The entry of a command without an epilogue table (R61). -/
def EpiEntry.default : EpiEntry := ⟨fone, fzero, 0, 0⟩

/-- Step 1 of R61: y0, from the accumulator value, the row sum and the zero points. -/
def epiY0 (acc rm : FVal) (za zw : Int) (colSum : Int) (k : Nat) : Cm FVal :=
  if za = 0 ∧ zw = 0 then pure acc
  else
    let corr := fadd (fmul (ofInt zw) rm) (ofInt (za * colSum - k * za * zw))
    rneC (fsub acc corr)

/-- Step 2 of R61: y1, the fused multiply and add. -/
def epiY1 (e : EpiEntry) (sto : Bool) (g fmt : Nat) (y0 : FVal) : Cm FVal :=
  let y := fadd (fmul y0 e.scale) e.bias
  if fmt = 7 && sto then stoC g y else rneC y

/-- Steps 3 and 4 of R61. -/
def epiOut (e : EpiEntry) (sto : Bool) (g fmt : Nat) (y1 : FVal) : Cm Nat :=
  if fmt = 7 then pure (encodeElem 7 y1) else convC sto g fmt (if isIntFmt fmt then e.outZp else 0) y1

/-- R61 for a result that has no zero points to correct. -/
def epiPlain (e : EpiEntry) (sto : Bool) (g fmt : Nat) (v : FVal) : Cm Nat := do
  let y1 ← epiY1 e sto g fmt v
  epiOut e sto g fmt y1

/-- The greatest magnitude of the values a test selects, +0 when there is none. -/
def maxMag (p : FVal → Bool) (xs : List FVal) : FVal :=
  xs.foldl (fun m x => if p x && flt m (fabs x) then fabs x else m) fzero

/-- One KV4G group (R71): the scale byte and the INT4 codes, low nibble of each. A group with a NaN stores scale 0x7F
and codes 0. -/
def kv4gGroup (xs : List FVal) : Cm (Nat × List Nat) := do
  if xs.any isNan then pure (0x7F, xs.map fun _ => 0) else
    let m := maxMag (fun _ => true) xs
    let s := if isInf m then fmtMax 3 else
      let r := roundFree rneShr 4 (-9) (fdiv m (ofNat 7))
      if flt (fmtMax 3) r then fmtMax 3 else r
    let code (x : FVal) : Int :=
      match x with
      | .inf n => if n then -7 else 7
      | _ => if isZero s then (if isZero x then 0 else if isNeg x then -7 else 7)
             else clampInt (-7) 7 (roundInt rneShr (fdiv x s))
    noteSat (xs.any fun x => isInf x || flt (ofNat 3136) (fabs x))
    pure (encodeE4M3 s, xs.map fun x => ((code x) % 16).toNat)

/-- One KV8 element (R70): E4M3, nearest even, saturating. -/
def kv8Elem (x : FVal) : Cm Nat := do
  let r := convElem rneShr 3 0 x
  noteSat r.2
  pure r.1

/-- One expert-parcel token (R72): the BF16 scale word and the E4M3 elements. An infinity or a NaN among its values is
reported by INF_SEEN or NAN_SEEN. -/
def packToken (xs : List FVal) : Cm (Nat × List Nat) := do
  let m := maxMag isFin xs
  let s := if isZero m then fzero else roundFree upShr 8 (-133) (fdiv m (ofNat 448))
  let el (x : FVal) : Nat :=
    match x with
    | .nan => 0x7F
    | .inf n => if n then 0xFE else 0x7E
    | .fin n _ _ => if isZero s then (if n then 0x80 else 0)
        else encodeE4M3 (roundFree rneShr 4 (-9) (fdiv x s))
  noteSat (xs.any isInf)
  noteAll xs
  pure (encodeElem 5 s, xs.map el)

end Sys2Proof.Machine
end

