-- ==== Sys2Proof/Machine/Emit.lean ====
section
/-! DEFINITION. Parcels leaving and entering: headers and CRC (R348, R350), the address plan and routes (R351, R352), the
next hop (R353), credits (R338), the alive counters and the resend ring (R350, R369), the receive area (R338). -/

namespace Sys2Proof.Machine

/-- The fabric changed. -/
def State.modFabric (s : State) (f : Fabric → Fabric) : State := { s with fabric := f s.fabric }

/-- A Dareno port changed. -/
def State.modFPort (s : State) (p : Nat) (f : FPort → FPort) : State :=
  s.modFabric fun x => { x with ports := modAt x.ports p f }

/-- A Dareno port. -/
def State.fport (s : State) (p : Nat) : FPort :=
  s.fabric.ports.getD p
    { state := 0, mode := 0, rate := 0, width := 0, spareUsed := false, reason := 0, polInv := 0, laneMap := 0,
      partner := 0, partnerPort := 0, fecCorrected := 0, fecUncorrected := 0, mismatches := 0, dropped := 0,
      renegotiations := 0, excluded := 0, nonce := 0, credits := 0, txQueue := [], logged := [], faults := [],
      noRetry := false, everUp := false,
      cvu := { head := 0, tail := 0, overflow := false, checked := 0, crcFails := 0, gaps := 0, repeats := 0,
               ring := [], sources := [], mark := 0, prevMark := 0 },
      timeParcel := none, offsets := [] }

/-- A parcel or frame discarded and counted in DROPPED of a port (R371). -/
def State.dropAt (s : State) (p : Nat) : State := s.modFPort p fun k => { k with dropped := sat32 (k.dropped + 1) }

/-! ### Headers -/

/-- The 8 header words of a parcel (R348). -/
def parcelHeader (p : Parcel) : List W32 :=
  let seg (i : Nat) : Nat := (p.segs.getD i 0).toNat
  [w32 (p.dest.toNat + (p.ptype.toNat <<< 20) + (p.epochLo.toNat <<< 24)),
   w32 (p.src.toNat + (p.alive.toNat <<< 20)),
   w32 p.ident.toNat,
   w32 (p.stream.toNat + (p.payload.length <<< 16)),
   p.token, p.shortColophon,
   w32 (seg 0 + (seg 1 <<< 10) + (seg 2 <<< 20) + (if p.reversed then 1 <<< 30 else 0)),
   w32 (seg 3 + (seg 4 <<< 10) + (seg 5 <<< 20))]

/-- The CRC-32C of a parcel, words 6 and 7 taken as zero (R350). -/
def parcelCrc (p : Parcel) : W32 := crc32c (wordsBytes ((parcelHeader p).take 6 ++ [0, 0]) ++ p.payload)

/-- A parcel of a type with empty header fields. -/
def mkParcel (dest : BitVec 20) (ptype : BitVec 4) (payload : List Byte) : Parcel :=
  { dest := dest, ptype := ptype, epochLo := 0, src := 0, alive := 0, ident := 0, stream := 0, token := 0,
    shortColophon := 0, segs := [], reversed := false, second := false, payload := payload }

/-- The short colophon (R465). -/
def State.shortColophon (s : State) : W32 := s.ident.colophon.setWidth 32

/-! ### The address plan -/

/-- LEVELS, W_k, N_k and CHAIN_k (R351, R445). -/
def State.levels (s : State) : Nat := bits (s.sys 10) 2 0
/-- Field width of level k. -/
def State.fieldW (s : State) (k : Nat) : Nat := bits (s.sys (11 + k)) 2 0
/-- Ring size of level k. -/
def State.ringN (s : State) (k : Nat) : Nat := bits (s.sys (11 + k)) 9 3
/-- Chain flag of level k. -/
def State.isChain (s : State) (k : Nat) : Bool := (s.sys (11 + k)).getLsbD 10

/-- Field k of an address. -/
def State.field (s : State) (a : BitVec 20) (k : Nat) : Nat :=
  let lo := ((List.range k).map s.fieldW).foldl (· + ·) 0
  (a.toNat >>> lo) % (1 <<< s.fieldW k)

/-- Does this module belong to the level-k ring of its address (R351)? -/
def State.belongs (s : State) (k : Nat) : Bool :=
  decide (k < s.levels) && (List.range k).all fun j => s.field s.addr j == 0

/-- One segment of a route: level, direction, hops (R352). -/
def State.seg (s : State) (k from_ dest : Nat) : BitVec 10 :=
  let mk (d h : Nat) : BitVec 10 := BitVec.ofNat 10 (h + (d <<< 6) + (k <<< 7))
  if s.isChain k then (if from_ < dest then mk 0 (dest - from_) else mk 1 (from_ - dest))
  else
    let n := max 1 (s.ringN k)
    let cw := (dest + n - from_ % n) % n
    if cw ≤ n - cw then mk 0 cw else mk 1 (n - cw)

/-- The route of R352: its first six segments. -/
def State.route (s : State) (src dst : BitVec 20) : List (BitVec 10) :=
  if src = dst then [] else
    let h := ((List.range s.levels).filter fun k => s.field src k != s.field dst k).foldl max 0
    let up := (List.range h).map fun k => s.seg k (s.field src k) 0
    let down := ((List.range h).reverse).map fun k => s.seg k 0 (s.field dst k)
    ((up ++ [s.seg h (s.field src h) (s.field dst h)] ++ down).filter fun g => g.toNat % 64 != 0).take 6

/-- LEVEL and DIR that the imprint gives a port, and its PORT_MODE (R445). -/
def State.portWord (s : State) (p : Nat) : W32 := s.modw (16 + 12 * p)

/-- The native ports of a trunk that are up (R351, R353). -/
def State.trunkUp (s : State) (level dir : Nat) : List Nat :=
  (List.range 16).filter fun p =>
    let w := s.portWord p
    (s.fport p).state == 2 && bits w 1 0 == 1 && bits w 4 2 == level && bits w 5 5 == dir

/-- The ports that carry a trunk's label. -/
def State.trunkAll (s : State) (level dir : Nat) : List Nat :=
  (List.range 16).filter fun p =>
    let w := s.portWord p
    bits w 1 0 == 1 && bits w 4 2 == level && bits w 5 5 == dir

/-- Bytes of line that a parcel occupies (R337). -/
def lineBytes (p : Parcel) : Nat := (44 + p.payload.length + 7) / 8 * 8

/-- Credit units a parcel takes at the receiver: 256-byte units of header, payload and trailer (R338). -/
def creditUnits (p : Parcel) : Nat := (36 + p.payload.length + 255) / 256

/-- Units of a native port's input buffer of 512 KiB. -/
def inputUnits : Nat := 2048

/-- The credit that a parcel's departure from the input buffer of the port it came by grants the partner there, while that port has
one. -/
def State.grants (s : State) (came : Option Nat) (p : Parcel) : List Out :=
  match came with
  | some q => if (s.fport q).state = 2 ∨ (s.fport q).state = 3 then [.credit q (creditUnits p)] else []
  | none => []

/-- A parcel leaves the input buffer of the port it came by. -/
def State.freed (s : State) (came : Option Nat) (p : Parcel) : State := { s with out := s.out ++ s.grants came p }

/-- A parcel sent on a port: at once against credit where none of its virtual channel waits, else queued (R338). -/
def State.sendOn (s : State) (port : Nat) (p : Parcel) (came : Option Nat) : State :=
  let k := s.fport port
  if (k.txQueue.all fun w => w.parcel.second != p.second) && decide (creditUnits p ≤ k.credits) then
    ((s.modFPort port fun k => { k with credits := k.credits - creditUnits p }).emit (.parcel port p (parcelCrc p))).freed came p
  else s.modFPort port fun k => { k with txQueue := k.txQueue ++ [{ parcel := p, came := came }] }

/-- The parcels of a queue that a credit lets go, and those that stay: on each virtual channel in order, none past one that stays. -/
def passQueue : Nat → List Bool → List Waiting → List Waiting × List Waiting
  | _, _, [] => ([], [])
  | credit, held, w :: rest =>
    if held.contains w.parcel.second || decide (credit < creditUnits w.parcel) then
      let r := passQueue credit (w.parcel.second :: held) rest
      (r.1, w :: r.2)
    else
      let r := passQueue (credit - creditUnits w.parcel) held rest
      (w :: r.1, r.2)

/-- The parcels of a port's queue that its credit lets go are sent. -/
def State.drainTx (s : State) (port : Nat) : State :=
  let k := s.fport port
  let r := passQueue k.credits [] k.txQueue
  r.1.foldl (fun s w => (s.emit (.parcel port w.parcel (parcelCrc w.parcel))).freed w.came w.parcel)
    (s.modFPort port fun k => { k with
      txQueue := r.2, credits := k.credits - (r.1.map fun w => creditUnits w.parcel).sum })

/-- A port's transmit buffer discarded (R343): the input buffers that its parcels filled are free. -/
def State.emptyTx (s : State) (port : Nat) : State :=
  (s.fport port).txQueue.foldl (fun s w => s.freed w.came w.parcel) (s.modFPort port fun k => { k with txQueue := [] })

/-! ### The receive area (R338) -/

/-- Units of 1 KiB that a parcel takes. -/
def rxUnits (p : Parcel) : Nat := (32 + p.payload.length + 1023) / 1024

/-- A parcel enters the receive area by a port, or locally, in the lowest free slot and units (log 11): discarded and counted where the
area is full. -/
def State.receive (s : State) (p : Parcel) (port : Option Nat) (bad : Bool) : State :=
  let used := s.fabric.rx.foldl (fun n r => n + rxUnits r.parcel) 0
  if 65536 < used + rxUnits p || 65536 ≤ s.fabric.rx.length then
    match port with
    | some q => s.dropAt q
    | none => s
  else
    let slot := ((List.range (s.fabric.rx.length + 1)).find? fun i => !(s.fabric.rx.any fun r => r.rq == i)).getD 0
    let vis := match port with
      | some q => (s.fport q).cvu.mark + 1
      | none => 0
    let held := s.fabric.rx.flatMap (·.units)
    let units := ((List.range (held.length + rxUnits p)).filter fun u => !held.contains u).take (rxUnits p)
    let r : Rx := { rq := slot, units := units, parcel := p, port := port, bad := bad, vis := vis, swept := port.isNone, takenBy := none }
    let s := s.modFabric fun f => { f with rx := f.rx ++ [r] }
    match port with
    | some q => s.modFPort q fun k => { k with cvu := { k.cvu with mark := vis } }
    | none => s

/-- A receive-area slot freed. -/
def State.dropRx (s : State) (rq : Nat) : State :=
  s.modFabric fun f => { f with rx := f.rx.filter fun r => r.rq != rq }

/-- The parcel in a receive-area slot. -/
def State.rx? (s : State) (rq : Nat) : Option Rx := s.fabric.rx.find? fun r => r.rq == rq

/-! ### Forwarding (R353) -/

/-- A segment with one hop fewer. -/
def segLess (g : BitVec 10) : BitVec 10 := if g.toNat % 64 = 0 then g else g - 1

/-- The port on which a discard at emission is counted: the lowest port with the trunk's label, else port 0 (log 18). -/
def State.viaOf (s : State) (p : Parcel) : Nat :=
  match p.segs.head? with
  | some g => ((s.trunkAll (g.toNat / 128) ((g.toNat / 64) % 2)).head?).getD 0
  | none => 0

/-- A parcel that goes no further, discarded and counted at the port it came by. -/
def State.lose (s : State) (p : Parcel) (came : Option Nat) : State := (s.dropAt (came.getD (s.viaOf p))).freed came p

/-- The place in a route of its first segment with hops left. -/
def curSeg (segs : List (BitVec 10)) : Option Nat := (List.range segs.length).find? fun i => (segs.getD i 0).toNat % 64 != 0

/-- A parcel as it goes on from a port: on the ring it came by it moves to the second virtual channel at position 0, and on another
ring it starts on the first (R338). -/
def State.onChannel (s : State) (port : Nat) (p : Parcel) : Parcel :=
  match curSeg p.segs with
  | some i =>
    let lvl := (p.segs.getD i 0).toNat / 128
    { p with second := lvl == bits (s.portWord port) 4 2 && (p.second || s.field s.addr lvl == 0) }
  | none => { p with second := false }

/-- A parcel on its way out of this module: the next hop, a reversal around a down trunk, a relay, or a discard; came is the port
it came by. fuel bounds a reversal and a relay. -/
def State.forward : Nat → State → Parcel → Option Nat → State
  | 0, s, p, came => s.lose p came
  | n + 1, s, p, came =>
    match curSeg p.segs with
    | none =>
      if p.dest = s.addr then (s.receive p none false).freed came p
      else State.forward n s { p with segs := s.route s.addr p.dest, reversed := false, second := false } came
    | some i =>
      let g := p.segs.getD i 0
      let hops := g.toNat % 64
      let dir := (g.toNat / 64) % 2
      let lvl := g.toNat / 128
      if !s.belongs lvl then s.lose p came else
      let up := s.trunkUp lvl dir
      match up with
      | [] =>
        if p.reversed || s.isChain lvl then s.lose p came
        else
          let g' : BitVec 10 := BitVec.ofNat 10 (s.ringN lvl - hops + ((1 - dir) <<< 6) + (lvl <<< 7))
          State.forward n s { p with segs := p.segs.set i g', reversed := true } came
      | _ :: _ =>
        let port := up.getD (Config.trunkHash p.src p.dest up.length % up.length) 0
        s.sendOn port { p with segs := p.segs.set i (segLess g), reversed := p.reversed && hops != 1 } came

/-- Steps that one forwarding can take: a relay, a reversal and the hop. -/
def hopFuel : Nat := 4

/-- The most recent parcels that fit a resend ring of 64 MiB, newest first (R369). -/
def keepResend : Nat → List Parcel → List Parcel
  | _, [] => []
  | room, p :: rest =>
    let n := 32 + p.payload.length
    if room < n then [] else p :: keepResend (room - n) rest

/-- The parcel kept in the resend ring. -/
def State.keep (s : State) (p : Parcel) : State :=
  s.modFabric fun f => { f with resend := (keepResend 0x4000000 (p :: f.resend.reverse)).reverse }

/-- A parcel emitted by this module: SRC and SHORT_COLOPHON written; a local one is delivered with ALIVE 0; another takes
the next ALIVE of its destination, is kept in the resend ring and sent on its route (R350, R352). -/
def State.emitParcel (s : State) (p : Parcel) : State :=
  let p := { p with src := s.addr, shortColophon := s.shortColophon }
  if p.dest = s.addr then s.receive { p with alive := 0 } none false
  else
    let a := alGet 0 p.dest.toNat s.fabric.alive + 1
    let p := { p with alive := a, segs := s.route s.addr p.dest, reversed := false, second := false }
    let s := s.modFabric fun f => { f with alive := alSet 0 p.dest.toNat a f.alive }
    State.forward hopFuel (s.keep p) p none

/-- A parcel for the link partner, kept in the resend ring and sent on a port with zero route (R345, R369, R511). -/
def State.emitLink (s : State) (port : Nat) (p : Parcel) : State :=
  let p := { p with dest := 0xFFFFF, src := s.addr, shortColophon := s.shortColophon, alive := 0 }
  (s.keep p).sendOn port p none

/-- A module put on the unreachable list; of 256 the oldest is dropped (R475). -/
def State.listUnreachable (s : State) (a : BitVec 20) : State :=
  s.modFabric fun f =>
    if f.unreachable.contains a then f
    else { f with unreachable := (if 256 ≤ f.unreachable.length then f.unreachable.drop 1 else f.unreachable) ++ [a] }

end Sys2Proof.Machine
end

