-- ==== Sys2Proof/Machine/Leaves.lean ====
section
/-! DEFINITION. Leaves: the leaf table and its updates (R274 to R282), where a leaf's content lies, the governor and the
placing of cellar frames (R290, R295), taking a leaf (R168 to R170, R540), pins, counts and releases (R157 to R161). -/

namespace Sys2Proof.Machine

/-! ### The leaf table -/

/-- The entry of a handle; an unlisted one is free. -/
def State.leaf (s : State) (h : Handle) : Leaf := alGet Leaf.free h s.rack.leaves

/-- The rack changed. -/
def State.modRack (s : State) (f : Rack → Rack) : State := { s with rack := f s.rack }

/-- The cellar changed. -/
def State.modCellar (s : State) (f : Cellar → Cellar) : State := { s with cellar := f s.cellar }

/-- One atomic update of an entry (R161). None is made in a sector that is uncorrectable, whose handles are lost (R259, R262).
A leaf no longer poisoned may be logged again (R176). -/
def State.setLeaf (s : State) (h : Handle) (e : Leaf) : State :=
  s.modRack fun r => if r.lostHandles.contains h then r else { r with
    leaves := alSet Leaf.free h e r.leaves
    logged := if e.poisoned then r.logged else r.logged.filter (· != h) }

/-- An entry changed by a function. -/
def State.modLeaf (s : State) (h : Handle) (f : Leaf → Leaf) : State := s.setLeaf h (f (s.leaf h))

/-- Does the entry name anything, or is it free? -/
def State.isFreeLeaf (s : State) (h : Handle) : Bool := s.leaf h == Leaf.free

/-- The 16 bytes of an entry as words (R274). -/
def leafWords (e : Leaf) : List W32 :=
  let b (c : Bool) (i : Nat) : Nat := if c then 1 <<< i else 0
  [w32 (e.ref + (e.pin <<< 16) + (e.heat <<< 24)),
   w32 (e.age + b e.inSs 16 + b e.inCask 17 + b e.inCellar 18 + b e.dirty 19 + b e.poisoned 20 + b e.pending 21 +
     b e.tierPinned 22 + b e.moving 23 + (e.format <<< 24) + (e.partition <<< 27) + b e.remote 30 + b e.ssStale 31),
   w32 (e.caskFrame + (e.ssFrame <<< 21) + (e.ssSection <<< 30)),
   w32 e.cellarFrame]

/-- The entry that 16 bytes spell. -/
def wordsLeaf (ws : List W32) : Leaf :=
  let b (i : Nat) : Bool := (wd ws 1).getLsbD i
  { ref := bits (wd ws 0) 15 0, pin := bits (wd ws 0) 23 16, heat := bits (wd ws 0) 31 24, age := bits (wd ws 1) 15 0
    inSs := b 16, inCask := b 17, inCellar := b 18, dirty := b 19, poisoned := b 20, pending := b 21, tierPinned := b 22
    moving := b 23, format := bits (wd ws 1) 26 24, partition := bits (wd ws 1) 29 27, remote := b 30, ssStale := b 31
    caskFrame := bits (wd ws 2) 20 0, ssFrame := bits (wd ws 2) 29 21, ssSection := bits (wd ws 2) 31 30
    cellarFrame := bits (wd ws 3) 31 0 }

/-- The form of a leaf of a FORMAT whose other bytes are zero. -/
def formOf (fmt : Nat) : Form :=
  match fmt with
  | 4 => .root
  | 5 => .spine
  | 6 => .state
  | _ => .plain

/-- The form of a new leaf of a FORMAT, the n-th undefined content where it is no root, spine leaf or state leaf (R540). -/
def newForm (fmt n : Nat) : Form := if formOf fmt = .plain then .free n else formOf fmt

/-- The move of a leaf, if one is in progress. -/
def State.move? (s : State) (h : Handle) : Option Move := s.rack.moves.find? fun m => m.handle == h

/-- The move of a leaf removed and MOVING cleared. -/
def State.endMove (s : State) (h : Handle) : State :=
  (s.modRack fun r => { r with moves := r.moves.filter fun m => m.handle != h }).modLeaf h
    fun e => { e with moving := false }

/-- A move started: MOVING set (R309). -/
def State.startMove (s : State) (m : Move) : State :=
  (s.modRack fun r => { r with moves := r.moves ++ [m] }).modLeaf m.handle fun e => { e with moving := true }

/-- Does a leaf hold a pool frame: it is in the cask, or a promotion or rewrite of it has taken one (R278)? -/
def State.holdsFrame (s : State) (h : Handle) (e : Leaf) : Bool :=
  e.inCask || s.rack.moves.any fun m => m.handle == h && (m.kind == .promote || m.kind == .rewrite)

/-- The pool frames in use, those given to a stream that has not taken them yet among them (R287). -/
def State.usedFrames (s : State) : List Nat :=
  (s.rack.leaves.filter fun e => s.holdsFrame e.1 e.2).map (fun e => e.2.caskFrame) ++ s.rack.grants.map (·.2)

/-- The lowest free pool frame (log 11). -/
def State.freeFrame (s : State) : Option Nat :=
  let used := s.usedFrames ++ s.rack.lostFrames
  (List.range (used.length + 1)).find? fun f => decide (f < s.rack.poolSize) && !used.contains f

/-- Free frames of the pool (R278). -/
def State.freeCount (s : State) : Nat := s.rack.poolSize - s.usedFrames.length - s.rack.lostFrames.length

/-- The lowest free handle; 0 is never issued (R275, log 11), nor, before the cellar index is rebuilt, one that a frame of
the cellar records (R306). -/
def State.freeHandle (s : State) : Handle :=
  let taken := s.rack.leaves.map (·.1) ++ s.rack.lostHandles ++
    (if s.cellar.rebuilding then s.cellar.frames.map fun f => f.2.handle.toNat else [])
  (((List.range (taken.length + 1)).map (· + 1)).find? fun h => !taken.contains h).getD 1

/-- Pool frames held by a partition (R278). -/
def State.framesOf (s : State) (part : Nat) : Nat :=
  (s.rack.leaves.filter fun e => e.2.partition == part && s.holdsFrame e.1 e.2).length +
    (s.rack.grants.filter fun g => (alGet (Stream.free 0) g.1 s.streams).partition == part).length

/-- Is the module in single-model mode (R25)? -/
def State.singleModel (s : State) : Bool := !(s.sys 0).getLsbD 4

/-- The cask quota of a partition in frames (R26, R272, R278). -/
def State.caskQuota (s : State) (part : Nat) : Nat :=
  if s.singleModel then s.rack.poolSize
  else
    let q := bits (s.sys (20 + 4 * part)) 12 8 * 65536
    if s.rack.poolSize = Config.poolFrames16 then q else q * s.rack.poolSize / Config.poolFrames16 / 16 * 16

/-- Cellar frames in service (R292, R302). -/
def State.cellarTotal (s : State) : Nat :=
  (s.cellar.dies.filter fun d => !d.retired).length * Config.framesPerDie

/-- The cellar quota of a partition (R279). -/
def State.cellarQuota (s : State) (part : Nat) : Nat :=
  if s.singleModel then s.cellarTotal else bits (s.sys (20 + 4 * part)) 22 16 * 4194304

/-- Cellar frames a partition holds: those its leaves name, buffered ones included, and mirror frames of its slots. -/
def State.cellarHeld (s : State) (part : Nat) : Nat :=
  (s.cellar.frames.filter fun f => f.2.current && f.2.partition == part).length

/-- Age of a leaf (R281). -/
def State.ageOf (s : State) (e : Leaf) : Nat := (s.rack.heatCount + 65536 - e.age) % 65536

/-- Effective heat of a leaf (R281). -/
def State.heatOf (s : State) (e : Leaf) : Nat := e.heat >>> min (s.ageOf e) 8

/-! ### Content -/

/-- The frame of the pool. -/
def Rack.frame (r : Rack) (f : Nat) : Bytes := alGet (Bytes.empty .plain) f r.pool

/-- A pool frame's bytes set; a frame that holds nothing is not listed. -/
def State.setFrame (s : State) (f : Nat) (b : Bytes) : State :=
  s.modRack fun r => { r with pool := alSet (Bytes.empty .plain) f b r.pool }

/-- A pool frame emptied. -/
def State.dropFrame (s : State) (f : Nat) : State := s.modRack fun r => { r with pool := alDel f r.pool }

/-- A cellar frame's record, if it is listed. -/
def State.cellarFrame? (s : State) (f : Nat) : Option CellarFrame :=
  (s.cellar.frames.find? fun e => e.1 == f).map (·.2)

/-- A leaf's section-store copy. -/
def State.ssCopy (s : State) (e : Leaf) : Bytes :=
  match s.rack.ss.find? fun k => k.1 == (e.ssSection, e.ssFrame) with
  | some k => k.2
  | none => Bytes.empty .plain

/-- What a read of a leaf is served from: the nearest copy (R276). -/
def State.content (s : State) (h : Handle) : Bytes :=
  let e := s.leaf h
  if e.inSs && !e.ssStale then s.ssCopy e
  else if e.inCask then s.rack.frame e.caskFrame
  else match if e.inCellar then s.cellarFrame? e.cellarFrame else none with
    | some f => f.data
    | none => Bytes.empty (formOf e.format)

/-- Has a leaf readable content: not poisoned, not lost, and a copy in the cask or the cellar (R176, R262, R276)? -/
def State.readable (s : State) (h : Handle) : Bool :=
  let e := s.leaf h
  !e.poisoned && (e.inCask || e.inCellar) && !s.rack.lostHandles.contains h

/-- The cask copy changed. -/
def State.patchCask (s : State) (h : Handle) (f : Bytes → Bytes) : State :=
  let e := s.leaf h
  if e.inCask then s.setFrame e.caskFrame (f (s.rack.frame e.caskFrame)) else s

/-! ### The governor and the cellar log -/

/-- Hundredths of a byte that a frame draws from the governor (R290, R294). -/
def frameDraw : Nat := 7372800

/-- Does the governor let a frame in now (R290)? -/
def State.govOpen (s : State) : Bool :=
  decide ((frameDraw : Int) ≤ s.cellar.level) && decide (s.cellar.peakAt ≤ s.now.toNat)

/-- Hundredths of a byte admitted: the bucket falls, and GOV_PEAK spaces the next admission. 46 080 / GOV_PEAK ticks are the
time of 73 728 bytes at GOV_PEAK units of 0.5 GB/s. Admissions of one row follow one another (DESIGN CHOICE, log 151). -/
def State.govDraw (s : State) (n : Nat) : State :=
  let peak := 7372800 * max 1 (bits (s.sys 7) 12 8)
  s.modCellar fun c => { c with
    level := c.level - n, peakAt := max s.now.toNat c.peakAt + (46080 * n + peak - 1) / peak }

/-- A frame admitted. -/
def State.govTake (s : State) : State := s.govDraw frameDraw

/-- The index records and checkpoints that wait are programmed once the governor admits their bytes, a free number (R290,
R304; log 105). -/
def State.payIndex (s : State) : State :=
  let n := 100 * Config.indexBytes s.draws
  if s.cellar.indexDue != 0 && decide ((n : Int) ≤ s.cellar.level) && decide (s.cellar.peakAt ≤ s.now.toNat) then
    ({ s with draws := s.draws + 1 } : State).govDraw n |>.modCellar fun c => { c with indexDue := 0 }
  else s

/-- A forced relocation of a frame: admitted at once and still subtracted (R291). -/
def State.govForce (s : State) : State := s.modCellar fun c => { c with level := c.level - (frameDraw : Nat) }

/-- Programs in flight on a die: frames of it that lie in the write buffer. -/
def Cellar.inFlight (c : Cellar) (d : Nat) : Nat :=
  (c.frames.filter fun f => f.1 % 128 == d && !f.2.programmed).length

/-- Dies in ascending number from the one after the die last chosen, those in service (R295). -/
def Cellar.dieOrder (c : Cellar) : List Nat :=
  ((List.range 128).map fun i => (c.lastDie + 1 + i) % 128).filter fun d =>
    match c.dies[d]? with
    | some k => !k.retired
    | none => false

/-- Physical superblocks of a die that may hold data: 2 312, and its spares in use, less those out of service. -/
def Die.physical (d : Die) : List Nat := (List.range (2312 + d.spares)).filter fun p => !d.bad.contains p

/-- Erasures of a physical superblock. -/
def Die.erasures (d : Die) (p : Nat) : Nat := alGet 0 p d.erases

/-- The free physical superblock with the fewest erasures, the lowest among equals (R295). -/
def Die.freePhysical (d : Die) : Option Nat :=
  let used := d.map.map (·.2)
  (d.physical.filter fun p => !used.contains p).foldl (fun best p =>
    match best with
    | none => some p
    | some b => if d.erasures p < d.erasures b then some p else some b) none

/-- The lowest free logical superblock of a die. -/
def Die.freeLogical (d : Die) : Option Nat :=
  (List.range 2312).find? fun l => !(d.map.any fun e => e.1 == l)

/-- A die with an open superblock that has a free page, if it can have one. -/
def Die.opened (d : Die) : Option (Die × Nat × Nat) :=
  match if (match d.open_ with | some o => decide (o.2 < 1536) | none => false) then d.open_ else none with
  | some o => some (d, o.1, o.2)
  | none =>
    match d.freePhysical, d.freeLogical with
    | some p, some l => some ({ d with map := d.map ++ [(l, p)], open_ := some (l, 0) }, l, 0)
    | _, _ => none

/-- A record joins a die's journal; after every 2^20 records a checkpoint starts it anew (R304). -/
def Die.record (d : Die) : Die := { d with journal := if 1048576 ≤ d.journal + 1 then 0 else d.journal + 1 }

/-- The programs of index data that the next record brings: its own, and a checkpoint after every 2^20 records (R304). -/
def Die.indexBy (d : Die) : Nat := if 1048576 ≤ d.journal + 1 then 2 else 1

/-- The place of the next frame (R295): its number and the cellar after the place is taken. -/
def Cellar.place (c : Cellar) : Option (Nat × Cellar) :=
  let order := c.dieOrder
  let best := order.foldl (fun (b : Option Nat) d =>
    match b with
    | none => some d
    | some e => if c.inFlight d < c.inFlight e then some d else some e) none
  match best with
  | none => none
  | some d =>
    match (c.dies[d]?).bind Die.opened with
    | none => none
    | some (k, l, page) =>
      some (d + 128 * (1536 * l + page),
        { c with dies := c.dies.set d { k.record with open_ := some (l, page + 1) }, lastDie := d
                 indexDue := c.indexDue + k.indexBy })

/-- A frame made stale (R275, R289); the journal of its die grows (R304). -/
def State.staleFrame (s : State) (f : Nat) : State :=
  s.modCellar fun c => { c with
    frames := c.frames.map fun e => if e.1 == f then (e.1, { e.2 with current := false }) else e
    dies := modAt c.dies (f % 128) Die.record
    indexDue := c.indexDue + ((c.dies[f % 128]?).map Die.indexBy).getD 1 }

/-- The slot and image index of a weight leaf of a loaded plan. -/
def State.weightPlace (s : State) (h : Handle) : Option (Nat × Nat) :=
  ((List.range s.slots.length).filterMap fun i =>
    match (s.slots[i]?).bind (·.plan) with
    | some p => ((List.range p.leaves.length).find? fun k => p.leaves.getD k 0 == h).map fun k => (i, k)
    | none => none).head?

/-- Does a descriptor's batch element b of a CASK-space W operand touch leaf idx of the weight image? -/
def descTouches (d : List W32) (b idx : Nat) : Bool :=
  let base := 256 * ((wd d 7).toNat + b * (wd d 11).toNat)
  let len := 256 * (wd d 11).toNat
  bits (wd d 6) 17 16 == 2 && decide (len ≠ 0) && decide (base < 65536 * (idx + 1)) && decide (65536 * idx < base + len)

/-- The expert of leaf idx of a slot's image among descriptors: the lowest directory entry homed or replicated here whose
LOCAL_INDEX names a batch element of the commands that covers the leaf; 0xFF_FFFF when none (R294, log 16). -/
def State.expertAmong (s : State) (descs : List (List W32)) (slot idx : Nat) : Nat :=
  let here (e : List W32) : Bool := bits (wd e 0) 19 0 == s.addr.toNat ||
    ((List.range (bits (wd e 0) 24 22)).any fun i => bits (wd e (2 + i)) 19 0 == s.addr.toNat)
  match s.fabric.directory.find? fun e => (wd e.2 0).getLsbD 20 && bits (wd e.2 1) 5 0 == slot && here e.2 &&
      descs.any fun d => descTouches d (bits (wd e.2 10) 15 0) idx with
  | some e => e.1
  | none => 0xFFFFFF

/-- The expert of a weight leaf of a slot's plan. -/
def State.leafExpert (s : State) (slot idx : Nat) : Nat :=
  s.expertAmong (((s.slots[slot]?).bind (·.plan)).map (·.descs) |>.getD []) slot idx

/-- Does an entry of the directory or of the slot origin table name another module as replica or weight origin (R354)? -/
def State.namesSource (s : State) (e : List W32) : Bool :=
  let other (a : Nat) : Bool := a != 0xFFFFF && a != s.addr.toNat
  ((List.range (bits (wd e 0) 24 22)).any fun i => other (bits (wd e (2 + i)) 19 0)) || other (if e.isEmpty then 0xFFFFF else bits (wd e 9) 19 0)

/-- Is a weight leaf of a slot, of an expert or of none, to be had from another module (R299, R303)? -/
def State.remoteSource (s : State) (slot expert : Nat) : Bool :=
  s.namesSource (if expert = 0xFFFFFF then s.fabric.origins.getD slot [] else alGet [] expert s.fabric.directory)

/-- A new weight leaf in the cask: DIRTY; while the cellar takes no writes, REMOTE and not DIRTY where another module has a copy
(R303, R400; log 166). -/
def State.settleWeight (s : State) (h : Handle) (slot expert : Nat) : State :=
  let far := s.cellar.belowMin && s.remoteSource slot expert
  s.modLeaf h fun e => { e with dirty := !far, remote := e.remote || far }

/-- What a frame descriptor says of a leaf beside its handle (R294): KIND, PARTITION, SLOT and words 4 to 7. -/
structure FrameDesc where
  kind : Nat
  partition : Nat
  slot : Nat
  w4 : W32
  w5 : W32
  w6 : W32
  w7 : W32

/-- The descriptor of a weight leaf. -/
def weightDesc (part slot idx expert : Nat) (key : W64) : FrameDesc :=
  { kind := 0, partition := part, slot := slot, w4 := w32 expert, w5 := w32 idx, w6 := key.setWidth 32
    w7 := (key >>> 32).setWidth 32 }

/-- The slot, index and key of a leaf of a retained weight set (R306). -/
def State.retainedPlace (s : State) (h : Handle) : Option (Nat × Nat × W64) :=
  (s.slots.zipIdx.filterMap fun x => x.1.retained.bind fun r => (r.2.find? fun l => l.2 == h).map fun l => (x.2, l.1, r.1)).head?

/-- The descriptor of a leaf that holds no mirror. -/
def State.plainDesc (s : State) (h : Handle) : FrameDesc :=
  let e := s.leaf h
  match s.weightPlace h with
  | some (sl, i) => weightDesc e.partition sl i (s.leafExpert sl i) (((s.slots[sl]?).map (·.key)).getD 0)
  | none =>
    match s.retainedPlace h with
    | some (sl, i, key) => weightDesc e.partition sl i (s.leafExpert sl i) key
    | none => ⟨e.format, e.partition, 0, 0xFFFFFF, 0, 0, 0⟩

/-- The descriptor of a frame of a leaf written now: that of its frame in the cellar if it holds a mirror, which no rewrite
changes; of a weight leaf its place in the plan or the retained set; else only KIND and PARTITION mean anything. -/
def State.frameDesc (s : State) (h : Handle) : FrameDesc :=
  let e := s.leaf h
  match if e.inCellar then s.cellarFrame? e.cellarFrame else none with
  | some f =>
    if f.kind = 8 then ⟨8, f.partition, f.slot, f.w4, f.w5, f.w6, f.w7⟩ else s.plainDesc h
  | none => s.plainDesc h

/-- A frame with a descriptor written to the Maltster's buffer (R289, R294): its number and the state, none when no die can
take it. -/
def State.acceptAs (s : State) (h : Handle) (d : FrameDesc) (b : Bytes) : Option (Nat × State) :=
  match s.cellar.place with
  | none => none
  | some (f, c) =>
    let fr : CellarFrame :=
      { handle := w32 h, kind := d.kind, partition := d.partition, slot := d.slot, writeSeq := c.writeSeq + 1, w4 := d.w4
        w5 := d.w5, w6 := d.w6, w7 := d.w7, data := b, current := true, programmed := false }
    some (f, { s with cellar := { c with frames := c.frames ++ [(f, fr)], writeSeq := c.writeSeq + 1 } })

/-- A frame of a leaf written to the Maltster's buffer. -/
def State.acceptFrame (s : State) (h : Handle) (b : Bytes) : Option (Nat × State) := s.acceptAs h (s.frameDesc h) b

/-! ### Releases -/

/-- The section-store copy of a leaf dropped (R286). -/
def State.dropSs (s : State) (h : Handle) : State :=
  let e := s.leaf h
  if e.inSs then
    (s.modRack fun r => { r with ss := r.ss.filter fun k => k.1 != (e.ssSection, e.ssFrame) }).modLeaf h
      fun e => { e with inSs := false, ssStale := false, ssFrame := 0, ssSection := 0 }
  else s

/-- A leaf's copies dropped, its cellar frame made stale, its handle freed (R275). -/
def State.freeLeaf (s : State) (h : Handle) : State :=
  let e := s.leaf h
  let s := s.dropSs h
  let s := if s.holdsFrame h e then s.dropFrame e.caskFrame else s
  let s := if e.inCellar then s.staleFrame e.cellarFrame else s
  ((s.endMove h).modRack fun r => { r with rewrites := r.rewrites.filter (· != h) }).setLeaf h Leaf.free

/-- The handles a leaf names and counts (R157, R204): a root's spine, window and output entries, a spine leaf's slots, a
state leaf's base and advance pages. -/
def State.named (s : State) (h : Handle) : List Handle :=
  let b := s.content h
  match (s.leaf h).format with
  | 4 => (b.handles 0x80 0x4880).map (·.2)
  | 5 => (b.handles 0 65536).map (·.2)
  | 6 => (b.handles 0x4040 0xC040).map (·.2)
  | _ => []

/-- The unused quire handles of a root (R154). -/
def State.quireOf (s : State) (root : Handle) : List (Nat × Handle) :=
  if root = Config.nullHandle then [] else (s.content root).handles 0x40 0x80

/-- One reference less; at count and pin 0 the leaf is released and with it what it names (R160), a root's unused quire
handles too (R171); while a move of it is under way the release waits for its end (R310). fuel bounds the depth, which is at
most 3. -/
def State.deref : Nat → State → Handle → State
  | 0, s, _ => s
  | n + 1, s, h =>
    if h = Config.nullHandle || s.isFreeLeaf h then s else
    let e := s.leaf h
    let s := s.setLeaf h { e with ref := e.ref - 1 }
    if e.ref ≤ 1 && e.pin = 0 && !e.moving then
      let below := s.named h
      let spare := if e.format = 4 then (s.quireOf h).map (·.2) else []
      let s := s.freeLeaf h
      let s := spare.foldl (fun s x => s.freeLeaf x) s
      below.foldl (fun s x => State.deref n s x) s
    else s

/-- Depth of the naming of leaves. -/
def nameDepth : Nat := 5

/-- One reference less. -/
def State.drop (s : State) (h : Handle) : State := State.deref nameDepth s h

/-- A leaf whose move has ended, released if its count and pins have come to 0 meanwhile (R310). -/
def State.releaseMoved (s : State) (h : Handle) : State :=
  let e := s.leaf h
  if e.ref = 0 && e.pin = 0 && !e.pending && !e.moving && !s.isFreeLeaf h then (s.setLeaf h { e with ref := 1 }).drop h else s

/-- One reference more. -/
def State.addRef (s : State) (h : Handle) : State :=
  if h = Config.nullHandle then s else s.modLeaf h fun e => { e with ref := e.ref + 1 }

/-- A pin released; a leaf whose count is 0 is then released (R160), a stale section-store copy dropped (R286). -/
def State.unpin (s : State) (h : Handle) : State :=
  let e := s.leaf h
  if e.pin = 0 then s else
  let s := s.setLeaf h { e with pin := e.pin - 1 }
  if e.pin = 1 then
    let s := if e.inSs && e.ssStale then s.dropSs h else s
    if e.ref = 0 && !e.pending then (s.setLeaf h { s.leaf h with ref := 1 }).drop h else s
  else s

/-- A leaf written: DIRTY, and SS_STALE where it has a section-store copy (R277), which is dropped at once while no pin is
held (R286). -/
def State.dirtyLeaf (s : State) (h : Handle) : State :=
  let e := s.leaf h
  let s := s.setLeaf h { e with dirty := true, ssStale := e.inSs }
  if e.inSs && e.pin = 0 then s.dropSs h else s

/-! ### Eviction and new frames -/

/-- Is a leaf clean (R287)? -/
def Leaf.clean (e : Leaf) : Bool := !e.dirty && (e.inCellar || e.remote)

/-- May racking take a leaf of the partition's cask: in the cask, unpinned, not copy pending, moving or tier-pinned? -/
def Leaf.movable (e : Leaf) (part : Nat) : Bool :=
  e.partition == part && e.inCask && e.pin == 0 && !e.pending && !e.moving && !e.tierPinned

/-- Among leaves, one of those whose age is at least half the greatest age (R287): a free choice (log 11). -/
def State.byAge (s : State) (l : List (Handle × Leaf)) : Option (Handle × State) :=
  let top := l.foldl (fun m e => max m (s.ageOf e.2)) 0
  let old := l.filter fun e => decide (top ≤ 2 * s.ageOf e.2)
  match old with
  | [] => none
  | x :: _ =>
    let i := Config.freeChoice s.rack.choices % old.length
    some ((old.getD i x).1, s.modRack fun r => { r with choices := r.choices + 1 })

/-- A clean leaf evicted for its frame (R287). below restricts the choice to effective heat below PROMOTE_HEAT (R284). -/
def State.evictClean (s : State) (part : Nat) (below : Option Nat) : Option (Nat × State) :=
  let ok (e : Leaf) : Bool := e.movable part && e.clean &&
    (match below with
     | some k => decide (s.heatOf e < k)
     | none => true)
  match s.byAge (s.rack.leaves.filter fun e => ok e.2) with
  | none => none
  | some (h, s) =>
    let f := (s.leaf h).caskFrame
    some (f, (s.dropFrame f).modLeaf h fun e => { e with inCask := false, caskFrame := 0 })

/-- A free frame within the partition's quota (R278). -/
def State.quotaFrame (s : State) (part : Nat) : Option Nat :=
  if s.framesOf part + 1 ≤ s.caskQuota part then s.freeFrame else none

/-- A frame for a demand promotion or a single leaf: free within the quota, else by eviction of a clean leaf. -/
def State.demandFrame (s : State) (part : Nat) : Option (Nat × State) :=
  match s.quotaFrame part with
  | some f => some (f, s)
  | none => s.evictClean part none

/-- A freed frame given to who asked for it, if they still wait (R287): a command for a leaf of the stream, or a leaf to be
promoted, whose move then starts. -/
def State.giveFrame (s : State) (want : Wanter) (f : Nat) : State :=
  match want with
  | .none_ => s
  | .stream i =>
    if s.cmds.any fun c => c.starved && c.shape.rows.contains i then
      s.modRack fun r => { r with grants := r.grants ++ [(i, f)] }
    else s
  | .leaf h =>
    let e := s.leaf h
    if e.inCask || e.moving || !e.inCellar then s
    else (s.startMove { handle := h, kind := .promote, section_ := 0, admitted := true }).modLeaf h
      fun e => { e with caskFrame := f }

/-- The frames given to streams returned to the pool. -/
def State.dropGrants (s : State) (is : List Nat) : State :=
  s.modRack fun r => { r with grants := r.grants.filter fun g => !is.contains g.1 }

/-- The cask copy of a leaf given up, and its frame with it. -/
def State.dropCask (s : State) (h : Handle) : State :=
  (s.dropFrame (s.leaf h).caskFrame).modLeaf h fun e => { e with inCask := false, caskFrame := 0 }

/-- Would one write-back more pass a partition's cellar quota? Those under way count (R279). -/
def State.cellarFull (s : State) (part : Nat) : Bool :=
  let coming := s.rack.moves.filter fun m =>
    (m.kind == .evict || m.kind == .early || m.kind == .soft) && (s.leaf m.handle).partition == part
  decide (s.cellarQuota part < s.cellarHeld part + coming.length + 1)

/-- The write-back of a dirty leaf started for an eviction or ahead of need (R287 to R289): MOVING set and admission asked
for. A poisoned leaf chosen for an eviction loses its cask copy instead. -/
def State.startWriteBack (s : State) (h : Handle) (kind : MoveKind) (want : Wanter) : State :=
  let e := s.leaf h
  if e.poisoned then
    if kind == .evict then (s.dropCask h).giveFrame want e.caskFrame else s
  else if s.cellar.belowMin || s.cellarFull e.partition then s
  else if s.govOpen then
    (s.govTake.startMove { handle := h, kind := kind, section_ := 0, admitted := true, want := want }).modLeaf h
      fun e => { e with dirty := false }
  else
    (s.startMove { handle := h, kind := kind, section_ := 0, admitted := false, want := want }).modCellar
      fun c => { c with stalls := sat32 (c.stalls + 1) }

/-- No clean leaf qualifies: the write-back of the dirty leaf the age rule chooses starts (R287), unless one runs. -/
def State.startEviction (s : State) (part : Nat) (want : Wanter) : State :=
  if s.rack.moves.any fun m => m.kind == .evict && (s.leaf m.handle).partition == part then s else
  match s.byAge (s.rack.leaves.filter fun e => e.2.movable part && e.2.dirty) with
  | none => s
  | some (h, s) => s.startWriteBack h .evict want

/-- A new leaf with its own handle and frame, copy pending, holding what R540 says. -/
def State.newLeaf (s : State) (part fmt frame : Nat) : Handle × State :=
  let h := s.freeHandle
  let e := { Leaf.free with inCask := true, pending := true, format := fmt, partition := part, caskFrame := frame }
  let s := { s with draws := s.draws + 1 }
  (h, (s.setLeaf h e).setFrame frame (Bytes.empty (newForm fmt (s.draws - 1))))

/-- n new leaves from the free list. -/
def State.newLeaves (part : Nat) : Nat → State → Option (List Handle × State)
  | 0, s => some ([], s)
  | n + 1, s =>
    match s.freeFrame with
    | none => none
    | some f =>
      let r := s.newLeaf part 1 f
      match State.newLeaves part n r.2 with
      | some (hs, s) => some (r.1 :: hs, s)
      | none => none

/-- A new quire of 16 leaves (R169 step 2, R278). -/
def State.newQuire (s : State) (part : Nat) : Option (List Handle × State) :=
  if 16 ≤ s.freeCount ∧ s.framesOf part + 16 ≤ s.caskQuota part then State.newLeaves part 16 s else none

/-- The root of a stream made writable for the module's own upkeep: brought into the cask when it is not there (log 17). -/
def State.ensureCask (s : State) (h : Handle) : State :=
  let e := s.leaf h
  if e.inCask then s else
    match s.demandFrame e.partition with
    | some (f, s) =>
      let b := s.content h
      (s.setFrame f b).modLeaf h fun e => { e with inCask := true, caskFrame := f }
    | none => s

/-- Unused quire handles written into a root: QUIRE_LEFT and the handle slots (R154, R168). -/
def State.setQuire (s : State) (root : Handle) (hs : List Handle) : State :=
  let hs := hs.take 16
  let s := s.ensureCask root
  let s := s.patchCask root fun b =>
    let b := b.patch 0x40 ((hs ++ List.replicate (16 - hs.length) Config.nullHandle).flatMap (leBytes 4))
    b.putWord 12 hs.length
  s.dirtyLeaf root

/-- A leaf given a FORMAT and the content of a new leaf (R540). -/
def State.dress (s : State) (h : Handle) (fmt : Nat) : State :=
  let n := s.draws
  let s := { s with draws := n + 1 }.modLeaf h fun e => { e with format := fmt, pending := true }
  s.patchCask h fun _ => Bytes.empty (newForm fmt n)

/-- The stream entries in identifier order. -/
def State.stream (s : State) (i : Nat) : Stream := alGet (Stream.free 0) i s.streams

/-- A stream entry set; an entry equal to the one after power is not listed. -/
def State.setStream (s : State) (i : Nat) (e : Stream) : State :=
  { s with streams := alSet (Stream.free 0) i e s.streams }

/-- A stream entry changed. -/
def State.modStream (s : State) (i : Nat) (f : Stream → Stream) : State := s.setStream i (f (s.stream i))

/-- Step 4 of R169: a stream of the partition other than i with an unused quire handle. The spec does not say which stream
gives nor which of its handles: the first listed stream that has one, its last handle (DESIGN CHOICE, log 144). -/
def State.quireDonor (s : State) (i part : Nat) : Option (Handle × Handle) :=
  (s.streams.filterMap fun e =>
    if e.1 != i && e.2.partition == part && e.2.spineRoot != Config.nullHandle then
      ((s.quireOf e.2.spineRoot).getLast?).map fun q => (e.2.spineRoot, q.2)
    else none).head?

/-- A leaf for a stream by the sources of R169 in order. -/
def State.takeFree (s : State) (i fmt : Nat) : Option (Handle × Bool × State) :=
  let st := s.stream i
  let part := st.partition
  match s.quireOf st.spineRoot with
  | q :: rest => some (q.2, true, (s.setQuire st.spineRoot (rest.map (·.2))).dress q.2 fmt)
  | [] =>
    match s.newQuire part with
    | some (h :: rest, s) => some (h, true, (s.setQuire st.spineRoot rest).dress h fmt)
    | _ =>
      match s.quotaFrame part with
      | some f => let r := s.newLeaf part fmt f; some (r.1, false, r.2)
      | none =>
        match s.quireDonor i part with
        | some (root, h) =>
          some (h, false, (s.setQuire root (((s.quireOf root).map (·.2)).filter (· != h))).dress h fmt)
        | none =>
          match s.evictClean part none with
          | some (f, s) => let r := s.newLeaf part fmt f; some (r.1, false, r.2)
          | none => none

/-- A leaf for a stream: in a frame that an eviction has given it, else by the sources of R169 in order. The handle, whether
it was drawn from the stream's quire, and the state; none when no source gives one. -/
def State.takeLeaf (s : State) (i fmt : Nat) : Option (Handle × Bool × State) :=
  let st := s.stream i
  let part := st.partition
  match s.rack.grants.find? fun g => g.1 == i with
  | some g =>
    let r := (s.modRack fun r => { r with grants := r.grants.erase g }).newLeaf part fmt g.2
    some (r.1, false, r.2)
  | none => s.takeFree i fmt

/-- A leaf returned unused to its stream's quire while that holds fewer than 16, else freed (R167, R206). -/
def State.returnLeaf (s : State) (i : Nat) (h : Handle) : State :=
  let root := (s.stream i).spineRoot
  let have_ := (s.quireOf root).map (·.2)
  if root != Config.nullHandle && have_.length < 16 && (s.leaf h).inCask then
    let e := s.leaf h
    let q := { Leaf.free with inCask := true, pending := true, format := 1, partition := e.partition }
    let n := s.draws
    let s := { s with draws := n + 1 }.setLeaf h { q with caskFrame := e.caskFrame }
    (s.patchCask h fun _ => Bytes.empty (newForm 1 n)).setQuire root (have_ ++ [h])
  else s.freeLeaf h

/-- A reference dropped by the stream's own commit: a page that falls to count and pin 0 returns to the stream's quire
(R206), any other leaf is released (R160). -/
def State.dropTo (s : State) (i : Nat) (h : Handle) : State :=
  let e := s.leaf h
  if h = Config.nullHandle then s
  else if e.format = 7 && e.ref ≤ 1 && e.pin = 0 && e.inCask && !e.moving then
    ((if e.inCellar then s.staleFrame e.cellarFrame else s).dropSs h).returnLeaf i h
  else s.drop h

/-! ### Pins, heat, promotion (R277, R281, R284, R285) -/

/-- A demand promotion started for a leaf without a cask copy (R284); the frame is taken now. -/
def State.promote (s : State) (h : Handle) : State :=
  let e := s.leaf h
  if e.inCask || e.moving || !e.inCellar then s else
    match s.demandFrame e.partition with
    | some (f, s) =>
      (s.startMove { handle := h, kind := .promote, section_ := 0, admitted := true }).modLeaf h
        fun e => { e with caskFrame := f }
    | none => s.startEviction e.partition (.leaf h)

/-- A promotion by heat started where a frame is free or a cooler clean leaf can be evicted; it never waits (R284). -/
def State.promoteHeat (s : State) (h : Handle) : State :=
  let e := s.leaf h
  let k := bits (s.sys 6) 14 7
  if e.inCask || e.moving || !e.inCellar || s.heatOf e < k then s else
    let f := match s.quotaFrame e.partition with
      | some f => some (f, s)
      | none => s.evictClean e.partition (some k)
    match f with
    | some (f, s) =>
      (s.startMove { handle := h, kind := .promote, section_ := 0, admitted := true }).modLeaf h
        fun e => { e with caskFrame := f }
    | none => s

/-- A section-store copy started when two distinct cores of a section have pinned the leaf in one grist cycle (R285). -/
def State.storeCopy (s : State) (h : Handle) (sec : Nat) : State :=
  let e := s.leaf h
  let cores := (s.rack.corePins.filter fun p => p.1 == h && p.2.1 == sec).map (·.2.2)
  if 2 ≤ cores.eraseDups.length && !e.inSs && !e.moving && !e.pending && e.format != 4 && e.format != 6 &&
      e.format != 7 && (e.inCask || e.inCellar) then
    s.startMove { handle := h, kind := .store, section_ := sec, admitted := true }
  else s

/-- A pin that is no access: the source of a copy on write (R281). -/
def State.pinQuiet (s : State) (h : Handle) : State := s.modLeaf h fun e => { e with pin := e.pin + 1 }

/-- A command pins a leaf: the pin, one access of heat in the same update (R281), and what the access starts. cores are
the cores of the command that read it. -/
def State.pin (s : State) (h : Handle) (cores : List Nat) : State :=
  let e := s.leaf h
  let s := s.setLeaf h { e with pin := e.pin + 1, heat := min 255 (s.heatOf e + 1), age := s.rack.heatCount % 65536 }
  let s := s.modRack fun r => { r with corePins := r.corePins ++ cores.map fun c => (h, c / 16, c) }
  let s := s.promoteHeat h
  (cores.map (· / 16)).eraseDups.foldl (fun s sec => s.storeCopy h sec) s

/-- Can a leaf take one more pin (R159)? -/
def State.pinRoom (s : State) (h : Handle) : Bool := decide ((s.leaf h).pin < 255)

end Sys2Proof.Machine
end

