-- ==== Sys2Proof/Machine/Sched.lean ====
section
/-! DEFINITION. Requests, replies and steps: request records and their ends (R312, R315, R316), reply datagrams (R367),
the output area (R220), abandonment (R199, R200), tier pins of priority streams (R223), plans' headers (R110). -/

namespace Sys2Proof.Machine

/-! ### Slots and plans -/

/-- An empty slot. -/
def emptySlot : Slot :=
  { plan := none, key := 0, retained := none, refreshLog := 0, refreshSlot := 0, shape := ⟨[], [], []⟩ }

/-- Model slot j. -/
def State.slot (s : State) (j : Nat) : Slot := s.slots.getD j emptySlot

/-- A slot changed. -/
def State.modSlot (s : State) (j : Nat) (f : Slot → Slot) : State := { s with slots := modAt s.slots j f }

/-- The plan of a slot changed. -/
def State.modPlan (s : State) (j : Nat) (f : Plan → Plan) : State :=
  s.modSlot j fun k => { k with plan := k.plan.map f }

/-- DIM_MAX[i] of a plan. -/
def Plan.dimMax (p : Plan) (i : Nat) : Nat := (wd p.header (16 + i)).toNat
/-- WEIGHT_BYTES (R110). -/
def Plan.weightBytes (p : Plan) : Nat := (wd p.header 12).toNat + (bits (wd p.header 13) 15 0 <<< 32)
/-- OUT_LEAVES. -/
def Plan.outLeaves (p : Plan) : Nat := bits (wd p.header 14) 11 0
/-- CHAINS. -/
def Plan.chains (p : Plan) : Nat := bits (wd p.header 15) 10 0
/-- KV_FMT: true for KV8. -/
def Plan.kv8 (p : Plan) : Bool := (wd p.header 15).getLsbD 11
/-- GRIST_PERIOD in microseconds. -/
def Plan.period (p : Plan) : Nat := bits (wd p.header 7) 7 0

/-- The half-sections of a partition: bit 2s lower, 2s + 1 upper half of section s (R25, R26). -/
def State.halves (s : State) (part : Nat) : Nat :=
  if s.singleModel then (if part = 0 then 0xFF else 0) else bits (s.sys (20 + 4 * part)) 7 0

/-- Is the module configured, or starting or restarting its cask to be so? -/
def State.configured (s : State) : Bool :=
  s.power.config == 1 || ((s.power.config == 0 || s.power.config == 3) && s.power.next == 1)

/-- Partitions formed (R25, R26); none while unconfigured (R449). -/
def State.partCount (s : State) : Nat :=
  if !s.configured then 0
  else if s.singleModel then 1 else bits (s.sys 0) 3 0

/-- Does a partition own a half of a section? -/
def State.ownsIn (s : State) (part sec : Nat) : Bool := (s.halves part >>> (2 * sec)) % 4 != 0

/-- The partition that owns a model slot, if any (R25, R445). -/
def State.slotPart (s : State) (j : Nat) : Option Nat :=
  (List.range s.partCount).find? fun n =>
    s.singleModel || (s.sys (22 + 4 * n + j / 32)).getLsbD (j % 32)

/-- The lead section of a partition (R321). -/
def State.lead (s : State) (part : Nat) : Nat := ((List.range 4).find? fun c => s.ownsIn part c).getD 0

/-- The partition of a module-wide core: the owner of its half-section. -/
def State.corePart (s : State) (core : Nat) : Option Nat :=
  (List.range s.partCount).find? fun n => (s.halves n >>> (2 * (core / 16) + core % 16 / 8)) % 2 == 1

/-- Logical cores of a section (R31). -/
def State.coresOf (s : State) (sec : Nat) : Nat := ((s.sects[sec]?).map fun k => k.map.length).getD 0

/-- A partition. -/
def State.part (s : State) (n : Nat) : Partition :=
  s.parts.getD n { bulk := none, prio := none, suspended := false, remaining := [], cycle := none, bulkFirst := false,
                   trains := [], waves := 0, overruns := 0, suspensions := 0, preemptKills := 0 }

/-- A partition changed. -/
def State.modPart (s : State) (n : Nat) (f : Partition → Partition) : State := { s with parts := modAt s.parts n f }

/-! ### The output area (R220) -/

/-- Bytes of a stream's output area: those of a null output leaf read as zeros. -/
def State.outRead (s : State) (i : Nat) (off n : Nat) : List Byte :=
  let root := (s.stream i).spineRoot
  if root = Config.nullHandle then List.replicate n 0 else
    let r := s.content root
    let first := off / 65536
    let last := (off + n + 65535) / 65536
    ((List.range (last - first)).flatMap fun k =>
      let lo := if k = 0 then off % 65536 else 0
      let hi := min 65536 (off + n - 65536 * (first + k))
      let h := r.word (0x880 + 4 * (first + k))
      if h = Config.nullHandle then List.replicate (hi - lo) 0 else (s.content h).read lo (hi - lo))

/-! ### Requests -/

/-- A record never used. -/
def freeReq : Req :=
  { open_ := false, kind := 0, prio := false, anyId := false, slot := 0, stream := 0, parent := 0, epoch := 0, steps := 0,
    inputCount := 0, inputFrames := false, inputDone := 0, inputAddr := 0, replyCtx := 0, result := 0, dims := [0, 0, 0, 0],
    queued := 0, next := 0, admitted := false, started := none }

/-- The key of a record: 4 096 × section + record (R423). -/
def reqKey (sec rec_ : Nat) : Nat := 4096 * sec + rec_

/-- A request record. -/
def State.req (s : State) (k : Nat) : Req := alGet freeReq k s.reqs

/-- A request record set. -/
def State.setReq (s : State) (k : Nat) (r : Req) : State := { s with reqs := alSet freeReq k r s.reqs }

/-- A request record changed. -/
def State.modReq (s : State) (k : Nat) (f : Req → Req) : State := s.setReq k (f (s.req k))

/-- The open requests of a stream, in record order. -/
def State.openReqs (s : State) (i : Nat) : List Nat :=
  (s.reqs.filter fun e => e.2.open_ && e.2.stream == i).map (·.1)

/-- The request a stream is being served for, if it has one open. -/
def State.serving (s : State) (i : Nat) : Option Nat :=
  let k := reqKey (i / 16384) (s.stream i).reqIndex
  if (s.req k).open_ && (s.req k).stream == i && (s.req k).admitted && decide ((s.req k).kind ≤ 3) then some k else none

/-- The 64-byte record as words (R312). -/
def reqWords (r : Req) : List W32 :=
  let b (c : Bool) (i : Nat) : Nat := if c then 1 <<< i else 0
  [w32 (r.kind + b r.prio 4 + b r.anyId 5 + (r.slot <<< 6) + (r.stream <<< 16)), w32 r.parent, r.epoch, w32 r.steps,
   w32 (r.inputCount + b r.inputFrames 24), w32 r.inputDone, r.inputAddr, w32 r.replyCtx,
   w32 (if r.open_ then 0 else r.result.toNat)] ++
  r.dims.take 4 ++ [r.queued, w32 r.next, 0]

/-! ### Replies (R367) -/

/-- A reply context by number. -/
def State.ctx? (s : State) (port id : Nat) : Option Ctxt :=
  s.fabric.ctxs.find? fun c => c.port == port && c.id == id

/-- The words of a reply header. -/
def replyHeader (rkind stream : Nat) (tag epoch : W32) (pos : Nat) (code : Code) (steps out off len : Nat) : List W32 :=
  [w32 (0x4B47 + (1 <<< 16) + (rkind <<< 20)), w32 stream, tag, epoch, w32 pos, w32 code.toNat, w32 steps, w32 out,
   w32 off, w32 len, 0, 0, 0, 0, 0, 0]

/-- The datagrams of one reply: data cut into at most 8 960 bytes each, RKIND 1 on the last of a final reply. fuel bounds
their number. -/
def replyChunks : Nat → Nat → List Byte → List (Nat × List Byte × Bool)
  | 0, _, _ => []
  | n + 1, off, d =>
    if d.length ≤ 8960 then [(off, d, true)]
    else (off, d.take 8960, false) :: replyChunks n (off + 8960) (d.drop 8960)

/-- Datagrams of a reply sent from a context's port; a port that is down drops and counts each (R344, R367). -/
def State.sendReply (s : State) (c : Ctxt) (stream : Nat) (st : Stream) (code : Code) (final : Bool)
    (data : List Byte) : State :=
  (replyChunks 128 0 data).foldl (fun s ch =>
    if (s.fport c.port).state != 2 then s.dropAt c.port else
    let last := final && ch.2.2
    let words := replyHeader (if last then 1 else 0) stream c.reqTag st.epoch st.position (if last then code else cDone)
      st.stepsLeft data.length ch.1 ch.2.1.length
    s.emit (.reply c.port c.ip c.udp c.mac c.vlan words ch.2.1)) s

/-- The context number and port that REPLY_CTX names: 4 096 contexts of each port, port × 4 096 + context mod 65 536
(log 19). -/
def ctxOf (r : Req) : Option (Nat × Nat) :=
  if r.replyCtx = 0xFFFF then none else some (r.replyCtx / 4096, r.replyCtx % 4096)

/-- The runs of waves that a predicate picks made void (R325). -/
def State.voidWhere (s : State) (f : WaveRun → Bool) : State :=
  let g (w : Wave) : Wave := { w with runs := w.runs.map fun r => if f r then { r with void := true } else r }
  { s with parts := s.parts.map fun p => { p with bulk := p.bulk.map g, prio := p.prio.map g } }

/-- A request ends: RESULT written, the runs that serve it void (R325), the record closed, its final reply sent or its GRIST command completed (R313, R316,
R420). data is the output record of a close that ends it. -/
def State.endReq (s : State) (k : Nat) (code : Code) (data : List Byte) : State :=
  let r := s.req k
  if !r.open_ then s else
  let st := s.stream r.stream
  let s := (s.setReq k { r with open_ := false, result := code }).voidWhere
    fun u => u.req == some (k / 4096, k % 4096)
  let s := match (ctxOf r).bind fun c => s.ctx? c.1 c.2 with
    | some c =>
      let s := s.sendReply c r.stream st code true data
      s.modFabric fun f => { f with ctxs := f.ctxs.map fun x =>
        if x.port == c.port && x.id == c.id then { x with done := true } else x }
    | none => s
  let s := match r.started with
    | some (q, tag) => s.finish q tag code (w32 r.stream) st.epoch
    | none => s
  let i := r.stream
  if reqKey (i / 16384) st.reqIndex == k then
    let nk := reqKey (i / 16384) r.next
    if r.next != 0xFFFF && (s.req nk).open_ && (s.req nk).stream == i then
      (s.modStream i fun e => { e with reqIndex := r.next, stepsLeft := (s.req nk).steps }).modReq nk
        fun q => { q with queued := s.now.setWidth 32 }
    else s.modStream i fun e => { e with stepsLeft := 0 }
  else s

/-- Every open request of a stream but k ends with a code. -/
def State.endOthers (s : State) (i : Nat) (k : Option Nat) (code : Code) : State :=
  ((s.openReqs i).filter fun j => some j != k).foldl (fun s j => s.endReq j code []) s

/-- Every open request of a stream ends with a code. -/
def State.endAllReqs (s : State) (i : Nat) (code : Code) : State := s.endOthers i none code

/-! ### State leaves and steps -/

/-- Every advance of a stream's state leaf discarded and its pages released (R200). -/
def State.dropAdvances (s : State) (i : Nat) : State :=
  let h := (s.stream i).stateLeaf
  if h = Config.nullHandle then s else
  let adv := (s.content h).handles 0x8040 0xC040
  if adv.isEmpty then s else
  let s := s.ensureCask h
  let s := s.patchCask h fun b => adv.foldl (fun b e =>
    (b.putWord e.1 Config.nullHandle).putWord (e.1 - 0x8000) 0xFFFFFFFF) b
  let s := s.dirtyLeaf h
  adv.foldl (fun s e => s.dropTo i e.2) s

/-- The runs of a stream's steps made void in every wave (R325). -/
def State.voidRuns (s : State) (i : Nat) : State := s.voidWhere fun r => r.stream == i && r.kind != .train

/-- A step abandoned (R199, R200): the run void, the advances released; POSITION stays, and the item is served again in a
later wave because its request is still open. A refresh starts again from its first position. -/
def State.abandon (s : State) (i : Nat) : State :=
  ((s.voidRuns i).dropAdvances i).modStream i fun e => { e with refreshDone := 0 }

/-- A stream is paused, reset or ended: its training runs are void too (R375). -/
def State.abandonAll (s : State) (i : Nat) : State := (s.voidWhere fun r => r.stream == i).abandon i

/-- Is the stream in a running or suspended wave with a run that is not void? -/
def State.inWave (s : State) (i : Nat) : Bool :=
  s.parts.any fun p => [p.bulk, p.prio].any fun w =>
    match w with
    | some w => w.runs.any fun r => r.stream == i && !r.void && r.closed == 0 && r.kind != .train
    | none => false

/-- Does a grist cycle of a slot run? -/
def State.slotRuns (s : State) (slot : Nat) : Bool :=
  s.parts.any fun p => match p.cycle with
    | some y => ((if y.prio then p.prio else p.bulk).map (·.slot)) == some slot
    | none => false

/-- Has a training wave a run of the stream that is not void? -/
def State.inTraining (s : State) (i : Nat) : Bool :=
  s.parts.any fun p => (p.bulk.map fun w => w.runs.any fun r => r.stream == i && !r.void && r.kind == .train).getD false

/-- Has the stream an issued or placed command that has not committed or been killed? -/
def State.hasCmd (s : State) (i : Nat) : Bool :=
  s.cmds.any fun c => c.runs.any (fun r => r.stream == i) || (c.shape.rows.contains i && c.origin == .service)

/-! ### Tier pins (R223) -/

/-- The leaves of a stream that R223 pins: spine root, state leaf, and every page the state leaf names. -/
def State.tierLeaves (s : State) (i : Nat) : List Handle :=
  let e := s.stream i
  ([e.spineRoot, e.stateLeaf] ++ (if e.stateLeaf = Config.nullHandle then [] else s.named e.stateLeaf)).filter
    (· != Config.nullHandle)

/-- Does a stream qualify for tier pins? -/
def Stream.tiered (e : Stream) : Bool := e.prio && e.live && !e.pause

/-- A leaf that a qualifying stream has come to name: tier-pinned, and promoted where it has no cask copy (R223, R284). -/
def State.tierOn (s : State) (i : Nat) (h : Handle) : State :=
  if (s.stream i).tiered && h != Config.nullHandle then (s.modLeaf h fun e => { e with tierPinned := true }).promote h else s

/-- The tier-pinned flags of a stream's leaves set or, where their count is 1, cleared (R223). -/
def State.retier (s : State) (i : Nat) : State :=
  if (s.stream i).tiered then (s.tierLeaves i).foldl (fun s h => s.tierOn i h) s
  else (s.tierLeaves i).foldl (fun s h => s.modLeaf h fun e =>
    if e.ref ≤ 1 then { e with tierPinned := false } else e) s

/-! ### Pausing and ending a stream (R170, R176, R194) -/

/-- The module pauses a stream: PAUSE and PAUSE_CAUSE, its step abandoned. -/
def State.pauseStream (s : State) (i : Nat) (cause : Code) : State :=
  ((s.modStream i fun e => { e with pause := true, pauseCause := cause, pauseNext := none }).abandonAll i).retier i

/-- The module asks for the pause of a stream whose step has been abandoned: it acts at the end of the partition's running
grist cycle, at once when none runs (R170, R176, R194). -/
def State.modulePause (s : State) (i : Nat) (cause : Code) : State :=
  if (s.part (s.stream i).partition).cycle.isSome then
    (s.modStream i fun e => { e with pauseNext := some cause }).abandon i
  else s.pauseStream i cause

/-- BUDDY of a slot, where its streams are mirrored (R477). -/
def State.buddyOf (s : State) (slot : Nat) : Option (BitVec 20) :=
  let w := wd (s.fabric.origins.getD slot []) 10
  if w.getLsbD 20 then some (w.setWidth 20) else none

/-- A mirror parcel (R480): kind, slot, stream, position, handle, offset, FORMAT, START_ID, data. -/
def mirrorParcel (dest : BitVec 20) (kind slot stream pos h off fmt : Nat) (start : W64) (data : List Byte) : Parcel :=
  mkParcel dest 6 (wordsBytes [w32 (kind + (slot <<< 4) + (stream <<< 16)), w32 pos, w32 h, w32 (off + (fmt <<< 17)),
    start.setWidth 32, (start >>> 32).setWidth 32, 0, 0] ++ data)

/-- The 512 bytes of a leaf's sequence tags. -/
def tagBytes (b : Bytes) : List Byte :=
  (List.range 512).map fun i => BitVec.ofNat 8 ((b.tag (2 * i)).toNat + 16 * (b.tag (2 * i + 1)).toNat)

/-- A leaf sent whole: 16 parcels of data and one of tags. -/
def State.sendMirrorLeaf (s : State) (buddy : BitVec 20) (slot i pos h fmt : Nat) (b : Bytes) : State :=
  let s := (List.range 16).foldl (fun s k =>
    s.emitParcel (mirrorParcel buddy 1 slot i pos h (4096 * k) fmt s.ident.startId (b.read (4096 * k) 4096))) s
  s.emitParcel (mirrorParcel buddy 1 slot i pos h 65536 fmt s.ident.startId (tagBytes b))

/-- The manifest sent: the stream-table entry as it stood at the close. -/
def State.sendManifest (s : State) (buddy : BitVec 20) (i pos : Nat) : State :=
  let e := s.stream i
  s.emitParcel (mirrorParcel buddy 0 e.slot i pos 0 0 0 s.ident.startId (wordsBytes e.mirrorEntry))

/-- What an outstanding mirror still has to send, and its manifest (R491). -/
def State.flushMirror (s : State) (b : BitVec 20) (i : Nat) : State :=
  let e := s.stream i
  match e.mirrorOut with
  | some pos =>
    if e.mirrorLeaves.isEmpty then s else
      (e.mirrorLeaves.foldl (fun (s : State) h => s.sendMirrorLeaf b e.slot i pos h (s.leaf h).format (s.content h)) s
        ).sendManifest b i pos
  | none => s

/-- The end of a mirrored stream told to its buddy (R483), after the manifest of a mirror that is outstanding. -/
def State.sendRelease (s : State) (i : Nat) : State :=
  match s.buddyOf (s.stream i).slot with
  | some b => (s.flushMirror b i).emitParcel (mirrorParcel b 6 (s.stream i).slot i 0 0 0 0 s.ident.startId [])
  | none => s

/-- The release of an ended stream (R171, R192, R327): its spine root and state leaf dropped, its entry freed, EPOCH
kept. -/
def State.freeStream (s : State) (i : Nat) : State :=
  let e := s.stream i
  let s := ((s.modStream i fun e => { e with prio := false }).retier i).dropGrants [i]
  let s := e.mirrorLeaves.foldl (fun s h => s.drop h) s
  let s := (s.drop e.stateLeaf).drop e.spineRoot
  s.setStream i (Stream.free e.epoch)

end Sys2Proof.Machine
end

