-- ==== Sys2Proof/Machine/Operands.lean ====
section
/-! DEFINITION. Operands of plan commands: format words (R117, R118), spaces and addresses (R119, R120), element rows
(R121), scales (R43 to R45, R536), dimension fields (R115), epilogue tables (R60), and the reads a command makes. -/

namespace Sys2Proof.Machine

/-- An operand: its format, scale code, zero point, space, byte address, byte stride per batch element, and the byte
distance of its scale stream. -/
structure Opd where
  fmt : Nat
  scl : Nat
  zp : Int
  space : Nat
  addr : Nat
  stride : Nat
  sclOff : Nat
  deriving DecidableEq, Repr

/-- Bytes per address unit of a space (R119). -/
def spaceUnit (space : Nat) : Nat := if space = 2 then 256 else 64

/-- The zero point of a format word (R117). -/
def zpOf (w : W32) : Int :=
  let z := bits w 15 8
  if bits w 3 0 = 1 then z else if z < 128 then z else (z : Int) - 256

/-- An operand from its format word, address and stride. A STREAM address keeps its object in bits [31:28] apart. -/
def mkOpd (f a stride : W32) : Opd :=
  let sp := bits f 17 16
  let units := if sp = 3 then bits a 27 0 else a.toNat
  { fmt := bits f 3 0, scl := bits f 6 4, zp := zpOf f, space := sp, addr := units * spaceUnit sp,
    stride := stride.toNat * spaceUnit sp, sclOff := 65536 * bits f 31 18 }

/-- Group size of a scale code (R42). -/
def groupSize (scl : Nat) : Nat :=
  match scl with
  | 1 | 2 | 5 => 32
  | 3 | 6 => 64
  | _ => 128

/-- A dimension field resolved through the shape table (R115). -/
def dimOf (sh : Shape) (f : Nat) : Nat := if f < 32768 then f else (wd sh.dims (f % 64)).toNat

/-- The shape-table entry a dimension field names, none for a literal. -/
def dimIdx (f : Nat) : Option Nat := if f < 32768 then none else some (f % 64)

/-- Bytes of a row of k elements of a number of bits: whole 64-byte blocks (R121). -/
def rowBytes (k bits_ : Nat) : Nat := (k * bits_ + 511) / 512 * 64

/-- Element i of a row's bytes. -/
def rawElem (bits_ : Nat) (row : List Byte) (i : Nat) : Nat :=
  match bits_ with
  | 4 => let b := (row.getD (i / 2) 0).toNat
         if i % 2 = 0 then b % 16 else b / 16
  | 8 => (row.getD i 0).toNat
  | 16 => leNat ((row.drop (2 * i)).take 2)
  | _ => leNat ((row.drop (4 * i)).take 4)

/-- The resolved command: its words, shapes and slot. -/
structure Res where
  words : List W32
  shape : Shape
  slot : Nat
  m : Nat
  n : Nat
  k : Nat
  b : Nat
  gridRows : Nat
  gridCols : Nat
  base : Nat
  tileM : Nat
  sto : Bool
  epi : Bool
  plain : Bool
  a : Opd
  w : Opd
  d : Opd
  pack : Nat
  idxOff : Nat
  tableBase : Nat
  scratch : List Nat
  deriving DecidableEq, Repr

/-- A grid field: 0 stands for 64 (R125). -/
def gridField (n : Nat) : Nat := if n = 0 then 64 else n

/-- The grid cores of a descriptor, row by row (R125). -/
def gridCores (ws : List W32) : List Nat :=
  let w := wd ws 3
  (List.range (gridField (bits w 5 0) * gridField (bits w 11 6))).map fun i => bits w 17 12 + i

/-- A descriptor resolved against a shape table and its slot's plan (R113, R115, R116). -/
def resolve (s : State) (slot : Nat) (ws : List W32) (sh : Shape) (plain : Bool) : Res :=
  let p := (s.slot slot).plan
  let w := wd ws 3
  { words := ws, shape := sh, slot := slot,
    m := dimOf sh (bits (wd ws 1) 15 0), n := dimOf sh (bits (wd ws 1) 31 16),
    k := dimOf sh (bits (wd ws 2) 15 0), b := dimOf sh (bits (wd ws 2) 31 16),
    gridRows := gridField (bits w 5 0), gridCols := gridField (bits w 11 6), base := bits w 17 12,
    tileM := bits w 26 18, sto := (wd ws 0).getLsbD 8, epi := (wd ws 0).getLsbD 9, plain := plain,
    a := mkOpd (wd ws 4) (wd ws 5) (wd ws 10), w := mkOpd (wd ws 6) (wd ws 7) (wd ws 11),
    d := mkOpd (wd ws 8) (wd ws 9) (wd ws 12), pack := bits (wd ws 8) 6 4, idxOff := 65536 * bits (wd ws 8) 31 18,
    tableBase := (p.map (·.tableBase)).getD 0, scratch := (p.map (·.scratch)).getD [0, 0, 0, 0] }

/-- Does a byte offset of a core store lie where commands may name it: the activation buffer, the vector scratch or the
stream-state cache (R120)? -/
def corePlaceOk (a : Nat) : Bool := decide (a < 0x100000) || (decide (0x340000 ≤ a) && decide (a < 0x5C0000))

/-- The object of a STREAM-space address (R119). -/
def streamObj (a : W32) : Nat := bits a 31 28

/-- The core store address of a byte offset in a core. -/
def coreAddr (core off : Nat) : Nat := core * Config.coreBytes + off

/-- The section-store address of a byte offset of a plan's scratch reservation (R113, R119): the fixed region and the
scratch share's start are left out, so offset 0 is the start of the share. -/
def sectAddr (sec off : Nat) : Nat := sec * Config.sectionBytes + off

/-- Bytes of the weight image of a slot, across its leaves. fuel bounds the leaves crossed. -/
def State.imageRead (s : State) (slot : Nat) : Nat → Nat → Nat → List Byte
  | 0, _, _ => []
  | fuel + 1, off, n =>
    if n = 0 then [] else
    let here := min n (65536 - off % 65536)
    let h := (((s.slot slot).plan.map fun p => p.leaves.getD (off / 65536) Config.nullHandle)).getD Config.nullHandle
    (s.content h).read (off % 65536) here ++ State.imageRead s slot fuel (off + here) (n - here)

/-- Bytes of a core's store from an offset as a command reads them. Once working data have used the lines of the vector scratch
that hold no current data, those lines read as free values (R134, R184; log 141). -/
def State.coreRead (s : State) (core off n : Nat) : List Byte :=
  let k := (s.cores.getD core CoreSt.reset).scratch
  let a := coreAddr core off
  let bs := s.coreMem.read a n
  if k = 0 || decide (off + n ≤ 0x340000) || decide (0x440000 ≤ off) then bs
  else bs.zipIdx.map fun x =>
    let o := off + x.2
    if 0x340000 ≤ o ∧ o < 0x440000 ∧ !s.coreLines.contains ((a + x.2) / 64) then Config.scratchFill k (a + x.2) else x.1

/-- Bytes an operand read returns: space, the core that reads, the row's stream for STREAM object 2, byte offset. -/
def State.opRead (s : State) (r : Res) (space core stream off n : Nat) : List Byte :=
  match space with
  | 0 => s.coreRead core off n
  | 1 => s.sectMem.read (sectAddr (core / 16) (r.scratch.getD (core / 16) 0 + off)) n
  | 2 => s.imageRead r.slot (n / 65536 + 2) off n
  | _ => s.outRead stream off n

/-- The tag of a 64-byte block an operand read meets. -/
def State.opTag (s : State) (r : Res) (space core off : Nat) : BitVec 4 :=
  match space with
  | 0 => s.coreMem.tag (coreAddr core off / 64)
  | 1 => s.sectMem.tag (sectAddr (core / 16) (r.scratch.getD (core / 16) 0 + off) / 64)
  | 2 =>
    let h := (((s.slot r.slot).plan.map fun p => p.leaves.getD (off / 65536) Config.nullHandle)).getD Config.nullHandle
    (s.content h).tag (off % 65536 / 64)
  | _ => 0

/-- The value of an element under its scale code: an MXINT8 element counts in 2^-6 (R42). -/
def elemVal (fmt scl w : Nat) : FVal :=
  let v := decodeElem fmt w
  if scl = 1 && fmt = 0 then fmul v (.fin false 1 (-6)) else v

/-- A scale byte under its scale code (R42). -/
def scaleVal (scl w : Nat) : FVal := if scl ≤ 4 then decodeE8M0 w else decodeE4M3 w

/-- The raw element words of row i of k elements of an operand, batch element b. -/
def State.rowRaw (s : State) (r : Res) (o : Opd) (core stream b i k : Nat) : List Nat :=
  let rb := rowBytes k (elemBits o.fmt)
  let bs := s.opRead r o.space core stream (o.addr + b * o.stride + i * rb) rb
  (List.range k).map fun j => rawElem (elemBits o.fmt) bs j

/-- The scales of row i: one per group of the reduction, in ascending order; none without block scales (R536). -/
def State.rowScales (s : State) (r : Res) (o : Opd) (core stream b i k : Nat) : List FVal :=
  if o.scl = 0 then [] else
    let g := (k + groupSize o.scl - 1) / groupSize o.scl
    (s.opRead r o.space core stream (o.addr + b * o.stride + o.sclOff + i * g) g).map fun x => scaleVal o.scl x.toNat

/-- Row i as the matrix array takes it: element values and group scales. -/
def State.rowVals (s : State) (r : Res) (o : Opd) (core stream b i k : Nat) : List FVal :=
  (s.rowRaw r o core stream b i k).map (elemVal o.fmt o.scl)

/-- An exact value as the vector unit takes it: rounded once to FP32 where it lies outside the range of normal numbers
(R40). Values within it convert exactly. -/
def toVec (v : FVal) : FVal := rne32 v

/-- Row i as the vector unit takes it (R40): a - za, or element times scale. An element that this conversion takes to infinity
sets no flag by itself: it is an operand, and INF_SEEN speaks of what the command's arithmetic produces from it (R59; DEDUCED,
log 162). -/
def State.rowVec (s : State) (r : Res) (o : Opd) (core stream b i k : Nat) : List FVal :=
  let sc := s.rowScales r o core stream b i k
  let vs := s.rowVals r o core stream b i k
  (List.range k).map fun j =>
    let v := vs.getD j fzero
    if o.scl = 0 then toVec (if o.zp = 0 then v else fsub v (ofInt o.zp))
    else toVec (fmul v (sc.getD (j / groupSize o.scl) .nan))

/-- Byte offset in a core store of the descriptor and table space (R120). -/
def tableSpace : Nat := 0x5C0000

/-- Bytes of the plan's table image on a core, at a byte offset (R113). -/
def State.tableRead (s : State) (r : Res) (core off n : Nat) : List Byte :=
  s.coreMem.read (coreAddr core (tableSpace + r.tableBase + off)) n

/-- Epilogue entry j of the table at unit offset from EPI_ADDR (R60, R127); the default entry without a table. -/
def State.epiAt (s : State) (r : Res) (core units j : Nat) : EpiEntry :=
  if r.epi then
    let ws := bytesWords 4 (s.tableRead r core (64 * (bits (wd r.words 0) 27 16 + units) + 16 * j) 16)
    ⟨ofW32 (wd ws 0), ofW32 (wd ws 1), (wd ws 2).toInt, ((wd ws 3).setWidth 16).toInt⟩
  else EpiEntry.default

/-- Units of 64 bytes of a table of n epilogue entries. -/
def epiUnits (n : Nat) : Nat := (16 * n + 63) / 64

/-- The section of a row's destination and the location of a byte offset there. -/
def Res.loc (r : Res) (space core stream off : Nat) : Loc × Nat :=
  match space with
  | 0 => (.core core, off)
  | 1 => (.sect (core / 16), r.scratch.getD (core / 16) 0 + off)
  | 2 => (.image r.slot, off)
  | _ => (.out stream, off)

/-- The element words from column j0 of a row written at a byte offset: bytes, or nibbles for INT4 (R128). -/
def putElems (l : Loc) (base bits_ j0 : Nat) (ws : List Nat) : List Eff :=
  match bits_ with
  | 4 => (List.range ws.length).map fun i =>
      .nibble l (base + (j0 + i) / 2) ((j0 + i) % 2 == 1) (ws.getD i 0)
  | _ => [.bytes l (base + j0 * (bits_ / 8)) (ws.flatMap (leBytes (bits_ / 8)))]

/-- The run and the stream that cover a row, if any (R178). -/
def Shape.runOf (sh : Shape) (m : Nat) : Option Run :=
  sh.runs.find? fun u => decide (u.rowFirst ≤ m) && decide (m < u.rowFirst + u.rowCount)

/-- The stream of row m (R114). -/
def Shape.streamOf (sh : Shape) (m : Nat) : Nat := sh.rows.getD m 0

/-- A row of results written to the destination (R121, R163): element words for a plain destination, FP32 values for a
history. Rows outside every run write nothing in STREAM space. -/
def Res.putRow (r : Res) (core b m j0 cols : Nat) (ws : List Nat) (ys : List FVal) : List Eff :=
  let bt := elemBits r.d.fmt
  if r.d.space = 3 then
    match r.shape.runOf m with
    | none => []
    | some u =>
      let st := r.shape.streamOf m
      if streamObj (wd r.words 9) = 1 then
        let dw := (wd r.words 9).toNat + b * (wd r.words 12).toNat
        let chain := dw % 1024 + j0 / 128
        (List.range (ys.length / 128)).map fun i =>
          .hist st (u.qPos0 + (m - u.rowFirst)) (chain + i) (dw / 0x8000000 % 2 == 1)
            (((ys.drop (128 * i)).take 128).map toW32)
      else
        putElems (.out st) (r.d.addr + b * r.d.stride + (m - u.rowFirst) * rowBytes cols bt) bt j0 ws
  else
    let l := r.loc r.d.space core 0 (r.d.addr + b * r.d.stride + m * rowBytes cols bt)
    putElems l.1 l.2 bt j0 ws

/-- The opcode of a command. -/
def Cmd.opc (c : Cmd) : Nat := bits (wd c.words 0) 7 0

end Sys2Proof.Machine
end

