-- ==== Sys2Proof/Machine/Effects.lean ====
section
/-! DEFINITION. Shadow effects of commands: taking and naming leaves (R165 to R169, R205, R206, R220), histories (R146 to
R164), and what the commit flip makes current (R137, R166, R277). -/

namespace Sys2Proof.Machine

/-! ### The geometry of histories (R148 to R156) -/

/-- Tokens of a leaf row. -/
def rowTokens (kv8 : Bool) : Nat := if kv8 then 256 else 480

/-- CHAINS of a root. -/
def State.rootChains (s : State) (root : Handle) : Nat := (s.content root).word 0 % 2048

/-- KV_FMT of a root. -/
def State.rootKv8 (s : State) (root : Handle) : Bool := (s.content root).word 0 / 2048 % 2 == 1

/-- The entry of a root at a byte offset. -/
def State.entryAt (s : State) (h : Handle) (off : Nat) : Handle := (s.content h).word off

/-- Byte offset of spine entry k of a root. -/
def spineOff (k : Nat) : Nat := 0x80 + 4 * k
/-- Byte offset of window handle k. -/
def windowOff (k : Nat) : Nat := 0x480 + 4 * k
/-- Byte offset of output handle k. -/
def outOff (k : Nat) : Nat := 0x880 + 4 * k
/-- Byte offset of base handle p of a state leaf (R201). -/
def baseOff (p : Nat) : Nat := 0x4040 + 4 * p
/-- Byte offset of advance handle p. -/
def advOff (p : Nat) : Nat := 0x8040 + 4 * p
/-- Byte offset of ADV_POS[p]. -/
def advPosOff (p : Nat) : Nat := 0x40 + 4 * p

/-! ### What a copy takes (R165) -/

/-- A history as the copies of its leaves see it: POSITION, CHAINS and KV_FMT. -/
structure HistForm where
  pos : Nat
  chains : Nat
  kv8 : Bool

/-- The history of a stream. -/
def State.histForm (s : State) (i : Nat) : HistForm :=
  let e := s.stream i
  ⟨e.position, s.rootChains e.spineRoot, s.rootKv8 e.spineRoot⟩

/-- The blocks of a history leaf of row r that hold positions below POSITION: keys of those slots with their scales, and
values, in KV4G those of sealed groups (R149, R150, R152). -/
def HistForm.blocks (g : HistForm) (r : Nat) : List Nat :=
  let n := min (rowTokens g.kv8) (g.pos - r * rowTokens g.kv8)
  if g.kv8 then (List.range (2 * n)) ++ (List.range (2 * n)).map (512 + ·)
  else
    List.range n ++ (List.range ((n + 15) / 16)).map (480 + ·) ++ (List.range (32 * (n / 32))).map (510 + ·) ++
      (List.range (2 * (n / 32))).map (990 + ·)

/-- The blocks of a window leaf that hold the open group's committed tokens (R152, R165). -/
def HistForm.window (g : HistForm) : List Nat :=
  (List.range 4).flatMap fun c => (List.range (8 * (g.pos % 32))).map (256 * c + ·)

/-- A leaf's content with blocks copied into it. -/
def Bytes.fill (new old : Bytes) (blks : List Nat) : Bytes := blks.foldl (fun d k => old.copyBlock k d k) new

/-- A copy of a leaf of a FORMAT made into a new leaf's content: row is the row of a history leaf. -/
def HistForm.copy (g : HistForm) (fmt row : Nat) (old new : Bytes) : Bytes :=
  match fmt with
  | 1 | 2 => new.fill old (g.blocks row)
  | 3 => new.fill old g.window
  | _ => old

/-! ### Preparing a command's effects -/

/-- What a command has taken while its effects are prepared: the state, the effects to apply at its flip, the leaves taken
by stream and whether from the stream's quire, the leaf made writable at each place (stream, kind of place, index), the
leaves it writes in place, which core writes which leaf, those it copies, those it must wait for, and whether no leaf was
found, a limit was passed, or a value saturated. -/
structure Prep where
  s : State
  effs : List Eff
  taken : List (Nat × Handle × Bool)
  made : List ((Nat × Nat × Nat) × Handle)
  writes : List Handle
  byCore : List (Handle × Nat)
  copies : List Handle
  waits : List Handle
  fail : Bool
  failFor : Nat
  beyond : Bool
  outSat : Bool

/-- Nothing prepared yet. -/
def Prep.start (s : State) : Prep :=
  { s := s, effs := [], taken := [], made := [], writes := [], byCore := [], copies := [], waits := [], fail := false, failFor := 0,
    beyond := false, outSat := false }

/-- More effects. -/
def Prep.add (p : Prep) (es : List Eff) : Prep := { p with effs := p.effs ++ es }

/-- A leaf taken for a stream (R169). -/
def Prep.take (p : Prep) (i fmt : Nat) : Handle × Prep :=
  match p.s.takeLeaf i fmt with
  | some (h, own, s) => (h, { p with s := s, taken := p.taken ++ [(i, h, own)] })
  | none => (Config.nullHandle, { p with fail := true, failFor := i })

/-- The leaf made writable at a place, if the command has made one. -/
def Prep.at_ (p : Prep) (k : Nat × Nat × Nat) : Option Handle := (p.made.find? fun e => e.1 == k).map (·.2)

/-- One reference more on a leaf that a copy names at a place; at 65 535 the leaf is copied instead, the copy named there and
adopted at the flip (R158). A copy of a spine leaf counts the leaves it names in turn. row is the spine index of the
place's first entry, for the row of a history leaf. n bounds the depth: a root names spine leaves, they history leaves. -/
def Prep.share (i : Nat) (g : HistForm) : Nat → Handle → Nat → Nat × Handle → Prep → Prep
  | 0, _, _, _, p => p
  | n + 1, owner, first, e, p =>
    let x := e.2
    if (p.s.leaf x).ref < 65535 then { p with s := p.s.addRef x }
    else
      let fmt := (p.s.leaf x).format
      let r := p.take i fmt
      let h := r.1
      let p := r.2
      if p.fail then p else
        let old := p.s.content x
        let row := (first + e.1 / 4) / max 1 g.chains
        let s := (p.s.patchCask h fun new => g.copy fmt row old new).patchCask owner fun b => b.putWord e.1 h
        let p : Prep := { p with s := s, copies := p.copies ++ [x], effs := p.effs ++ [.adopt h] }
        if fmt = 5 then
          (old.handles 0 65536).foldl (fun p y => Prep.share i g n h (16384 * ((e.1 - 0x80) / 4)) y p) p
        else p

/-- The depth of sharing. -/
abbrev shareDepth : Nat := 2

/-- A leaf made private at a place: in place where its count is 1, else a new leaf, filled from the old one, named at
commit and the old one decremented there (R165). always asks for a new leaf (R206, R220). fill gives its content from the
old one, if there is one, and what it holds as taken. -/
def Prep.place (p : Prep) (k : Nat × Nat × Nat) (cur parent : Handle) (off fmt : Nat) (always : Bool)
    (fill : Option Bytes → Bytes → Bytes) : Handle × Prep :=
  let i := k.1
  match p.at_ k with
  | some h => (h, p)
  | none =>
    if !always && cur != Config.nullHandle && decide ((p.s.leaf cur).ref ≤ 1) then
      (cur, { p with
        made := p.made ++ [(k, cur)], writes := p.writes ++ [cur]
        waits := if (p.s.leaf cur).inCask then p.waits else p.waits ++ [cur] })
    else
      let r := p.take i fmt
      let h := r.1
      let p := r.2
      if p.fail then (h, p) else
        let old := if cur = Config.nullHandle then none else some (p.s.content cur)
        let back := if cur = Config.nullHandle then [] else [Eff.deref i cur]
        (h, { p with
          s := p.s.patchCask h (fill old), made := p.made ++ [(k, h)]
          effs := p.effs ++ [.name parent off h, .adopt h] ++ back
          copies := if cur = Config.nullHandle then p.copies else p.copies ++ [cur] })

/-- The root of a stream, which a naming writes: it must be in the cask. -/
def Prep.root (p : Prep) (i : Nat) : Handle × Prep :=
  let root := (p.s.stream i).spineRoot
  (root, if p.writes.contains root then p else
    { p with writes := p.writes ++ [root]
             waits := if (p.s.leaf root).inCask then p.waits else p.waits ++ [root] })

/-- The spine leaf k of a stream, private; a copy counts every leaf it names (R165). -/
def Prep.spine (p : Prep) (i k : Nat) : Handle × Prep :=
  match p.at_ (i, 0, k) with
  | some h => (h, p)
  | none =>
    let r := p.root i
    let cur := r.2.s.entryAt r.1 (spineOff k)
    let q := r.2.place (i, 0, k) cur r.1 (spineOff k) 5 false fun old new => old.getD new
    if q.2.fail || cur = Config.nullHandle || q.1 = cur then q
    else (q.1, ((q.2.s.content q.1).handles 0 65536).foldl
      (fun p e => Prep.share i (p.s.histForm i) shareDepth q.1 (16384 * k) e p) q.2)

/-- A new KV4G history leaf: its reserved bytes are written as 0 (R149). -/
def zeroTail (kv8 : Bool) (b : Bytes) : Bytes := if kv8 then b else b.write 0xFF00 (List.replicate 256 0)

/-- The history leaf of a row and chain, private: its handle (R165). A row beyond the spine is an overflow (R156). -/
def Prep.history (p : Prep) (i r chain : Nat) : Handle × Prep :=
  let root := (p.s.stream i).spineRoot
  let g := p.s.histForm i
  let e := r * g.chains + chain
  if 4194304 ≤ e then (Config.nullHandle, { p with beyond := true }) else
    match p.at_ (i, 1, e) with
    | some h => (h, p)
    | none =>
      let t := p.spine i (e / 16384)
      if t.2.fail then t else
        let cur := t.2.s.entryAt t.1 (4 * (e % 16384))
        let fmt := if g.kv8 then 2 else 1
        let q := t.2.place (i, 1, e) cur t.1 (4 * (e % 16384)) fmt false fun old new =>
          zeroTail g.kv8 (match old with
            | some o => g.copy fmt r o new
            | none => new)
        (q.1, q.2.add [.rows root (r + 1)])

/-- The window leaf k of a stream, private (R165). -/
def Prep.window (p : Prep) (i k : Nat) : Handle × Prep :=
  let r := p.root i
  let g := p.s.histForm i
  r.2.place (i, 2, k) (r.2.s.entryAt r.1 (windowOff k)) r.1 (windowOff k) 3 false fun old new =>
    match old with
    | some o => g.copy 3 0 o new
    | none => new

/-- The new output leaf k of a stream: from the one it replaces, or zeros with tag 0 (R220, R540). -/
def Prep.output (p : Prep) (i k : Nat) : Handle × Prep :=
  let r := p.root i
  r.2.place (i, 3, k) (r.2.s.entryAt r.1 (outOff k)) r.1 (outOff k) 3 true fun old _ => old.getD (Bytes.empty .plain)

/-- A copy of a state leaf made for a stream: it takes the header and the base handles, and counts the bases (R205). -/
def Prep.copyState (p : Prep) (i : Nat) (cur : Handle) : Handle × Prep :=
  let t := p.take i 6
  let h := t.1
  let p := t.2
  if p.fail then (h, p) else
    let old := p.s.content cur
    let bases := old.handles 0x4040 0x8040
    let new := (bases.foldl (fun b e => b.putWord e.1 e.2) (Bytes.empty .state)).putWord 0 (old.word 0)
    let p : Prep := { p with
      s := p.s.patchCask h fun _ => new, copies := p.copies ++ [cur], effs := p.effs ++ [.adopt h] }
    (h, bases.foldl (fun p e => Prep.share i (p.s.histForm i) shareDepth h 0 e p) p)

/-- The state leaf of a stream, private (R205). -/
def Prep.stateLeaf (p : Prep) (i : Nat) : Handle × Prep :=
  match p.at_ (i, 4, 0) with
  | some h => (h, p)
  | none =>
    let cur := (p.s.stream i).stateLeaf
    if (p.s.leaf cur).ref ≤ 1 then
      (cur, { p with
        made := p.made ++ [((i, 4, 0), cur)], writes := p.writes ++ [cur]
        waits := if (p.s.leaf cur).inCask then p.waits else p.waits ++ [cur] })
    else
      let t := p.copyState i cur
      let p := t.2
      if p.fail then t
      else (t.1, { p with made := p.made ++ [((i, 4, 0), t.1)], effs := p.effs ++ [.stateLeaf i t.1, .deref i cur] })

/-- The new advance of a state page, filled from the page it replaces, or with zeros and tag 0 (R206, R214, R540). pos is the
position it reaches. -/
def Prep.page (p : Prep) (i k pos : Nat) : Handle × Prep :=
  let t := p.stateLeaf i
  let p := t.2
  if p.fail then t else
    match p.at_ (i, 5, k) with
    | some h => (h, p)
    | none =>
      let b := p.s.content t.1
      let adv := b.word (advOff k)
      let cur := if adv = Config.nullHandle then b.word (baseOff k) else adv
      let r := p.take i 7
      let h := r.1
      let p := r.2
      if p.fail then (h, p) else
        let old := if cur = Config.nullHandle then Bytes.empty .plain else p.s.content cur
        (h, { p with
          s := p.s.patchCask h fun _ => old, made := p.made ++ [((i, 5, k), h)]
          copies := if cur = Config.nullHandle then p.copies else p.copies ++ [cur]
          effs := p.effs ++ [.advance i k h pos] })

/-! ### Histories (R149 to R152, R163, R164) -/

/-- The bits of a KV4G leaf that hold a key (R149): data, scales and their tags (R151). -/
def keyEffs (h : Handle) (slot : Nat) (scales : List Nat) (codes : List Nat) : List Eff :=
  let l := Loc.leaf h
  let data := (List.range 64).map fun i => BitVec.ofNat 8 (codes.getD (2 * i) 0 + 16 * codes.getD (2 * i + 1) 0)
  [.bytes l (64 * slot) data, .bytes l (0x7800 + 4 * slot) (scales.map (BitVec.ofNat 8)),
   .tag l slot (if slot % 16 = 0 then BitVec.ofNat 4 (slot / 16) else 0),
   .tag l (480 + slot / 16) (BitVec.ofNat 4 (slot / 16))]

/-- A KV4G value group sealed (R152): one code row per slot, one scale per dimension. -/
def sealEffs (h : Handle) (g : Nat) (scales : List Nat) (rows : List (List Nat)) : List Eff :=
  let l := Loc.leaf h
  ((List.range 32).flatMap fun t =>
    let codes := rows.getD t []
    let slot := 32 * g + t
    [Eff.bytes l (0x7F80 + 64 * slot)
       ((List.range 64).map fun i => BitVec.ofNat 8 (codes.getD (2 * i) 0 + 16 * codes.getD (2 * i + 1) 0)),
     Eff.tag l (510 + slot) (if slot % 16 = 0 then BitVec.ofNat 4 (2 * g) else 0)]) ++
  [.bytes l (0xF780 + 128 * g) (scales.map (BitVec.ofNat 8)), .tag l (990 + 2 * g) (BitVec.ofNat 4 (2 * g)),
   .tag l (990 + 2 * g + 1) (BitVec.ofNat 4 (2 * g + 1))]

/-- A computation's value and whether it set OUT_SAT. -/
def satOf {α : Type} (m : Cm α) : α × Bool :=
  let r := m ⟨[], [], false, false, false, false⟩
  (r.1, r.2.outSat)

/-- A row of a history as FP32 values: the core that writes it, stream, position, chain, value part. -/
structure HistRow where
  core : Nat
  stream : Nat
  pos : Nat
  chain : Nat
  value : Bool
  vals : List W32

/-- The history rows among a core's effects. -/
def histRows (core : Nat) (es : List Eff) : List HistRow :=
  es.filterMap fun e =>
    match e with
    | .hist i pos c v vals => some ⟨core, i, pos, c, v, vals⟩
    | _ => none

/-- Byte offset of a token in a window leaf (R152). -/
def slotOff (chain pos : Nat) : Nat := 16384 * (chain % 4) + 512 * (pos % 32)

/-- One row of a history placed: its leaves made private and its bytes among the effects. A value row of a KV4G root goes to
its window; the row that fills a group seals it from the window and the command's own rows. -/
def Prep.histRow (all : List HistRow) (p : Prep) (r : HistRow) : Prep :=
  let root := (p.s.stream r.stream).spineRoot
  let kv8 := p.s.rootKv8 root
  let tt := rowTokens kv8
  let slot := r.pos % tt
  let t := p.history r.stream (r.pos / tt) r.chain
  let h := t.1
  let p := t.2
  if p.fail || p.beyond then p
  else if kv8 then
    let c := satOf ((r.vals.map ofW32).mapM kv8Elem)
    { p.add [.bytes (.leaf h) ((if r.value then 0x8000 else 0) + 128 * slot) (c.1.map (BitVec.ofNat 8)), .dirty h,
             .wrote r.stream] with outSat := p.outSat || c.2 }
  else if !r.value then
    let c := satOf ((List.range 4).mapM fun g => kv4gGroup (((r.vals.drop (32 * g)).take 32).map ofW32))
    { p.add (keyEffs h slot (c.1.map (·.1)) (c.1.flatMap (·.2)) ++ [.dirty h, .wrote r.stream]) with
      outSat := p.outSat || c.2 }
  else
    let w := p.window r.stream (r.chain / 4)
    let p := w.2
    if p.fail then p else
      let p := p.add [.bytes (.leaf w.1) (slotOff r.chain r.pos) (wordsBytes r.vals), .dirty w.1, .wrote r.stream]
      if r.pos % 32 != 31 then p else
        let win := p.s.content w.1
        let row (k : Nat) : List FVal :=
          let pos := r.pos - 31 + k
          match all.find? fun x => x.stream == r.stream && x.pos == pos && x.chain == r.chain && x.value with
          | some x => x.vals.map ofW32
          | none => (bytesWords 128 (win.read (slotOff r.chain pos) 512)).map ofW32
        let rows := (List.range 32).map row
        let c := satOf ((List.range 128).mapM fun d => kv4gGroup (rows.map fun x => x.getD d fzero))
        let codes := (List.range 32).map fun k => (c.1.map (·.2)).map fun x => x.getD k 0
        { p.add (sealEffs h (slot / 32) (c.1.map (·.1)) codes ++ [.dirty h]) with outSat := p.outSat || c.2 }

/-- A row put before the first of a later position. -/
def insertRow (r : HistRow) : List HistRow → List HistRow
  | [] => [r]
  | x :: rest => if r.pos < x.pos then r :: x :: rest else x :: insertRow r rest

/-- The paths of LEAF append: every chain's leaf of each row touched, and in KV4G the windows (R171). -/
def Prep.append (p : Prep) (i pos count : Nat) : Prep :=
  let root := (p.s.stream i).spineRoot
  let chains := p.s.rootChains root
  let tt := rowTokens (p.s.rootKv8 root)
  let first := pos / tt
  let last := (pos + count - 1) / tt
  if count = 0 || chains = 0 then p else
    let p := (List.range (last + 1 - first)).foldl (fun p k =>
      (List.range chains).foldl (fun p c => if p.fail || p.beyond then p else (p.history i (first + k) c).2) p) p
    if p.s.rootKv8 root then p
    else (List.range ((chains + 3) / 4)).foldl (fun p k => if p.fail then p else (p.window i k).2) p

/-! ### Output areas and state (R206, R220) -/

/-- Bytes of an output area placed in new leaves, cut where a leaf ends. fuel bounds the cuts. -/
def Prep.outBytes (i : Nat) : Nat → Nat → List Byte → Prep → Prep
  | 0, _, _, p => p
  | n + 1, off, bs, p =>
    if bs.isEmpty || p.fail then p
    else if ((p.s.slot (p.s.stream i).slot).plan.map (·.outLeaves)).getD 0 ≤ off / 65536 then { p with beyond := true }
    else
      let t := p.output i (off / 65536)
      let here := 65536 - off % 65536
      Prep.outBytes i n (off + here) (bs.drop here) (t.2.add [.bytes (.leaf t.1) (off % 65536) (bs.take here), .dirty t.1])

/-- State blocks placed in new advance pages, cut where a page ends. -/
def Prep.stateBytes (i pos : Nat) : Nat → Nat → List Byte → Prep → Prep
  | 0, _, _, p => p
  | n + 1, off, bs, p =>
    if bs.isEmpty || p.fail then p
    else if 4096 ≤ off / 65536 then { p with beyond := true }
    else
      let t := p.page i (off / 65536) pos
      let here := 65536 - off % 65536
      Prep.stateBytes i pos n (off + here) (bs.drop here)
        (t.2.add [.bytes (.leaf t.1) (off % 65536) (bs.take here), .dirty t.1])

/-- The root of a forked child (R172): from a quire of its own, else a single leaf (R169). -/
def Prep.childRoot (p : Prep) (i : Nat) : Handle × Prep :=
  match p.s.newQuire (p.s.stream i).partition with
  | some (h :: rest, s) => (h, { p with s := (s.dress h 4).setQuire h rest, taken := p.taken ++ [(i, h, true)] })
  | _ => p.take i 4

/-- The references on a state leaf that forks not yet committed will add at their flips (R172). -/
def Prep.forksDue (p : Prep) (st : Handle) : Nat :=
  ((p.effs ++ p.s.cmds.flatMap (·.effs)).filter fun e => match e with
    | .child _ parent _ _ x => x == Config.nullHandle && (p.s.stream parent).stateLeaf == st
    | _ => false).length

/-- A FORK row prepared (R172): the child's root holds the parent's header, spine entries and window handles, each leaf
named counted once more; where the count of the parent's state leaf cannot rise, a copy of that leaf is made (R158). A row
whose child is live, or whose parent is not, makes no child. -/
def Prep.fork (p : Prep) (i parent : Nat) (prio : Bool) : Prep :=
  if (p.s.stream i).live || !(p.s.stream parent).live then p else
    let t := p.childRoot i
    let root := t.1
    let p := t.2
    if p.fail then p else
      let g := p.s.histForm parent
      let old := p.s.content (p.s.stream parent).spineRoot
      let names := old.handles 0x80 0x880
      let fill (b : Bytes) : Bytes :=
        names.foldl (fun b e => b.putWord e.1 e.2)
          (((b.putWord 0 (old.word 0)).putWord 4 (old.word 4)).putWord 8 (old.word 8))
      let s := (p.s.patchCask root fill).modStream i fun e => { e with spineRoot := root }
      let p := names.foldl (fun p e => Prep.share i g shareDepth root 0 e p) { p with s := s }
      let st := (p.s.stream parent).stateLeaf
      let c := if st = Config.nullHandle || decide ((p.s.leaf st).ref + p.forksDue st < 65535) then (Config.nullHandle, p)
        else p.copyState i st
      let p := c.2
      { p.add [.child i parent root prio c.1] with
        s := p.s.modStream i fun e => { e with spineRoot := Config.nullHandle } }

/-- A trim prepared: the spine leaf of which only a part goes is made private first (R165, R171). -/
def Prep.trim (p : Prep) (i pos : Nat) : Prep :=
  let r := p.root i
  let p := r.2
  let tt := rowTokens (p.s.rootKv8 r.1)
  let e := (pos + tt - 1) / tt * p.s.rootChains r.1
  let p := if e % 16384 = 0 || p.s.entryAt r.1 (spineOff (e / 16384)) = Config.nullHandle then p
    else (p.spine i (e / 16384)).2
  p.add [.trim i pos]

/-- One effect prepared. Bytes of a weight image go to the image's leaves, which must be in the cask (R277). -/
def Prep.eff (p : Prep) (e : Eff) : Prep :=
  if p.fail || p.beyond then p else
  match e with
  | .hist .. => p
  | .bytes (.out i) off bs => Prep.outBytes i (bs.length / 65536 + 2) off bs p
  | .nibble (.out i) off high v =>
    if ((p.s.slot (p.s.stream i).slot).plan.map (·.outLeaves)).getD 0 ≤ off / 65536 then { p with beyond := true } else
      let t := p.output i (off / 65536)
      t.2.add [.nibble (.leaf t.1) (off % 65536) high v, .dirty t.1]
  | .state i u bs pos => Prep.stateBytes i pos (bs.length / 65536 + 2) (64 * u) bs p
  | .path i pos n => p.append i pos n
  | .child i parent _ prio _ => p.fork i parent prio
  | .trim i pos => p.trim i pos
  | .bytes (.image slot) off bs =>
    if ((p.s.slot slot).plan.map (·.weightBytes)).getD 0 < off + bs.length then { p with beyond := true } else
      let ls := ((p.s.slot slot).plan.map (·.leaves)).getD []
      let touched := (List.range ((off % 65536 + bs.length + 65535) / 65536)).map fun k =>
        ls.getD (off / 65536 + k) Config.nullHandle
      { p.add [e] with
        writes := p.writes ++ touched.filter fun h => !p.writes.contains h
        waits := p.waits ++ touched.filter fun h => !(p.s.leaf h).inCask }
  | e => p.add [e]

/-- The leaves that a prepared effect writes. -/
def State.effLeaves (s : State) (e : Eff) : List Handle :=
  match e with
  | .dirty h | .name h _ _ | .rows h _ => [h]
  | .advance i .. => [(s.stream i).stateLeaf]
  | .bytes (.image slot) off bs =>
    let ls := ((s.slot slot).plan.map (·.leaves)).getD []
    (List.range ((off % 65536 + bs.length + 65535) / 65536)).map fun k => ls.getD (off / 65536 + k) Config.nullHandle
  | _ => []

/-- What a core's effect adds is written by that core. -/
def Prep.noteCore (core : Nat) (p q : Prep) : Prep :=
  { q with byCore := q.byCore ++ ((q.effs.drop p.effs.length).flatMap q.s.effLeaves).map fun h => (h, core) }

/-- The cores that write a leaf (R285). -/
def Prep.writers (p : Prep) (h : Handle) : List Nat := ((p.byCore.filter fun e => e.1 == h).map (·.2)).eraseDups

/-- All effects of a command prepared, core by core: history rows in ascending position after the others. -/
def Prep.all (s : State) (es : List (Nat × List Eff)) : Prep :=
  let p := es.foldl (fun p x => x.2.foldl (fun p e => Prep.noteCore x.1 p (p.eff e)) p) (Prep.start s)
  let rows := es.flatMap fun x => histRows x.1 x.2
  (rows.foldr insertRow []).foldl (fun p r =>
    if p.fail || p.beyond then p else Prep.noteCore r.core p (Prep.histRow rows p r)) p

/-! ### The flip -/

/-- Bytes written at an address of a store. -/
def State.putAt (s : State) (l : Loc) (a : Nat) (bs : List Byte) : State :=
  match l with
  | .core c => s.putCore (coreAddr c a) bs
  | .sect k => s.putSect (sectAddr k a) bs
  | .leaf h => s.patchCask h fun b => b.write a bs
  | .image slot =>
    let ls := ((s.slot slot).plan.map (·.leaves)).getD []
    (List.range ((a % 65536 + bs.length + 65535) / 65536)).foldl (fun s k =>
      let h := ls.getD (a / 65536 + k) Config.nullHandle
      let lo := if k = 0 then a % 65536 else 0
      let from_ := if k = 0 then 0 else 65536 * k - a % 65536
      (s.patchCask h fun b => b.write lo ((bs.drop from_).take (65536 - lo))).dirtyLeaf h) s
  | .out _ => s

/-- The byte at an address of a store. -/
def State.byteAt (s : State) (l : Loc) (a : Nat) : Byte :=
  match l with
  | .core c => s.coreMem.get (coreAddr c a)
  | .sect k => s.sectMem.get (sectAddr k a)
  | .leaf h => (s.content h).get a
  | .image slot =>
    let ls := ((s.slot slot).plan.map (·.leaves)).getD []
    (s.content (ls.getD (a / 65536) Config.nullHandle)).get (a % 65536)
  | .out _ => 0

/-- A tag written beside a block of a store. -/
def State.tagAt (s : State) (l : Loc) (blk : Nat) (t : BitVec 4) : State :=
  match l with
  | .core c => { s with coreMem := s.coreMem.setTag (c * (Config.coreBytes / 64) + blk) t }
  | .sect k => { s with sectMem := s.sectMem.setTag (k * (Config.sectionBytes / 64) + blk) t }
  | .leaf h => s.patchCask h fun b => b.setTag blk t
  | _ => s

/-- SPINE_COUNT and WINDOW_COUNT of a root as its entries stand (R154). -/
def State.recount (s : State) (root : Handle) : State :=
  if (s.leaf root).format != 4 then s else
    s.patchCask root fun b =>
      b.putWord 4 ((b.handles 0x80 0x480).length + ((b.handles 0x480 0x880).length <<< 16))

/-- The advance of a page named: ADV_POS and PAGES follow, the advance it replaces is decremented (R206), and the new one is
tier-pinned where the stream qualifies (R223). -/
def State.setAdvance (s : State) (i k : Nat) (new : Handle) (pos : Nat) : State :=
  let h := (s.stream i).stateLeaf
  let old := (s.content h).word (advOff k)
  let s := s.patchCask h fun b =>
    ((b.putWord (advOff k) new).putWord (advPosOff k) pos).putWord 0 (max (b.word 0) (k + 1))
  let s := (s.dirtyLeaf h).modLeaf new fun e => { e with pending := false, ref := e.ref + 1, dirty := true }
  (s.dropTo i old).tierOn i new

/-- History entries beyond a position set to null and their leaves decremented, spine leaves left empty likewise; ROWS
lowered (R171). -/
def State.cutHistory (s : State) (root : Handle) (pos : Nat) : State :=
  let chains := s.rootChains root
  let tt := rowTokens (s.rootKv8 root)
  let keep := (pos + tt - 1) / tt
  let spines := (s.content root).handles 0x80 0x480
  let s := spines.foldl (fun (s : State) e =>
    let k := (e.1 - 0x80) / 4
    let gone := ((s.content e.2).handles 0 65536).filter fun x => decide (keep * chains ≤ 16384 * k + x.1 / 4)
    let left : Nat := ((s.content e.2).handles 0 65536).length - gone.length
    if left = 0 then (s.patchCask root fun b => b.putWord e.1 Config.nullHandle).drop e.2
    else
      let s := (s.patchCask e.2 fun b => gone.foldl (fun b x => b.putWord x.1 Config.nullHandle) b).dirtyLeaf e.2
      gone.foldl (fun s x => s.drop x.2) s) s
  ((s.recount root).patchCask root fun b => b.putWord 8 (min (b.word 8) keep)).dirtyLeaf root

/-- A trim's flip: POSITION lowered, RESET set, KEY_POS the new POSITION, EPOCH raised; LAST_ACK follows (R171, R194, R478).
The item in hand has been compared and goes on; a rerun of one of its commands compares again and finds it stale (R193). -/
def State.trimTo (s : State) (i pos : Nat) : State :=
  let e := s.stream i
  let s := s.setStream i { e with
    position := pos, reset := true, keyPos := pos, epoch := e.epoch + 1, lastAck := min e.lastAck (pos / 64 * 64) }
  if e.spineRoot = Config.nullHandle then s else s.cutHistory e.spineRoot pos

/-- The flip of a FORK row: the child's entry takes the parent's history, position and state leaf, or the copy of it that
the row made (R158, R172, R194). -/
def State.makeChild (s : State) (i parent : Nat) (root copy : Handle) : State :=
  let e := s.stream i
  let p := s.stream parent
  let st := if copy = Config.nullHandle then p.stateLeaf else copy
  let s := if copy = Config.nullHandle then s.addRef st else s
  let s := s.modLeaf root fun l => { l with ref := 1, pending := false, dirty := true }
  let s := s.setStream i { e with
    live := true, reserved := false, forked := true, resident := true, reset := p.reset, stateLeaf := st,
    spineRoot := root, position := p.position, keyPos := p.position, epoch := e.epoch + 1, lastAck := p.lastAck }
  s.retier i

/-- The flip of a LEAF free (R171, R194): an ending stream's entry and leaves are released; of another stream the history
alone. -/
def State.freeHistory (s : State) (i : Nat) : State :=
  let e := s.stream i
  if e.ending then (s.sendRelease i).freeStream i
  else (s.drop e.spineRoot).modStream i fun e => { e with spineRoot := Config.nullHandle }

/-- One effect made current. -/
def State.applyEff (s : State) (e : Eff) : State :=
  match e with
  | .bytes l a bs => s.putAt l a bs
  | .nibble l a high v =>
    let b := (s.byteAt l a).toNat
    s.putAt l a [BitVec.ofNat 8 (if high then b % 16 + 16 * (v % 16) else b / 16 * 16 + v % 16)]
  | .tag l blk t => s.tagAt l blk t
  | .hist .. => s
  | .name h off v => (((s.patchCask h fun b => b.putWord off v).recount h).dirtyLeaf h)
  | .deref i h => s.dropTo i h
  | .rows root n => s.patchCask root fun b => b.putWord 8 (max (b.word 8) n)
  | .path .. => s
  | .adopt h => s.modLeaf h fun e => { e with ref := e.ref + 1, pending := false, dirty := true }
  | .stateLeaf i h => (s.modStream i fun e => { e with stateLeaf := h }).retier i
  | .state .. => s
  | .dirty h => s.dirtyLeaf h
  | .advance i k new pos => s.setAdvance i k new pos
  | .trim i pos => s.trimTo i pos
  | .child i parent root _ copy => s.makeChild i parent root copy
  | .free i => s.freeHistory i
  | .send p => s.emitParcel p
  | .consume rq => s.dropRx rq
  | .wrote i => s.modStream i fun e => { e with exh := 0 }
  | .lost _ => s
  | .block .. => s

/-! ### A kill's undoing (R22, R167) -/

/-- A leaf taken by a command given back: a copy's references are taken back first, and a leaf drawn from the stream's quire
returns to it (R167). -/
def State.giveBack (s : State) (taken : List (Nat × Handle × Bool)) (x : Nat × Handle × Bool) : State :=
  let h := x.2.1
  let fmt := (s.leaf h).format
  let s := if fmt = 4 || fmt = 5 || fmt = 6 then
      ((s.named h).filter fun h => !taken.any fun t => t.2.1 == h).foldl (fun s h => s.drop h) s
    else s
  if fmt = 4 then (((s.quireOf h).map (·.2)).foldl (fun s h => s.freeLeaf h) s).freeLeaf h
  else if x.2.2 then s.returnLeaf x.1 h
  else s.freeLeaf h

/-- Every leaf taken given back. -/
def State.giveBackAll (s : State) (taken : List (Nat × Handle × Bool)) : State :=
  taken.foldl (fun s x => s.giveBack taken x) s

end Sys2Proof.Machine
end

