-- ==== Sys2Proof/Machine/Passes.lean ====
section
/-! DEFINITION. The matrix array between passes: the weight front, the latches and the stationary registers (R76, R90 to
R93), gaps, simmer and the ramp-up (R102 to R108). -/

namespace Sys2Proof.Machine

/-- A core changed. -/
def State.modCore (s : State) (k : Nat) (f : CoreSt → CoreSt) : State := { s with cores := modAt s.cores k f }

/-- A core. -/
def State.core (s : State) (k : Nat) : CoreSt := s.cores.getD k CoreSt.reset

/-! ### The front (R91 to R93) -/

/-- Rows of the array. -/
abbrev arrayRows : Nat := 128

/-- The tile that a block belongs to. -/
def WBlock.whole (w : WBlock) : WBlock := { w with kb := 0 }

/-- The front writes array row i of a block into the latch of that row (R91). -/
def CoreSt.frontRow (p : Pass) (x : CoreSt) (i : Nat) : CoreSt :=
  { x with latches := x.latches.set i (some (p.codes.getD i (List.replicate arrayRows 0))) }

/-- Row i copies its latch into its stationary register (R92). -/
def CoreSt.switchRow (x : CoreSt) (i : Nat) : CoreSt :=
  match x.latches.getD i none with
  | some ws => { x with cells := x.cells.set i ws }
  | none => x

/-- The front of a block: all rows, row 0 first; the latches then hold that block. -/
def CoreSt.front (x : CoreSt) (p : Pass) : CoreSt :=
  { (List.range arrayRows).foldl (CoreSt.frontRow p) x with loaded := some p.blk }

/-- Every row switches to the block of the latches, which then hold no next block. -/
def CoreSt.switch (x : CoreSt) : CoreSt :=
  { (List.range arrayRows).foldl CoreSt.switchRow x with held := x.loaded, loaded := none }

/-- One half of the weight buffer feeds the front with a tile's weights while the other is filled with the tile that comes
after it (R91). -/
def CoreSt.feedFrom (x : CoreSt) (t : WBlock) (next : Option WBlock) : CoreSt :=
  let f := if x.halves.getD x.feed none = some t then x.feed else 1 - x.feed
  { x with feed := f, halves := (x.halves.set f (some t)).set (1 - f) next }

/-- The first pass of a slice's remaining passes begins: its block is in the stationary registers, by a front behind the last
pass or by one that runs now, and the front of the next pass's block follows (R88, R91 to R93). A command's first front runs
in its own first pass's wait: it is not ready behind the previous command (log 142). -/
def CoreSt.begin (x : CoreSt) (ps : List Pass) : CoreSt :=
  match ps with
  | [] => x
  | p :: rest =>
    let x := x.feedFrom p.blk.whole ((rest.map fun q => q.blk.whole).find? (· != p.blk.whole))
    let x := if x.held = some p.blk then x else (if x.loaded = some p.blk then x else x.front p).switch
    match rest with
    | q :: _ => if q.blk = p.blk then x else x.front q
    | [] => x

/-- The array after a kill: the latches are empty, the entries of the killed command's tiles are discarded, and the block in
the stationary registers belongs to no command (R90). -/
def CoreSt.killed (x : CoreSt) (rows : List Nat) : CoreSt :=
  { x with latches := List.replicate arrayRows none, loaded := none, held := none, halves := [none, none]
           acc := x.acc.filter fun e => !rows.contains e.1 }

/-! ### Gaps, simmer, ramp-up (R102 to R108) -/

/-- Does simmer run in a core's section (R107, R108)? -/
def State.simmers (s : State) (core : Nat) : Bool := s.power.state == .run && !s.port.simmerOff.getLsbD (core / 16)

/-- The sixteenths of the row wires that simmer drives: of the drive that holds L, the eighths of the ramp-down, in whole
steps (R104, R105). -/
def CoreSt.driven (x : CoreSt) : Nat := x.drive * x.simmer / 8

/-- Does a ramp-up step at k eighths broadcast in its delivered ARR cycle n (R106)? -/
def broadcasts (k n : Nat) : Bool := decide (n * k / 8 < (n + 1) * k / 8)

/-- A gap begins on a core that ran passes: its running level is measured and simmer drives what holds it (R102, R104); with
simmer disabled the array is idle (R108). -/
def State.passOff (s : State) (core : Nat) : State :=
  if !(s.core core).busy then s else
    let on := s.simmers core
    let l := Config.runLevel s.draws
    let t := s.now
    { s.modCore core fun x => { x with
        busy := false, gapAt := some t, simmer := if on then 8 else 0, level := l, drive := min 16 (Config.holdDrive l)
        lfsr := if on then Config.simmerNext x.lfsr else x.lfsr } with draws := s.draws + 1 }

/-- A pass runs on a core: simmer stops. In the first 2 µs of a gap it runs at full rate; later, and from idle, the ramp-up
starts one eighth above the level held (R106). A pass in the tick in which the last one ended meets no gap, and a ramp-up
under way goes on. -/
def State.passOn (s : State) (core : Nat) : State :=
  let on := s.simmers core
  let t := s.now
  s.modCore core fun x =>
    if x.busy then x
    else if x.gapAt = some t then { x with busy := true, simmer := 0 }
    else { x with busy := true, ramp := if !on || x.simmer == 8 then 8 else x.simmer + 1, simmer := 0 }

/-- Simmer and ramp-up stopped on the cores that a test selects: their gaps are idle, and their passes start at full rate
(R107, R108). -/
def State.quench (s : State) (p : Nat → Bool) : State :=
  { s with cores := s.cores.zipIdx.map fun x => if p x.2 then { x.1 with simmer := 0, ramp := 8 } else x.1 }

/-- What a command that is killed leaves on one of its cores: a gap, and the array as R90 says. -/
def State.stopArray (s : State) (c : Cmd) (core : Nat) : State :=
  (s.passOff core).modCore core fun x =>
    x.killed (((c.sums.find? fun e => e.1 == core).map fun e => e.2.map (·.1)).getD [])

end Sys2Proof.Machine
end

