-- ==== Sys2Proof/Machine/Ident.lean ====
section
/-! DEFINITION. Identity and configuration: the capability table (R31 to R33), the colophon (R465, R466), the validator
(R446), the choice of a slot (R447, R448), windows (R468). -/

namespace Sys2Proof.Machine

/-! ### Plans against the capability table (R33) -/

/-- SCRATCH_Sn of the system section, in MiB. -/
def State.scratchMiB (s : State) (sec : Nat) : Nat := bits (s.sys 4) (8 * sec + 7) (8 * sec)

/-- The sections a plan names. -/
def Plan.sections (p : Plan) : List Nat := (List.range 4).filter fun c => (wd p.header 2).getLsbD c

/-- The sections where a plan needs more cores or scratch than the section has, as a bit set (R33). -/
def State.unfitOf (s : State) (p : Plan) : BitVec 4 :=
  BitVec.ofNat 4 ((p.sections.filter fun c =>
    decide (s.coresOf c < bits (wd p.header 3) (8 * c + 7) (8 * c)) ||
    decide (s.scratchMiB c < bits (wd p.header 4) (8 * c + 7) (8 * c))).foldl (fun n c => n + (1 <<< c)) 0)

/-! ### The capability table -/

/-- Is the port's number set in a 16-bit word? -/
def portBits (p : Nat → Bool) : Nat := ((List.range 16).filter p).foldl (fun n i => n + (1 <<< i)) 0

/-- Experts for which this module is home (R31). -/
def State.expertsHomed (s : State) : Nat :=
  (s.fabric.directory.filter fun e => (wd e.2 0).getLsbD 20 && bits (wd e.2 0) 19 0 == s.addr.toNat).length

/-- Words 0 to 8 of the capability table as they are now (R31). -/
def State.capNow (s : State) : List W32 :=
  let byte4 (f : Nat → Nat) : W32 := w32 ((List.range 4).foldl (fun n i => n + (f i <<< (8 * i))) 0)
  [w32 (s.addr.toNat + (1 <<< 28)),
   byte4 s.coresOf,
   w32 (portBits (fun p => (s.mem.getD p MemPort.reset).state == 2) +
     (((List.range 4).filter fun c => ((s.sects[c]?).bind (·.spare)).isSome).foldl (fun n c => n + (1 <<< (16 + c))) 0)),
   w32 (portBits (fun p => (s.fport p).mode == 1 && (s.fport p).state == 2) +
     (portBits (fun p => (s.fport p).mode == 2) <<< 16)),
   w32 s.rack.poolSize, w32 s.cellarTotal, w32 s.expertsHomed, byte4 s.scratchMiB,
   w32 (s.partCount + (if s.singleModel then 0 else 16))]

/-- CAP_SERIAL. -/
def State.capSerial (s : State) : W32 := wd s.cap 9

/-- A table of nine words with a serial number. -/
def capWords (ws : List W32) (serial : W32) : List W32 := ws.take 9 ++ [serial] ++ List.replicate 6 0

/-! ### The colophon -/

/-- FIT (R465): bit n set when slot n holds a plan that fits every section it names. -/
def State.fit (s : State) : Nat :=
  ((List.range 64).filter fun j =>
    match (s.slot j).plan with
    | some p => p.unfit == 0
    | none => false).foldl (fun n j => n + (1 <<< j)) 0

/-- Entry n of PLAN_DIGEST's 64. -/
def planEntry (p : Option Plan) : List Byte :=
  match p with
  | some p => leBytes 32 (shake256 (wordsBytes p.header ++ p.descs.flatMap wordsBytes ++ p.table)).toNat
  | none => List.replicate 32 0

/-- The seven inputs of the colophon, joined (R465). -/
def State.colophonInput (s : State) : List Byte :=
  let dig (bs : List Byte) : List Byte := leBytes 32 (shake256 bs).toNat
  let sysw := (s.ident.imprint.map (·.system)).getD []
  let fw := (s.ident.firmware.map (·.body)).getD []
  ascii "KCM-COLOPHON" ++ dig (wordsBytes sysw) ++ dig fw ++
  dig ((List.range 64).flatMap fun j => planEntry (s.slot j).plan) ++ leBytes 4 s.fabric.dirVersion.toNat ++
  dig (wordsBytes (wd sysw 0 :: (sysw.drop 20).take 32)) ++ leBytes 8 s.fit

/-- Does the module publish a colophon: it is configured (R466)? -/
def State.publishes (s : State) : Bool := s.configured && s.power.config != 0

/-- The colophon that now holds; none is published in CONFIG 2 or 4. -/
def State.colophonNow (s : State) : Digest := if s.publishes then shake256 s.colophonInput else 0

/-- A new value of the colophon: recorded where it differs (KIND 0x09), the companion taking the previous value where the
new one equals it (R466, R468). -/
def State.setColophon (s : State) (c : Digest) : State :=
  let old := s.ident.colophon
  if c = old then s else
    let s := s.record 0x09 0 (c.setWidth 32) (old.setWidth 32)
    { s with ident := { s.ident with
      colophon := c
      window := s.ident.window.map fun w => if w = c then old else w } }

/-- The colophon recomputed (R466). -/
def State.recolophon (s : State) : State := s.setColophon s.colophonNow

/-- A hello's or parcel's colophon is accepted: it is the module's own or the companion (R468). -/
def State.accepts (s : State) (c : Digest) : Bool :=
  c == s.ident.colophon || s.ident.window == some c

/-- A short colophon is accepted. -/
def State.acceptsShort (s : State) (c : W32) : Bool :=
  c == s.shortColophon ||
  (match s.ident.window with
   | some w => c == w.setWidth 32
   | none => false)

/-! ### Recomputing the table (R32, R33) -/

/-- A plan's fit renewed; the first section that fails raises class 6 and ends the slot's requests (R33). -/
def State.refit (s : State) (j : Nat) : State :=
  match (s.slot j).plan with
  | none => s
  | some p =>
    let u := s.unfitOf p
    let worse := u &&& ~~~p.unfit
    let s := s.modPlan j fun p => { p with unfit := u }
    if worse = 0 then s else
      let s := s.attention 6 cOverflow (w32 j) (w32 u.toNat)
      ((s.reqs.filter fun e => e.2.open_ && e.2.slot == j).map (·.1)).foldl (fun s k => s.endReq k cOverflow []) s

/-- The capability table recomputed. A change of words 1 to 8 raises CAP_SERIAL; quiet leaves out the attention, and so
does a change of EXPERTS_HOMED alone (R32). -/
def State.recapAs (s : State) (quiet : Bool) (code : Code) : State :=
  let new := s.capNow
  let old := s.cap.take 9
  if new.drop 1 = old.drop 1 then { s with cap := capWords new s.capSerial } else
    let loud := !quiet && new.set 6 0 != old.set 6 0
    let s := { s with cap := capWords new (s.capSerial + 1) }
    let s := if loud then s.attention 2 code (wd s.cap 9) 0 else s
    ((List.range 64).foldl State.refit s).recolophon

/-- The table recomputed with attention. -/
def State.recap (s : State) (code : Code) : State := s.recapAs false code

/-! ### The validator (R446) -/

/-- The bits of system word i that are fields, given MODE and PARTITIONS (R445, R502). -/
def sysFields (partitioned : Bool) (parts i : Nat) : Nat :=
  if i = 0 then 0xFFFF003F
  else if i = 1 then 0x1FFFF
  else if i = 7 then 0x3FFF
  else if i = 8 then 0xFFF
  else if i = 9 then 0x1FFFFFFF
  else if i = 10 then 7
  else if i ≤ 6 then 0xFFFFFFFF
  else if i ≤ 17 then 0x7FF
  else if i < 20 then 0
  else if i < 52 then
    if partitioned && decide ((i - 20) / 4 < parts) then
      (match (i - 20) % 4 with
       | 0 => 0x007F1FFF
       | 1 => 0
       | _ => 0xFFFFFFFF)
    else 0
  else if i = 52 then 0xFFFFFFFF
  else if i = 53 then 0x0007FFFF
  else if i = 54 then 0x0003FFFF
  else if i = 64 then 0xF
  else if i < 64 then 0
  else if i ≤ 128 then 0xFFFFFFFF
  else 0

/-- The bits of module-section word i that are fields. -/
def modFields (i : Nat) : Nat :=
  if i = 0 then 0x3FFFFF
  else if i < 16 || 208 ≤ i then 0
  else match (i - 16) % 12 with
    | 0 => 0x00FFFFFF
    | 1 | 3 | 4 | 5 | 6 | 7 => 0xFFFFFFFF
    | 2 => 0xFFFF
    | _ => 0

/-- Only fields are set in a list of words. -/
def onlyFields (f : Nat → Nat) (ws : List W32) : Bool :=
  (List.range ws.length).all fun i => (wd ws i).toNat &&& (0xFFFFFFFF - f i) == 0

/-- n lies within [lo, hi]. -/
def within (lo hi n : Nat) : Bool := decide (lo ≤ n) && decide (n ≤ hi)

/-- Bytes of an imprint (R445). -/
def imprintBytes (rotation : Bool) : Nat := 2112 + 68 + 29792 + (if rotation then 29792 else 0)

/-- Every field of the system section lies in its range (R445, R502). CAP_SYNC counts only where CAP_SYNC_PIN is 1. -/
def sysRanges (y : List W32) (capPin : Bool) : Bool :=
  let w := wd y
  let b4 (i : Nat) (lo hi : Nat) : Bool := (List.range 4).all fun k =>
    let n := bits (w i) (8 * k + 7) (8 * k)
    within lo hi n && n % 2 == 0
  within 1 8 (bits (w 0) 3 0) && within 1 86400 (bits (w 1) 16 0) && b4 4 4 28 && b4 5 2 26 &&
  within 1 64 (bits (w 6) 6 0) && within 1 255 (bits (w 6) 14 7) && within 1 160 (bits (w 7) 7 0) &&
  within 1 24 (bits (w 7) 12 8) && within 1 4000 (bits (w 8) 11 0) && within 0 454557696 (bits (w 9) 28 0) && within 1 7 (bits (w 10) 2 0) &&
  ((List.range (bits (w 10) 2 0)).all fun k => within 1 6 (bits (w (11 + k)) 2 0) && within 2 64 (bits (w (11 + k)) 9 3)) &&
  (bits (w 52) 15 0 == 0 || within 100 350 (bits (w 52) 15 0)) &&
  (!capPin || within 35 350 (bits (w 52) 31 16)) && within 0 60000 (bits (w 53) 15 0) &&
  (bits (w 54) 7 0 == 0 || within 85 104 (bits (w 54) 7 0)) &&
  (if (w 7).getLsbD 13 then within 1 1000 (bits (w 54) 17 8) else bits (w 54) 17 8 == 0) &&
  (!(w 0).getLsbD 4 || (List.range (bits (w 0) 3 0)).all fun n => decide (bits (w (20 + 4 * n)) 12 8 ≤ 27))

/-- Two of a list of bit sets share a bit. -/
def overlaps : List Nat → Bool
  | [] => false
  | a :: t => t.any (fun b => a &&& b != 0) || overlaps t

/-- Two equal entries. -/
def hasDup {α : Type} [BEq α] : List α → Bool
  | [] => false
  | a :: t => t.contains a || hasDup t

/-- The first REASON of the validator that an imprint meets, 0 when it passes; id is this module's identity digest and
fwVersion the version of the slot's firmware. -/
def validate (id : Digest) (fwVersion : W32) (im : Imprint) : Nat :=
  let h := wd im.header
  let w := wd im.system
  let m := wd im.modsec
  let parts := bits (w 0) 3 0
  let ptn := (w 0).getLsbD 4
  let pw (p : Nat) : W32 := m (16 + 12 * p)
  let ports := List.range 16
  let levels := bits (w 10) 2 0
  let wk (k : Nat) : Nat := bits (w (11 + k)) 2 0
  let nk (k : Nat) : Nat := bits (w (11 + k)) 9 3
  let addr := bits (m 0) 19 0
  let fld (k : Nat) : Nat := (addr >>> ((List.range k).map wk).foldl (· + ·) 0) % (1 <<< wk k)
  let rows := List.range parts
  let keys := (List.range (bits (w 64) 3 0)).map fun n => (List.range 8).map fun i => w (65 + 8 * n + i)
  if h 0 != 0x4B494D50 || h 1 != 1 || h 4 != w32 (imprintBytes im.rotation) || h 5 != 2112 || h 6 != 0 || h 7 != 0 ||
      !onlyFields (sysFields ptn parts) im.system || !onlyFields modFields im.modsec ||
      !sysRanges im.system ((m 0).getLsbD 21) ||
      ports.any (fun p => bits (pw p) 1 0 == 3 || decide (4094 < bits (pw p) 23 12)) then 1
  else if (im.header.drop 8).take 8 != bytesWords 8 (leBytes 32 id.toNat) then 2
  else if fwVersion.toNat < (h 3).toNat then 3
  else if (!ptn && parts != 1) ||
      (ptn && rows.any fun n => bits (w (20 + 4 * n)) 7 0 == 0 || bits (w (20 + 4 * n)) 12 8 == 0) then 4
  else if ptn && (overlaps (rows.map fun n => bits (w (20 + 4 * n)) 7 0) ||
      overlaps (rows.map fun n => (w (22 + 4 * n)).toNat + ((w (23 + 4 * n)).toNat <<< 32))) then 5
  else if ptn && (decide (27 < (rows.map fun n => bits (w (20 + 4 * n)) 12 8).foldl (· + ·) 0) ||
      decide (Config.cellarFramesAll < 4194304 * (rows.map fun n => bits (w (20 + 4 * n)) 22 16).foldl (· + ·) 0)) then 6
  else if (List.range 4).any fun k =>
      decide (30 < bits (w 4) (8 * k + 7) (8 * k) + bits (w 5) (8 * k + 7) (8 * k)) then 7
  else if bits (w 6) 6 0 != 4 && (w 7).getLsbD 13 then 8
  else if (m 0).getLsbD 20 && (m 0).getLsbD 21 then 9
  else if ports.any fun p => bits (pw p) 1 0 == 1 && ((pw p).getLsbD 11 || bits (pw p) 10 9 != 0) then 10
  else if ports.any fun p =>
      (bits (pw p) 1 0 == 2 && (!(pw p).getLsbD 11 || bits (pw p) 10 9 == 0 ||
        (m (19 + 12 * p) == 0 && (List.range 4).all fun i => m (20 + 12 * p + i) == 0))) ||
      (bits (pw p) 1 0 == 1 && bits (pw p) 8 6 == 0) then 11
  else if decide (20 < ((List.range levels).map wk).foldl (· + ·) 0) ||
      (List.range levels).any (fun k => decide (1 <<< wk k < nk k) || decide (nk k ≤ fld k)) ||
      ports.any (fun p => bits (pw p) 1 0 == 1 &&
        (decide (levels ≤ bits (pw p) 4 2) || (List.range (bits (pw p) 4 2)).any fun j => fld j != 0)) then 12
  else if decide (8 < bits (w 64) 3 0) || hasDup keys then 13
  else 0

/-! ### Choosing a slot (R447, R448) -/

/-- A key's hash is KEY_HASH or a nonzero PREV_HASH. -/
def Nor.trusts (n : Nor) (h : Digest) : Bool := (n.keyHash != 0 && h == n.keyHash) || (n.prevHash != 0 && h == n.prevHash)

/-- Step 2 of R447: the signature verifies, the signer's hash is under the anchor, and with ROTATION 1 so is the key of ROT_SIG,
which verifies. While an imprint with ROTATION 1 is being installed the signer is the key it brings, and the certificate alone
stands under the anchor (R457, log 20). -/
def Nor.signed (n : Nor) (installing : Bool) (im : Imprint) : Bool :=
  im.sigOk && (!im.rotation || (im.rotOk && n.trusts im.rotHash)) &&
  (n.trusts im.signerHash || (installing && im.rotation))

/-- IMPRINT_VERSION. -/
def imprintVersion (im : Imprint) : W32 := wd im.header 2

/-- R447 on a slot's contents: DONE when acceptable, else the first failure's code and REASON. -/
def judge (n : Nor) (installing : Bool) (fw : Option Firmware) (im : Option Imprint) : Code × Nat :=
  match fw, im with
  | some f, some i =>
    if !f.sigOk then (cSig, 0)
    else if !n.signed installing i then (cSig, 0)
    else if (imprintVersion i).toNat < n.versionCounter.toNat then (cRollback, 0)
    else
      let r := validate Config.identityDigest f.version i
      if r = 0 then (cDone, 0) else (cConflict, r)
  | _, _ => (cSig, 0)

/-- Slot k's firmware. -/
def Nor.fwOf (n : Nor) (k : Nat) : Option Firmware := (n.fw[k]?).join
/-- Slot k's imprint. -/
def Nor.imOf (n : Nor) (k : Nat) : Option Imprint := (n.im[k]?).join

/-- The class an event of a code raises (R428). -/
def classOf (c : Code) : Nat :=
  if c = cShape ∨ c = cOverflow ∨ c = cSkew ∨ c = cResidue ∨ c = cDmaBus ∨ c = cConflict then 6
  else if c = cPoisoned ∨ c = cPaused then 3
  else if c = cWeightLost ∨ c = cCask ∨ c = cPartner then 2
  else if c = cColophon ∨ c = cSig ∨ c = cRollback then 4
  else if c = cBackup then 1
  else if c = cThermal ∨ c = cPowerCap then 5
  else 0

/-- The two slots in the order the start tries them. -/
def Nor.order (n : Nor) : List Nat := if n.preferred = 1 then [1, 0] else [0, 1]

/-- A rejected slot: its record and its attention (R448). -/
def State.reject (s : State) (k : Nat) (v : Code × Nat) : State :=
  (s.record 0x02 v.1 (w32 k) (w32 v.2)).attention (classOf v.1) v.1 (w32 k) (w32 v.2)

/-- The slot the module runs: the first acceptable one; else none, with the firmware of the first slot whose firmware
verified (CONFIG 2), or none (CONFIG 4) (R448). -/
def State.selectSlot (s : State) : State :=
  let v (k : Nat) : Code × Nat := judge s.nor false (s.nor.fwOf k) (s.nor.imOf k)
  let order := s.nor.order
  let bad := order.takeWhile fun k => (v k).1 != cDone
  let s := bad.foldl (fun s k => s.reject k (judge s.nor false (s.nor.fwOf k) (s.nor.imOf k))) s
  match order.find? fun k => (v k).1 == cDone with
  | some k =>
    { s with ident := { s.ident with runSlot := k, imprint := s.nor.imOf k, firmware := s.nor.fwOf k }
             power := { s.power with next := 1 } }
  | none =>
    match order.find? fun k => ((s.nor.fwOf k).map (·.sigOk)).getD false with
    | some k =>
      { s with ident := { s.ident with runSlot := k, imprint := none, firmware := s.nor.fwOf k }
               power := { s.power with next := 2 } }
    | none =>
      { s with ident := { s.ident with runSlot := s.nor.preferred, imprint := none, firmware := none }
               power := { s.power with next := 4 } }

end Sys2Proof.Machine
end

