-- ==== Sys2Proof/Machine/Control.lean ====
section
/-! DEFINITION. The control port: forms and roles of commands (R418, R419, R456), the submission fetch (R412 to R417), the
queue registers and doorbells, attention (R426), register reads and writes (R409 to R411), and sessions (R454, R455). -/

namespace Sys2Proof.Machine

/-! ### Forms of the commands (R419, R456, R488, R500) -/

/-- The opcodes that are not reserved. -/
def opcodes : List Nat :=
  [0x00, 0x01, 0x02, 0x10, 0x11, 0x12, 0x13, 0x14, 0x15, 0x20, 0x21, 0x22, 0x30, 0x31, 0x40, 0x41, 0x42, 0x43, 0x50, 0x51,
   0x52, 0x53, 0x54, 0x55, 0x56, 0x58, 0x60, 0x61, 0x62, 0x63, 0x64]

/-- May a role (0 none, 1 operator, 2 installer, 3 maker) issue an opcode (R418, R456)? DMA into CASK space is judged
with the descriptor. -/
def roleMay (role opc : Nat) : Bool :=
  if opc ≤ 0x01 then true
  else match role with
    | 1 => opc == 0x02 || (0x10 ≤ opc && opc ≤ 0x13) || (0x20 ≤ opc && opc ≤ 0x31) || (0x41 ≤ opc && opc ≤ 0x43) || opc == 0x58
    | 2 => opc < 0x60
    | 3 => opc == 0x02 || opc == 0x30 || opc == 0x31 || opc == 0x51 || opc == 0x54 || opc == 0x58 || 0x60 ≤ opc
    | _ => false

/-- The bits of the arguments that are fields, ARG1 first (R419). -/
def argFields (opc arg1 : Nat) : List Nat :=
  let all := 0xFFFFFFFF
  match opc with
  | 0x01 => [0x7D]
  | 0x10 => if arg1.testBit 8 then [0x13F, all, all] else [0x13F]
  | 0x11 => [0x3F]
  | 0x13 => [0x1FFF013F, all, all, all, all]
  | 0x14 => [0x3F, 0xFFFFFF]
  | 0x15 => [0x1F3F3F]
  | 0x20 | 0x21 => [0xF, all, all]
  | 0x22 => [0x3FF]
  | 0x30 => [0xF, all, all, all, all, 0x1FF, all, all, all, all]
  | 0x31 => [0x31F]
  | 0x40 => [0x10F]
  | 0x41 => [7, all, all]
  | 0x42 => [0xFFFF]
  | 0x54 => [all, all, all]
  | 0x55 => [0x1FFFF]
  | 0x58 => [all, all]
  | 0x60 => [0x7F]
  | 0x61 => [3]
  | 0x62 => [0x7F]
  | 0x63 => [0xF]
  | _ => []

/-- Entries and stride in bytes of a table of the control port (R423). -/
def tableShape (t : Nat) : Nat × Nat :=
  match t with
  | 0 => (65536, 64)
  | 1 => (0x20000000, 16)
  | 2 => (0x1000000, 64)
  | 3 => (64, 64)
  | 4 => (64, 64)
  | 5 => (1024, 64)
  | 6 => (256, 32)
  | 7 => (16384, 64)
  | _ => (0, 64)

/-- The arguments lie in their ranges (R419, R423, R437, R488, R500, R456). winMax is WINDOW_MAX. -/
def argsOk (opc : Nat) (args : List W32) (winMax : Nat) : Bool :=
  let a (n : Nat) : W32 := wd args (n - 1)
  let tableOk (load : Bool) : Bool :=
    let t := bits (a 1) 3 0
    let n := (a 3).toNat
    decide (t < 8) && (!load || (decide (2 ≤ t) && decide (t ≤ 6))) && within 1 16384 n &&
    decide ((a 2).toNat + n ≤ (tableShape t).1)
  match opc with
  | 0x01 => bits (a 1) 3 2 != 0
  | 0x13 => within 1 4096 (bits (a 1) 28 16)
  | 0x15 => bits (a 1) 20 16 == 0 || within 8 24 (bits (a 1) 20 16)
  | 0x20 => tableOk false
  | 0x21 => tableOk true
  | 0x30 => bits (a 6) 2 0 ≤ 4 && bits (a 6) 5 3 ≤ 4 && bits (a 6) 8 7 != 3
  | 0x31 => (bits (a 1) 9 8 == 1 || bits (a 1) 9 8 == 2) && (!(a 1).getLsbD 4 || bits (a 1) 1 0 == 0)
  | 0x41 => decide (bits (a 1) 2 0 ≤ 4)
  | 0x42 => bits (a 1) 15 0 == 0 || within 35 350 (bits (a 1) 15 0)
  | 0x54 => within 1 16384 (a 3).toNat
  | 0x55 => within 1 winMax (bits (a 1) 16 0)
  | 0x60 => decide (bits (a 1) 6 2 ≤ 16)
  | 0x62 => decide (bits (a 1) 6 4 ≤ 4)
  | _ => true

/-- The least buffer an opcode needs, in bytes, as far as its arguments tell (R419, R454, R459). -/
def bufLeast (opc : Nat) (args : List W32) : Nat :=
  let a (n : Nat) : W32 := wd args (n - 1)
  match opc with
  | 0x01 => if (a 1).getLsbD 0 then
      (match bits (a 1) 3 2 with
       | 1 => 17088
       | 2 => 29824
       | _ => 59648) else 0
  | 0x10 => 320
  | 0x12 => 64
  | 0x13 => 16 * bits (a 1) 28 16
  | 0x20 | 0x21 => (a 3).toNat * (tableShape (bits (a 1) 3 0)).2
  | 0x43 => 64
  | 0x50 => imprintBytes false
  | 0x51 => 29856
  | 0x54 => 64 * (a 3).toNat
  | 0x55 => 64
  | 0x58 => 17344
  | 0x64 => 128
  | _ => 0

/-- The form of a submission entry: OPERAND_ALIGN or DMA_ALIGN where it breaks R419, DONE where it holds. -/
def entryForm (ws : List W32) (winMax : Nat) : Code :=
  let opc := bits (wd ws 0) 7 0
  let args := (ws.drop 1).take 11
  let flds := argFields opc (wd args 0).toNat
  let buf := (wd ws 14).toNat
  if bits (wd ws 0) 15 9 != 0 || wd ws 15 != 0 || !onlyFields (fun i => flds.getD i 0) args then cAlign
  else if bits (wd ws 12) 5 0 != 0 || buf % 64 != 0 then cDmaAlign
  else if !argsOk opc args winMax || decide (buf < bufLeast opc args) then cAlign
  else cDone

/-- Is the module in maker service for want of memory ports alone (R271)? -/
def State.caskShort (s : State) : Bool :=
  s.ident.identityOk && s.ident.firmware.isSome && decide ((s.mem.filter fun k => k.state == 2).length < 8)

/-- What CONFIG lets a pair issue: anything when configured; in CONFIG 2 only NOP, the session commands and commands of
an installer session (R418); in CONFIG 4 only NOP and a maker's OPEN_SESSION (R442), and after a debug stop an
installer's session and RESTART (R526, log 21). -/
def State.configMay (s : State) (role opc : Nat) (args : List W32) : Bool :=
  match s.power.config with
  | 2 => decide (opc ≤ 2) || role == 2
  | 4 =>
    let r := bits (wd args 0) 3 2
    (s.caskShort && (decide (opc ≤ 2) || decide (2 ≤ role))) || opc == 0 || (opc == 1 && (r == 3 || (r == 2 && s.ident.debugStop))) || (s.ident.debugStop && role == 2 && opc == 0x53)
  | _ => true

/-! ### The submission fetch -/

/-- Can a pair's next submission be fetched: it runs, has an entry, and its completion ring is not full (R414, R417)? -/
def State.fetchable (s : State) (q : Nat) : Bool :=
  let k := s.queue q
  k.qstate == 1 && k.sqHead != k.sqTail && k.held.isEmpty && !k.cqFull

/-- Does the control port fetch at all: it is started, in Run or Ready, with no entry to a lower state in progress, may
reach the host, and fewer than 1 024 commands are outstanding (R408, R417, R452, R495)? -/
def State.fetches (s : State) : Bool :=
  s.power.config != 0 && (s.power.state == .run || s.power.state == .ready) && s.power.entry.isNone &&
  s.port.busMaster && s.port.linkUp && decide (s.port.started.length < 1024)

/-- The pair served next, round-robin (R417). -/
def State.nextPair (s : State) : Option Nat :=
  ((List.range 16).map fun i => (s.port.rrNext + i) % 16).find? s.fetchable

/-- A pair halted with a cause (R413); class 6, with DMA_BUS_ERROR for a bus error and OPERAND_ALIGN for a bad value
(log 22). -/
def State.haltPair (s : State) (q cause : Nat) : State :=
  (s.modQueue q fun k => { k with qstate := 2, haltCause := cause }).attention 6
    (if cause = 1 then cAlign else cDmaBus) (w32 q) (w32 cause)

/-- A fetched entry started: a fault of role or form completes it at once; else it becomes a started command, its buffer
channel armed. A POWER_SET of STATE 0 or 1 is taken as no change (R500). -/
def State.startEntry (s : State) (q : Nat) (ws : List W32) : State :=
  let opc := bits (wd ws 0) 7 0
  let tag := bits (wd ws 0) 31 16
  let args := (ws.drop 1).take 11
  let role := (s.queue q).role
  let form := entryForm ws (bits (s.sys 1) 16 0)
  if !opcodes.contains opc then s.complete q tag cAlign 0 0
  else if !roleMay role opc || !s.configMay role opc args then s.complete q tag cRole 0 0
  else if form != cDone then s.complete q tag form 0 0
  else
    let s := if 2 ≤ role && 0x10 ≤ opc && opc < 0x60 then s.recordBy 0x06 role q 0 (w32 opc) (wd args 0) else s
    if opc = 0x41 && decide (bits (wd args 0) 2 0 ≤ 1) then
      s.complete q tag cDone (w32 (if s.power.state == .run then 0 else 1)) 0
    else
      let t : Started :=
        { q := q, tag := tag, opc := opc, args := args, bufAddr := wd ws 13 ++ wd ws 12,
          bufBytes := if bufLeast opc args = 0 then 0 else (wd ws 14).toNat, role := role, chan := none, begun := false,
          discard := false }
      { s with port := ({ s.port with started := s.port.started ++ [t] }).armBuffers }

/-- SUBMISSION_FETCH: one fetch of the pair next in turn. An ORDERED entry is not taken while an earlier command of its
pair runs (R415, R417). -/
def State.fetch (s : State) (got : HostFetch) : State :=
  match if s.fetches then s.nextPair else none with
  | none => s
  | some q =>
    let s : State := { s with port := { s.port with rrNext := (q + 1) % 16 } }
    match got with
    | .busError => s.haltPair q 2
    | .completionError => s.haltPair q 3
    | .entry ws =>
      if (wd ws 0).getLsbD 8 && s.port.started.any (fun (t : Started) => t.q == q) then s
      else
        (s.modQueue q fun k => { k with sqHead := (k.sqHead + 1) % ringEntries k.lSqLog }).startEntry q ws

def execSubmissionFetch (got : HostFetch) (s : State) : Host.Outcome State Fault Refusal := .next (s.fetch got)

/-- NOP completes with DONE and zero results. -/
def execNop (q tag : Nat) (s : State) : Host.Outcome State Fault Refusal :=
  .next (s.onStarted q tag 0x00 (fun _ => true) fun _ => s.finish q tag cDone 0 0)

/-! ### Queue registers and doorbells -/

/-- The write that sets ENABLE: the QCFG word and bases are read once; a bad size or base halts the pair; it has no effect on a
draining pair, whose ENABLE stays 0 (R412 to R414). -/
def State.enableQueue (s : State) (q : Nat) (v : W32) : State :=
  let k := s.queue q
  let sl := bits v 3 0
  let cl := bits v 7 4
  if k.qstate = 3 || k.enable then s.modQueue q fun k => { k with sqLog := sl, cqLog := cl }
  else
    let ok := within 4 12 sl && within 4 12 cl && (k.sqBase &&& 63#64) == 0 && (k.cqBase &&& 63#64) == 0
    let s := s.modQueue q fun k =>
      { k with sqLog := sl, cqLog := cl, enable := true, qstate := 1, haltCause := 0, sqHead := 0, cqTail := 0,
               sqTail := 0, cqHead := 0, phase := true, lSqBase := k.sqBase, lCqBase := k.cqBase, lSqLog := sl,
               lCqLog := cl, held := [], challenge := none }
    if ok then s else s.haltPair q 1

/-- Is BAR0 decoded: the link is up, Memory Space Enable is 1, and the function is not in D3hot (R408, R409)? -/
def State.barOpen (s : State) : Bool :=
  s.port.linkUp && s.port.memSpace && !s.port.d3hot &&
  (s.power.state == .run || s.power.state == .ready || s.power.state == .rest || s.power.state == .starting)

/-- A PCI Express request ends L1, and so wakes the module from Rest (R498). -/
def State.l1 (s : State) : State :=
  if s.power.state == .rest then { s with power := { s.power with queuedWake := true } } else s

def execQueueEnable (q : Nat) (value : W32) (s : State) : Host.Outcome State Fault Refusal :=
  .next (if s.barOpen && value.getLsbD 8 then s.l1.enableQueue q value else s)

/-- ENABLE cleared: the pair drains, its started commands run to their end with their completions discarded, and when none
remains QSTATE and ROLE become 0; its session ends (R414, R454). -/
def State.disableQueue (s : State) (q : Nat) : State :=
  let s : State := { s with port := { s.port with
    started := s.port.started.map fun (t : Started) => if t.q == q then { t with discard := true } else t } }
  let k := s.queue q
  if k.qstate = 0 then s.modQueue q fun k => { k with enable := false }
  else (s.modQueue q fun k => { k with enable := false, qstate := 3, held := [] }).settleDrain q

def execQueueDisable (q : Nat) (value : W32) (s : State) : Host.Outcome State Fault Refusal :=
  .next (if s.barOpen && !value.getLsbD 8 then
    (s.l1.modQueue q fun k => { k with sqLog := bits value 3 0, cqLog := bits value 7 4 }).disableQueue q else s)

/-- SQ_TAIL: kept by a running pair; a value not below the ring size halts it; ignored by a disabled or halted one. While
the module starts the write is kept and served afterwards (R413, R417, R452). -/
def execSqTail (q : Nat) (value : W32) (s : State) : Host.Outcome State Fault Refusal :=
  let k := s.queue q
  let v := bits value 15 0
  .next (if s.barOpen && k.qstate == 1 then
    let s := if s.power.state == .rest || s.power.entry.isSome then { s with power := { s.power with queuedWake := true } } else s
    if v < ringEntries k.lSqLog then s.modQueue q fun k => { k with sqTail := v } else s.haltPair q 1
  else if s.barOpen then s.l1 else s)

/-- CQ_HEAD: slots freed; held completions are written in order (R413, R417). -/
def execCqHead (q : Nat) (value : W32) (s : State) : Host.Outcome State Fault Refusal :=
  let k := s.queue q
  let v := bits value 15 0
  .next (if s.barOpen && k.qstate == 1 then
    (if v < ringEntries k.lCqLog then
      State.drainHeld (k.held.length) q (s.l1.modQueue q fun k => { k with cqHead := v })
    else s.l1.haltPair q 1)
  else if s.barOpen then s.l1 else s)

/-- ATTN_PENDING written: a 1 clears its bit unless an event of that class comes in the same NOC cycle (R11, R426). -/
def execAttnPendingClear (value : W32) (events : BitVec 8) (s : State) : Host.Outcome State Fault Refusal :=
  .next (if s.barOpen then
    { s.l1 with port := { s.port with
      attnPending := (s.port.attnPending &&& ~~~(value.setWidth 8 &&& 0xFE#8)) ||| (events &&& 0xFE#8) } }
  else s)

/-- TIME_LO read: it returns bits [31:0] of the TSY time and latches TIME_HI (R411). -/
def execTimeLoRead (s : State) : Host.Outcome State Fault Refusal :=
  .next (if s.barOpen then
    ({ s.l1 with port := { s.port with timeHi := (s.now >>> 32).setWidth 32 } }).emit (.read (s.now.setWidth 32))
  else s)

/-- A write at a queue's base registers, by 32-bit word (R412). -/
def Queue.setBase (k : Queue) (word : Nat) (v : W32) : Queue :=
  match word with
  | 0 => { k with sqBase := (k.sqBase &&& 0xFFFFFFFF00000000#64) ||| v.setWidth 64 }
  | 1 => { k with sqBase := (k.sqBase &&& 0xFFFFFFFF#64) ||| (v.setWidth 64 <<< 32) }
  | 2 => { k with cqBase := (k.cqBase &&& 0xFFFFFFFF00000000#64) ||| v.setWidth 64 }
  | 3 => { k with cqBase := (k.cqBase &&& 0xFFFFFFFF#64) ||| (v.setWidth 64 <<< 32) }
  | _ => k

/-- Any other write: the base registers take it; an access of another size, a read-only, reserved or unlisted offset
ignores it (R10, R411). -/
def execRegisterWriteOther (offset : Nat) (value : W32) (size : Nat) (s : State) : Host.Outcome State Fault Refusal :=
  .next (if !s.barOpen then s
    else if size == 4 && offset % 4 == 0 && decide (0x100 ≤ offset) && decide (offset < 0x500) &&
      decide (offset % 0x40 < 0x10) then
    s.l1.modQueue ((offset - 0x100) / 0x40) fun k => k.setBase (offset % 0x40 / 4) value
  else s.l1)

/-! ### Read-to-clear fields (R9, R11) -/

/-- A field that reads and clears: its value, and the state with it cleared. event tells that one event comes in the same
cycle: it is kept, so the field then holds 1. -/
def State.readClear (s : State) (offset : Nat) (event : Bool) : Option (Nat × State) :=
  let kept : Nat := if event then 1 else 0
  if 0x10 ≤ offset ∧ offset < 0x2C then
    let c := (offset - 0x10) / 4
    some ((s.port.attnCount.getD c 0).toNat,
      { s with port := { s.port with attnCount := modAt s.port.attnCount c fun _ => w32 kept } })
  else if 0x2000 ≤ offset ∧ offset < 0x2100 then
    let p := (offset - 0x2000) / 16
    let m := s.mem.getD p MemPort.reset
    match offset % 16 / 4 with
    | 1 => some (m.corrected, { s with mem := modAt s.mem p fun m => { m with corrected := kept } })
    | 2 => some (m.uncorrected, { s with mem := modAt s.mem p fun m => { m with uncorrected := kept } })
    | _ => none
  else if offset = 0x2108 then some (s.cellar.stalls, { s with cellar := { s.cellar with stalls := kept } })
  else if offset = 0x210C then some (s.cellar.retries, { s with cellar := { s.cellar with retries := kept } })
  else if offset = 0x2110 then
    some (s.cellar.uncorrectable, { s with cellar := { s.cellar with uncorrectable := kept } })
  else if offset = 0x2144 then some (s.malt.applied, { s with malt := { s.malt with applied := kept } })
  else if offset = 0x2148 then some (s.malt.skipped, { s with malt := { s.malt with skipped := kept } })
  else if offset = 0x214C then some (s.malt.nonfinite, { s with malt := { s.malt with nonfinite := kept } })
  else if offset = 0x2150 then some (s.malt.masterUncorr, { s with malt := { s.malt with masterUncorr := kept } })
  else if offset = 0x2154 then some (s.malt.publishes, { s with malt := { s.malt with publishes := kept } })
  else if 0x2200 ≤ offset ∧ offset < 0x2300 then
    let n := (offset - 0x2200) / 32
    let p := s.part n
    match offset % 32 / 4 with
    | 2 => some (p.waves, s.modPart n fun p => { p with waves := kept })
    | 3 => some (p.overruns, s.modPart n fun p => { p with overruns := kept })
    | 4 => some (p.suspensions, s.modPart n fun p => { p with suspensions := kept })
    | 5 => some (p.preemptKills, s.modPart n fun p => { p with preemptKills := kept })
    | _ => none
  else if 0x2400 ≤ offset ∧ offset < 0x2600 then
    let n := (offset - 0x2400) / 32
    let k := s.fport n
    match offset % 32 / 4 with
    | 3 => some (k.fecCorrected, s.modFPort n fun k => { k with fecCorrected := kept })
    | 4 => some (k.fecUncorrected, s.modFPort n fun k => { k with fecUncorrected := kept })
    | 5 => some (k.mismatches, s.modFPort n fun k => { k with mismatches := kept })
    | 6 => some (k.dropped, s.modFPort n fun k => { k with dropped := kept })
    | 7 => some (k.renegotiations, s.modFPort n fun k => { k with renegotiations := kept })
    | _ => none
  else if 0x2800 ≤ offset ∧ offset < 0x3000 then
    let n := (offset - 0x2800) / 32
    let c := s.channels.getD n Channel64.reset
    let put (f : Channel64 → Channel64) : State := { s with channels := modAt s.channels n f }
    match offset % 32 / 4 with
    | 3 => some (c.saturations, put fun c => { c with saturations := kept })
    | 4 => some (c.backups, put fun c => { c with backups := kept })
    | 5 => some (c.late, put fun c => { c with late := kept })
    | _ => none
  else if 0x3000 ≤ offset ∧ offset < 0xB000 then
    let n := (offset - 0x3000) / 0x800
    let c := (s.fport n).cvu
    let put (f : Cvu → Cvu) : State := s.modFPort n fun k => { k with cvu := f k.cvu }
    match offset % 0x800 / 4 with
    | 2 => some (c.checked, put fun c => { c with checked := kept })
    | 3 => some (c.crcFails, put fun c => { c with crcFails := kept })
    | 4 => some (c.gaps, put fun c => { c with gaps := kept })
    | 5 => some (c.repeats, put fun c => { c with repeats := kept })
    | _ => none
  else none

def execReadClearField (offset : Nat) (event : Bool) (s : State) : Host.Outcome State Fault Refusal :=
  .next (match if s.barOpen then s.l1.readClear offset event else none with
    | some (v, t) => t.emit (.read (w32 v))
    | none => s)

/-! ### PCI Express resets and configuration (R408, R409, R509) -/

/-- Has a channel a HOST endpoint? Buffer channels always have one (R429, R431). -/
def Channel.hosted (ch : Channel) (c : Nat) : Bool := decide (4 ≤ c) || bits ch.cfg 2 0 == 0 || bits ch.cfg 5 3 == 0

/-- The running or halted channels of HOST endpoints, with their commands. -/
def State.hostedBusy (s : State) : List (Nat × Nat × Channel) :=
  (List.range 4).flatMap fun e => (List.range 8).filterMap fun c =>
    match ((s.port.engines[e]?).bind fun x => x.channels[c]?) with
    | some ch => if 2 ≤ ch.state && ch.hosted c then some (e, c, ch) else none
    | none => none

/-- A channel made idle and its command ended with DMA_BUS_ERROR. -/
def State.abortChannel (s : State) (e c : Nat) (ch : Channel) : State :=
  let s : State := { s with port := { s.port with engines := modAt s.port.engines e fun x =>
    { x with channels := modAt x.channels c fun k => { k with state := 0 }, last := c } } }
  s.finish ch.queue ch.tag cDmaBus (ch.done.setWidth 32) ((ch.done >>> 32).setWidth 32)

/-- A PCI Express reset of the control port (R409): completions of started commands are discarded, hosted channels that
run or are halted are aborted, the queue registers return to their reset values, sessions end; ATTN_PENDING is kept. -/
def State.portReset (s : State) : State :=
  let s : State := { s with port := { s.port with started := s.port.started.map fun (t : Started) => { t with discard := true } } }
  let s := s.hostedBusy.foldl (fun (s : State) x => s.abortChannel x.1 x.2.1 x.2.2) s
  let s := (List.range 16).foldl (fun s q => s.endSession q) s
  { s with port := { s.port with queues := s.port.queues.map fun _ => Queue.reset, rrNext := 0, timeHi := 0, busMaster := false,
                                 memSpace := false, d3hot := false } }

/-- PERST# asserted: the link goes down with the reset. -/
def execConventionalReset (s : State) : Host.Outcome State Fault Refusal :=
  .next { s.portReset with port := { s.portReset.port with linkUp := false } }

def execHotReset (s : State) : Host.Outcome State Fault Refusal := .next (if s.port.linkUp then s.portReset else s)

def execFunctionLevelReset (s : State) : Host.Outcome State Fault Refusal :=
  .next (if s.port.linkUp then s.portReset else s)

/-- The states in which the die is powered and the link can run. -/
def State.dieOn (s : State) : Bool :=
  s.power.state != .standby && s.power.state != .off && s.power.state != .dormant

/-- PERST# released: the PCI clock is chosen, and the link trains where the die is powered (R452, R509). In Dormant and
Standby the edge is a wake event (R498): EXIT_DORMANT and EXIT_STANDBY take it. -/
def execPerstRelease (refclk : Bool) (s : State) : Host.Outcome State Fault Refusal :=
  .next { s with port := { s.port with hostClock := refclk, linkUp := s.dieOn }
                 power := if s.dieOn then s.power else { s.power with queuedWake := true } }

/-- The host has retrained the link: WAKE# is released (R498). -/
def execLinkRetrained (s : State) : Host.Outcome State Fault Refusal :=
  .next (if s.dieOn then
    { s with port := { s.port with linkUp := true }, board := { s.board with wake := false } } else s)

/-- A configuration write; one that would enable an absent feature is ignored (R408, R409). Held completions wait for Bus
Master Enable. -/
def execConfigWrite (w : ConfigWrite) (s : State) : Host.Outcome State Fault Refusal :=
  .next (if s.port.linkUp then
    let s := s.l1
    match w with
    | .busMaster on =>
      let s : State := { s with port := { s.port with busMaster := on } }
      (List.range 16).foldl (fun s q => State.drainHeld ((s.queue q).held.length) q s) s
    | .memorySpace on => { s with port := { s.port with memSpace := on } }
    | .d3hot on => { s with port := { s.port with d3hot := on } }
    | .absent => s
  else s)

/-! ### Sessions (R454, R455, R460) -/

/-- A refused session: ROLE_DENIED, a record of it, and attention of the security class (R427). -/
def State.denySession (s : State) (q tag role key : Nat) : State :=
  ((s.recordBy 0x04 role q cRole (w32 role) (w32 key)).attention 4 cRole (w32 role) (w32 key)).finish q tag cRole 0 0

/-- STEP 0: a challenge drawn and returned, good for one answer on the pair. A lockout, an operator role in CONFIG 2 or a
KEY at or above OPKEYS is denied. -/
def State.sessionDenied (s : State) (role key : Nat) : Bool :=
  s.ident.lockout || (role == 1 && (s.power.config == 2 || decide (bits (s.sys 64) 3 0 ≤ key)))

def execOpenSessionChallenge (q tag : Nat) (s : State) : Host.Outcome State Fault Refusal :=
  .next (s.onStarted q tag 0x01 (fun t => !(t.arg 1).getLsbD 0) fun t =>
    let role := bits (t.arg 1) 3 2
    let key := bits (t.arg 1) 6 4
    if s.sessionDenied role key then
      s.denySession q tag role key
    else
      let d := s.draw
      (d.2.modQueue q fun k => { k with challenge := some d.1 }).finish q tag cDone (d.1.setWidth 32)
        ((d.1 >>> 32).setWidth 32))

/-- A failed answer: SIGNATURE_INVALID, the challenge discarded, security attention, the failure counted; the eighth in a
row locks sessions out (R455). -/
def State.failSession (s : State) (q tag role key : Nat) : State :=
  let n := s.ident.failures + 1
  let s := (s.recordBy 0x04 role q cSig (w32 role) (w32 key)).attention 4 cSig (w32 role) (w32 key)
  let s := { s with ident := { s.ident with failures := if 8 ≤ n then 0 else n, lockout := decide (8 ≤ n) } }
  (s.modQueue q fun k => { k with challenge := none }).finish q tag cSig 0 0

/-- The anchor rewritten: ANCHOR_SERIAL rises and an anchor-change record is written (R444). -/
def State.setAnchor (s : State) (key prev : Digest) : State :=
  let n := s.nor.anchorSerial + 1
  ({ s with nor := { s.nor with keyHash := key, prevHash := prev, anchorSerial := n } }).record 0x08 0 0 n

/-- Does an answer verify: an operator's under its key; an installer's under a key the anchor trusts, or with a token
while KEY_HASH is zero; a maker's with both signatures (R444, R454, R460)? -/
def State.answerOk (s : State) (role : Nat) (a : SessionAnswer) : Bool :=
  match role with
  | 2 => if s.nor.keyHash = 0 then a.token && a.tokenOk && a.sigOk else a.sigOk && s.nor.trusts a.keyHash
  | _ => a.sigOk

/-- STEP 1: without a valid challenge on the pair, ROLE_DENIED (R469); else the answer uses the challenge up and is judged; on
success the pair's ROLE is set, and an enrolment writes the anchor. -/
def execOpenSessionAnswer (q tag : Nat) (answer : SessionAnswer) (s : State) : Host.Outcome State Fault Refusal :=
  .next (s.onStarted q tag 0x01 (fun t => (t.arg 1).getLsbD 0) fun t =>
    let role := bits (t.arg 1) 3 2
    let key := bits (t.arg 1) 6 4
    if s.sessionDenied role key || (s.queue q).challenge.isNone then
      s.denySession q tag role key
    else if !s.answerOk role answer || (role == 2 && s.nor.keyHash == 0 && decide (t.bufBytes < 59648)) then s.failSession q tag role key
    else
      let s := if role = 2 && s.nor.keyHash = 0 then s.setAnchor answer.keyHash s.nor.prevHash else s
      let s := { s with ident := { s.ident with failures := 0 } }
      ((s.modQueue q fun k => { k with role := role, key := key, challenge := none }).recordBy 0x03 role q 0 (w32 role)
        (w32 key)).finish q tag cDone 0 0)

/-- CLOSE_SESSION clears ROLE (R454). -/
def execCloseSession (q tag : Nat) (s : State) : Host.Outcome State Fault Refusal :=
  .next (s.onStarted q tag 0x02 (fun _ => true) fun _ => (s.endSession q).finish q tag cDone 0 0)

/-- A maker session ends 4 hours after it opens. -/
def execMakerSessionExpiry (q : Nat) (s : State) : Host.Outcome State Fault Refusal :=
  .next (if (s.queue q).role = 3 then s.endSession q else s)

/-- 60 s after the eighth failure sessions open again (R455). -/
def execSessionLockoutExpiry (s : State) : Host.Outcome State Fault Refusal :=
  .next { s with ident := { s.ident with lockout := false } }

/-- A challenge is valid for 60 s. -/
def execChallengeExpiry (q : Nat) (s : State) : Host.Outcome State Fault Refusal :=
  .next (s.modQueue q fun k => { k with challenge := none })

/-! ### Simmer (R108) -/

/-- SIMMER: simmer disabled in the sections named, where a gap in progress goes to idle, or enabled. -/
def execSimmerDisable (q tag : Nat) (s : State) : Host.Outcome State Fault Refusal :=
  .next (s.onStarted q tag 0x40 (fun t => (t.arg 1).getLsbD 8) fun t =>
    let m := (t.arg 1).setWidth 4
    let s : State := { s with port := { s.port with simmerOff := s.port.simmerOff ||| m } }
    (s.quench fun k => m.getLsbD (k / 16)).finish q tag cDone 0 0)

def execSimmerEnable (q tag : Nat) (s : State) : Host.Outcome State Fault Refusal :=
  .next (s.onStarted q tag 0x40 (fun t => !(t.arg 1).getLsbD 8) fun t =>
    let m := (t.arg 1).setWidth 4
    ({ s with port := { s.port with simmerOff := s.port.simmerOff &&& ~~~m } }).finish q tag cDone 0 0)

end Sys2Proof.Machine
end

