-- ==== Sys2Proof/Machine/Dma.lean ====
section
/-! DEFINITION. The DMA engines: arming, serving, copying, halting and settling channels (R429 to R437). -/

namespace Sys2Proof.Machine

/-! ### Cask addresses (R253) -/

/-- First byte of the expert directory. -/
def caskDir : Nat := 0x210000000
/-- First byte of the plan region. -/
def caskPlans : Nat := 0x250000000
/-- First byte of the module tables. -/
def caskTables : Nat := 0x2B0000000
/-- First byte of the leaf pool. -/
def caskPool : Nat := 0x2C0000000
/-- First byte of the tail with all ports in service (R253). -/
def caskTail : Nat := 0x1DC0000000
/-- First byte of the tail over a pool of frames (R253, R255, R271). -/
def tailOf (pool : Nat) : Nat := caskPool + 65536 * pool

/-- A 64-byte block on its way: bytes, sequence tag, POISON. -/
structure Blk where
  data : List Byte
  tag : BitVec 4
  bad : Bool
  deriving DecidableEq, Repr

/-- A block of a store. -/
def Bytes.blk (m : Bytes) (a : Nat) : Blk :=
  { data := m.read a 64, tag := m.tag (a / 64), bad := m.bad a 64 }

/-- A block written to a store with its tag and POISON (R252, R434). -/
def Bytes.putBlk (m : Bytes) (a : Nat) (b : Blk) : Bytes :=
  ((m.write a b.data).setTag (a / 64) b.tag).mark (a / 64) b.bad

/-- The TAG and POISON of a sector, its data left as they are (R249, R252). -/
def Bytes.putMeta (m : Bytes) (k : Nat) (t : BitVec 4) (bad : Bool) : Bytes :=
  (m.setTag k t).mark k bad

/-- A sector of the leaf table or the directory: its words, and the TAG and POISON that the raw cask keeps for it. -/
def State.tableBlk (s : State) (a : Nat) (ws : List W32) : Blk :=
  { data := wordsBytes (ws.take 16), tag := alGet 0 (a / 64) s.caskRaw.tags, bad := s.caskRaw.bad (a / 64 * 64) 64 }

/-- Block of the cask at a byte address: leaf-table entries, directory entries, pool frames, the other regions. -/
def State.caskBlk (s : State) (a : Nat) : Blk :=
  if a < 0x200000000 then s.tableBlk a ((List.range 4).flatMap fun i => leafWords (s.leaf (a / 16 + i)))
  else if caskDir ≤ a ∧ a < caskPlans then
    s.tableBlk a (alGet [] ((a - caskDir) / 64) s.fabric.directory ++ List.replicate 16 0)
  else if caskPool ≤ a then (s.rack.frame ((a - caskPool) / 65536)).blk (a % 65536)
  else s.caskRaw.blk a

/-- The leaf that holds a pool frame. -/
def State.frameOwner (s : State) (f : Nat) : Option Handle :=
  (s.rack.leaves.find? fun e => s.holdsFrame e.1 e.2 && e.2.caskFrame == f).map (·.1)

/-- A leaf into which a sector with POISON 1 has been written: every read of that sector is uncorrectable, so it counts as
poisoned from the write on (R252; DEDUCED, log 154). -/
def State.soil (s : State) (h : Handle) (b : Blk) : State :=
  if b.bad then s.modLeaf h fun e => { e with poisoned := true } else s

/-- A block written at a cask address. Only the module writes the leaf table (R274). -/
def State.putCaskBlk (s : State) (a : Nat) (b : Blk) : State :=
  if a < 0x200000000 then s
  else if caskDir ≤ a ∧ a < caskPlans then
    let e := bytesWords 16 b.data
    let e := if e.all (· == 0) then [] else e
    let s := s.modFabric fun f => { f with directory := alSet [] ((a - caskDir) / 64) e f.directory }
    { s with caskRaw := s.caskRaw.putMeta (a / 64) b.tag b.bad }
  else if caskPool ≤ a then
    let f := (a - caskPool) / 65536
    let s := s.setFrame f ((s.rack.frame f).putBlk (a % 65536) b)
    match s.frameOwner f with
    | some h => s.soil h b
    | none => s
  else { s with caskRaw := s.caskRaw.putBlk a b }

/-- The leaf of a slot's weight image at a byte offset. -/
def State.imageLeaf (s : State) (slot off : Nat) : Handle :=
  ((s.slot slot).plan.map fun p => p.leaves.getD (off / 65536) Config.nullHandle).getD Config.nullHandle

/-- Does a block of a core store lie where only the module fills it, the weight buffer or the accumulator file (R120), and has
the core run a command since its store was blank (log 34)? -/
def State.moduleFilled (s : State) (core off : Nat) : Bool :=
  decide (0x100000 ≤ off) && decide (off < 0x340000) && (s.cores.getD core CoreSt.reset).serial != 0

/-- A block of a core store as a transfer reads it: free where the module fills it, since the spec does not give the order of
bytes there (log 34). -/
def State.coreBlk (s : State) (core off : Nat) : Blk :=
  let a := coreAddr core off
  if s.moduleFilled core off then
    { data := (List.range 64).map fun i => Config.coreFill s.draws (a + i)
      tag := (Config.coreFill s.draws (64 * Config.coreBytes + a / 64)).setWidth 4, bad := false }
  else { s.coreMem.blk a with data := s.coreRead core off 64 }

/-- A block of a space (R431); host is what the host's reads deliver. -/
def State.dmaBlk (s : State) (sec space : Nat) (a : W64) (host : List Byte) : Blk :=
  let n := a.toNat
  match space with
  | 0 => { data := host.take 64, tag := 0, bad := false }
  | 1 => s.caskBlk (n % 0x2000000000)
  | 2 => (s.content (s.imageLeaf (n / 0x1000000000000 % 64) (n % 0x1000000000000))).blk (n % 65536)
  | 3 => s.sectMem.blk (sectAddr sec (n % Config.sectionBytes))
  | _ => s.coreBlk (n / 0x1000000000000 % 64) (n % 0x800000)

/-- A block written to a space; an IMAGE write sets DIRTY on its leaf (R433). -/
def State.putDmaBlk (s : State) (sec space : Nat) (a : W64) (b : Blk) : State :=
  let n := a.toNat
  match space with
  | 0 => s.emit (.host a b.data)
  | 1 => s.putCaskBlk (n % 0x2000000000) b
  | 2 =>
    let h := s.imageLeaf (n / 0x1000000000000 % 64) (n % 0x1000000000000)
    let s := s.ensureCask h
    ((s.patchCask h fun m => m.putBlk (n % 65536) b).dirtyLeaf h).soil h b
  | 3 =>
    let p := sectAddr sec (n % Config.sectionBytes)
    { s with sectMem := s.sectMem.putBlk p b, sectLines := addLines s.sectLines p 64 }
  | _ =>
    let p := coreAddr (n / 0x1000000000000 % 64) (n % 0x800000)
    { s with coreMem := s.coreMem.putBlk p b, coreLines := addLines s.coreLines p 64 }

/-! ### Channels -/

/-- Source and destination spaces of a CFG word. -/
def cfgSrc (w : W32) : Nat := bits w 2 0
/-- Destination space. -/
def cfgDst (w : W32) : Nat := bits w 5 3
/-- Element bytes of a transpose. -/
def cfgElem (w : W32) : Nat := 1 <<< bits w 8 7

/-- A channel of an engine. -/
def State.channel (s : State) (sec c : Nat) : Channel :=
  (((s.port.engines[sec]?).bind fun e => e.channels[c]?)).getD Channel.reset

/-- A channel changed. -/
def State.modChannel (s : State) (sec c : Nat) (f : Channel → Channel) : State :=
  { s with port := { s.port with engines := modAt s.port.engines sec fun e =>
    { e with channels := modAt e.channels c f } } }

/-- Blocks of a transfer. -/
def Channel.blocks (ch : Channel) : Nat := ch.rows.toNat * (ch.rowBytes.toNat / 64)

/-! ### DMA_START -/

/-- Is an address range of a space outside what exists: the cask from its tail on (R255, R270), beyond a slot's image, a section's scratch share,
or a core store of the engine's section (R431, R433)? lo and hi bound the bytes touched. -/
def State.outOfSpace (s : State) (sec space lo hi : Nat) : Bool :=
  match space with
  | 1 => decide (tailOf s.rack.poolSize < hi)
  | 2 => decide (((s.slot (lo / 0x1000000000000 % 64)).plan.map Plan.weightBytes).getD 0 <
      hi - lo / 0x1000000000000 * 0x1000000000000)
  | 3 => decide (s.scratchMiB sec * 0x100000 < hi)
  | 4 => lo / 0x1000000000000 / 16 != sec || decide (Config.coreBytes < hi - lo / 0x1000000000000 * 0x1000000000000)
  | _ => false

/-- Is a space denied to the role: CASK to an operator, an IMAGE slot that no partition owns (R431)? -/
def State.spaceDenied (s : State) (role space : Nat) (a : W64) : Bool :=
  (space == 1 && role == 1) || (space == 2 && (s.slotPart (a.toNat / 0x1000000000000 % 64)).isNone)

/-- The code that refuses a DMA_START before its channel starts, DONE when none does (R430 to R433). -/
def State.dmaCheck (s : State) (t : Started) : Code :=
  let sec := bits (t.arg 1) 1 0
  let src : W64 := t.arg 3 ++ t.arg 2
  let dst : W64 := t.arg 5 ++ t.arg 4
  let cfg := t.arg 6
  let rows := (t.arg 7).toNat
  let rb := (t.arg 8).toNat
  let tr := cfg.getLsbD 6
  let e := cfgElem cfg
  let odd (w : Nat) : Bool := w % 64 != 0
  let srcEnd := src.toNat + (rows - 1) * (t.arg 9).toNat + rb
  let dstEnd := if tr then dst.toNat + (rb / e - 1) * (t.arg 10).toNat + rows * e
    else dst.toNat + (rows - 1) * (t.arg 10).toNat + rb
  if s.spaceDenied t.role (cfgSrc cfg) src || s.spaceDenied t.role (cfgDst cfg) dst then cRole
  else if odd src.toNat || odd dst.toNat || odd rb || odd (t.arg 9).toNat || odd (t.arg 10).toNat ||
      (tr && odd (rows * e)) then cDmaAlign
  else if rows != 0 && rb != 0 &&
      (s.outOfSpace sec (cfgSrc cfg) src.toNat srcEnd || s.outOfSpace sec (cfgDst cfg) dst.toNat dstEnd) then cAlign
  else if (s.channel sec (bits (t.arg 1) 3 2)).state != 0 then cOverflow
  else cDone

/-- DMA_START: the channel armed; nothing to move completes at once (R430, R431). -/
def execDmaStart (q tag : Nat) (s : State) : Host.Outcome State Fault Refusal :=
  .next (s.onStarted q tag 0x30 (fun _ => true) fun t =>
    let v := s.dmaCheck t
    if v != cDone then s.finish q tag v 0 0
    else if t.arg 7 = 0 || t.arg 8 = 0 then s.finish q tag cDone 0 0
    else
      let ch : Channel :=
        { src := t.arg 3 ++ t.arg 2, dst := t.arg 5 ++ t.arg 4, cfg := t.arg 6, rows := t.arg 7, rowBytes := t.arg 8,
          srcPitch := t.arg 9, dstPitch := t.arg 10, state := 1, dir := false, cause := 0, queue := q, tag := tag,
          fail := 0, done := 0 }
      (s.modChannel (bits (t.arg 1) 1 0) (bits (t.arg 1) 3 2) fun _ => ch).modStarted q tag
        fun t => { t with begun := true })

/-! ### Serving -/

/-- Is a channel of the engine running or halted? -/
def Dma.busy (e : Dma) : Bool := e.channels.any fun ch => decide (2 ≤ ch.state)

/-- The armed channel of lowest number above the one last served, wrapping (R430). -/
def Dma.next (e : Dma) : Option Nat :=
  ((List.range 8).map fun i => (e.last + 1 + i) % 8).find? fun c =>
    ((e.channels[c]?).map fun ch => ch.state == 1).getD false

/-- DMA_CHANNEL_START: the next armed channel runs. -/
def execDmaChannelStart (sec : Nat) (s : State) : Host.Outcome State Fault Refusal :=
  .next (match s.port.engines[sec]? with
    | some e =>
      if e.busy then s else
        match e.next with
        | some c =>
          { s with port := { s.port with engines := modAt s.port.engines sec fun e =>
            { e with channels := modAt e.channels c (fun ch => { ch with state := 2 }), current := c } } }
        | none => s
    | none => s)

/-- The channel of an engine that runs a DMA_START. -/
def State.runningDma (s : State) (sec : Nat) : Option Nat :=
  (List.range 4).find? fun c => (s.channel sec c).state == 2

/-- A HOST endpoint waits for Bus Master Enable (R408). -/
def State.hostWaits (s : State) (ch : Channel) : Bool :=
  (cfgSrc ch.cfg == 0 || cfgDst ch.cfg == 0) && !s.port.busMaster

end Sys2Proof.Machine
end

