-- ==== Sys2Proof/Machine/Plans.lean ====
section
/-! DEFINITION. Loading and unloading plans: the image's parts (R109, R110), the load checks (R111 and the rules each
opcode's chapter adds), the ranges given at load (R113, R254), placement, adoption (R307), unloading (R421). -/

namespace Sys2Proof.Machine

/-! ### Formats (R36, R39, R41, R42) -/

/-- Does a scale code list an element format (R42)? -/
def sclLists (scl fmt : Nat) : Bool :=
  match scl with
  | 0 => true
  | 1 => fmt == 3 || fmt == 4 || fmt == 0
  | _ => fmt == 2 || fmt == 0 || fmt == 3 || fmt == 4

/-- A format word of A or W keeps R36, R41, R117 and, in STREAM space, R119. -/
def fmtOk (f a : W32) : Bool :=
  let o := mkOpd f a 0
  decide (o.fmt < 8) && !f.getLsbD 7 && sclLists o.scl o.fmt &&
  (o.zp == 0 || (isIntFmt o.fmt && o.scl == 0)) && (o.fmt != 2 || (decide (-8 ≤ o.zp) && decide (o.zp ≤ 7))) &&
  (o.space != 3 || (decide (streamObj a ≤ 2) && (streamObj a == 1 || o.scl == 0)))

/-- An operand pair of the matrix array (R39): activation and weight formats. -/
def pairOk (a w : Nat) : Bool :=
  ((a == 0 || a == 1) && decide (w ≤ 4)) || ((a == 3 || a == 4) && decide (w ≤ 4)) || (a == 5 && w == 5)

/-- Block scales of both operands have one group size (R41). -/
def groupsOk (a w : W32) : Bool :=
  bits a 6 4 == 0 || bits w 6 4 == 0 || groupSize (bits a 6 4) == groupSize (bits w 6 4)

/-- A CORE-space operand names the activation buffer, the vector scratch or the stream-state cache (R120) with its address
and, at offsets, with its scale stream or index destination, for every batch element that a literal B gives it. -/
def coreAddrOk (f a stride : W32) (b : Nat) (offsets : List Nat) : Bool :=
  bits f 17 16 != 0 ||
  (List.range (if b < 32768 then max 1 b else 1)).all fun i => (0 :: offsets).all fun o =>
    corePlaceOk (64 * a.toNat + 64 * (i * stride.toNat) + o)

/-- The place of an operand's scale stream after its address, where it has one. -/
def sclOffset (f : W32) : List Nat := if bits f 6 4 = 0 then [] else [65536 * bits f 31 18]

/-- The place of a descriptor's index destination after D_ADDR, where it writes indices (R118). -/
def idxOffset (ws : List W32) : List Nat :=
  let uses := match bits (wd ws 0) 7 0 with
    | 5 | 6 => bits (wd ws 14) 27 26 != 0
    | 7 => bits (wd ws 13) 3 2 != 0 || decide (2 ≤ bits (wd ws 13) 1 0)
    | 0x0A => true
    | 0x0C => !(wd ws 13).getLsbD 8
    | _ => false
  if uses then [65536 * bits (wd ws 8) 31 18] else []

/-- A dimension field: with bit 15 set, bits [14:6] are 0 (R115). -/
def dimOk (f : Nat) : Bool := decide (f < 32768) || decide (f % 32768 < 64)

/-- The greatest value a dimension field can take: its literal, or DIM_MAX of its entry. -/
def dimTop (h : List W32) (f : Nat) : Nat := if f < 32768 then f else (wd h (16 + f % 64)).toNat

/-- Is a dimension field the literal n? -/
def isLit (f n : Nat) : Bool := f == n && decide (n < 32768)

/-! ### The load checks of one descriptor -/

/-- The bits of words 13 to 15 that are fields, by opcode (R122). -/
def opWordFields (opc : Nat) : Nat × Nat × Nat :=
  let all := 0xFFFFFFFF
  match opc with
  | 0x02 => (0xFFFF1FFF, all, all)
  | 0x03 => (0x00FFFFFF, all, 0x7FFFFF)
  | 0x04 => (0x3FFFF, all, all)
  | 0x05 => (all, 0x0CFFFFFF, all)
  | 0x06 => (all, 0x0FFFFFFF, all)
  | 0x07 => (0xF, 0, 0)
  | 0x08 => (7, 0, 0)
  | 0x09 => (0xFF, all, 0)
  | 0x0A => (0xFFFFFF3F, 0xFFFF, 0)
  | 0x0B => (0x1FFFFFF, 0xFFFF, 0)
  | 0x0C => (0x1FF, 0xFFFF, 0)
  | 0x0E => (3, all, 0)
  | 0x0F => (0xFFFFFF3F, all, 0)
  | 0x10 => (3, 0, 0)
  | _ => (0, 0, 0)

/-- The fields that every descriptor has (R115 to R118, R125). -/
def commonOk (ws : List W32) : Bool :=
  let w := wd ws
  let g := opWordFields (bits (w 0) 7 0)
  within 1 0x10 (bits (w 0) 7 0) && bits (w 0) 15 10 == 0 && bits (w 0) 31 28 == 0 && bits (w 3) 31 27 == 0 &&
  [bits (w 1) 15 0, bits (w 1) 31 16, bits (w 2) 15 0, bits (w 2) 31 16].all dimOk &&
  within 1 256 (bits (w 3) 26 18) &&
  decide (gridField (bits (w 3) 5 0) * gridField (bits (w 3) 11 6) + bits (w 3) 17 12 ≤ 64) &&
  fmtOk (w 4) (w 5) && fmtOk (w 6) (w 7) && coreAddrOk (w 4) (w 5) (w 10) (bits (w 2) 31 16) (sclOffset (w 4)) &&
  coreAddrOk (w 6) (w 7) (w 11) (bits (w 2) 31 16) (sclOffset (w 6)) &&
  coreAddrOk (w 8) (w 9) (w 12) (bits (w 2) 31 16) (idxOffset ws) &&
  decide (bits (w 8) 3 0 < 8) && bits (w 8) 15 7 == 0 && decide (bits (w 8) 6 4 ≤ 3) &&
  (bits (w 8) 6 4 != 1 || bits (w 8) 3 0 == 2) && (decide (bits (w 8) 6 4 ≤ 1) || bits (w 8) 3 0 == 3) &&
  (bits (w 8) 17 16 != 3 || decide (streamObj (w 9) ≤ 2)) &&
  onlyFields (fun i => [g.1, g.2.1, g.2.2].getD i 0) (ws.drop 13)

/-- A history destination: PACK as the header's KV_FMT, N (N2 of MATMUL_PAIR) a multiple of 128, chains below CHAINS, no reserved address bit
(R163). h is the plan header. -/
def histOk (h ws : List W32) : Bool :=
  let a := wd ws 9
  let chains := bits (wd h 15) 10 0
  let n := if bits (wd ws 0) 7 0 = 2 then bits (wd ws 13) 31 16 else bits (wd ws 1) 31 16
  let b := bits (wd ws 2) 31 16
  let last := bits a 9 0 + (if b < 32768 then (b - 1) * (wd ws 12).toNat else 0)
  bits a 26 10 == 0 && decide (0 < chains) &&
  bits (wd ws 8) 6 4 == (if (wd h 15).getLsbD 11 then 2 else 1) &&
  (decide (32768 ≤ n) || (n % 128 == 0 && decide (last + n / 128 ≤ chains)))

/-- The destination of an opcode that writes results: history only by PACK 1 or 2, an output area or another space only by
PACK 0 or 2 (log 24). -/
def destOk (h ws : List W32) : Bool :=
  let d := wd ws 8
  if bits d 17 16 == 3 && streamObj (wd ws 9) == 1 then histOk h ws
  else (bits d 17 16 != 3 || streamObj (wd ws 9) == 2) && (bits d 6 4 == 0 || bits d 6 4 == 2)

/-- Is an operand's STREAM object, if it lies in STREAM space, the output area? -/
def readOk (f a : W32) : Bool := bits f 17 16 != 3 || streamObj a == 2

/-- Bytes of an element in a parcel; a parcel row holds at most 8 176 bytes of elements (R349). -/
def parcelRowOk (h : List W32) (k fmt : Nat) : Bool :=
  decide (dimTop h k * max 8 (elemBits fmt) ≤ 65408)

/-- The rules of an opcode (R41, R98, R133, R183, R208, R209, R227, R228, R242, R355, R359, R360, R381, R535). -/
def opcodeOk (h ws : List W32) : Bool :=
  let w := wd ws
  let m := bits (w 1) 15 0
  let n := bits (w 1) 31 16
  let k := bits (w 2) 15 0
  let b := bits (w 2) 31 16
  let af := bits (w 4) 3 0
  let wf := bits (w 6) 3 0
  let rows := bits (w 3) 5 0
  let cols := bits (w 3) 11 6
  let d := w 8
  let reads := readOk (w 4) (w 5) && readOk (w 6) (w 7)
  match bits (w 0) 7 0 with
  | 0x01 => pairOk af wf && groupsOk (w 4) (w 6) && reads && destOk h ws
  | 0x02 => pairOk af wf && groupsOk (w 4) (w 6) && reads && destOk h ws && cols == 1 &&
      decide (bits (w 13) 3 0 ≤ 7) && decide (bits (w 13) 7 4 < 8) && pairOk (bits (w 13) 7 4) (bits (w 14) 3 0) &&
      fmtOk (w 14) (w 15) && coreAddrOk (w 14) (w 15) (w 11) b (sclOffset (w 14)) && readOk (w 14) (w 15) &&
      dimOk (bits (w 13) 31 16)
  | 0x03 =>
    let kv8 := (w 13).getLsbD 11
    isLit n 128 && isLit k 128 && within 1 255 (bits (w 13) 7 0) && pairOk af (if kv8 then 3 else 2) &&
    (kv8 || bits (w 4) 6 4 == 0 || groupSize (bits (w 4) 6 4) == 32) && decide (0 < bits (wd h 15) 10 0) &&
    readOk (w 4) (w 5) && bits (w 6) 17 16 == 3 && streamObj (w 7) == 1 && bits (w 7) 27 10 == 0 && w 11 == 1 &&
    kv8 == (wd h 15).getLsbD 11 && decide (bits (w 7) 9 0 + (if b < 32768 then b else 1) ≤ bits (wd h 15) 10 0) &&
    (!(w 13).getLsbD 9 || within 1 1024 (bits (w 15) 22 12)) && decide (bits (w 15) 22 12 ≤ 1024) &&
    bits d 6 4 == 0 && (bits d 17 16 != 3 || streamObj (w 9) == 2) && decide (bits (w 3) 26 18 ≤ 128)
  | 0x04 =>
    let sd := bits (w 13) 8 0
    let c := mkOpd (w 14) (w 15) 0
    [1, 2, 4, 8, 16, 32, 64, 128, 256].contains sd && isLit k sd && rows == 1 && within 1 256 (bits (w 13) 17 9) &&
    (bits (w 4) 17 16 == 0 || bits (w 4) 17 16 == 1) && bits (w 6) 17 16 == 3 && streamObj (w 7) == 0 &&
    onlyFields (fun _ => 0x30000) [w 6] && (c.fmt == 7 || c.fmt == 5 || c.fmt == 6) && c.scl == 0 && c.zp == 0 &&
    fmtOk (w 14) (w 15) && coreAddrOk (w 14) (w 15) 0 1 [] && (c.space == 0 || c.space == 1) &&
    bits d 6 4 == 0 && (bits d 17 16 != 3 || streamObj (w 9) == 2) && (decide (32768 ≤ n) || n * sd % 32 == 0)
  | 0x05 =>
    let scl := bits (w 6) 6 4
    within 1 255 (bits (w 13) 23 16) && within 1 255 (bits (w 13) 31 24) && decide (dimTop h m ≤ 16) &&
    (decide (af ≤ 1) || within 3 5 af) && bits (w 4) 6 4 == 0 && decide (bits (w 4) 17 16 ≤ 1) &&
    (bits (w 6) 17 16 == 0 || bits (w 6) 17 16 == 2) && (scl == 0 || scl == 2 || scl == 5) &&
    (scl == 0 || (decide (k < 32768) && k % 32 == 0)) && pairOk af wf && bits d 3 0 != 2 && bits d 6 4 == 0 &&
    decide (bits d 17 16 ≤ 1) && decide (bits (w 14) 22 21 ≤ 2) && decide (bits (w 14) 27 26 ≤ 2) &&
    (bits (w 14) 27 26 == 0 || cols == 1) && dimOk (bits (w 15) 15 0) && dimOk (bits (w 15) 31 16)
  | 0x06 =>
    within 1 255 (bits (w 13) 23 16) && within 1 255 (bits (w 13) 31 24) && decide (dimTop h m ≤ 16) && af != 2 &&
    bits (w 4) 6 4 == 0 && decide (bits (w 4) 17 16 ≤ 1) && w 6 == 0 && bits d 3 0 != 2 && bits d 6 4 == 0 &&
    decide (bits d 17 16 ≤ 1) && decide (bits (w 14) 25 24 ≤ 1) && decide (bits (w 14) 22 21 ≤ 2) &&
    decide (bits (w 14) 27 26 ≤ 2) && (bits (w 14) 27 26 == 0 || cols == 1) && dimOk (bits (w 15) 15 0) &&
    dimOk (bits (w 15) 31 16)
  | 0x07 =>
    let sel := bits (w 13) 3 2
    (af == 0 || af == 1 || af == 3) && af == wf && bits (w 4) 15 4 == 0 && bits (w 6) 15 4 == 0 && reads && destOk h ws &&
    decide (sel ≤ 2) && (sel == 0 || (decide (bits (w 13) 1 0 ≤ 1) && cols == 1))
  | 0x08 =>
    let rop := bits (w 13) 2 0
    reads && destOk h ws && decide (rop ≤ 4) && (decide (32768 ≤ n) || n == (if rop = 2 then 2 else 1))
  | 0x09 => reads && destOk h ws && decide (bits (w 13) 7 0 ≤ 0x0D) &&
      (!within 1 5 (bits (w 13) 7 0) || groupsOk (w 4) (w 6))
  | 0x0A => rows == 1 && cols == 1 && (within 5 7 af) && bits (w 4) 6 4 == 0 && reads &&
      decide (dimTop h n ≤ 4096) && within 1 16 (bits (w 13) 4 0) && (bits d 6 4 == 0 || bits d 6 4 == 3) &&
      parcelRowOk h k (bits d 3 0) && bits d 17 16 != 3
  | 0x0B => reads && (bits d 6 4 == 0 || bits d 6 4 == 3) && parcelRowOk h k (bits d 3 0)
  | 0x0C =>
    let e := bits (w 13) 7 0
    if (w 13).getLsbD 8 then e != 0 && onlyFields (fun _ => 0x30000) [w 6] && destOk h ws
    else decide (e ≤ 1) && bits d 6 4 == 0 && destOk h ws
  | 0x0D => true
  | 0x0E => decide (bits (w 13) 1 0 ≤ 2)
  | 0x0F => (af == 7 || af == 5) && bits (w 4) 17 16 == 2 && isLit k 1 && w 6 == 0 && d == 0 && !(w 0).getLsbD 9 &&
      isLit b 1 && rows == 1 && cols == 1
  | _ => true

/-! ### The header and the sequences -/

/-- The header's fields lie in their ranges (R110). -/
def headerOk (h : List W32) : Bool :=
  let w := wd h
  let n := bits (w 1) 23 0
  w 0 == 1 && bits (w 1) 31 24 == 0 && within 1 16777215 n && bits (w 2) 31 4 == 0 &&
  ((List.range 4).all fun c => decide (bits (w 3) (8 * c + 7) (8 * c) ≤ 16)) && bits (w 5) 31 24 == 0 &&
  decide ((w 6).toNat ≤ 4096) && within 20 200 (bits (w 7) 7 0) && bits (w 7) 31 24 == 0 &&
  decide ((w 8).toNat < n) && decide ((w 9).toNat < n) && (w 10 == 0xFFFFFF || decide ((w 10).toNat < n)) &&
  (w 11).toNat % 64 == 0 && (w 12).toNat % 256 == 0 && bits (w 13) 31 16 == 0 && bits (w 14) 31 12 == 0 &&
  bits (w 15) 31 12 == 0 && decide (bits (w 15) 10 0 ≤ 1024)

/-- The entry points of a header. -/
def entries (h : List W32) : List Nat :=
  [(wd h 8).toNat, (wd h 9).toNat] ++ (if wd h 10 = 0xFFFFFF then [] else [(wd h 10).toNat])

/-- The end of the sequence that starts at an entry point: the next greater entry point, or DESC_COUNT (R317). -/
def seqEnd (h : List W32) (e : Nat) : Nat :=
  ((entries h).filter fun x => decide (e < x)).foldl min (bits (wd h 1) 23 0)

/-- The legs of a sequence as first and last descriptor: each FENCE of SCOPE 3 ends one (R317). -/
def legsFrom (descs : List (List W32)) : Nat → Nat → Nat → List (Nat × Nat)
  | 0, _, _ => []
  | fuel + 1, first, i =>
    let d := descs.getD i []
    if fuel = 0 then [(first, i)]
    else if bits (wd d 0) 7 0 = 0x10 ∧ bits (wd d 13) 1 0 = 3 then (first, i) :: legsFrom descs fuel (i + 1) (i + 1)
    else legsFrom descs fuel first (i + 1)

/-- The legs of the sequence at an entry point. -/
def seqLegs (h : List W32) (descs : List (List W32)) (e : Nat) : List (Nat × Nat) :=
  legsFrom descs (seqEnd h e - e) e e

/-- Cores that a plan's descriptors name. -/
def coresNamed (descs : List (List W32)) : List Nat :=
  (List.range 64).filter fun c => descs.any fun d => (gridCores d).contains c

/-- Does a descriptor use SECTION space? -/
def usesSection (d : List W32) : Bool :=
  bits (wd d 4) 17 16 == 1 || bits (wd d 6) 17 16 == 1 || bits (wd d 8) 17 16 == 1 ||
  ((bits (wd d 0) 7 0 == 2 || bits (wd d 0) 7 0 == 4) && bits (wd d 14) 17 16 == 1)

/-- A descriptor that uses SECTION space has its cores in sections with scratch (R111). -/
def sectionsOk (h d : List W32) : Bool :=
  !usesSection d || (gridCores d).all fun c =>
    (wd h 2).getLsbD (c / 16) && bits (wd h 4) (8 * (c / 16) + 7) (8 * (c / 16)) != 0

/-! ### Ranges given at load (R113, R254) -/

/-- The lowest start at which a range of a length is free of the ranges given as start and length, at most top. -/
def firstFit (used : List (Nat × Nat)) (len top : Nat) : Option Nat :=
  let free (a : Nat) : Bool := decide (a + len ≤ top) && used.all fun u => decide (a + len ≤ u.1) || decide (u.1 + u.2 ≤ a)
  ((0 :: used.map fun u => u.1 + u.2).filter free).foldl (fun (m : Option Nat) a =>
    match m with
    | none => some a
    | some b => some (min a b)) none

/-- The loaded plans. -/
def State.plans (s : State) : List Plan := s.slots.filterMap (·.plan)

/-- TABLE_BASE for a table image on the cores named. -/
def State.tableFit (s : State) (cores : List Nat) (len : Nat) : Option Nat :=
  firstFit ((s.plans.filter fun p => (coresNamed p.descs).any cores.contains).map fun p =>
    (p.tableBase, p.table.length)) len 0x40000

/-- Bytes of the plan scratch that a header reserves in a section: SCR_Sn of a section that SECTIONS names (R113). -/
def scratchOf (h : List W32) (sec : Nat) : Nat :=
  if (wd h 2).getLsbD sec then bits (wd h 4) (8 * sec + 7) (8 * sec) * 0x100000 else 0

/-- The scratch base in a section of a reservation in MiB, in bytes of the share. -/
def State.scratchFit (s : State) (sec mib : Nat) : Option Nat :=
  if mib = 0 then some 0 else
    firstFit ((s.plans.filter fun p => scratchOf p.header sec != 0).map fun p =>
      (p.scratch.getD sec 0, scratchOf p.header sec)) (mib * 0x100000)
      (s.scratchMiB sec * 0x100000)

/-- The scratch bases of the four sections. -/
def State.scratchFits (s : State) (h : List W32) : Option (List Nat) :=
  ((List.range 4).map fun c =>
    s.scratchFit c (scratchOf h c / 0x100000)).foldr
      (fun x acc => x.bind fun v => acc.map fun l => v :: l) (some [])

/-- The plan region's first unit for a length in 64 KiB units (R254). -/
def State.regionFit (s : State) (units : Nat) : Option Nat :=
  firstFit (s.plans.map fun p => (p.regionBase, p.regionUnits)) units 24576

/-! ### Loading -/

/-- Bytes of an image before its weight image. -/
def headBytes (h : List W32) : Nat := 320 + 64 * bits (wd h 1) 23 0 + (wd h 11).toNat

/-- WEIGHT_BYTES of a header. -/
def weightBytes (h : List W32) : Nat := (wd h 12).toNat + (bits (wd h 13) 15 0 <<< 32)

/-- Bytes of the tag plane (R109). -/
def tagPlane (h : List W32) : Nat := ((weightBytes h + 127) / 128 + 63) / 64 * 64

/-- The descriptors of an image. -/
def imageDescs (image : List Byte) (n : Nat) : List (List W32) :=
  (List.range n).map fun i => bytesWords 16 ((image.drop (320 + 64 * i)).take 64)

/-- Every grid core of a descriptor exists in the capability table (R125). The spec names no code for a breach; the model
counts it among the operand rules of R111's table (DEDUCED, log 143). -/
def State.gridExists (s : State) (d : List W32) : Bool := (gridCores d).all fun c => decide (c % 16 < s.coresOf (c / 16))

/-- The first code of R111's table that an image meets in a slot, DONE when every check passes. adopt leaves out the weight
image. buf is the buffer's size. -/
def State.loadCheck (s : State) (slot : Nat) (image : List Byte) (buf : Nat) (adopt : Bool) : Code :=
  let h := bytesWords 80 image
  let need := headBytes h + (if adopt then 0 else weightBytes h + tagPlane h)
  if (s.slot slot).plan.isSome || decide (buf < need) || decide (image.length < need) then cAlign
  else
    let descs := imageDescs image (bits (wd h 1) 23 0)
    let leaves := bits (wd h 5) 23 0
    let cores := coresNamed descs
    if !headerOk h || leaves != (weightBytes h + 65535) / 65536 ||
        !descs.all (fun d => commonOk d && s.gridExists d && sectionsOk h d && opcodeOk h d) ||
        (entries h).any (fun e => decide (64 < (seqLegs h descs e).length)) then cAlign
    else match s.slotPart slot with
      | none => cRole
      | some part =>
        if cores.any fun c => s.corePart c != some part then cRole
        else
          let p : Plan := { header := h, descs := [], table := [], leaves := [], tableBase := 0, scratch := [],
                            regionBase := 0, regionUnits := 0, suspect := false, unfit := 0 }
          let room := (s.caskQuota part - s.framesOf part) + (s.cellarQuota part - s.cellarHeld part)
          if s.unfitOf p != 0 || (!adopt && decide (room < leaves)) || decide (0x40000 < (wd h 11).toNat) ||
              (s.tableFit cores (wd h 11).toNat).isNone || (s.scratchFits h).isNone ||
              (s.regionFit ((headBytes h + 65535) / 65536)).isNone then cOverflow
          else cDone

/-- The table image written to every core the plan names, and the head to the plan region (R111). -/
def State.placeTables (s : State) (p : Plan) (head : List Byte) : State :=
  let s := { s with caskRaw := s.caskRaw.write (caskPlans + 65536 * p.regionBase) head }
  (coresNamed p.descs).foldl (fun s c => s.putCore (coreAddr c (tableSpace + p.tableBase)) p.table) s

/-- The bytes and tags of leaf i of a weight image; what lies behind the image's end is the n-th undefined content (log 2). -/
def weightLeaf (data tags : List Byte) (i n : Nat) : Bytes :=
  let here := (data.drop (65536 * i)).take 65536
  let b := (Bytes.empty (.free n)).write 0 here
  (List.range ((here.length + 63) / 64)).foldl (fun b k =>
    let t := (tags.getD ((1024 * i + k) / 2) 0).toNat
    b.setTag k (BitVec.ofNat 4 (if k % 2 = 0 then t % 16 else t / 16))) b

/-- One weight leaf placed: in a cask frame of the partition's quota, else in the cellar under a descriptor (R294), unless that takes
no writes (R303) or the partition's cellar quota is full (R279). -/
def State.placeWeight (s : State) (part : Nat) (d : FrameDesc) (b : Bytes) : Option (Handle × State) :=
  let h := s.freeHandle
  match s.demandFrame part with
  | some (f, s) =>
    let e := { Leaf.free with ref := 1, inCask := true, dirty := true, partition := part, caskFrame := f }
    some (h, ((s.setLeaf h e).setFrame f b).settleWeight h d.slot d.w4.toNat)
  | none =>
    if s.cellar.belowMin || s.cellarFull part then none else
    match (s.govTake.setLeaf h { Leaf.free with ref := 1, partition := part }).acceptAs h d b with
    | some (f, s) => some (h, s.modLeaf h fun e => { e with inCellar := true, cellarFrame := f })
    | none => none

/-- The weight leaves of an image placed in order, n from leaf i on; none where a place is missing. -/
def State.placeWeights (part : Nat) (desc : Nat → FrameDesc) (data tags : List Byte) :
    Nat → Nat → State → Option (List Handle × State)
  | 0, _, s => some ([], s)
  | n + 1, i, s =>
    match ({ s with draws := s.draws + 1 } : State).placeWeight part (desc i) (weightLeaf data tags i s.draws) with
    | some (h, s) => (State.placeWeights part desc data tags n (i + 1) s).map fun r => (h :: r.1, r.2)
    | none => none

/-- Cask frames that a partition can have now: free ones within its quota, and those of clean leaves that can be evicted. -/
def State.framesAhead (s : State) (part : Nat) : Nat :=
  min (s.caskQuota part - s.framesOf part) s.freeCount +
    (s.rack.leaves.filter fun e => e.2.movable part && e.2.clean).length

/-- A slot's retained weight set released (R307, R421). -/
def State.dropRetained (s : State) (slot : Nat) : State :=
  match (s.slot slot).retained with
  | none => s
  | some (_, ls) =>
    (ls.foldl (fun s e => s.drop e.2) s).modSlot slot fun k => { k with retained := none }

/-- A plan entered in its slot, with its leaves and key. -/
def State.enterPlan (s : State) (slot : Nat) (image : List Byte) (leaves : List Handle) (key : W64) : State :=
  let h := bytesWords 80 image
  let descs := imageDescs image (bits (wd h 1) 23 0)
  let p : Plan :=
    { header := h, descs := descs, table := (image.drop (320 + 64 * descs.length)).take (wd h 11).toNat, leaves := leaves,
      tableBase := (s.tableFit (coresNamed descs) (wd h 11).toNat).getD 0, scratch := (s.scratchFits h).getD [0, 0, 0, 0],
      regionBase := (s.regionFit ((headBytes h + 65535) / 65536)).getD 0, regionUnits := (headBytes h + 65535) / 65536,
      suspect := false, unfit := 0 }
  let s := s.placeTables p (image.take (headBytes h))
  ((s.modSlot slot fun k => { k with plan := some p, key := key, shape := ⟨[], [], []⟩ }).attention 1 cDone (w32 slot) 0
    ).recolophon

/-- The first 64 bits of a digest. -/
def key64 (bs : List Byte) : W64 := (shake256 bs).setWidth 64

/-- LOAD_PLAN without ADOPT: checked, placed and loaded, or refused with its code (R111). A load whose weights must wait
for the governor stays started (R290). -/
def execLoadPlan (q tag : Nat) (image : List Byte) (s : State) : Host.Outcome State Fault Refusal :=
  .next (s.onStarted q tag 0x10 (fun t => !(t.arg 1).getLsbD 8) fun t =>
    let slot := bits (t.arg 1) 5 0
    let v := s.loadCheck slot image t.bufBytes false
    if v != cDone then s.finish q tag v 0 0
    else
      let h := bytesWords 80 image
      let data := image.drop (headBytes h)
      let part := (s.slotPart slot).getD 0
      let n := bits (wd h 5) 23 0
      let short := n - s.framesAhead part
      let key := key64 (data.take (weightBytes h + tagPlane h))
      let descs := imageDescs image (bits (wd h 1) 23 0)
      if short != 0 && !s.cellar.belowMin && (decide (s.cellar.level < (frameDraw * short : Nat)) || decide (s.now.toNat < s.cellar.peakAt)) then s
      else
        match State.placeWeights part (fun i => weightDesc part slot i (s.expertAmong descs slot i) key) (data.take (weightBytes h)) ((data.drop (weightBytes h)).take (tagPlane h)) n 0
            (s.dropRetained slot) with
        | none => s.finish q tag cOverflow 0 0
        | some (ls, s) =>
          (s.enterPlan slot image ls key).finish q tag cDone
            (w32 (bits (wd h 1) 23 0)) (w32 n))

/-- LOAD_PLAN with ADOPT: the slot's retained weight set becomes the weight image where its key matches and it is whole
(R307). -/
def execLoadPlanAdopt (q tag : Nat) (image : List Byte) (s : State) : Host.Outcome State Fault Refusal :=
  .next (s.onStarted q tag 0x10 (fun t => (t.arg 1).getLsbD 8) fun t =>
    let slot := bits (t.arg 1) 5 0
    let h := bytesWords 80 image
    let n := bits (wd h 5) 23 0
    let key : W64 := t.arg 3 ++ t.arg 2
    let v := s.loadCheck slot image t.bufBytes true
    if v != cDone then s.finish q tag v 0 0
    else match (s.slot slot).retained with
      | none => s.finish q tag cOverflow 0 0
      | some (k, ls) =>
        if k != key || ls.length != n || !((List.range n).all fun i => ls.any fun e => e.1 == i) then
          s.finish q tag cOverflow 0 0
        else
          let hs := (List.range n).map fun i => ((ls.find? fun e => e.1 == i).map (·.2)).getD 0
          let s := s.modSlot slot fun k => { k with retained := none }
          ((s.enterPlan slot image hs key).attention 1 cDone (w32 slot) 1).finish q tag cDone
            (w32 (bits (wd h 1) 23 0)) (w32 n))

/-! ### Unloading (R421) -/

/-- The live streams of a slot. -/
def State.streamsOf (s : State) (slot : Nat) : List Nat :=
  (s.streams.filter fun e => e.2.live && e.2.slot == slot).map (·.1)

/-- Streams whose fork cycle still runs as parents. -/
def State.forking (s : State) : List Nat :=
  (s.cmds.filter fun c => c.origin == .service && c.opc == 0x0D).flatMap fun c => c.shape.rows.map fun i => (s.stream i).parent

/-- An end request's effect on a stream (R194): ENDING set, EPOCH raised, the step abandoned, every open request ended
with STALE_EPOCH but the one that asked. The release follows in an end cycle. -/
def State.endStream (s : State) (i : Nat) (keep : Option Nat) : State :=
  let s := s.modStream i fun e => { e with ending := true, epoch := e.epoch + 1 }
  (s.abandonAll i).endOthers i keep cStale

/-- New weight leaves of a slot that no publish will name are freed, and its steps are no longer ready. -/
def State.dropFresh (s : State) (slot : Nat) : State :=
  let s := (alGet [] slot s.malt.newLeaves).foldl (fun s x => s.freeLeaf x.2) s
  let of_ (n : Nat) : Bool := match s.malt.sets.find? fun e => e.1 == n with
    | some e => bits (wd e.2.entry 0) 8 3 == slot
    | none => false
  { s with malt := { s.malt with newLeaves := alDel slot s.malt.newLeaves,
                                 ready := s.malt.ready.filter fun e => e.1 != slot,
                                 waitingSets := s.malt.waitingSets.filter fun n => !of_ n } }

/-- The scratch reservations of a plan freed: their lines hold no current data (R113, R137). -/
def State.freeScratch (s : State) (p : Plan) : State :=
  { s with sectLines := (List.range 4).foldl (fun ls k =>
      dropLines ls (sectAddr k (p.scratch.getD k 0)) (scratchOf p.header k)) s.sectLines }

/-- The plan, its weight leaves, those not yet published and its retained set released. -/
def State.dropPlan (s : State) (slot : Nat) : State :=
  let ls := ((s.slot slot).plan.map (·.leaves)).getD []
  let s := s.dropFresh slot
  let s := ls.foldl (fun s h => s.drop h) (s.dropRetained slot)
  let s := ((s.slot slot).plan.map s.freeScratch).getD s
  ((s.modSlot slot fun k => { k with plan := none, key := 0 }).attention 1 cDone (w32 slot) 0).recolophon

/-- UNLOAD_PLAN: the slot's streams are ended, a parent of a running fork cycle after that (R327); while one of them or a command of the plan remains the command stays
started, and this row comes again; then the plan is released and the command completes. -/
def execUnloadPlan (q tag : Nat) (s : State) : Host.Outcome State Fault Refusal :=
  .next (s.onStarted q tag 0x11 (fun _ => true) fun t =>
    let slot := bits (t.arg 1) 5 0
    if (s.slot slot).plan.isNone then (s.dropRetained slot).finish q tag cDone 0 0
    else
      let s := ((s.streamsOf slot).filter fun i => !(s.stream i).ending && !s.forking.contains i).foldl (fun s i => s.endStream i none) s
      if (s.streamsOf slot).isEmpty && !(s.cmds.any fun c => c.slot == slot) then
        (s.dropPlan slot).finish q tag cDone 0 0
      else s)

/-- SET_REFRESH: the slot's keyframe refresh (R217), recorded with the command. A refresh slot of another partition is
denied. -/
def execSetRefresh (q tag : Nat) (s : State) : Host.Outcome State Fault Refusal :=
  .next (s.onStarted q tag 0x15 (fun _ => true) fun t =>
    let slot := bits (t.arg 1) 5 0
    let rs := bits (t.arg 1) 13 8
    if bits (t.arg 1) 20 16 != 0 && s.slotPart rs != s.slotPart slot then s.finish q tag cRole 0 0
    else (s.modSlot slot fun k => { k with refreshLog := bits (t.arg 1) 20 16, refreshSlot := rs }).finish q tag cDone 0 0)

end Sys2Proof.Machine
end

