-- ==== Sys2Proof/Machine/Requests.lean ====
section
/-! DEFINITION. Requests: the checks of R313, the records of R312 and their order (R314, R315), the GRIST command (R420),
datagrams and reply contexts (R364 to R367), and the actions on a stream (R194, R327). -/

namespace Sys2Proof.Machine

/-! ### The header of R365 and the checks of R313 -/

/-- The bits of header word i that are fields. -/
def headerFields (i : Nat) : Nat :=
  match i with
  | 0 => 0x7FFFFFF
  | 1 => 0x3FFFFF
  | 2 | 13 => 0xFFFF
  | 4 | 5 => 0xFFFFFF
  | 14 | 15 => 0
  | _ => 0xFFFFFFFF

/-- MAGIC and VERSION. -/
def headerMagic (h : List W32) : Bool := bits (wd h 0) 15 0 == 0x4B47 && bits (wd h 0) 19 16 == 1

/-- KIND is not reserved and every field lies in its range (R313). -/
def headerRange (h : List W32) : Bool :=
  decide (bits (wd h 0) 23 20 ≤ 6) && onlyFields headerFields h && decide ((wd h 7).toNat ≤ 16777216) &&
  (wd h 8).toNat % 64 == 0 && decide (bits (wd h 13) 15 0 ≤ 8960)

/-- Does the request choose a new entry: a start or a fork? -/
def Req.enters (r : Req) : Bool := r.kind == 0 || r.kind == 2

/-- Is a stream-table entry in use or reserved (R192, R327)? -/
def Stream.inUse (e : Stream) : Bool := e.live || e.reserved

/-- The live streams of a section. -/
def State.liveIn (s : State) (sec : Nat) : Nat := (s.streams.filter fun e => e.1 / 16384 == sec && e.2.live).length

/-- The live priority streams of a section (R197). -/
def State.prioIn (s : State) (sec : Nat) : Nat :=
  (s.streams.filter fun e => e.1 / 16384 == sec && e.2.live && e.2.prio).length

/-- The section of R314: the fewest live streams among those where the partition owns a half-section, the lowest on a
tie. -/
def State.anySection (s : State) (part : Nat) : Option Nat :=
  ((List.range 4).filter fun c => s.ownsIn part c).foldl (fun (b : Option Nat) c =>
    match b with
    | none => some c
    | some d => if s.liveIn c < s.liveIn d then some c else some d) none

/-- The lowest free index of a section. -/
def State.freeIndex (s : State) (sec : Nat) : Option Nat :=
  let taken := (s.streams.filter fun e => e.1 / 16384 == sec && e.2.inUse).map fun e => e.1 % 16384
  (List.range (min 16384 (taken.length + 1))).find? fun i => !taken.contains i

/-- The lowest free record of a section. -/
def State.freeRec (s : State) (sec : Nat) : Option Nat :=
  let taken := (s.reqs.filter fun e => e.1 / 4096 == sec && e.2.open_).map fun e => e.1 % 4096
  (List.range (min 4096 (taken.length + 1))).find? fun i => !taken.contains i

/-- The record of a header, with the slot of its stream or parent (R312). -/
def State.headerReq (s : State) (h : List W32) (addr : W32) (ctx : Nat) (started : Option (Nat × Nat)) : Req :=
  let kind := bits (wd h 0) 23 20
  let id := bits (wd h 1) 15 0
  let parent := bits (wd h 2) 15 0
  { open_ := true, kind := kind, prio := (wd h 0).getLsbD 24, anyId := (wd h 0).getLsbD 25,
    slot := if kind = 0 then bits (wd h 1) 21 16 else if kind = 2 then (s.stream parent).slot else (s.stream id).slot,
    stream := id, parent := parent, epoch := wd h 3, steps := bits (wd h 4) 23 0, inputCount := bits (wd h 5) 23 0,
    inputFrames := (wd h 0).getLsbD 26, inputDone := 0, inputAddr := addr, replyCtx := ctx, result := 0,
    dims := (h.drop 9).take 4, queued := s.now.setWidth 32, next := 0xFFFF, admitted := false, started := started }

/-- The stream a request acts on, chosen under R314 where it asks for that; none where no entry is free. -/
def State.reqStream (s : State) (r : Req) : Option Nat :=
  if r.enters && r.anyId then
    match s.slotPart r.slot with
    | none => some r.stream
    | some part =>
      (s.anySection part).bind fun c => (s.freeIndex c).map fun i => 16384 * c + i
  else some r.stream

/-- The state of the named stream or parent bars the request (R313, R327). Reset, end, pause and resume need a live stream
(log 14). -/
def State.reqStale (s : State) (r : Req) : Bool :=
  let e := s.stream r.stream
  let p := s.stream r.parent
  match r.kind with
  | 0 => e.inUse
  | 1 => !e.live || e.epoch != r.epoch
  | 2 => !p.live || p.ending || p.epoch != r.epoch || e.inUse
  | _ => !e.live

/-- The first refusal of R313's table that a request meets, DONE when none; r names its stream. The quire of a start is
asked for when it is admitted. A plan that no longer fits refuses every request but an end (R33). -/
def State.refusal (s : State) (r : Req) : Code :=
  let sec := r.stream / 16384
  let plan := (s.slot r.slot).plan
  if (s.freeRec sec).isNone || decide (8 ≤ (s.openReqs r.stream).length) then cOverflow
  else if r.enters && r.prio && decide (256 ≤ s.prioIn sec) then cOverflow
  else if s.reqStale r then cStale
  else match plan, s.slotPart r.slot with
    | some p, some part =>
      if !s.ownsIn part sec then cRole
      else if (List.range 4).any fun i => decide (p.dimMax (16 + i) < (wd r.dims i).toNat) then cShape
      else if p.unfit != 0 && r.kind != 4 then cOverflow
      else cDone
    | _, _ => cRole

/-- A record put at the end of its stream's open requests: served in arrival order (R315). fuel bounds the chain. -/
def State.linkAt (rec_ : Nat) : Nat → Nat → State → State
  | 0, _, s => s
  | n + 1, k, s =>
    let r := s.req k
    if r.next = 0xFFFF then s.modReq k fun r => { r with next := rec_ } else State.linkAt rec_ n (reqKey (k / 4096) r.next) s

/-- A continue enters its stream's order of service. -/
def State.link (s : State) (i rec_ : Nat) : State :=
  let e := s.stream i
  let head := s.req (reqKey (i / 16384) e.reqIndex)
  if head.open_ && head.stream == i && decide (head.kind ≤ 3) && e.reqIndex != rec_ then
    State.linkAt rec_ 16 (reqKey (i / 16384) e.reqIndex) s
  else s.modStream i fun e => { e with reqIndex := rec_, stepsLeft := 0 }

/-- A request judged, and on acceptance recorded: its code, its stream and the state. The entry of a start or a fork is
set aside at once. -/
def State.submit (s : State) (h : List W32) (addr : W32) (ctx : Nat) (started : Option (Nat × Nat)) :
    Code × Nat × State :=
  let r := s.headerReq h addr ctx started
  if !headerMagic h || !headerRange h then (cAlign, r.stream, s)
  else match s.reqStream r with
    | none => (cOverflow, r.stream, s)
    | some i =>
      let r := { r with stream := i }
      let v := s.refusal r
      if v != cDone then (v, i, s)
      else
        let sec := i / 16384
        let n := (s.freeRec sec).getD 0
        let s := s.setReq (reqKey sec n) r
        let s := if r.enters then s.modStream i fun e => { e with reserved := true } else s
        (cDone, i, if r.kind = 1 then s.link i n else s)

/-- Served requests that ask for nothing more end with DONE, each in turn (R316). fuel bounds the chain. -/
def State.settle : Nat → Nat → State → State
  | 0, _, s => s
  | n + 1, i, s =>
    match s.serving i with
    | none => s
    | some k =>
      if (s.stream i).live && decide ((s.req k).inputCount ≤ (s.req k).inputDone) && (s.stream i).stepsLeft == 0 then
        State.settle n i (s.endReq k cDone [])
      else s

/-- Open requests a stream can have, and one more. -/
def settleFuel : Nat := 9

/-- GRIST: a request without steps or input, treated as R312 to R315 set out; a refused one ends the command at once
(R420). -/
def execGrist (q tag : Nat) (header : List W32) (s : State) : Host.Outcome State Fault Refusal :=
  .next (s.onStarted q tag 0x12 (fun _ => true) fun _ =>
    if bits (wd header 4) 23 0 != 0 || bits (wd header 5) 23 0 != 0 || wd header 7 != 0 || bits (wd header 13) 15 0 != 0 then
      s.finish q tag cAlign 0 0
    else
      let r := s.submit header 0 0xFFFF (some (q, tag))
      if r.1 != cDone then s.finish q tag r.1 0 0 else r.2.2.modStarted q tag fun t => { t with begun := true })

/-! ### Datagrams and reply contexts (R364 to R366) -/

/-- Is a port an edge port that is up (R344)? -/
def State.edgeUp (s : State) (port : Nat) : Bool := bits (s.portWord port) 1 0 == 2 && (s.fport port).state == 2

/-- REQ_UDP_PORT. -/
def State.udpPort (s : State) : Nat := let p := bits (s.sys 0) 31 16; if p = 0 then 47716 else p

/-- A port's own address of a family. -/
def State.portIp (s : State) (port : Nat) (ip6 : Bool) : BitVec 128 :=
  let w (i : Nat) : Nat := (s.modw (16 + 12 * port + i)).toNat
  if ip6 then BitVec.ofNat 128 (w 4 + (w 5 <<< 32) + (w 6 <<< 64) + (w 7 <<< 96)) else BitVec.ofNat 128 (w 3)

/-- A frame that the port takes, untagged (VLAN 0) or with the port's VLAN, with a header that R366 does not call bad. -/
def State.datagramOk (s : State) (port : Nat) (d : Datagram) : Bool :=
  let h := d.words
  d.good && (d.vlan == 0 || d.vlan.toNat == bits (s.portWord port) 23 12) && s.portIp port d.ip6 != 0 && d.dstIp == s.portIp port d.ip6 &&
  d.dstPort.toNat == s.udpPort && headerMagic h && bits (wd h 13) 15 0 == d.data.length &&
  decide ((wd h 8).toNat + d.data.length ≤ (wd h 7).toNat)

/-- Does a datagram's piece of input lie as R365 asks: OFFSET a multiple of 64, at most 8 960 bytes, a multiple of 64 unless
they end the input? -/
def pieceOk (d : Datagram) : Bool :=
  (wd d.words 8).toNat % 64 == 0 && decide (d.data.length ≤ 8960) &&
  (d.data.length % 64 == 0 || (wd d.words 8).toNat + d.data.length == (wd d.words 7).toNat)

/-- Base of the input area in the module tables, 64 MiB long (log 25). -/
def inputBase : Nat := 0x2B4000000

/-- The ranges of the input area in use: start and length. -/
def State.inputUsed (s : State) : List (Nat × Nat) :=
  (s.fabric.ctxs.filter fun c => wd c.header 7 != 0).map fun c => (c.area, ((wd c.header 7).toNat + 255) / 256 * 256)

/-- How far from 0 the ranges received reach without a gap. fuel bounds the ranges. -/
def reach (got : List (Nat × Nat)) : Nat → Nat → Nat
  | 0, p => p
  | n + 1, p =>
    match got.find? fun g => decide (g.1 ≤ p) && decide (p < g.1 + g.2) with
    | some g => reach got n (g.1 + g.2)
    | none => p

/-- A context changed. -/
def State.modCtx (s : State) (port id : Nat) (f : Ctxt → Ctxt) : State :=
  s.modFabric fun x => { x with ctxs := x.ctxs.map fun c => if c.port == port && c.id == id then f c else c }

/-- A final reply of a context with a code, for a request that no record holds. -/
def State.replyCode (s : State) (c : Ctxt) (stream : Nat) (code : Code) : State :=
  (s.sendReply c stream (s.stream stream) code true []).modCtx c.port c.id fun c => { c with done := true }

/-- A datagram's input written, and the request passed on once it is whole. -/
def State.takeInput (s : State) (c : Ctxt) (d : Datagram) : State :=
  let off := (wd d.words 8).toNat
  let total := (wd c.header 7).toNat
  if total < off + d.data.length || !pieceOk d then s.dropAt c.port else
  let got := c.got ++ [(off, d.data.length)]
  let s := { s with caskRaw := s.caskRaw.write (inputBase + c.area + off) d.data }
  let s := s.modCtx c.port c.id fun c => { c with got := got }
  if reach got (got.length + 1) 0 < total then s
  else
    let s := s.modCtx c.port c.id fun c => { c with passed := true }
    let r := s.submit c.header (w32 ((inputBase + c.area) / 256)) (4096 * c.port + c.id) none
    if r.1 != cDone then s.replyCode c r.2.1 r.1 else r.2.2

/-- A context for a datagram's request, with a number and a place for its input. -/
def newCtx (port id area : Nat) (d : Datagram) : Ctxt :=
  { id := id, port := port, ip6 := d.ip6, ip := d.srcIp, udp := d.srcPort, mac := d.srcMac, vlan := d.vlan,
    reqTag := wd d.words 6, header := d.words, got := [], area := area, passed := false, done := false }

/-- The context of a datagram: the same port, source address, source UDP port and REQ_TAG (R366). -/
def State.ctxFor (s : State) (port : Nat) (d : Datagram) : Option Ctxt :=
  s.fabric.ctxs.find? fun c => c.port == port && c.ip6 == d.ip6 && c.ip == d.srcIp && c.udp == d.srcPort &&
    c.reqTag == wd d.words 6

/-- A context opened by the first datagram of a request; without a free context or room for its input, or with a field out
of range, the request ends in a reply sent without a context. -/
def State.openCtx (s : State) (port : Nat) (d : Datagram) : State :=
  let ids := (s.fabric.ctxs.filter fun c => c.port == port).map (·.id)
  let lone (code : Code) : State :=
    s.sendReply (newCtx port 0 0 d) (bits (wd d.words 1) 15 0) (s.stream (bits (wd d.words 1) 15 0)) code true []
  if !headerRange d.words || !pieceOk d then lone cAlign
  else match (List.range (min 4096 (ids.length + 1))).find? fun i => !ids.contains i,
      firstFit s.inputUsed (((wd d.words 7).toNat + 255) / 256 * 256) 0x4000000 with
    | some id, some area =>
      let c := newCtx port id area d
      (s.modFabric fun f => { f with ctxs := f.ctxs ++ [c] }).takeInput c d
    | _, _ => lone cOverflow

/-- REQUEST_DATAGRAM: a datagram outside R364 or with a bad header is dropped and counted, and so is one whose request has
been passed on. -/
def execRequestDatagram (port : Nat) (dgram : Datagram) (s : State) : Host.Outcome State Fault Refusal :=
  .next (if !s.edgeUp port then s
    else if !s.datagramOk port dgram then s.dropAt port
    else match s.ctxFor port dgram with
      | some c => if c.passed || c.done then s.dropAt port else s.takeInput c dgram
      | none => s.openCtx port dgram)

/-- 100 ms after its first datagram a request still incomplete ends with OPERAND_ALIGN. -/
def execRequestAssemblyTimeout (port ctx : Nat) (s : State) : Host.Outcome State Fault Refusal :=
  .next (match s.ctx? port ctx with
    | some c => if c.passed || c.done then s else s.replyCode c (bits (wd c.header 1) 15 0) cAlign
    | none => s)

/-- A context is freed 1 s after its final reply. -/
def execReplyContextExpiry (port ctx : Nat) (s : State) : Host.Outcome State Fault Refusal :=
  .next (match s.ctx? port ctx with
    | some c => if c.done then s.modFabric fun f => { f with ctxs := f.ctxs.filter fun x => !(x.port == port && x.id == ctx) }
                else s
    | none => s)

/-- An ARP request or neighbour solicitation for the port's own address is answered; another is dropped and counted. -/
def execNeighbourRequest (port : Nat) (ip6 : Bool) (target : BitVec 128) (s : State) : Host.Outcome State Fault Refusal :=
  .next (if !s.edgeUp port then s
    else if s.portIp port ip6 != 0 && target == s.portIp port ip6 then s.emit (.neighbour port ip6 target)
    else s.dropAt port)

/-! ### Actions on a stream (R194) -/

/-- The reservation of an entry given up: it is free again, with its EPOCH (R192). -/
def State.unreserve (s : State) (i : Nat) : State := s.setStream i (Stream.free (s.stream i).epoch)

/-- A spine root and a state leaf taken from a new quire: the root of FORMAT 4 with CHAINS and KV_FMT of the plan header and
the 14 unused handles, the state leaf of FORMAT 6 that names no page (R154, R194, R201). -/
def State.rootLeaves (s : State) (p : Plan) (root st : Handle) (rest : List Handle) : State :=
  let own (e : Leaf) : Leaf := { e with ref := 1, pending := false, dirty := true }
  let s := ((s.dress root 4).modLeaf root own).dress st 6
  let s := (s.modLeaf st own).patchCask root fun b => b.putWord 0x0 (p.chains + (if p.kv8 then 2048 else 0))
  s.setQuire root rest

/-- A record becomes the one its stream is served for. -/
def State.serve (s : State) (i k : Nat) : State :=
  let r := s.req k
  (s.modStream i fun e => { e with reqIndex := k % 4096, stepsLeft := r.steps }).modReq k
    fun r => { r with admitted := true, queued := s.now.setWidth 32 }

/-- REQUEST_ADMIT: a quire taken, the entry filled, EPOCH raised; without a quire the request ends with LEAF_EXHAUSTED. -/
def State.admitReq (s : State) (k : Nat) : State :=
  let r := s.req k
  let i := r.stream
  match (s.slot r.slot).plan, s.slotPart r.slot with
  | some p, some part =>
    match s.newQuire part with
    | some (root :: st :: rest, s) =>
      let e := Stream.free ((s.stream i).epoch + 1)
      let s := (s.rootLeaves p root st rest).setStream i { e with
        partition := part, slot := r.slot, prio := r.prio, live := true, resident := true, stateLeaf := st,
        spineRoot := root }
      State.settle settleFuel i ((s.serve i k).retier i)
    | _ => (s.unreserve i).endReq k cExhausted []
  | _, _ => (s.unreserve i).endReq k cRole []

/-- A row of a request acts where its record is open, of its kind, and not yet acted on. -/
def State.onReq (s : State) (sec rec_ kind : Nat) (f : Nat → State) : State :=
  let k := reqKey sec rec_
  if (s.req k).open_ && (s.req k).kind == kind && !(s.req k).admitted then f k else s

def execRequestAdmit (sec rec : Nat) (s : State) : Host.Outcome State Fault Refusal := .next (s.onReq sec rec 0 s.admitReq)

/-- A request of a live stream; of another it ends with STALE_EPOCH. -/
def State.ifLive (s : State) (k : Nat) (f : Nat → State) : State :=
  let i := (s.req k).stream
  if (s.stream i).live then f i else s.endReq k cStale []

/-- REQUEST_CONTINUE: its input and steps become the stream's items when its turn comes (R315, R316). -/
def State.continueReq (s : State) (k : Nat) : State :=
  s.ifLive k fun i =>
    let s := if (s.stream i).reqIndex = k % 4096 then s.serve i k else s.modReq k fun r => { r with admitted := true }
    State.settle settleFuel i s

def execRequestContinue (sec rec : Nat) (s : State) : Host.Outcome State Fault Refusal :=
  .next (s.onReq sec rec 1 s.continueReq)

/-- REQUEST_FORK: the child's entry is reserved and the fork waits for a fork cycle (R327). -/
def State.queueFork (s : State) (k : Nat) : State :=
  let r := s.req k
  let p := s.stream r.parent
  let e := Stream.free (s.stream r.stream).epoch
  (s.setStream r.stream { e with
    reserved := true, partition := p.partition, slot := p.slot, prio := r.prio, parent := r.parent }).modReq k
    fun r => { r with admitted := true, queued := s.now.setWidth 32 }

def execRequestFork (sec rec : Nat) (s : State) : Host.Outcome State Fault Refusal := .next (s.onReq sec rec 2 s.queueFork)

/-- REQUEST_RESET: RESET set and EPOCH raised at once, the open step abandoned, every other open request ended with
STALE_EPOCH; the record's own input and steps then are the stream's open request (R194, R315). -/
def State.resetReq (s : State) (k : Nat) : State :=
  s.ifLive k fun i =>
    let s := (s.modStream i fun e => { e with reset := true, epoch := e.epoch + 1 }).abandonAll i
    State.settle settleFuel i ((s.endOthers i (some k) cStale).serve i k)

def execRequestReset (sec rec : Nat) (s : State) : Host.Outcome State Fault Refusal := .next (s.onReq sec rec 3 s.resetReq)

/-- REQUEST_END: ENDING set and EPOCH raised; the release follows in an end cycle. While a fork cycle of the stream runs it waits,
and this row comes again (R327). -/
def State.endReqStream (s : State) (k : Nat) : State :=
  s.ifLive k fun i =>
    if s.forking.contains i then s else (s.endStream i (some k)).modReq k fun r => { r with admitted := true }

def execRequestEnd (sec rec : Nat) (s : State) : Host.Outcome State Fault Refusal :=
  .next (s.onReq sec rec 4 s.endReqStream)

/-- A pause takes effect: PAUSE set, the step not closed abandoned, the request of the pause ended. -/
def State.pauseNow (s : State) (k : Nat) : State :=
  let i := (s.req k).stream
  (((s.modStream i fun e => { e with pause := true, pauseCause := 0 }).abandonAll i).retier i).endReq k cDone []

/-- A resume takes effect: PAUSE, PAUSE_CAUSE and EXH_COUNT cleared. -/
def State.resumeNow (s : State) (k : Nat) : State :=
  let i := (s.req k).stream
  ((s.modStream i fun e => { e with pause := false, pauseCause := 0, exh := 0 }).retier i).endReq k cDone []

/-- Pauses and resumes that wait for the end of the partition's cycle, those of the module first (R194). -/
def State.deferred (s : State) (part : Nat) : State :=
  let s := s.streams.foldl (fun s e =>
    match e.2.pauseNext with
    | some c => if e.2.partition = part then s.pauseStream e.1 c else s
    | none => s) s
  ((s.reqs.filter fun e => e.2.open_ && e.2.admitted && decide (5 ≤ e.2.kind) &&
      (s.stream e.2.stream).partition == part).map (·.1)).foldl (fun s k =>
    if (s.req k).kind = 5 then s.pauseNow k else s.resumeNow k) s

/-- A pause or resume waits for the end of the running cycle; a GRIST command that carried it completes on arrival
(R419). -/
def State.deferReq (s : State) (k i : Nat) : State :=
  let r := s.req k
  let s := s.setReq k { r with admitted := true, started := none }
  match r.started with
  | some (q, tag) => s.finish q tag cDone (w32 i) (s.stream i).epoch
  | none => s

/-- REQUEST_PAUSE: at the end of the partition's running grist cycle, at once when none runs. -/
def State.pauseReq (s : State) (k : Nat) : State :=
  s.ifLive k fun i =>
    if (s.part (s.stream i).partition).cycle.isSome then s.deferReq k i else s.pauseNow k

def execRequestPause (sec rec : Nat) (s : State) : Host.Outcome State Fault Refusal := .next (s.onReq sec rec 5 s.pauseReq)

/-- REQUEST_RESUME: for the next grist cycle. -/
def State.resumeReq (s : State) (k : Nat) : State :=
  s.ifLive k fun i =>
    if (s.part (s.stream i).partition).cycle.isSome then s.deferReq k i else s.resumeNow k

def execRequestResume (sec rec : Nat) (s : State) : Host.Outcome State Fault Refusal := .next (s.onReq sec rec 6 s.resumeReq)

end Sys2Proof.Machine
end

