-- ==== Sys2Proof/Machine/Issue.lean ====
section
/-! DEFINITION. The issue of a plan command: the checks at the head of the queue (R33, R129, R193), the serial number and
the seeding (R55, R56), ready tags (R537), pins (R159, R277), resources (R135), the undoing of a kill (R22), the completion
record (R141), and what an end without commit does to the command's runs (R131, R136, R170, R176, R199, R300, R362). -/

namespace Sys2Proof.Machine

/-! ### Commands -/

/-- The command of a number. -/
def State.cmd? (s : State) (id : Nat) : Option Cmd := s.cmds.find? fun c => c.id == id

/-- A command changed in its place. -/
def State.setCmd (s : State) (c : Cmd) : State := { s with cmds := s.cmds.map fun x => if x.id == c.id then c else x }

/-- A command removed. -/
def State.dropCmd (s : State) (id : Nat) : State := { s with cmds := s.cmds.filter fun c => c.id != id }

/-- The home section of a command (R125). -/
def Cmd.home (c : Cmd) : Nat := bits (wd c.words 3) 17 12 / 16

/-- The wave a command belongs to. -/
def State.waveOf (s : State) (c : Cmd) : Option Wave :=
  match c.origin with
  | .wave true => (s.part c.part).prio
  | .wave false => (s.part c.part).bulk
  | _ => none

/-- A run of a command as its wave has it now; a run its wave no longer has is void. -/
def State.runNow (s : State) (c : Cmd) (u : WaveRun) : WaveRun :=
  match (s.waveOf c).bind fun w => w.runs.find? fun v => v.stream == u.stream with
  | some v => v
  | none => { u with void := true }

/-- Is a run's item stale: the comparison is made before the item's first command, and again by a rerun (R193)? -/
def State.staleRun (s : State) (c : Cmd) (v : WaveRun) : Bool :=
  (!v.begun || c.rerun) && v.epoch != (s.stream v.stream).epoch

/-- May a run's rows issue? -/
def State.liveRun (s : State) (c : Cmd) (u : WaveRun) : Bool :=
  let v := s.runNow c u
  !v.void && !s.staleRun c v

/-- The shape table of a command without the runs that may not issue. -/
def State.shapeOf (s : State) (c : Cmd) : Shape :=
  { c.shape with
    runs := c.shape.runs.filter fun r => !(c.runs.any fun u => u.run.rowFirst == r.rowFirst && !s.liveRun c u) }

/-- The runs of a command with a row in it. -/
def State.rowRuns (s : State) (c : Cmd) : List WaveRun :=
  let m := dimOf c.shape (bits (wd c.words 1) 15 0)
  c.runs.filter fun u => decide (u.run.rowFirst < m) && s.liveRun c u

/-! ### Ranges (R119, R121, R537) -/

/-- The bytes an operand takes: how many batch elements, bytes of data and bytes of scales in each, and of how many rows of the
command they are, 0 for an operand that has no rows of it. -/
structure Ext where
  o : Opd
  n : Nat
  len : Nat
  scl : Nat
  rows : Nat
  deriving DecidableEq, Repr

/-- Start and length of each range. -/
def Ext.ranges (e : Ext) : List (Nat × Nat) :=
  (List.range e.n).flatMap fun i =>
    (if e.len = 0 then [] else [(e.o.addr + i * e.o.stride, e.len)]) ++
    (if e.o.scl = 0 || e.scl = 0 then [] else [(e.o.addr + i * e.o.stride + e.o.sclOff, e.scl)])

/-- What of an extent in STREAM space lies in the object of a run's stream: its rows alone (R119). -/
def Ext.ofRun (e : Ext) (u : Run) : Ext :=
  if e.rows = 0 then e
  else
    let n := min u.rowCount (e.rows - u.rowFirst)
    { e with len := e.len / e.rows * n, scl := e.scl / e.rows * n, rows := n }

/-- The ranges of an extent in STREAM space, each with its stream. -/
def Ext.streamRanges (e : Ext) (sh : Shape) : List (Nat × Nat × Nat) :=
  sh.runs.flatMap fun u => (e.ofRun u).ranges.map fun g => (sh.streamOf u.rowFirst, g)

/-- A range of one thing that a flip makes ready: kind 0 a core's store, 1 a section's scratch, 2 a weight image, 3 an output area, 4 a chain of
a history by position, 5 a state leaf. -/
structure Span where
  kind : Nat
  obj : Nat
  lo : Nat
  hi : Nat
  deriving DecidableEq, Repr

/-- Do two spans share a part? -/
def Span.meets (a b : Span) : Bool := a.kind == b.kind && a.obj == b.obj && decide (a.lo < b.hi) && decide (b.lo < a.hi)

/-- The streams of a shape's runs. -/
def Shape.streams (sh : Shape) : List Nat := sh.runs.map fun u => sh.streamOf u.rowFirst

/-- The sections of a list of cores. -/
def secsOf (cores : List Nat) : List Nat := (cores.map (· / 16)).eraseDups

/-- The spans of an extent. -/
def Res.spans (r : Res) (cores : List Nat) (e : Ext) : List Span :=
  match e.o.space with
  | 0 => e.ranges.flatMap fun g => cores.map fun k => ⟨0, k, g.1, g.1 + g.2⟩
  | 1 => e.ranges.flatMap fun g => (secsOf cores).map fun k =>
      ⟨1, k, r.scratch.getD k 0 + g.1, r.scratch.getD k 0 + g.1 + g.2⟩
  | 2 => e.ranges.map fun g => ⟨2, r.slot, g.1, g.1 + g.2⟩
  | _ => (e.streamRanges r.shape).map fun g => ⟨3, g.1, g.2.1, g.2.1 + g.2.2⟩

/-- The end of the core-store region an offset lies in (R120); a region that commands may not name ends before it starts. -/
def regionEnd (a : Nat) : Nat :=
  if a < 0x100000 then 0x100000 else if a < 0x340000 then 0 else if a < 0x440000 then 0x440000
  else if a < 0x5C0000 then 0x5C0000 else 0

/-- OUT_LEAVES of the plan header of a stream's slot (R220). -/
def State.outLeavesOf (s : State) (i : Nat) : Nat := ((s.slot (s.stream i).slot).plan.map (·.outLeaves)).getD 0

/-- Does an extent leave what its space holds (R119, R135, R220)? -/
def State.extOver (s : State) (r : Res) (cores : List Nat) (e : Ext) : Bool :=
  let p := (s.slot r.slot).plan
  match e.o.space with
  | 0 => e.ranges.any fun g => decide (regionEnd g.1 < g.1 + g.2)
  | 1 => e.ranges.any fun g => (secsOf cores).any fun k =>
      decide (((p.map fun p => bits (wd p.header 4) (8 * k + 7) (8 * k)).getD 0) * 0x100000 < g.1 + g.2)
  | 2 => e.ranges.any fun g => decide ((p.map (·.weightBytes)).getD 0 < g.1 + g.2)
  | _ => (e.streamRanges r.shape).any fun g => decide (65536 * s.outLeavesOf g.1 < g.2.1 + g.2.2)

/-- The leaves an extent reads (R159). -/
def State.extLeaves (s : State) (r : Res) (e : Ext) : List Handle :=
  let idx (g : Nat × Nat) : List Nat := (List.range ((g.1 + g.2 + 65535) / 65536 - g.1 / 65536)).map (g.1 / 65536 + ·)
  match e.o.space with
  | 2 => (e.ranges.flatMap idx).map fun k =>
      ((s.slot r.slot).plan.map fun p => p.leaves.getD k Config.nullHandle).getD Config.nullHandle
  | 3 => (e.streamRanges r.shape).flatMap fun g =>
      let root := (s.stream g.1).spineRoot
      root :: (idx g.2).map fun k => (s.content root).word (outOff k)
  | _ => []

/-! ### The work of a command -/

/-- What an opcode asks of an issue: the code that refuses it before any read, whether it has nothing to do (R130), what it
reads, which of that must be ready before the command issues (R244), what it writes, further spans read, further leaves pinned, which core reads which leaf where not every core reads every
one (R285), leaves that must be in the cask first, whether parcels are still missing, a fault found, whether scale and data
tags disagree (R143), bytes staged in the activation buffer and counted working bytes in the vector scratch by core (R135), cores whose vector
scratch holds other working data (R184), the
computation of each core, the array passes of each core, the row applications of a command of the vector unit, and the
parcels it takes. -/
structure Work where
  refuse : Code := cDone
  empty : Bool := false
  reads : List Ext := []
  first : List Ext := []
  writes : List Ext := []
  rspans : List Span := []
  pins : List Handle := []
  readers : List (Handle × Nat) := []
  promote : List Handle := []
  missing : Bool := false
  fault : Code := cDone
  skewed : Bool := false
  staged : List (Nat × Nat) := []
  vec : List (Nat × Nat) := []
  uses : List Nat := []
  spill : List (Nat × Nat) := []
  body : List (Nat × Cm (List Eff)) := []
  order : List (Nat × List Pass) := []
  passes : Nat := 0
  consumed : List Nat := []

/-- The leaves of block-scaled operands: of weights, and of the histories a command reads. -/
def Work.scaled (w : Work) (s : State) (r : Res) : List Handle :=
  (w.reads.filter fun e => e.o.scl != 0).flatMap (s.extLeaves r) ++
    w.pins.filter fun h => (s.leaf h).format == 1 && (s.leaf h).ref != 0

/-- The number by which a span names a chain of a stream's history. -/
def histObj (stream chain : Nat) : Nat := 0x10000 * chain + stream

/-- The chains and positions a history destination writes (R163). -/
def Res.histSpans (r : Res) (cols : Nat) : List Span :=
  let d := wd r.words 9
  let per := cols / 128
  r.shape.runs.flatMap fun u => (List.range r.b).flatMap fun b => (List.range per).map fun i =>
    ⟨4, histObj (r.shape.streamOf u.rowFirst) (bits d 9 0 + b * (wd r.words 12).toNat + i), u.qPos0, u.qPos0 + u.rowCount⟩

/-- Does the destination name a history? -/
def Res.toHistory (r : Res) : Bool := r.d.space == 3 && streamObj (wd r.words 9) == 1

/-- The destination's extent for rows of cols elements, none for a history. -/
def Res.destExt (r : Res) (cols : Nat) : List Ext :=
  if r.toHistory then [] else [⟨r.d, r.b, r.m * rowBytes cols (elemBits r.d.fmt), 0, r.m⟩]

/-- The destination's spans. -/
def Res.destSpans (r : Res) (cols : Nat) : List Span := if r.toHistory then r.histSpans cols else []

/-- A history destination's rules that are judged at issue (R163). -/
def State.histRefused (s : State) (r : Res) (cols : Nat) : Bool :=
  r.toHistory && (cols % 128 != 0 || (r.histSpans cols).any fun sp =>
    let i := sp.obj % 0x10000
    let root := (s.stream i).spineRoot
    decide (s.rootChains root ≤ sp.obj / 0x10000) || decide (sp.lo < (s.stream i).position) ||
    s.rootKv8 root != (r.pack == 2))

/-- The spans a placed or issued command of the same plan has pending (R537): those of its destination and of its index
destination. -/
def State.pendingOf (s : State) (c : Cmd) : List Span :=
  let r := resolve s c.slot c.words (s.shapeOf c) c.plain
  let n2 := if c.opc = 2 then dimOf c.shape (bits (wd c.words 13) 31 16) else r.n
  let cols := match c.opc with
    | 3 => 128 * bits (wd c.words 13) 7 0
    | _ => n2
  let rows (m : Nat) : List Ext :=
    if r.toHistory then [] else [⟨r.d, r.b, m * rowBytes cols (elemBits r.d.fmt), 0, r.m⟩]
  match c.opc with
  | 4 => (rows r.m).flatMap (r.spans c.cores) ++ r.shape.streams.map fun i => ⟨5, i, 0, 1⟩
  | 5 | 6 =>
    let out : Ext := ⟨r.d, r.b, 0x10000000, 0, 0⟩
    r.spans c.cores out
  | 0x0A => r.spans c.cores ⟨{ r.d with addr := r.d.addr + r.idxOff }, r.b, 128 * r.m, 0, r.m⟩
  | 0x0B | 0x0D | 0x0E | 0x0F | 0x10 => []
  | _ => (rows r.m).flatMap (r.spans c.cores) ++ (if r.toHistory then r.histSpans cols else []) ++
      (if c.opc = 7 || (c.opc = 0x0C && !(wd c.words 13).getLsbD 8) then
        r.spans c.cores ⟨{ r.d with addr := r.d.addr + r.idxOff }, r.b, max (r.m * rowBytes r.n 32) (16 * r.m), 0, 0⟩ else [])

/-- Is a command of the wave whose grist cycle runs, or of no wave? A command placed again of a suspended wave waits for its
resume (R329). -/
def State.runsNow (s : State) (c : Cmd) : Bool :=
  match c.origin with
  | .wave prio => ((s.part c.part).cycle.map (·.prio)) == some prio
  | _ => true

/-- The commands of the same plan placed before a command and not yet committed. -/
def State.before (s : State) (c : Cmd) : List Cmd :=
  (s.cmds.takeWhile fun x => x.id != c.id).filter fun x =>
    x.slot == c.slot && x.part == c.part && (x.phase != .placed || s.runsNow x)

/-- Does a read overlap a pending line? -/
def State.blocked (s : State) (c : Cmd) (r : Res) (w : Work) : Bool :=
  let mine := w.rspans ++ w.reads.flatMap (r.spans c.cores)
  !mine.isEmpty && (s.before c).any fun x => (s.pendingOf x).any fun p => mine.any fun q => p.meets q

/-! ### Resources (R134, R135, R137) -/

/-- The line numbers that an effect writes in the core stores, or in the section stores. -/
def Eff.lines (core : Bool) (e : Eff) : List Nat :=
  let of_ (l : Loc) (a n : Nat) : List Nat :=
    match l, core with
    | .core c, true => addLines [] (coreAddr c a) n
    | .sect k, false => addLines [] (sectAddr k a) n
    | _, _ => []
  match e with
  | .bytes l a bs => of_ l a bs.length
  | .nibble l a _ _ => of_ l a 1
  | _ => []

/-- The lines that effects write in the core or section stores, each once. -/
def effLines (core : Bool) (es : List Eff) : List Nat := (es.flatMap (Eff.lines core)).eraseDups

/-- The other commands that have issued and not committed, whose shadow lines stay reserved (R137, R139). -/
def State.uncommitted (s : State) (c : Cmd) : List Cmd := s.cmds.filter fun x => x.id != c.id && x.phase != .placed

/-- 64-byte lines that a region of n bytes from a of the core or section stores holds: shadow lines of a command's effects
and of the other uncommitted commands, then current lines too. -/
def State.linesHeld (s : State) (core : Bool) (c : Cmd) (es : List Eff) (a n : Nat) : Nat × Nat :=
  let others := (s.uncommitted c).foldl (fun t x => t + (linesIn (effLines core x.effs) a n).length) 0
  let shadow := (linesIn (effLines core es) a n).length + others
  (shadow, shadow + (linesIn (if core then s.coreLines else s.sectLines) a n).length)

/-- Does a core's region of n bytes from off lack room for work bytes and the lines it holds? A command that asks nothing of the
region does not fault. counts tells that current lines stand in the counter of R135 beside the rest; shadow lines are in any
case taken from the region's free lines (R137). -/
def State.regionOver (s : State) (c : Cmd) (core off n work : Nat) (counts : Bool) (es : List Eff) : Bool :=
  let l := s.linesHeld true c es (coreAddr core off) n
  let mine := (linesIn (effLines true es) (coreAddr core off) n).length
  (work != 0 || mine != 0) &&
  (decide (n < work + 64 * (if counts then l.2 else l.1)) || (mine != 0 && decide (n < 64 * l.2)))

/-- The bytes that a list by core or section gives one of them. -/
def bytesOf (l : List (Nat × Nat)) (k : Nat) : Nat := ((l.filter fun e => e.1 == k).map (·.2)).foldl (· + ·) 0

/-- Does a core's counter pass its limit (R135): the activation buffer, the vector scratch, the stream-state cache, or the
uncommitted parcel queue? -/
def State.coreOver (s : State) (c : Cmd) (staged vec core : Nat) (es : List Eff) : Bool :=
  s.regionOver c core 0 0x100000 staged true es || s.regionOver c core 0x340000 0x100000 vec false es ||
  s.regionOver c core 0x440000 0x180000 0 false es ||
  decide (4096 < (es.filter fun e => match e with
    | .send _ => true
    | _ => false).length)

/-- Does a section's reservation of the plan lack room for the spills and the SECTION-space lines of a command: beside them
it holds current lines, and the shadow lines and spills of the plan's other uncommitted commands (R134, R135)? -/
def State.sectOver (s : State) (c : Cmd) (r : Res) (spill : List (Nat × Nat)) (es : List Eff) : Bool :=
  let p := (s.slot r.slot).plan
  (List.range 4).any fun k =>
    let size := ((p.map fun p => bits (wd p.header 4) (8 * k + 7) (8 * k)).getD 0) * 0x100000
    let base := sectAddr k (r.scratch.getD k 0)
    let mine := bytesOf spill k + 64 * (linesIn (effLines false es) base size).length
    let others := ((s.uncommitted c).filter fun x => x.slot == c.slot).foldl (fun t x => t + bytesOf x.spill k) 0
    mine != 0 && decide (size < bytesOf spill k + others + 64 * (s.linesHeld false c es base size).2)

/-! ### The completion record (R141) -/

/-- The words of a completion record; refused tells that no serial number was taken. arr is the time in ARR cycles. -/
def recordWords (c : Cmd) (code : Code) (arr : Nat) (refused : Bool) : List W32 :=
  let b (p : Bool) (i : Nat) : Nat := if p && code == cDone then 1 <<< i else 0
  let a (p : Bool) (i : Nat) : Nat := if p then 1 <<< i else 0
  let serial := if refused then 0 else c.serial.toNat
  [w32 (code.toNat + b c.infSeen 12 + b c.nanSeen 13 + b c.outSat 14 + b c.empty 15 + a c.rerun 16 + a c.plain 17 +
     (c.opc <<< 24)),
   w32 (c.desc + (c.slot <<< 24)), w32 (serial % 0x100000000),
   w32 (serial / 0x100000000 + (min 0xFFFF (arr / 16) <<< 16))]

/-- A completion record written to the home section's log. -/
def State.logEnd (s : State) (c : Cmd) (code : Code) (arr : Nat) (refused : Bool) : State :=
  { s with logs := modAt s.logs c.home fun l => l ++ [recordWords c code arr refused] }

/-! ### A kill (R22) -/

/-- Pins released. -/
def State.unpinAll (s : State) (hs : List Handle) : State := hs.foldl (fun s h => s.unpin h) s

/-- Parcels taken by a command left in the receive area again. -/
def State.untake (s : State) (id : Nat) : State :=
  s.modFabric fun f => { f with rx := f.rx.map fun r => if r.takenBy == some id then { r with takenBy := none } else r }

/-- A killed command as if it had not been issued: its arrays stopped where its slices still run, its leaves and pins given
back, its parcels left (R22, R90). -/
def State.undo (s : State) (c : Cmd) : State :=
  let s := if c.phase == .issued then c.cores.foldl (fun s k => s.stopArray c k) s else s
  (((s.unpinAll c.pins).giveBackAll c.taken).dropGrants c.shape.rows).untake c.id

/-- The issue cleared from a command: it is placed again. -/
def Cmd.fresh (c : Cmd) : Cmd :=
  { c with phase := .placed, passes := 0, order := [], sums := [], spill := [], infSeen := false, nanSeen := false, outSat := false, empty := false,
           skewed := false, effs := [], pins := [], taken := [], consumed := [], waits := [], starved := false, scaled := [] }

/-- The ARR time of a kill whose moment the command does not name: a free value, a new one each time. -/
def State.killed (s : State) : Nat × State := (Config.killTime s.draws, { s with draws := s.draws + 1 })

/-- The plan's attention subject: slot and descriptor. -/
def Cmd.subject (c : Cmd) : W32 := w32 (c.desc + (c.slot <<< 24))

/-- A killed command undone, with its completion record and its errata record; a command that is rerun raises no attention (R428,
R470, log 171). -/
def State.logKill (s : State) (c : Cmd) (code : Code) (arr : Nat) : State :=
  ((s.undo c).logEnd c code arr false).log code c.subject 0

/-- A command killed and placed again, in its place or after the others. -/
def State.requeue (s : State) (c : Cmd) (code : Code) (arr : Nat) (last : Bool) (next : Cmd) : State :=
  let s := s.logKill c code arr
  if last then { s with cmds := (s.cmds.filter fun x => x.id != c.id) ++ [next] } else s.setCmd next

/-- A command killed at a moment that it does not name and placed again in its place, to be rerun (R22). -/
def State.killRerun (s : State) (c : Cmd) (code : Code) : State :=
  let t := s.killed
  t.2.requeue c code (if c.phase == .held then c.arr else t.1) false { c.fresh with rerun := true }

/-! ### Ends without commit -/

/-- The expert-loss parameter (R280). -/
def State.expertLoss (s : State) : Bool := (s.sys 6).getLsbD 15

/-- A training wave abandoned with a code (R377): every run void. -/
def State.failTrain (s : State) (c : Cmd) (code : Code) : State :=
  s.modPart c.part fun p => { p with bulk := p.bulk.map fun w =>
    { w with code := if w.code = cDone then code else w.code, runs := w.runs.map fun (u : WaveRun) => { u with void := true } } }

/-- What a command's end with a code does to one of its runs: noExpert tells that a lost leaf names no expert. -/
def State.endRun (s : State) (c : Cmd) (code : Code) (noExpert : Bool) (u : WaveRun) : State :=
  let i := u.stream
  let fate (s : State) (k : Code) : State :=
    match u.req with
    | some q => s.endReq (reqKey q.1 q.2) k []
    | none => s
  if u.kind == .train then s.failTrain c code
  else if code = cShape || code = cOverflow then fate (s.abandon i) code
  else if code = cExhausted then
    let s := (s.abandon i).modStream i fun e => { e with exh := min 8 (e.exh + 1) }
    if (s.stream i).exh = 8 then
      (fate (s.modulePause i cExhausted) cPaused).attention 3 cPaused (w32 i) 0
    else s
  else if code = cPoisoned then ((fate (s.modulePause i cPoisoned) code).log code (w32 i) 0).attention 3 code (w32 i) 0
  else if code = cWeightLost then
    let s := s.abandon i
    if s.expertLoss || noExpert then fate s code else s
  else s.abandon i

/-- The class an end with a code raises once for the command, if any (R131, R136, R300, R362). -/
def endClass (code : Code) : Option Nat :=
  if code = cShape || code = cOverflow then some 6
  else if code = cWeightLost || code = cPartner then some 2 else none

/-- Placed commands of a partition whose every run is void issue no further. -/
def State.dropVoid (s : State) : State :=
  { s with cmds := s.cmds.filter fun c =>
      !(c.phase == .placed && !c.runs.isEmpty && c.runs.all fun u => (s.runNow c u).void) }

/-- A plain rerun's end: the command that ordered it completes with the record's words 0 and 1 (R424). -/
def State.endRerun (s : State) (c : Cmd) (code : Code) (arr : Nat) (refused : Bool) : State :=
  match c.origin with
  | .plainRerun q tag =>
    let ws := recordWords c code arr refused
    s.finish q tag code (wd ws 0) (wd ws 1)
  | _ => s

/-- A command ends with a code and is not rerun. refused tells that it took no serial number. -/
def State.abort (s : State) (c : Cmd) (code : Code) (arr : Nat) (refused noExpert : Bool) : State :=
  let hit := s.rowRuns c
  let s := ((s.undo c).logEnd c code arr refused).dropCmd c.id
  let s := match endClass code with
    | some k => s.attention k code c.subject 0
    | none => if code = cExhausted then s.log code c.subject 0 else s
  let s := hit.foldl (fun s u => s.endRun c code noExpert u) s
  let s := match c.origin with
    | .recovery => s.log code c.subject 0
    | _ => s.endRerun c code arr refused
  s.dropVoid

/-- A command that has issued and fails while it runs: its record counts the work lost, whose length is a free value (R136,
R141). -/
def State.failCmd (s : State) (c : Cmd) (code : Code) : State :=
  let t := s.killed
  t.2.abort c code t.1 false false

/-! ### The fetch of a weight leaf (R299, R363) -/

/-- A query's payload. -/
def queryBytes (kind id : Nat) (key : W64) (index first count : Nat) : List Byte :=
  wordsBytes [w32 kind, w32 id, key.setWidth 32, (key >>> 32).setWidth 32, w32 index, w32 first, w32 count, 0]

/-- A query sent to a module. -/
def State.query (s : State) (dest : BitVec 20) (payload : List Byte) : State := s.emitParcel (mkParcel dest 7 payload)

/-- A directory entry. -/
def State.dir (s : State) (e : Nat) : List W32 := alGet (List.replicate 16 0) e s.fabric.directory

/-- Does a directory entry name this module as HOME or replica? -/
def State.entryHere (s : State) (e : List W32) : Bool :=
  (wd e 0).getLsbD 20 && (bits (wd e 0) 19 0 == s.addr.toNat ||
    (List.range (bits (wd e 0) 24 22)).any fun i => bits (wd e (2 + i)) 19 0 == s.addr.toNat)

/-- Is a parcel a token of an expert that this module does not serve (R357)? -/
def State.unserved (s : State) (p : Parcel) : Bool := p.ptype == 1 && !s.entryHere (s.dir p.ident.toNat)

/-- The replicas an entry names, other than this module. -/
def State.replicas (s : State) (e : List W32) : List (BitVec 20) :=
  ((List.range (bits (wd e 0) 24 22)).map fun i => BitVec.ofNat 20 (bits (wd e (2 + i)) 19 0)).filter (· != s.addr)

/-- The weight origin that an entry names, if it names one. -/
def originOf (e : List W32) : Option (BitVec 20) :=
  let a := bits (wd e 9) 19 0
  if e.isEmpty || a = 0xFFFFF then none else some (BitVec.ofNat 20 a)

/-- Whom a weight leaf is asked of: the replicas of its expert, else the origin of its expert or slot. -/
def State.fetchFrom (s : State) (slot idx : Nat) : List (BitVec 20) :=
  let x := s.leafExpert slot idx
  let o := s.fabric.origins.getD slot []
  let reps := if x = 0xFFFFFF then s.replicas o else s.replicas (s.dir x)
  let reps := reps.filter fun a => !s.fabric.unreachable.contains a
  if reps.isEmpty then ((if x = 0xFFFFFF then originOf o else (originOf (s.dir x)).orElse fun _ => originOf o).toList).filter
    (· != s.addr)
  else reps

/-- The query that asks for a weight leaf. -/
def State.askLeaf (s : State) (h : Handle) (whom : List (BitVec 20)) : State :=
  match s.weightPlace h with
  | none => s
  | some (sl, i) =>
    let id := s.fabric.nextQuery
    let q : Query := { id := id, handle := h, data := Bytes.empty .plain, got := [], asked := whom,
                       wait := Config.answerWait id }
    let s := s.modFabric fun f => { f with nextQuery := (id + 1) % 0x100000000, queries := f.queries ++ [q] }
    whom.foldl (fun s a => s.query a (queryBytes 2 id (s.slot sl).key i 0 0)) s

/-- The origin asked for a leaf that no replica has given, unless it has been asked (R299). -/
def State.askOrigin (s : State) (q : Query) : State :=
  match s.weightPlace q.handle with
  | none => s
  | some (sl, i) =>
    let x := s.leafExpert sl i
    let o := s.fabric.origins.getD sl []
    let target := if x = 0xFFFFFF then originOf o else (originOf (s.dir x)).orElse fun _ => originOf o
    match target with
    | some a =>
      if a = s.addr ∨ (s.fabric.queries.any fun r => r.handle == q.handle && r.asked.contains a) then s
      else s.askLeaf q.handle [a]
    | none => s

/-- The queries for weight leaves grow a heat epoch older. When replicas count as not answering is not stated: after a free
number of epochs the origin is asked (R299; log 153). -/
def State.ageQueries (s : State) : State :=
  let due := s.fabric.queries.filter fun q => q.wait == 1
  let s := s.modFabric fun f => { f with queries := f.queries.map fun q => { q with wait := q.wait - 1 } }
  due.foldl (fun s q => s.askOrigin q) s

/-- A copy of a weight leaf is asked for, unless that is in progress. -/
def State.startFetch (s : State) (h : Handle) : State :=
  if s.rack.fetches.contains h then s else
    match s.weightPlace h with
    | none => s
    | some (sl, i) => (s.modRack fun r => { r with fetches := r.fetches ++ [h] }).askLeaf h (s.fetchFrom sl i)

/-! ### Readiness and the run -/

/-- What stands among a command's waits while its operands cannot be read at all. -/
abbrev notReady : Handle := Config.nullHandle

/-- Is it a command of a training wave (R374)? -/
def Cmd.trains (c : Cmd) : Bool := c.runs.any fun u => u.kind == .train

/-- A training wave's command whose destination is STREAM object 0 or 1 (R375). -/
def Cmd.trainRefused (c : Cmd) (r : Res) : Bool :=
  c.trains && r.d.space == 3 && decide (streamObj (wd r.words 9) ≤ 1) &&
    !([0x0B, 0x0D, 0x0E, 0x0F, 0x10].contains c.opc)

/-- What a command reads from: in a recovery run each leaf of a block-scaled operand that has a cellar frame is read from that
frame (R144). -/
def State.sourceOf (s : State) (c : Cmd) (r : Res) (w : State → Cmd → Res → Work) : State :=
  if c.origin == .recovery then
    let hs := ((w s c r).scaled s r).filter fun h => (s.leaf h).inCellar
    hs.foldl (fun s h => s.modLeaf h fun e => { e with inSs := false, inCask := false }) s
  else s

/-- A command that waits at its first pass boundary. -/
def State.hold (s : State) (c : Cmd) (hs : List Handle) : State := s.setCmd { c with waits := notReady :: hs }

/-- The generators of a core after a command's work. -/
def State.setGens (s : State) (core : Nat) (g : List W32) : State := s.modCore core fun k => { k with gens := g }

/-- What a core has computed: its effects, and the rows of the accumulator file that it leaves changed. -/
structure Slice where
  core : Nat
  effs : List Eff
  acc : List (Nat × List W32)

/-- What the cores compute, each from its own generators and accumulator file: the state with the generators moved on, the
slices, and the flags of all. -/
def State.compute (s : State) : List (Nat × Cm (List Eff)) → State × List Slice × Ctx
  | [] => (s, [], ⟨[], [], false, false, false, false⟩)
  | (core, m) :: rest =>
    let r := m ⟨(s.core core).gens, (s.core core).acc, false, false, false, false⟩
    let t := (s.setGens core r.2.gens).compute rest
    (t.1, ⟨core, r.1, r.2.acc.filter fun e => !(s.core core).acc.contains e⟩ :: t.2.1,
     ⟨[], [], r.2.infSeen || t.2.2.infSeen, r.2.nanSeen || t.2.2.nanSeen, r.2.outSat || t.2.2.outSat,
      r.2.empty || t.2.2.empty⟩)

/-- Leaves a command reads that have no readable content: the weights among them can be fetched. -/
def State.unreadable (s : State) (hs : List Handle) : List Handle := hs.filter fun h => !s.readable h

/-- Handles without null and repeats. -/
def realHandles (hs : List Handle) : List Handle := (hs.filter (· != Config.nullHandle)).eraseDups

/-- Leaves promoted on demand. -/
def State.promoteAll (s : State) (hs : List Handle) : State := hs.foldl (fun s h => s.promote h) s

/-- The handle of a poisoned leaf that a command has met, in the errata log once (R176). -/
def State.logPoison (s : State) (h : Handle) : State :=
  if s.rack.logged.contains h then s
  else (s.log cPoisoned (w32 h) 0).modRack fun r => { r with logged := r.logged ++ [h] }

/-- A command that must read poisoned leaves ends with LEAF_POISONED (R176). -/
def State.poisonEnd (s : State) (c : Cmd) (bad : List Handle) : State :=
  (bad.foldl (fun s h => s.logPoison h) s).failCmd c cPoisoned

/-- The leaves a command writes in place or copies that have no readable content (R176): a partial write keeps the rest of
the leaf, and a copy reads it. -/
def Prep.badLeaves (p : Prep) : List Handle :=
  (realHandles (p.copies ++ p.writes)).filter fun h => !p.s.readable h && (p.s.weightPlace h).isNone

/-- The leaves a command writes in place whose cask copy is being rewritten (R262): it waits for them. -/
def Prep.rewriting (p : Prep) : List Handle := (realHandles p.writes).filter fun h => !(p.s.leaf h).inCask

/-- The cores of a command that read a leaf (R285): those that its work names, else all. -/
def Work.readersOf (w : Work) (c : Cmd) (h : Handle) : List Nat :=
  let l := w.readers.filter fun e => e.1 == h
  if l.isEmpty then c.cores else (l.map (·.2)).eraseDups

/-- The effects prepared and the command fully issued, or its wait, or its fault. pins are the leaves it reads. The sources
of copies on write are pinned too, without an access (R281). -/
def State.launch (s : State) (c : Cmd) (r : Res) (w : Work) (pins : List Handle) : State :=
  let t := s.compute w.body
  let effs := t.2.1.flatMap (·.effs)
  if (t.2.1.any fun e => s.coreOver c (bytesOf w.staged e.core) (bytesOf w.vec e.core) e.core e.effs) ||
      s.sectOver c r w.spill effs then s.failCmd c cOverflow
  else
    let p := Prep.all t.1 (t.2.1.map fun e => (e.core, e.effs))
    let late := realHandles (p.waits ++ p.rewriting)
    if p.beyond then s.failCmd c cOverflow
    else if p.fail then
      (s.startEviction c.part (.stream p.failFor)).setCmd { c with waits := [notReady], starved := true }
    else if !p.badLeaves.isEmpty then s.poisonEnd c p.badLeaves
    else if !late.isEmpty then (s.promoteAll late).hold c late
    else
      let wr := (realHandles (p.writes ++ p.taken.map (·.2.1))).filter fun h => !pins.contains h
      let src := (realHandles p.copies).filter fun h => !pins.contains h && !wr.contains h
      let all := pins ++ wr ++ src
      if !all.all p.s.pinRoom then s.hold c []
      else
        let p := { p with s := p.s.dropGrants c.shape.rows }
        let direct := pins.filter fun h => !(s.leaf h).inCask && !((s.leaf h).inSs && !(s.leaf h).ssStale)
        let q := pins.foldl (fun s h => s.pin h (w.readersOf c h)) p.s
        let q := src.foldl (fun s h => s.pinQuiet h) (wr.foldl (fun s h => s.pin h (p.writers h)) q)
        let mark (x : Rx) : Rx := if w.consumed.contains x.rq then { x with takenBy := some c.id } else x
        let q := q.modFabric fun f => { f with rx := f.rx.map mark }
        let q := ((w.vec.filter fun e => e.2 != 0).map (·.1) ++ w.uses).foldl (fun (s : State) k =>
          s.modCore k fun x => { x with scratch := x.scratch + 1 }) q
        q.setCmd { c with
          passes := if w.order.isEmpty then w.passes else (w.order.map fun e => e.2.length).foldl max 0
          order := w.order, sums := t.2.1.map fun e => (e.core, e.acc), spill := w.spill
          infSeen := t.2.2.infSeen, nanSeen := t.2.2.nanSeen, outSat := t.2.2.outSat || p.outSat,
          empty := t.2.2.empty, skewed := w.skewed, effs := p.effs, pins := all, taken := p.taken,
          consumed := w.consumed, waits := direct, starved := false, scaled := w.scaled s r }

/-- An issued command whose operands have not been read goes on where everything it needs is there. -/
def State.runCmd (s : State) (c : Cmd) (r : Res) (w : Work) : State :=
  let pins := realHandles (w.pins ++ w.reads.flatMap (s.extLeaves r))
  let bad := s.unreadable pins
  let lost := bad.filter fun h => (s.weightPlace h).isSome
  let cold := w.promote.filter fun h => !(s.leaf h).inCask
  if s.blocked c r w || w.missing then s.hold c []
  else if w.fault != cDone then s.failCmd c w.fault
  else if (w.reads ++ w.writes).any (s.extOver r c.cores) then s.failCmd c cOverflow
  else if lost.length != bad.length then
    s.poisonEnd c (bad.filter fun h => (s.weightPlace h).isNone)
  else if !lost.isEmpty then (lost.foldl (fun s h => s.startFetch h) s).hold c lost
  else if !cold.isEmpty then (s.promoteAll cold).hold c cold
  else s.launch c r w pins

/-! ### Issue -/

/-- A serial number taken on every core of a command, and its generators seeded (R55, R56). -/
def State.seed (s : State) (cores : List Nat) : State :=
  let sr : W64 := s.sys 3 ++ s.sys 2
  cores.foldl (fun s k => { s with cores := modAt s.cores k fun x =>
    let n := x.serial + 1
    { x with serial := n, gens := seedAll sr n k } }) s

/-- The runs with a row in an issuing command have begun (R193). -/
def State.markBegun (s : State) (c : Cmd) : State :=
  let hit := (s.rowRuns c).map (·.stream)
  let g (w : Wave) : Wave :=
    { w with runs := w.runs.map fun (u : WaveRun) => if hit.contains u.stream then { u with begun := true } else u }
  match c.origin with
  | .wave true => s.modPart c.part fun p => { p with prio := p.prio.map g }
  | .wave false => s.modPart c.part fun p => { p with bulk := p.bulk.map g }
  | _ => s

/-- The dimension fields of a descriptor that are resolved at issue (R129). -/
def dimFields (ws : List W32) : List Nat :=
  [bits (wd ws 1) 15 0, bits (wd ws 1) 31 16, bits (wd ws 2) 15 0, bits (wd ws 2) 31 16] ++
  (match bits (wd ws 0) 7 0 with
   | 2 => [bits (wd ws 13) 31 16]
   | 5 | 6 => [bits (wd ws 15) 15 0, bits (wd ws 15) 31 16]
   | _ => [])

/-- Does a value taken from the shape table pass its maximum (R129)? -/
def State.aboveMax (s : State) (c : Cmd) : Bool :=
  if c.origin == .service then false else
  match (s.slot c.slot).plan with
  | none => true
  | some p => (dimFields c.words).any fun f =>
      match dimIdx f with
      | some i => decide (p.dimMax i < (wd c.shape.dims i).toNat)
      | none => false

/-- A core of the command that the module does not have, or a section the plan no longer fits (R33). -/
def State.unfitFor (s : State) (c : Cmd) : Bool :=
  c.cores.any fun k => decide (s.coresOf (k / 16) ≤ k % 16) ||
    (((s.slot c.slot).plan.map fun p => p.unfit.getLsbD (k / 16)).getD true)

/-- The commands that stand before one in the queue of one of its cores. -/
def State.ahead (s : State) (c : Cmd) : List Cmd :=
  (s.cmds.takeWhile fun x => x.id != c.id).filter fun x =>
    (x.phase != .placed || s.runsNow x) && x.cores.any c.cores.contains

/-- Is the command at the head of the queue of each of its cores: a held command lets the next one issue (R139, R537)? -/
def State.atHead (s : State) (c : Cmd) : Bool := (s.ahead c).all fun x => x.phase == .held

/-- Has every earlier command of its cores flipped or ended (R124, R140)? -/
def State.inTurn (s : State) (c : Cmd) : Bool := (s.ahead c).isEmpty

/-- May the command issue now: the module runs, no section of its cores waits to remap (R473), its plan is loaded and not suspect, its wave's cycle runs, and it stands at
the head of its queues? -/
def State.mayIssue (s : State) (c : Cmd) : Bool :=
  s.power.state == .run && s.atHead c && (c.cores.all fun k => ((s.sects[k / 16]?).map (·.failing.isEmpty)).getD true) &&
  (match c.origin with
   | .wave _ => s.runsNow c && (((s.slot c.slot).plan.map fun p => !p.suspect).getD false)
   | .service => true
   | _ => (s.slot c.slot).plan.isSome)

/-- The flip of a command that has nothing to do (R130). -/
def State.emptyEnd (s : State) (c : Cmd) : State := s.setCmd { c with empty := true, waits := [], passes := 0 }

/-- A placed command issues: it is refused before any read, discarded as stale, or takes its serial numbers and runs. A CONV
stays in its queue until all its frames are ready (R244). -/
def State.beginCmd (s : State) (c : Cmd) (w : State → Cmd → Res → Work) : State :=
  let sh := s.shapeOf c
  let r := resolve s c.slot c.words sh c.plain
  let wk := w (s.sourceOf c r w) c r
  if s.unfitFor c then s.abort c cOverflow 0 true false
  else if !c.runs.isEmpty && c.runs.all (fun u => !s.liveRun c u) then
    let s := c.runs.foldl (fun s u => s.voidWhere fun v => v.stream == u.stream && v.epoch == u.epoch) s
    (s.logEnd c cStale 0 true).dropCmd c.id
  else if s.aboveMax c then s.abort c cShape 0 true false
  else if c.trainRefused r then s.abort c cAlign 0 true false
  else if wk.refuse != cDone then s.abort c wk.refuse 0 true false
  else if s.blocked c r { wk with reads := wk.first, rspans := [] } then s
  else
    let s := (s.markBegun c).seed c.cores
    let c := { c with
      phase := .issued, shape := sh,
      serial := (s.cores.getD (bits (wd c.words 3) 17 12) CoreSt.reset).serial,
      attempt := if c.opc = 0x0F then (s.channels.getD (bits (wd c.words 13) 5 0) Channel64.reset).attempt else 0 }
    let s := s.setCmd c
    if wk.empty then s.emptyEnd c else s.runCmd c r (w (s.sourceOf c r w) c r)

/-- The replaced weight leaves on which a command's wave goes on (R400). -/
def State.oldLeaves (s : State) (c : Cmd) : List (Nat × Handle) :=
  match c.origin with
  | .wave prio => (s.malt.old.filter fun e => e.1 == c.part && e.2.1 == prio).map (·.2.2)
  | _ => []

/-- The state with the weight image of a command's slot as its wave began with it. -/
def State.asOf (s : State) (c : Cmd) : State :=
  match s.oldLeaves c with
  | [] => s
  | l => s.modPlan c.slot fun p => { p with leaves := l.foldl (fun l e => l.set e.1 e.2) p.leaves }

/-- What happens to a command, its slot's weight image being the one that its wave began with. -/
def State.under (s : State) (c : Cmd) (f : State → State) : State :=
  match s.oldLeaves c, (s.slot c.slot).plan with
  | _ :: _, some p => (f (s.asOf c)).modPlan c.slot fun q => { q with leaves := p.leaves }
  | _, _ => f (s.asOf c)

/-- A wave has ended: the replaced leaves that it kept are let go. -/
def State.freeOld (s : State) (part : Nat) (prio : Bool) : State :=
  let mine (e : Nat × Bool × Nat × Handle) : Bool := e.1 == part && e.2.1 == prio
  let s' : State := { s with malt := { s.malt with old := s.malt.old.filter fun e => !mine e } }
  (s.malt.old.filter mine).foldl (fun s e => s.unpin e.2.2.2) s'

/-- A command row: the command of that number and opcode issues, or, issued before and waiting at its first pass boundary,
goes on. -/
def State.issue (s : State) (id opc : Nat) (w : State → Cmd → Res → Work) : State :=
  match s.cmd? id with
  | none => s
  | some c => s.under c fun s =>
    if c.opc != opc then s
    else match c.phase with
      | .placed => if s.mayIssue c then s.beginCmd c w else s
      | .issued =>
        if c.waits.head? == some notReady then
          let c := { c with waits := [], starved := false }
          let r := resolve s c.slot c.words c.shape c.plain
          (s.setCmd c).runCmd c r (w (s.sourceOf c r w) c r)
        else s
      | .held => s

end Sys2Proof.Machine
end

