-- ==== Sys2Proof/Machine/Array.lean ====
section
/-! DEFINITION. The matrix array: group partials (R46 to R49), accumulation (R51), tiles and their places (R75, R82, R126),
the drain through the epilogue and its overlap with the next tile (R61, R85, R86), the passes of a slice with the codes of
the cells (R76, R94 to R96), and sequence tags (R142, R143). -/

namespace Sys2Proof.Machine

/-- A row of an activation or a column of a weight as the array takes it: values along k, and group scales if it has any. -/
structure Line where
  vals : List FVal
  scales : List FVal

/-! ### Group partials -/

/-- The exponent of the leading bit of a finite nonzero value. -/
def leadExp : FVal → Option Int
  | .fin _ m e => if m = 0 then none else some (e + bitLen m - 1)
  | _ => none

/-- A finite value in units of 2^lsb, its magnitude truncated. -/
def truncAt (lsb : Int) : FVal → Int
  | .fin n m e =>
    let q : Nat := if lsb ≤ e then m <<< (e - lsb).toNat else m >>> (lsb - e).toNat
    if n then -(q : Int) else q
  | _ => 0

/-- The partial of one group (R46, R47, R49): exact where nothing lies below the window. -/
def groupPartial (ps : List FVal) : FVal :=
  if ps.any isNan then .nan
  else if ps.any isInf then
    if (ps.any fun p => isInf p && isNeg p) && (ps.any fun p => isInf p && !isNeg p) then .nan
    else .inf (ps.any fun p => isInf p && isNeg p)
  else match (ps.filterMap leadExp) with
    | [] => fzero
    | e :: es =>
      let lsb := es.foldl max e - 39
      let t := ps.foldl (fun n p => n + truncAt lsb p) 0
      if t = 0 then fzero else .fin (t < 0) t.natAbs lsb

/-! ### Accumulation -/

/-- What the cells form from an activation and a weight: 0 the product, 1 the magnitude of the difference, 2 its square
(R78, R97). -/
def cell (mode : Nat) (a w : FVal) : FVal :=
  match mode with
  | 0 => fmul a w
  | 1 => fabs (fsub a w)
  | _ => let d := fsub a w; fmul d d

/-- One add of a group partial times its scales (R51). -/
def accAdd (g : Nat) (acc p sa sw : FVal) : Cm FVal := do
  let p ← note p
  stoC g (fadd acc (fmul p (fmul sa sw)))

/-- The first k of each group of K-block kb that holds an element. A group that lies wholly beyond K has no scale (R536), so it
delivers no partial and takes no draw (DEDUCED, log 145). -/
def groupStarts (k kb size : Nat) : List Nat :=
  ((List.range (128 / size)).map fun i => 128 * kb + size * i).filter fun lo => decide (lo < k)

/-- One K-block added into one entry, group by group. -/
def accBlock (mode k size kb g : Nat) (a w : Line) (acc : FVal) : Cm FVal :=
  (groupStarts k kb size).foldlM (fun acc lo =>
    let cut (l : Line) : List FVal := (l.vals.drop lo).take (min size (k - lo))
    let sc (l : Line) : FVal := if l.scales.isEmpty then fone else l.scales.getD (lo / size) .nan
    accAdd g acc (groupPartial ((cut a).zipWith (cell mode) (cut w))) (sc a) (sc w)) acc

/-- K-blocks of a reduction. -/
def kBlocks (k : Nat) : Nat := (k + 127) / 128

/-- The weights of the hidden column: every one 1 (R64). -/
def onesLine (k : Nat) : Line := ⟨List.replicate k fone, []⟩

/-- A lane beyond the edge of a multiply-add: zeros (R128). -/
def zeroLine (k : Nat) : Line := ⟨List.replicate k fzero, []⟩

/-- Lines filled up to n with zero lines. -/
def padLines (k n : Nat) (ls : List Line) : List Line := ls ++ List.replicate (n - ls.length) (zeroLine k)

/-- A row of the accumulator file while its tile accumulates: the columns and the hidden column (R81, R87). -/
structure AccRow where
  cols : List FVal
  sum : FVal

/-- A tile to be computed: its place in the result, its valid rows and columns, the lines of the rows it broadcasts and of
its columns, their generators, the generator order of its reduction, whether the hidden column runs, how many cycles after the first
row of the previous tile's drain its first row is accumulated, whether it starts only after that drain, where its sums
stand in the accumulator file, and how a row of them is drained. -/
structure Job where
  b : Nat
  m0 : Nat
  n0 : Nat
  m : Nat
  n : Nat
  mode : Nat
  k : Nat
  size : Nat
  rows : List Line
  cols : List Line
  gens : List Nat
  hidden : Bool
  shift : Nat
  apart : Bool
  file : Nat → AccRow → Cm Unit
  drain : AccRow → Cm (List (Nat × FVal))

/-- A row broadcast against K-block kb (R79): its adds into the tile's entries, then into the hidden column's. -/
def Job.row (j : Job) (kb : Nat) (a : Line) (acc : AccRow) : Cm AccRow := do
  let cs ← ((j.cols.zip j.gens).zip acc.cols).mapM fun c => accBlock j.mode j.k j.size kb c.1.2 a c.1.1 c.2
  let h ← if j.hidden then accBlock 0 j.k j.size kb 256 a (onesLine j.k) acc.sum else pure acc.sum
  pure ⟨cs, h⟩

/-- Row by row, the first list's row first in each cycle; what is left of the second list follows. -/
def pairUp {α β : Type} : List (Cm α) → List (Cm β) → Cm (List α × List β)
  | [], ds => do
    let ys ← ds.mapM id
    pure ([], ys)
  | a :: as, ds => do
    let x ← a
    let y ← (ds.take 1).mapM id
    let r ← pairUp as (ds.drop 1)
    pure (x :: r.1, y ++ r.2)

/-- The rows of a tile's first pass beside the drain of the tile before it, shift cycles behind the drain's first row. Where both
draw from one generator in a cycle, the accumulate stage draws first (R534). -/
def together {α β : Type} (shift : Nat) (acc : List (Cm α)) (drain : List (Cm β)) : Cm (List α × List β) := do
  let first ← (drain.take shift).mapM id
  let r ← pairUp acc (drain.drop shift)
  pure (r.1, first ++ r.2)

/-- A drained tile: batch element, first row, first column, and its rows' words and y1. -/
structure Tile where
  b : Nat
  m0 : Nat
  n0 : Nat
  rows : List (List (Nat × FVal))

/-- A tile that has been accumulated and not drained: what is left is to drain its valid rows (R128). -/
structure Due where
  b : Nat
  m0 : Nat
  n0 : Nat
  rows : List (Cm (List (Nat × FVal)))

/-- The drain of a tile with nothing beside it. -/
def Due.finish (d : Due) : Cm Tile := do
  let rows ← d.rows.mapM id
  pure ⟨d.b, d.m0, d.n0, rows⟩

/-- A tile accumulated, the tile before it drained beside its first pass or before it (R86). -/
def Job.run (j : Job) (due : Option Due) : Cm (Option Tile × Due) := do
  let zero : AccRow := ⟨j.cols.map fun _ => fzero, fzero⟩
  let start (kb : Nat) (acc : List AccRow) : List (Cm AccRow) := (j.rows.zip acc).map fun x => j.row kb x.1 x.2
  let fresh := j.rows.map fun _ => zero
  let first ← match due with
    | none => do
      let acc ← if j.k = 0 then pure fresh else (start 0 fresh).mapM id
      pure (none, acc)
    | some d =>
      if j.apart || j.k = 0 then do
        let t ← d.finish
        let acc ← if j.k = 0 then pure fresh else (start 0 fresh).mapM id
        pure (some t, acc)
      else do
        let r ← together j.shift (start 0 fresh) d.rows
        pure (some ⟨d.b, d.m0, d.n0, r.2⟩, r.1)
  let acc ← ((List.range (kBlocks j.k)).drop 1).foldlM (fun acc kb => (start kb acc).mapM id) first.2
  (acc.zipIdx).forM fun x => j.file x.2 x.1
  pure (first.1, ⟨j.b, j.m0, j.n0, (acc.take j.m).map fun x => j.drain { x with cols := x.cols.take j.n }⟩)

/-- Tiles in turn, the last one's drain left over. -/
def runJobs (due : Option Due) : List Job → Cm (List Tile × Option Due)
  | [] => pure ([], due)
  | j :: rest => do
    let r ← j.run due
    let s ← runJobs (some r.2) rest
    pure (r.1.toList ++ s.1, s.2)

/-- The left-over drain finished. -/
def drainLast (r : List Tile × Option Due) : Cm (List Tile) :=
  match r.2 with
  | none => pure r.1
  | some d => do
    let t ← d.finish
    pure (r.1 ++ [t])

/-! ### Tiles (R75, R82, R126, R127) -/

/-- Columns of a tile: 256 in W4, 64 in BF16, else 128 (R75, R95). -/
def tileWidth (wf : Nat) (plain : Bool) : Nat := if wf = 5 then 64 else if wf = 2 && !plain then 256 else 128

/-- The generator of column j of the tile a slice takes as its n-th (R82, R85). -/
def tileGen (width n j : Nat) : Nat := if width = 256 then j else 128 * (n % 2) + j

/-- The sums of row m of the tile a slice takes as its n-th, put in the accumulator file (R81, R82): in one bank, or in W4 in an
entry half of both; the hidden column's entry stands beside bank 0's, or the tile's bank's, as column 128. -/
def fileRow (width n : Nat) (hidden : Bool) (m : Nat) (x : AccRow) : Cm Unit := do
  let ws := x.cols.map toW32
  let e := if width = 256 then 128 * (n % 2) + m else 256 * (n % 2) + m
  accPut e 0 (ws.take 128)
  if width = 256 then accPut (256 + e) 0 (ws.drop 128)
  if hidden then accPut e 128 [toW32 x.sum]

/-- The tiles of a dimension that grid position p of parts takes. -/
def tilesOf (len width parts p : Nat) : List Nat :=
  (List.range ((len + width - 1) / width)).filter fun u => u % parts == p

/-- The tiles of a slice of rows × cols in order: batch element, column tile, row tile. -/
def slices (r : Res) (rows cols width gr gc : Nat) : List (Nat × Nat × Nat) :=
  (List.range r.b).flatMap fun b => (tilesOf cols width r.gridCols gc).flatMap fun u =>
    (tilesOf rows r.tileM r.gridRows gr).map fun t => (b, u, t)

/-- The grid positions with their cores. -/
def gridPos (r : Res) : List (Nat × Nat × Nat) :=
  (List.range r.gridRows).flatMap fun gr => (List.range r.gridCols).map fun gc =>
    (gr, gc, r.base + gr * r.gridCols + gc)

/-- Group size of a pair of operands (R43, R44). -/
def pairGroup (a w : Opd) : Nat := if a.scl ≠ 0 then groupSize a.scl else if w.scl ≠ 0 then groupSize w.scl else 128

/-- The row of a stream's object that row m of a command names: its place in its run (log 27). -/
def Shape.rowIn (sh : Shape) (m : Nat) : Nat :=
  match sh.runOf m with
  | some u => m - u.rowFirst
  | none => 0

/-- Does plain mode subtract the zero points before the multiplier: on the integer path alone, as operands of the floating
path are treated identically in both modes (R65, log 146)? -/
def Res.subtracts (r : Res) (a w : Opd) : Bool := r.plain && isIntFmt a.fmt && isIntFmt w.fmt

/-- Row m of an activation operand beside a weight operand. -/
def State.aLine (s : State) (r : Res) (o w : Opd) (core b m k : Nat) : Line :=
  let i := if o.space = 3 then r.shape.rowIn m else m
  let st := r.shape.streamOf m
  let vs := s.rowVals r o core st b i k
  ⟨if r.subtracts o w && o.scl == 0 then vs.map fun v => fsub v (ofInt o.zp) else vs, s.rowScales r o core st b i k⟩

/-- Column n of a weight operand beside an activation operand. -/
def State.wLine (s : State) (r : Res) (a o : Opd) (core b n k : Nat) : Line :=
  let st := r.shape.streamOf 0
  let vs := s.rowVals r o core st b n k
  ⟨if r.subtracts a o && o.scl == 0 then vs.map fun v => fsub v (ofInt o.zp) else vs, s.rowScales r o core st b n k⟩

/-! ### The drain -/

/-- The element word of y1 for the destination: KV8 compresses, other formats convert under RND (R61, R62, R70). -/
def Res.word (r : Res) (e : EpiEntry) (g : Nat) (y1 : FVal) : Cm Nat :=
  if r.pack = 2 then kv8Elem y1 else epiOut e r.sto g r.d.fmt y1

/-- One result through the epilogue: its word and y1. A history takes y1 alone (R164), and so does an argument selection
that writes no data (log 28). -/
def Res.drainOne (r : Res) (conv : Bool) (e : EpiEntry) (g k : Nat) (za zw : Int) (acc rm : FVal) : Cm (Nat × FVal) := do
  let y0 ← if r.plain then pure acc else epiY0 acc rm za zw e.colSum k
  let y1 ← epiY1 e r.sto g (if r.toHistory then 4 else r.d.fmt) y0
  let w ← if r.toHistory || !conv then pure 0 else r.word e g y1
  pure (w, y1)

/-- A row of a tile drained, columns ascending. e0 is the first epilogue entry, units the table's offset. -/
def State.drainRow (s : State) (r : Res) (conv : Bool) (core units e0 k : Nat) (gens : List Nat) (za zw : Int)
    (x : AccRow) : Cm (List (Nat × FVal)) :=
  ((x.cols.zip gens).zipIdx).mapM fun c =>
    r.drainOne conv (s.epiAt r core units (e0 + c.2)) c.1.2 k za zw c.1.1 x.sum

/-- A drained tile written to the destination, rows of cols elements. -/
def Res.putTile (r : Res) (core cols : Nat) (t : Tile) : List Eff :=
  (t.rows.zipIdx).flatMap fun x => r.putRow core t.b (t.m0 + x.2) t.n0 cols (x.1.map (·.1)) (x.1.map (·.2))

/-- Does the drain of a tile end before the next tile's first pass: in W4 with 32-element groups and stochastic rounding
(R86)? -/
def Res.drainsApart (r : Res) (width size : Nat) : Bool := width == 256 && size == 32 && r.sto

/-- The cycles by which a tile's first accumulated row follows the drain of the row before it: a new K-block holds the array
for 128 cycles at least, and a block that stands in the cells for none (R86, R91 to R93). -/
def Res.lag (r : Res) (again : Bool) : Nat := if again then 0 else 128 - r.tileM

/-- The tile that a slice takes as its n-th, of a product of m × n over k: mode as in cell, size the group size. Multiply-adds
fill the tile with zero lanes; disabled lanes of the other modes are left out (R100, R128). same tells that the tile before it
had the same weights. -/
def Res.job (r : Res) (mode m n k size nth b n0 m0 : Nat) (same : Bool) (aL wL : Nat → Line)
    (drain : List Nat → AccRow → Cm (List (Nat × FVal))) : Job :=
  let width := tileWidth r.w.fmt r.plain
  let rows := (List.range (min r.tileM (m - m0))).map fun i => aL (m0 + i)
  let cols := (List.range (min width (n - n0))).map fun j => wL (n0 + j)
  let cs := if mode = 0 then padLines k width cols else cols
  let gens := (List.range cs.length).map (tileGen width nth)
  let hidden := r.w.zp != 0 && !r.plain
  { b := b, m0 := m0, n0 := n0, m := rows.length, n := cols.length, mode := mode, k := k, size := size
    rows := if mode = 0 then padLines k r.tileM rows else rows, cols := cs, gens := gens, hidden := hidden
    shift := r.lag (same && decide (k ≤ 128)), apart := r.drainsApart width size
    file := fileRow width nth hidden, drain := drain gens }

/-- Do the tiles of two places of a slice have the same weights? -/
def sameWeights (xs : List (Nat × Nat × Nat)) (i : Nat) : Bool :=
  match i, xs[i - 1]?, xs[i]? with
  | 0, _, _ => false
  | _, some x, some y => x.1 == y.1 && x.2.1 == y.2.1
  | _, _, _ => false

/-- A product over the slice of one core: m × n results over k, with the lines of the two operands by batch element and
index. -/
def State.product (s : State) (r : Res) (conv : Bool) (mode m n k size gr gc core : Nat) (aL wL : Nat → Nat → Line) :
    Cm (List Tile) := do
  let width := tileWidth r.w.fmt r.plain
  let xs := slices r m n width gr gc
  if k = 0 then noteEmpty
  let t ← runJobs none ((xs.zipIdx).map fun x =>
    let b := x.1.1
    let n0 := x.1.2.1 * width
    r.job mode m n k size x.2 b n0 (x.1.2.2 * r.tileM) (sameWeights xs x.2) (aL b) (wL b)
      fun gens => s.drainRow r conv core (b * epiUnits n) n0 k gens r.a.zp r.w.zp)
  drainLast t

/-- The tiles of one core for a product of A and W. -/
def State.sliceTiles (s : State) (r : Res) (conv : Bool) (mode gr gc core : Nat) : Cm (List Tile) :=
  s.product r conv mode r.m r.n r.k (pairGroup r.a r.w) gr gc core (fun b m => s.aLine r r.a r.w core b m r.k)
    fun b n => s.wLine r r.a r.w core b n r.k

/-- The whole slice of one core for a product of A and W. -/
def State.sliceBody (s : State) (r : Res) (gr gc core : Nat) : Cm (List Eff) := do
  let ts ← s.sliceTiles r true 0 gr gc core
  pure (ts.flatMap (r.putTile core r.n))

/-! ### The passes of a slice (R76, R94 to R96, R126) -/

/-- An integer element as a number. -/
def intElem (fmt w : Nat) : Int :=
  match fmt with
  | 0 => if w % 256 < 128 then (w % 256 : Nat) else (w % 256 : Nat) - 256
  | 1 => (w % 256 : Nat)
  | _ => if w % 16 < 8 then (w % 16 : Nat) else (w % 16 : Nat) - 16

/-- The code that a cell holds of one weight word: 8 bits, or in plain mode an integer weight as a 9-bit signed operand, its
zero point taken off where sub is set (R65, R76). -/
def cellCode (fmt : Nat) (plain sub : Bool) (zp : Int) (w : Nat) : BitVec 9 :=
  if plain && isIntFmt fmt then BitVec.ofInt 9 (intElem fmt w - (if sub then zp else 0)) else BitVec.ofNat 9 w

/-- The codes of one array row from the weight words of a tile's columns at its k: two INT4 weights a cell with the pairing
bit (R94), a BF16 weight in two cells (R96), else one weight a cell. A lane beyond the edge holds 0. -/
def cellRow (fmt : Nat) (plain sub : Bool) (zp : Int) (ws : List (Option Nat)) : List (BitVec 9) :=
  let code (x : Option Nat) : BitVec 9 := (x.map (cellCode fmt plain sub zp)).getD 0
  let at_ (i : Nat) : Option Nat := (ws[i]?).join
  (List.range 128).map fun j =>
    if fmt = 5 then
      match at_ (j / 2) with
      | none => 0
      | some w => if j % 2 = 0 then BitVec.ofNat 9 (w / 128) else
          BitVec.ofNat 9 (w % 128 + if w / 128 % 256 = 0 then 0 else 128)
    else if fmt = 2 && !plain then
      BitVec.ofNat 9 (256 + (at_ j).getD 0 + 16 * (at_ (128 + j)).getD 0)
    else code (at_ j)

/-- The codes of K-block kb, array row by array row, from the raw words of a tile's columns. -/
def blockCodes (fmt : Nat) (plain sub : Bool) (zp : Int) (k kb : Nat) (cols : List (List Nat)) : List (List (BitVec 9)) :=
  (List.range 128).map fun i =>
    cellRow fmt plain sub zp (cols.map fun col => if 128 * kb + i < k then col[128 * kb + i]? else none)

/-- The raw words of the columns of a tile of a weight operand. -/
def State.tileRaw (s : State) (r : Res) (o : Opd) (core b n0 n width k : Nat) : List (List Nat) :=
  (List.range (min width (n - n0))).map fun j => s.rowRaw r o core (r.shape.streamOf 0) b (n0 + j) k

/-- The passes of a tile of a product with weight operand o. -/
def State.tilePasses (s : State) (r : Res) (a o : Opd) (id core b u n k : Nat) : List Pass :=
  let width := tileWidth o.fmt r.plain
  let cols := s.tileRaw r o core b (u * width) n width k
  (List.range (kBlocks k)).map fun kb =>
    { blk := ⟨id, b, u, kb⟩, codes := blockCodes o.fmt r.plain (r.subtracts a o) o.zp k kb cols, rest := false }

/-- The passes of each core of a product of m × n over k. -/
def State.productOrder (s : State) (r : Res) (id m n k : Nat) : List (Nat × List Pass) :=
  (gridPos r).map fun p => (p.2.2, (slices r m n (tileWidth r.w.fmt r.plain) p.1 p.2.1).flatMap fun x =>
    s.tilePasses r r.a r.w id p.2.2 x.1 x.2.1 n k)

/-! ### Sequence tags (R142, R143) -/

/-- Does a checked data block of row i of an operand disagree with the scale block of its first group? -/
def State.rowSkew (s : State) (r : Res) (o : Opd) (core b i k : Nat) : Bool :=
  let per := rowBytes k (elemBits o.fmt) / 64
  let g := groupSize o.scl
  let base := o.addr + b * o.stride
  (List.range per).any fun c =>
    (i * per + c) % 16 == 0 &&
    (let gi := i * ((k + g - 1) / g) + c * (512 / elemBits o.fmt) / g
     s.opTag r o.space core (base + 64 * (i * per + c)) != s.opTag r o.space core (base + o.sclOff + 64 * (gi / 64)))

/-- The rows or columns that a slice reads. -/
def sliceIdx (len width parts p : Nat) : List Nat :=
  (tilesOf len width parts p).flatMap fun u => (List.range (min width (len - u * width))).map (u * width + ·)

/-- A block-scaled operand of a product disagrees with its scales on some core. -/
def State.pairSkew (s : State) (r : Res) (o : Opd) (k : Nat) (idx : Nat → Nat → List Nat) : Bool :=
  o.scl != 0 && (gridPos r).any fun p => (List.range r.b).any fun b =>
    (idx p.1 p.2.1).any fun i => s.rowSkew r o p.2.2 b i k

/-- The extent of an operand of rows of k elements: its data and its scales. -/
def extOf (o : Opd) (b rows k : Nat) : Ext :=
  ⟨o, b, rows * rowBytes k (elemBits o.fmt), if o.scl = 0 then 0 else rows * ((k + groupSize o.scl - 1) / groupSize o.scl), rows⟩

/-- The extent of an operand of columns, which belong to no row of the command. -/
def colExt (o : Opd) (b cols k : Nat) : Ext := { extOf o b cols k with rows := 0 }

/-- Bytes of a tile's weights (R135). -/
def weightBytesOf (o : Opd) (n k width : Nat) : Nat := min width n * rowBytes k (elemBits o.fmt)

/-- Bytes of activation rows that a core stages: two row tiles of TILE_M rows of one K-block, twice that in BF16 (R135, R236);
none where the operand stands in the core store, where nothing is read, or where the core's slice is empty. -/
def stagedOf (r : Res) (o : Opd) (k : Nat) (active : Nat → Nat → Bool) : List (Nat × Nat) :=
  if o.space = 0 || k = 0 then [] else
    ((gridPos r).filter fun p => active p.1 p.2.1).map fun p => (p.2.2, 2 * r.tileM * 128 * (if o.fmt = 5 then 2 else 1))

/-- Has the grid position a tile of rows × cols? -/
def hasSlice (r : Res) (rows cols width gr gc : Nat) : Bool := !(slices r rows cols width gr gc).isEmpty

/-- The leaves that n bytes from lo of an operand in CASK or STREAM space lie in. -/
def State.leavesAt (s : State) (r : Res) (o : Opd) (stream lo n : Nat) : List Handle :=
  let idx := if n = 0 then [] else (List.range ((lo + n + 65535) / 65536 - lo / 65536)).map (lo / 65536 + ·)
  match o.space with
  | 2 => idx.map fun k => ((s.slot r.slot).plan.map fun p => p.leaves.getD k Config.nullHandle).getD Config.nullHandle
  | 3 =>
    let root := (s.stream stream).spineRoot
    root :: idx.map fun k => (s.content root).word (outOff k)
  | _ => []

/-- The leaves that row i of k elements of an operand, and its scales, lie in. -/
def State.rowLeaves (s : State) (r : Res) (o : Opd) (stream b i k : Nat) : List Handle :=
  let base := o.addr + b * o.stride
  let rb := rowBytes k (elemBits o.fmt)
  let g := (k + groupSize o.scl - 1) / groupSize o.scl
  s.leavesAt r o stream (base + i * rb) rb ++
    if o.scl = 0 then [] else s.leavesAt r o stream (base + o.sclOff + i * g) g

/-- Rows of an activation operand as rows of its object and its streams: in STREAM space those of the rows' runs. -/
def Res.actRows (r : Res) (o : Opd) (is : List Nat) : List (Nat × Nat) :=
  is.map fun i => (if o.space = 3 then r.shape.rowIn i else i, r.shape.streamOf i)

/-- Columns of a weight operand as rows of its object. -/
def Res.weightRows (r : Res) (is : List Nat) : List (Nat × Nat) := is.map fun i => (i, r.shape.streamOf 0)

/-- Which core reads which leaf of an operand, by the rows of it, each with its stream, that each grid position takes
(R285). -/
def State.readersOf (s : State) (r : Res) (o : Opd) (k : Nat) (idx : Nat → Nat → List (Nat × Nat)) : List (Handle × Nat) :=
  if o.space < 2 || k = 0 then [] else
    (gridPos r).flatMap fun p => (((List.range r.b).flatMap fun b => (idx p.1 p.2.1).flatMap fun i =>
      s.rowLeaves r o i.2 b i.1 k).eraseDups).map fun h => (h, p.2.2)

/-- A tile deeper than its mode allows, or weights that overrun a half of the weight buffer (R84, R135). -/
def tileFault (r : Res) (wf : Nat) (bytes : Nat) : Code :=
  if (tileWidth wf r.plain = 256 && decide (128 < r.tileM)) || decide (0x100000 < bytes) then cOverflow else cDone

/-- The work of a product of A and W, without its computation. -/
def State.productWork (s : State) (c : Cmd) (r : Res) : Work :=
  let width := tileWidth r.w.fmt r.plain
  let rows (gr _ : Nat) : List Nat := sliceIdx r.m r.tileM r.gridRows gr
  let cols (_ gc : Nat) : List Nat := sliceIdx r.n width r.gridCols gc
  let on := hasSlice r r.m r.n width
  { refuse := if s.histRefused r r.n then cAlign else cDone
    empty := r.m == 0 || r.n == 0 || r.b == 0
    reads := if r.k = 0 then [] else [extOf r.a r.b r.m r.k, colExt r.w r.b r.n r.k]
    readers := s.readersOf r r.a r.k (fun gr gc => if on gr gc then r.actRows r.a (rows gr gc) else []) ++
      s.readersOf r r.w r.k (fun gr gc => if on gr gc then r.weightRows (cols gr gc) else [])
    writes := r.destExt r.n
    fault := tileFault r r.w.fmt (weightBytesOf r.w r.n r.k width)
    skewed := s.pairSkew r r.a r.k rows || s.pairSkew r r.w r.k cols
    staged := stagedOf r r.a r.k on
    order := s.productOrder r c.id r.m r.n r.k }

/-- A computation for each grid position. -/
def gridBody (r : Res) (f : Nat → Nat → Nat → Cm (List Eff)) : List (Nat × Cm (List Eff)) :=
  (gridPos r).map fun p => (p.2.2, f p.1 p.2.1 p.2.2)

/-! ### Indices (R99, R118, R240 to R243) -/

/-- A 32-bit index written at the index destination: per is the bytes of a row there, off the place in it. -/
def Res.putIndex (r : Res) (core b m per off v : Nat) : List Eff :=
  let a := r.d.addr + b * r.d.stride + r.idxOff
  if r.d.space = 3 then
    match r.shape.runOf m with
    | none => []
    | some u => [.bytes (.out (r.shape.streamOf m)) (a + (m - u.rowFirst) * per + off) (leBytes 4 v)]
  else
    let l := r.loc r.d.space core 0 (a + m * per + off)
    [.bytes l.1 l.2 (leBytes 4 v)]

/-- Does a candidate value replace the held one: the first NaN of all, else strictly greater, or strictly less? -/
def beats (greatest : Bool) (held x : FVal) : Bool :=
  !isNan held && (isNan x || (if greatest then flt held x else flt x held))

/-- The index and value selected from values in ascending index. -/
def selectFrom (greatest : Bool) (xs : List (Nat × FVal)) : Option (Nat × FVal) :=
  xs.foldl (fun best x =>
    match best with
    | none => some x
    | some b => if beats greatest b.2 x.2 then some x else some b) none

/-- The columns and y1 values of row m of batch element b among drained tiles, ascending. -/
def rowOf (ts : List Tile) (b m : Nat) : List (Nat × FVal) :=
  ts.flatMap fun t =>
    if t.b = b ∧ t.m0 ≤ m then ((t.rows.getD (m - t.m0) []).zipIdx).map fun y => (t.n0 + y.2, y.1.2) else []

/-- The argument selection of the rows a core drained: one index per row (R243). -/
def Res.putSelect (r : Res) (core : Nat) (greatest : Bool) (ts : List Tile) : List Eff :=
  ((ts.flatMap fun t => (List.range t.rows.length).map fun i => (t.b, t.m0 + i)).eraseDups).flatMap fun bm =>
    match selectFrom greatest (rowOf ts bm.1 bm.2) with
    | some x => r.putIndex core bm.1 bm.2 4 0 x.1
    | none => []

end Sys2Proof.Machine
end

