-- ==== Sys2Proof/Machine/Transc.lean ====
section
/-! DEFINITION. The transcendental unit (R69): the special values, and for every other input the die's own result
where it lies within the bound, else the nearest FP32 value. Real values are taken to 96 fraction bits. -/

namespace Sys2Proof.Machine

/-- One, in units of 2^-96. -/
def fix1 : Nat := 0x1000000000000000000000000
/-- ln 2 in units of 2^-96. -/
def fixLn2 : Nat := 0xb17217f7d1cf79abc9e3b398
/-- log2 e in units of 2^-96. -/
def fixLog2e : Int := 0x171547652b82fe1777d0ffda0
/-- The square root of 2/pi in units of 2^-96. -/
def fixSqrt2Pi : Int := 0xcc42299ea1b284687e59e280
/-- 0.044715 in units of 2^-96. -/
def fixGelu : Int := 0xb727136a400fba8826aa8eb

/-- A finite value in units of 2^-96, rounded toward minus infinity. -/
def toFix : FVal → Int
  | .fin n m e =>
    let k := e + 96
    let q : Nat := if 0 ≤ k then m <<< k.toNat else m >>> (-k).toNat
    if n then -(q : Int) else q
  | _ => 0

/-- The value of a number of units of 2^-96. -/
def ofFix (i : Int) : FVal := .fin (i < 0) i.natAbs (-96)

/-- Terms k, k+1, ... of the exponential series of t, the k-th being term. -/
def expSeries (t : Nat) : Nat → Nat → Nat → Nat
  | 0, _, _ => 0
  | fuel + 1, k, term => term + expSeries t fuel (k + 1) (term * t / fix1 / (k + 1))

/-- 2^z for z in units of 2^-96. -/
def exp2Fix (z : Int) : FVal :=
  let f := (z % (fix1 : Int)).toNat
  .fin false (expSeries (f * fixLn2 / fix1) 32 0 fix1) (z / (fix1 : Int) - 96)

/-- The logistic function of z, both in units of 2^-96. -/
def sigmoidFix (z : Int) : Int :=
  if (64 * fix1 : Int) ≤ z then fix1
  else if z ≤ -(64 * fix1 : Int) then 0
  else
    let e := toFix (exp2Fix (-(z * fixLog2e / (fix1 : Int))))
    ((fix1 : Int) * fix1) / ((fix1 : Int) + e)

/-- Newton steps of an integer square root from an estimate not below it. -/
def isqrtStep (n : Nat) : Nat → Nat → Nat
  | 0, x => x
  | fuel + 1, x => isqrtStep n fuel ((x + n / x) / 2)

/-- The integer square root, to within one unit. -/
def isqrt (n : Nat) : Nat := if n = 0 then 0 else isqrtStep n 24 (1 <<< ((bitLen n + 2) / 2))

/-- 1 / sqrt of m * 2^e, m not 0. -/
def rsqrtVal (m : Nat) (e : Int) : FVal :=
  let (m, e) := if e % 2 = 0 then (m, e) else (2 * m, e - 1)
  let k := 200 + 2 * bitLen m
  .fin false (isqrt ((1 <<< k) / m)) (-((k : Int) / 2) - e / 2)

/-- The exact value of function f at a finite x with no special value, to 90 or more bits. -/
def transcExact (f : Nat) (x : FVal) : FVal :=
  match x with
  | .fin n m e =>
    let big := geTwoPow x 7
    match f with
    | 0 => exp2Fix (toFix x)
    | 1 => fdiv fone x
    | 2 => rsqrtVal m e
    | 3 => if big then ofInt (if n then -1 else 1) else ofFix (2 * sigmoidFix (2 * toFix x) - fix1)
    | 4 => if big then (if n then fzero else fone) else ofFix (sigmoidFix (toFix x))
    | 5 =>
      if big then (if n then fzero else x) else
        let z := toFix x
        let z3 := z * z / (fix1 : Int) * z / (fix1 : Int)
        let u := fixSqrt2Pi * (z + fixGelu * z3 / (fix1 : Int)) / (fix1 : Int)
        ofFix (z * sigmoidFix (2 * u) / (fix1 : Int))
    | _ =>
      if big then (if n then fzero else x) else ofFix (toFix x * sigmoidFix (toFix x) / (fix1 : Int))
  | v => v

/-- The allowed error of function f at the exact value v (R69); 2^-60 of slack covers transcExact. -/
def transcBound (f : Nat) (v : FVal) : FVal :=
  let ulp : Int :=
    match v with
    | .fin _ m e => max (e + bitLen m - 24) (-149)
    | _ => -149
  let slack (k : Int) : FVal := fadd (.fin false 1 k) (.fin false 1 (k - 40))
  match f with
  | 0 | 2 => slack (ulp + 1)
  | 1 => slack ulp
  | 3 | 4 => slack (-20)
  | _ => slack (-18)

/-- Is y within R69's bound of the exact value v of function f? -/
def transcOk (f : Nat) (v y : FVal) : Bool := fle (fabs (fsub y v)) (transcBound f v)

/-- The special values of R69, none where the function has to be computed. -/
def transcSpecial (f : Nat) (x : FVal) : Option FVal :=
  match x with
  | .nan => some .nan
  | .inf n =>
    match f with
    | 0 => some (if n then fzero else .inf false)
    | 1 => some (.fin n 0 0)
    | 2 => some (if n then .nan else fzero)
    | 3 => some (ofInt (if n then -1 else 1))
    | 4 => some (if n then fzero else fone)
    | _ => some (if n then .fin true 0 0 else .inf false)
  | .fin n m _ =>
    match f with
    | 0 => if fle (ofNat 128) x then some (.inf false) else if flt x (ofInt (-149)) then some fzero else none
    | 1 => if m = 0 then some (.inf n) else none
    | 2 => if m = 0 then some (.inf n) else if n then some .nan else none
    | _ => none

/-- Function f of an FP32 value: 0 exp2, 1 reciprocal, 2 reciprocal square root, 3 tanh, 4 sigmoid, 5 GELU, 6 SiLU. -/
def transc (f : Nat) (x : FVal) : FVal :=
  match transcSpecial f x with
  | some v => v
  | none =>
    let v := transcExact f x
    let near := rne32 v
    if isInf near then near else
      let y := ofW32 (Config.transc f (toW32 x))
      if isFin y && transcOk f v y then y else near

/-- A transcendental result with its flags noted (R59). -/
def transcC (f : Nat) (x : FVal) : Cm FVal := note (transc f x)

end Sys2Proof.Machine
end

