-- ==== Sys2Proof/Machine/Matmul.lean ====
section
/-! DEFINITION. MATMUL (R126), MATMUL_PAIR (R132 to R134), DIST (R97 to R100, R242), REDUCE (R67, R68, R535) and VECTOR
(R123). -/

namespace Sys2Proof.Machine

/-! ### MATMUL -/

/-- The work of MATMUL. -/
def matmulWork (s : State) (c : Cmd) (r : Res) : Work := { s.productWork c r with body := gridBody r (s.sliceBody r) }

/-- MATMUL. -/
def execMatmul (id : Nat) (s : State) : Host.Outcome State Fault Refusal := .next (s.issue id 0x01 matmulWork)

/-! ### Sums of a row (R67, R68) -/

/-- Elements, each with its index, added into 128 lane partials in order, each add stochastic from its lane's generator. -/
def laneSums (add : FVal → FVal → FVal) (xs : List (FVal × Nat)) : Cm (List FVal) :=
  xs.foldlM (fun ps x => do
    let l := x.2 % 128
    let v ← stoC l (add (ps.getD l fzero) x.1)
    pure (ps.set l v)) (List.replicate 128 fzero)

/-- The two lane sums of R68, of the shifted elements and of their squares, element by element. -/
def laneMoments (ds : List (FVal × Nat)) : Cm (List FVal × List FVal) :=
  ds.foldlM (fun ps x => do
    let l := x.2 % 128
    let a ← stoC l (fadd (ps.1.getD l fzero) x.1)
    let b ← stoC l (fadd (ps.2.getD l fzero) (fmul x.1 x.1))
    pure (ps.1.set l a, ps.2.set l b)) (List.replicate 128 fzero, List.replicate 128 fzero)

/-- One level of the tree: pairs of partials of span lanes each. -/
def treeLevel (span : Nat) : Nat → List FVal → Cm (List FVal)
  | h, a :: b :: rest => do
    let v ← stoC (2 * span * h) (fadd a b)
    let vs ← treeLevel span (h + 1) rest
    pure (v :: vs)
  | _, l => pure l

/-- The tree over 128 partials: seven levels. -/
def treeSum (ps : List FVal) : Cm FVal := do
  let ps ← (List.range 7).foldlM (fun ps k => treeLevel (1 <<< k) 0 ps) ps
  pure (ps.getD 0 fzero)

/-- A sum in the order of R67. -/
def rowSum (xs : List FVal) : Cm FVal := do
  let ps ← laneSums fadd xs.zipIdx
  treeSum ps

/-- A sum of squares in the order of R67. -/
def rowSquares (xs : List FVal) : Cm FVal := do
  let ps ← laneSums (fun p x => fadd p (fmul x x)) xs.zipIdx
  treeSum ps

/-- The greater of two values of the vector unit, or the less; a NaN gives NaN, and zeros of unlike sign give +0, or -0. -/
def pick (greatest : Bool) (a b : FVal) : FVal :=
  if isNan a || isNan b then .nan
  else if flt a b then (if greatest then b else a)
  else if flt b a then (if greatest then a else b)
  else if isNeg a == greatest then b else a

/-- Mean and variance in one pass on shifted data (R68). -/
def meanVar (xs : List FVal) : Cm (FVal × FVal) :=
  match xs with
  | [] => do
    noteEmpty
    noteNan
    pure (.nan, .nan)
  | c :: _ => do
    let ds ← xs.mapM fun x => rneC (fsub x c)
    let ps ← laneMoments ds.zipIdx
    let s1 ← treeSum ps.1
    let s2 ← treeSum ps.2
    let r ← transcC 1 (rne32 (ofNat xs.length))
    let mean ← rneC (fadd (fmul s1 r) c)
    let t ← rneC (fmul s1 r)
    let u ← rneC (fadd s2 (fneg (fmul s1 t)))
    let v ← rneC (fmul (pick true u fzero) r)
    pure (mean, v)

/-! ### MATMUL_PAIR -/

/-- 2^-n. -/
def negPow (n : Nat) : FVal := .fin false 1 (-(n : Int))

/-- The row function of a row of X (R132), in FP32. -/
def rowFn (fn eps : Nat) (xs : List FVal) : Cm (List FVal) :=
  let each (f : Nat) : Cm (List FVal) := xs.mapM (transcC f)
  let n := rne32 (ofNat xs.length)
  match fn with
  | 0 => pure xs
  | 1 => do
    let mx := (xs.drop 1).foldl (pick true) (xs.getD 0 fzero)
    let es ← xs.mapM fun x => do
      let d ← rneC (fsub x mx)
      transcC 0 d
    let t ← rowSum es
    let r ← transcC 1 t
    es.mapM fun e => rneC (fmul e r)
  | 2 => each 5
  | 3 => each 6
  | 4 => each 3
  | 5 => each 4
  | 6 => do
    let q ← rowSquares xs
    let r ← transcC 1 n
    let m ← rneC (fmul q r)
    let v ← rneC (fadd m (negPow eps))
    let g ← transcC 2 v
    xs.mapM fun x => rneC (fmul x g)
  | _ => do
    let mv ← meanVar xs
    let v ← rneC (fadd mv.2 (negPow eps))
    let g ← transcC 2 v
    xs.mapM fun x => do
      let d ← rneC (fsub x mv.1)
      rneC (fmul d g)

/-- The second weight operand. -/
def pairW2 (r : Res) : Opd := mkOpd (wd r.words 14) (wd r.words 15) (wd r.words 11)

/-- N2. -/
def pairN2 (r : Res) : Nat := dimOf r.shape (bits (wd r.words 13) 31 16)

/-- The second product of a MATMUL_PAIR as a command of its own: its activation is the intermediate. -/
def pairRes2 (r : Res) : Res := { r with w := pairW2 r, a := { r.a with fmt := bits (wd r.words 13) 7 4, scl := 0, zp := 0 } }

/-- The row functions of a row tile: each row of X through f and converted to MID_FMT under RND (R132). -/
def pairMid (r : Res) (x : List (List FVal)) : Cm (List Line) :=
  let mid := bits (wd r.words 13) 7 4
  x.mapM fun xs => do
    let ys ← rowFn (bits (wd r.words 13) 3 0) (bits (wd r.words 13) 12 8) xs
    let ws ← (ys.zipIdx).mapM fun y => convC r.sto (y.2 % 128) mid 0 y.1
    pure ⟨ws.map (decodeElem mid), []⟩

/-- The row tiles of a core of MATMUL_PAIR, each a batch element and a row tile. -/
def pairTiles (r : Res) (gr : Nat) : List (Nat × Nat) :=
  (List.range r.b).flatMap fun b => (tilesOf r.m r.tileM r.gridRows gr).map fun t => (b, t)

/-- One row tile of a MATMUL_PAIR, the nth that the core takes, beside the drain left over from the one before it: the whole
first product, whose last tile is drained before the row functions, then the second. Every tile of both products takes the
other place in turn. With K = 0 nothing is read, and the second epilogue is applied to zero (R130). -/
def State.pairTile (s : State) (r : Res) (core nth b t : Nat) (due : Option Due) : Cm (List Tile × Option Due) := do
  let r1 := { r with sto := false, d := { r.d with fmt := 7, space := 0 }, pack := 0 }
  let r2 := pairRes2 r
  let n2 := pairN2 r
  let wid1 := tileWidth r.w.fmt r.plain
  let wid2 := tileWidth r2.w.fmt r.plain
  let t1 := if r.k = 0 then 0 else (r.n + wid1 - 1) / wid1
  let t2 := (n2 + wid2 - 1) / wid2
  let m0 := t * r.tileM
  let units := b * epiUnits (r.n + n2)
  let k2 := if r.k = 0 then 0 else r.n
  let size2 := if r2.w.scl ≠ 0 then groupSize r2.w.scl else 128
  let first ← runJobs due ((List.range t1).map fun u =>
    r1.job 0 r.m r.n r.k (pairGroup r.a r.w) (nth * (t1 + t2) + u) b (u * wid1) m0 false
      (fun m => s.aLine r r.a r.w core b m r.k) (fun j => s.wLine r r.a r.w core b j r.k)
      fun gens => s.drainRow r1 false core units (u * wid1) r.k gens r.a.zp r.w.zp)
  let parts ← if r.k = 0 then pure first.1 else drainLast first
  let parts := if due.isSome && r.k != 0 then parts.drop 1 else parts
  let count := min r.tileM (r.m - m0)
  let x := (List.range count).map fun i => parts.flatMap fun p => (p.rows.getD i []).map (·.2)
  let mids ← if r.k = 0 then pure [] else pairMid r x
  let second ← runJobs (if r.k = 0 then first.2 else none) ((List.range t2).map fun u =>
    r2.job 0 r.m n2 k2 size2 (nth * (t1 + t2) + t1 + u) b (u * wid2) m0 false
      (fun m => mids.getD (m - m0) (zeroLine k2)) (fun j => s.wLine r r2.a r2.w core b j k2)
      fun gens => s.drainRow r2 true core units (r.n + u * wid2) k2 gens 0 r2.w.zp)
  pure ((if r.k = 0 then [] else first.1.take (if due.isSome then 1 else 0)) ++ second.1, second.2)

/-- The row tiles of a core in turn. -/
def State.pairRun (s : State) (r : Res) (core : Nat) (due : Option Due) : List ((Nat × Nat) × Nat) → Cm (List Tile)
  | [] => drainLast ([], due)
  | x :: rest => do
    let a ← s.pairTile r core x.2 x.1.1 x.1.2 due
    let ts ← State.pairRun s r core a.2 rest
    pure (a.1 ++ ts)

/-- MATMUL_PAIR on a core. -/
def State.pairBody (s : State) (r : Res) (gr core : Nat) : Cm (List Eff) := do
  if r.k = 0 then noteEmpty
  let ts ← s.pairRun r core none (pairTiles r gr).zipIdx
  pure (ts.flatMap ((pairRes2 r).putTile core (pairN2 r)))

/-- The passes of a core of MATMUL_PAIR: the array waits for the row functions behind the first product (R539). The tiles of W2
are numbered after those of W. -/
def State.pairOrder (s : State) (r : Res) (id gr core : Nat) : List Pass :=
  let r2 := pairRes2 r
  let n2 := pairN2 r
  let wid1 := tileWidth r.w.fmt r.plain
  let wid2 := tileWidth r2.w.fmt r.plain
  let t1 := (r.n + wid1 - 1) / wid1
  if r.k = 0 then [] else
    (pairTiles r gr).flatMap fun x =>
      let a := (List.range t1).flatMap fun u => s.tilePasses r r.a r.w id core x.1 u r.n r.k
      let b := (List.range ((n2 + wid2 - 1) / wid2)).flatMap fun u =>
        (s.tilePasses r r2.a r2.w id core x.1 u n2 r.n).map fun p => { p with blk := { p.blk with tile := t1 + u } }
      (a.zipIdx.map fun p => if p.2 + 1 = a.length then { p.1 with rest := true } else p.1) ++ b

/-- The work of MATMUL_PAIR: the intermediate stands in the vector scratch, its excess in the plan's scratch of the section
(R134). -/
def pairWork (s : State) (c : Cmd) (r : Res) : Work :=
  let w2 := pairW2 r
  let n2 := pairN2 r
  let wid2 := tileWidth w2.fmt r.plain
  let p := s.productWork c { r with d := { r.d with space := 0 } }
  let size := r.tileM * r.n * 4
  let rows (gr : Nat) : List Nat := sliceIdx r.m r.tileM r.gridRows gr
  let on := (List.range r.gridRows).filter fun gr => !(rows gr).isEmpty && r.k != 0
  let f2 := tileFault r w2.fmt (weightBytesOf w2 n2 r.n wid2)
  { p with
    refuse := if s.histRefused r n2 then cAlign else cDone
    reads := if r.k = 0 then [] else p.reads ++ [colExt w2 r.b n2 r.n]
    readers := p.readers ++
      if r.k = 0 then [] else s.readersOf r w2 r.n fun gr _ => if (rows gr).isEmpty then [] else r.weightRows (List.range n2)
    writes := r.destExt n2
    fault := if p.fault != cDone then p.fault else if r.k = 0 then cDone else f2
    skewed := p.skewed || (r.k != 0 && s.pairSkew r w2 r.n fun _ _ => List.range n2)
    vec := on.map fun gr => (r.base + gr, min size 0x100000)
    spill := if size ≤ 0x100000 then [] else on.map fun gr => ((r.base + gr) / 16, size - 0x100000)
    order := (List.range r.gridRows).map fun gr => (r.base + gr, s.pairOrder r c.id gr (r.base + gr))
    body := (List.range r.gridRows).map fun gr => (r.base + gr, s.pairBody r gr (r.base + gr)) }

/-- MATMUL_PAIR. -/
def execMatmulPair (id : Nat) (s : State) : Host.Outcome State Fault Refusal := .next (s.issue id 0x02 pairWork)

/-! ### DIST -/

/-- The comparison of one output over all k: the held difference and its k; with no k, zero and 0xFFFF_FFFF (R99). -/
def compareOne (greatest : Bool) (k : Nat) (a w : Line) : Nat × FVal :=
  (selectFrom greatest (((a.vals.zipWith fsub w.vals).take k).zipIdx.map fun x => (x.2, x.1))).getD (0xFFFFFFFF, fzero)

/-- A tile of a comparison put in the accumulator file: values in bank 0, indices in the same places of bank 1 (R82, R99). -/
def fileCompare (held : List (List (Nat × FVal))) : Cm Unit :=
  (held.zipIdx).forM fun x => do
    accPut x.2 0 (x.1.map fun h => toW32 h.2)
    accPut (256 + x.2) 0 (x.1.map fun h => w32 h.1)

/-- The slice of a core in a comparison mode: values through the epilogue, indices beside, each tile drained before the next
(R86, R97, R99). -/
def State.compareBody (s : State) (r : Res) (greatest : Bool) (gr gc core : Nat) : Cm (List Eff) := do
  if r.k = 0 then noteEmpty
  let effs ← (slices r r.m r.n 128 gr gc).mapM fun x => do
    let b := x.1
    let n0 := x.2.1 * 128
    let m0 := x.2.2 * r.tileM
    let rows := (List.range (min r.tileM (r.m - m0))).map fun i => s.aLine r r.a r.w core b (m0 + i) r.k
    let cols := (List.range (min 128 (r.n - n0))).map fun j => s.wLine r r.a r.w core b (n0 + j) r.k
    let held := rows.map fun a => cols.map fun w => compareOne greatest r.k a w
    fileCompare held
    let acc ← held.mapM fun row => row.mapM fun h => note h.2
    let out ← acc.mapM fun row =>
      s.drainRow r true core (b * epiUnits r.n) n0 r.k (List.range cols.length) 0 0 ⟨row, fzero⟩
    let idx := (held.zipIdx).flatMap fun h => (h.1.zipIdx).flatMap fun v =>
      r.putIndex core b (m0 + h.2) (rowBytes r.n 32) (4 * (n0 + v.2)) v.1.1
    pure (r.putTile core r.n ⟨b, m0, n0, out⟩ ++ idx)
  pure effs.flatten

/-- The slice of a core for a distance, with its argument selection (R242). -/
def State.distBody (s : State) (r : Res) (mode sel gr gc core : Nat) : Cm (List Eff) := do
  let ts ← s.sliceTiles r (sel != 2) mode gr gc core
  pure ((if sel = 2 then [] else ts.flatMap (r.putTile core r.n)) ++
    (if sel = 0 then [] else r.putSelect core false ts))

/-- The index destination's extent of a DIST. -/
def distIndex (r : Res) (per : Nat) : List Ext :=
  if r.toHistory then [] else [⟨{ r.d with addr := r.d.addr + r.idxOff }, r.b, per * r.m, 0, r.m⟩]

/-- Bytes of the running pairs of an argument selection in the vector scratch, 8 for each tile row (R241). -/
def pairBytes (r : Res) (m n : Nat) : List (Nat × Nat) :=
  ((gridPos r).filter fun p => hasSlice r m n 128 p.1 p.2.1).map fun p => (p.2.2, 8 * r.tileM)

/-- The work of DIST. -/
def distWork (s : State) (c : Cmd) (r : Res) : Work :=
  let dm := bits (wd r.words 13) 1 0
  let sel := bits (wd r.words 13) 3 2
  let p := s.productWork c r
  if dm ≤ 1 then
    { p with
      writes := (if sel = 2 then [] else p.writes) ++ (if sel = 0 then [] else distIndex r 4)
      vec := if sel = 0 then [] else pairBytes r r.m r.n
      body := gridBody r (s.distBody r (dm + 1) sel) }
  else
    { p with
      writes := p.writes ++ distIndex r (rowBytes r.n 32)
      body := gridBody r (s.compareBody r (dm == 2)) }

/-- DIST. -/
def execDist (id : Nat) (s : State) : Host.Outcome State Fault Refusal := .next (s.issue id 0x07 distWork)

/-! ### REDUCE -/

/-- The results of a row under ROP (R535). -/
def reduceRow (rop : Nat) (xs : List FVal) : Cm (List FVal) :=
  match rop with
  | 0 => do
    if xs.isEmpty then noteEmpty
    let v ← rowSum xs
    pure [v]
  | 1 => do
    if xs.isEmpty then noteEmpty
    let v ← rowSquares xs
    pure [v]
  | 2 => do
    let mv ← meanVar xs
    pure [mv.1, mv.2]
  | _ =>
    match xs with
    | [] => do
      noteEmpty
      noteNan
      pure [.nan]
    | x :: rest => do
      let v ← note (rest.foldl (pick (rop == 3)) x)
      pure [v]

/-- Row m of an operand as the vector unit takes it. -/
def State.vecRow (s : State) (r : Res) (o : Opd) (core b m k : Nat) : List FVal :=
  s.rowVec r o core (r.shape.streamOf m) b (if o.space = 3 then r.shape.rowIn m else m) k

/-- The rows that a core of grid row gr takes, by batch element. -/
def coreRows (r : Res) (gr : Nat) : List (Nat × Nat) :=
  (List.range r.b).flatMap fun b => (sliceIdx r.m r.tileM r.gridRows gr).map fun m => (b, m)

/-- REDUCE on a core: rows ascending, each through the epilogue. -/
def State.reduceBody (s : State) (r : Res) (gr core : Nat) : Cm (List Eff) := do
  let effs ← (coreRows r gr).mapM fun bm => do
    let vs ← reduceRow (bits (wd r.words 13) 2 0) (s.vecRow r r.a core bm.1 bm.2 r.k)
    let out ← (vs.zipIdx).mapM fun v => do
      let e := s.epiAt r core (bm.1 * epiUnits r.n) v.2
      let y1 ← epiY1 e r.sto v.2 r.d.fmt v.1
      let w ← r.word e v.2 y1
      pure (w, y1)
    pure (r.putRow core bm.1 bm.2 0 r.n (out.map (·.1)) (out.map (·.2)))
  pure effs.flatten

/-- The work of REDUCE: its lane partials, one FP32 set or for ROP 2 two, stand in the vector scratch (R135; the bytes are
DEDUCED, log 147). -/
def reduceWork (s : State) (_ : Cmd) (r : Res) : Work :=
  let want := if bits (wd r.words 13) 2 0 = 2 then 2 else 1
  { refuse := if r.n != want || s.histRefused r r.n then cAlign else cDone
    empty := r.m == 0 || r.n == 0 || r.b == 0
    reads := if r.k = 0 then [] else [extOf r.a r.b r.m r.k]
    readers := s.readersOf r r.a r.k fun gr gc => if gc = 0 then r.actRows r.a (sliceIdx r.m r.tileM r.gridRows gr) else []
    writes := r.destExt r.n
    vec := if r.k = 0 then [] else ((gridPos r).filter fun p => p.2.1 == 0 && !(sliceIdx r.m r.tileM r.gridRows p.1).isEmpty).map
      fun p => (p.2.2, 512 * want)
    passes := if r.k = 0 then 0 else 1
    body := (List.range r.gridRows).map fun gr =>
      (r.base + gr * r.gridCols, s.reduceBody r gr (r.base + gr * r.gridCols)) }

/-- REDUCE. -/
def execReduce (id : Nat) (s : State) : Host.Outcome State Fault Refusal := .next (s.issue id 0x08 reduceWork)

/-! ### VECTOR -/

/-- Has the operation a second input? -/
def vopTwo (vop : Nat) : Bool := vop == 1 || vop == 2 || vop == 3 || vop == 4 || vop == 5

/-- One operation of R123 on lane l. -/
def vectorOp (vop : Nat) (sto : Bool) (l : Nat) (imm a w : FVal) : Cm FVal :=
  match vop with
  | 0x00 => note a
  | 0x01 => rndC sto l (fadd a w)
  | 0x02 => rndC sto l (fmul a w)
  | 0x03 => rndC sto l (fadd (fmul a w) imm)
  | 0x04 => note (pick true a w)
  | 0x05 => note (pick false a w)
  | 0x06 => do
    let p ← rndC sto l (fmul a imm)
    transcC 0 p
  | 0x07 => transcC 1 a
  | 0x08 => transcC 2 a
  | 0x09 => transcC 3 a
  | 0x0A => transcC 4 a
  | 0x0B => transcC 5 a
  | 0x0C => transcC 6 a
  | _ => rndC sto l (fmul a imm)

/-- A result of VECTOR in the destination's format: converted under RND, not passed through an epilogue (log 29). -/
def Res.vecWord (r : Res) (l : Nat) (y : FVal) : Cm Nat :=
  if r.toHistory then pure 0 else if r.pack = 2 then kv8Elem y
  else if r.d.fmt = 7 then pure (encodeElem 7 y) else convC r.sto l r.d.fmt 0 y

/-- VECTOR on a core: rows ascending, and in a row the core's columns ascending, lane l drawing from generator l. -/
def State.vectorBody (s : State) (r : Res) (gr gc core : Nat) : Cm (List Eff) := do
  let vop := bits (wd r.words 13) 7 0
  let imm := ofW32 (wd r.words 14)
  let effs ← (coreRows r gr).mapM fun bm => do
    let as_ := s.vecRow r r.a core bm.1 bm.2 r.n
    let ws := if vopTwo vop then s.vecRow r r.w core bm.1 bm.2 r.n else []
    let parts ← (tilesOf r.n 128 r.gridCols gc).mapM fun u => do
      let out ← (List.range (min 128 (r.n - 128 * u))).mapM fun l => do
        let y ← vectorOp vop r.sto l imm (as_.getD (128 * u + l) fzero) (ws.getD (128 * u + l) fzero)
        let w ← r.vecWord l y
        pure (w, y)
      pure (r.putRow core bm.1 bm.2 (128 * u) r.n (out.map (·.1)) (out.map (·.2)))
    pure parts.flatten
  pure effs.flatten

/-- The work of VECTOR. -/
def vectorWork (s : State) (_ : Cmd) (r : Res) : Work :=
  { refuse := if s.histRefused r r.n then cAlign else cDone
    empty := r.m == 0 || r.n == 0 || r.b == 0
    reads := extOf r.a r.b r.m r.n :: (if vopTwo (bits (wd r.words 13) 7 0) then [extOf r.w r.b r.m r.n] else [])
    readers :=
      let idx (gr gc : Nat) : List Nat := if hasSlice r r.m r.n 128 gr gc then sliceIdx r.m r.tileM r.gridRows gr else []
      s.readersOf r r.a r.n (fun gr gc => r.actRows r.a (idx gr gc)) ++
        if vopTwo (bits (wd r.words 13) 7 0) then s.readersOf r r.w r.n fun gr gc => r.actRows r.w (idx gr gc) else []
    writes := r.destExt r.n
    passes := 1
    body := gridBody r (s.vectorBody r) }

/-- VECTOR. -/
def execVector (id : Nat) (s : State) : Host.Outcome State Fault Refusal := .next (s.issue id 0x09 vectorWork)

end Sys2Proof.Machine
end

