-- ==== Sys2Proof/Machine/Attend.lean ====
section
/-! DEFINITION. ATTEND (R178 to R189): visibility, the reading of histories, the online softmax, and the passes of the two
products. -/

namespace Sys2Proof.Machine

/-! ### Fields -/

/-- Q_PER_KV. -/
def qPer (r : Res) : Nat := bits (wd r.words 13) 7 0
/-- KV_FMT of the descriptor: true for KV8. -/
def attKv8 (r : Res) : Bool := (wd r.words 13).getLsbD 11
/-- P_BF16. -/
def attBf (r : Res) : Bool := (wd r.words 13).getLsbD 10
/-- The chain of head b. -/
def attChain (r : Res) (b : Nat) : Nat := bits (wd r.words 7) 9 0 + b
/-- Keys of a key tile (R184). -/
def keyTile (kv8 : Bool) : Nat := if kv8 then 128 else 256

/-! ### Visibility (R179, R180) -/

/-- A run's mask entry, if it has one. -/
def State.maskOf (s : State) (r : Res) (core : Nat) (u : Run) : Option (List W32) :=
  let w := wd r.words 13
  if !w.getLsbD 8 || u.maskSel = 0xFFFF then none
  else some (bytesWords 4 (s.tableRead r core (64 * bits w 23 12 + 16 * u.maskSel) 16))

/-- Bit i of a table's bytes at an offset. -/
def State.tableBit (s : State) (r : Res) (core off i : Nat) : Bool :=
  ((s.tableRead r core (off + i / 8) 1).getD 0 0).getLsbD (i % 8)

/-- Is key k visible to query q of a run (R180)? -/
def State.visible (s : State) (r : Res) (core : Nat) (u : Run) (mask : Option (List W32)) (q k : Nat) : Bool :=
  decide (k < u.kvLen) &&
  (if q / 64 < k / 64 then u.full
   else
     let c := q / 64 - k / 64
     let causal := c != 0 || u.full || decide (k ≤ q)
     match mask with
     | none => causal
     | some e =>
       if c = 0 && (wd e 2).getLsbD 1 then s.tableBit r core (64 * bits (wd e 2) 13 2 + 8 * (q % 64)) (k % 64)
       else
         let kb := bits (wd e 1) 31 16
         let row := min (q / 64 - u.qPos0 / 64) (bits (wd e 1) 15 0 - 1)
         (if kb ≤ c then (wd e 2).getLsbD 0
          else s.tableBit r core (64 * bits (wd e 0) 11 0 + row * ((kb + 511) / 512 * 64)) c) && causal)

/-! ### Reading a history (R149 to R153, R189) -/

/-- The spine leaf and the history leaf of a chain at a position, null where there is none. -/
def State.histAt (s : State) (root : Handle) (kv8 : Bool) (chain k : Nat) : Handle × Handle :=
  let e := k / rowTokens kv8 * s.rootChains root + chain
  let sl := s.entryAt root (spineOff (e / 16384))
  (sl, if sl = Config.nullHandle then Config.nullHandle else s.entryAt sl (4 * (e % 16384)))

/-- 128 INT4 elements of 64 bytes. -/
def nibbles (bs : List Byte) : List FVal := (List.range 128).map fun i => decodeElem 2 (rawElem 4 bs i)

/-- Scale bytes. -/
def e4m3s (bs : List Byte) : List FVal := bs.map fun x => decodeE4M3 x.toNat

/-- Key slot t of a history leaf: its elements and its group scales; zeros where the leaf is null. -/
def State.keyLine (s : State) (h : Handle) (kv8 : Bool) (t : Nat) : Line :=
  if h = Config.nullHandle then ⟨List.replicate 128 fzero, if kv8 then [] else List.replicate 4 fzero⟩
  else
    let b := s.content h
    if kv8 then ⟨e4m3s (b.read (128 * t) 128), []⟩
    else ⟨nibbles (b.read (64 * t) 64), e4m3s (b.read (0x7800 + 4 * t) 4)⟩

/-- Is the value group of key k open to a reader of length kvLen (R153)? -/
def groupOpen (kv8 : Bool) (kvLen k : Nat) : Bool := !kv8 && decide (kvLen < k / 32 * 32 + 32)

/-- Where the values of a key stand: nowhere (they read as zeros), in a window leaf, or in a history leaf. -/
inductive ValuePlace where
  | zeros
  | window (h : Handle)
  | leaf (h : Handle)
  deriving DecidableEq, Repr

/-- The place of the values of key k for a reader of length kvLen. -/
def State.valuePlace (s : State) (root : Handle) (kv8 : Bool) (kvLen chain k : Nat) : ValuePlace :=
  if groupOpen kv8 kvLen k then
    let w := s.entryAt root (windowOff (chain / 4))
    if w = Config.nullHandle then .zeros else .window w
  else
    let h := (s.histAt root kv8 chain k).2
    if h = Config.nullHandle then .zeros else .leaf h

/-- The E4M3 words of an open group's values of key k, each converted to nearest even, and whether one saturated (R153). -/
def State.openWords (s : State) (w : Handle) (chain k : Nat) : List (Nat × Bool) :=
  (bytesWords 128 ((s.content w).read (slotOff chain k) 512)).map fun x => convElem rneShr 3 0 (ofW32 x)

/-- The values of key k and their scales by dimension: from the leaf where the group is sealed, else from the window; a
saturating conversion there is a compression and sets OUT_SAT (R59, R153). -/
def State.valueLine (s : State) (root : Handle) (kv8 : Bool) (kvLen chain k : Nat) : Cm Line :=
  let ones := List.replicate 128 fone
  match s.valuePlace root kv8 kvLen chain k with
  | .zeros => pure ⟨List.replicate 128 fzero, List.replicate 128 fzero⟩
  | .window w => do
    let ws := s.openWords w chain k
    noteSat (ws.any (·.2))
    pure ⟨ws.map fun x => decodeElem 3 x.1, ones⟩
  | .leaf h =>
    let t := k % rowTokens kv8
    let b := s.content h
    pure (if kv8 then ⟨e4m3s (b.read (0x8000 + 128 * t) 128), ones⟩
      else ⟨nibbles (b.read (0x7F80 + 64 * t) 64), e4m3s (b.read (0xF780 + 128 * (t / 32)) 128)⟩)

/-- Do a checked block of key k or of its value and the block of its scales bear different tags (R143, R151)? -/
def State.histSkew (s : State) (root : Handle) (kvLen chain k : Nat) : Bool :=
  let h := (s.histAt root false chain k).2
  let t := k % 480
  t % 16 == 0 && h != Config.nullHandle &&
  (let b := s.content h
   b.tag t != b.tag (480 + t / 16) ||
   (!groupOpen false kvLen k && b.tag (510 + t) != b.tag (990 + 2 * (t / 32))))

/-! ### Rows -/

/-- An array row: its row m and query head h, its run, its spine root, chain and position, and its query vector. -/
structure AttRow where
  m : Nat
  h : Nat
  run : Run
  root : Handle
  chain : Nat
  qpos : Nat
  mask : Option (List W32)
  query : Line

/-- The query vector h of row m (R183). -/
def State.queryLine (s : State) (r : Res) (core b m h : Nat) : Line :=
  let i := (if r.a.space = 3 then r.shape.rowIn m else m) * qPer r + h
  let st := r.shape.streamOf m
  ⟨(s.rowVals r r.a core st b i 128).map fun v => if r.a.scl = 0 then fsub v (ofInt r.a.zp) else v,
   s.rowScales r r.a core st b i 128⟩

/-- The array row of a pair (m, h), none outside every run. -/
def State.attRow (s : State) (r : Res) (core b i : Nat) : Option AttRow :=
  let m := i / qPer r
  (r.shape.runOf m).map fun u =>
    { m := m, h := i % qPer r, run := u, root := (s.stream (r.shape.streamOf m)).spineRoot, chain := attChain r b,
      qpos := u.qPos0 + (m - u.rowFirst), mask := s.maskOf r core u, query := s.queryLine r core b m (i % qPer r) }

/-- The keys of a tile from lo that a row sees. -/
def State.seenKeys (s : State) (r : Res) (core lo : Nat) (x : AttRow) : List Nat :=
  ((List.range (keyTile (attKv8 r))).map (lo + ·)).filter (s.visible r core x.run x.mask x.qpos)

/-- What a row has come to: the maximum, the sum, the outputs, and whether a key was kept. -/
structure AttAcc where
  mx : FVal
  sum : FVal
  o : List FVal
  kept : Bool

/-- Before the first key tile. -/
def AttAcc.start : AttAcc := ⟨.inf true, fzero, List.replicate 128 fzero, false⟩

/-! ### The key product (R184, R185, R181) -/

/-- The bias of a row at a key, if BIAS_EN is set. -/
def State.biasAt (s : State) (r : Res) (core b k : Nat) (x : AttRow) : Option FVal :=
  if !(wd r.words 13).getLsbD 9 then none else
    let len := bits (wd r.words 15) 22 12
    let d := if x.qpos < k then k - x.qpos else x.qpos - k
    let off := 64 * bits (wd r.words 15) 11 0 + 4 * (len * (b * qPer r + x.h) + min d (len - 1))
    some (ofW32 (wd (bytesWords 1 (s.tableRead r core off 4)) 0))

/-- What a row is compared by with the other rows of its tile for the keys from lo: rows of one run, or of runs with the same
nonzero GROUP, that name the same leaves there are served by one pass (R188). A tile's keys lie in two leaves at most. -/
def State.passKey (s : State) (r : Res) (lo : Nat) (x : AttRow) : Bool × Nat × Handle × Handle :=
  let kv8 := attKv8 r
  let leaf (k : Nat) : Handle := (s.histAt x.root kv8 x.chain k).2
  (x.run.group != 0, if x.run.group = 0 then x.run.rowFirst else x.run.group, leaf lo, leaf (lo + keyTile kv8 - 1))

/-- The key columns of a pass: the keys that one of its rows sees; a key that none sees is not read, and its column carries
zeros (R128, R189). -/
def State.keyCols (s : State) (r : Res) (lo : Nat) (seen : List Nat) (x : AttRow) : List Line :=
  let kv8 := attKv8 r
  (List.range (keyTile kv8)).map fun i =>
    if seen.contains (lo + i) then s.keyLine (s.histAt x.root kv8 x.chain (lo + i)).2 kv8 ((lo + i) % rowTokens kv8)
    else zeroLine 128

/-- The dot products of a query with the key columns of a pass: every column of the tile takes its draws (R53, R128). -/
def keyDots (r : Res) (q : Line) (cols : List Line) : Cm (List FVal) :=
  let size := if q.scales.isEmpty then (if attKv8 r then 128 else 32) else groupSize r.a.scl
  (cols.zipIdx).mapM fun c => accBlock 0 128 size 0 c.2 q c.1 fzero

/-- The sums of an array row of the key product put in the accumulator file: in W4 in both banks, keys 128 to 255 in bank 1
(R184). -/
def fileDots (i : Nat) (xs : List FVal) : Cm Unit := do
  accPut i 0 ((xs.take 128).map toW32)
  if 128 < xs.length then accPut (256 + i) 0 ((xs.drop 128).map toW32)

/-- The key product of a tile: pass by pass over the rows that share one, each row in ascending place, then the zero rows
beyond the tile's edge; the dot products of each row with the keys from lo, none for a row that names no leaf read there. -/
def State.keyPasses (s : State) (r : Res) (lo edge : Nat) (rows : List AttRow) (vis : List (List Nat)) :
    Cm (List (List FVal)) := do
  let keys := rows.map (s.passKey r lo)
  let all := (rows.zip (keys.zip vis)).zipIdx
  let done ← (keys.eraseDups).mapM fun key => do
    let mine := all.filter fun e => e.1.2.1 == key
    let seen := (mine.flatMap fun e => e.1.2.2).eraseDups
    match mine with
    | [] => pure []
    | x :: _ =>
      if seen.isEmpty then pure [] else do
        let cols := s.keyCols r lo seen x.1.1
        let out ← mine.mapM fun e => do
          let v ← keyDots r e.1.1.query cols
          fileDots e.2 v
          pure (e.2, v)
        let _ ← (List.range edge).mapM fun _ => keyDots r { x.1.1.query with vals := List.replicate 128 fzero } cols
        pure out
  pure ((List.range rows.length).map fun i => ((done.flatten.find? fun e => e.1 == i).map (·.2)).getD [])

/-- The logits of a row: each key's dot product drained and scaled, with its bias (R185). -/
def State.logits (s : State) (r : Res) (core b lo : Nat) (x : AttRow) (dots : List FVal) : Cm (List (Nat × FVal)) :=
  ((dots.zipIdx).filter fun d => decide (lo + d.2 < x.run.kvLen)).mapM fun d => do
    let k := lo + d.2
    let v ← rneC (fmul d.1 (ofW32 (wd r.words 14)))
    let v ← match s.biasAt r core b k x with
      | some w => stoC (k % 128) (fadd v w)
      | none => pure v
    pure (k, v)

/-! ### The softmax and the value product (R185, R186) -/

/-- The weight of a key in the value product: E4M3, or BF16. -/
def probWord (bf : Bool) (p : FVal) : FVal :=
  let f := if bf then 5 else 3
  decodeElem f (convElem rneShr f 0 p).1

/-- One dimension of the value product over the kept keys of a tile from lo: group by group, every group drawing. Dimension
dd draws from generator dd, with P_BF16 too, whose second pass of 64 dimensions the spec gives no entries (DEDUCED from R184,
log 43). -/
def valueDim (bf kv8 : Bool) (lo dd : Nat) (ps : List (Nat × FVal × Line)) : Cm FVal :=
  let gs := if kv8 || bf then 128 else 32
  (List.range (keyTile kv8 / gs)).foldlM (fun acc g =>
    let mine := ps.filter fun p => decide (lo + g * gs ≤ p.1) && decide (p.1 < lo + (g + 1) * gs)
    let val (p : Nat × FVal × Line) : FVal :=
      let v := p.2.2.vals.getD dd fzero
      fmul p.2.1 (if bf then fmul v (p.2.2.scales.getD dd fone) else v)
    let sw := if bf then fone else ((mine.head?).map fun p => p.2.2.scales.getD dd fone).getD fone
    accAdd dd acc (groupPartial (mine.map val)) fone sw) fzero

/-- The value product of a row over the kept keys of a tile: every dimension's sum, which stands in entries 128 on of bank 0
(R184). -/
def valueSums (r : Res) (lo i : Nat) (vs : List (Nat × FVal × Line)) : Cm (List FVal) := do
  let ts ← (List.range 128).mapM fun dd => valueDim (attBf r) (attKv8 r) lo dd vs
  accPut (128 + i) 0 (ts.map toW32)
  pure ts

/-- One key tile of one row, the ith of its tile: the running maximum, sum and outputs. xs are the logits of its kept keys. The
sum's s × c + Σ is rounded once, as the fused add of o is (DEDUCED from R185, log 43). -/
def State.attStep (s : State) (r : Res) (lo i : Nat) (x : AttRow) (xs : List (Nat × FVal)) (a : AttAcc) : Cm AttAcc :=
  if xs.isEmpty then pure a else do
    let mn := xs.foldl (fun m k => pick true m k.2) a.mx
    let q ← Sys2Proof.Machine.draw 0
    let d := round32 (stoShr q) (fsub a.mx mn)
    let d ← if isInf a.mx then pure d else note d
    let c ← transcC 0 d
    let ps ← xs.mapM fun k => do
      let e ← stoC (k.1 % 128) (fsub k.2 mn)
      let p ← transcC 0 e
      pure (k.1, p)
    let lanes ← laneSums fadd (ps.map fun p => (p.2, p.1 - lo))
    let t ← treeSum lanes
    let sum ← stoC 0 (fadd (fmul a.sum c) t)
    let vs ← ps.mapM fun p => do
      let v ← s.valueLine x.root (attKv8 r) x.run.kvLen x.chain p.1
      pure (p.1, probWord (attBf r) p.2, v)
    let ts ← valueSums r lo i vs
    let o ← (a.o.zip ts).zipIdx.mapM fun v => stoC v.2 (fadd (fmul v.1.1 c) v.1.2)
    pure ⟨mn, sum, o, true⟩

/-- One key tile of a row tile: the whole key product and its drain, then each row's biases, softmax, value product and
combination (R534); edge zero rows follow in each pass (R128). -/
def State.attTile (s : State) (r : Res) (core b lo edge : Nat) (rows : List AttRow) (accs : List AttAcc) :
    Cm (List AttAcc) :=
  let vis := rows.map (s.seenKeys r core lo)
  if vis.all (·.isEmpty) then pure accs else do
    let dots ← s.keyPasses r lo edge rows vis
    let out ← ((((rows.zip dots).zip vis).zip accs).zipIdx).mapM fun e => do
      let x := e.1.1.1.1
      let xs ← s.logits r core b lo x e.1.1.1.2
      s.attStep r lo e.2 x (xs.filter fun k => e.1.1.2.contains k.1) e.1.2
    let _ ← (List.range edge).mapM fun i => valueSums r lo (rows.length + i) []
    pure out

/-- The outputs of a row: through the reciprocal of its sum and the epilogue; zero and EMPTY where no key was kept. -/
def State.attOut (s : State) (r : Res) (core b : Nat) (a : AttAcc) : Cm (List Nat) := do
  let outs ← if a.kept then do
      let q ← transcC 1 a.sum
      a.o.mapM fun v => rneC (fmul v q)
    else do
      noteEmpty
      pure (List.replicate 128 fzero)
  (outs.zipIdx).mapM fun v => epiPlain (s.epiAt r core (b * epiUnits 128) v.2) r.sto v.2 r.d.fmt v.1

/-- The array rows of a row tile that a run covers. -/
def State.attRows (s : State) (r : Res) (core b t : Nat) : List AttRow :=
  (List.range (min r.tileM (r.m * qPer r - t * r.tileM))).filterMap fun i => s.attRow r core b (t * r.tileM + i)

/-- Key tiles of a row tile. -/
def keyTiles (r : Res) (rows : List AttRow) : Nat :=
  let w := keyTile (attKv8 r)
  (rows.foldl (fun n x => max n x.run.kvLen) 0 + w - 1) / w

/-- A row tile of one batch element. -/
def State.attRowTile (s : State) (r : Res) (core b t : Nat) : Cm (List Eff) := do
  let rows := s.attRows r core b t
  let edge := r.tileM - (r.m * qPer r - t * r.tileM)
  let w := keyTile (attKv8 r)
  let accs ← (List.range (keyTiles r rows)).foldlM (fun accs kt => s.attTile r core b (kt * w) edge rows accs)
    (rows.map fun _ => AttAcc.start)
  let outs ← (rows.zip accs).mapM fun x => do
    let ws ← s.attOut r core b x.2
    pure (r.putRow core b x.1.m (128 * x.1.h) (128 * qPer r) ws [])
  pure outs.flatten

/-- The row tiles of a core in each batch element. -/
def attTiles (r : Res) (gr : Nat) : List (Nat × Nat) :=
  (List.range r.b).flatMap fun b => (tilesOf (r.m * qPer r) r.tileM r.gridRows gr).map fun t => (b, t)

/-- The slice of a core: row tiles of the pairs in each batch element. -/
def State.attBody (s : State) (r : Res) (gr core : Nat) : Cm (List Eff) := do
  let effs ← (attTiles r gr).mapM fun x => s.attRowTile r core x.1 x.2
  pure effs.flatten

/-! ### The passes (R184, R186, R187) -/

/-- The words of a key as the front loads them, dimension by dimension. -/
def State.keyWords (s : State) (r : Res) (x : AttRow) (k : Nat) : List Nat :=
  let kv8 := attKv8 r
  let h := (s.histAt x.root kv8 x.chain k).2
  let t := k % rowTokens kv8
  if h = Config.nullHandle then List.replicate 128 0
  else if kv8 then ((s.content h).read (128 * t) 128).map (·.toNat)
  else (List.range 128).map (rawElem 4 ((s.content h).read (64 * t) 64))

/-- The words of the values of a key and whether each is an 8-bit element; with P_BF16 the BF16 words of value times scale. -/
def State.valueWords (s : State) (r : Res) (x : AttRow) (k : Nat) : List Nat × Bool :=
  let kv8 := attKv8 r
  let t := k % rowTokens kv8
  let raw := match s.valuePlace x.root kv8 x.run.kvLen x.chain k with
    | .zeros => (List.replicate 128 0, kv8)
    | .window w => ((s.openWords w x.chain k).map (·.1), true)
    | .leaf h => if kv8 then (((s.content h).read (0x8000 + 128 * t) 128).map (·.toNat), true)
        else ((List.range 128).map (rawElem 4 ((s.content h).read (0x7F80 + 64 * t) 64)), false)
  if !attBf r then raw else
    let sc := match s.valuePlace x.root kv8 x.run.kvLen x.chain k with
      | .leaf h => if kv8 then [] else e4m3s ((s.content h).read (0xF780 + 128 * (t / 32)) 128)
      | _ => []
    ((raw.1.zipIdx).map fun w => encodeElem 5 (fmul (decodeElem (if raw.2 then 3 else 2) w.1) (sc.getD w.2 fone)), true)

/-- The codes of a key pass: array row i is dimension i, and the columns are the keys of the tile. -/
def State.keyCodes (s : State) (r : Res) (lo : Nat) (seen : List Nat) (x : AttRow) : List (List (BitVec 9)) :=
  let kv8 := attKv8 r
  let ws := (List.range (keyTile kv8)).map fun i =>
    if seen.contains (lo + i) then s.keyWords r x (lo + i) else List.replicate 128 0
  (List.range 128).map fun d => cellRow (if kv8 then 3 else 2) false false 0 (ws.map fun w => w[d]?)

/-- The codes of a value pass: array row i is token lo + i, and the columns are dimensions d0 on. Of a KV4G pair the lower weight
is used; an element of an open group takes the cell whole. -/
def State.valueCodes (s : State) (r : Res) (lo d0 : Nat) (seen : List Nat) (x : AttRow) : List (List (BitVec 9)) :=
  (List.range 128).map fun i =>
    if !seen.contains (lo + i) then List.replicate 128 0 else
      let w := s.valueWords r x (lo + i)
      if attBf r then cellRow 5 false false 0 (((w.1.drop d0).take 64).map some)
      else w.1.map fun v => BitVec.ofNat 9 (if w.2 then v else 256 + v)

/-- The passes of one key tile that one set of rows shares: the key pass, and the value passes, of which KV4G has one for each 128
tokens, and P_BF16 one for each 64 dimensions of those. n numbers the set among the blocks of its tile. -/
def State.tileOrder (s : State) (r : Res) (id b kt n : Nat) (seen : List Nat) (x : AttRow) : List Pass × List Pass :=
  let w := keyTile (attKv8 r)
  let blk (part : Nat) : WBlock := ⟨id, b, kt, 8 * n + part⟩
  let parts := (List.range (w / 128)).flatMap fun v => (if attBf r then [0, 64] else [0]).map fun d => (128 * v, d)
  ([{ blk := blk 0, codes := s.keyCodes r (kt * w) seen x, rest := false }],
   (parts.zipIdx).map fun p =>
     { blk := blk (p.2 + 1), codes := s.valueCodes r (kt * w + p.1.1) p.1.2 seen x, rest := false })

/-- The passes of a row tile, its key tiles each as one list of key passes and one of value passes. -/
def State.rowTileOrder (s : State) (r : Res) (id core b t : Nat) : List (List Pass × List Pass) :=
  let rows := s.attRows r core b t
  let w := keyTile (attKv8 r)
  (List.range (keyTiles r rows)).filterMap fun kt =>
    let all := rows.map fun x => (x, s.passKey r (kt * w) x, s.seenKeys r core (kt * w) x)
    let sets := (all.map (·.2.1)).eraseDups.filterMap fun key =>
      let mine := all.filter fun e => e.2.1 == key
      let seen := (mine.flatMap (·.2.2)).eraseDups
      if seen.isEmpty then none else mine.head?.map fun e => (seen, e.1)
    let ps := (sets.zipIdx).map fun e => s.tileOrder r id b kt (e.2 + 64 * t) e.1.1 e.1.2
    if ps.isEmpty then none else some (ps.flatMap (·.1), ps.flatMap (·.2))

/-- Each key tile's key passes before the value passes of the tile before it (R187). -/
def weave : List (List Pass × List Pass) → List Pass
  | [] => []
  | (ks, vs) :: rest =>
    let rec go (vs : List Pass) : List (List Pass × List Pass) → List Pass
      | [] => vs
      | x :: rest => x.1 ++ vs ++ go x.2 rest
    ks ++ go vs rest

/-- The passes of a core. -/
def State.attOrder (s : State) (r : Res) (id gr core : Nat) : List Pass :=
  (attTiles r gr).flatMap fun x => weave (s.rowTileOrder r id core x.1 x.2)

/-! ### The work -/

/-- The array rows of an ATTEND with the core that serves each and the keys it sees. -/
def State.attReads (s : State) (r : Res) : List (Nat × AttRow × List Nat) :=
  let w := keyTile (attKv8 r)
  (List.range r.gridRows).flatMap fun gr =>
    let core := r.base + gr * r.gridCols
    (attTiles r gr).flatMap fun x => (s.attRows r core x.1 x.2).map fun a =>
      (core, a, (List.range ((a.run.kvLen + w - 1) / w)).flatMap fun kt => s.seenKeys r core (kt * w) a)

/-- The leaves that a row's keys are read from (R159, R189). -/
def State.attPins (s : State) (r : Res) (x : AttRow × List Nat) : List Handle :=
  (x.1.root :: x.2.flatMap fun k =>
    let h := s.histAt x.1.root (attKv8 r) x.1.chain k
    [h.1, h.2] ++ (if groupOpen (attKv8 r) x.1.run.kvLen k then [s.entryAt x.1.root (windowOff (x.1.chain / 4))]
      else [])).eraseDups

/-- KV_FMT and the chains against a run's root (R183). -/
def State.attRefused (s : State) (r : Res) : Bool :=
  r.shape.runs.any fun u =>
    decide (u.rowFirst < r.m) &&
    (let root := (s.stream (r.shape.streamOf u.rowFirst)).spineRoot
     s.rootKv8 root != attKv8 r || decide (s.rootChains root < attChain r 0 + r.b))

/-- The work of ATTEND. -/
def attendWork (s : State) (c : Cmd) (r : Res) : Work :=
  let reads := s.attReads r
  let n := qPer r
  let tiles (gr gc : Nat) : Bool := gc == 0 && !(attTiles r gr).isEmpty
  let core (gr : Nat) : Nat := r.base + gr * r.gridCols
  let pairs (gr gc : Nat) : List Nat := if gc = 0 then sliceIdx (r.m * n) r.tileM r.gridRows gr else []
  { refuse := if s.attRefused r then cAlign else cDone
    empty := r.m == 0 || r.b == 0
    reads := [⟨r.a, r.b, r.m * n * rowBytes 128 (elemBits r.a.fmt),
      if r.a.scl = 0 then 0 else r.m * n * (128 / groupSize r.a.scl), r.m⟩]
    writes := r.destExt (128 * n)
    rspans := reads.map fun x => ⟨4, histObj (r.shape.streamOf x.2.1.m) x.2.1.chain, 0, x.2.1.run.kvLen⟩
    pins := reads.flatMap fun x => s.attPins r x.2
    readers := (reads.flatMap fun x => (s.attPins r x.2).map fun h => (h, x.1)) ++ s.readersOf r r.a 128 fun gr gc => (pairs gr gc).map fun i =>
      ((if r.a.space = 3 then r.shape.rowIn (i / n) else i / n) * n + i % n, r.shape.streamOf (i / n))
    skewed := s.pairSkew r r.a 128 pairs ||
      (!attKv8 r && reads.any fun x => x.2.2.any fun k => s.histSkew x.2.1.root x.2.1.run.kvLen x.2.1.chain k)
    staged := stagedOf r r.a 128 tiles
    uses := ((List.range r.gridRows).filter fun gr => tiles gr 0).map core
    order := (List.range r.gridRows).map fun gr => (core gr, s.attOrder r c.id gr (core gr))
    body := (List.range r.gridRows).map fun gr => (core gr, s.attBody r gr (core gr)) }

/-- ATTEND. -/
def execAttend (id : Nat) (s : State) : Host.Outcome State Fault Refusal := .next (s.issue id 0x03 attendWork)

end Sys2Proof.Machine
end

