-- ==== Sys2Proof/Machine/Imprint.lean ====
section
/-! DEFINITION. Imprints, firmware, the version counter (R450, R457, R458), the errata log's reads, mirror and fold (R463,
R464), windows (R468), attestation (R459), telemetry reads and caps (R500, R503). -/

namespace Sys2Proof.Machine

/-! ### Frames of KIND 8 (R484) -/

/-- A KIND 8 frame written to the Maltster's buffer under a fresh handle, whose entry holds one reference (R481, R484). -/
def State.putMirror (s : State) (part slot fmt : Nat) (w4 w5 w6 w7 : W32) (data : Bytes) : Option (Handle × State) :=
  match s.cellar.place with
  | none => none
  | some (f, c) =>
    let h := s.freeHandle
    let fr : CellarFrame :=
      { handle := w32 h, kind := 8, partition := part, slot := slot, writeSeq := c.writeSeq + 1, w4 := w4, w5 := w5,
        w6 := w6, w7 := w7, data := data, current := true, programmed := false }
    let s := { s with cellar := { c with frames := c.frames ++ [(f, fr)], writeSeq := c.writeSeq + 1 } }
    some (h, s.setLeaf h { Leaf.free with ref := 1, inCellar := true, format := fmt, partition := part, cellarFrame := f })

/-! ### The errata log -/

/-- The records of the ring that are not mirrored yet, oldest first. -/
def Errata.unmirrored (e : Errata) : List ErrRec := e.ring.filter fun r => decide (e.mirrored < r.seq.toNat)

/-- One mirror frame of 1 024 records written where that many wait and the governor admits it, below CELLAR_MIN too (R464,
R469). -/
def State.mirrorErrata (s : State) : State :=
  let rs := s.errata.unmirrored.take 1024
  match rs with
  | [] => s
  | first :: _ =>
    if rs.length < 1024 || !s.govOpen || !s.cellar.ready then s else
      match s.govTake.putMirror 0 0 0 (w32 (s.addr.toNat + (2 <<< 20))) (first.seq.setWidth 32)
          (w32 (((first.seq >>> 32).toNat % 65536) <<< 16)) 1024
          ((Bytes.empty .plain).write 0 (rs.flatMap recordBytes)) with
      | some (_, s) => { s with errata := { s.errata with mirrored := first.seq.toNat + 1023 } }
      | none => s

/-- ERRATA_FOLD_FLUSH: the record being folded is written at 1 s (R463), and a full mirror frame is written (R464). -/
def execErrataFoldFlush (s : State) : Host.Outcome State Fault Refusal :=
  .next ({ s with errata := s.errata.flush s.now }).mirrorErrata

/-- The bytes of the record with a SEQ, from the ring or the cellar mirror, if held (R464). -/
def State.errataBytes (s : State) (seq : Nat) : Option (List Byte) :=
  match s.errata.ring.find? fun r => r.seq.toNat == seq with
  | some r => some (recordBytes r)
  | none =>
    let first (f : CellarFrame) : Nat := f.w5.toNat + ((bits f.w6 31 16) <<< 32)
    match s.cellar.frames.find? fun f => f.2.current && f.2.kind == 8 && bits f.2.w4 21 20 == 2 &&
        decide (first f.2 ≤ seq) && decide (seq < first f.2 + 1024) with
    | some f => some (f.2.data.read (64 * (seq - first f.2)) 64)
    | none => none

/-- SEQ of the oldest record held (R456). -/
def State.errataOldest (s : State) : Nat :=
  let ring := match s.errata.ring with
    | r :: _ => r.seq.toNat
    | [] => 0
  (s.cellar.frames.filter fun f => f.2.current && f.2.kind == 8 && bits f.2.w4 21 20 == 2).foldl
    (fun m f => min m (f.2.w5.toNat + ((bits f.2.w6 31 16) <<< 32))) ring

/-- Records from a SEQ on, up to n, stopping at the first not held. -/
def State.errataRun (s : State) : Nat → Nat → List (List Byte)
  | 0, _ => []
  | n + 1, seq =>
    match s.errataBytes seq with
    | some b => b :: State.errataRun s n (seq + 1)
    | none => []

/-- READ_ERRATA (R456, R464). -/
def execReadErrata (q tag : Nat) (s : State) : Host.Outcome State Fault Refusal :=
  .next (s.onStarted q tag 0x54 (fun _ => true) fun t =>
    let rs := s.errataRun (t.arg 3).toNat (t.arg 2 ++ t.arg 1).toNat
    (s.toBuffer t rs.flatten).finish q tag cDone (w32 rs.length) (w32 s.errataOldest))

/-! ### Imprint and firmware -/

/-- The slot that is not running. -/
def State.otherSlot (s : State) : Nat := 1 - s.ident.runSlot % 2

/-- The anchor after a rotation: PREV_HASH takes KEY_HASH, KEY_HASH the hash of SIGNER_PK (R457). -/
def State.rotate (s : State) (im : Imprint) : State :=
  if im.rotation then s.setAnchor im.signerHash s.nor.keyHash else s

/-- INSTALL_IMPRINT: judged against the target slot's firmware, a failure of the signature or the version
being a security event (R427, log 170); written, then PREFERRED set, then the rotation (R457). -/
def execInstallImprint (q tag : Nat) (image : Imprint) (s : State) : Host.Outcome State Fault Refusal :=
  .next (s.onStarted q tag 0x50 (fun _ => true) fun t =>
    let k := s.otherSlot
    if decide (t.bufBytes < imprintBytes image.rotation) then s.finish q tag cAlign 0 0
    else if image.rotation && s.nor.prevHash != 0 then s.finish q tag cRole (imprintVersion image) 0
    else
      let v := judge s.nor true (s.nor.fwOf k) (some image)
      if v.1 != cDone then
        let s := s.recordBy 0x02 t.role q v.1 (w32 k) (w32 v.2)
        (if classOf v.1 = 4 then s.attention 4 v.1 (w32 k) (w32 v.2) else s).finish q tag v.1 (imprintVersion image) (w32 v.2)
      else
        let s := { s with nor := { s.nor with im := s.nor.im.set k (some image), preferred := k } }
        (s.rotate image).finish q tag cDone (imprintVersion image) 0)

/-- INSTALL_FIRMWARE: verified under R443 and written to the slot not running (R458). -/
def execInstallFirmware (q tag : Nat) (image : Firmware) (s : State) : Host.Outcome State Fault Refusal :=
  .next (s.onStarted q tag 0x51 (fun _ => true) fun _ =>
    if image.sigOk then
      ({ s with nor := { s.nor with fw := s.nor.fw.set s.otherSlot (some image) } }).finish q tag cDone image.version 0
    else (s.attention 4 cSig 0x51 image.version).finish q tag cSig image.version 0)

/-- Counter-increment records (KIND 0x07), one for each increment. -/
def State.countUp : Nat → State → State
  | 0, s => s
  | n + 1, s =>
    let v := s.nor.versionCounter + 1
    State.countUp n (({ s with nor := { s.nor with versionCounter := v } }).record 0x07 0 0 v)

/-- COMMIT_VERSION: the counter rises to the running imprint's version; PREV_HASH becomes zero, an anchor change where it
was not (R450). -/
def execCommitVersion (q tag : Nat) (s : State) : Host.Outcome State Fault Refusal :=
  .next (s.onStarted q tag 0x52 (fun _ => true) fun _ =>
    let v := (s.ident.imprint.map imprintVersion).getD s.nor.versionCounter
    let s := State.countUp (v.toNat - s.nor.versionCounter.toNat) s
    let s := if s.nor.prevHash = 0 then s else s.setAnchor s.nor.keyHash 0
    s.finish q tag cDone s.nor.versionCounter s.nor.anchorSerial)

/-! ### Windows -/

/-- OPEN_WINDOW: the companion colophon set; a second one replaces it (R468). -/
def execOpenWindow (q tag : Nat) (companion : Digest) (s : State) : Host.Outcome State Fault Refusal :=
  .next (s.onStarted q tag 0x55 (fun _ => true) fun t =>
    (({ s with ident := { s.ident with window := some companion } }).recordBy 0x0A t.role q 0 1
      (t.arg 1)).finish q tag cDone 0 0)

/-- The window closed, with its record. -/
def State.closeWindow (s : State) (role pair : Nat) : State :=
  if s.ident.window.isSome then
    ({ s with ident := { s.ident with window := none } }).recordBy 0x0A role pair 0 0 0
  else s

def execCloseWindow (q tag : Nat) (s : State) : Host.Outcome State Fault Refusal :=
  .next (s.onStarted q tag 0x56 (fun _ => true) fun t => (s.closeWindow t.role q).finish q tag cDone 0 0)

def execWindowExpiry (s : State) : Host.Outcome State Fault Refusal := .next (s.closeWindow 0 0)

/-! ### Attestation -/

/-- The 224 bytes of an attestation report (R459). -/
def State.report (s : State) (nonce : List W32) : List Byte :=
  wordsBytes (nonce.take 2) ++ leBytes 32 Config.identityDigest.toNat ++
  leBytes 32 (if s.power.config = 2 then 0 else s.ident.colophon.toNat) ++
  leBytes 4 ((s.ident.imprint.map fun i => (imprintVersion i).toNat).getD 0) ++
  leBytes 4 ((s.ident.firmware.map fun f => f.version.toNat).getD 0) ++ leBytes 4 s.nor.versionCounter.toNat ++
  leBytes 4 (s.ident.runSlot + 2 * s.power.config) ++ leBytes 8 s.errataSeq.toNat ++
  leBytes 32 s.errata.chain.toNat ++ wordsBytes s.cap ++ leBytes 32 Config.attestKey.toNat

/-- ATTEST: the report, followed by the attestation key's signature over it. -/
def execAttest (q tag : Nat) (s : State) : Host.Outcome State Fault Refusal :=
  .next (s.onStarted q tag 0x58 (fun _ => true) fun t =>
    let r := s.report [t.arg 1, t.arg 2]
    (s.toBuffer t (r ++ (List.range 17088).map (Config.attestSign r))).finish q tag cDone 0 0)

/-! ### Power cap and telemetry reads (R500, R503) -/

/-- CAP_LIMIT; 0 selects 350 W. -/
def State.capLimit (s : State) : Nat :=
  let n := bits (s.sys 52) 15 0
  if n = 0 then 350 else n

/-- The cap in effect (R503): the least of CAP_LIMIT, the operator cap, and CAP_SYNC while the throttle input is
asserted. -/
def State.capInEffect (s : State) : Nat :=
  let a := if s.power.opCap = 0 then s.capLimit else min s.capLimit s.power.opCap
  if (s.modw 0).getLsbD 21 && s.power.syncCap then min a (bits (s.sys 52) 31 16) else a

def execPowerCap (q tag : Nat) (s : State) : Host.Outcome State Fault Refusal :=
  .next (s.onStarted q tag 0x42 (fun _ => true) fun t =>
    let s := { s with power := { s.power with opCap := bits (t.arg 1) 15 0 } }
    s.finish q tag cDone (w32 s.capInEffect) 0)

/-- READ_TELEMETRY: the latest telemetry record. -/
def execReadTelemetry (q tag : Nat) (s : State) : Host.Outcome State Fault Refusal :=
  .next (s.onStarted q tag 0x43 (fun _ => true) fun t =>
    (s.toBuffer t (wordsBytes ((s.power.telemetry ++ List.replicate 16 0).take 16))).finish q tag cDone 0 0)

/-- The SYNC throttle input, where the imprint assigns the pin to it (R503, R533). -/
def execSyncThrottleInput (level : Bool) (s : State) : Host.Outcome State Fault Refusal :=
  .next (if (s.modw 0).getLsbD 21 then { s with power := { s.power with syncCap := level } } else s)

end Sys2Proof.Machine
end

