-- ==== Sys2Proof/Machine/Scan.lean ====
section
/-! DEFINITION. SCAN (R201 to R215): state blocks, where a run reads its state, the recurrence and its block exponent. -/

namespace Sys2Proof.Machine

/-! ### State blocks (R202, R215) -/

/-- A state block: its mantissas and its exponent. -/
structure SBlock where
  ms : List Int
  exp : Nat

/-- A block of 128 bytes. -/
def SBlock.ofBytes (bs : List Byte) : SBlock :=
  let ws := bytesWords 32 bs
  ⟨ws.map fun w => (w.setWidth 24).toInt, bits (wd ws 0) 31 24⟩

/-- The 128 bytes of a block. -/
def SBlock.toBytes (b : SBlock) : List Byte :=
  wordsBytes ((b.ms.zipIdx).map fun m =>
    w32 ((BitVec.ofInt 24 m.1).toNat + (if m.2 = 0 then b.exp <<< 24 else 0)))

/-- The values of a block; those of a non-finite block are NaN. -/
def SBlock.vals (b : SBlock) : List FVal :=
  b.ms.map fun m => if b.exp = 255 then .nan else .fin (m < 0) m.natAbs ((b.exp : Int) - 147)

/-- The exponent of the leading bit of a finite nonzero value. -/
def leadOf : FVal → Option Int
  | .fin _ m e => if m = 0 then none else some (e + bitLen m - 1)
  | _ => none

/-- Doublings of the mantissas while the exponent is above 0 and the greatest is below 2^20. -/
def renorm : Nat → List Int → Nat → List Int × Nat
  | 0, ms, e => (ms, e)
  | n + 1, ms, e =>
    if 0 < e ∧ ms.all (fun m => decide (m.natAbs < 0x100000)) then renorm n (ms.map (· * 2)) (e - 1) else (ms, e)

/-- One step of a block (R215): coefficients, input and generator of each of its elements. An all-zero block keeps its
exponent, as the text says, where the loop of the pseudocode would lower it (DEDUCED, log 148); a block that ends early, not
finite or above the greatest exponent, takes no draw, as the pseudocode returns before its roundings (DEDUCED, log 148). -/
def stepBlock (blk : SBlock) (pos : Nat) (co : List (FVal × FVal × FVal × Nat)) : Cm SBlock := do
  let vs := (blk.vals.zip co).map fun x => fadd (fmul x.2.1 x.1) (fmul x.2.2.1 x.2.2.2.1)
  let vs ← vs.mapM note
  if vs.any fun v => !isFin v then pure { blk with exp := 255 } else
    let top := (vs.filterMap leadOf).foldl (fun e l => max e (l + 127)) (blk.exp : Int)
    if 251 < top then
      let _ ← note (.inf false)
      pure { blk with exp := 255 }
    else
      let ms ← (vs.zip co).mapM fun x => do
        let r ← draw x.2.2.2.2
        pure (roundInt (stoShr r) (fmul x.1 (.fin false 1 (147 - top))))
      if pos % 64 = 63 ∧ ms.any (· != 0) then
        let q := renorm 256 ms top.toNat
        pure ⟨q.1, q.2⟩
      else pure ⟨ms, top.toNat⟩

/-! ### Operands (R208, R210) -/

/-- STATE_DIM. -/
def stateDim (r : Res) : Nat := bits (wd r.words 13) 8 0

/-- The coefficient operand. -/
def coefOpd (r : Res) : Opd := mkOpd (wd r.words 14) (wd r.words 15) 0

/-- Bytes of a coefficient record. -/
def coefRec (r : Res) : Nat := rowBytes (r.n + 2 * stateDim r) (elemBits (coefOpd r).fmt)

/-- The coefficients of row m of batch element b: a by channel, b and c by state index. -/
def State.coefs (s : State) (r : Res) (core b m : Nat) : List FVal × List FVal × List FVal :=
  let o := coefOpd r
  let sd := stateDim r
  let bs := s.opRead r o.space core 0 (o.addr + (b * r.m + m) * coefRec r) (coefRec r)
  let vs := (List.range (r.n + 2 * sd)).map fun i => decodeElem o.fmt (rawElem (elemBits o.fmt) bs i)
  (vs.take r.n, (vs.drop r.n).take sd, vs.drop (r.n + sd))

/-- The first channel of a slice and the number of its channels. -/
def scanSlice (r : Res) (gc : Nat) : Nat × Nat :=
  let per := 32 / min 32 (stateDim r)
  let w := ((r.n + r.gridCols - 1) / r.gridCols + per - 1) / per * per
  (min r.n (gc * w), min r.n ((gc + 1) * w) - min r.n (gc * w))

/-- The first unit of the state of batch element b (R203). -/
def stateUnit (r : Res) (b : Nat) : Nat := bits (wd r.words 7) 27 0 + b * (wd r.words 11).toNat

/-! ### Where a run reads its state (R203, R207) -/

/-- The source of a page at a position: zero, a page handle (null reads as zeros), or none when no source applies. -/
inductive Source_ where
  | zero
  | page (h : Handle)
  | none_
  deriving DecidableEq, Repr

/-- The source of page p of a stream for a run at position q; fresh tells that the run starts from zero. -/
def State.pageSource (s : State) (i p q : Nat) (fresh : Bool) : Source_ :=
  if fresh then .zero
  else
    let e := s.stream i
    let b := s.content e.stateLeaf
    let at_ := b.word (advPosOff p)
    if at_ = q && at_ != 0xFFFFFFFF then .page (b.word (advOff p))
    else if at_ = 0xFFFFFFFF && e.position = q then .page (b.word (baseOff p))
    else .none_

/-- Does a run of a command start from zero: RESET, the first run of a keyframe refresh, or a training wave (R375)? -/
def State.freshRun (s : State) (c : Cmd) (u : Run) (i : Nat) : Bool :=
  let e := s.stream i
  c.trains || e.reset || (c.runs.any fun v => v.run.rowFirst == u.rowFirst && v.kind == .refresh) && e.refreshDone == 0

/-- A state block's bytes. -/
def State.blockBytes (s : State) (i unit_ q : Nat) (fresh : Bool) : List Byte :=
  match s.pageSource i (unit_ / 1024) q fresh with
  | .page h => if h = Config.nullHandle then List.replicate 128 0 else (s.content h).read (64 * (unit_ % 1024)) 128
  | _ => List.replicate 128 0

/-! ### The computation (R211, R212) -/

/-- One position of a slice: the blocks advanced, then the output of every channel. -/
def State.scanRow (s : State) (r : Res) (core b m pos d0 nch : Nat) (blks : List SBlock) :
    Cm (List SBlock × List Nat) := do
  let sd := stateDim r
  let co := s.coefs r core b m
  let xs := s.vecRow r r.a core b m r.n
  let next ← (blks.zipIdx).mapM fun k => stepBlock k.1 pos ((List.range 32).map fun i =>
    let l := 32 * k.2 + i
    (co.1.getD (d0 + l / sd) fzero, co.2.1.getD (l % sd) fzero, xs.getD (d0 + l / sd) fzero, l % 128))
  let h := next.flatMap SBlock.vals
  let ys ← (List.range nch).mapM fun j =>
    rowSum ((List.range sd).map fun t => fmul (co.2.2.getD t fzero) (h.getD (j * sd + t) fzero))
  let ws ← (ys.zipIdx).mapM fun y =>
    epiPlain (s.epiAt r core (b * epiUnits r.n) (d0 + y.2)) r.sto ((d0 + y.2) % 128) r.d.fmt y.1
  pure (next, ws)

/-- One run of a slice: its rows in order, then its state for the shadow pages. -/
def State.scanRun (s : State) (r : Res) (core b d0 nch : Nat) (fresh : Run → Nat → Bool) (u : Run) : Cm (List Eff) := do
  let sd := stateDim r
  let i := r.shape.streamOf u.rowFirst
  let u0 := stateUnit r b + 2 * (d0 * sd / 32)
  let blks := (List.range (nch * sd / 32)).map fun k =>
    SBlock.ofBytes (s.blockBytes i (u0 + 2 * k) u.qPos0 (fresh u i))
  let count := min u.rowCount (r.m - u.rowFirst)
  let out ← (List.range count).foldlM (fun (a : List SBlock × List Eff) t => do
    let m := u.rowFirst + t
    let x ← s.scanRow r core b m (u.qPos0 + t) d0 nch a.1
    pure (x.1, a.2 ++ r.putRow core b m d0 r.n x.2 [])) (blks, [])
  pure (out.2 ++ [.state i u0 (out.1.flatMap SBlock.toBytes) (u.qPos0 + count)])

/-- The runs with a row in the command. -/
def scanRuns (r : Res) : List Run := r.shape.runs.filter fun u => decide (u.rowFirst < r.m)

/-- The slice of a core. -/
def State.scanBody (s : State) (r : Res) (fresh : Run → Nat → Bool) (gc core : Nat) : Cm (List Eff) := do
  let d := scanSlice r gc
  if d.2 = 0 then pure [] else
    let work := (List.range r.b).flatMap fun b => (scanRuns r).map fun u => (b, u)
    let effs ← work.mapM fun x => s.scanRun r core x.1 d.1 d.2 fresh x.2
    pure effs.flatten

/-! ### The work -/

/-- The pages that n units from u reach. -/
def unitPages (u n : Nat) : List Nat :=
  if n = 0 then [] else (List.range ((u + n + 1023) / 1024 - u / 1024)).map (u / 1024 + ·)

/-- The pages of a command's state. -/
def scanPages (r : Res) : List Nat :=
  ((List.range r.b).flatMap fun b => unitPages (stateUnit r b) (r.n * stateDim r / 16)).eraseDups

/-- The cores of a command that hold channels, each with its slice: first channel and number. -/
def scanCores (r : Res) : List (Nat × Nat × Nat) :=
  ((List.range r.gridCols).map fun gc => (r.base + gc, scanSlice r gc)).filter fun x => x.2.2 != 0

/-- Which core reads which leaf of the state (R285): the state leaves, and the pages in which the core's channels lie. -/
def State.scanReaders (s : State) (r : Res) (fresh : Run → Nat → Bool) : List (Handle × Nat) :=
  let sd := stateDim r
  (scanCores r).flatMap fun x => (scanRuns r).flatMap fun u =>
    let i := r.shape.streamOf u.rowFirst
    let pages := ((List.range r.b).flatMap fun b => unitPages (stateUnit r b + x.2.1 * sd / 16) (x.2.2 * sd / 16)).eraseDups
    ((s.stream i).stateLeaf :: pages.filterMap fun p =>
      match s.pageSource i p u.qPos0 (fresh u i) with
      | .page h => some h
      | _ => none).map fun h => (h, x.1)

/-- Is it an effect on a state page? -/
def Eff.isState : Eff → Bool
  | .state .. => true
  | _ => false

/-- The work of SCAN: its state leaf and the pages it reads must be in the cask (R284). A training wave writes no page and
reads no state leaf (R375). The lane partials of its output sums stand in the vector scratch (R135; the bytes are DEDUCED,
log 147). -/
def scanWork (s : State) (c : Cmd) (r : Res) : Work :=
  let sd := stateDim r
  let o := coefOpd r
  let fresh := s.freshRun c
  let srcs := (scanRuns r).flatMap fun u =>
    let i := r.shape.streamOf u.rowFirst
    (scanPages r).map fun p => s.pageSource i p u.qPos0 (fresh u i)
  let leaves := if c.trains then [] else (scanRuns r).map fun u => (s.stream (r.shape.streamOf u.rowFirst)).stateLeaf
  let pages := realHandles (srcs.filterMap fun x =>
    match x with
    | .page h => some h
    | _ => none)
  { refuse := if r.n * sd % 32 != 0 || (r.b != 0 && decide (0x400000 < stateUnit r (r.b - 1) + r.n * sd / 16)) then cAlign
      else cDone
    empty := r.m == 0 || r.n == 0 || r.b == 0
    reads := [extOf r.a r.b r.m r.n, ⟨o, 1, r.b * r.m * coefRec r, 0, 0⟩]
    writes := r.destExt r.n
    rspans := (scanRuns r).map fun u => ⟨5, r.shape.streamOf u.rowFirst, 0, 1⟩
    pins := leaves ++ pages
    readers := if c.trains then [] else s.scanReaders r fresh
    promote := leaves ++ pages
    fault := if srcs.any (· == .none_) then cStale
      else if (List.range r.gridCols).any fun gc => decide (0x180000 < 8 * ((scanSlice r gc).2 * sd)) then cOverflow
      else cDone
    vec := (scanCores r).map fun x => (x.1, 512)
    passes := 1
    body := (List.range r.gridCols).map fun gc => (r.base + gc, do
      let es ← s.scanBody r fresh gc (r.base + gc)
      pure (if c.trains then es.filter fun e => !e.isState else es)) }

/-- SCAN. -/
def execScan (id : Nat) (s : State) : Host.Outcome State Fault Refusal := .next (s.issue id 0x04 scanWork)

end Sys2Proof.Machine
end

