-- ==== Sys2Proof/Machine/Tables.lean ====
section
/-! DEFINITION. The tables of the control port: READ_TABLE and LOAD_TABLE (R423), with the channel table's staging leaves
(R379), the directory (R354), parameter sets (R395) and schedules (R403). -/

namespace Sys2Proof.Machine

/-! ### Entries as words -/

/-- Words padded or cut to n. -/
def padWords (n : Nat) (ws : List W32) : List W32 := (ws ++ List.replicate n 0).take n

/-- The 64 bytes of a stream-table entry as words (R191). -/
def streamWords (i : Nat) (e : Stream) : List W32 :=
  let b (c : Bool) (k : Nat) : Nat := if c then 1 <<< k else 0
  padWords 16
    [w32 (i + (e.partition <<< 16) + (e.slot <<< 20) + b e.prio 26),
     w32 (b e.live 0 + b e.reset 1 + b e.pause 2 + b e.resident 3 + b e.ending 4 + b e.refresh 5 + (e.exh <<< 8)),
     w32 e.stateLeaf, w32 e.spineRoot, w32 e.position, e.epoch, w32 (e.parent + b e.forked 16), w32 e.keyPos,
     e.pauseCause.setWidth 32, w32 e.stepsLeft, w32 e.reqIndex, e.lastClose]

/-- A channel of the reduction fabric. -/
def State.chan (s : State) (c : Nat) : Channel64 := s.channels.getD c Channel64.reset

/-- A channel changed. -/
def State.modChan (s : State) (c : Nat) (f : Channel64 → Channel64) : State :=
  { s with channels := modAt s.channels c f }

/-- A parameter set with no entry. -/
def PSet.none : PSet := { entry := [], t := 0, behind := false, damaged := false }

/-- A parameter set. -/
def State.pset (s : State) (n : Nat) : PSet := alGet PSet.none n s.malt.sets

/-- A parameter set changed. -/
def State.modPSet (s : State) (n : Nat) (f : PSet → PSet) : State :=
  { s with malt := { s.malt with sets := alSet PSet.none n (f (s.pset n)) s.malt.sets } }

/-- Entry i of a table as words (R423). -/
def State.tableEntry (s : State) (t i : Nat) : List W32 :=
  match t with
  | 0 => streamWords i (s.stream i)
  | 1 => leafWords (s.leaf i)
  | 2 => padWords 16 (alGet [] i s.fabric.directory)
  | 3 => padWords 16 (s.fabric.origins.getD i [])
  | 4 => padWords 16 (s.chan i).entry
  | 5 => padWords 16 (s.pset i).entry
  | 6 => padWords 8 (alGet [] i s.malt.schedules)
  | _ => reqWords (s.req i)

/-- READ_TABLE: each entry as one atomic copy, in index order (R423). -/
def execReadTable (q tag : Nat) (s : State) : Host.Outcome State Fault Refusal :=
  .next (s.onStarted q tag 0x20 (fun _ => true) fun t =>
    let n := (t.arg 3).toNat
    let bs := (List.range n).flatMap fun i => wordsBytes (s.tableEntry (bits (t.arg 1) 3 0) ((t.arg 2).toNat + i))
    (s.toBuffer t bs).finish q tag cDone (w32 n) 0)

/-! ### Loads -/

/-- The bits of a loaded entry's words that are fields (R354, R378, R395, R403, R477). -/
def entryFields (t i : Nat) : Nat :=
  let all := 0xFFFFFFFF
  match t with
  | 2 => [0x1FFFFFF, 0x3F, 0xFFFFF, 0xFFFFF, 0xFFFFF, 0xFFFFF, 0xFFFFF, 0xFFFFF, 0xFFFFF, 0xFFFFF, all, all, all,
          all].getD i 0
  | 3 => [0x1FFFFFF, 0x3F, 0xFFFFF, 0xFFFFF, 0xFFFFF, 0xFFFFF, 0xFFFFF, 0xFFFFF, 0xFFFFF, 0xFFFFF, 0x1FFFFF].getD i 0
  | 4 => [0xFF1FFF, 0x3FFFFFF, 0xFFFFF, 0x1FFFFFF, all, 0xFFFFF, 0xFFFFF, 0xFFFFF, 0xFFFFF, 0xFFFFF, 0xFFFFF, 0xFFFFF,
          0xFFFFF, all, all].getD i 0
  | 5 => [0x3FFFFFFF, 0xFFFFFF, all, all, all, all, all, all, all, all, all, all, all, 0x7F].getD i 0
  | _ => [all, all, 0x1FFFFFFF, 0xFFFFFF, 0xF, 0xFFFFFF, all].getD i 0

/-- A loaded entry keeps its reserved bits 0 and its fields in range. A nonzero reserved bit refuses the load, as R419 refuses a
nonzero reserved field of a command, of which the buffer is a part; R10 would have the module ignore it (DEDUCED, log 161). -/
def entryOk (t : Nat) (e : List W32) : Bool :=
  onlyFields (entryFields t) e &&
  match t with
  | 4 => bits (wd e 0) 1 0 != 3 && (bits (wd e 0) 1 0 == 0 ||
      (decide (bits (wd e 0) 6 3 ≤ 8) && within 1 16777216 (bits (wd e 3) 24 0)))
  | 5 => !(wd e 0).getLsbD 0 ||
      ((bits (wd e 0) 18 15 == 0 || bits (wd e 0) 18 15 == 2) && (bits (wd e 0) 21 19 == 2 || bits (wd e 0) 21 19 == 5) &&
       (wd e 2).toNat % 128 == 0)
  | 6 => within 1 0xFFFFFF (bits (wd e 3) 23 0) && within 1 15 (bits (wd e 4) 3 0) &&
      (bits (wd e 2) 27 24 != 3 || within 1 0xFFFFFF (bits (wd e 5) 23 0)) && decide (bits (wd e 2) 27 24 ≤ 3)
  | _ => true

/-- The channel of a parameter-set entry. -/
def setChannel (e : List W32) : Nat := bits (wd e 0) 14 9

/-- May the entries of a load be loaded now: channel entries of idle channels, sets whose channel is idle (R379, R423)? -/
def State.loadable (s : State) (t first : Nat) (es : List (List W32)) : Bool :=
  match t with
  | 4 => (List.range es.length).all fun i => (s.chan (first + i)).state == 0
  | 5 => (List.range es.length).all fun i =>
      (s.chan (setChannel (s.pset (first + i)).entry)).state == 0 && (s.chan (setChannel (es.getD i []))).state == 0
  | _ => true

/-- Staging leaves of a channel entry: a quire for each input, and the exponent table (R379). -/
def stagingLeaves (e : List W32) : Nat :=
  if bits (wd e 0) 1 0 = 0 then 0 else
    16 * (1 + bits (wd e 0) 6 3 + (if bits (wd e 2) 19 0 = 0xFFFFF then 0 else 1)) +
    (bits (wd e 3) 24 0 + 65535) / 65536

/-- A single leaf for the module's own writing, by the sources of R169 that serve no stream's quire. -/
def State.takeSingle (s : State) (part fmt : Nat) : Option (Handle × State) :=
  match s.quotaFrame part with
  | some f => some (s.newLeaf part fmt f)
  | none =>
    match s.quireDonor 65536 part with
    | some (root, h) => some (h, (s.setQuire root (((s.quireOf root).map (·.2)).filter (· != h))).dress h fmt)
    | none =>
      match s.evictClean part none with
      | some (f, s) => some (s.newLeaf part fmt f)
      | none => none

/-- n leaves for the module's own use, by R169: each counted once and tier-pinned. -/
def State.takePinned (part : Nat) : Nat → State → Option (List Handle × State)
  | 0, s => some ([], s)
  | n + 1, s =>
    match s.takeSingle part 0 with
    | none => none
    | some (h, s) =>
      let s := s.modLeaf h fun e => { e with ref := 1, pending := false, tierPinned := true }
      match State.takePinned part n s with
      | none => none
      | some (hs, s) => some (h :: hs, s)

/-- A channel entry loaded: its former staging leaves released, new ones taken; none when they cannot be had. The status block
goes on: R405 clears its counters by a read, and STEP counts the steps closed (R9, R12; DEDUCED, log 160). -/
def State.loadChannel (s : State) (c : Nat) (e : List W32) : Option State :=
  let s := (s.chan c).leaves.foldl (fun s h => s.freeLeaf h) s
  match State.takePinned ((s.slotPart (bits (wd e 0) 12 7)).getD 0) (stagingLeaves e) s with
  | some (hs, s) => some (s.modChan c fun k =>
      { Channel64.reset with
                             attempt := k.attempt, lastCause := k.lastCause, step := k.step, saturations := k.saturations
                             backups := k.backups, late := k.late, lastHop := k.lastHop, globalSat := k.globalSat
                             entry := e, leaves := hs, children := List.replicate (bits (wd e 0) 6 3) [],
                             downCredit := List.replicate (bits (wd e 0) 6 3) 2047, upCredit := 2047 })
  | none => none

/-- Channel entries loaded in order. -/
def State.loadChannels : Nat → List (List W32) → State → Option State
  | _, [], s => some s
  | c, e :: es, s =>
    match s.loadChannel c e with
    | some s => State.loadChannels (c + 1) es s
    | none => none

/-- A directory entry as it is loaded: UNAVAILABLE, never loaded, kept as the module has it, expert 0xFF_FFFF never valid,
ENTRY_VERSION the directory version of the load (R300, R354). -/
def dirEntry (i : Nat) (version : W32) (old e : List W32) : List W32 :=
  let w0 := setBits (wd e 0) 21 21 (bits (wd old 0) 21 21)
  let w0 := if i = 0xFFFFFF then setBits w0 20 20 0 else w0
  (padWords 16 e).set 0 w0 |>.set 13 version

/-- The poisoned weight leaves asked for again, as on each change of the expert directory (R300). -/
def State.refetch (s : State) : State :=
  ((s.rack.leaves.filter fun e => e.2.poisoned && (s.weightPlace e.1).isSome).map (·.1)).foldl (fun s h => s.startFetch h) s

/-- The tokens waiting in the receive area whose expert this module no longer serves, discarded and counted (R357, R372). -/
def State.dropUnserved (s : State) : State :=
  (s.fabric.rx.filter fun x => !x.bad && x.takenBy.isNone && s.unserved x.parcel).foldl (fun s x =>
    match x.port with
    | some q => (s.dropRx x.rq).dropAt q
    | none => s.dropRx x.rq) s

/-- A directory or slot-origin load: one new directory version, EXPERTS_HOMED and the colophon renewed, lost weights asked for
again (R300, R354, R466). A directory sector that was uncorrectable is whole again (R262). -/
def State.loadDir (s : State) (t first : Nat) (es : List (List W32)) : State :=
  let v := s.fabric.dirVersion + 1
  let s := s.modFabric fun f =>
    if t = 2 then
      { f with dirVersion := v
               directory := (List.range es.length).foldl
                 (fun d i => alSet [] (first + i) (dirEntry (first + i) v (alGet [] (first + i) d) (es.getD i [])) d) f.directory }
    else
      { f with dirVersion := v
               origins := (List.range es.length).foldl (fun o i => o.set (first + i) (es.getD i [])) f.origins }
  let hit (k : Nat) : Bool := t == 2 && decide (caskDir / 64 + first ≤ k) && decide (k < caskDir / 64 + first + es.length)
  let s : State := { s with caskRaw := { s.caskRaw with poison := s.caskRaw.poison.filter fun k => !hit k } }
  (((s.recapAs true 0).recolophon).refetch).dropUnserved

/-- The entries of a load's buffer. -/
def cutEntries (k : Nat) : Nat → List W32 → List (List W32)
  | 0, _ => []
  | n + 1, ws => ws.take k :: cutEntries k n (ws.drop k)

/-- A load of entries: the code, and the state after it. -/
def State.loadTable (s : State) (t first : Nat) (es : List (List W32)) : Code × State :=
  if !es.all (entryOk t) || !s.loadable t first es then (cAlign, s) else
    match t with
    | 4 =>
      match State.loadChannels first es s with
      | some s => (cDone, s)
      | none => (cOverflow, s)
    | 5 => (cDone, (List.range es.length).foldl (fun s i => s.modPSet (first + i) fun _ =>
        { PSet.none with entry := es.getD i [] }) s)
    | 6 =>
      let d := (List.range es.length).foldl (fun d i => alSet [] (first + i) (es.getD i []) d) s.malt.schedules
      (cDone, { s with malt := { s.malt with schedules := d } })
    | _ => (cDone, s.loadDir t first es)

/-- LOAD_TABLE (R423). -/
def execLoadTable (q tag : Nat) (entries : List W32) (s : State) : Host.Outcome State Fault Refusal :=
  .next (s.onStarted q tag 0x21 (fun _ => true) fun t =>
    let tbl := bits (t.arg 1) 3 0
    let n := (t.arg 3).toNat
    let r := s.loadTable tbl (t.arg 2).toNat (cutEntries ((tableShape tbl).2 / 4) n entries)
    r.2.finish q tag r.1 (if r.1 = cDone then w32 n else 0) r.2.fabric.dirVersion)

end Sys2Proof.Machine
end

