-- ==== Sys2Proof/Machine/Malt.lean ====
section
/-! DEFINITION. The Maltster's updates (R394 to R404): the rate, the update of a record, requantisation, the new weight
leaves, PUBLISH, INIT_SET and UPDATE_LEAF_WAIT_TIMEOUT. -/

namespace Sys2Proof.Machine

/-! ### Arithmetic -/

/-- FP32 product. -/
def mul32 (a b : FVal) : FVal := rne32 (fmul a b)
/-- FP32 sum. -/
def add32 (a b : FVal) : FVal := rne32 (fadd a b)
/-- FP32 difference. -/
def sub32 (a b : FVal) : FVal := rne32 (fsub a b)
/-- FP32 quotient. -/
def div32 (a b : FVal) : FVal := rne32 (fdiv a b)

/-- The integer square root. -/
def floorSqrt (n : Nat) : Nat :=
  let r := isqrt n
  if n < r * r then r - 1 else if (r + 1) * (r + 1) ≤ n then r + 1 else r

/-- FP32 square root: 40 or more bits of the root and a sticky bit, rounded once. -/
def sqrt32 : FVal → FVal
  | .nan => .nan
  | .inf n => if n then .nan else .inf false
  | .fin n m e =>
    if m = 0 then .fin n 0 0 else if n then .nan else
      let k := 80 + (if e % 2 = 0 then 0 else 1)
      let x := m <<< k
      let r := floorSqrt x
      rne32 (.fin false (2 * r + (if r * r = x then 0 else 1)) ((e - k) / 2 - 1))

/-- The exact power of a value, k at least 1. -/
def fpow (v : FVal) (k : Nat) : FVal :=
  match v with
  | .nan => .nan
  | .inf n => .inf (n && k % 2 == 1)
  | .fin n m e => .fin (n && k % 2 == 1) (m ^ k) (e * k)

/-- A bias factor: 1 ÷ (1 − BETA^(t + 1)) in binary64, rounded once to FP32 (R397). -/
def biasFactor (beta : FVal) (t : Nat) : FVal :=
  rne32 (rne64 (fdiv fone (rne64 (fsub fone (rne64 (fpow beta (t + 1)))))))

/-! ### The schedule engine (R403, R404) -/

/-- Pi in units of 2^-96. -/
def fixPi : Nat := 0x3243f6a8885a308d313198a2e

/-- Terms k, k + 1, ... of the cosine series, the k-th being t; z2 is the square of the angle. -/
def cosTerms (z2 : Nat) : Nat → Nat → Nat → Int
  | 0, _, _ => 0
  | n + 1, k, t => (t : Int) - cosTerms z2 n (k + 1) ((t * z2) >>> 96 / ((2 * k + 1) * (2 * k + 2)))

/-- cos(pi f) for f from 0 to 1, both in units of 2^-96. -/
def cosFix (f : Nat) : Int :=
  let half (g : Nat) : Int :=
    let z := (g * fixPi) >>> 96
    cosTerms ((z * z) >>> 96) 24 0 fix1
  if 2 * f ≤ fix1 then half f else -(half (fix1 - f))

/-- The cosine of R404: the one fixed method's value, a free value within its bound. -/
def cosPi (f : FVal) : FVal :=
  let v := ofFix (cosFix (toFix f).toNat)
  let y := decodeIeee 11 52 (Config.cosPi (BitVec.ofNat 64 (encodeIeee 11 52 f))).toNat
  if isFin y && flt (fabs (fsub y v)) (.fin false 0xFFFF (-56)) then y else rne64 v

/-- x and p after the restarts. fuel bounds their number. -/
def restarts (mult : Nat) : Nat → Nat → Nat → Nat × Nat
  | 0, x, p => (x, p)
  | n + 1, x, p => if p ≤ x then restarts mult n (x - p) (p * mult) else (x, p)

/-- rate(t) of a schedule entry, rounded once to FP32. -/
def rateOf (e : List W32) (t : Nat) : FVal :=
  let peak := ofW32 (wd e 0)
  let low := ofW32 (wd e 1)
  let warm := bits (wd e 2) 23 0
  let span := rne64 (fsub peak low)
  rne32 <|
    if t < warm then rne64 (fdiv (rne64 (fmul peak (ofNat (t + 1)))) (ofNat warm))
    else
      let p0 := bits (wd e 3) 23 0
      let xp := if (wd e 2).getLsbD 28 then restarts (bits (wd e 4) 3 0) (t - warm + 1) (t - warm) p0
        else (min (t - warm) p0, p0)
      let f := rne64 (fdiv (ofNat xp.1) (ofNat xp.2))
      match bits (wd e 2) 27 24 with
      | 1 => rne64 (fadd low (fmul (rne64 (fmul span (rne64 (fadd fone (cosPi f))))) (.fin false 1 (-1))))
      | 2 => rne64 (fsub peak (rne64 (fmul span f)))
      | 3 =>
        let y := rne64 (fmul peak (rne64 (if xp.1 < bits (wd e 5) 23 0 then fone
          else fpow (ofW32 (wd e 6)) (xp.1 / bits (wd e 5) 23 0))))
        if flt low y then y else low
      | _ => peak

/-! ### Records (R396 to R398) -/

/-- What an update of a set uses: OPT, GRAD_SCALE, lr, WDECAY, BETA1, BETA2, EPS, c1 and c2. -/
structure Rule where
  opt : Nat
  gs : FVal
  lr : FVal
  dec : FVal
  b1 : FVal
  b2 : FVal
  eps : FVal
  c1 : FVal
  c2 : FVal

/-- The rule of a set's entry at its count t of updates. -/
def State.ruleOf (s : State) (e : List W32) (t : Nat) : Rule :=
  let f (i : Nat) : FVal := ofW32 (wd e i)
  { opt := bits (wd e 0) 2 1, gs := f 11, lr := rateOf (alGet [] (bits (wd e 0) 29 22) s.malt.schedules) t, dec := f 10,
    b1 := f 7, b2 := f 8, eps := f 9, c1 := biasFactor (f 7) t, c2 := biasFactor (f 8) t }

/-- The update of one parameter: master, first moment or momentum, second moment (R397). -/
def Rule.step (r : Rule) (w u v g : FVal) : FVal × FVal × FVal :=
  let x := mul32 g r.gs
  match r.opt with
  | 0 => (sub32 w (mul32 r.lr (add32 x (mul32 r.dec w))), u, v)
  | 1 =>
    let u := add32 (add32 (mul32 r.b1 u) x) (mul32 r.dec w)
    (sub32 w (mul32 r.lr u), u, v)
  | o =>
    let x := if o = 2 then add32 x (mul32 r.dec w) else x
    let m := add32 (mul32 r.b1 u) (mul32 (sub32 fone r.b1) x)
    let v := add32 (mul32 r.b2 v) (mul32 (sub32 fone r.b2) (mul32 x x))
    let d := div32 (mul32 m r.c1) (add32 (sqrt32 (mul32 v r.c2)) r.eps)
    (sub32 w (mul32 r.lr (if o = 2 then d else add32 d (mul32 r.dec w))), m, v)

/-- Bytes of a record of an OPT. -/
def recBytes (opt : Nat) : Nat :=
  match opt with
  | 0 => 128
  | 1 => 192
  | _ => 256

/-- Address of the update area (R394). -/
def updateArea : Nat := 0x380000000

/-- Address of record k of a set. -/
def recordAt (e : List W32) (k : Nat) : Nat := updateArea + 256 * (wd e 6).toNat + k * recBytes (bits (wd e 0) 2 1)

/-- The three blocks of a record: 32 values each, those OPT does not keep 0. -/
def readRecord (opt : Nat) (bs : List Byte) : List FVal × List FVal × List FVal :=
  let ws := bytesWords 32 bs
  let half (at_ i : Nat) : Nat := leNat ((bs.drop (at_ + 2 * i)).take 2)
  let e1 : Int := bits (wd ws 1) 31 24
  let e2 : Int := bits (wd ws 2) 31 24
  ((SBlock.ofBytes bs).vals,
   (List.range 32).map fun i =>
     let m := (BitVec.ofNat 16 (half 128 i)).toInt
     if opt = 0 then fzero else .fin (m < 0) m.natAbs (e1 - 139),
   (List.range 32).map fun i => if opt < 2 then fzero else .fin false (half 192 i) (e2 - 140))

/-- The least exponent from 0 to 251 for a block whose condition is max < 2^(e - k), none where a value is not finite or
needs more (R398). -/
def blockExp (k : Int) (xs : List FVal) : Option Nat :=
  let top := (xs.filterMap leadOf).foldl (fun e l => max e (l + 1 + k)) (0 : Int)
  if xs.all isFin && decide (top ≤ 251) then some top.toNat else none

/-- Mantissas of a block in units of 2^u, with draws of a generator. -/
def mantissas (u : Int) (g : W32) : List FVal → List Int × W32
  | [] => ([], g)
  | x :: rest =>
    let g := lfsrSteps 32 g
    let t := mantissas u g rest
    (roundInt (stoShr (g.toNat % 0x1000000)) (fmul x (.fin false 1 (-u))) :: t.1, t.2)

/-- The seed of a record's draws (R56, R398): the record index enters x before the first multiplication. -/
def seedRecord (seed : W64) (t set_ rec_ : Nat) : W32 :=
  let lo : W32 := seed.setWidth 32
  let hi : W32 := (seed >>> 32).setWidth 32
  let n : BitVec 48 := BitVec.ofNat 48 t
  let x := lo ^^^ hi.rotateLeft 13
  let x := x ^^^ n.setWidth 32 ^^^ ((n >>> 32).setWidth 32 <<< 16)
  let x := x ^^^ BitVec.ofNat 32 (set_ <<< 9) ^^^ BitVec.ofNat 32 (rec_ % 257)
  let x := x ^^^ (x >>> 15)
  let x := (x + BitVec.ofNat 32 (rec_ <<< 9)) * 0x6C8E9CF5#32
  let x := x ^^^ (x >>> 13)
  let x := x * 0x2F1AB3D7#32
  let x := x ^^^ (x >>> 16)
  if x = 0 then 1 else x

/-- The bytes of a record, none where it must keep its old contents. -/
def writeRecord (opt : Nat) (g : W32) (ws us vs : List FVal) : Option (List Byte) :=
  match blockExp 126 ws, blockExp 125 us, blockExp 125 vs with
  | some e, some e1, some e2 =>
    let a := mantissas ((e : Int) - 147) g ws
    let b := if opt = 0 then ([], a.2) else mantissas ((e1 : Int) - 139) a.2 us
    let c := if opt < 2 then [] else (mantissas ((e2 : Int) - 140) b.2 vs).1
    let exps := [e, if opt = 0 then 0 else e1, if opt < 2 then 0 else e2]
    some (wordsBytes ((a.1.zipIdx).map fun m => w32 ((BitVec.ofInt 24 m.1).toNat + (exps.getD m.2 0 <<< 24))) ++
      b.1.flatMap (fun m => leBytes 2 (BitVec.ofInt 16 m).toNat) ++ c.flatMap fun m => leBytes 2 m.toNat)
  | _, _, _ => none

/-- UPDATE_SEED of a channel. -/
def State.updateSeed (s : State) (c : Nat) : W64 := wd (s.chan c).entry 14 ++ wd (s.chan c).entry 13

/-- The update engine changed. -/
def State.modMalt (s : State) (f : Malt → Malt) : State := { s with malt := f s.malt }

/-- A record written, or kept and counted. -/
def State.putRecord (s : State) (at_ : Nat) (bs : Option (List Byte)) : State :=
  s.modMalt fun m =>
    match bs with
    | some b => { m with lpddr := m.lpddr.write at_ b }
    | none => { m with nonfinite := sat32 (m.nonfinite + 1) }

/-- Record k of a set updated with its gradients; one whose read is uncorrectable is left unchanged, and its set is damaged (R394).
-/
def State.updateRecord (s : State) (n : Nat) (e : List W32) (t : Nat) (r : Rule) (k : Nat) : State :=
  if Config.recordLost s.draws k then
    ((s.modPSet n fun p => { p with damaged := true }).modMalt fun m => { m with masterUncorr := sat32 (m.masterUncorr + 1) }).attention
      6 cCask (w32 n) (w32 k)
  else
  let old := readRecord r.opt (s.malt.lpddr.read (recordAt e k) (recBytes r.opt))
  let gs := (bytesWords 32 (s.imageRead (bits (wd e 0) 8 3) 3 (256 * (wd e 5).toNat + 128 * k) 128)).map ofW32
  let new := (List.range 32).map fun i =>
    r.step (old.1.getD i fzero) (old.2.1.getD i fzero) (old.2.2.getD i fzero) (gs.getD i fzero)
  s.putRecord (recordAt e k) (writeRecord r.opt (seedRecord (s.updateSeed (setChannel e)) t n k) (new.map (·.1))
    (new.map (·.2.1)) (new.map (·.2.2)))

/-! ### New weights (R399) -/

/-- The scale byte and the codes of a group under a scale code. -/
def requant (scl : Nat) (qmax : Nat) (ws : List FVal) : Nat × List Int :=
  let m := maxMag (fun _ => true) ws
  match leadOf m with
  | none => (0, ws.map fun _ => 0)
  | some l =>
    let q := ofNat qmax
    let sc : FVal × Nat :=
      if scl = 5 then
        let r := roundFree rneShr 4 (-9) (fdiv m q)
        let r := if flt (fmtMax 3) r then fmtMax 3 else r
        (r, encodeE4M3 r)
      else
        let e : Int := l - (bitLen qmax - 1 : Nat)
        let e := if fle m (fmul q (.fin false 1 e)) then e else e + 1
        let e := clampInt (-127) 127 e
        (.fin false 1 e, (e + 127).toNat)
    let code (w : FVal) : Int :=
      if isZero w then 0 else if isZero sc.1 then (if isNeg w then -(qmax : Int) else qmax)
      else clampInt (-(qmax : Int)) qmax (roundInt rneShr (fdiv w sc.1))
    (sc.2, ws.map code)

/-- Is a set's output INT4? -/
def setInt4 (e : List W32) : Bool := bits (wd e 0) 18 15 == 2

/-- The element and scale bytes of a group of 32. -/
def groupBytes (e : List W32) (ws : List FVal) : List Byte × Byte :=
  let g := requant (bits (wd e 0) 21 19) (if setInt4 e then 7 else 127) ws
  let data : List Byte :=
    if setInt4 e then (List.range 16).map fun i =>
      BitVec.ofNat 8 ((g.2.getD (2 * i) 0 % 16).toNat + 16 * (g.2.getD (2 * i + 1) 0 % 16).toNat)
    else g.2.map (BitVec.ofInt 8)
  (data, BitVec.ofNat 8 g.1)

/-- COUNT of a set in records. -/
def setRecords (e : List W32) : Nat := (wd e 2).toNat / 32

/-- The new element and scale bytes of a set. -/
def State.setBytes (s : State) (e : List W32) : List Byte × List Byte :=
  let opt := bits (wd e 0) 2 1
  let gs := (List.range (setRecords e)).map fun k =>
    groupBytes e (readRecord opt (s.malt.lpddr.read (recordAt e k) (recBytes opt))).1
  (gs.flatMap (·.1), gs.map (·.2))

/-- Bytes at an image offset written into leaf idx of the image, as far as they lie in it. -/
def overlay (b : Bytes) (idx off : Nat) (bs : List Byte) : Bytes :=
  let lo := max off (65536 * idx)
  let hi := min (off + bs.length) (65536 * (idx + 1))
  if hi ≤ lo then b else b.write (lo - 65536 * idx) ((bs.drop (lo - off)).take (hi - lo))

/-- The image leaves that n bytes from an offset touch. -/
def leavesOf (off n : Nat) : List Nat :=
  if n = 0 then [] else (List.range ((off + n + 65535) / 65536 - off / 65536)).map (off / 65536 + ·)

/-- The new leaves of a slot by image index. -/
def State.fresh (s : State) (slot : Nat) : List (Nat × Handle) := alGet [] slot s.malt.newLeaves

/-- The new leaf at an image index, taken and filled from the current leaf where the slot has none yet. -/
def State.freshLeaf (s : State) (slot idx : Nat) : Option State :=
  if (s.fresh slot).any fun e => e.1 == idx then some s else
    match (s.slot slot).plan, s.slotPart slot with
    | some p, some part =>
      let old := s.content (p.leaves.getD idx Config.nullHandle)
      match s.takeSingle part 0 with
      | some (h, s) =>
        let s := s.patchCask h fun _ => old
        some (s.modMalt fun m => { m with newLeaves := alSet [] slot (alGet [] slot m.newLeaves ++ [(idx, h)]) m.newLeaves })
      | none => none
    | _, _ => none

/-- New leaves for a list of image indices; the flag tells that every one has been had. -/
def State.freshLeaves (slot : Nat) : List Nat → State → Bool × State
  | [], s => (true, s)
  | i :: rest, s =>
    match s.freshLeaf slot i with
    | some s => State.freshLeaves slot rest s
    | none => (false, s)

/-- The weights of a set written into new leaves; without leaves the set waits (R399). -/
def State.writeSet (s : State) (n : Nat) : State :=
  let e := (s.pset n).entry
  let slot := bits (wd e 0) 8 3
  let w := s.setBytes e
  let d := 256 * (wd e 3).toNat
  let k := 256 * (wd e 4).toNat
  let top := ((s.slot slot).plan.map (·.leaves.length)).getD 0
  let idx := ((leavesOf d w.1.length ++ leavesOf k w.2.length).eraseDups).filter fun i => decide (i < top)
  let r := State.freshLeaves slot idx s
  let s := r.2
  if !r.1 then
    (s.startEviction ((s.slotPart slot).getD 0) .none_).modMalt fun m =>
      { m with waitingSets := if m.waitingSets.contains n then m.waitingSets else m.waitingSets ++ [n],
               updState := 2, updSlot := slot, updSet := n }
  else
    let s := (s.fresh slot).foldl (fun s x =>
      if idx.contains x.1 then s.patchCask x.2 fun b => overlay (overlay b x.1 d w.1) x.1 k w.2 else s) s
    s.modMalt fun m =>
      let left := m.waitingSets.filter (· != n)
      { m with waitingSets := left, updState := if left.isEmpty then 3 else 2, updSlot := slot, updSet := n }

/-- Sets that wait for leaves, of a slot or of all, tried again. -/
def State.retrySets (s : State) (f : Nat → Bool) : State :=
  (s.malt.waitingSets.filter f).foldl (fun s n => s.writeSet n) s

/-! ### The update at a close (R397, R398) -/

/-- The first and the number of a set's blocks in its channel. -/
def setBlocks (e : List W32) : Nat × Nat := (bits (wd e 1) 23 0, (wd e 2).toNat / 64)

/-- One set updated, or skipped where a block of it was non-finite; a damaged or behind set takes no update. -/
def State.updateSet (s : State) (n : Nat) (bad : List Nat) : State :=
  let p := s.pset n
  let e := p.entry
  let b := setBlocks e
  if p.damaged || p.behind || (s.slot (bits (wd e 0) 8 3)).plan.isNone then s
  else if bad.any fun q => decide (b.1 ≤ q) && decide (q < b.1 + b.2) then
    s.modMalt fun m => { m with skipped := sat32 (m.skipped + 1) }
  else
    let r := s.ruleOf e p.t
    let s := (List.range (setRecords e)).foldl (fun s k => s.updateRecord n e p.t r k) s
    let s := { s with draws := s.draws + 1 }
    ((s.modPSet n fun p => { p with t := p.t + 1 }).modMalt fun m => { m with applied := sat32 (m.applied + 1) }).writeSet n

/-- The valid sets of a channel in ascending index. -/
def State.setsOf (s : State) (c : Nat) : List Nat :=
  (s.malt.sets.filter fun e => (wd e.2.entry 0).getLsbD 0 && setChannel e.2.entry == c).map (·.1)

/-- The sets of a channel passed to the Maltster at its close, and its step ready to publish (R390, R400). bad are the
blocks with NONFINITE; backup tells that a backup stood in. -/
def State.maltUpdate (s : State) (c : Nat) (bad : List Nat) (backup : Bool) : State :=
  let sets := s.setsOf c
  let slots := (bits (wd (s.chan c).entry 0) 12 7 :: sets.map fun n => bits (wd (s.pset n).entry 0) 8 3).eraseDups
  let s := sets.foldl (fun s n => s.updateSet n bad) s
  s.modMalt fun m => { m with ready := m.ready ++ slots.map fun j => (j, c, backup)
                              updState := if m.waitingSets.isEmpty then 3 else 2 }

/-- UPDATE_LEAF_WAIT_TIMEOUT: the sets that wait are tried again; where one still waits, degraded attention. -/
def execUpdateLeafWaitTimeout (s : State) : Host.Outcome State Fault Refusal :=
  .next (if s.malt.waitingSets.isEmpty then s else
    let s := s.retrySets fun _ => true
    if s.malt.waitingSets.isEmpty then s else s.attention 2 cExhausted (w32 s.malt.updSlot) (w32 s.malt.updSet))

/-! ### Training commands' ends (R377) -/

/-- The member channels of a slot. -/
def State.membersOf (s : State) (slot : Nat) : List Nat :=
  (List.range 64).filter fun c => bits (wd (s.chan c).entry 0) 1 0 == 1 && bits (wd (s.chan c).entry 0) 12 7 == slot

/-- The STEP a training command of a slot reports: that of the slot's lowest channel. -/
def State.trainStep (s : State) (slot : Nat) : W32 :=
  match (List.range 64).find? fun c => bits (wd (s.chan c).entry 0) 1 0 != 0 && bits (wd (s.chan c).entry 0) 12 7 == slot with
  | some c => (s.chan c).step
  | none => 0

/-- Training commands of a slot with LAST that have been accepted. -/
def State.lastTrains (s : State) (slot : Nat) : List Started :=
  s.port.started.filter fun t => t.opc == 0x13 && t.begun && bits (t.arg 1) 5 0 == slot && (t.arg 1).getLsbD 8

/-- They end with a code; one whose wave has not run yet is left. -/
def State.endTrains (s : State) (slot : Nat) (code : Code) : State :=
  let waiting (t : Started) : Bool := s.parts.any fun p => p.trains.any fun x => x.q == t.q && x.tag == t.tag
  ((s.lastTrains slot).filter fun t => !waiting t).foldl (fun s t => s.finish t.q t.tag code (s.trainStep slot) 0) s

/-! ### PUBLISH (R400) -/

/-- The waves of a slot that have not ended, by partition and class. -/
def State.slotWaves (s : State) (slot : Nat) : List (Nat × Bool) :=
  ((List.range s.parts.length).flatMap fun n => [(n, false), (n, true)]).filter fun w =>
    (((s.parts[w.1]?).bind fun p => if w.2 then p.prio else p.bulk).map (·.slot)) == some slot

/-- The key of a slot after a step: SHAKE256 over the old key and STEP, 64 bits. -/
def chainKey (key : W64) (step : W32) : W64 := key64 (leBytes 8 key.toNat ++ leBytes 4 step.toNat)

/-- A leaf that a publish replaces kept, pinned, for one wave that began before it; a wave keeps the first leaf of each index. -/
def State.keepOld (s : State) (idx : Nat) (h : Handle) (w : Nat × Bool) : State :=
  if h = Config.nullHandle || s.malt.old.any (fun e => e.1 == w.1 && e.2.1 == w.2 && e.2.2.1 == idx) then s
  else (s.modLeaf h fun e => { e with pin := e.pin + 1 }).modMalt fun m => { m with old := m.old ++ [(w.1, w.2, idx, h)] }

/-- A new leaf named in the weight image and the old one dropped, once the waves that began before have let it go. -/
def State.nameWeight (s : State) (slot : Nat) (x : Nat × Handle) : State :=
  let old := (((s.slot slot).plan.map fun p => p.leaves.getD x.1 Config.nullHandle)).getD Config.nullHandle
  let s := (s.slotWaves slot).foldl (fun s w => s.keepOld x.1 old w) s
  let s := s.modPlan slot fun p => { p with leaves := p.leaves.set x.1 x.2 }
  ((s.modLeaf x.2 fun e => { e with ref := 1, pending := false }).settleWeight x.2 slot (s.leafExpert slot x.1)).drop old

/-- The flip of a publish. -/
def State.publish (s : State) (slot : Nat) : State :=
  let steps := s.malt.ready.filter fun e => e.1 == slot
  let s := (s.fresh slot).foldl (fun s x => s.nameWeight slot x) s
  let s := steps.foldl (fun s e => s.modSlot slot fun k => { k with key := chainKey k.key (s.chan e.2.1).step }) s
  let s := s.modMalt fun m =>
    let left := m.ready.filter fun e => e.1 != slot
    { m with ready := left, newLeaves := alDel slot m.newLeaves, publishes := sat32 (m.publishes + 1),
             lastPublish := s.now.setWidth 32,
             updState := if !m.waitingSets.isEmpty then 2 else if left.isEmpty then 0 else 3 }
  if (s.membersOf slot).all fun c => (s.chan c).state == 0 then
    s.endTrains slot (if steps.any fun e => e.2.2 then cBackup else cDone)
  else s

/-- PUBLISH: where the slot is ready and no grist cycle of it runs; waves under way finish on the old weights. -/
def execPublish (slot : Nat) (s : State) : Host.Outcome State Fault Refusal :=
  .next (if !(s.malt.ready.any fun e => e.1 == slot) || s.slotRuns slot then s else
    let of_ (n : Nat) : Bool := bits (wd (s.pset n).entry 0) 8 3 == slot
    let s := s.retrySets of_
    if s.malt.waitingSets.any of_ then s else s.publish slot)

/-! ### INIT_SET (R401) -/

/-- The initial values of record k, exactly as FP32: elements at INIT_OFF in INIT_FMT, scaled under INIT_SCL by bytes whose
place is not stated. -/
def State.initVals (s : State) (e : List W32) (k : Nat) : List FVal :=
  let fmt := bits (wd e 13) 3 0
  let scl := bits (wd e 13) 6 4
  let b := elemBits fmt
  let bs := s.imageRead (bits (wd e 0) 8 3) 3 (256 * (wd e 12).toNat + 4 * k * b) (4 * b)
  (List.range 32).map fun i =>
    let v := elemVal fmt scl (rawElem b bs i)
    rne32 (if scl = 0 then v
      else fmul v (scaleVal scl (Config.freeByte s.draws ((32 * k + i) / groupSize scl)).toNat))

/-- A set's records made from its initial values, moments 0. -/
def State.initRecords (s : State) (n : Nat) (e : List W32) : State :=
  let opt := bits (wd e 0) 2 1
  let zeros := List.replicate 32 fzero
  (List.range (setRecords e)).foldl (fun s k =>
    s.putRecord (recordAt e k)
      (writeRecord opt (seedRecord (s.updateSeed (setChannel e)) 0 n k) (s.initVals e k) zeros zeros)) s

/-- A channel in STATE 3 whose every set has been initialised is idle again. -/
def State.recoverChannel (s : State) (c : Nat) : State :=
  if (s.chan c).state = 3 && (s.setsOf c).all (fun n => !(s.pset n).behind) then s.modChan c fun k => { k with state := 0 }
  else s

/-- INIT_SET: an entry that is not valid, or whose slot holds no plan, is refused. -/
def execInitSet (q tag : Nat) (s : State) : Host.Outcome State Fault Refusal :=
  .next (s.onStarted q tag 0x22 (fun _ => true) fun t =>
    let n := bits (t.arg 1) 9 0
    let e := (s.pset n).entry
    if !(wd e 0).getLsbD 0 then s.finish q tag cAlign 0 0
    else if (s.slot (bits (wd e 0) 8 3)).plan.isNone then s.finish q tag cRole 0 0
    else
      let s := s.initRecords n e
      let s := s.modPSet n fun p => { p with t := 0, behind := false, damaged := false }
      ((({ s with draws := s.draws + (wd e 2).toNat } : State)).recoverChannel (setChannel e)).finish q tag cDone 0 0)

end Sys2Proof.Machine
end

