-- ==== Sys2Proof/Machine/Cask.lean ====
section
/-! DEFINITION. The cask: the address hash (R256, R270), errors of sectors (R250, R262), ports leaving service and the cask
restart (R267 to R273), saved training (R265, R266), port status (R268). -/

namespace Sys2Proof.Machine

/-! ### The address hash -/

/-- A memory port. -/
def State.memPort (s : State) (p : Nat) : MemPort := s.mem.getD p MemPort.reset

/-- A memory port changed. -/
def State.modMem (s : State) (p : Nat) (f : MemPort → MemPort) : State := { s with mem := modAt s.mem p f }

/-- The ports in service, ascending. -/
def State.portsUp (s : State) : List Nat := (List.range 16).filter fun p => (s.memPort p).state == 2

/-- The hash of R256: the exclusive or of the address's nibbles from bit 8 to bit 35, and bit 36. -/
def hashPort (a : Nat) : Nat :=
  ([8, 12, 16, 20, 24, 28, 32].map fun k => (a >>> k) % 16).foldl (fun x y => x ^^^ y) ((a >>> 36) % 2)

/-- The memory port of a cask address (R256, R270). -/
def caskPort (up : List Nat) (a : Nat) : Nat :=
  let p := max 1 up.length
  if p = 16 then hashPort a else up.getD (((a / 256 % p) + (a / 256 / p)) % p) 0

/-- The port-local address of a cask address. -/
def portLocal (up : List Nat) (a : Nat) : Nat :=
  let p := max 1 up.length
  (if p = 16 then a / 4096 else a / 256 / p) * 256 + a % 256

/-- A place within a port: bank group, bank, row, and the sector's column in the 4 KiB pair row (R256). -/
structure PortPlace where
  group : Nat
  bank : Nat
  row : Nat
  column : Nat
  deriving DecidableEq, Repr

/-- The exclusive or of pairs of bits of an address from the given bits on. -/
def foldPairs (l : Nat) (ks : List Nat) : Nat := ks.foldl (fun x k => x ^^^ ((l >>> k) % 4)) 0

/-- Where a port-local address lies: in_port of R256. -/
def inPort (l : Nat) : PortPlace :=
  { group := foldPairs l [12, 16, 20, 24, 28], bank := foldPairs l [14, 18, 22, 26, 30], row := l / 65536
    column := l / 64 % 64 }

/-- The device of the pair that holds a byte of the cask: bytes 0 to 31 of a sector are on device 0, 32 to 63 on device 1
(R257). -/
def deviceOf (a : Nat) : Nat := a / 32 % 2

/-- The bytes that P ports in service span (R253, R270). -/
def caskSpan (p : Nat) : Nat := p * 8000000000

/-- The leaf pool that P ports hold: the largest multiple of 1 024 frames that leaves 192 MiB of tail (R271). -/
def poolSizeFor (p : Nat) : Nat := (caskSpan p - 11811160064 - 201326592) / 67108864 * 1024

/-! ### Stopping all work (R273, R453) -/

/-- A training command ends: it completes with a code and the step of its slot (R377). -/
def State.endTrain (s : State) (t : Train) (code : Code) : State := s.finish t.q t.tag code (s.trainStep t.slot) 0

/-- A running command killed for good: undone, with its completion record (R22, R141). -/
def State.killFinal (s : State) (c : Cmd) (code : Code) : State :=
  let t := s.killed
  (t.2.undo c).logEnd c code (if c.phase == .held then c.arr else t.1) false

/-- Every running command killed, the training commands and plain reruns among them ended. -/
def State.killAll (s : State) (code : Code) : State :=
  let live := s.cmds
  let s := live.foldl (fun s c => if c.phase == .placed then s else s.killFinal c cRerun) s
  let s := live.foldl (fun (s : State) c => s.endRerun c cRerun 0 true) { s with cmds := [] }
  let trains := s.parts.flatMap fun p => p.trains ++ (p.bulk.bind (·.train)).toList
  let s := trains.foldl (fun s t => s.endTrain t code) s
  let s := s.port.started.foldl (fun (s : State) t => if t.opc = 0x13 then s.finish t.q t.tag code (s.trainStep (bits (t.arg 1) 5 0)) 0 else s) s
  { s with parts := s.parts.map fun p =>
      { p with bulk := none, prio := none, suspended := false, remaining := [], cycle := none, bulkFirst := false,
               trains := [] } }

/-- Every open request ended with a code, those still assembling too. -/
def State.endRequests (s : State) (code : Code) : State :=
  let s := ((s.reqs.filter fun e => e.2.open_).map (·.1)).foldl (fun s k => s.endReq k code []) s
  (s.fabric.ctxs.filter fun c => !c.passed && !c.done).foldl (fun s c =>
    s.replyCode c (bits (wd c.header 1) 15 0) code) s

/-- Every stream freed; an entry keeps its EPOCH (R192). -/
def State.freeStreams (s : State) : State :=
  { s with streams := (s.streams.map fun e => (e.1, Stream.free e.2.epoch)).filter fun e => e.2 != Stream.free 0 }

/-- Everything the cask holds is lost: leaves, plans, directory, and the module tables with the receive area, the resend
ring, the alive counters, the origin table, the lists and the logs. What its raw bytes read as is free until they are written;
so is the layout of the firmware copies that a start places there (R253, log 155). -/
def State.clearCask (s : State) : State :=
  let r : Rack := { Rack.reset with choices := s.rack.choices, heatCount := s.rack.heatCount, poolSize := s.rack.poolSize }
  let f : Fabric := { s.fabric with
    rx := [], alive := [], resend := [], directory := [], origins := List.replicate 64 [], unreachable := [], queries := [] }
  let m : Malt := { s.malt with ready := [], newLeaves := [], waitingSets := [], old := [] }
  let slot (k : Slot) : Slot := { Slot.empty with refreshLog := k.refreshLog, refreshSlot := k.refreshSlot }
  { s with rack := r, fabric := f, malt := m, slots := s.slots.map slot, caskRaw := Bytes.empty (.free s.draws),
           draws := s.draws + 1, reqs := [],
           logs := s.logs.map fun _ => [], channels := s.channels.map fun _ => Channel64.reset,
           buddy := { s.buddy with map := [], manifests := [], incoming := [] } }

/-! ### Saved training (R265, R266) -/

/-- A digest as eight little-endian words. -/
def digestWords (d : Digest) : List W32 := (List.range 8).map fun i => d.extractLsb' (32 * i) 32

/-- n words of a list, zeros beyond it. -/
def takeWords (n : Nat) (ws : List W32) : List W32 := (List.range n).map (wd ws)

/-- Words 0 to 47 of a saved training record (R265). -/
def trainHead (port count : Nat) (dev0 dev1 : W32) (temp : BitVec 8) (pins ca : List W32) : List W32 :=
  [w32 (1 + (port <<< 16)), dev0, dev1, w32 (temp.toNat + (count <<< 8))] ++ takeWords 36 pins ++ takeWords 8 ca

/-- DIGEST over words 0 to 47. -/
def trainDigest (head : List W32) : List W32 := digestWords (shake256 (wordsBytes head))

/-- A record of given words 0 to 47. -/
def TrainRec.make (head : List W32) : TrainRec := ⟨head ++ trainDigest head ++ List.replicate 8 0⟩

/-- Words 0 to 47. -/
def TrainRec.head (t : TrainRec) : List W32 := t.words.take 48
/-- TRAIN_TEMP. -/
def TrainRec.temp (t : TrainRec) : Nat := bits (wd t.words 3) 7 0
/-- TRAIN_COUNT. -/
def TrainRec.count (t : TrainRec) : Nat := bits (wd t.words 3) 31 8
/-- Words 4 to 39: delays and levels of the pins. -/
def TrainRec.pins (t : TrainRec) : List W32 := (t.words.drop 4).take 36
/-- Words 40 to 47: command, address and clock settings. -/
def TrainRec.ca (t : TrainRec) : List W32 := (t.words.drop 40).take 8

/-- Do RECORD_FORMAT, PORT and DIGEST match (R266)? -/
def TrainRec.valid (t : TrainRec) (port : Nat) : Bool :=
  bits (wd t.words 0) 15 0 == 1 && bits (wd t.words 0) 19 16 == port &&
  (t.words.drop 48).take 8 == trainDigest t.head

/-- Does a port's record restore, given what its devices answer? -/
def State.restores (s : State) (p : Nat) (r : PortRead) : Bool :=
  match (s.nor.training.getD p none) with
  | some t => t.valid p && wd t.words 1 == r.dev0 && wd t.words 2 == r.dev1 && r.checkOk &&
      decide (r.temp.toNat ≤ t.temp + 25) && decide (t.temp ≤ r.temp.toNat + 25)
  | none => false

/-- A port restored from its record, or left to train in full. -/
def State.restorePort (s : State) (p : Nat) (r : PortRead) : State :=
  let ok := s.restores p r
  let t := (s.nor.training.getD p none).getD ⟨[]⟩
  s.modMem p fun k => { k with
    state := if ok then 2 else 1, restored := ok, moved := k.moved && !ok, recent := []
    pins := if ok then t.pins else k.pins, ca := if ok then t.ca else k.ca }

/-- Ports restored in turn, each from the answer that stands at its number. A port without an answer trains. -/
def State.restorePorts (s : State) (ps : List Nat) (reads : List PortRead) : State :=
  ps.foldl (fun s p =>
    match reads[p]? with
    | some r => s.restorePort p r
    | none => s.modMem p fun k => { k with state := 1, restored := false }) s

/-- A port's full training: in service with a new saved record, or out of service with CAUSE 1 (R264, R265, R269). -/
def State.trained (s : State) (r : PortTrain) : State :=
  if (s.memPort r.port).state != 1 then s
  else if !r.ok then s.modMem r.port fun k => { k with state := 3, cause := 1 }
  else
    let n := ((s.nor.training.getD r.port none).map (·.count)).getD 0
    let t := TrainRec.make (trainHead r.port (n + 1) r.dev0 r.dev1 r.temp r.pins r.ca)
    let s : State := { s with nor := { s.nor with training := s.nor.training.set r.port (some t) } }
    s.modMem r.port fun k => { k with
      state := 2, restored := false, moved := false, recent := [], pins := t.pins, ca := t.ca }

/-- Saved records rewritten with the values in force where one has moved since (R267); the temperature is the port's last
reading (DEDUCED, log 156). -/
def State.rewriteTraining (s : State) : State :=
  (List.range 16).foldl (fun (s : State) p =>
    if (s.memPort p).moved then
      let k := s.memPort p
      let f (t : Option TrainRec) : Option TrainRec := t.map fun t =>
        TrainRec.make (trainHead p t.count (wd t.words 1) (wd t.words 2) k.temp k.pins k.ca)
      ({ s with nor := { s.nor with training := modAt s.nor.training p f } }).modMem p fun k => { k with moved := false }
    else s) s

/-! ### Bringing the cask into service (R264, R271) -/

/-- Are all ports done with training? -/
def State.portsDone (s : State) : Bool := s.mem.all fun k => k.state != 1

/-- The map of R270 and R271 laid out; fewer than 8 ports leave the module in maker service. -/
def State.layCask (s : State) : State :=
  let n := s.portsUp.length
  if n < 8 then
    ({ s with power := { s.power with config := 4 } }.modRack fun r => { r with poolSize := 0 }).attention 7 cCask (w32 n) 0
  else { s with power := { s.power with config := s.power.next } }.modRack fun r => { r with poolSize := poolSizeFor n }

/-- The commands that a cask restart completes: PORT_SERVICE with P. -/
def State.endPortService (s : State) : State :=
  (s.port.started.filter fun t => t.opc == 0x63 && t.begun).foldl (fun s t =>
    s.finish t.q t.tag cDone (w32 s.portsUp.length) 0) s

/-- The control cores' firmware reloaded from the active slot and verified again (R262, R273): a failure is class 6. -/
def State.reloadFirmware (s : State) : State :=
  let f := s.nor.fwOf s.ident.runSlot
  let s : State := { s with ident := { s.ident with firmware := f } }
  if (f.map (·.sigOk)).getD false then s else s.attention 6 cSig (w32 s.ident.runSlot) 0

/-- The cask restart ends (R273): the map laid out, the firmware reloaded and verified, a new START_ID, the capability table and
the colophon recomputed. -/
def State.caskBack (s : State) : State :=
  let d := s.draw
  let s : State := { d.2 with ident := { d.2.ident with startId := d.1 } }
  let s := s.reloadFirmware
  ((s.layCask.recap cCask).recolophon).endPortService

/-! ### A port out of service (R269, R273) -/

/-- A cask restart begins: all work stopped, every open request ended with CASK_UNCORRECTED, every stream freed. -/
def State.caskRestart (s : State) (p : Nat) : State :=
  let s := ((s.killAll cCask).endRequests cCask).freeStreams.clearCask
  let next := if s.power.config = 3 then s.power.next else s.power.config
  let s : State := { s with power := { s.power with config := 3, next := next } }
  (s.modCellar fun c => { c with rebuilding := true }).attention 6 cCask (w32 p) 0

/-- A port taken out of service at run time with a cause. -/
def State.takePortOut (s : State) (p cause : Nat) : State :=
  if (s.memPort p).state != 2 then s
  else (s.modMem p fun k => { k with state := 3, cause := cause }).caskRestart p

/-! ### Uncorrectable sectors (R250, R262) -/

/-- A move that writes the leaf's cask copy to the cellar and has cleared DIRTY (R289). -/
def MoveKind.writes (k : MoveKind) : Bool := k == .evict || k == .early

/-- A sector of the leaf pool: a clean leaf with a cellar frame is rewritten from that; another leaf is poisoned, and a weight
leaf fetched. -/
def State.poolError (s : State) (h : Handle) (off : Nat) : State :=
  let e := s.leaf h
  let back : Bool := match s.move? h with
    | some m => m.kind.writes && m.admitted
    | none => false
  let promoting : Bool := match s.move? h with
    | some m => m.kind == .promote || m.kind == .rewrite
    | none => false
  if promoting then s
  else if e.inCellar && !e.dirty && !back then
    (((s.endMove h).modLeaf h fun e => { e with inCask := false })).startMove
      { handle := h, kind := .rewrite, section_ := 0, admitted := true }
  else
    let s := s.endMove h
    let s := s.patchCask h fun b => b.mark (off / 64) true
    let s := s.modLeaf h fun e => { e with poisoned := true, dirty := e.dirty || back }
    if (s.weightPlace h).isSome then s.startFetch h else s.releaseMoved h

/-- A sector of the leaf table: it is rewritten with zero entries and POISON 1; its four handles and their frames stay out of
use until the next start. -/
def State.tableError (s : State) (first : Nat) : State :=
  let s : State := { s with caskRaw := s.caskRaw.putMeta (first / 4) (alGet 0 (first / 4) s.caskRaw.tags) true }
  (List.range 4).foldl (fun s k =>
    let h := first + k
    let e := s.leaf h
    let frames := if s.holdsFrame h e then [e.caskFrame] else []
    let s := ((s.dropSs h).endMove h).setLeaf h Leaf.free
    s.modRack fun r => { r with
      lostHandles := (r.lostHandles.filter (· != h)) ++ [h]
      lostFrames := r.lostFrames ++ frames
      fetches := r.fetches.filter (· != h) }) s

/-- A sector of the plan region: the plan is unloaded, its streams paused, their requests ended. -/
def State.planError (s : State) (unit : Nat) : State :=
  match (List.range 64).find? fun j =>
    match (s.slot j).plan with
    | some p => decide (p.regionBase ≤ unit) && decide (unit < p.regionBase + p.regionUnits)
    | none => false with
  | none => s
  | some j =>
    let mine := s.cmds.filter fun c => c.slot == j
    let s := mine.foldl (fun s c =>
      if c.phase == .placed then s.dropCmd c.id else ((s.undo c).logEnd c cCask 0 false).dropCmd c.id) s
    let s := mine.foldl (fun s c => s.endRerun c cCask 0 false) s
    let s := s.voidWhere fun u => (s.stream u.stream).slot == j
    let f (w : Wave) : Wave := if w.slot = j then
        { w with code := if w.code = cDone then cCask else w.code
                 runs := w.runs.map fun (u : WaveRun) => { u with void := true } } else w
    let s : State := { s with parts := s.parts.map fun p => { p with bulk := p.bulk.map f, prio := p.prio.map f } }
    let s := (s.streamsOf j).foldl (fun s i => (s.pauseStream i cCask).endAllReqs i cCask) s
    s.dropPlan j

/-- A sector of the raw cask or of the directory marked with POISON 1. -/
def State.markSector (s : State) (a : Nat) : State :=
  { s with caskRaw := s.caskRaw.putMeta (a / 64) (alGet 0 (a / 64) s.caskRaw.tags) true }

/-- Does a completion record tell of a command (R141)? -/
def tellsOf (r : List W32) (slot desc : Nat) : Bool := bits (wd r 1) 29 24 == slot && bits (wd r 1) 23 0 == desc

/-- A sector of the module tables: the record that it holds is discarded. Which one that is, the spec does not say: a free
value names the section and the place of a completion record, or none. The requests of the runs that its command served, where
its wave still runs, end with CASK_UNCORRECTED (R262, log 157). -/
def State.recordError (s : State) (a : Nat) : State :=
  let n := Config.recordAt (a / 64)
  let sec := n % 4
  match (s.logs.getD sec [])[n / 4]? with
  | none => s
  | some r =>
    let s : State := { s with logs := modAt s.logs sec fun l => l.eraseIdx (n / 4) }
    let waves := s.parts.flatMap fun p => p.bulk.toList ++ p.prio.toList
    let hit := waves.filter fun w => w.slot == bits (wd r 1) 29 24 && w.legs.any fun l =>
      decide (l.1 ≤ bits (wd r 1) 23 0) && decide (bits (wd r 1) 23 0 ≤ l.2)
    let reqs := hit.flatMap fun w => w.runs.filterMap fun (u : WaveRun) => u.req
    reqs.foldl (fun s q => s.endReq (4096 * q.1 + q.2) cCask []) s

/-- What the region of a sector asks for. A directory sector stays marked until its entry is loaded again. -/
def State.regionError (s : State) (a : Nat) : State :=
  if a < 0x200000000 then s.tableError (a / 64 * 4)
  else if a < caskDir then s.reloadFirmware
  else if a < caskPlans then s.markSector a
  else if a < caskTables then s.planError ((a - caskPlans) / 65536)
  else if a < caskPool then (s.markSector a).recordError a
  else if a < caskPool + 65536 * s.rack.poolSize then
    match s.frameOwner ((a - caskPool) / 65536) with
    | some h => s.poolError h (a % 65536)
    | none => s
  else s

/-- The number of a region: 0 leaf table, 1 firmware, 2 directory, 3 plans, 4 module tables, 5 leaf pool, 6 tail. -/
def regionOf (pool a : Nat) : Nat :=
  if a < 0x200000000 then 0 else if a < caskDir then 1 else if a < caskPlans then 2 else if a < caskTables then 3
  else if a < caskPool then 4 else if a < caskPool + 65536 * pool then 5 else 6

/-- The attention class of an uncorrectable sector: 6 in the plan region, and in the firmware region where its verification
fails, which raises its own; else degraded (R262). -/
def regionClass (region : Nat) : Nat := if region = 3 then 6 else 2

/-- What a sector decodes to where three or more wrong symbols pass for one: free bytes, TAG and POISON, written back as if
corrected (R250, R251). In the leaf table they make four other entries. -/
def State.misread (s : State) (a : Nat) : State :=
  let n := s.draws
  let top := (Config.misread n 64).toNat
  let b : Blk :=
    { data := (List.range 64).map (Config.misread n), tag := BitVec.ofNat 4 top, bad := (Config.misread n 64).getLsbD 4 }
  let s : State := { s with draws := n + 1 }
  if a < 0x200000000 then
    let ws := bytesWords 16 b.data
    (List.range 4).foldl (fun s i => s.setLeaf (a / 64 * 4 + i) (wordsLeaf ((ws.drop (4 * i)).take 4))) s
  else s.putCaskBlk (a / 64 * 64) b

/-- A sector error that a read meets: counted; an uncorrectable sector handled by its region, and the sixteenth within 1 s
takes its port out of service. -/
def State.sectorError (s : State) (x : SectorError) : State :=
  let up := s.portsUp
  let p := caskPort up x.addr
  let l := portLocal up x.addr
  if up.isEmpty || x.line then s
  else if !x.uncorrectable then
    (if x.passed then s.misread x.addr else s).modMem p fun k => { k with corrected := sat32 (k.corrected + 1) }
  else
    let t := s.now.toNat
    let s := s.modMem p fun k => { k with
      uncorrected := sat32 (k.uncorrected + 1), lastUncorr := w32 (l / 2)
      recent := (k.recent.filter fun r => decide (t < r + 312500000)) ++ [t] }
    let region := regionOf s.rack.poolSize x.addr
    let s := (s.regionError x.addr).attention (regionClass region) cCask (w32 (p + (region <<< 8))) (w32 (l / 2))
    if 16 ≤ (s.memPort p).recent.length then s.takePortOut p 2 else s

/-- The sectors in error that no read has met, met by a read now: counted and handled one by one (R250, R262; log 134). -/
def State.meetErrors (s : State) : State :=
  if s.rack.flawed.isEmpty then s
  else s.rack.flawed.foldl (fun s x => s.sectorError x) (s.modRack fun r => { r with flawed := [] })

/-- Is there an uncorrectable core-store line among the errors? It kills the command that reads it (R471). -/
def badLine (errs : List SectorError) : Bool := errs.any fun x => x.line && x.uncorrectable

/-! ### The rows -/

/-- May the memory ports be in use: the cask is in service in Run or Ready? -/
def State.caskRuns (s : State) : Bool :=
  (s.power.state == .run || s.power.state == .ready) && (s.power.config == 1 || s.power.config == 2)

/-- RETRAINING_PAUSE: the pins' new delays and levels, where any has moved, are in force and kept for the record; a device that does not answer, or a pin that fails twice,
takes the port out of service (R264, R267, R269). -/
def execRetrainingPause (port : Nat) (pins : List W32) (answered pinsOk : Bool) (s : State) : Host.Outcome State Fault Refusal :=
  .next (if (s.memPort port).state != 2 || !s.caskRuns then s
    else if !answered then s.takePortOut port 3
    else if !pinsOk then s.takePortOut port 1
    else if pins.isEmpty then s
    else s.modMem port fun k =>
      { k with moved := k.moved || takeWords 36 pins != k.pins, pins := takeWords 36 pins })

/-- CASK_RESTART_DONE: the remaining ports restore their training; when none trains in full, the restart ends. -/
def execCaskRestartDone (ports : List PortRead) (s : State) : Host.Outcome State Fault Refusal :=
  .next (if s.power.config != 3 then s else
    let s := s.restorePorts s.portsUp ports
    if s.portsDone then s.caskBack else s)

/-- DEVICE_TEMPERATURE_READ: TEMP is the hotter device's; HOT above 85 °C, until both are below 80 °C (R261, R268). -/
def execDeviceTemperatureRead (port t0 t1 : Nat) (s : State) : Host.Outcome State Fault Refusal :=
  .next (
    let t := min 255 (max t0 t1)
    if (s.memPort port).state = 0 then s
    else s.modMem port fun k => { k with
      temp := BitVec.ofNat 8 t
      hot := if 85 < t then true else if t < 80 then false else k.hot })

/-- PORT_SERVICE: the port leaves service under R273; the command completes with the restart (R488). -/
def execPortService (q tag : Nat) (s : State) : Host.Outcome State Fault Refusal :=
  .next (s.onStarted q tag 0x63 (fun _ => true) fun t =>
    let p := bits (t.arg 1) 3 0
    let s := s.recordBy 0x0D t.role q 0 0x63 (t.arg 1)
    if (s.memPort p).state = 2 && s.power.config != 3 then
      (s.modStarted q tag fun t => { t with begun := true }).takePortOut p 0
    else s.finish q tag cDone (w32 s.portsUp.length) 0)

end Sys2Proof.Machine
end

