-- ==== Sys2Proof/Machine/Cores.lean ====
section
/-! DEFINITION. The cores of a section: stopping it, its map from logical to physical cores, and a core's failure (R471 to
R474). -/

namespace Sys2Proof.Machine

/-! ### Stopping a section -/

/-- A section's cores. -/
def State.sect (s : State) (sec : Nat) : Sect := s.sects.getD sec Sect.reset

/-- A section changed. -/
def State.modSect (s : State) (sec : Nat) (f : Sect → Sect) : State := { s with sects := modAt s.sects sec f }

/-- Has a command a slice in a section? -/
def Cmd.inSection (c : Cmd) (sec : Nat) : Bool := c.cores.any fun k => k / 16 == sec

/-- Does a held command keep a section from remapping (R139, R473)? -/
def State.heldIn (s : State) (sec : Nat) : Bool := s.cmds.any fun c => c.phase == .held && c.inSection sec

/-- Every issued command with a slice in a section killed and placed again in its place (R473, step 1). -/
def State.stopSection (s : State) (sec : Nat) : State :=
  (s.cmds.filter fun c => c.phase == .issued && c.inSection sec).foldl (fun s c => s.killRerun c cRerun) s

/-- Every wave of a partition makes its runs void; their steps are abandoned, and a training wave fails (R473, step 2). -/
def State.voidPart (s : State) (part : Nat) : State :=
  let p := s.part part
  let runs := (p.bulk.toList ++ p.prio.toList).flatMap (·.runs)
  let s := (runs.filter fun u => u.kind != .train).foldl (fun s u => s.abandon u.stream) s
  let f (w : Wave) : Wave := { w with
    code := if w.train.isSome && w.code == cDone then cRerun else w.code
    runs := w.runs.map fun (u : WaveRun) => { u with void := true } }
  s.modPart part fun p => { p with bulk := p.bulk.map f, prio := p.prio.map f }

/-- The partitions that own logical cores of a section. -/
def State.ownersOf (s : State) (sec : Nat) (ls : List Nat) : List Nat :=
  (ls.filterMap fun l => s.corePart (16 * sec + l)).eraseDups

/-! ### Mapping cores -/

/-- Sixteen windows of keys, each w wide from base on, rearranged: window l takes what stood in window src l. -/
def moveWindows {α : Type} (l : List (Nat × α)) (w base : Nat) (src : Nat → Option Nat) : List (Nat × α) :=
  let lo := l.filter fun e => decide (e.1 < base)
  let hi := l.filter fun e => decide (base + 16 * w ≤ e.1)
  let part (k : Nat) : List (Nat × α) :=
    match src k with
    | some j =>
      (l.filter fun e => decide (base + j * w ≤ e.1) && decide (e.1 < base + (j + 1) * w)).map fun e =>
        (e.1 - (base + j * w) + (base + k * w), e.2)
    | none => []
  lo ++ (List.range 16).flatMap part ++ hi

/-- The core stores of a section after its map has changed: each physical core keeps its bytes, tags and poison. -/
def Bytes.moveCores (m : Bytes) (sec : Nat) (src : Nat → Option Nat) : Bytes :=
  let c := Config.coreBytes
  let pz := moveWindows (m.poison.map fun n => (n, ())) (c / 64) (16 * sec * (c / 64)) src
  { m with cells := moveWindows m.cells c (16 * sec * c) src
           tags := moveWindows m.tags (c / 64) (16 * sec * (c / 64)) src
           poison := pz.map (·.1) }

/-- The current lines of the core stores after a section's map has changed. -/
def moveLines (ls : List Nat) (sec : Nat) (src : Nat → Option Nat) : List Nat :=
  let c := Config.coreBytes / 64
  (moveWindows (ls.map fun n => (n, ())) c (16 * sec * c) src).map (·.1)

/-- The descriptor and table space of a logical core loaded from the plan region. -/
def State.loadTables (s : State) (core : Nat) : State :=
  s.plans.foldl (fun (s : State) p =>
    if (coresNamed p.descs).contains core then
      s.putCore (coreAddr core (tableSpace + p.tableBase)) p.table else s) s

/-- A new map and spare for a section: what a physical core holds moves with it, a core new to the map starts empty, and
every core whose logical number changes has its tables loaded. -/
def State.mapCores (s : State) (sec : Nat) (map : List Nat) (spare : Option Nat) : State :=
  let old := (s.sect sec).map
  let src (l : Nat) : Option Nat := (map[l]?).bind fun p => old.findIdx? (· == p)
  let core (l : Nat) : CoreSt :=
    match src l with
    | some j => s.cores.getD (16 * sec + j) CoreSt.reset
    | none => CoreSt.reset
  let s : State := { s.modSect sec fun k => { k with map := map, spare := spare } with
    coreMem := s.coreMem.moveCores sec src
    coreLines := moveLines s.coreLines sec src
    cores := s.cores.zipIdx.map fun x => if x.2 / 16 = sec then core (x.2 % 16) else x.1 }
  ((List.range map.length).filter fun l => map[l]? != old[l]?).foldl (fun s l => s.loadTables (16 * sec + l)) s

/-- The logical cores of a section whose physical core changes. -/
def mapChanges (old new : List Nat) : List Nat := (List.range 16).filter fun l => old[l]? != new[l]?

/-- Physical cores in ascending order. -/
def ascending (l : List Nat) : List Nat := (List.range 17).filter l.contains

/-- A physical core fails (R473, R474): the spare takes its place, or the section keeps the rest in ascending order. -/
def State.coreFails (s : State) (sec phys : Nat) : State :=
  let k := s.sect sec
  if k.spare = some phys then
    ((s.modSect sec fun k => { k with spare := none }).attention 2 0 (w32 (sec + (phys <<< 2))) 0).recapAs true 0
  else match k.map.findIdx? (· == phys) with
    | none => s
    | some l =>
      let map := match k.spare with
        | some p => k.map.set l p
        | none => ascending (k.map.filter (· != phys))
      let s := s.stopSection sec
      let s := ((s.ownersOf sec (mapChanges k.map map)).foldl (fun s n => s.voidPart n) s).dropVoid
      ((s.mapCores sec map none).attention 2 0 (w32 (sec + (phys <<< 2))) 0).recapAs true 0

/-- Is a physical core failed or excluded already? -/
def State.coreOut (s : State) (sec phys : Nat) : Bool :=
  (s.sect sec).failed.getLsbD phys || (s.sect sec).excluded.getLsbD phys

/-- The bit of a physical core. -/
def coreBit (phys : Nat) : BitVec 17 := BitVec.ofNat 17 (1 <<< phys)

/-- Do the cores have their clock (R492, R507)? -/
def State.coresRun (s : State) : Bool :=
  (s.power.state == .run || s.power.state == .ready) && s.power.config != 0

/-- A section's cores whose failure has waited for held commands remapped, once none is held (R473). -/
def State.settleCores (s : State) (sec : Nat) : State :=
  if s.heldIn sec then s
  else (s.sect sec).failing.foldl (fun s p => s.coreFails sec p) (s.modSect sec fun k => { k with failing := [] })

/-- A core fails at run time: recorded in the section and in the core record (R472); issue stops in its section and what runs
there is killed; the remap waits while a held command has a slice in the section (R473, step 1). -/
def State.runFailure (s : State) (sec phys : Nat) : State :=
  if !s.coresRun || 4 ≤ sec || 17 ≤ phys || s.coreOut sec phys then s
  else
    let s := s.modSect sec fun k => { k with failed := k.failed ||| coreBit phys, failing := k.failing ++ [phys] }
    let s : State := { s with nor := { s.nor with coreRecord := modAt s.nor.coreRecord sec fun r => r ||| coreBit phys } }
    (s.stopSection sec).settleCores sec

end Sys2Proof.Machine
end

