-- ==== Sys2Proof/Machine/Mirror.lean ====
section
/-! DEFINITION. State mirrors (R477 to R484), the roll call (R485) and stream restart (R486, R487). -/

namespace Sys2Proof.Machine

/-! ### The owner's side (R478 to R480) -/

/-- The history entries of a mirror: those of rows ⌊LAST_ACK ÷ T⌋ to ⌊(P − 1) ÷ T⌋, as a first entry and one past the
last. -/
def State.mirrorSpan (s : State) (e : Stream) : Nat × Nat :=
  let tt := rowTokens (s.rootKv8 e.spineRoot)
  let chains := s.rootChains e.spineRoot
  (e.lastAck / tt * chains, ((e.position - 1) / tt + 1) * chains)

/-- The spine leaves that hold entries of a span, with their numbers. -/
def State.mirrorSpines (s : State) (root : Handle) (span : Nat × Nat) : List (Nat × Handle) :=
  (((s.content root).handles 0x80 0x480).map fun e => ((e.1 - 0x80) / 4, e.2)).filter fun e =>
    decide (span.1 < 16384 * (e.1 + 1)) && decide (16384 * e.1 < span.2)

/-- The history leaves of a span. -/
def State.mirrorHistory (s : State) (spines : List (Nat × Handle)) (span : Nat × Nat) : List Handle :=
  spines.flatMap fun k => (((s.content k.2).handles 0 65536).filter fun x =>
    let e := 16384 * k.1 + x.1 / 4
    decide (span.1 ≤ e) && decide (e < span.2)).map (·.2)

/-- A mirror taken at a close (R478, R479): root, state leaf and spine leaves sent from copies, the base pages and history
leaves counted until they have been sent. -/
def State.takeMirror (s : State) (i : Nat) : State :=
  let e := s.stream i
  match s.buddyOf e.slot with
  | none => s
  | some buddy =>
    if e.position % 64 != 0 || decide (e.position < e.lastAck + 64) || e.mirrorOut.isSome ||
        e.spineRoot = Config.nullHandle || e.stateLeaf = Config.nullHandle then s
    else
      let span := s.mirrorSpan e
      let spines := s.mirrorSpines e.spineRoot span
      if 253 < spines.length then s else
        let st := s.content e.stateLeaf
        let counted := (st.handles 0x4040 0x8040).map (·.2) ++ s.mirrorHistory spines span
        let s := counted.foldl (fun s h => s.addRef h) s
        let s := s.setStream i { e with
          mirrorOut := some e.position, mirrorLeaves := counted, mirrorEntry := streamWords i e }
        let s := s.sendMirrorLeaf buddy e.slot i e.position e.stateLeaf 6 st
        let s := s.sendMirrorLeaf buddy e.slot i e.position e.spineRoot 4 (s.content e.spineRoot)
        let s := spines.foldl (fun s k => s.sendMirrorLeaf buddy e.slot i e.position k.2 5 (s.content k.2)) s
        if counted.isEmpty then s.sendManifest buddy i e.position else s

/-- MIRROR_LEAF_SENT: one of the leaves counted at the close has been sent; after the last the manifest follows. -/
def execMirrorLeafSent (sid : Nat) (handle : Handle) (s : State) : Host.Outcome State Fault Refusal :=
  .next (
    let e := s.stream sid
    match e.mirrorOut, s.buddyOf e.slot with
    | some pos, some buddy =>
      if e.mirrorLeaves.contains handle then
        let s := s.sendMirrorLeaf buddy e.slot sid pos handle (s.leaf handle).format (s.content handle)
        let left := e.mirrorLeaves.erase handle
        let s := (s.modStream sid fun e => { e with mirrorLeaves := left }).drop handle
        if left.isEmpty then s.sendManifest buddy sid pos else s
      else s
    | _, _ => s)

/-- A mirror that the buddy has not taken: what it still counts is given back, and LAST_ACK stays (R481). -/
def State.failMirror (s : State) (i : Nat) : State :=
  let e := s.stream i
  let s := e.mirrorLeaves.foldl (fun s h => s.drop h) s
  let s := s.modStream i fun e => { e with mirrorOut := none, mirrorLeaves := [], mirrorEntry := [] }
  s.log cPartner (w32 (((s.buddyOf e.slot).map (·.toNat)).getD 0xFFFFF)) 0

/-! ### Mirror parcels -/

/-- Word i of a mirror parcel's prefix. -/
def mirrorWord (p : Parcel) (i : Nat) : W32 := wd (bytesWords 8 p.payload) i
/-- SLOT of a mirror parcel. -/
def mirrorSlot (p : Parcel) : Nat := bits (mirrorWord p 0) 9 4
/-- STREAM of a mirror parcel. -/
def mirrorStream (p : Parcel) : Nat := bits (mirrorWord p 0) 31 16
/-- MIRROR_POS of a mirror parcel. -/
def mirrorPos (p : Parcel) : Nat := (mirrorWord p 1).toNat
/-- START_ID of a mirror parcel. -/
def mirrorStart (p : Parcel) : W64 := mirrorWord p 5 ++ mirrorWord p 4

/-- A swept mirror parcel of one of some kinds is taken from the receive area. -/
def State.onMirror (s : State) (rq : Nat) (kinds : List Nat) (f : Parcel → State → State) : State :=
  match s.rx? rq with
  | some x =>
    if x.parcel.ptype == 6 && x.swept && x.takenBy.isNone && decide (32 ≤ x.parcel.payload.length) &&
        kinds.contains (bits (mirrorWord x.parcel 0) 3 0) then f x.parcel (s.dropRx rq)
    else s
  | none => s

/-- Does a parcel answer the outstanding mirror of a stream, its manifest sent? -/
def State.answers (s : State) (p : Parcel) : Bool :=
  let e := s.stream (mirrorStream p)
  e.mirrorOut == some (mirrorPos p) && e.mirrorLeaves.isEmpty && s.buddyOf e.slot == some p.src

/-- MIRROR_ACK_RECEIVE: a reset or trim since has lowered what LAST_ACK may name (R491). -/
def execMirrorAckReceive (rq : Nat) (s : State) : Host.Outcome State Fault Refusal :=
  .next (s.onMirror rq [2] fun p s =>
    if s.answers p then s.modStream (mirrorStream p) fun e =>
      { e with lastAck := min (mirrorPos p) (e.position / 64 * 64), mirrorOut := none, mirrorEntry := [] }
    else s)

/-- MIRROR_REFUSAL_RECEIVE. A refusal may come before the manifest has been sent. -/
def execMirrorRefusalReceive (rq : Nat) (s : State) : Host.Outcome State Fault Refusal :=
  .next (s.onMirror rq [3] fun p s =>
    let e := s.stream (mirrorStream p)
    if e.mirrorOut == some (mirrorPos p) && s.buddyOf e.slot == some p.src then s.failMirror (mirrorStream p) else s)

/-- MIRROR_ACK_TIMEOUT: 50 ms after the manifest. -/
def execMirrorAckTimeout (stream : Nat) (s : State) : Host.Outcome State Fault Refusal :=
  .next (
    let e := s.stream stream
    if e.mirrorOut.isSome && e.mirrorLeaves.isEmpty then s.failMirror stream else s)

/-! ### The buddy's side (R481 to R484) -/

/-- The buddy changed. -/
def State.modBuddy (s : State) (f : Buddy → Buddy) : State := { s with buddy := f s.buddy }

/-- The recorded START_ID of an owner, 0 when none. -/
def State.ownerStart (s : State) (a : BitVec 20) : W64 := ((s.buddy.startIds.find? fun e => e.1 == a).map (·.2)).getD 0

/-- An answer to an owner about a mirror. -/
def State.answerMirror (s : State) (kind : Nat) (m : Incoming) : State :=
  s.emitParcel (mirrorParcel m.owner kind m.slot m.stream m.pos 0 0 0 (s.ownerStart m.owner) [])

/-- Is it the mirror of that owner and stream? -/
def Incoming.isOf (m : Incoming) (owner : BitVec 20) (stream : Nat) : Bool := m.owner == owner && m.stream == stream

/-- A mirror refused: its frames released, the owner told. -/
def State.refuseMirror (s : State) (m : Incoming) : State :=
  let s := (m.leaves.filterMap (·.own)).foldl (fun s h => s.drop h) s
  (s.modBuddy fun b => { b with incoming := b.incoming.filter fun x => !x.isOf m.owner m.stream }).answerMirror 3 m

/-- A frame of KIND 8 written to the write buffer under a fresh handle, within the quota and the governor: none where it is
not admitted (R481, R484). -/
def State.mirrorFrame (s : State) (m : Incoming) (part sub fmt : Nat) (h4 : W32) (data : Bytes) : Option (Handle × State) :=
  if !s.govOpen then none else
    match s.cellar.place with
    | none => none
    | some (f, c) =>
      let h := s.freeHandle
      let fr : CellarFrame :=
        { handle := w32 h, kind := 8, partition := part, slot := m.slot, writeSeq := c.writeSeq + 1,
          w4 := w32 (m.owner.toNat + (sub <<< 20) + (fmt <<< 22)), w5 := h4, w6 := w32 (if sub = 1 then m.stream else 0),
          w7 := w32 m.pos, data := data, current := true, programmed := false }
      let s := ({ s with cellar := { c with frames := c.frames ++ [(f, fr)], writeSeq := c.writeSeq + 1 } } : State).govTake
      some (h, s.setLeaf h { Leaf.free with ref := 1, inCellar := true, format := fmt, partition := part, cellarFrame := f })

/-- Would one frame more pass the cellar quota? -/
def State.mirrorFull (s : State) (part : Nat) : Bool := decide (s.cellarQuota part < s.cellarHeld part + 1)

/-- Has a leaf come whole: 16 pieces and its tags? -/
def InLeaf.whole (l : InLeaf) : Bool := (List.range 17).all fun k => l.got.contains (4096 * k)

/-- A piece of a leaf put in its place. -/
def InLeaf.put (l : InLeaf) (off : Nat) (d : List Byte) : InLeaf :=
  let data := if off < 65536 then l.data.write off d
    else (List.range 1024).foldl (fun b i =>
      let x := (d.getD (i / 2) 0).toNat
      b.setTag i (BitVec.ofNat 4 (if i % 2 = 0 then x % 16 else x / 16))) l.data
  { l with data := data, got := if l.got.contains off then l.got else l.got ++ [off] }

/-- Whole leaves of a mirror that still wait are written where the governor admits them. -/
def State.admitMirror (s : State) (m : Incoming) (part : Nat) : Incoming × State :=
  m.leaves.foldl (fun (a : Incoming × State) l =>
    match if l.own.isSome || !l.whole || a.2.mirrorFull part then none
        else a.2.mirrorFrame a.1 part 0 l.format l.owner l.data with
    | some (h, s) => ({ a.1 with leaves := a.1.leaves ++ [{ l with own := some h }] }, s)
    | none => ({ a.1 with leaves := a.1.leaves ++ [l] }, a.2)) ({ m with leaves := [] }, s)

/-- The map's handle for a leaf of an owner. -/
def State.mapped (s : State) (owner : BitVec 20) (h : W32) : Option Handle :=
  (s.buddy.map.find? fun e => e.1 == (owner, h)).map (·.2)

/-- An entry of the map replaced, the frame it named decremented. -/
def State.setMapped (s : State) (owner : BitVec 20) (l : InLeaf) : State :=
  match l.own with
  | none => s
  | some h =>
    let s := match s.mapped owner l.owner with
      | some old => s.drop old
      | none => s
    s.modBuddy fun b => { b with map := (b.map.filter fun e => e.1 != (owner, l.owner)) ++ [((owner, l.owner), h)] }

/-- The manifest of a stream dropped. -/
def State.dropManifest (s : State) (owner : BitVec 20) (stream : Nat) : State :=
  let old := s.buddy.manifests.filter fun x => x.owner == owner && x.stream == stream
  (old.foldl (fun s x => s.drop x.handle) s).modBuddy fun b =>
    { b with manifests := b.manifests.filter fun x => !(x.owner == owner && x.stream == stream) }

/-- A mirror that has come whole is applied (R482): the map and the manifest replaced in one update, the owner told; the manifest of
a stream released meanwhile is then dropped (R491). -/
def State.applyMirror (s : State) (m : Incoming) (entry : List W32) (h : Handle) : State :=
  let s := m.leaves.foldl (fun s l => s.setMapped m.owner l) s
  let s := s.dropManifest m.owner m.stream
  let s := (s.modBuddy fun b => { b with
    incoming := b.incoming.filter fun x => !x.isOf m.owner m.stream
    manifests := b.manifests ++ [⟨m.owner, m.stream, m.slot, m.pos, entry, h⟩] }).answerMirror 2 m
  if m.released then s.dropManifest m.owner m.stream else s

/-- Has every leaf of a mirror reached the write buffer, the state leaf and spine root its manifest names among them? -/
def Incoming.complete (m : Incoming) (entry : List W32) : Bool :=
  m.leaves.all (·.own.isSome) && [2, 3].all fun i => m.leaves.any fun l => l.owner == wd entry i

/-- A mirror in hand moved on: refused, kept, or applied. -/
def State.pushMirror (s : State) (m : Incoming) : State :=
  match s.slotPart m.slot with
  | none => s.refuseMirror m
  | some part =>
    let a := s.admitMirror m part
    let m := a.1
    let s := a.2
    let keep (s : State) : State := s.modBuddy fun b =>
      { b with incoming := (b.incoming.filter fun x => !x.isOf m.owner m.stream) ++ [m] }
    if (m.leaves.any fun l => l.whole && l.own.isNone) && s.mirrorFull part then s.refuseMirror m
    else match m.manifest with
      | none => keep s
      | some e =>
        if !m.complete e then keep s
        else if s.mirrorFull part then s.refuseMirror m
        else match s.mirrorFrame m part 1 0 0 ((Bytes.empty .plain).write 0 (wordsBytes e)) with
          | some (h, s) => s.applyMirror m e h
          | none => keep s

/-- The mirror that a parcel belongs to; a parcel of another position starts it anew. -/
def State.incomingOf (s : State) (p : Parcel) : Incoming × State :=
  match s.buddy.incoming.find? fun m => m.isOf p.src (mirrorStream p) with
  | some m =>
    if m.pos = mirrorPos p then (m, s)
    else
      let s := (m.leaves.filterMap (·.own)).foldl (fun s h => s.drop h) s
      ({ m with slot := mirrorSlot p, pos := mirrorPos p, leaves := [], manifest := none, released := false }, s)
  | none => (⟨p.src, mirrorStream p, mirrorSlot p, mirrorPos p, [], none, false⟩, s)

/-- MIRROR_PARCEL_RECEIVE: a piece of a leaf or a manifest. -/
def execMirrorParcelReceive (rq : Nat) (s : State) : Host.Outcome State Fault Refusal :=
  .next (s.onMirror rq [0, 1] fun p s =>
    let a := s.incomingOf p
    let d := p.payload.drop 32
    if bits (mirrorWord p 0) 3 0 = 0 then a.2.pushMirror { a.1 with manifest := some (bytesWords 16 d) }
    else
      let h := mirrorWord p 2
      let off := bits (mirrorWord p 3) 16 0
      let fmt := bits (mirrorWord p 3) 19 17
      let ls := if a.1.leaves.any fun l => l.owner == h then a.1.leaves
        else a.1.leaves ++ [{ owner := h, format := fmt, data := Bytes.empty (formOf fmt), got := [], own := none }]
      a.2.pushMirror { a.1 with leaves := ls.map fun l => if l.owner == h && l.own.isNone then l.put off d else l })

/-- MIRROR_ADMISSION_TIMEOUT: 10 ms after its leaves came, a mirror with a frame still not admitted is refused. -/
def execMirrorAdmissionTimeout (owner stream : Nat) (s : State) : Host.Outcome State Fault Refusal :=
  .next (
    let o : BitVec 20 := BitVec.ofNat 20 owner
    let waiting (m : Incoming) : Bool :=
      (m.leaves.any fun l => l.whole && l.own.isNone) || (m.manifest.map m.complete).getD false
    match s.buddy.incoming.find? fun m => m.isOf o stream && waiting m with
    | none => s
    | some m =>
      let s := s.pushMirror m
      match s.buddy.incoming.find? fun m => m.isOf o stream && waiting m with
      | some m => s.refuseMirror m
      | none => s)

/-- MIRROR_RELEASE_RECEIVE: the manifest goes; that of a mirror still coming goes once it has been applied (R491). -/
def execMirrorReleaseReceive (rq : Nat) (s : State) : Host.Outcome State Fault Refusal :=
  .next (s.onMirror rq [6] fun p s =>
    (s.dropManifest p.src (mirrorStream p)).modBuddy fun b =>
      { b with incoming := b.incoming.map fun m => if m.isOf p.src (mirrorStream p) then { m with released := true } else m })

/-- The mirrored content of an owner's leaf. -/
def State.mirrored (s : State) (owner : BitVec 20) (h : Nat) : Bytes :=
  match s.mapped owner (w32 h) with
  | some x => s.content x
  | none => Bytes.empty .plain

/-- The owner handles that a manifest reaches (R483). -/
def State.reached (s : State) (m : Manifest) : List Nat :=
  let root := (wd m.entry 3).toNat
  let st := (wd m.entry 2).toNat
  let spines := ((s.mirrored m.owner root).handles 0x80 0x480).map (·.2)
  [root, st] ++ spines ++ (spines.flatMap fun h => ((s.mirrored m.owner h).handles 0 65536).map (·.2)) ++
    ((s.mirrored m.owner st).handles 0x4040 0x8040).map (·.2)

/-- MIRROR_MAP_SWEEP. -/
def execMirrorMapSweep (s : State) : Host.Outcome State Fault Refusal :=
  .next (
    let kept := s.buddy.manifests.flatMap fun m => (s.reached m).map fun h => (m.owner, w32 h)
    let gone := s.buddy.map.filter fun e => !kept.contains e.1
    (gone.foldl (fun s e => s.drop e.2) s).modBuddy fun b => { b with map := b.map.filter fun e => kept.contains e.1 })

/-! ### Roll call (R485) -/

/-- The owners whose manifests this module holds. -/
def State.owners (s : State) : List (BitVec 20) := (s.buddy.manifests.map (·.owner)).eraseDups

/-- ROLL_CALL. -/
def execRollCall (s : State) : Host.Outcome State Fault Refusal :=
  .next (s.owners.foldl (fun s a => s.emitParcel (mirrorParcel a 4 0 0 0 0 0 0 (s.ownerStart a) [])) s)

/-- ROLL_CALL_RECEIVE. -/
def execRollCallReceive (rq : Nat) (s : State) : Host.Outcome State Fault Refusal :=
  .next (s.onMirror rq [4] fun p s => s.emitParcel (mirrorParcel p.src 5 0 0 0 0 0 0 s.ident.startId []))

/-! ### Restart of a stream (R486) -/

/-- A leaf of a mirror rebuilt in the cask with this module's handles, each leaf named counted: those at offsets from lo to
hi kept, every other handle null. -/
def State.rebuildLeaf (s : State) (owner : BitVec 20) (part fmt : Nat) (src : Nat) (lo hi : Nat)
    (name : State → Nat → Option (Handle × State)) : Option (Handle × State) :=
  match s.takeSingle part fmt with
  | none => none
  | some (h, s) =>
    let old := s.mirrored owner src
    let s := s.modLeaf h fun e => { e with ref := 1, pending := false, dirty := true }
    let s := s.patchCask h fun b => b.patch 0 (old.read 0 64)
    some (h, (old.handles lo hi).foldl (fun s e =>
      match name s e.2 with
      | some (x, s) => s.patchCask h fun b => b.putWord e.1 x
      | none => s) s)

/-- The handle of a mirrored frame, counted once more. -/
def State.nameMapped (owner : BitVec 20) (s : State) (h : Nat) : Option (Handle × State) :=
  (s.mapped owner (w32 h)).map fun x => (x, s.addRef x)

/-- A spine leaf rebuilt. -/
def State.rebuildSpine (owner : BitVec 20) (part : Nat) (s : State) (h : Nat) : Option (Handle × State) :=
  match s.takeSingle part 5 with
  | none => none
  | some (x, s) =>
    let s := s.modLeaf x fun e => { e with ref := 1, pending := false, dirty := true }
    some (x, ((s.mirrored owner h).handles 0 65536).foldl (fun s e =>
      match State.nameMapped owner s e.2 with
      | some (y, s) => s.patchCask x fun b => b.putWord e.1 y
      | none => s) s)

/-- The leaves a restore takes. -/
def State.restoreNeeds (s : State) (m : Manifest) : Nat :=
  2 + ((s.mirrored m.owner (wd m.entry 3).toNat).handles 0x80 0x480).length

/-- The entry of a restored stream: the manifest's fields with the changes of R486. -/
def restoredEntry (m : Manifest) (part : Nat) (st root : Handle) : Stream :=
  let w (i : Nat) : W32 := wd m.entry i
  { Stream.free (w 5 + 1) with
    partition := part, slot := m.slot, prio := false, live := true, reset := (w 1).getLsbD 1, pause := true,
    resident := false, ending := (w 1).getLsbD 4, refresh := (w 1).getLsbD 5, exh := bits (w 1) 11 8, stateLeaf := st,
    spineRoot := root, position := m.pos, parent := bits (w 6) 15 0, forked := (w 6).getLsbD 16, keyPos := m.pos,
    pauseCause := cPartner, stepsLeft := 0, reqIndex := (w 10).toNat, lastClose := w 11 }

/-- A stream restored from its mirror, or an errata record that says why not. -/
def State.restore (s : State) (m : Manifest) : State :=
  let fail (code : Code) : State := s.log code (w32 m.stream) (w32 m.owner.toNat)
  if (s.stream m.stream).live then fail cStale else
    match (s.slot m.slot).plan, s.slotPart m.slot with
    | some _, some part =>
      if !s.ownsIn part (m.stream / 16384) then fail cRole
      else if s.framesOf part + s.restoreNeeds m > s.caskQuota part then fail cExhausted
      else
        match s.rebuildLeaf m.owner part 6 (wd m.entry 2).toNat 0x4040 0x8040 (State.nameMapped m.owner) with
        | none => fail cExhausted
        | some (st, t) =>
          match t.rebuildLeaf m.owner part 4 (wd m.entry 3).toNat 0x80 0x480 (State.rebuildSpine m.owner part) with
          | none => fail cExhausted
          | some (root, t) =>
            let t := t.patchCask root fun b => (b.putWord 12 0).putWord 4 (b.word 4 % 65536)
            (t.setStream m.stream (restoredEntry m part st root)).attention 3 cPartner (w32 m.stream) (w32 m.owner.toNat)
    | _, _ => fail cRole

/-- An owner declared lost: it is listed, with degraded attention (R470), and every stream whose manifest is held is restored
(R485). -/
def State.loseOwner (s : State) (a : BitVec 20) : State :=
  (s.buddy.manifests.filter fun m => m.owner == a).foldl (fun s m => s.restore m)
    ((s.listUnreachable a).attention 2 cPartner (w32 a.toNat) 0)

/-- ROLL_ANSWER_RECEIVE: the first answer is recorded; one with the recorded START_ID takes the owner off the unreachable list
(R491); one with another declares it lost. -/
def execRollAnswerReceive (rq : Nat) (s : State) : Host.Outcome State Fault Refusal :=
  .next (s.onMirror rq [5] fun p s =>
    let a := p.src
    let id := mirrorStart p
    if !s.owners.contains a then s else
      match s.buddy.startIds.find? fun e => e.1 == a with
      | none => s.modBuddy fun b => { b with startIds := b.startIds ++ [(a, id)] }
      | some e =>
        if e.2 == id then s.modFabric fun f => { f with unreachable := f.unreachable.filter (· != a) }
        else (s.loseOwner a).modBuddy fun b => { b with startIds := b.startIds.map fun e => if e.1 == a then (a, id) else e })

/-- OWNER_LOST: 1.5 s without an answer. -/
def execOwnerLost (owner : Nat) (s : State) : Host.Outcome State Fault Refusal :=
  .next (let a : BitVec 20 := BitVec.ofNat 20 owner
    if s.owners.contains a then s.loseOwner a else s)

end Sys2Proof.Machine
end

