-- ==== Sys2Proof/Machine/Route.lean ====
section
/-! DEFINITION. ROUTE (R355, R356), SEND (R359) and the three forms of RECV (R357, R360), with the payloads of R349. -/

namespace Sys2Proof.Machine

/-! ### Payloads (R349) -/

/-- A payload: the prefix, and the elements packed and padded to 16 bytes. -/
def payloadOf (scale gate count fmt : Nat) (els : List Nat) : List Byte :=
  let b := elemBits fmt
  let body : List Byte :=
    if b = 4 then (List.range ((els.length + 1) / 2)).map fun i =>
      BitVec.ofNat 8 (els.getD (2 * i) 0 % 16 + 16 * (els.getD (2 * i + 1) 0 % 16))
    else els.flatMap (leBytes (b / 8))
  leBytes 2 scale ++ leBytes 2 gate ++ leBytes 2 count ++ leBytes 1 fmt ++ List.replicate 9 0 ++ body ++
    List.replicate ((16 - body.length % 16) % 16) 0

/-- The n elements of a payload times its SCALE, exactly; zeros where FMT is reserved or COUNT is not n. -/
def payloadRow (p : List Byte) (n : Nat) : List FVal :=
  let fmt := (p.getD 6 0).toNat
  if 8 ≤ fmt || leNat ((p.drop 4).take 2) != n then List.replicate n fzero
  else
    let scale := decodeElem 5 (leNat (p.take 2))
    let b := elemBits fmt
    let body := p.drop 16
    (List.range n).map fun i => toVec (fmul (decodeElem fmt (rawElem b body i)) scale)

/-- A row packed for a parcel: SCALE, element format and element words (R72, R118). -/
def Res.packRow (r : Res) (xs : List FVal) : Cm (Nat × Nat × List Nat) := do
  if r.pack = 3 then
    let t ← packToken xs
    pure (t.1, 3, t.2)
  else
    let ws ← (xs.zipIdx).mapM fun x =>
      if r.d.fmt = 7 then pure (encodeElem 7 x.1) else convC r.sto (x.2 % 128) r.d.fmt 0 x.1
    pure (0x3F80, r.d.fmt, ws)

/-- A value rounded to BF16. -/
def bf16C (v : FVal) : Cm Nat := do
  let c := convElem rneShr 5 0 v
  noteSat c.2
  pure c.1

/-- The position of row m: that of its run, 0 outside every run. -/
def Shape.posOf (sh : Shape) (m : Nat) : Nat :=
  match sh.runOf m with
  | some u => u.qPos0 + (m - u.rowFirst)
  | none => 0

/-- A parcel with its header fields. -/
def dataParcel (dest : Nat) (ptype : BitVec 4) (epochLo : BitVec 8) (ident stream token : Nat) (payload : List Byte) :
    Parcel :=
  { mkParcel (BitVec.ofNat 20 dest) ptype payload with
    epochLo := epochLo, ident := BitVec.ofNat 24 ident, stream := BitVec.ofNat 16 stream, token := w32 token }

/-! ### ROUTE -/

/-- The TOPK greatest of scores, in descending order. -/
def topk : Nat → List (Nat × FVal) → List (Nat × FVal)
  | 0, _ => []
  | n + 1, xs =>
    match selectFrom true xs with
    | none => []
    | some x => x :: topk n (xs.filter fun y => y.1 != x.1)

/-- The gates of the selected scores. -/
def gatesOf (renorm : Bool) (ss : List FVal) : Cm (List FVal) :=
  if !renorm || ss.isEmpty then pure ss else do
    let top := ss.headD fzero
    let es ← ss.mapM fun x => do
      let d ← rneC (fsub x top)
      transcC 0 d
    let t ← es.foldlM (fun a e => rneC (fadd a e)) fzero
    let q ← transcC 1 t
    es.mapM fun e => rneC (fmul e q)

/-- HOME and the replicas of an entry in the order of use: a HOME on the unreachable list gives place to the first replica that
is not listed, with those after it; none when all are listed (R476). -/
def State.expertOrder (s : State) (e : List W32) : List Nat :=
  let listed (a : Nat) : Bool := s.fabric.unreachable.any fun x => x.toNat == a
  let reps := (List.range (bits (wd e 0) 24 22)).map fun i => bits (wd e (2 + i)) 19 0
  let home := bits (wd e 0) 19 0
  if listed home then reps.dropWhile listed else home :: reps

/-- Is an expert UNAVAILABLE, by its entry or for this emission? -/
def State.unavailable (s : State) (e : List W32) : Bool := (wd e 0).getLsbD 21 || (s.expertOrder e).isEmpty

/-- Where the k-th parcel of an expert goes (R356): the first module, then each further one for CAPACITY parcels, then the
first again. -/
def expertDest (order : List Nat) (cap k : Nat) : Nat :=
  if cap = 0 then order.headD 0 else order.getD (k / cap) (order.headD 0)

/-- A route record of 128 bytes (R355). -/
def routeRecord (experts : List Nat) (lost : Bool) : List Byte :=
  wordsBytes ([w32 (experts.length + (if lost then 32 else 0))] ++
    (List.range 16).map (fun i => w32 (experts.getD i 0xFFFFFF)) ++ List.replicate 15 0)

/-- The parcels counted for an expert so far. -/
def countOf (counts : List (Nat × Nat)) (e : Nat) : Nat := alGet 0 e counts

/-- One row of a ROUTE: its effects and the counts after it. -/
def State.routeRow (s : State) (r : Res) (b m : Nat) (counts : List (Nat × Nat)) : Cm (List (Nat × Nat) × List Eff) := do
  let w := wd r.words 13
  let base := bits w 31 8
  let core := r.base
  let i := r.shape.streamOf m
  let mayUse (n : Nat) : Bool :=
    let e := s.dir (base + n)
    (wd e 0).getLsbD 20 && base + n != 0xFFFFFF && (s.expertLoss || !s.unavailable e)
  let scores := (s.vecRow r r.a core b m r.n).zipIdx.map fun x => (x.2, x.1)
  let sel := topk (bits w 4 0) (scores.filter fun x => mayUse x.1)
  let lost := s.expertLoss && sel.any fun x => s.unavailable (s.dir (base + x.1))
  let at_ := r.loc r.d.space core 0 (r.d.addr + b * r.d.stride + r.idxOff + 128 * m)
  if lost then pure (counts, [.bytes at_.1 at_.2 (routeRecord [] true), .lost i])
  else
    let gs ← gatesOf (w.getLsbD 5) (sel.map (·.2))
    let xs ← (s.vecRow r r.w core b m r.k).mapM note
    let t ← r.packRow xs
    if r.k = 0 then noteEmpty
    let out ← (sel.zip gs).foldlM (fun (a : List (Nat × Nat) × List Eff) x => do
      let e := base + x.1.1
      let g ← bf16C x.2
      let k := countOf a.1 e
      let p := dataParcel (expertDest (s.expertOrder (s.dir e)) (bits (wd r.words 14) 15 0) k) 1 ((s.stream i).epoch.setWidth 8) e i
        (r.shape.posOf m) (payloadOf t.1 g r.k t.2.1 t.2.2)
      pure (alSet 0 e (k + 1) a.1, a.2 ++ [Eff.send p])) (counts, [])
    pure (out.1, .bytes at_.1 at_.2 (routeRecord (sel.map fun x => base + x.1) false) :: out.2)

/-- The rows of a ROUTE that a run covers, in ascending order. -/
def State.routeBody (s : State) (r : Res) : Cm (List Eff) := do
  let rows := (List.range r.b).flatMap fun b =>
    ((List.range r.m).filter fun m => (r.shape.runOf m).isSome).map fun m => (b, m)
  let out ← rows.foldlM (fun (a : List (Nat × Nat) × List Eff) x => do
    let y ← s.routeRow r x.1 x.2 a.1
    pure (y.1, a.2 ++ y.2)) ([], [])
  pure out.2

/-- Is the directory sector of one of n experts from base on uncorrectable, so that what needs it waits (R262)? -/
def State.dirLost (s : State) (base n : Nat) : Bool := (List.range n).any fun i => s.caskRaw.poison.contains (caskDir / 64 + base + i)

/-- The work of ROUTE. With K = 0 its parcels hold no element and EMPTY is set (R130); the scores, which K does not measure,
are read (DEDUCED, log 149). -/
def routeWork (s : State) (_ : Cmd) (r : Res) : Work :=
  { empty := r.m == 0 || r.n == 0 || r.b == 0
    reads := extOf r.a r.b r.m r.n :: (if r.k = 0 then [] else [extOf r.w r.b r.m r.k])
    writes := [⟨{ r.d with addr := r.d.addr + r.idxOff }, r.b, 128 * r.m, 0, r.m⟩]
    missing := s.dirLost (bits (wd r.words 13) 31 8) r.n
    passes := 1
    body := [(r.base, s.routeBody r)] }

/-- ROUTE. -/
def execRoute (id : Nat) (s : State) : Host.Outcome State Fault Refusal := .next (s.issue id 0x0A routeWork)

/-! ### The split of whole rows (R538) -/

/-- The row tiles of each batch element in ascending order, with the core that handles them. -/
def rowSplit (r : Res) : List (Nat × Nat × Nat) :=
  (List.range r.b).flatMap fun b => (List.range ((r.m + r.tileM - 1) / r.tileM)).map fun t =>
    (b, t, r.base + t % r.gridRows * r.gridCols)

/-- The rows of a row tile. -/
def tileRows (r : Res) (t : Nat) : List Nat := (List.range (min r.tileM (r.m - t * r.tileM))).map (t * r.tileM + ·)

/-- A computation for every row tile. -/
def splitBody (r : Res) (f : Nat → Nat → Nat → Cm (List Eff)) : List (Nat × Cm (List Eff)) :=
  (rowSplit r).map fun x => (x.2.2, do
    let es ← (tileRows r x.2.1).mapM fun m => f x.2.2 x.1 m
    pure es.flatten)

/-! ### SEND -/

/-- TARGET. -/
def sendTarget (r : Res) : Nat := bits (wd r.words 13) 23 0
/-- BY_EXPERT. -/
def byExpert (r : Res) : Bool := (wd r.words 13).getLsbD 24
/-- Is it the return mode? -/
def isReturn (r : Res) : Bool := !byExpert r && sendTarget r == 0xFFFFFF

/-- The return record of a row (R357). -/
def State.returnRec (s : State) (r : Res) (core b m : Nat) : List W32 :=
  bytesWords 4 (s.opRead r r.w.space core (r.shape.streamOf 0) (r.w.addr + 16 * (b * r.m + m)) 16)

/-- One row of a SEND. -/
def State.sendRow (s : State) (r : Res) (core b m : Nat) : Cm (List Eff) := do
  let i := r.shape.streamOf m
  let xs := s.vecRow r r.a core b m r.k
  if r.k = 0 then noteEmpty
  if isReturn r then
    let q := s.returnRec r core b m
    if !(wd q 3).getLsbD 24 then pure [] else
      let g := decodeElem 5 (bits (wd q 1) 31 16)
      let ys ← xs.mapM fun x => rneC (fmul x g)
      let t ← r.packRow ys
      pure [.send (dataParcel (bits (wd q 0) 19 0) 2 (BitVec.ofNat 8 (bits (wd q 0) 27 20)) (bits (wd q 3) 23 0)
        (bits (wd q 1) 15 0) (wd q 2).toNat (payloadOf t.1 0x3F80 r.k t.2.1 t.2.2))]
  else
    let xs ← xs.mapM note
    let t ← r.packRow xs
    let body := payloadOf t.1 0x3F80 r.k t.2.1 t.2.2
    if byExpert r && s.unavailable (s.dir (sendTarget r)) then pure (if s.expertLoss then [.lost i] else [])
    else if byExpert r then
      pure [.send (dataParcel ((s.expertOrder (s.dir (sendTarget r))).headD 0) 1 ((s.stream i).epoch.setWidth 8) (sendTarget r) i
        (r.shape.posOf m) body)]
    else
      pure [.send (dataParcel (sendTarget r % 0x100000) 3 0 (bits (wd r.words 14) 15 0) i (b * r.m + m) body)]

/-- The parcels of each core's rows, against the uncommitted parcel queue (R135). -/
def State.sendOver (s : State) (r : Res) : Bool :=
  (List.range r.gridRows).any fun gr =>
    let core := r.base + gr * r.gridCols
    let rows := coreRows r gr
    decide (4096 < if isReturn r then (rows.filter fun x => (wd (s.returnRec r core x.1 x.2) 3).getLsbD 24).length
      else rows.length)

/-- The work of SEND. With K = 0 its parcels hold no element and EMPTY is set (R130); the return records, which K does not
measure, are read (DEDUCED, log 149). -/
def sendWork (s : State) (_ : Cmd) (r : Res) : Work :=
  { empty := r.m == 0 || r.n == 0 || r.b == 0
    reads := (if r.k = 0 then [] else [extOf r.a r.b r.m r.k]) ++
      (if isReturn r then [⟨{ r.w with scl := 0 }, 1, 16 * r.b * r.m, 0, 0⟩] else [])
    readers := s.readersOf r r.a r.k fun gr gc => if gc = 0 then r.actRows r.a (sliceIdx r.m r.tileM r.gridRows gr) else []
    fault := if s.sendOver r then cOverflow else cDone
    missing := byExpert r && s.dirLost (sendTarget r) 1
    passes := 1
    body := splitBody r (s.sendRow r) }

/-- SEND. -/
def execSend (id : Nat) (s : State) : Host.Outcome State Fault Refusal := .next (s.issue id 0x0B sendWork)

/-! ### RECV -/

/-- CHANNEL. -/
def recvChan (r : Res) : Nat := bits (wd r.words 14) 15 0
/-- EXPECT. -/
def recvExpect (ws : List W32) : Nat := bits (wd ws 13) 7 0
/-- ADD. -/
def recvAdd (ws : List W32) : Bool := (wd ws 13).getLsbD 8

/-- The parcels that a command may take: those no other command has taken. -/
def State.freeRx (s : State) (ptype : BitVec 4) : List Rx :=
  s.fabric.rx.filter fun x => x.takenBy.isNone && x.parcel.ptype == ptype

/-- What a gather takes: batch element, row and parcel, in arrival order, at most M per expert (R357). -/
def State.gatherTake (s : State) (r : Res) : List (Nat × Nat × Rx) :=
  (s.freeRx 1).foldl (fun got x =>
    let e := s.dir x.parcel.ident.toNat
    let b := bits (wd e 10) 15 0
    let k := (got.filter fun g => g.1 == b).length
    if s.entryHere e && bits (wd e 10) 31 16 == recvChan r && decide (b < r.b) && decide (k < r.m) then
      got ++ [(b, k, x)] else got) []

/-- A row of values in D's format (R357, R360). -/
def Res.recvRow (r : Res) (core b m : Nat) (xs : List FVal) : Cm (List Eff) := do
  let out ← (xs.zipIdx).mapM fun x => do
    let y ← note x.1
    let w ← r.vecWord (x.2 % 128) y
    pure (w, y)
  pure (r.putRow core b m 0 r.n (out.map (·.1)) (out.map (·.2)))

/-- The return record of a gathered row, all zero for an unfilled one. -/
def returnBytes (x : Option Rx) : List Byte :=
  match x with
  | none => List.replicate 16 0
  | some x =>
    let p := x.parcel
    wordsBytes [w32 (p.src.toNat + (p.epochLo.toNat <<< 20)),
      w32 (p.stream.toNat + (leNat ((p.payload.drop 2).take 2) <<< 16)), p.token, w32 (p.ident.toNat + (1 <<< 24))]

/-- One row of a gather: its values and its return record. -/
def gatherRow (r : Res) (got : List (Nat × Nat × Rx)) (core b m : Nat) : Cm (List Eff) := do
  let x := (got.find? fun g => g.1 == b && g.2.1 == m).map (·.2.2)
  let es ← r.recvRow core b m (match x with
    | some x => payloadRow x.parcel.payload r.n
    | none => List.replicate r.n fzero)
  let at_ := r.loc r.d.space core (r.shape.streamOf 0) (r.d.addr + r.idxOff + 16 * (b * r.m + m))
  if got.isEmpty then noteEmpty
  pure (es ++ [.bytes at_.1 at_.2 (returnBytes x)])

/-- The work of a gather: it never waits for a parcel. -/
def gatherWork (s : State) (_ : Cmd) (r : Res) : Work :=
  let got := s.gatherTake r
  { refuse := if s.histRefused r r.n then cAlign else cDone
    empty := r.m == 0 || r.n == 0 || r.b == 0
    writes := r.destExt r.n ++ [⟨{ r.d with addr := r.d.addr + r.idxOff }, 1, 16 * r.b * r.m, 0, 0⟩]
    passes := 1
    consumed := got.map fun g => g.2.2.rq
    body := splitBody r (gatherRow r got) }

/-- The parcel of each row of each batch element of a channel RECV: the first that has arrived. -/
def State.channelTake (s : State) (r : Res) : List (Nat × Option Rx) :=
  (List.range (r.b * r.m)).map fun t =>
    (t, (s.freeRx 3).find? fun x => x.parcel.ident.toNat % 65536 == recvChan r && x.parcel.token.toNat == t)

/-- One row of a channel RECV. -/
def channelRow (r : Res) (got : List (Nat × Option Rx)) (core b m : Nat) : Cm (List Eff) :=
  r.recvRow core b m (match got.find? fun g => g.1 == b * r.m + m with
    | some (_, some x) => payloadRow x.parcel.payload r.n
    | _ => List.replicate r.n fzero)

/-- The work of a channel RECV. -/
def channelWork (s : State) (_ : Cmd) (r : Res) : Work :=
  let got := s.channelTake r
  { refuse := if s.histRefused r r.n then cAlign else cDone
    empty := r.m == 0 || r.n == 0 || r.b == 0
    writes := r.destExt r.n
    missing := got.any fun g => g.2.isNone
    passes := 1
    consumed := got.filterMap fun g => g.2.map (·.rq)
    body := splitBody r (channelRow r got) }

/-- The route record of a row: the experts it was sent to. -/
def State.sentTo (s : State) (r : Res) (core b m : Nat) : List Nat :=
  let q := bytesWords 32 (s.opRead r r.w.space core 0 (r.w.addr + b * r.w.stride + 128 * m) 128)
  (List.range (bits (wd q 0) 4 0)).map fun i => bits (wd q (1 + i)) 23 0

/-- The contributions a row accepts, in arrival order, each expert once, min(EXPECT, SENT) at most (R360). -/
def State.accepted (s : State) (r : Res) (core b m : Nat) : List Rx :=
  let i := r.shape.streamOf m
  let sent := s.sentTo r core b m
  ((s.freeRx 2).foldl (fun (got : List Rx) x =>
    let p := x.parcel
    if p.stream.toNat == i && p.token == w32 (r.shape.posOf m) && p.epochLo == (s.stream i).epoch.setWidth 8 &&
        sent.contains p.ident.toNat && !(got.any fun y => y.parcel.ident == p.ident) then got ++ [x] else got) []).take
    (min (recvExpect r.words) sent.length)

/-- One row of an expert sum: contributions added from +0, then the epilogue. -/
def State.sumRow (s : State) (r : Res) (core b m : Nat) : Cm (List Eff) :=
  if (r.shape.runOf m).isNone then pure [] else do
    let ys ← (s.accepted r core b m).foldlM (fun (a : List FVal) x =>
      ((a.zip (payloadRow x.parcel.payload r.n)).zipIdx).mapM fun y => rndC r.sto (y.2 % 128) (fadd y.1.1 y.1.2))
      (List.replicate r.n fzero)
    let out ← (ys.zipIdx).mapM fun y => do
      let e := s.epiAt r core (b * epiUnits r.n) y.2
      let y1 ← epiY1 e r.sto (y.2 % 128) (if r.toHistory then 4 else r.d.fmt) y.1
      let w ← if r.toHistory then pure 0 else r.word e (y.2 % 128) y1
      pure (w, y1)
    pure (r.putRow core b m 0 r.n (out.map (·.1)) (out.map (·.2)))

/-- The work of an expert sum. -/
def sumWork (s : State) (_ : Cmd) (r : Res) : Work :=
  let rows := (rowSplit r).flatMap fun x =>
    ((tileRows r x.2.1).filter fun m => (r.shape.runOf m).isSome).map fun m => (x.2.2, x.1, m)
  let got := rows.map fun x => (x, s.accepted r x.1 x.2.1 x.2.2)
  { refuse := if s.histRefused r r.n then cAlign else cDone
    empty := r.m == 0 || r.n == 0 || r.b == 0
    reads := [⟨{ r.w with scl := 0 }, r.b, 128 * r.m, 0, r.m⟩]
    writes := r.destExt r.n
    missing := got.any fun g => decide (g.2.length <
      min (recvExpect r.words) (s.sentTo r g.1.1 g.1.2.1 g.1.2.2).length)
    passes := 1
    consumed := (got.flatMap fun g => g.2.map (·.rq)).eraseDups
    body := splitBody r (s.sumRow r) }

/-- One of the three forms of RECV issues. -/
def State.issueRecv (s : State) (id : Nat) (form : List W32 → Bool) (w : State → Cmd → Res → Work) : State :=
  match s.cmd? id with
  | some c => if form c.words then s.issue id 0x0C w else s
  | none => s

/-- RECV, gather form. -/
def execRecvGather (id : Nat) (s : State) : Host.Outcome State Fault Refusal :=
  .next (s.issueRecv id (fun ws => !recvAdd ws && recvExpect ws == 0) gatherWork)

/-- RECV, expert-sum form. -/
def execRecvSum (id : Nat) (s : State) : Host.Outcome State Fault Refusal := .next (s.issueRecv id recvAdd sumWork)

/-- RECV, channel form. -/
def execRecvChannel (id : Nat) (s : State) : Host.Outcome State Fault Refusal :=
  .next (s.issueRecv id (fun ws => !recvAdd ws && recvExpect ws == 1) channelWork)

end Sys2Proof.Machine
end

