-- ==== Sys2Proof/Machine/Sparge.lean ====
section
/-! DEFINITION. Sparge reduction (R378 to R393): SPARGE, staging and windows, the adder, the down phase, the close of a step,
backups, the step timer and aborts. -/

namespace Sys2Proof.Machine

/-! ### Channel entries (R378) -/

/-- MODE. -/
def Channel64.mode (k : Channel64) : Nat := bits (wd k.entry 0) 1 0
/-- ROOT. -/
def Channel64.isRoot (k : Channel64) : Bool := (wd k.entry 0).getLsbD 2
/-- INIT_EXP. -/
def Channel64.initExp (k : Channel64) : BitVec 8 := BitVec.ofNat 8 (bits (wd k.entry 0) 23 16)
/-- SLOT. -/
def Channel64.slot (k : Channel64) : Nat := bits (wd k.entry 0) 12 7
/-- PARENT of a member, TARGET of a backup. -/
def Channel64.parent (k : Channel64) : BitVec 20 := BitVec.ofNat 20 (bits (wd k.entry 1) 19 0)
/-- TARGET_CHANNEL. -/
def Channel64.target (k : Channel64) : Nat := bits (wd k.entry 1) 25 20
/-- BACKUP_BY. -/
def Channel64.backupBy (k : Channel64) : BitVec 20 := BitVec.ofNat 20 (bits (wd k.entry 2) 19 0)
/-- BLOCKS. -/
def Channel64.blocks (k : Channel64) : Nat := bits (wd k.entry 3) 24 0
/-- The child modules. -/
def Channel64.kids (k : Channel64) : List (BitVec 20) :=
  (List.range (bits (wd k.entry 0) 6 3)).map fun j => BitVec.ofNat 20 (bits (wd k.entry (5 + j)) 19 0)
/-- The agreed exponent of a block. -/
def Channel64.expOf (k : Channel64) (q : Nat) : BitVec 8 := alGet k.initExp q k.exps

/-! ### Blocks (R384) -/

/-- A block header: SEQ, EXP, MAXEXP, NONFINITE, BACKUP, SAT, CONTRIB. -/
structure BlockHead where
  seq : Nat
  exp : Nat
  maxExp : Nat
  nonfinite : Bool
  backup : Bool
  sat : Nat
  contrib : Nat

/-- The header of a block's bytes. -/
def blockHead (bs : List Byte) : BlockHead :=
  let ws := bytesWords 4 (bs.take 16)
  { seq := bits (wd ws 0) 23 0, exp := bits (wd ws 0) 31 24, maxExp := bits (wd ws 1) 7 0,
    nonfinite := (wd ws 1).getLsbD 8, backup := (wd ws 1).getLsbD 9, sat := bits (wd ws 1) 31 16,
    contrib := bits (wd ws 2) 16 0 }

/-- The 16 bytes of a header. -/
def BlockHead.bytes (h : BlockHead) : List Byte :=
  wordsBytes [w32 (h.seq + (h.exp <<< 24)),
    w32 (h.maxExp + (if h.nonfinite then 0x100 else 0) + (if h.backup then 0x200 else 0) + (h.sat <<< 16)),
    w32 h.contrib, 0]

/-- An up block: 64 integers and their residues. -/
def upBlock (h : BlockHead) (vs : List Int) (rs : List Nat) : List Byte :=
  h.bytes ++ vs.flatMap (fun v => leBytes 6 (BitVec.ofInt 48 v).toNat) ++ rs.map (BitVec.ofNat 8)

/-- Value i of an up block. -/
def upValue (bs : List Byte) (i : Nat) : Int := (BitVec.ofNat 48 (leNat ((bs.drop (16 + 6 * i)).take 6))).toInt
/-- Residue i of an up block. -/
def upResidue (bs : List Byte) (i : Nat) : Nat := (bs.getD (400 + i) 0).toNat

/-- A down block: 64 FP32 words and the residues of their bit patterns. -/
def downBlock (h : BlockHead) (ws : List W32) : List Byte :=
  h.bytes ++ wordsBytes ws ++ ws.map fun w => BitVec.ofNat 8 (w.toNat % 255)

/-- The FP32 words of a down block. -/
def downWords (bs : List Byte) : List W32 := bytesWords 64 ((bs.drop 16).take 256)

/-- Do the residues of a down block hold? -/
def downGood (bs : List Byte) : Bool :=
  ((downWords bs).zipIdx).all fun w => w.1.toNat % 255 == (bs.getD (272 + w.2) 0).toNat

/-! ### Parcels (R384) -/

/-- The payload of a sparge parcel. -/
def spargePayload (n dir : Nat) (attempt : BitVec 8) (cause : Code) (step arg : W32) (hop : BitVec 23) (blocks : List Byte) :
    List Byte :=
  wordsBytes [w32 (n + (dir <<< 5) + (attempt.toNat <<< 8) + (cause.toNat <<< 16)), step, arg, w32 hop.toNat] ++ blocks

/-- A sparge parcel of a channel. -/
def spargeParcel (dest : BitVec 20) (ch : Nat) (payload : List Byte) : Parcel :=
  { mkParcel dest 4 payload with ident := BitVec.ofNat 24 ch }

/-- Word i of a sparge parcel's prefix. -/
def prefixWord (p : Parcel) (i : Nat) : W32 := wd (bytesWords 4 p.payload) i
/-- DIR of a parcel. -/
def spargeDir (p : Parcel) : Nat := bits (prefixWord p 0) 7 5
/-- ATTEMPT of a parcel. -/
def spargeAttempt (p : Parcel) : BitVec 8 := BitVec.ofNat 8 (bits (prefixWord p 0) 15 8)
/-- STEP of a parcel. -/
def spargeStep (p : Parcel) : W32 := prefixWord p 1
/-- CHANNEL of a parcel. -/
def spargeChan (p : Parcel) : Nat := p.ident.toNat % 65536

/-- The blocks of a parcel. -/
def spargeBlocks (p : Parcel) : List (List Byte) :=
  let size := if spargeDir p = 1 then 336 else 464
  (List.range (bits (prefixWord p 0) 4 0)).map fun i => (p.payload.drop (16 + size * i)).take size

/-- Has a parcel the number of blocks its DIR allows, and their bytes? -/
def spargeForm (p : Parcel) : Bool :=
  let n := bits (prefixWord p 0) 4 0
  match spargeDir p with
  | 0 | 2 => within 1 17 n && p.payload.length == 16 + 464 * n
  | 1 => within 1 24 n && p.payload.length == 16 + 336 * n
  | 3 | 4 | 5 => n == 0 && p.payload.length == 16
  | _ => false

/-- A parcel of the channel's current step and attempt sent to a module. -/
def State.spargeSend (s : State) (c : Nat) (dest : BitVec 20) (n dir : Nat) (arg : W32) (blocks : List Byte) : State :=
  let k := s.chan c
  s.emitParcel (spargeParcel dest c (spargePayload n dir k.attempt 0 k.step arg 0 blocks))

/-! ### Windows and staging (R380, R383, R385, R391) -/

/-- The last sequence number reported consumed to a sender when n blocks have been consumed. -/
def lastCredit (n blocks : Nat) : Int := if n = blocks then (n : Int) - 1 else (n / 512 * 512 : Nat) - 1

/-- A report of consumption is due after block q. -/
def creditDue (q blocks : Nat) : Bool := (q + 1) % 512 == 0 || q + 1 == blocks

/-- Blocks discarded as late, stale or outside their window. -/
def Channel64.tardy (k : Channel64) : Channel64 := { k with late := sat32 (k.late + 1) }

/-- A step begun: STATE 1 and the step timer started (R392); what was held for the last step is dropped. -/
def Channel64.begin_ (k : Channel64) : Channel64 :=
  if k.state = 0 then { k with state := 1, timer := true, sums := [], down := [], downNext := 0, downFails := 0 } else k

/-- Has an input a block of a sequence number? -/
def hasSeq (l : List Block) (q : Nat) : Bool := l.any fun b => b.seq == q

/-- Is step a at attempt b later than the channel's own? -/
def Channel64.later (k : Channel64) (step : W32) (attempt : BitVec 8) : Bool :=
  (step != k.step && decide ((step - k.step).toNat < 0x80000000)) ||
  (step == k.step && attempt != k.attempt && decide ((attempt - k.attempt).toNat < 128))

/-- Is a parcel of step a at attempt b of an older ATTEMPT of the step in hand (R392)? -/
def Channel64.aged (k : Channel64) (step : W32) (attempt : BitVec 8) : Bool :=
  step == k.step && attempt != k.attempt && !k.later step attempt

/-- A backup copy staged; one whose local block is there, or has been added, is discarded (R391). -/
def Channel64.stageBackup (k : Channel64) (b : Block) : Channel64 :=
  if b.seq < k.blocksDone || hasSeq k.local_ b.seq then k
  else if hasSeq k.backup b.seq || lastCredit k.blocksDone k.blocks + 2048 < b.seq then k.tardy
  else { k with backup := k.backup ++ [b] }

/-- A child's block staged, within its window. -/
def Channel64.stageChild (k : Channel64) (j : Nat) (b : Block) : Channel64 :=
  if b.seq < k.blocksDone || hasSeq (k.children.getD j []) b.seq || lastCredit k.blocksDone k.blocks + 2048 < b.seq then k.tardy
  else { k with children := modAt k.children j fun l => l ++ [b] }

/-- A block of input i (1 the backup, 2 and up the children): staged, kept for the step or attempt it belongs to, or
discarded and counted. -/
def Channel64.stage (k : Channel64) (i : Nat) (step : W32) (attempt : BitVec 8) (b : Block) : Channel64 :=
  if k.state = 3 then k.tardy
  else if step == k.step && attempt == k.attempt then
    if k.state = 2 || k.blocks ≤ b.seq then k.tardy
    else if i = 1 then k.begin_.stageBackup b else k.begin_.stageChild (i - 2) b
  else if k.later step attempt && decide (b.seq ≤ 2047) then { k with early := k.early ++ [(i, step, attempt, b)] }
  else k.tardy

/-- Blocks kept for a later step or attempt staged again. -/
def Channel64.restage (k : Channel64) : Channel64 :=
  k.early.foldl (fun k e => k.stage e.1 e.2.1 e.2.2.1 e.2.2.2) { k with early := [] }

/-- A local block committed (R383, R391): staged, or discarded where its attempt has ended, its down phase has begun or a
backup stood in. A backup channel only counts it. -/
def Channel64.stageLocal (k : Channel64) (attempt : BitVec 8) (b : Block) : Channel64 :=
  let k := { k with saturations := sat32 (k.saturations + (blockHead b.data).sat) }
  if k.mode = 2 then { k with committed := k.committed ++ [(b.seq, 1)] }
  else if k.mode != 1 || attempt != k.attempt || decide (2 ≤ k.state) then k.tardy
  else
    let k := { k.begin_ with committed := k.committed ++ [(b.seq, 1)] }
    if b.seq < k.blocksDone || k.backupDue.contains b.seq then k.tardy
    else { k with local_ := k.local_ ++ [b], backup := k.backup.filter fun x => x.seq != b.seq }

/-- The commit of a SPARGE's block. -/
def State.commitBlock (s : State) (c : Nat) (attempt : BitVec 8) (seq : Nat) (data : List Byte) : State :=
  s.modChan c fun k => k.stageLocal attempt ⟨seq, data⟩

/-- The place of a module among a channel's children. -/
def Channel64.kid? (k : Channel64) (a : BitVec 20) : Option Nat :=
  (List.range k.kids.length).find? fun j => k.kids.getD j 0 == a

/-- A down block staged, for the step in hand, within its window. -/
def Channel64.stageDown (k : Channel64) (step : W32) (attempt : BitVec 8) (b : Block) : Channel64 :=
  if k.state = 3 || k.state = 0 || step != k.step || attempt != k.attempt || decide (b.seq < k.downNext) ||
      hasSeq k.down b.seq || decide (lastCredit k.downNext k.blocks + 2048 < b.seq) || decide (k.blocks ≤ b.seq) then k.tardy
  else if k.state = 1 then { k with state := 2, blocksDone := 0, down := k.down ++ [b] }
  else { k with down := k.down ++ [b] }

/-- The intake of a swept sparge parcel that carries up or down blocks (R385). -/
def State.spargeIntake (s : State) (x : Rx) : State :=
  let p := x.parcel
  let c := spargeChan p
  let k := s.chan c
  if p.ptype != 4 || (spargeForm p && decide (2 ≤ spargeDir p)) then s else
    let s := s.dropRx x.rq
    if !spargeForm p || k.mode != 1 then s else
      let bs := (spargeBlocks p).map fun b => (⟨(blockHead b).seq, b⟩ : Block)
      if spargeDir p = 0 then
        match k.kid? p.src with
        | some j => s.modChan c fun k => bs.foldl (fun k b => k.stage (j + 2) (spargeStep p) (spargeAttempt p) b) k
        | none => s
      else if !k.isRoot && k.parent == p.src then
        s.modChan c fun k => bs.foldl (fun k b => k.stageDown (spargeStep p) (spargeAttempt p) b) k
      else s

/-! ### SPARGE (R381 to R383) -/

/-- CHANNEL of a SPARGE. -/
def spargeOf (r : Res) : Nat := bits (wd r.words 13) 5 0
/-- SEQ_BASE. -/
def seqBase (r : Res) : Nat := bits (wd r.words 13) 31 8
/-- The blocks of a SPARGE. -/
def spargeCount (r : Res) : Nat := (r.m * r.n + 63) / 64

/-- The biased FP32 exponent of a value: 0 for zero and subnormals. -/
def biasedExp (v : FVal) : Nat :=
  match leadOf v with
  | some l => (l + 127).toNat
  | none => 0

/-- The conversion of a block against an exponent (R382). A value that saturates sets OUT_SAT: R70 counts this conversion among
the compressions of which R59 speaks, though R58 names only those of R69 to R72 (DEDUCED, log 159). -/
def contribute (seq : Nat) (exp : BitVec 8) (gs : List FVal) : Cm (List Byte) := do
  let top : Int := 0x7FFFFFFF
  let qs ← (gs.zipIdx).mapM fun g =>
    if isFin g.1 then do
      let r ← draw g.2
      pure (roundInt (stoShr r) (fmul g.1 (.fin false 1 (160 - (exp.toNat : Int)))))
    else pure 0
  let vs := qs.map (clampInt (-top) top)
  noteSat (qs.any fun q => decide (top < q.natAbs))
  let h : BlockHead :=
    { seq := seq, exp := exp.toNat, maxExp := ((gs.filter isFin).map biasedExp).foldl max 0,
      nonfinite := gs.any fun g => !isFin g, backup := false,
      sat := (qs.filter fun q => decide (top < q.natAbs)).length, contrib := 1 }
  pure (upBlock h vs (vs.map fun v => (v % 255).toNat))

/-- The values of a SPARGE, row after row. -/
def State.spargeVals (s : State) (r : Res) : List FVal :=
  (List.range r.m).flatMap fun m => s.rowVals r r.a r.base 0 0 m r.n

/-- Backup parcels of up to 17 blocks each. fuel bounds their number. -/
def backupParcels (dest : BitVec 20) (ch : Nat) (attempt : BitVec 8) (step deadline : W32) : Nat → List (List Byte) → List Eff
  | 0, _ => []
  | n + 1, bs =>
    if bs.isEmpty then [] else
      let now := bs.take 17
      .send (spargeParcel dest ch (spargePayload now.length 2 attempt 0 step deadline 0 now.flatten)) ::
        backupParcels dest ch attempt step deadline n (bs.drop 17)

/-- The channel whose step a channel's SPARGE belongs to: its own, or for a backup the member channel of the target's
number, where this module is a member of it. -/
def State.stepChan (s : State) (c : Nat) : Nat :=
  let k := s.chan c
  if k.mode = 2 && (s.chan k.target).mode = 1 then k.target else c

/-- The blocks of a SPARGE and what they become at its commit. A backup channel converts against the exponent table of the member
that this module is of the same channel, since no rule updates a backup entry's own; without such a member, against its own
(DEDUCED, log 163). -/
def State.spargeBody (s : State) (attempt : BitVec 8) (r : Res) : Cm (List Eff) := do
  let c := spargeOf r
  let k := s.chan c
  let own := s.chan (s.stepChan c)
  let vs := s.spargeVals r
  let bs ← (List.range (spargeCount r)).mapM fun i =>
    contribute (seqBase r + i) (own.expOf (seqBase r + i))
      (((vs.drop (64 * i)).take 64) ++ List.replicate (64 * (i + 1) - vs.length) fzero)
  let deadline := wd r.words 14
  let blocks := (List.range bs.length).map fun i => Eff.block c attempt (seqBase r + i) deadline (bs.getD i [])
  pure (blocks ++ if k.mode = 2 then backupParcels k.parent k.target (if s.stepChan c = c then attempt else own.attempt) own.step deadline (bs.length + 1) bs else [])

/-- The work of SPARGE. -/
def spargeWork (s : State) (c0 : Cmd) (r : Res) : Work :=
  let c := spargeOf r
  let k := s.chan c
  let n := spargeCount r
  let last := seqBase r + n
  let room : Int := if k.mode = 2 then k.upCredit + 1 else k.blocksDone + 2048
  { refuse :=
      if (k.mode != 1 && k.mode != 2) || k.slot != r.slot || decide (k.blocks < last) ||
          k.committed.any (fun x => decide (x.1 < last) && decide (seqBase r < x.1 + x.2)) then cAlign else cDone
    empty := r.m == 0 || r.n == 0 || r.b == 0
    reads := [extOf r.a r.b r.m r.n]
    fault := if 2048 < n then cOverflow else cDone
    missing := decide (n ≤ 2048) && decide (k.state ≤ 1) && c0.attempt == k.attempt && decide (room < last)
    passes := 1
    body := [(r.base, s.spargeBody c0.attempt r)] }

/-- SPARGE. -/
def execSparge (id : Nat) (s : State) : Host.Outcome State Fault Refusal := .next (s.issue id 0x0F spargeWork)

/-! ### Ends of an attempt (R387, R388, R392) -/

/-- LAST_HOP of a kind and a module. -/
def hopOf (kind : Nat) (a : BitVec 20) : BitVec 23 := BitVec.ofNat 23 (a.toNat + (kind <<< 20))

/-- The staging of the attempt cleared. -/
def Channel64.clear (k : Channel64) : Channel64 :=
  { k with blocksDone := 0, local_ := [], backup := [], backupDue := [], children := k.children.map fun _ => [], upCredit := 2047,
           downCredit := k.downCredit.map fun _ => 2047, sums := [], down := [], downNext := 0, downFails := 0,
           committed := [], backupUsed := false }

/-- Backup channels that follow a member channel's step start their window again. -/
def State.resetBackups (s : State) (c : Nat) : State :=
  { s with channels := s.channels.map fun k =>
      if k.mode = 2 && k.target = c then { k with committed := [], upCredit := 2047 } else k }

/-- The attempt ended with a cause: staging cleared, ATTEMPT raised, the slot's training command ended (R377, R392). -/
def State.endAttempt (s : State) (c : Nat) (cause : Code) (hop : BitVec 23) : State :=
  let s := s.modChan c fun k =>
    ({ k.clear with state := 1, timer := true, attempt := k.attempt + 1, lastCause := cause, lastHop := hop }).restage
  (s.resetBackups c).endTrains (s.chan c).slot cause

/-- Abort parcels to every neighbour but one. -/
def State.sendAborts (s : State) (c : Nat) (cause : Code) (hop : BitVec 23) (but : Option (BitVec 20)) : State :=
  let k := s.chan c
  let near := (if k.isRoot then [] else [k.parent]) ++ k.kids
  (near.filter fun a => some a != but).foldl (fun s a =>
    s.emitParcel (spargeParcel a c (spargePayload 0 4 k.attempt cause k.step 0 hop []))) s

/-- This module aborts the attempt. -/
def State.abortStep (s : State) (c : Nat) (cause : Code) (cls : Nat) (hop : BitVec 23) : State :=
  ((s.sendAborts c cause hop none).endAttempt c cause hop).attention cls cause (w32 c) (w32 hop.toNat)

/-- The step ended in the down phase: the channel and its parameter sets are behind (R388). -/
def State.fallBehind (s : State) (c : Nat) (cause : Code) (cls : Nat) (hop : BitVec 23) : State :=
  let s := s.modChan c fun k => { k.clear with state := 3, timer := false, lastCause := cause, lastHop := hop, early := [] }
  let s := (s.setsOf c).foldl (fun s n => s.modPSet n fun p => { p with behind := true }) s
  ((s.resetBackups c).endTrains (s.chan c).slot cause).attention cls cause (w32 c) (w32 hop.toNat)

/-! ### The gradient regions (R388, R389, R395) -/

/-- Where block q of a channel lies in a weight image: slot and byte offset. -/
def State.gradAt (s : State) (c q : Nat) : Option (Nat × Nat) :=
  ((s.setsOf c).find? fun n =>
    let b := setBlocks (s.pset n).entry
    decide (b.1 ≤ q) && decide (q < b.1 + b.2)).map fun n =>
      let e := (s.pset n).entry
      (bits (wd e 0) 8 3, 256 * (wd e 5).toNat + 256 * (q - bits (wd e 1) 23 0))

/-- The values of a block written at its gradient address; none while its leaf can have no cask copy. -/
def State.putGrad (s : State) (c q : Nat) (ws : List W32) : Option State :=
  match s.gradAt c q with
  | none => some s
  | some (slot, off) =>
    match (s.slot slot).plan with
    | none => some s
    | some p =>
      let h := p.leaves.getD (off / 65536) Config.nullHandle
      if h = Config.nullHandle then some s else
        let s := s.ensureCask h
        if (s.leaf h).inCask then some (s.putAt (.image slot) off (wordsBytes ws)) else none

/-! ### The close (R390) -/

/-- The down blocks of a finished step. -/
def Channel64.heads (k : Channel64) : List BlockHead := k.sums.map fun e => blockHead e.2

/-- The exponents of the next step. -/
def nextExps (init : BitVec 8) (hs : List BlockHead) : List (Nat × BitVec 8) :=
  hs.foldl (fun l h => alSet init h.seq (if h.maxExp = 0 then init else BitVec.ofNat 8 (min 254 (h.maxExp + 5))) l) []

/-- A step closes: next exponents, STEP raised, ATTEMPT 0, and the sets passed to the Maltster. The down blocks stay for
resend requests until the next step begins. -/
def State.closeStep (s : State) (c : Nat) : State :=
  let k := s.chan c
  let hs := k.heads
  let s := s.modChan c fun k => { k.clear with
    state := 0, timer := false, attempt := 0, step := k.step + 1, sums := k.sums, exps := nextExps k.initExp hs,
    globalSat := sat32 ((hs.map (·.sat)).foldl (· + ·) 0) }
  let s := (s.resetBackups c).maltUpdate c ((hs.filter (·.nonfinite)).map (·.seq)) k.backupUsed
  s.modChan c Channel64.restage

/-! ### The down phase (R388) -/

/-- May block q leave for every child? -/
def Channel64.kidsOpen (k : Channel64) (q : Nat) : Bool := k.downCredit.all fun n => decide ((q : Int) ≤ n)

/-- A down block sent to every child. -/
def State.sendDown (s : State) (c : Nat) (bs : List Byte) : State :=
  (s.chan c).kids.foldl (fun s a => s.spargeSend c a 1 1 0 bs) s

/-- Down block q of the root, its values read back from its gradient region. -/
def State.readBack (s : State) (c q : Nat) : List Byte :=
  let bs := alGet [] q (s.chan c).sums
  match s.gradAt c q with
  | some (slot, off) =>
    if (s.slot slot).plan.isSome then downBlock (blockHead bs) (bytesWords 64 (s.imageRead slot 3 off 256)) else bs
  | none => bs

/-- The root sends down blocks in ascending order while every child has credit, and closes after the last. -/
def State.pumpDown : Nat → Nat → State → State
  | 0, _, s => s
  | n + 1, c, s =>
    let k := s.chan c
    if k.mode != 1 || k.state != 2 || !k.isRoot then s
    else if k.blocks ≤ k.downNext then s.closeStep c
    else if !k.kidsOpen k.downNext then s
    else
      let bs := s.readBack c k.downNext
      let s := (s.sendDown c bs).modChan c fun k => { k with
        sums := alSet [] k.downNext bs k.sums, downNext := k.downNext + 1, blocksDone := k.downNext + 1 }
      State.pumpDown n c s

/-- The pump of a channel. -/
def State.pump (s : State) (c : Nat) : State := State.pumpDown ((s.chan c).blocks + 1) c s

/-! ### ADD_BLOCK (R386, R387) -/

/-- The inputs of block q with their hop, none while one is missing. -/
def State.inputsOf (s : State) (c q : Nat) : Option (List (BitVec 23 × Bool × List Byte)) :=
  let k := s.chan c
  let find (l : List Block) : Option (List Byte) := (l.find? fun b => b.seq == q).map (·.data)
  let first : Option (BitVec 23 × Bool × List Byte) := match find k.local_ with
    | some d => some (hopOf 2 s.addr, false, d)
    | none => if k.backupDue.contains q then (find k.backup).map fun d => (hopOf 3 k.backupBy, true, d) else none
  let kids := (k.kids.zip k.children).map fun x => (find x.2).map fun d => (hopOf 1 x.1, false, d)
  if kids.any Option.isNone then none else first.map fun f => f :: kids.filterMap id

/-- The first input of block q that is missing. -/
def State.missingHop (s : State) (c q : Nat) : BitVec 23 :=
  let k := s.chan c
  if k.blocks ≤ q then hopOf 4 k.parent
  else if !hasSeq k.local_ q && !k.backupDue.contains q then hopOf 2 s.addr
  else match (k.kids.zip k.children).find? fun x => !hasSeq x.2 q with
    | some x => hopOf 1 x.1
    | none => hopOf 4 k.parent

/-- Does an input agree with the exponent table and its residues? -/
def inputGood (exp : BitVec 8) (d : List Byte) : Bool :=
  (blockHead d).exp == exp.toNat &&
  (List.range 64).all fun i => (upValue d i % 255).toNat == upResidue d i

/-- The header of a sum. -/
def sumHead (q : Nat) (exp : BitVec 8) (ins : List (BitVec 23 × Bool × List Byte)) : BlockHead :=
  let hs := ins.map fun x => blockHead x.2.2
  { seq := q, exp := exp.toNat, maxExp := (hs.map (·.maxExp)).foldl max 0, nonfinite := hs.any (·.nonfinite),
    backup := hs.any (·.backup) || ins.any (·.2.1), sat := min 0xFFFF ((hs.map (·.sat)).foldl (· + ·) 0),
    contrib := (hs.map (·.contrib)).foldl (· + ·) 0 }

/-- Block q consumed: the inputs leave staging, and a report goes to each sender where one is due. -/
def State.consumed (s : State) (c q : Nat) : State :=
  let drop (l : List Block) : List Block := l.filter fun b => b.seq != q
  let s := s.modChan c fun k => { k with
    local_ := drop k.local_, backup := drop k.backup, children := k.children.map drop, blocksDone := q + 1 }
  let k := s.chan c
  if creditDue q k.blocks then
    (k.kids ++ (if k.backupBy = 0xFFFFF then [] else [k.backupBy])).foldl (fun s a => s.spargeSend c a 0 3 (w32 q) []) s
  else s

/-- The root's block: the sum in FP32, written in its gradient region (R388). -/
def rootBlock (h : BlockHead) (sum : List Int) : List Byte × List W32 :=
  let vs := sum.map fun v => rne32 (fmul (ofInt v) (.fin false 1 ((h.exp : Int) - 160)))
  (downBlock { h with nonfinite := h.nonfinite || vs.any isInf } (vs.map toW32), vs.map toW32)

/-- The inputs of block q whose staged copy, at place q mod 2 048 of its input's quire, lies in a sector found uncorrectable: the
local contribution's quire stands first, then the children's, the backup's last (R379, R393; log 168). -/
def State.lostInputs (s : State) (c q : Nat) (errs : List SectorError) : List (BitVec 23) :=
  let k := s.chan c
  let hops := hopOf 2 s.addr :: k.kids.map (hopOf 1) ++ [hopOf 3 k.backupBy]
  let off := 512 * (q % 2048)
  let hit (i : Nat) : Bool :=
    let e := s.leaf (k.leaves.getD (16 * i + off / 65536) Config.nullHandle)
    let lo := caskPool + 65536 * e.caskFrame + off % 65536
    e.inCask && errs.any fun x => x.uncorrectable && decide (lo ≤ x.addr) && decide (x.addr < lo + 464)
  ((List.range hops.length).filter hit).map fun i => hops.getD i 0

/-- One block added; lost are the inputs whose staged block could not be read. -/
def State.addBlock (s : State) (c : Nat) (lost : List (BitVec 23)) : State :=
  let k := s.chan c
  let q := k.blocksDone
  match if k.mode != 1 || k.state != 1 || decide (k.blocks ≤ q) then none else s.inputsOf c q with
  | none => s
  | some ins =>
    match ins.find? fun x => lost.contains x.1 || !inputGood (k.expOf q) x.2.2 with
    | some x => s.abortStep c cResidue 6 x.1
    | none =>
      let h := sumHead q (k.expOf q) ins
      let sum := (List.range 64).map fun i => (ins.map fun x => upValue x.2.2 i).foldl (· + ·) 0
      let res := (List.range 64).map fun i => ((ins.map fun x => upResidue x.2.2 i).foldl (· + ·) 0) % 255
      if (sum.zip res).any fun x => (x.1 % 255).toNat != x.2 then s.abortStep c cResidue 6 (hopOf 0 s.addr)
      else if !k.isRoot then
        if k.upCredit < (q : Int) then s else (s.spargeSend c k.parent 1 0 0 (upBlock h sum res)).consumed c q
      else
        let b := rootBlock h sum
        match s.putGrad c q b.2 with
        | none => s
        | some s =>
          let s := (s.modChan c fun k => { k with sums := alSet [] q b.1 k.sums }).consumed c q
          if q + 1 = k.blocks then (s.modChan c fun k => { k with state := 2, blocksDone := 0, downNext := 0 }).pump c else s

/-- ADD_BLOCK, with the errors that its reads of the staging leaves meet. -/
def execAddBlock (channel : Nat) (s : State) : Host.Outcome State Fault Refusal :=
  .next (
    let k := s.chan channel
    if k.mode != 1 || k.state != 1 then s
    else s.meetErrors.addBlock channel (s.lostInputs channel k.blocksDone s.rack.flawed))

/-! ### Down blocks of the other members -/

/-- Has a SPARGE of the channel issued that has not ended (R389)? -/
def State.spargeRuns (s : State) (c : Nat) : Bool :=
  s.cmds.any fun x => x.opc == 0x0F && x.phase != .placed && bits (wd x.words 13) 5 0 == c

/-- The next down block taken: checked, written, forwarded; after the last the step closes. The third failure of one block ends the
step with RESIDUE_MISMATCH (R388). -/
def State.takeDown (s : State) (c : Nat) : State :=
  let k := s.chan c
  let q := k.downNext
  match if k.mode != 1 || k.isRoot || k.state != 2 || s.spargeRuns c || !k.kidsOpen q then none
      else k.down.find? fun b => b.seq == q with
  | none => s
  | some b =>
    let gone (k : Channel64) : Channel64 := { k with down := k.down.filter fun x => x.seq != q }
    if !downGood b.data then
      let s := s.modChan c fun k => { gone k with downFails := k.downFails + 1 }
      if 3 ≤ k.downFails + 1 then s.fallBehind c cResidue 6 (hopOf 4 k.parent) else s
    else
      match s.putGrad c q (downWords b.data) with
      | none => s
      | some s =>
        let s := (s.sendDown c b.data).modChan c fun k => { gone k with
          sums := alSet [] q b.data k.sums, downNext := q + 1, blocksDone := q + 1, downFails := 0 }
        let s := if creditDue q k.blocks then s.spargeSend c k.parent 0 3 (w32 q) [] else s
        if q + 1 = k.blocks then s.closeStep c else s

/-- DOWN_BLOCK_RECEIVE. -/
def execDownBlockReceive (channel : Nat) (s : State) : Host.Outcome State Fault Refusal := .next (s.takeDown channel)

/-- DOWN_BLOCK_RESEND_WAIT: 1 ms after a down block failed it is asked for again. -/
def execDownBlockResendWait (channel : Nat) (s : State) : Host.Outcome State Fault Refusal :=
  .next (
    let k := s.chan channel
    if k.mode != 1 || k.isRoot || k.state != 2 || k.downFails = 0 || hasSeq k.down k.downNext then s
    else s.spargeSend channel k.parent 0 5 (w32 k.downNext) [])

/-! ### Sparge parcels without up or down blocks -/

/-- A swept sparge parcel of a DIR is taken from the receive area. -/
def State.onSparge (s : State) (rq dir : Nat) (f : Parcel → State → State) : State :=
  match s.rx? rq with
  | some x =>
    if x.parcel.ptype == 4 && x.swept && x.takenBy.isNone && spargeForm x.parcel && spargeDir x.parcel == dir then
      f x.parcel (s.dropRx rq)
    else s
  | none => s

/-- A parcel of an older ATTEMPT is counted as it is discarded (R392). -/
def State.countAged (s : State) (c : Nat) (p : Parcel) : State :=
  if (s.chan c).mode = 1 ∧ (s.chan c).aged (spargeStep p) (spargeAttempt p) then s.modChan c Channel64.tardy else s

/-- SPARGE_RESEND_RECEIVE: the block asked for is sent again while the module holds it. -/
def execSpargeResendReceive (rq : Nat) (s : State) : Host.Outcome State Fault Refusal :=
  .next (s.onSparge rq 5 fun p s =>
    let c := spargeChan p
    let k := s.chan c
    let q := bits (prefixWord p 2) 23 0
    let bs := alGet [] q k.sums
    let now := spargeStep p == k.step && spargeAttempt p == k.attempt && k.state == 2 && decide (q < k.downNext)
    let past := spargeStep p + 1 == k.step && k.state == 0
    if k.mode = 1 && (k.kid? p.src).isSome && !bs.isEmpty && (now || past) then
      s.emitParcel (spargeParcel p.src c (spargePayload 1 1 (spargeAttempt p) 0 (spargeStep p) 0 0 bs))
    else s.countAged c p)

/-- A credit for a channel's up blocks or backups. -/
def Channel64.creditUp (k : Channel64) (q : Nat) : Channel64 := { k with upCredit := (q : Int) + 2048 }

/-- CREDIT_PARCEL_RECEIVE. A report from the parent is for up blocks, one from a child for down blocks, and one from a
backup channel's target for backup blocks. -/
def execCreditParcelReceive (rq : Nat) (s : State) : Host.Outcome State Fault Refusal :=
  .next (s.onSparge rq 3 fun p s =>
    let c := spargeChan p
    let k := s.chan c
    let q := bits (prefixWord p 2) 23 0
    let now (k : Channel64) : Bool := spargeStep p == k.step && spargeAttempt p == k.attempt
    let s : State := { s with channels := (s.channels.zipIdx).map fun x =>
      if x.1.mode = 2 && x.1.parent == p.src && x.1.target == c && now (s.chan (s.stepChan x.2)) then x.1.creditUp q else x.1 }
    if k.mode != 1 || !now k then s.countAged c p
    else if !k.isRoot && k.parent == p.src && k.state ≤ 1 then s.modChan c fun k => k.creditUp q
    else match k.kid? p.src with
      | some j => (s.modChan c fun k => { k with downCredit := modAt k.downCredit j fun _ => (q : Int) + 2048 }).pump c
      | none => s)

/-- BACKUP_BLOCK_ARRIVAL. -/
def execBackupBlockArrival (rq : Nat) (s : State) : Host.Outcome State Fault Refusal :=
  .next (s.onSparge rq 2 fun p s =>
    let c := spargeChan p
    let k := s.chan c
    if k.mode = 1 && k.backupBy == p.src then
      s.modChan c fun k => (spargeBlocks p).foldl (fun k b =>
        k.stage 1 (spargeStep p) (spargeAttempt p) ⟨(blockHead b).seq, b⟩) k
    else s)

/-- BACKUP_DEADLINE: without a local block the copy is used; the first of a step is logged. -/
def execBackupDeadline (channel seq : Nat) (s : State) : Host.Outcome State Fault Refusal :=
  .next (
    let k := s.chan channel
    if k.mode = 1 && k.state = 1 && hasSeq k.backup seq && !k.backupDue.contains seq then
      let s := if k.backupUsed then s else s.log cBackup (w32 channel) (w32 seq)
      s.modChan channel fun k => { k with
        backupDue := k.backupDue ++ [seq], backupUsed := true, backups := sat32 (k.backups + 1) }
    else s)

/-- STEP_TIMER_EXPIRY. -/
def execStepTimerExpiry (channel : Nat) (s : State) : Host.Outcome State Fault Refusal :=
  .next (
    let k := s.chan channel
    if k.mode != 1 || !k.timer then s
    else if k.state = 1 then s.abortStep channel cPartner 2 (s.missingHop channel k.blocksDone)
    else
      let hop := match if k.isRoot then (k.kids.zip k.downCredit).find? fun x => decide (x.2 < (k.downNext : Int)) else none with
        | some x => hopOf 1 x.1
        | none => hopOf 4 k.parent
      s.fallBehind channel cPartner 2 hop)

/-- ABORT_RECEIVE: an abort of the current attempt is passed on and ends it; one of an older attempt is counted. -/
def execAbortReceive (rq : Nat) (s : State) : Host.Outcome State Fault Refusal :=
  .next (s.onSparge rq 4 fun p s =>
    let c := spargeChan p
    let k := s.chan c
    let near := (!k.isRoot && k.parent == p.src) || (k.kid? p.src).isSome
    let cause : Code := BitVec.ofNat 12 (bits (prefixWord p 0) 27 16)
    let hop : BitVec 23 := BitVec.ofNat 23 (bits (prefixWord p 3) 22 0)
    if k.mode != 1 || !near then s
    else if spargeStep p == k.step && spargeAttempt p == k.attempt && decide (k.state ≤ 1) then
      (s.sendAborts c cause hop (some p.src)).endAttempt c cause hop
    else s.modChan c Channel64.tardy)

end Sys2Proof.Machine
end

