-- ==== Sys2Proof/Machine/Tick.lean ====
section
/-! DEFINITION. What passes with no command waiting: one tick of the TSY time (R510) and the governor's refill (R290). -/

namespace Sys2Proof.Machine

/-- Does the TSY count run: it has begun, and the module has power for it (R507, R510)? -/
def State.timeRuns (s : State) : Bool :=
  s.time.counting && s.power.state != .standby && s.power.state != .off

/-- Does the governor refill: the Maltster is powered and an imprint names the rate (R290)? -/
def State.govRuns (s : State) : Bool :=
  s.timeRuns && s.power.state != .dormant && s.ident.imprint.isSome

/-- The governor's bucket after one tick: GOV_RATE in 0.05 GB/s is 16 hundredths of a byte per 3.2 ns tick, up to
GOV_BURST GB (R290). -/
def State.refilled (s : State) : Int :=
  min (s.cellar.level + 16 * (bits (s.sys 7) 7 0 : Nat)) ((bits (s.sys 8) 11 0 : Nat) * 100000000000)

/-- A core in a gap drives its row wires with the next values of its LFSR while simmer runs (R103). -/
def CoreSt.tick (x : CoreSt) : CoreSt :=
  if !x.busy && x.simmer != 0 then { x with lfsr := Config.simmerNext x.lfsr } else x

/-- The module with an empty queue of commands: one tick (log 5), with the index programs that the governor admits in it. -/
def State.idle (s : State) : State :=
  if s.timeRuns then
    let t : State :=
      { s with time := { s.time with tsy := s.time.tsy + 1 }
               cellar := { s.cellar with level := if s.govRuns then s.refilled else s.cellar.level }
               cores := s.cores.map CoreSt.tick }
    if s.govRuns then t.payIndex else t
  else s

end Sys2Proof.Machine
end

