-- ==== Sys2Proof/Machine/Commit.lean ====
section
/-! DEFINITION. Passes and simmer (R88, R102 to R106), the commit flip and the step close (R137 to R139, R198, R206, R217),
recovery (R144), the command-time limit (R145, R362), an append without a leaf (R170), the commit sweep (R370). -/

namespace Sys2Proof.Machine

/-! ### The step close (R198, R206, R217) -/

/-- Each page whose advance has reached POSITION takes it as its base (R206). -/
def State.moveAdvances (s : State) (i : Nat) : State :=
  let h := (s.stream i).stateLeaf
  let b := s.content h
  let adv := (b.handles 0x8040 0xC040).filter fun e => b.word (e.1 - 0x8000) == (s.stream i).position
  if h = Config.nullHandle || adv.isEmpty then s else
    let old := adv.map fun e => b.word (e.1 - 0x4000)
    let put (b : Bytes) (e : Nat × Handle) : Bytes :=
      ((b.putWord (e.1 - 0x4000) e.2).putWord e.1 Config.nullHandle).putWord (e.1 - 0x8000) 0xFFFFFFFF
    let s := ((s.ensureCask h).patchCask h fun b => adv.foldl put b).dirtyLeaf h
    old.foldl (fun s x => s.dropTo i x) s

/-- The window of a slot's keyframe refresh; 0 when it is off. -/
def State.refreshN (s : State) (slot : Nat) : Nat :=
  let k := (s.slot slot).refreshLog
  if k = 0 then 0 else 1 <<< k

/-- The window of a stream's queued refresh. -/
def Stream.window (e : Stream) : Nat := 1 <<< e.refreshLog

/-- A close that leaves POSITION far enough ahead of KEY_POS queues a refresh, with the window and the refresh slot that are set
then (R217); a slot without an output area takes none (R220). -/
def State.armRefresh (s : State) (i : Nat) : State :=
  let e := s.stream i
  let n := s.refreshN e.slot
  if n != 0 && !e.refresh && decide (e.keyPos + 2 * n ≤ e.position) && s.outLeavesOf i != 0 then
    s.modStream i fun e => { e with
      refresh := true, refreshDone := 0, refreshLog := (s.slot e.slot).refreshLog, refreshTo := (s.slot e.slot).refreshSlot }
  else s

/-- The runs of a command's wave changed. -/
def State.modRuns (s : State) (c : Cmd) (f : WaveRun → WaveRun) : State :=
  let g (w : Wave) : Wave := { w with runs := w.runs.map f }
  match c.origin with
  | .wave true => s.modPart c.part fun p => { p with prio := p.prio.map g }
  | .wave false => s.modPart c.part fun p => { p with bulk := p.bulk.map g }
  | _ => s

/-- The close of a token step or a chunk. A RESET that a trim in this very step has set stays for the next step (R195); the
trim has raised EPOCH since the item was queued. -/
def State.closeStepOf (s : State) (u : WaveRun) : State :=
  let i := u.stream
  let n := u.run.rowCount
  let t : W32 := s.now.setWidth 32
  let s := s.modStream i fun e => { e with
    position := e.position + n, reset := e.reset && u.epoch != e.epoch, exh := 0, lastClose := t
    stepsLeft := if u.kind == ItemKind.step then e.stepsLeft - n else e.stepsLeft }
  let s := match u.req with
    | some q => s.modReq (reqKey q.1 q.2) fun r => { r with
        queued := t, inputDone := if u.kind == ItemKind.chunk then r.inputDone + n else r.inputDone }
    | none => s
  (((s.moveAdvances i).armRefresh i).takeMirror i).retier i

/-- The close of a part of a keyframe refresh; its last part makes the advances the bases. -/
def State.closeRefresh (s : State) (u : WaveRun) : State :=
  let i := u.stream
  let n := (s.stream i).window
  let s := s.modStream i fun e => { e with refreshDone := e.refreshDone + u.run.rowCount, lastClose := s.now.setWidth 32 }
  if (s.stream i).refreshDone < n then s
  else
    ((s.moveAdvances i).modStream i fun e => { e with
      keyPos := e.position - n, refresh := false, refreshDone := 0, reset := e.reset && u.epoch != e.epoch, exh := 0 }).retier i

/-- The close of a run. -/
def State.closeRun (s : State) (c : Cmd) (u : WaveRun) : State :=
  let s := match u.kind with
    | .step | .chunk => s.closeStepOf u
    | .refresh => s.closeRefresh u
    | .train => s
  s.modRuns c fun v => if v.stream == u.stream then { v with closed := 1 } else v

/-- The runs that a command closes, those void by now left out. -/
def State.closing (s : State) (c : Cmd) : List WaveRun :=
  (c.closes.filterMap fun i => c.runs.find? fun u => u.stream == i).filter fun u => !(s.runNow c u).void

/-! ### The commit flip -/

/-- A run whose row met a lost expert: void, its request ended with WEIGHT_LOST (R355). -/
def State.loseRun (s : State) (c : Cmd) (i : Nat) : State :=
  match c.runs.find? fun u => u.stream == i with
  | some u => s.endRun c cWeightLost true u
  | none => s

/-- One effect at the flip. -/
def State.flipEff (s : State) (c : Cmd) (e : Eff) : State :=
  match e with
  | .lost i => s.loseRun c i
  | .block ch attempt seq _ data => s.commitBlock ch attempt seq data
  | e => s.applyEff e

/-- The open requests of a kind that name a stream and have been acted on. -/
def State.waitingReqs (s : State) (i kind : Nat) : List Nat :=
  (s.reqs.filter fun e => e.2.open_ && e.2.stream == i && e.2.kind == kind && e.2.admitted).map (·.1)

/-- A fork's request after its row has committed: the child serves it; without a child it ends with STALE_EPOCH (R327). -/
def State.afterFork (s : State) (i : Nat) : State :=
  (s.waitingReqs i 2).foldl (fun s k =>
    if (s.stream i).live then State.settle settleFuel i (s.serve i k) else (s.unreserve i).endReq k cStale []) s

/-- What a committed recovery run brings (R144): the leaves of the block-scaled operands that have a clean cellar
frame lose the copies above it, pinned or not, and the plan is no longer suspect. -/
def State.recovered (s : State) (c : Cmd) : State :=
  let drop (s : State) (h : Handle) : State :=
    let e := s.leaf h
    if !e.inCellar || e.dirty then s
    else
      let s := s.dropSs h
      if e.inCask then (s.dropFrame e.caskFrame).modLeaf h fun e => { e with inCask := false, caskFrame := 0 } else s
  let s := (c.scaled.eraseDups.foldl drop s).modPlan c.slot fun p => { p with suspect := false }
  s.attention 1 cDone c.subject 0

/-- What follows a commit, by why the command was placed. -/
def State.afterCommit (s : State) (c : Cmd) (arr : Nat) : State :=
  match c.origin with
  | .wave _ => s
  | .plainRerun _ _ => s.endRerun c cDone arr false
  | .recovery => s.recovered c
  | .service =>
    let rows := c.shape.rows.take (dimOf c.shape (bits (wd c.words 1) 15 0))
    if c.opc = 0x0D then rows.foldl (fun s i => s.afterFork i) s
    else rows.foldl (fun s i => (s.waitingReqs i 4).foldl (fun s k => s.endReq k cDone []) s) s

/-- The commit flip of a command: its effects made current, its record written, its runs closed. -/
def State.commit (s : State) (c : Cmd) (arr : Nat) : State :=
  let s := s.unpinAll c.pins
  let s := c.effs.foldl (fun s e => s.flipEff c e) s
  let s := c.consumed.foldl (fun s rq => s.dropRx rq) s
  let s := if c.effs.any fun e => match e with
      | .lost _ => true
      | _ => false then s.attention 2 cWeightLost c.subject 0 else s
  let s := (s.logEnd c cDone arr false).dropCmd c.id
  let s := (s.closing c).foldl (fun s u => s.closeRun c u) s
  (s.afterCommit c arr).dropVoid

/-- Has a command taken a parcel that came over Dareno (R24)? -/
def State.consumedRemote (s : State) (c : Cmd) : Bool :=
  c.consumed.any fun rq => ((s.rx? rq).map fun x => x.port.isSome).getD false

/-- The leaves that a command writes and that have no cask copy at this moment: the rewrite of an uncorrectable sector, or a
recovery run of another command, has taken it (R144, R262). -/
def State.unwritable (s : State) (c : Cmd) : List Handle :=
  (realHandles (c.effs.flatMap s.effLeaves)).filter fun h => !(s.leaf h).inCask

/-! ### Passes and simmer -/

/-- SIMMER_RAMP_DOWN: one of the eight steps of a core in a gap (R105); the row wires go on to be driven (R103). -/
def execSimmerRampDown (core : Nat) (s : State) : Host.Outcome State Fault Refusal :=
  .next (if !s.simmers core then s else s.modCore core fun x =>
    if x.busy || x.simmer = 0 then x else { x with simmer := x.simmer - 1, lfsr := Config.simmerNext x.lfsr })

/-- RAMP_UP_STEP: the fraction of a core that runs passes one eighth higher (R106). -/
def execRampUpStep (core : Nat) (s : State) : Host.Outcome State Fault Refusal :=
  .next (s.modCore core fun x => if x.busy then { x with ramp := min 8 (x.ramp + 1) } else x)

/-- The passes that start in a step of a command: on every core whose slice has one left, simmer stops and the pass's block
comes into the stationary registers (R88, R92, R106). -/
def State.startPasses (s : State) (c : Cmd) : State :=
  (c.order.filter fun e => !e.2.isEmpty).foldl (fun s e => (s.passOn e.1).modCore e.1 fun x => x.begin e.2) s

/-- Those passes ended: where the slice has no further pass its sums stand in the accumulator file (R81, R83); there, and
before a row function, a gap begins (R102). -/
def State.endPasses (s : State) (c : Cmd) : State :=
  (c.order.filter fun e => !e.2.isEmpty).foldl (fun s e =>
    let last := e.2.length = 1
    let s := if last then s.modCore e.1 fun x =>
        { x with acc := ((c.sums.find? fun a => a.1 == e.1).map (·.2)).getD [] |>.foldl (fun l r => alSet [] r.1 r.2 l) x.acc }
      else s
    if last || ((e.2.head?.map (·.rest)).getD false) then s.passOff e.1 else s) s

/-- A command placed for a recovery run of one that skewed twice (R66, R144): in plain mode, on the same shape; it is a
rerun. -/
def State.placeRecovery (s : State) (c : Cmd) : State :=
  let n := s.nextCmd
  let r : Cmd := { c.fresh with
    id := n, origin := .recovery, plain := true, runs := [], closes := [], rerun := true, skews := 0, timeouts := 0 }
  { s with cmds := s.cmds ++ [r], nextCmd := n + 1 }

/-- Every run of a command's wave abandoned. -/
def State.abandonWave (s : State) (c : Cmd) : State :=
  (((s.waveOf c).map (·.runs)).getD []).foldl (fun s u =>
    if u.kind == .train then s.failTrain c cSkew else s.abandon u.stream) s

/-- SCALE_SKEW (R144): the first is followed by a rerun in its place; a second marks the plan suspect and orders the recovery
run. The recovery run itself ends with it. -/
def State.skew (s : State) (c : Cmd) : State :=
  let t := s.killed
  let arr := t.1
  let s := t.2
  if c.origin == .recovery then s.abort c cSkew arr false false
  else if c.skews = 0 then s.requeue c cSkew arr false { c.fresh with skews := 1, rerun := true }
  else
    let s := ((s.abandonWave c).abort c cSkew arr false false).modPlan c.slot fun p => { p with suspect := true }
    (s.attention 6 cSkew c.subject 0).placeRecovery c

/-- What a command meets at a pass boundary when a sector error has poisoned a leaf that it reads, or a leaf that it must
write is being rewritten: it waits for the copy of a weight leaf or for the rewrite, in a gap, and ends with LEAF_POISONED
on another (R102, R176, R262, R299). -/
def State.meetPoison (s : State) (c : Cmd) : Option State :=
  let bad := s.unreadable c.pins
  let lost := bad.filter fun h => (s.weightPlace h).isSome
  let late := (s.unwritable c).filter fun h => !bad.contains h
  if bad.isEmpty && late.isEmpty then none
  else if lost.length != bad.length then some (s.poisonEnd c (bad.filter fun h => (s.weightPlace h).isNone))
  else
    let s := c.cores.foldl (fun s k => s.passOff k) (lost.foldl (fun s h => s.startFetch h) (s.promoteAll late))
    some (s.setCmd { c with waits := lost ++ late })

/-- PASS_START: one pass of each slice of an issued command runs. errs are the errors its reads meet; where no pass runs they
stay until a read of another row meets them (log 134). -/
def execPassStart (id : Nat) (errs : List SectorError) (s : State) : Host.Outcome State Fault Refusal :=
  .next (match s.cmd? id with
    | none => s.modRack fun r => { r with flawed := r.flawed ++ errs }
    | some c =>
      if c.phase != .issued || !c.waits.isEmpty || c.passes = 0 then s
      else
        let s := errs.foldl (fun s x => s.sectorError x) s
        match s.cmd? id with
        | none => s
        | some c => if badLine errs then s.killRerun c cRerun else s.under c fun s =>
          match s.meetPoison c with
          | some s => s
          | none =>
            let s := s.startPasses c
            if c.skewed then s.skew c
            else (s.endPasses c).setCmd { c with
              passes := c.passes - 1, order := c.order.map fun e => (e.1, e.2.tail) })

/-- A command at the end of its slices, after the errors that its reads have met: what they have made unreadable ends it or keeps
it waiting; a received parcel holds it for the sweep (R24); else it commits in its turn (R140). -/
def State.tryCommit (s : State) (id arrTime : Nat) : State :=
  match s.cmd? id with
  | none => s
  | some c => s.under c fun s =>
    match s.meetPoison c with
    | some s => s
    | none =>
      if s.consumedRemote c then s.setCmd { c with phase := .held, arr := arrTime }
      else if !s.inTurn c then s
      else s.commit c arrTime

/-- COMMIT_FLIP: the slices have ended, and every earlier command of the same cores has flipped (R140); a command that took a
received parcel is held for the sweep (R24), and one that must write a leaf without a cask copy waits for it. What the slices' reads
have met since their last pass is handled first (R250). -/
def execCommitFlip (id arrTime : Nat) (s : State) : Host.Outcome State Fault Refusal :=
  .next (match s.cmd? id with
    | none => s
    | some c =>
      if c.phase != .issued || !c.waits.isEmpty || c.passes != 0 then s
      else
        let errs := s.rack.flawed
        let s := s.meetErrors
        match if badLine errs then s.cmd? id else none with
        | some c => s.killRerun c cRerun
        | none => s.tryCommit id arrTime)

/-! ### Limits of an issued command -/

/-- The modules to which a row's token went and whose contribution to an expert sum is missing (R475). -/
def State.missingHomes (s : State) (c : Cmd) : List (BitVec 20) :=
  let r := resolve s c.slot c.words c.shape c.plain
  let rows := (rowSplit r).flatMap fun x =>
    ((tileRows r x.2.1).filter fun m => (r.shape.runOf m).isSome).map fun m => (x.2.2, x.1, m)
  (rows.flatMap fun x =>
    let got := (s.accepted r x.1 x.2.1 x.2.2).map fun y => y.parcel.ident.toNat
    let gone := (s.sentTo r x.1 x.2.1 x.2.2).filter fun e => !got.contains e
    gone.filterMap fun e => (s.fabric.resend.reverse.find? fun p =>
      p.ptype == 1 && p.ident.toNat == e && p.stream.toNat == r.shape.streamOf x.2.2 &&
      p.token == w32 (r.shape.posOf x.2.2)).map (·.dest)).eraseDups

/-- ARR cycles of the command-time limit. -/
def timeLimit : Nat := 700000

/-- COMMAND_TIME_LIMIT: a slice that waits is killed and issued again after the others; a RECV that waits for parcels a second
time ends with PARTNER_LOST; in every other state the command ends with RESOURCE_OVERFLOW (R145, R362). -/
def execCommandTimeLimit (id : Nat) (waiting : Bool) (s : State) : Host.Outcome State Fault Refusal :=
  .next (match s.cmd? id with
    | none => s
    | some c =>
      if c.phase != .issued then s
      else
        if !(waiting || !c.waits.isEmpty) then s.abort c cOverflow timeLimit false false
        else if c.opc = 0x0C && c.waits.isEmpty && c.timeouts != 0 then
          s.under c fun s =>
            let far := if recvAdd c.words then s.missingHomes c else []
            far.foldl (fun s a => s.listUnreachable a) (s.abort c cPartner timeLimit false false)
        else s.requeue c cRerun timeLimit true { c.fresh with rerun := true, timeouts := if c.waits.isEmpty then c.timeouts + 1 else c.timeouts })

/-- A fork that has found no leaf: counted for the child; at the eighth its request ends with STREAM_PAUSED (R170, R175). -/
def State.forkStarved (s : State) (i : Nat) : State :=
  let s := s.modStream i fun e => { e with exh := min 8 (e.exh + 1) }
  if (s.stream i).exh = 8 then
    ((s.waitingReqs i 2).foldl (fun s k => s.endReq k cPaused []) (s.unreserve i)).attention 3 cPaused (w32 i) 0
  else s

/-- LEAF_EXHAUSTED: no leaf within 200 µs. -/
def execLeafExhausted (id : Nat) (s : State) : Host.Outcome State Fault Refusal :=
  .next (match s.cmd? id with
    | none => s
    | some c =>
      if c.phase != .issued || !c.starved then s
      else
        let t := s.killed
        let s := t.2.abort c cExhausted t.1 false false
        if c.origin == .service && c.opc = 0x0D then c.shape.rows.foldl (fun s i => s.forkStarved i) s else s)

/-! ### The commit sweep (R370) -/

/-- The commands that took a parcel that has failed, killed with CHECK_FAILED and placed again; the parcel discarded. -/
def State.failParcel (s : State) (rq : Nat) : State :=
  let hit := s.cmds.filter fun c => c.phase != .placed && c.consumed.contains rq
  let s := hit.foldl (fun s c => s.killRerun c cCheck) s
  s.dropRx rq

/-- One ring entry consumed. -/
def State.sweepEntry (s : State) (e : List W32) : State :=
  let v := bits (wd e 0) 2 0
  if v = 1 || v = 2 then s.failParcel (bits (wd e 2) 15 0)
  else if v = 3 then
    let first := bits (wd e 0) 23 16
    let n := (bits (wd e 0) 15 8 + 256 - first) % 256
    s.emitParcel { mkParcel (BitVec.ofNat 20 (bits (wd e 1) 19 0)) 5
      (BitVec.ofNat 8 first :: BitVec.ofNat 8 n :: List.replicate 14 0) with stream := 0 }
  else s

/-- One port swept. -/
def State.sweepPort (s : State) (p : Nat) : State :=
  let u := (s.fport p).cvu
  let bad := if u.overflow then
      (s.fabric.rx.filter fun x => x.port == some p && decide (u.prevMark < x.vis)).map (·.rq) else []
  let s := bad.foldl (fun s rq => s.failParcel rq) s
  let n := (u.head + 128 - u.tail) % 128
  let s := (List.range n).foldl (fun s i => s.sweepEntry (u.ring.getD ((u.tail + i) % 64) [])) s
  s.modFPort p fun k => { k with cvu := { k.cvu with tail := u.head, overflow := false, prevMark := u.mark } }

/-- COMMIT_SWEEP: verdicts of every port, then the held commands released in the order of their queues (R140), then sparge parcels
taken in (R385), and remaps that waited for a held command made (R473). -/
def execCommitSweep (s : State) : Host.Outcome State Fault Refusal :=
  .next (if !s.timeRuns || s.power.state == .dormant then s else
    let s := (List.range 16).foldl (fun s p => s.sweepPort p) s
    let s := (s.cmds.filter fun c => c.phase == .held).foldl (fun s c =>
      match s.cmd? c.id with
      | some c => s.under c fun s => if s.inTurn c && (s.unwritable c).isEmpty then s.commit c c.arr else s
      | none => s) s
    let fresh := s.fabric.rx.filter fun x => x.takenBy.isNone
    let s := s.modFabric fun f => { f with rx := f.rx.map fun x => { x with swept := true } }
    (List.range 4).foldl (fun s sec => s.settleCores sec) (fresh.foldl (fun s x => s.spargeIntake x) s))

end Sys2Proof.Machine
end

