-- ==== Sys2Proof/Machine/Grist.lean ====
section
/-! DEFINITION. The grist scheduler: items and waves (R316 to R326, R358), training commands and waves (R373 to R377),
grist cycles, ticks, pre-emption and resume (R318 to R320, R328 to R331), replies (R367), fork and end cycles (R327), plain
reruns (R424). -/

namespace Sys2Proof.Machine

/-! ### Items (R316, R322) -/

/-- What a stream waits for: its kind, the request it serves, QUEUED, REQ_DIM0 to REQ_DIM3, and the input rows left. -/
structure Item where
  stream : Nat
  slot : Nat
  kind : ItemKind
  req : Option (Nat × Nat)
  queued : Nat
  dims : List W32
  left : Nat
  deriving DecidableEq, Repr

/-- The current item of a stream: its queued refresh while REFRESH is set, whatever the setting is by now (R217), else the next chunk of its request's input, else a
token step. -/
def State.itemOf (s : State) (i : Nat) : Option Item :=
  let e := s.stream i
  let n := e.window
  if e.refresh then
    some { stream := i, slot := e.refreshTo, kind := .refresh, req := none, queued := e.lastClose.toNat,
           dims := [0, 0, 0, 0], left := n - e.refreshDone }
  else match s.serving i with
    | none => none
    | some k =>
      let r := s.req k
      let it (kind : ItemKind) (left : Nat) : Item :=
        { stream := i, slot := e.slot, kind := kind, req := some (k / 4096, k % 4096), queued := r.queued.toNat,
          dims := r.dims.take 4, left := left }
      if r.inputDone < r.inputCount then some (it .chunk (r.inputCount - r.inputDone))
      else if e.stepsLeft != 0 then some (it .step 1)
      else none

/-- The open forks that wait with a parent. -/
def State.forkWaits (s : State) (i : Nat) : Bool :=
  s.reqs.any fun e => e.2.open_ && e.2.kind == 2 && e.2.admitted && e.2.parent == i && (s.stream e.2.stream).reserved

/-- May a slot's waves start: a plan that fits its sections and is not suspect, in the partition? -/
def State.slotOpen (s : State) (part slot : Nat) : Bool :=
  s.slotPart slot == some part && (((s.slot slot).plan.map fun p => !p.suspect && p.unfit == 0).getD false)

/-- Eligibility but for residency (R322). A fork waits for a refresh whose first parts have closed (R196). -/
def State.eligible (s : State) (part : Nat) (cls : Bool) (i : Nat) : Bool :=
  let e := s.stream i
  e.live && !e.pause && !e.ending && e.partition == part && e.prio == cls && !s.inWave i && !s.inTraining i &&
  !(s.forkWaits i && e.refreshDone == 0)

/-- Q_POS0 of an item. -/
def State.itemPos (s : State) (x : Item) : Nat :=
  let e := s.stream x.stream
  if x.kind == .refresh then e.position - e.window + e.refreshDone else e.position

/-- The pages that a SCAN of an item's sequence reads, at the item's first position, where the item's dimensions are the
stream's own (DEDUCED, log 152). -/
def State.itemPages (s : State) (x : Item) : List Handle :=
  let e := s.stream x.stream
  match (s.slot x.slot).plan with
  | none => []
  | some p =>
    let q := s.itemPos x
    let fresh := e.reset || (x.kind == .refresh && e.refreshDone == 0)
    let sh : Shape := { dims := List.replicate 16 0 ++ x.dims.take 4 ++ List.replicate 44 0, rows := [x.stream], runs := [] }
    let legs := seqLegs p.header p.descs (wd p.header (if x.kind == .step then 8 else 9)).toNat
    let scans := (legs.flatMap fun g => (List.range (g.2 + 1 - g.1)).map fun k => p.descs.getD (g.1 + k) []).filter fun d =>
      bits (wd d 0) 7 0 == 4
    ((scans.flatMap fun d => scanPages (resolve s x.slot d sh false)).eraseDups).filterMap fun k =>
      match s.pageSource x.stream k q fresh with
      | .page h => if h = Config.nullHandle then none else some h
      | _ => none

/-- The leaves R221 looks at that lie in the cellar alone: the state leaf, and the pages that the stream's SCANs will read. -/
def State.coldLeaves (s : State) (i : Nat) : List Handle :=
  let pages := match s.itemOf i with
    | some x => s.itemPages x
    | none => []
  ((s.stream i).stateLeaf :: pages).filter fun h => h != Config.nullHandle && !(s.leaf h).inCask && (s.leaf h).inCellar

/-- The residency check (R221): a stream with cold leaves loses RESIDENT and its leaves are promoted; leaves of a stream whose
leaves are tier-pinned are promoted in any case (R284). -/
def State.residency (s : State) (i : Nat) : State :=
  let cold := s.coldLeaves i
  let pinned := if (s.stream i).tiered then s.tierLeaves i else []
  let s := s.modStream i fun e => { e with resident := cold.isEmpty }
  s.promoteAll (cold ++ pinned)

/-- The eligible items of a class in a partition after the residency check. -/
def State.itemsOf (s : State) (part : Nat) (cls : Bool) : List Item × State :=
  let ids := (s.streams.map (·.1)).filter fun i =>
    s.eligible part cls i && (match s.itemOf i with
      | some x => s.slotOpen part x.slot
      | none => false)
  let s := ids.foldl (fun s i => s.residency i) s
  ((ids.filter fun i => (s.stream i).resident).filterMap s.itemOf, s)

/-- An item put in its place by QUEUED, then STREAM_ID. -/
def insertItem (x : Item) : List Item → List Item
  | [] => [x]
  | y :: t => if x.queued < y.queued ∨ (x.queued = y.queued ∧ x.stream ≤ y.stream) then x :: y :: t else y :: insertItem x t

/-- Items by QUEUED ascending, then STREAM_ID. -/
def sortItems (l : List Item) : List Item := l.foldr insertItem []

/-! ### Assembly (R323, R324) -/

/-- Runs a wave may hold. -/
def Plan.runMax (p : Plan) : Nat := min 4096 (p.dimMax 1)

/-- The token steps of a wave. -/
def fillSteps (p : Plan) : List Item → List (Item × Nat) → List (Item × Nat)
  | [], acc => acc
  | x :: t, acc =>
    if acc.length < p.dimMax 0 ∧ acc.length < p.runMax ∧ acc.length < p.dimMax 2 then fillSteps p t (acc ++ [(x, 1)]) else acc

/-- The chunks of a wave, after rows rows and chunk chunk rows. -/
def fillChunks (p : Plan) (target : Nat) : List Item → Nat → Nat → List (Item × Nat) → List (Item × Nat)
  | [], _, _, acc => acc
  | x :: t, rows, chunk, acc =>
    let n := min 2048 (min x.left (min (target - chunk) (min (p.dimMax 0 - rows) (p.dimMax 3 - chunk))))
    if n = 0 ∨ p.runMax ≤ acc.length then acc
    else fillChunks p target t (rows + n) (chunk + n) (acc ++ [(x, n)])

/-- The GROUP of a stream: siblings share their parent's. -/
def groupOf (i : Nat) (e : Stream) : Nat := 1 + (if e.forked then e.parent else i) % 4095

/-- The runs of a wave from its items and rows, the first at row first. -/
def State.runsOf (s : State) : List (Item × Nat) → Nat → List WaveRun
  | [], _ => []
  | (x, n) :: t, first =>
    let e := s.stream x.stream
    let q := s.itemPos x
    { stream := x.stream, req := x.req, epoch := e.epoch, kind := x.kind,
      run := { rowFirst := first, rowCount := n, kvLen := q + n, qPos0 := q, maskSel := 0, full := false,
               group := groupOf x.stream e },
      void := false, begun := false, closed := 0 } :: s.runsOf t (first + n)

/-- The DIM entries of R324. -/
def waveDims (runs : List WaveRun) (steps chunks : Nat) (dims : List W32) : List W32 :=
  let kv := runs.foldl (fun m (u : WaveRun) => max m u.run.kvLen) 0
  [w32 (steps + chunks), w32 runs.length, w32 steps, w32 chunks, w32 kv, 0] ++ List.replicate 10 0 ++
  (dims ++ List.replicate 4 0).take 4 ++ List.replicate 44 0

/-- The shape table of a list of runs. -/
def shapeFor (runs : List WaveRun) (dims : List W32) : Shape :=
  { dims := dims, rows := runs.flatMap fun u => List.replicate u.run.rowCount u.stream, runs := runs.map (·.run) }

/-- A wave over runs that starts at an entry point of its slot's plan. -/
def newWave (slot : Nat) (prio : Bool) (p : Plan) (entry : Nat) (runs : List WaveRun) (dims : List W32) : Wave :=
  { slot := slot, prio := prio, legs := seqLegs p.header p.descs entry, leg := 0, runs := runs,
    shape := shapeFor runs dims, train := none, code := cDone }

/-- The wave of a slot from its items (R323), none where no run fits. A refresh runs the chunk sequence, so it shares a wave
only with refreshes. -/
def State.assemble (s : State) (slot : Nat) (prio : Bool) (items : List Item) : Option Wave :=
  let cand := sortItems (items.filter fun x => x.slot == slot)
  match (s.slot slot).plan, cand with
  | some p, first :: _ =>
    let cand := cand.filter fun x => x.dims == first.dims && (x.kind == .refresh) == (first.kind == .refresh)
    let steps := fillSteps p (cand.filter fun x => x.kind == .step) []
    let n := steps.length
    let target := if n = 0 then p.dimMax 3 else n * bits (wd p.header 7) 23 8 / 256
    let all := fillChunks p target (cand.filter fun x => x.kind != .step) n 0 steps
    let runs := s.runsOf all 0
    let rows := (all.map (·.2)).foldl (· + ·) 0
    if all.isEmpty then none
    else some (newWave slot prio p (wd p.header (if n = 0 then 9 else 8)).toNat runs
      (waveDims runs n (rows - n) first.dims))
  | _, _ => none

/-- Slots by their oldest item, the lowest slot first on a tie (R328, R331). -/
def slotsByAge (items : List Item) : List Nat :=
  let key (x : Item) : Item := { x with stream := x.slot }
  ((sortItems (items.map key)).map (·.slot)).eraseDups

/-- A wave of a class from the eligible items of a partition. -/
def State.assembleClass (s : State) (part : Nat) (cls : Bool) : Option Wave × State :=
  let t := s.itemsOf part cls
  ((slotsByAge t.1).findSome? fun j => t.2.assemble j cls t.1, t.2)

/-! ### Expert-only and training waves (R358, R374) -/

/-- The slots of a partition for which parcels of TYPE 1 are queued, by the experts' directory entries. -/
def State.expertSlots (s : State) (part : Nat) : List Nat :=
  ((s.fabric.rx.filter fun x => x.parcel.ptype == 1 && x.takenBy.isNone && !x.bad).map fun x =>
    bits (wd (s.dir x.parcel.ident.toNat) 1) 5 0).eraseDups.filter fun j => s.slotOpen part j

/-- An expert-only wave: the step sequence with every DIM entry 0 and no run. -/
def State.expertWave (s : State) (part : Nat) (items : List Item) : Option Wave :=
  match (s.expertSlots part).find? fun j => !(items.any fun x => x.slot == j) with
  | none => none
  | some j => (s.slot j).plan.map fun p => newWave j false p (wd p.header 8).toNat [] (List.replicate 64 0)

/-- Does a leg hold only SPARGE and FENCE? -/
def spargeLeg (p : Plan) (leg : Nat × Nat) : Bool :=
  (List.range (leg.2 + 1 - leg.1)).all fun i =>
    let o := bits (wd (p.descs.getD (leg.1 + i) []) 0) 7 0
    o == 0x0F || o == 0x10

/-- The runs of a training command in command order; a stream that is no longer live, is paused or ending, or has been reset to a
POSITION below the run, makes its run void. -/
def State.trainRuns (s : State) : List (Nat × Run) → Nat → List WaveRun
  | [], _ => []
  | (i, u) :: t, first =>
    let e := s.stream i
    { stream := i, req := none, epoch := e.epoch, kind := .train, run := { u with rowFirst := first },
      void := !e.live || e.pause || e.ending || decide (e.position < u.qPos0 + u.rowCount) || decide (e.position < u.kvLen), begun := false, closed := 0 } :: s.trainRuns t (first + u.rowCount)

/-- The training wave of a command: the sparge leg only with LAST (R376). -/
def State.trainWave (s : State) (t : Train) : Option Wave :=
  (s.slot t.slot).plan.map fun p =>
    let runs := s.trainRuns t.runs 0
    let rows := (runs.map fun (u : WaveRun) => u.run.rowCount).foldl (· + ·) 0
    let w := newWave t.slot false p (wd p.header 10).toNat runs (waveDims runs 0 rows t.dims)
    let cut := !t.last && ((w.legs.getLast?).map (spargeLeg p)).getD false
    { w with legs := if cut then w.legs.dropLast else w.legs, train := some t }

/-- The training commands of a partition that may start a wave now: not between a close of their slot and its publish
(R377), nor while a fork waits with one of their streams (R174). -/
def State.trainsReady (s : State) (part : Nat) : List Train :=
  (s.part part).trains.filter fun t => s.slotOpen part t.slot && !(s.malt.ready.any fun e => e.1 == t.slot) &&
    !t.runs.any fun u => s.forkWaits u.1

/-- The oldest of some training commands, the lowest slot first on a tie. -/
def oldestTrain (l : List Train) : Option Train :=
  l.foldl (fun (b : Option Train) t =>
    match b with
    | none => some t
    | some u => if t.queued.toNat < u.queued.toNat ∨ (t.queued = u.queued ∧ t.slot < u.slot) then some t else some u) none

/-- Training commands whose slot has lost its plan end with ROLE_DENIED. -/
def State.dropTrains (s : State) (part : Nat) : State :=
  let gone := (s.part part).trains.filter fun t => (s.slot t.slot).plan.isNone
  (gone.foldl (fun (s : State) t => s.endTrain t cRole) s).modPart part fun p =>
    { p with trains := p.trains.filter fun t => !gone.contains t }

/-- A new bulk wave (R331): of the oldest item or training command, else an expert-only wave. -/
def State.newBulk (s : State) (part : Nat) : Option Wave × State :=
  let s := s.dropTrains part
  let t := s.itemsOf part false
  let s := t.2
  let w := (slotsByAge t.1).findSome? fun j => s.assemble j false t.1
  let oldest := t.1.foldl (fun m x => min m x.queued) 0x100000000
  match oldestTrain (s.trainsReady part) with
  | some c =>
    if w.isNone || decide (c.queued.toNat < oldest) then
      (s.trainWave c, s.modPart part fun p => { p with trains := p.trains.filter fun x => x != c })
    else (w, s)
  | none =>
    match w with
    | some w => (some w, s)
    | none => (s.expertWave part t.1, s)

/-! ### Cycles (R318, R325) -/

/-- A shape table without the void runs of its wave: RUNS and DIM[1] lowered, every other entry as it was. -/
def Wave.liveShape (w : Wave) : Shape :=
  let runs := (w.runs.filter fun u => !u.void).map (·.run)
  { w.shape with runs := runs, dims := w.shape.dims.set 1 (w32 runs.length) }

/-- The descriptor of a wave's sequence whose flip closes a run: the last with a row in it, else the sequence's last
(R198). -/
def Wave.closer (p : Plan) (w : Wave) (u : WaveRun) : Nat :=
  let all := w.legs.flatMap fun g => (List.range (g.2 + 1 - g.1)).map (g.1 + ·)
  let has (i : Nat) : Bool :=
    let d := p.descs.getD i []
    let o := bits (wd d 0) 7 0
    o != 0x0F && o != 0x10 && decide (u.run.rowFirst < dimOf w.shape (bits (wd d 1) 15 0))
  match (all.filter has).getLast? with
  | some i => i
  | none => (all.getLast?).getD 0

/-- A command placed in the queues of its cores. -/
def State.placeCmd (s : State) (part slot desc : Nat) (words : List W32) (origin : Origin) (shape : Shape)
    (runs : List WaveRun) (closes : List Nat) (cores : List Nat) (rerun : Bool) (skews : Nat) (plain : Bool) : State :=
  let c : Cmd :=
    { id := s.nextCmd, part := part, slot := slot, desc := desc, words := words, origin := origin, shape := shape,
      runs := runs, closes := closes, phase := .placed, rerun := rerun, plain := plain, skews := skews, timeouts := 0,
      cores := cores, serial := 0, passes := 0, order := [], sums := [], spill := [], infSeen := false, nanSeen := false, outSat := false, empty := false,
      skewed := false, effs := [], pins := [], taken := [], consumed := [], waits := [], starved := false, scaled := [],
      attempt := 0, arr := 0 }
  { s with cmds := s.cmds ++ [c], nextCmd := s.nextCmd + 1 }

/-- The wave of a class in a partition. -/
def Partition.wave (p : Partition) (prio : Bool) : Option Wave := if prio then p.prio else p.bulk

/-- The wave of a class set. -/
def Partition.setWave (p : Partition) (prio : Bool) (w : Option Wave) : Partition :=
  if prio then { p with prio := w } else { p with bulk := w }

/-- One leg of a wave issued as a grist cycle: its shape table written, its commands placed in descriptor order; a resumed
bulk wave places what its leg still lacks (R329). -/
def State.runCycle (s : State) (part : Nat) (prio : Bool) : State :=
  match (s.part part).wave prio with
  | none => s
  | some w =>
    match (s.slot w.slot).plan with
    | none => s
    | some p =>
      let left := (s.part part).remaining
      let leg := match w.legs[w.leg]? with
        | some g => (List.range (g.2 + 1 - g.1)).map fun i => (g.1 + i, false, 0)
        | none => []
      let todo := if prio || left.isEmpty then leg else left
      let w := { w with shape := w.liveShape }
      let live := w.runs.filter fun u => !u.void
      let ends := if w.train.isSome then [] else live.map fun u => (w.closer p u, u.stream)
      let s := (s.modSlot w.slot fun k => { k with shape := w.shape }).modPart part fun q =>
        let q := q.setWave prio (some w)
        { q with
          cycle := some { prio := prio, start := s.now, ticks := 0, overran := false },
          suspended := if prio then q.suspended else false, remaining := if prio then q.remaining else [] }
      todo.foldl (fun s d =>
        let ws := p.descs.getD d.1 []
        s.placeCmd part w.slot d.1 ws (.wave prio) w.shape live ((ends.filter fun e => e.1 == d.1).map (·.2))
          (gridCores ws) d.2.1 d.2.2 false) s

/-! ### The end of a cycle and of a wave -/

/-- The output record of a stream: OUT_BYTES and that many bytes of its output area (R367). -/
def State.outRecord (s : State) (i : Nat) : List Byte :=
  if ((s.slot (s.stream i).slot).plan.map (·.outLeaves)).getD 0 = 0 then [] else
    s.outRead i 4 (min 1048576 (leNat (s.outRead i 0 4)))

/-- The reply of a closed run: the last reply of its request where nothing is left to serve, else a data reply. -/
def State.replyRun (s : State) (u : WaveRun) : State :=
  match u.req with
  | none => s
  | some q =>
    let k := reqKey q.1 q.2
    let r := s.req k
    if !r.open_ || r.stream != u.stream then s else
    let e := s.stream u.stream
    let data := s.outRecord u.stream
    if r.inputCount ≤ r.inputDone && e.stepsLeft == 0 then State.settle settleFuel u.stream (s.endReq k cDone data)
    else match (ctxOf r).bind fun c => s.ctx? c.1 c.2 with
      | some c => s.sendReply c u.stream e cDone false data
      | none => s

/-- The replies of the closes since the last cycle. -/
def State.replies (s : State) (part : Nat) (prio : Bool) : State :=
  match (s.part part).wave prio with
  | none => s
  | some w =>
    let done := w.runs.filter fun u => u.closed == 1
    let mark (u : WaveRun) : WaveRun := if u.closed = 1 then { u with closed := 2 } else u
    let s := s.modPart part fun p => p.setWave prio (some { w with runs := w.runs.map mark })
    done.foldl (fun s u => s.replyRun u) s

/-- Advances that commands issued before their run became void have left, discarded (R200). -/
def State.dropVoidAdvances (s : State) (w : Wave) : State :=
  (w.runs.filter fun u => u.void && u.kind != .train && !s.inWave u.stream).foldl (fun s u => s.dropAdvances u.stream) s

/-- The end of a training wave (R377). One with LAST that ends before its sparge leg ends its command with STALE_EPOCH. -/
def State.endTrainWave (s : State) (w : Wave) : State :=
  match w.train with
  | none => s
  | some t =>
    if w.code != cDone then s.endTrain t w.code
    else if !t.last then s.endTrain t cDone
    else if w.leg < w.legs.length then s.endTrain t cStale
    else if (s.membersOf t.slot).isEmpty then s.endTrain t cDone
    else s

/-- A wave ends: the last replies sent, a step not closed abandoned, its item queued again with QUEUED unchanged. -/
def State.endWave (s : State) (part : Nat) (prio : Bool) : State :=
  let s := s.replies part prio
  match (s.part part).wave prio with
  | none => s
  | some w =>
    let unclosed := w.runs.filter fun u => !u.void && u.closed == 0 && u.kind != .train
    let s := unclosed.foldl (fun s u => s.abandon u.stream) s
    let s := s.modPart part fun p =>
      let p := { p.setWave prio none with waves := sat32 (p.waves + 1) }
      if prio then { p with bulkFirst := p.suspended } else { p with suspended := false, remaining := [], bulkFirst := false }
    let s := s.freeOld part prio
    (s.dropVoidAdvances w).endTrainWave w

/-- Is a wave at its end: its plan gone or suspect, every run void, or no leg left and no command outstanding? -/
def State.waveOver (s : State) (part : Nat) (prio : Bool) (w : Wave) : Bool :=
  ((s.slot w.slot).plan.map (·.suspect)).getD true || (!w.runs.isEmpty && w.runs.all (·.void)) ||
  (decide (w.legs.length ≤ w.leg) && !(s.cmds.any fun c => c.part == part && c.origin == .wave prio))

/-- A running cycle is over for its partition: pauses and resumes act, the grist cycle's pins are forgotten (R285). -/
def State.closeCycle (s : State) (part : Nat) : State :=
  let s := (s.modPart part fun p => { p with cycle := none }).deferred part
  s.modRack fun r => { r with corePins := r.corePins.filter fun e => s.corePart e.2.2 != some part }

/-- GRIST_CYCLE_END: the commands of the running cycle have committed or been killed. -/
def execGristCycleEnd (part : Nat) (s : State) : Host.Outcome State Fault Refusal :=
  .next (match (s.part part).cycle with
    | none => s
    | some y =>
      if s.cmds.any fun c => c.part == part && c.origin == .wave y.prio then s
      else
        let s := (s.replies part y.prio).closeCycle part
        let s := s.modPart part fun p =>
          let p := p.setWave y.prio ((p.wave y.prio).map fun w => { w with leg := w.leg + 1 })
          if y.prio then p else { p with bulkFirst := false }
        match (s.part part).wave y.prio with
        | none => s
        | some w => if s.waveOver part y.prio w then s.endWave part y.prio else s.dropVoidAdvances w)

/-! ### Starting cycles -/

/-- A priority wave begins; a bulk wave under way is suspended (R328). -/
def State.startPrio (s : State) (part : Nat) (w : Wave) : State :=
  (s.modPart part fun p =>
    let p := { p with prio := some w }
    if p.bulk.isSome && !p.suspended then { p with suspended := true, suspensions := sat32 (p.suspensions + 1) } else p
    ).runCycle part true

/-- The next cycle of a partition. fuel bounds the waves found at their end on the way. -/
def State.startCycle : Nat → Nat → State → State
  | 0, _, s => s
  | n + 1, part, s =>
    match (s.part part).prio with
    | some w => if s.waveOver part true w then State.startCycle n part (s.endWave part true) else s.runCycle part true
    | none =>
      let t := if (s.part part).bulkFirst then (none, s) else s.assembleClass part true
      match t.1 with
      | some w => t.2.startPrio part w
      | none =>
        let s := t.2
        match (s.part part).bulk with
        | some w => if s.waveOver part false w then State.startCycle n part (s.endWave part false) else s.runCycle part false
        | none =>
          let t := s.newBulk part
          match t.1 with
          | none => t.2
          | some w => State.startCycle n part (t.2.modPart part fun p => { p with bulk := some w })

/-- Does the module start grist cycles: state Run, no entry into another state under way (R493)? -/
def State.gristRuns (s : State) (part : Nat) : Bool :=
  decide (part < s.partCount) && s.power.state == .run && s.power.entry.isNone

/-- GRIST_CYCLE_START. -/
def execGristCycleStart (part : Nat) (s : State) : Host.Outcome State Fault Refusal :=
  .next (if s.gristRuns part && (s.part part).cycle.isNone then State.startCycle 8 part s else s)

/-! ### Ticks and pre-emption (R319, R328) -/

/-- The bulk cycle cut off for a priority wave: issued commands that are not held killed, the rest withdrawn; what the leg
still lacks kept, the killed ones first. -/
def State.cutBulk (s : State) (part : Nat) : State :=
  let mine := s.cmds.filter fun c => c.part == part && c.origin == .wave false && c.phase != .held
  let killed := mine.filter fun c => c.phase == .issued
  let s := killed.foldl (fun s c =>
    let t := s.killed
    (t.2.logKill c cRerun t.1).dropCmd c.id) s
  let rest := mine.filter fun c => c.phase == .placed
  let s := rest.foldl (fun s c => s.dropCmd c.id) s
  let left := killed.map (fun c => (c.desc, true, c.skews)) ++ rest.map fun c => (c.desc, c.rerun, c.skews)
  s.modPart part fun p => { p with
    remaining := left, preemptKills := sat32 (p.preemptKills + killed.length),
    bulk := p.bulk.map fun w => if left.isEmpty then { w with leg := w.leg + 1 } else w }

/-- A bulk cycle pre-empted where a priority item waits. -/
def State.preempt (s : State) (part : Nat) : State :=
  let p := s.part part
  if p.prio.isSome || p.bulkFirst || s.power.entry.isSome then s else
    let t := s.assembleClass part true
    match t.1 with
    | none => t.2
    | some _ =>
      let s := (((t.2.cutBulk part).replies part false).closeCycle part)
      match s.assembleClass part true with
      | (some w, s) => s.startPrio part w
      | (none, s) => s.modPart part fun p => { p with suspended := true, suspensions := sat32 (p.suspensions + 1) }

/-- GRIST_TICK: at its first tick a running cycle has overrun; at any a bulk cycle may be pre-empted. -/
def execGristTick (part : Nat) (s : State) : Host.Outcome State Fault Refusal :=
  .next (match (s.part part).cycle with
    | none => s
    | some y =>
      let s := s.modPart part fun p => { p with
        cycle := some { y with ticks := y.ticks + 1, overran := true },
        overruns := if y.ticks = 0 then sat32 (p.overruns + 1) else p.overruns }
      if y.prio then s else s.preempt part)

/-! ### Service cycles (R327) -/

/-- The words of a service descriptor: FORK, or LEAF free, shaped by DIM[5]. -/
def serviceWords (opc lop : Nat) : List W32 :=
  [w32 opc, w32 (0x8005 + (1 <<< 16)), w32 (1 + (1 <<< 16)), w32 (1 + (1 <<< 6) + (1 <<< 18))] ++ List.replicate 9 0 ++
  [w32 lop, 0, 0]

/-- The shape table of a service cycle. -/
def serviceShape (rows : List Nat) : Shape :=
  { dims := (List.replicate 64 0).set 5 (w32 rows.length), rows := rows, runs := [] }

/-- A service cycle placed. -/
def State.placeService (s : State) (part opc lop : Nat) (rows : List Nat) : State :=
  if rows.isEmpty then s
  else s.placeCmd part 0 0xFFFFFF (serviceWords opc lop) .service (serviceShape rows) [] [] [] false 0 false

/-- The streams in a service cycle not yet at its end. -/
def State.inService (s : State) : List Nat :=
  (s.cmds.filter fun c => c.origin == .service).flatMap fun c => c.shape.rows

/-- Has a stream a step that is not closed, or a row in a command that has not committed or been killed (R174, R196)? Between
the parts of a keyframe refresh its step is open. -/
def State.stepOpen (s : State) (i : Nat) : Bool :=
  s.inWave i || s.hasCmd i || (s.stream i).refreshDone != 0 ||
  s.parts.any fun p => (p.cycle.bind fun y => p.wave y.prio).any fun w => w.runs.any fun u => u.stream == i && u.closed == 0

/-- The forks of a partition that may run: their parent has no step open. -/
def State.forksReady (s : State) (part : Nat) : List Item :=
  let ready (r : Req) : Bool :=
    r.open_ && r.kind == 2 && r.admitted && (s.stream r.stream).reserved && (s.stream r.stream).partition == part &&
    !s.stepOpen r.parent && !s.inService.contains r.stream
  sortItems ((s.reqs.filter fun e => ready e.2).map fun e =>
    { stream := e.2.stream, slot := 0, kind := .step, req := some (e.1 / 4096, e.1 % 4096), queued := e.2.queued.toNat,
      dims := [], left := 0 })

/-- Does a fork's parent still stand as it was checked? -/
def State.parentStands (s : State) (r : Req) : Bool :=
  let p := s.stream r.parent
  p.live && !p.ending && p.epoch == r.epoch

/-- FORK_CYCLE: forks whose parent has gone are taken out; the others are rows of one FORK, at most 256. -/
def execForkCycle (part : Nat) (s : State) : Host.Outcome State Fault Refusal :=
  .next (if !s.gristRuns part then s else
    let all := (s.forksReady part).take 256
    let req (x : Item) : Nat := (x.req.map fun q => reqKey q.1 q.2).getD 0
    let gone := all.filter fun x => !s.parentStands (s.req (req x))
    let good := all.filter fun x => s.parentStands (s.req (req x))
    let s := gone.foldl (fun s x => (s.unreserve x.stream).endReq (req x) cStale []) s
    s.placeService part 0x0D 0 (good.map (·.stream)))

/-- END_CYCLE: the ending streams of a partition without an outstanding command are rows of one LEAF free, at most 256. -/
def execEndCycle (part : Nat) (s : State) : Host.Outcome State Fault Refusal :=
  .next (if !s.gristRuns part then s else
    let ok (i : Nat) (e : Stream) : Bool :=
      e.live && e.ending && e.partition == part && !s.hasCmd i && !s.forking.contains i
    let rows := (s.streams.filter fun e => ok e.1 e.2).map (·.1)
    s.placeService part 0x0E 2 (rows.take 256))

/-! ### TRAIN (R373, R422) and PLAIN_RERUN (R424) -/

/-- A run entry of TRAIN: its stream and run. -/
def trainRun (ws : List W32) (j : Nat) : Nat × Run :=
  let w (i : Nat) : W32 := wd ws (4 * j + i)
  (bits (w 0) 15 0, { rowFirst := 0, rowCount := bits (w 2) 15 0, kvLen := (w 3).toNat, qPos0 := (w 1).toNat, maskSel := 0,
                      full := (w 0).getLsbD 16, group := 0 })

/-- Is a run entry in its ranges? -/
def trainRunOk (ws : List W32) (j : Nat) : Bool :=
  bits (wd ws (4 * j)) 31 17 == 0 && bits (wd ws (4 * j + 2)) 31 16 == 0 && within 1 2048 (bits (wd ws (4 * j + 2)) 15 0)

/-- The first refusal of R373 that a training command meets. -/
def State.trainCode (s : State) (slot : Nat) (dims : List W32) (ws : List W32) (n : Nat) : Code :=
  let runs := (List.range n).map (trainRun ws)
  let rows := (runs.map fun u => u.2.rowCount).foldl (· + ·) 0
  if runs.any fun u => !(s.stream u.1).live then cStale
  else match (s.slot slot).plan, s.slotPart slot with
    | some p, some part =>
      if runs.any fun u => (s.stream u.1).partition != part then cRole
      else if wd p.header 10 == 0xFFFFFF || !((List.range n).all (trainRunOk ws)) ||
          runs.any (fun u => decide ((s.stream u.1).position < u.2.qPos0 + u.2.rowCount) ||
            decide ((s.stream u.1).position < u.2.kvLen)) then cAlign
      else if decide (p.dimMax 0 < rows) || decide (p.dimMax 1 < n) ||
          (List.range 4).any (fun i => decide (p.dimMax (16 + i) < (wd dims i).toNat)) then cShape
      else if s.malt.sets.any fun e => bits (wd e.2.entry 0) 8 3 == slot && (wd e.2.entry 0).getLsbD 0 &&
          (e.2.behind || e.2.damaged) then cPartner
      else cDone
    | _, _ => cRole

/-- TRAIN: refused, or it waits for its wave. -/
def execTrain (q tag : Nat) (runs : List W32) (s : State) : Host.Outcome State Fault Refusal :=
  .next (s.onStarted q tag 0x13 (fun _ => true) fun t =>
    let slot := bits (t.arg 1) 5 0
    let n := bits (t.arg 1) 28 16
    let dims := (List.range 4).map fun i => t.arg (2 + i)
    let v := s.trainCode slot dims runs n
    if v != cDone then s.finish q tag v (s.trainStep slot) 0
    else
      let c : Train := { q := q, tag := tag, slot := slot, last := (t.arg 1).getLsbD 8, dims := dims,
                         queued := s.now.setWidth 32, runs := (List.range n).map (trainRun runs) }
      (s.modPart ((s.slotPart slot).getD 0) fun p => { p with trains := p.trains ++ [c] }).modStarted q tag
        fun t => { t with begun := true })

/-- Does a descriptor take its input from RECV or write a STREAM object? -/
def rerunBarred (d : List W32) : Bool :=
  let o := bits (wd d 0) 7 0
  o == 0x0C || o == 0x04 || o == 0x0D || o == 0x0E ||
  (bits (wd d 8) 17 16 == 3 && o != 0x0B && o != 0x0F && o != 0x10)

/-- PLAIN_RERUN: the descriptor in plain mode on the slot's last shape table; while a cycle of the slot runs it waits, and this
row comes again. -/
def execPlainRerun (q tag : Nat) (s : State) : Host.Outcome State Fault Refusal :=
  .next (s.onStarted q tag 0x14 (fun _ => true) fun t =>
    let slot := bits (t.arg 1) 5 0
    let i := (t.arg 2).toNat
    let k := s.slot slot
    match k.plan.bind fun p => p.descs[i]? with
    | none => s.finish q tag cAlign 0 0
    | some d =>
      if rerunBarred d then s.finish q tag cAlign 0 0
      else if s.slotRuns slot then s
      else (s.placeCmd ((s.slotPart slot).getD 0) slot i d (.plainRerun q tag) k.shape [] [] (gridCores d) true 0 true).modStarted
        q tag fun t => { t with begun := true })

end Sys2Proof.Machine
end

