-- ==== Sys2Proof/Machine/Racking.lean ====
section
/-! DEFINITION. Racking and the cellar: promotions, direct reads, section-store copies, write-back (R281 to R289), the write
buffer, reclamation, spares and retirement (R295, R301 to R304), the error ladder and lost weights (R297 to R300), the rebuild
of the cellar index (R305, R306, R484). -/

namespace Sys2Proof.Machine

/-! ### Promotion and direct reads (R221, R283, R284) -/

/-- RESIDENT set on every stream whose leaves have all come into the cask (R221). -/
def State.setResident (s : State) : State :=
  ((s.streams.filter fun e => e.2.live && !e.2.resident).map (·.1)).foldl (fun s i =>
    if (s.coldLeaves i).isEmpty then s.modStream i fun e => { e with resident := true } else s) s

/-- A leaf's cellar copy landed in the frame taken for it: in the cask, clean. -/
def State.landPromotion (s : State) (h : Handle) : State :=
  let e := s.leaf h
  match s.cellarFrame? e.cellarFrame with
  | none => s
  | some f => ((s.setFrame e.caskFrame f.data).endMove h).modLeaf h fun e => { e with inCask := true }

/-- PROMOTION_DONE: the copy of a promotion, or of the rewrite of an uncorrectable sector's leaf (R262), lands. -/
def execPromotionDone (handle : Handle) (s : State) : Host.Outcome State Fault Refusal :=
  .next (match s.move? handle with
    | some m => if m.kind == .promote || m.kind == .rewrite then ((s.landPromotion handle).releaseMoved handle).setResident else s
    | none => s)

/-- Commands that wait for a leaf's direct read, or for its copy, wait for it no longer. -/
def State.arrived (s : State) (h : Handle) : State :=
  { s with cmds := s.cmds.map fun c => { c with waits := c.waits.filter (· != h) } }

/-- CELLAR_DIRECT_READ_DONE: the leaf's data are in the stores that need them and tagged ready. -/
def execCellarDirectReadDone (handle : Handle) (s : State) : Host.Outcome State Fault Refusal :=
  .next (if s.readable handle && (s.leaf handle).inCellar && handle != notReady then s.arrived handle else s)

/-! ### Section-store copies (R17, R285, R286) -/

/-- Frames of a section's racking cache share. -/
def State.cacheFrames (s : State) (sec : Nat) : Nat := (30 - s.scratchMiB sec) * 16

/-- A free frame of a section's racking cache. -/
def State.freeSs (s : State) (sec : Nat) : Option Nat :=
  let used := (s.rack.ss.filter fun k => k.1.1 == sec).map fun k => k.1.2
  (List.range (s.cacheFrames sec)).find? fun f => !used.contains f

/-- The unpinned copy of greatest age in a section, the lowest handle among equals. -/
def State.oldestSs (s : State) (sec : Nat) : Option Handle :=
  ((s.rack.leaves.filter fun e => e.2.inSs && e.2.ssSection == sec && e.2.pin == 0).foldl
    (fun (b : Option (Nat × Leaf)) e =>
      match b with
      | none => some e
      | some x => if s.ageOf x.2 < s.ageOf e.2 then some e else some x) none).map (·.1)

/-- A frame for a copy in a section: free, or that of the copy it replaces. -/
def State.takeSs (s : State) (sec : Nat) : Option (Nat × State) :=
  match s.freeSs sec with
  | some f => some (f, s)
  | none => (s.oldestSs sec).map fun h => ((s.leaf h).ssFrame, s.dropSs h)

/-- A section-store copy entered, in a free frame or in place of the oldest unpinned one; without either none is made. -/
def State.endStore (s : State) (h : Handle) (m : Move) : State :=
  let s := s.endMove h
  if (s.leaf h).inSs || !s.readable h then s else
    match s.takeSs m.section_ with
    | none => s
    | some (f, s) =>
      let b := s.content h
      (s.modRack fun r => { r with ss := r.ss ++ [((m.section_, f), b)] }).modLeaf h fun e =>
        { e with inSs := true, ssStale := false, ssFrame := f, ssSection := m.section_ }

/-- A racking move goes on after the errors that its read of the cask meets, if they have not ended it (R250, R262). -/
def State.afterErrors (s : State) (h : Handle) (f : State → Move → State) : State :=
  match s.move? h with
  | none => s
  | some m =>
    let s := s.meetErrors
    if s.move? h = some m then f s m else s

/-- SECTION_STORE_COPY_DONE: the cask copy has been read, and the section-store copy is entered. -/
def execSectionStoreCopyDone (handle : Handle) (s : State) : Host.Outcome State Fault Refusal :=
  .next (match s.move? handle with
    | none => s
    | some m => if m.kind != .store then s else s.afterErrors handle fun s m => (s.endStore handle m).releaseMoved handle)

/-! ### Write-back (R288, R289) -/

/-- Clean, unpinned leaves that a partition has in the cask. -/
def State.cleanCount (s : State) (part : Nat) : Nat :=
  (s.rack.leaves.filter fun e => e.2.partition == part && e.2.inCask && e.2.clean && e.2.pin == 0).length

/-- Does the age rule of R287 let a leaf be chosen among the partition's dirty ones? -/
def State.ageAllows (s : State) (part : Nat) (h : Handle) : Bool :=
  let l := s.rack.leaves.filter fun e => e.2.movable part && e.2.dirty && !e.2.poisoned
  let top := l.foldl (fun m e => max m (s.ageOf e.2)) 0
  l.any fun e => e.1 == h && decide (top ≤ 2 * s.ageOf e.2)

/-- EARLY_WRITE_BACK: one leaf at a time, while the partition keeps too few clean ones. -/
def execEarlyWriteBack (part : Nat) (handle : Handle) (s : State) : Host.Outcome State Fault Refusal :=
  .next (if decide (part < s.partCount) && decide (s.cleanCount part < bits (s.sys 6) 31 16) && s.ageAllows part handle &&
      !(s.rack.moves.any fun m => m.kind == .early && (s.leaf m.handle).partition == part) then
    s.startWriteBack handle .early .none_ else s)

/-- A move changed. -/
def State.modMove (s : State) (h : Handle) (f : Move → Move) : State :=
  s.modRack fun r => { r with moves := r.moves.map fun m => if m.handle == h then f m else m }

/-- A rewrite of a leaf's cellar copy that has waited for another move of the leaf starts (R297, R309). -/
def State.startRewrite (s : State) (h : Handle) : State :=
  if !s.rack.rewrites.contains h || s.cellar.belowMin then s
  else
    let s := s.modRack fun r => { r with rewrites := r.rewrites.filter (· != h) }
    let open_ := s.govOpen
    if !(s.leaf h).inCellar then s
    else (if open_ then s.govTake else s).startMove { handle := h, kind := .soft, section_ := 0, admitted := open_ }

/-- The governor admits a move's frame; a write-back clears DIRTY (R289). -/
def State.admitMove (s : State) (h : Handle) (m : Move) : State :=
  let s := s.govTake.modMove h fun m => { m with admitted := true }
  if m.kind.writes then s.modLeaf h fun e => { e with dirty := false } else s

/-- WRITE_BACK_ADMITTED: the governor admits a move's frame; a write-back clears DIRTY and reads the cask copy; errors that it
meets leave the leaf as they find it before the write-back, dirty (R250). A rewrite that has waited for the end of
another move is asked for. -/
def execWriteBackAdmitted (handle : Handle) (s : State) : Host.Outcome State Fault Refusal :=
  .next (match s.move? handle with
    | none => s.startRewrite handle
    | some m => if m.admitted || !s.govOpen then s else s.afterErrors handle fun s m => s.admitMove handle m)

/-- The leaf's new cellar frame entered, the previous one stale. -/
def State.enterFrame (s : State) (h : Handle) (f : Nat) : State :=
  let e := s.leaf h
  let s := if e.inCellar then s.staleFrame e.cellarFrame else s
  s.modLeaf h fun e => { e with inCellar := true, cellarFrame := f }

/-- A write-back's steps 3 to 5 once its frame lies in the write buffer. The cask frame that an eviction frees goes to who
asked for it (R287); a leaf that has become pinned or tier-pinned meanwhile keeps it (R223, R310). -/
def State.endWriteBack (s : State) (h : Handle) (m : Move) (f : Nat) : State :=
  let e := s.leaf h
  if e.dirty then
    let s := (s.staleFrame f).endMove h
    if m.kind == .evict then s.startEviction e.partition m.want else s
  else
    let s := (s.enterFrame h f).endMove h
    if m.kind == .evict && e.pin == 0 && !e.tierPinned then (s.dropCask h).giveFrame m.want e.caskFrame else s

/-- What a rewrite to a new frame writes: the clean cask copy, else the cellar copy that has been read. -/
def State.rewriteData (s : State) (h : Handle) : Bytes :=
  let e := s.leaf h
  if e.inCask && !e.dirty && (s.rack.frame e.caskFrame).poison.isEmpty then s.rack.frame e.caskFrame
  else match s.cellarFrame? e.cellarFrame with
    | some f => f.data
    | none => Bytes.empty .plain

/-- A rewrite of a cellar copy ends: the new frame is entered; for a leaf written meanwhile it is stale. -/
def State.endRewrite (s : State) (h : Handle) (f : Nat) : State :=
  if (s.leaf h).dirty then (s.staleFrame f).endMove h else (s.enterFrame h f).endMove h

/-- WRITE_BUFFER_ACCEPT: the Maltster takes an admitted frame into its write buffer. A copy with a poisoned sector is not written
to the cellar: its move ends (R252). -/
def execWriteBufferAccept (handle : Handle) (s : State) : Host.Outcome State Fault Refusal :=
  .next (match s.move? handle with
    | none => s
    | some m =>
      if !m.admitted then s
      else if m.kind.writes && !(s.rack.frame (s.leaf handle).caskFrame).poison.isEmpty then
        ((s.endMove handle).modLeaf handle fun e => { e with dirty := true }).releaseMoved handle
      else if m.kind.writes then
        match s.acceptFrame handle (s.rack.frame (s.leaf handle).caskFrame) with
        | some (f, s) => (s.endWriteBack handle m f).releaseMoved handle
        | none => s
      else if m.kind == .soft then
        match s.acceptFrame handle (s.rewriteData handle) with
        | some (f, s) => (s.endRewrite handle f).releaseMoved handle
        | none => s
      else s)

/-! ### The cellar log (R295, R304) -/

/-- The frame of the write buffer that came first. -/
def Cellar.nextProgram (c : Cellar) : Option (Nat × CellarFrame) :=
  (c.frames.filter fun f => !f.2.programmed).foldl (fun b f =>
    match b with
    | none => some f
    | some g => if f.2.writeSeq < g.2.writeSeq then some f else some g) none

/-- NAND_PROGRAM: buffered frames whose leaf has been released or written again are discarded (R310); the first of the others
is programmed. -/
def execNandProgram (s : State) : Host.Outcome State Fault Refusal :=
  .next (
    let s := s.modCellar fun c => { c with frames := c.frames.filter fun f => f.2.programmed || f.2.current }
    match s.cellar.nextProgram with
    | none => s
    | some (n, _) =>
      s.modCellar fun c => { c with
        frames := c.frames.map fun f => if f.1 == n then (f.1, { f.2 with programmed := true }) else f })

/-! ### Relocation, reclamation, spares (R291, R295, R301 to R303) -/

/-- The logical data superblock of a frame number. -/
def superblock (f : Nat) : Nat := f / 128 / 1536

/-- The current frames of a die's logical superblock. -/
def State.framesIn (s : State) (d l : Nat) : List (Nat × CellarFrame) :=
  s.cellar.frames.filter fun f => f.1 % 128 == d && superblock f.1 == l && f.2.current

/-- A frame copied to a new place and programmed there; the leaf that names it names the new one. Without a place it stays. -/
def State.relocate (s : State) (f : Nat × CellarFrame) (forced : Bool) : State :=
  match s.cellar.place with
  | none => s
  | some (n, c) =>
    let g := { f.2 with writeSeq := c.writeSeq + 1, programmed := true }
    let s : State := { s with cellar := { c with frames := c.frames ++ [(n, g)], writeSeq := c.writeSeq + 1 } }
    let h := f.2.handle.toNat
    let s := if (s.leaf h).inCellar && (s.leaf h).cellarFrame == f.1 then s.modLeaf h fun e => { e with cellarFrame := n } else s
    let s := if forced then s.govForce else s.govTake
    s.staleFrame f.1

/-- A die changed. -/
def State.modDie (s : State) (d : Nat) (f : Die → Die) : State := s.modCellar fun c => { c with dies := modAt c.dies d f }

/-- A die's superblock unmapped: its frames are gone, and it is no longer open. -/
def State.unmapBlock (s : State) (d l : Nat) : State :=
  (s.modCellar fun c => { c with frames := c.frames.filter fun f => !(f.1 % 128 == d && superblock f.1 == l && !f.2.current) }).modDie
    d fun k => { k with map := k.map.filter fun e => e.1 != l }

/-- Free superblocks of a die. -/
def Die.freeCount (d : Die) : Nat := (d.physical.filter fun p => !(d.map.any fun e => e.2 == p)).length

/-- The full superblock of a die with the most stale frames, the lowest among equals. -/
def State.victim (s : State) (d : Nat) (k : Die) : Option Nat :=
  ((k.map.filter fun e => (k.open_.map (·.1)) != some e.1).foldl (fun (b : Option Nat) e =>
    match b with
    | none => some e.1
    | some l => if (s.framesIn d e.1).length < (s.framesIn d l).length then some e.1 else some l) none)

/-- The erase of a die's superblock. -/
def State.eraseBlock (s : State) (d l : Nat) : State :=
  (s.modDie d fun k =>
    match k.map.find? fun e => e.1 == l with
    | some (_, p) => { k with erases := alSet 0 p (alGet 0 p k.erases + 1) k.erases }
    | none => k).unmapBlock d l

/-- RECLAMATION: the current frames of the superblock with the most stale ones copied, within the governor, and the superblock
erased. -/
def execReclamation (die : Nat) (s : State) : Host.Outcome State Fault Refusal :=
  .next (match s.cellar.dies[die]? with
    | none => s
    | some k =>
      if k.retired || 16 ≤ k.freeCount then s else
        match s.victim die k with
        | none => s
        | some l =>
          let fs := s.framesIn die l
          if s.cellar.level < (fs.length * frameDraw : Nat) || decide (s.now.toNat < s.cellar.peakAt) then s
          else (fs.foldl (fun s f => s.relocate f false) s).eraseBlock die l)

/-- CELLAR_MIN against the frames in service (R303). -/
def State.checkMin (s : State) : State :=
  if s.cellarTotal < bits (s.sys 9) 28 0 then s.modCellar fun c => { c with belowMin := true } else s

/-- A die retired: its frames relocated to other dies, its frames out of the capability table (R302). -/
def State.retireDie (s : State) (d : Nat) : State :=
  let s := s.modDie d fun k => { k with retired := true, open_ := none }
  let s := (s.cellar.frames.filter fun f => f.1 % 128 == d && f.2.current).foldl (fun s f => s.relocate f true) s
  (s.checkMin.attention 2 cDone (w32 d) 0).recapAs true cDone

/-- PROGRAM_ERASE_FAILURE: the superblock leaves service, its frames relocated at once; a spare takes its place, or the die is
retired. -/
def execProgramEraseFailure (die block : Nat) (s : State) : Host.Outcome State Fault Refusal :=
  .next (match s.cellar.dies[die]? with
    | none => s
    | some k =>
      match k.map.find? fun e => e.1 == block with
      | none => s
      | some (_, p) =>
        if k.retired then s else
        let close (k : Die) : Die := { k with
          bad := k.bad ++ [p], open_ := if (k.open_.map (·.1)) = some block then none else k.open_ }
        let s := s.modDie die close
        if k.spares < 174 then
          let s := s.modDie die fun k => { k with spares := k.spares + 1 }
          (((s.framesIn die block).foldl (fun s f => s.relocate f true) s).unmapBlock die block).attention 2 cDone (w32 die)
            (w32 block)
        else s.retireDie die)

/-! ### The error ladder (R297 to R300) -/

/-- RETRIES counted. -/
def State.countRetry (s : State) : State := s.modCellar fun c => { c with retries := sat32 (c.retries + 1) }

/-- A leaf's cellar copy is to be written to a new frame: a move that waits for the governor, and for the end of another move
of the leaf (R309). -/
def State.rewriteLeaf (s : State) (h : Handle) : State :=
  if s.cellar.belowMin || s.rack.rewrites.contains h then s
  else
    let s := s.modRack fun r => { r with rewrites := r.rewrites ++ [h] }
    if (s.leaf h).moving then s else s.startRewrite h

/-- The bad frame of a leaf given up. -/
def State.dropCellar (s : State) (h : Handle) : State :=
  let e := s.leaf h
  if e.inCellar then (s.staleFrame e.cellarFrame).modLeaf h fun e => { e with inCellar := false, cellarFrame := 0 } else s

/-- A promotion of a leaf ended without its copy: its frame goes back. -/
def State.dropPromotion (s : State) (h : Handle) : State :=
  match s.move? h with
  | some m =>
    if m.kind == .promote || m.kind == .rewrite then
      ((s.dropFrame (s.leaf h).caskFrame).endMove h).modLeaf h fun e => { e with caskFrame := 0 }
    else s
  | none => s

/-- The report of an uncorrectable frame: the errata record and the attention (R298). -/
def State.reportFrame (s : State) (h f : Nat) (code : Code) : State := s.attention 2 code (w32 h) (w32 f)

/-- The owner of a lost mirror frame told, as of a mirror it must take anew. -/
def State.mirrorLost (s : State) (f : CellarFrame) : State :=
  let owner : BitVec 20 := f.w4.setWidth 20
  if bits f.w4 21 20 = 2 || owner = s.addr then s
  else s.emitParcel (mirrorParcel owner 3 f.slot (bits f.w6 15 0) f.w7.toNat 0 0 0 (s.ownerStart owner) [])

/-- The commands that wait for a leaf that is lost end with LEAF_POISONED (R176, R298). -/
def State.endWaiters (s : State) (h : Handle) : State :=
  (s.cmds.filter fun c => c.phase == .issued && c.waits.contains h).foldl (fun s c => s.poisonEnd c [h]) s

/-- Step 4 of the ladder: a leaf whose cask copy is clean is rewritten from it, every other is poisoned, one whose cask copy is
dirty too (log 106). -/
def State.cellarLost (s : State) (h : Handle) : State :=
  let e := s.leaf h
  let f := e.cellarFrame
  let kind := ((s.cellarFrame? f).map (·.kind)).getD 0
  let s := s.modCellar fun c => { c with uncorrectable := sat32 (c.uncorrectable + 1) }
  if e.inCask && !e.dirty && !e.poisoned then
    if s.cellar.belowMin then ((s.dropCellar h).modLeaf h fun e => { e with dirty := true }).reportFrame h f cDone
    else (s.rewriteLeaf h).reportFrame h f cDone
  else
    let s := ((s.dropPromotion h).modLeaf h fun e => { e with poisoned := true }).reportFrame h f cPoisoned
    if kind = 8 then
      match s.cellarFrame? f with
      | some c => s.mirrorLost c
      | none => s
    else if (s.weightPlace h).isSome then s.startFetch h
    else s.endWaiters h

/-- CELLAR_READ_DONE: a read of a leaf's frame ended at a rung of the ladder. -/
def execCellarReadDone (handle : Handle) (rung : Rung) (s : State) : Host.Outcome State Fault Refusal :=
  .next (if !(s.leaf handle).inCellar then s else
    match rung with
    | .hard => s
    | .retry => s.countRetry
    | .soft => s.countRetry.rewriteLeaf handle
    | .uncorrectable => (s.countRetry.cellarLost handle).releaseMoved handle)

/-! ### Copies of lost weights (R299, R300) -/

/-- The expert a weight leaf belongs to. -/
def State.expertOf (s : State) (h : Handle) : Nat :=
  match s.weightPlace h with
  | some (sl, i) => s.leafExpert sl i
  | none => 0xFFFFFF

/-- UNAVAILABLE of an expert written in this module's directory. -/
def State.setUnavailable (s : State) (x : Nat) (v : Bool) : State :=
  if x = 0xFFFFFF then s else s.modFabric fun f => { f with directory := f.directory.map fun e =>
    if e.1 = x then (e.1, e.2.set 0 (setBits (wd e.2 0) 21 21 (if v then 1 else 0))) else e }

/-- The fetch of a leaf ended. -/
def State.endFetch (s : State) (h : Handle) : State :=
  (s.modRack fun r => { r with fetches := r.fetches.filter (· != h) }).modFabric fun f =>
    { f with queries := f.queries.filter fun q => q.handle != h }

/-- A copy of a weight leaf written into the cask: dirty, unless it is REMOTE and the cellar takes no writes (R303, log 166), and no
longer poisoned; the commands that wait for it go on, and its
expert is available again once no leaf of it is poisoned. Without a frame it waits. -/
def State.weightCopy (s : State) (h : Handle) (b : Bytes) : State :=
  let e := s.leaf h
  match if e.inCask then some (e.caskFrame, s) else s.demandFrame e.partition with
  | none => s.startEviction e.partition .none_
  | some (f, s) =>
    let s := (((s.dropPromotion h).dropCellar h).dropSs h).setFrame f { b with form := .plain, poison := [] }
    let s := s.modLeaf h fun e =>
      { e with inCask := true, caskFrame := f, poisoned := false, dirty := !(s.cellar.belowMin && e.remote) }
    let s := (s.endFetch h).arrived h
    let x := s.expertOf h
    if s.rack.leaves.any fun l => l.2.poisoned && l.2.format == 0 && s.expertOf l.1 == x then s else s.setUnavailable x false

/-- The bytes and tags of a leaf as a store. -/
def leafStore (data : List Byte) (tags : List (BitVec 4)) : Bytes :=
  let b := (Bytes.empty .plain).write 0 (data.take 65536)
  (List.range 1024).foldl (fun b i => b.setTag i (tags.getD i 0)) b

/-- WEIGHT_COPY_ARRIVAL. -/
def execWeightCopyArrival (handle : Handle) (data : List Byte) (tags : List (BitVec 4)) (s : State) :
    Host.Outcome State Fault Refusal :=
  .next (if s.rack.fetches.contains handle then s.weightCopy handle (leafStore data tags) else s)

/-- WEIGHT_FETCH_TIMEOUT: the commands that wait for the leaf end with WEIGHT_LOST; its expert is unavailable. -/
def execWeightFetchTimeout (handle : Handle) (s : State) : Host.Outcome State Fault Refusal :=
  .next (if !s.rack.fetches.contains handle then s else
    let x := s.expertOf handle
    let s := (s.endFetch handle).setUnavailable x true
    (s.cmds.filter fun c => c.phase == .issued && c.waits.contains handle).foldl (fun s c =>
      let t := s.killed
      t.2.abort c cWeightLost t.1 false (x == 0xFFFFFF)) s)

/-! ### Heat (R281, R282) -/

/-- The sweep of an entry. -/
def State.sweptLeaf (s : State) (e : Leaf) : Leaf :=
  if 32768 ≤ s.ageOf e then { e with age := (s.rack.heatCount + 32768) % 65536, heat := 0 } else e

/-- HEAT_EPOCH: the count rises, and the agents' sweep visits every entry and the queries that wait for an answer. -/
def execHeatEpoch (s : State) : Host.Outcome State Fault Refusal :=
  .next (if s.power.config = 0 || s.rack.poolSize = 0 then s else
    let s := s.modRack fun r => { r with heatCount := r.heatCount + 1 }
    (s.modRack fun r => { r with leaves := r.leaves.map fun e => (e.1, s.sweptLeaf e.2) }).ageQueries)

/-! ### The rebuild (R305, R306, R484) -/

/-- The current frame of greatest WRITE_SEQ of a key, by a reading of the key. -/
def newest {α : Type} [BEq α] (key : CellarFrame → α) (fs : List (Nat × CellarFrame)) : List (Nat × CellarFrame) :=
  fs.filter fun f => fs.all fun g => !(key g.2 == key f.2) || decide (g.2.writeSeq ≤ f.2.writeSeq)

/-- The weight key of a frame. -/
def CellarFrame.key (f : CellarFrame) : W64 := f.w7 ++ f.w6

/-- The frames of weights that are kept: of a slot of the imprint, under the key of the slot's newest frame. -/
def State.keptWeights (s : State) (fs : List (Nat × CellarFrame)) : List (Nat × CellarFrame) :=
  let ok := fs.filter fun f => f.2.kind == 0 && s.slotPart f.2.slot == some f.2.partition
  let tops := newest (·.slot) ok
  ok.filter fun f => tops.any fun g => g.2.slot == f.2.slot && g.2.key == f.2.key

/-- The frames of mirrors that are kept: of each manifest's stream the greatest MIRROR_POS, of each leaf the newest, errata
mirrors all. -/
def keptMirrors (fs : List (Nat × CellarFrame)) : List (Nat × CellarFrame) :=
  let m := fs.filter fun f => f.2.kind == 8
  let sub (n : Nat) : List (Nat × CellarFrame) := m.filter fun f => bits f.2.w4 21 20 == n
  let owner (f : CellarFrame) : Nat := bits f.w4 19 0
  let heads := (sub 1).filter fun f => (sub 1).all fun g =>
    !(owner g.2 == owner f.2 && bits g.2.w6 15 0 == bits f.2.w6 15 0) || decide (g.2.w7.toNat ≤ f.2.w7.toNat)
  newest (fun f => (owner f, f.w5)) (sub 0) ++ newest (fun f => (owner f, bits f.w6 15 0)) heads ++ sub 2

/-- A kept frame entered under its recorded handle. -/
def State.enterKept (s : State) (f : Nat × CellarFrame) : State :=
  let fmt := if f.2.kind = 8 then bits f.2.w4 24 22 else 0
  s.setLeaf f.2.handle.toNat { Leaf.free with
    ref := 1, inCellar := true, format := fmt, partition := f.2.partition, cellarFrame := f.1,
    age := (s.rack.heatCount + 32768) % 65536 }

/-- The retained weight sets of the kept frames. -/
def State.retain (s : State) (fs : List (Nat × CellarFrame)) : State :=
  (List.range 64).foldl (fun s j =>
    match fs.filter fun f => f.2.slot == j with
    | [] => s
    | f :: rest => s.modSlot j fun k => { k with
        retained := some (f.2.key, (f :: rest).map fun g => (g.2.w5.toNat, g.2.handle.toNat)) }) s

/-- The mirror map and the manifests of the kept frames. -/
def State.remap (s : State) (fs : List (Nat × CellarFrame)) : State :=
  let sub (n : Nat) : List (Nat × CellarFrame) := fs.filter fun f => bits f.2.w4 21 20 == n
  s.modBuddy fun b => { b with
    incoming := []
    map := (sub 0).map fun f => ((f.2.w4.setWidth 20, f.2.w5), f.2.handle.toNat)
    manifests := (sub 1).map fun f =>
      ⟨f.2.w4.setWidth 20, bits f.2.w6 15 0, f.2.slot, f.2.w7.toNat, bytesWords 16 (f.2.data.read 0 64), f.2.handle.toNat⟩ }

/-- CELLAR_REBUILD_DONE: of each handle the frame of greatest WRITE_SEQ is current; of these the frames R306 keeps are entered,
and all others are stale. -/
def execCellarRebuildDone (s : State) : Host.Outcome State Fault Refusal :=
  .next (if !s.cellar.rebuilding then s else
    let live := newest (·.handle) (s.cellar.frames.filter fun f => f.2.current)
    let weights := s.keptWeights live
    let mirrors := keptMirrors live
    let kept := weights ++ mirrors
    let s := s.modCellar fun c => { c with
      rebuilding := false, ready := true
      frames := c.frames.map fun f => (f.1, { f.2 with current := kept.any fun g => g.1 == f.1 }) }
    (((kept.foldl (fun s f => s.enterKept f) s).retain weights).remap mirrors).checkMin)

end Sys2Proof.Machine
end

