-- ==== Sys2Proof/Machine/Fabric.lean ====
section
/-! DEFINITION. Dareno: negotiation, renegotiation and partner loss of native ports (R340 to R343), edge ports (R344), hellos
(R345 to R347), arriving parcels and the check-value unit (R368, R369), resends, queries (R363), expiry (R361), the unreachable
list (R475), link credit (R338). -/

namespace Sys2Proof.Machine

/-! ### Going up and down (R32, R343) -/

/-- Is a port a native port of the imprint? -/
def State.isNative (s : State) (p : Nat) : Bool := (s.fport p).mode == 1

/-- PARTNER_ADDR and PARTNER_PORT from a hello (R371). -/
def State.knowPartner (s : State) (p : Nat) (hello : List W32) : State :=
  s.modFPort p fun k => { k with
    partner := BitVec.ofNat 20 (bits (wd hello 0) 19 0), partnerPort := BitVec.ofNat 4 (bits (wd hello 0) 23 20) }

/-- A native port comes up with its partner's hello: it leaves the unreachable list; the first completion since the start
raises no attention (R32). -/
def State.portUp (s : State) (p : Nat) (hello : List W32) : State :=
  let first := !(s.fport p).everUp
  let a : BitVec 20 := BitVec.ofNat 20 (bits (wd hello 0) 19 0)
  let s := (s.knowPartner p hello).modFPort p fun k => { k with state := 2, reason := 0, everUp := true }
  let s := s.modFabric fun f => { f with unreachable := f.unreachable.filter (· != a) }
  s.recapAs first cDone

/-- A native port loses its partner: down with REASON 9, its transmit buffer discarded, the loss recorded and the partner
listed (R343, R475). -/
def State.portLost (s : State) (p : Nat) : State :=
  let a := (s.fport p).partner
  let s := (s.emptyTx p).modFPort p fun k => { k with state := 4, reason := 9, rate := 0, width := 0, spareUsed := false, credits := 0 }
  ((s.attention 2 cPartner (w32 p) 0).listUnreachable a).recapAs true cPartner

/-- A negotiation ends without success. -/
def State.portFails (s : State) (p reason : Nat) : State :=
  s.modFPort p fun k => { k with
    state := 4, reason := reason, rate := 0, width := 0, spareUsed := false, credits := 0, txQueue := [] }

/-! ### Hellos (R345 to R347) -/

/-- The payload of this module's hello on a port. -/
def State.helloWords (s : State) (p : Nat) : List W32 :=
  let w := s.portWord p
  let c := s.ident.colophon
  [w32 (s.addr.toNat + (p <<< 20) + (bits w 4 2 <<< 24) + (bits w 5 5 <<< 27)), s.capSerial,
   if s.ident.window.isSome then 1 else 0, 0] ++
  ((List.range 8).map fun i => (c >>> (32 * i)).setWidth 32) ++ [0, 0, 0, 0]

/-- The colophon of a hello. -/
def helloColophon (h : List W32) : Digest :=
  (List.range 8).foldl (fun d i => d ||| ((wd h (4 + i)).setWidth 256 <<< (32 * i))) 0

/-- Does a partner's hello meet R346 on a port? -/
def State.wired (s : State) (p : Nat) (h : List W32) : Bool :=
  let w := s.portWord p
  let k := bits w 4 2
  let a : BitVec 20 := BitVec.ofNat 20 (bits (wd h 0) 19 0)
  let me := s.field s.addr k
  let him := s.field a k
  let n := s.ringN k
  let next (x y : Nat) : Bool := if s.isChain k then y == x + 1 else y == (x + 1) % max 1 n
  let mask : Nat := ((1 <<< s.fieldW k) - 1) <<< ((List.range k).map s.fieldW).foldl (· + ·) 0
  bits (wd h 0) 26 24 == k && bits (wd h 0) 27 27 == 1 - bits w 5 5 &&
  a.toNat ||| mask == s.addr.toNat ||| mask &&
  (if bits w 5 5 = 0 then next me him else next him me)

/-- COLOPHON_POLICY 1: count only. -/
def State.countOnly (s : State) : Bool := (s.sys 0).getLsbD 5

/-- A colophon mismatch of a partner counted, and recorded with security attention once per partner. -/
def State.mismatch (s : State) (p : Nat) (a : BitVec 20) : State :=
  let known := (s.fport p).logged.contains a
  let s := s.modFPort p fun k => { k with
    mismatches := sat32 (k.mismatches + 1), logged := if known then k.logged else k.logged ++ [a] }
  if known then s else s.attention 4 cColophon (w32 p) (w32 a.toNat)

/-- A partner's hello judged: wiring, then colophon. -/
def State.takeHello (s : State) (p : Nat) (h : List W32) : State :=
  let a : BitVec 20 := BitVec.ofNat 20 (bits (wd h 0) 19 0)
  if !s.wired p h then
    let up := (s.fport p).state = 2
    let s := (s.emptyTx p).portFails p 7
    if up then s.recapAs false cPartner else s
  else if s.accepts (helloColophon h) then
    if (s.fport p).state = 2 then s.knowPartner p h else s.portUp p h
  else
    let s := s.mismatch p a
    if s.countOnly then (if (s.fport p).state = 2 then s.knowPartner p h else s.portUp p h)
    else
      let up := (s.fport p).state = 2
      let s := (s.knowPartner p h).modFPort p fun k => { k with state := 3 }
      if up then s.recapAs false cColophon else s

/-- HELLO_SEND: every 10 µs on a port whose partner has been found. -/
def execHelloSend (port : Nat) (s : State) : Host.Outcome State Fault Refusal :=
  .next (if s.isNative port && ((s.fport port).state == 2 || (s.fport port).state == 3) then
    s.emitLink port (mkParcel 0xFFFFF 0 (wordsBytes (s.helloWords port))) else s)

/-- HELLO_RECEIVE: on a port that is up or refuses its partner. -/
def execHelloReceive (port : Nat) (hello : List W32) (s : State) : Host.Outcome State Fault Refusal :=
  .next (if s.isNative port && ((s.fport port).state == 2 || (s.fport port).state == 3) then s.takeHello port hello else s)

/-! ### Negotiation (R340, R341, R489, R490) -/

/-- DETAIL of a lane fault's record. -/
def faultDetail (f : LaneFault) : W32 := w32 (f.fault.toNat + (f.lane <<< 8) + (if f.receive then 2048 else 0))

/-- The faults that sensing finds: each new one recorded, crossed pairs with degraded attention. -/
def State.senseLanes (s : State) (p : Nat) (fs : List LaneFault) : State :=
  let old := (s.fport p).faults
  let s := (fs.filter fun f => !old.contains f).foldl (fun (s : State) f =>
    if f.fault = 7 then s.attention 2 cPartner (w32 p) (faultDetail f) else s.log cPartner (w32 p) (faultDetail f)) s
  let s := match (fs.filter fun f => !old.contains f).getLast? with
    | some f => { s with board := { s.board with faultSubject := BitVec.ofNat 16 p, faultDetail := faultDetail f } }
    | none => s
  s.modFPort p fun k => { k with faults := fs, noRetry := k.noRetry || fs.any fun f => f.fault == 7 }

/-- Lanes that may be used: not excluded, not faulty. -/
def State.goodLanes (s : State) (p : Nat) (good : BitVec 5) : List Nat :=
  let k := s.fport p
  (List.range 5).filter fun l => good.getLsbD l && !k.excluded.getLsbD l && !(k.faults.any fun f => f.lane == l)

/-- WIDTH of a number of good lanes: 3 four lanes, 2 two, 1 one, 0 none. -/
def widthCode (n : Nat) : Nat := if 4 ≤ n then 3 else if 2 ≤ n then 2 else n

/-- Lanes of a WIDTH. -/
def widthLanes (c : Nat) : Nat := if c = 3 then 4 else c

/-- The best trial: RATE, WIDTH and whether the spare stands in; payload decides, and a tie goes to the higher rate. -/
def State.trials (s : State) (p : Nat) (net : NegIn) : Nat × Nat × Bool :=
  let mine := bits (s.portWord p) 8 6
  let all : List (Nat × Nat × BitVec 5) := [(3, 4, net.good212), (2, 2, net.good106), (1, 1, net.good53)]
  let on := (all.zip [0, 1, 2]).filter fun x => mine.testBit x.2 && net.rates.getLsbD x.2
  let try_ (x : Nat × Nat × BitVec 5) : Nat × Nat × Nat × Bool :=
    let ls := s.goodLanes p x.2.2
    let w := widthCode ls.length
    (x.2.1 * widthLanes w, x.1, w, decide ((ls.filter (· < 4)).length < widthLanes w))
  let best := on.foldl (fun (b : Nat × Nat × Nat × Bool) x => if b.1 < (try_ x.1).1 then try_ x.1 else b) (0, 0, 0, false)
  best.2

/-- LANE_MAP: 3 bits for each logical lane. -/
def laneMapOf (order : List Nat) : BitVec 15 :=
  BitVec.ofNat 15 ((List.range 5).foldl (fun n i => n + ((order.getD i i % 8) <<< (3 * i))) 0)

/-- The offer word of a lane, sent in its own order: RATES as the imprint gives them, before any rate is on trial (R340). -/
def State.offerWord (s : State) (p lane : Nat) : W32 :=
  w32 (lane + 8 + (bits (s.portWord p) 8 6 <<< 4) + 128 + ((s.fport p).nonce.toNat <<< 16))

/-- The offers of step 3, on every lane that may be used. -/
def State.sendOffers (s : State) (p : Nat) : State :=
  (s.goodLanes p 31).foldl (fun s l => s.emit (.offer p l (s.offerWord p l))) s

/-- Negotiation from step 2. The hellos of step 7 follow the first grant of the input buffer (R338). -/
def State.negotiateFrom2 (s : State) (p : Nat) (net : NegIn) : State :=
  let s := s.modFPort p fun k => { k with polInv := net.inverted, laneMap := laneMapOf net.order }
  let t := s.trials p net
  if !net.partner then s.portFails p 1 else
  let s := s.sendOffers p
  if net.looped then s.portFails p 3
  else if !net.rs544 then s.portFails p 5
  else if !net.native then s.portFails p 6
  else if t.2.1 = 0 then s.portFails p (if (s.fport p).faults.isEmpty then 2 else 4)
  else if !net.fecLock then s.portFails p 5
  else if net.hello.isEmpty then s.portFails p 1
  else
    let s := (s.modFPort p fun k => { k with rate := t.1, width := t.2.1, spareUsed := t.2.2 }).emit (.credit p inputUnits)
    (s.emitLink p (mkParcel 0xFFFFF 0 (wordsBytes (s.helloWords p)))).takeHello p net.hello

/-- A negotiation begins: STATE 1, a new NONCE, no credit. -/
def State.beginNegotiation (s : State) (p : Nat) : State :=
  let d := s.draw
  d.2.modFPort p fun k => { k with state := 1, nonce := d.1.setWidth 16, credits := 0, txQueue := [] }

/-- NEGOTIATION: a native port that negotiates runs every step. -/
def execNegotiation (port : Nat) (net : NegIn) (s : State) : Host.Outcome State Fault Refusal :=
  .next (if !s.isNative port || (s.fport port).state != 1 then s
    else
      let s := s.beginNegotiation port
      if !net.partner then s.portFails port 1
      else
        let s := s.senseLanes port net.faults
        if (s.fport port).noRetry then s.portFails port 4 else s.negotiateFrom2 port net)

/-- REASON of a step that exceeds its limit. -/
def stepReason (step : Nat) : Nat := if step = 6 then 5 else if step = 4 ∨ step = 5 then 2 else 1

/-- NEGOTIATION_STEP_LIMIT. -/
def execNegotiationStepLimit (port step : Nat) (s : State) : Host.Outcome State Fault Refusal :=
  .next (if s.isNative port && (s.fport port).state == 1 then s.portFails port (stepReason step) else s)

/-- NEGOTIATION_RETRY: a port that is down negotiates again. -/
def execNegotiationRetry (port : Nat) (s : State) : Host.Outcome State Fault Refusal :=
  .next (if s.isNative port && (s.fport port).state == 4 && !(s.fport port).noRetry then
    s.modFPort port fun k => { k with state := 1 } else s)

/-- Is a native port in service, its partner found? -/
def State.partnered (s : State) (p : Nat) : Bool := s.isNative p && ((s.fport p).state == 2 || (s.fport p).state == 3)

/-- RENEGOTIATION: counted; the port goes down and negotiates from step 2. -/
def execRenegotiation (port : Nat) (net : NegIn) (s : State) : Host.Outcome State Fault Refusal :=
  .next (if !s.partnered port then s
    else
      let s := s.modFPort port fun k => { k with renegotiations := sat32 (k.renegotiations + 1) }
      ((s.portLost port).beginNegotiation port).negotiateFrom2 port net)

/-- PARTNER_LOSS: the port goes down and negotiates at once. -/
def execPartnerLoss (port : Nat) (s : State) : Host.Outcome State Fault Refusal :=
  .next (if s.partnered port then (s.portLost port).modFPort port fun k => { k with state := 1 } else s)

/-! ### Edge ports (R344) -/

/-- EDGE_PORT_UP: at the imprint's EDGE_RATE; the polarity and order found by the marker search are free values. -/
def execEdgePortUp (port : Nat) (s : State) : Host.Outcome State Fault Refusal :=
  .next (if (s.fport port).mode != 2 || (s.fport port).state == 2 then s
    else
      let d := s.draw
      d.2.modFPort port fun k => { k with
        state := 2, reason := 0, rate := 3, width := bits (s.portWord port) 10 9, polInv := d.1.setWidth 5,
        laneMap := (d.1 >>> 8).setWidth 15 })

/-- EDGE_PORT_DOWN. -/
def execEdgePortDown (port : Nat) (s : State) : Host.Outcome State Fault Refusal :=
  .next (if (s.fport port).mode = 2 ∧ (s.fport port).state = 2 then
    s.modFPort port fun k => { k with state := 4, rate := 0, width := 0 } else s)

/-! ### The check-value unit (R368, R369) -/

/-- A verdict entered in the ring; OVERFLOW where 64 entries are unread. -/
def Cvu.push (u : Cvu) (verdict : Nat) (p : Parcel) (expected : BitVec 8) (slot : Nat) : Cvu :=
  if (u.head + 128 - u.tail) % 128 = 64 then { u with overflow := true }
  else
    let e : List W32 := [w32 (verdict + (p.ptype.toNat <<< 4) + (p.alive.toNat <<< 8) + (expected.toNat <<< 16)),
      w32 p.src.toNat, w32 (slot + (p.stream.toNat <<< 16)), p.token]
    let ring := u.ring ++ List.replicate (64 - u.ring.length) [0, 0, 0, 0]
    { u with ring := ring.set (u.head % 64) e, head := (u.head + 1) % 128 }

/-- The alive verdict of a parcel with a good CRC, 0 when none, with ALIVE_EXP, and the source's entry after it. -/
def Source.check (x : Source) (a : BitVec 8) : Nat × BitVec 8 × Source :=
  let d := (a - x.last).toNat
  let keep (last : BitVec 8) (l : List (BitVec 8)) : List (BitVec 8) :=
    l.filter fun v => decide (1 ≤ (last - v).toNat) && decide ((last - v).toNat ≤ 128)
  if d = 1 then (0, 0, { x with last := a, missing := keep a x.missing })
  else if 2 ≤ d ∧ d ≤ 128 then
    (3, x.last + 1, { x with last := a, missing := keep a (x.missing ++ (List.range (d - 1)).map fun i => x.last + 1 + BitVec.ofNat 8 i) })
  else if x.missing.contains a then (0, 0, { x with missing := x.missing.filter (· != a) })
  else (2, 0, x)

/-- The alive check in the source table, most recently seen first, at most 4 096. -/
def Cvu.alive (u : Cvu) (p : Parcel) : Nat × BitVec 8 × Cvu :=
  match u.sources.find? fun x => x.addr == p.src with
  | none => (0, 0, { u with sources := ({ addr := p.src, last := p.alive, missing := [] } :: u.sources).take 4096 })
  | some x =>
    let r := x.check p.alive
    (r.1, r.2.1, { u with sources := r.2.2 :: u.sources.filter fun y => y.addr != p.src })

/-- A port's check-value unit changed. -/
def State.modCvu (s : State) (p : Nat) (f : Cvu → Cvu) : State := s.modFPort p fun k => { k with cvu := f k.cvu }

/-- Is every segment of a parcel's route used up? -/
def parcelDone (p : Parcel) : Bool := p.segs.all fun g => g.toNat % 64 == 0

/-- The receive-area slot of the parcel received last, or 0xFFFF where the area took none. -/
def State.newSlot (before after : State) : Nat :=
  if after.fabric.rx.length = before.fabric.rx.length then 0xFFFF
  else ((after.fabric.rx.getLast?).map (·.rq)).getD 0xFFFF

/-- A parcel for this module put into the receive area with its verdict. -/
def State.deliver (s : State) (port : Nat) (p : Parcel) (verdict : Nat) (expected : BitVec 8) : State :=
  let t := s.receive p (some port) (verdict == 1 || verdict == 2)
  if verdict = 0 then t else t.modCvu port fun u => u.push verdict p expected (State.newSlot s t)

/-- A parcel with a good CRC for this module: the alive check, then the colophon (R347), the type, a token of an expert not
served here (R357), the receive area. -/
def State.acceptParcel (s : State) (port : Nat) (p : Parcel) : State :=
  let r := (s.fport port).cvu.alive p
  let s := s.modCvu port fun _ => { r.2.2 with
    gaps := if r.1 = 3 then sat32 (r.2.2.gaps + 1) else r.2.2.gaps
    repeats := if r.1 = 2 then sat32 (r.2.2.repeats + 1) else r.2.2.repeats }
  let odd := !(p.ptype == 7 || p.ptype == 8 || p.ptype == 9) && !s.acceptsShort p.shortColophon
  let s := if odd then s.mismatch port p.src else s
  let lone (s : State) : State := if r.1 = 0 then s else s.modCvu port fun u => u.push r.1 p r.2.1 0xFFFF
  if odd && !s.countOnly then lone s
  else if 11 ≤ p.ptype.toNat || s.unserved p then lone (s.dropAt port)
  else s.deliver port p r.1 r.2.1

/-- PARCEL_ARRIVAL: the CRC of every parcel that crosses the port inward, then delivery, or the next hop; with its departure from
the input buffer the partner has its credit back. A hello or time
parcel for the link partner acts by its own row. -/
def execParcelArrival (port : Nat) (parcel : Parcel) (trailer : W32) (s : State) : Host.Outcome State Fault Refusal :=
  .next (if !s.partnered port then s
    else
      let ok := parcelCrc parcel == trailer
      let link := parcel.dest == 0xFFFFF
      let here := parcel.dest == s.addr && parcelDone parcel
      let s := s.modCvu port fun u => { u with
        checked := sat32 (u.checked + 1), crcFails := if ok then u.crcFails else sat32 (u.crcFails + 1) }
      let taken := s.freed (some port) parcel
      if (s.fport port).state = 3 && !link then taken
      else if link then (if ok then taken else taken.modCvu port fun u => u.push 1 parcel 0 0xFFFF)
      else if here then (if ok then taken.acceptParcel port parcel else taken.deliver port parcel 1 0)
      else
        let s := if ok then s else s.modCvu port fun u => u.push 4 parcel 0 0xFFFF
        State.forward hopFuel s (s.onChannel port parcel) (some port))

/-! ### Resends and queries (R363, R369, R475) -/

/-- A swept parcel of a type in the receive area acts and leaves it. -/
def State.onParcel (s : State) (rq : Nat) (ptype : BitVec 4) (f : Parcel → State → State) : State :=
  match s.rx? rq with
  | some x => if x.parcel.ptype == ptype && x.swept && !x.bad && x.takenBy.isNone then f x.parcel (s.dropRx rq) else s
  | none => s

/-- A parcel of the resend ring sent again with its ALIVE. -/
def State.resend (s : State) (dest : BitVec 20) (a : BitVec 8) : State :=
  match s.fabric.resend.reverse.find? fun p => p.dest == dest && p.alive == a with
  | some p => State.forward hopFuel s p none
  | none => s

/-- RESEND_REQUEST_RECEIVE. -/
def execResendRequestReceive (rq : Nat) (s : State) : Host.Outcome State Fault Refusal :=
  .next (s.onParcel rq 5 fun p s =>
    let first := p.payload.getD 0 0
    let n := min 128 (p.payload.getD 1 0).toNat
    (List.range n).foldl (fun s i => s.resend p.src (first + BitVec.ofNat 8 i)) s)

/-- Data of a query's answer at a byte offset. -/
def queryData (dest : BitVec 20) (id off : Nat) (data : List Byte) : Parcel :=
  { mkParcel dest 9 data with ident := BitVec.ofNat 24 (id % 65536), token := w32 off }

/-- Data sent in parcels of at most 8 192 bytes. fuel bounds their number. -/
def State.sendData (dest : BitVec 20) (id : Nat) : Nat → Nat → List Byte → State → State
  | 0, _, _, s => s
  | n + 1, off, d, s =>
    if d.isEmpty then s
    else State.sendData dest id n (off + 8192) (d.drop 8192) (s.emitParcel (queryData dest id off (d.take 8192)))

/-- The leaf of a weight key and image index that this module holds. -/
def State.heldLeaf (s : State) (key : W64) (idx : Nat) : Option Handle :=
  (List.range 64).findSome? fun j =>
    match (s.slot j).plan with
    | some p => if (s.slot j).key = key then (p.leaves[idx]?).bind fun h => if s.readable h then some h else none else none
    | none => none

/-- A reply to a query. -/
def State.answerQuery (s : State) (dest : BitVec 20) (kind id status : Nat) : State :=
  s.emitParcel (mkParcel dest 8 (wordsBytes [w32 (kind + (status <<< 4)), w32 id, 0, 0]))

/-- QUERY_RECEIVE. -/
def execQueryReceive (rq : Nat) (s : State) : Host.Outcome State Fault Refusal :=
  .next (s.onParcel rq 7 fun p s =>
    let w := bytesWords 8 p.payload
    let kind := bits (wd w 0) 3 0
    let id := (wd w 1).toNat
    match kind with
    | 1 => State.sendData p.src id 1 0 (wordsBytes s.cap) (s.answerQuery p.src 1 id 0)
    | 2 =>
      match s.heldLeaf (wd w 3 ++ wd w 2) (wd w 4).toNat with
      | some h =>
        let b := s.content h
        (State.sendData p.src id 8 0 (b.read 0 65536) (s.answerQuery p.src 2 id 0)).emitParcel
          (queryData p.src id 65536 (tagBytes b))
      | none => s.answerQuery p.src 2 id 1
    | 3 =>
      let first := (wd w 5).toNat
      let n := (wd w 6).toNat
      if n ≤ 16384 ∧ first + n ≤ 16777216 then
        State.sendData p.src id 128 0 ((List.range n).flatMap fun i => wordsBytes (s.dir (first + i))) (s.answerQuery p.src 3 id 0)
      else s.answerQuery p.src 3 id 1
    | k => s.answerQuery p.src k id 1)

/-- QUERY_REPLY_RECEIVE: an answer takes its sender off the unreachable list; a leaf not held is asked of the origin. -/
def execQueryReplyReceive (rq : Nat) (s : State) : Host.Outcome State Fault Refusal :=
  .next (s.onParcel rq 8 fun p s =>
    let w := bytesWords 2 p.payload
    let s := s.modFabric fun f => { f with unreachable := f.unreachable.filter (· != p.src) }
    if bits (wd w 0) 3 0 = 2 ∧ bits (wd w 0) 7 4 = 1 then
      match s.fabric.queries.find? fun q => q.id == (wd w 1).toNat with
      | some q => s.askOrigin q
      | none => s
    else s)

/-- A piece of an answer put in its place. -/
def Query.put (q : Query) (off : Nat) (d : List Byte) : Query :=
  let l := InLeaf.put { owner := 0, format := 0, data := q.data, got := q.got, own := none } off d
  { q with data := l.data, got := l.got }

/-- Has a leaf come whole: eight pieces and its tags? -/
def Query.whole (q : Query) : Bool := (List.range 9).all fun i => q.got.contains (8192 * i)

/-- QUERY_DATA_RECEIVE: a piece of a weight leaf; with the last the leaf's copy has arrived. -/
def execQueryDataReceive (rq : Nat) (s : State) : Host.Outcome State Fault Refusal :=
  .next (s.onParcel rq 9 fun p s =>
    match s.fabric.queries.find? fun q => q.id % 65536 == bits (p.ident.setWidth 32) 15 0 with
    | none => s
    | some q =>
      let q := q.put p.token.toNat p.payload
      let s := s.modFabric fun f => { f with queries := f.queries.map fun r => if r.id == q.id then q else r }
      if q.whole then s.weightCopy q.handle q.data else s)

/-- PARCEL_EXPIRY: a parcel not consumed for 10 ms is discarded and counted. -/
def execParcelExpiry (rq : Nat) (s : State) : Host.Outcome State Fault Refusal :=
  .next (match s.rx? rq with
    | some x =>
      if x.takenBy.isSome then s
      else match x.port with
        | some q => (s.dropRx rq).dropAt q
        | none => s.dropRx rq
    | none => s)

/-- UNREACHABLE_QUERY: a listed module asked for its capability table. -/
def execUnreachableQuery (addr : Nat) (s : State) : Host.Outcome State Fault Refusal :=
  .next (
    let a : BitVec 20 := BitVec.ofNat 20 addr
    if s.fabric.unreachable.contains a then
      let id := s.fabric.nextQuery
      (s.modFabric fun f => { f with nextQuery := (id + 1) % 0x100000000 }).query a (queryBytes 1 id 0 0 0 0)
    else s)

/-- LINK_CREDIT_GRANT: parcels that waited for credit go. -/
def execLinkCreditGrant (port units : Nat) (s : State) : Host.Outcome State Fault Refusal :=
  .next (if s.isNative port && (s.fport port).state != 0 then
    let s := s.modFPort port fun k => { k with credits := k.credits + units }
    s.drainTx port
  else s)

end Sys2Proof.Machine
end

