-- ==== Sys2Proof/Machine/Faults.lean ====
section
/-! DEFINITION. Core failure and remap (R471 to R474), maker service (R488), connection faults of the module's outputs (R489,
R490, R520). -/

namespace Sys2Proof.Machine

/-! ### Core failure (R471) -/

/-- CORE_FAILURE. While a held command has a slice in the section the remap waits for its sweep. -/
def execCoreFailure (sec phys : Nat) (s : State) : Host.Outcome State Fault Refusal := .next (s.runFailure sec phys)

/-- The physical core of a logical one fails. -/
def State.failSlice (s : State) (core : Nat) : State :=
  match (s.sect (core / 16)).map[core % 16]? with
  | some p => s.runFailure (core / 16) p
  | none => s

/-- SLICE_REPORT_TIMEOUT: a slice of a command that was killed, or ended at its time limit, has not reported its end: its core
fails. -/
def execSliceReportTimeout (id core : Nat) (s : State) : Host.Outcome State Fault Refusal :=
  .next (match s.cmd? id with
    | some c => if c.phase != .placed || !c.rerun || !c.cores.contains core then s else s.failSlice core
    | none => if id < s.nextCmd then s.failSlice core else s)

/-! ### Maker service (R488) -/

/-- CORES_Sn of a section. -/
def State.coresWord (s : State) (sec : Nat) : W32 := w32 (s.coresOf sec)

/-- CORE_SERVICE: the core is excluded until the next start, and fails. -/
def execCoreService (q tag : Nat) (s : State) : Host.Outcome State Fault Refusal :=
  .next (s.onStarted q tag 0x60 (fun t => !s.heldIn (bits (t.arg 1) 1 0)) fun t =>
    let sec := bits (t.arg 1) 1 0
    let p := bits (t.arg 1) 6 2
    let s := s.recordBy 0x0D t.role q 0 0x60 (t.arg 1)
    if 16 < p then s.finish q tag cAlign 0 0
    else
      let was := s.coreOut sec p
      let s := s.modSect sec fun k => { k with excluded := k.excluded ||| coreBit p }
      let s := if was then s else s.coreFails sec p
      s.finish q tag cDone (s.coresWord sec) 0)

/-- SELF_TEST: the section stops and its cores' contents are lost to the test; the cores that fail are excluded. -/
def execSelfTest (q tag : Nat) (failed : BitVec 17) (s : State) : Host.Outcome State Fault Refusal :=
  .next (s.onStarted q tag 0x61 (fun t => !s.heldIn (bits (t.arg 1) 1 0)) fun t =>
    let sec := bits (t.arg 1) 1 0
    let s := (s.recordBy 0x0D t.role q 0 0x61 (t.arg 1)).stopSection sec
    let s := ((s.ownersOf sec (List.range 16)).foldl (fun s n => s.voidPart n) s).dropVoid
    let s : State := { s with
      coreMem := s.coreMem.moveCores sec fun _ => none
      coreLines := moveLines s.coreLines sec fun _ => none }
    let s := (List.range (s.coresOf sec)).foldl (fun s l => s.loadTables (16 * sec + l)) s
    let new := (List.range 17).filter fun p => failed.getLsbD p && !s.coreOut sec p
    let s := s.modSect sec fun k => { k with excluded := k.excluded ||| failed }
    (new.foldl (fun s p => s.coreFails sec p) s).finish q tag cDone (failed.setWidth 32) 0)

/-- LANE_SERVICE: the lane is excluded until the next start; a native port renegotiates from step 2. -/
def execLaneService (q tag : Nat) (net : NegIn) (s : State) : Host.Outcome State Fault Refusal :=
  .next (s.onStarted q tag 0x62 (fun _ => true) fun t =>
    let p := bits (t.arg 1) 3 0
    let l := bits (t.arg 1) 6 4
    let s := s.recordBy 0x0D t.role q 0 0x62 (t.arg 1)
    if 4 < l then s.finish q tag cAlign 0 0
    else
      let s := s.modFPort p fun k => { k with
        excluded := k.excluded ||| BitVec.ofNat 5 (1 <<< l), noRetry := false
        faults := k.faults.filter fun (f : LaneFault) => f.fault != 7 }
      let s := if !s.isNative p then s else
        let s := s.modFPort p fun k => { k with renegotiations := sat32 (k.renegotiations + 1) }
        let s := if s.partnered p then s.portLost p else s
        (s.beginNegotiation p).negotiateFrom2 p net
      s.finish q tag cDone (w32 (s.fport p).width) 0)

/-- The 32 words of the spare report. -/
def State.spareReport (s : State) : List W32 :=
  let core (n : Nat) : W32 :=
    let k := s.sect n
    w32 ((k.failed ||| k.excluded).toNat + ((if k.map.contains 16 then 16 else 31) <<< 17))
  let port (p : Nat) : W32 :=
    let k := s.fport p
    w32 ((k.faults.foldl (fun (b : BitVec 5) f => b ||| BitVec.ofNat 5 (1 <<< f.lane)) k.excluded).toNat)
  (List.range 4).map core ++ (List.range 16).map port ++ List.replicate 12 0

/-- READ_SPARES. -/
def execReadSpares (q tag : Nat) (s : State) : Host.Outcome State Fault Refusal :=
  .next (s.onStarted q tag 0x64 (fun _ => true) fun t =>
    let s := s.recordBy 0x0D t.role q 0 0x64 0
    (s.toBuffer t (wordsBytes s.spareReport)).finish q tag cDone 0 0)

/-! ### Connection faults of outputs (R489, R490, R520) -/

/-- n of SUBJECT 0x100 + n. -/
def pinNumber (p : Pin) : Nat :=
  match p with
  | .sda => 0
  | .scl => 1
  | .wake => 2
  | .present => 3
  | .sync => 4
  | .uartTx => 5
  | .tdo => 6

/-- An event that the controller reports to the die: logged now, or at the next start. -/
def State.boardLog (s : State) (subject detail : Nat) : State :=
  if s.dieOn then s.log 0 (w32 subject) (w32 detail)
  else { s with board := { s.board with unlogged := s.board.unlogged ++ [subject + (detail <<< 16)] } }

/-- A pin's fault (0 none): a change is kept, and a fault is logged and reported in STATUS. -/
def State.pinFault (s : State) (n fault : Nat) : State :=
  if s.board.pins.getD n 0 = fault then s
  else
    let s : State := { s with board := { s.board with pins := s.board.pins.set n fault } }
    if fault = 0 then s
    else ({ s with board := { s.board with
      faultSubject := BitVec.ofNat 16 (0x100 + n), faultDetail := w32 fault } }).boardLog (0x100 + n) fault

/-- Is an output's circuit powered: the controller's by the auxiliary supply or P54V, TDO and UART TX by the die? -/
def State.pinPowered (s : State) (p : Pin) : Bool :=
  match p with
  | .sync => false
  | .uartTx | .tdo => s.dieOn
  | _ => s.board.auxOk

/-- OUTPUT_SHORT: the readback has disagreed for 10 µs; the driver goes to high impedance. SYNC is no output. -/
def execOutputShort (pin : Pin) (low : Bool) (s : State) : Host.Outcome State Fault Refusal :=
  .next (if s.pinPowered pin then s.pinFault (pinNumber pin) (if low then 1 else 2) else s)

/-- SHORT_RETRY: an output whose readback agrees again returns to normal operation. -/
def execShortRetry (pin : Pin) (good : Bool) (s : State) : Host.Outcome State Fault Refusal :=
  .next (if s.pinPowered pin && good then s.pinFault (pinNumber pin) 0 else s)

/-- PRESENT_TEST: a pin that is still low 1 µs after its release is shorted to ground. -/
def execPresentTest (low : Bool) (s : State) : Host.Outcome State Fault Refusal :=
  .next (if s.board.auxOk && s.board.presentLow && low then s.pinFault 3 1 else s)

/-- INPUT_REVERSED: the controller's status says whether P54V is below −5 V; the module stays off. -/
def execInputReversed (reversed : Bool) (s : State) : Host.Outcome State Fault Refusal :=
  .next (if s.board.auxOk && !s.board.v54Ok then { s with board := { s.board with reversed := reversed } } else s)

end Sys2Proof.Machine
end

