-- ==== Sys2Proof/Machine/Frames.lean ====
section
/-! DEFINITION. CONV (R226 to R237) and POOL (R238, R239), with argument selection (R240, R241). -/

namespace Sys2Proof.Machine

/-- The fields of words 13 to 15 resolved (R122, R226, R231): frames, filter, stride, dilation, pads, fill, repeat, channel
block, input and virtual sizes, output sizes. -/
structure Win where
  frames : Nat
  kerH : Nat
  kerW : Nat
  strH : Nat
  strW : Nat
  dilH : Nat
  dilW : Nat
  padT : Nat
  padL : Nat
  replicate : Bool
  rep : Nat
  cb : Nat
  inH : Nat
  inW : Nat
  vh : Nat
  vw : Nat
  oh : Int
  ow : Int

/-- An output size (R231): the floor is toward minus infinity. -/
def outSize (v pads dil ker str : Nat) : Int := (((v + pads : Nat) : Int) - dil * (ker - 1 : Nat) - 1) / (str : Int) + 1

/-- The window of a CONV or POOL. -/
def winOf (r : Res) : Win :=
  let a := wd r.words 13
  let b := wd r.words 14
  let h := dimOf r.shape (bits (wd r.words 15) 15 0)
  let w := dimOf r.shape (bits (wd r.words 15) 31 16)
  let rep := 1 <<< bits b 22 21
  { frames := r.m, kerH := bits a 23 16, kerW := bits a 31 24, strH := bits a 3 0 + 1, strW := bits a 7 4 + 1,
    dilH := bits a 11 8 + 1, dilW := bits a 15 12 + 1, padT := bits b 4 0, padL := bits b 14 10,
    replicate := b.getLsbD 20, rep := rep, cb := if b.getLsbD 23 then 32 else 16, inH := h, inW := w,
    vh := rep * h, vw := rep * w,
    oh := outSize (rep * h) (bits b 4 0 + bits b 9 5) (bits a 11 8 + 1) (bits a 23 16) (bits a 3 0 + 1),
    ow := outSize (rep * w) (bits b 14 10 + bits b 19 15) (bits a 15 12 + 1) (bits a 31 24) (bits a 7 4 + 1) }

/-- ARGMAX. -/
def argmaxOf (r : Res) : Nat := bits (wd r.words 14) 27 26

/-- Bytes of an image row of w pixels (R226). -/
def imageRow (cb w e : Nat) : Nat := (w * cb * e + 63) / 64 * 64

/-- Bytes of a frame of c channels. -/
def frameBytes (cb c h w e : Nat) : Nat := (c + cb - 1) / cb * h * imageRow cb w e

/-- Byte offset of element (t, c, y, x) (R226). -/
def pixelOff (cb ch h w e t c y x : Nat) : Nat :=
  t * frameBytes cb ch h w e + c / cb * h * imageRow cb w e + y * imageRow cb w e + x * cb * e + c % cb * e

/-- Where the window element of an output at a tap lies in its frame: the source pixel, none in padding (R231, R232). With
FILL 1 and a CONV the padding is the edge. -/
def Win.source (w : Win) (fill : Bool) (oy ox ky kx : Nat) : Option (Nat × Nat) :=
  let y : Int := ((oy * w.strH + ky * w.dilH : Nat) : Int) - w.padT
  let x : Int := ((ox * w.strW + kx * w.dilW : Nat) : Int) - w.padL
  if 0 ≤ y ∧ y < w.vh ∧ 0 ≤ x ∧ x < w.vw then some (y.toNat / w.rep, x.toNat / w.rep)
  else if fill then
    some ((min (max y 0) (w.vh - 1)).toNat / w.rep, (min (max x 0) (w.vw - 1)).toNat / w.rep)
  else none

/-- The value of an element of A as it stands in memory. -/
def State.pixel (s : State) (r : Res) (w : Win) (core b t c y x : Nat) : FVal :=
  let e := elemBits r.a.fmt / 8
  let bs := s.opRead r r.a.space core 0 (r.a.addr + b * r.a.stride + pixelOff w.cb r.k w.inH w.inW e t c y x) e
  decodeElem r.a.fmt (leNat bs)

/-- Channels of a tap, whole channel blocks (R229). -/
def Win.ck (w : Win) (k : Nat) : Nat := (k + w.cb - 1) / w.cb * w.cb

/-- The reduction length (R229). -/
def Win.kLen (w : Win) (k : Nat) : Nat := w.frames * w.kerH * w.kerW * w.ck k

/-- The window of an output pixel as an activation row (R229, R230, R232). -/
def State.windowLine (s : State) (r : Res) (w : Win) (core b m : Nat) : Line :=
  let oy := m / w.ow.toNat
  let ox := m % w.ow.toNat
  let za := ofInt r.a.zp
  let vs := (List.range w.frames).flatMap fun t => (List.range w.kerH).flatMap fun ky =>
    (List.range w.kerW).flatMap fun kx => (List.range (w.ck r.k)).map fun c =>
      if r.k ≤ c then za
      else match w.source w.replicate oy ox ky kx with
        | some p => s.pixel r w core b t c p.1 p.2
        | none => za
  ⟨if r.subtracts r.a r.w then vs.map fun v => fsub v za else vs, []⟩

/-- Results of a pixel from channel n0 on, written channel by channel (R226). -/
def Res.putPixel (r : Res) (w : Win) (core b m n0 : Nat) (ws : List Nat) : List Eff :=
  let e := elemBits r.d.fmt / 8
  (ws.zipIdx).flatMap fun x =>
    let l := r.loc r.d.space core 0 (r.d.addr + b * r.d.stride +
      pixelOff w.cb r.n w.oh.toNat w.ow.toNat e 0 (n0 + x.2) (m / w.ow.toNat) (m % w.ow.toNat))
    [Eff.bytes l.1 l.2 (leBytes e x.1)]

/-- A tile's pixels written. -/
def Res.putPixels (r : Res) (w : Win) (core : Nat) (t : Tile) : List Eff :=
  (t.rows.zipIdx).flatMap fun x => r.putPixel w core t.b (t.m0 + x.2) t.n0 (x.1.map (·.1))

/-- What a frames command writes of its tiles: data, indices or both (R240). -/
def Res.putFrames (r : Res) (w : Win) (core : Nat) (ts : List Tile) : List Eff :=
  (if argmaxOf r = 2 then [] else ts.flatMap (r.putPixels w core)) ++
  (if argmaxOf r = 0 then [] else r.putSelect core true ts)

/-- Output pixels. -/
def Win.pixels (w : Win) : Nat := w.oh.toNat * w.ow.toNat

/-- Nothing to do (R130, R231). -/
def Win.void (w : Win) (r : Res) : Bool :=
  r.m == 0 || r.n == 0 || r.b == 0 || w.inH == 0 || w.inW == 0 || decide (w.oh < 1) || decide (w.ow < 1)

/-- What a frames command reads of A and writes. -/
def frameWrites (r : Res) (w : Win) : List Ext :=
  (if argmaxOf r = 2 then [] else
    [⟨r.d, r.b, frameBytes w.cb r.n w.oh.toNat w.ow.toNat (elemBits r.d.fmt / 8), 0, 0⟩]) ++
  (if argmaxOf r = 0 then [] else [⟨{ r.d with addr := r.d.addr + r.idxOff }, r.b, 4 * w.pixels, 0, 0⟩])

/-- The places along an axis of n virtual places that the windows of a frame read, as source places (R231, R232, R234). -/
def axisReads (out : Int) (ker str dil pad n rep : Nat) (edge : Bool) : List Nat :=
  ((List.range out.toNat).flatMap fun o => (List.range ker).filterMap fun k =>
    let y : Int := ((o * str + k * dil : Nat) : Int) - pad
    if 0 ≤ y ∧ y < n then some (y.toNat / rep) else if edge then some ((min (max y 0) (n - 1)).toNat / rep) else none).eraseDups

/-- What a command reads of its input frames: the blocks that hold a pixel record of some window; a block that no window
touches is not read (R234). -/
def frameReads (r : Res) (w : Win) (edge : Bool) : List Ext :=
  let e := elemBits r.a.fmt / 8
  let xs := axisReads w.ow w.kerW w.strW w.dilW w.padL w.vw w.rep edge
  let blks := (xs.map fun x => x * w.cb * e / 64).eraseDups
  (List.range w.frames).flatMap fun t => (List.range ((r.k + w.cb - 1) / w.cb)).flatMap fun g =>
    (axisReads w.oh w.kerH w.strH w.dilH w.padT w.vh w.rep edge).flatMap fun y => blks.map fun k =>
      ⟨{ r.a with addr := r.a.addr + pixelOff w.cb r.k w.inH w.inW e t (g * w.cb) y 0 + 64 * k }, r.b, 64, 0, 0⟩

/-- CONV on a core: a product of windows and filters, its results written as pixels. -/
def State.convBody (s : State) (r : Res) (w : Win) (gr gc core : Nat) : Cm (List Eff) := do
  let k := w.kLen r.k
  let size := if r.w.scl ≠ 0 then groupSize r.w.scl else 128
  let ts ← s.product r (argmaxOf r != 2) 0 w.pixels r.n k size gr gc core (fun b m => s.windowLine r w core b m)
    fun b n => s.wLine r r.a r.w core b n k
  pure (r.putFrames w core ts)

/-- The work of CONV: the gather unit stages two row tiles of a K-block (R236). -/
def convWork (s : State) (c : Cmd) (r : Res) : Work :=
  let w := winOf r
  let k := w.kLen r.k
  let width := tileWidth r.w.fmt r.plain
  let on := hasSlice r w.pixels r.n width
  let frames := if k = 0 then [] else frameReads r w w.replicate
  { empty := w.void r
    reads := if k = 0 then [] else frames ++ [colExt r.w r.b r.n k]
    first := frames
    readers := s.readersOf r r.w k fun gr gc => if on gr gc then r.weightRows (sliceIdx r.n width r.gridCols gc) else []
    writes := frameWrites r w
    fault := tileFault r r.w.fmt (weightBytesOf r.w r.n k width)
    skewed := s.pairSkew r r.w k fun _ gc => sliceIdx r.n width r.gridCols gc
    staged := stagedOf r { r.a with space := 1 } k on
    vec := if argmaxOf r = 0 then [] else pairBytes r w.pixels r.n
    order := s.productOrder r c.id w.pixels r.n k
    body := gridBody r (s.convBody r w) }

/-- CONV. -/
def execConv (id : Nat) (s : State) : Host.Outcome State Fault Refusal := .next (s.issue id 0x05 convWork)

/-! ### POOL -/

/-- The values of channel c in the window of an output pixel, padding left out, in ascending (t, ky, kx) (R238). -/
def State.poolVals (s : State) (r : Res) (w : Win) (core b m c : Nat) : List FVal :=
  (List.range w.frames).flatMap fun t => (List.range w.kerH).flatMap fun ky => (List.range w.kerW).filterMap fun kx =>
    (w.source false (m / w.ow.toNat) (m % w.ow.toNat) ky kx).map fun p => toVec (s.pixel r w core b t c p.1 p.2)

/-- A pooled value on lane l (R238). -/
def poolOne (avg : Bool) (l : Nat) (xs : List FVal) : Cm FVal :=
  match xs with
  | [] => do
    noteEmpty
    noteNan
    pure .nan
  | x :: rest =>
    if avg then do
      let t ← xs.foldlM (fun acc v => stoC l (fadd acc v)) fzero
      let q ← transcC 1 (rne32 (ofNat xs.length))
      rneC (fmul t q)
    else note (rest.foldl (pick true) x)

/-- POOL on a core: pixels ascending, channels of the core's columns ascending (R239). -/
def State.poolBody (s : State) (r : Res) (w : Win) (gr gc core : Nat) : Cm (List Eff) := do
  let avg := bits (wd r.words 14) 25 24 == 1
  let todo := (List.range r.b).flatMap fun b => (sliceIdx w.pixels r.tileM r.gridRows gr).map fun m => (b, m)
  let ts ← todo.mapM fun bm => (tilesOf r.n 128 r.gridCols gc).mapM fun u => do
    let out ← (List.range (min 128 (r.n - 128 * u))).mapM fun l => do
      let c := 128 * u + l
      let p ← poolOne avg l (s.poolVals r w core bm.1 bm.2 c)
      let y0 ← rneC (fsub p (ofInt r.a.zp))
      r.drainOne (argmaxOf r != 2) (s.epiAt r core (bm.1 * epiUnits r.n) c) l r.k 0 0 y0 fzero
    pure (⟨bm.1, bm.2, 128 * u, [out]⟩ : Tile)
  pure (r.putFrames w core ts.flatten)

/-- The work of POOL. A resolved N other than K is refused (R228). -/
def poolWork (s : State) (_ : Cmd) (r : Res) : Work :=
  let w := winOf r
  { refuse := if r.n != r.k then cAlign else cDone
    empty := w.void r
    reads := if r.k = 0 then [] else frameReads r w false
    writes := frameWrites r w
    vec := if argmaxOf r = 0 then [] else pairBytes r w.pixels r.n
    passes := 1
    body := gridBody r (s.poolBody r w) }

/-- POOL. -/
def execPool (id : Nat) (s : State) : Host.Outcome State Fault Refusal := .next (s.issue id 0x06 poolWork)

end Sys2Proof.Machine
end

