-- ==== Sys2Proof/Machine/Leafops.lean ====
section
/-! DEFINITION. FORK (R172 to R174), the three operations of LEAF (R171) and FENCE (R124). -/

namespace Sys2Proof.Machine

/-- The streams of the rows of a command, each once, in ascending row: those a run covers; in a service cycle, which has no
runs, all of them; in a training wave, which changes no stream (R375), none. -/
def rowStreams (c : Cmd) (r : Res) : List Nat :=
  if c.trains then [] else
  (((List.range r.m).filter fun m => c.origin == .service || (r.shape.runOf m).isSome).map r.shape.streamOf).eraseDups

/-- Work that writes effects and reads no operand; with M, N or B = 0 it does nothing (R130). -/
def rowWork (r : Res) (effs : List Eff) : Work :=
  { empty := r.m == 0 || r.n == 0 || r.b == 0, body := [(r.base, pure effs)] }

/-! ### FORK -/

/-- The work of FORK: the parents' roots are pinned, and each row makes its child. -/
def forkWork (s : State) (c : Cmd) (r : Res) : Work :=
  let kids := rowStreams c r
  { rowWork r (kids.map fun i => .child i (s.stream i).parent Config.nullHandle (s.stream i).prio Config.nullHandle) with
    pins := (kids.filter fun i => !(s.stream i).live).map fun i => (s.stream (s.stream i).parent).spineRoot }

/-- FORK. -/
def execFork (id : Nat) (s : State) : Host.Outcome State Fault Refusal := .next (s.issue id 0x0D forkWork)

/-! ### LEAF -/

/-- LOP. -/
def leafOp (ws : List W32) : Nat := bits (wd ws 13) 1 0

/-- A LEAF of one operation issues. -/
def State.issueLeaf (s : State) (id lop : Nat) (w : State → Cmd → Res → Work) : State :=
  match s.cmd? id with
  | some c => if leafOp c.words = lop then s.issue id 0x0E w else s
  | none => s

/-- The work of LEAF append: the paths of every run's positions. -/
def appendWork (_ : State) (c : Cmd) (r : Res) : Work :=
  rowWork r (if c.trains then [] else (r.shape.runs.filter fun u => decide (u.rowFirst < r.m)).map fun u =>
    .path (r.shape.streamOf u.rowFirst) u.qPos0 u.rowCount)

/-- LEAF append. -/
def execLeafAppend (id : Nat) (s : State) : Host.Outcome State Fault Refusal := .next (s.issueLeaf id 0 appendWork)

/-- The position a trim leaves. -/
def State.trimPos (s : State) (r : Res) (i : Nat) : Nat := (s.stream i).position - (wd r.words 14).toNat

/-- Does a trim of a KV4G history end inside a sealed group? -/
def State.trimRefused (s : State) (r : Res) (i : Nat) : Bool :=
  let e := s.stream i
  let pos := s.trimPos r i
  !s.rootKv8 e.spineRoot && pos % 32 != 0 && decide (pos < e.position / 32 * 32)

/-- The work of LEAF trim. -/
def trimWork (s : State) (c : Cmd) (r : Res) : Work :=
  let on := rowStreams c r
  { rowWork r (on.map fun i => .trim i (s.trimPos r i)) with
    refuse := if on.any (s.trimRefused r) then cAlign else cDone }

/-- LEAF trim. -/
def execLeafTrim (id : Nat) (s : State) : Host.Outcome State Fault Refusal := .next (s.issueLeaf id 1 trimWork)

/-- The work of LEAF free. -/
def freeWork (_ : State) (c : Cmd) (r : Res) : Work := rowWork r ((rowStreams c r).map .free)

/-- LEAF free. -/
def execLeafFree (id : Nat) (s : State) : Host.Outcome State Fault Refusal := .next (s.issueLeaf id 2 freeWork)

/-! ### FENCE -/

/-- Does an earlier command's grid meet a FENCE's scope? Scope 0 speaks of the core CORE_BASE names and scope 2 of that core's
section, also where the grid has more cores (DESIGN CHOICE, log 150). -/
def inScope (c x : Cmd) : Bool :=
  match bits (wd c.words 13) 1 0 with
  | 0 => x.cores.contains (bits (wd c.words 3) 17 12)
  | 1 => x.cores.any c.cores.contains
  | 2 => x.home == c.home || x.cores.any fun k => k / 16 == c.home
  | _ => true

/-- Do all earlier commands of the plan in a FENCE's scope have their end? -/
def State.fenceOpen (s : State) (id : Nat) : Bool :=
  match s.cmd? id with
  | some c => !((s.before c).any (inScope c))
  | none => false

/-- FENCE: it issues when every earlier command of its scope has committed or been killed. -/
def execFence (id : Nat) (s : State) : Host.Outcome State Fault Refusal :=
  .next (if s.fenceOpen id then s.issue id 0x10 fun _ _ r => rowWork r [] else s)

end Sys2Proof.Machine
end

