-- ==== Sys2Proof/Machine/Power.lean ====
section
/-! DEFINITION. Starts (R14, R442, R451 to R453, R472, R510), the power ladder (R492 to R500), supplies (R506, R514, R516, R533),
the sideband (R499, R521, R522), telemetry and throttling (R501 to R505), the debug stop (R526). -/

namespace Sys2Proof.Machine

/-- Power management changed. -/
def State.modPower (s : State) (f : Power → Power) : State := { s with power := f s.power }

/-! ### What a start clears -/

/-- The seventeen cores of a section mapped: the working ones in ascending physical order, the seventeenth spare (R14). -/
def mapOf (out : BitVec 17) : List Nat × Option Nat :=
  let ok := (List.range 17).filter fun p => !out.getLsbD p
  (ok.take 16, ok[16]?)

/-- Every section's cores mapped from its failed ones. -/
def State.mapAll (s : State) : State :=
  (List.range 4).foldl (fun s sec =>
    let m := mapOf (s.sect sec).failed
    s.mapCores sec m.1 m.2) s

/-- A port as a start leaves it: negotiating if native, down if edge, else off; its counters and check-value unit go on. -/
def State.portInit (s : State) (p : Nat) (k : FPort) : FPort :=
  let mode := if s.power.next = 1 then bits (s.portWord p) 1 0 else 0
  { FPort.reset with
    mode := mode, state := if mode = 1 then 1 else if mode = 2 then 4 else 0, cvu := k.cvu
    fecCorrected := k.fecCorrected, fecUncorrected := k.fecUncorrected, mismatches := k.mismatches, dropped := k.dropped
    renegotiations := k.renegotiations }

/-- The ports set from the imprint. -/
def State.initPorts (s : State) : State :=
  s.modFabric fun f => { f with
    ports := f.ports.zipIdx.map fun x => s.portInit x.2 x.1, ctxs := [], nextQuery := 0 }

/-- What the cask and the module's tables held is gone; the cellar rebuilds, the governor's bucket is empty (R290, R305). -/
def State.clearStart (s : State) : State :=
  let s := s.clearCask
  let s : State := { s with
    slots := s.slots.map fun _ => Slot.empty, buddy := Buddy.reset, cap := List.replicate 16 0
    rack := { Rack.reset with choices := s.rack.choices } }
  s.modCellar fun c => { c with
    level := 0, peakAt := 0, indexDue := 0, belowMin := false, rebuilding := true, ready := false }

/-- Records that waited for the die: the controller's events, and a thermal trip (R499, R506). -/
def State.logBoard (s : State) : State :=
  let s := s.board.unlogged.foldl (fun (s : State) n => s.log 0 (w32 (n % 65536)) (w32 (n / 65536))) s
  let s := if s.board.tripUnlogged then s.attention 5 cThermal 0 0 else s
  { s with board := { s.board with unlogged := [], tripUnlogged := false } }

/-- Memory ports at a start: all train; a warm start restores what it can (R264, R266). -/
def State.startPorts (s : State) (cold : Bool) (reads : List PortRead) : State :=
  let s : State := { s with mem := s.mem.map fun (k : MemPort) =>
    { k with state := 1, restored := false, cause := 0, temp := 0, hot := false, recent := [] } }
  if cold then s else s.restorePorts (List.range 16) reads

/-- Cores at a start: a cold start's self-test makes the core record, a warm start reads it (R472). -/
def State.startCores (s : State) (cold : Bool) (test : List (BitVec 17)) : State :=
  let found := (List.range 4).map fun sec => test.getD sec 0
  let new := if cold then (List.range 4).flatMap fun sec => ((List.range 17).filter fun p =>
      (found.getD sec 0).getLsbD p && !(s.nor.coreRecord.getD sec 0).getLsbD p).map fun p => (sec, p) else []
  let s : State := if cold then { s with nor := { s.nor with coreRecord := found } } else s
  let s : State := { s with sects := s.sects.zipIdx.map fun x =>
    { x.1 with failed := s.nor.coreRecord.getD x.2 0, excluded := 0, failing := [] } }
  new.foldl (fun s x => s.attention 2 0 (w32 (x.1 + (x.2 <<< 2))) 0) s.mapAll

/-- The end of a start: the map laid out, Ready, the capability table and the colophon computed; CAP_SERIAL 0. -/
def State.endStart (s : State) : State :=
  let s := s.layCask.modPower fun p => { p with state := .ready, training := false }
  (({ s with cap := capWords s.capNow 0 }).recolophon).emit (.console (.ended s.power.config))

/-- Maker service (R442, R448): no imprint is read, nothing is trained. -/
def State.makerService (s : State) : State :=
  (({ s with
      mem := s.mem.map fun (k : MemPort) => { k with state := 0, restored := false, cause := 0, temp := 0, hot := false }
      cap := capWords s.capNow 0 }).modPower fun p => { p with state := .ready, config := 4, training := false }).emit
    (.console (.ended 4))

/-- A start from the read of the firmware on; derive tells that the identity is derived first, as after power-up (R442, R510). -/
def State.startFrom (s : State) (cold derive : Bool) (start : StartIn) : State :=
  let bad := derive && decide (4 ≤ start.pufFails)
  let s : State := { s with
    time := TimeBase.reset
    ident := { s.ident with
      identityOk := if derive then !bad else s.ident.identityOk, imprint := none, firmware := none, window := none,
      colophon := 0, debugStop := false } }
  let s := s.modPower fun p => { p with
    state := .starting, config := 0, next := 0, entry := none, wakeAt := 0, training := true, queuedWake := false
    sbStandby := false, cold := false, energy := 0, telemetry := [] }
  let s := if bad then s.attention 7 0 0 0 else s
  let s : State := { s with time := { s.time with counting := true }, port := { s.port with simmerOff := 0 } }.quench fun _ => true
  let s := if bad then
      let k := (s.nor.order.find? fun k => ((s.nor.fwOf k).map (·.sigOk)).getD false).getD s.nor.preferred
      ({ s with ident := { s.ident with runSlot := k, firmware := s.nor.fwOf k } }).modPower fun p => { p with next := 4 }
    else s.selectSlot
  let d := s.draw
  let s : State := { d.2 with ident := { d.2.ident with startId := d.1 } }
  let s := s.emit (.console (.slot s.ident.runSlot))
  let s := s.record 0x01 0 (w32 s.ident.runSlot) ((s.ident.imprint.map imprintVersion).getD 0)
  let s := s.logBoard.clearStart.initPorts
  if s.power.next = 4 then (if bad then s else s.attention 7 0 0 0).makerService
  else
    let s := (s.startCores cold start.selfTest).startPorts cold start.ports
    if s.portsDone then s.endStart else s

/-! ### Stopping -/

/-- Every DMA channel that is not idle, aborted. -/
def State.abortDma (s : State) : State :=
  ((List.range 4).flatMap fun e => (List.range 8).map fun c => (e, c)).foldl (fun s x =>
    let ch := s.channel x.1 x.2
    if ch.state = 0 then s else s.abortChannel x.1 x.2 ch) s

/-- Steps 2 to 6 of a stop (R453). -/
def State.stopAll (s : State) : State :=
  let s := ((s.killAll cStale).endRequests cStale).freeStreams.abortDma
  let s : State := { s with port := { s.port with started := [] } }
  ((List.range 16).foldl (fun s q => s.disableQueue q) s).closeWindow 0 0

/-- What the loss of power leaves: the NOR flash, the cellar's frames and maps, the board management controller. A record still
being folded is lost. -/
def State.loseVolatile (s : State) : State :=
  { State.reset with
    pending := s.pending, out := s.out, draws := s.draws, nor := s.nor
    port := s.port.blank, sects := s.sects.map fun _ => Sect.reset, cores := s.cores.map fun _ => CoreSt.reset
    mem := s.mem.map fun _ => MemPort.reset, slots := s.slots.map fun _ => Slot.empty
    parts := s.parts.map fun _ => Partition.reset, logs := s.logs.map fun _ => []
    fabric := { Fabric.reset with ports := s.fabric.ports.map fun _ => FPort.reset }
    channels := s.channels.map fun _ => Channel64.reset
    errata := { s.errata with fold := none }
    rack := { Rack.reset with choices := s.rack.choices }
    cellar := { s.cellar with
      level := 0, peakAt := 0, indexDue := 0, belowMin := false, rebuilding := false, ready := false, stalls := 0, retries := 0,
      uncorrectable := 0 }
    board := { s.board with wake := false, powerIn := 0 }
    power := { Power.reset with cold := s.power.cold } }

/-! ### Supplies -/

/-- The frames of the write buffer that were not programmed are lost; a handle's last frame that reached NAND is current again
(R308); mirrored errata among the lost count as unmirrored. -/
def State.loseBuffer (s : State) : State :=
  let lost := s.cellar.frames.filter fun f => !f.2.programmed
  let kept := s.cellar.frames.filter fun f => f.2.programmed
  let same (a b : CellarFrame) : Bool := a.handle == b.handle && a.kind == b.kind && a.slot == b.slot && a.w5 == b.w5
  let revive (f : Nat × CellarFrame) : Bool :=
    lost.any (fun g => g.2.current && same g.2 f.2) &&
    kept.all fun g => !same g.2 f.2 || decide (g.2.writeSeq ≤ f.2.writeSeq)
  let errs := (lost.filter fun f => f.2.current && f.2.kind == 8 && bits f.2.w4 21 20 == 2).map fun f =>
    f.2.w5.toNat + ((bits f.2.w6 31 16) <<< 32) - 1
  { s.modCellar fun c => { c with
      frames := kept.map fun f => (f.1, { f.2 with current := f.2.current || revive f }) } with
    errata := { s.errata with mirrored := errs.foldl min s.errata.mirrored } }

/-- Power removed without warning: an unplanned Standby, or off without auxiliary power; the next start is cold. -/
def State.unplanned (s : State) : State :=
  s.loseBuffer.loseVolatile.modPower fun p => { p with
    cold := true, state := if s.board.auxOk then .standby else .off }

/-- SUPPLY_TURN_ON: both supplies reported in range; a module without power starts. -/
def execSupplyTurnOn (s : State) : Host.Outcome State Fault Refusal :=
  .next (if s.board.auxOk && !s.board.v54Ok && s.power.state == .standby then
    ({ s with board := { s.board with v54Ok := true, reversed := false } }).modPower fun p => { p with queuedWake := true }
  else s)

/-- The 54 V input is lost. -/
def State.inputLost (s : State) : State :=
  if s.board.v54Ok then ({ s with board := { s.board with v54Ok := false } }).unplanned else s

def execUndervoltage (s : State) : Host.Outcome State Fault Refusal := .next s.inputLost

/-- OVERVOLTAGE: the controller opens, with the effect of an undervoltage. -/
def execOvervoltage (s : State) : Host.Outcome State Fault Refusal := .next s.inputLost

/-- AUX_POWER_APPLIED: the straps are sampled; a controller that was without power starts, and drives PRESENT# low. -/
def execAuxPowerApplied (straps : BitVec 2) (s : State) : Host.Outcome State Fault Refusal :=
  .next (if s.board.auxOk then s
    else if s.power.state == .off then
      ({ s with board := { Board.reset with straps := straps, pins := s.board.pins.map fun _ => 0 } }).modPower fun p => { p with state := .standby }
    else { s with board := { s.board with auxOk := true, straps := straps, presentLow := true } })

/-- AUX_POWER_LOST: a module that runs from P54V runs on, with a record and degraded attention; in Standby it is off. -/
def execAuxPowerLost (s : State) : Host.Outcome State Fault Refusal :=
  .next (if !s.board.auxOk then s
    else
      let s : State := { s with board := { s.board with auxOk := false, trip := false, presentLow := false } }
      if s.power.state == .standby then
        ({ s with board := { s.board with v54Ok := false } }).modPower fun p => { p with state := .off, cold := true }
      else s.attention 2 0 0 0)

/-- THERMAL_TRIP: an unplanned Standby, kept for STATUS and the next start's log (R506). -/
def execThermalTrip (s : State) : Host.Outcome State Fault Refusal :=
  .next (if s.power.state == .standby || s.power.state == .off then s
    else { s.unplanned with board := { s.unplanned.board with trip := true, tripUnlogged := true } })

/-! ### Starts -/

/-- COLD_START: both supplies in range after they were not. -/
def execColdStart (start : StartIn) (s : State) : Host.Outcome State Fault Refusal :=
  .next (if s.power.state == .standby && s.board.v54Ok && s.board.auxOk && s.power.cold && s.power.queuedWake then
    s.startFrom true true start else s)

/-- EXIT_STANDBY: a wake event leaves a planned Standby by a warm start. -/
def execExitStandby (start : StartIn) (s : State) : Host.Outcome State Fault Refusal :=
  .next (if s.power.state == .standby && s.board.v54Ok && !s.power.cold && s.power.queuedWake then
    s.startFrom false true start else s)

/-- CASK_TRAINING_DONE: the trained ports enter service or leave it; when none trains any more, a start, a cask restart or an
exit from Dormant goes on. A port that an exit from Dormant loses brings a cask restart (R264, R265, R269). -/
def execCaskTrainingDone (results : List PortTrain) (s : State) : Host.Outcome State Fault Refusal :=
  .next (
    let was := s.portsDone
    let s := results.foldl (fun s r => s.trained r) s
    if was || !s.portsDone then s
    else if s.power.config = 3 then s.caskBack
    else if s.power.state != .starting then s
    else if s.power.config = 0 then s.endStart
    else
      let s := s.modPower fun p => { p with state := .ready, training := false }
      match results.find? fun r => !r.ok with
      | some r => s.caskRestart r.port
      | none => s)

/-- RESTART: its completion, the stop, and a warm start without loss of power (R453). -/
def execRestart (q tag : Nat) (start : StartIn) (s : State) : Host.Outcome State Fault Refusal :=
  .next (s.onStarted q tag 0x53 (fun _ => true) fun t =>
    ((s.finish q tag cDone 0 0).recordBy 0x0E t.role q 0 0 0).stopAll.startFrom false false start)

/-- DEBUG_INSTRUCTION: with a maker session the first use stops service and leaves CONFIG 4, in which no colophon is published
(R466); without one the instruction acts as
BYPASS and is recorded (R526). -/
def execDebugInstruction (s : State) : Host.Outcome State Fault Refusal :=
  .next (if !s.dieOn then s
    else if s.ident.debugStop then s
    else if s.port.queues.any fun k => k.role == 3 then
      let s := s.stopAll
      (({ s with ident := { s.ident with debugStop := true } }).modPower fun p => { p with config := 4 }).recolophon
    else s.log 0 0 0)

/-! ### Run and Ready (R494) -/

/-- Is no DMA channel armed, running or halted? -/
def State.dmaIdle (s : State) : Bool := s.port.engines.all fun e => e.channels.all fun c => c.state == 0

/-- ENTER_READY: nothing has run for 10 µs; simmer stops. -/
def execEnterReady (s : State) : Host.Outcome State Fault Refusal :=
  .next (if s.power.state == .run && s.cmds.isEmpty && s.dmaIdle && s.parts.all (fun p => p.cycle.isNone) then
    (s.quench fun _ => true).modPower fun p => { p with state := .ready }
  else s)

/-- RETURN_TO_RUN. -/
def execReturnToRun (s : State) : Host.Outcome State Fault Refusal :=
  .next (if s.power.state == .ready && s.power.config != 0 then s.modPower fun p => { p with state := .run } else s)

/-! ### Entry to the lower states (R495 to R497) -/

/-- May an entry begin: Run or Ready, none under way? -/
def State.mayEnter (s : State) : Bool :=
  (s.power.state == .run || s.power.state == .ready) && s.power.config != 0 && s.power.entry.isNone

/-- A POWER_SET of a STATE begins an entry; its completion waits for the target state. -/
def State.powerSet (s : State) (q tag : Nat) (state : Nat) (denied : Started → Bool) (short : Bool) : State :=
  s.onStarted q tag 0x41 (fun t => bits (t.arg 1) 2 0 == state && s.mayEnter) fun t =>
    if denied t then s.finish q tag cRole 0 0
    else if short then s.finish q tag cOverflow (w32 (if s.power.state == .run then 0 else 1)) 0
    else (s.modStarted q tag fun t => { t with begun := true }).modPower fun p => { p with
      entry := some (state, some (q, tag)), wakeAt := t.arg 3 ++ t.arg 2 }

/-- POWER_SET to Rest. -/
def execPowerSetRest (q tag : Nat) (s : State) : Host.Outcome State Fault Refusal :=
  .next (s.powerSet q tag 2 (fun _ => false) false)

/-- POWER_SET to Dormant: an operator needs OP_DORMANT. -/
def execPowerSetDormant (q tag : Nat) (s : State) : Host.Outcome State Fault Refusal :=
  .next (s.powerSet q tag 3 (fun t => t.role == 1 && !(s.sys 53).getLsbD 16) false)

/-- POWER_SET to Standby: an operator needs OP_STANDBY; without auxiliary power it ends with RESOURCE_OVERFLOW (R533). -/
def execPowerSetStandby (q tag : Nat) (s : State) : Host.Outcome State Fault Refusal :=
  .next (s.powerSet q tag 4 (fun t => t.role == 1 && !(s.sys 53).getLsbD 17) (!s.board.auxOk))

/-- AUTO_REST: Ready has lasted REST_AFTER. -/
def execAutoRest (s : State) : Host.Outcome State Fault Refusal :=
  .next (if s.mayEnter && s.power.state == .ready && bits (s.sys 53) 15 0 != 0 then
    s.modPower fun p => { p with entry := some (2, none), wakeAt := 0 } else s)

/-- What an entry waits for has come about (R495). -/
def State.quiet (s : State) : Bool :=
  s.parts.all (fun p => p.cycle.isNone) && s.cmds.all (fun c => c.phase == .placed && c.origin != .service) && s.dmaIdle &&
  s.channels.all (fun c => c.state == 0 || c.state == 3) && (s.malt.updState == 0 || s.malt.updState == 2)

/-- The bytes of the Dormant image (R496): fixed regions, units of the plan region and of the directory, module tables. -/
def State.imageBytes (s : State) : Nat :=
  let dir := ((s.fabric.directory.map fun e => e.1 / 1024).eraseDups).length
  0x800000 + 65536 * ((s.plans.map (·.regionUnits)).foldl (· + ·) 0 + dir) + 0x10000000

/-- The code with which an entry's POWER_SET completes, and the state reached. -/
def State.endEntry (s : State) (code : Code) (state : Nat) : State :=
  match s.power.entry with
  | some (_, some (q, tag)) => s.finish q tag code (w32 state) 0
  | _ => s

/-- One leaf written back within the governor and the cellar quota (R279). -/
def State.writeBackNow (s : State) (h : Handle) : State :=
  if !s.govOpen || s.cellar.belowMin || s.cellarFull (s.leaf h).partition then s
  else
    let s := s.endMove h
    match s.acceptFrame h (s.content h) with
    | some (f, t) => (t.govTake.enterFrame h f).modLeaf h fun e => { e with dirty := false }
    | none => s

/-- The leaves an entry to Dormant writes back: every dirty one (R308) that is not poisoned (R252, R287). -/
def State.dormantDue (s : State) : List Handle :=
  (s.rack.leaves.filter fun e => !e.2.poisoned && (e.2.dirty || (e.2.inCask && !e.2.inCellar && !e.2.remote && !e.2.pending))).map (·.1)

/-- The leaves an entry to Standby writes back: weights that are dirty or whose frame has an older key (R400, R496). -/
def State.standbyDue (s : State) : List Handle :=
  (s.rack.leaves.filter fun e => !e.2.poisoned && e.2.format == 0 &&
    match s.weightPlace e.1 with
    | some (j, _) => e.2.dirty || (e.2.inCellar &&
        ((s.cellarFrame? e.2.cellarFrame).map (·.key)).getD (s.slot j).key != (s.slot j).key)
    | none => e.2.dirty).map (·.1)

/-- Every racking move ended, a leaf that only its move has kept released (R310). -/
def State.endMoves (s : State) : State :=
  s.rack.moves.foldl (fun s m => (s.endMove m.handle).releaseMoved m.handle) s

/-- The write buffer programmed. -/
def State.programAll (s : State) : State :=
  s.modCellar fun c => { c with
    frames := (c.frames.filter fun f => f.2.programmed || f.2.current).map fun f => (f.1, { f.2 with programmed := true }) }

/-- The entry is over: the state is reached; a sideband STANDBY that came meanwhile follows. -/
def State.settleIn (s : State) (t : PowerState) : State :=
  (s.quench fun _ => true).modPower fun p => { p with
    state := t, entry := if p.sbStandby && t != .standby then some (4, none) else none, sbStandby := false }

/-- The ports go to electrical idle (R496): a native port loses its negotiation, after which the capability table is
recomputed (R32). -/
def State.idlePorts (s : State) : State :=
  s.modFabric fun f => { f with ports := f.ports.map fun (k : FPort) =>
    if k.mode = 0 then k
    else { k with state := 4, rate := 0, width := 0, spareUsed := false, credits := 0, txQueue := [], timeParcel := none, offsets := [] } }

/-- Entry to Rest. -/
def State.enterRest (s : State) : State := ((s.endEntry cDone 2).idlePorts.recapAs false cPartner).settleIn .rest

/-- Entry to Dormant once no leaf is due: no copy above the cellar remains; each entry keeps its other fields (R308). -/
def State.enterDormant (s : State) : State :=
  let s := ((s.endEntry cDone 3).idlePorts.recapAs false cPartner).rewriteTraining.endMoves.programAll
  let s : State := { s with
    errata := s.errata.flush s.now
    port := { s.port with linkUp := false }
    rack := { s.rack with
      moves := [], pool := [], ss := [], corePins := []
      leaves := s.rack.leaves.map fun e => (e.1, { e.2 with
        inSs := false, inCask := false, moving := false }) }
    coreMem := Bytes.blank, coreLines := [], sectMem := Bytes.blank, sectLines := []
    mem := s.mem.map fun (k : MemPort) => if k.state = 2 then { k with state := 0 } else k }
  s.settleIn .dormant

/-- Entry to Standby once no weight leaf is due. A doorbell that came meanwhile wakes the module (R495). -/
def State.enterStandby (s : State) : State :=
  let s := ((s.endEntry cDone 4).stopAll.record 0x0E 0 0 0).rewriteTraining.programAll
  let s : State := { s with
    errata := s.errata.flush s.now
    cellar := { s.cellar with dies := s.cellar.dies.map fun (d : Die) => { d with journal := 0 } } }
  s.loseVolatile.modPower fun p => { p with state := .standby, cold := false, queuedWake := s.power.queuedWake }

/-- POWER_ENTRY_COMPLETE: an entry goes on as far as it can: it waits for what R495 names, and for the governor at each leaf it
writes back; a Dormant image that is too large ends it (R497). -/
def execPowerEntryComplete (s : State) : Host.Outcome State Fault Refusal :=
  .next (match s.power.entry with
    | none => s
    | some (t, _) =>
      if !s.quiet then s
      else match t with
        | 2 => s.enterRest
        | 3 =>
          if 0x80000000 < s.imageBytes then
            ((s.endEntry cOverflow 1).quench fun _ => true).modPower fun p => { p with
              state := .ready, entry := if p.sbStandby then some (4, none) else none, sbStandby := false }
          else
            let s := s.dormantDue.foldl (fun s h => s.writeBackNow h) s
            if s.dormantDue.isEmpty then s.enterDormant else s
        | 4 =>
          let s := s.standbyDue.foldl (fun s h => s.writeBackNow h) s
          if !s.standbyDue.isEmpty then s
          else
            let s := (s.modCellar fun c => { c with indexDue := max 1 c.indexDue }).payIndex
            if s.cellar.indexDue = 0 then s.enterStandby else s
        | _ => s)

/-! ### Exits (R498) -/

/-- A wake event of Rest, Dormant or Standby; from Dormant WAKE# is asserted until the link has been retrained. -/
def State.wakeEvent (s : State) : State :=
  if s.power.state == .rest || s.power.state == .dormant || s.power.state == .standby then
    { s.modPower fun p => { p with queuedWake := true } with
      board := { s.board with wake := s.board.wake || s.power.state == .dormant } }
  else s

/-- WAKE_AT_REACHED: in Rest or Dormant. -/
def execWakeAtReached (s : State) : Host.Outcome State Fault Refusal :=
  .next (if (s.power.state == .rest || s.power.state == .dormant) && s.power.wakeAt != 0 &&
      decide (s.power.wakeAt.toNat ≤ s.now.toNat) then
    s.wakeEvent.modPower fun p => { p with wakeAt := 0 } else s)

/-- Native ports negotiate again. -/
def State.wakePorts (s : State) : State :=
  s.modFabric fun f => { f with ports := f.ports.map fun (k : FPort) => if k.mode = 1 && !k.noRetry then { k with state := 1 } else k }

/-- EXIT_REST. -/
def execExitRest (s : State) : Host.Outcome State Fault Refusal :=
  .next (if s.power.state == .rest && s.power.queuedWake && s.power.entry.isNone then
    s.wakePorts.modPower fun p => { p with state := .ready, queuedWake := false } else s)

/-- The registers that an exit from Dormant returns to their reset values (R12), with what the section stores and module tables
keep. -/
def State.dormantRegs (s : State) : State :=
  let port : Port := { s.port.blank with
    started := s.port.started.map fun (t : Started) => { t with discard := true, chan := none, bufBytes := 0 }
    simmerOff := s.port.simmerOff, hostClock := s.port.hostClock }
  { s with
    port := port
    parts := s.parts.map fun (p : Partition) => { p with waves := 0, overruns := 0, suspensions := 0, preemptKills := 0 }
    cellar := { s.cellar with stalls := 0, retries := 0, uncorrectable := 0 }
    malt := { s.malt with
      updSlot := 0, updSet := 0, applied := 0, skipped := 0, nonfinite := 0, masterUncorr := 0, publishes := 0, lastPublish := 0 }
    channels := s.channels.map fun (c : Channel64) => { c with
      attempt := 0, lastCause := 0, step := 0, blocksDone := 0, saturations := 0, backups := 0, late := 0, lastHop := 0
      globalSat := 0 }
    fabric := { s.fabric with ports := s.fabric.ports.map fun (k : FPort) =>
      { FPort.reset with mode := k.mode, state := k.state, excluded := k.excluded, faults := k.faults, noRetry := k.noRetry,
                         everUp := k.everUp, logged := k.logged } }
    cores := s.cores.map fun _ => CoreSt.reset
    mem := s.mem.map fun (k : MemPort) => { k with
      corrected := 0, uncorrected := 0, lastUncorr := 0, temp := 0, hot := false, restored := false }
    time := { s.time with source := none, steer := 0 } }

/-- EXIT_DORMANT: the cask's ports restore their training; core tables come back from the plan region, leaves with TIER_PINNED are
promoted first. -/
def execExitDormant (ports : List PortRead) (s : State) : Host.Outcome State Fault Refusal :=
  .next (if s.power.state == .dormant && s.power.queuedWake && s.power.entry.isNone then
    let up := (List.range 16).filter fun p => (s.memPort p).state == 0
    let s := (s.dormantRegs.wakePorts).restorePorts up ports
    let s := (List.range 64).foldl (fun s c => s.loadTables c) s
    let s := ((s.rack.leaves.filter fun e => e.2.tierPinned).map (·.1)).foldl (fun s h => s.promote h) s
    s.modPower fun p => { p with
      state := if s.portsDone then .ready else .starting, training := !s.portsDone, queuedWake := false }
  else s)

/-! ### The sideband (R499, R522) -/

/-- STATE as STATUS and POWER_SET code it. -/
def stateCode (p : PowerState) : Nat :=
  match p with
  | .run => 0
  | .ready => 1
  | .rest => 2
  | .dormant => 3
  | .standby | .off => 4
  | .starting => 7

/-- The status block. -/
def State.statusBlock (s : State) : List W32 :=
  let b := s.board
  let bit (c : Bool) (n : Nat) : Nat := if c then 1 <<< n else 0
  [w32 (stateCode s.power.state + bit b.v54Ok 3 + bit b.auxOk 4 + bit b.trip 5 + bit b.reversed 6 + (b.hotC.toNat <<< 16) +
     (b.hotId.toNat <<< 24)), b.powerIn, b.faultSubject.setWidth 32, b.faultDetail]

/-- SIDEBAND_STATUS: a block read; TRIP clears. -/
def execSidebandStatus (s : State) : Host.Outcome State Fault Refusal :=
  .next (if s.board.auxOk then
    let s := (s.emit (.sideband (16 :: wordsBytes s.statusBlock))).boardLog 1 0
    { s with board := { s.board with trip := false } }
  else s)

/-- SIDEBAND_WAKE. -/
def execSidebandWake (data : Byte) (pec : Bool) (s : State) : Host.Outcome State Fault Refusal :=
  .next (if s.board.auxOk && pec && data == 0xA5 then (s.boardLog 2 0).wakeEvent else s)

/-- SIDEBAND_STANDBY: honoured where SB_STANDBY is 1; during an entry it follows that entry (R533). -/
def execSidebandStandby (data : Byte) (pec : Bool) (s : State) : Host.Outcome State Fault Refusal :=
  .next (if s.board.auxOk && pec && data == 0x5A then
    let s := s.boardLog 3 0
    if !(s.sys 53).getLsbD 18 || s.power.state == .standby || s.power.state == .off || s.power.state == .starting then s
    else if s.power.entry.isSome then s.modPower fun p => { p with sbStandby := true }
    else s.modPower fun p => { p with entry := some (4, none) }
  else s)

/-! ### Telemetry and throttling (R501 to R505) -/

/-- The sensors' hottest reading and its number: 0 to 3 the sections, 4 GDDR7, 5 NAND, 6 Maltster, 7 board. -/
def hottest (x : Sensors) : Nat × Nat :=
  let all := ((List.range 4).map fun i => x.tj.getD i 0) ++ [x.tCask, x.tNand, x.tMalt, x.tBoard]
  (List.range 8).foldl (fun b i => if b.1 < all.getD i 0 then (all.getD i 0, i) else b) (0, 0)

/-- Is the telemetry domain clocked (R507)? -/
def State.telRuns (s : State) : Bool := s.dieOn

/-- TELEMETRY_SAMPLE. -/
def execTelemetrySample (sensors : Sensors) (s : State) : Host.Outcome State Fault Refusal :=
  .next (if !s.telRuns then s else
    let x := sensors
    let h := hottest x
    let e := s.power.energy + BitVec.ofNat 64 x.energy
    let byte4 (f : Nat → Nat) : W32 := w32 ((List.range 4).foldl (fun n i => n + ((f i % 256) <<< (8 * i))) 0)
    let bit (c : Bool) (n : Nat) : Nat := if c then 1 <<< n else 0
    let sync := (s.modw 0).getLsbD 21 && s.power.syncCap
    let r : List W32 :=
      [w32 x.powerIn, w32 x.powerDie, w32 (x.vin % 65536 + (s.capInEffect <<< 16)), byte4 fun i => x.tj.getD i 0,
       byte4 fun i => [x.tCask, x.tNand, x.tMalt, x.tBoard].getD i 0, byte4 fun i => s.power.frac.getD i 16,
       e.setWidth 32, (e >>> 32).setWidth 32,
       w32 (stateCode s.power.state + bit s.power.capping 3 + bit s.power.thermal 4 + bit sync 5),
       s.now.setWidth 32, (s.now >>> 32).setWidth 32, 0, 0, 0, 0, 0]
    let s := s.modPower fun p => { p with telemetry := r, energy := e, tj := (List.range 4).map fun i => x.tj.getD i 0, tCask := x.tCask }
    { s with board := { s.board with
      hotC := BitVec.ofNat 8 (min 255 h.1), hotId := BitVec.ofNat 8 h.2, powerIn := w32 x.powerIn } })

/-- TJ_THROTTLE. -/
def State.tjThrottle (s : State) : Nat := let n := bits (s.sys 54) 7 0; if n = 0 then 100 else n

/-- A throttling step by a cause: the first of an episode raises class 5, later ones are logged. -/
def State.throttled (s : State) (first : Bool) (code : Code) (detail : Nat) : State :=
  if first then s.attention 5 code 0 (w32 detail) else s.log code 0 (w32 detail)

/-- THROTTLE_ADJUST: F of each section a sixteenth lower or higher. -/
def execThrottleAdjust (sensors : Sensors) (s : State) : Host.Outcome State Fault Refusal :=
  .next (if !s.telRuns then s else
    let x := sensors
    let cap := 1000 * s.capInEffect
    let heavy := decide (cap < x.powerIn)
    let cask := decide (95 ≤ x.tCask)
    let tj (i : Nat) : Nat := x.tj.getD i 0
    let hot (i : Nat) : Bool := decide (s.tjThrottle ≤ tj i) || cask
    let held (i : Nat) : Bool := s.power.emergency.getD i false && decide (100 ≤ tj i)
    let cool (i : Nat) : Bool := decide (100 * x.powerIn < 95 * cap) && decide (tj i + 3 < s.tjThrottle) && !cask
    let f (i : Nat) : Nat :=
      let n := s.power.frac.getD i 16
      if held i then 1 else if heavy || hot i then max 1 (n - 1) else if cool i then min 16 (n + 1) else n
    let frac := (List.range 4).map f
    let full := frac.all fun n => n == 16
    let heat := (List.range 4).any hot
    let s := if heavy then s.throttled (!s.power.capping) cPowerCap x.powerIn else s
    let s := if heat then s.throttled (!s.power.thermal) cThermal ((List.range 4).foldl (fun m i => max m (tj i)) x.tCask) else s
    s.modPower fun p => { p with
      frac := frac, capping := heavy || (p.capping && !full), thermal := heat || (p.thermal && !full)
      emergency := (List.range 4).map held, tj := (List.range 4).map tj, tCask := x.tCask })

/-- EMERGENCY_DROP: a junction at 105 °C: its section's F falls to 1 at once. -/
def execEmergencyDrop (sec temp : Nat) (s : State) : Host.Outcome State Fault Refusal :=
  .next (if !s.telRuns || 4 ≤ sec || temp < 105 then s
    else
      (s.throttled (!s.power.thermal) cThermal temp).modPower fun p => { p with
        frac := p.frac.set sec 1, emergency := p.emergency.set sec true, thermal := true, tj := p.tj.set sec temp })

end Sys2Proof.Machine
end

