-- ==== Sys2Proof/Machine/TimeBase.lean ====
section
/-! DEFINITION. The time base: time parcels, the choice of a source, steering and the one step (R511, R512), the SYNC pin (R489,
R512). -/

namespace Sys2Proof.Machine

/-- A key (ROOT_CLASS, ORIGIN, DIST). -/
abbrev TimeKey := Nat × Nat × Nat

/-- Keys compared field by field. -/
def keyLess (a b : TimeKey) : Bool :=
  decide (a.1 < b.1) || (a.1 == b.1 && (decide (a.2.1 < b.2.1) || (a.2.1 == b.2.1 && decide (a.2.2 < b.2.2))))

/-- The time base changed. -/
def State.modTime (s : State) (f : TimeBase → TimeBase) : State := { s with time := f s.time }

/-- Is SYNC assigned to time (TIME_SYNC_PIN)? -/
def State.syncPin (s : State) : Bool := (s.modw 0).getLsbD 20

/-- The module's own key. -/
def State.ownKey (s : State) : TimeKey := (if s.syncPin && s.time.syncToggles then 0 else 1, s.addr.toNat, 0)

/-- What a port offers by its partner's last time parcel of the past 1 ms; a DIST above 254 is ignored. -/
def State.offer (s : State) (p : Nat) : Option TimeKey :=
  match (s.fport p).timeParcel with
  | some (ws, at_) =>
    let dist := bits (wd ws 0) 8 1 + 1
    if at_.toNat + 312500 < s.now.toNat || 254 < dist then none
    else some (bits (wd ws 0) 0 0, bits (wd ws 1) 19 0, dist)
  | none => none

/-- The least key and its port; none when the module's own key is least. -/
def State.bestSource (s : State) : Option Nat × TimeKey :=
  (List.range 16).foldl (fun b p =>
    match s.offer p with
    | some k => if keyLess k b.2 then (some p, k) else b
    | none => b) (none, s.ownKey)

/-- The choice made anew; a change of source is recorded, and without a source the module holds its frequency. -/
def State.chooseSource (s : State) : State :=
  let b := s.bestSource.1
  if b = s.time.source then s
  else
    (s.log 0 (w32 (b.getD 0xFFFFFFFF)) 0).modTime fun t => { t with
      source := b, steer := if b.isNone then 0 else t.steer }

/-- Is a native port up, and the time base running? -/
def State.timePort (s : State) (p : Nat) : Bool :=
  s.isNative p && (s.fport p).state == 2 && s.time.counting && (s.power.state == .run || s.power.state == .ready)

/-- The words of a 64-bit value. -/
def words64 (v : W64) : List W32 := [v.setWidth 32, (v >>> 32).setWidth 32]

/-- TIME_PARCEL_SEND: the key the module advertises, its time at departure, and the echo of the last time parcel received. -/
def execTimeParcelSend (port : Nat) (s : State) : Host.Outcome State Fault Refusal :=
  .next (if !s.timePort port then s
    else
      let k := s.bestSource.2
      let echo : List W32 := match (s.fport port).timeParcel with
        | some (ws, at_) => [wd ws 2, wd ws 3] ++ words64 at_
        | none => [0, 0, 0, 0]
      let ws := [w32 (k.1 + (k.2.2 <<< 1)), w32 k.2.1] ++ words64 s.now ++ echo
      s.emitLink port (mkParcel 0xFFFFF 10 (wordsBytes ws)))

/-- A 64-bit value of two words of a list. -/
def word64 (ws : List W32) (i : Nat) : Int := (wd ws i).toNat + (wd ws (i + 1)).toNat * 4294967296

/-- The delay that a time parcel shows: half of what its round trip took beyond the partner's share of it. -/
def delayOf (ws : List W32) (arrival : W64) : Int :=
  ((arrival.toNat - word64 ws 4) - (word64 ws 2 - word64 ws 6)) / 2

/-- The offset of the source that a time parcel shows, where it echoes one of this module's. -/
def offsetOf (ws : List W32) (arrival : W64) : Option Int :=
  if word64 ws 4 = 0 && word64 ws 6 = 0 then none
  else some (((word64 ws 6 - word64 ws 4) + (word64 ws 2 - arrival.toNat)) / 2)

/-- A list of integers in ascending order. -/
def insertInt (x : Int) : List Int → List Int
  | [] => [x]
  | y :: t => if x ≤ y then x :: y :: t else y :: insertInt x t

/-- The median; of an even number the mean of the middle two, rounded down. -/
def median (l : List Int) : Int :=
  let r := l.foldr insertInt []
  (r.getD ((r.length - 1) / 2) 0 + r.getD (r.length / 2) 0) / 2

/-- Steering within ±50 ppm. -/
def steering (o : Int) : Int := max (-50) (min 50 (Config.steer o))

/-- An offset of the source taken: the one step of a start where it exceeds 2 µs, else steering by a median. -/
def State.takeOffset (s : State) (o m : Int) : State :=
  if !s.time.stepped && decide (625 < o.natAbs) then
    (s.modTime fun t => { t with stepped := true, tsy := t.tsy + BitVec.ofInt 64 o }).log 0 0 (BitVec.ofInt 32 o)
  else s.modTime fun t => { t with stepped := true, steer := steering m }

/-- TIME_PARCEL_RECEIVE. -/
def execTimeParcelReceive (port : Nat) (payload : List W32) (arrival : W64) (s : State) : Host.Outcome State Fault Refusal :=
  .next (if !s.timePort port then s
    else
      let o := offsetOf payload arrival
      let s := s.modFPort port fun k => { k with
        timeParcel := some (payload.take 8, arrival)
        offsets := (k.offsets ++ o.toList).drop ((k.offsets ++ o.toList).length - 8) }
      let s := s.chooseSource
      match o with
      | some o => if s.time.source = some port then s.takeOffset o (median (s.fport port).offsets) else s
      | none => s)

/-- TIME_SOURCE_EXPIRY: no time parcel of the source within 1 ms: the choice is made anew. -/
def execTimeSourceExpiry (s : State) : Host.Outcome State Fault Refusal := .next s.chooseSource

/-- SYNC_RISING_EDGE: the pin toggles; at the root of class 0 the edge marks a whole multiple of 312 500 000. -/
def execSyncRisingEdge (s : State) : Host.Outcome State Fault Refusal :=
  .next (if !s.syncPin || !s.time.counting || !s.dieOn then s
    else
      let s := ((s.pinFault 4 0).modTime fun t => { t with syncToggles := true }).chooseSource
      if s.time.source.isSome then s
      else
        let n : Int := s.now.toNat
        let o : Int := (n + 156250000) / 312500000 * 312500000 - n
        s.takeOffset o o)

/-- SYNC_HELD: the pin has stood at one level for 10 s: the time base runs free of it, and the fault is recorded. -/
def execSyncHeld (s : State) : Host.Outcome State Fault Refusal :=
  .next (if !s.syncPin || !s.time.counting || !s.dieOn then s
    else ((s.pinFault 4 3).modTime fun t => { t with syncToggles := false }).chooseSource)

end Sys2Proof.Machine
end

