-- ==== Sys2Proof/Machine/Transfer.lean ====
section
/-! DEFINITION. What a DMA transfer moves (R431 to R436), with the sectors in error that its reads of the cask meet (R250, R252,
R262), and DMA_CONTROL (R437). -/

namespace Sys2Proof.Machine

/-! ### Reads -/

/-- The cask byte address that a block of a source space is read from: an IMAGE leaf lies there while it is in the cask. -/
def State.caskAddr? (s : State) (space : Nat) (a : W64) : Option Nat :=
  let n := a.toNat
  match space with
  | 1 => some (n % 0x2000000000)
  | 2 =>
    let h := s.imageLeaf (n / 0x1000000000000 % 64) (n % 0x1000000000000)
    if (s.leaf h).inCask then some (caskPool + 65536 * (s.leaf h).caskFrame + n % 65536) else none
  | _ => none

/-- The address of source block j of row r. -/
def Channel.srcAt (ch : Channel) (r j : Nat) : W64 := ch.src + BitVec.ofNat 64 (r * ch.srcPitch.toNat + 64 * j)

/-- The address of the k-th source block in the order of R431. -/
def Channel.srcBlk (ch : Channel) (k : Nat) : W64 :=
  let per := ch.rowBytes.toNat / 64
  ch.srcAt (k / per) (k % per)

/-- Is a source block uncorrectable: read from the cask with POISON 1 (R252)? -/
def State.badSource (s : State) (sec : Nat) (ch : Channel) (a : W64) : Bool :=
  (s.caskAddr? (cfgSrc ch.cfg) a).isSome && (s.dmaBlk sec (cfgSrc ch.cfg) a []).bad

/-- A read of an uncorrectable block counted and handled by its region (R250, R262). -/
def State.readBad (s : State) (ch : Channel) (a : W64) : State :=
  match s.caskAddr? (cfgSrc ch.cfg) a with
  | some x => s.sectorError { addr := x, uncorrectable := true }
  | none => s

/-! ### Moving -/

/-- One block of a plain copy: block k of the transfer in the order of R431; host holds the bytes still to be
delivered. -/
def State.copyBlk (s : State) (sec : Nat) (ch : Channel) (k : Nat) (host : List Byte) : State :=
  let per := ch.rowBytes.toNat / 64
  let r := k / per
  let o := BitVec.ofNat 64 (64 * (k % per))
  let b := s.dmaBlk sec (cfgSrc ch.cfg) (ch.srcBlk k) host
  let s := if s.badSource sec ch (ch.srcBlk k) then s.readBad ch (ch.srcBlk k) else s
  s.putDmaBlk sec (cfgDst ch.cfg) (ch.dst + BitVec.ofNat 64 (r * ch.dstPitch.toNat) + o) b

/-- n blocks of a plain copy from block k on. -/
def State.copyBlks (sec : Nat) (ch : Channel) : Nat → Nat → List Byte → State → State
  | 0, _, _, s => s
  | n + 1, k, host, s =>
    let s := s.copyBlk sec ch k host
    State.copyBlks sec ch n (k + 1) (if cfgSrc ch.cfg = 0 then host.drop 64 else host) s

/-- The bytes of source row r. -/
def State.dmaRow (s : State) (sec : Nat) (ch : Channel) (r : Nat) (host : List Byte) : List Byte :=
  (List.range (ch.rowBytes.toNat / 64)).flatMap fun j =>
    (s.dmaBlk sec (cfgSrc ch.cfg) (ch.srcAt r j)
      (host.drop (r * ch.rowBytes.toNat + 64 * j))).data

/-- Is a source row's element at a byte offset in an uncorrectable block? -/
def State.badAt (s : State) (sec : Nat) (ch : Channel) (r off : Nat) : Bool := s.badSource sec ch (ch.srcAt r (off / 64))

/-- A transpose: destination row c is source column c; every block takes tag 0, and POISON where an element comes from an
uncorrectable block (R252, R431, R434). -/
def State.transpose (s : State) (sec : Nat) (ch : Channel) (host : List Byte) : State :=
  let e := cfgElem ch.cfg
  let src := (List.range ch.rows.toNat).map fun r => s.dmaRow sec ch r host
  let soiled (c j : Nat) : Bool := (List.range (64 / e)).any fun i => s.badAt sec ch (64 / e * j + i) (e * c)
  let s := ((List.range ch.blocks).filter fun k => s.badSource sec ch (ch.srcBlk k)).foldl
    (fun (s : State) k => s.readBad ch (ch.srcBlk k)) s
  (List.range (ch.rowBytes.toNat / e)).foldl (fun s c =>
    let row := src.flatMap fun b => (b.drop (e * c)).take e
    (List.range (row.length / 64)).foldl (fun s j =>
      s.putDmaBlk sec (cfgDst ch.cfg) (ch.dst + BitVec.ofNat 64 (c * ch.dstPitch.toNat + 64 * j))
        { data := (row.drop (64 * j)).take 64, tag := 0, bad := soiled c j }) s) s

/-- A channel's transfer up to n bytes: a transpose writes nothing until it is whole (log 23). One out of a core store counts a
draw (log 34). -/
def State.moveTo (s : State) (sec c n : Nat) (host : List Byte) : State :=
  let ch := s.channel sec c
  let s := if ch.cfg.getLsbD 6 then s
    else State.copyBlks sec ch (n / 64 - ch.done.toNat / 64) (ch.done.toNat / 64) host s
  let s : State := if cfgSrc ch.cfg = 4 then { s with draws := s.draws + 1 } else s
  s.modChannel sec c fun k => { k with done := BitVec.ofNat 64 n }

/-! ### The end of a transfer -/

/-- The first block from k on that a read to HOST finds uncorrectable (R436). -/
def State.hostHalt (s : State) (sec : Nat) (ch : Channel) (k : Nat) : Option Nat :=
  if cfgDst ch.cfg != 0 then none
  else ((List.range (ch.blocks - k)).map (k + ·)).find? fun i => s.badSource sec ch (ch.srcBlk i)

/-- A channel halted at a block (R436). -/
def State.haltAt (s : State) (sec c : Nat) (dir : Bool) (cause : BitVec 4) (addr : W64) : State :=
  let s := s.modChannel sec c fun k => { k with state := 3, dir := dir, cause := cause, fail := addr }
  s.attention 6 cDmaBus (w32 (8 * sec + c)) (addr.setWidth 32)

/-- A running channel goes to its end: the rest of the transfer moves, the channel becomes idle, the command completes with the
bytes moved. A source block that is uncorrectable halts one that writes to HOST (R436). -/
def State.endTransfer (s : State) (sec c : Nat) (host : HostData) : State :=
  let ch := s.channel sec c
  match s.hostHalt sec ch (ch.done.toNat / 64) with
  | some k =>
    let s := s.moveTo sec c (64 * k) host
    (s.readBad ch (ch.srcBlk k)).haltAt sec c false 6 (ch.srcBlk k)
  | none =>
    let n := 64 * ch.blocks
    let s := if ch.cfg.getLsbD 6 then s.transpose sec ch host else s
    let s := s.moveTo sec c n host
    let s := s.modChannel sec c fun k => { k with state := 0 }
    let s := { s with port := { s.port with engines := modAt s.port.engines sec fun e => { e with last := c } } }
    s.finish ch.queue ch.tag cDone (w32 n) (w32 (n / 0x100000000))

/-- DMA_CHANNEL_DONE: the running channel comes to its end. Of the errors that its reads of the cask meet, one that takes a
memory port out of service leaves a channel that writes on to what remains. -/
def execDmaChannelDone (sec : Nat) (host : HostData) (s : State) : Host.Outcome State Fault Refusal :=
  .next (match s.runningDma sec with
    | none => s
    | some c =>
      if s.hostWaits (s.channel sec c) then s
      else s.meetErrors.endTransfer sec c host)

/-- DMA_HALT: the running channel stops at a block, which is latched with the direction and the cause, an uncorrectable
source sector counted; class 6 is raised and the command stays uncompleted (R436). -/
def execDmaHalt (sec : Nat) (cause : BitVec 4) (dir : Bool) (addr : W64) (done : Nat) (host : HostData) (s : State) :
    Host.Outcome State Fault Refusal :=
  .next (match s.port.engines[sec]? with
    | none => s
    | some e =>
      if (s.channel sec e.current).state != 2 then s else
        let ch := s.channel sec e.current
        let n := min (done / 64 * 64) (64 * ch.blocks)
        let s := if e.current < 4 then s.moveTo sec e.current (max n ch.done.toNat) host else s
        let s := if cause = 6 then s.readBad ch addr else s
        s.haltAt sec e.current dir cause addr)

/-- The section and channel a DMA_CONTROL names. -/
def ctrlChannel (t : Started) : Nat × Nat := (bits (t.arg 1) 1 0, bits (t.arg 1) 4 2)

/-- The role of the halted command's pair. -/
def State.ownerRole (s : State) (ch : Channel) : Nat :=
  match s.started? ch.queue ch.tag with
  | some u => u.role
  | none => (s.queue ch.queue).role

/-- A DMA_CONTROL settled: OPERAND_ALIGN where the channel is not halted, ROLE_DENIED to another role that is not the
installer, else the action (R437, R438). -/
def State.dmaSettle (s : State) (t : Started) (f : Nat → Nat → Channel → State) : State :=
  let sc := ctrlChannel t
  let ch := s.channel sc.1 sc.2
  if ch.state != 3 then s.finish t.q t.tag cAlign 0 0
  else if t.role != 2 && t.role != s.ownerRole ch then s.finish t.q t.tag cRole 0 0
  else (f sc.1 sc.2 ch).finish t.q t.tag cDone 0 0

/-- Resume: the transfer is retried from the failing block. -/
def execDmaControlResume (q tag : Nat) (s : State) : Host.Outcome State Fault Refusal :=
  .next (s.onStarted q tag 0x31 (fun t => bits (t.arg 1) 9 8 == 1) fun t =>
    s.dmaSettle t fun sec c _ => s.modChannel sec c fun k => { k with state := 2, cause := 0 })

/-- Abort: the channel becomes idle, its command completes with DMA_BUS_ERROR and the bytes moved. -/
def execDmaControlAbort (q tag : Nat) (s : State) : Host.Outcome State Fault Refusal :=
  .next (s.onStarted q tag 0x31 (fun t => bits (t.arg 1) 9 8 == 2) fun t =>
    s.dmaSettle t fun sec c ch => s.abortChannel sec c ch)

end Sys2Proof.Machine
end

