-- ==== Sys2Proof/Machine/Dispatch.lean ====
section
/-! DEFINITION. One arm per command: the meaning it calls. -/

namespace Sys2Proof.Machine

/-- The effect of a command on everything but the queue. -/
def exec (i : Instr) (s : State) : Host.Outcome State Fault Refusal :=
  match i with
  | .nop q tag => Sys2Proof.Machine.execNop q tag s
  | .openSessionChallenge q tag => Sys2Proof.Machine.execOpenSessionChallenge q tag s
  | .openSessionAnswer q tag answer => Sys2Proof.Machine.execOpenSessionAnswer q tag answer s
  | .closeSession q tag => Sys2Proof.Machine.execCloseSession q tag s
  | .loadPlan q tag image => Sys2Proof.Machine.execLoadPlan q tag image s
  | .loadPlanAdopt q tag image => Sys2Proof.Machine.execLoadPlanAdopt q tag image s
  | .unloadPlan q tag => Sys2Proof.Machine.execUnloadPlan q tag s
  | .grist q tag header => Sys2Proof.Machine.execGrist q tag header s
  | .train q tag runs => Sys2Proof.Machine.execTrain q tag runs s
  | .plainRerun q tag => Sys2Proof.Machine.execPlainRerun q tag s
  | .setRefresh q tag => Sys2Proof.Machine.execSetRefresh q tag s
  | .readTable q tag => Sys2Proof.Machine.execReadTable q tag s
  | .loadTable q tag entries => Sys2Proof.Machine.execLoadTable q tag entries s
  | .initSet q tag => Sys2Proof.Machine.execInitSet q tag s
  | .dmaStart q tag => Sys2Proof.Machine.execDmaStart q tag s
  | .dmaControlResume q tag => Sys2Proof.Machine.execDmaControlResume q tag s
  | .dmaControlAbort q tag => Sys2Proof.Machine.execDmaControlAbort q tag s
  | .simmerDisable q tag => Sys2Proof.Machine.execSimmerDisable q tag s
  | .simmerEnable q tag => Sys2Proof.Machine.execSimmerEnable q tag s
  | .powerSetRest q tag => Sys2Proof.Machine.execPowerSetRest q tag s
  | .powerSetDormant q tag => Sys2Proof.Machine.execPowerSetDormant q tag s
  | .powerSetStandby q tag => Sys2Proof.Machine.execPowerSetStandby q tag s
  | .powerCap q tag => Sys2Proof.Machine.execPowerCap q tag s
  | .readTelemetry q tag => Sys2Proof.Machine.execReadTelemetry q tag s
  | .installImprint q tag image => Sys2Proof.Machine.execInstallImprint q tag image s
  | .installFirmware q tag image => Sys2Proof.Machine.execInstallFirmware q tag image s
  | .commitVersion q tag => Sys2Proof.Machine.execCommitVersion q tag s
  | .restart q tag start => Sys2Proof.Machine.execRestart q tag start s
  | .readErrata q tag => Sys2Proof.Machine.execReadErrata q tag s
  | .openWindow q tag companion => Sys2Proof.Machine.execOpenWindow q tag companion s
  | .closeWindow q tag => Sys2Proof.Machine.execCloseWindow q tag s
  | .attest q tag => Sys2Proof.Machine.execAttest q tag s
  | .coreService q tag => Sys2Proof.Machine.execCoreService q tag s
  | .selfTest q tag failed => Sys2Proof.Machine.execSelfTest q tag failed s
  | .laneService q tag net => Sys2Proof.Machine.execLaneService q tag net s
  | .portService q tag => Sys2Proof.Machine.execPortService q tag s
  | .readSpares q tag => Sys2Proof.Machine.execReadSpares q tag s
  | .sqTail q value => Sys2Proof.Machine.execSqTail q value s
  | .cqHead q value => Sys2Proof.Machine.execCqHead q value s
  | .queueEnable q value => Sys2Proof.Machine.execQueueEnable q value s
  | .queueDisable q value => Sys2Proof.Machine.execQueueDisable q value s
  | .attnPendingClear value events => Sys2Proof.Machine.execAttnPendingClear value events s
  | .timeLoRead => Sys2Proof.Machine.execTimeLoRead s
  | .readClearField offset event => Sys2Proof.Machine.execReadClearField offset event s
  | .registerWriteOther offset value size => Sys2Proof.Machine.execRegisterWriteOther offset value size s
  | .submissionFetch got => Sys2Proof.Machine.execSubmissionFetch got s
  | .conventionalReset => Sys2Proof.Machine.execConventionalReset s
  | .hotReset => Sys2Proof.Machine.execHotReset s
  | .functionLevelReset => Sys2Proof.Machine.execFunctionLevelReset s
  | .perstRelease refclk => Sys2Proof.Machine.execPerstRelease refclk s
  | .configWrite w => Sys2Proof.Machine.execConfigWrite w s
  | .sidebandStatus => Sys2Proof.Machine.execSidebandStatus s
  | .sidebandWake data pec => Sys2Proof.Machine.execSidebandWake data pec s
  | .sidebandStandby data pec => Sys2Proof.Machine.execSidebandStandby data pec s
  | .supplyTurnOn => Sys2Proof.Machine.execSupplyTurnOn s
  | .coldStart start => Sys2Proof.Machine.execColdStart start s
  | .caskTrainingDone results => Sys2Proof.Machine.execCaskTrainingDone results s
  | .cellarRebuildDone => Sys2Proof.Machine.execCellarRebuildDone s
  | .undervoltage => Sys2Proof.Machine.execUndervoltage s
  | .overvoltage => Sys2Proof.Machine.execOvervoltage s
  | .auxPowerApplied straps => Sys2Proof.Machine.execAuxPowerApplied straps s
  | .auxPowerLost => Sys2Proof.Machine.execAuxPowerLost s
  | .thermalTrip => Sys2Proof.Machine.execThermalTrip s
  | .emergencyDrop sec temp => Sys2Proof.Machine.execEmergencyDrop sec temp s
  | .throttleAdjust sensors => Sys2Proof.Machine.execThrottleAdjust sensors s
  | .telemetrySample sensors => Sys2Proof.Machine.execTelemetrySample sensors s
  | .enterReady => Sys2Proof.Machine.execEnterReady s
  | .returnToRun => Sys2Proof.Machine.execReturnToRun s
  | .autoRest => Sys2Proof.Machine.execAutoRest s
  | .powerEntryComplete => Sys2Proof.Machine.execPowerEntryComplete s
  | .wakeAtReached => Sys2Proof.Machine.execWakeAtReached s
  | .exitRest => Sys2Proof.Machine.execExitRest s
  | .exitDormant ports => Sys2Proof.Machine.execExitDormant ports s
  | .exitStandby start => Sys2Proof.Machine.execExitStandby start s
  | .requestDatagram port dgram => Sys2Proof.Machine.execRequestDatagram port dgram s
  | .requestAssemblyTimeout port ctx => Sys2Proof.Machine.execRequestAssemblyTimeout port ctx s
  | .replyContextExpiry port ctx => Sys2Proof.Machine.execReplyContextExpiry port ctx s
  | .neighbourRequest port ip6 target => Sys2Proof.Machine.execNeighbourRequest port ip6 target s
  | .requestAdmit sec rec => Sys2Proof.Machine.execRequestAdmit sec rec s
  | .requestContinue sec rec => Sys2Proof.Machine.execRequestContinue sec rec s
  | .requestFork sec rec => Sys2Proof.Machine.execRequestFork sec rec s
  | .requestReset sec rec => Sys2Proof.Machine.execRequestReset sec rec s
  | .requestEnd sec rec => Sys2Proof.Machine.execRequestEnd sec rec s
  | .requestPause sec rec => Sys2Proof.Machine.execRequestPause sec rec s
  | .requestResume sec rec => Sys2Proof.Machine.execRequestResume sec rec s
  | .gristCycleStart part => Sys2Proof.Machine.execGristCycleStart part s
  | .gristTick part => Sys2Proof.Machine.execGristTick part s
  | .gristCycleEnd part => Sys2Proof.Machine.execGristCycleEnd part s
  | .forkCycle part => Sys2Proof.Machine.execForkCycle part s
  | .endCycle part => Sys2Proof.Machine.execEndCycle part s
  | .matmul id => Sys2Proof.Machine.execMatmul id s
  | .matmulPair id => Sys2Proof.Machine.execMatmulPair id s
  | .attend id => Sys2Proof.Machine.execAttend id s
  | .scan id => Sys2Proof.Machine.execScan id s
  | .conv id => Sys2Proof.Machine.execConv id s
  | .pool id => Sys2Proof.Machine.execPool id s
  | .dist id => Sys2Proof.Machine.execDist id s
  | .reduce id => Sys2Proof.Machine.execReduce id s
  | .vector id => Sys2Proof.Machine.execVector id s
  | .route id => Sys2Proof.Machine.execRoute id s
  | .send id => Sys2Proof.Machine.execSend id s
  | .recvGather id => Sys2Proof.Machine.execRecvGather id s
  | .recvSum id => Sys2Proof.Machine.execRecvSum id s
  | .recvChannel id => Sys2Proof.Machine.execRecvChannel id s
  | .fork id => Sys2Proof.Machine.execFork id s
  | .leafAppend id => Sys2Proof.Machine.execLeafAppend id s
  | .leafTrim id => Sys2Proof.Machine.execLeafTrim id s
  | .leafFree id => Sys2Proof.Machine.execLeafFree id s
  | .sparge id => Sys2Proof.Machine.execSparge id s
  | .fence id => Sys2Proof.Machine.execFence id s
  | .passStart id errs => Sys2Proof.Machine.execPassStart id errs s
  | .commitFlip id arrTime => Sys2Proof.Machine.execCommitFlip id arrTime s
  | .simmerRampDown core => Sys2Proof.Machine.execSimmerRampDown core s
  | .rampUpStep core => Sys2Proof.Machine.execRampUpStep core s
  | .commandTimeLimit id waiting => Sys2Proof.Machine.execCommandTimeLimit id waiting s
  | .leafExhausted id => Sys2Proof.Machine.execLeafExhausted id s
  | .commitSweep => Sys2Proof.Machine.execCommitSweep s
  | .heatEpoch => Sys2Proof.Machine.execHeatEpoch s
  | .promotionDone handle => Sys2Proof.Machine.execPromotionDone handle s
  | .cellarDirectReadDone handle => Sys2Proof.Machine.execCellarDirectReadDone handle s
  | .sectionStoreCopyDone handle => Sys2Proof.Machine.execSectionStoreCopyDone handle s
  | .earlyWriteBack part handle => Sys2Proof.Machine.execEarlyWriteBack part handle s
  | .writeBackAdmitted handle => Sys2Proof.Machine.execWriteBackAdmitted handle s
  | .writeBufferAccept handle => Sys2Proof.Machine.execWriteBufferAccept handle s
  | .nandProgram => Sys2Proof.Machine.execNandProgram s
  | .reclamation die => Sys2Proof.Machine.execReclamation die s
  | .programEraseFailure die block => Sys2Proof.Machine.execProgramEraseFailure die block s
  | .cellarReadDone handle rung => Sys2Proof.Machine.execCellarReadDone handle rung s
  | .weightCopyArrival handle data tags => Sys2Proof.Machine.execWeightCopyArrival handle data tags s
  | .weightFetchTimeout handle => Sys2Proof.Machine.execWeightFetchTimeout handle s
  | .retrainingPause port pins answered pinsOk => Sys2Proof.Machine.execRetrainingPause port pins answered pinsOk s
  | .caskRestartDone ports => Sys2Proof.Machine.execCaskRestartDone ports s
  | .deviceTemperatureRead port t0 t1 => Sys2Proof.Machine.execDeviceTemperatureRead port t0 t1 s
  | .negotiation port net => Sys2Proof.Machine.execNegotiation port net s
  | .negotiationStepLimit port step => Sys2Proof.Machine.execNegotiationStepLimit port step s
  | .negotiationRetry port => Sys2Proof.Machine.execNegotiationRetry port s
  | .renegotiation port net => Sys2Proof.Machine.execRenegotiation port net s
  | .partnerLoss port => Sys2Proof.Machine.execPartnerLoss port s
  | .edgePortUp port => Sys2Proof.Machine.execEdgePortUp port s
  | .edgePortDown port => Sys2Proof.Machine.execEdgePortDown port s
  | .helloSend port => Sys2Proof.Machine.execHelloSend port s
  | .helloReceive port hello => Sys2Proof.Machine.execHelloReceive port hello s
  | .parcelArrival port parcel trailer => Sys2Proof.Machine.execParcelArrival port parcel trailer s
  | .resendRequestReceive rq => Sys2Proof.Machine.execResendRequestReceive rq s
  | .queryReceive rq => Sys2Proof.Machine.execQueryReceive rq s
  | .queryReplyReceive rq => Sys2Proof.Machine.execQueryReplyReceive rq s
  | .queryDataReceive rq => Sys2Proof.Machine.execQueryDataReceive rq s
  | .parcelExpiry rq => Sys2Proof.Machine.execParcelExpiry rq s
  | .unreachableQuery addr => Sys2Proof.Machine.execUnreachableQuery addr s
  | .timeParcelSend port => Sys2Proof.Machine.execTimeParcelSend port s
  | .timeParcelReceive port payload arrival => Sys2Proof.Machine.execTimeParcelReceive port payload arrival s
  | .syncRisingEdge => Sys2Proof.Machine.execSyncRisingEdge s
  | .addBlock channel => Sys2Proof.Machine.execAddBlock channel s
  | .downBlockReceive channel => Sys2Proof.Machine.execDownBlockReceive channel s
  | .downBlockResendWait channel => Sys2Proof.Machine.execDownBlockResendWait channel s
  | .updateLeafWaitTimeout => Sys2Proof.Machine.execUpdateLeafWaitTimeout s
  | .publish slot => Sys2Proof.Machine.execPublish slot s
  | .spargeResendReceive rq => Sys2Proof.Machine.execSpargeResendReceive rq s
  | .creditParcelReceive rq => Sys2Proof.Machine.execCreditParcelReceive rq s
  | .backupBlockArrival rq => Sys2Proof.Machine.execBackupBlockArrival rq s
  | .backupDeadline channel seq => Sys2Proof.Machine.execBackupDeadline channel seq s
  | .stepTimerExpiry channel => Sys2Proof.Machine.execStepTimerExpiry channel s
  | .abortReceive rq => Sys2Proof.Machine.execAbortReceive rq s
  | .mirrorParcelReceive rq => Sys2Proof.Machine.execMirrorParcelReceive rq s
  | .mirrorAdmissionTimeout owner stream => Sys2Proof.Machine.execMirrorAdmissionTimeout owner stream s
  | .mirrorAckReceive rq => Sys2Proof.Machine.execMirrorAckReceive rq s
  | .mirrorRefusalReceive rq => Sys2Proof.Machine.execMirrorRefusalReceive rq s
  | .mirrorAckTimeout stream => Sys2Proof.Machine.execMirrorAckTimeout stream s
  | .mirrorReleaseReceive rq => Sys2Proof.Machine.execMirrorReleaseReceive rq s
  | .mirrorMapSweep => Sys2Proof.Machine.execMirrorMapSweep s
  | .rollCall => Sys2Proof.Machine.execRollCall s
  | .rollCallReceive rq => Sys2Proof.Machine.execRollCallReceive rq s
  | .rollAnswerReceive rq => Sys2Proof.Machine.execRollAnswerReceive rq s
  | .ownerLost owner => Sys2Proof.Machine.execOwnerLost owner s
  | .coreFailure sec phys => Sys2Proof.Machine.execCoreFailure sec phys s
  | .sliceReportTimeout id core => Sys2Proof.Machine.execSliceReportTimeout id core s
  | .dmaChannelStart sec => Sys2Proof.Machine.execDmaChannelStart sec s
  | .dmaChannelDone sec host => Sys2Proof.Machine.execDmaChannelDone sec host s
  | .dmaHalt sec cause dir addr done host => Sys2Proof.Machine.execDmaHalt sec cause dir addr done host s
  | .errataFoldFlush => Sys2Proof.Machine.execErrataFoldFlush s
  | .windowExpiry => Sys2Proof.Machine.execWindowExpiry s
  | .makerSessionExpiry q => Sys2Proof.Machine.execMakerSessionExpiry q s
  | .outputShort pin low => Sys2Proof.Machine.execOutputShort pin low s
  | .shortRetry pin good => Sys2Proof.Machine.execShortRetry pin good s
  | .presentTest low => Sys2Proof.Machine.execPresentTest low s
  | .syncHeld => Sys2Proof.Machine.execSyncHeld s
  | .debugInstruction => Sys2Proof.Machine.execDebugInstruction s
  | .timeSourceExpiry => Sys2Proof.Machine.execTimeSourceExpiry s
  | .syncThrottleInput level => Sys2Proof.Machine.execSyncThrottleInput level s
  | .linkRetrained => Sys2Proof.Machine.execLinkRetrained s
  | .inputReversed reversed => Sys2Proof.Machine.execInputReversed reversed s
  | .sessionLockoutExpiry => Sys2Proof.Machine.execSessionLockoutExpiry s
  | .challengeExpiry q => Sys2Proof.Machine.execChallengeExpiry q s
  | .mirrorLeafSent sid handle => Sys2Proof.Machine.execMirrorLeafSent sid handle s
  | .linkCreditGrant port units => Sys2Proof.Machine.execLinkCreditGrant port units s

end Sys2Proof.Machine
end

