-- ==== Sys2Proof/Machine/Regs.lean ====
section
/-! DEFINITION. What BAR0 shows: every register and status block by offset (R268, R311, R334, R369, R371, R405, R406, R410 to
R412, R437). A read without a side effect is no row of the table; a read-to-clear field's read is READ_CLEAR_FIELD. -/

namespace Sys2Proof.Machine

/-- Fields packed into a word: value and lowest bit each. -/
def packW (fs : List (Nat × Nat)) : W32 := w32 (fs.foldl (fun n f => n + (f.1 <<< f.2)) 0)

/-- The POWER field (R493). -/
def PowerState.field : PowerState → Nat
  | .run => 0 | .ready => 1 | .rest => 2 | _ => 7

/-- The highest pending attention class; 0 when none. -/
def topClass (b : BitVec 8) : Nat := ([7, 6, 5, 4, 3, 2, 1].find? fun c => b.getLsbD c).getD 0

/-- What the PCI Express function says it is (R407). -/
structure PciIdentity where
  vendor : W16
  device : W16
  revision : Byte
  classCode : BitVec 24
  subsystemVendor : W16
  subsystem : W16
  deriving DecidableEq, Repr

/-- The identity of a module of an order code: the two differ in the subsystem ID (R1, R407). -/
def pciIdentity (coldPlate : Bool) : PciIdentity :=
  { vendor := 0x1F2C, device := 0x4816, revision := 0x01, classCode := 0x120000, subsystemVendor := 0x1F2C
    subsystem := if coldPlate then 0x4817 else 0x4816 }

/-- What configuration reads find of this module. -/
def State.pciIdentity (_ : State) : PciIdentity := Sys2Proof.Machine.pciIdentity Config.coldPlate

/-- IDCODE of the test access port (R526): version, part number, manufacturer, and the fixed 1 of IEEE 1149.1. -/
def idcode (manufacturer : BitVec 11) : W32 := packW [(1, 0), (manufacturer.toNat, 1), (0x4816, 12), (0x1, 28)]

/-- What IDCODE shifts out of this module, in every state. -/
def State.idcode (_ : State) : W32 := Sys2Proof.Machine.idcode Config.idManufacturer

/-- The 7-bit address of the sideband, SMBus and I3C static, from the straps as sampled (R521). -/
def State.sidebandAddress (s : State) : Nat := 0x58 + s.board.straps.toNat

/-- The global registers (R411). -/
def State.globalWord (s : State) (off : Nat) : W32 :=
  if off = 0 then 0x00014816
  else if off = 4 then packW [(s.power.state.field, 0), (s.power.config, 3), (s.ident.runSlot, 6)]
  else if off = 8 then s.port.attnPending.setWidth 32 &&& 0xFE
  else if off = 0xC then w32 (topClass s.port.attnPending)
  else if 0x10 ≤ off ∧ off < 0x2C then s.port.attnCount.getD ((off - 0x10) / 4) 0
  else if 0x30 ≤ off ∧ off < 0x4C then (s.port.attnLast.getD ((off - 0x30) / 4) 0).setWidth 32
  else if off = 0x50 then s.now.setWidth 32
  else if off = 0x54 then s.port.timeHi
  else if 0x60 ≤ off ∧ off < 0x80 then (s.ident.colophon >>> (8 * (off - 0x60))).setWidth 32
  else if 0x80 ≤ off ∧ off < 0xC0 then wd s.cap ((off - 0x80) / 4)
  else if off = 0xC0 then (s.errata.nextSeq - 1).setWidth 32
  else if off = 0xC4 then s.port.simmerOff.setWidth 32
  else 0

/-- The queue registers of a pair (R412). -/
def Queue.word (k : Queue) (i : Nat) : W32 :=
  match i with
  | 0 => k.sqBase.setWidth 32
  | 1 => (k.sqBase >>> 32).setWidth 32
  | 2 => k.cqBase.setWidth 32
  | 3 => (k.cqBase >>> 32).setWidth 32
  | 4 => packW [(k.sqLog, 0), (k.cqLog, 4), (if k.enable then 1 else 0, 8)]
  | 5 => packW [(k.qstate, 0), (k.role, 2), (k.haltCause, 4), (k.sqHead, 16)]
  | 6 => w32 k.cqTail
  | _ => 0

/-- The registers of a DMA channel (R437). -/
def Channel.word (c : Channel) (i : Nat) : W32 :=
  match i with
  | 0 => c.src.setWidth 32
  | 1 => (c.src >>> 32).setWidth 32
  | 2 => c.dst.setWidth 32
  | 3 => (c.dst >>> 32).setWidth 32
  | 4 => c.cfg
  | 5 => c.rows
  | 6 => c.rowBytes
  | 7 => c.srcPitch
  | 8 => c.dstPitch
  | 9 => packW [(c.state, 0), (if c.dir then 1 else 0, 3), (c.cause.toNat, 4), (c.queue, 12), (c.tag, 16)]
  | 10 => c.fail.setWidth 32
  | 11 => (c.fail >>> 32).setWidth 32
  | 12 => c.done.setWidth 32
  | 13 => (c.done >>> 32).setWidth 32
  | _ => 0

/-- The registers of a DMA engine (R437). -/
def Dma.word (e : Dma) (off : Nat) : W32 :=
  if off = 0 then
    let st (i : Nat) : Nat := ((e.channels[i]?).map (·.state)).getD 0
    packW [(e.current, 0), (if e.channels.any (fun c => c.state == 2) then 1 else 0, 3),
      (if st e.current = 3 then 1 else 0, 4),
      (((List.range 8).filter fun i => st i == 1).foldl (fun n i => n + (1 <<< i)) 0, 8)]
  else if 0x40 ≤ off ∧ off < 0x240 then
    ((e.channels[(off - 0x40) / 0x40]?).map fun c => c.word (off % 0x40 / 4)).getD 0
  else 0

/-- The status of a cask port (R268). -/
def MemPort.word (k : MemPort) (i : Nat) : W32 :=
  match i with
  | 0 => packW [(k.state, 0), (if k.restored then 1 else 0, 2), (if k.hot then 1 else 0, 3), (k.temp.toNat, 8), (k.cause, 16)]
  | 1 => w32 k.corrected
  | 2 => w32 k.uncorrected
  | _ => k.lastUncorr

/-- Cellar frames neither current nor stale: those of the dies in service that hold nothing (R311). -/
def State.freeFrames (s : State) : Nat :=
  s.cellarTotal - (s.cellar.frames.filter fun f => !((s.cellar.dies[f.1 % 128]?).map (·.retired)).getD true).length

/-- The cellar status block (R311). What the Maltster reads from its dies stands at its reset value until the index of every
die is ready (R12). -/
def State.cellarWord (s : State) (i : Nat) : W32 :=
  let dies := s.cellar.dies.filter fun d => !d.retired
  match i with
  | 0 => packW [(if s.cellar.ready then s.cellar.dies.length - dies.length else 0, 0),
      (if s.cellar.ready then (dies.map fun d => 174 - d.spares).foldl min 174 else 0, 8),
      (if s.cellar.belowMin then 1 else 0, 16), (if s.cellar.rebuilding then 1 else 0, 17)]
  | 1 => BitVec.ofInt 32 (s.cellar.level / 104857600)
  | 2 => w32 s.cellar.stalls
  | 3 => w32 s.cellar.retries
  | 4 => w32 s.cellar.uncorrectable
  | 5 => if s.cellar.ready then w32 s.freeFrames else 0
  | _ => 0

/-- The Maltster update status block (R406). -/
def Malt.word (m : Malt) (i : Nat) : W32 :=
  match i with
  | 0 => packW [(m.updState, 0), (m.updSlot, 2), (m.updSet, 8)]
  | 1 => w32 m.applied
  | 2 => w32 m.skipped
  | 3 => w32 m.nonfinite
  | 4 => w32 m.masterUncorr
  | 5 => w32 m.publishes
  | 6 => m.lastPublish
  | _ => 0

/-- The scheduler status block of a partition (R334). -/
def State.partWord (s : State) (n i : Nat) : W32 :=
  let p := s.part n
  let items := (s.itemsOf n false).1 ++ (s.itemsOf n true).1
  let wave := match p.cycle with
    | some c => if c.prio then p.prio else p.bulk
    | none => none
  match i with
  | 0 => packW [(min 0xFFFF (items.filter fun x => x.kind == .step).length, 0),
      ((s.streams.filter fun e => e.2.live && e.2.prio && e.2.partition == n).length, 16)]
  | 1 => w32 (sat32 ((items.filter fun x => x.kind == .chunk).foldl (fun a x => a + x.left) 0))
  | 2 => w32 p.waves
  | 3 => w32 p.overruns
  | 4 => w32 p.suspensions
  | 5 => w32 p.preemptKills
  | 6 => packW [((wave.map (·.slot)).getD 0, 0), (if p.cycle.isSome then 1 else 0, 6),
      (if (p.cycle.map (·.prio)).getD false then 1 else 0, 7)]
  | _ => w32 (((sortItems items).head?.map (·.queued)).getD 0)

/-- The status block of a Dareno port (R371). -/
def FPort.word (k : FPort) (i : Nat) : W32 :=
  match i with
  | 0 => packW [(k.state, 0), (k.mode, 3), (k.rate, 5), (k.width, 7), (if k.spareUsed then 1 else 0, 9), (k.reason, 10),
      (k.polInv.toNat, 14)]
  | 1 => k.laneMap.setWidth 32
  | 2 => packW [(k.partner.toNat, 0), (k.partnerPort.toNat, 20)]
  | 3 => w32 k.fecCorrected
  | 4 => w32 k.fecUncorrected
  | 5 => w32 k.mismatches
  | 6 => w32 k.dropped
  | _ => w32 k.renegotiations

/-- The status block of a sparge channel (R405). -/
def Channel64.word (c : Channel64) (i : Nat) : W32 :=
  match i with
  | 0 => packW [(c.state, 0), (c.attempt.toNat, 8), (c.lastCause.toNat, 16)]
  | 1 => c.step
  | 2 => w32 c.blocksDone
  | 3 => w32 c.saturations
  | 4 => w32 c.backups
  | 5 => w32 c.late
  | 6 => c.lastHop.setWidth 32
  | _ => w32 c.globalSat

/-- The registers of a check-value unit (R369). -/
def Cvu.word (c : Cvu) (i : Nat) : W32 :=
  match i with
  | 0 => packW [(c.head, 0), (if c.overflow then 1 else 0, 7)]
  | 1 => w32 c.tail
  | 2 => w32 c.checked
  | 3 => w32 c.crcFails
  | 4 => w32 c.gaps
  | 5 => w32 c.repeats
  | 6 => w32 c.sources.length
  | _ => if 16 ≤ i ∧ i < 272 then wd (c.ring.getD ((i - 16) / 4) []) (i % 4) else 0

/-- The word that a BAR0 read at an offset shows; 0 at a reserved or unlisted one (R410, R411). -/
def State.barWord (s : State) (off : Nat) : W32 :=
  if off < 0x100 then s.globalWord off
  else if off < 0x500 then (s.queue ((off - 0x100) / 0x40)).word (off % 0x40 / 4)
  else if 0x1000 ≤ off ∧ off < 0x2000 then
    ((s.port.engines[(off - 0x1000) / 0x400]?).map fun e => e.word (off % 0x400)).getD 0
  else if 0x2000 ≤ off ∧ off < 0x2100 then (s.memPort ((off - 0x2000) / 16)).word (off % 16 / 4)
  else if 0x2100 ≤ off ∧ off < 0x2118 then s.cellarWord ((off - 0x2100) / 4)
  else if 0x2140 ≤ off ∧ off < 0x2160 then s.malt.word ((off - 0x2140) / 4)
  else if 0x2200 ≤ off ∧ off < 0x2300 then s.partWord ((off - 0x2200) / 32) (off % 32 / 4)
  else if 0x2400 ≤ off ∧ off < 0x2600 then (s.fport ((off - 0x2400) / 32)).word (off % 32 / 4)
  else if 0x2800 ≤ off ∧ off < 0x3000 then (s.channels.getD ((off - 0x2800) / 32) Channel64.reset).word (off % 32 / 4)
  else if 0x3000 ≤ off ∧ off < 0xB000 then (s.fport ((off - 0x3000) / 0x800)).cvu.word (off % 0x800 / 4)
  else 0

/-- The n bytes that a BAR0 read of any size shows from an offset on: those of the words that contain them (R411). -/
def State.barRead (s : State) (off n : Nat) : List Byte :=
  (List.range n).map fun i => (wordsBytes [s.barWord ((off + i) / 4 * 4)]).getD ((off + i) % 4) 0

end Sys2Proof.Machine
end

