-- ==== Sys2Proof/Safety.lean ====
section
/-! DEFINITION. What counts as a safe state and a safe run, and the words in which the statements speak of an answered
command. -/

namespace Sys2Proof.Machine

/-- Every byte store is in canonical form. -/
def State.storesWf (s : State) : Bool :=
  s.coreMem.wf && s.sectMem.wf && s.caskRaw.wf && s.malt.lpddr.wf && s.rack.pool.all (fun e => e.2.wf) &&
  s.rack.ss.all (fun e => e.2.wf) && s.cellar.frames.all (fun e => e.2.data.wf)

/-- The addressed memories are in canonical form: the core stores, the section stores, the cask outside leaf table, directory
and leaf pool, and the Maltster's update area. -/
def State.memWf (s : State) : Bool :=
  s.coreMem.form == .plain && s.coreMem.wf && s.sectMem.wf && s.caskRaw.wf && s.malt.lpddr.wf

/-- The sizes of the register files: queue pairs, attention counts and codes, DMA engines, memory ports, sections, cores, model
slots, partitions, completion logs, Dareno ports, reduction channels, output faults and dies. -/
def State.shape (s : State) : List Nat :=
  [s.port.queues.length, s.port.attnCount.length, s.port.attnLast.length, s.port.engines.length, s.mem.length, s.sects.length,
   s.cores.length, s.slots.length, s.parts.length, s.logs.length, s.fabric.ports.length, s.channels.length,
   s.board.pins.length, s.cellar.dies.length]

/-- Every register file has the size the spec gives it. -/
def State.shaped (s : State) : Bool := s.shape == [16, 7, 7, 4, 16, 4, 64, 64, 8, 4, 16, 64, 7, 128]

/-- The commands that may change the NOR flash, the core stores, the section stores, the cask outside leaf table, directory and
leaf pool, or the update area. -/
def touchesMemory (i : Instr) : Bool :=
  match i with
  | .openSessionAnswer _ _ _ | .loadPlan _ _ _ | .loadPlanAdopt _ _ _ | .initSet _ _ | .installImprint _ _ _
  | .installFirmware _ _ _ | .commitVersion _ _ | .restart _ _ _ | .coreService _ _ | .selfTest _ _ _ | .portService _ _
  | .coldStart _ | .caskTrainingDone _ | .undervoltage | .overvoltage | .thermalTrip | .powerEntryComplete
  | .exitDormant _ | .exitStandby _ | .requestDatagram _ _ | .passStart _ _ | .commitFlip _ _ | .commitSweep
  | .retrainingPause _ _ _ _ | .addBlock _ | .loadTable _ _ _ | .sectionStoreCopyDone _ | .writeBackAdmitted _
  | .downBlockReceive _ | .creditParcelReceive _ | .coreFailure _ _
  | .sliceReportTimeout _ _ | .dmaChannelDone _ _ | .dmaHalt _ _ _ _ _ _ => true
  | _ => false

/-- A step that goes on. -/
def Goes (s : State) : Prop := ∃ t, step s = .next t

/-- A pair that takes its next completion at once (R416, R417): it runs, holds none back, its ring has room, and the module
may write to the host. -/
def State.takesEntry (s : State) (q : Nat) : Bool :=
  decide (q < s.port.queues.length) && decide ((s.queue q).qstate = 1) && (s.queue q).held.isEmpty && !(s.queue q).cqFull &&
  s.port.busMaster

/-- The started command c of a pair and TAG has an opcode, has not begun, is not discarded, its buffer moves, no
installer command must end before it, and its pair takes its completion at once. -/
def State.commandAt (s : State) (q tag opc : Nat) (c : Started) : Prop :=
  s.started? q tag = some c ∧ c.opc = opc ∧ c.begun = false ∧ c.discard = false ∧ s.bufReady c = true ∧
  s.installerTurn c = true ∧ s.takesEntry q = true

/-- A completion entry as it leaves the module: at CQ_TAIL of the ring of a pair whose registers are k (R416). -/
def entryOut (k : Queue) (attn : BitVec 8) (code : Code) (tag : Nat) (r0 r1 : W32) : Out :=
  .host (k.lCqBase + BitVec.ofNat 64 (16 * k.cqTail)) (entryBytes k attn ⟨code, tag, r0, r1⟩)

/-- From s to t the started command of a pair and TAG has ended: it is started no more; what left the module is data and then
its completion entry; the pair, whose registers were k, has moved past the entry; every other pair is as it was. -/
structure Answered (s t : State) (q tag : Nat) (k : Queue) (data : List Out) (code : Code) (r0 r1 : W32) : Prop where
  gone : t.started? q tag = none
  sent : t.out = s.out ++ data ++ [entryOut k t.port.attnPending code tag r0 r1]
  pair : t.queue q = k.advance
  pairs : ∀ p, p ≠ q → t.queue p = s.queue p

/-- The registers of the control port that an answer leaves alone are those of s; queue pairs, started commands and DMA engines
are those of t. -/
def State.portOf (s t : State) : Port :=
  { s.port with queues := t.port.queues, started := t.port.started, engines := t.port.engines }

/-! ### Plan commands that run -/

/-- A placed command as it stands once it has issued: its phase, the shape without the runs that may not issue, the serial
number of its CORE_BASE core and, for SPARGE, its channel's ATTEMPT (R55, R139, R383). -/
def State.asIssued (s : State) (c : Cmd) : Cmd :=
  { c with
    phase := .issued, shape := s.shapeOf c
    serial := (((s.markBegun c).seed c.cores).cores.getD (bits (wd c.words 3) 17 12) CoreSt.reset).serial
    attempt := if c.opc = 0x0F then (s.channels.getD (bits (wd c.words 13) 5 0) Channel64.reset).attempt else 0 }

/-- The state in which an issuing command reads its operands: serial numbers taken, generators seeded, its runs begun. -/
def State.whenIssued (s : State) (c : Cmd) : State := ((s.markBegun c).seed c.cores).setCmd (s.asIssued c)

/-- The descriptor of a command resolved at its issue (R129). -/
def State.resolved (s : State) (c : Cmd) : Res := resolve s c.slot c.words (s.shapeOf c) c.plain

/-- The work of a command that issues. -/
def State.workOf (s : State) (c : Cmd) (w : State → Cmd → Res → Work) : Work :=
  w ((s.whenIssued c).sourceOf (s.asIssued c) (s.resolved c) w) (s.asIssued c) (s.resolved c)

/-- The leaves that the work of a command reads. -/
def State.readsOf (s : State) (c : Cmd) (w : State → Cmd → Res → Work) : List Handle :=
  realHandles ((s.workOf c w).pins ++ (s.workOf c w).reads.flatMap ((s.whenIssued c).extLeaves (s.resolved c)))

/-- The effects that a command's cores compute, and the leaves prepared for them. -/
def State.prepOf (s : State) (c : Cmd) (w : State → Cmd → Res → Work) : Prep :=
  let t := (s.whenIssued c).compute (s.workOf c w).body
  Prep.all t.1 (t.2.1.map fun e => (e.core, e.effs))

/-- A placed command that may issue and is not refused (R129, R139, R193, R375): the module runs, the command heads its queues,
its plan fits, every dimension is within its maximum, it has a live run or none at all, and what its first pass reads is ready. -/
def State.issuable (s : State) (c : Cmd) (w : State → Cmd → Res → Work) : Bool :=
  s.mayIssue c && !s.unfitFor c && (c.runs.isEmpty || c.runs.any fun u => s.liveRun c u) && !s.aboveMax c &&
  !c.trainRefused (s.resolved c) &&
  (w (s.sourceOf c (s.resolved c) w) c (s.resolved c)).refuse == cDone &&
  !s.blocked c (s.resolved c) { w (s.sourceOf c (s.resolved c) w) c (s.resolved c) with
    reads := (w (s.sourceOf c (s.resolved c) w) c (s.resolved c)).first, rspans := [] }

/-- The leaves that a launching command writes: in place, and those taken for it, beside those that it reads. -/
def Prep.own (p : Prep) (pins : List Handle) : List Handle :=
  (realHandles (p.writes ++ p.taken.map (·.2.1))).filter fun h => !pins.contains h

/-- The leaves that a launching command copies, beside those that it reads or writes. -/
def Prep.from_ (p : Prep) (pins : List Handle) : List Handle :=
  (realHandles p.copies).filter fun h => !pins.contains h && !(p.own pins).contains h

/-- A command that issues meets nothing it must wait for and no fault: its operands are there and readable, its resources are
within their limits, and every leaf that it writes has been prepared. -/
def State.unhindered (s : State) (c : Cmd) (w : State → Cmd → Res → Work) : Bool :=
  let u := s.whenIssued c
  let k := s.workOf c w
  let pins := s.readsOf c w
  let t := u.compute k.body
  let p := s.prepOf c w
  !u.blocked (s.asIssued c) (s.resolved c) k && !k.missing && k.fault == cDone &&
  !(k.reads ++ k.writes).any (u.extOver (s.resolved c) c.cores) && (u.unreadable pins).isEmpty &&
  k.promote.all (fun h => (u.leaf h).inCask) && !(t.2.1.any fun e =>
    u.coreOver (s.asIssued c) (bytesOf k.staged e.core) (bytesOf k.vec e.core) e.core e.effs) &&
  !u.sectOver (s.asIssued c) (s.resolved c) k.spill (t.2.1.flatMap (·.effs)) && !p.beyond && !p.fail && p.badLeaves.isEmpty &&
  (realHandles (p.waits ++ p.rewriting)).isEmpty && (pins ++ p.own pins ++ p.from_ pins).all p.s.pinRoom

/-- The rows of the plan commands: the row, its opcode, what its form asks of the state and the command, and its work. -/
def planRows (id : Nat) : List (Instr × Nat × (State → Cmd → Bool) × (State → Cmd → Res → Work)) :=
  [(.matmul id, 0x01, fun _ _ => true, matmulWork), (.matmulPair id, 0x02, fun _ _ => true, pairWork),
   (.attend id, 0x03, fun _ _ => true, attendWork), (.scan id, 0x04, fun _ _ => true, scanWork),
   (.conv id, 0x05, fun _ _ => true, convWork), (.pool id, 0x06, fun _ _ => true, poolWork),
   (.dist id, 0x07, fun _ _ => true, distWork), (.reduce id, 0x08, fun _ _ => true, reduceWork),
   (.vector id, 0x09, fun _ _ => true, vectorWork), (.route id, 0x0A, fun _ _ => true, routeWork),
   (.send id, 0x0B, fun _ _ => true, sendWork),
   (.recvGather id, 0x0C, fun _ c => !recvAdd c.words && recvExpect c.words == 0, gatherWork),
   (.recvSum id, 0x0C, fun _ c => recvAdd c.words, sumWork),
   (.recvChannel id, 0x0C, fun _ c => !recvAdd c.words && recvExpect c.words == 1, channelWork),
   (.fork id, 0x0D, fun _ _ => true, forkWork), (.leafAppend id, 0x0E, fun _ c => leafOp c.words == 0, appendWork),
   (.leafTrim id, 0x0E, fun _ c => leafOp c.words == 1, trimWork),
   (.leafFree id, 0x0E, fun _ c => leafOp c.words == 2, freeWork), (.sparge id, 0x0F, fun _ _ => true, spargeWork),
   (.fence id, 0x10, fun s c => !((s.before c).any (inScope c)), fun _ _ r => rowWork r [])]

/-- The parcel of slot rq of the receive area has been swept, is good, and has not been taken (R338). -/
def State.holdsParcel (s : State) (rq : Nat) (x : Rx) : Prop :=
  s.rx? rq = some x ∧ x.swept = true ∧ x.bad = false ∧ x.takenBy = none

/-- From s to t no Dareno port but p has changed. -/
def OnlyPort (s t : State) (p : Nat) : Prop := ∀ r, r ≠ p → t.fport r = s.fport r

/-- From s to t no reduction channel but c has changed. -/
def OnlyChannel (s t : State) (c : Nat) : Prop := ∀ n, n ≠ c → t.chan n = s.chan n

/-- A parcel has been emitted to a: it took the next ALIVE of a, and it is the newest of the resend ring (R350, R369). -/
structure Emitted (s t : State) (a : BitVec 20) (ptype : BitVec 4) (payload : List Byte) : Prop where
  alive : alGet 0 a.toNat t.fabric.alive = alGet 0 a.toNat s.fabric.alive + 1
  kept : ∃ p, t.fabric.resend.getLast? = some p ∧ p.dest = a ∧ p.src = s.addr ∧ p.ptype = ptype ∧ p.payload = payload ∧
    p.alive = alGet 0 a.toNat s.fabric.alive + 1

end Sys2Proof.Machine
end

