-- ==== Sys2Proof/Certificates/Slice0/Obligations.lean ====
section
/-! DEFINITION. The statements put to the provers. Each covers the rows of a family of commands or a rule of the whole module;
a statement about a command ends in the next state that the command answers, with what it leaves unchanged. -/

set_option maxRecDepth 4000
open Sys2Proof Sys2Proof.Machine

/-- A step with a command at the front of the queue is that command's meaning on the queue's rest. -/
def Obligations.StepRunsFront : Prop :=
  ∀ (c : Instr) (rest : List Instr) (s : State),
    s.pending = c :: rest → step s = exec c { s with pending := rest }

/-- Every command has an answer, and leaves the queue of waiting commands as it was. On an empty queue the module idles (the
model's choice, log 5): where its time base counts, the TSY time is one higher, the cores in a gap drive their row wires with
the next values of their LFSRs, and the governor's bucket refills and admits the index bytes that wait; nothing else changes,
and nothing leaves the module. -/
def Obligations.EveryStepGoesOn : Prop :=
  (∀ (i : Instr) (s : State), ∃ t, exec i s = .next t ∧ t.pending = s.pending) ∧
  (∀ s : State, s.pending = [] →
     ∃ t, step s = .next t ∧
       t.time.tsy = (if s.timeRuns then s.time.tsy + 1 else s.time.tsy) ∧
       t.cores = (if s.timeRuns then s.cores.map CoreSt.tick else s.cores) ∧
       (s.cellar.indexDue = 0 → t.cellar =
         { s.cellar with level := if s.govRuns then s.refilled else s.cellar.level } ∧ t.draws = s.draws) ∧
       (s.govRuns = false → t.cellar = s.cellar ∧ t.draws = s.draws) ∧
       t = { s with time := { s.time with tsy := t.time.tsy }, cores := t.cores, draws := t.draws
                    cellar := { s.cellar with
                      level := t.cellar.level, indexDue := t.cellar.indexDue, peakAt := t.cellar.peakAt } })

/-- Every step from a state whose addressed memories are in canonical form leaves them so. -/
def Obligations.StepKeepsMemoriesCanonical : Prop :=
  ∀ s t : State, s.memWf = true → step s = .next t → t.memWf = true

/-- Every step leaves every register file at the size the spec gives it: queue pairs, attention counts and codes, DMA engines,
memory ports, sections, cores, model slots, partitions, logs, Dareno ports, channels, outputs and dies. -/
def Obligations.StepKeepsShape : Prop :=
  ∀ s t : State, s.shaped = true → step s = .next t → t.shaped = true

/-- The state after reset has its addressed memories in canonical form. The state after reset has every register file at its
size. -/
def Obligations.ResetHoldsInvariants : Prop :=
  (State.reset.memWf = true ∧ State.reset.storesWf = true) ∧
  (State.reset.shaped = true)

/-- No step lowers the version counter: an imprint it refuses as a rollback stays refused. -/
def Obligations.VersionCounterNeverFalls : Prop :=
  ∀ s t : State, step s = .next t → s.nor.versionCounter.toNat ≤ t.nor.versionCounter.toNat

/-- The commands outside the list of touchesMemory leave the NOR flash, the core stores, the section stores, the cask outside
leaf table, directory and leaf pool, and the update area as they were: every address reads as before. -/
def Obligations.CommandsThatLeaveMemories : Prop :=
  ∀ (i : Instr) (s t : State), touchesMemory i = false → exec i s = .next t →
    t.nor = s.nor ∧ t.coreMem = s.coreMem ∧ t.sectMem = s.sectMem ∧ t.caskRaw = s.caskRaw ∧ t.malt.lpddr = s.malt.lpddr ∧
    t.pending = s.pending

/-- What reset leaves, of what the spec gives a value: every queue pair is disabled and without role, no attention is pending
and every count of it is 0, the serial number of every core is 0, the TSY time is 0, every memory port and Dareno port is down,
every leaf is free, and CONFIG is 0. No command waits. -/
def Obligations.ResetValues : Prop :=
  (∀ q, (State.reset.queue q).qstate = 0 ∧ (State.reset.queue q).role = 0 ∧ (State.reset.queue q).enable = false) ∧
  State.reset.port.attnPending = 0 ∧ (∀ n ∈ State.reset.port.attnCount, n = 0) ∧
  (∀ k ∈ State.reset.cores, k.serial = 0) ∧ State.reset.time.tsy = 0 ∧
  (∀ k ∈ State.reset.mem, k.state = 0) ∧ (∀ k ∈ State.reset.fabric.ports, k.state = 0) ∧
  (∀ h, State.reset.leaf h = Leaf.free) ∧ State.reset.power.config = 0 ∧ State.reset.pending = []

/-- NOP: completes with DONE and zero results; nothing but the queue pair, the started commands and the engines' buffer channels
changes. A completion whose ring is full, or whose pair holds others, or while Bus Master Enable is 0, is held after those;
nothing leaves the module. -/
def Obligations.CompletionEntries : Prop :=
  (∀ (s : State) (q tag : Nat) (c : Started), s.commandAt q tag 0x00 c →
     ∃ t, exec (.nop q tag) s = .next t ∧ Answered s t q tag (s.queue q) [] cDone 0 0 ∧
       t = { s with out := t.out, port := s.portOf t }) ∧
  (∀ (s : State) (q tag : Nat) (c : Started), s.started? q tag = some c → c.opc = 0x00 → c.begun = false →
     c.discard = false → s.bufReady c = true → q < s.port.queues.length → (s.queue q).qstate = 1 →
     ((s.queue q).cqFull = true ∨ (s.queue q).held ≠ [] ∨ s.port.busMaster = false) →
     ∃ t, exec (.nop q tag) s = .next t ∧ t.out = s.out ∧ t.started? q tag = none ∧
       t.queue q = { s.queue q with held := (s.queue q).held ++ [⟨cDone, tag, 0, 0⟩] } ∧
       ∀ p, p ≠ q → t.queue p = s.queue p)

/-- A fetched entry of a permitted opcode in a good form starts: the pair's SQ_HEAD moves past it, the next fetch begins with
the next pair, and the command is started under the pair's role with its arguments. A POWER_SET of STATE 0 or 1 is another
matter. -/
def Obligations.SubmissionStarts : Prop :=
  ∀ (s : State) (q : Nat) (ws : List W32), s.fetches = true → s.nextPair = some q → s.shaped = true →
    ((wd ws 0).getLsbD 8 = false ∨ s.port.started.any (fun c => c.q == q) = false) →
    bits (wd ws 0) 7 0 ∈ opcodes → roleMay (s.queue q).role (bits (wd ws 0) 7 0) = true →
    s.configMay (s.queue q).role (bits (wd ws 0) 7 0) ((ws.drop 1).take 11) = true →
    entryForm ws (bits (s.sys 1) 16 0) = cDone → bits (wd ws 0) 7 0 ≠ 0x41 →
    ∃ t, exec (.submissionFetch (.entry ws)) s = .next t ∧ t.out = s.out ∧
      t.queue q = { s.queue q with sqHead := ((s.queue q).sqHead + 1) % ringEntries (s.queue q).lSqLog } ∧
      t.port.rrNext = (q + 1) % 16 ∧ t.port.started.length = s.port.started.length + 1 ∧
      (∃ c ∈ t.port.started, c.q = q ∧ c.tag = bits (wd ws 0) 31 16 ∧ c.opc = bits (wd ws 0) 7 0 ∧
        c.args = (ws.drop 1).take 11 ∧ c.role = (s.queue q).role ∧ c.begun = false ∧ c.discard = false)

/-- A fetched entry that its pair's role or CONFIG does not permit completes at once with ROLE_DENIED, and one in a bad form
with the code of its fault; no command starts, and no register but the pair's and the round-robin's changes. A bus error or a
completion error of a fetch halts the pair with HALT_CAUSE 2 or 3, raises the class of faults that need software with
DMA_BUS_ERROR, and starts nothing. -/
def Obligations.SubmissionsThatFail : Prop :=
  (∀ (s : State) (q : Nat) (ws : List W32) (code : Code), s.fetches = true → s.nextPair = some q → s.takesEntry q = true →
     ((wd ws 0).getLsbD 8 = false ∨ s.port.started.any (fun c => c.q == q) = false) →
     code = (if bits (wd ws 0) 7 0 ∉ opcodes then cAlign
       else if roleMay (s.queue q).role (bits (wd ws 0) 7 0) = false ∨
         s.configMay (s.queue q).role (bits (wd ws 0) 7 0) ((ws.drop 1).take 11) = false then cRole
       else entryForm ws (bits (s.sys 1) 16 0)) → code ≠ cDone →
     ∃ t, exec (.submissionFetch (.entry ws)) s = .next t ∧ t.port.started = s.port.started ∧
       t.out = s.out ++ [entryOut
         { s.queue q with sqHead := ((s.queue q).sqHead + 1) % ringEntries (s.queue q).lSqLog }
         s.port.attnPending code (bits (wd ws 0) 31 16) 0 0] ∧
       t = { s with out := t.out, port := { s.port with queues := t.port.queues, rrNext := t.port.rrNext } }) ∧
  (∀ (s : State) (q : Nat), s.fetches = true → s.nextPair = some q → s.shaped = true →
     ∀ x ∈ [(HostFetch.busError, 2), (HostFetch.completionError, 3)],
     ∃ t, exec (.submissionFetch x.1) s = .next t ∧
       t.queue q = { s.queue q with qstate := 2, haltCause := x.2 } ∧ t.port.attnPending.getLsbD 6 = true ∧
       t.port.started = s.port.started ∧ t.out = s.out ∧ (∀ p, p ≠ q → t.queue p = s.queue p))

/-- Setting ENABLE on a disabled pair with good sizes and bases makes it run from empty rings; clearing it on a running pair
without started commands disables it and takes its role. SQ_TAIL and CQ_HEAD of a running pair: a value below the ring size is
kept, one that is not halts the pair with HALT_CAUSE 1. -/
def Obligations.QueuesAndDoorbells : Prop :=
  (∀ (s : State) (q : Nat) (v : W32), s.barOpen = true → s.shaped = true → q < 16 →
     (v.getLsbD 8 = true → (s.queue q).enable = false → (s.queue q).qstate = 0 →
       within 4 12 (bits v 3 0) = true → within 4 12 (bits v 7 4) = true →
       (s.queue q).sqBase &&& 63#64 = 0 → (s.queue q).cqBase &&& 63#64 = 0 →
       ∃ t, exec (.queueEnable q v) s = .next t ∧ (t.queue q).qstate = 1 ∧ (t.queue q).enable = true ∧
         (t.queue q).sqHead = 0 ∧ (t.queue q).sqTail = 0 ∧ (t.queue q).cqHead = 0 ∧ (t.queue q).cqTail = 0 ∧
         (t.queue q).phase = true ∧ (t.queue q).lSqBase = (s.queue q).sqBase ∧ (t.queue q).lCqBase = (s.queue q).cqBase ∧
         (∀ p, p ≠ q → t.queue p = s.queue p) ∧ t.out = s.out) ∧
     (v.getLsbD 8 = false → (s.queue q).qstate = 1 → s.port.started.any (fun c => c.q == q) = false →
       ∃ t, exec (.queueDisable q v) s = .next t ∧ (t.queue q).qstate = 0 ∧ (t.queue q).role = 0 ∧
         (t.queue q).enable = false ∧ (t.queue q).held = [] ∧ (∀ p, p ≠ q → t.queue p = s.queue p) ∧ t.out = s.out) ∧
     (v.getLsbD 8 = false → (s.queue q).qstate = 1 → s.port.started.any (fun c => c.q == q) = true →
       ∃ t, exec (.queueDisable q v) s = .next t ∧ (t.queue q).qstate = 3 ∧ (t.queue q).role = (s.queue q).role ∧
         (∀ c ∈ t.port.started, c.q = q → c.discard = true) ∧ (∀ p, p ≠ q → t.queue p = s.queue p) ∧ t.out = s.out)) ∧
  (∀ (s : State) (q : Nat) (v : W32), s.barOpen = true → s.shaped = true → q < 16 → (s.queue q).qstate = 1 →
     (bits v 15 0 < ringEntries (s.queue q).lSqLog →
       ∃ t, exec (.sqTail q v) s = .next t ∧ t.queue q = { s.queue q with sqTail := bits v 15 0 } ∧
         t = { s with port := { s.port with queues := t.port.queues }, power := { s.power with queuedWake := t.power.queuedWake } } ∧
         ∀ p, p ≠ q → t.queue p = s.queue p) ∧
     (ringEntries (s.queue q).lSqLog ≤ bits v 15 0 →
       ∃ t, exec (.sqTail q v) s = .next t ∧ t.queue q = { s.queue q with qstate := 2, haltCause := 1 } ∧
         t.port.attnPending.getLsbD 6 = true) ∧
     (bits v 15 0 < ringEntries (s.queue q).lCqLog → (s.queue q).held = [] →
       ∃ t, exec (.cqHead q v) s = .next t ∧ t.queue q = { s.queue q with cqHead := bits v 15 0 } ∧
         t = { s with port := { s.port with queues := t.port.queues }, power := { s.power with queuedWake := t.power.queuedWake } } ∧
         ∀ p, p ≠ q → t.queue p = s.queue p) ∧
     (ringEntries (s.queue q).lCqLog ≤ bits v 15 0 →
       ∃ t, exec (.cqHead q v) s = .next t ∧ t.queue q = { s.queue q with qstate := 2, haltCause := 1 } ∧
         t.port.attnPending.getLsbD 6 = true))

/-- A W1C bit of ATTN_PENDING set in the cycle in which software clears it stays set; an RC field read in the cycle of an event
returns its value before the event, and the event is kept for the next read. -/
def Obligations.ClearAndEventInOneCycle : Prop :=
  ∀ s : State, s.barOpen = true → s.shaped = true →
    (∀ (v : W32) (ev : BitVec 8) (c : Nat), 1 ≤ c → c ≤ 7 →
      ∃ t, exec (.attnPendingClear v ev) s = .next t ∧
        t.port.attnPending.getLsbD c = (ev.getLsbD c || (s.port.attnPending.getLsbD c && !v.getLsbD c)) ∧
        t = { s with port := { s.port with attnPending := t.port.attnPending }
                     power := { s.power with queuedWake := t.power.queuedWake } }) ∧
    (∀ (off : Nat) (ev : Bool) (v : Nat) (u : State), s.readClear off ev = some (v, u) →
      ∃ t, exec (.readClearField off ev) s = .next t ∧ t.out = s.out ++ [.read (w32 v)] ∧
        (s.readClear off false).map (·.1) = some v ∧
        (t.readClear off false).map (·.1) = some (if ev then 1 else 0))

/-- A read of TIME_LO returns bits [31:0] of the TSY time and latches bits [63:32] in TIME_HI; a write to a queue's base
register replaces its word; a write to any other offset changes no register. -/
def Obligations.RegisterAccesses : Prop :=
  ∀ s : State, s.barOpen = true → s.shaped = true →
    (∃ t, exec .timeLoRead s = .next t ∧ t.out = s.out ++ [.read (s.time.tsy.extractLsb' 0 32)] ∧
      t.port = { s.port with timeHi := s.time.tsy.extractLsb' 32 32 } ∧
      t = { s with out := t.out, port := t.port, power := { s.power with queuedWake := t.power.queuedWake } }) ∧
    (∀ (q : Nat) (v : W32), q < 16 →
      ∃ t, exec (.registerWriteOther (0x100 + 0x40 * q) v 4) s = .next t ∧
        (t.queue q).sqBase = (s.queue q).sqBase.extractLsb' 32 32 ++ v ∧
        (t.queue q).cqBase = (s.queue q).cqBase ∧ (t.queue q).qstate = (s.queue q).qstate ∧
        ∀ p, p ≠ q → t.queue p = s.queue p) ∧
    (∀ (off : Nat) (v : W32) (size : Nat), (off < 0x100 ∨ 0x500 ≤ off ∨ 0x10 ≤ off % 0x40 ∨ size ≠ 4 ∨ off % 4 ≠ 0) →
      ∃ t, exec (.registerWriteOther off v size) s = .next t ∧ t.port = s.port ∧ t.out = s.out)

/-- Every PCI Express reset of the control port disables every queue pair and takes its role, leaves Bus Master Enable and
Memory Space Enable 0, and keeps ATTN_PENDING; the core stores, the section stores and the cask keep their contents. PERST#
brings the link down with it. A hot reset or function level reset needs the link. PERST# released: the link comes up where the
die is powered, and is a wake event where it is not. A retrained link ends the assertion of WAKE#. A configuration write sets
its bit where the link is up, and one for an absent feature sets nothing. -/
def Obligations.PortResetsAndLink : Prop :=
  (∀ s : State, s.shaped = true →
     ∀ i ∈ [Instr.conventionalReset, .hotReset, .functionLevelReset], (i = .conventionalReset ∨ s.port.linkUp = true) →
     ∃ t, exec i s = .next t ∧ (∀ q, q < 16 → (t.queue q).qstate = 0 ∧ (t.queue q).role = 0 ∧ (t.queue q).enable = false) ∧
       t.port.busMaster = false ∧ t.port.memSpace = false ∧ t.port.attnPending = s.port.attnPending ∧
       (∀ c ∈ t.port.started, c.discard = true) ∧ (i = .conventionalReset → t.port.linkUp = false) ∧
       t.coreMem = s.coreMem ∧ t.sectMem = s.sectMem ∧ t.caskRaw = s.caskRaw ∧ t.cmds = s.cmds ∧ t.streams = s.streams) ∧
  (∀ s : State,
     (∀ b, ∃ t, exec (.perstRelease b) s = .next t ∧
       t = { s with port := { s.port with hostClock := b, linkUp := s.dieOn }
                    power := { s.power with queuedWake := t.power.queuedWake } } ∧
       t.power.queuedWake = (s.power.queuedWake || !s.dieOn)) ∧
     (s.dieOn = true → ∃ t, exec .linkRetrained s = .next t ∧ t.port.linkUp = true ∧ t.board.wake = false ∧
       t = { s with port := t.port, board := { s.board with wake := false } }) ∧
     (s.port.linkUp = true → ∀ b,
       (∃ t, exec (.configWrite (.memorySpace b)) s = .next t ∧ t.port = { s.port with memSpace := b } ∧ t.out = s.out) ∧
       (∃ t, exec (.configWrite (.d3hot b)) s = .next t ∧ t.port = { s.port with d3hot := b } ∧ t.out = s.out) ∧
       (∃ t, exec (.configWrite .absent) s = .next t ∧ t.port = s.port ∧ t.out = s.out)) ∧
     (s.port.linkUp = true → (∀ q, (s.queue q).held = []) → ∀ b,
       ∃ t, exec (.configWrite (.busMaster b)) s = .next t ∧ t.port = { s.port with busMaster := b } ∧ t.out = s.out))

/-- OPEN_SESSION, STEP 0: unless sessions are denied, a challenge is drawn, kept on the pair and returned, low word first. The
challenge is a free value. OPEN_SESSION, STEP 1, with an answer that verifies: the pair takes the role and key of ARG1, the
challenge is used up, and the count of failures starts again. An installer's answer to a zero KEY_HASH enrols: the anchor takes
its key; another leaves the flash as it was. -/
def Obligations.SessionsOpen : Prop :=
  (∀ (s : State) (q tag : Nat) (c : Started), s.commandAt q tag 0x01 c → (c.arg 1).getLsbD 0 = false →
     s.sessionDenied (bits (c.arg 1) 3 2) (bits (c.arg 1) 6 4) = false →
     ∃ (t : State) (ch : W64), exec (.openSessionChallenge q tag) s = .next t ∧ ch = Config.freeDraw s.draws ∧
       Answered s t q tag { s.queue q with challenge := some ch } [] cDone (ch.extractLsb' 0 32) (ch.extractLsb' 32 32) ∧
       t = { s with out := t.out, port := s.portOf t, draws := s.draws + 1 }) ∧
  (∀ (s : State) (q tag : Nat) (c : Started) (a : SessionAnswer), s.commandAt q tag 0x01 c → (c.arg 1).getLsbD 0 = true →
     s.sessionDenied (bits (c.arg 1) 3 2) (bits (c.arg 1) 6 4) = false → (s.queue q).challenge ≠ none →
     s.answerOk (bits (c.arg 1) 3 2) a = true →
     ((bits (c.arg 1) 3 2 = 2 ∧ s.nor.keyHash = 0) → 59648 ≤ c.bufBytes) →
     ∃ t, exec (.openSessionAnswer q tag a) s = .next t ∧
       Answered s t q tag { s.queue q with role := bits (c.arg 1) 3 2, key := bits (c.arg 1) 6 4, challenge := none } [] cDone
         0 0 ∧
       t.ident = { s.ident with failures := 0 } ∧
       t.nor = (if bits (c.arg 1) 3 2 = 2 ∧ s.nor.keyHash = 0
         then { s.nor with keyHash := a.keyHash, anchorSerial := s.nor.anchorSerial + 1 } else s.nor) ∧
       t = { s with out := t.out, port := s.portOf t, ident := t.ident, nor := t.nor, errata := t.errata })

/-- A failed answer leaves the pair's role as it was, completes with SIGNATURE_INVALID, discards the challenge, raises security
attention and is counted; the eighth in a row locks sessions out. An answer without a valid challenge on its pair is denied.
While sessions are locked out every OPEN_SESSION of either step completes with ROLE_DENIED, and no pair's role changes.
CLOSE_SESSION ends the pair's session, whose ROLE becomes none; a maker session that has lasted 4 hours loses it too; a
challenge of 60 s is gone; 60 s after the eighth failure sessions open again. -/
def Obligations.SessionsFailAndEnd : Prop :=
  (∀ (s : State) (q tag : Nat) (c : Started) (a : SessionAnswer), s.commandAt q tag 0x01 c → (c.arg 1).getLsbD 0 = true →
     s.sessionDenied (bits (c.arg 1) 3 2) (bits (c.arg 1) 6 4) = false →
     ((s.queue q).challenge ≠ none →
       (s.answerOk (bits (c.arg 1) 3 2) a = false ∨
         (bits (c.arg 1) 3 2 = 2 ∧ s.nor.keyHash = 0 ∧ c.bufBytes < 59648)) →
       ∃ t, exec (.openSessionAnswer q tag a) s = .next t ∧
         Answered s t q tag { s.queue q with challenge := none } [] cSig 0 0 ∧ t.port.attnPending.getLsbD 4 = true ∧
         t.nor = s.nor ∧ t.ident.lockout = decide (7 ≤ s.ident.failures) ∧
         t.ident.failures = (if s.ident.failures < 7 then s.ident.failures + 1 else 0)) ∧
     ((s.queue q).challenge = none →
       ∃ t, exec (.openSessionAnswer q tag a) s = .next t ∧ Answered s t q tag (s.queue q) [] cRole 0 0 ∧
         t.port.attnPending.getLsbD 4 = true ∧ t.ident = s.ident ∧ t.nor = s.nor)) ∧
  (∀ (s : State) (q tag : Nat) (c : Started) (a : SessionAnswer), s.commandAt q tag 0x01 c → s.ident.lockout = true →
     ∀ i, i = (if (c.arg 1).getLsbD 0 then Instr.openSessionAnswer q tag a else .openSessionChallenge q tag) →
     ∃ t, exec i s = .next t ∧ Answered s t q tag (s.queue q) [] cRole 0 0 ∧ t.ident = s.ident ∧ t.nor = s.nor) ∧
  (∀ (s : State) (q : Nat), s.shaped = true → q < 16 →
     (∀ tag c, s.commandAt q tag 0x02 c → ∃ t, exec (.closeSession q tag) s = .next t ∧
       Answered s t q tag { s.queue q with role := 0, key := if (s.queue q).role = 0 then (s.queue q).key else 0 } [] cDone 0 0 ∧
       t = { s with out := t.out, port := s.portOf t, errata := t.errata }) ∧
     ((s.queue q).role = 3 → ∃ t, exec (.makerSessionExpiry q) s = .next t ∧
       t.queue q = { s.queue q with role := 0, key := 0 } ∧
       (∀ p, p ≠ q → t.queue p = s.queue p) ∧ t = { s with port := { s.port with queues := t.port.queues }, errata := t.errata }) ∧
     (∃ t, exec (.challengeExpiry q) s = .next t ∧ t.queue q = { s.queue q with challenge := none } ∧
       (∀ p, p ≠ q → t.queue p = s.queue p) ∧ t = { s with port := { s.port with queues := t.port.queues } }) ∧
     (∃ t, exec .sessionLockoutExpiry s = .next t ∧ t = { s with ident := { s.ident with lockout := false } }))

/-- SIMMER disables or enables simmer in the sections ARG1 [3:0] names, and leaves the others as they were. A core of a section
where it is disabled that is in a gap goes to idle at once. POWER_CAP sets the operator cap and returns the cap in effect: the
least of CAP_LIMIT, the operator cap when set, and CAP_SYNC while the SYNC pin is assigned to throttling and asserted. -/
def Obligations.SimmerAndCap : Prop :=
  (∀ (s : State) (q tag : Nat) (c : Started), s.commandAt q tag 0x40 c →
     ((c.arg 1).getLsbD 8 = true → ∃ t, exec (.simmerDisable q tag) s = .next t ∧
       Answered s t q tag (s.queue q) [] cDone 0 0 ∧
       (∀ k, k < 4 → t.port.simmerOff.getLsbD k = (s.port.simmerOff.getLsbD k || (c.arg 1).getLsbD k)) ∧
       (∀ k, k < 64 → t.cores[k]? = (s.cores[k]?).map fun x =>
         if (c.arg 1).getLsbD (k / 16) then { x with simmer := 0, ramp := 8 } else x) ∧
       t = { s with out := t.out, cores := t.cores, port := { s.portOf t with simmerOff := t.port.simmerOff } }) ∧
     ((c.arg 1).getLsbD 8 = false → ∃ t, exec (.simmerEnable q tag) s = .next t ∧
       Answered s t q tag (s.queue q) [] cDone 0 0 ∧
       (∀ k, k < 4 → t.port.simmerOff.getLsbD k = (s.port.simmerOff.getLsbD k && !(c.arg 1).getLsbD k)) ∧
       t = { s with out := t.out, port := { s.portOf t with simmerOff := t.port.simmerOff } })) ∧
  (∀ (s : State) (q tag : Nat) (c : Started) (op : Nat), s.commandAt q tag 0x42 c → op = bits (c.arg 1) 15 0 →
     ∃ (t : State) (cap : Nat), exec (.powerCap q tag) s = .next t ∧ Answered s t q tag (s.queue q) [] cDone (w32 cap) 0 ∧
       cap ≤ s.capLimit ∧ (op ≠ 0 → cap ≤ op) ∧
       ((s.modw 0).getLsbD 21 = true → s.power.syncCap = true → cap ≤ bits (s.sys 52) 31 16) ∧
       (cap = s.capLimit ∨ (op ≠ 0 ∧ cap = op) ∨
         ((s.modw 0).getLsbD 21 = true ∧ s.power.syncCap = true ∧ cap = bits (s.sys 52) 31 16)) ∧
       t = { s with out := t.out, port := s.portOf t, power := { s.power with opCap := op } })

/-- The commands that answer with data write it to their buffer and then complete; of the rest of the module READ_SPARES changes
the errata log, the others nothing. READ_TABLE gives the entries in index order; READ_ERRATA the records from the SEQ named on;
ATTEST the report and its signature; READ_TELEMETRY the latest record; READ_SPARES the spares' report. -/
def Obligations.CommandsThatRead : Prop :=
  ∀ (s : State) (q tag : Nat) (c : Started),
    (s.commandAt q tag 0x20 c → ∃ t, exec (.readTable q tag) s = .next t ∧
      Answered s t q tag (s.queue q) [.host c.bufAddr ((List.range (c.arg 3).toNat).flatMap fun i =>
        wordsBytes (s.tableEntry (bits (c.arg 1) 3 0) ((c.arg 2).toNat + i)))] cDone (w32 (c.arg 3).toNat) 0 ∧
      t = { s with out := t.out, port := s.portOf t }) ∧
    (s.commandAt q tag 0x54 c → ∃ t, exec (.readErrata q tag) s = .next t ∧
      Answered s t q tag (s.queue q) [.host c.bufAddr (s.errataRun (c.arg 3).toNat (c.arg 2 ++ c.arg 1).toNat).flatten] cDone
        (w32 (s.errataRun (c.arg 3).toNat (c.arg 2 ++ c.arg 1).toNat).length) (w32 s.errataOldest) ∧
      t = { s with out := t.out, port := s.portOf t }) ∧
    (s.commandAt q tag 0x58 c → ∃ t r, exec (.attest q tag) s = .next t ∧ r = s.report [c.arg 1, c.arg 2] ∧
      Answered s t q tag (s.queue q) [.host c.bufAddr (r ++ (List.range 17088).map (Config.attestSign r))] cDone 0 0 ∧
      t = { s with out := t.out, port := s.portOf t }) ∧
    (s.commandAt q tag 0x43 c → ∃ t ws, exec (.readTelemetry q tag) s = .next t ∧ ws.length = 16 ∧
      (∀ i, i < 16 → wd ws i = wd s.power.telemetry i) ∧
      Answered s t q tag (s.queue q) [.host c.bufAddr (wordsBytes ws)] cDone 0 0 ∧
      t = { s with out := t.out, port := s.portOf t }) ∧
    (s.commandAt q tag 0x64 c → ∃ t, exec (.readSpares q tag) s = .next t ∧
      Answered s t q tag (s.queue q) [.host c.bufAddr (wordsBytes s.spareReport)] cDone 0 0 ∧
      t = { s with out := t.out, port := s.portOf t, errata := t.errata })

/-- LOAD_TABLE of schedule entries in range and form: each entry named holds its loaded words, every other its former ones.
OPEN_WINDOW sets the companion colophon, replacing another; CLOSE_WINDOW and the window's expiry take it away. -/
def Obligations.LoadsAndWindows : Prop :=
  (∀ (s : State) (q tag : Nat) (c : Started) (es : List W32), s.commandAt q tag 0x21 c → bits (c.arg 1) 3 0 = 6 →
     es.length = 8 * (c.arg 3).toNat → (c.arg 2).toNat + (c.arg 3).toNat ≤ 256 →
     (∀ i, i < (c.arg 3).toNat → entryOk 6 ((es.drop (8 * i)).take 8) = true) →
     ∃ t, exec (.loadTable q tag es) s = .next t ∧ Answered s t q tag (s.queue q) [] cDone (c.arg 3) s.fabric.dirVersion ∧
       (∀ i, i < (c.arg 3).toNat → t.tableEntry 6 ((c.arg 2).toNat + i) = (es.drop (8 * i)).take 8) ∧
       (∀ i, (i < (c.arg 2).toNat ∨ (c.arg 2).toNat + (c.arg 3).toNat ≤ i) → t.tableEntry 6 i = s.tableEntry 6 i) ∧
       t = { s with out := t.out, port := s.portOf t, malt := { s.malt with schedules := t.malt.schedules } }) ∧
  (∀ s : State,
     (∀ q tag c d, s.commandAt q tag 0x55 c → ∃ t, exec (.openWindow q tag d) s = .next t ∧
       Answered s t q tag (s.queue q) [] cDone 0 0 ∧ t.ident = { s.ident with window := some d } ∧
       t = { s with out := t.out, port := s.portOf t, ident := t.ident, errata := t.errata }) ∧
     (∀ q tag c, s.commandAt q tag 0x56 c → ∃ t, exec (.closeWindow q tag) s = .next t ∧
       Answered s t q tag (s.queue q) [] cDone 0 0 ∧ t.ident = { s.ident with window := none } ∧
       t = { s with out := t.out, port := s.portOf t, ident := t.ident, errata := t.errata }) ∧
     (∃ t, exec .windowExpiry s = .next t ∧ t.ident = { s.ident with window := none } ∧
       t = { s with ident := t.ident, errata := t.errata }))

/-- INSTALL_IMPRINT of an acceptable image writes the slot that is not running and makes it PREFERRED, and one with rotation
moves the anchor to its signer's key; one that fails its checks changes nothing of the flash and completes with their code, a
bad signature or a lower version with security attention. INSTALL_FIRMWARE with a good signature writes the firmware of that
slot and leaves PREFERRED; with a bad one it completes with SIGNATURE_INVALID and the flash is unchanged. COMMIT_VERSION raises
the version counter to the version of the imprint that runs, never lowers it, and makes PREV_HASH zero. -/
def Obligations.Installs : Prop :=
  (∀ (s : State) (q tag : Nat) (c : Started),
     (∀ im : Imprint, s.commandAt q tag 0x50 c → imprintBytes im.rotation ≤ c.bufBytes →
       (im.rotation = false ∨ s.nor.prevHash = 0) →
       (judge s.nor true (s.nor.fwOf s.otherSlot) (some im)).1 = cDone →
       ∃ t, exec (.installImprint q tag im) s = .next t ∧ Answered s t q tag (s.queue q) [] cDone (imprintVersion im) 0 ∧
         t.nor = { s.nor with
           im := s.nor.im.set s.otherSlot (some im), preferred := s.otherSlot
           keyHash := if im.rotation then im.signerHash else s.nor.keyHash
           prevHash := if im.rotation then s.nor.keyHash else s.nor.prevHash
           anchorSerial := if im.rotation then s.nor.anchorSerial + 1 else s.nor.anchorSerial } ∧
         t = { s with out := t.out, port := s.portOf t, nor := t.nor, errata := t.errata }) ∧
     (∀ im : Imprint, s.commandAt q tag 0x50 c → imprintBytes im.rotation ≤ c.bufBytes →
       (im.rotation = false ∨ s.nor.prevHash = 0) → (judge s.nor true (s.nor.fwOf s.otherSlot) (some im)).1 ≠ cDone →
       ∃ t, exec (.installImprint q tag im) s = .next t ∧
         Answered s t q tag (s.queue q) [] (judge s.nor true (s.nor.fwOf s.otherSlot) (some im)).1 (imprintVersion im)
           (w32 (judge s.nor true (s.nor.fwOf s.otherSlot) (some im)).2) ∧ t.nor = s.nor ∧
         (classOf (judge s.nor true (s.nor.fwOf s.otherSlot) (some im)).1 = 4 → t.port.attnPending.getLsbD 4 = true)) ∧
     (∀ fw : Firmware, s.commandAt q tag 0x51 c →
       ∃ t, exec (.installFirmware q tag fw) s = .next t ∧
         Answered s t q tag (s.queue q) [] (if fw.sigOk then cDone else cSig) fw.version 0 ∧
         (fw.sigOk = false → t.port.attnPending.getLsbD 4 = true) ∧
         t.nor = (if fw.sigOk then { s.nor with fw := s.nor.fw.set s.otherSlot (some fw) } else s.nor))) ∧
  (∀ (s : State) (q tag : Nat) (c : Started) (im : Imprint), s.commandAt q tag 0x52 c → s.ident.imprint = some im →
     ∃ t, exec (.commitVersion q tag) s = .next t ∧
       Answered s t q tag (s.queue q) [] cDone t.nor.versionCounter t.nor.anchorSerial ∧
       t.nor.versionCounter.toNat = max s.nor.versionCounter.toNat (imprintVersion im).toNat ∧ t.nor.prevHash = 0 ∧
       t.nor.keyHash = s.nor.keyHash ∧ t.nor.fw = s.nor.fw ∧ t.nor.im = s.nor.im ∧ t.nor.preferred = s.nor.preferred ∧
       t = { s with out := t.out, port := s.portOf t, nor := t.nor, errata := t.errata })

/-- At 1 s the record being folded is written with the next SEQ, while the ring has room and fewer than 1 024 records wait to be
mirrored. -/
def Obligations.ErrataFold : Prop :=
  ∀ (s : State) (r : ErrRec), s.errata.fold = some r → s.errata.ring.length < ringSize →
    s.errata.unmirrored.length < 1023 →
    ∃ t, exec .errataFoldFlush s = .next t ∧ t.errata.fold = none ∧ t.errata.nextSeq = s.errata.nextSeq + 1 ∧
      (∃ ch, t.errata.ring = s.errata.ring ++ [{ r with seq := s.errata.nextSeq, chain := ch }] ∧ t.errata.chain = ch) ∧
      t = { s with errata := t.errata }

/-- DMA_START of a transfer that passes its checks arms the channel, which keeps the addresses, sizes and pitches of its
arguments; the command stays started, and nothing else changes. One that fails its checks completes with their code, and one
that has nothing to move with DONE; neither arms a channel. -/
def Obligations.DmaStartArms : Prop :=
  ∀ (s : State) (q tag : Nat) (c : Started), s.commandAt q tag 0x30 c →
    (s.dmaCheck c ≠ cDone → ∃ t, exec (.dmaStart q tag) s = .next t ∧
      Answered s t q tag (s.queue q) [] (s.dmaCheck c) 0 0 ∧ t = { s with out := t.out, port := s.portOf t }) ∧
    (s.dmaCheck c = cDone → (c.arg 7 = 0 ∨ c.arg 8 = 0) → ∃ t, exec (.dmaStart q tag) s = .next t ∧
      Answered s t q tag (s.queue q) [] cDone 0 0 ∧ t = { s with out := t.out, port := s.portOf t }) ∧
    (∀ ch, s.dmaCheck c = cDone → c.arg 7 ≠ 0 → c.arg 8 ≠ 0 →
    ((s.port.engines[bits (c.arg 1) 1 0]?).bind fun e => e.channels[bits (c.arg 1) 3 2]?) = some ch →
    ∃ t, exec (.dmaStart q tag) s = .next t ∧
      t.channel (bits (c.arg 1) 1 0) (bits (c.arg 1) 3 2) =
        { src := c.arg 3 ++ c.arg 2, dst := c.arg 5 ++ c.arg 4, cfg := c.arg 6, rows := c.arg 7, rowBytes := c.arg 8,
          srcPitch := c.arg 9, dstPitch := c.arg 10, state := 1, dir := false, cause := 0, queue := q, tag := tag,
          fail := 0, done := 0 } ∧
      (∀ e n, (e, n) ≠ (bits (c.arg 1) 1 0, bits (c.arg 1) 3 2) → t.channel e n = s.channel e n) ∧
      t.started? q tag = some { c with begun := true } ∧
      t = { s with port := { s.port with engines := t.port.engines, started := t.port.started } })

/-- SRC, DST, ROW_BYTES, SRC_PITCH and DST_PITCH are multiples of 64 bytes, and in transpose mode ROWS × E is one as well; else
the command completes with DMA_ALIGN and no channel starts. -/
def Obligations.DmaAlignment : Prop :=
  ∀ (s : State) (q tag : Nat) (c : Started), s.commandAt q tag 0x30 c → c.chan = none →
    s.spaceDenied c.role (cfgSrc (c.arg 6)) (c.arg 3 ++ c.arg 2) = false →
    s.spaceDenied c.role (cfgDst (c.arg 6)) (c.arg 5 ++ c.arg 4) = false →
    ((c.arg 2).toNat % 64 ≠ 0 ∨ (c.arg 4).toNat % 64 ≠ 0 ∨ (c.arg 8).toNat % 64 ≠ 0 ∨ (c.arg 9).toNat % 64 ≠ 0 ∨
      (c.arg 10).toNat % 64 ≠ 0 ∨
      ((c.arg 6).getLsbD 6 = true ∧ (c.arg 7).toNat * cfgElem (c.arg 6) % 64 ≠ 0)) →
    ∃ t, exec (.dmaStart q tag) s = .next t ∧ Answered s t q tag (s.queue q) [] cDmaAlign 0 0 ∧
      (∀ e n, n < 4 → t.channel e n = s.channel e n) ∧ t = { s with out := t.out, port := s.portOf t }

/-- The channel path serves one channel at a time: while none runs or is halted, the armed channel of lowest number above the
one last served, wrapping to 0, runs next; while one does, none starts. A channel that stops before its first block halts: the
block, the direction and the cause are latched, attention is raised, and the command stays started. Where the cause is no
uncorrectable source sector, nothing has moved. DMA_CONTROL by an installer of a halted channel: a resume makes it run again; an
abort makes it idle, completes the halted command with DMA_BUS_ERROR and the bytes it moved, and then completes itself. -/
def Obligations.DmaChannelsServed : Prop :=
  (∀ (s : State) (sec : Nat) (e : Dma), s.port.engines[sec]? = some e →
     (e.busy = true → exec (.dmaChannelStart sec) s = .next s) ∧
     (∀ n, e.busy = false → e.next = some n →
       ∃ t, exec (.dmaChannelStart sec) s = .next t ∧ t.channel sec n = { s.channel sec n with state := 2 } ∧
         (∀ k m, (k, m) ≠ (sec, n) → t.channel k m = s.channel k m) ∧ (s.channel sec n).state = 1 ∧
         (∀ m, m < 8 → (s.channel sec m).state = 1 → (n + 7 - e.last) % 8 ≤ (m + 7 - e.last) % 8 ∨ 8 ≤ e.last) ∧
         t = { s with port := { s.port with engines := t.port.engines } })) ∧
  (∀ (s : State) (sec : Nat) (e : Dma) (cause : BitVec 4) (dir : Bool) (addr : W64) (host : HostData),
     s.port.engines[sec]? = some e → (s.channel sec e.current).state = 2 → (s.channel sec e.current).done = 0 →
     ∃ t, exec (.dmaHalt sec cause dir addr 0 host) s = .next t ∧
       (t.channel sec e.current).state = 3 ∧ (t.channel sec e.current).dir = dir ∧
       (t.channel sec e.current).cause = cause ∧ (t.channel sec e.current).fail = addr ∧
       t.port.attnPending.getLsbD 6 = true ∧
       (cause ≠ 6 →
         t.channel sec e.current = { s.channel sec e.current with state := 3, dir := dir, cause := cause, fail := addr } ∧
         t.port.started = s.port.started ∧ t.out = s.out ∧ t.coreMem = s.coreMem ∧ t.sectMem = s.sectMem ∧
         t.caskRaw = s.caskRaw)) ∧
  (∀ (s : State) (q tag : Nat) (c : Started) (sec n : Nat), s.commandAt q tag 0x31 c → c.role = 2 →
     (sec, n) = ctrlChannel c → (s.channel sec n).state = 3 → c.q = q → c.tag = tag →
     (bits (c.arg 1) 9 8 = 1 → n < 4 → c.chan = none →
       ∃ t, exec (.dmaControlResume q tag) s = .next t ∧ Answered s t q tag (s.queue q) [] cDone 0 0 ∧
         t.channel sec n = { s.channel sec n with state := 2, cause := 0 } ∧
         t = { s with out := t.out, port := s.portOf t }) ∧
     (∀ u, bits (c.arg 1) 9 8 = 2 → n < 4 → c.chan = none →
       s.started? (s.channel sec n).queue (s.channel sec n).tag = some u →
       u.discard = false → u.chan = none → (s.channel sec n).queue ≠ q → s.takesEntry (s.channel sec n).queue = true →
       ∃ t, exec (.dmaControlAbort q tag) s = .next t ∧
         t.out = s.out ++
           [entryOut (s.queue (s.channel sec n).queue) s.port.attnPending cDmaBus (s.channel sec n).tag
             ((s.channel sec n).done.extractLsb' 0 32) ((s.channel sec n).done.extractLsb' 32 32),
            entryOut (s.queue q) s.port.attnPending cDone tag 0 0] ∧
         (t.channel sec n).state = 0 ∧ t.started? q tag = none ∧
         t.started? (s.channel sec n).queue (s.channel sec n).tag = none))

/-- A plain copy of one block from a core store to a section store that ends and meets no error: the block stands at its
destination with its sequence tag and POISON in a line that is current, the channel is idle, and the command completes with the
64 bytes moved. The block is the core store's own, except in the weight buffer and the accumulator file of a core that has run a
command, and in the vector scratch, where it may be a free value (logs 34 and 141, the model's choice). -/
def Obligations.DmaCopiesBlock : Prop :=
  ∀ (s : State) (sec n : Nat) (host : HostData) (ch : Channel) (u : Started), s.runningDma sec = some n →
    s.rack.flawed = [] → ch = s.channel sec n → cfgSrc ch.cfg = 4 → cfgDst ch.cfg = 3 → ch.cfg.getLsbD 6 = false → ch.rows = 1 →
    ch.rowBytes = 64 → ch.done = 0 →
    s.started? ch.queue ch.tag = some u → u.discard = false → s.takesEntry ch.queue = true →
    ∃ t, exec (.dmaChannelDone sec host) s = .next t ∧
      t.sectMem = s.sectMem.putBlk (sectAddr sec (ch.dst.toNat % Config.sectionBytes))
        (s.coreBlk (ch.src.toNat / 0x1000000000000 % 64) (ch.src.toNat % 0x800000)) ∧
      t.coreMem = s.coreMem ∧ t.caskRaw = s.caskRaw ∧ (t.channel sec n).state = 0 ∧
      Answered s t ch.queue ch.tag (s.queue ch.queue) [] cDone 64 0 ∧
      t = { s with out := t.out, port := s.portOf t, sectMem := t.sectMem, draws := s.draws + 1
                   sectLines := addLines s.sectLines (sectAddr sec (ch.dst.toNat % Config.sectionBytes)) 64 } ∧
      (s.moduleFilled (ch.src.toNat / 0x1000000000000 % 64) (ch.src.toNat % 0x800000) = false →
        (ch.src.toNat % 0x800000 + 64 ≤ 0x340000 ∨ 0x440000 ≤ ch.src.toNat % 0x800000) →
        s.coreBlk (ch.src.toNat / 0x1000000000000 % 64) (ch.src.toNat % 0x800000) =
          s.coreMem.blk (coreAddr (ch.src.toNat / 0x1000000000000 % 64) (ch.src.toNat % 0x800000)))

/-- SET_REFRESH sets the slot's keyframe refresh. UNLOAD_PLAN of a slot whose streams and commands have gone empties it.
LOAD_PLAN that passes its checks and places its weights enters the plan in its slot with its leaves, and with ADOPT takes the
retained weight set; one that fails its checks changes nothing and completes with their code. -/
def Obligations.PlanCommands : Prop :=
  ∀ (s : State) (q tag : Nat) (c : Started) (j : Nat), s.shaped = true → j = bits (c.arg 1) 5 0 →
    (s.commandAt q tag 0x15 c →
      (bits (c.arg 1) 20 16 = 0 ∨ s.slotPart (bits (c.arg 1) 13 8) = s.slotPart j) →
      ∃ t, exec (.setRefresh q tag) s = .next t ∧ Answered s t q tag (s.queue q) [] cDone 0 0 ∧
        t.slot j = { s.slot j with refreshLog := bits (c.arg 1) 20 16, refreshSlot := bits (c.arg 1) 13 8 } ∧
        (∀ i, i ≠ j → t.slot i = s.slot i) ∧ t = { s with out := t.out, port := s.portOf t, slots := t.slots }) ∧
    (s.commandAt q tag 0x11 c → (s.slot j).plan ≠ none → s.streamsOf j = [] → (∀ x ∈ s.cmds, x.slot ≠ j) →
      ∃ t, exec (.unloadPlan q tag) s = .next t ∧ Answered s t q tag (s.queue q) [] cDone 0 0 ∧
        (t.slot j).plan = none ∧ (t.slot j).key = 0 ∧ (t.slot j).retained = none ∧ (∀ i, i ≠ j → t.slot i = s.slot i) ∧
        t.streams = s.streams ∧ t.cmds = s.cmds ∧ t.parts = s.parts ∧ t.reqs = s.reqs) ∧
    (∀ image n part ls u, s.commandAt q tag 0x10 c → (c.arg 1).getLsbD 8 = false →
      s.loadCheck j image c.bufBytes false = cDone → n = bits (wd (bytesWords 80 image) 5) 23 0 →
      part = (s.slotPart j).getD 0 →
      (n ≤ s.framesAhead part ∨ s.cellar.belowMin = true ∨
        (((frameDraw * (n - s.framesAhead part) : Nat) : Int) ≤ s.cellar.level ∧ s.cellar.peakAt ≤ s.now.toNat)) →
      State.placeWeights part (fun i => weightDesc part j i (s.expertAmong (imageDescs image
          (bits (wd (bytesWords 80 image) 1) 23 0)) j i) (key64 ((image.drop (headBytes (bytesWords 80 image))).take
            (weightBytes (bytesWords 80 image) + tagPlane (bytesWords 80 image)))))
        ((image.drop (headBytes (bytesWords 80 image))).take (weightBytes (bytesWords 80 image)))
        (((image.drop (headBytes (bytesWords 80 image))).drop (weightBytes (bytesWords 80 image))).take
          (tagPlane (bytesWords 80 image))) n 0 (s.dropRetained j) = some (ls, u) →
      ∃ t p, exec (.loadPlan q tag image) s = .next t ∧ t.port.attnPending.getLsbD 1 = true ∧
        Answered s t q tag (s.queue q) [] cDone (w32 (bits (wd (bytesWords 80 image) 1) 23 0)) (w32 n) ∧
        (t.slot j).plan = some p ∧ p.header = bytesWords 80 image ∧ p.leaves = ls ∧ p.suspect = false ∧ p.unfit = 0 ∧
        (∀ i, i ≠ j → t.slot i = s.slot i) ∧ t.streams = s.streams ∧ t.cmds = s.cmds ∧ t.parts = s.parts ∧
        t.reqs = s.reqs) ∧
    (∀ image n key ls, s.commandAt q tag 0x10 c → (c.arg 1).getLsbD 8 = true →
      s.loadCheck j image c.bufBytes true = cDone → n = bits (wd (bytesWords 80 image) 5) 23 0 →
      (s.slot j).retained = some (key, ls) → key = c.arg 3 ++ c.arg 2 → ls.length = n →
      (∀ i, i < n → ∃ h, (i, h) ∈ ls) →
      ∃ t p, exec (.loadPlanAdopt q tag image) s = .next t ∧
        Answered s t q tag (s.queue q) [] cDone (w32 (bits (wd (bytesWords 80 image) 1) 23 0)) (w32 n) ∧
        (t.slot j).plan = some p ∧ (t.slot j).key = key ∧ (t.slot j).retained = none ∧ p.header = bytesWords 80 image ∧
        p.leaves.length = n ∧ (∀ h ∈ p.leaves, ∃ i, (i, h) ∈ ls) ∧ t.rack = s.rack ∧ t.cellar = s.cellar ∧
        (∀ i, i ≠ j → t.slot i = s.slot i) ∧ t.streams = s.streams ∧ t.cmds = s.cmds) ∧
    (∀ image, s.commandAt q tag 0x10 c → s.loadCheck j image c.bufBytes ((c.arg 1).getLsbD 8) ≠ cDone →
      ∀ i, i = (if (c.arg 1).getLsbD 8 then Instr.loadPlanAdopt q tag image else .loadPlan q tag image) →
      ∃ t, exec i s = .next t ∧
        Answered s t q tag (s.queue q) [] (s.loadCheck j image c.bufBytes ((c.arg 1).getLsbD 8)) 0 0 ∧
        t = { s with out := t.out, port := s.portOf t })

/-- GRIST: a request that carries steps or input completes with OPERAND_ALIGN; one that is refused completes with the code of
its refusal; one that is accepted becomes an open record of its stream that names the command, which stays started. -/
def Obligations.GristCommand : Prop :=
  ∀ (s : State) (q tag : Nat) (c : Started) (h : List W32), s.commandAt q tag 0x12 c →
    ((bits (wd h 4) 23 0 ≠ 0 ∨ bits (wd h 5) 23 0 ≠ 0 ∨ wd h 7 ≠ 0 ∨ bits (wd h 13) 15 0 ≠ 0) →
      ∃ t, exec (.grist q tag h) s = .next t ∧ Answered s t q tag (s.queue q) [] cAlign 0 0 ∧
        t = { s with out := t.out, port := s.portOf t }) ∧
    (bits (wd h 4) 23 0 = 0 → bits (wd h 5) 23 0 = 0 → wd h 7 = 0 → bits (wd h 13) 15 0 = 0 →
      ∀ code i u, s.submit h 0 0xFFFF (some (q, tag)) = (code, i, u) →
      ∃ t, exec (.grist q tag h) s = .next t ∧
        (code ≠ cDone → Answered s t q tag (s.queue q) [] code 0 0 ∧ t = { s with out := t.out, port := s.portOf t }) ∧
        (code = cDone → (∃ k, (t.req k).open_ = true ∧ (t.req k).stream = i ∧ (t.req k).kind = bits (wd h 0) 23 20 ∧
            (t.req k).started = some (q, tag) ∧ (t.req k).admitted = false) ∧
          t.started? q tag = some { c with begun := true } ∧ t.out = s.out ∧
          t = { s with port := { s.port with started := t.port.started }, reqs := t.reqs, streams := t.streams }))

/-- The seven acts of requests on their streams. A start with a quire fills its entry, lives, and raises EPOCH; without one it
ends with LEAF_EXHAUSTED. A continue in its turn becomes what its stream is served for. A fork reserves the child's entry. A
reset and an end raise EPOCH and end every other open request of the stream with STALE_EPOCH. A pause and a resume between grist
cycles act at once and end with DONE; within one they wait for its end. -/
def Obligations.RequestActs : Prop :=
  ∀ (s : State) (sec rec k i : Nat) (r : Req), k = reqKey sec rec → r = s.req k → i = r.stream → r.open_ = true →
    r.admitted = false →
    (r.kind = 0 → ∀ p part root st rest u, (s.slot r.slot).plan = some p → s.slotPart r.slot = some part →
      s.newQuire part = some (root :: st :: rest, u) → (r.steps ≠ 0 ∨ r.inputDone < r.inputCount) →
      ∃ t, exec (.requestAdmit sec rec) s = .next t ∧ (t.stream i).live = true ∧ (t.stream i).partition = part ∧
        (t.stream i).slot = r.slot ∧ (t.stream i).prio = r.prio ∧ (t.stream i).epoch = (s.stream i).epoch + 1 ∧
        (t.stream i).spineRoot = root ∧ (t.stream i).stateLeaf = st ∧ (t.stream i).position = 0 ∧
        (t.stream i).stepsLeft = r.steps ∧ (t.req k).admitted = true ∧ (∀ j, j ≠ i → t.stream j = s.stream j) ∧
        (∀ j, j ≠ k → t.req j = s.req j) ∧
        t = { s with draws := t.draws, rack := t.rack, cellar := t.cellar, streams := t.streams, reqs := t.reqs }) ∧
    (r.kind = 0 → ∀ p part, (s.slot r.slot).plan = some p → s.slotPart r.slot = some part → s.newQuire part = none →
      ∃ t, exec (.requestAdmit sec rec) s = .next t ∧ (t.stream i).live = false ∧ (t.stream i).reserved = false ∧
        (t.stream i).epoch = (s.stream i).epoch ∧ (t.req k).open_ = false ∧ (t.req k).result = cExhausted) ∧
    (r.kind = 1 → (s.stream i).live = true → (s.stream i).reqIndex = k % 4096 →
      (r.steps ≠ 0 ∨ r.inputDone < r.inputCount) →
      ∃ t, exec (.requestContinue sec rec) s = .next t ∧ t.stream i = { s.stream i with stepsLeft := r.steps } ∧
        t.req k = { r with admitted := true, queued := s.now.setWidth 32 } ∧ (∀ j, j ≠ i → t.stream j = s.stream j) ∧
        t = { s with streams := t.streams, reqs := t.reqs }) ∧
    (r.kind = 2 →
      ∃ t, exec (.requestFork sec rec) s = .next t ∧
        t.stream i = { Stream.free (s.stream i).epoch with
          reserved := true, partition := (s.stream r.parent).partition, slot := (s.stream r.parent).slot, prio := r.prio,
          parent := r.parent } ∧
        t.req k = { r with admitted := true, queued := s.now.setWidth 32 } ∧ (∀ j, j ≠ i → t.stream j = s.stream j) ∧
        t = { s with streams := t.streams, reqs := t.reqs }) ∧
    (r.kind = 3 → (s.stream i).live = true → (r.steps ≠ 0 ∨ r.inputDone < r.inputCount) →
      ∃ t, exec (.requestReset sec rec) s = .next t ∧ (t.stream i).reset = true ∧
        (t.stream i).epoch = (s.stream i).epoch + 1 ∧ (t.stream i).reqIndex = k % 4096 ∧ (t.stream i).stepsLeft = r.steps ∧
        (t.req k).open_ = true ∧ (t.req k).admitted = true ∧
        (∀ j, j ≠ k → (s.req j).open_ = true → (s.req j).stream = i → j ∈ s.openReqs i →
          (t.req j).open_ = false ∧ (t.req j).result = cStale)) ∧
    (r.kind = 4 → (s.stream i).live = true → i ∈ s.forking → exec (.requestEnd sec rec) s = .next s) ∧
    (r.kind = 4 → (s.stream i).live = true → i ∉ s.forking →
      ∃ t, exec (.requestEnd sec rec) s = .next t ∧ (t.stream i).ending = true ∧ (t.stream i).live = true ∧
        (t.stream i).epoch = (s.stream i).epoch + 1 ∧ (t.req k).open_ = true ∧ (t.req k).admitted = true ∧
        (∀ j, j ≠ k → (s.req j).open_ = true → (s.req j).stream = i → j ∈ s.openReqs i →
          (t.req j).open_ = false ∧ (t.req j).result = cStale)) ∧
    (r.kind = 5 → (s.stream i).live = true → (s.part (s.stream i).partition).cycle = none →
      ∃ t, exec (.requestPause sec rec) s = .next t ∧ (t.stream i).pause = true ∧ (t.stream i).pauseCause = 0 ∧
        (t.stream i).position = (s.stream i).position ∧ (t.req k).open_ = false ∧ (t.req k).result = cDone) ∧
    (r.kind = 6 → (s.stream i).live = true → (s.part (s.stream i).partition).cycle = none →
      ∃ t, exec (.requestResume sec rec) s = .next t ∧ (t.stream i).pause = false ∧ (t.stream i).pauseCause = 0 ∧
        (t.stream i).exh = 0 ∧ (t.req k).open_ = false ∧ (t.req k).result = cDone) ∧
    (∀ a ∈ [(5, Instr.requestPause sec rec), (6, .requestResume sec rec)], r.kind = a.1 → (s.stream i).live = true →
      (s.part (s.stream i).partition).cycle ≠ none →
      ∃ t, exec a.2 s = .next t ∧ t.req k = { r with admitted := true, started := none } ∧ t.streams = s.streams ∧
        t.parts = s.parts)

/-- A datagram that an edge port takes for an open context which it does not complete is written to the context's place; the
first of a request opens a context, and one that brings the whole input passes the request on. One that the port does not take,
with a bad header, or out of form for its context, is dropped and counted. A request still incomplete ends with OPERAND_ALIGN in
one reply. A context whose reply has left is freed. A request for the port's own address is answered, another is dropped. -/
def Obligations.Datagrams : Prop :=
  ∀ (s : State) (port : Nat), port < s.fabric.ports.length →
    (∀ d c, s.edgeUp port = true → s.datagramOk port d = true → s.ctxFor port d = some c → c.passed = false →
      c.done = false → (wd d.words 8).toNat + d.data.length ≤ (wd c.header 7).toNat → pieceOk d = true →
      reach (c.got ++ [((wd d.words 8).toNat, d.data.length)]) (c.got.length + 2) 0 < (wd c.header 7).toNat →
      ∃ t, exec (.requestDatagram port d) s = .next t ∧
        t.caskRaw = s.caskRaw.write (inputBase + c.area + (wd d.words 8).toNat) d.data ∧
        t.fabric = { s.fabric with ctxs := t.fabric.ctxs } ∧
        t.fabric.ctxs = s.fabric.ctxs.map (fun x => if x.port == c.port && x.id == c.id then
          { x with got := c.got ++ [((wd d.words 8).toNat, d.data.length)] } else x) ∧
        t = { s with caskRaw := t.caskRaw, fabric := t.fabric }) ∧
    (∀ d id area c, s.edgeUp port = true → s.datagramOk port d = true → s.ctxFor port d = none → headerRange d.words = true →
      pieceOk d = true → (∀ x ∈ s.fabric.ctxs, x.port = port → x.id ≠ id) →
      (List.range (min 4096 ((s.fabric.ctxs.filter fun x => x.port == port).length + 1))).find?
        (fun i => !(((s.fabric.ctxs.filter fun x => x.port == port).map (·.id)).contains i)) = some id →
      firstFit s.inputUsed (((wd d.words 7).toNat + 255) / 256 * 256) 0x4000000 = some area →
      c = { newCtx port id area d with got := [((wd d.words 8).toNat, d.data.length)] } →
      ∃ t, exec (.requestDatagram port d) s = .next t ∧
        (reach c.got 2 0 < (wd d.words 7).toNat →
          t = { s with caskRaw := s.caskRaw.write (inputBase + area + (wd d.words 8).toNat) d.data
                       fabric := { s.fabric with ctxs := s.fabric.ctxs ++ [c] } }) ∧
        (∀ i u, (wd d.words 7).toNat ≤ reach c.got 2 0 →
          State.submit { s with
            caskRaw := s.caskRaw.write (inputBase + area + (wd d.words 8).toNat) d.data
            fabric := { s.fabric with ctxs := s.fabric.ctxs ++ [{ c with passed := true }] } } d.words
            (w32 ((inputBase + area) / 256)) (4096 * port + id) none = (cDone, i, u) → t = u)) ∧
    (∀ d c, s.edgeUp port = true → s.datagramOk port d = true → s.ctxFor port d = some c →
      (c.passed = true ∨ c.done = true ∨ pieceOk d = false) →
      ∃ t, exec (.requestDatagram port d) s = .next t ∧
        t.fport port = { s.fport port with dropped := sat32 ((s.fport port).dropped + 1) } ∧
        t = { s with fabric := { s.fabric with ports := t.fabric.ports } }) ∧
    (∀ d, s.edgeUp port = true → s.datagramOk port d = false →
      ∃ t, exec (.requestDatagram port d) s = .next t ∧
        t.fport port = { s.fport port with dropped := sat32 ((s.fport port).dropped + 1) } ∧
        (∀ n, n ≠ port → t.fport n = s.fport n) ∧ t = { s with fabric := { s.fabric with ports := t.fabric.ports } }) ∧
    (∀ id c, s.ctx? port id = some c → c.passed = false → c.done = false → (s.fport port).state = 2 →
      ∃ t st, exec (.requestAssemblyTimeout port id) s = .next t ∧ st = bits (wd c.header 1) 15 0 ∧
        t.out = s.out ++ [.reply port c.ip c.udp c.mac c.vlan (replyHeader 1 st c.reqTag (s.stream st).epoch (s.stream st).position
          cAlign (s.stream st).stepsLeft 0 0 0) []] ∧
        (∀ x ∈ t.fabric.ctxs, x.port = port → x.id = id → x.done = true) ∧
        t = { s with out := t.out, fabric := { s.fabric with ctxs := t.fabric.ctxs } }) ∧
    (∀ id c, s.ctx? port id = some c → c.done = true →
      ∃ t, exec (.replyContextExpiry port id) s = .next t ∧ t.ctx? port id = none ∧
        (∀ p n, (p, n) ≠ (port, id) → t.ctx? p n = s.ctx? p n) ∧
        t = { s with fabric := { s.fabric with ctxs := t.fabric.ctxs } }) ∧
    (∀ ip6 a, s.edgeUp port = true → a ≠ 0 →
      ∃ t, exec (.neighbourRequest port ip6 a) s = .next t ∧
        (a = s.portIp port ip6 → t = { s with out := s.out ++ [.neighbour port ip6 a] }) ∧
        (a ≠ s.portIp port ip6 → t.out = s.out ∧
          t.fport port = { s.fport port with dropped := sat32 ((s.fport port).dropped + 1) } ∧
          t = { s with fabric := { s.fabric with ports := t.fabric.ports } }))

/-- GRIST_CYCLE_START places the descriptors of the next leg of a partition's wave in order, as placed commands of the wave, and
starts its cycle now: a priority wave first, a bulk wave where it must run one before the next priority wave. GRIST_CYCLE_END,
once no command of the cycle is left, no reply waits to leave, and no pause, resume or replaced leaf waits for it: the cycle is
over; a wave with a leg left goes on to it, one without is over and is counted. GRIST_TICK of a running cycle: it has overrun,
and its first tick is counted. A bulk cycle that need not run before the next priority wave is suspended where a priority wave
can be assembled. -/
def Obligations.CyclesRun : Prop :=
  (∀ (s : State) (part : Nat) (prio : Bool) (w : Wave) (p : Plan) (a b : Nat), s.gristRuns part = true →
     part < s.parts.length → (s.part part).cycle = none →
     (if prio then (s.part part).prio = some w
       else (s.part part).prio = none ∧ (s.part part).bulkFirst = true ∧ (s.part part).bulk = some w ∧
         (s.part part).remaining = []) →
     s.waveOver part prio w = false → (s.slot w.slot).plan = some p → w.legs[w.leg]? = some (a, b) →
     ∃ (t : State) (new : List Cmd), exec (.gristCycleStart part) s = .next t ∧ t.cmds = s.cmds ++ new ∧
       new.map (·.desc) = List.range' a (b + 1 - a) ∧ new.map (·.id) = List.range' s.nextCmd (b + 1 - a) ∧
       (∀ c ∈ new, c.part = part ∧ c.slot = w.slot ∧ c.origin = .wave prio ∧ c.phase = .placed ∧ c.rerun = false ∧
         c.words = p.descs.getD c.desc [] ∧ c.cores = gridCores c.words ∧ c.shape = w.liveShape ∧
         c.runs = w.runs.filter fun u => !u.void) ∧
       (t.part part).cycle = some { prio := prio, start := s.now, ticks := 0, overran := false } ∧
       (∀ n, n ≠ part → t.part n = s.part n) ∧ t.nextCmd = s.nextCmd + (b + 1 - a) ∧
       t = { s with slots := t.slots, parts := t.parts, cmds := t.cmds, nextCmd := t.nextCmd }) ∧
  (∀ (s : State) (part : Nat) (y : Cycle) (w : Wave) (p : Plan), part < s.parts.length → (s.part part).cycle = some y →
     (∀ c ∈ s.cmds, c.part = part → c.origin ≠ .wave y.prio) → (s.part part).wave y.prio = some w →
     (∀ e ∈ s.reqs, e.2.kind < 5) → (∀ e ∈ s.streams, e.2.pauseNext = none) → (s.slot w.slot).plan = some p → p.suspect = false →
     (∀ u ∈ w.runs, u.void = false ∧ u.closed ≠ 1) →
     (w.leg + 1 < w.legs.length →
       ∃ t, exec (.gristCycleEnd part) s = .next t ∧ (t.part part).cycle = none ∧
         (t.part part).wave y.prio = some { w with leg := w.leg + 1 } ∧ (∀ n, n ≠ part → t.part n = s.part n) ∧
         t = { s with parts := t.parts, rack := { s.rack with corePins := t.rack.corePins } }) ∧
     (w.legs.length ≤ w.leg + 1 → (∀ u ∈ w.runs, u.closed = 2) → w.train = none →
       (∀ e ∈ s.malt.old, e.1 = part → e.2.1 ≠ y.prio) →
       ∃ t, exec (.gristCycleEnd part) s = .next t ∧ (t.part part).cycle = none ∧ (t.part part).wave y.prio = none ∧
         (t.part part).waves = sat32 ((s.part part).waves + 1) ∧ (∀ n, n ≠ part → t.part n = s.part n) ∧
         t = { s with parts := t.parts, rack := { s.rack with corePins := t.rack.corePins } })) ∧
  (∀ (s : State) (part : Nat) (y : Cycle), part < s.parts.length → (s.part part).cycle = some y →
     (y.prio = true ∨ (s.part part).bulkFirst = true →
       ∃ t, exec (.gristTick part) s = .next t ∧
         t.part part = { s.part part with
           cycle := some { y with ticks := y.ticks + 1, overran := true }
           overruns := if y.ticks = 0 then sat32 ((s.part part).overruns + 1) else (s.part part).overruns } ∧
         (∀ n, n ≠ part → t.part n = s.part n) ∧ t = { s with parts := t.parts }) ∧
     (∀ w u, y.prio = false → (s.part part).bulkFirst = false → (s.part part).prio = none → s.power.entry = none →
       (s.part part).bulk ≠ none →
       State.assembleClass (s.modPart part fun p => { p with
         cycle := some { y with ticks := y.ticks + 1, overran := true }
         overruns := if y.ticks = 0 then sat32 (p.overruns + 1) else p.overruns }) part true = (some w, u) →
       ∃ t, exec (.gristTick part) s = .next t ∧ (t.part part).suspended = true))

/-- A fork cycle whose forks' parents all stand places one FORK over their streams; an end cycle places one LEAF free over the
ending streams of the partition without a command. TRAIN: one that fails its checks completes with their code; else it waits, in
its partition, with its slot, dimensions and runs, and stays started. PLAIN_RERUN of a permitted descriptor between grist cycles
of its slot places that one command in plain mode as a rerun, and stays started; a descriptor that is not there completes with
OPERAND_ALIGN. -/
def Obligations.ServiceAndTraining : Prop :=
  (∀ (s : State) (part : Nat), s.gristRuns part = true →
     (s.forksReady part ≠ [] →
       (∀ x ∈ s.forksReady part, ∀ q, x.req = some q → s.parentStands (s.req (reqKey q.1 q.2)) = true) →
       ∃ t c, exec (.forkCycle part) s = .next t ∧ t.cmds = s.cmds ++ [c] ∧ c.id = s.nextCmd ∧ c.origin = .service ∧
         c.words = serviceWords 0x0D 0 ∧ c.shape.rows = ((s.forksReady part).take 256).map (·.stream) ∧ c.phase = .placed ∧
         t = { s with cmds := t.cmds, nextCmd := s.nextCmd + 1 }) ∧
     (∀ rows, rows = (s.streams.filter fun e => e.2.live && e.2.ending && e.2.partition == part && !s.hasCmd e.1 &&
         !s.forking.contains e.1).map (·.1) → rows ≠ [] →
       ∃ t c, exec (.endCycle part) s = .next t ∧ t.cmds = s.cmds ++ [c] ∧ c.id = s.nextCmd ∧ c.origin = .service ∧
         c.words = serviceWords 0x0E 2 ∧ c.shape.rows = rows.take 256 ∧ c.phase = .placed ∧
         t = { s with cmds := t.cmds, nextCmd := s.nextCmd + 1 })) ∧
  (∀ (s : State) (q tag : Nat) (c : Started) (j : Nat), j = bits (c.arg 1) 5 0 →
     (∀ runs code, s.commandAt q tag 0x13 c →
       code = s.trainCode j ((List.range 4).map fun i => c.arg (2 + i)) runs (bits (c.arg 1) 28 16) → code ≠ cDone →
       ∃ t, exec (.train q tag runs) s = .next t ∧ Answered s t q tag (s.queue q) [] code (s.trainStep j) 0 ∧
         t = { s with out := t.out, port := s.portOf t }) ∧
     (∀ runs n, s.commandAt q tag 0x13 c → s.slotPart j = some n → n < s.parts.length →
       s.trainCode j ((List.range 4).map fun i => c.arg (2 + i)) runs (bits (c.arg 1) 28 16) = cDone →
       ∃ (t : State) (x : Train), exec (.train q tag runs) s = .next t ∧ (t.part n).trains = (s.part n).trains ++ [x] ∧
         x.q = q ∧ x.tag = tag ∧ x.slot = j ∧ x.last = (c.arg 1).getLsbD 8 ∧ x.queued = s.now.setWidth 32 ∧
         x.dims = [c.arg 2, c.arg 3, c.arg 4, c.arg 5] ∧
         x.runs = (List.range (bits (c.arg 1) 28 16)).map (trainRun runs) ∧
         t.started? q tag = some { c with begun := true } ∧ (∀ k, k ≠ n → t.part k = s.part k) ∧
         t = { s with parts := t.parts, port := { s.port with started := t.port.started } }) ∧
     (∀ p d, s.commandAt q tag 0x14 c → (s.slot j).plan = some p → p.descs[(c.arg 2).toNat]? = some d →
       rerunBarred d = false → s.slotRuns j = false →
       ∃ t x, exec (.plainRerun q tag) s = .next t ∧ t.cmds = s.cmds ++ [x] ∧ x.id = s.nextCmd ∧ x.words = d ∧
         x.plain = true ∧ x.rerun = true ∧ x.origin = .plainRerun q tag ∧ x.slot = j ∧ x.phase = .placed ∧
         x.shape = (s.slot j).shape ∧ t.started? q tag = some { c with begun := true } ∧
         t = { s with cmds := t.cmds, nextCmd := s.nextCmd + 1, port := { s.port with started := t.port.started } }) ∧
     (s.commandAt q tag 0x14 c → (∀ p, (s.slot j).plan = some p → p.descs.length ≤ (c.arg 2).toNat) →
       ∃ t, exec (.plainRerun q tag) s = .next t ∧ Answered s t q tag (s.queue q) [] cAlign 0 0 ∧
         t = { s with out := t.out, port := s.portOf t }))

/-- Every plan command at the head of its queues that is not refused issues, on the weight image that its wave began with: it
takes one serial number on each of its cores. Where its work has nothing to do it is empty and has no pass; where it meets
nothing it must wait for, it holds the effects its cores computed and the leaves prepared for them, its passes are to come, and
the memories keep their contents until it commits. -/
def Obligations.PlanCommandsIssue : Prop :=
  ∀ (s u : State) (id : Nat) (c : Cmd), s.cmd? id = some c → u = s.asOf c → c.phase = .placed → c.cores.Nodup →
    (∀ k ∈ c.cores, k < s.cores.length) →
    ∀ x ∈ planRows id, c.opc = x.2.1 → x.2.2.1 s c = true → u.issuable c x.2.2.2 = true →
    ((x.2.2.2 (u.sourceOf c (u.resolved c) x.2.2.2) c (u.resolved c)).empty = true →
      ∃ t d, exec x.1 s = .next t ∧ t.cmd? id = some d ∧ d.phase = .issued ∧ d.empty = true ∧ d.passes = 0 ∧ d.waits = [] ∧
        d.effs = c.effs ∧
        (∀ k y, s.cores[k]? = some y →
          ∃ z, t.cores[k]? = some z ∧ z.serial = (if k ∈ c.cores then y.serial + 1 else y.serial))) ∧
    ((x.2.2.2 (u.sourceOf c (u.resolved c) x.2.2.2) c (u.resolved c)).empty = false → u.unhindered c x.2.2.2 = true →
      ∃ t d, exec x.1 s = .next t ∧ t.cmd? id = some d ∧ d.phase = .issued ∧ d.effs = (u.prepOf c x.2.2.2).effs ∧
        d.taken = (u.prepOf c x.2.2.2).taken ∧ d.order = (u.workOf c x.2.2.2).order ∧
        d.passes = (if d.order = [] then (u.workOf c x.2.2.2).passes else (d.order.map fun e => e.2.length).foldl max 0) ∧
        d.skewed = (u.workOf c x.2.2.2).skewed ∧ d.starved = false ∧ d.words = c.words ∧ d.cores = c.cores ∧
        (∀ k y, s.cores[k]? = some y →
          ∃ z, t.cores[k]? = some z ∧ z.serial = (if k ∈ c.cores then y.serial + 1 else y.serial)) ∧
        t.coreMem = s.coreMem ∧ t.sectMem = s.sectMem ∧ t.caskRaw = s.caskRaw)

/-- A pass of each slice of an issued command that meets no error: one pass less is to come, and the order of the slices moves
on. A core whose slice has a pass left runs it: its block is the one in the stationary registers, and the block of the next
pass, where that is another, stands in the latches; a core that was in a gap stops simmer and takes up the rate that it held.
After the slice's last pass its sums stand in the accumulator file; there, and before a row function, a gap begins. Every other
core is as it was. In a gap of a section with simmer, simmer falls by one eighth a step, its LFSR moving on; on a core that runs
passes the fraction of the ramp-up rises by one eighth a step, to the whole. No other core changes, and where there is no such
gap or no pass nothing does. -/
def Obligations.PassesRun : Prop :=
  (∀ (s : State) (id : Nat) (c : Cmd), s.cmd? id = some c → c.phase = .issued → c.waits = [] → c.passes ≠ 0 →
     (s.asOf c).unreadable c.pins = [] → (s.asOf c).unwritable c = [] → c.skewed = false → (c.order.map (·.1)).Nodup →
     ∃ t, exec (.passStart id []) s = .next t ∧
       t.cmd? id = some { c with passes := c.passes - 1, order := c.order.map fun e => (e.1, e.2.tail) } ∧
       (∀ k y, s.cores[k]? = some y → (∀ e ∈ c.order, e.1 = k → e.2 = []) → t.cores[k]? = some y) ∧
       (∀ k y p ps, s.cores[k]? = some y → (k, p :: ps) ∈ c.order →
         ∃ z, t.cores[k]? = some z ∧ z.held = some p.blk ∧ z.serial = y.serial ∧ z.gens = y.gens ∧
           (∀ q qs, ps = q :: qs → q.blk ≠ p.blk → z.loaded = some q.blk) ∧
           (ps ≠ [] → p.rest = false → z.busy = true ∧ z.acc = y.acc ∧
             (y.busy = true → z.ramp = y.ramp ∧ z.simmer = y.simmer) ∧
             (y.busy = false → z.simmer = 0 ∧
               z.ramp = (if y.gapAt = some s.now then y.ramp
                 else if s.simmers k = false ∨ y.simmer = 8 then 8 else y.simmer + 1))) ∧
           (ps = [] ∨ p.rest = true → z.busy = false ∧ z.gapAt = some s.now ∧
             z.simmer = (if s.simmers k then 8 else 0)) ∧
           (ps = [] → ∀ a, c.sums.find? (fun e => e.1 == k) = some a → (a.2.map (·.1)).Nodup →
             ∀ r ∈ a.2, alGet [] r.1 z.acc = r.2)) ∧
       t = { s with draws := t.draws, cmds := t.cmds, cores := t.cores }) ∧
  (∀ (s : State) (k : Nat) (y : CoreSt), s.cores[k]? = some y →
     (s.simmers k = true → y.busy = false → y.simmer ≠ 0 →
       ∃ t, exec (.simmerRampDown k) s = .next t ∧
         t.cores[k]? = some { y with simmer := y.simmer - 1, lfsr := Config.simmerNext y.lfsr } ∧
         (∀ n, n ≠ k → t.cores[n]? = s.cores[n]?) ∧ t = { s with cores := t.cores }) ∧
     (s.simmers k = false ∨ y.busy = true ∨ y.simmer = 0 → exec (.simmerRampDown k) s = .next s) ∧
     (y.busy = true →
       ∃ t, exec (.rampUpStep k) s = .next t ∧ t.cores[k]? = some { y with ramp := min 8 (y.ramp + 1) } ∧
         (∀ n, n ≠ k → t.cores[n]? = s.cores[n]?) ∧ t = { s with cores := t.cores }) ∧
     (y.busy = false → exec (.rampUpStep k) s = .next s))

/-- A command whose passes are over and that meets no error: one that took a parcel which came over Dareno is held for the
sweep; any other waits until every earlier command of its cores has flipped, then commits, ends, and its completion record with
DONE joins the log of its home section; a store of bytes is then made to the core store at the address it names, whose lines
become current, and to no other byte of memory; a token step that the command closes moves its stream's POSITION on by its rows.
-/
def Obligations.CommitFlips : Prop :=
  ∀ (s : State) (id arr : Nat) (c : Cmd), s.cmd? id = some c → c.phase = .issued → c.waits = [] → c.passes = 0 →
    s.rack.flawed = [] → (s.asOf c).unreadable c.pins = [] → (s.asOf c).unwritable c = [] →
    (s.consumedRemote c = true →
      ∃ t, exec (.commitFlip id arr) s = .next t ∧ t.cmd? id = some { c with phase := .held, arr := arr } ∧
        t = { s with cmds := t.cmds }) ∧
    (s.consumedRemote c = false → s.inTurn c = false → exec (.commitFlip id arr) s = .next s) ∧
    (s.consumedRemote c = false → s.inTurn c = true →
      ∃ t, exec (.commitFlip id arr) s = .next t ∧ t.cmd? id = none ∧
        t.logs = modAt s.logs c.home (fun l => l ++ [recordWords c cDone arr false])) ∧
    (∀ prio k a d, s.inTurn c = true → c.effs = [.bytes (.core k) a d] → c.pins = [] → c.consumed = [] →
      c.closes = [] → c.origin = .wave prio →
      ∃ t, exec (.commitFlip id arr) s = .next t ∧ t.coreMem = s.coreMem.write (coreAddr k a) d ∧
        t.coreLines = addLines s.coreLines (coreAddr k a) d.length ∧ t.cmd? id = none ∧
        t = { s with coreMem := t.coreMem, coreLines := t.coreLines, logs := t.logs, cmds := t.cmds }) ∧
    (∀ prio u, s.inTurn c = true → c.effs = [] → c.pins = [] → c.consumed = [] → c.closes = [u.stream] →
      c.runs = [u] → c.origin = .wave prio → u.kind = .step → (s.runNow c u).void = false →
      ∃ t, exec (.commitFlip id arr) s = .next t ∧
        (t.stream u.stream).position = (s.stream u.stream).position + u.run.rowCount ∧
        (t.stream u.stream).reset = ((s.stream u.stream).reset && u.epoch != (s.stream u.stream).epoch) ∧
        (t.stream u.stream).exh = 0 ∧
        (t.stream u.stream).stepsLeft = (s.stream u.stream).stepsLeft - u.run.rowCount ∧
        (∀ j, j ≠ u.stream → t.stream j = s.stream j))

/-- The ends of an issued command without a commit. At the command-time limit one that waits is killed and placed again after
the others, once more a rerun; one that does not wait ends with RESOURCE_OVERFLOW; a RECV that waits for parcels a second time
ends with PARTNER_LOST. One that found no leaf ends with LEAF_EXHAUSTED. Each writes its completion record to its home section's
log. A commit sweep with nothing in any check-value unit's ring commits a held command whose turn it is, and marks how far it
has swept; with nothing to release, to take in or to remap, that mark is all it does. -/
def Obligations.CommandsEnd : Prop :=
  (∀ (s : State) (id : Nat) (c : Cmd), s.cmd? id = some c → c.phase = .issued →
     (c.waits = [] →
       ∃ t, exec (.commandTimeLimit id false) s = .next t ∧ t.cmd? id = none ∧
         t.logs = modAt s.logs c.home (fun l => l ++ [recordWords c cOverflow 700000 false]) ∧
         t.port.attnPending.getLsbD 6 = true) ∧
     (∀ waiting, (waiting = true ∨ c.waits ≠ []) → (c.opc ≠ 0x0C ∨ c.timeouts = 0 ∨ c.waits ≠ []) →
       ∃ t, exec (.commandTimeLimit id waiting) s = .next t ∧
         t.cmds = (s.cmds.filter fun x => x.id != id) ++
           [{ c.fresh with rerun := true, timeouts := if c.waits = [] then c.timeouts + 1 else c.timeouts }] ∧
         t.logs = modAt s.logs c.home (fun l => l ++ [recordWords c cRerun 700000 false])) ∧
     (c.opc = 0x0C → c.timeouts ≠ 0 → c.waits = [] →
       ∃ t, exec (.commandTimeLimit id true) s = .next t ∧ t.cmd? id = none ∧
         t.logs = modAt s.logs c.home (fun l => l ++ [recordWords c cPartner 700000 false]) ∧
         t.port.attnPending.getLsbD 2 = true) ∧
     (c.starved = true →
       ∃ t n, exec (.leafExhausted id) s = .next t ∧ n = Config.killTime s.draws ∧ t.cmd? id = none ∧
         t.logs = modAt s.logs c.home (fun l => l ++ [recordWords c cExhausted n false]))) ∧
  (∀ s : State, s.timeRuns = true → s.power.state ≠ .dormant → s.fabric.ports.length = 16 →
     (∀ p, p < 16 → (s.fport p).cvu.overflow = false ∧ (s.fport p).cvu.head = (s.fport p).cvu.tail ∧ (s.fport p).cvu.head < 128) →
     (∀ c, s.cmd? c.id = some c → c.phase = .held → s.inTurn c = true → (s.asOf c).unwritable c = [] →
       (∀ x ∈ s.cmds, x.phase = .held → x = c) →
       ∃ t, exec .commitSweep s = .next t ∧ t.cmd? c.id = none) ∧
     ((∀ c ∈ s.cmds, c.phase ≠ .held) → (∀ x ∈ s.fabric.rx, x.takenBy ≠ none) → (∀ k ∈ s.sects, k.failing = []) →
       ∃ t, exec .commitSweep s = .next t ∧
         (∀ p, p < 16 → t.fport p = { s.fport p with cvu := { (s.fport p).cvu with prevMark := (s.fport p).cvu.mark } }) ∧
         t.fabric.rx = s.fabric.rx.map (fun x => { x with swept := true }) ∧
         t = { s with fabric := { s.fabric with ports := t.fabric.ports, rx := t.fabric.rx } }))

/-- A promotion that ends: the leaf is in the cask, in the frame taken for it, with the content of its cellar frame. A direct
read that ends: no command waits for the leaf any more. A section-store copy that ends: the leaf is there too, in a free frame,
and reads as before. The copy of a weight leaf that was asked for: it stands in the cask, in its frame or a free one of its
partition's quota, no longer poisoned, and dirty unless it is REMOTE while the cellar takes no writes (log 166), and no command
waits for it. One that does not come in time ends the commands that wait, and its expert is unavailable. A heat epoch ages every
leaf. -/
def Obligations.LeavesArrive : Prop :=
  (∀ (s : State) (h : Handle), h ∉ s.rack.lostHandles →
     (∀ m f, s.move? h = some m → (m.kind = .promote ∨ m.kind = .rewrite) → (s.leaf h).ref ≠ 0 → s.cellarFrame? (s.leaf h).cellarFrame = some f →
       ∃ t, exec (.promotionDone h) s = .next t ∧ t.leaf h = { s.leaf h with inCask := true, moving := false } ∧
         t.move? h = none ∧ t.rack.frame (s.leaf h).caskFrame = f.data ∧ (∀ g, g ≠ h → t.leaf g = s.leaf g) ∧
         (∀ n, n ≠ (s.leaf h).caskFrame → t.rack.frame n = s.rack.frame n) ∧
         t = { s with rack := t.rack, streams := t.streams }) ∧
     (s.readable h = true → (s.leaf h).inCellar = true → h ≠ Config.nullHandle →
       ∃ t, exec (.cellarDirectReadDone h) s = .next t ∧ (∀ c ∈ t.cmds, h ∉ c.waits) ∧
         t = { s with cmds := s.cmds.map fun c => { c with waits := c.waits.filter (· != h) } }) ∧
     (∀ m f, s.move? h = some m → m.kind = .store → (s.leaf h).inSs = false → s.readable h = true →
       s.freeSs m.section_ = some f → s.rack.flawed = [] → (s.leaf h).ref ≠ 0 →
       ∃ t, exec (.sectionStoreCopyDone h) s = .next t ∧
         t.leaf h = { s.leaf h with moving := false, inSs := true, ssStale := false, ssFrame := f, ssSection := m.section_ } ∧
         t.content h = s.content h ∧ t.move? h = none ∧ (∀ g, g ≠ h → t.leaf g = s.leaf g) ∧ t.rack.pool = s.rack.pool ∧
         t = { s with rack := t.rack })) ∧
  (∀ (s : State),
     (∀ h data tags f, h ∈ s.rack.fetches → h ∉ s.rack.lostHandles → s.move? h = none → h ≠ Config.nullHandle →
       (if (s.leaf h).inCask then f = (s.leaf h).caskFrame else s.quotaFrame (s.leaf h).partition = some f) →
       ∃ t, exec (.weightCopyArrival h data tags) s = .next t ∧
         t.rack.frame f = { leafStore data tags with form := .plain, poison := [] } ∧
         (t.leaf h).inCask = true ∧ (t.leaf h).caskFrame = f ∧ (t.leaf h).poisoned = false ∧
         (t.leaf h).dirty = !(s.cellar.belowMin && (s.leaf h).remote) ∧ h ∉ t.rack.fetches ∧ (∀ c ∈ t.cmds, h ∉ c.waits) ∧ (∀ g, g ≠ h → t.leaf g = s.leaf g) ∧
         t = { s with rack := t.rack, cellar := t.cellar, cmds := t.cmds, fabric := t.fabric }) ∧
     (∀ h, h ∈ s.rack.fetches →
       ∃ t, exec (.weightFetchTimeout h) s = .next t ∧ h ∉ t.rack.fetches ∧
         (∀ c ∈ s.cmds, c.phase = .issued → h ∈ c.waits → t.cmd? c.id = none) ∧
         (s.expertOf h ≠ 0xFFFFFF → t.fabric.directory = s.fabric.directory.map fun e =>
           if e.1 = s.expertOf h then (e.1, e.2.set 0 (setBits (wd e.2 0) 21 21 1)) else e)) ∧
     (s.power.config ≠ 0 → s.rack.poolSize ≠ 0 →
       ∃ t, exec .heatEpoch s = .next t ∧ t.rack.heatCount = s.rack.heatCount + 1 ∧
         t.rack.leaves = s.rack.leaves.map (fun e => (e.1,
           if 32768 ≤ (s.rack.heatCount + 1 + 65536 - e.2.age) % 65536 then
             { e.2 with age := (s.rack.heatCount + 1 + 32768) % 65536, heat := 0 } else e.2)) ∧
         (s.fabric.queries = [] →
           t = { s with rack := { s.rack with heatCount := t.rack.heatCount, leaves := t.rack.leaves } })))

/-- A write-back. An early one that the age rule allows and the governor admits starts with DIRTY cleared. One that waits is
admitted where the governor is open: its frame is drawn from the bucket and DIRTY cleared. A rewrite that has waited for another
move of its leaf then starts. A write-back for an eviction of a leaf that nothing wrote or pinned meanwhile ends with the leaf
in the cellar alone, its frame holding what the cask copy held, and the cask frame goes to the stream that asked for it. A copy
with a poisoned sector is not written: its move ends, and the leaf is dirty. The cellar's upkeep. The oldest buffered frame is
programmed, and buffered frames that are stale are discarded. A reclamation erases the superblock it chooses, once more, and
frees it. A superblock that fails leaves service for a spare; a die without one is retired. A read is counted at the rung where
it ended; a leaf without another copy is poisoned by the last, and the commands that wait for one that is no weight leaf end. -/
def Obligations.WriteBacks : Prop :=
  (∀ (s : State) (h : Handle), h ∉ s.rack.lostHandles →
     (∀ part, part < s.partCount → s.cleanCount part < bits (s.sys 6) 31 16 → s.ageAllows part h = true →
       (∀ m ∈ s.rack.moves, m.kind ≠ .early ∨ (s.leaf m.handle).partition ≠ part) → (s.leaf h).poisoned = false →
       s.cellar.belowMin = false → s.cellarFull (s.leaf h).partition = false →
       s.govOpen = true →
       ∃ t, exec (.earlyWriteBack part h) s = .next t ∧ t.leaf h = { s.leaf h with moving := true, dirty := false } ∧
         t.rack.moves = s.rack.moves ++ [{ handle := h, kind := .early, section_ := 0, admitted := true }] ∧
         t.cellar.level = s.cellar.level - frameDraw ∧ (∀ g, g ≠ h → t.leaf g = s.leaf g) ∧
         t = { s with rack := t.rack, cellar := { s.cellar with level := t.cellar.level, peakAt := t.cellar.peakAt } }) ∧
     (∀ m, s.move? h = some m → m.admitted = false → s.govOpen = true → s.rack.flawed = [] →
       ∃ t, exec (.writeBackAdmitted h) s = .next t ∧ t.move? h = some { m with admitted := true } ∧
         t.leaf h = (if m.kind.writes then { s.leaf h with dirty := false } else s.leaf h) ∧
         t.cellar.level = s.cellar.level - frameDraw ∧ s.now.toNat ≤ t.cellar.peakAt ∧ (∀ g, g ≠ h → t.leaf g = s.leaf g) ∧
         t = { s with rack := t.rack, cellar := { s.cellar with level := t.cellar.level, peakAt := t.cellar.peakAt } }) ∧
     (s.move? h = none → h ∈ s.rack.rewrites → s.cellar.belowMin = false → (s.leaf h).inCellar = true → s.govOpen = true →
       ∃ t, exec (.writeBackAdmitted h) s = .next t ∧ h ∉ t.rack.rewrites ∧
         t.move? h = some { handle := h, kind := .soft, section_ := 0, admitted := true } ∧
         t.leaf h = { s.leaf h with moving := true } ∧ t.cellar.level = s.cellar.level - frameDraw ∧
         t = { s with rack := t.rack, cellar := { s.cellar with level := t.cellar.level, peakAt := t.cellar.peakAt } }) ∧
     (∀ m, s.move? h = some m → m.admitted = true → m.kind.writes = true → (s.leaf h).ref ≠ 0 →
       (s.rack.frame (s.leaf h).caskFrame).poison ≠ [] →
       ∃ t, exec (.writeBufferAccept h) s = .next t ∧ t.move? h = none ∧
         t.leaf h = { s.leaf h with moving := false, dirty := true } ∧ t = { s with rack := t.rack }) ∧
     (∀ m f u, s.move? h = some m → m.admitted = true → m.kind = .evict → (∀ g, m.want ≠ .leaf g) →
       (s.leaf h).dirty = false → (s.leaf h).pin = 0 → (s.leaf h).tierPinned = false → (s.leaf h).ref ≠ 0 →
       (s.rack.frame (s.leaf h).caskFrame).poison = [] →
       s.acceptFrame h (s.rack.frame (s.leaf h).caskFrame) = some (f, u) →
       ∃ t x, exec (.writeBufferAccept h) s = .next t ∧
         t.leaf h = { s.leaf h with inCellar := true, cellarFrame := f, inCask := false, caskFrame := 0, moving := false } ∧
         (∀ i, m.want = .stream i → (∃ c ∈ s.cmds, c.starved = true ∧ i ∈ c.shape.rows) →
           (i, (s.leaf h).caskFrame) ∈ t.rack.grants) ∧
         (f, x) ∈ t.cellar.frames ∧ x.handle = w32 h ∧ x.data = s.rack.frame (s.leaf h).caskFrame ∧ t.move? h = none ∧
         (∀ g, g ≠ h → t.leaf g = s.leaf g) ∧ t = { s with rack := t.rack, cellar := t.cellar })) ∧
  (∀ s : State,
     (∀ n fr, { s.cellar with frames := s.cellar.frames.filter fun f => f.2.programmed || f.2.current }.nextProgram = some (n, fr) →
       ∃ t, exec .nandProgram s = .next t ∧ (∀ g ∈ t.cellar.frames, g.2.programmed = true ∨ g.2.current = true) ∧
         (∀ g ∈ t.cellar.frames, g.1 = n → g.2.programmed = true) ∧ t = { s with cellar := t.cellar, draws := t.draws }) ∧
     (∀ die k l p, s.cellar.dies[die]? = some k → k.retired = false → k.freeCount < 16 → s.victim die k = some l →
       (k.map.find? fun e => e.1 == l) = some (l, p) →
       ((s.framesIn die l).length : Int) * frameDraw ≤ s.cellar.level → s.cellar.peakAt ≤ s.now.toNat →
       ∃ t x, exec (.reclamation die) s = .next t ∧ t.cellar.dies[die]? = some x ∧ (∀ e ∈ x.map, e.1 ≠ l) ∧
         x.erasures p = k.erasures p + 1 ∧ (∀ n, n ≠ p → x.erasures n = k.erasures n) ∧ x.bad = k.bad ∧
         t = { s with cellar := t.cellar, rack := { s.rack with leaves := t.rack.leaves, logged := t.rack.logged } }) ∧
     (∀ die k l p, s.cellar.dies[die]? = some k → k.retired = false → (k.map.find? fun e => e.1 == l) = some (l, p) →
       ∃ t x, exec (.programEraseFailure die l) s = .next t ∧ t.cellar.dies[die]? = some x ∧ x.bad = k.bad ++ [p] ∧
         t.port.attnPending.getLsbD 2 = true ∧
         (k.spares < 174 → x.spares = k.spares + 1 ∧ x.retired = false ∧ ∀ e ∈ x.map, e.1 ≠ l) ∧
         (174 ≤ k.spares → x.spares = k.spares ∧ x.retired = true)) ∧
     (∀ h, (s.leaf h).inCellar = true → h ∉ s.rack.lostHandles →
       (exec (.cellarReadDone h .hard) s = .next s) ∧
       (∃ t, exec (.cellarReadDone h .retry) s = .next t ∧
         t = { s with cellar := { s.cellar with retries := sat32 (s.cellar.retries + 1) } }) ∧
       (s.cellar.belowMin = false → (s.leaf h).moving = false → s.move? h = none → h ∉ s.rack.rewrites →
         s.govOpen = true →
         ∃ t, exec (.cellarReadDone h .soft) s = .next t ∧
           t.move? h = some { handle := h, kind := .soft, section_ := 0, admitted := true } ∧
           t.leaf h = { s.leaf h with moving := true } ∧ t.cellar.retries = sat32 (s.cellar.retries + 1)) ∧
       ((s.leaf h).inCask = false → (s.leaf h).ref ≠ 0 → (∀ c ∈ s.cmds, c.phase = .issued → h ∉ c.waits) →
         ∃ t, exec (.cellarReadDone h .uncorrectable) s = .next t ∧ (t.leaf h).poisoned = true ∧
           t.cellar.retries = sat32 (s.cellar.retries + 1) ∧ t.cellar.uncorrectable = sat32 (s.cellar.uncorrectable + 1) ∧
           t.port.attnPending.getLsbD 2 = true) ∧
       (∀ f, (s.leaf h).inCask = false → s.cellarFrame? (s.leaf h).cellarFrame = some f → f.kind ≠ 8 → s.weightPlace h = none →
         ∃ t, exec (.cellarReadDone h .uncorrectable) s = .next t ∧
           ∀ c ∈ s.cmds, c.phase = .issued → h ∈ c.waits → t.cmd? c.id = none)))

/-- The rebuild of the cellar index ends: the frames that are kept, of weights and of mirrors, are current and no others, each
is a leaf of the cellar under its recorded handle, and no mirror is coming any more. The cask's ports. A retraining pause that
meets no failure puts the pins' new delays and levels in force and keeps whether one moved; a port whose devices do not answer,
or whose pins fail, leaves service with CAUSE 3 or 1, and a cask restart begins: CONFIG is 3, no stream lives and no command
runs. The restart ends once every port in service has restored its training: CONFIG is what it was, under a new START_ID, with
the firmware of the running slot reloaded. TEMP is the hotter device's, HOT above 85 °C until below 80 °C. -/
def Obligations.CellarAndPorts : Prop :=
  (∀ (s : State) (kept : List (Nat × CellarFrame)), s.cellar.rebuilding = true → s.rack.lostHandles = [] →
     kept = s.keptWeights (newest (·.handle) (s.cellar.frames.filter fun f => f.2.current)) ++
       keptMirrors (newest (·.handle) (s.cellar.frames.filter fun f => f.2.current)) →
     ∃ t, exec .cellarRebuildDone s = .next t ∧ t.cellar.rebuilding = false ∧ t.cellar.ready = true ∧
       t.cellar.frames = s.cellar.frames.map (fun f => (f.1, { f.2 with current := kept.any fun g => g.1 == f.1 })) ∧
       (∀ f ∈ kept, (t.leaf f.2.handle.toNat).inCellar = true ∧ (t.leaf f.2.handle.toNat).ref = 1 ∧
         (t.leaf f.2.handle.toNat).inCask = false) ∧
       (∀ h, (∀ f ∈ kept, f.2.handle.toNat ≠ h) → t.leaf h = s.leaf h) ∧ t.buddy.incoming = [] ∧
       t = { s with cellar := t.cellar, rack := { s.rack with leaves := t.rack.leaves, logged := t.rack.logged }
                    slots := t.slots, buddy := t.buddy }) ∧
  (∀ (s : State) (p : Nat), s.shaped = true → p < 16 →
     (∀ pins, (s.memPort p).state = 2 → s.caskRuns = true → pins ≠ [] →
       ∃ t, exec (.retrainingPause p pins true true) s = .next t ∧
         t.memPort p = { s.memPort p with
           moved := (s.memPort p).moved || takeWords 36 pins != (s.memPort p).pins, pins := takeWords 36 pins } ∧
         (∀ n, n ≠ p → t.memPort n = s.memPort n) ∧
         t = { s with mem := t.mem }) ∧
     (∀ pins answered pinsOk, (s.memPort p).state = 2 → s.caskRuns = true → (answered && pinsOk) = false →
       ∃ t, exec (.retrainingPause p pins answered pinsOk) s = .next t ∧
         t.memPort p = { s.memPort p with state := 3, cause := if answered then 1 else 3 } ∧ t.power.config = 3 ∧
         t.power.next = s.power.config ∧ t.cmds = [] ∧ (∀ i, (t.stream i).live = false) ∧
         ((s.streams.map (·.1)).Nodup → ∀ i, (t.stream i).epoch = (s.stream i).epoch) ∧ t.cellar.rebuilding = true ∧
         t.port.attnPending.getLsbD 6 = true ∧ (∀ n, n ≠ p → t.memPort n = s.memPort n)) ∧
     (∀ reads, s.power.config = 3 → (∀ n, n < 16 → (s.memPort n).state ≠ 1) → 8 ≤ s.portsUp.length →
       (∀ n ∈ s.portsUp, ∃ r, reads[n]? = some r ∧ s.restores n r = true) →
       ∃ t, exec (.caskRestartDone reads) s = .next t ∧ t.power.config = s.power.next ∧
         t.rack.poolSize = poolSizeFor s.portsUp.length ∧ t.ident.startId = Config.freeDraw s.draws ∧
         t.ident.firmware = s.nor.fwOf s.ident.runSlot ∧
         (∀ n ∈ s.portsUp, (t.memPort n).state = 2 ∧ (t.memPort n).restored = true)) ∧
     (∀ a b, (s.memPort p).state ≠ 0 →
       ∃ t, exec (.deviceTemperatureRead p a b) s = .next t ∧
         t.memPort p = { s.memPort p with
           temp := BitVec.ofNat 8 (min 255 (max a b))
           hot := if 85 < max a b then true else if max a b < 80 then false else (s.memPort p).hot } ∧
         (∀ n, n ≠ p → t.memPort n = s.memPort n) ∧ t = { s with mem := t.mem }))

/-- CORE_SERVICE of a working core excludes it until the next start; the spare, where there is one, stands in at its logical
number. SELF_TEST excludes the cores that fail, LANE_SERVICE the lane, and PORT_SERVICE takes the port out of service with CAUSE
0 and begins a cask restart. A core or lane number out of range completes with OPERAND_ALIGN. -/
def Obligations.MakerServices : Prop :=
  ∀ (s : State) (q tag : Nat) (c : Started) (k : Nat), s.shaped = true → k = bits (c.arg 1) 1 0 →
    (∀ p l x, s.commandAt q tag 0x60 c → s.heldIn k = false → p = bits (c.arg 1) 6 2 → p ≤ 16 → s.coreOut k p = false →
      (s.sect k).spare = some x → x ≠ p → (s.sect k).map.findIdx? (· == p) = some l →
      ∃ t, exec (.coreService q tag) s = .next t ∧ t.started? q tag = none ∧
        t.sect k = { s.sect k with excluded := (s.sect k).excluded ||| coreBit p, map := (s.sect k).map.set l x,
                                   spare := none } ∧
        (∀ n, n ≠ k → t.sect n = s.sect n) ∧ t.nor = s.nor) ∧
    (s.commandAt q tag 0x60 c → s.heldIn k = false → 16 < bits (c.arg 1) 6 2 →
      ∃ t, exec (.coreService q tag) s = .next t ∧ Answered s t q tag (s.queue q) [] cAlign 0 0 ∧
        t = { s with out := t.out, port := s.portOf t, errata := t.errata }) ∧
    (∀ failed, s.commandAt q tag 0x61 c → s.heldIn k = false →
      ∃ t, exec (.selfTest q tag failed) s = .next t ∧ t.started? q tag = none ∧
        (t.sect k).excluded = (s.sect k).excluded ||| failed ∧ (t.sect k).failed = (s.sect k).failed ∧
        (∀ n, n ≠ k → t.sect n = s.sect n) ∧ (∀ x ∈ t.cmds, x.phase = .issued → x.inSection k = false)) ∧
    (∀ p l net, s.commandAt q tag 0x62 c → p = bits (c.arg 1) 3 0 → l = bits (c.arg 1) 6 4 → l ≤ 4 →
      ∃ t, exec (.laneService q tag net) s = .next t ∧ t.started? q tag = none ∧
        (t.fport p).excluded = (s.fport p).excluded ||| BitVec.ofNat 5 (1 <<< l) ∧
        (s.isNative p = true → (t.fport p).renegotiations = sat32 ((s.fport p).renegotiations + 1)) ∧
        (s.isNative p = false → Answered s t q tag (s.queue q) [] cDone (w32 (s.fport p).width) 0) ∧
        (∀ n, n ≠ p → (t.fport n).excluded = (s.fport n).excluded)) ∧
    (∀ p, s.commandAt q tag 0x63 c → p = bits (c.arg 1) 3 0 → (s.memPort p).state = 2 → s.power.config ≠ 3 →
      ∃ t, exec (.portService q tag) s = .next t ∧ t.memPort p = { s.memPort p with state := 3, cause := 0 } ∧
        t.power.config = 3 ∧ t.cmds = [] ∧ t.cellar.rebuilding = true ∧ t.port.attnPending.getLsbD 6 = true) ∧
    (∀ p, s.commandAt q tag 0x63 c → p = bits (c.arg 1) 3 0 → (s.memPort p).state ≠ 2 ∨ s.power.config = 3 →
      ∃ t, exec (.portService q tag) s = .next t ∧
        Answered s t q tag (s.queue q) [] cDone (w32 s.portsUp.length) 0 ∧
        t = { s with out := t.out, port := s.portOf t, errata := t.errata })

/-- COLD_START of a module whose identity derives and whose first slot is acceptable: it runs that slot's imprint and firmware
under a new START_ID, every memory port trains, the module's time begins at 0, the self-test's finding is the core record, and
the console names the slot. The warm starts: an exit from Standby after a wake, and RESTART, whose completion goes first and
after which no pair is enabled and no stream lives. Where every memory port restores its training, the module is Ready and
configured at once. -/
def Obligations.Starts : Prop :=
  (∀ (s : State) (start : StartIn) (k : Nat) (rest : List Nat), s.shaped = true → s.power.state = .standby →
     s.board.v54Ok = true → s.board.auxOk = true → s.power.cold = true → s.power.queuedWake = true → start.pufFails < 4 →
     s.nor.order = k :: rest → (judge s.nor false (s.nor.fwOf k) (s.nor.imOf k)).1 = cDone →
     ∃ t, exec (.coldStart start) s = .next t ∧ t.power.state = .starting ∧ t.power.config = 0 ∧ t.power.next = 1 ∧
       t.power.queuedWake = false ∧ t.power.cold = false ∧ t.ident.identityOk = true ∧ t.ident.runSlot = k ∧
       t.ident.imprint = s.nor.imOf k ∧ t.ident.firmware = s.nor.fwOf k ∧ t.ident.startId = Config.freeDraw s.draws ∧
       t.ident.window = none ∧ t.ident.colophon = 0 ∧ t.time.tsy = 0 ∧ t.time.counting = true ∧
       (∀ x ∈ t.mem, x.state = 1) ∧ t.nor = { s.nor with coreRecord := (List.range 4).map fun i => start.selfTest.getD i 0 } ∧
       (∀ x ∈ t.slots, x = Slot.empty) ∧ t.port.simmerOff = 0 ∧ t.out = s.out ++ [.console (.slot k)]) ∧
  (∀ (s : State) (start : StartIn) (k : Nat) (rest : List Nat), s.shaped = true → s.nor.order = k :: rest →
     (judge s.nor false (s.nor.fwOf k) (s.nor.imOf k)).1 = cDone →
     (∀ n, n < 16 → ∃ r, start.ports[n]? = some r ∧ s.restores n r = true) →
     (s.power.state = .standby → s.board.v54Ok = true → s.power.cold = false → s.power.queuedWake = true →
       start.pufFails < 4 →
       ∃ t, exec (.exitStandby start) s = .next t ∧ t.power.state = .ready ∧ t.power.config = 1 ∧ t.ident.runSlot = k ∧
         t.ident.imprint = s.nor.imOf k ∧ t.time.tsy = 0 ∧ t.nor = s.nor ∧
         (∀ n, n < 16 → (t.memPort n).state = 2 ∧ (t.memPort n).restored = true) ∧ t.rack.poolSize = poolSizeFor 16) ∧
     (∀ q tag c, s.commandAt q tag 0x53 c →
       ∃ (t : State) (more : List Out), exec (.restart q tag start) s = .next t ∧
         t.out = s.out ++ [entryOut (s.queue q) s.port.attnPending cDone tag 0 0] ++ more ∧ t.power.state = .ready ∧
         t.power.config = 1 ∧ t.ident.runSlot = k ∧ t.ident.imprint = s.nor.imOf k ∧ t.port.started = [] ∧
         (∀ n, n < 16 → (t.queue n).qstate = 0 ∧ (t.queue n).enable = false) ∧ (∀ i, (t.stream i).live = false) ∧ t.cmds = [] ∧
         t.time.tsy = 0 ∧ t.nor = s.nor))

/-- The last memory port of a cold start trains: every one is in service with a saved record, and the module is Ready in the
CONFIG that its slot gave it. An exit from Rest, and one from Dormant whose ports restore, end in Ready; Dormant keeps streams
and time, and its exit starts the serial numbers again. The supplies. Both in range: a module in Standby has its wake. Loss of
the 54 V input, or a thermal trip, is an unplanned Standby, or off without auxiliary power: the stores are blank, nothing of the
write buffer is left, the flash and the errata ring stay, and the next start is cold. Auxiliary power that comes back samples
the straps; its loss in Standby turns the module off. -/
def Obligations.ExitsAndSupplies : Prop :=
  (∀ s : State, s.shaped = true →
     (∀ results : List PortTrain, s.power.state = .starting → s.power.config = 0 → s.nor.training.length = 16 →
       (∀ n, n < 16 → (s.memPort n).state = 1) → (∀ r ∈ results, r.ok = true) →
       (∀ n, n < 16 → ∃ r ∈ results, r.port = n) →
       ∃ t, exec (.caskTrainingDone results) s = .next t ∧ t.power.state = .ready ∧ t.power.config = s.power.next ∧
         t.power.training = false ∧ t.rack.poolSize = poolSizeFor 16 ∧
         (∀ n, n < 16 → (t.memPort n).state = 2 ∧ ∃ x, t.nor.training.getD n none = some x ∧ x.valid n = true)) ∧
     (s.power.state = .rest → s.power.queuedWake = true → s.power.entry = none →
       ∃ t, exec .exitRest s = .next t ∧ t.power = { s.power with state := .ready, queuedWake := false } ∧
         (∀ p, (s.fport p).mode = 1 → (s.fport p).noRetry = false → p < 16 → t.fport p = { s.fport p with state := 1 }) ∧
         t = { s with power := t.power, fabric := { s.fabric with ports := t.fabric.ports } }) ∧
     (∀ reads, s.power.state = .dormant → s.power.queuedWake = true → s.power.entry = none →
       (∀ n, n < 16 → (s.memPort n).state ≠ 1) →
       (∀ n, n < 16 → (s.memPort n).state = 0 → ∃ r, reads[n]? = some r ∧ s.restores n r = true) →
       ∃ t, exec (.exitDormant reads) s = .next t ∧ t.power.state = .ready ∧ t.power.queuedWake = false ∧
         (∀ n, n < 16 → (s.memPort n).state = 0 → (t.memPort n).state = 2) ∧ (∀ x ∈ t.cores, x.serial = 0) ∧
         (∀ n, n < 16 → t.queue n = Queue.reset) ∧ t.streams = s.streams ∧ t.reqs = s.reqs ∧ t.time.tsy = s.time.tsy ∧
         t.nor = s.nor)) ∧
  (∀ s : State,
     (s.board.auxOk = true → s.board.v54Ok = false → s.power.state = .standby →
       ∃ t, exec .supplyTurnOn s = .next t ∧
         t = { s with board := { s.board with v54Ok := true, reversed := false }, power := { s.power with queuedWake := true } }) ∧
     (∀ i ∈ [Instr.undervoltage, .overvoltage, .thermalTrip],
       (i = .thermalTrip → s.power.state ≠ .standby ∧ s.power.state ≠ .off) →
       (i ≠ .thermalTrip → s.board.v54Ok = true) →
       ∃ t, exec i s = .next t ∧ t.power.state = (if s.board.auxOk then .standby else .off) ∧ t.power.cold = true ∧
         t.coreMem = Bytes.blank ∧ t.sectMem = Bytes.blank ∧ t.caskRaw = Bytes.blank ∧ t.malt.lpddr = Bytes.blank ∧
         t.streams = [] ∧ t.reqs = [] ∧ t.cmds = [] ∧ t.port.started = [] ∧ (∀ f ∈ t.cellar.frames, f.2.programmed = true) ∧
         t.nor = s.nor ∧ t.errata.ring = s.errata.ring ∧ t.out = s.out ∧ t.draws = s.draws ∧
         t.board.trip = (s.board.trip || i == .thermalTrip) ∧ t.board.v54Ok = (s.board.v54Ok && i == .thermalTrip)) ∧
     (∀ straps, s.board.auxOk = false →
       ∃ t, exec (.auxPowerApplied straps) s = .next t ∧ t.board.auxOk = true ∧ t.board.straps = straps ∧
         t.board.presentLow = true ∧ t.power.state = (if s.power.state = .off then .standby else s.power.state) ∧
         t = { s with board := t.board, power := { s.power with state := t.power.state } }) ∧
     (s.board.auxOk = true →
       ∃ t, exec .auxPowerLost s = .next t ∧ t.board.auxOk = false ∧ t.board.trip = false ∧ t.board.presentLow = false ∧
         (s.power.state = .standby → t.power.state = .off ∧ t.power.cold = true ∧ t.board.v54Ok = false ∧ t.port = s.port) ∧
         (s.power.state ≠ .standby → t.power = s.power ∧ t.port.attnPending.getLsbD 2 = true) ∧
         t = { s with board := t.board, power := t.power, port := t.port, errata := t.errata }))

/-- POWER_SET to Rest, Dormant or Standby in Run or Ready, where the role may: the entry begins, with WAKE_AT of its arguments,
and the command stays started; an operator without OP_DORMANT or OP_STANDBY is denied, and Standby without auxiliary power ends
with RESOURCE_OVERFLOW. Ready that has lasted REST_AFTER begins an entry to Rest of its own. An entry for which nothing is left
to wait ends in its state, and the POWER_SET that asked for it completes. After one to Dormant no leaf has a copy above the
cellar and the link is down; after one to Standby the stores are blank and the next start is warm; that entry waits until the
governor has admitted the index records of its write buffer (log 105). The ports are idle in Rest and Dormant, and no core
simmers. A Dormant image that is too large ends the entry with RESOURCE_OVERFLOW in Ready. -/
def Obligations.PowerEntries : Prop :=
  (∀ s : State, s.mayEnter = true →
     (∀ q tag c, s.commandAt q tag 0x41 c →
       ∀ x ∈ [(Instr.powerSetRest q tag, 2), (.powerSetDormant q tag, 3), (.powerSetStandby q tag, 4)],
       bits (c.arg 1) 2 0 = x.2 →
       ((x.2 = 2 ∨ c.role ≠ 1 ∨ (x.2 = 3 ∧ (s.sys 53).getLsbD 16 = true) ∨ (x.2 = 4 ∧ (s.sys 53).getLsbD 17 = true)) →
         (x.2 = 4 → s.board.auxOk = true) →
         ∃ t, exec x.1 s = .next t ∧
           t.power = { s.power with entry := some (x.2, some (q, tag)), wakeAt := c.arg 3 ++ c.arg 2 } ∧
           t.started? q tag = some { c with begun := true } ∧
           t = { s with power := t.power, port := { s.port with started := t.port.started } }) ∧
       (x.2 ≠ 2 → c.role = 1 → (s.sys 53).getLsbD (x.2 + 13) = false →
         ∃ t, exec x.1 s = .next t ∧ Answered s t q tag (s.queue q) [] cRole 0 0 ∧
           t = { s with out := t.out, port := s.portOf t }) ∧
       (x.2 = 4 → c.role ≠ 1 → s.board.auxOk = false →
         ∃ t, exec x.1 s = .next t ∧
           Answered s t q tag (s.queue q) [] cOverflow (w32 (if s.power.state = .run then 0 else 1)) 0 ∧
           t = { s with out := t.out, port := s.portOf t })) ∧
     (s.power.state = .ready → bits (s.sys 53) 15 0 ≠ 0 →
       ∃ t, exec .autoRest s = .next t ∧ t = { s with power := { s.power with entry := some (2, none), wakeAt := 0 } })) ∧
  (∀ (s : State) (n q tag : Nat) (u : Started), s.power.entry = some (n, some (q, tag)) → s.quiet = true →
     s.power.sbStandby = false → s.started? q tag = some u → u.discard = false → s.takesEntry q = true →
     (n = 2 →
       ∃ (t : State) (more : List Out), exec .powerEntryComplete s = .next t ∧
         t.out = s.out ++ [entryOut (s.queue q) s.port.attnPending cDone tag 2 0] ++ more ∧ t.started? q tag = none ∧
         t.power = { s.power with state := .rest, entry := none, sbStandby := false } ∧
         (∀ p, p < s.fabric.ports.length → (s.fport p).mode ≠ 0 → (t.fport p).state = 4) ∧
         (∀ k ∈ t.cores, k.simmer = 0 ∧ k.ramp = 8) ∧
         (s.idlePorts.capNow.drop 1 = (s.cap.take 9).drop 1 → Answered s t q tag (s.queue q) [] cDone 2 0 ∧
           t = { s with out := t.out, port := s.portOf t, power := t.power, cap := t.cap, cores := t.cores,
                        fabric := { s.fabric with ports := t.fabric.ports } })) ∧
     (n = 3 → 0x80000000 < s.imageBytes →
       ∃ t, exec .powerEntryComplete s = .next t ∧ Answered s t q tag (s.queue q) [] cOverflow 1 0 ∧
         t.power = { s.power with state := .ready, entry := none, sbStandby := false } ∧
         t = { s with out := t.out, port := s.portOf t, power := t.power, cores := t.cores }) ∧
     (n = 3 → s.imageBytes ≤ 0x80000000 → s.dormantDue = [] →
       ∃ (t : State) (more : List Out), exec .powerEntryComplete s = .next t ∧
         t.out = s.out ++ [entryOut (s.queue q) s.port.attnPending cDone tag 3 0] ++ more ∧ t.started? q tag = none ∧
         t.power.state = .dormant ∧ t.power.entry = none ∧ t.port.linkUp = false ∧ t.coreMem = Bytes.blank ∧
         t.sectMem = Bytes.blank ∧ (∀ e ∈ t.rack.leaves, e.2.inCask = false ∧ e.2.inSs = false ∧ e.2.moving = false) ∧
         t.rack.moves = [] ∧ (∀ f ∈ t.cellar.frames, f.2.programmed = true) ∧ t.time = s.time ∧
         (s.idlePorts.capNow.drop 1 = (s.cap.take 9).drop 1 → t.streams = s.streams ∧ t.reqs = s.reqs ∧
           t.slots = s.slots ∧ t.caskRaw = s.caskRaw)) ∧
     (n = 4 → s.standbyDue = [] →
       (s.cellar.level < (100 * Config.indexBytes s.draws : Nat) ∨ s.time.tsy.toNat < s.cellar.peakAt) →
       ∃ t, exec .powerEntryComplete s = .next t ∧ t = { s with cellar := { s.cellar with indexDue := max 1 s.cellar.indexDue } }) ∧
     (n = 4 → s.standbyDue = [] → ((100 * Config.indexBytes s.draws : Nat) : Int) ≤ s.cellar.level →
       s.cellar.peakAt ≤ s.time.tsy.toNat →
       ∃ (t : State) (more : List Out), exec .powerEntryComplete s = .next t ∧
         t.out = s.out ++ [entryOut (s.queue q) s.port.attnPending cDone tag 4 0] ++ more ∧ t.power.state = .standby ∧
         t.power.cold = false ∧ t.power.entry = none ∧ t.power.queuedWake = s.power.queuedWake ∧ t.coreMem = Bytes.blank ∧ t.sectMem = Bytes.blank ∧
         t.caskRaw = Bytes.blank ∧ t.streams = [] ∧ t.cmds = [] ∧ t.port.started = [] ∧
         (∀ f ∈ t.cellar.frames, f.2.programmed = true) ∧ t.nor.versionCounter = s.nor.versionCounter))

/-- Run falls to Ready when nothing has run, and simmer stops on every core; Ready returns to Run. WAKE_AT, once reached in Rest
or Dormant, is a wake event and is used up; one that ends Dormant asserts WAKE#. The sideband: a status block leaves the module
and TRIP clears; WAKE with a good check byte is a wake event; STANDBY, where the imprint honours it, begins an entry to Standby,
or follows one under way. A bad check byte changes nothing. -/
def Obligations.SidebandAndReady : Prop :=
  (∀ s : State,
     (s.power.state = .run → s.cmds = [] → s.dmaIdle = true → (∀ p ∈ s.parts, p.cycle = none) →
       ∃ t, exec .enterReady s = .next t ∧ t.cores = s.cores.map (fun x => { x with simmer := 0, ramp := 8 }) ∧
         t = { s with cores := t.cores, power := { s.power with state := .ready } }) ∧
     (s.power.state = .ready → s.power.config ≠ 0 →
       ∃ t, exec .returnToRun s = .next t ∧ t = { s with power := { s.power with state := .run } }) ∧
     ((s.power.state = .rest ∨ s.power.state = .dormant) → s.power.wakeAt ≠ 0 → s.power.wakeAt.toNat ≤ s.time.tsy.toNat →
       ∃ t, exec .wakeAtReached s = .next t ∧
         t = { s with power := { s.power with queuedWake := true, wakeAt := 0 }
                      board := { s.board with wake := s.board.wake || s.power.state == .dormant } })) ∧
  (∀ s : State, s.board.auxOk = true →
     (∃ t, exec .sidebandStatus s = .next t ∧ t.out = s.out ++ [.sideband (16 :: wordsBytes s.statusBlock)] ∧
       t.board = { s.board with trip := false, unlogged := t.board.unlogged } ∧
       t = { s with out := t.out, board := t.board, errata := t.errata }) ∧
     ((s.power.state = .rest ∨ s.power.state = .dormant ∨ s.power.state = .standby) →
       ∃ t, exec (.sidebandWake 0xA5 true) s = .next t ∧ t.power = { s.power with queuedWake := true } ∧
         t.board = { s.board with wake := s.board.wake || s.power.state == .dormant, unlogged := t.board.unlogged } ∧
         t = { s with power := t.power, board := t.board, errata := t.errata }) ∧
     ((s.sys 53).getLsbD 18 = true → s.power.state ≠ .standby → s.power.state ≠ .off → s.power.state ≠ .starting →
       ∃ t, exec (.sidebandStandby 0x5A true) s = .next t ∧
         (s.power.entry = none → t.power = { s.power with entry := some (4, none) }) ∧
         (s.power.entry ≠ none → t.power = { s.power with sbStandby := true }) ∧
         t = { s with power := t.power, board := { s.board with unlogged := t.board.unlogged }, errata := t.errata }) ∧
     (∀ b, exec (.sidebandWake b false) s = .next s ∧ exec (.sidebandStandby b false) s = .next s))

/-- An output that is powered and found shorted goes to high impedance and is the last fault; it is driven again once its
readback agrees. PRESENT# that stays low is shorted. The controller reports a reversed input while P54V is absent. A debug
instruction with a maker session stops service in CONFIG 4; without one it is recorded alone. -/
def Obligations.PinsAndDebug : Prop :=
  ∀ s : State, s.shaped = true →
    (∀ pin low, s.pinPowered pin = true → s.board.pins.getD (pinNumber pin) 0 ≠ (if low then 1 else 2) →
      ∃ t, exec (.outputShort pin low) s = .next t ∧ t.board.pins.getD (pinNumber pin) 0 = (if low then 1 else 2) ∧
        t.board.faultSubject.toNat = 0x100 + pinNumber pin ∧ t.board.faultDetail = (if low then 1 else 2) ∧
        (∀ n, n ≠ pinNumber pin → t.board.pins.getD n 0 = s.board.pins.getD n 0) ∧
        t = { s with board := t.board, errata := t.errata }) ∧
    (∀ pin, s.pinPowered pin = true →
      ∃ t, exec (.shortRetry pin true) s = .next t ∧ t.board.pins.getD (pinNumber pin) 0 = 0 ∧
        (∀ n, n ≠ pinNumber pin → t.board.pins.getD n 0 = s.board.pins.getD n 0) ∧
        t = { s with board := { s.board with pins := t.board.pins } }) ∧
    (s.board.auxOk = true → s.board.presentLow = true →
      ∃ t, exec (.presentTest true) s = .next t ∧ t.board.pins.getD 3 0 = 1 ∧
        (∀ n, n ≠ 3 → t.board.pins.getD n 0 = s.board.pins.getD n 0) ∧ t = { s with board := t.board, errata := t.errata }) ∧
    (∀ r, s.board.auxOk = true → s.board.v54Ok = false →
      ∃ t, exec (.inputReversed r) s = .next t ∧ t = { s with board := { s.board with reversed := r } }) ∧
    (s.dieOn = true → s.ident.debugStop = false → (∃ q, q < 16 ∧ (s.queue q).role = 3) →
      ∃ t, exec .debugInstruction s = .next t ∧ t.power.config = 4 ∧ t.ident.debugStop = true ∧ t.cmds = [] ∧
        t.port.started = [] ∧ (∀ q, q < 16 → (t.queue q).qstate = 0) ∧ (∀ i, (t.stream i).live = false) ∧ t.nor = s.nor) ∧
    (s.dieOn = true → s.ident.debugStop = false → (∀ k ∈ s.port.queues, k.role ≠ 3) →
      ∃ t, exec .debugInstruction s = .next t ∧ t = { s with errata := t.errata })

/-- When any junction reaches 105 °C, its section's F falls to 1 at once; it stays there until the junction is below 100 °C, and
then it rises again as every section's F does. No other section's F changes at the drop. -/
def Obligations.EmergencyDrop : Prop :=
  ∀ (s : State) (sec : Nat), s.dieOn = true → sec < 4 → s.power.frac.length = 4 → s.power.emergency.length = 4 →
    (∀ temp, 105 ≤ temp →
      ∃ t, exec (.emergencyDrop sec temp) s = .next t ∧ t.power.frac.getD sec 16 = 1 ∧
        t.power.emergency.getD sec false = true ∧ t.power.thermal = true ∧
        (∀ n, n ≠ sec → t.power.frac.getD n 16 = s.power.frac.getD n 16 ∧
          t.power.emergency.getD n false = s.power.emergency.getD n false) ∧
        t = { s with power := t.power, port := t.port, errata := t.errata }) ∧
    (∀ x : Sensors, s.power.emergency.getD sec false = true →
      ∃ t, exec (.throttleAdjust x) s = .next t ∧
        (100 ≤ x.tj.getD sec 0 → t.power.frac.getD sec 16 = 1 ∧ t.power.emergency.getD sec false = true) ∧
        (x.tj.getD sec 0 < 100 → t.power.emergency.getD sec false = false ∧
          (x.powerIn ≤ 1000 * s.capInEffect → 100 * x.powerIn < 95 * (1000 * s.capInEffect) →
            x.tj.getD sec 0 + 3 < s.tjThrottle → x.tCask < 95 →
            t.power.frac.getD sec 16 = min 16 (s.power.frac.getD sec 16 + 1))))

/-- THROTTLE_ADJUST: above the cap, or in a section at its limit, F falls by one, to 1 at the least; in a section that is cool
and far enough below the cap it rises by one, to 16 at the most; in between it stands; a section held by an emergency stays at
1. A telemetry sample is the record that software reads next. The SYNC input counts where the imprint assigns it. -/
def Obligations.Throttling : Prop :=
  ∀ (s : State) (x : Sensors),
    (s.dieOn = true →
      ∃ t, exec (.throttleAdjust x) s = .next t ∧
        (∀ i, i < 4 → ∀ f tj, f = s.power.frac.getD i 16 → tj = x.tj.getD i 0 →
          ((s.power.emergency.getD i false = true ∧ 100 ≤ tj) → t.power.frac.getD i 16 = 1) ∧
          ((s.power.emergency.getD i false = false ∨ tj < 100) →
            (1000 * s.capInEffect < x.powerIn ∨ s.tjThrottle ≤ tj ∨ 95 ≤ x.tCask) → t.power.frac.getD i 16 = max 1 (f - 1)) ∧
          ((s.power.emergency.getD i false = false ∨ tj < 100) → x.powerIn ≤ 1000 * s.capInEffect →
            100 * x.powerIn < 95 * (1000 * s.capInEffect) → tj + 3 < s.tjThrottle → x.tCask < 95 →
            t.power.frac.getD i 16 = min 16 (f + 1)) ∧
          ((s.power.emergency.getD i false = false ∨ tj < 100) → x.powerIn ≤ 1000 * s.capInEffect → tj < s.tjThrottle →
            x.tCask < 95 → (95 * (1000 * s.capInEffect) ≤ 100 * x.powerIn ∨ s.tjThrottle ≤ tj + 3) →
            t.power.frac.getD i 16 = f)) ∧
        t = { s with power := t.power, port := t.port, errata := t.errata }) ∧
    (s.dieOn = true →
      ∃ t, exec (.telemetrySample x) s = .next t ∧ t.power.telemetry.length = 16 ∧
        wd t.power.telemetry 0 = w32 x.powerIn ∧ wd t.power.telemetry 1 = w32 x.powerDie ∧
        t.power.energy = s.power.energy + BitVec.ofNat 64 x.energy ∧
        wd t.power.telemetry 6 = t.power.energy.extractLsb' 0 32 ∧ wd t.power.telemetry 7 = t.power.energy.extractLsb' 32 32 ∧
        wd t.power.telemetry 9 = s.time.tsy.extractLsb' 0 32 ∧ wd t.power.telemetry 10 = s.time.tsy.extractLsb' 32 32 ∧
        t.power.frac = s.power.frac ∧ t.board.powerIn = w32 x.powerIn ∧ t = { s with power := t.power, board := t.board }) ∧
    (∀ level, (s.modw 0).getLsbD 21 = true →
      ∃ t, exec (.syncThrottleInput level) s = .next t ∧ t = { s with power := { s.power with syncCap := level } })

/-- NEGOTIATION of a native port in STATE 1 that finds no partner ends in STATE 4 with REASON 1. One that finds a native partner
on four good lanes at 212 Gb/s, with no lane fault, whose hello meets the wiring and bears an accepted colophon, ends up: RATE
3, WIDTH 3, the spare unused, the partner's address and port as the hello gives them, the lane order and polarity as found; the
partner is unreachable no longer. Crossed pairs end it with REASON 4, and it is tried no more. A negotiation step past its limit
ends in STATE 4, with the REASON of the step: 5 for step 6, 2 for steps 4 and 5, 1 for the others, and with no link. A port that
is down negotiates again, but for crossed pairs. -/
def Obligations.Negotiations : Prop :=
  (∀ (s : State) (p : Nat) (net : NegIn), s.isNative p = true → (s.fport p).state = 1 →
     (net.partner = false →
       ∃ t, exec (.negotiation p net) s = .next t ∧ (t.fport p).state = 4 ∧ (t.fport p).reason = 1 ∧ OnlyPort s t p ∧
         t = { s with fabric := t.fabric, draws := s.draws + 1 }) ∧
     (net.partner = true → net.faults = [] → (s.fport p).noRetry = false → (s.fport p).excluded = 0 →
       net.looped = false → net.rs544 = true → net.native = true → net.fecLock = true →
       net.rates.getLsbD 0 = true → (bits (s.portWord p) 8 6).testBit 0 = true → net.good212 = 31 → net.hello ≠ [] →
       s.wired p net.hello = true → s.accepts (helloColophon net.hello) = true →
       ∃ t, exec (.negotiation p net) s = .next t ∧ (t.fport p).state = 2 ∧ (t.fport p).reason = 0 ∧ (t.fport p).rate = 3 ∧
         (t.fport p).width = 3 ∧ (t.fport p).spareUsed = false ∧ (t.fport p).polInv = net.inverted ∧
         (t.fport p).laneMap = laneMapOf net.order ∧ (t.fport p).partner.toNat = bits (wd net.hello 0) 19 0 ∧
         (t.fport p).partnerPort.toNat = bits (wd net.hello 0) 23 20 ∧ (t.fport p).partner ∉ t.fabric.unreachable ∧
         OnlyPort s t p ∧ t.coreMem = s.coreMem ∧ t.sectMem = s.sectMem ∧ t.caskRaw = s.caskRaw) ∧
     (net.partner = true → (net.faults.any fun f => f.fault == 7) = true →
       ∃ t, exec (.negotiation p net) s = .next t ∧ (t.fport p).state = 4 ∧ (t.fport p).reason = 4 ∧
         (t.fport p).noRetry = true ∧ (t.fport p).faults = net.faults ∧ OnlyPort s t p)) ∧
  (∀ (s : State) (p : Nat), s.isNative p = true →
     (∀ step, (s.fport p).state = 1 →
       ∃ t, exec (.negotiationStepLimit p step) s = .next t ∧
         t = s.modFPort p (fun k => { k with state := 4, reason := (t.fport p).reason, rate := 0, width := 0, spareUsed := false,
                                             credits := 0, txQueue := [] }) ∧
         (step = 6 → (t.fport p).reason = 5) ∧ (step = 4 ∨ step = 5 → (t.fport p).reason = 2) ∧
         (step ≠ 4 → step ≠ 5 → step ≠ 6 → (t.fport p).reason = 1)) ∧
     ((s.fport p).state = 4 → (s.fport p).noRetry = false →
       ∃ t, exec (.negotiationRetry p) s = .next t ∧ t = s.modFPort p (fun k => { k with state := 1 })) ∧
     ((s.fport p).noRetry = true → exec (.negotiationRetry p) s = .next s))

/-- RENEGOTIATION counts, and a port that then finds no partner is down with REASON 1. PARTNER_LOSS takes a port that is up or
refuses its partner back to STATE 1 with REASON 9, raises degraded attention and lists the partner. An edge port comes up at the
imprint's rate with free polarity and order, and goes down. A hello, and on a port that is up a time parcel, leaves on the link
at once where credit is left and nothing waits; a time parcel bears the module's time at its departure. A hello received on a
port that refuses its partner: bad wiring takes the port down with REASON 7; a hello that meets the wiring and bears an accepted
colophon brings the port up; one with another colophon leaves it refusing, counted. -/
def Obligations.PortsAndHellos : Prop :=
  (∀ (s : State) (p : Nat),
     (s.partnered p = true → ∀ net : NegIn,
       ∃ t, exec (.renegotiation p net) s = .next t ∧
         (t.fport p).renegotiations = sat32 ((s.fport p).renegotiations + 1) ∧ t.port.attnPending.getLsbD 2 = true ∧
         OnlyPort s t p ∧ (net.partner = false → (t.fport p).state = 4 ∧ (t.fport p).reason = 1)) ∧
     (s.partnered p = true →
       ∃ t, exec (.partnerLoss p) s = .next t ∧ (t.fport p).state = 1 ∧ (t.fport p).reason = 9 ∧ (t.fport p).rate = 0 ∧
         (t.fport p).width = 0 ∧ (t.fport p).credits = 0 ∧ (t.fport p).txQueue = [] ∧
         (s.fport p).partner ∈ t.fabric.unreachable ∧ t.port.attnPending.getLsbD 2 = true ∧ OnlyPort s t p) ∧
     ((s.fport p).mode = 2 → (s.fport p).state ≠ 2 →
       ∃ t, exec (.edgePortUp p) s = .next t ∧ (t.fport p).state = 2 ∧ (t.fport p).reason = 0 ∧ (t.fport p).rate = 3 ∧
         (t.fport p).width = bits (s.portWord p) 10 9 ∧ OnlyPort s t p ∧
         t = { s with fabric := t.fabric, draws := s.draws + 1 }) ∧
     ((s.fport p).mode = 2 → (s.fport p).state = 2 →
       ∃ t, exec (.edgePortDown p) s = .next t ∧
         t = s.modFPort p (fun k => { k with state := 4, rate := 0, width := 0 }))) ∧
  (∀ (s : State) (p : Nat),
     (s.partnered p = true → (s.fport p).txQueue = [] → 1 ≤ (s.fport p).credits →
       ∃ t, exec (.helloSend p) s = .next t ∧
         (∃ x, t.out = s.out ++ [.parcel p x (parcelCrc x)] ∧ x.dest = 0xFFFFF ∧ x.src = s.addr ∧ x.ptype = 0 ∧ x.segs = [] ∧
           x.payload = wordsBytes (s.helloWords p)) ∧
         t = { s with out := t.out, fabric := t.fabric } ∧ (t.fport p).credits = (s.fport p).credits - 1 ∧ OnlyPort s t p) ∧
     (s.timePort p = true → (s.fport p).txQueue = [] → 1 ≤ (s.fport p).credits →
       ∃ t, exec (.timeParcelSend p) s = .next t ∧
         (∃ x, t.out = s.out ++ [.parcel p x (parcelCrc x)] ∧ x.dest = 0xFFFFF ∧ x.ptype = 10 ∧ x.payload.length = 32 ∧
           wd (bytesWords 8 x.payload) 2 = s.now.extractLsb' 0 32 ∧ wd (bytesWords 8 x.payload) 3 = s.now.extractLsb' 32 32 ∧
           ((s.fport p).timeParcel = none → (bytesWords 8 x.payload).drop 4 = [0, 0, 0, 0])) ∧
         t = { s with out := t.out, fabric := t.fabric } ∧ OnlyPort s t p) ∧
     (s.partnered p = true → ∀ h : List W32,
       (s.wired p h = false →
         ∃ t, exec (.helloReceive p h) s = .next t ∧ (t.fport p).state = 4 ∧ (t.fport p).reason = 7 ∧ OnlyPort s t p) ∧
       (s.wired p h = true → s.accepts (helloColophon h) = true → (s.fport p).state = 3 →
         ∃ t, exec (.helloReceive p h) s = .next t ∧ (t.fport p).state = 2 ∧ (t.fport p).reason = 0 ∧
           (t.fport p).partner.toNat = bits (wd h 0) 19 0 ∧ OnlyPort s t p) ∧
       (s.wired p h = true → s.accepts (helloColophon h) = false → s.countOnly = false →
         ∃ t, exec (.helloReceive p h) s = .next t ∧ (t.fport p).state = 3 ∧
           (t.fport p).mismatches = sat32 ((s.fport p).mismatches + 1) ∧ OnlyPort s t p)))

/-- A time parcel received is kept with its arrival, and the choice of a source is made anew; without an echo the time base is
not set. An offset beyond 2 µs of the chosen source sets it once in a start. TIME_SOURCE_EXPIRY makes the choice anew; without a
source the module holds its frequency. A rising edge at SYNC, where no port offers a better source and the time base has not yet
been set, sets it to a whole multiple of 312 500 000 if it is more than 2 µs away from it; a held pin is recorded. -/
def Obligations.TimeBase : Prop :=
  ∀ s : State,
    (∀ (p : Nat) (ws : List W32) (at_ : W64), s.timePort p = true →
      ∃ t, exec (.timeParcelReceive p ws at_) s = .next t ∧ (t.fport p).timeParcel = some (ws.take 8, at_) ∧
        (offsetOf ws at_ = none → t.time.tsy = s.time.tsy) ∧
        (∀ o, offsetOf ws at_ = some o → t.time.source = some p → s.time.stepped = false → 625 < o.natAbs →
          t.time.tsy = s.time.tsy + BitVec.ofInt 64 o ∧ t.time.stepped = true) ∧
        (s.time.stepped = true → t.time.tsy = s.time.tsy) ∧ (-50 ≤ s.time.steer → s.time.steer ≤ 50 →
          -50 ≤ t.time.steer ∧ t.time.steer ≤ 50) ∧
        OnlyPort s t p ∧ t = { s with fabric := t.fabric, time := t.time, errata := t.errata }) ∧
    (∃ t, exec .timeSourceExpiry s = .next t ∧ t.time.source = s.bestSource.1 ∧ t.time.tsy = s.time.tsy ∧
      (s.bestSource.1 = s.time.source → t = s) ∧
      (s.bestSource.1 ≠ s.time.source → s.bestSource.1 = none → t.time.steer = 0) ∧
      t = { s with time := t.time, errata := t.errata }) ∧
    (s.syncPin = true → s.time.counting = true → s.dieOn = true → (∀ p, p < 16 → (s.fport p).timeParcel = none) →
      ∃ t, exec .syncRisingEdge s = .next t ∧ t.time.syncToggles = true ∧ t.time.source = none ∧
        (∀ n, s.time.stepped = false → s.time.tsy.toNat < 2 ^ 63 →
          n = (s.time.tsy.toNat + 156250000) / 312500000 * 312500000 →
          625 < ((n : Int) - s.time.tsy.toNat).natAbs → t.time.tsy.toNat = n) ∧
        t = { s with time := t.time, board := t.board, errata := t.errata }) ∧
    (s.syncPin = true → s.time.counting = true → s.dieOn = true → 4 < s.board.pins.length →
      ∃ t, exec .syncHeld s = .next t ∧ t.time.syncToggles = false ∧ t.board.pins.getD 4 0 = 3 ∧
        t.time.tsy = s.time.tsy ∧ t = { s with time := t.time, board := t.board, errata := t.errata })

/-- PARCEL_ARRIVAL counts every parcel of a port that has found its partner, and those whose CRC fails. While the port refuses
its partner, nothing but a parcel for the link goes further; its buffer is granted again. A good parcel for this module, the
first of its source, of a known type and an accepted colophon, enters a receive area that has room; a token of an expert not
served here is discarded and counted. A good parcel for another module goes on through the one port of its trunk that is up,
with one hop less, and with its departure its buffer is granted again. Credit granted lets the first waiting parcel go. A parcel
not consumed in time leaves the receive area and is counted at its port. A listed module is asked for its capability table. -/
def Obligations.Parcels : Prop :=
  (∀ (s : State) (p : Nat) (x : Parcel) (crc : W32), s.partnered p = true →
     ∃ t, exec (.parcelArrival p x crc) s = .next t ∧
       (t.fport p).cvu.checked = sat32 ((s.fport p).cvu.checked + 1) ∧
       (t.fport p).cvu.crcFails = (if parcelCrc x = crc then (s.fport p).cvu.crcFails else sat32 ((s.fport p).cvu.crcFails + 1)) ∧
       ((s.fport p).state = 3 → x.dest ≠ 0xFFFFF →
         t = { s.modCvu p fun u => { u with checked := (t.fport p).cvu.checked, crcFails := (t.fport p).cvu.crcFails } with out := t.out } ∧
         t.out = s.out ++ [.credit p (creditUnits x)]) ∧
       ((s.fport p).state = 2 → parcelCrc x = crc → x.dest = s.addr → x.dest ≠ 0xFFFFF → parcelDone x = true →
         (∀ y ∈ (s.fport p).cvu.sources, y.addr ≠ x.src) → s.acceptsShort x.shortColophon = true → x.ptype.toNat < 11 →
         (s.unserved x = true → t.fabric.rx = s.fabric.rx ∧ (t.fport p).dropped = sat32 ((s.fport p).dropped + 1) ∧ OnlyPort s t p) ∧
         (s.unserved x = false → s.fabric.rx.foldl (fun n r => n + rxUnits r.parcel) 0 + rxUnits x ≤ 65536 → s.fabric.rx.length < 65536 →
         ∃ r, t.fabric.rx = s.fabric.rx ++ [r] ∧ r.parcel = x ∧ r.port = some p ∧ r.bad = false ∧ r.swept = false ∧
           r.takenBy = none ∧ (∀ y ∈ s.fabric.rx, y.rq ≠ r.rq) ∧ OnlyPort s t p)) ∧
       (∀ (g : BitVec 10) (rest : List (BitVec 10)) (q : Nat), (s.fport p).state = 2 → parcelCrc x = crc → x.dest ≠ s.addr →
         x.dest ≠ 0xFFFFF → x.segs = g :: rest → g.toNat % 64 ≠ 0 → s.belongs (g.toNat / 128) = true →
         s.trunkUp (g.toNat / 128) (g.toNat / 64 % 2) = [q] → (s.fport q).txQueue = [] →
         creditUnits x ≤ (s.fport q).credits →
         ∃ y, t.out = s.out ++ [.parcel q y (parcelCrc y), .credit p (creditUnits x)] ∧ y.segs = (g - 1) :: rest ∧ y.dest = x.dest ∧ y.src = x.src ∧
           y.payload = x.payload ∧ y.alive = x.alive ∧ (t.fport q).credits = (s.fport q).credits - creditUnits x)) ∧
  (∀ s : State,
     (∀ p units, s.isNative p = true → (s.fport p).state ≠ 0 →
       ((s.fport p).txQueue = [] → ∃ t, exec (.linkCreditGrant p units) s = .next t ∧
         t = s.modFPort p (fun k => { k with credits := k.credits + units })) ∧
       (∀ x, (s.fport p).txQueue = [{ parcel := x, came := none }] → creditUnits x ≤ (s.fport p).credits + units →
         ∃ t, exec (.linkCreditGrant p units) s = .next t ∧ t.out = s.out ++ [.parcel p x (parcelCrc x)] ∧
           (t.fport p).txQueue = [] ∧ (t.fport p).credits = (s.fport p).credits + units - creditUnits x ∧
           t = { s with out := t.out, fabric := t.fabric } ∧ OnlyPort s t p)) ∧
     (∀ rq x, s.rx? rq = some x → x.takenBy = none →
       ∃ t, exec (.parcelExpiry rq) s = .next t ∧ t.rx? rq = none ∧ (∀ r, r ≠ rq → t.rx? r = s.rx? r) ∧
         t = { s with fabric := t.fabric } ∧
         (x.port = none → t = s.dropRx rq) ∧
         (∀ q, x.port = some q → q < s.fabric.ports.length →
           (t.fport q).dropped = sat32 ((s.fport q).dropped + 1) ∧ OnlyPort s t q)) ∧
     (∀ a : Nat, (BitVec.ofNat 20 a) ∈ s.fabric.unreachable → BitVec.ofNat 20 a ≠ s.addr →
       ∃ t, exec (.unreachableQuery a) s = .next t ∧
         Emitted s t (BitVec.ofNat 20 a) 7 (queryBytes 1 s.fabric.nextQuery 0 0 0 0) ∧
         t.fabric.nextQuery = (s.fabric.nextQuery + 1) % 0x100000000 ∧ t.fabric.unreachable = s.fabric.unreachable ∧
         t = { s with out := t.out, fabric := t.fabric }))

/-- A resend request whose parcels the ring no longer keeps is consumed alone; one for a single kept parcel sends it again as it
was sent. A query for the capability table is answered by a reply with STATUS 0 and the table; one of an unknown kind by STATUS
1. A reply takes its sender off the unreachable list. A piece of a leaf goes to its place in its query. -/
def Obligations.Queries : Prop :=
  ∀ (s : State) (rq : Nat) (x : Rx) (p : Parcel), s.holdsParcel rq x → x.parcel = p →
    (p.ptype = 5 →
      ((∀ y ∈ s.fabric.resend, y.dest ≠ p.src) →
        ∃ t, exec (.resendRequestReceive rq) s = .next t ∧ t = s.dropRx rq) ∧
      (∀ y, p.payload.getD 1 0 = 1 →
        (s.fabric.resend.reverse.find? fun y => y.dest == p.src && y.alive == p.payload.getD 0 0) = some y →
        ∃ t, exec (.resendRequestReceive rq) s = .next t ∧ t = State.forward hopFuel (s.dropRx rq) y none)) ∧
    (p.ptype = 7 → p.src ≠ s.addr →
      (bits (wd (bytesWords 8 p.payload) 0) 3 0 = 1 → s.cap ≠ [] →
        ∃ u t, exec (.queryReceive rq) s = .next t ∧
          Emitted s u p.src 8 (wordsBytes [w32 1, wd (bytesWords 8 p.payload) 1, 0, 0]) ∧
          Emitted u t p.src 9 ((wordsBytes s.cap).take 8192) ∧ t = { s with out := t.out, fabric := t.fabric }) ∧
      (∀ k, bits (wd (bytesWords 8 p.payload) 0) 3 0 = k → 4 ≤ k →
        ∃ t, exec (.queryReceive rq) s = .next t ∧
          Emitted s t p.src 8 (wordsBytes [w32 (k + 16), wd (bytesWords 8 p.payload) 1, 0, 0]) ∧
          t = { s with out := t.out, fabric := t.fabric })) ∧
    (p.ptype = 8 →
      ∃ t, exec (.queryReplyReceive rq) s = .next t ∧
        t.fabric.unreachable = s.fabric.unreachable.filter (· != p.src) ∧
        ((bits (wd (bytesWords 2 p.payload) 0) 3 0 ≠ 2 ∨ bits (wd (bytesWords 2 p.payload) 0) 7 4 ≠ 1) →
          t = (s.dropRx rq).modFabric fun f => { f with unreachable := t.fabric.unreachable })) ∧
    (p.ptype = 9 →
      ((∀ q ∈ s.fabric.queries, q.id % 65536 ≠ p.ident.toNat % 65536) →
        ∃ t, exec (.queryDataReceive rq) s = .next t ∧ t = s.dropRx rq) ∧
      (∀ q, s.fabric.queries = [q] → q.id % 65536 = p.ident.toNat % 65536 →
        (q.put p.token.toNat p.payload).whole = false →
        ∃ t, exec (.queryDataReceive rq) s = .next t ∧
          t = (s.dropRx rq).modFabric fun f => { f with queries := [q.put p.token.toNat p.payload] }))

/-- ADD_BLOCK in a member channel whose inputs for its next block are all there. Where every input agrees with the block's
exponent and its residues, a member that is no root sends the sum with its residues to its parent if it has credit, and the root
keeps the FP32 sum; the block is consumed. The first input that does not agree, or whose staged copy cannot be read, ends the
attempt with RESIDUE_MISMATCH and attention class 6. While an input is missing nothing happens. -/
def Obligations.AddsBlocks : Prop :=
  ∀ (s : State) (c : Nat) (k : Channel64) (q : Nat) (ins : List (BitVec 23 × Bool × List Byte)), k = s.chan c → k.mode = 1 →
    k.state = 1 → q = k.blocksDone → q < k.blocks →
    (s.rack.flawed = [] → s.inputsOf c q = none → exec (.addBlock c) s = .next s) ∧
    (s.rack.flawed = [] → s.inputsOf c q = some ins → (∀ x ∈ ins, inputGood (k.expOf q) x.2.2 = true) →
      (k.isRoot = false → (q : Int) ≤ k.upCredit →
        ∃ t, exec (.addBlock c) s = .next t ∧ (t.chan c).blocksDone = q + 1 ∧ OnlyChannel s t c ∧
          (t.chan c).local_ = k.local_.filter (fun b => b.seq != q) ∧ t.coreMem = s.coreMem ∧ t.sectMem = s.sectMem ∧
          t.caskRaw = s.caskRaw ∧
          (creditDue q k.blocks = false → k.parent ≠ s.addr →
            Emitted s t k.parent 4 (spargePayload 1 0 k.attempt 0 k.step 0 0 (upBlock (sumHead q (k.expOf q) ins)
              ((List.range 64).map fun i => (ins.map fun x => upValue x.2.2 i).foldl (· + ·) 0)
              ((List.range 64).map fun i => (ins.map fun x => upResidue x.2.2 i).foldl (· + ·) 0 % 255))))) ∧
      (k.isRoot = false → k.upCredit < (q : Int) → exec (.addBlock c) s = .next s) ∧
      (k.isRoot = true → s.gradAt c q = none → q + 1 < k.blocks →
        ∃ t, exec (.addBlock c) s = .next t ∧ (t.chan c).blocksDone = q + 1 ∧ (t.chan c).state = 1 ∧ OnlyChannel s t c ∧
          alGet [] q (t.chan c).sums = (rootBlock (sumHead q (k.expOf q) ins)
            ((List.range 64).map fun i => (ins.map fun x => upValue x.2.2 i).foldl (· + ·) 0)).1)) ∧
    (∀ u x rest, u = s.meetErrors → u.chan c = k → u.inputsOf c q = some (x :: rest) →
      (x.1 ∈ s.lostInputs c q s.rack.flawed ∨ inputGood (k.expOf q) x.2.2 = false) →
      ∃ t, exec (.addBlock c) s = .next t ∧ (t.chan c).state = 1 ∧ (t.chan c).attempt = k.attempt + 1 ∧
        (t.chan c).lastCause = cResidue ∧ (t.chan c).lastHop = x.1 ∧ (t.chan c).local_ = [] ∧
        t.port.attnPending.getLsbD 6 = true ∧
        (∀ n, n ≠ c → (u.chan n).mode ≠ 2 ∨ (u.chan n).target ≠ c → t.chan n = u.chan n))

/-- A member that is no root takes its next down block: with good residues it keeps and forwards it, with bad ones it drops it;
one that failed is asked for again, and the third failure of one block ends the step. A child's request for a block that the
member still holds sends it again; otherwise the request is consumed alone. A report of the parent for up blocks, and of a child
for down blocks, moves the window to 2 048 blocks past the block it names. A backup block within its window whose local block is
absent is staged. At its deadline it is used in the local block's place; the first of a step is logged. -/
def Obligations.BlocksAndCredits : Prop :=
  (∀ (s : State) (c : Nat) (k : Channel64), k = s.chan c → k.mode = 1 →
     (∀ b, k.isRoot = false → k.state = 2 → s.spargeRuns c = false → k.kidsOpen k.downNext = true →
       (k.down.find? fun b => b.seq == k.downNext) = some b →
       (downGood b.data = false → k.downFails < 2 →
         ∃ t, exec (.downBlockReceive c) s = .next t ∧ t = s.modChan c fun k =>
           { k with downFails := k.downFails + 1, down := k.down.filter fun x => x.seq != k.downNext }) ∧
       (downGood b.data = false → 2 ≤ k.downFails →
         ∃ t, exec (.downBlockReceive c) s = .next t ∧ (t.chan c).state = 3 ∧ (t.chan c).lastCause = cResidue ∧
           (t.chan c).timer = false ∧ t.port.attnPending.getLsbD 6 = true ∧ (∀ n ∈ s.setsOf c, (t.pset n).behind = true)) ∧
       (downGood b.data = true → s.gradAt c k.downNext = none → k.downNext + 1 < k.blocks →
         ∃ t, exec (.downBlockReceive c) s = .next t ∧ (t.chan c).downNext = k.downNext + 1 ∧ (t.chan c).downFails = 0 ∧
           alGet [] k.downNext (t.chan c).sums = b.data ∧ (t.chan c).state = 2 ∧ OnlyChannel s t c ∧
           (k.kids = [] → creditDue k.downNext k.blocks = false → t = { s with channels := t.channels }))) ∧
     (k.isRoot = false → k.state = 2 → hasSeq k.down k.downNext = false →
       (1 ≤ k.downFails → k.parent ≠ s.addr →
         ∃ t, exec (.downBlockResendWait c) s = .next t ∧ t.channels = s.channels ∧
           Emitted s t k.parent 4 (spargePayload 0 5 k.attempt 0 k.step (w32 k.downNext) 0 []) ∧
           t = { s with out := t.out, fabric := t.fabric })) ∧
     (∀ (rq : Nat) (x : Rx) (p : Parcel) (q : Nat), s.holdsParcel rq x → x.parcel = p → p.ptype = 4 → spargeForm p = true →
       spargeDir p = 5 → spargeChan p = c → q = bits (prefixWord p 2) 23 0 →
       (∀ bs, bs = alGet [] q k.sums → bs.length = 336 → (k.kid? p.src).isSome = true → p.src ≠ s.addr →
         spargeStep p = k.step → spargeAttempt p = k.attempt → k.state = 2 → q < k.downNext →
         ∃ t, exec (.spargeResendReceive rq) s = .next t ∧
           Emitted s t p.src 4 (spargePayload 1 1 (spargeAttempt p) 0 (spargeStep p) 0 0 bs) ∧
           t = { s with out := t.out, fabric := t.fabric }) ∧
       (alGet [] q k.sums = [] → k.aged (spargeStep p) (spargeAttempt p) = false →
         ∃ t, exec (.spargeResendReceive rq) s = .next t ∧ t = s.dropRx rq))) ∧
  (∀ (s : State) (c : Nat) (k : Channel64), k = s.chan c → k.mode = 1 →
     (∀ (rq : Nat) (x : Rx) (p : Parcel) (q : Nat), s.holdsParcel rq x → x.parcel = p → p.ptype = 4 → spargeForm p = true →
       spargeDir p = 3 → spargeChan p = c → spargeStep p = k.step → spargeAttempt p = k.attempt →
       q = bits (prefixWord p 2) 23 0 → k.state ≤ 1 →
       (k.isRoot = false → k.parent = p.src →
         ∃ t, exec (.creditParcelReceive rq) s = .next t ∧ (t.chan c).upCredit = (q : Int) + 2048 ∧
           t = { s with fabric := (s.dropRx rq).fabric, channels := t.channels }) ∧
       (∀ j, (k.isRoot = true ∨ k.parent ≠ p.src) → k.kid? p.src = some j → j < k.downCredit.length →
         ∃ t, exec (.creditParcelReceive rq) s = .next t ∧ (t.chan c).downCredit.getD j 0 = (q : Int) + 2048 ∧
           t = { s with fabric := (s.dropRx rq).fabric, channels := t.channels })) ∧
     (∀ (rq : Nat) (x : Rx) (p : Parcel) (b : Block), s.holdsParcel rq x → x.parcel = p → p.ptype = 4 → spargeForm p = true →
       spargeDir p = 2 → spargeChan p = c → k.backupBy = p.src → spargeBlocks p = [b.data] → b.seq = (blockHead b.data).seq →
       spargeStep p = k.step → spargeAttempt p = k.attempt → k.state = 1 → b.seq < k.blocks → k.blocksDone ≤ b.seq →
       hasSeq k.local_ b.seq = false → hasSeq k.backup b.seq = false → (b.seq : Int) ≤ lastCredit k.blocksDone k.blocks + 2048 →
       ∃ t, exec (.backupBlockArrival rq) s = .next t ∧
         t = (s.dropRx rq).modChan c fun k => { k with backup := k.backup ++ [b] }) ∧
     (∀ q, k.state = 1 → hasSeq k.backup q = true → q ∉ k.backupDue →
       ∃ t, exec (.backupDeadline c q) s = .next t ∧
         t = ({ s with errata := t.errata } : State).modChan c (fun k => { k with
           backupDue := k.backupDue ++ [q], backupUsed := true, backups := sat32 (k.backups + 1) }) ∧
         (k.backupUsed = true → t.errata = s.errata)))

/-- The step timer and aborts: in the up phase the attempt ends, its staging is cleared and ATTEMPT is raised; in the down phase
the channel falls behind with its parameter sets. An abort of the current attempt from a neighbour ends it with the cause and
hop that the abort names; one of another attempt is counted as late. -/
def Obligations.AttemptsEnd : Prop :=
  ∀ (s : State) (c : Nat) (k : Channel64), k = s.chan c → k.mode = 1 →
    (k.timer = true → k.state = 1 →
      ∃ t, exec (.stepTimerExpiry c) s = .next t ∧ (t.chan c).state = 1 ∧ (t.chan c).attempt = k.attempt + 1 ∧
        (t.chan c).lastCause = cPartner ∧ (t.chan c).blocksDone = 0 ∧ (t.chan c).local_ = [] ∧
        (t.chan c).committed = [] ∧ t.port.attnPending.getLsbD 2 = true ∧
        (∀ n, n ≠ c → (s.chan n).mode ≠ 2 ∨ (s.chan n).target ≠ c → t.chan n = s.chan n)) ∧
    (k.timer = true → k.state = 2 →
      ∃ t, exec (.stepTimerExpiry c) s = .next t ∧ (t.chan c).state = 3 ∧ (t.chan c).timer = false ∧
        (t.chan c).attempt = k.attempt ∧ (t.chan c).lastCause = cPartner ∧ t.port.attnPending.getLsbD 2 = true ∧
        (∀ n ∈ s.setsOf c, (t.pset n).behind = true) ∧
        (∀ n, n ≠ c → (s.chan n).mode ≠ 2 ∨ (s.chan n).target ≠ c → t.chan n = s.chan n)) ∧
    (∀ (rq : Nat) (x : Rx) (p : Parcel), s.holdsParcel rq x → x.parcel = p → p.ptype = 4 → spargeForm p = true →
      spargeDir p = 4 → spargeChan p = c → ((k.isRoot = false ∧ k.parent = p.src) ∨ (k.kid? p.src).isSome = true) →
      (spargeStep p = k.step → spargeAttempt p = k.attempt → k.state ≤ 1 →
        ∃ t, exec (.abortReceive rq) s = .next t ∧ (t.chan c).state = 1 ∧ (t.chan c).attempt = k.attempt + 1 ∧
          (t.chan c).lastCause.toNat = bits (prefixWord p 0) 27 16 ∧
          (t.chan c).lastHop.toNat = bits (prefixWord p 3) 22 0 ∧ (t.chan c).local_ = []) ∧
      (spargeStep p ≠ k.step ∨ spargeAttempt p ≠ k.attempt →
        ∃ t, exec (.abortReceive rq) s = .next t ∧
          t = (s.dropRx rq).modChan c fun k => { k with late := sat32 (k.late + 1) }))

/-- INIT_SET of a valid set whose slot holds a plan: the set counts no updates and is neither behind nor damaged. PUBLISH of a
slot that is ready and in no running cycle: counted, the slot ready no longer, and without new leaves and for one step its key
chained. While a grist cycle of the slot runs nothing is published (log 76). Sets that still have no leaves at their time limit
raise degraded attention. -/
def Obligations.SetsAndPublishes : Prop :=
  ∀ s : State,
    (∀ (q tag : Nat) (c : Started) (n : Nat) (e : List W32), s.commandAt q tag 0x22 c → n = bits (c.arg 1) 9 0 →
      e = (s.pset n).entry →
      ((wd e 0).getLsbD 0 = false →
        ∃ t, exec (.initSet q tag) s = .next t ∧ Answered s t q tag (s.queue q) [] cAlign 0 0 ∧ t.malt = s.malt) ∧
      ((wd e 0).getLsbD 0 = true → (s.slot (bits (wd e 0) 8 3)).plan = none →
        ∃ t, exec (.initSet q tag) s = .next t ∧ Answered s t q tag (s.queue q) [] cRole 0 0 ∧ t.malt = s.malt) ∧
      ((wd e 0).getLsbD 0 = true → (s.slot (bits (wd e 0) 8 3)).plan ≠ none →
        ∃ t, exec (.initSet q tag) s = .next t ∧ Answered s t q tag (s.queue q) [] cDone 0 0 ∧
          t.pset n = { entry := e, t := 0, behind := false, damaged := false } ∧
          (∀ m, m ≠ n → t.pset m = s.pset m) ∧ t.coreMem = s.coreMem ∧ t.sectMem = s.sectMem ∧ t.caskRaw = s.caskRaw ∧
          t.streams = s.streams)) ∧
    (∀ slot : Nat, (∃ e ∈ s.malt.ready, e.1 = slot) →
      (s.slotRuns slot = true → exec (.publish slot) s = .next s) ∧
      (s.slotRuns slot = false → (∀ n ∈ s.malt.waitingSets, bits (wd (s.pset n).entry 0) 8 3 ≠ slot) →
        ∃ t, exec (.publish slot) s = .next t ∧ t.malt.publishes = sat32 (s.malt.publishes + 1) ∧
          t.malt.ready = s.malt.ready.filter (fun e => e.1 != slot) ∧ t.malt.lastPublish = s.now.extractLsb' 0 32 ∧
          t.channels = s.channels ∧
          (∀ c b, s.fresh slot = [] → s.malt.ready.filter (fun e => e.1 == slot) = [(slot, c, b)] → slot < s.slots.length →
            (t.slot slot).key = chainKey (s.slot slot).key (s.chan c).step ∧ t.rack = s.rack))) ∧
    (∃ t, exec .updateLeafWaitTimeout s = .next t ∧ (s.malt.waitingSets = [] → t = s) ∧
      (t.malt.waitingSets ≠ [] → s.malt.waitingSets ≠ [] ∧ t.port.attnPending.getLsbD 2 = true))

/-- The owner's side of a mirror: a counted leaf that has been sent is counted no longer; an acknowledgement that answers the
mirror sets LAST_ACK, no further than the stream's last whole sixty-four positions, and ends it; a refusal, or no answer, ends
it with LAST_ACK as it was. The buddy's side: the first parcel of a mirror of a slot that a partition here owns begins it, a
leaf's piece at its offset or the manifest; a mirror that still waits at its time limit is refused; a release drops the
manifest, and that of what is coming once it has come (log 85); a sweep leaves in the map only what a manifest reaches. A roll
call asks every owner whose manifest is held, and is answered with START_ID. The first answer of an owner is recorded; the same
START_ID again takes it off the unreachable list; another one, or no answer, declares the owner lost, with degraded attention,
and lists it as unreachable. -/
def Obligations.Mirrors : Prop :=
  (∀ (s : State) (i : Nat) (e : Stream), e = s.stream i →
     (∀ (pos : Nat) (b : BitVec 20) (h : Handle), e.mirrorOut = some pos → s.buddyOf e.slot = some b → h ∈ e.mirrorLeaves →
       ∃ t, exec (.mirrorLeafSent i h) s = .next t ∧ t.stream i = { e with mirrorLeaves := e.mirrorLeaves.erase h } ∧
         (∀ n, n ≠ i → t.stream n = s.stream n)) ∧
     (∀ (rq : Nat) (x : Rx) (p : Parcel), s.holdsParcel rq x → x.parcel = p → p.ptype = 6 → 32 ≤ p.payload.length →
       mirrorStream p = i →
       (bits (mirrorWord p 0) 3 0 = 2 → s.answers p = true →
         ∃ t, exec (.mirrorAckReceive rq) s = .next t ∧
           t = (s.dropRx rq).modStream i fun e => { e with
             lastAck := min (mirrorPos p) (e.position / 64 * 64), mirrorOut := none, mirrorEntry := [] }) ∧
       (bits (mirrorWord p 0) 3 0 = 2 → s.answers p = false →
         ∃ t, exec (.mirrorAckReceive rq) s = .next t ∧ t = s.dropRx rq) ∧
       (bits (mirrorWord p 0) 3 0 = 3 → e.mirrorOut = some (mirrorPos p) → s.buddyOf e.slot = some p.src →
         ∃ t, exec (.mirrorRefusalReceive rq) s = .next t ∧
           t.stream i = { e with mirrorOut := none, mirrorLeaves := [], mirrorEntry := [] } ∧
           (∀ n, n ≠ i → t.stream n = s.stream n))) ∧
     (e.mirrorOut ≠ none → e.mirrorLeaves = [] →
       ∃ t, exec (.mirrorAckTimeout i) s = .next t ∧ t.stream i = { e with mirrorOut := none, mirrorEntry := [] } ∧
         (∀ n, n ≠ i → t.stream n = s.stream n) ∧ t = { s with streams := t.streams, errata := t.errata })) ∧
  (∀ s : State,
     (∀ (rq : Nat) (x : Rx) (p : Parcel) (part : Nat), s.holdsParcel rq x → x.parcel = p → p.ptype = 6 →
       32 ≤ p.payload.length →
       (bits (mirrorWord p 0) 3 0 = 1 → (∀ m ∈ s.buddy.incoming, m.isOf p.src (mirrorStream p) = false) →
         s.slotPart (mirrorSlot p) = some part →
         ∃ t, exec (.mirrorParcelReceive rq) s = .next t ∧
           t = (s.dropRx rq).modBuddy fun b => { b with incoming := b.incoming ++ [
             { owner := p.src, stream := mirrorStream p, slot := mirrorSlot p, pos := mirrorPos p, manifest := none, released := false,
               leaves := [({ owner := mirrorWord p 2, format := bits (mirrorWord p 3) 19 17,
                             data := Bytes.empty (formOf (bits (mirrorWord p 3) 19 17)), got := [], own := none } : InLeaf).put
                 (bits (mirrorWord p 3) 16 0) (p.payload.drop 32)] }] }) ∧
       (bits (mirrorWord p 0) 3 0 = 0 → (∀ m ∈ s.buddy.incoming, m.isOf p.src (mirrorStream p) = false) →
         s.slotPart (mirrorSlot p) = some part →
         ∃ t, exec (.mirrorParcelReceive rq) s = .next t ∧
           t = (s.dropRx rq).modBuddy fun b => { b with incoming := b.incoming ++ [
             { owner := p.src, stream := mirrorStream p, slot := mirrorSlot p, pos := mirrorPos p, leaves := [],
               released := false, manifest := some (bytesWords 16 (p.payload.drop 32)) }] }) ∧
       (bits (mirrorWord p 0) 3 0 = 6 →
         ∃ t, exec (.mirrorReleaseReceive rq) s = .next t ∧
           (∀ m ∈ t.buddy.manifests, ¬ (m.owner = p.src ∧ m.stream = mirrorStream p)) ∧
           t.buddy.incoming = s.buddy.incoming.map (fun m =>
             if m.isOf p.src (mirrorStream p) then { m with released := true } else m) ∧ t.buddy.map = s.buddy.map ∧
           t.streams = s.streams)) ∧
     (∀ owner stream : Nat,
       ∃ t, exec (.mirrorAdmissionTimeout owner stream) s = .next t ∧
         (∀ m ∈ t.buddy.incoming, m.isOf (BitVec.ofNat 20 owner) stream = true →
           (m.leaves.any fun l => l.whole && l.own.isNone) = false ∧ (m.manifest.map m.complete).getD false = false)) ∧
     (∃ t, exec .mirrorMapSweep s = .next t ∧ t.buddy.manifests = s.buddy.manifests ∧
       (∀ e, e ∈ t.buddy.map ↔ e ∈ s.buddy.map ∧
         ∃ m ∈ s.buddy.manifests, e.1.1 = m.owner ∧ ∃ h ∈ s.reached m, e.1.2 = w32 h) ∧ t.streams = s.streams)) ∧
  (∀ s : State,
     (∃ t, exec .rollCall s = .next t ∧ t.buddy = s.buddy ∧ t = { s with out := t.out, fabric := t.fabric } ∧
       (∀ a ∈ s.owners, a ≠ s.addr → alGet 0 a.toNat t.fabric.alive = alGet 0 a.toNat s.fabric.alive + 1)) ∧
     (∀ (rq : Nat) (x : Rx) (p : Parcel), s.holdsParcel rq x → x.parcel = p → p.ptype = 6 → 32 ≤ p.payload.length →
       (bits (mirrorWord p 0) 3 0 = 4 → p.src ≠ s.addr →
         ∃ t, exec (.rollCallReceive rq) s = .next t ∧
           Emitted s t p.src 6 (mirrorParcel p.src 5 0 0 0 0 0 0 s.ident.startId []).payload ∧
           t = { s with out := t.out, fabric := t.fabric }) ∧
       (bits (mirrorWord p 0) 3 0 = 5 → p.src ∈ s.owners →
         (∀ e ∈ s.buddy.startIds, e.1 ≠ p.src) →
         ∃ t, exec (.rollAnswerReceive rq) s = .next t ∧
           t = (s.dropRx rq).modBuddy fun b => { b with startIds := b.startIds ++ [(p.src, mirrorStart p)] }) ∧
       (∀ id, bits (mirrorWord p 0) 3 0 = 5 → p.src ∈ s.owners →
         (s.buddy.startIds.find? fun e => e.1 == p.src) = some (p.src, id) →
         (id = mirrorStart p → ∃ t, exec (.rollAnswerReceive rq) s = .next t ∧
           t = (s.dropRx rq).modFabric fun f => { f with unreachable := f.unreachable.filter (· != p.src) }) ∧
         (id ≠ mirrorStart p → ∃ t, exec (.rollAnswerReceive rq) s = .next t ∧ p.src ∈ t.fabric.unreachable ∧
           t.ownerStart p.src = mirrorStart p ∧ t.buddy.manifests = s.buddy.manifests ∧ t.port.attnPending.getLsbD 2 = true))) ∧
     (∀ owner : Nat, (BitVec.ofNat 20 owner) ∈ s.owners →
       ∃ t, exec (.ownerLost owner) s = .next t ∧ (BitVec.ofNat 20 owner) ∈ t.fabric.unreachable ∧
         t.buddy = s.buddy ∧ t.port.attnPending.getLsbD 2 = true))

/-- A physical core that fails in a section whose spare is free: the spare takes its logical number, its bit joins the section's
and the core record's, degraded attention. Without a spare the section keeps its other cores in ascending order. While a command
holds its flip in the section the remap waits. A slice of a killed command that does not report its end is such a failure of the
physical core under its logical core. -/
def Obligations.CoreFailures : Prop :=
  ∀ (s : State) (sec phys l : Nat) (i : Instr), s.shaped = true → s.coresRun = true → sec < 4 → phys < 17 →
    s.coreOut sec phys = false → (s.sect sec).failing = [] → (s.sect sec).spare ≠ some phys →
    ((s.sect sec).map.findIdx? (· == phys)) = some l →
    (i = .coreFailure sec phys ∨ ∃ id core c, i = .sliceReportTimeout id core ∧ s.cmd? id = some c ∧ c.phase = .placed ∧
      c.rerun = true ∧ core ∈ c.cores ∧ core / 16 = sec ∧ (s.sect sec).map[core % 16]? = some phys) →
    ∃ t, exec i s = .next t ∧ (t.sect sec).failed = (s.sect sec).failed ||| coreBit phys ∧
      (s.heldIn sec = false → (t.sect sec).spare = none ∧ (t.sect sec).failing = [] ∧
        (∀ p, (s.sect sec).spare = some p → (t.sect sec).map = (s.sect sec).map.set l p) ∧
        ((s.sect sec).spare = none → (t.sect sec).map = ascending ((s.sect sec).map.filter (· != phys))) ∧
        t.port.attnPending.getLsbD 2 = true) ∧
      (s.heldIn sec = true → (t.sect sec).failing = [phys] ∧ (t.sect sec).map = (s.sect sec).map ∧
        (t.sect sec).spare = (s.sect sec).spare) ∧
      (s.nor.coreRecord.length = 4 → t.nor.coreRecord.getD sec 0 = s.nor.coreRecord.getD sec 0 ||| coreBit phys) ∧
      (∀ n, n ≠ sec → t.sect n = s.sect n)

/-- CLOSE_SESSION, READ_TABLE, READ_TELEMETRY, READ_ERRATA, ATTEST, READ_SPARES, CORE_SERVICE, SELF_TEST, LANE_SERVICE and
PORT_SERVICE, once started, with their buffers moving and their pair taking completions, complete, whatever else the state is:
the read commands answer DONE behind their data, a session is closed, a core, a lane, the failed cores of a test or a memory
port is out of service. A maker session, a challenge and a lockout expire. A parcel at a port that has found its partner is
counted as checked; credit granted lets waiting parcels go; a parcel of the receive area is there no longer once it has expired,
or once the row of its type has acted on it: a resend request, a query, its reply, its data. -/
def Obligations.RowsComplete : Prop :=
  ∀ s : State, s.shaped = true →
    (∀ (q tag : Nat) (c : Started), q < 16 →
      (s.commandAt q tag 0x02 c → ∃ t, exec (.closeSession q tag) s = .next t ∧ t.started? q tag = none ∧ (t.queue q).role = 0) ∧
      (s.commandAt q tag 0x20 c → ∃ t bs, exec (.readTable q tag) s = .next t ∧
        Answered s t q tag (s.queue q) [.host c.bufAddr bs] cDone (c.arg 3) 0) ∧
      (s.commandAt q tag 0x43 c → ∃ t bs, exec (.readTelemetry q tag) s = .next t ∧
        Answered s t q tag (s.queue q) [.host c.bufAddr bs] cDone 0 0 ∧ bs.length = 64) ∧
      (s.commandAt q tag 0x54 c → ∃ t bs n, exec (.readErrata q tag) s = .next t ∧
        Answered s t q tag (s.queue q) [.host c.bufAddr bs] cDone (w32 n) (w32 s.errataOldest) ∧ n ≤ (c.arg 3).toNat) ∧
      (s.commandAt q tag 0x58 c → ∃ t bs, exec (.attest q tag) s = .next t ∧
        Answered s t q tag (s.queue q) [.host c.bufAddr bs] cDone 0 0 ∧
        bs.take 8 = leBytes 4 (c.arg 1).toNat ++ leBytes 4 (c.arg 2).toNat) ∧
      (s.commandAt q tag 0x64 c → ∃ t bs, exec (.readSpares q tag) s = .next t ∧
        Answered s t q tag (s.queue q) [.host c.bufAddr bs] cDone 0 0 ∧ bs.length = 128) ∧
      (s.commandAt q tag 0x60 c → s.heldIn (bits (c.arg 1) 1 0) = false → bits (c.arg 1) 6 2 ≤ 16 →
        ∃ t, exec (.coreService q tag) s = .next t ∧ t.started? q tag = none ∧
          (t.sect (bits (c.arg 1) 1 0)).excluded = (s.sect (bits (c.arg 1) 1 0)).excluded ||| coreBit (bits (c.arg 1) 6 2)) ∧
      (∀ failed, s.commandAt q tag 0x61 c → s.heldIn (bits (c.arg 1) 1 0) = false →
        ∃ t, exec (.selfTest q tag failed) s = .next t ∧ t.started? q tag = none ∧
          (t.sect (bits (c.arg 1) 1 0)).excluded = (s.sect (bits (c.arg 1) 1 0)).excluded ||| failed) ∧
      (∀ net, s.commandAt q tag 0x62 c → bits (c.arg 1) 6 4 ≤ 4 →
        ∃ t, exec (.laneService q tag net) s = .next t ∧ t.started? q tag = none ∧
          (t.fport (bits (c.arg 1) 3 0)).excluded =
            (s.fport (bits (c.arg 1) 3 0)).excluded ||| BitVec.ofNat 5 (1 <<< bits (c.arg 1) 6 4)) ∧
      (s.commandAt q tag 0x63 c → ∃ t, exec (.portService q tag) s = .next t ∧
        ((t.memPort (bits (c.arg 1) 3 0)).state ≠ 2 ∨ (s.power.config = 3 ∧ t.started? q tag = none)))) ∧
    (∀ q, q < 16 →
      ((s.queue q).role = 3 → ∃ t, exec (.makerSessionExpiry q) s = .next t ∧ (t.queue q).role = 0) ∧
      (∃ t, exec (.challengeExpiry q) s = .next t ∧ (t.queue q).challenge = none)) ∧
    (∃ t, exec .sessionLockoutExpiry s = .next t ∧ t.ident.lockout = false) ∧
    (∀ (p : Nat) (x : Parcel) (crc : W32), s.partnered p = true →
      ∃ t, exec (.parcelArrival p x crc) s = .next t ∧ (t.fport p).cvu.checked = sat32 ((s.fport p).cvu.checked + 1)) ∧
    (∀ p units, s.isNative p = true → (s.fport p).state ≠ 0 →
      ∃ (t : State) (sent : List Waiting), exec (.linkCreditGrant p units) s = .next t ∧ (∀ b, ((s.fport p).txQueue.filter fun w => w.parcel.second == b) =
          (sent.filter fun w => w.parcel.second == b) ++ (t.fport p).txQueue.filter fun w => w.parcel.second == b) ∧
        t.out = s.out ++ (sent.flatMap fun w => .parcel p w.parcel (parcelCrc w.parcel) :: s.grants w.came w.parcel) ∧
        (t.fport p).credits + (sent.map fun w => creditUnits w.parcel).sum = (s.fport p).credits + units) ∧
    (∀ a : Nat, (BitVec.ofNat 20 a) ∈ s.fabric.unreachable → BitVec.ofNat 20 a ≠ s.addr →
      ∃ t, exec (.unreachableQuery a) s = .next t ∧
        alGet 0 (BitVec.ofNat 20 a).toNat t.fabric.alive = alGet 0 (BitVec.ofNat 20 a).toNat s.fabric.alive + 1) ∧
    (∀ rq x, s.rx? rq = some x → x.takenBy = none → ∃ t, exec (.parcelExpiry rq) s = .next t ∧ t.rx? rq = none) ∧
    (∀ (rq : Nat) (x : Rx), s.holdsParcel rq x → x.parcel.src ≠ s.addr →
      ∀ e ∈ [(5, Instr.resendRequestReceive rq), (7, .queryReceive rq), (8, .queryReplyReceive rq), (9, .queryDataReceive rq)],
        x.parcel.ptype.toNat = e.1 → ∃ t, exec e.2 s = .next t ∧ t.rx? rq = none)

/-- FP32 words: every word that is no NaN, subnormals and zeros of both signs among them, is its own rounding; every NaN is
written as the canonical quiet NaN; a sum does not depend on the order of its two terms; the sum of +0 and −0 is +0, that of −0
and −0 is −0. -/
def Obligations.NumbersKeep : Prop :=
  (∀ w : W32, isNan (ofW32 w) = false → toW32 (rne32 (ofW32 w)) = w) ∧
  (∀ w : W32, isNan (ofW32 w) = true → toW32 (rne32 (ofW32 w)) = 0x7FC00000) ∧
  (∀ a b : W32, toW32 (rne32 (fadd (ofW32 a) (ofW32 b))) = toW32 (rne32 (fadd (ofW32 b) (ofW32 a)))) ∧
  (∀ w : W32, isNan (ofW32 w) = false → (w ≠ 0x80000000 → toW32 (rne32 (fadd (ofW32 w) (ofW32 0))) = w) ∧
    toW32 (rne32 (fadd (ofW32 w) (ofW32 0x80000000))) = w)
end

