-- ==== Sys2Proof/Laws/Answer.lean ====
section
/-! SUPPORT. What the end of a started command does. -/

namespace Sys2Proof.Machine

@[simp] theorem modAt_length {α : Type} (l : List α) (i : Nat) (f : α → α) : (modAt l i f).length = l.length := by
  induction l generalizing i with
  | nil => rfl
  | cons a t ih => cases i <;> simp [modAt, ih]

theorem modAt_getElem? {α : Type} (l : List α) (i j : Nat) (f : α → α) :
    (modAt l i f)[j]? = if j = i then l[j]?.map f else l[j]? := by
  induction l generalizing i j with
  | nil => simp [modAt]
  | cons a t ih => cases i <;> cases j <;> simp [modAt, ih]

/-- A pair changed reads as changed, any other as before. -/
theorem queue_modQueue (s : State) (q p : Nat) (f : Queue → Queue) (h : q < s.port.queues.length) :
    (s.modQueue q f).queue p = if p = q then f (s.queue p) else s.queue p := by
  unfold State.modQueue Port.modQueue State.queue
  simp only [List.getD_eq_getElem?_getD, modAt_getElem?]
  by_cases hp : p = q
  · subst hp; simp [h]
  · simp [hp]

/-- Arming buffers changes the started commands and the engines alone. -/
theorem armBuffer_frame (p : Port) (t : Started) : ∃ st en, armBuffer p t = { p with started := st, engines := en } := by
  unfold armBuffer; (repeat' split) <;> exact ⟨_, _, rfl⟩

theorem armBuffers_frame (p : Port) : ∃ st en, p.armBuffers = { p with started := st, engines := en } := by
  unfold Port.armBuffers
  have h (l : List Started) (u : Port) : ∃ st en, l.foldl armBuffer u = { u with started := st, engines := en } := by
    induction l generalizing u with
    | nil => exact ⟨_, _, rfl⟩
    | cons a l ih =>
      obtain ⟨st, en, h⟩ := armBuffer_frame u a
      obtain ⟨st', en', h'⟩ := ih (armBuffer u a)
      exact ⟨st', en', by rw [List.foldl_cons, h', h]⟩
  exact h _ _

/-- Arming a buffer changes only the channel of a started command. -/
theorem armBuffer_find (p : Port) (t : Started) (q tag : Nat) :
    ((armBuffer p t).started.find? fun u => u.q == q && u.tag == tag).isSome =
      (p.started.find? fun u => u.q == q && u.tag == tag).isSome := by
  unfold armBuffer
  split
  · rfl
  · split
    · rfl
    · simp only [List.find?_map, Option.isSome_map]
      congr 2
      funext u
      simp only [Function.comp]
      split <;> rfl

theorem armBuffers_find (p : Port) (q tag : Nat) :
    (p.armBuffers.started.find? fun u => u.q == q && u.tag == tag).isSome =
      (p.started.find? fun u => u.q == q && u.tag == tag).isSome := by
  unfold Port.armBuffers
  have h (l : List Started) (u : Port) : ((l.foldl armBuffer u).started.find? fun u => u.q == q && u.tag == tag).isSome =
      (u.started.find? fun u => u.q == q && u.tag == tag).isSome := by
    induction l generalizing u with
    | nil => rfl
    | cons a l ih => rw [List.foldl_cons, ih, armBuffer_find]
  exact h _ _

/-- Writing the completion of a pair that takes it. -/
theorem complete_takes (s : State) (q tag : Nat) (code : Code) (r0 r1 : W32) (h : s.takesEntry q = true) :
    s.complete q tag code r0 r1 = s.writeEntry q ⟨code, tag, r0, r1⟩ := by
  simp only [State.takesEntry, Bool.and_eq_true, decide_eq_true_eq] at h
  simp [State.complete, h.1.1.2, h.1.2, h.2]

theorem leave_frame (p : Port) (q tag : Nat) (c : Option Nat) :
    ∃ en, p.leave q tag c = { p with started := p.started.filter (fun u => !(u.q == q && u.tag == tag)), engines := en } :=
  ⟨_, rfl⟩

/-- The end of a started command whose pair takes its completion, in full. -/
theorem finish_eq (s : State) (q tag : Nat) (c : Started) (code : Code) (r0 r1 : W32)
    (hc : s.started? q tag = some c) (hd : c.discard = false) (h : s.takesEntry q = true) :
    ∃ st en, (st.find? fun u => u.q == q && u.tag == tag) = none ∧
      s.finish q tag code r0 r1 = { s with
        out := s.out ++ [entryOut (s.queue q) s.port.attnPending code tag r0 r1]
        port := { s.port with queues := modAt s.port.queues q Queue.advance, started := st, engines := en } } := by
  have hk := h
  simp only [State.takesEntry, Bool.and_eq_true, decide_eq_true_eq] at hk
  obtain ⟨⟨⟨⟨hq, hs⟩, hh⟩, hf⟩, hb⟩ := hk
  obtain ⟨en, hl⟩ := leave_frame s.port q tag c.chan
  obtain ⟨st, en', ha⟩ := armBuffers_frame (s.port.leave q tag c.chan)
  have hg := armBuffers_find (s.port.leave q tag c.chan) q tag
  have hn : ((s.port.leave q tag c.chan).started.find? fun u => u.q == q && u.tag == tag) = none := by
    rw [hl]
    simp only [List.find?_eq_none, List.mem_filter]
    intro x hx
    have := hx.2
    cases h : (x.q == q && x.tag == tag) <;> simp_all
  rw [hn, ha] at hg
  refine ⟨st, en', by simpa using hg, ?_⟩
  rw [hl] at ha
  have hu : State.takesEntry { s with port := { s.port with started := st, engines := en' } } q = true := h
  unfold State.finish
  simp only [hc, hd, hl, ha, Bool.false_eq_true, if_false]
  rw [complete_takes _ _ _ _ _ _ hu]
  unfold State.settleDrain
  simp only []
  rw [if_neg]
  · rfl
  · rw [State.writeEntry, queue_modQueue _ _ _ _ (by exact hq), if_pos rfl]
    intro hx
    rw [Bool.and_eq_true, decide_eq_true_eq] at hx
    have h3 : (s.queue q).advance.qstate = 3 := hx.1
    simp only [Queue.advance] at h3
    omega

/-- The end of a started command whose pair takes its completion. -/
theorem finish_takes (s : State) (q tag : Nat) (c : Started) (code : Code) (r0 r1 : W32)
    (hc : s.started? q tag = some c) (hd : c.discard = false) (h : s.takesEntry q = true) :
    Answered s (s.finish q tag code r0 r1) q tag (s.queue q) [] code r0 r1 ∧
      s.finish q tag code r0 r1 =
        { s with out := (s.finish q tag code r0 r1).out, port := s.portOf (s.finish q tag code r0 r1) } := by
  obtain ⟨st, en, hn, e⟩ := finish_eq s q tag c code r0 r1 hc hd h
  have hq : q < s.port.queues.length := by
    simp only [State.takesEntry, Bool.and_eq_true, decide_eq_true_eq] at h; exact h.1.1.1.1
  have hm (p : Nat) := queue_modQueue s q p Queue.advance hq
  rw [e]
  refine ⟨⟨hn, by simp, ?_, fun p hp => ?_⟩, rfl⟩
  · exact (hm q).trans (if_pos rfl)
  · exact (hm p).trans (if_neg hp)

/-- The row of a command whose occasion is there acts. -/
theorem onStarted_commandAt {s : State} {q tag opc : Nat} {c : Started} (h : s.commandAt q tag opc c) (ok : Started → Bool)
    (f : Started → State) (hok : ok c = true) : s.onStarted q tag opc ok f = f c := by
  obtain ⟨h1, h2, h3, -, h5, h6, -⟩ := h
  simp [State.onStarted, h1, h2, h3, h5, h6, hok]

end Sys2Proof.Machine
end

