-- ==== Sys2Proof/Laws/Base.lean ====
section
/-! SUPPORT. What most operations leave alone: the queue of commands, the NOR flash and the addressed memories. One lemma for
each operation that leaves them alone, in the order of the definitions. -/

set_option maxRecDepth 4000
namespace Sys2Proof.Machine

/-- What few operations touch: the queue of commands, the NOR flash and the addressed memories. -/
def State.base (s : State) : List Instr × Nor × Bytes × Bytes × Bytes × Bytes :=
  (s.pending, s.nor, s.coreMem, s.sectMem, s.caskRaw, s.malt.lpddr)

@[simp] theorem base_mk (s : State) (o d po id er se co ca cl il me ra ce st sl re pa cm nc lo fa ch bu pw ti bo) :
    (State.mk s.pending o d po s.nor id er se co ca s.coreMem cl s.sectMem il s.caskRaw me ra ce st sl re pa cm nc lo fa ch s.malt bu
      pw ti bo).base = s.base := rfl

@[simp] theorem base_mk_malt (s : State) (o d po id er se co ca cl il me ra ce st sl re pa cm nc lo fa ch ma bu pw ti bo)
    (h : ma.lpddr = s.malt.lpddr) :
    (State.mk s.pending o d po s.nor id er se co ca s.coreMem cl s.sectMem il s.caskRaw me ra ce st sl re pa cm nc lo fa ch ma bu
      pw ti bo).base = s.base := by simp [State.base, h]

@[simp] theorem base_ite (c : Prop) [Decidable c] (a b : State) : (if c then a else b).base = if c then a.base else b.base := by
  split <;> rfl

@[simp] theorem base_foldl {α : Type} (g : State → α → State) (h : ∀ s x, (g s x).base = s.base) (l : List α) (s : State) :
    (l.foldl g s).base = s.base := by
  induction l generalizing s with
  | nil => rfl
  | cons a t ih => simp [ih, h]

theorem base_foldl' {α : Type} (g : State → α → State) (l : List α) (s : State) (h : ∀ s x, (g s x).base = s.base) :
    (l.foldl g s).base = s.base := base_foldl g h l s

theorem base_foldlP {α : Type} (g : Prep → α → Prep) (l : List α) (p : Prep) (h : ∀ p x, (g p x).s.base = p.s.base) :
    (l.foldl g p).s.base = p.s.base := by
  induction l generalizing p with
  | nil => rfl
  | cons a t ih => simp [ih, h]

@[simp] theorem State_attention_base (a0 : State) (a1 : Nat) (a2 : Code) (a3 : W32) (a4 : W32) :
    (State.attention a0 a1 a2 a3 a4).base = a0.base := by
  unfold State.attention
  simp

@[simp] theorem State_log_base (a0 : State) (a1 : Code) (a2 : W32) (a3 : W32) :
    (State.log a0 a1 a2 a3).base = a0.base := by
  unfold State.log
  simp

@[simp] theorem State_modFabric_base (a0 : State) (a1 : Fabric → Fabric) :
    (State.modFabric a0 a1).base = a0.base := by
  unfold State.modFabric
  simp

@[simp] theorem State_modFPort_base (a0 : State) (a1 : Nat) (a2 : FPort → FPort) :
    (State.modFPort a0 a1 a2).base = a0.base := by
  unfold State.modFPort
  simp

@[simp] theorem State_senseLanes_base (a0 : State) (a1 : Nat) (a2 : List LaneFault) :
    (State.senseLanes a0 a1 a2).base = a0.base := by
  unfold State.senseLanes
  try simp only []
  (repeat' split) <;> first | rfl | (simp; done) | (refine (base_foldl' _ _ _ ?_).trans ?_ <;> first | (simp; done) | (intro s x; (repeat' split) <;> (simp; done)))

@[simp] theorem State_idlePorts_base (a0 : State) :
    (State.idlePorts a0).base = a0.base := by
  unfold State.idlePorts
  simp

@[simp] theorem State_modRack_base (a0 : State) (a1 : Rack → Rack) :
    (State.modRack a0 a1).base = a0.base := by
  unfold State.modRack
  simp

@[simp] theorem State_setFrame_base (a0 : State) (a1 : Nat) (a2 : Bytes) :
    (State.setFrame a0 a1 a2).base = a0.base := by
  unfold State.setFrame
  simp

@[simp] theorem State_setLeaf_base (a0 : State) (a1 : Handle) (a2 : Leaf) :
    (State.setLeaf a0 a1 a2).base = a0.base := by
  unfold State.setLeaf
  simp

@[simp] theorem State_newLeaf_base (a0 : State) (a1 : Nat) (a2 : Nat) (a3 : Nat) :
    (State.newLeaf a0 a1 a2 a3).2.base = a0.base := by
  unfold State.newLeaf
  simp

@[simp] theorem State_modLeaf_base (a0 : State) (a1 : Handle) (a2 : Leaf → Leaf) :
    (State.modLeaf a0 a1 a2).base = a0.base := by
  unfold State.modLeaf
  simp

@[simp] theorem State_patchCask_base (a0 : State) (a1 : Handle) (a2 : Bytes → Bytes) :
    (State.patchCask a0 a1 a2).base = a0.base := by
  unfold State.patchCask
  simp

@[simp] theorem State_dress_base (a0 : State) (a1 : Handle) (a2 : Nat) :
    (State.dress a0 a1 a2).base = a0.base := by
  unfold State.dress
  simp

theorem State_byAge_base (a0 : State) (a1 : List (Handle × Leaf)) :
    ∀ r, State.byAge a0 a1 = some r → r.2.base = a0.base := by
  unfold State.byAge
  try simp only []
  (repeat' split) <;> first | rfl | (simp; done) | (refine (base_foldl' _ _ _ ?_).trans ?_ <;> first | (simp; done) | (intro s x; (repeat' split) <;> (simp; done)))

@[simp] theorem State_dropFrame_base (a0 : State) (a1 : Nat) :
    (State.dropFrame a0 a1).base = a0.base := by
  unfold State.dropFrame
  simp

theorem State_evictClean_base (a0 : State) (a1 : Nat) (a2 : Option Nat) :
    ∀ r, State.evictClean a0 a1 a2 = some r → r.2.base = a0.base := by
  intro r h; unfold State.evictClean at h; simp only [] at h
  split at h
  · simp at h
  · rename_i hb; have := State_byAge_base _ _ _ hb; simp at h; subst h; simpa using this

theorem State_demandFrame_base (a0 : State) (a1 : Nat) :
    ∀ r, State.demandFrame a0 a1 = some r → r.2.base = a0.base := by
  intro r h; unfold State.demandFrame at h
  split at h
  · simp at h; subst h; rfl
  · exact State_evictClean_base _ _ _ _ h

@[simp] theorem State_ensureCask_base (a0 : State) (a1 : Handle) : (State.ensureCask a0 a1).base = a0.base := by
  unfold State.ensureCask; simp only []
  split
  · rfl
  · split
    · rename_i hb; have := State_demandFrame_base _ _ _ hb; simpa using this
    · simp

@[simp] theorem State_dropSs_base (a0 : State) (a1 : Handle) :
    (State.dropSs a0 a1).base = a0.base := by
  unfold State.dropSs
  simp

@[simp] theorem State_dirtyLeaf_base (a0 : State) (a1 : Handle) :
    (State.dirtyLeaf a0 a1).base = a0.base := by
  unfold State.dirtyLeaf
  simp

@[simp] theorem State_setQuire_base (a0 : State) (a1 : Handle) (a2 : List Handle) :
    (State.setQuire a0 a1 a2).base = a0.base := by
  unfold State.setQuire
  simp

theorem State_takeSingle_base (a0 : State) (a1 : Nat) (a2 : Nat) :
    ∀ r, State.takeSingle a0 a1 a2 = some r → r.2.base = a0.base := by
  intro r h; unfold State.takeSingle at h
  split at h
  · simp at h; subst h; simp
  · split at h
    · simp at h; subst h; simp
    · split at h
      · rename_i hb; have := State_evictClean_base _ _ _ _ hb; simp at h; subst h; simpa using this
      · simp at h

@[simp] theorem State_modMalt_base (s : State) (f : Malt → Malt) (h : ∀ m, (f m).lpddr = m.lpddr) :
    (s.modMalt f).base = s.base := by simp [State.modMalt, State.base, h]

theorem State_freshLeaf_base (a0 : State) (a1 : Nat) (a2 : Nat) :
    ∀ r, State.freshLeaf a0 a1 a2 = some r → r.base = a0.base := by
  intro r h; unfold State.freshLeaf at h
  split at h
  · simp at h; subst h; rfl
  · split at h
    · simp only [] at h
      split at h
      · rename_i hb; have := State_takeSingle_base _ _ _ _ hb; simp at h; subst h; simpa using this
      · simp at h
    · simp at h

@[simp] theorem State_freshLeaves_base (a0 : Nat) (a1 : List Nat) (a2 : State) :
    (State.freshLeaves a0 a1 a2).2.base = a2.base := by
  induction a1 generalizing a2 with
  | nil => rfl
  | cons i t ih =>
    unfold State.freshLeaves
    split
    · rename_i hb; have := State_freshLeaf_base _ _ _ _ hb; simp [ih, this]
    · rfl

@[simp] theorem State_startMove_base (a0 : State) (a1 : Move) :
    (State.startMove a0 a1).base = a0.base := by
  unfold State.startMove
  simp

@[simp] theorem State_giveFrame_base (a0 : State) (a1 : Wanter) (a2 : Nat) :
    (State.giveFrame a0 a1 a2).base = a0.base := by
  unfold State.giveFrame
  (repeat' split) <;> (simp; done)

@[simp] theorem State_dropCask_base (a0 : State) (a1 : Handle) :
    (State.dropCask a0 a1).base = a0.base := by
  unfold State.dropCask
  simp

@[simp] theorem State_modCellar_base (a0 : State) (a1 : Cellar → Cellar) :
    (State.modCellar a0 a1).base = a0.base := by
  unfold State.modCellar
  simp

@[simp] theorem State_govDraw_base (a0 : State) (a1 : Nat) :
    (State.govDraw a0 a1).base = a0.base := by
  unfold State.govDraw
  simp

@[simp] theorem State_govTake_base (a0 : State) :
    (State.govTake a0).base = a0.base := by
  unfold State.govTake
  simp

@[simp] theorem State_startWriteBack_base (a0 : State) (a1 : Handle) (a2 : MoveKind) (a3 : Wanter) :
    (State.startWriteBack a0 a1 a2 a3).base = a0.base := by
  unfold State.startWriteBack
  simp

@[simp] theorem State_startEviction_base (a0 : State) (a1 : Nat) (a2 : Wanter) : (State.startEviction a0 a1 a2).base = a0.base := by
  unfold State.startEviction
  split
  · rfl
  · split
    · rfl
    · rename_i hb; have := State_byAge_base _ _ _ hb; simpa using this

@[simp] theorem State_writeSet_base (a0 : State) (a1 : Nat) : (State.writeSet a0 a1).base = a0.base := by
  unfold State.writeSet; simp only []
  generalize List.filter _ (List.eraseDups (α := Nat) _) = idx
  generalize hr : State.freshLeaves _ idx a0 = r
  have hb : r.2.base = a0.base := by subst hr; simp
  split
  · refine (State_modMalt_base _ _ fun m => rfl).trans ?_
    simpa using hb
  · refine (State_modMalt_base _ _ fun m => rfl).trans ?_
    refine (base_foldl' _ _ _ fun s x => ?_).trans hb
    split <;> simp

@[simp] theorem State_killed_base (a0 : State) :
    (State.killed a0).2.base = a0.base := by
  unfold State.killed
  simp

@[simp] theorem State_logEnd_base (a0 : State) (a1 : Cmd) (a2 : Code) (a3 : Nat) (a4 : Bool) :
    (State.logEnd a0 a1 a2 a3 a4).base = a0.base := by
  unfold State.logEnd
  simp

@[simp] theorem State_modCore_base (a0 : State) (a1 : Nat) (a2 : CoreSt → CoreSt) :
    (State.modCore a0 a1 a2).base = a0.base := by
  unfold State.modCore
  simp

@[simp] theorem State_passOff_base (a0 : State) (a1 : Nat) :
    (State.passOff a0 a1).base = a0.base := by
  unfold State.passOff
  simp

@[simp] theorem State_stopArray_base (a0 : State) (a1 : Cmd) (a2 : Nat) :
    (State.stopArray a0 a1 a2).base = a0.base := by
  unfold State.stopArray
  simp

@[simp] theorem State_untake_base (a0 : State) (a1 : Nat) :
    (State.untake a0 a1).base = a0.base := by
  unfold State.untake
  simp

@[simp] theorem State_dropGrants_base (a0 : State) (a1 : List Nat) :
    (State.dropGrants a0 a1).base = a0.base := by
  unfold State.dropGrants
  simp

@[simp] theorem State_staleFrame_base (a0 : State) (a1 : Nat) :
    (State.staleFrame a0 a1).base = a0.base := by
  unfold State.staleFrame
  simp

@[simp] theorem State_endMove_base (a0 : State) (a1 : Handle) :
    (State.endMove a0 a1).base = a0.base := by
  unfold State.endMove
  simp

@[simp] theorem State_freeLeaf_base (a0 : State) (a1 : Handle) :
    (State.freeLeaf a0 a1).base = a0.base := by
  unfold State.freeLeaf
  simp

@[simp] theorem State_deref_base (a0 : Nat) (a1 : State) (a2 : Handle) : (State.deref a0 a1 a2).base = a1.base := by
  induction a0 generalizing a1 a2 with
  | zero => rfl
  | succ n ih => unfold State.deref; simp [ih]

@[simp] theorem State_drop_base (a0 : State) (a1 : Handle) :
    (State.drop a0 a1).base = a0.base := by
  unfold State.drop
  simp

@[simp] theorem State_releaseMoved_base (a0 : State) (a1 : Handle) : (State.releaseMoved a0 a1).base = a0.base := by
  unfold State.releaseMoved
  simp only []
  split <;> simp

@[simp] theorem State_returnLeaf_base (a0 : State) (a1 : Nat) (a2 : Handle) :
    (State.returnLeaf a0 a1 a2).base = a0.base := by
  unfold State.returnLeaf
  simp

@[simp] theorem State_giveBack_base (a0 : State) (a1 : List (Nat × Handle × Bool)) (a2 : Nat × Handle × Bool) :
    (State.giveBack a0 a1 a2).base = a0.base := by
  unfold State.giveBack
  simp

@[simp] theorem State_giveBackAll_base (a0 : State) (a1 : List (Nat × Handle × Bool)) :
    (State.giveBackAll a0 a1).base = a0.base := by
  unfold State.giveBackAll
  simp

@[simp] theorem State_unpin_base (a0 : State) (a1 : Handle) :
    (State.unpin a0 a1).base = a0.base := by
  unfold State.unpin
  simp

@[simp] theorem State_unpinAll_base (a0 : State) (a1 : List Handle) :
    (State.unpinAll a0 a1).base = a0.base := by
  unfold State.unpinAll
  simp

@[simp] theorem State_undo_base (a0 : State) (a1 : Cmd) :
    (State.undo a0 a1).base = a0.base := by
  unfold State.undo
  simp

@[simp] theorem State_logKill_base (a0 : State) (a1 : Cmd) (a2 : Code) (a3 : Nat) :
    (State.logKill a0 a1 a2 a3).base = a0.base := by
  unfold State.logKill
  simp

@[simp] theorem State_setCmd_base (a0 : State) (a1 : Cmd) :
    (State.setCmd a0 a1).base = a0.base := by
  unfold State.setCmd
  simp

@[simp] theorem State_requeue_base (a0 : State) (a1 : Cmd) (a2 : Code) (a3 : Nat) (a4 : Bool) (a5 : Cmd) :
    (State.requeue a0 a1 a2 a3 a4 a5).base = a0.base := by
  unfold State.requeue
  simp

@[simp] theorem State_killRerun_base (a0 : State) (a1 : Cmd) (a2 : Code) :
    (State.killRerun a0 a1 a2).base = a0.base := by
  unfold State.killRerun
  simp

@[simp] theorem State_dropRx_base (a0 : State) (a1 : Nat) :
    (State.dropRx a0 a1).base = a0.base := by
  unfold State.dropRx
  simp

@[simp] theorem State_failParcel_base (a0 : State) (a1 : Nat) :
    (State.failParcel a0 a1).base = a0.base := by
  unfold State.failParcel
  simp

@[simp] theorem State_dropAt_base (a0 : State) (a1 : Nat) :
    (State.dropAt a0 a1).base = a0.base := by
  unfold State.dropAt
  simp

@[simp] theorem State_receive_base (a0 : State) (a1 : Parcel) (a2 : Option Nat) (a3 : Bool) :
    (State.receive a0 a1 a2 a3).base = a0.base := by
  unfold State.receive
  (repeat' split) <;> (simp; done)

@[simp] theorem State_emit_base (a0 : State) (a1 : Out) :
    (State.emit a0 a1).base = a0.base := by
  unfold State.emit
  simp

@[simp] theorem State_freed_base (a0 : State) (a1 : Option Nat) (a2 : Parcel) :
    (State.freed a0 a1 a2).base = a0.base := rfl

@[simp] theorem State_emptyTx_base (a0 : State) (a1 : Nat) :
    (State.emptyTx a0 a1).base = a0.base := by
  unfold State.emptyTx
  exact (base_foldl' _ _ _ fun s w => by simp).trans (by simp)

@[simp] theorem State_sendOn_base (a0 : State) (a1 : Nat) (a2 : Parcel) (a3 : Option Nat) :
    (State.sendOn a0 a1 a2 a3).base = a0.base := by
  unfold State.sendOn
  (repeat' split) <;> (simp; done)

@[simp] theorem State_lose_base (a0 : State) (a1 : Parcel) (a2 : Option Nat) :
    (State.lose a0 a1 a2).base = a0.base := by
  simp [State.lose]

@[simp] theorem State_forward_base (a0 : Nat) (a1 : State) (a2 : Parcel) (a3 : Option Nat) :
    (State.forward a0 a1 a2 a3).base = a1.base := by
  induction a0 generalizing a1 a2 a3 with
  | zero => simp [State.forward]
  | succ n ih => unfold State.forward; simp only []; (repeat' split) <;> simp [ih]

@[simp] theorem State_keep_base (a0 : State) (a1 : Parcel) :
    (State.keep a0 a1).base = a0.base := by
  unfold State.keep
  simp

@[simp] theorem State_emitParcel_base (a0 : State) (a1 : Parcel) :
    (State.emitParcel a0 a1).base = a0.base := by
  unfold State.emitParcel
  simp

@[simp] theorem State_sweepEntry_base (a0 : State) (a1 : List W32) :
    (State.sweepEntry a0 a1).base = a0.base := by
  unfold State.sweepEntry
  simp

@[simp] theorem State_quench_base (a0 : State) (a1 : Nat → Bool) :
    (State.quench a0 a1).base = a0.base := by
  unfold State.quench
  simp

@[simp] theorem State_voidWhere_base (a0 : State) (a1 : WaveRun → Bool) :
    (State.voidWhere a0 a1).base = a0.base := by
  unfold State.voidWhere
  simp

@[simp] theorem State_setReq_base (a0 : State) (a1 : Nat) (a2 : Req) :
    (State.setReq a0 a1 a2).base = a0.base := by
  unfold State.setReq
  simp

@[simp] theorem State_sendReply_base (a0 : State) (a1 : Ctxt) (a2 : Nat) (a3 : Stream) (a4 : Code) (a5 : Bool) (a6 : List Byte) :
    (State.sendReply a0 a1 a2 a3 a4 a5 a6).base = a0.base := by
  unfold State.sendReply
  simp

@[simp] theorem State_modQueue_base (a0 : State) (a1 : Nat) (a2 : Queue → Queue) :
    (State.modQueue a0 a1 a2).base = a0.base := by
  unfold State.modQueue
  simp

@[simp] theorem State_writeEntry_base (a0 : State) (a1 : Nat) (a2 : Completion) :
    (State.writeEntry a0 a1 a2).base = a0.base := by
  unfold State.writeEntry
  simp

@[simp] theorem State_complete_base (a0 : State) (a1 : Nat) (a2 : Nat) (a3 : Code) (a4 : W32) (a5 : W32) :
    (State.complete a0 a1 a2 a3 a4 a5).base = a0.base := by
  unfold State.complete
  simp

@[simp] theorem State_recordBy_base (a0 : State) (a1 : BitVec 8) (a2 : Nat) (a3 : Nat) (a4 : Code) (a5 : W32) (a6 : W32) :
    (State.recordBy a0 a1 a2 a3 a4 a5 a6).base = a0.base := by
  unfold State.recordBy
  simp

@[simp] theorem State_endSession_base (a0 : State) (a1 : Nat) :
    (State.endSession a0 a1).base = a0.base := by
  unfold State.endSession
  simp

@[simp] theorem State_settleDrain_base (a0 : State) (a1 : Nat) :
    (State.settleDrain a0 a1).base = a0.base := by
  unfold State.settleDrain
  simp

@[simp] theorem State_finish_base (a0 : State) (a1 : Nat) (a2 : Nat) (a3 : Code) (a4 : W32) (a5 : W32) :
    (State.finish a0 a1 a2 a3 a4 a5).base = a0.base := by
  unfold State.finish
  (repeat' split) <;> (simp; done)

@[simp] theorem State_modReq_base (a0 : State) (a1 : Nat) (a2 : Req → Req) :
    (State.modReq a0 a1 a2).base = a0.base := by
  unfold State.modReq
  simp

@[simp] theorem State_setStream_base (a0 : State) (a1 : Nat) (a2 : Stream) :
    (State.setStream a0 a1 a2).base = a0.base := by
  unfold State.setStream
  simp

@[simp] theorem State_modStream_base (a0 : State) (a1 : Nat) (a2 : Stream → Stream) :
    (State.modStream a0 a1 a2).base = a0.base := by
  unfold State.modStream
  simp

@[simp] theorem State_endReq_base (a0 : State) (a1 : Nat) (a2 : Code) (a3 : List Byte) :
    (State.endReq a0 a1 a2 a3).base = a0.base := by
  unfold State.endReq
  simp only []
  split
  · rfl
  · split <;> split <;> (try split) <;> (try split) <;> simp

@[simp] theorem State_promote_base (a0 : State) (a1 : Handle) : (State.promote a0 a1).base = a0.base := by
  unfold State.promote; simp only []
  split
  · rfl
  · split
    · rename_i hb; have := State_demandFrame_base _ _ _ hb; simpa using this
    · simp

@[simp] theorem State_tierOn_base (a0 : State) (a1 : Nat) (a2 : Handle) :
    (State.tierOn a0 a1 a2).base = a0.base := by
  unfold State.tierOn
  simp

@[simp] theorem State_retier_base (a0 : State) (a1 : Nat) :
    (State.retier a0 a1).base = a0.base := by
  unfold State.retier
  simp

@[simp] theorem State_dropTo_base (a0 : State) (a1 : Nat) (a2 : Handle) :
    (State.dropTo a0 a1 a2).base = a0.base := by
  unfold State.dropTo
  simp

@[simp] theorem State_dropAdvances_base (a0 : State) (a1 : Nat) :
    (State.dropAdvances a0 a1).base = a0.base := by
  unfold State.dropAdvances
  simp

@[simp] theorem State_voidRuns_base (a0 : State) (a1 : Nat) :
    (State.voidRuns a0 a1).base = a0.base := by
  unfold State.voidRuns
  simp

@[simp] theorem State_abandon_base (a0 : State) (a1 : Nat) :
    (State.abandon a0 a1).base = a0.base := by
  unfold State.abandon
  simp

@[simp] theorem State_abandonAll_base (a0 : State) (a1 : Nat) :
    (State.abandonAll a0 a1).base = a0.base := by
  unfold State.abandonAll
  simp

@[simp] theorem State_pauseNow_base (a0 : State) (a1 : Nat) :
    (State.pauseNow a0 a1).base = a0.base := by
  unfold State.pauseNow
  simp

@[simp] theorem Prep_s_base (a0 : Prep) :
    (Prep.s a0).base = a0.s.base := by
  unfold Prep.s
  simp

@[simp] theorem Prep_add_base (a0 : Prep) (a1 : List Eff) :
    (Prep.add a0 a1).s.base = a0.s.base := by
  unfold Prep.add
  simp

@[simp] theorem State_record_base (a0 : State) (a1 : BitVec 8) (a2 : Code) (a3 : W32) (a4 : W32) :
    (State.record a0 a1 a2 a3 a4).base = a0.base := by
  unfold State.record
  simp

@[simp] theorem State_setColophon_base (a0 : State) (a1 : Digest) :
    (State.setColophon a0 a1).base = a0.base := by
  unfold State.setColophon
  simp

@[simp] theorem State_recolophon_base (a0 : State) :
    (State.recolophon a0).base = a0.base := by
  unfold State.recolophon
  simp

@[simp] theorem State_modSlot_base (a0 : State) (a1 : Nat) (a2 : Slot → Slot) :
    (State.modSlot a0 a1 a2).base = a0.base := by
  unfold State.modSlot
  simp

@[simp] theorem State_modPlan_base (a0 : State) (a1 : Nat) (a2 : Plan → Plan) :
    (State.modPlan a0 a1 a2).base = a0.base := by
  unfold State.modPlan
  simp

@[simp] theorem State_refit_base (a0 : State) (a1 : Nat) :
    (State.refit a0 a1).base = a0.base := by
  unfold State.refit
  (repeat' split) <;> (simp; done)

@[simp] theorem State_recapAs_base (a0 : State) (a1 : Bool) (a2 : Code) :
    (State.recapAs a0 a1 a2).base = a0.base := by
  unfold State.recapAs
  simp

@[simp] theorem State_listUnreachable_base (a0 : State) (a1 : BitVec 20) :
    (State.listUnreachable a0 a1).base = a0.base := by
  unfold State.listUnreachable
  simp

@[simp] theorem State_portLost_base (a0 : State) (a1 : Nat) :
    (State.portLost a0 a1).base = a0.base := by
  unfold State.portLost
  simp

@[simp] theorem State_modChan_base (a0 : State) (a1 : Nat) (a2 : Channel64 → Channel64) :
    (State.modChan a0 a1 a2).base = a0.base := by
  unfold State.modChan
  simp

@[simp] theorem State_countAged_base (a0 : State) (a1 : Nat) (a2 : Parcel) :
    (State.countAged a0 a1 a2).base = a0.base := by
  unfold State.countAged
  split <;> simp

@[simp] theorem State_modPSet_base (a0 : State) (a1 : Nat) (a2 : PSet → PSet) :
    (State.modPSet a0 a1 a2).base = a0.base := by
  unfold State.modPSet
  simp

@[simp] theorem State_resetBackups_base (a0 : State) (a1 : Nat) :
    (State.resetBackups a0 a1).base = a0.base := by
  unfold State.resetBackups
  simp

@[simp] theorem State_spargeSend_base (a0 : State) (a1 : Nat) (a2 : BitVec 20) (a3 : Nat) (a4 : Nat) (a5 : W32) (a6 : List Byte) :
    (State.spargeSend a0 a1 a2 a3 a4 a5 a6).base = a0.base := by
  unfold State.spargeSend
  simp

@[simp] theorem State_sendDown_base (a0 : State) (a1 : Nat) (a2 : List Byte) :
    (State.sendDown a0 a1 a2).base = a0.base := by
  unfold State.sendDown
  simp

@[simp] theorem State_endTrains_base (a0 : State) (a1 : Nat) (a2 : Code) :
    (State.endTrains a0 a1 a2).base = a0.base := by
  unfold State.endTrains
  simp

@[simp] theorem State_endAttempt_base (a0 : State) (a1 : Nat) (a2 : Code) (a3 : BitVec 23) :
    (State.endAttempt a0 a1 a2 a3).base = a0.base := by
  unfold State.endAttempt
  simp

@[simp] theorem State_sendAborts_base (a0 : State) (a1 : Nat) (a2 : Code) (a3 : BitVec 23) (a4 : Option (BitVec 20)) :
    (State.sendAborts a0 a1 a2 a3 a4).base = a0.base := by
  unfold State.sendAborts
  simp

@[simp] theorem State_abortStep_base (a0 : State) (a1 : Nat) (a2 : Code) (a3 : Nat) (a4 : BitVec 23) :
    (State.abortStep a0 a1 a2 a3 a4).base = a0.base := by
  unfold State.abortStep
  simp

@[simp] theorem State_soil_base (a0 : State) (a1 : Handle) (a2 : Blk) :
    (State.soil a0 a1 a2).base = a0.base := by
  unfold State.soil
  simp

@[simp] theorem State_moveAdvances_base (a0 : State) (a1 : Nat) :
    (State.moveAdvances a0 a1).base = a0.base := by
  unfold State.moveAdvances
  simp

@[simp] theorem State_closeRefresh_base (a0 : State) (a1 : WaveRun) :
    (State.closeRefresh a0 a1).base = a0.base := by
  unfold State.closeRefresh
  simp

@[simp] theorem State_addRef_base (a0 : State) (a1 : Handle) :
    (State.addRef a0 a1).base = a0.base := by
  unfold State.addRef
  simp

@[simp] theorem State_placeCmd_base (a0 : State) (a1 : Nat) (a2 : Nat) (a3 : Nat) (a4 : List W32) (a5 : Origin) (a6 : Shape) (a7 : List WaveRun) (a8 : List Nat) (a9 : List Nat) (a10 : Bool) (a11 : Nat) (a12 : Bool) :
    (State.placeCmd a0 a1 a2 a3 a4 a5 a6 a7 a8 a9 a10 a11 a12).base = a0.base := by
  unfold State.placeCmd
  simp

@[simp] theorem State_dropCmd_base (a0 : State) (a1 : Nat) :
    (State.dropCmd a0 a1).base = a0.base := by
  unfold State.dropCmd
  simp

@[simp] theorem State_modPart_base (a0 : State) (a1 : Nat) (a2 : Partition → Partition) :
    (State.modPart a0 a1 a2).base = a0.base := by
  unfold State.modPart
  simp

@[simp] theorem State_failTrain_base (a0 : State) (a1 : Cmd) (a2 : Code) :
    (State.failTrain a0 a1 a2).base = a0.base := by
  unfold State.failTrain
  simp

@[simp] theorem State_pauseStream_base (a0 : State) (a1 : Nat) (a2 : Code) :
    (State.pauseStream a0 a1 a2).base = a0.base := by
  unfold State.pauseStream
  simp

@[simp] theorem State_modulePause_base (a0 : State) (a1 : Nat) (a2 : Code) :
    (State.modulePause a0 a1 a2).base = a0.base := by
  unfold State.modulePause
  simp

@[simp] theorem State_endRun_base (a0 : State) (a1 : Cmd) (a2 : Code) (a3 : Bool) (a4 : WaveRun) :
    (State.endRun a0 a1 a2 a3 a4).base = a0.base := by
  unfold State.endRun
  (repeat' split) <;> (simp; done)

@[simp] theorem State_endRerun_base (a0 : State) (a1 : Cmd) (a2 : Code) (a3 : Nat) (a4 : Bool) :
    (State.endRerun a0 a1 a2 a3 a4).base = a0.base := by
  unfold State.endRerun
  (repeat' split) <;> (simp; done)

@[simp] theorem State_dropVoid_base (a0 : State) :
    (State.dropVoid a0).base = a0.base := by
  unfold State.dropVoid
  simp

@[simp] theorem State_abort_base (a0 : State) (a1 : Cmd) (a2 : Code) (a3 : Nat) (a4 : Bool) (a5 : Bool) :
    (State.abort a0 a1 a2 a3 a4 a5).base = a0.base := by
  unfold State.abort
  (repeat' split) <;> (simp; done)

@[simp] theorem State_startRewrite_base (a0 : State) (a1 : Handle) :
    (State.startRewrite a0 a1).base = a0.base := by
  unfold State.startRewrite
  simp

@[simp] theorem State_portFails_base (a0 : State) (a1 : Nat) (a2 : Nat) :
    (State.portFails a0 a1 a2).base = a0.base := by
  unfold State.portFails
  simp

@[simp] theorem Prep_root_base (a0 : Prep) (a1 : Nat) :
    (Prep.root a0 a1).2.s.base = a0.s.base := by
  unfold Prep.root
  try simp only []
  (repeat' split) <;> first | rfl | (simp; done) | (refine (base_foldl' _ _ _ ?_).trans ?_ <;> first | (simp; done) | (intro s x; (repeat' split) <;> (simp; done)))

theorem State_newLeaves_base (a0 : Nat) (a1 : Nat) (a2 : State) :
    ∀ r, State.newLeaves a0 a1 a2 = some r → r.2.base = a2.base := by
  induction a1 generalizing a2 with
  | zero => intro r h; simp [State.newLeaves] at h; subst h; rfl
  | succ n ih =>
    intro r h; unfold State.newLeaves at h
    split at h
    · simp at h
    · simp only [] at h
      split at h
      · rename_i hb; have := ih _ _ hb; simp at h; subst h; simpa using this
      · simp at h

theorem State_newQuire_base (a0 : State) (a1 : Nat) :
    ∀ r, State.newQuire a0 a1 = some r → r.2.base = a0.base := by
  intro r h; unfold State.newQuire at h
  split at h
  · exact State_newLeaves_base _ _ _ _ h
  · simp at h

theorem State_takeFree_base (a0 : State) (a1 : Nat) (a2 : Nat) :
    ∀ r, State.takeFree a0 a1 a2 = some r → r.2.2.base = a0.base := by
  intro r h; unfold State.takeFree at h; simp only [] at h
  split at h
  · simp at h; subst h; simp
  · split at h
    · rename_i hb; have := State_newQuire_base _ _ _ hb; simp at h; subst h; simpa using this
    · split at h
      · simp at h; subst h; simp
      · split at h
        · simp at h; subst h; simp
        · split at h
          · rename_i hb; have := State_evictClean_base _ _ _ _ hb; simp at h; subst h; simpa using this
          · simp at h

theorem State_takeLeaf_base (a0 : State) (a1 : Nat) (a2 : Nat) :
    ∀ r, State.takeLeaf a0 a1 a2 = some r → r.2.2.base = a0.base := by
  intro r h; unfold State.takeLeaf at h; simp only [] at h
  split at h
  · simp at h; subst h; simp
  · exact State_takeFree_base _ _ _ _ h

@[simp] theorem Prep_take_base (a0 : Prep) (a1 : Nat) (a2 : Nat) : (Prep.take a0 a1 a2).2.s.base = a0.s.base := by
  unfold Prep.take; split
  · rename_i hb; have := State_takeLeaf_base _ _ _ _ hb; simpa using this
  · rfl

@[simp] theorem Prep_place_base (a0 : Prep) (a1 : Nat × Nat × Nat) (a2 : Handle) (a3 : Handle) (a4 : Nat) (a5 : Nat) (a6 : Bool) (a7 : Option Bytes → Bytes → Bytes) :
    (Prep.place a0 a1 a2 a3 a4 a5 a6 a7).2.s.base = a0.s.base := by
  unfold Prep.place
  try simp only []
  (repeat' split) <;> first | rfl | (simp; done) | (refine (base_foldl' _ _ _ ?_).trans ?_ <;> first | (simp; done) | (intro s x; (repeat' split) <;> (simp; done)))

@[simp] theorem Prep_window_base (a0 : Prep) (a1 : Nat) (a2 : Nat) :
    (Prep.window a0 a1 a2).2.s.base = a0.s.base := by
  unfold Prep.window
  simp

@[simp] theorem State_modMem_base (a0 : State) (a1 : Nat) (a2 : MemPort → MemPort) :
    (State.modMem a0 a1 a2).base = a0.base := by
  unfold State.modMem
  simp

@[simp] theorem State_reloadFirmware_base (a0 : State) :
    (State.reloadFirmware a0).base = a0.base := by
  unfold State.reloadFirmware
  simp

@[simp] theorem State_endOthers_base (a0 : State) (a1 : Nat) (a2 : Option Nat) (a3 : Code) :
    (State.endOthers a0 a1 a2 a3).base = a0.base := by
  unfold State.endOthers
  simp

@[simp] theorem State_endAllReqs_base (a0 : State) (a1 : Nat) (a2 : Code) :
    (State.endAllReqs a0 a1 a2).base = a0.base := by
  unfold State.endAllReqs
  simp

@[simp] theorem State_dropFresh_base (a0 : State) (a1 : Nat) :
    (State.dropFresh a0 a1).base = a0.base := by
  unfold State.dropFresh
  simp

@[simp] theorem State_dropRetained_base (a0 : State) (a1 : Nat) :
    (State.dropRetained a0 a1).base = a0.base := by
  unfold State.dropRetained
  (repeat' split) <;> (simp; done)

@[simp] theorem State_freeScratch_base (a0 : State) (a1 : Plan) :
    (State.freeScratch a0 a1).base = a0.base := by
  unfold State.freeScratch
  simp

@[simp] theorem State_dropPlan_base (a0 : State) (a1 : Nat) : (State.dropPlan a0 a1).base = a0.base := by
  unfold State.dropPlan; simp only []
  have get (s : State) (o : Option Plan) : ((o.map s.freeScratch).getD s).base = s.base := by cases o <;> simp
  simp only [State_recolophon_base, State_attention_base, State_modSlot_base, get]
  refine (base_foldl' _ _ _ fun s h => ?_).trans ?_ <;> simp

@[simp] theorem State_planError_base (a0 : State) (a1 : Nat) :
    (State.planError a0 a1).base = a0.base := by
  unfold State.planError
  (repeat' split) <;> (simp; done)

@[simp] theorem State_recordError_base (a0 : State) (a1 : Nat) :
    (State.recordError a0 a1).base = a0.base := by
  unfold State.recordError
  try simp only []
  (repeat' split) <;> first | rfl | (simp; done) | (refine (base_foldl' _ _ _ ?_).trans ?_ <;> first | (simp; done) | (intro s x; (repeat' split) <;> (simp; done)))

@[simp] theorem State_query_base (a0 : State) (a1 : BitVec 20) (a2 : List Byte) :
    (State.query a0 a1 a2).base = a0.base := by
  unfold State.query
  simp

@[simp] theorem State_askLeaf_base (a0 : State) (a1 : Handle) (a2 : List (BitVec 20)) :
    (State.askLeaf a0 a1 a2).base = a0.base := by
  unfold State.askLeaf
  (repeat' split) <;> (simp; done)

@[simp] theorem State_startFetch_base (a0 : State) (a1 : Handle) :
    (State.startFetch a0 a1).base = a0.base := by
  unfold State.startFetch
  (repeat' split) <;> (simp; done)

@[simp] theorem State_poolError_base (a0 : State) (a1 : Handle) (a2 : Nat) :
    (State.poolError a0 a1 a2).base = a0.base := by
  unfold State.poolError
  simp

@[simp] theorem State_freeStreams_base (a0 : State) :
    (State.freeStreams a0).base = a0.base := by
  unfold State.freeStreams
  simp

@[simp] theorem State_modCtx_base (a0 : State) (a1 : Nat) (a2 : Nat) (a3 : Ctxt → Ctxt) :
    (State.modCtx a0 a1 a2 a3).base = a0.base := by
  unfold State.modCtx
  simp

@[simp] theorem State_replyCode_base (a0 : State) (a1 : Ctxt) (a2 : Nat) (a3 : Code) :
    (State.replyCode a0 a1 a2 a3).base = a0.base := by
  unfold State.replyCode
  simp

@[simp] theorem State_endRequests_base (a0 : State) (a1 : Code) :
    (State.endRequests a0 a1).base = a0.base := by
  unfold State.endRequests
  simp

@[simp] theorem State_killFinal_base (a0 : State) (a1 : Cmd) (a2 : Code) :
    (State.killFinal a0 a1 a2).base = a0.base := by
  unfold State.killFinal
  simp

@[simp] theorem State_endTrain_base (a0 : State) (a1 : Train) (a2 : Code) :
    (State.endTrain a0 a1 a2).base = a0.base := by
  unfold State.endTrain
  simp

@[simp] theorem State_killAll_base (a0 : State) (a1 : Code) :
    (State.killAll a0 a1).base = a0.base := by
  unfold State.killAll
  simp

@[simp] theorem State_unreserve_base (a0 : State) (a1 : Nat) :
    (State.unreserve a0 a1).base = a0.base := by
  unfold State.unreserve
  simp

@[simp] theorem State_forkStarved_base (a0 : State) (a1 : Nat) :
    (State.forkStarved a0 a1).base = a0.base := by
  unfold State.forkStarved
  simp

@[simp] theorem State_abortChannel_base (a0 : State) (a1 : Nat) (a2 : Nat) (a3 : Channel) :
    (State.abortChannel a0 a1 a2 a3).base = a0.base := by
  unfold State.abortChannel
  simp

@[simp] theorem State_draw_base (a0 : State) :
    (State.draw a0).2.base = a0.base := by
  unfold State.draw
  simp

@[simp] theorem State_beginNegotiation_base (a0 : State) (a1 : Nat) :
    (State.beginNegotiation a0 a1).base = a0.base := by
  unfold State.beginNegotiation
  simp

@[simp] theorem State_setUnavailable_base (a0 : State) (a1 : Nat) (a2 : Bool) :
    (State.setUnavailable a0 a1 a2).base = a0.base := by
  unfold State.setUnavailable
  simp

@[simp] theorem State_portReset_base (a0 : State) :
    (State.portReset a0).base = a0.base := by
  unfold State.portReset
  simp

theorem State_nameMapped_base (a0 : BitVec 20) (a1 : State) (a2 : Nat) :
    ∀ r, State.nameMapped a0 a1 a2 = some r → r.2.base = a1.base := by
  intro r h; unfold State.nameMapped at h
  simp only [Option.map_eq_some_iff] at h
  obtain ⟨x, hx, rfl⟩ := h
  simp

@[simp] theorem State_endMoves_base (a0 : State) : (State.endMoves a0).base = a0.base := by
  unfold State.endMoves
  exact base_foldl' _ _ _ fun s m => by simp

@[simp] theorem State_programAll_base (a0 : State) :
    (State.programAll a0).base = a0.base := by
  unfold State.programAll
  simp

@[simp] theorem State_endEntry_base (a0 : State) (a1 : Code) (a2 : Nat) :
    (State.endEntry a0 a1 a2).base = a0.base := by
  unfold State.endEntry
  (repeat' split) <;> (simp; done)

@[simp] theorem State_modPower_base (a0 : State) (a1 : Power → Power) :
    (State.modPower a0 a1).base = a0.base := by
  unfold State.modPower
  simp

@[simp] theorem State_settleIn_base (a0 : State) (a1 : PowerState) : (State.settleIn a0 a1).base = a0.base := by
  unfold State.settleIn; simp

@[simp] theorem State_sweepPort_base (a0 : State) (a1 : Nat) :
    (State.sweepPort a0 a1).base = a0.base := by
  unfold State.sweepPort
  simp

@[simp] theorem State_asOf_base (a0 : State) (a1 : Cmd) :
    (State.asOf a0 a1).base = a0.base := by
  unfold State.asOf
  (repeat' split) <;> (simp; done)

theorem State_under_base (s : State) (c : Cmd) (f : State → State) (h : ∀ s, (f s).base = s.base) :
    (s.under c f).base = s.base := by
  unfold State.under; split <;> simp [h]

@[simp] theorem State_sourceOf_base (s : State) (c : Cmd) (r : Res) (w : State → Cmd → Res → Work) :
    (s.sourceOf c r w).base = s.base := by
  unfold State.sourceOf; split <;> simp

@[simp] theorem State_seed_base (a0 : State) (a1 : List Nat) :
    (State.seed a0 a1).base = a0.base := by
  unfold State.seed
  simp

@[simp] theorem State_markBegun_base (a0 : State) (a1 : Cmd) :
    (State.markBegun a0 a1).base = a0.base := by
  unfold State.markBegun
  (repeat' split) <;> (simp; done)

@[simp] theorem State_emptyEnd_base (a0 : State) (a1 : Cmd) :
    (State.emptyEnd a0 a1).base = a0.base := by
  unfold State.emptyEnd
  simp

@[simp] theorem State_hold_base (a0 : State) (a1 : Cmd) (a2 : List Handle) :
    (State.hold a0 a1 a2).base = a0.base := by
  unfold State.hold
  simp

@[simp] theorem State_failCmd_base (a0 : State) (a1 : Cmd) (a2 : Code) :
    (State.failCmd a0 a1 a2).base = a0.base := by
  unfold State.failCmd
  simp

@[simp] theorem State_logPoison_base (a0 : State) (a1 : Handle) :
    (State.logPoison a0 a1).base = a0.base := by
  unfold State.logPoison
  simp

@[simp] theorem State_poisonEnd_base (a0 : State) (a1 : Cmd) (a2 : List Handle) :
    (State.poisonEnd a0 a1 a2).base = a0.base := by
  unfold State.poisonEnd
  simp

@[simp] theorem State_promoteAll_base (a0 : State) (a1 : List Handle) :
    (State.promoteAll a0 a1).base = a0.base := by
  unfold State.promoteAll
  simp

@[simp] theorem State_setGens_base (a0 : State) (a1 : Nat) (a2 : List W32) :
    (State.setGens a0 a1 a2).base = a0.base := by
  unfold State.setGens
  simp

@[simp] theorem State_compute_base (s : State) (l : List (Nat × Cm (List Eff))) : (s.compute l).1.base = s.base := by
  induction l generalizing s with
  | nil => rfl
  | cons a t ih => unfold State.compute; simp [ih]

@[simp] theorem Prep_noteCore_base (c : Nat) (p q : Prep) : (Prep.noteCore c p q).s.base = q.s.base := by
  unfold Prep.noteCore; rfl

@[simp] theorem Prep_output_base (a0 : Prep) (a1 : Nat) (a2 : Nat) :
    (Prep.output a0 a1 a2).2.s.base = a0.s.base := by
  unfold Prep.output
  simp

@[simp] theorem Prep_outBytes_base (a0 : Nat) (a1 : Nat) (a2 : Nat) (a3 : List Byte) (a4 : Prep) :
    (Prep.outBytes a0 a1 a2 a3 a4).s.base = a4.s.base := by
  induction a1 generalizing a2 a3 a4 with
  | zero => rfl
  | succ n ih => unfold Prep.outBytes; simp only []; (repeat' split) <;> simp [ih, Prep.add]

@[simp] theorem Prep_share_base (a0 : Nat) (a1 : HistForm) (a2 : Nat) (a3 : Handle) (a4 : Nat) (a5 : Nat × Handle)
    (a6 : Prep) : (Prep.share a0 a1 a2 a3 a4 a5 a6).s.base = a6.s.base := by
  induction a2 generalizing a3 a4 a5 a6 with
  | zero => rfl
  | succ n ih =>
    unfold Prep.share; simp only []
    split
    · simp
    · split
      · simp
      · split
        · refine (base_foldlP _ _ _ fun p y => ih _ _ _ _).trans ?_
          simp
        · simp

@[simp] theorem Prep_copyState_base (a0 : Prep) (a1 : Nat) (a2 : Handle) : (Prep.copyState a0 a1 a2).2.s.base = a0.s.base := by
  unfold Prep.copyState; simp only []
  split
  · simp
  · refine (base_foldlP _ _ _ fun p y => ?_).trans ?_ <;> simp

@[simp] theorem Prep_stateLeaf_base (a0 : Prep) (a1 : Nat) : (Prep.stateLeaf a0 a1).2.s.base = a0.s.base := by
  unfold Prep.stateLeaf; simp only []
  (repeat' split) <;> simp

@[simp] theorem Prep_page_base (a0 : Prep) (a1 : Nat) (a2 : Nat) (a3 : Nat) :
    (Prep.page a0 a1 a2 a3).2.s.base = a0.s.base := by
  unfold Prep.page
  try simp only []
  (repeat' split) <;> first | rfl | (simp; done) | (refine (base_foldl' _ _ _ ?_).trans ?_ <;> first | (simp; done) | (intro s x; (repeat' split) <;> (simp; done)))

@[simp] theorem Prep_stateBytes_base (a0 : Nat) (a1 : Nat) (a2 : Nat) (a3 : Nat) (a4 : List Byte) (a5 : Prep) :
    (Prep.stateBytes a0 a1 a2 a3 a4 a5).s.base = a5.s.base := by
  induction a2 generalizing a3 a4 a5 with
  | zero => rfl
  | succ n ih => unfold Prep.stateBytes; simp only []; (repeat' split) <;> simp [ih, Prep.add]

@[simp] theorem Prep_spine_base (a0 : Prep) (a1 : Nat) (a2 : Nat) : (Prep.spine a0 a1 a2).2.s.base = a0.s.base := by
  unfold Prep.spine
  split
  · rfl
  · simp only []
    split
    · simp
    · refine (base_foldlP _ _ _ fun p x => ?_).trans ?_
      · simp
      · simp

@[simp] theorem Prep_history_base (a0 : Prep) (a1 : Nat) (a2 : Nat) (a3 : Nat) :
    (Prep.history a0 a1 a2 a3).2.s.base = a0.s.base := by
  unfold Prep.history
  try simp only []
  (repeat' split) <;> first | rfl | (simp; done) | (refine (base_foldl' _ _ _ ?_).trans ?_ <;> first | (simp; done) | (intro s x; (repeat' split) <;> (simp; done)))

@[simp] theorem Prep_append_base (a0 : Prep) (a1 : Nat) (a2 : Nat) (a3 : Nat) :
    (Prep.append a0 a1 a2 a3).s.base = a0.s.base := by
  have inner (rs : List Nat) (f : Nat → Nat) (cs : List Nat) (p : Prep) :
      (rs.foldl (fun p k => cs.foldl (fun p c => if p.fail || p.beyond then p else (p.history a1 (f k) c).2) p) p).s.base
        = p.s.base := by
    refine base_foldlP _ _ _ fun p k => ?_
    refine base_foldlP _ _ _ fun p c => ?_
    split <;> simp
  unfold Prep.append; simp only []
  split
  · rfl
  · split
    · exact inner _ _ _ _
    · refine (base_foldlP _ _ _ fun p k => ?_).trans (inner _ _ _ _)
      split <;> simp

@[simp] theorem Prep_childRoot_base (a0 : Prep) (a1 : Nat) : (Prep.childRoot a0 a1).2.s.base = a0.s.base := by
  unfold Prep.childRoot
  split
  · rename_i hb; have := State_newQuire_base _ _ _ hb; simpa using this
  · simp

@[simp] theorem Prep_fork_base (a0 : Prep) (a1 : Nat) (a2 : Nat) (a3 : Bool) :
    (Prep.fork a0 a1 a2 a3).s.base = a0.s.base := by
  have names (i : Nat) (g : HistForm) (root : Handle) (l : List (Nat × Handle)) (p : Prep) :
      (l.foldl (fun p e => Prep.share i g shareDepth root 0 e p) p).s.base = p.s.base :=
    base_foldlP _ _ _ fun p e => by simp
  have either (c : Prop) [Decidable c] (x : Handle) (p : Prep) (i : Nat) (st : Handle) :
      (if c then (x, p) else p.copyState i st).2.s.base = p.s.base := by split <;> simp
  unfold Prep.fork; simp only []
  split
  · rfl
  · split
    · simp
    · simp only [State_modStream_base, either, names, State_patchCask_base, Prep_childRoot_base]

@[simp] theorem Prep_trim_base (a0 : Prep) (a1 : Nat) (a2 : Nat) :
    (Prep.trim a0 a1 a2).s.base = a0.s.base := by
  unfold Prep.trim
  try simp only []
  (repeat' split) <;> first | rfl | (simp; done) | (refine (base_foldl' _ _ _ ?_).trans ?_ <;> first | (simp; done) | (intro s x; (repeat' split) <;> (simp; done)))

@[simp] theorem Prep_eff_base (a0 : Prep) (a1 : Eff) :
    (Prep.eff a0 a1).s.base = a0.s.base := by
  unfold Prep.eff
  (repeat' split) <;> (simp; done)

@[simp] theorem Prep_start_base (a0 : State) :
    (Prep.start a0).s.base = a0.base := by
  unfold Prep.start
  simp

@[simp] theorem Prep_histRow_base (a0 : List HistRow) (a1 : Prep) (a2 : HistRow) :
    (Prep.histRow a0 a1 a2).s.base = a1.s.base := by
  unfold Prep.histRow
  try simp only []
  (repeat' split) <;> first | rfl | (simp; done) | (refine (base_foldl' _ _ _ ?_).trans ?_ <;> first | (simp; done) | (intro s x; (repeat' split) <;> (simp; done)))

@[simp] theorem Prep_all_base (a0 : State) (a1 : List (Nat × List Eff)) : (Prep.all a0 a1).s.base = a0.base := by
  unfold Prep.all; simp only []
  refine (base_foldlP _ _ _ fun p r => ?_).trans ?_
  · split <;> simp
  · refine base_foldlP _ _ _ fun p e => ?_
    exact base_foldlP _ _ _ fun p e => by simp

@[simp] theorem State_promoteHeat_base (a0 : State) (a1 : Handle) : (State.promoteHeat a0 a1).base = a0.base := by
  unfold State.promoteHeat; simp only []
  split
  · rfl
  · split
    · rename_i hb
      split at hb
      · simp at hb; obtain ⟨rfl, rfl⟩ := hb; simp
      · have := State_evictClean_base _ _ _ _ hb; simpa using this
    · rfl

@[simp] theorem State_storeCopy_base (a0 : State) (a1 : Handle) (a2 : Nat) :
    (State.storeCopy a0 a1 a2).base = a0.base := by
  unfold State.storeCopy
  simp

@[simp] theorem State_pin_base (a0 : State) (a1 : Handle) (a2 : List Nat) :
    (State.pin a0 a1 a2).base = a0.base := by
  unfold State.pin
  simp

@[simp] theorem State_pinQuiet_base (a0 : State) (a1 : Handle) :
    (State.pinQuiet a0 a1).base = a0.base := by
  unfold State.pinQuiet
  simp

@[simp] theorem State_launch_base (a0 : State) (a1 : Cmd) (a2 : Res) (a3 : Work) (a4 : List Handle) :
    (State.launch a0 a1 a2 a3 a4).base = a0.base := by
  have pins (c : Cmd) (w : Work) (l : List Handle) (s : State) :
      (l.foldl (fun s h => s.pin h (w.readersOf c h)) s).base = s.base := base_foldl' _ _ _ fun s h => by simp
  have writers (p : Prep) (l : List Handle) (s : State) :
      (l.foldl (fun s h => s.pin h (p.writers h)) s).base = s.base := base_foldl' _ _ _ fun s h => by simp
  have quiet (l : List Handle) (s : State) : (l.foldl (fun s h => s.pinQuiet h) s).base = s.base :=
    base_foldl' _ _ _ fun s h => by simp
  have uses (l : List Nat) (s : State) : (l.foldl (fun (s : State) k =>
      s.modCore k fun x => { x with scratch := x.scratch + 1 }) s).base = s.base := base_foldl' _ _ _ fun s h => by simp
  unfold State.launch; simp only []
  split
  · simp
  · split
    · simp
    · split
      · simp
      · split
        · simp
        · split
          · simp
          · split
            · simp
            · simp only [State_setCmd_base, State_modFabric_base, State_dropGrants_base, uses, quiet, writers, pins,
                Prep_all_base, State_compute_base]

@[simp] theorem State_runCmd_base (a0 : State) (a1 : Cmd) (a2 : Res) (a3 : Work) :
    (State.runCmd a0 a1 a2 a3).base = a0.base := by
  unfold State.runCmd
  simp

@[simp] theorem State_beginCmd_base (s : State) (c : Cmd) (w : State → Cmd → Res → Work) :
    (s.beginCmd c w).base = s.base := by
  unfold State.beginCmd; simp only []
  (repeat' split) <;> simp

@[simp] theorem State_issue_base (s : State) (id opc : Nat) (w : State → Cmd → Res → Work) :
    (s.issue id opc w).base = s.base := by
  unfold State.issue
  split
  · rfl
  · refine State_under_base _ _ _ fun s => ?_
    simp only []
    (repeat' split) <;> first | rfl | (simp; done)

@[simp] theorem State_modSect_base (a0 : State) (a1 : Nat) (a2 : Sect → Sect) :
    (State.modSect a0 a1 a2).base = a0.base := by
  unfold State.modSect
  simp

@[simp] theorem State_drainHeld_base (a0 : Nat) (a1 : Nat) (a2 : State) :
    (State.drainHeld a0 a1 a2).base = a2.base := by
  fun_induction State.drainHeld <;> first | (simp; done) | (simp_all; done)

theorem State_onSparge_base (s : State) (rq t : Nat) (f : Parcel → State → State)
    (h : ∀ p s, (f p s).base = s.base) : (s.onSparge rq t f).base = s.base := by
  unfold State.onSparge; (repeat' split) <;> first | rfl | simp [h]

@[simp] theorem State_toBuffer_base (a0 : State) (a1 : Started) (a2 : List Byte) :
    (State.toBuffer a0 a1 a2).base = a0.base := by
  unfold State.toBuffer
  simp

@[simp] theorem State_rootLeaves_base (a0 : State) (a1 : Plan) (a2 : Handle) (a3 : Handle) (a4 : List Handle) :
    (State.rootLeaves a0 a1 a2 a3 a4).base = a0.base := by
  unfold State.rootLeaves
  simp

@[simp] theorem State_settle_base (a0 : Nat) (a1 : Nat) (a2 : State) :
    (State.settle a0 a1 a2).base = a2.base := by
  fun_induction State.settle <;> first | (simp; done) | (simp_all; done)

@[simp] theorem State_serve_base (a0 : State) (a1 : Nat) (a2 : Nat) :
    (State.serve a0 a1 a2).base = a0.base := by
  unfold State.serve
  simp

@[simp] theorem State_admitReq_base (a0 : State) (a1 : Nat) : (State.admitReq a0 a1).base = a0.base := by
  unfold State.admitReq; simp only []
  split
  · split
    · rename_i hb; have := State_newQuire_base _ _ _ hb; simpa using this
    · simp
  · simp

@[simp] theorem State_endWaiters_base (a0 : State) (a1 : Handle) :
    (State.endWaiters a0 a1).base = a0.base := by
  unfold State.endWaiters
  simp

@[simp] theorem State_spargeIntake_base (a0 : State) (a1 : Rx) :
    (State.spargeIntake a0 a1).base = a0.base := by
  unfold State.spargeIntake
  try simp only []
  (repeat' split) <;> first | rfl | (simp; done) | (refine (base_foldl' _ _ _ ?_).trans ?_ <;> first | (simp; done) | (intro s x; (repeat' split) <;> (simp; done)))

@[simp] theorem State_modDie_base (a0 : State) (a1 : Nat) (a2 : Die → Die) :
    (State.modDie a0 a1 a2).base = a0.base := by
  unfold State.modDie
  simp

@[simp] theorem State_unmapBlock_base (a0 : State) (a1 : Nat) (a2 : Nat) :
    (State.unmapBlock a0 a1 a2).base = a0.base := by
  unfold State.unmapBlock
  simp

@[simp] theorem State_abortDma_base (a0 : State) :
    (State.abortDma a0).base = a0.base := by
  unfold State.abortDma
  simp

@[simp] theorem State_closeWindow_base (a0 : State) (a1 : Nat) (a2 : Nat) :
    (State.closeWindow a0 a1 a2).base = a0.base := by
  unfold State.closeWindow
  simp

@[simp] theorem State_disableQueue_base (a0 : State) (a1 : Nat) :
    (State.disableQueue a0 a1).base = a0.base := by
  unfold State.disableQueue
  simp

@[simp] theorem State_stopAll_base (a0 : State) :
    (State.stopAll a0).base = a0.base := by
  unfold State.stopAll
  simp

@[simp] theorem State_dropUnserved_base (a0 : State) : (State.dropUnserved a0).base = a0.base := by
  unfold State.dropUnserved
  refine base_foldl' _ _ _ fun s x => ?_
  split <;> simp

@[simp] theorem State_refetch_base (a0 : State) :
    (State.refetch a0).base = a0.base := by
  unfold State.refetch
  simp

theorem State_acceptAs_base (a0 : State) (a1 : Handle) (a2 : FrameDesc) (a3 : Bytes) :
    ∀ r, State.acceptAs a0 a1 a2 a3 = some r → r.2.base = a0.base := by
  unfold State.acceptAs
  (repeat' split) <;> (simp; done)

@[simp] theorem State_residency_base (a0 : State) (a1 : Nat) :
    (State.residency a0 a1).base = a0.base := by
  unfold State.residency
  simp

@[simp] theorem State_itemsOf_base (a0 : State) (a1 : Nat) (a2 : Bool) :
    (State.itemsOf a0 a1 a2).2.base = a0.base := by
  unfold State.itemsOf
  simp

@[simp] theorem State_enterRest_base (a0 : State) : (State.enterRest a0).base = a0.base := by
  unfold State.enterRest; simp

@[simp] theorem State_reportFrame_base (a0 : State) (a1 : Nat) (a2 : Nat) (a3 : Code) :
    (State.reportFrame a0 a1 a2 a3).base = a0.base := by
  unfold State.reportFrame
  simp

@[simp] theorem State_dropCellar_base (a0 : State) (a1 : Handle) :
    (State.dropCellar a0 a1).base = a0.base := by
  unfold State.dropCellar
  simp

@[simp] theorem State_rewriteLeaf_base (a0 : State) (a1 : Handle) : (State.rewriteLeaf a0 a1).base = a0.base := by
  unfold State.rewriteLeaf; simp only []
  (repeat' split) <;> simp

@[simp] theorem State_dropPromotion_base (a0 : State) (a1 : Handle) :
    (State.dropPromotion a0 a1).base = a0.base := by
  unfold State.dropPromotion
  (repeat' split) <;> (simp; done)

@[simp] theorem State_mirrorLost_base (a0 : State) (a1 : CellarFrame) :
    (State.mirrorLost a0 a1).base = a0.base := by
  unfold State.mirrorLost
  simp

@[simp] theorem State_cellarLost_base (a0 : State) (a1 : Handle) :
    (State.cellarLost a0 a1).base = a0.base := by
  unfold State.cellarLost
  try simp only []
  (repeat' split) <;> first | rfl | (simp; done) | (refine (base_foldl' _ _ _ ?_).trans ?_ <;> first | (simp; done) | (intro s x; (repeat' split) <;> (simp; done)))

theorem State_takePinned_base (a0 : Nat) (a1 : Nat) (a2 : State) :
    ∀ r, State.takePinned a0 a1 a2 = some r → r.2.base = a2.base := by
  induction a1 generalizing a2 with
  | zero => intro r h; simp [State.takePinned] at h; subst h; rfl
  | succ n ih =>
    intro r h; unfold State.takePinned at h
    split at h
    · simp at h
    · rename_i hb
      have h1 := State_takeSingle_base _ _ _ _ hb
      simp only [] at h
      split at h
      · simp at h
      · rename_i hc
        have := ih _ _ hc
        simp only [Option.some.injEq] at h; subst h; simpa using this.trans (by simpa using h1)

theorem State_loadChannel_base (a0 : State) (a1 : Nat) (a2 : List W32) :
    ∀ r, State.loadChannel a0 a1 a2 = some r → r.base = a0.base := by
  intro r h; unfold State.loadChannel at h; simp only [] at h
  split at h
  · rename_i hb
    have := State_takePinned_base _ _ _ _ hb
    simp only [Option.some.injEq] at h; subst h
    refine (State_modChan_base _ _ _).trans (this.trans (base_foldl' _ _ _ fun s x => by simp))
  · simp at h

@[simp] theorem State_commitBlock_base (a0 : State) (a1 : Nat) (a2 : BitVec 8) (a3 : Nat) (a4 : List Byte) :
    (State.commitBlock a0 a1 a2 a3 a4).base = a0.base := by
  unfold State.commitBlock
  simp

@[simp] theorem State_recount_base (a0 : State) (a1 : Handle) :
    (State.recount a0 a1).base = a0.base := by
  unfold State.recount
  simp

theorem State_onStarted_base (s : State) (q tag opc : Nat) (ok : Started → Bool) (f : Started → State)
    (h : ∀ t, (f t).base = s.base) : (s.onStarted q tag opc ok f).base = s.base := by
  unfold State.onStarted; split
  · split
    · exact h _
    · rfl
  · rfl

@[simp] theorem State_modStarted_base (a0 : State) (a1 : Nat) (a2 : Nat) (a3 : Started → Started) :
    (State.modStarted a0 a1 a2 a3).base = a0.base := by
  unfold State.modStarted
  simp

@[simp] theorem State_powerSet_base (a0 : State) (a1 a2 a3 : Nat) (a4 : Started → Bool) (a5 : Bool) :
    (State.powerSet a0 a1 a2 a3 a4 a5).base = a0.base := by
  unfold State.powerSet
  refine State_onStarted_base _ _ _ _ _ _ fun t => ?_
  (repeat' split) <;> simp

@[simp] theorem State_stopSection_base (a0 : State) (a1 : Nat) :
    (State.stopSection a0 a1).base = a0.base := by
  unfold State.stopSection
  simp

@[simp] theorem State_voidPart_base (a0 : State) (a1 : Nat) :
    (State.voidPart a0 a1).base = a0.base := by
  unfold State.voidPart
  simp

@[simp] theorem State_assembleClass_base (a0 : State) (a1 : Nat) (a2 : Bool) :
    (State.assembleClass a0 a1 a2).2.base = a0.base := by
  unfold State.assembleClass
  simp

theorem State_mirrorFrame_base (a0 : State) (a1 : Incoming) (a2 : Nat) (a3 : Nat) (a4 : Nat) (a5 : W32) (a6 : Bytes) :
    ∀ r, State.mirrorFrame a0 a1 a2 a3 a4 a5 a6 = some r → r.2.base = a0.base := by
  unfold State.mirrorFrame
  (repeat' split) <;> (simp; done)

@[simp] theorem State_reject_base (a0 : State) (a1 : Nat) (a2 : Code × Nat) :
    (State.reject a0 a1 a2).base = a0.base := by
  unfold State.reject
  simp

theorem State_takeSs_base (a0 : State) (a1 : Nat) :
    ∀ r, State.takeSs a0 a1 = some r → r.2.base = a0.base := by
  unfold State.takeSs
  (repeat' split) <;> (simp; done)

@[simp] theorem State_endStore_base (a0 : State) (a1 : Handle) (a2 : Move) : (State.endStore a0 a1 a2).base = a0.base := by
  unfold State.endStore; simp only []
  split
  · simp
  · split
    · simp
    · rename_i hb; have := State_takeSs_base _ _ _ hb; simpa using this

@[simp] theorem State_countRetry_base (a0 : State) :
    (State.countRetry a0).base = a0.base := by
  unfold State.countRetry
  simp

@[simp] theorem State_endPortService_base (a0 : State) :
    (State.endPortService a0).base = a0.base := by
  unfold State.endPortService
  simp

theorem some_ite {α : Type} {P : Prop} {c : Prop} [Decidable c] {x y : Option α} {r : α}
    (h : (if c then x else y) = some r) (hx : x = some r → P) (hy : y = some r → P) : P := by
  split at h
  · exact hx h
  · exact hy h

theorem State_readClear_base (a0 : State) (a1 : Nat) (a2 : Bool) :
    ∀ r, State.readClear a0 a1 a2 = some r → r.2.base = a0.base := by
  intro r h
  unfold State.readClear at h
  simp only [] at h
  generalize (if a2 = true then 1 else 0) = k at h
  repeat' (refine some_ite h (fun h => ?_) (fun h => ?_))
  all_goals first
    | (simp only [Option.some.injEq] at h; subst h; simp; done)
    | (split at h <;> first | (simp only [Option.some.injEq] at h; subst h; simp; done) | (simp at h; done))
    | (simp at h; done)

@[simp] theorem State_answerQuery_base (a0 : State) (a1 : BitVec 20) (a2 : Nat) (a3 : Nat) (a4 : Nat) :
    (State.answerQuery a0 a1 a2 a3 a4).base = a0.base := by
  unfold State.answerQuery
  simp

@[simp] theorem State_replyRun_base (a0 : State) (a1 : WaveRun) :
    (State.replyRun a0 a1).base = a0.base := by
  unfold State.replyRun
  try simp only []
  (repeat' split) <;> first | rfl | (simp; done) | (refine (base_foldl' _ _ _ ?_).trans ?_ <;> first | (simp; done) | (intro s x; (repeat' split) <;> (simp; done)))

@[simp] theorem State_replies_base (a0 : State) (a1 : Nat) (a2 : Bool) :
    (State.replies a0 a1 a2).base = a0.base := by
  unfold State.replies
  (repeat' split) <;> (simp; done)

@[simp] theorem State_freeOld_base (a0 : State) (a1 : Nat) (a2 : Bool) :
    (State.freeOld a0 a1 a2).base = a0.base := by
  unfold State.freeOld
  simp

@[simp] theorem State_endTrainWave_base (a0 : State) (a1 : Wave) :
    (State.endTrainWave a0 a1).base = a0.base := by
  unfold State.endTrainWave
  (repeat' split) <;> (simp; done)

@[simp] theorem State_dropVoidAdvances_base (a0 : State) (a1 : Wave) :
    (State.dropVoidAdvances a0 a1).base = a0.base := by
  unfold State.dropVoidAdvances
  simp

@[simp] theorem State_endWave_base (a0 : State) (a1 : Nat) (a2 : Bool) :
    (State.endWave a0 a1 a2).base = a0.base := by
  unfold State.endWave
  try simp only []
  (repeat' split) <;> first | rfl | (simp; done) | (refine (base_foldl' _ _ _ ?_).trans ?_ <;> first | (simp; done) | (intro s x; (repeat' split) <;> (simp; done)))

theorem State_acceptFrame_base (a0 : State) (a1 : Handle) (a2 : Bytes) :
    ∀ r, State.acceptFrame a0 a1 a2 = some r → r.2.base = a0.base := by
  intro r h; unfold State.acceptFrame at h; exact State_acceptAs_base _ _ _ _ _ h

@[simp] theorem State_issueLeaf_base (s : State) (id lop : Nat) (w : State → Cmd → Res → Work) :
    (s.issueLeaf id lop w).base = s.base := by
  unfold State.issueLeaf; (repeat' split) <;> simp

@[simp] theorem State_freeStream_base (a0 : State) (a1 : Nat) :
    (State.freeStream a0 a1).base = a0.base := by
  unfold State.freeStream
  simp

@[simp] theorem State_sendManifest_base (a0 : State) (a1 : BitVec 20) (a2 : Nat) (a3 : Nat) :
    (State.sendManifest a0 a1 a2 a3).base = a0.base := by
  unfold State.sendManifest
  simp

@[simp] theorem State_sendMirrorLeaf_base (a0 : State) (a1 : BitVec 20) (a2 : Nat) (a3 : Nat) (a4 : Nat) (a5 : Nat) (a6 : Nat) (a7 : Bytes) :
    (State.sendMirrorLeaf a0 a1 a2 a3 a4 a5 a6 a7).base = a0.base := by
  unfold State.sendMirrorLeaf
  simp

@[simp] theorem State_flushMirror_base (a0 : State) (a1 : BitVec 20) (a2 : Nat) :
    (State.flushMirror a0 a1 a2).base = a0.base := by
  unfold State.flushMirror
  try simp only []
  (repeat' split) <;> first | rfl | (simp; done) | (refine (base_foldl' _ _ _ ?_).trans ?_ <;> first | (simp; done) | (intro s x; (repeat' split) <;> (simp; done)))

@[simp] theorem State_sendRelease_base (a0 : State) (a1 : Nat) :
    (State.sendRelease a0 a1).base = a0.base := by
  unfold State.sendRelease
  (repeat' split) <;> (simp; done)

@[simp] theorem State_freeHistory_base (a0 : State) (a1 : Nat) :
    (State.freeHistory a0 a1).base = a0.base := by
  unfold State.freeHistory
  simp

@[simp] theorem State_denySession_base (a0 : State) (a1 : Nat) (a2 : Nat) (a3 : Nat) (a4 : Nat) :
    (State.denySession a0 a1 a2 a3 a4).base = a0.base := by
  unfold State.denySession
  simp

@[simp] theorem State_layCask_base (a0 : State) :
    (State.layCask a0).base = a0.base := by
  unfold State.layCask
  simp

@[simp] theorem State_endStart_base (a0 : State) :
    (State.endStart a0).base = a0.base := by
  unfold State.endStart
  simp

@[simp] theorem State_answerMirror_base (a0 : State) (a1 : Nat) (a2 : Incoming) :
    (State.answerMirror a0 a1 a2).base = a0.base := by
  unfold State.answerMirror
  simp

@[simp] theorem State_modBuddy_base (a0 : State) (a1 : Buddy → Buddy) :
    (State.modBuddy a0 a1).base = a0.base := by
  unfold State.modBuddy
  simp

@[simp] theorem State_refuseMirror_base (a0 : State) (a1 : Incoming) :
    (State.refuseMirror a0 a1).base = a0.base := by
  unfold State.refuseMirror
  simp

@[simp] theorem State_admitMirror_base (a0 : State) (a1 : Incoming) (a2 : Nat) :
    (State.admitMirror a0 a1 a2).2.base = a0.base := by
  unfold State.admitMirror
  generalize a1.leaves = ls
  suffices h : ∀ (ls : List InLeaf) (a : Incoming × State), (ls.foldl (fun (a : Incoming × State) l =>
      match if l.own.isSome || !l.whole || a.2.mirrorFull a2 then none
          else a.2.mirrorFrame a.1 a2 0 l.format l.owner l.data with
      | some (h, s) => ({ a.1 with leaves := a.1.leaves ++ [{ l with own := some h }] }, s)
      | none => ({ a.1 with leaves := a.1.leaves ++ [l] }, a.2)) a).2.base = a.2.base by exact h _ _
  intro ls
  induction ls with
  | nil => intro a; rfl
  | cons l t ih =>
    intro a; rw [List.foldl_cons, ih]
    split
    · rename_i hb
      split at hb
      · simp at hb
      · exact State_mirrorFrame_base _ _ _ _ _ _ _ _ hb
    · rfl

@[simp] theorem State_setMapped_base (a0 : State) (a1 : BitVec 20) (a2 : InLeaf) :
    (State.setMapped a0 a1 a2).base = a0.base := by
  unfold State.setMapped
  (repeat' split) <;> (simp; done)

@[simp] theorem State_dropManifest_base (a0 : State) (a1 : BitVec 20) (a2 : Nat) :
    (State.dropManifest a0 a1 a2).base = a0.base := by
  unfold State.dropManifest
  simp

@[simp] theorem State_applyMirror_base (a0 : State) (a1 : Incoming) (a2 : List W32) (a3 : Handle) :
    (State.applyMirror a0 a1 a2 a3).base = a0.base := by
  unfold State.applyMirror
  simp

@[simp] theorem State_pushMirror_base (a0 : State) (a1 : Incoming) : (State.pushMirror a0 a1).base = a0.base := by
  unfold State.pushMirror; simp only []
  split
  · simp
  · split
    · simp
    · split
      · simp
      · split
        · simp
        · split
          · simp
          · split
            · rename_i hb; have := State_mirrorFrame_base _ _ _ _ _ _ _ _ hb; simpa using this
            · simp

@[simp] theorem State_mismatch_base (a0 : State) (a1 : Nat) (a2 : BitVec 20) :
    (State.mismatch a0 a1 a2).base = a0.base := by
  unfold State.mismatch
  simp

theorem State_ifLive_base (s : State) (k : Nat) (f : Nat → State) (h : ∀ i, (f i).base = s.base) :
    (s.ifLive k f).base = s.base := by
  unfold State.ifLive; simp only []; split
  · exact h _
  · simp

@[simp] theorem State_resetReq_base (a0 : State) (a1 : Nat) : (State.resetReq a0 a1).base = a0.base := by
  unfold State.resetReq
  refine State_ifLive_base _ _ _ fun i => ?_
  first | (simp; done) | (split <;> simp)

theorem State_putMirror_base (a0 : State) (a1 : Nat) (a2 : Nat) (a3 : Nat) (a4 : W32) (a5 : W32) (a6 : W32) (a7 : W32) (a8 : Bytes) :
    ∀ r, State.putMirror a0 a1 a2 a3 a4 a5 a6 a7 a8 = some r → r.2.base = a0.base := by
  unfold State.putMirror
  (repeat' split) <;> (simp; done)

@[simp] theorem State_dropTrains_base (a0 : State) (a1 : Nat) :
    (State.dropTrains a0 a1).base = a0.base := by
  unfold State.dropTrains
  simp

@[simp] theorem State_newBulk_base (a0 : State) (a1 : Nat) :
    (State.newBulk a0 a1).2.base = a0.base := by
  unfold State.newBulk
  try simp only []
  (repeat' split) <;> first | rfl | (simp; done) | (refine (base_foldl' _ _ _ ?_).trans ?_ <;> first | (simp; done) | (intro s x; (repeat' split) <;> (simp; done)))

@[simp] theorem State_arrived_base (a0 : State) (a1 : Handle) :
    (State.arrived a0 a1).base = a0.base := by
  unfold State.arrived
  simp

@[simp] theorem State_loseBuffer_base (a0 : State) :
    (State.loseBuffer a0).base = a0.base := by
  unfold State.loseBuffer
  simp

@[simp] theorem State_takeMirror_base (a0 : State) (a1 : Nat) :
    (State.takeMirror a0 a1).base = a0.base := by
  unfold State.takeMirror
  try simp only []
  (repeat' split) <;> first | rfl | (simp; done) | (refine (base_foldl' _ _ _ ?_).trans ?_ <;> first | (simp; done) | (intro s x; (repeat' split) <;> (simp; done)))

@[simp] theorem State_abandonWave_base (a0 : State) (a1 : Cmd) :
    (State.abandonWave a0 a1).base = a0.base := by
  unfold State.abandonWave
  simp

@[simp] theorem State_placeRecovery_base (a0 : State) (a1 : Cmd) :
    (State.placeRecovery a0 a1).base = a0.base := by
  unfold State.placeRecovery
  simp

@[simp] theorem State_skew_base (a0 : State) (a1 : Cmd) :
    (State.skew a0 a1).base = a0.base := by
  unfold State.skew
  simp

@[simp] theorem State_modTime_base (a0 : State) (a1 : TimeBase → TimeBase) :
    (State.modTime a0 a1).base = a0.base := by
  unfold State.modTime
  simp

@[simp] theorem State_takeOffset_base (a0 : State) (a1 : Int) (a2 : Int) :
    (State.takeOffset a0 a1 a2).base = a0.base := by
  unfold State.takeOffset
  simp

@[simp] theorem State_passOn_base (a0 : State) (a1 : Nat) :
    (State.passOn a0 a1).base = a0.base := by
  unfold State.passOn
  simp

@[simp] theorem State_startPasses_base (a0 : State) (a1 : Cmd) :
    (State.startPasses a0 a1).base = a0.base := by
  unfold State.startPasses
  simp

@[simp] theorem State_keepOld_base (a0 : State) (a1 : Nat) (a2 : Handle) (a3 : Nat × Bool) :
    (State.keepOld a0 a1 a2 a3).base = a0.base := by
  unfold State.keepOld
  simp

@[simp] theorem State_loseRun_base (a0 : State) (a1 : Cmd) (a2 : Nat) :
    (State.loseRun a0 a1 a2).base = a0.base := by
  unfold State.loseRun
  (repeat' split) <;> (simp; done)

@[simp] theorem State_enterKept_base (a0 : State) (a1 : Nat × CellarFrame) :
    (State.enterKept a0 a1).base = a0.base := by
  unfold State.enterKept
  simp

@[simp] theorem State_linkAt_base (a0 : Nat) (a1 : Nat) (a2 : Nat) (a3 : State) :
    (State.linkAt a0 a1 a2 a3).base = a3.base := by
  fun_induction State.linkAt <;> first | (simp; done) | (simp_all; done)

@[simp] theorem State_link_base (a0 : State) (a1 : Nat) (a2 : Nat) :
    (State.link a0 a1 a2).base = a0.base := by
  unfold State.link
  simp

@[simp] theorem State_submit_base (s : State) (a : List W32) (b : W32) (c : Nat) (d : Option (Nat × Nat)) :
    (s.submit a b c d).2.2.base = s.base := by
  unfold State.submit; simp only []; (repeat' split) <;> simp

@[simp] theorem State_enterFrame_base (a0 : State) (a1 : Handle) (a2 : Nat) :
    (State.enterFrame a0 a1 a2).base = a0.base := by
  unfold State.enterFrame
  simp

@[simp] theorem State_endRewrite_base (a0 : State) (a1 : Handle) (a2 : Nat) :
    (State.endRewrite a0 a1 a2).base = a0.base := by
  unfold State.endRewrite
  simp

@[simp] theorem State_recap_base (a0 : State) (a1 : Code) :
    (State.recap a0 a1).base = a0.base := by
  unfold State.recap
  simp

@[simp] theorem State_haltPair_base (a0 : State) (a1 : Nat) (a2 : Nat) :
    (State.haltPair a0 a1 a2).base = a0.base := by
  unfold State.haltPair
  simp

@[simp] theorem State_startEntry_base (a0 : State) (a1 : Nat) (a2 : List W32) :
    (State.startEntry a0 a1 a2).base = a0.base := by
  unfold State.startEntry
  simp

@[simp] theorem State_fetch_base (a0 : State) (a1 : HostFetch) :
    (State.fetch a0 a1).base = a0.base := by
  unfold State.fetch
  (repeat' split) <;> (simp; done)

@[simp] theorem State_remap_base (a0 : State) (a1 : List (Nat × CellarFrame)) :
    (State.remap a0 a1).base = a0.base := by
  unfold State.remap
  simp

@[simp] theorem State_govForce_base (a0 : State) :
    (State.govForce a0).base = a0.base := by
  unfold State.govForce
  simp

@[simp] theorem State_relocate_base (a0 : State) (a1 : Nat × CellarFrame) (a2 : Bool) :
    (State.relocate a0 a1 a2).base = a0.base := by
  unfold State.relocate
  (repeat' split) <;> (simp; done)

@[simp] theorem State_resumeNow_base (a0 : State) (a1 : Nat) :
    (State.resumeNow a0 a1).base = a0.base := by
  unfold State.resumeNow
  simp

@[simp] theorem State_deferred_base (a0 : State) (a1 : Nat) : (State.deferred a0 a1).base = a0.base := by
  unfold State.deferred; simp only []
  refine (base_foldl' _ _ _ fun s k => ?_).trans (base_foldl' _ _ _ fun s e => ?_)
  · split <;> simp
  · (repeat' split) <;> simp

@[simp] theorem State_closeCycle_base (a0 : State) (a1 : Nat) :
    (State.closeCycle a0 a1).base = a0.base := by
  unfold State.closeCycle
  simp

@[simp] theorem State_cutBulk_base (a0 : State) (a1 : Nat) :
    (State.cutBulk a0 a1).base = a0.base := by
  unfold State.cutBulk
  simp

@[simp] theorem State_runCycle_base (a0 : State) (a1 : Nat) (a2 : Bool) :
    (State.runCycle a0 a1 a2).base = a0.base := by
  unfold State.runCycle
  (repeat' split) <;> (simp; done)

@[simp] theorem State_startPrio_base (a0 : State) (a1 : Nat) (a2 : Wave) :
    (State.startPrio a0 a1 a2).base = a0.base := by
  unfold State.startPrio
  simp

@[simp] theorem State_preempt_base (a0 : State) (a1 : Nat) : (State.preempt a0 a1).base = a0.base := by
  have key (s : State) : (s.assembleClass a1 true).2.base = s.base := by simp
  unfold State.preempt; simp only []
  split
  · rfl
  · split
    · simp
    · split
      · rename_i hb; have := key (((((a0.assembleClass a1 true).2.cutBulk a1).replies a1 false).closeCycle a1)); rw [hb] at this; simpa using this
      · rename_i hb; have := key (((((a0.assembleClass a1 true).2.cutBulk a1).replies a1 false).closeCycle a1)); rw [hb] at this; simpa using this

@[simp] theorem State_eraseBlock_base (a0 : State) (a1 : Nat) (a2 : Nat) :
    (State.eraseBlock a0 a1 a2).base = a0.base := by
  unfold State.eraseBlock
  simp

@[simp] theorem State_writeBackNow_base (a0 : State) (a1 : Handle) : (State.writeBackNow a0 a1).base = a0.base := by
  unfold State.writeBackNow; simp only []
  split
  · rfl
  · split
    · rename_i hb; have := State_acceptFrame_base _ _ _ _ hb; simpa using this
    · simp

@[simp] theorem State_retain_base (a0 : State) (a1 : List (Nat × CellarFrame)) : (State.retain a0 a1).base = a0.base := by
  unfold State.retain
  refine base_foldl' _ _ _ fun s j => ?_
  split <;> simp

theorem State_meetPoison_base (a0 : State) (a1 : Cmd) :
    ∀ r, State.meetPoison a0 a1 = some r → r.base = a0.base := by
  unfold State.meetPoison
  try simp only []
  (repeat' split) <;> first | rfl | (simp; done) | (refine (base_foldl' _ _ _ ?_).trans ?_ <;> first | (simp; done) | (intro s x; (repeat' split) <;> (simp; done)))

@[simp] theorem State_setAdvance_base (a0 : State) (a1 : Nat) (a2 : Nat) (a3 : Handle) (a4 : Nat) :
    (State.setAdvance a0 a1 a2 a3 a4).base = a0.base := by
  unfold State.setAdvance
  simp

@[simp] theorem State_cutHistory_base (a0 : State) (a1 : Handle) (a2 : Nat) :
    (State.cutHistory a0 a1 a2).base = a0.base := by
  unfold State.cutHistory
  simp

@[simp] theorem State_trimTo_base (a0 : State) (a1 : Nat) (a2 : Nat) :
    (State.trimTo a0 a1 a2).base = a0.base := by
  unfold State.trimTo
  simp

@[simp] theorem State_makeChild_base (a0 : State) (a1 : Nat) (a2 : Nat) (a3 : Handle) (a4 : Handle) :
    (State.makeChild a0 a1 a2 a3 a4).base = a0.base := by
  unfold State.makeChild
  simp

@[simp] theorem State_armRefresh_base (a0 : State) (a1 : Nat) :
    (State.armRefresh a0 a1).base = a0.base := by
  unfold State.armRefresh
  simp

@[simp] theorem State_closeStepOf_base (a0 : State) (a1 : WaveRun) :
    (State.closeStepOf a0 a1).base = a0.base := by
  unfold State.closeStepOf
  (repeat' split) <;> (simp; done)

@[simp] theorem State_modRuns_base (a0 : State) (a1 : Cmd) (a2 : WaveRun → WaveRun) :
    (State.modRuns a0 a1 a2).base = a0.base := by
  unfold State.modRuns
  (repeat' split) <;> (simp; done)

@[simp] theorem State_closeRun_base (a0 : State) (a1 : Cmd) (a2 : WaveRun) :
    (State.closeRun a0 a1 a2).base = a0.base := by
  unfold State.closeRun
  (repeat' split) <;> (simp; done)

@[simp] theorem State_recovered_base (a0 : State) (a1 : Cmd) :
    (State.recovered a0 a1).base = a0.base := by
  unfold State.recovered
  simp

@[simp] theorem State_afterFork_base (a0 : State) (a1 : Nat) :
    (State.afterFork a0 a1).base = a0.base := by
  unfold State.afterFork
  simp

@[simp] theorem State_afterCommit_base (a0 : State) (a1 : Cmd) (a2 : Nat) :
    (State.afterCommit a0 a1 a2).base = a0.base := by
  unfold State.afterCommit
  (repeat' split) <;> (simp; done)

@[simp] theorem State_endStream_base (a0 : State) (a1 : Nat) (a2 : Option Nat) :
    (State.endStream a0 a1 a2).base = a0.base := by
  unfold State.endStream
  simp

@[simp] theorem State_incomingOf_base (a0 : State) (a1 : Parcel) :
    (State.incomingOf a0 a1).2.base = a0.base := by
  unfold State.incomingOf
  (repeat' split) <;> (simp; done)

@[simp] theorem State_askOrigin_base (a0 : State) (a1 : Query) :
    (State.askOrigin a0 a1).base = a0.base := by
  unfold State.askOrigin
  try simp only []
  (repeat' split) <;> first | rfl | (simp; done) | (refine (base_foldl' _ _ _ ?_).trans ?_ <;> first | (simp; done) | (intro s x; (repeat' split) <;> (simp; done)))

@[simp] theorem State_placeService_base (a0 : State) (a1 : Nat) (a2 : Nat) (a3 : Nat) (a4 : List Nat) :
    (State.placeService a0 a1 a2 a3 a4).base = a0.base := by
  unfold State.placeService
  simp

@[simp] theorem State_recoverChannel_base (a0 : State) (a1 : Nat) :
    (State.recoverChannel a0 a1).base = a0.base := by
  unfold State.recoverChannel
  simp

@[simp] theorem State_wakePorts_base (a0 : State) :
    (State.wakePorts a0).base = a0.base := by
  unfold State.wakePorts
  simp

@[simp] theorem State_endFetch_base (a0 : State) (a1 : Handle) :
    (State.endFetch a0 a1).base = a0.base := by
  unfold State.endFetch
  simp

@[simp] theorem State_makerService_base (a0 : State) :
    (State.makerService a0).base = a0.base := by
  unfold State.makerService
  simp

@[simp] theorem State_sendData_base (a0 : BitVec 20) (a1 : Nat) (a2 : Nat) (a3 : Nat) (a4 : List Byte) (a5 : State) :
    (State.sendData a0 a1 a2 a3 a4 a5).base = a5.base := by
  fun_induction State.sendData <;> first | (simp; done) | (simp_all; done)

theorem State_dmaSettle_base (s : State) (t : Started) (f : Nat → Nat → Channel → State)
    (h : ∀ a b c, (f a b c).base = s.base) : (s.dmaSettle t f).base = s.base := by
  unfold State.dmaSettle; simp only []; (repeat' split) <;> first | rfl | simp [h]

@[simp] theorem State_initPorts_base (a0 : State) :
    (State.initPorts a0).base = a0.base := by
  unfold State.initPorts
  simp

@[simp] theorem State_chooseSource_base (a0 : State) :
    (State.chooseSource a0).base = a0.base := by
  unfold State.chooseSource
  simp

@[simp] theorem State_modChannel_base (a0 : State) (a1 : Nat) (a2 : Nat) (a3 : Channel → Channel) :
    (State.modChannel a0 a1 a2 a3).base = a0.base := by
  unfold State.modChannel
  simp

@[simp] theorem State_haltAt_base (a0 : State) (a1 : Nat) (a2 : Nat) (a3 : Bool) (a4 : BitVec 4) (a5 : W64) :
    (State.haltAt a0 a1 a2 a3 a4 a5).base = a0.base := by
  unfold State.haltAt
  simp

theorem State_onMirror_base (s : State) (rq : Nat) (t : List Nat) (f : Parcel → State → State)
    (h : ∀ p s, (f p s).base = s.base) : (s.onMirror rq t f).base = s.base := by
  unfold State.onMirror; (repeat' split) <;> first | rfl | simp [h]

@[simp] theorem State_payIndex_base (a0 : State) :
    (State.payIndex a0).base = a0.base := by
  unfold State.payIndex
  simp

@[simp] theorem State_settleWeight_base (a0 : State) (a1 : Handle) (a2 : Nat) (a3 : Nat) :
    (State.settleWeight a0 a1 a2 a3).base = a0.base := by
  unfold State.settleWeight
  simp

@[simp] theorem State_nameWeight_base (a0 : State) (a1 : Nat) (a2 : Nat × Handle) :
    (State.nameWeight a0 a1 a2).base = a0.base := by
  unfold State.nameWeight
  simp

@[simp] theorem State_modCvu_base (a0 : State) (a1 : Nat) (a2 : Cvu → Cvu) :
    (State.modCvu a0 a1 a2).base = a0.base := by
  unfold State.modCvu
  simp

@[simp] theorem State_deliver_base (a0 : State) (a1 : Nat) (a2 : Parcel) (a3 : Nat) (a4 : BitVec 8) :
    (State.deliver a0 a1 a2 a3 a4).base = a0.base := by
  unfold State.deliver
  simp

@[simp] theorem State_acceptParcel_base (a0 : State) (a1 : Nat) (a2 : Parcel) :
    (State.acceptParcel a0 a1 a2).base = a0.base := by
  unfold State.acceptParcel
  simp

@[simp] theorem State_landPromotion_base (a0 : State) (a1 : Handle) :
    (State.landPromotion a0 a1).base = a0.base := by
  unfold State.landPromotion
  try simp only []
  (repeat' split) <;> first | rfl | (simp; done) | (refine (base_foldl' _ _ _ ?_).trans ?_ <;> first | (simp; done) | (intro s x; (repeat' split) <;> (simp; done)))

@[simp] theorem State_resend_base (a0 : State) (a1 : BitVec 20) (a2 : BitVec 8) :
    (State.resend a0 a1 a2).base = a0.base := by
  unfold State.resend
  (repeat' split) <;> (simp; done)

@[simp] theorem State_emitLink_base (a0 : State) (a1 : Nat) (a2 : Parcel) :
    (State.emitLink a0 a1 a2).base = a0.base := by
  unfold State.emitLink
  simp

@[simp] theorem State_modMove_base (a0 : State) (a1 : Handle) (a2 : Move → Move) :
    (State.modMove a0 a1 a2).base = a0.base := by
  unfold State.modMove
  simp

@[simp] theorem State_queueFork_base (a0 : State) (a1 : Nat) :
    (State.queueFork a0 a1).base = a0.base := by
  unfold State.queueFork
  simp

@[simp] theorem State_weightCopy_base (a0 : State) (a1 : Handle) (a2 : Bytes) :
    (State.weightCopy a0 a1 a2).base = a0.base := by
  unfold State.weightCopy; simp only []
  split
  · simp
  · rename_i hb
    split at hb
    · simp at hb; obtain ⟨rfl, rfl⟩ := hb; split <;> simp
    · have := State_demandFrame_base _ _ _ hb; split <;> simpa using this

@[simp] theorem State_continueReq_base (a0 : State) (a1 : Nat) : (State.continueReq a0 a1).base = a0.base := by
  unfold State.continueReq
  refine State_ifLive_base _ _ _ fun i => ?_
  first | (simp; done) | (split <;> simp)

theorem State_onReq_base (s : State) (a b c : Nat) (f : Nat → State) (h : ∀ i, (f i).base = s.base) :
    (s.onReq a b c f).base = s.base := by
  unfold State.onReq; simp only []; (repeat' split) <;> first | rfl | exact h _ | simp

@[simp] theorem State_checkMin_base (a0 : State) :
    (State.checkMin a0).base = a0.base := by
  unfold State.checkMin
  simp

@[simp] theorem State_endPasses_base (a0 : State) (a1 : Cmd) :
    (State.endPasses a0 a1).base = a0.base := by
  unfold State.endPasses
  simp

theorem State_placeWeight_base (a0 : State) (a1 : Nat) (a2 : FrameDesc) (a3 : Bytes) :
    ∀ r, State.placeWeight a0 a1 a2 a3 = some r → r.2.base = a0.base := by
  intro r h; unfold State.placeWeight at h; simp only [] at h
  split at h
  · rename_i hb; have := State_demandFrame_base _ _ _ hb; simp at h; subst h; simpa using this
  · split at h
    · simp at h
    · split at h
      · rename_i hb; have := State_acceptAs_base _ _ _ _ _ hb; simp at h; subst h; simpa using this
      · simp at h

@[simp] theorem State_failSession_base (a0 : State) (a1 : Nat) (a2 : Nat) (a3 : Nat) (a4 : Nat) :
    (State.failSession a0 a1 a2 a3 a4).base = a0.base := by
  unfold State.failSession
  simp

@[simp] theorem State_restorePort_base (a0 : State) (a1 : Nat) (a2 : PortRead) :
    (State.restorePort a0 a1 a2).base = a0.base := by
  unfold State.restorePort
  simp

@[simp] theorem State_restorePorts_base (a0 : State) (a1 : List Nat) (a2 : List PortRead) :
    (State.restorePorts a0 a1 a2).base = a0.base := by
  unfold State.restorePorts
  refine base_foldl' _ _ _ fun s j => ?_
  split <;> simp

@[simp] theorem State_throttled_base (a0 : State) (a1 : Bool) (a2 : Code) (a3 : Nat) :
    (State.throttled a0 a1 a2 a3).base = a0.base := by
  unfold State.throttled
  simp

@[simp] theorem State_selectSlot_base (a0 : State) :
    (State.selectSlot a0).base = a0.base := by
  unfold State.selectSlot
  try simp only []
  (repeat' split) <;> first | rfl | (simp; done) | (refine (base_foldl' _ _ _ ?_).trans ?_ <;> first | (simp; done) | (intro s x; (repeat' split) <;> (simp; done)))

@[simp] theorem State_logBoard_base (a0 : State) :
    (State.logBoard a0).base = a0.base := by
  unfold State.logBoard
  simp

@[simp] theorem State_startPorts_base (a0 : State) (a1 : Bool) (a2 : List PortRead) :
    (State.startPorts a0 a1 a2).base = a0.base := by
  unfold State.startPorts
  simp

theorem State_onParcel_base (s : State) (rq : Nat) (t : BitVec 4) (f : Parcel → State → State)
    (h : ∀ p s, (f p s).base = s.base) : (s.onParcel rq t f).base = s.base := by
  unfold State.onParcel; (repeat' split) <;> first | rfl | simp [h]

@[simp] theorem State_consumed_base (a0 : State) (a1 : Nat) (a2 : Nat) :
    (State.consumed a0 a1 a2).base = a0.base := by
  unfold State.consumed
  simp

@[simp] theorem State_knowPartner_base (a0 : State) (a1 : Nat) (a2 : List W32) :
    (State.knowPartner a0 a1 a2).base = a0.base := by
  simp [State.knowPartner]

@[simp] theorem State_sendOffers_base (a0 : State) (a1 : Nat) :
    (State.sendOffers a0 a1).base = a0.base := by
  unfold State.sendOffers
  exact base_foldl' _ _ _ fun s l => by simp

@[simp] theorem State_portUp_base (a0 : State) (a1 : Nat) (a2 : List W32) :
    (State.portUp a0 a1 a2).base = a0.base := by
  unfold State.portUp
  simp

@[simp] theorem State_takeHello_base (a0 : State) (a1 : Nat) (a2 : List W32) :
    (State.takeHello a0 a1 a2).base = a0.base := by
  unfold State.takeHello
  simp

@[simp] theorem State_negotiateFrom2_base (a0 : State) (a1 : Nat) (a2 : NegIn) :
    (State.negotiateFrom2 a0 a1 a2).base = a0.base := by
  unfold State.negotiateFrom2
  simp

@[simp] theorem State_retrySets_base (a0 : State) (a1 : Nat → Bool) :
    (State.retrySets a0 a1).base = a0.base := by
  unfold State.retrySets
  simp

theorem State_loadChannels_base (a0 : Nat) (a1 : List (List W32)) (a2 : State) :
    ∀ r, State.loadChannels a0 a1 a2 = some r → r.base = a2.base := by
  induction a1 generalizing a0 a2 with
  | nil => intro r h; simp [State.loadChannels] at h; subst h; rfl
  | cons e t ih =>
    intro r h; unfold State.loadChannels at h
    split at h
    · rename_i hb; exact (ih _ _ _ h).trans (State_loadChannel_base _ _ _ _ hb)
    · simp at h

@[simp] theorem State_endWriteBack_base (a0 : State) (a1 : Handle) (a2 : Move) (a3 : Nat) :
    (State.endWriteBack a0 a1 a2 a3).base = a0.base := by
  unfold State.endWriteBack; simp only []
  split <;> split <;> simp

@[simp] theorem State_failMirror_base (a0 : State) (a1 : Nat) :
    (State.failMirror a0 a1).base = a0.base := by
  unfold State.failMirror
  simp

@[simp] theorem State_deferReq_base (a0 : State) (a1 : Nat) (a2 : Nat) :
    (State.deferReq a0 a1 a2).base = a0.base := by
  unfold State.deferReq
  try simp only []
  (repeat' split) <;> first | rfl | (simp; done) | (refine (base_foldl' _ _ _ ?_).trans ?_ <;> first | (simp; done) | (intro s x; (repeat' split) <;> (simp; done)))

@[simp] theorem State_pauseReq_base (a0 : State) (a1 : Nat) : (State.pauseReq a0 a1).base = a0.base := by
  unfold State.pauseReq
  refine State_ifLive_base _ _ _ fun i => ?_
  first | (simp; done) | (split <;> simp)

@[simp] theorem State_issueRecv_base (s : State) (id : Nat) (f : List W32 → Bool) (w : State → Cmd → Res → Work) :
    (s.issueRecv id f w).base = s.base := by
  unfold State.issueRecv; (repeat' split) <;> simp

@[simp] theorem State_l1_base (a0 : State) :
    (State.l1 a0).base = a0.base := by
  unfold State.l1
  simp

@[simp] theorem State_mirrorErrata_base (a0 : State) : (State.mirrorErrata a0).base = a0.base := by
  unfold State.mirrorErrata; simp only []
  split
  · rfl
  · split
    · rfl
    · split
      · rename_i hb; have := State_putMirror_base _ _ _ _ _ _ _ _ _ _ hb; simpa using this
      · rfl

theorem State_rebuildLeaf_base (a0 : State) (a1 : BitVec 20) (a2 a3 a4 a5 a6 : Nat)
    (a7 : State → Nat → Option (Handle × State)) (h7 : ∀ s n r, a7 s n = some r → r.2.base = s.base) :
    ∀ r, State.rebuildLeaf a0 a1 a2 a3 a4 a5 a6 a7 = some r → r.2.base = a0.base := by
  intro r h; unfold State.rebuildLeaf at h
  split at h
  · simp at h
  · rename_i hb; have := State_takeSingle_base _ _ _ _ hb
    simp only [Option.some.injEq] at h; subst h
    refine (base_foldl' _ _ _ fun s x => ?_).trans (by simpa using this)
    split
    · rename_i hc; have := h7 _ _ _ hc; simpa using this
    · rfl

theorem State_rebuildSpine_base (a0 : BitVec 20) (a1 : Nat) (a2 : State) (a3 : Nat) :
    ∀ r, State.rebuildSpine a0 a1 a2 a3 = some r → r.2.base = a2.base := by
  intro r h; unfold State.rebuildSpine at h
  split at h
  · simp at h
  · rename_i hb; have := State_takeSingle_base _ _ _ _ hb
    simp only [Option.some.injEq] at h; subst h
    refine (base_foldl' _ _ _ fun s x => ?_).trans (by simpa using this)
    split
    · rename_i hc; have := State_nameMapped_base _ _ _ _ hc; simpa using this
    · rfl

@[simp] theorem State_restore_base (a0 : State) (a1 : Manifest) : (State.restore a0 a1).base = a0.base := by
  unfold State.restore; simp only []
  split
  · simp
  · split
    · split
      · simp
      · split
        · simp
        · split
          · simp
          · rename_i hb
            have h1 := State_rebuildLeaf_base _ _ _ _ _ _ _ _ (fun s n r h => State_nameMapped_base _ _ _ _ h) _ hb
            split
            · simp
            · rename_i hc
              have h2 := State_rebuildLeaf_base _ _ _ _ _ _ _ _ (fun s n r h => State_rebuildSpine_base _ _ _ _ _ h) _ hc
              simpa using h2.trans h1
    · simp

@[simp] theorem State_loseOwner_base (a0 : State) (a1 : BitVec 20) :
    (State.loseOwner a0 a1).base = a0.base := by
  unfold State.loseOwner
  simp

theorem State_placeWeights_base (a0 : Nat) (a1 : Nat → FrameDesc) (a2 a3 : List Byte) (a4 a5 : Nat) (a6 : State) :
    ∀ r, State.placeWeights a0 a1 a2 a3 a4 a5 a6 = some r → r.2.base = a6.base := by
  induction a4 generalizing a5 a6 with
  | zero => intro r h; simp [State.placeWeights] at h; subst h; rfl
  | succ n ih =>
    intro r h; unfold State.placeWeights at h
    split at h
    · rename_i hb
      simp only [Option.map_eq_some_iff] at h
      obtain ⟨x, hx, rfl⟩ := h
      exact (ih _ _ _ hx).trans (State_placeWeight_base _ _ _ _ _ hb)
    · simp at h

@[simp] theorem State_publish_base (a0 : State) (a1 : Nat) :
    (State.publish a0 a1).base = a0.base := by
  unfold State.publish
  simp

@[simp] theorem State_idle_base (a0 : State) :
    (State.idle a0).base = a0.base := by
  unfold State.idle
  simp

@[simp] theorem State_boardLog_base (a0 : State) (a1 : Nat) (a2 : Nat) :
    (State.boardLog a0 a1 a2).base = a0.base := by
  unfold State.boardLog
  simp

@[simp] theorem State_startCycle_base (a0 : Nat) (a1 : Nat) (a2 : State) : (State.startCycle a0 a1 a2).base = a2.base := by
  induction a0 generalizing a2 with
  | zero => rfl
  | succ n ih =>
    unfold State.startCycle; simp only []
    split
    · split <;> simp [ih]
    · generalize ht : (if (a2.part a1).bulkFirst = true then (none, a2) else a2.assembleClass a1 true) = t
      have hb : t.2.base = a2.base := by subst ht; split <;> simp
      split
      · simpa using hb
      · split
        · split <;> simp [ih, hb]
        · split <;> simp [ih, hb]

@[simp] theorem State_endReqStream_base (a0 : State) (a1 : Nat) : (State.endReqStream a0 a1).base = a0.base := by
  unfold State.endReqStream
  refine State_ifLive_base _ _ _ fun i => ?_
  first | (simp; done) | (split <;> simp)

@[simp] theorem State_wakeEvent_base (a0 : State) :
    (State.wakeEvent a0).base = a0.base := by
  unfold State.wakeEvent
  simp

@[simp] theorem State_retireDie_base (a0 : State) (a1 : Nat) :
    (State.retireDie a0 a1).base = a0.base := by
  unfold State.retireDie
  simp

@[simp] theorem State_admitMove_base (a0 : State) (a1 : Handle) (a2 : Move) :
    (State.admitMove a0 a1 a2).base = a0.base := by
  unfold State.admitMove
  simp

@[simp] theorem State_enableQueue_base (a0 : State) (a1 : Nat) (a2 : W32) :
    (State.enableQueue a0 a1 a2).base = a0.base := by
  unfold State.enableQueue
  simp

@[simp] theorem State_dormantRegs_base (a0 : State) :
    (State.dormantRegs a0).base = a0.base := by
  unfold State.dormantRegs
  simp

@[simp] theorem State_setResident_base (a0 : State) :
    (State.setResident a0).base = a0.base := by
  unfold State.setResident
  simp

@[simp] theorem State_caskBack_base (a0 : State) :
    (State.caskBack a0).base = a0.base := by
  unfold State.caskBack
  simp

@[simp] theorem State_pinFault_base (a0 : State) (a1 : Nat) (a2 : Nat) :
    (State.pinFault a0 a1 a2).base = a0.base := by
  unfold State.pinFault
  simp

@[simp] theorem State_resumeReq_base (a0 : State) (a1 : Nat) : (State.resumeReq a0 a1).base = a0.base := by
  unfold State.resumeReq
  refine State_ifLive_base _ _ _ fun i => ?_
  first | (simp; done) | (split <;> simp)

@[simp] theorem State_drainTx_base (a0 : State) (a1 : Nat) :
    (State.drainTx a0 a1).base = a0.base := by
  unfold State.drainTx
  exact (base_foldl' _ _ _ fun s w => by simp).trans (by simp)

@[simp] theorem State_fallBehind_base (a0 : State) (a1 : Nat) (a2 : Code) (a3 : Nat) (a4 : BitVec 23) :
    (State.fallBehind a0 a1 a2 a3 a4).base = a0.base := by
  unfold State.fallBehind
  simp

@[simp] theorem State_ageQueries_base (a0 : State) :
    (State.ageQueries a0).base = a0.base := by
  unfold State.ageQueries
  simp

end Sys2Proof.Machine
end

