-- ==== Sys2Proof/Laws/Bytes.lean ====
section
/-! SUPPORT. The byte stores: every operation keeps the canonical form, and reads after writes. -/

namespace Sys2Proof.Machine

/-- Keys strictly rising. -/
def Rising {α : Type} (l : List (Nat × α)) : Prop := l.Pairwise fun a b => a.1 < b.1

theorem Rising.filter {α : Type} {l : List (Nat × α)} (h : Rising l) (p : Nat × α → Bool) : Rising (l.filter p) :=
  List.Pairwise.filter p h

theorem rising_append {α : Type} {l m : List (Nat × α)} (hl : Rising l) (hm : Rising m)
    (h : ∀ a ∈ l, ∀ b ∈ m, a.1 < b.1) : Rising (l ++ m) := List.pairwise_append.2 ⟨hl, hm, h⟩

/-- A byte left out of the list reads as the unlisted one. -/
theorem Form.skips_eq {f : Form} {a : Nat} {b : Byte} (h : f.skips a b = true) : b = f.dflt a := by
  cases f <;> simp_all [Form.skips, Form.dflt]

theorem cellRun_mem {f : Form} {a : Nat} {bs : List Byte} {c : Host.Cell} (h : c ∈ cellRun f a bs) :
    a ≤ c.1 ∧ c.1 < a + bs.length ∧ f.skips c.1 c.2 = false := by
  induction bs generalizing a with
  | nil => simp [cellRun] at h
  | cons b t ih =>
    unfold cellRun at h
    split at h
    · have := ih h; exact ⟨by omega, by simp only [List.length_cons]; omega, this.2.2⟩
    · rename_i hb
      rcases List.mem_cons.1 h with rfl | h
      · simp [hb]
      · have := ih h; exact ⟨by omega, by simp only [List.length_cons]; omega, this.2.2⟩

theorem cellRun_rising (f : Form) (a : Nat) (bs : List Byte) : Rising (cellRun f a bs) := by
  induction bs generalizing a with
  | nil => exact List.Pairwise.nil
  | cons b t ih =>
    unfold cellRun
    split
    · exact ih _
    · exact List.Pairwise.cons (fun c h => (cellRun_mem h).1) (ih _)

theorem cellPut_rising (f : Form) {cells : List Host.Cell} (h : Rising cells) (a : Nat) (bs : List Byte) :
    Rising (cellPut f cells a bs) := by
  unfold cellPut
  refine rising_append (rising_append (h.filter _) (cellRun_rising _ _ _) ?_) (h.filter _) ?_
  · intro x hx y hy
    have := (cellRun_mem hy).1; simp at hx; omega
  · intro x hx y hy
    simp at hy
    rcases List.mem_append.1 hx with hx | hx
    · simp at hx; omega
    · have := (cellRun_mem hx).2.1; omega

theorem cellPut_listed (f : Form) {cells : List Host.Cell} (h : ∀ c ∈ cells, f.skips c.1 c.2 = false) (a : Nat)
    (bs : List Byte) : ∀ c ∈ cellPut f cells a bs, f.skips c.1 c.2 = false := by
  intro c hc
  unfold cellPut at hc
  rcases List.mem_append.1 hc with hc | hc
  · rcases List.mem_append.1 hc with hc | hc
    · exact h c (List.mem_filter.1 hc).1
    · exact (cellRun_mem hc).2.2
  · exact h c (List.mem_filter.1 hc).1

theorem alSet_rising {α : Type} [DecidableEq α] (d : α) (k : Nat) (v : α) {l : List (Nat × α)} (h : Rising l) :
    Rising (alSet d k v l) := by
  unfold alSet
  have hm : Rising (if v = d then [] else [(k, v)]) := by split <;> simp [Rising]
  refine rising_append (rising_append (h.filter _) hm ?_) (h.filter _) ?_
  · intro x hx y hy
    simp at hx
    split at hy <;> simp at hy
    subst hy; exact hx.2
  · intro x hx y hy
    simp at hy
    rcases List.mem_append.1 hx with hx | hx
    · simp at hx; omega
    · split at hx <;> simp at hx
      subst hx; exact hy.2

theorem alSet_listed {α : Type} [DecidableEq α] (d : α) (k : Nat) (v : α) {l : List (Nat × α)} (h : ∀ e ∈ l, e.2 ≠ d) :
    ∀ e ∈ alSet d k v l, e.2 ≠ d := by
  intro e he
  unfold alSet at he
  rcases List.mem_append.1 he with he | he
  · rcases List.mem_append.1 he with he | he
    · exact h e (List.mem_filter.1 he).1
    · split at he <;> simp at he
      subst he; assumption
  · exact h e (List.mem_filter.1 he).1

/-- The canonical form as a proposition. -/
theorem Bytes.wf_iff (m : Bytes) : m.wf = true ↔
    Rising m.cells ∧ (∀ c ∈ m.cells, m.form.skips c.1 c.2 = false) ∧ Rising m.tags ∧
      (∀ t ∈ m.tags, m.form.skipsTag t.2 = false) ∧ m.poison.Pairwise (· < ·) := by
  simp [Bytes.wf, Rising, and_assoc]

theorem Bytes.empty_wf (f : Form) : (Bytes.empty f).wf = true := by simp [Bytes.empty, Bytes.wf]

theorem Bytes.blank_wf : Bytes.blank.wf = true := by decide

theorem Bytes.patch_wf {m : Bytes} (h : m.wf = true) (a : Nat) (bs : List Byte) : (m.patch a bs).wf = true := by
  rw [Bytes.wf_iff] at *
  exact ⟨cellPut_rising _ h.1 _ _, cellPut_listed _ h.2.1 _ _, h.2.2⟩

theorem Bytes.write_wf {m : Bytes} (h : m.wf = true) (a : Nat) (bs : List Byte) : (m.write a bs).wf = true := by
  rw [Bytes.wf_iff] at *
  exact ⟨cellPut_rising _ h.1 _ _, cellPut_listed _ h.2.1 _ _, h.2.2.1, h.2.2.2.1, h.2.2.2.2.filter _⟩

theorem Bytes.putWord_wf {m : Bytes} (h : m.wf = true) (a v : Nat) : (m.putWord a v).wf = true := Bytes.patch_wf h _ _

theorem Bytes.setTag_wf {m : Bytes} (h : m.wf = true) (k : Nat) (t : BitVec 4) : (m.setTag k t).wf = true := by
  rw [Bytes.wf_iff] at *
  refine ⟨h.1, h.2.1, ?_, ?_, h.2.2.2.2⟩
  · have hm : Rising (if m.form.skipsTag t then [] else [(k, t)]) := by split <;> simp [Rising]
    refine rising_append (rising_append (h.2.2.1.filter _) hm ?_) (h.2.2.1.filter _) ?_
    · intro x hx y hy
      simp at hx
      split at hy <;> simp at hy
      subst hy; exact hx.2
    · intro x hx y hy
      simp at hy
      rcases List.mem_append.1 hx with hx | hx
      · simp at hx; omega
      · split at hx <;> simp at hx
        subst hx; exact hy.2
  · intro e he
    rcases List.mem_append.1 he with he | he
    · rcases List.mem_append.1 he with he | he
      · exact h.2.2.2.1 e (List.mem_filter.1 he).1
      · split at he <;> simp at he
        subst he
        rename_i hb _
        exact Bool.eq_false_iff.2 hb
    · exact h.2.2.2.1 e (List.mem_filter.1 he).1

theorem Bytes.cleanse_wf {m : Bytes} (h : m.wf = true) (p : Nat → Bool) :
    ({ m with poison := m.poison.filter p } : Bytes).wf = true := by
  rw [Bytes.wf_iff] at *
  exact ⟨h.1, h.2.1, h.2.2.1, h.2.2.2.1, h.2.2.2.2.filter _⟩

theorem Bytes.mark_wf {m : Bytes} (h : m.wf = true) (k : Nat) (bad : Bool) : (m.mark k bad).wf = true := by
  rw [Bytes.wf_iff] at *
  refine ⟨h.1, h.2.1, h.2.2.1, h.2.2.2.1, ?_⟩
  have lo (i : Nat) (hi : i ∈ m.poison.filter fun i => decide (i < k)) : i < k := by simpa using (List.mem_filter.1 hi).2
  have hi' (i : Nat) (hi : i ∈ m.poison.filter fun i => decide (k < i)) : k < i := by simpa using (List.mem_filter.1 hi).2
  have mid (i : Nat) (hi : i ∈ if bad then [k] else []) : i = k := by split at hi <;> simp at hi; exact hi
  refine List.pairwise_append.2 ⟨List.pairwise_append.2 ⟨h.2.2.2.2.filter _, by split <;> simp, fun a ha b hb => ?_⟩,
    h.2.2.2.2.filter _, fun a ha b hb => ?_⟩
  · rw [mid b hb]; exact lo a ha
  · have := hi' b hb
    rcases List.mem_append.1 ha with ha | ha
    · exact Nat.lt_trans (lo a ha) this
    · rw [mid a ha]; exact this

theorem Bytes.putMeta_wf {m : Bytes} (h : m.wf = true) (k : Nat) (t : BitVec 4) (bad : Bool) : (m.putMeta k t bad).wf = true :=
  Bytes.mark_wf (Bytes.setTag_wf h _ _) _ _

theorem Bytes.putBlk_wf {m : Bytes} (h : m.wf = true) (a : Nat) (b : Blk) : (m.putBlk a b).wf = true := by
  exact Bytes.mark_wf (Bytes.setTag_wf (Bytes.write_wf h _ _) _ _) _ _

theorem Bytes.copyBlock_wf {d : Bytes} (h : d.wf = true) (src : Bytes) (a b : Nat) : (src.copyBlock a d b).wf = true := by
  exact Bytes.mark_wf (Bytes.setTag_wf (Bytes.write_wf h _ _) _ _) _ _

theorem moveWindows_mem {α : Type} {l : List (Nat × α)} {w base : Nat} {src : Nat → Option Nat} {e : Nat × α}
    (h : e ∈ moveWindows l w base src) : ∃ x ∈ l, x.2 = e.2 := by
  unfold moveWindows at h
  simp only [] at h
  rcases List.mem_append.1 h with h | h
  · rcases List.mem_append.1 h with h | h
    · exact ⟨e, (List.mem_filter.1 h).1, rfl⟩
    · obtain ⟨k, -, h⟩ := List.mem_flatMap.1 h
      split at h
      · obtain ⟨x, hx, rfl⟩ := List.mem_map.1 h
        exact ⟨x, (List.mem_filter.1 hx).1, rfl⟩
      · simp at h
  · exact ⟨e, (List.mem_filter.1 h).1, rfl⟩

theorem rising_flatMap {α : Type} (n : Nat) (f : Nat → List (Nat × α)) (w base : Nat) (hf : ∀ k, Rising (f k))
    (hr : ∀ k, ∀ e ∈ f k, base + k * w ≤ e.1 ∧ e.1 < base + (k + 1) * w) : Rising ((List.range n).flatMap f) := by
  induction n with
  | zero => exact List.Pairwise.nil
  | succ n ih =>
    rw [List.range_succ, List.flatMap_append]
    refine rising_append ih (by simpa using hf n) ?_
    intro a ha b hb
    obtain ⟨k, hk, ha⟩ := List.mem_flatMap.1 ha
    have hb : b ∈ f n := by simpa using hb
    have h1 := (hr k a ha).2
    have h2 := (hr n b hb).1
    have h3 : (k + 1) * w ≤ n * w := Nat.mul_le_mul_right w (List.mem_range.1 hk)
    omega

theorem moveWindows_rising {α : Type} {l : List (Nat × α)} (h : Rising l) (w base : Nat) (src : Nat → Option Nat) :
    Rising (moveWindows l w base src) := by
  have inner : ∀ k, ∀ e : Nat × α, e ∈ (match src k with
      | some j => (l.filter fun (e : Nat × α) => decide (base + j * w ≤ e.1) && decide (e.1 < base + (j + 1) * w)).map fun (e : Nat × α) =>
          (e.1 - (base + j * w) + (base + k * w), e.2)
      | none => ([] : List (Nat × α))) → base + k * w ≤ e.1 ∧ e.1 < base + (k + 1) * w := by
    intro k e he
    split at he
    · rename_i j _
      obtain ⟨x, hx, rfl⟩ := List.mem_map.1 he
      have := (List.mem_filter.1 hx).2
      simp at this
      have e1 : (j + 1) * w = j * w + w := Nat.succ_mul j w
      have e2 : (k + 1) * w = k * w + w := Nat.succ_mul k w
      simp only []
      omega
    · simp at he
  unfold moveWindows
  simp only []
  refine rising_append (rising_append (h.filter _) (rising_flatMap 16 _ w base ?_ inner) ?_) (h.filter _) ?_
  · intro k
    split
    · rename_i j _
      unfold Rising
      rw [List.pairwise_map]
      refine List.Pairwise.imp_of_mem ?_ (h.filter _)
      intro a b ha hb hab
      have ha := (List.mem_filter.1 ha).2
      simp at ha
      simp only []
      omega
    · exact List.Pairwise.nil
  · intro a ha b hb
    obtain ⟨k, -, hb⟩ := List.mem_flatMap.1 hb
    have := (inner k b hb).1
    have := (List.mem_filter.1 ha).2
    simp at this
    omega
  · intro a ha b hb
    have hb := (List.mem_filter.1 hb).2
    simp at hb
    rcases List.mem_append.1 ha with ha | ha
    · have := (List.mem_filter.1 ha).2
      simp at this; omega
    · obtain ⟨k, hk, ha⟩ := List.mem_flatMap.1 ha
      have h1 := (inner k a ha).2
      have h3 : (k + 1) * w ≤ 16 * w := Nat.mul_le_mul_right w (List.mem_range.1 hk)
      omega

theorem Bytes.moveCores_wf {m : Bytes} (hp : m.form = .plain) (h : m.wf = true) (sec : Nat) (src : Nat → Option Nat) :
    (m.moveCores sec src).wf = true := by
  rw [Bytes.wf_iff] at *
  refine ⟨moveWindows_rising h.1 _ _ _, ?_, moveWindows_rising h.2.2.1 _ _ _, ?_, ?_⟩
  · intro c hc
    obtain ⟨x, hx, e⟩ := moveWindows_mem hc
    have := h.2.1 x hx
    simp [Bytes.moveCores, hp, Form.skips] at *
    rw [← e]; exact this
  · intro c hc
    obtain ⟨x, hx, e⟩ := moveWindows_mem hc
    have := h.2.2.2.1 x hx
    simp [Bytes.moveCores, hp, Form.skipsTag] at *
    rw [← e]; exact this
  · have hr : Rising (m.poison.map fun n => (n, ())) := List.pairwise_map.2 h.2.2.2.2
    exact List.pairwise_map.2 (moveWindows_rising hr _ _ _)


theorem find_filter_ne {cells : List Host.Cell} {p : Host.Cell → Bool} {x : Nat} (h : ∀ c : Host.Cell, c.1 = x → p c = false) :
    (cells.filter p).find? (fun c => c.1 == x) = none := by
  rw [List.find?_eq_none]
  intro c hc
  have := (List.mem_filter.1 hc).2
  intro e; simp at e; rw [h c e] at this; simp at this

theorem find_filter_eq {cells : List Host.Cell} {p : Host.Cell → Bool} {x : Nat} (h : ∀ c : Host.Cell, c.1 = x → p c = true) :
    (cells.filter p).find? (fun c => c.1 == x) = cells.find? fun c => c.1 == x := by
  induction cells with
  | nil => rfl
  | cons c t ih =>
    by_cases e : c.1 = x
    · simp [h c e, e]
    · by_cases q : p c = true
      · simp [q, e, ih]
      · simp [q, e, ih]

/-- A read of one byte of a run of cells: the byte written, where the run covers it. -/
theorem cellRun_find (f : Form) (a : Nat) (bs : List Byte) (x : Nat) :
    (match (cellRun f a bs).find? (fun c => c.1 == x) with
     | some c => c.2
     | none => f.dflt x) = if a ≤ x ∧ x < a + bs.length then bs.getD (x - a) 0 else f.dflt x := by
  induction bs generalizing a with
  | nil =>
    rw [if_neg (by simp)]; rfl
  | cons b t ih =>
    unfold cellRun
    by_cases e : a = x
    · subst e
      have hn : (cellRun f (a + 1) t).find? (fun c => c.1 == a) = none := by
        rw [List.find?_eq_none]
        intro c hc
        have := (cellRun_mem hc).1
        simp; omega
      by_cases hb : f.skips a b = true
      · rw [if_pos hb, hn]; simp [Form.skips_eq hb]
      · rw [if_neg hb]; simp
    · have key : (if a + 1 ≤ x ∧ x < a + 1 + t.length then t.getD (x - (a + 1)) 0 else f.dflt x) =
          if a ≤ x ∧ x < a + (b :: t).length then (b :: t).getD (x - a) 0 else f.dflt x := by
        by_cases h : a + 1 ≤ x ∧ x < a + 1 + t.length
        · rw [if_pos h, if_pos (by simp only [List.length_cons]; omega)]
          have : x - a = (x - (a + 1)) + 1 := by omega
          rw [this]; rfl
        · rw [if_neg h, if_neg (by simp only [List.length_cons]; omega)]
      by_cases hb : f.skips a b = true
      · rw [if_pos hb, ih, key]
      · rw [if_neg hb, List.find?_cons_of_neg (by simpa using e), ih, key]

/-- A read of one byte after a write. -/
theorem cellGet_put (f : Form) (cells : List Host.Cell) (a : Nat) (bs : List Byte) (x : Nat) :
    cellGet f (cellPut f cells a bs) x = if a ≤ x ∧ x < a + bs.length then bs.getD (x - a) 0 else cellGet f cells x := by
  unfold cellGet cellPut
  rw [List.find?_append, List.find?_append]
  by_cases h : a ≤ x ∧ x < a + bs.length
  · rw [find_filter_ne (p := fun c => decide (c.1 < a)) (by intro c e; simp; omega),
      find_filter_ne (p := fun c => decide (a + bs.length ≤ c.1)) (by intro c e; simp; omega)]
    have := cellRun_find f a bs x
    rw [if_pos h] at this ⊢
    simp only [Option.none_or, Option.or_none]
    exact this
  · have hr : (cellRun f a bs).find? (fun c => c.1 == x) = none := by
      rw [List.find?_eq_none]
      intro c hc
      have := cellRun_mem hc
      simp; omega
    rw [hr, if_neg h]
    by_cases l : x < a
    · rw [find_filter_eq (p := fun c => decide (c.1 < a)) (by intro c e; simp; omega),
        find_filter_ne (p := fun c => decide (a + bs.length ≤ c.1)) (by intro c e; simp; omega)]
      simp
    · rw [find_filter_ne (p := fun c => decide (c.1 < a)) (by intro c e; simp; omega),
        find_filter_eq (p := fun c => decide (a + bs.length ≤ c.1)) (by intro c e; simp; omega)]
      simp

/-- Every byte of a store after a write. -/
theorem Bytes.get_write (m : Bytes) (a : Nat) (bs : List Byte) (x : Nat) :
    (m.write a bs).get x = if a ≤ x ∧ x < a + bs.length then bs.getD (x - a) 0 else m.get x := cellGet_put _ _ _ _ _

/-- Every byte of a store after a patch. -/
theorem Bytes.get_patch (m : Bytes) (a : Nat) (bs : List Byte) (x : Nat) :
    (m.patch a bs).get x = if a ≤ x ∧ x < a + bs.length then bs.getD (x - a) 0 else m.get x := cellGet_put _ _ _ _ _

end Sys2Proof.Machine
end

