-- ==== Sys2Proof/Laws/Kept.lean ====
section
/-! SUPPORT. What every operation keeps: the queue of commands; the version counter, which never falls; and the canonical
form of the addressed memories. -/

namespace Sys2Proof.Machine

/-- The six views that base gives. -/
abbrev Base := List Instr × Nor × Bytes × Bytes × Bytes × Bytes

/-- The addressed memories of a view are canonical. -/
def Base.wf (b : Base) : Prop :=
  b.2.2.1.form = .plain ∧ b.2.2.1.wf = true ∧ b.2.2.2.1.wf = true ∧ b.2.2.2.2.1.wf = true ∧ b.2.2.2.2.2.wf = true

/-- From a to b the queue stays, the version counter does not fall, and the addressed memories stay canonical. -/
def KeptV (a b : Base) : Prop :=
  b.1 = a.1 ∧ a.2.1.versionCounter.toNat ≤ b.2.1.versionCounter.toNat ∧ (Base.wf a → Base.wf b)

theorem KeptV.refl (a : Base) : KeptV a a := ⟨rfl, Nat.le_refl _, id⟩

theorem KeptV.trans {a b c : Base} (h : KeptV a b) (k : KeptV b c) : KeptV a c :=
  ⟨k.1.trans h.1, Nat.le_trans h.2.1 k.2.1, fun w => k.2.2 (h.2.2 w)⟩

/-- The same of two states. -/
def Kept (s t : State) : Prop := KeptV s.base t.base

theorem Kept.refl (s : State) : Kept s s := KeptV.refl _

theorem State.memWf_iff (s : State) : s.memWf = true ↔ Base.wf s.base := by
  simp [State.memWf, Base.wf, State.base, and_assoc]

/-- What Kept says. -/
theorem Kept.iff {s t : State} : Kept s t ↔
    t.pending = s.pending ∧ s.nor.versionCounter.toNat ≤ t.nor.versionCounter.toNat ∧ (s.memWf = true → t.memWf = true) := by
  rw [State.memWf_iff, State.memWf_iff]; rfl

theorem Kept.of_base {s t : State} (h : t.base = s.base) : Kept s t := by
  unfold Kept; rw [h]; exact .refl _

/-- One operation more. -/
theorem Kept.step {a : Base} {x y : State} (h : Kept x y) (k : KeptV a x.base) : KeptV a y.base := k.trans h

theorem Kept.trans {s t u : State} (h : Kept s t) (k : Kept t u) : Kept s u := k.step h

theorem Kept.foldl {α : Type} (g : State → α → State) (h : ∀ s x, Kept s (g s x)) (l : List α) (s : State) :
    Kept s (l.foldl g s) := by
  induction l generalizing s with
  | nil => exact .refl s
  | cons a t ih => exact (h s a).trans (ih _)

theorem KeptV.ite {a b c : Base} {p : Prop} [Decidable p] (hb : p → KeptV a b) (hc : ¬p → KeptV a c) :
    KeptV a (if p then b else c) := by
  split
  · exact hb ‹_›
  · exact hc ‹_›

theorem Kept.ite {s t u : State} {c : Prop} [Decidable c] (ht : c → Kept s t) (hu : ¬c → Kept s u) :
    Kept s (if c then t else u) := by
  split
  · exact ht ‹_›
  · exact hu ‹_›

/-- The outer operations that leave the view alone are stripped; what remains is shown. -/
theorem Kept.base_after {s t u : State} (h : Kept s t) (k : u.base = t.base) : Kept s u := by
  unfold Kept; rw [k]; exact h

theorem Kept.after_base {s t u : State} (k : t.base = s.base) (h : Kept t u) : Kept s u := by
  unfold Kept; rw [← k]; exact h

/-! ### The updates of the memories -/

theorem Kept.setCore (s : State) (m : Bytes) (h : Base.wf s.base → m.form = .plain ∧ m.wf = true) :
    Kept s { s with coreMem := m } := ⟨rfl, Nat.le_refl _, fun w => ⟨(h w).1, (h w).2, w.2.2⟩⟩

theorem Kept.setSect (s : State) (m : Bytes) (h : s.sectMem.wf = true → m.wf = true) : Kept s { s with sectMem := m } :=
  ⟨rfl, Nat.le_refl _, fun w => ⟨w.1, w.2.1, h w.2.2.1, w.2.2.2⟩⟩

theorem Kept.setRaw (s : State) (m : Bytes) (h : s.caskRaw.wf = true → m.wf = true) : Kept s { s with caskRaw := m } :=
  ⟨rfl, Nat.le_refl _, fun w => ⟨w.1, w.2.1, w.2.2.1, h w.2.2.2.1, w.2.2.2.2⟩⟩

theorem Kept.setMalt (s : State) (f : Malt → Malt) (h : ∀ m : Malt, m.lpddr.wf = true → (f m).lpddr.wf = true) :
    Kept s (s.modMalt f) := ⟨rfl, Nat.le_refl _, fun w => ⟨w.1, w.2.1, w.2.2.1, w.2.2.2.1, h _ w.2.2.2.2⟩⟩

theorem Kept.setNor (s : State) (n : Nor) (h : s.nor.versionCounter.toNat ≤ n.versionCounter.toNat) :
    Kept s { s with nor := n } := ⟨rfl, h, id⟩

theorem Kept.core_write (s : State) (a : Nat) (bs : List Byte) : Kept s { s with coreMem := s.coreMem.write a bs } :=
  .setCore s _ fun w => ⟨w.1, Bytes.write_wf w.2.1 _ _⟩

theorem Kept.sect_write (s : State) (a : Nat) (bs : List Byte) : Kept s { s with sectMem := s.sectMem.write a bs } :=
  .setSect s _ fun w => Bytes.write_wf w _ _

theorem Kept.raw_write (s : State) (a : Nat) (bs : List Byte) : Kept s { s with caskRaw := s.caskRaw.write a bs } :=
  .setRaw s _ fun w => Bytes.write_wf w _ _

/-! ### The operations that write them -/

theorem State_putCore_kept (s : State) (a : Nat) (bs : List Byte) : Kept s (s.putCore a bs) :=
  ⟨rfl, Nat.le_refl _, fun w => ⟨w.1, Bytes.write_wf w.2.1 _ _, w.2.2⟩⟩

theorem State_putSect_kept (s : State) (a : Nat) (bs : List Byte) : Kept s (s.putSect a bs) :=
  ⟨rfl, Nat.le_refl _, fun w => ⟨w.1, w.2.1, Bytes.write_wf w.2.2.1 _ _, w.2.2.2⟩⟩

theorem State_putAt_kept (s : State) (l : Loc) (a : Nat) (bs : List Byte) : Kept s (s.putAt l a bs) := by
  unfold State.putAt
  split
  · exact State_putCore_kept _ _ _
  · exact State_putSect_kept _ _ _
  · exact .of_base (by simp)
  · exact .foldl _ (fun s k => .of_base (by simp)) _ _
  · exact .refl _

theorem State_tagAt_kept (s : State) (l : Loc) (k : Nat) (t : BitVec 4) : Kept s (s.tagAt l k t) := by
  unfold State.tagAt
  split
  · exact .setCore s _ fun w => ⟨w.1, Bytes.setTag_wf w.2.1 _ _⟩
  · exact .setSect s _ fun w => Bytes.setTag_wf w _ _
  · exact .of_base (by simp)
  · exact .refl _

theorem State_applyEff_kept (s : State) (e : Eff) : Kept s (s.applyEff e) := by
  unfold State.applyEff
  split <;> first
    | exact State_putAt_kept _ _ _ _
    | exact State_tagAt_kept _ _ _ _
    | exact .of_base (by simp)
    | (simp only []; exact State_putAt_kept _ _ _ _)

theorem State_flipEff_kept (s : State) (c : Cmd) (e : Eff) : Kept s (s.flipEff c e) := by
  unfold State.flipEff
  split <;> first
    | exact State_applyEff_kept _ _
    | exact .of_base (by simp)

theorem State_under_kept (s : State) (c : Cmd) (f : State → State) (h : ∀ s, Kept s (f s)) : Kept s (s.under c f) := by
  have key : Kept s (f (s.asOf c)) := .after_base (State_asOf_base s c) (h _)
  unfold State.under
  split
  · exact .base_after key (by simp)
  · exact key

theorem State_commit_kept (s : State) (c : Cmd) (arr : Nat) : Kept s (s.commit c arr) := by
  unfold State.commit Kept
  simp
  refine (Kept.foldl _ (fun s e => State_flipEff_kept s c e) _ _).step ?_
  simp
  exact .refl _

theorem State_putGrad_kept (s : State) (c q : Nat) (ws : List W32) : ∀ t, s.putGrad c q ws = some t → Kept s t := by
  intro t h
  unfold State.putGrad at h
  split at h
  · simp at h; subst h; exact .refl _
  · split at h
    · simp at h; subst h; exact .refl _
    · simp only [] at h
      split at h
      · simp at h; subst h; exact .refl _
      · split at h
        · simp at h; subst h
          exact .after_base (State_ensureCask_base _ _) (State_putAt_kept _ _ _ _)
        · simp at h

theorem State_putCaskBlk_kept (s : State) (a : Nat) (b : Blk) : Kept s (s.putCaskBlk a b) := by
  unfold State.putCaskBlk
  refine .ite (fun _ => .refl _) fun _ => .ite (fun _ => ?_) fun _ => .ite (fun _ => ?_) fun _ => ?_
  · exact .after_base (State_modFabric_base s _) (.setRaw _ _ fun w => Bytes.putMeta_wf w _ _ _)
  · simp only []
    exact .of_base (by split <;> simp)
  · exact .setRaw s _ fun w => Bytes.putBlk_wf w _ _

theorem State_putDmaBlk_kept (s : State) (sec space : Nat) (a : W64) (b : Blk) : Kept s (s.putDmaBlk sec space a b) := by
  unfold State.putDmaBlk
  simp only []
  split
  · exact .of_base (by simp)
  · exact State_putCaskBlk_kept _ _ _
  · exact .of_base (by simp)
  · exact ⟨rfl, Nat.le_refl _, fun w => ⟨w.1, w.2.1, Bytes.putBlk_wf w.2.2.1 _ _, w.2.2.2⟩⟩
  · exact ⟨rfl, Nat.le_refl _, fun w => ⟨w.1, Bytes.putBlk_wf w.2.1 _ _, w.2.2⟩⟩

theorem State_misread_kept (s : State) (a : Nat) : Kept s (s.misread a) := by
  unfold State.misread
  refine .ite (fun _ => .of_base ?_) fun _ => .after_base (by rfl) (State_putCaskBlk_kept _ _ _)
  exact base_foldl' _ _ _ fun s i => by simp

theorem State_tableError_kept (s : State) (n : Nat) : Kept s (s.tableError n) := by
  unfold State.tableError
  simp only []
  refine .trans (.setRaw s _ fun w => Bytes.putMeta_wf w _ _ _) (.of_base (base_foldl' _ _ _ fun s k => by simp))

theorem State_markSector_kept (s : State) (a : Nat) : Kept s (s.markSector a) :=
  .setRaw s _ fun w => Bytes.putMeta_wf w _ _ _

theorem State_regionError_kept (s : State) (a : Nat) : Kept s (s.regionError a) := by
  unfold State.regionError
  refine .ite (fun _ => State_tableError_kept _ _) fun _ => .ite (fun _ => .of_base (by simp)) fun _ => ?_
  refine .ite (fun _ => State_markSector_kept _ _) fun _ => .ite (fun _ => .of_base (by simp)) fun _ => ?_
  refine .ite (fun _ => .trans (State_markSector_kept s a) (.of_base (State_recordError_base _ _))) fun _ => ?_
  refine .ite (fun _ => .of_base (by split <;> simp)) fun _ => .refl _

theorem State_clearCask_kept (s : State) : Kept s s.clearCask :=
  ⟨rfl, Nat.le_refl _, fun w => ⟨w.1, w.2.1, w.2.2.1, Bytes.empty_wf _, w.2.2.2.2⟩⟩

theorem State_caskRestart_kept (s : State) (p : Nat) : Kept s (s.caskRestart p) := by
  unfold State.caskRestart Kept
  simp
  refine (State_clearCask_kept _).step ?_
  simp
  exact .refl _

theorem State_takePortOut_kept (s : State) (p c : Nat) : Kept s (s.takePortOut p c) := by
  unfold State.takePortOut
  exact .ite (fun _ => .refl _) fun _ => .after_base (State_modMem_base _ _ _) (State_caskRestart_kept _ _)

theorem State_sectorError_kept (s : State) (x : SectorError) : Kept s (s.sectorError x) := by
  unfold State.sectorError
  simp only []
  refine .ite (fun _ => .refl _) fun _ => .ite (fun _ => ?_) fun _ => ?_
  · refine .base_after ?_ (State_modMem_base _ _ _)
    exact .ite (fun _ => State_misread_kept _ _) fun _ => .refl _
  unfold Kept
  simp
  refine .ite (fun _ => ?_) fun _ => ?_
  · refine (State_takePortOut_kept _ _ _).step ?_
    simp
    refine (State_regionError_kept _ _).step ?_
    simp
    exact .refl _
  · refine (State_regionError_kept _ _).step ?_
    simp
    exact .refl _

theorem State_sectorErrors_kept (errs : List SectorError) (s : State) : Kept s (errs.foldl (fun s x => s.sectorError x) s) :=
  .foldl _ (fun _ _ => State_sectorError_kept _ _) _ _

theorem State_meetErrors_kept (s : State) : Kept s s.meetErrors :=
  .ite (fun _ => .refl _) fun _ => .trans (.of_base (by simp)) (State_sectorErrors_kept _ _)

theorem State_readBad_kept (s : State) (ch : Channel) (a : W64) : Kept s (s.readBad ch a) := by
  unfold State.readBad
  split
  · exact State_sectorError_kept _ _
  · exact .refl _

theorem State_copyBlk_kept (s : State) (sec : Nat) (ch : Channel) (k : Nat) (h : List Byte) : Kept s (s.copyBlk sec ch k h) := by
  unfold State.copyBlk
  simp only []
  exact .trans (.ite (fun _ => State_readBad_kept _ _ _) fun _ => .refl _) (State_putDmaBlk_kept _ _ _ _ _)

theorem State_copyBlks_kept (sec : Nat) (ch : Channel) (n k : Nat) (h : List Byte) (s : State) :
    Kept s (State.copyBlks sec ch n k h s) := by
  induction n generalizing k h s with
  | zero => exact .refl _
  | succ n ih => exact (State_copyBlk_kept _ _ _ _ _).trans (ih _ _ _)

theorem State_transpose_kept (s : State) (sec : Nat) (ch : Channel) (h : List Byte) : Kept s (s.transpose sec ch h) :=
  .trans (.foldl _ (fun _ _ => State_readBad_kept _ _ _) _ _)
    (.foldl _ (fun _ _ => .foldl _ (fun _ _ => State_putDmaBlk_kept _ _ _ _ _) _ _) _ _)

theorem State_moveTo_kept (s : State) (sec c n : Nat) (h : List Byte) : Kept s (s.moveTo sec c n h) := by
  unfold State.moveTo
  simp only []
  refine Kept.base_after ?_ (State_modChannel_base _ _ _ _)
  refine Kept.base_after ?_ (by split <;> rfl)
  exact .ite (fun _ => .refl _) fun _ => State_copyBlks_kept _ _ _ _ _ _

theorem State_endTransfer_kept (s : State) (sec c : Nat) (host : HostData) : Kept s (s.endTransfer sec c host) := by
  unfold State.endTransfer
  simp only []
  split
  · unfold Kept
    simp
    exact .trans (State_moveTo_kept _ _ _ _ _) (State_readBad_kept _ _ _)
  · unfold Kept
    simp
    refine (State_moveTo_kept _ _ _ _ _).step ?_
    exact Kept.ite (fun _ => State_transpose_kept _ _ _ _) fun _ => .refl _

theorem State_loadTables_kept (s : State) (core : Nat) : Kept s (s.loadTables core) :=
  .foldl _ (fun _ _ => .ite (fun _ => State_putCore_kept _ _ _) fun _ => .refl _) _ _

theorem State_mapCores_kept (s : State) (sec : Nat) (map : List Nat) (spare : Option Nat) :
    Kept s (s.mapCores sec map spare) := by
  unfold State.mapCores
  simp only []
  refine Kept.trans ?_ (.foldl _ (fun s l => State_loadTables_kept s _) _ _)
  exact ⟨rfl, Nat.le_refl _, fun w => ⟨w.1, Bytes.moveCores_wf w.1 w.2.1 _ _, w.2.2⟩⟩

theorem Kept.moveCores (s : State) (sec : Nat) (f : Nat → Option Nat) :
    Kept s { s with coreMem := s.coreMem.moveCores sec f } :=
  ⟨rfl, Nat.le_refl _, fun w => ⟨w.1, Bytes.moveCores_wf w.1 w.2.1 _ _, w.2.2⟩⟩

theorem State_mapAll_kept (s : State) : Kept s s.mapAll :=
  .foldl _ (fun s _ => State_mapCores_kept s _ _ _) _ _

theorem State_putRecord_kept (s : State) (a : Nat) (bs : Option (List Byte)) : Kept s (s.putRecord a bs) := by
  unfold State.putRecord
  refine .setMalt s _ fun m w => ?_
  split
  · exact Bytes.write_wf w _ _
  · exact w

theorem State_updateRecord_kept (s : State) (n : Nat) (e : List W32) (t : Nat) (r : Rule) (k : Nat) :
    Kept s (s.updateRecord n e t r k) := by
  unfold State.updateRecord
  exact .ite (fun _ => .of_base (by simp)) fun _ => State_putRecord_kept _ _ _

theorem State_updateSet_kept (s : State) (n : Nat) (bad : List Nat) : Kept s (s.updateSet n bad) := by
  unfold State.updateSet
  simp only []
  refine .ite (fun _ => .refl _) fun _ => .ite (fun _ => .of_base (by simp)) fun _ => ?_
  unfold Kept
  simp
  exact Kept.foldl _ (fun s _ => State_updateRecord_kept s _ _ _ _ _) _ _

theorem State_maltUpdate_kept (s : State) (c : Nat) (bad : List Nat) (b : Bool) : Kept s (s.maltUpdate c bad b) := by
  unfold State.maltUpdate Kept
  simp
  exact Kept.foldl _ (fun s n => State_updateSet_kept s _ _) _ _

theorem State_closeStep_kept (s : State) (c : Nat) : Kept s (s.closeStep c) := by
  unfold State.closeStep Kept
  simp
  refine (State_maltUpdate_kept _ _ _ _).step ?_
  simp
  exact .refl _

theorem State_pumpDown_kept (n c : Nat) (s : State) : Kept s (State.pumpDown n c s) := by
  induction n generalizing s with
  | zero => exact .refl _
  | succ n ih =>
    unfold State.pumpDown
    refine .ite (fun _ => .refl _) fun _ => .ite (fun _ => State_closeStep_kept _ _) fun _ => .ite (fun _ => .refl _) fun _ => ?_
    refine (ih _).step ?_
    simp
    exact .refl _

theorem State_pump_kept (s : State) (c : Nat) : Kept s (s.pump c) := State_pumpDown_kept _ _ _

theorem State_addBlock_kept (s : State) (c : Nat) (l : List (BitVec 23)) : Kept s (s.addBlock c l) := by
  unfold State.addBlock
  simp only []
  split
  · exact .refl _
  · split
    · exact .of_base (by simp)
    · refine .ite (fun _ => .of_base (by simp)) fun _ => .ite (fun _ => .of_base (by split <;> simp)) fun _ => ?_
      split
      · exact .refl _
      · rename_i hb
        have h := State_putGrad_kept _ _ _ _ _ hb
        refine .ite (fun _ => ?_) fun _ => ?_
        · refine (State_pump_kept _ _).step ?_
          simp
          exact h
        · unfold Kept
          simp
          exact h

theorem State_takeDown_kept (s : State) (c : Nat) : Kept s (s.takeDown c) := by
  unfold State.takeDown
  simp only []
  split
  · exact .refl _
  · refine .ite (fun _ => .ite (fun _ => .of_base (by simp)) fun _ => .of_base (by simp)) fun _ => ?_
    split
    · exact .refl _
    · rename_i hb
      have h := State_putGrad_kept _ _ _ _ _ hb
      refine .ite (fun _ => ?_) fun _ => ?_
      · refine (State_closeStep_kept _ _).step ?_
        simp
        exact h
      · unfold Kept
        simp
        exact h

theorem State_initRecords_kept (s : State) (n : Nat) (e : List W32) : Kept s (s.initRecords n e) :=
  .foldl _ (fun _ _ => State_putRecord_kept _ _ _) _ _

theorem State_placeTables_kept (s : State) (p : Plan) (head : List Byte) : Kept s (s.placeTables p head) :=
  .trans (.raw_write _ _ _) (.foldl _ (fun _ _ => State_putCore_kept _ _ _) _ _)

theorem State_enterPlan_kept (s : State) (slot : Nat) (image : List Byte) (ls : List Handle) (key : W64) :
    Kept s (s.enterPlan slot image ls key) := by
  unfold State.enterPlan Kept
  simp
  exact State_placeTables_kept _ _ _

theorem State_takeInput_kept (s : State) (c : Ctxt) (d : Datagram) : Kept s (s.takeInput c d) := by
  unfold State.takeInput
  refine .ite (fun _ => .of_base (by simp)) fun _ => ?_
  refine Kept.trans (.raw_write s (inputBase + c.area + (wd d.words 8).toNat) d.data) (.of_base ?_)
  generalize ({ s with caskRaw := s.caskRaw.write (inputBase + c.area + (wd d.words 8).toNat) d.data } : State) = u
  simp only [base_ite, State_replyCode_base, State_modCtx_base, State_submit_base, ite_self]

theorem State_openCtx_kept (s : State) (port : Nat) (d : Datagram) : Kept s (s.openCtx port d) := by
  unfold State.openCtx
  simp only []
  refine .ite (fun _ => .of_base (by simp)) fun _ => ?_
  split
  · refine (State_takeInput_kept _ _ _).step ?_
    simp
    exact .refl _
  · exact .of_base (by simp)

/-! ### The flash, starts and losses of power -/

theorem State_setAnchor_kept (s : State) (key prev : Digest) : Kept s (s.setAnchor key prev) := by
  unfold State.setAnchor Kept
  simp
  exact Kept.setNor s _ (Nat.le_refl _)

theorem State_rotate_kept (s : State) (im : Imprint) : Kept s (s.rotate im) := by
  unfold State.rotate
  exact .ite (fun _ => State_setAnchor_kept _ _ _) fun _ => .refl _

theorem State_countUp_kept (n : Nat) (s : State) (h : s.nor.versionCounter.toNat + n < 2 ^ 32) :
    Kept s (State.countUp n s) := by
  induction n generalizing s with
  | zero => exact .refl _
  | succ n ih =>
    unfold State.countUp
    simp only []
    have hv : (s.nor.versionCounter + 1).toNat = s.nor.versionCounter.toNat + 1 := by
      rw [BitVec.toNat_add]; show (s.nor.versionCounter.toNat + 1) % 2 ^ 32 = _; omega
    refine Kept.trans (t := { s with nor := { s.nor with versionCounter := s.nor.versionCounter + 1 } })
      (.setNor s _ (by show _ ≤ (s.nor.versionCounter + 1).toNat; rw [hv]; omega)) (.after_base (State_record_base _ _ _ _ _) (ih _ ?_))
    have hb := State_record_base { s with nor := { s.nor with versionCounter := s.nor.versionCounter + 1 } } 0x07 0 0
      (s.nor.versionCounter + 1)
    simp only [State.base, Prod.mk.injEq] at hb
    rw [hb.2.1]
    show (s.nor.versionCounter + 1).toNat + n < _
    rw [hv]
    omega

theorem State_trained_kept (s : State) (r : PortTrain) : Kept s (s.trained r) := by
  unfold State.trained
  refine .ite (fun _ => .refl _) fun _ => .ite (fun _ => .of_base (by simp)) fun _ => ?_
  unfold Kept
  simp
  exact Kept.setNor s _ (Nat.le_refl _)

theorem State_rewriteTraining_kept (s : State) : Kept s s.rewriteTraining := by
  unfold State.rewriteTraining
  refine .foldl _ (fun s p => ?_) _ _
  refine .ite (fun _ => ?_) fun _ => .refl _
  unfold Kept
  simp
  exact Kept.setNor s _ (Nat.le_refl _)

theorem State_coreFails_kept (s : State) (sec phys : Nat) : Kept s (s.coreFails sec phys) := by
  unfold State.coreFails
  simp only []
  refine .ite (fun _ => .of_base (by simp)) fun _ => ?_
  split
  · exact .refl _
  · unfold Kept
    simp
    refine (State_mapCores_kept _ _ _ _).step ?_
    simp
    exact .refl _

theorem State_settleCores_kept (s : State) (sec : Nat) : Kept s (s.settleCores sec) := by
  unfold State.settleCores
  refine .ite (fun _ => .refl _) fun _ => ?_
  exact .after_base (State_modSect_base s _ _) (.foldl _ (fun _ _ => State_coreFails_kept _ _ _) _ _)

theorem State_runFailure_kept (s : State) (sec phys : Nat) : Kept s (s.runFailure sec phys) := by
  unfold State.runFailure
  refine .ite (fun _ => .refl _) fun _ => ?_
  refine Kept.trans ?_ (State_settleCores_kept _ _)
  refine .base_after ?_ (State_stopSection_base _ _)
  exact Kept.trans (.of_base (State_modSect_base s _ _)) (.setNor _ _ (Nat.le_refl _))

theorem State_failSlice_kept (s : State) (core : Nat) : Kept s (s.failSlice core) := by
  unfold State.failSlice
  split
  · exact State_runFailure_kept _ _ _
  · exact .refl _

theorem State_loadDir_kept (s : State) (t first : Nat) (es : List (List W32)) : Kept s (s.loadDir t first es) := by
  unfold State.loadDir
  simp only []
  unfold Kept
  simp
  exact KeptV.trans (Kept.of_base (State_modFabric_base s _)) (Kept.setRaw _ _ fun w => Bytes.cleanse_wf w _)

theorem State_loadTable_kept (s : State) (t first : Nat) (es : List (List W32)) : Kept s (s.loadTable t first es).2 := by
  unfold State.loadTable
  split
  · exact .refl _
  · split
    · split
      · rename_i hb; exact .of_base (State_loadChannels_base _ _ _ _ hb)
      · exact .refl _
    · exact .of_base (by simp)
    · exact .of_base (by simp)
    · exact State_loadDir_kept _ _ _ _

theorem State_afterErrors_kept (s : State) (h : Handle) (f : State → Move → State)
    (hf : ∀ s m, Kept s (f s m)) : Kept s (s.afterErrors h f) := by
  have key : Kept s s.meetErrors := State_meetErrors_kept _
  unfold State.afterErrors
  simp only []
  split
  · exact .refl _
  · split
    · exact key.trans (hf _ _)
    · exact key

theorem State_tryCommit_kept (s : State) (id arr : Nat) : Kept s (s.tryCommit id arr) := by
  unfold State.tryCommit
  split
  · exact .refl _
  · refine State_under_kept _ _ _ fun s => ?_
    split
    · rename_i hb; exact .of_base (State_meetPoison_base _ _ _ hb)
    · exact .ite (fun _ => .of_base (by simp)) fun _ => .ite (fun _ => .refl _) fun _ => State_commit_kept _ _ _

theorem State_clearStart_kept (s : State) : Kept s s.clearStart := by
  unfold State.clearStart Kept
  simp
  exact State_clearCask_kept s

theorem State_startCores_kept (s : State) (cold : Bool) (test : List (BitVec 17)) : Kept s (s.startCores cold test) := by
  unfold State.startCores Kept
  simp
  refine (State_mapAll_kept _).step ?_
  simp
  exact .ite (fun _ => Kept.setNor s _ (Nat.le_refl _)) fun _ => .refl _

theorem State_startFrom_kept (s : State) (cold derive : Bool) (start : StartIn) : Kept s (s.startFrom cold derive start) := by
  unfold State.startFrom
  generalize (derive && decide (4 ≤ start.pufFails)) = bad
  unfold Kept
  simp only [base_ite, State_makerService_base, State_endStart_base]
  have key (u : State) (hu : u.base = s.base) : KeptV s.base u.clearStart.initPorts.base := by
    simp
    refine (State_clearStart_kept _).step ?_
    rw [hu]
    exact .refl _
  have core (u : State) (hu : u.base = s.base) (c : Bool) (t : List (BitVec 17)) (p : List PortRead) :
      KeptV s.base ((u.clearStart.initPorts.startCores c t).startPorts c p).base := by
    simp
    refine (State_startCores_kept _ _ _).step ?_
    exact key u hu
  refine .ite (fun _ => ?_) fun _ => ?_
  · refine .ite (fun _ => key _ ?_) fun _ => ?_
    · cases bad <;> simp
    · simp only [State_attention_base]
      refine key _ ?_
      cases bad <;> simp
  · refine .ite (fun _ => core _ ?_ _ _ _) fun _ => core _ ?_ _ _ _
    · cases bad <;> simp
    · cases bad <;> simp

theorem State_loseVolatile_kept (s : State) : Kept s s.loseVolatile :=
  ⟨rfl, Nat.le_refl _, fun _ => ⟨rfl, Bytes.blank_wf, Bytes.blank_wf, Bytes.blank_wf, Bytes.blank_wf⟩⟩

theorem State_enterDormant_kept (s : State) : Kept s s.enterDormant := by
  unfold State.enterDormant Kept
  simp only [State_settleIn_base]
  have h : Kept s (((s.endEntry cDone 3).idlePorts.recapAs false cPartner).rewriteTraining.endMoves.programAll) := by
    unfold Kept
    simp
    refine (State_rewriteTraining_kept _).step ?_
    simp
    exact .refl _
  refine KeptV.trans h ?_
  generalize ((s.endEntry cDone 3).idlePorts.recapAs false cPartner).rewriteTraining.endMoves.programAll = u
  exact ⟨rfl, Nat.le_refl _, fun w => ⟨rfl, Bytes.blank_wf, Bytes.blank_wf, w.2.2.2⟩⟩

theorem State_enterStandby_kept (s : State) : Kept s s.enterStandby := by
  unfold State.enterStandby Kept
  simp only [State_modPower_base]
  refine (State_loseVolatile_kept _).step ?_
  simp
  refine (State_rewriteTraining_kept _).step ?_
  simp
  exact .refl _

theorem State_unplanned_kept (s : State) : Kept s s.unplanned := by
  unfold State.unplanned Kept
  simp
  refine (State_loseVolatile_kept _).step ?_
  simp
  exact .refl _

theorem State_inputLost_kept (s : State) : Kept s s.inputLost := by
  unfold State.inputLost
  refine .ite (fun _ => ?_) fun _ => .refl _
  refine (State_unplanned_kept _).step ?_
  simp
  exact .refl _

theorem State_onStarted_kept (s : State) (q tag opc : Nat) (ok : Started → Bool) (f : Started → State)
    (h : ∀ t, Kept s (f t)) : Kept s (s.onStarted q tag opc ok f) := by
  unfold State.onStarted
  split
  · split
    · exact h _
    · exact .refl _
  · exact .refl _

end Sys2Proof.Machine
end

