-- ==== Sys2Proof/Laws/Exec.lean ====
section
/-! SUPPORT. What each command keeps. A command that leaves the flash and the addressed memories alone has a lemma ending in
_base, every other one a lemma ending in _kept; all have an answer. -/

set_option maxRecDepth 4000
namespace Sys2Proof.Machine

theorem execNop_base (q tag : Nat) (s : State) : ∃ t, execNop q tag s = .next t ∧ t.base = s.base := by
  refine ⟨_, rfl, ?_⟩
  refine State_onStarted_base _ _ _ _ _ _ fun t => ?_
  (repeat' split) <;> first | rfl | (simp; done) | (simp_all; done)

theorem execOpenSessionChallenge_base (q tag : Nat) (s : State) : ∃ t, execOpenSessionChallenge q tag s = .next t ∧ t.base = s.base := by
  refine ⟨_, rfl, ?_⟩
  refine State_onStarted_base _ _ _ _ _ _ fun t => ?_
  (repeat' split) <;> first | rfl | (simp; done) | (simp_all; done)

theorem execCloseSession_base (q tag : Nat) (s : State) : ∃ t, execCloseSession q tag s = .next t ∧ t.base = s.base := by
  refine ⟨_, rfl, ?_⟩
  refine State_onStarted_base _ _ _ _ _ _ fun t => ?_
  (repeat' split) <;> first | rfl | (simp; done) | (simp_all; done)

theorem execUnloadPlan_base (q tag : Nat) (s : State) : ∃ t, execUnloadPlan q tag s = .next t ∧ t.base = s.base := by
  refine ⟨_, rfl, ?_⟩
  refine State_onStarted_base _ _ _ _ _ _ fun t => ?_
  (repeat' split) <;> first | rfl | (simp; done) | (simp_all; done)

theorem execGrist_base (q tag : Nat) (header : List W32) (s : State) : ∃ t, execGrist q tag header s = .next t ∧ t.base = s.base := by
  refine ⟨_, rfl, ?_⟩
  refine State_onStarted_base _ _ _ _ _ _ fun t => ?_
  (repeat' split) <;> first | rfl | (simp; done) | (simp_all; done)

theorem execTrain_base (q tag : Nat) (runs : List W32) (s : State) : ∃ t, execTrain q tag runs s = .next t ∧ t.base = s.base := by
  refine ⟨_, rfl, ?_⟩
  refine State_onStarted_base _ _ _ _ _ _ fun t => ?_
  (repeat' split) <;> first | rfl | (simp; done) | (simp_all; done)

theorem execPlainRerun_base (q tag : Nat) (s : State) : ∃ t, execPlainRerun q tag s = .next t ∧ t.base = s.base := by
  refine ⟨_, rfl, ?_⟩
  refine State_onStarted_base _ _ _ _ _ _ fun t => ?_
  simp only []
  (repeat' split) <;> first | rfl | (simp; done) | (simp_all; done)

theorem execSetRefresh_base (q tag : Nat) (s : State) : ∃ t, execSetRefresh q tag s = .next t ∧ t.base = s.base := by
  refine ⟨_, rfl, ?_⟩
  refine State_onStarted_base _ _ _ _ _ _ fun t => ?_
  (repeat' split) <;> first | rfl | (simp; done) | (simp_all; done)

theorem execReadTable_base (q tag : Nat) (s : State) : ∃ t, execReadTable q tag s = .next t ∧ t.base = s.base := by
  refine ⟨_, rfl, ?_⟩
  refine State_onStarted_base _ _ _ _ _ _ fun t => ?_
  (repeat' split) <;> first | rfl | (simp; done) | (simp_all; done)

theorem execDmaStart_base (q tag : Nat) (s : State) : ∃ t, execDmaStart q tag s = .next t ∧ t.base = s.base := by
  refine ⟨_, rfl, ?_⟩
  refine State_onStarted_base _ _ _ _ _ _ fun t => ?_
  (repeat' split) <;> first | rfl | (simp; done) | (simp_all; done)

theorem execDmaControlResume_base (q tag : Nat) (s : State) : ∃ t, execDmaControlResume q tag s = .next t ∧ t.base = s.base := by
  refine ⟨_, rfl, ?_⟩
  refine State_onStarted_base _ _ _ _ _ _ fun t => ?_
  refine State_dmaSettle_base _ _ _ fun a b c => ?_
  simp

theorem execDmaControlAbort_base (q tag : Nat) (s : State) : ∃ t, execDmaControlAbort q tag s = .next t ∧ t.base = s.base := by
  refine ⟨_, rfl, ?_⟩
  refine State_onStarted_base _ _ _ _ _ _ fun t => ?_
  refine State_dmaSettle_base _ _ _ fun a b c => ?_
  simp

theorem execSimmerDisable_base (q tag : Nat) (s : State) : ∃ t, execSimmerDisable q tag s = .next t ∧ t.base = s.base := by
  refine ⟨_, rfl, ?_⟩
  refine State_onStarted_base _ _ _ _ _ _ fun t => ?_
  (repeat' split) <;> first | rfl | (simp; done) | (simp_all; done)

theorem execSimmerEnable_base (q tag : Nat) (s : State) : ∃ t, execSimmerEnable q tag s = .next t ∧ t.base = s.base := by
  refine ⟨_, rfl, ?_⟩
  refine State_onStarted_base _ _ _ _ _ _ fun t => ?_
  (repeat' split) <;> first | rfl | (simp; done) | (simp_all; done)

theorem execPowerSetRest_base (q tag : Nat) (s : State) : ∃ t, execPowerSetRest q tag s = .next t ∧ t.base = s.base := by
  refine ⟨_, rfl, ?_⟩
  simp

theorem execPowerSetDormant_base (q tag : Nat) (s : State) : ∃ t, execPowerSetDormant q tag s = .next t ∧ t.base = s.base := by
  refine ⟨_, rfl, ?_⟩
  simp

theorem execPowerSetStandby_base (q tag : Nat) (s : State) : ∃ t, execPowerSetStandby q tag s = .next t ∧ t.base = s.base := by
  refine ⟨_, rfl, ?_⟩
  simp

theorem execPowerCap_base (q tag : Nat) (s : State) : ∃ t, execPowerCap q tag s = .next t ∧ t.base = s.base := by
  refine ⟨_, rfl, ?_⟩
  refine State_onStarted_base _ _ _ _ _ _ fun t => ?_
  (repeat' split) <;> first | rfl | (simp; done) | (simp_all; done)

theorem execReadTelemetry_base (q tag : Nat) (s : State) : ∃ t, execReadTelemetry q tag s = .next t ∧ t.base = s.base := by
  refine ⟨_, rfl, ?_⟩
  refine State_onStarted_base _ _ _ _ _ _ fun t => ?_
  (repeat' split) <;> first | rfl | (simp; done) | (simp_all; done)

theorem execReadErrata_base (q tag : Nat) (s : State) : ∃ t, execReadErrata q tag s = .next t ∧ t.base = s.base := by
  refine ⟨_, rfl, ?_⟩
  refine State_onStarted_base _ _ _ _ _ _ fun t => ?_
  (repeat' split) <;> first | rfl | (simp; done) | (simp_all; done)

theorem execOpenWindow_base (q tag : Nat) (companion : Digest) (s : State) : ∃ t, execOpenWindow q tag companion s = .next t ∧ t.base = s.base := by
  refine ⟨_, rfl, ?_⟩
  refine State_onStarted_base _ _ _ _ _ _ fun t => ?_
  (repeat' split) <;> first | rfl | (simp; done) | (simp_all; done)

theorem execCloseWindow_base (q tag : Nat) (s : State) : ∃ t, execCloseWindow q tag s = .next t ∧ t.base = s.base := by
  refine ⟨_, rfl, ?_⟩
  refine State_onStarted_base _ _ _ _ _ _ fun t => ?_
  (repeat' split) <;> first | rfl | (simp; done) | (simp_all; done)

theorem execAttest_base (q tag : Nat) (s : State) : ∃ t, execAttest q tag s = .next t ∧ t.base = s.base := by
  refine ⟨_, rfl, ?_⟩
  refine State_onStarted_base _ _ _ _ _ _ fun t => ?_
  (repeat' split) <;> first | rfl | (simp; done) | (simp_all; done)

theorem execLaneService_base (q tag : Nat) (net : NegIn) (s : State) : ∃ t, execLaneService q tag net s = .next t ∧ t.base = s.base := by
  refine ⟨_, rfl, ?_⟩
  refine State_onStarted_base _ _ _ _ _ _ fun t => ?_
  (repeat' split) <;> first | rfl | (simp; done) | (simp_all; done)

theorem execReadSpares_base (q tag : Nat) (s : State) : ∃ t, execReadSpares q tag s = .next t ∧ t.base = s.base := by
  refine ⟨_, rfl, ?_⟩
  refine State_onStarted_base _ _ _ _ _ _ fun t => ?_
  (repeat' split) <;> first | rfl | (simp; done) | (simp_all; done)

theorem execSqTail_base (q : Nat) (value : W32) (s : State) : ∃ t, execSqTail q value s = .next t ∧ t.base = s.base := by
  refine ⟨_, rfl, ?_⟩
  simp

theorem execCqHead_base (q : Nat) (value : W32) (s : State) : ∃ t, execCqHead q value s = .next t ∧ t.base = s.base := by
  refine ⟨_, rfl, ?_⟩
  simp

theorem execQueueEnable_base (q : Nat) (value : W32) (s : State) : ∃ t, execQueueEnable q value s = .next t ∧ t.base = s.base := by
  refine ⟨_, rfl, ?_⟩
  simp

theorem execQueueDisable_base (q : Nat) (value : W32) (s : State) : ∃ t, execQueueDisable q value s = .next t ∧ t.base = s.base := by
  refine ⟨_, rfl, ?_⟩
  simp

theorem execAttnPendingClear_base (value : W32) (events : BitVec 8) (s : State) : ∃ t, execAttnPendingClear value events s = .next t ∧ t.base = s.base := by
  refine ⟨_, rfl, ?_⟩
  simp

theorem execTimeLoRead_base (s : State) : ∃ t, execTimeLoRead  s = .next t ∧ t.base = s.base := by
  refine ⟨_, rfl, ?_⟩
  simp

theorem execReadClearField_base (offset : Nat) (event : Bool) (s : State) : ∃ t, execReadClearField offset event s = .next t ∧ t.base = s.base := by
  refine ⟨_, rfl, ?_⟩
  split
  · rename_i h
    split at h
    · simp [State_readClear_base _ _ _ _ h]
    · simp at h
  · rfl

theorem execRegisterWriteOther_base (offset : Nat) (value : W32) (size : Nat) (s : State) : ∃ t, execRegisterWriteOther offset value size s = .next t ∧ t.base = s.base := by
  refine ⟨_, rfl, ?_⟩
  simp

theorem execSubmissionFetch_base (got : HostFetch) (s : State) : ∃ t, execSubmissionFetch got s = .next t ∧ t.base = s.base := by
  refine ⟨_, rfl, ?_⟩
  simp

theorem execConventionalReset_base (s : State) : ∃ t, execConventionalReset  s = .next t ∧ t.base = s.base := by
  refine ⟨_, rfl, ?_⟩
  simp

theorem execHotReset_base (s : State) : ∃ t, execHotReset  s = .next t ∧ t.base = s.base := by
  refine ⟨_, rfl, ?_⟩
  simp

theorem execFunctionLevelReset_base (s : State) : ∃ t, execFunctionLevelReset  s = .next t ∧ t.base = s.base := by
  refine ⟨_, rfl, ?_⟩
  simp

theorem execPerstRelease_base (refclk : Bool) (s : State) : ∃ t, execPerstRelease refclk s = .next t ∧ t.base = s.base := by
  refine ⟨_, rfl, ?_⟩
  rfl

theorem execConfigWrite_base (w : ConfigWrite) (s : State) : ∃ t, execConfigWrite w s = .next t ∧ t.base = s.base := by
  refine ⟨_, rfl, ?_⟩
  (repeat' split) <;> simp

theorem execSidebandStatus_base (s : State) : ∃ t, execSidebandStatus  s = .next t ∧ t.base = s.base := by
  refine ⟨_, rfl, ?_⟩
  simp

theorem execSidebandWake_base (data : Byte) (pec : Bool) (s : State) : ∃ t, execSidebandWake data pec s = .next t ∧ t.base = s.base := by
  refine ⟨_, rfl, ?_⟩
  simp

theorem execSidebandStandby_base (data : Byte) (pec : Bool) (s : State) : ∃ t, execSidebandStandby data pec s = .next t ∧ t.base = s.base := by
  refine ⟨_, rfl, ?_⟩
  simp

theorem execSupplyTurnOn_base (s : State) : ∃ t, execSupplyTurnOn  s = .next t ∧ t.base = s.base := by
  refine ⟨_, rfl, ?_⟩
  simp

theorem execCellarRebuildDone_base (s : State) : ∃ t, execCellarRebuildDone  s = .next t ∧ t.base = s.base := by
  refine ⟨_, rfl, ?_⟩
  simp

theorem execAuxPowerApplied_base (straps : BitVec 2) (s : State) : ∃ t, execAuxPowerApplied straps s = .next t ∧ t.base = s.base := by
  refine ⟨_, rfl, ?_⟩
  simp

theorem execAuxPowerLost_base (s : State) : ∃ t, execAuxPowerLost  s = .next t ∧ t.base = s.base := by
  refine ⟨_, rfl, ?_⟩
  simp

theorem execEmergencyDrop_base (sec temp : Nat) (s : State) : ∃ t, execEmergencyDrop sec temp s = .next t ∧ t.base = s.base := by
  refine ⟨_, rfl, ?_⟩
  simp

theorem execThrottleAdjust_base (sensors : Sensors) (s : State) : ∃ t, execThrottleAdjust sensors s = .next t ∧ t.base = s.base := by
  refine ⟨_, rfl, ?_⟩
  simp

theorem execTelemetrySample_base (sensors : Sensors) (s : State) : ∃ t, execTelemetrySample sensors s = .next t ∧ t.base = s.base := by
  refine ⟨_, rfl, ?_⟩
  simp

theorem execEnterReady_base (s : State) : ∃ t, execEnterReady  s = .next t ∧ t.base = s.base := by
  refine ⟨_, rfl, ?_⟩
  simp

theorem execReturnToRun_base (s : State) : ∃ t, execReturnToRun  s = .next t ∧ t.base = s.base := by
  refine ⟨_, rfl, ?_⟩
  simp

theorem execAutoRest_base (s : State) : ∃ t, execAutoRest  s = .next t ∧ t.base = s.base := by
  refine ⟨_, rfl, ?_⟩
  simp

theorem execWakeAtReached_base (s : State) : ∃ t, execWakeAtReached  s = .next t ∧ t.base = s.base := by
  refine ⟨_, rfl, ?_⟩
  simp

theorem execExitRest_base (s : State) : ∃ t, execExitRest  s = .next t ∧ t.base = s.base := by
  refine ⟨_, rfl, ?_⟩
  simp

theorem execRequestAssemblyTimeout_base (port ctx : Nat) (s : State) : ∃ t, execRequestAssemblyTimeout port ctx s = .next t ∧ t.base = s.base := by
  refine ⟨_, rfl, ?_⟩
  (repeat' split) <;> simp

theorem execReplyContextExpiry_base (port ctx : Nat) (s : State) : ∃ t, execReplyContextExpiry port ctx s = .next t ∧ t.base = s.base := by
  refine ⟨_, rfl, ?_⟩
  (repeat' split) <;> simp

theorem execNeighbourRequest_base (port : Nat) (ip6 : Bool) (target : BitVec 128) (s : State) : ∃ t, execNeighbourRequest port ip6 target s = .next t ∧ t.base = s.base := by
  refine ⟨_, rfl, ?_⟩
  simp

theorem execRequestAdmit_base (sec rec : Nat) (s : State) : ∃ t, execRequestAdmit sec rec s = .next t ∧ t.base = s.base := by
  refine ⟨_, rfl, ?_⟩
  refine State_onReq_base _ _ _ _ _ fun t => ?_
  simp

theorem execRequestContinue_base (sec rec : Nat) (s : State) : ∃ t, execRequestContinue sec rec s = .next t ∧ t.base = s.base := by
  refine ⟨_, rfl, ?_⟩
  refine State_onReq_base _ _ _ _ _ fun t => ?_
  simp

theorem execRequestFork_base (sec rec : Nat) (s : State) : ∃ t, execRequestFork sec rec s = .next t ∧ t.base = s.base := by
  refine ⟨_, rfl, ?_⟩
  refine State_onReq_base _ _ _ _ _ fun t => ?_
  simp

theorem execRequestReset_base (sec rec : Nat) (s : State) : ∃ t, execRequestReset sec rec s = .next t ∧ t.base = s.base := by
  refine ⟨_, rfl, ?_⟩
  refine State_onReq_base _ _ _ _ _ fun t => ?_
  simp

theorem execRequestEnd_base (sec rec : Nat) (s : State) : ∃ t, execRequestEnd sec rec s = .next t ∧ t.base = s.base := by
  refine ⟨_, rfl, ?_⟩
  refine State_onReq_base _ _ _ _ _ fun t => ?_
  simp

theorem execRequestPause_base (sec rec : Nat) (s : State) : ∃ t, execRequestPause sec rec s = .next t ∧ t.base = s.base := by
  refine ⟨_, rfl, ?_⟩
  refine State_onReq_base _ _ _ _ _ fun t => ?_
  simp

theorem execRequestResume_base (sec rec : Nat) (s : State) : ∃ t, execRequestResume sec rec s = .next t ∧ t.base = s.base := by
  refine ⟨_, rfl, ?_⟩
  refine State_onReq_base _ _ _ _ _ fun t => ?_
  simp

theorem execGristCycleStart_base (part : Nat) (s : State) : ∃ t, execGristCycleStart part s = .next t ∧ t.base = s.base := by
  refine ⟨_, rfl, ?_⟩
  simp

theorem execGristTick_base (part : Nat) (s : State) : ∃ t, execGristTick part s = .next t ∧ t.base = s.base := by
  refine ⟨_, rfl, ?_⟩
  (repeat' split) <;> simp

theorem execGristCycleEnd_base (part : Nat) (s : State) : ∃ t, execGristCycleEnd part s = .next t ∧ t.base = s.base := by
  refine ⟨_, rfl, ?_⟩
  simp only []
  (repeat' split) <;> first | rfl | (simp; done) | (simp_all; done)

theorem execForkCycle_base (part : Nat) (s : State) : ∃ t, execForkCycle part s = .next t ∧ t.base = s.base := by
  refine ⟨_, rfl, ?_⟩
  simp

theorem execEndCycle_base (part : Nat) (s : State) : ∃ t, execEndCycle part s = .next t ∧ t.base = s.base := by
  refine ⟨_, rfl, ?_⟩
  simp

theorem execMatmul_base (id : Nat) (s : State) : ∃ t, execMatmul id s = .next t ∧ t.base = s.base := by
  refine ⟨_, rfl, ?_⟩
  simp

theorem execMatmulPair_base (id : Nat) (s : State) : ∃ t, execMatmulPair id s = .next t ∧ t.base = s.base := by
  refine ⟨_, rfl, ?_⟩
  simp

theorem execAttend_base (id : Nat) (s : State) : ∃ t, execAttend id s = .next t ∧ t.base = s.base := by
  refine ⟨_, rfl, ?_⟩
  simp

theorem execScan_base (id : Nat) (s : State) : ∃ t, execScan id s = .next t ∧ t.base = s.base := by
  refine ⟨_, rfl, ?_⟩
  simp

theorem execConv_base (id : Nat) (s : State) : ∃ t, execConv id s = .next t ∧ t.base = s.base := by
  refine ⟨_, rfl, ?_⟩
  simp

theorem execPool_base (id : Nat) (s : State) : ∃ t, execPool id s = .next t ∧ t.base = s.base := by
  refine ⟨_, rfl, ?_⟩
  simp

theorem execDist_base (id : Nat) (s : State) : ∃ t, execDist id s = .next t ∧ t.base = s.base := by
  refine ⟨_, rfl, ?_⟩
  simp

theorem execReduce_base (id : Nat) (s : State) : ∃ t, execReduce id s = .next t ∧ t.base = s.base := by
  refine ⟨_, rfl, ?_⟩
  simp

theorem execVector_base (id : Nat) (s : State) : ∃ t, execVector id s = .next t ∧ t.base = s.base := by
  refine ⟨_, rfl, ?_⟩
  simp

theorem execRoute_base (id : Nat) (s : State) : ∃ t, execRoute id s = .next t ∧ t.base = s.base := by
  refine ⟨_, rfl, ?_⟩
  simp

theorem execSend_base (id : Nat) (s : State) : ∃ t, execSend id s = .next t ∧ t.base = s.base := by
  refine ⟨_, rfl, ?_⟩
  simp

theorem execRecvGather_base (id : Nat) (s : State) : ∃ t, execRecvGather id s = .next t ∧ t.base = s.base := by
  refine ⟨_, rfl, ?_⟩
  simp

theorem execRecvSum_base (id : Nat) (s : State) : ∃ t, execRecvSum id s = .next t ∧ t.base = s.base := by
  refine ⟨_, rfl, ?_⟩
  simp

theorem execRecvChannel_base (id : Nat) (s : State) : ∃ t, execRecvChannel id s = .next t ∧ t.base = s.base := by
  refine ⟨_, rfl, ?_⟩
  simp

theorem execFork_base (id : Nat) (s : State) : ∃ t, execFork id s = .next t ∧ t.base = s.base := by
  refine ⟨_, rfl, ?_⟩
  simp

theorem execLeafAppend_base (id : Nat) (s : State) : ∃ t, execLeafAppend id s = .next t ∧ t.base = s.base := by
  refine ⟨_, rfl, ?_⟩
  simp

theorem execLeafTrim_base (id : Nat) (s : State) : ∃ t, execLeafTrim id s = .next t ∧ t.base = s.base := by
  refine ⟨_, rfl, ?_⟩
  simp

theorem execLeafFree_base (id : Nat) (s : State) : ∃ t, execLeafFree id s = .next t ∧ t.base = s.base := by
  refine ⟨_, rfl, ?_⟩
  simp

theorem execSparge_base (id : Nat) (s : State) : ∃ t, execSparge id s = .next t ∧ t.base = s.base := by
  refine ⟨_, rfl, ?_⟩
  simp

theorem execFence_base (id : Nat) (s : State) : ∃ t, execFence id s = .next t ∧ t.base = s.base := by
  refine ⟨_, rfl, ?_⟩
  simp

theorem execSimmerRampDown_base (core : Nat) (s : State) : ∃ t, execSimmerRampDown core s = .next t ∧ t.base = s.base := by
  refine ⟨_, rfl, ?_⟩
  simp

theorem execRampUpStep_base (core : Nat) (s : State) : ∃ t, execRampUpStep core s = .next t ∧ t.base = s.base := by
  refine ⟨_, rfl, ?_⟩
  rfl

theorem execCommandTimeLimit_base (id : Nat) (waiting : Bool) (s : State) : ∃ t, execCommandTimeLimit id waiting s = .next t ∧ t.base = s.base := by
  refine ⟨_, rfl, ?_⟩
  split
  · rfl
  · refine (base_ite _ _ _).trans ?_
    split
    · rfl
    · split
      · simp
      · split
        · refine State_under_base _ _ _ fun s => ?_
          exact (base_foldl' _ _ _ fun s a => by simp).trans (by simp)
        · simp

theorem execLeafExhausted_base (id : Nat) (s : State) : ∃ t, execLeafExhausted id s = .next t ∧ t.base = s.base := by
  refine ⟨_, rfl, ?_⟩
  (repeat' split) <;> simp

theorem execHeatEpoch_base (s : State) : ∃ t, execHeatEpoch  s = .next t ∧ t.base = s.base := by
  refine ⟨_, rfl, ?_⟩
  simp

theorem execPromotionDone_base (handle : Handle) (s : State) : ∃ t, execPromotionDone handle s = .next t ∧ t.base = s.base := by
  refine ⟨_, rfl, ?_⟩
  (repeat' split) <;> simp

theorem execCellarDirectReadDone_base (handle : Handle) (s : State) : ∃ t, execCellarDirectReadDone handle s = .next t ∧ t.base = s.base := by
  refine ⟨_, rfl, ?_⟩
  simp

theorem execEarlyWriteBack_base (part : Nat) (handle : Handle) (s : State) : ∃ t, execEarlyWriteBack part handle s = .next t ∧ t.base = s.base := by
  refine ⟨_, rfl, ?_⟩
  simp

theorem execWriteBufferAccept_base (handle : Handle) (s : State) : ∃ t, execWriteBufferAccept handle s = .next t ∧ t.base = s.base := by
  refine ⟨_, rfl, ?_⟩
  (repeat' split) <;> first
    | rfl
    | (rename_i hb; have := State_acceptFrame_base _ _ _ _ hb; simpa using this)
    | (simp; done)

theorem execNandProgram_base (s : State) : ∃ t, execNandProgram  s = .next t ∧ t.base = s.base := by
  refine ⟨_, rfl, ?_⟩
  simp only []
  (repeat' split) <;> first | rfl | (simp; done) | (simp_all; done)

theorem execReclamation_base (die : Nat) (s : State) : ∃ t, execReclamation die s = .next t ∧ t.base = s.base := by
  refine ⟨_, rfl, ?_⟩
  (repeat' split) <;> simp

theorem execProgramEraseFailure_base (die block : Nat) (s : State) : ∃ t, execProgramEraseFailure die block s = .next t ∧ t.base = s.base := by
  refine ⟨_, rfl, ?_⟩
  (repeat' split) <;> simp

theorem execCellarReadDone_base (handle : Handle) (rung : Rung) (s : State) : ∃ t, execCellarReadDone handle rung s = .next t ∧ t.base = s.base := by
  refine ⟨_, rfl, ?_⟩
  (repeat' split) <;> simp

theorem execWeightCopyArrival_base (handle : Handle) (data : List Byte) (tags : List (BitVec 4)) (s : State) : ∃ t, execWeightCopyArrival handle data tags s = .next t ∧ t.base = s.base := by
  refine ⟨_, rfl, ?_⟩
  simp

theorem execWeightFetchTimeout_base (handle : Handle) (s : State) : ∃ t, execWeightFetchTimeout handle s = .next t ∧ t.base = s.base := by
  refine ⟨_, rfl, ?_⟩
  simp

theorem execCaskRestartDone_base (ports : List PortRead) (s : State) : ∃ t, execCaskRestartDone ports s = .next t ∧ t.base = s.base := by
  refine ⟨_, rfl, ?_⟩
  simp

theorem execDeviceTemperatureRead_base (port t0 t1 : Nat) (s : State) : ∃ t, execDeviceTemperatureRead port t0 t1 s = .next t ∧ t.base = s.base := by
  refine ⟨_, rfl, ?_⟩
  simp

theorem execNegotiation_base (port : Nat) (net : NegIn) (s : State) : ∃ t, execNegotiation port net s = .next t ∧ t.base = s.base := by
  refine ⟨_, rfl, ?_⟩
  simp

theorem execNegotiationStepLimit_base (port step : Nat) (s : State) : ∃ t, execNegotiationStepLimit port step s = .next t ∧ t.base = s.base := by
  refine ⟨_, rfl, ?_⟩
  simp

theorem execNegotiationRetry_base (port : Nat) (s : State) : ∃ t, execNegotiationRetry port s = .next t ∧ t.base = s.base := by
  refine ⟨_, rfl, ?_⟩
  simp

theorem execRenegotiation_base (port : Nat) (net : NegIn) (s : State) : ∃ t, execRenegotiation port net s = .next t ∧ t.base = s.base := by
  refine ⟨_, rfl, ?_⟩
  simp

theorem execPartnerLoss_base (port : Nat) (s : State) : ∃ t, execPartnerLoss port s = .next t ∧ t.base = s.base := by
  refine ⟨_, rfl, ?_⟩
  simp

theorem execEdgePortUp_base (port : Nat) (s : State) : ∃ t, execEdgePortUp port s = .next t ∧ t.base = s.base := by
  refine ⟨_, rfl, ?_⟩
  simp

theorem execEdgePortDown_base (port : Nat) (s : State) : ∃ t, execEdgePortDown port s = .next t ∧ t.base = s.base := by
  refine ⟨_, rfl, ?_⟩
  simp

theorem execHelloSend_base (port : Nat) (s : State) : ∃ t, execHelloSend port s = .next t ∧ t.base = s.base := by
  refine ⟨_, rfl, ?_⟩
  simp

theorem execHelloReceive_base (port : Nat) (hello : List W32) (s : State) : ∃ t, execHelloReceive port hello s = .next t ∧ t.base = s.base := by
  refine ⟨_, rfl, ?_⟩
  simp

theorem execParcelArrival_base (port : Nat) (parcel : Parcel) (trailer : W32) (s : State) : ∃ t, execParcelArrival port parcel trailer s = .next t ∧ t.base = s.base := by
  refine ⟨_, rfl, ?_⟩
  simp

theorem execResendRequestReceive_base (rq : Nat) (s : State) : ∃ t, execResendRequestReceive rq s = .next t ∧ t.base = s.base := by
  refine ⟨_, rfl, ?_⟩
  refine State_onParcel_base _ _ _ _ fun p t => ?_
  try simp only []
  (repeat' split) <;> first | rfl | (simp; done) | (simp_all; done)

theorem execQueryReceive_base (rq : Nat) (s : State) : ∃ t, execQueryReceive rq s = .next t ∧ t.base = s.base := by
  refine ⟨_, rfl, ?_⟩
  refine State_onParcel_base _ _ _ _ fun p t => ?_
  try simp only []
  (repeat' split) <;> first | rfl | (simp; done) | (simp_all; done)

theorem execQueryReplyReceive_base (rq : Nat) (s : State) : ∃ t, execQueryReplyReceive rq s = .next t ∧ t.base = s.base := by
  refine ⟨_, rfl, ?_⟩
  refine State_onParcel_base _ _ _ _ fun p t => ?_
  try simp only []
  (repeat' split) <;> first | rfl | (simp; done) | (simp_all; done)

theorem execQueryDataReceive_base (rq : Nat) (s : State) : ∃ t, execQueryDataReceive rq s = .next t ∧ t.base = s.base := by
  refine ⟨_, rfl, ?_⟩
  refine State_onParcel_base _ _ _ _ fun p t => ?_
  try simp only []
  (repeat' split) <;> first | rfl | (simp; done) | (simp_all; done)

theorem execParcelExpiry_base (rq : Nat) (s : State) : ∃ t, execParcelExpiry rq s = .next t ∧ t.base = s.base := by
  refine ⟨_, rfl, ?_⟩
  (repeat' split) <;> simp

theorem execUnreachableQuery_base (addr : Nat) (s : State) : ∃ t, execUnreachableQuery addr s = .next t ∧ t.base = s.base := by
  refine ⟨_, rfl, ?_⟩
  simp

theorem execTimeParcelSend_base (port : Nat) (s : State) : ∃ t, execTimeParcelSend port s = .next t ∧ t.base = s.base := by
  refine ⟨_, rfl, ?_⟩
  simp

theorem execTimeParcelReceive_base (port : Nat) (payload : List W32) (arrival : W64) (s : State) : ∃ t, execTimeParcelReceive port payload arrival s = .next t ∧ t.base = s.base := by
  refine ⟨_, rfl, ?_⟩
  simp only []
  (repeat' split) <;> first | rfl | (simp; done) | (simp_all; done)

theorem execSyncRisingEdge_base (s : State) : ∃ t, execSyncRisingEdge  s = .next t ∧ t.base = s.base := by
  refine ⟨_, rfl, ?_⟩
  simp

theorem execDownBlockResendWait_base (channel : Nat) (s : State) : ∃ t, execDownBlockResendWait channel s = .next t ∧ t.base = s.base := by
  refine ⟨_, rfl, ?_⟩
  simp

theorem execUpdateLeafWaitTimeout_base (s : State) : ∃ t, execUpdateLeafWaitTimeout  s = .next t ∧ t.base = s.base := by
  refine ⟨_, rfl, ?_⟩
  simp

theorem execPublish_base (slot : Nat) (s : State) : ∃ t, execPublish slot s = .next t ∧ t.base = s.base := by
  refine ⟨_, rfl, ?_⟩
  simp

theorem execSpargeResendReceive_base (rq : Nat) (s : State) : ∃ t, execSpargeResendReceive rq s = .next t ∧ t.base = s.base := by
  refine ⟨_, rfl, ?_⟩
  refine State_onSparge_base _ _ _ _ fun p t => ?_
  try simp only []
  (repeat' split) <;> first | rfl | (simp; done) | (simp_all; done)

theorem execBackupBlockArrival_base (rq : Nat) (s : State) : ∃ t, execBackupBlockArrival rq s = .next t ∧ t.base = s.base := by
  refine ⟨_, rfl, ?_⟩
  refine State_onSparge_base _ _ _ _ fun p t => ?_
  try simp only []
  (repeat' split) <;> first | rfl | (simp; done) | (simp_all; done)

theorem execBackupDeadline_base (channel seq : Nat) (s : State) : ∃ t, execBackupDeadline channel seq s = .next t ∧ t.base = s.base := by
  refine ⟨_, rfl, ?_⟩
  simp

theorem execStepTimerExpiry_base (channel : Nat) (s : State) : ∃ t, execStepTimerExpiry channel s = .next t ∧ t.base = s.base := by
  refine ⟨_, rfl, ?_⟩
  simp

theorem execAbortReceive_base (rq : Nat) (s : State) : ∃ t, execAbortReceive rq s = .next t ∧ t.base = s.base := by
  refine ⟨_, rfl, ?_⟩
  refine State_onSparge_base _ _ _ _ fun p t => ?_
  try simp only []
  (repeat' split) <;> first | rfl | (simp; done) | (simp_all; done)

theorem execMirrorParcelReceive_base (rq : Nat) (s : State) : ∃ t, execMirrorParcelReceive rq s = .next t ∧ t.base = s.base := by
  refine ⟨_, rfl, ?_⟩
  refine State_onMirror_base _ _ _ _ fun p t => ?_
  try simp only []
  (repeat' split) <;> first | rfl | (simp; done) | (simp_all; done)

theorem execMirrorAdmissionTimeout_base (owner stream : Nat) (s : State) : ∃ t, execMirrorAdmissionTimeout owner stream s = .next t ∧ t.base = s.base := by
  refine ⟨_, rfl, ?_⟩
  simp only []
  (repeat' split) <;> first | rfl | (simp; done) | (simp_all; done)

theorem execMirrorAckReceive_base (rq : Nat) (s : State) : ∃ t, execMirrorAckReceive rq s = .next t ∧ t.base = s.base := by
  refine ⟨_, rfl, ?_⟩
  refine State_onMirror_base _ _ _ _ fun p t => ?_
  try simp only []
  (repeat' split) <;> first | rfl | (simp; done) | (simp_all; done)

theorem execMirrorRefusalReceive_base (rq : Nat) (s : State) : ∃ t, execMirrorRefusalReceive rq s = .next t ∧ t.base = s.base := by
  refine ⟨_, rfl, ?_⟩
  refine State_onMirror_base _ _ _ _ fun p t => ?_
  try simp only []
  (repeat' split) <;> first | rfl | (simp; done) | (simp_all; done)

theorem execMirrorAckTimeout_base (stream : Nat) (s : State) : ∃ t, execMirrorAckTimeout stream s = .next t ∧ t.base = s.base := by
  refine ⟨_, rfl, ?_⟩
  simp

theorem execMirrorReleaseReceive_base (rq : Nat) (s : State) : ∃ t, execMirrorReleaseReceive rq s = .next t ∧ t.base = s.base := by
  refine ⟨_, rfl, ?_⟩
  refine State_onMirror_base _ _ _ _ fun p t => ?_
  try simp only []
  (repeat' split) <;> first | rfl | (simp; done) | (simp_all; done)

theorem execMirrorMapSweep_base (s : State) : ∃ t, execMirrorMapSweep  s = .next t ∧ t.base = s.base := by
  refine ⟨_, rfl, ?_⟩
  simp

theorem execRollCall_base (s : State) : ∃ t, execRollCall  s = .next t ∧ t.base = s.base := by
  refine ⟨_, rfl, ?_⟩
  simp

theorem execRollCallReceive_base (rq : Nat) (s : State) : ∃ t, execRollCallReceive rq s = .next t ∧ t.base = s.base := by
  refine ⟨_, rfl, ?_⟩
  refine State_onMirror_base _ _ _ _ fun p t => ?_
  try simp only []
  (repeat' split) <;> first | rfl | (simp; done) | (simp_all; done)

theorem execRollAnswerReceive_base (rq : Nat) (s : State) : ∃ t, execRollAnswerReceive rq s = .next t ∧ t.base = s.base := by
  refine ⟨_, rfl, ?_⟩
  refine State_onMirror_base _ _ _ _ fun p t => ?_
  try simp only []
  (repeat' split) <;> first | rfl | (simp; done) | (simp_all; done)

theorem execOwnerLost_base (owner : Nat) (s : State) : ∃ t, execOwnerLost owner s = .next t ∧ t.base = s.base := by
  refine ⟨_, rfl, ?_⟩
  simp

theorem execDmaChannelStart_base (sec : Nat) (s : State) : ∃ t, execDmaChannelStart sec s = .next t ∧ t.base = s.base := by
  refine ⟨_, rfl, ?_⟩
  (repeat' split) <;> simp

theorem execErrataFoldFlush_base (s : State) : ∃ t, execErrataFoldFlush  s = .next t ∧ t.base = s.base := by
  refine ⟨_, rfl, ?_⟩
  simp

theorem execWindowExpiry_base (s : State) : ∃ t, execWindowExpiry  s = .next t ∧ t.base = s.base := by
  refine ⟨_, rfl, ?_⟩
  simp

theorem execMakerSessionExpiry_base (q : Nat) (s : State) : ∃ t, execMakerSessionExpiry q s = .next t ∧ t.base = s.base := by
  refine ⟨_, rfl, ?_⟩
  simp

theorem execOutputShort_base (pin : Pin) (low : Bool) (s : State) : ∃ t, execOutputShort pin low s = .next t ∧ t.base = s.base := by
  refine ⟨_, rfl, ?_⟩
  simp

theorem execShortRetry_base (pin : Pin) (good : Bool) (s : State) : ∃ t, execShortRetry pin good s = .next t ∧ t.base = s.base := by
  refine ⟨_, rfl, ?_⟩
  simp

theorem execPresentTest_base (low : Bool) (s : State) : ∃ t, execPresentTest low s = .next t ∧ t.base = s.base := by
  refine ⟨_, rfl, ?_⟩
  simp

theorem execSyncHeld_base (s : State) : ∃ t, execSyncHeld  s = .next t ∧ t.base = s.base := by
  refine ⟨_, rfl, ?_⟩
  simp

theorem execDebugInstruction_base (s : State) : ∃ t, execDebugInstruction  s = .next t ∧ t.base = s.base := by
  refine ⟨_, rfl, ?_⟩
  simp

theorem execTimeSourceExpiry_base (s : State) : ∃ t, execTimeSourceExpiry  s = .next t ∧ t.base = s.base := by
  refine ⟨_, rfl, ?_⟩
  simp

theorem execSyncThrottleInput_base (level : Bool) (s : State) : ∃ t, execSyncThrottleInput level s = .next t ∧ t.base = s.base := by
  refine ⟨_, rfl, ?_⟩
  simp

theorem execLinkRetrained_base (s : State) : ∃ t, execLinkRetrained  s = .next t ∧ t.base = s.base := by
  refine ⟨_, rfl, ?_⟩
  simp

theorem execInputReversed_base (reversed : Bool) (s : State) : ∃ t, execInputReversed reversed s = .next t ∧ t.base = s.base := by
  refine ⟨_, rfl, ?_⟩
  simp

theorem execSessionLockoutExpiry_base (s : State) : ∃ t, execSessionLockoutExpiry  s = .next t ∧ t.base = s.base := by
  refine ⟨_, rfl, ?_⟩
  rfl

theorem execChallengeExpiry_base (q : Nat) (s : State) : ∃ t, execChallengeExpiry q s = .next t ∧ t.base = s.base := by
  refine ⟨_, rfl, ?_⟩
  rfl

theorem execMirrorLeafSent_base (sid : Nat) (handle : Handle) (s : State) : ∃ t, execMirrorLeafSent sid handle s = .next t ∧ t.base = s.base := by
  refine ⟨_, rfl, ?_⟩
  simp only []
  (repeat' split) <;> first | rfl | (simp; done) | (simp_all; done)

theorem execLinkCreditGrant_base (port units : Nat) (s : State) : ∃ t, execLinkCreditGrant port units s = .next t ∧ t.base = s.base := by
  refine ⟨_, rfl, ?_⟩
  simp

theorem execThermalTrip_kept (s : State) : ∃ t, execThermalTrip s = .next t ∧ Kept s t := by
  refine ⟨_, rfl, ?_⟩
  refine .ite (fun _ => .refl _) fun _ => ?_
  exact State_unplanned_kept _

theorem execUndervoltage_kept (s : State) : ∃ t, execUndervoltage s = .next t ∧ Kept s t :=
  ⟨_, rfl, State_inputLost_kept _⟩

theorem execOvervoltage_kept (s : State) : ∃ t, execOvervoltage s = .next t ∧ Kept s t :=
  ⟨_, rfl, State_inputLost_kept _⟩

theorem execPassStart_kept (id : Nat) (errs : List SectorError) (s : State) :
    ∃ t, execPassStart id errs s = .next t ∧ Kept s t := by
  refine ⟨_, rfl, ?_⟩
  split
  · exact .of_base (by simp)
  · refine .ite (fun _ => .refl _) fun _ => ?_
    simp only []
    have h : Kept s (errs.foldl (fun s x => s.sectorError x) s) := State_sectorErrors_kept _ _
    generalize errs.foldl (fun s x => s.sectorError x) s = u at h ⊢
    refine h.trans (.of_base ?_)
    split
    · rfl
    · split
      · simp
      · refine State_under_base _ _ _ fun s => ?_
        split
        · rename_i hb
          exact State_meetPoison_base _ _ _ hb
        · split <;> simp

theorem execRetrainingPause_kept (port : Nat) (pins : List W32) (answered pinsOk : Bool) (s : State) :
    ∃ t, execRetrainingPause port pins answered pinsOk s = .next t ∧ Kept s t := by
  refine ⟨_, rfl, ?_⟩
  exact .ite (fun _ => .refl _) fun _ => .ite (fun _ => State_takePortOut_kept _ _ _) fun _ =>
    .ite (fun _ => State_takePortOut_kept _ _ _) fun _ => .ite (fun _ => .refl _) fun _ => .of_base (by simp)

theorem execColdStart_kept (start : StartIn) (s : State) : ∃ t, execColdStart start s = .next t ∧ Kept s t :=
  ⟨_, rfl, .ite (fun _ => State_startFrom_kept _ _ _ _) fun _ => .refl _⟩

theorem execExitStandby_kept (start : StartIn) (s : State) : ∃ t, execExitStandby start s = .next t ∧ Kept s t :=
  ⟨_, rfl, .ite (fun _ => State_startFrom_kept _ _ _ _) fun _ => .refl _⟩

theorem execRestart_kept (q tag : Nat) (start : StartIn) (s : State) :
    ∃ t, execRestart q tag start s = .next t ∧ Kept s t := by
  refine ⟨_, rfl, ?_⟩
  refine State_onStarted_kept _ _ _ _ _ _ fun t => ?_
  refine (State_startFrom_kept _ _ _ _).step ?_
  simp
  exact .refl _

theorem execPowerEntryComplete_kept (s : State) : ∃ t, execPowerEntryComplete s = .next t ∧ Kept s t := by
  refine ⟨_, rfl, ?_⟩
  split
  · exact .refl _
  · refine .ite (fun _ => .refl _) fun _ => ?_
    split
    · exact .of_base (by simp)
    · refine .ite (fun _ => .of_base (by simp)) fun _ => ?_
      simp only []
      have h : Kept s (s.dormantDue.foldl (fun s h => s.writeBackNow h) s) := .of_base (by simp)
      exact .ite (fun _ => h.trans (State_enterDormant_kept _)) fun _ => h
    · simp only []
      have h : Kept s (s.standbyDue.foldl (fun s h => s.writeBackNow h) s) := .of_base (by simp)
      generalize s.standbyDue.foldl (fun s h => s.writeBackNow h) s = u at h ⊢
      refine h.trans (.ite (fun _ => .refl _) fun _ => ?_)
      have k (c : Cellar → Cellar) : Kept u (u.modCellar c).payIndex := .of_base (by simp)
      exact .ite (fun _ => (k _).trans (State_enterStandby_kept _)) fun _ => k _
    · exact .refl _

theorem execExitDormant_kept (ports : List PortRead) (s : State) :
    ∃ t, execExitDormant ports s = .next t ∧ Kept s t := by
  refine ⟨_, rfl, ?_⟩
  refine .ite (fun _ => ?_) fun _ => .refl _
  unfold Kept
  simp
  refine (Kept.foldl _ (fun _ _ => State_loadTables_kept _ _) _ _).step ?_
  simp
  exact .refl _

theorem execCoreFailure_kept (sec phys : Nat) (s : State) : ∃ t, execCoreFailure sec phys s = .next t ∧ Kept s t :=
  ⟨_, rfl, State_runFailure_kept _ _ _⟩

theorem execSliceReportTimeout_kept (id core : Nat) (s : State) :
    ∃ t, execSliceReportTimeout id core s = .next t ∧ Kept s t := by
  refine ⟨_, rfl, ?_⟩
  split
  · exact .ite (fun _ => .refl _) fun _ => State_failSlice_kept _ _
  · exact .ite (fun _ => State_failSlice_kept _ _) fun _ => .refl _

theorem execCoreService_kept (q tag : Nat) (s : State) : ∃ t, execCoreService q tag s = .next t ∧ Kept s t := by
  refine ⟨_, rfl, ?_⟩
  refine State_onStarted_kept _ _ _ _ _ _ fun t => ?_
  simp only []
  refine .ite (fun _ => .of_base (by simp)) fun _ => ?_
  unfold Kept
  simp
  refine .ite (fun _ => .refl _) fun _ => ?_
  refine (State_coreFails_kept _ _ _).step ?_
  simp
  exact .refl _

theorem execSelfTest_kept (q tag : Nat) (failed : BitVec 17) (s : State) :
    ∃ t, execSelfTest q tag failed s = .next t ∧ Kept s t := by
  refine ⟨_, rfl, ?_⟩
  refine State_onStarted_kept _ _ _ _ _ _ fun t => ?_
  unfold Kept
  simp
  refine (Kept.foldl _ (fun _ _ => State_coreFails_kept _ _ _) _ _).step ?_
  simp
  refine (Kept.foldl _ (fun _ _ => State_loadTables_kept _ _) _ _).step ?_
  refine (Kept.moveCores _ _ _).step ?_
  simp
  exact .refl _

theorem execCommitVersion_kept (q tag : Nat) (s : State) : ∃ t, execCommitVersion q tag s = .next t ∧ Kept s t := by
  refine ⟨_, rfl, ?_⟩
  refine State_onStarted_kept _ _ _ _ _ _ fun t => ?_
  simp only []
  have h (v : W32) : Kept s (State.countUp (v.toNat - s.nor.versionCounter.toNat) s) := by
    refine State_countUp_kept _ _ ?_
    have := v.isLt
    have := s.nor.versionCounter.isLt
    omega
  unfold Kept
  simp
  refine .ite (fun _ => h _) fun _ => ?_
  exact (State_setAnchor_kept _ _ _).step (h _)

theorem execInstallImprint_kept (q tag : Nat) (image : Imprint) (s : State) :
    ∃ t, execInstallImprint q tag image s = .next t ∧ Kept s t := by
  refine ⟨_, rfl, ?_⟩
  refine State_onStarted_kept _ _ _ _ _ _ fun t => ?_
  simp only []
  refine .ite (fun _ => .of_base (by simp)) fun _ => .ite (fun _ => .of_base (by simp)) fun _ =>
    .ite (fun _ => .of_base (by split <;> simp)) fun _ => ?_
  unfold Kept
  simp
  exact (State_rotate_kept _ _).step (Kept.setNor s _ (Nat.le_refl _))

theorem execInstallFirmware_kept (q tag : Nat) (image : Firmware) (s : State) :
    ∃ t, execInstallFirmware q tag image s = .next t ∧ Kept s t := by
  refine ⟨_, rfl, ?_⟩
  refine State_onStarted_kept _ _ _ _ _ _ fun t => ?_
  refine .ite (fun _ => ?_) fun _ => .of_base (by simp)
  unfold Kept
  simp
  exact Kept.setNor s _ (Nat.le_refl _)

theorem execOpenSessionAnswer_kept (q tag : Nat) (answer : SessionAnswer) (s : State) :
    ∃ t, execOpenSessionAnswer q tag answer s = .next t ∧ Kept s t := by
  refine ⟨_, rfl, ?_⟩
  refine State_onStarted_kept _ _ _ _ _ _ fun t => ?_
  simp only []
  refine .ite (fun _ => .of_base (by simp)) fun _ => .ite (fun _ => .of_base (by simp)) fun _ => ?_
  unfold Kept
  simp
  exact .ite (fun _ => State_setAnchor_kept _ _ _) fun _ => .refl _

theorem execRequestDatagram_kept (port : Nat) (dgram : Datagram) (s : State) :
    ∃ t, execRequestDatagram port dgram s = .next t ∧ Kept s t := by
  refine ⟨_, rfl, ?_⟩
  refine .ite (fun _ => .refl _) fun _ => .ite (fun _ => .of_base (by simp)) fun _ => ?_
  split
  · exact .ite (fun _ => .of_base (by simp)) fun _ => State_takeInput_kept _ _ _
  · exact State_openCtx_kept _ _ _

theorem execDmaChannelDone_kept (sec : Nat) (host : HostData) (s : State) :
    ∃ t, execDmaChannelDone sec host s = .next t ∧ Kept s t := by
  refine ⟨_, rfl, ?_⟩
  split
  · exact .refl _
  · refine .ite (fun _ => .refl _) fun _ => ?_
    exact .trans (State_meetErrors_kept _) (State_endTransfer_kept _ _ _ _)

theorem execDmaHalt_kept (sec : Nat) (cause : BitVec 4) (dir : Bool) (addr : W64) (done : Nat) (host : HostData)
    (s : State) : ∃ t, execDmaHalt sec cause dir addr done host s = .next t ∧ Kept s t := by
  refine ⟨_, rfl, ?_⟩
  split
  · exact .refl _
  · refine .ite (fun _ => .refl _) fun _ => ?_
    unfold Kept
    simp
    refine .ite (fun _ => ?_) fun _ => ?_
    · exact (State_readBad_kept _ _ _).step (Kept.ite (fun _ => State_moveTo_kept _ _ _ _ _) fun _ => .refl _)
    · exact .ite (fun _ => State_moveTo_kept _ _ _ _ _) fun _ => .refl _

theorem execCommitFlip_kept (id arrTime : Nat) (s : State) :
    ∃ t, execCommitFlip id arrTime s = .next t ∧ Kept s t := by
  refine ⟨_, rfl, ?_⟩
  split
  · exact .refl _
  · refine .ite (fun _ => .refl _) fun _ => ?_
    refine Kept.trans (State_meetErrors_kept s) ?_
    generalize s.meetErrors = u
    simp only []
    generalize (if badLine s.rack.flawed = true then u.cmd? id else none) = o
    cases o with
    | some c => exact .of_base (by simp)
    | none => exact State_tryCommit_kept _ _ _

theorem execCommitSweep_kept (s : State) : ∃ t, execCommitSweep s = .next t ∧ Kept s t := by
  refine ⟨_, rfl, ?_⟩
  refine .ite (fun _ => .refl _) fun _ => ?_
  have h (l : List Cmd) (s : State) : Kept s (l.foldl (fun s c =>
      match s.cmd? c.id with
      | some c => s.under c fun s => if s.inTurn c && (s.unwritable c).isEmpty then s.commit c c.arr else s
      | none => s) s) := by
    refine .foldl _ (fun s c => ?_) _ _
    split
    · exact State_under_kept _ _ _ fun s => .ite (fun _ => State_commit_kept _ _ _) fun _ => .refl _
    · exact .refl _
  unfold Kept
  simp only []
  refine (Kept.foldl (fun s sec => s.settleCores sec) (fun s sec => State_settleCores_kept s sec) _ _).step ?_
  rw [base_foldl' (fun s x => State.spargeIntake s x) _ _ fun s x => by simp, State_modFabric_base]
  refine (h _ _).step ?_
  simp
  exact .refl _

theorem execInitSet_kept (q tag : Nat) (s : State) : ∃ t, execInitSet q tag s = .next t ∧ Kept s t := by
  refine ⟨_, rfl, ?_⟩
  refine State_onStarted_kept _ _ _ _ _ _ fun t => ?_
  simp only []
  refine .ite (fun _ => .of_base (by simp)) fun _ => .ite (fun _ => .of_base (by simp)) fun _ => ?_
  unfold Kept
  simp
  exact State_initRecords_kept _ _ _

theorem execLoadPlan_kept (q tag : Nat) (image : List Byte) (s : State) :
    ∃ t, execLoadPlan q tag image s = .next t ∧ Kept s t := by
  refine ⟨_, rfl, ?_⟩
  refine State_onStarted_kept _ _ _ _ _ _ fun t => ?_
  simp only []
  refine .ite (fun _ => .of_base (by simp)) fun _ => .ite (fun _ => .refl _) fun _ => ?_
  split
  · exact .of_base (by simp)
  · rename_i hb
    have hb := State_placeWeights_base _ _ _ _ _ _ _ _ hb
    unfold Kept
    simp
    refine (State_enterPlan_kept _ _ _ _ _).step ?_
    simp at hb
    rw [hb]
    exact .refl _

theorem execLoadPlanAdopt_kept (q tag : Nat) (image : List Byte) (s : State) :
    ∃ t, execLoadPlanAdopt q tag image s = .next t ∧ Kept s t := by
  refine ⟨_, rfl, ?_⟩
  refine State_onStarted_kept _ _ _ _ _ _ fun t => ?_
  simp only []
  refine .ite (fun _ => .of_base (by simp)) fun _ => ?_
  split
  · exact .of_base (by simp)
  · refine .ite (fun _ => .of_base (by simp)) fun _ => ?_
    unfold Kept
    simp
    refine (State_enterPlan_kept _ _ _ _ _).step ?_
    simp
    exact .refl _

theorem execPortService_kept (q tag : Nat) (s : State) : ∃ t, execPortService q tag s = .next t ∧ Kept s t := by
  refine ⟨_, rfl, ?_⟩
  refine State_onStarted_kept _ _ _ _ _ _ fun t => ?_
  simp only []
  refine .ite (fun _ => ?_) fun _ => .of_base (by simp)
  refine (State_takePortOut_kept _ _ _).step ?_
  simp
  exact .refl _

theorem execAddBlock_kept (channel : Nat) (s : State) :
    ∃ t, execAddBlock channel s = .next t ∧ Kept s t := by
  refine ⟨_, rfl, ?_⟩
  refine .ite (fun _ => .refl _) fun _ => ?_
  exact .trans (State_meetErrors_kept _) (State_addBlock_kept _ _ _)

theorem execSectionStoreCopyDone_kept (handle : Handle) (s : State) :
    ∃ t, execSectionStoreCopyDone handle s = .next t ∧ Kept s t := by
  refine ⟨_, rfl, ?_⟩
  split
  · exact .refl _
  · exact .ite (fun _ => .refl _) fun _ => State_afterErrors_kept _ _ _ fun _ _ => .of_base (by simp)

theorem execWriteBackAdmitted_kept (handle : Handle) (s : State) :
    ∃ t, execWriteBackAdmitted handle s = .next t ∧ Kept s t := by
  refine ⟨_, rfl, ?_⟩
  split
  · exact .of_base (by simp)
  · exact .ite (fun _ => .refl _) fun _ => State_afterErrors_kept _ _ _ fun _ _ => .of_base (by simp)

theorem execLoadTable_kept (q tag : Nat) (entries : List W32) (s : State) :
    ∃ t, execLoadTable q tag entries s = .next t ∧ Kept s t := by
  refine ⟨_, rfl, ?_⟩
  refine State_onStarted_kept _ _ _ _ _ _ fun t => ?_
  unfold Kept
  simp
  exact State_loadTable_kept _ _ _ _

theorem execDownBlockReceive_kept (channel : Nat) (s : State) :
    ∃ t, execDownBlockReceive channel s = .next t ∧ Kept s t := ⟨_, rfl, State_takeDown_kept _ _⟩

theorem execCreditParcelReceive_kept (rq : Nat) (s : State) :
    ∃ t, execCreditParcelReceive rq s = .next t ∧ Kept s t := by
  refine ⟨_, rfl, ?_⟩
  unfold State.onSparge
  split
  · refine .ite (fun _ => ?_) fun _ => .refl _
    refine Kept.trans (t := s.dropRx rq) (.of_base (by simp)) ?_
    generalize s.dropRx rq = u
    simp only []
    refine .ite (fun _ => .of_base (by rw [State_countAged_base]; rfl)) fun _ => .ite (fun _ => .of_base (by simp)) fun _ => ?_
    split
    · refine (State_pump_kept _ _).step ?_
      simp
      exact .refl _
    · exact .of_base rfl
  · exact .refl _

theorem execCaskTrainingDone_kept (results : List PortTrain) (s : State) :
    ∃ t, execCaskTrainingDone results s = .next t ∧ Kept s t := by
  refine ⟨_, rfl, ?_⟩
  simp only []
  have h : Kept s (results.foldl (fun s r => s.trained r) s) := .foldl _ (fun _ _ => State_trained_kept _ _) _ _
  generalize results.foldl (fun s r => s.trained r) s = u at h ⊢
  refine h.trans ?_
  refine .ite (fun _ => .refl _) fun _ => .ite (fun _ => .of_base (by simp)) fun _ => .ite (fun _ => .refl _) fun _ =>
    .ite (fun _ => .of_base (by simp)) fun _ => ?_
  split
  · refine (State_caskRestart_kept _ _).step ?_
    simp
    exact .refl _
  · exact .of_base (by simp)

end Sys2Proof.Machine
end

