-- ==== Sys2Proof/Laws/Shape.lean ====
section
/-! SUPPORT. Every operation keeps the sizes of the register files. One lemma for each operation, in the order of the
definitions. -/

set_option maxRecDepth 4000
namespace Sys2Proof.Machine


theorem shape_congr {s t : State}
    (h : t.port.queues.length = s.port.queues.length ∧ t.port.attnCount.length = s.port.attnCount.length ∧
      t.port.attnLast.length = s.port.attnLast.length ∧ t.port.engines.length = s.port.engines.length ∧
      t.mem.length = s.mem.length ∧ t.sects.length = s.sects.length ∧ t.cores.length = s.cores.length ∧
      t.slots.length = s.slots.length ∧ t.parts.length = s.parts.length ∧ t.logs.length = s.logs.length ∧
      t.fabric.ports.length = s.fabric.ports.length ∧ t.channels.length = s.channels.length ∧
      t.board.pins.length = s.board.pins.length ∧ t.cellar.dies.length = s.cellar.dies.length) : t.shape = s.shape := by
  simp [State.shape, h]

@[simp] theorem shape_mk (s : State) (o d po no id er se co ca cm cl sm il cr me ra ce st sl re pa cmds nc lo fa ch ma bu pw ti bo)
    (h1 : po.queues.length = s.port.queues.length) (h2 : po.attnCount.length = s.port.attnCount.length)
    (h3 : po.attnLast.length = s.port.attnLast.length) (h4 : po.engines.length = s.port.engines.length)
    (h5 : me.length = s.mem.length) (h6 : se.length = s.sects.length) (h7 : co.length = s.cores.length)
    (h8 : sl.length = s.slots.length) (h9 : pa.length = s.parts.length) (h10 : lo.length = s.logs.length)
    (h11 : fa.ports.length = s.fabric.ports.length) (h12 : ch.length = s.channels.length)
    (h13 : bo.pins.length = s.board.pins.length) (h14 : ce.dies.length = s.cellar.dies.length) :
    (State.mk s.pending o d po no id er se co ca cm cl sm il cr me ra ce st sl re pa cmds nc lo fa ch ma bu pw ti bo).shape =
      s.shape := by simp only [State.shape, *]

@[simp] theorem shape_ite (c : Prop) [Decidable c] (a b : State) :
    (if c then a else b).shape = if c then a.shape else b.shape := by split <;> rfl

@[simp] theorem shape_foldl {α : Type} (g : State → α → State) (h : ∀ s x, (g s x).shape = s.shape) (l : List α) (s : State) :
    (l.foldl g s).shape = s.shape := by
  induction l generalizing s with
  | nil => rfl
  | cons a t ih => simp [ih, h]

theorem shape_foldl' {α : Type} (g : State → α → State) (l : List α) (s : State) (h : ∀ s x, (g s x).shape = s.shape) :
    (l.foldl g s).shape = s.shape := shape_foldl g h l s

theorem shape_foldlP {α : Type} (g : Prep → α → Prep) (l : List α) (p : Prep) (h : ∀ p x, (g p x).s.shape = p.s.shape) :
    (l.foldl g p).s.shape = p.s.shape := by
  induction l generalizing p with
  | nil => rfl
  | cons a t ih => simp [ih, h]

/-- The sizes of the control port. -/
def Port.lens (p : Port) : List Nat := [p.queues.length, p.attnCount.length, p.attnLast.length, p.engines.length]

@[simp] theorem armBuffers_queues (p : Port) : p.armBuffers.queues = p.queues := by
  obtain ⟨_, _, h⟩ := armBuffers_frame p; rw [h]
@[simp] theorem armBuffers_attnCount (p : Port) : p.armBuffers.attnCount = p.attnCount := by
  obtain ⟨_, _, h⟩ := armBuffers_frame p; rw [h]
@[simp] theorem armBuffers_attnLast (p : Port) : p.armBuffers.attnLast = p.attnLast := by
  obtain ⟨_, _, h⟩ := armBuffers_frame p; rw [h]
@[simp] theorem armBuffer_engines (p : Port) (t : Started) : (armBuffer p t).engines.length = p.engines.length := by
  unfold armBuffer; (repeat' split) <;> simp
@[simp] theorem armBuffers_engines (p : Port) : p.armBuffers.engines.length = p.engines.length := by
  unfold Port.armBuffers
  have h (l : List Started) (u : Port) : (l.foldl armBuffer u).engines.length = u.engines.length := by
    induction l generalizing u with
    | nil => rfl
    | cons a l ih => rw [List.foldl_cons, ih, armBuffer_engines]
  exact h _ _
@[simp] theorem leave_queues (p : Port) (a b c) : (p.leave a b c).queues = p.queues := rfl
@[simp] theorem leave_attnCount (p : Port) (a b c) : (p.leave a b c).attnCount = p.attnCount := rfl
@[simp] theorem leave_attnLast (p : Port) (a b c) : (p.leave a b c).attnLast = p.attnLast := rfl
@[simp] theorem leave_engines (p : Port) (a b c) : (p.leave a b c).engines.length = p.engines.length := by simp [Port.leave]
@[simp] theorem attend_queues (p : Port) (a b) : (p.attend a b).queues = p.queues := rfl
@[simp] theorem attend_attnCount (p : Port) (a b) : (p.attend a b).attnCount.length = p.attnCount.length := by simp [Port.attend]
@[simp] theorem attend_attnLast (p : Port) (a b) : (p.attend a b).attnLast.length = p.attnLast.length := by simp [Port.attend]
@[simp] theorem attend_engines (p : Port) (a b) : (p.attend a b).engines = p.engines := rfl
@[simp] theorem modQueue_queues (p : Port) (a b) : (p.modQueue a b).queues.length = p.queues.length := by simp [Port.modQueue]
@[simp] theorem modQueue_attnCount (p : Port) (a b) : (p.modQueue a b).attnCount = p.attnCount := rfl
@[simp] theorem modQueue_attnLast (p : Port) (a b) : (p.modQueue a b).attnLast = p.attnLast := rfl
@[simp] theorem modQueue_engines (p : Port) (a b) : (p.modQueue a b).engines = p.engines := rfl

theorem place_dies (c : Cellar) (r : Nat × Cellar) (h : c.place = some r) : r.2.dies.length = c.dies.length := by
  unfold Cellar.place at h
  simp only [] at h
  split at h
  · simp at h
  · split at h
    · simp at h
    · simp at h; subst h; simp

@[simp] theorem State_attention_shape (a0 : State) (a1 : Nat) (a2 : Code) (a3 a4 : W32) :
    (State.attention a0 a1 a2 a3 a4).shape = a0.shape := by
  unfold State.attention; apply shape_mk <;> simp

@[simp] theorem State_log_shape (a0 : State) (a1 : Code) (a2 : W32) (a3 : W32) :
    (State.log a0 a1 a2 a3).shape = a0.shape := by
  unfold State.log
  simp

@[simp] theorem State_modFabric_shape (s : State) (f : Fabric → Fabric) (h : ∀ x, (f x).ports.length = x.ports.length) :
    (s.modFabric f).shape = s.shape := by simp [State.modFabric, h]

@[simp] theorem State_modFPort_shape (a0 : State) (a1 : Nat) (a2 : FPort → FPort) :
    (State.modFPort a0 a1 a2).shape = a0.shape := by
  unfold State.modFPort
  simp

@[simp] theorem State_senseLanes_shape (a0 : State) (a1 : Nat) (a2 : List LaneFault) :
    (State.senseLanes a0 a1 a2).shape = a0.shape := by
  unfold State.senseLanes
  try simp only []
  (repeat' split) <;> first | rfl | (simp; done) | (refine (shape_foldl' _ _ _ ?_).trans ?_ <;> first | (simp; done) | (intro s x; (repeat' split) <;> (simp; done)))

@[simp] theorem State_idlePorts_shape (a0 : State) :
    (State.idlePorts a0).shape = a0.shape := by
  unfold State.idlePorts
  simp

@[simp] theorem State_modRack_shape (a0 : State) (a1 : Rack → Rack) :
    (State.modRack a0 a1).shape = a0.shape := by
  unfold State.modRack
  simp

@[simp] theorem State_setFrame_shape (a0 : State) (a1 : Nat) (a2 : Bytes) :
    (State.setFrame a0 a1 a2).shape = a0.shape := by
  unfold State.setFrame
  simp

@[simp] theorem State_setLeaf_shape (a0 : State) (a1 : Handle) (a2 : Leaf) :
    (State.setLeaf a0 a1 a2).shape = a0.shape := by
  unfold State.setLeaf
  simp

@[simp] theorem State_newLeaf_shape (a0 : State) (a1 : Nat) (a2 : Nat) (a3 : Nat) :
    (State.newLeaf a0 a1 a2 a3).2.shape = a0.shape := by
  unfold State.newLeaf
  simp

@[simp] theorem State_modLeaf_shape (a0 : State) (a1 : Handle) (a2 : Leaf → Leaf) :
    (State.modLeaf a0 a1 a2).shape = a0.shape := by
  unfold State.modLeaf
  simp

@[simp] theorem State_patchCask_shape (a0 : State) (a1 : Handle) (a2 : Bytes → Bytes) :
    (State.patchCask a0 a1 a2).shape = a0.shape := by
  unfold State.patchCask
  simp

@[simp] theorem State_dress_shape (a0 : State) (a1 : Handle) (a2 : Nat) :
    (State.dress a0 a1 a2).shape = a0.shape := by
  unfold State.dress
  simp

theorem State_byAge_shape (a0 : State) (a1 : List (Handle × Leaf)) :
    ∀ r, State.byAge a0 a1 = some r → r.2.shape = a0.shape := by
  unfold State.byAge
  try simp only []
  (repeat' split) <;> first | rfl | (simp; done) | (refine (shape_foldl' _ _ _ ?_).trans ?_ <;> first | (simp; done) | (intro s x; (repeat' split) <;> (simp; done)))

@[simp] theorem State_dropFrame_shape (a0 : State) (a1 : Nat) :
    (State.dropFrame a0 a1).shape = a0.shape := by
  unfold State.dropFrame
  simp

theorem State_evictClean_shape (a0 : State) (a1 : Nat) (a2 : Option Nat) :
    ∀ r, State.evictClean a0 a1 a2 = some r → r.2.shape = a0.shape := by
  intro r h; unfold State.evictClean at h; simp only [] at h
  split at h
  · simp at h
  · rename_i hb; have := State_byAge_shape _ _ _ hb; simp at h; subst h; simpa using this

theorem State_demandFrame_shape (a0 : State) (a1 : Nat) :
    ∀ r, State.demandFrame a0 a1 = some r → r.2.shape = a0.shape := by
  intro r h; unfold State.demandFrame at h
  split at h
  · simp at h; subst h; rfl
  · exact State_evictClean_shape _ _ _ _ h

@[simp] theorem State_ensureCask_shape (a0 : State) (a1 : Handle) : (State.ensureCask a0 a1).shape = a0.shape := by
  unfold State.ensureCask; simp only []
  split
  · rfl
  · split
    · rename_i hb; have := State_demandFrame_shape _ _ _ hb; simpa using this
    · simp

@[simp] theorem State_dropSs_shape (a0 : State) (a1 : Handle) :
    (State.dropSs a0 a1).shape = a0.shape := by
  unfold State.dropSs
  simp

@[simp] theorem State_dirtyLeaf_shape (a0 : State) (a1 : Handle) :
    (State.dirtyLeaf a0 a1).shape = a0.shape := by
  unfold State.dirtyLeaf
  simp

@[simp] theorem State_setQuire_shape (a0 : State) (a1 : Handle) (a2 : List Handle) :
    (State.setQuire a0 a1 a2).shape = a0.shape := by
  unfold State.setQuire
  simp

theorem State_takeSingle_shape (a0 : State) (a1 : Nat) (a2 : Nat) :
    ∀ r, State.takeSingle a0 a1 a2 = some r → r.2.shape = a0.shape := by
  intro r h; unfold State.takeSingle at h
  split at h
  · simp at h; subst h; simp
  · split at h
    · simp at h; subst h; simp
    · split at h
      · rename_i hb; have := State_evictClean_shape _ _ _ _ hb; simp at h; subst h; simpa using this
      · simp at h

@[simp] theorem State_modMalt_shape (s : State) (f : Malt → Malt) : (s.modMalt f).shape = s.shape := by simp [State.modMalt]

theorem State_freshLeaf_shape (a0 : State) (a1 : Nat) (a2 : Nat) :
    ∀ r, State.freshLeaf a0 a1 a2 = some r → r.shape = a0.shape := by
  intro r h; unfold State.freshLeaf at h
  split at h
  · simp at h; subst h; rfl
  · split at h
    · simp only [] at h
      split at h
      · rename_i hb; have := State_takeSingle_shape _ _ _ _ hb; simp at h; subst h; simpa using this
      · simp at h
    · simp at h

@[simp] theorem State_freshLeaves_shape (a0 : Nat) (a1 : List Nat) (a2 : State) :
    (State.freshLeaves a0 a1 a2).2.shape = a2.shape := by
  induction a1 generalizing a2 with
  | nil => rfl
  | cons i t ih =>
    unfold State.freshLeaves
    split
    · rename_i hb; have := State_freshLeaf_shape _ _ _ _ hb; simp [ih, this]
    · rfl

@[simp] theorem State_startMove_shape (a0 : State) (a1 : Move) :
    (State.startMove a0 a1).shape = a0.shape := by
  unfold State.startMove
  simp

@[simp] theorem State_giveFrame_shape (a0 : State) (a1 : Wanter) (a2 : Nat) :
    (State.giveFrame a0 a1 a2).shape = a0.shape := by
  unfold State.giveFrame
  (repeat' split) <;> (simp; done)

@[simp] theorem State_dropCask_shape (a0 : State) (a1 : Handle) :
    (State.dropCask a0 a1).shape = a0.shape := by
  unfold State.dropCask
  simp

@[simp] theorem State_modCellar_shape (s : State) (f : Cellar → Cellar) (h : ∀ x, (f x).dies.length = x.dies.length) :
    (s.modCellar f).shape = s.shape := by simp [State.modCellar, h]

@[simp] theorem State_govDraw_shape (a0 : State) (a1 : Nat) :
    (State.govDraw a0 a1).shape = a0.shape := by
  unfold State.govDraw
  simp

@[simp] theorem State_govTake_shape (a0 : State) :
    (State.govTake a0).shape = a0.shape := by
  unfold State.govTake
  simp

@[simp] theorem State_startWriteBack_shape (a0 : State) (a1 : Handle) (a2 : MoveKind) (a3 : Wanter) :
    (State.startWriteBack a0 a1 a2 a3).shape = a0.shape := by
  unfold State.startWriteBack
  simp

@[simp] theorem State_startEviction_shape (a0 : State) (a1 : Nat) (a2 : Wanter) : (State.startEviction a0 a1 a2).shape = a0.shape := by
  unfold State.startEviction
  split
  · rfl
  · split
    · rfl
    · rename_i hb; have := State_byAge_shape _ _ _ hb; simpa using this

@[simp] theorem State_writeSet_shape (a0 : State) (a1 : Nat) : (State.writeSet a0 a1).shape = a0.shape := by
  unfold State.writeSet; simp only []
  generalize List.filter _ (List.eraseDups (α := Nat) _) = idx
  generalize hr : State.freshLeaves _ idx a0 = r
  have hb : r.2.shape = a0.shape := by subst hr; simp
  split
  · refine (State_modMalt_shape _ _).trans ?_
    simpa using hb
  · refine (State_modMalt_shape _ _).trans ?_
    refine (shape_foldl' _ _ _ fun s x => ?_).trans hb
    split <;> simp

@[simp] theorem State_killed_shape (a0 : State) :
    (State.killed a0).2.shape = a0.shape := by
  unfold State.killed
  simp

@[simp] theorem State_logEnd_shape (a0 : State) (a1 : Cmd) (a2 : Code) (a3 : Nat) (a4 : Bool) :
    (State.logEnd a0 a1 a2 a3 a4).shape = a0.shape := by
  unfold State.logEnd
  simp

@[simp] theorem State_modCore_shape (a0 : State) (a1 : Nat) (a2 : CoreSt → CoreSt) :
    (State.modCore a0 a1 a2).shape = a0.shape := by
  unfold State.modCore
  simp

@[simp] theorem State_passOff_shape (a0 : State) (a1 : Nat) :
    (State.passOff a0 a1).shape = a0.shape := by
  unfold State.passOff
  simp

@[simp] theorem State_stopArray_shape (a0 : State) (a1 : Cmd) (a2 : Nat) :
    (State.stopArray a0 a1 a2).shape = a0.shape := by
  unfold State.stopArray
  simp

@[simp] theorem State_untake_shape (a0 : State) (a1 : Nat) :
    (State.untake a0 a1).shape = a0.shape := by
  unfold State.untake
  simp

@[simp] theorem State_dropGrants_shape (a0 : State) (a1 : List Nat) :
    (State.dropGrants a0 a1).shape = a0.shape := by
  unfold State.dropGrants
  simp

@[simp] theorem State_staleFrame_shape (a0 : State) (a1 : Nat) :
    (State.staleFrame a0 a1).shape = a0.shape := by
  unfold State.staleFrame
  simp

@[simp] theorem State_endMove_shape (a0 : State) (a1 : Handle) :
    (State.endMove a0 a1).shape = a0.shape := by
  unfold State.endMove
  simp

@[simp] theorem State_freeLeaf_shape (a0 : State) (a1 : Handle) :
    (State.freeLeaf a0 a1).shape = a0.shape := by
  unfold State.freeLeaf
  simp

@[simp] theorem State_deref_shape (a0 : Nat) (a1 : State) (a2 : Handle) : (State.deref a0 a1 a2).shape = a1.shape := by
  induction a0 generalizing a1 a2 with
  | zero => rfl
  | succ n ih => unfold State.deref; simp [ih]

@[simp] theorem State_drop_shape (a0 : State) (a1 : Handle) :
    (State.drop a0 a1).shape = a0.shape := by
  unfold State.drop
  simp

@[simp] theorem State_releaseMoved_shape (a0 : State) (a1 : Handle) : (State.releaseMoved a0 a1).shape = a0.shape := by
  unfold State.releaseMoved
  simp only []
  split <;> simp

@[simp] theorem State_returnLeaf_shape (a0 : State) (a1 : Nat) (a2 : Handle) :
    (State.returnLeaf a0 a1 a2).shape = a0.shape := by
  unfold State.returnLeaf
  simp

@[simp] theorem State_giveBack_shape (a0 : State) (a1 : List (Nat × Handle × Bool)) (a2 : Nat × Handle × Bool) :
    (State.giveBack a0 a1 a2).shape = a0.shape := by
  unfold State.giveBack
  simp

@[simp] theorem State_giveBackAll_shape (a0 : State) (a1 : List (Nat × Handle × Bool)) :
    (State.giveBackAll a0 a1).shape = a0.shape := by
  unfold State.giveBackAll
  simp

@[simp] theorem State_unpin_shape (a0 : State) (a1 : Handle) :
    (State.unpin a0 a1).shape = a0.shape := by
  unfold State.unpin
  simp

@[simp] theorem State_unpinAll_shape (a0 : State) (a1 : List Handle) :
    (State.unpinAll a0 a1).shape = a0.shape := by
  unfold State.unpinAll
  simp

@[simp] theorem State_undo_shape (a0 : State) (a1 : Cmd) :
    (State.undo a0 a1).shape = a0.shape := by
  unfold State.undo
  simp

@[simp] theorem State_logKill_shape (a0 : State) (a1 : Cmd) (a2 : Code) (a3 : Nat) :
    (State.logKill a0 a1 a2 a3).shape = a0.shape := by
  unfold State.logKill
  simp

@[simp] theorem State_setCmd_shape (a0 : State) (a1 : Cmd) :
    (State.setCmd a0 a1).shape = a0.shape := by
  unfold State.setCmd
  simp

@[simp] theorem State_requeue_shape (a0 : State) (a1 : Cmd) (a2 : Code) (a3 : Nat) (a4 : Bool) (a5 : Cmd) :
    (State.requeue a0 a1 a2 a3 a4 a5).shape = a0.shape := by
  unfold State.requeue
  simp

@[simp] theorem State_killRerun_shape (a0 : State) (a1 : Cmd) (a2 : Code) :
    (State.killRerun a0 a1 a2).shape = a0.shape := by
  unfold State.killRerun
  simp

@[simp] theorem State_dropRx_shape (a0 : State) (a1 : Nat) :
    (State.dropRx a0 a1).shape = a0.shape := by
  unfold State.dropRx
  simp

@[simp] theorem State_failParcel_shape (a0 : State) (a1 : Nat) :
    (State.failParcel a0 a1).shape = a0.shape := by
  unfold State.failParcel
  simp

@[simp] theorem State_dropAt_shape (a0 : State) (a1 : Nat) :
    (State.dropAt a0 a1).shape = a0.shape := by
  unfold State.dropAt
  simp

@[simp] theorem State_receive_shape (a0 : State) (a1 : Parcel) (a2 : Option Nat) (a3 : Bool) :
    (State.receive a0 a1 a2 a3).shape = a0.shape := by
  unfold State.receive
  (repeat' split) <;> (simp; done)

@[simp] theorem State_emit_shape (a0 : State) (a1 : Out) :
    (State.emit a0 a1).shape = a0.shape := by
  unfold State.emit
  simp

@[simp] theorem State_freed_shape (a0 : State) (a1 : Option Nat) (a2 : Parcel) :
    (State.freed a0 a1 a2).shape = a0.shape := rfl

@[simp] theorem State_emptyTx_shape (a0 : State) (a1 : Nat) :
    (State.emptyTx a0 a1).shape = a0.shape := by
  unfold State.emptyTx
  exact (shape_foldl' _ _ _ fun s w => by simp).trans (by simp)

@[simp] theorem State_sendOn_shape (a0 : State) (a1 : Nat) (a2 : Parcel) (a3 : Option Nat) :
    (State.sendOn a0 a1 a2 a3).shape = a0.shape := by
  unfold State.sendOn
  (repeat' split) <;> (simp; done)

@[simp] theorem State_lose_shape (a0 : State) (a1 : Parcel) (a2 : Option Nat) :
    (State.lose a0 a1 a2).shape = a0.shape := by
  simp [State.lose]

@[simp] theorem State_forward_shape (a0 : Nat) (a1 : State) (a2 : Parcel) (a3 : Option Nat) :
    (State.forward a0 a1 a2 a3).shape = a1.shape := by
  induction a0 generalizing a1 a2 a3 with
  | zero => simp [State.forward]
  | succ n ih => unfold State.forward; simp only []; (repeat' split) <;> simp [ih]

@[simp] theorem State_keep_shape (a0 : State) (a1 : Parcel) :
    (State.keep a0 a1).shape = a0.shape := by
  unfold State.keep
  simp

@[simp] theorem State_emitParcel_shape (a0 : State) (a1 : Parcel) :
    (State.emitParcel a0 a1).shape = a0.shape := by
  unfold State.emitParcel
  simp

@[simp] theorem State_sweepEntry_shape (a0 : State) (a1 : List W32) :
    (State.sweepEntry a0 a1).shape = a0.shape := by
  unfold State.sweepEntry
  simp

@[simp] theorem State_quench_shape (a0 : State) (a1 : Nat → Bool) :
    (State.quench a0 a1).shape = a0.shape := by
  unfold State.quench
  simp

@[simp] theorem State_voidWhere_shape (a0 : State) (a1 : WaveRun → Bool) :
    (State.voidWhere a0 a1).shape = a0.shape := by
  unfold State.voidWhere
  simp

@[simp] theorem State_setReq_shape (a0 : State) (a1 : Nat) (a2 : Req) :
    (State.setReq a0 a1 a2).shape = a0.shape := by
  unfold State.setReq
  simp

@[simp] theorem State_sendReply_shape (a0 : State) (a1 : Ctxt) (a2 : Nat) (a3 : Stream) (a4 : Code) (a5 : Bool) (a6 : List Byte) :
    (State.sendReply a0 a1 a2 a3 a4 a5 a6).shape = a0.shape := by
  unfold State.sendReply
  simp

@[simp] theorem State_modQueue_shape (a0 : State) (a1 : Nat) (a2 : Queue → Queue) :
    (State.modQueue a0 a1 a2).shape = a0.shape := by
  unfold State.modQueue; apply shape_mk <;> simp

@[simp] theorem State_writeEntry_shape (a0 : State) (a1 : Nat) (a2 : Completion) :
    (State.writeEntry a0 a1 a2).shape = a0.shape := by
  unfold State.writeEntry
  simp

@[simp] theorem State_complete_shape (a0 : State) (a1 : Nat) (a2 : Nat) (a3 : Code) (a4 : W32) (a5 : W32) :
    (State.complete a0 a1 a2 a3 a4 a5).shape = a0.shape := by
  unfold State.complete
  simp

@[simp] theorem State_recordBy_shape (a0 : State) (a1 : BitVec 8) (a2 : Nat) (a3 : Nat) (a4 : Code) (a5 : W32) (a6 : W32) :
    (State.recordBy a0 a1 a2 a3 a4 a5 a6).shape = a0.shape := by
  unfold State.recordBy
  simp

@[simp] theorem State_endSession_shape (a0 : State) (a1 : Nat) :
    (State.endSession a0 a1).shape = a0.shape := by
  unfold State.endSession
  simp

@[simp] theorem State_settleDrain_shape (a0 : State) (a1 : Nat) :
    (State.settleDrain a0 a1).shape = a0.shape := by
  unfold State.settleDrain
  simp

@[simp] theorem State_finish_shape (a0 : State) (a1 : Nat) (a2 : Nat) (a3 : Code) (a4 : W32) (a5 : W32) :
    (State.finish a0 a1 a2 a3 a4 a5).shape = a0.shape := by
  unfold State.finish
  (repeat' split) <;> (simp; done)

@[simp] theorem State_modReq_shape (a0 : State) (a1 : Nat) (a2 : Req → Req) :
    (State.modReq a0 a1 a2).shape = a0.shape := by
  unfold State.modReq
  simp

@[simp] theorem State_setStream_shape (a0 : State) (a1 : Nat) (a2 : Stream) :
    (State.setStream a0 a1 a2).shape = a0.shape := by
  unfold State.setStream
  simp

@[simp] theorem State_modStream_shape (a0 : State) (a1 : Nat) (a2 : Stream → Stream) :
    (State.modStream a0 a1 a2).shape = a0.shape := by
  unfold State.modStream
  simp

@[simp] theorem State_endReq_shape (s : State) (k : Nat) (code : Code) (data : List Byte) :
    (s.endReq k code data).shape = s.shape := by
  unfold State.endReq
  extract_lets r st s1 s2 s3 i nk
  have h1 : s1.shape = s.shape := by simp [s1]
  have h2 : s2.shape = s1.shape := by
    simp only [s2]; split <;> simp
  have h3 : s3.shape = s2.shape := by
    simp only [s3]; split <;> simp
  have h : s3.shape = s.shape := h3.trans (h2.trans h1)
  split
  · rfl
  · split
    · split <;> simp [h]
    · exact h

@[simp] theorem State_promote_shape (a0 : State) (a1 : Handle) : (State.promote a0 a1).shape = a0.shape := by
  unfold State.promote; simp only []
  split
  · rfl
  · split
    · rename_i hb; have := State_demandFrame_shape _ _ _ hb; simpa using this
    · simp

@[simp] theorem State_tierOn_shape (a0 : State) (a1 : Nat) (a2 : Handle) :
    (State.tierOn a0 a1 a2).shape = a0.shape := by
  unfold State.tierOn
  simp

@[simp] theorem State_retier_shape (a0 : State) (a1 : Nat) :
    (State.retier a0 a1).shape = a0.shape := by
  unfold State.retier
  simp

@[simp] theorem State_dropTo_shape (a0 : State) (a1 : Nat) (a2 : Handle) :
    (State.dropTo a0 a1 a2).shape = a0.shape := by
  unfold State.dropTo
  simp

@[simp] theorem State_dropAdvances_shape (a0 : State) (a1 : Nat) :
    (State.dropAdvances a0 a1).shape = a0.shape := by
  unfold State.dropAdvances
  simp

@[simp] theorem State_voidRuns_shape (a0 : State) (a1 : Nat) :
    (State.voidRuns a0 a1).shape = a0.shape := by
  unfold State.voidRuns
  simp

@[simp] theorem State_abandon_shape (a0 : State) (a1 : Nat) :
    (State.abandon a0 a1).shape = a0.shape := by
  unfold State.abandon
  simp

@[simp] theorem State_abandonAll_shape (a0 : State) (a1 : Nat) :
    (State.abandonAll a0 a1).shape = a0.shape := by
  unfold State.abandonAll
  simp

@[simp] theorem State_pauseNow_shape (a0 : State) (a1 : Nat) :
    (State.pauseNow a0 a1).shape = a0.shape := by
  unfold State.pauseNow
  simp

@[simp] theorem Prep_s_shape (a0 : Prep) :
    (Prep.s a0).shape = a0.s.shape := by
  unfold Prep.s
  simp

@[simp] theorem Prep_add_shape (a0 : Prep) (a1 : List Eff) :
    (Prep.add a0 a1).s.shape = a0.s.shape := by
  unfold Prep.add
  simp

@[simp] theorem State_record_shape (a0 : State) (a1 : BitVec 8) (a2 : Code) (a3 : W32) (a4 : W32) :
    (State.record a0 a1 a2 a3 a4).shape = a0.shape := by
  unfold State.record
  simp

@[simp] theorem State_setColophon_shape (a0 : State) (a1 : Digest) :
    (State.setColophon a0 a1).shape = a0.shape := by
  unfold State.setColophon
  simp

@[simp] theorem State_recolophon_shape (a0 : State) :
    (State.recolophon a0).shape = a0.shape := by
  unfold State.recolophon
  simp

@[simp] theorem State_modSlot_shape (a0 : State) (a1 : Nat) (a2 : Slot → Slot) :
    (State.modSlot a0 a1 a2).shape = a0.shape := by
  unfold State.modSlot
  simp

@[simp] theorem State_modPlan_shape (a0 : State) (a1 : Nat) (a2 : Plan → Plan) :
    (State.modPlan a0 a1 a2).shape = a0.shape := by
  unfold State.modPlan
  simp

@[simp] theorem State_refit_shape (a0 : State) (a1 : Nat) :
    (State.refit a0 a1).shape = a0.shape := by
  unfold State.refit
  (repeat' split) <;> (simp; done)

@[simp] theorem State_recapAs_shape (a0 : State) (a1 : Bool) (a2 : Code) :
    (State.recapAs a0 a1 a2).shape = a0.shape := by
  unfold State.recapAs
  simp

@[simp] theorem State_listUnreachable_shape (a0 : State) (a1 : BitVec 20) : (State.listUnreachable a0 a1).shape = a0.shape := by
  unfold State.listUnreachable
  refine State_modFabric_shape _ _ fun x => ?_
  split <;> rfl

@[simp] theorem State_portLost_shape (a0 : State) (a1 : Nat) :
    (State.portLost a0 a1).shape = a0.shape := by
  unfold State.portLost
  simp

@[simp] theorem State_modChan_shape (a0 : State) (a1 : Nat) (a2 : Channel64 → Channel64) :
    (State.modChan a0 a1 a2).shape = a0.shape := by
  unfold State.modChan
  simp

@[simp] theorem State_countAged_shape (a0 : State) (a1 : Nat) (a2 : Parcel) :
    (State.countAged a0 a1 a2).shape = a0.shape := by
  unfold State.countAged
  split <;> simp

@[simp] theorem State_modPSet_shape (a0 : State) (a1 : Nat) (a2 : PSet → PSet) :
    (State.modPSet a0 a1 a2).shape = a0.shape := by
  unfold State.modPSet
  simp

@[simp] theorem State_putRecord_shape (a0 : State) (a1 : Nat) (a2 : Option (List Byte)) :
    (State.putRecord a0 a1 a2).shape = a0.shape := by
  unfold State.putRecord
  simp

@[simp] theorem State_updateRecord_shape (a0 : State) (a1 : Nat) (a2 : List W32) (a3 : Nat) (a4 : Rule) (a5 : Nat) :
    (State.updateRecord a0 a1 a2 a3 a4 a5).shape = a0.shape := by
  unfold State.updateRecord
  simp

@[simp] theorem State_updateSet_shape (a0 : State) (a1 : Nat) (a2 : List Nat) :
    (State.updateSet a0 a1 a2).shape = a0.shape := by
  unfold State.updateSet
  simp

@[simp] theorem State_maltUpdate_shape (a0 : State) (a1 : Nat) (a2 : List Nat) (a3 : Bool) :
    (State.maltUpdate a0 a1 a2 a3).shape = a0.shape := by
  unfold State.maltUpdate
  simp

@[simp] theorem State_resetBackups_shape (a0 : State) (a1 : Nat) :
    (State.resetBackups a0 a1).shape = a0.shape := by
  unfold State.resetBackups
  simp

@[simp] theorem State_closeStep_shape (a0 : State) (a1 : Nat) :
    (State.closeStep a0 a1).shape = a0.shape := by
  unfold State.closeStep
  simp

@[simp] theorem State_spargeSend_shape (a0 : State) (a1 : Nat) (a2 : BitVec 20) (a3 : Nat) (a4 : Nat) (a5 : W32) (a6 : List Byte) :
    (State.spargeSend a0 a1 a2 a3 a4 a5 a6).shape = a0.shape := by
  unfold State.spargeSend
  simp

@[simp] theorem State_sendDown_shape (a0 : State) (a1 : Nat) (a2 : List Byte) :
    (State.sendDown a0 a1 a2).shape = a0.shape := by
  unfold State.sendDown
  simp

@[simp] theorem State_pumpDown_shape (n c : Nat) (s : State) : (State.pumpDown n c s).shape = s.shape := by
  induction n generalizing s with
  | zero => rfl
  | succ n ih => unfold State.pumpDown; simp only []; (repeat' split) <;> simp [ih]

@[simp] theorem State_endTrains_shape (a0 : State) (a1 : Nat) (a2 : Code) :
    (State.endTrains a0 a1 a2).shape = a0.shape := by
  unfold State.endTrains
  simp

@[simp] theorem State_endAttempt_shape (a0 : State) (a1 : Nat) (a2 : Code) (a3 : BitVec 23) :
    (State.endAttempt a0 a1 a2 a3).shape = a0.shape := by
  unfold State.endAttempt
  simp

@[simp] theorem State_sendAborts_shape (a0 : State) (a1 : Nat) (a2 : Code) (a3 : BitVec 23) (a4 : Option (BitVec 20)) :
    (State.sendAborts a0 a1 a2 a3 a4).shape = a0.shape := by
  unfold State.sendAborts
  simp

@[simp] theorem State_abortStep_shape (a0 : State) (a1 : Nat) (a2 : Code) (a3 : Nat) (a4 : BitVec 23) :
    (State.abortStep a0 a1 a2 a3 a4).shape = a0.shape := by
  unfold State.abortStep
  simp

@[simp] theorem State_putCore_shape (a0 : State) (a1 : Nat) (a2 : List Byte) :
    (State.putCore a0 a1 a2).shape = a0.shape := by
  unfold State.putCore
  simp

@[simp] theorem State_putSect_shape (a0 : State) (a1 : Nat) (a2 : List Byte) :
    (State.putSect a0 a1 a2).shape = a0.shape := by
  unfold State.putSect
  simp

@[simp] theorem State_putAt_shape (a0 : State) (a1 : Loc) (a2 : Nat) (a3 : List Byte) :
    (State.putAt a0 a1 a2 a3).shape = a0.shape := by
  unfold State.putAt
  (repeat' split) <;> (simp; done)

theorem State_putGrad_shape (a0 : State) (a1 : Nat) (a2 : Nat) (a3 : List W32) :
    ∀ r, State.putGrad a0 a1 a2 a3 = some r → r.shape = a0.shape := by
  unfold State.putGrad
  try simp only []
  (repeat' split) <;> first | rfl | (simp; done) | (refine (shape_foldl' _ _ _ ?_).trans ?_ <;> first | (simp; done) | (intro s x; (repeat' split) <;> (simp; done)))

@[simp] theorem State_soil_shape (a0 : State) (a1 : Handle) (a2 : Blk) :
    (State.soil a0 a1 a2).shape = a0.shape := by
  unfold State.soil
  simp

@[simp] theorem State_putCaskBlk_shape (a0 : State) (a1 : Nat) (a2 : Blk) :
    (State.putCaskBlk a0 a1 a2).shape = a0.shape := by
  unfold State.putCaskBlk
  try simp only []
  (repeat' split) <;> first | rfl | (simp; done) | (refine (shape_foldl' _ _ _ ?_).trans ?_ <;> first | (simp; done) | (intro s x; (repeat' split) <;> (simp; done)))

@[simp] theorem State_putDmaBlk_shape (a0 : State) (a1 : Nat) (a2 : Nat) (a3 : W64) (a4 : Blk) :
    (State.putDmaBlk a0 a1 a2 a3 a4).shape = a0.shape := by
  unfold State.putDmaBlk
  (repeat' split) <;> (simp; done)

@[simp] theorem State_moveAdvances_shape (a0 : State) (a1 : Nat) :
    (State.moveAdvances a0 a1).shape = a0.shape := by
  unfold State.moveAdvances
  simp

@[simp] theorem State_closeRefresh_shape (a0 : State) (a1 : WaveRun) :
    (State.closeRefresh a0 a1).shape = a0.shape := by
  unfold State.closeRefresh
  simp

@[simp] theorem State_addRef_shape (a0 : State) (a1 : Handle) :
    (State.addRef a0 a1).shape = a0.shape := by
  unfold State.addRef
  simp

@[simp] theorem State_placeCmd_shape (a0 : State) (a1 : Nat) (a2 : Nat) (a3 : Nat) (a4 : List W32) (a5 : Origin) (a6 : Shape) (a7 : List WaveRun) (a8 : List Nat) (a9 : List Nat) (a10 : Bool) (a11 : Nat) (a12 : Bool) :
    (State.placeCmd a0 a1 a2 a3 a4 a5 a6 a7 a8 a9 a10 a11 a12).shape = a0.shape := by
  unfold State.placeCmd
  simp

@[simp] theorem State_dropCmd_shape (a0 : State) (a1 : Nat) :
    (State.dropCmd a0 a1).shape = a0.shape := by
  unfold State.dropCmd
  simp

@[simp] theorem State_modPart_shape (a0 : State) (a1 : Nat) (a2 : Partition → Partition) :
    (State.modPart a0 a1 a2).shape = a0.shape := by
  unfold State.modPart
  simp

@[simp] theorem State_failTrain_shape (a0 : State) (a1 : Cmd) (a2 : Code) :
    (State.failTrain a0 a1 a2).shape = a0.shape := by
  unfold State.failTrain
  simp

@[simp] theorem State_pauseStream_shape (a0 : State) (a1 : Nat) (a2 : Code) :
    (State.pauseStream a0 a1 a2).shape = a0.shape := by
  unfold State.pauseStream
  simp

@[simp] theorem State_modulePause_shape (a0 : State) (a1 : Nat) (a2 : Code) :
    (State.modulePause a0 a1 a2).shape = a0.shape := by
  unfold State.modulePause
  simp

@[simp] theorem State_endRun_shape (a0 : State) (a1 : Cmd) (a2 : Code) (a3 : Bool) (a4 : WaveRun) :
    (State.endRun a0 a1 a2 a3 a4).shape = a0.shape := by
  unfold State.endRun
  (repeat' split) <;> (simp; done)

@[simp] theorem State_endRerun_shape (a0 : State) (a1 : Cmd) (a2 : Code) (a3 : Nat) (a4 : Bool) :
    (State.endRerun a0 a1 a2 a3 a4).shape = a0.shape := by
  unfold State.endRerun
  (repeat' split) <;> (simp; done)

@[simp] theorem State_dropVoid_shape (a0 : State) :
    (State.dropVoid a0).shape = a0.shape := by
  unfold State.dropVoid
  simp

@[simp] theorem State_abort_shape (a0 : State) (a1 : Cmd) (a2 : Code) (a3 : Nat) (a4 : Bool) (a5 : Bool) :
    (State.abort a0 a1 a2 a3 a4 a5).shape = a0.shape := by
  unfold State.abort
  (repeat' split) <;> (simp; done)

@[simp] theorem State_startRewrite_shape (a0 : State) (a1 : Handle) :
    (State.startRewrite a0 a1).shape = a0.shape := by
  unfold State.startRewrite
  simp

@[simp] theorem State_portFails_shape (a0 : State) (a1 : Nat) (a2 : Nat) :
    (State.portFails a0 a1 a2).shape = a0.shape := by
  unfold State.portFails
  simp

@[simp] theorem Prep_root_shape (a0 : Prep) (a1 : Nat) :
    (Prep.root a0 a1).2.s.shape = a0.s.shape := by
  unfold Prep.root
  try simp only []
  (repeat' split) <;> first | rfl | (simp; done) | (refine (shape_foldl' _ _ _ ?_).trans ?_ <;> first | (simp; done) | (intro s x; (repeat' split) <;> (simp; done)))

theorem State_newLeaves_shape (a0 : Nat) (a1 : Nat) (a2 : State) :
    ∀ r, State.newLeaves a0 a1 a2 = some r → r.2.shape = a2.shape := by
  induction a1 generalizing a2 with
  | zero => intro r h; simp [State.newLeaves] at h; subst h; rfl
  | succ n ih =>
    intro r h; unfold State.newLeaves at h
    split at h
    · simp at h
    · simp only [] at h
      split at h
      · rename_i hb; have := ih _ _ hb; simp at h; subst h; simpa using this
      · simp at h

theorem State_newQuire_shape (a0 : State) (a1 : Nat) :
    ∀ r, State.newQuire a0 a1 = some r → r.2.shape = a0.shape := by
  intro r h; unfold State.newQuire at h
  split at h
  · exact State_newLeaves_shape _ _ _ _ h
  · simp at h

theorem State_takeFree_shape (a0 : State) (a1 : Nat) (a2 : Nat) :
    ∀ r, State.takeFree a0 a1 a2 = some r → r.2.2.shape = a0.shape := by
  intro r h; unfold State.takeFree at h; simp only [] at h
  split at h
  · simp at h; subst h; simp
  · split at h
    · rename_i hb; have := State_newQuire_shape _ _ _ hb; simp at h; subst h; simpa using this
    · split at h
      · simp at h; subst h; simp
      · split at h
        · simp at h; subst h; simp
        · split at h
          · rename_i hb; have := State_evictClean_shape _ _ _ _ hb; simp at h; subst h; simpa using this
          · simp at h

theorem State_takeLeaf_shape (a0 : State) (a1 : Nat) (a2 : Nat) :
    ∀ r, State.takeLeaf a0 a1 a2 = some r → r.2.2.shape = a0.shape := by
  intro r h; unfold State.takeLeaf at h; simp only [] at h
  split at h
  · simp at h; subst h; simp
  · exact State_takeFree_shape _ _ _ _ h

@[simp] theorem Prep_take_shape (a0 : Prep) (a1 : Nat) (a2 : Nat) : (Prep.take a0 a1 a2).2.s.shape = a0.s.shape := by
  unfold Prep.take; split
  · rename_i hb; have := State_takeLeaf_shape _ _ _ _ hb; simpa using this
  · rfl

@[simp] theorem Prep_place_shape (a0 : Prep) (a1 : Nat × Nat × Nat) (a2 : Handle) (a3 : Handle) (a4 : Nat) (a5 : Nat) (a6 : Bool) (a7 : Option Bytes → Bytes → Bytes) :
    (Prep.place a0 a1 a2 a3 a4 a5 a6 a7).2.s.shape = a0.s.shape := by
  unfold Prep.place
  try simp only []
  (repeat' split) <;> first | rfl | (simp; done) | (refine (shape_foldl' _ _ _ ?_).trans ?_ <;> first | (simp; done) | (intro s x; (repeat' split) <;> (simp; done)))

@[simp] theorem Prep_window_shape (a0 : Prep) (a1 : Nat) (a2 : Nat) :
    (Prep.window a0 a1 a2).2.s.shape = a0.s.shape := by
  unfold Prep.window
  simp

@[simp] theorem State_modMem_shape (a0 : State) (a1 : Nat) (a2 : MemPort → MemPort) :
    (State.modMem a0 a1 a2).shape = a0.shape := by
  unfold State.modMem
  simp

@[simp] theorem State_misread_shape (a0 : State) (a1 : Nat) :
    (State.misread a0 a1).shape = a0.shape := by
  unfold State.misread
  simp

@[simp] theorem State_tableError_shape (a0 : State) (a1 : Nat) :
    (State.tableError a0 a1).shape = a0.shape := by
  unfold State.tableError
  simp

@[simp] theorem State_reloadFirmware_shape (a0 : State) :
    (State.reloadFirmware a0).shape = a0.shape := by
  unfold State.reloadFirmware
  simp

@[simp] theorem State_markSector_shape (a0 : State) (a1 : Nat) :
    (State.markSector a0 a1).shape = a0.shape := by
  unfold State.markSector
  simp

@[simp] theorem State_endOthers_shape (a0 : State) (a1 : Nat) (a2 : Option Nat) (a3 : Code) :
    (State.endOthers a0 a1 a2 a3).shape = a0.shape := by
  unfold State.endOthers
  simp

@[simp] theorem State_endAllReqs_shape (a0 : State) (a1 : Nat) (a2 : Code) :
    (State.endAllReqs a0 a1 a2).shape = a0.shape := by
  unfold State.endAllReqs
  simp

@[simp] theorem State_dropFresh_shape (a0 : State) (a1 : Nat) :
    (State.dropFresh a0 a1).shape = a0.shape := by
  unfold State.dropFresh
  simp

@[simp] theorem State_dropRetained_shape (a0 : State) (a1 : Nat) :
    (State.dropRetained a0 a1).shape = a0.shape := by
  unfold State.dropRetained
  (repeat' split) <;> (simp; done)

@[simp] theorem State_freeScratch_shape (a0 : State) (a1 : Plan) :
    (State.freeScratch a0 a1).shape = a0.shape := by
  unfold State.freeScratch
  simp

@[simp] theorem State_dropPlan_shape (a0 : State) (a1 : Nat) : (State.dropPlan a0 a1).shape = a0.shape := by
  unfold State.dropPlan; simp only []
  have get (s : State) (o : Option Plan) : ((o.map s.freeScratch).getD s).shape = s.shape := by cases o <;> simp
  simp only [State_recolophon_shape, State_attention_shape, State_modSlot_shape, get]
  refine (shape_foldl' _ _ _ fun s h => ?_).trans ?_ <;> simp

@[simp] theorem State_planError_shape (a0 : State) (a1 : Nat) :
    (State.planError a0 a1).shape = a0.shape := by
  unfold State.planError
  (repeat' split) <;> (simp; done)

@[simp] theorem State_recordError_shape (a0 : State) (a1 : Nat) :
    (State.recordError a0 a1).shape = a0.shape := by
  unfold State.recordError
  try simp only []
  (repeat' split) <;> first | rfl | (simp; done) | (refine (shape_foldl' _ _ _ ?_).trans ?_ <;> first | (simp; done) | (intro s x; (repeat' split) <;> (simp; done)))

@[simp] theorem State_query_shape (a0 : State) (a1 : BitVec 20) (a2 : List Byte) :
    (State.query a0 a1 a2).shape = a0.shape := by
  unfold State.query
  simp

@[simp] theorem State_askLeaf_shape (a0 : State) (a1 : Handle) (a2 : List (BitVec 20)) :
    (State.askLeaf a0 a1 a2).shape = a0.shape := by
  unfold State.askLeaf
  (repeat' split) <;> (simp; done)

@[simp] theorem State_startFetch_shape (a0 : State) (a1 : Handle) :
    (State.startFetch a0 a1).shape = a0.shape := by
  unfold State.startFetch
  (repeat' split) <;> (simp; done)

@[simp] theorem State_poolError_shape (a0 : State) (a1 : Handle) (a2 : Nat) :
    (State.poolError a0 a1 a2).shape = a0.shape := by
  unfold State.poolError
  simp

@[simp] theorem State_regionError_shape (a0 : State) (a1 : Nat) :
    (State.regionError a0 a1).shape = a0.shape := by
  unfold State.regionError
  (repeat' split) <;> (simp; done)

@[simp] theorem State_clearCask_shape (a0 : State) :
    (State.clearCask a0).shape = a0.shape := by
  unfold State.clearCask
  simp

@[simp] theorem State_freeStreams_shape (a0 : State) :
    (State.freeStreams a0).shape = a0.shape := by
  unfold State.freeStreams
  simp

@[simp] theorem State_modCtx_shape (a0 : State) (a1 : Nat) (a2 : Nat) (a3 : Ctxt → Ctxt) :
    (State.modCtx a0 a1 a2 a3).shape = a0.shape := by
  unfold State.modCtx
  simp

@[simp] theorem State_replyCode_shape (a0 : State) (a1 : Ctxt) (a2 : Nat) (a3 : Code) :
    (State.replyCode a0 a1 a2 a3).shape = a0.shape := by
  unfold State.replyCode
  simp

@[simp] theorem State_endRequests_shape (a0 : State) (a1 : Code) :
    (State.endRequests a0 a1).shape = a0.shape := by
  unfold State.endRequests
  simp

@[simp] theorem State_killFinal_shape (a0 : State) (a1 : Cmd) (a2 : Code) :
    (State.killFinal a0 a1 a2).shape = a0.shape := by
  unfold State.killFinal
  simp

@[simp] theorem State_endTrain_shape (a0 : State) (a1 : Train) (a2 : Code) :
    (State.endTrain a0 a1 a2).shape = a0.shape := by
  unfold State.endTrain
  simp

@[simp] theorem State_killAll_shape (a0 : State) (a1 : Code) :
    (State.killAll a0 a1).shape = a0.shape := by
  unfold State.killAll
  simp

@[simp] theorem State_caskRestart_shape (a0 : State) (a1 : Nat) :
    (State.caskRestart a0 a1).shape = a0.shape := by
  unfold State.caskRestart
  simp

@[simp] theorem State_takePortOut_shape (a0 : State) (a1 : Nat) (a2 : Nat) :
    (State.takePortOut a0 a1 a2).shape = a0.shape := by
  unfold State.takePortOut
  simp

@[simp] theorem State_sectorError_shape (a0 : State) (a1 : SectorError) :
    (State.sectorError a0 a1).shape = a0.shape := by
  unfold State.sectorError
  simp

@[simp] theorem State_unreserve_shape (a0 : State) (a1 : Nat) :
    (State.unreserve a0 a1).shape = a0.shape := by
  unfold State.unreserve
  simp

@[simp] theorem State_forkStarved_shape (a0 : State) (a1 : Nat) :
    (State.forkStarved a0 a1).shape = a0.shape := by
  unfold State.forkStarved
  simp

@[simp] theorem State_abortChannel_shape (a0 : State) (a1 : Nat) (a2 : Nat) (a3 : Channel) :
    (State.abortChannel a0 a1 a2 a3).shape = a0.shape := by
  unfold State.abortChannel
  simp

@[simp] theorem State_readBad_shape (a0 : State) (a1 : Channel) (a2 : W64) :
    (State.readBad a0 a1 a2).shape = a0.shape := by
  unfold State.readBad
  (repeat' split) <;> (simp; done)

@[simp] theorem State_copyBlk_shape (a0 : State) (a1 : Nat) (a2 : Channel) (a3 : Nat) (a4 : List Byte) :
    (State.copyBlk a0 a1 a2 a3 a4).shape = a0.shape := by
  unfold State.copyBlk
  simp

@[simp] theorem State_copyBlks_shape (sec : Nat) (ch : Channel) (n k : Nat) (h : List Byte) (s : State) :
    (State.copyBlks sec ch n k h s).shape = s.shape := by
  induction n generalizing k h s with
  | zero => rfl
  | succ n ih => unfold State.copyBlks; simp [ih]

@[simp] theorem State_draw_shape (a0 : State) :
    (State.draw a0).2.shape = a0.shape := by
  unfold State.draw
  simp

@[simp] theorem State_beginNegotiation_shape (a0 : State) (a1 : Nat) :
    (State.beginNegotiation a0 a1).shape = a0.shape := by
  unfold State.beginNegotiation
  simp

@[simp] theorem State_setUnavailable_shape (a0 : State) (a1 : Nat) (a2 : Bool) :
    (State.setUnavailable a0 a1 a2).shape = a0.shape := by
  unfold State.setUnavailable
  simp

@[simp] theorem State_portReset_shape (a0 : State) :
    (State.portReset a0).shape = a0.shape := by
  unfold State.portReset
  simp

theorem State_nameMapped_shape (a0 : BitVec 20) (a1 : State) (a2 : Nat) :
    ∀ r, State.nameMapped a0 a1 a2 = some r → r.2.shape = a1.shape := by
  intro r h; unfold State.nameMapped at h
  simp only [Option.map_eq_some_iff] at h
  obtain ⟨x, hx, rfl⟩ := h
  simp

@[simp] theorem State_endMoves_shape (a0 : State) : (State.endMoves a0).shape = a0.shape := by
  unfold State.endMoves
  exact shape_foldl' _ _ _ fun s m => by simp

@[simp] theorem State_programAll_shape (a0 : State) :
    (State.programAll a0).shape = a0.shape := by
  unfold State.programAll
  simp

@[simp] theorem State_rewriteTraining_shape (a0 : State) :
    (State.rewriteTraining a0).shape = a0.shape := by
  unfold State.rewriteTraining
  simp

@[simp] theorem State_endEntry_shape (a0 : State) (a1 : Code) (a2 : Nat) :
    (State.endEntry a0 a1 a2).shape = a0.shape := by
  unfold State.endEntry
  (repeat' split) <;> (simp; done)

@[simp] theorem State_modPower_shape (a0 : State) (a1 : Power → Power) :
    (State.modPower a0 a1).shape = a0.shape := by
  unfold State.modPower
  simp

@[simp] theorem State_settleIn_shape (a0 : State) (a1 : PowerState) : (State.settleIn a0 a1).shape = a0.shape := by
  unfold State.settleIn; simp

@[simp] theorem State_enterDormant_shape (a0 : State) :
    (State.enterDormant a0).shape = a0.shape := by
  unfold State.enterDormant
  simp

@[simp] theorem State_sweepPort_shape (a0 : State) (a1 : Nat) :
    (State.sweepPort a0 a1).shape = a0.shape := by
  unfold State.sweepPort
  simp

@[simp] theorem State_asOf_shape (a0 : State) (a1 : Cmd) :
    (State.asOf a0 a1).shape = a0.shape := by
  unfold State.asOf
  (repeat' split) <;> (simp; done)

theorem State_under_shape (s : State) (c : Cmd) (f : State → State) (h : ∀ s, (f s).shape = s.shape) :
    (s.under c f).shape = s.shape := by
  unfold State.under; split <;> simp [h]

@[simp] theorem State_sourceOf_shape (s : State) (c : Cmd) (r : Res) (w : State → Cmd → Res → Work) :
    (s.sourceOf c r w).shape = s.shape := by
  unfold State.sourceOf; split <;> simp

@[simp] theorem State_seed_shape (a0 : State) (a1 : List Nat) :
    (State.seed a0 a1).shape = a0.shape := by
  unfold State.seed
  simp

@[simp] theorem State_markBegun_shape (a0 : State) (a1 : Cmd) :
    (State.markBegun a0 a1).shape = a0.shape := by
  unfold State.markBegun
  (repeat' split) <;> (simp; done)

@[simp] theorem State_emptyEnd_shape (a0 : State) (a1 : Cmd) :
    (State.emptyEnd a0 a1).shape = a0.shape := by
  unfold State.emptyEnd
  simp

@[simp] theorem State_hold_shape (a0 : State) (a1 : Cmd) (a2 : List Handle) :
    (State.hold a0 a1 a2).shape = a0.shape := by
  unfold State.hold
  simp

@[simp] theorem State_failCmd_shape (a0 : State) (a1 : Cmd) (a2 : Code) :
    (State.failCmd a0 a1 a2).shape = a0.shape := by
  unfold State.failCmd
  simp

@[simp] theorem State_logPoison_shape (a0 : State) (a1 : Handle) :
    (State.logPoison a0 a1).shape = a0.shape := by
  unfold State.logPoison
  simp

@[simp] theorem State_poisonEnd_shape (a0 : State) (a1 : Cmd) (a2 : List Handle) :
    (State.poisonEnd a0 a1 a2).shape = a0.shape := by
  unfold State.poisonEnd
  simp

@[simp] theorem State_promoteAll_shape (a0 : State) (a1 : List Handle) :
    (State.promoteAll a0 a1).shape = a0.shape := by
  unfold State.promoteAll
  simp

@[simp] theorem State_setGens_shape (a0 : State) (a1 : Nat) (a2 : List W32) :
    (State.setGens a0 a1 a2).shape = a0.shape := by
  unfold State.setGens
  simp

@[simp] theorem State_compute_shape (s : State) (l : List (Nat × Cm (List Eff))) : (s.compute l).1.shape = s.shape := by
  induction l generalizing s with
  | nil => rfl
  | cons a t ih => unfold State.compute; simp [ih]

@[simp] theorem Prep_noteCore_shape (c : Nat) (p q : Prep) : (Prep.noteCore c p q).s.shape = q.s.shape := by
  unfold Prep.noteCore; rfl

@[simp] theorem Prep_output_shape (a0 : Prep) (a1 : Nat) (a2 : Nat) :
    (Prep.output a0 a1 a2).2.s.shape = a0.s.shape := by
  unfold Prep.output
  simp

@[simp] theorem Prep_outBytes_shape (a0 : Nat) (a1 : Nat) (a2 : Nat) (a3 : List Byte) (a4 : Prep) :
    (Prep.outBytes a0 a1 a2 a3 a4).s.shape = a4.s.shape := by
  induction a1 generalizing a2 a3 a4 with
  | zero => rfl
  | succ n ih => unfold Prep.outBytes; simp only []; (repeat' split) <;> simp [ih, Prep.add]

@[simp] theorem Prep_share_shape (a0 : Nat) (a1 : HistForm) (a2 : Nat) (a3 : Handle) (a4 : Nat) (a5 : Nat × Handle)
    (a6 : Prep) : (Prep.share a0 a1 a2 a3 a4 a5 a6).s.shape = a6.s.shape := by
  induction a2 generalizing a3 a4 a5 a6 with
  | zero => rfl
  | succ n ih =>
    unfold Prep.share; simp only []
    split
    · simp
    · split
      · simp
      · split
        · refine (shape_foldlP _ _ _ fun p y => ih _ _ _ _).trans ?_
          simp
        · simp

@[simp] theorem Prep_copyState_shape (a0 : Prep) (a1 : Nat) (a2 : Handle) : (Prep.copyState a0 a1 a2).2.s.shape = a0.s.shape := by
  unfold Prep.copyState; simp only []
  split
  · simp
  · refine (shape_foldlP _ _ _ fun p y => ?_).trans ?_ <;> simp

@[simp] theorem Prep_stateLeaf_shape (a0 : Prep) (a1 : Nat) : (Prep.stateLeaf a0 a1).2.s.shape = a0.s.shape := by
  unfold Prep.stateLeaf; simp only []
  (repeat' split) <;> simp

@[simp] theorem Prep_page_shape (a0 : Prep) (a1 : Nat) (a2 : Nat) (a3 : Nat) :
    (Prep.page a0 a1 a2 a3).2.s.shape = a0.s.shape := by
  unfold Prep.page
  try simp only []
  (repeat' split) <;> first | rfl | (simp; done) | (refine (shape_foldl' _ _ _ ?_).trans ?_ <;> first | (simp; done) | (intro s x; (repeat' split) <;> (simp; done)))

@[simp] theorem Prep_stateBytes_shape (a0 : Nat) (a1 : Nat) (a2 : Nat) (a3 : Nat) (a4 : List Byte) (a5 : Prep) :
    (Prep.stateBytes a0 a1 a2 a3 a4 a5).s.shape = a5.s.shape := by
  induction a2 generalizing a3 a4 a5 with
  | zero => rfl
  | succ n ih => unfold Prep.stateBytes; simp only []; (repeat' split) <;> simp [ih, Prep.add]

@[simp] theorem Prep_spine_shape (a0 : Prep) (a1 : Nat) (a2 : Nat) : (Prep.spine a0 a1 a2).2.s.shape = a0.s.shape := by
  unfold Prep.spine
  split
  · rfl
  · simp only []
    split
    · simp
    · refine (shape_foldlP _ _ _ fun p x => ?_).trans ?_
      · simp
      · simp

@[simp] theorem Prep_history_shape (a0 : Prep) (a1 : Nat) (a2 : Nat) (a3 : Nat) :
    (Prep.history a0 a1 a2 a3).2.s.shape = a0.s.shape := by
  unfold Prep.history
  try simp only []
  (repeat' split) <;> first | rfl | (simp; done) | (refine (shape_foldl' _ _ _ ?_).trans ?_ <;> first | (simp; done) | (intro s x; (repeat' split) <;> (simp; done)))

@[simp] theorem Prep_append_shape (a0 : Prep) (a1 : Nat) (a2 : Nat) (a3 : Nat) :
    (Prep.append a0 a1 a2 a3).s.shape = a0.s.shape := by
  have inner (rs : List Nat) (f : Nat → Nat) (cs : List Nat) (p : Prep) :
      (rs.foldl (fun p k => cs.foldl (fun p c => if p.fail || p.beyond then p else (p.history a1 (f k) c).2) p) p).s.shape
        = p.s.shape := by
    refine shape_foldlP _ _ _ fun p k => ?_
    refine shape_foldlP _ _ _ fun p c => ?_
    split <;> simp
  unfold Prep.append; simp only []
  split
  · rfl
  · split
    · exact inner _ _ _ _
    · refine (shape_foldlP _ _ _ fun p k => ?_).trans (inner _ _ _ _)
      split <;> simp

@[simp] theorem Prep_childRoot_shape (a0 : Prep) (a1 : Nat) : (Prep.childRoot a0 a1).2.s.shape = a0.s.shape := by
  unfold Prep.childRoot
  split
  · rename_i hb; have := State_newQuire_shape _ _ _ hb; simpa using this
  · simp

@[simp] theorem Prep_fork_shape (a0 : Prep) (a1 : Nat) (a2 : Nat) (a3 : Bool) :
    (Prep.fork a0 a1 a2 a3).s.shape = a0.s.shape := by
  have names (i : Nat) (g : HistForm) (root : Handle) (l : List (Nat × Handle)) (p : Prep) :
      (l.foldl (fun p e => Prep.share i g shareDepth root 0 e p) p).s.shape = p.s.shape :=
    shape_foldlP _ _ _ fun p e => by simp
  have either (c : Prop) [Decidable c] (x : Handle) (p : Prep) (i : Nat) (st : Handle) :
      (if c then (x, p) else p.copyState i st).2.s.shape = p.s.shape := by split <;> simp
  unfold Prep.fork; simp only []
  split
  · rfl
  · split
    · simp
    · simp only [State_modStream_shape, either, names, State_patchCask_shape, Prep_childRoot_shape]

@[simp] theorem Prep_trim_shape (a0 : Prep) (a1 : Nat) (a2 : Nat) :
    (Prep.trim a0 a1 a2).s.shape = a0.s.shape := by
  unfold Prep.trim
  try simp only []
  (repeat' split) <;> first | rfl | (simp; done) | (refine (shape_foldl' _ _ _ ?_).trans ?_ <;> first | (simp; done) | (intro s x; (repeat' split) <;> (simp; done)))

@[simp] theorem Prep_eff_shape (a0 : Prep) (a1 : Eff) :
    (Prep.eff a0 a1).s.shape = a0.s.shape := by
  unfold Prep.eff
  (repeat' split) <;> (simp; done)

@[simp] theorem Prep_start_shape (a0 : State) :
    (Prep.start a0).s.shape = a0.shape := by
  unfold Prep.start
  simp

@[simp] theorem Prep_histRow_shape (a0 : List HistRow) (a1 : Prep) (a2 : HistRow) :
    (Prep.histRow a0 a1 a2).s.shape = a1.s.shape := by
  unfold Prep.histRow
  try simp only []
  (repeat' split) <;> first | rfl | (simp; done) | (refine (shape_foldl' _ _ _ ?_).trans ?_ <;> first | (simp; done) | (intro s x; (repeat' split) <;> (simp; done)))

@[simp] theorem Prep_all_shape (a0 : State) (a1 : List (Nat × List Eff)) : (Prep.all a0 a1).s.shape = a0.shape := by
  unfold Prep.all; simp only []
  refine (shape_foldlP _ _ _ fun p r => ?_).trans ?_
  · split <;> simp
  · refine shape_foldlP _ _ _ fun p e => ?_
    exact shape_foldlP _ _ _ fun p e => by simp

@[simp] theorem State_promoteHeat_shape (a0 : State) (a1 : Handle) : (State.promoteHeat a0 a1).shape = a0.shape := by
  unfold State.promoteHeat; simp only []
  split
  · rfl
  · split
    · rename_i hb
      split at hb
      · simp at hb; obtain ⟨rfl, rfl⟩ := hb; simp
      · have := State_evictClean_shape _ _ _ _ hb; simpa using this
    · rfl

@[simp] theorem State_storeCopy_shape (a0 : State) (a1 : Handle) (a2 : Nat) :
    (State.storeCopy a0 a1 a2).shape = a0.shape := by
  unfold State.storeCopy
  simp

@[simp] theorem State_pin_shape (a0 : State) (a1 : Handle) (a2 : List Nat) :
    (State.pin a0 a1 a2).shape = a0.shape := by
  unfold State.pin
  simp

@[simp] theorem State_pinQuiet_shape (a0 : State) (a1 : Handle) :
    (State.pinQuiet a0 a1).shape = a0.shape := by
  unfold State.pinQuiet
  simp

@[simp] theorem State_launch_shape (a0 : State) (a1 : Cmd) (a2 : Res) (a3 : Work) (a4 : List Handle) :
    (State.launch a0 a1 a2 a3 a4).shape = a0.shape := by
  have pins (c : Cmd) (w : Work) (l : List Handle) (s : State) :
      (l.foldl (fun s h => s.pin h (w.readersOf c h)) s).shape = s.shape := shape_foldl' _ _ _ fun s h => by simp
  have writers (p : Prep) (l : List Handle) (s : State) :
      (l.foldl (fun s h => s.pin h (p.writers h)) s).shape = s.shape := shape_foldl' _ _ _ fun s h => by simp
  have quiet (l : List Handle) (s : State) : (l.foldl (fun s h => s.pinQuiet h) s).shape = s.shape :=
    shape_foldl' _ _ _ fun s h => by simp
  have uses (l : List Nat) (s : State) : (l.foldl (fun (s : State) k =>
      s.modCore k fun x => { x with scratch := x.scratch + 1 }) s).shape = s.shape := shape_foldl' _ _ _ fun s h => by simp
  unfold State.launch; simp only []
  split
  · simp
  · split
    · simp
    · split
      · simp
      · split
        · simp
        · split
          · simp
          · split
            · simp
            · simp [uses, quiet, writers, pins]

@[simp] theorem State_runCmd_shape (a0 : State) (a1 : Cmd) (a2 : Res) (a3 : Work) :
    (State.runCmd a0 a1 a2 a3).shape = a0.shape := by
  unfold State.runCmd
  simp

@[simp] theorem State_beginCmd_shape (s : State) (c : Cmd) (w : State → Cmd → Res → Work) :
    (s.beginCmd c w).shape = s.shape := by
  unfold State.beginCmd; simp only []
  (repeat' split) <;> simp

@[simp] theorem State_issue_shape (s : State) (id opc : Nat) (w : State → Cmd → Res → Work) :
    (s.issue id opc w).shape = s.shape := by
  unfold State.issue
  split
  · rfl
  · refine State_under_shape _ _ _ fun s => ?_
    simp only []
    (repeat' split) <;> first | rfl | (simp; done)

@[simp] theorem State_modSect_shape (a0 : State) (a1 : Nat) (a2 : Sect → Sect) :
    (State.modSect a0 a1 a2).shape = a0.shape := by
  unfold State.modSect
  simp

@[simp] theorem State_loadTables_shape (a0 : State) (a1 : Nat) :
    (State.loadTables a0 a1).shape = a0.shape := by
  unfold State.loadTables
  simp

@[simp] theorem State_mapCores_shape (s : State) (sec : Nat) (m : List Nat) (sp : Option Nat) :
    (s.mapCores sec m sp).shape = s.shape := by
  unfold State.mapCores
  simp only []
  refine (shape_foldl' _ _ _ fun s l => State_loadTables_shape _ _).trans ?_
  rw [← State_modSect_shape s sec fun k => { k with map := m, spare := sp }]
  apply shape_mk <;> simp [State.modSect]

@[simp] theorem State_mapAll_shape (a0 : State) :
    (State.mapAll a0).shape = a0.shape := by
  unfold State.mapAll
  simp

@[simp] theorem State_drainHeld_shape (a0 : Nat) (a1 : Nat) (a2 : State) :
    (State.drainHeld a0 a1 a2).shape = a2.shape := by
  fun_induction State.drainHeld <;> first | (simp; done) | (simp_all; done)

theorem State_onSparge_shape (s : State) (rq t : Nat) (f : Parcel → State → State)
    (h : ∀ p s, (f p s).shape = s.shape) : (s.onSparge rq t f).shape = s.shape := by
  unfold State.onSparge; (repeat' split) <;> first | rfl | simp [h]

@[simp] theorem State_toBuffer_shape (a0 : State) (a1 : Started) (a2 : List Byte) :
    (State.toBuffer a0 a1 a2).shape = a0.shape := by
  unfold State.toBuffer
  simp

@[simp] theorem State_rootLeaves_shape (a0 : State) (a1 : Plan) (a2 : Handle) (a3 : Handle) (a4 : List Handle) :
    (State.rootLeaves a0 a1 a2 a3 a4).shape = a0.shape := by
  unfold State.rootLeaves
  simp

@[simp] theorem State_settle_shape (a0 : Nat) (a1 : Nat) (a2 : State) :
    (State.settle a0 a1 a2).shape = a2.shape := by
  fun_induction State.settle <;> first | (simp; done) | (simp_all; done)

@[simp] theorem State_serve_shape (a0 : State) (a1 : Nat) (a2 : Nat) :
    (State.serve a0 a1 a2).shape = a0.shape := by
  unfold State.serve
  simp

@[simp] theorem State_admitReq_shape (a0 : State) (a1 : Nat) : (State.admitReq a0 a1).shape = a0.shape := by
  unfold State.admitReq; simp only []
  split
  · split
    · rename_i hb; have := State_newQuire_shape _ _ _ hb; simpa using this
    · simp
  · simp

@[simp] theorem State_endWaiters_shape (a0 : State) (a1 : Handle) :
    (State.endWaiters a0 a1).shape = a0.shape := by
  unfold State.endWaiters
  simp

@[simp] theorem State_spargeIntake_shape (a0 : State) (a1 : Rx) :
    (State.spargeIntake a0 a1).shape = a0.shape := by
  unfold State.spargeIntake
  try simp only []
  (repeat' split) <;> first | rfl | (simp; done) | (refine (shape_foldl' _ _ _ ?_).trans ?_ <;> first | (simp; done) | (intro s x; (repeat' split) <;> (simp; done)))

@[simp] theorem State_modDie_shape (a0 : State) (a1 : Nat) (a2 : Die → Die) :
    (State.modDie a0 a1 a2).shape = a0.shape := by
  unfold State.modDie
  simp

@[simp] theorem State_unmapBlock_shape (a0 : State) (a1 : Nat) (a2 : Nat) :
    (State.unmapBlock a0 a1 a2).shape = a0.shape := by
  unfold State.unmapBlock
  simp

@[simp] theorem State_abortDma_shape (a0 : State) :
    (State.abortDma a0).shape = a0.shape := by
  unfold State.abortDma
  simp

@[simp] theorem State_closeWindow_shape (a0 : State) (a1 : Nat) (a2 : Nat) :
    (State.closeWindow a0 a1 a2).shape = a0.shape := by
  unfold State.closeWindow
  simp

@[simp] theorem State_disableQueue_shape (a0 : State) (a1 : Nat) :
    (State.disableQueue a0 a1).shape = a0.shape := by
  unfold State.disableQueue
  simp

@[simp] theorem State_stopAll_shape (a0 : State) :
    (State.stopAll a0).shape = a0.shape := by
  unfold State.stopAll
  simp

@[simp] theorem State_loseVolatile_shape (s : State) : s.loseVolatile.shape = s.shape := by
  unfold State.loseVolatile
  apply shape_mk <;> simp [Port.blank]

@[simp] theorem State_enterStandby_shape (a0 : State) :
    (State.enterStandby a0).shape = a0.shape := by
  unfold State.enterStandby
  simp

@[simp] theorem State_dropUnserved_shape (a0 : State) : (State.dropUnserved a0).shape = a0.shape := by
  unfold State.dropUnserved
  refine shape_foldl' _ _ _ fun s x => ?_
  split <;> simp

@[simp] theorem State_refetch_shape (a0 : State) :
    (State.refetch a0).shape = a0.shape := by
  unfold State.refetch
  simp

@[simp] theorem State_loadDir_shape (a0 : State) (a1 : Nat) (a2 : Nat) (a3 : List (List W32)) :
    (State.loadDir a0 a1 a2 a3).shape = a0.shape := by
  unfold State.loadDir
  (repeat' split) <;> (simp; done)

theorem State_acceptAs_shape (a0 : State) (a1 : Handle) (a2 : FrameDesc) (a3 : Bytes) :
    ∀ r, State.acceptAs a0 a1 a2 a3 = some r → r.2.shape = a0.shape := by
  intro r h
  unfold State.acceptAs at h
  split at h
  · simp at h
  · rename_i hb
    have hd := place_dies _ _ hb
    simp only [Option.some.injEq] at h
    subst h
    apply shape_mk <;> simp [hd]

@[simp] theorem State_residency_shape (a0 : State) (a1 : Nat) :
    (State.residency a0 a1).shape = a0.shape := by
  unfold State.residency
  simp

@[simp] theorem State_itemsOf_shape (a0 : State) (a1 : Nat) (a2 : Bool) :
    (State.itemsOf a0 a1 a2).2.shape = a0.shape := by
  unfold State.itemsOf
  simp

@[simp] theorem State_enterRest_shape (a0 : State) : (State.enterRest a0).shape = a0.shape := by
  unfold State.enterRest; simp

@[simp] theorem State_reportFrame_shape (a0 : State) (a1 : Nat) (a2 : Nat) (a3 : Code) :
    (State.reportFrame a0 a1 a2 a3).shape = a0.shape := by
  unfold State.reportFrame
  simp

@[simp] theorem State_dropCellar_shape (a0 : State) (a1 : Handle) :
    (State.dropCellar a0 a1).shape = a0.shape := by
  unfold State.dropCellar
  simp

@[simp] theorem State_rewriteLeaf_shape (a0 : State) (a1 : Handle) : (State.rewriteLeaf a0 a1).shape = a0.shape := by
  unfold State.rewriteLeaf; simp only []
  (repeat' split) <;> simp

@[simp] theorem State_dropPromotion_shape (a0 : State) (a1 : Handle) :
    (State.dropPromotion a0 a1).shape = a0.shape := by
  unfold State.dropPromotion
  (repeat' split) <;> (simp; done)

@[simp] theorem State_mirrorLost_shape (a0 : State) (a1 : CellarFrame) :
    (State.mirrorLost a0 a1).shape = a0.shape := by
  unfold State.mirrorLost
  simp

@[simp] theorem State_cellarLost_shape (a0 : State) (a1 : Handle) :
    (State.cellarLost a0 a1).shape = a0.shape := by
  unfold State.cellarLost
  try simp only []
  (repeat' split) <;> first | rfl | (simp; done) | (refine (shape_foldl' _ _ _ ?_).trans ?_ <;> first | (simp; done) | (intro s x; (repeat' split) <;> (simp; done)))

theorem State_takePinned_shape (a0 : Nat) (a1 : Nat) (a2 : State) :
    ∀ r, State.takePinned a0 a1 a2 = some r → r.2.shape = a2.shape := by
  induction a1 generalizing a2 with
  | zero => intro r h; simp [State.takePinned] at h; subst h; rfl
  | succ n ih =>
    intro r h; unfold State.takePinned at h
    split at h
    · simp at h
    · rename_i hb
      have h1 := State_takeSingle_shape _ _ _ _ hb
      simp only [] at h
      split at h
      · simp at h
      · rename_i hc
        have := ih _ _ hc
        simp only [Option.some.injEq] at h; subst h; simpa using this.trans (by simpa using h1)

theorem State_loadChannel_shape (a0 : State) (a1 : Nat) (a2 : List W32) :
    ∀ r, State.loadChannel a0 a1 a2 = some r → r.shape = a0.shape := by
  intro r h; unfold State.loadChannel at h; simp only [] at h
  split at h
  · rename_i hb
    have := State_takePinned_shape _ _ _ _ hb
    simp only [Option.some.injEq] at h; subst h
    refine (State_modChan_shape _ _ _).trans (this.trans (shape_foldl' _ _ _ fun s x => by simp))
  · simp at h

@[simp] theorem State_commitBlock_shape (a0 : State) (a1 : Nat) (a2 : BitVec 8) (a3 : Nat) (a4 : List Byte) :
    (State.commitBlock a0 a1 a2 a3 a4).shape = a0.shape := by
  unfold State.commitBlock
  simp

@[simp] theorem State_recount_shape (a0 : State) (a1 : Handle) :
    (State.recount a0 a1).shape = a0.shape := by
  unfold State.recount
  simp

theorem State_onStarted_shape (s : State) (q tag opc : Nat) (ok : Started → Bool) (f : Started → State)
    (h : ∀ t, (f t).shape = s.shape) : (s.onStarted q tag opc ok f).shape = s.shape := by
  unfold State.onStarted; split
  · split
    · exact h _
    · rfl
  · rfl

@[simp] theorem State_modStarted_shape (a0 : State) (a1 : Nat) (a2 : Nat) (a3 : Started → Started) :
    (State.modStarted a0 a1 a2 a3).shape = a0.shape := by
  unfold State.modStarted
  simp

@[simp] theorem State_powerSet_shape (a0 : State) (a1 a2 a3 : Nat) (a4 : Started → Bool) (a5 : Bool) :
    (State.powerSet a0 a1 a2 a3 a4 a5).shape = a0.shape := by
  unfold State.powerSet
  refine State_onStarted_shape _ _ _ _ _ _ fun t => ?_
  (repeat' split) <;> simp

@[simp] theorem State_stopSection_shape (a0 : State) (a1 : Nat) :
    (State.stopSection a0 a1).shape = a0.shape := by
  unfold State.stopSection
  simp

@[simp] theorem State_voidPart_shape (a0 : State) (a1 : Nat) :
    (State.voidPart a0 a1).shape = a0.shape := by
  unfold State.voidPart
  simp

@[simp] theorem State_coreFails_shape (a0 : State) (a1 : Nat) (a2 : Nat) :
    (State.coreFails a0 a1 a2).shape = a0.shape := by
  unfold State.coreFails
  try simp only []
  (repeat' split) <;> first | rfl | (simp; done) | (refine (shape_foldl' _ _ _ ?_).trans ?_ <;> first | (simp; done) | (intro s x; (repeat' split) <;> (simp; done)))

@[simp] theorem State_assembleClass_shape (a0 : State) (a1 : Nat) (a2 : Bool) :
    (State.assembleClass a0 a1 a2).2.shape = a0.shape := by
  unfold State.assembleClass
  simp

theorem State_mirrorFrame_shape (a0 : State) (a1 : Incoming) (a2 : Nat) (a3 : Nat) (a4 : Nat) (a5 : W32) (a6 : Bytes) :
    ∀ r, State.mirrorFrame a0 a1 a2 a3 a4 a5 a6 = some r → r.2.shape = a0.shape := by
  intro r h
  unfold State.mirrorFrame at h
  split at h
  · simp at h
  · split at h
    · simp at h
    · rename_i hb
      have hd := place_dies _ _ hb
      simp only [Option.some.injEq] at h
      subst h
      simp
      apply shape_mk <;> simp [hd]

@[simp] theorem State_reject_shape (a0 : State) (a1 : Nat) (a2 : Code × Nat) :
    (State.reject a0 a1 a2).shape = a0.shape := by
  unfold State.reject
  simp

theorem State_takeSs_shape (a0 : State) (a1 : Nat) :
    ∀ r, State.takeSs a0 a1 = some r → r.2.shape = a0.shape := by
  unfold State.takeSs
  (repeat' split) <;> (simp; done)

@[simp] theorem State_endStore_shape (a0 : State) (a1 : Handle) (a2 : Move) : (State.endStore a0 a1 a2).shape = a0.shape := by
  unfold State.endStore; simp only []
  split
  · simp
  · split
    · simp
    · rename_i hb; have := State_takeSs_shape _ _ _ hb; simpa using this

@[simp] theorem State_countRetry_shape (a0 : State) :
    (State.countRetry a0).shape = a0.shape := by
  unfold State.countRetry
  simp

@[simp] theorem State_endPortService_shape (a0 : State) :
    (State.endPortService a0).shape = a0.shape := by
  unfold State.endPortService
  simp

theorem some_ite_shape {α : Type} {P : Prop} {c : Prop} [Decidable c] {x y : Option α} {r : α}
    (h : (if c then x else y) = some r) (hx : x = some r → P) (hy : y = some r → P) : P := by
  split at h
  · exact hx h
  · exact hy h

theorem State_readClear_shape (a0 : State) (a1 : Nat) (a2 : Bool) :
    ∀ r, State.readClear a0 a1 a2 = some r → r.2.shape = a0.shape := by
  intro r h
  unfold State.readClear at h
  simp only [] at h
  generalize (if a2 = true then 1 else 0) = k at h
  repeat' (refine some_ite_shape h (fun h => ?_) (fun h => ?_))
  all_goals first
    | (simp only [Option.some.injEq] at h; subst h; simp; done)
    | (split at h <;> first | (simp only [Option.some.injEq] at h; subst h; simp; done) | (simp at h; done))
    | (simp at h; done)

@[simp] theorem State_answerQuery_shape (a0 : State) (a1 : BitVec 20) (a2 : Nat) (a3 : Nat) (a4 : Nat) :
    (State.answerQuery a0 a1 a2 a3 a4).shape = a0.shape := by
  unfold State.answerQuery
  simp

@[simp] theorem State_replyRun_shape (a0 : State) (a1 : WaveRun) :
    (State.replyRun a0 a1).shape = a0.shape := by
  unfold State.replyRun
  try simp only []
  (repeat' split) <;> first | rfl | (simp; done) | (refine (shape_foldl' _ _ _ ?_).trans ?_ <;> first | (simp; done) | (intro s x; (repeat' split) <;> (simp; done)))

@[simp] theorem State_replies_shape (a0 : State) (a1 : Nat) (a2 : Bool) :
    (State.replies a0 a1 a2).shape = a0.shape := by
  unfold State.replies
  (repeat' split) <;> (simp; done)

@[simp] theorem State_freeOld_shape (a0 : State) (a1 : Nat) (a2 : Bool) :
    (State.freeOld a0 a1 a2).shape = a0.shape := by
  unfold State.freeOld
  simp

@[simp] theorem State_endTrainWave_shape (a0 : State) (a1 : Wave) :
    (State.endTrainWave a0 a1).shape = a0.shape := by
  unfold State.endTrainWave
  (repeat' split) <;> (simp; done)

@[simp] theorem State_dropVoidAdvances_shape (a0 : State) (a1 : Wave) :
    (State.dropVoidAdvances a0 a1).shape = a0.shape := by
  unfold State.dropVoidAdvances
  simp

@[simp] theorem State_endWave_shape (a0 : State) (a1 : Nat) (a2 : Bool) :
    (State.endWave a0 a1 a2).shape = a0.shape := by
  unfold State.endWave
  try simp only []
  (repeat' split) <;> first | rfl | (simp; done) | (refine (shape_foldl' _ _ _ ?_).trans ?_ <;> first | (simp; done) | (intro s x; (repeat' split) <;> (simp; done)))

theorem State_acceptFrame_shape (a0 : State) (a1 : Handle) (a2 : Bytes) :
    ∀ r, State.acceptFrame a0 a1 a2 = some r → r.2.shape = a0.shape := by
  intro r h; unfold State.acceptFrame at h; exact State_acceptAs_shape _ _ _ _ _ h

@[simp] theorem State_issueLeaf_shape (s : State) (id lop : Nat) (w : State → Cmd → Res → Work) :
    (s.issueLeaf id lop w).shape = s.shape := by
  unfold State.issueLeaf; (repeat' split) <;> simp

@[simp] theorem State_freeStream_shape (a0 : State) (a1 : Nat) :
    (State.freeStream a0 a1).shape = a0.shape := by
  unfold State.freeStream
  simp

@[simp] theorem State_sendManifest_shape (a0 : State) (a1 : BitVec 20) (a2 : Nat) (a3 : Nat) :
    (State.sendManifest a0 a1 a2 a3).shape = a0.shape := by
  unfold State.sendManifest
  simp

@[simp] theorem State_sendMirrorLeaf_shape (a0 : State) (a1 : BitVec 20) (a2 : Nat) (a3 : Nat) (a4 : Nat) (a5 : Nat) (a6 : Nat) (a7 : Bytes) :
    (State.sendMirrorLeaf a0 a1 a2 a3 a4 a5 a6 a7).shape = a0.shape := by
  unfold State.sendMirrorLeaf
  simp

@[simp] theorem State_flushMirror_shape (a0 : State) (a1 : BitVec 20) (a2 : Nat) :
    (State.flushMirror a0 a1 a2).shape = a0.shape := by
  unfold State.flushMirror
  try simp only []
  (repeat' split) <;> first | rfl | (simp; done) | (refine (shape_foldl' _ _ _ ?_).trans ?_ <;> first | (simp; done) | (intro s x; (repeat' split) <;> (simp; done)))

@[simp] theorem State_sendRelease_shape (a0 : State) (a1 : Nat) :
    (State.sendRelease a0 a1).shape = a0.shape := by
  unfold State.sendRelease
  (repeat' split) <;> (simp; done)

@[simp] theorem State_freeHistory_shape (a0 : State) (a1 : Nat) :
    (State.freeHistory a0 a1).shape = a0.shape := by
  unfold State.freeHistory
  simp

@[simp] theorem State_denySession_shape (a0 : State) (a1 : Nat) (a2 : Nat) (a3 : Nat) (a4 : Nat) :
    (State.denySession a0 a1 a2 a3 a4).shape = a0.shape := by
  unfold State.denySession
  simp

@[simp] theorem State_layCask_shape (a0 : State) :
    (State.layCask a0).shape = a0.shape := by
  unfold State.layCask
  simp

@[simp] theorem State_endStart_shape (a0 : State) :
    (State.endStart a0).shape = a0.shape := by
  unfold State.endStart
  simp

@[simp] theorem State_answerMirror_shape (a0 : State) (a1 : Nat) (a2 : Incoming) :
    (State.answerMirror a0 a1 a2).shape = a0.shape := by
  unfold State.answerMirror
  simp

@[simp] theorem State_modBuddy_shape (a0 : State) (a1 : Buddy → Buddy) :
    (State.modBuddy a0 a1).shape = a0.shape := by
  unfold State.modBuddy
  simp

@[simp] theorem State_refuseMirror_shape (a0 : State) (a1 : Incoming) :
    (State.refuseMirror a0 a1).shape = a0.shape := by
  unfold State.refuseMirror
  simp

@[simp] theorem State_admitMirror_shape (a0 : State) (a1 : Incoming) (a2 : Nat) :
    (State.admitMirror a0 a1 a2).2.shape = a0.shape := by
  unfold State.admitMirror
  generalize a1.leaves = ls
  suffices h : ∀ (ls : List InLeaf) (a : Incoming × State), (ls.foldl (fun (a : Incoming × State) l =>
      match if l.own.isSome || !l.whole || a.2.mirrorFull a2 then none
          else a.2.mirrorFrame a.1 a2 0 l.format l.owner l.data with
      | some (h, s) => ({ a.1 with leaves := a.1.leaves ++ [{ l with own := some h }] }, s)
      | none => ({ a.1 with leaves := a.1.leaves ++ [l] }, a.2)) a).2.shape = a.2.shape by exact h _ _
  intro ls
  induction ls with
  | nil => intro a; rfl
  | cons l t ih =>
    intro a; rw [List.foldl_cons, ih]
    split
    · rename_i hb
      split at hb
      · simp at hb
      · exact State_mirrorFrame_shape _ _ _ _ _ _ _ _ hb
    · rfl

@[simp] theorem State_setMapped_shape (a0 : State) (a1 : BitVec 20) (a2 : InLeaf) :
    (State.setMapped a0 a1 a2).shape = a0.shape := by
  unfold State.setMapped
  (repeat' split) <;> (simp; done)

@[simp] theorem State_dropManifest_shape (a0 : State) (a1 : BitVec 20) (a2 : Nat) :
    (State.dropManifest a0 a1 a2).shape = a0.shape := by
  unfold State.dropManifest
  simp

@[simp] theorem State_applyMirror_shape (a0 : State) (a1 : Incoming) (a2 : List W32) (a3 : Handle) :
    (State.applyMirror a0 a1 a2 a3).shape = a0.shape := by
  unfold State.applyMirror
  simp

@[simp] theorem State_pushMirror_shape (a0 : State) (a1 : Incoming) : (State.pushMirror a0 a1).shape = a0.shape := by
  unfold State.pushMirror; simp only []
  split
  · simp
  · split
    · simp
    · split
      · simp
      · split
        · simp
        · split
          · simp
          · split
            · rename_i hb; have := State_mirrorFrame_shape _ _ _ _ _ _ _ _ hb; simpa using this
            · simp

@[simp] theorem State_mismatch_shape (a0 : State) (a1 : Nat) (a2 : BitVec 20) :
    (State.mismatch a0 a1 a2).shape = a0.shape := by
  unfold State.mismatch
  simp

theorem State_ifLive_shape (s : State) (k : Nat) (f : Nat → State) (h : ∀ i, (f i).shape = s.shape) :
    (s.ifLive k f).shape = s.shape := by
  unfold State.ifLive; simp only []; split
  · exact h _
  · simp

@[simp] theorem State_resetReq_shape (a0 : State) (a1 : Nat) : (State.resetReq a0 a1).shape = a0.shape := by
  unfold State.resetReq
  refine State_ifLive_shape _ _ _ fun i => ?_
  first | (simp; done) | (split <;> simp)

theorem State_putMirror_shape (a0 : State) (a1 : Nat) (a2 : Nat) (a3 : Nat) (a4 : W32) (a5 : W32) (a6 : W32) (a7 : W32) (a8 : Bytes) :
    ∀ r, State.putMirror a0 a1 a2 a3 a4 a5 a6 a7 a8 = some r → r.2.shape = a0.shape := by
  intro r h
  unfold State.putMirror at h
  split at h
  · simp at h
  · rename_i hb
    have hd := place_dies _ _ hb
    simp only [Option.some.injEq] at h
    subst h
    simp
    apply shape_mk <;> simp [hd]

@[simp] theorem State_dropTrains_shape (a0 : State) (a1 : Nat) :
    (State.dropTrains a0 a1).shape = a0.shape := by
  unfold State.dropTrains
  simp

@[simp] theorem State_newBulk_shape (a0 : State) (a1 : Nat) :
    (State.newBulk a0 a1).2.shape = a0.shape := by
  unfold State.newBulk
  try simp only []
  (repeat' split) <;> first | rfl | (simp; done) | (refine (shape_foldl' _ _ _ ?_).trans ?_ <;> first | (simp; done) | (intro s x; (repeat' split) <;> (simp; done)))

@[simp] theorem State_arrived_shape (a0 : State) (a1 : Handle) :
    (State.arrived a0 a1).shape = a0.shape := by
  unfold State.arrived
  simp

@[simp] theorem State_loseBuffer_shape (a0 : State) :
    (State.loseBuffer a0).shape = a0.shape := by
  unfold State.loseBuffer
  simp

@[simp] theorem State_unplanned_shape (a0 : State) :
    (State.unplanned a0).shape = a0.shape := by
  unfold State.unplanned
  simp

@[simp] theorem State_takeMirror_shape (a0 : State) (a1 : Nat) :
    (State.takeMirror a0 a1).shape = a0.shape := by
  unfold State.takeMirror
  try simp only []
  (repeat' split) <;> first | rfl | (simp; done) | (refine (shape_foldl' _ _ _ ?_).trans ?_ <;> first | (simp; done) | (intro s x; (repeat' split) <;> (simp; done)))

@[simp] theorem State_abandonWave_shape (a0 : State) (a1 : Cmd) :
    (State.abandonWave a0 a1).shape = a0.shape := by
  unfold State.abandonWave
  simp

@[simp] theorem State_placeRecovery_shape (a0 : State) (a1 : Cmd) :
    (State.placeRecovery a0 a1).shape = a0.shape := by
  unfold State.placeRecovery
  simp

@[simp] theorem State_skew_shape (a0 : State) (a1 : Cmd) :
    (State.skew a0 a1).shape = a0.shape := by
  unfold State.skew
  simp

@[simp] theorem State_modTime_shape (a0 : State) (a1 : TimeBase → TimeBase) :
    (State.modTime a0 a1).shape = a0.shape := by
  unfold State.modTime
  simp

@[simp] theorem State_takeOffset_shape (a0 : State) (a1 : Int) (a2 : Int) :
    (State.takeOffset a0 a1 a2).shape = a0.shape := by
  unfold State.takeOffset
  simp

@[simp] theorem State_passOn_shape (a0 : State) (a1 : Nat) :
    (State.passOn a0 a1).shape = a0.shape := by
  unfold State.passOn
  simp

@[simp] theorem State_startPasses_shape (a0 : State) (a1 : Cmd) :
    (State.startPasses a0 a1).shape = a0.shape := by
  unfold State.startPasses
  simp

@[simp] theorem State_keepOld_shape (a0 : State) (a1 : Nat) (a2 : Handle) (a3 : Nat × Bool) :
    (State.keepOld a0 a1 a2 a3).shape = a0.shape := by
  unfold State.keepOld
  simp

@[simp] theorem State_transpose_shape (a0 : State) (a1 : Nat) (a2 : Channel) (a3 : List Byte) :
    (State.transpose a0 a1 a2 a3).shape = a0.shape := by
  unfold State.transpose
  simp

@[simp] theorem State_loseRun_shape (a0 : State) (a1 : Cmd) (a2 : Nat) :
    (State.loseRun a0 a1 a2).shape = a0.shape := by
  unfold State.loseRun
  (repeat' split) <;> (simp; done)

@[simp] theorem State_enterKept_shape (a0 : State) (a1 : Nat × CellarFrame) :
    (State.enterKept a0 a1).shape = a0.shape := by
  unfold State.enterKept
  simp

@[simp] theorem State_linkAt_shape (a0 : Nat) (a1 : Nat) (a2 : Nat) (a3 : State) :
    (State.linkAt a0 a1 a2 a3).shape = a3.shape := by
  fun_induction State.linkAt <;> first | (simp; done) | (simp_all; done)

@[simp] theorem State_link_shape (a0 : State) (a1 : Nat) (a2 : Nat) :
    (State.link a0 a1 a2).shape = a0.shape := by
  unfold State.link
  simp

@[simp] theorem State_submit_shape (s : State) (a : List W32) (b : W32) (c : Nat) (d : Option (Nat × Nat)) :
    (s.submit a b c d).2.2.shape = s.shape := by
  unfold State.submit; simp only []; (repeat' split) <;> simp

@[simp] theorem State_enterFrame_shape (a0 : State) (a1 : Handle) (a2 : Nat) :
    (State.enterFrame a0 a1 a2).shape = a0.shape := by
  unfold State.enterFrame
  simp

@[simp] theorem State_endRewrite_shape (a0 : State) (a1 : Handle) (a2 : Nat) :
    (State.endRewrite a0 a1 a2).shape = a0.shape := by
  unfold State.endRewrite
  simp

@[simp] theorem State_recap_shape (a0 : State) (a1 : Code) :
    (State.recap a0 a1).shape = a0.shape := by
  unfold State.recap
  simp

@[simp] theorem State_haltPair_shape (a0 : State) (a1 : Nat) (a2 : Nat) :
    (State.haltPair a0 a1 a2).shape = a0.shape := by
  unfold State.haltPair
  simp

@[simp] theorem State_startEntry_shape (a0 : State) (a1 : Nat) (a2 : List W32) :
    (State.startEntry a0 a1 a2).shape = a0.shape := by
  unfold State.startEntry
  simp

@[simp] theorem State_fetch_shape (a0 : State) (a1 : HostFetch) :
    (State.fetch a0 a1).shape = a0.shape := by
  unfold State.fetch
  (repeat' split) <;> (simp; done)

@[simp] theorem State_remap_shape (a0 : State) (a1 : List (Nat × CellarFrame)) :
    (State.remap a0 a1).shape = a0.shape := by
  unfold State.remap
  simp

@[simp] theorem State_govForce_shape (a0 : State) :
    (State.govForce a0).shape = a0.shape := by
  unfold State.govForce
  simp

@[simp] theorem State_relocate_shape (a0 : State) (a1 : Nat × CellarFrame) (a2 : Bool) :
    (State.relocate a0 a1 a2).shape = a0.shape := by
  unfold State.relocate
  split
  · rfl
  · rename_i hb
    have hd := place_dies _ _ hb
    simp only []
    (repeat' split) <;> (simp; apply shape_mk <;> simp [hd])

@[simp] theorem State_resumeNow_shape (a0 : State) (a1 : Nat) :
    (State.resumeNow a0 a1).shape = a0.shape := by
  unfold State.resumeNow
  simp

@[simp] theorem State_deferred_shape (a0 : State) (a1 : Nat) : (State.deferred a0 a1).shape = a0.shape := by
  unfold State.deferred; simp only []
  refine (shape_foldl' _ _ _ fun s k => ?_).trans (shape_foldl' _ _ _ fun s e => ?_)
  · split <;> simp
  · (repeat' split) <;> simp

@[simp] theorem State_closeCycle_shape (a0 : State) (a1 : Nat) :
    (State.closeCycle a0 a1).shape = a0.shape := by
  unfold State.closeCycle
  simp

@[simp] theorem State_cutBulk_shape (a0 : State) (a1 : Nat) :
    (State.cutBulk a0 a1).shape = a0.shape := by
  unfold State.cutBulk
  simp

@[simp] theorem State_runCycle_shape (a0 : State) (a1 : Nat) (a2 : Bool) :
    (State.runCycle a0 a1 a2).shape = a0.shape := by
  unfold State.runCycle
  (repeat' split) <;> (simp; done)

@[simp] theorem State_startPrio_shape (a0 : State) (a1 : Nat) (a2 : Wave) :
    (State.startPrio a0 a1 a2).shape = a0.shape := by
  unfold State.startPrio
  simp

@[simp] theorem State_preempt_shape (a0 : State) (a1 : Nat) : (State.preempt a0 a1).shape = a0.shape := by
  have key (s : State) : (s.assembleClass a1 true).2.shape = s.shape := by simp
  unfold State.preempt; simp only []
  split
  · rfl
  · split
    · simp
    · split
      · rename_i hb; have := key (((((a0.assembleClass a1 true).2.cutBulk a1).replies a1 false).closeCycle a1)); rw [hb] at this; simpa using this
      · rename_i hb; have := key (((((a0.assembleClass a1 true).2.cutBulk a1).replies a1 false).closeCycle a1)); rw [hb] at this; simpa using this

@[simp] theorem State_eraseBlock_shape (a0 : State) (a1 : Nat) (a2 : Nat) :
    (State.eraseBlock a0 a1 a2).shape = a0.shape := by
  unfold State.eraseBlock
  simp

@[simp] theorem State_writeBackNow_shape (a0 : State) (a1 : Handle) : (State.writeBackNow a0 a1).shape = a0.shape := by
  unfold State.writeBackNow; simp only []
  split
  · rfl
  · split
    · rename_i hb; have := State_acceptFrame_shape _ _ _ _ hb; simpa using this
    · simp

@[simp] theorem State_retain_shape (a0 : State) (a1 : List (Nat × CellarFrame)) : (State.retain a0 a1).shape = a0.shape := by
  unfold State.retain
  refine shape_foldl' _ _ _ fun s j => ?_
  split <;> simp

theorem State_meetPoison_shape (a0 : State) (a1 : Cmd) :
    ∀ r, State.meetPoison a0 a1 = some r → r.shape = a0.shape := by
  unfold State.meetPoison
  try simp only []
  (repeat' split) <;> first | rfl | (simp; done) | (refine (shape_foldl' _ _ _ ?_).trans ?_ <;> first | (simp; done) | (intro s x; (repeat' split) <;> (simp; done)))

@[simp] theorem State_tagAt_shape (a0 : State) (a1 : Loc) (a2 : Nat) (a3 : BitVec 4) :
    (State.tagAt a0 a1 a2 a3).shape = a0.shape := by
  unfold State.tagAt
  (repeat' split) <;> (simp; done)

@[simp] theorem State_setAdvance_shape (a0 : State) (a1 : Nat) (a2 : Nat) (a3 : Handle) (a4 : Nat) :
    (State.setAdvance a0 a1 a2 a3 a4).shape = a0.shape := by
  unfold State.setAdvance
  simp

@[simp] theorem State_cutHistory_shape (a0 : State) (a1 : Handle) (a2 : Nat) :
    (State.cutHistory a0 a1 a2).shape = a0.shape := by
  unfold State.cutHistory
  simp

@[simp] theorem State_trimTo_shape (a0 : State) (a1 : Nat) (a2 : Nat) :
    (State.trimTo a0 a1 a2).shape = a0.shape := by
  unfold State.trimTo
  simp

@[simp] theorem State_makeChild_shape (a0 : State) (a1 : Nat) (a2 : Nat) (a3 : Handle) (a4 : Handle) :
    (State.makeChild a0 a1 a2 a3 a4).shape = a0.shape := by
  unfold State.makeChild
  simp

@[simp] theorem State_applyEff_shape (a0 : State) (a1 : Eff) :
    (State.applyEff a0 a1).shape = a0.shape := by
  unfold State.applyEff
  (repeat' split) <;> (simp; done)

@[simp] theorem State_flipEff_shape (a0 : State) (a1 : Cmd) (a2 : Eff) :
    (State.flipEff a0 a1 a2).shape = a0.shape := by
  unfold State.flipEff
  (repeat' split) <;> (simp; done)

@[simp] theorem State_armRefresh_shape (a0 : State) (a1 : Nat) :
    (State.armRefresh a0 a1).shape = a0.shape := by
  unfold State.armRefresh
  simp

@[simp] theorem State_closeStepOf_shape (a0 : State) (a1 : WaveRun) :
    (State.closeStepOf a0 a1).shape = a0.shape := by
  unfold State.closeStepOf
  (repeat' split) <;> (simp; done)

@[simp] theorem State_modRuns_shape (a0 : State) (a1 : Cmd) (a2 : WaveRun → WaveRun) :
    (State.modRuns a0 a1 a2).shape = a0.shape := by
  unfold State.modRuns
  (repeat' split) <;> (simp; done)

@[simp] theorem State_closeRun_shape (a0 : State) (a1 : Cmd) (a2 : WaveRun) :
    (State.closeRun a0 a1 a2).shape = a0.shape := by
  unfold State.closeRun
  (repeat' split) <;> (simp; done)

@[simp] theorem State_recovered_shape (a0 : State) (a1 : Cmd) :
    (State.recovered a0 a1).shape = a0.shape := by
  unfold State.recovered
  simp

@[simp] theorem State_afterFork_shape (a0 : State) (a1 : Nat) :
    (State.afterFork a0 a1).shape = a0.shape := by
  unfold State.afterFork
  simp

@[simp] theorem State_afterCommit_shape (a0 : State) (a1 : Cmd) (a2 : Nat) :
    (State.afterCommit a0 a1 a2).shape = a0.shape := by
  unfold State.afterCommit
  (repeat' split) <;> (simp; done)

@[simp] theorem State_commit_shape (a0 : State) (a1 : Cmd) (a2 : Nat) :
    (State.commit a0 a1 a2).shape = a0.shape := by
  unfold State.commit
  simp

@[simp] theorem State_tryCommit_shape (s : State) (id arr : Nat) : (s.tryCommit id arr).shape = s.shape := by
  unfold State.tryCommit
  split
  · rfl
  · refine State_under_shape _ _ _ fun s => ?_
    split
    · rename_i hb; exact State_meetPoison_shape _ _ _ hb
    · (repeat' split) <;> simp

@[simp] theorem State_endStream_shape (a0 : State) (a1 : Nat) (a2 : Option Nat) :
    (State.endStream a0 a1 a2).shape = a0.shape := by
  unfold State.endStream
  simp

@[simp] theorem State_settleCores_shape (a0 : State) (a1 : Nat) :
    (State.settleCores a0 a1).shape = a0.shape := by
  unfold State.settleCores
  simp

@[simp] theorem State_incomingOf_shape (a0 : State) (a1 : Parcel) :
    (State.incomingOf a0 a1).2.shape = a0.shape := by
  unfold State.incomingOf
  (repeat' split) <;> (simp; done)

@[simp] theorem State_askOrigin_shape (a0 : State) (a1 : Query) :
    (State.askOrigin a0 a1).shape = a0.shape := by
  unfold State.askOrigin
  try simp only []
  (repeat' split) <;> first | rfl | (simp; done) | (refine (shape_foldl' _ _ _ ?_).trans ?_ <;> first | (simp; done) | (intro s x; (repeat' split) <;> (simp; done)))

@[simp] theorem State_placeService_shape (a0 : State) (a1 : Nat) (a2 : Nat) (a3 : Nat) (a4 : List Nat) :
    (State.placeService a0 a1 a2 a3 a4).shape = a0.shape := by
  unfold State.placeService
  simp

@[simp] theorem State_recoverChannel_shape (a0 : State) (a1 : Nat) :
    (State.recoverChannel a0 a1).shape = a0.shape := by
  unfold State.recoverChannel
  simp

@[simp] theorem State_wakePorts_shape (a0 : State) :
    (State.wakePorts a0).shape = a0.shape := by
  unfold State.wakePorts
  simp

@[simp] theorem State_endFetch_shape (a0 : State) (a1 : Handle) :
    (State.endFetch a0 a1).shape = a0.shape := by
  unfold State.endFetch
  simp

@[simp] theorem State_makerService_shape (a0 : State) :
    (State.makerService a0).shape = a0.shape := by
  unfold State.makerService
  simp

@[simp] theorem State_sendData_shape (a0 : BitVec 20) (a1 : Nat) (a2 : Nat) (a3 : Nat) (a4 : List Byte) (a5 : State) :
    (State.sendData a0 a1 a2 a3 a4 a5).shape = a5.shape := by
  fun_induction State.sendData <;> first | (simp; done) | (simp_all; done)

theorem State_dmaSettle_shape (s : State) (t : Started) (f : Nat → Nat → Channel → State)
    (h : ∀ a b c, (f a b c).shape = s.shape) : (s.dmaSettle t f).shape = s.shape := by
  unfold State.dmaSettle; simp only []; (repeat' split) <;> first | rfl | simp [h]

@[simp] theorem State_initPorts_shape (a0 : State) :
    (State.initPorts a0).shape = a0.shape := by
  unfold State.initPorts
  simp

@[simp] theorem State_chooseSource_shape (a0 : State) :
    (State.chooseSource a0).shape = a0.shape := by
  unfold State.chooseSource
  simp

@[simp] theorem State_setAnchor_shape (a0 : State) (a1 : Digest) (a2 : Digest) :
    (State.setAnchor a0 a1 a2).shape = a0.shape := by
  unfold State.setAnchor
  simp

@[simp] theorem State_modChannel_shape (a0 : State) (a1 : Nat) (a2 : Nat) (a3 : Channel → Channel) :
    (State.modChannel a0 a1 a2 a3).shape = a0.shape := by
  unfold State.modChannel
  simp

@[simp] theorem State_haltAt_shape (a0 : State) (a1 : Nat) (a2 : Nat) (a3 : Bool) (a4 : BitVec 4) (a5 : W64) :
    (State.haltAt a0 a1 a2 a3 a4 a5).shape = a0.shape := by
  unfold State.haltAt
  simp

theorem State_onMirror_shape (s : State) (rq : Nat) (t : List Nat) (f : Parcel → State → State)
    (h : ∀ p s, (f p s).shape = s.shape) : (s.onMirror rq t f).shape = s.shape := by
  unfold State.onMirror; (repeat' split) <;> first | rfl | simp [h]

@[simp] theorem State_payIndex_shape (a0 : State) :
    (State.payIndex a0).shape = a0.shape := by
  unfold State.payIndex
  simp

@[simp] theorem State_settleWeight_shape (a0 : State) (a1 : Handle) (a2 : Nat) (a3 : Nat) :
    (State.settleWeight a0 a1 a2 a3).shape = a0.shape := by
  unfold State.settleWeight
  simp

@[simp] theorem State_nameWeight_shape (a0 : State) (a1 : Nat) (a2 : Nat × Handle) :
    (State.nameWeight a0 a1 a2).shape = a0.shape := by
  unfold State.nameWeight
  simp

@[simp] theorem State_pump_shape (a0 : State) (a1 : Nat) :
    (State.pump a0 a1).shape = a0.shape := by
  unfold State.pump
  simp

@[simp] theorem State_modCvu_shape (a0 : State) (a1 : Nat) (a2 : Cvu → Cvu) :
    (State.modCvu a0 a1 a2).shape = a0.shape := by
  unfold State.modCvu
  simp

@[simp] theorem State_deliver_shape (a0 : State) (a1 : Nat) (a2 : Parcel) (a3 : Nat) (a4 : BitVec 8) :
    (State.deliver a0 a1 a2 a3 a4).shape = a0.shape := by
  unfold State.deliver
  simp

@[simp] theorem State_acceptParcel_shape (a0 : State) (a1 : Nat) (a2 : Parcel) :
    (State.acceptParcel a0 a1 a2).shape = a0.shape := by
  unfold State.acceptParcel
  simp

@[simp] theorem State_landPromotion_shape (a0 : State) (a1 : Handle) : (State.landPromotion a0 a1).shape = a0.shape := by
  unfold State.landPromotion
  simp only []
  split
  · rfl
  · simp

@[simp] theorem State_resend_shape (a0 : State) (a1 : BitVec 20) (a2 : BitVec 8) :
    (State.resend a0 a1 a2).shape = a0.shape := by
  unfold State.resend
  (repeat' split) <;> (simp; done)

@[simp] theorem State_emitLink_shape (a0 : State) (a1 : Nat) (a2 : Parcel) :
    (State.emitLink a0 a1 a2).shape = a0.shape := by
  unfold State.emitLink
  simp

@[simp] theorem State_modMove_shape (a0 : State) (a1 : Handle) (a2 : Move → Move) :
    (State.modMove a0 a1 a2).shape = a0.shape := by
  unfold State.modMove
  simp

@[simp] theorem State_countUp_shape (a0 : Nat) (a1 : State) :
    (State.countUp a0 a1).shape = a1.shape := by
  fun_induction State.countUp <;> first | (simp; done) | (simp_all; done)

@[simp] theorem State_queueFork_shape (a0 : State) (a1 : Nat) :
    (State.queueFork a0 a1).shape = a0.shape := by
  unfold State.queueFork
  simp

@[simp] theorem State_takeInput_shape (s : State) (c : Ctxt) (d : Datagram) : (s.takeInput c d).shape = s.shape := by
  unfold State.takeInput
  simp only []
  (repeat' split) <;> simp

@[simp] theorem State_weightCopy_shape (a0 : State) (a1 : Handle) (a2 : Bytes) :
    (State.weightCopy a0 a1 a2).shape = a0.shape := by
  unfold State.weightCopy; simp only []
  split
  · simp
  · rename_i hb
    split at hb
    · simp at hb; obtain ⟨rfl, rfl⟩ := hb; split <;> simp
    · have := State_demandFrame_shape _ _ _ hb; split <;> simpa using this

@[simp] theorem State_continueReq_shape (a0 : State) (a1 : Nat) : (State.continueReq a0 a1).shape = a0.shape := by
  unfold State.continueReq
  refine State_ifLive_shape _ _ _ fun i => ?_
  first | (simp; done) | (split <;> simp)

theorem State_onReq_shape (s : State) (a b c : Nat) (f : Nat → State) (h : ∀ i, (f i).shape = s.shape) :
    (s.onReq a b c f).shape = s.shape := by
  unfold State.onReq; simp only []; (repeat' split) <;> first | rfl | exact h _ | simp

@[simp] theorem State_checkMin_shape (a0 : State) :
    (State.checkMin a0).shape = a0.shape := by
  unfold State.checkMin
  simp

@[simp] theorem State_endPasses_shape (a0 : State) (a1 : Cmd) :
    (State.endPasses a0 a1).shape = a0.shape := by
  unfold State.endPasses
  simp

theorem State_placeWeight_shape (a0 : State) (a1 : Nat) (a2 : FrameDesc) (a3 : Bytes) :
    ∀ r, State.placeWeight a0 a1 a2 a3 = some r → r.2.shape = a0.shape := by
  intro r h; unfold State.placeWeight at h; simp only [] at h
  split at h
  · rename_i hb; have := State_demandFrame_shape _ _ _ hb; simp at h; subst h; simpa using this
  · split at h
    · simp at h
    · split at h
      · rename_i hb; have := State_acceptAs_shape _ _ _ _ _ hb; simp at h; subst h; simpa using this
      · simp at h

@[simp] theorem State_failSession_shape (a0 : State) (a1 : Nat) (a2 : Nat) (a3 : Nat) (a4 : Nat) :
    (State.failSession a0 a1 a2 a3 a4).shape = a0.shape := by
  unfold State.failSession
  simp

@[simp] theorem State_restorePort_shape (a0 : State) (a1 : Nat) (a2 : PortRead) :
    (State.restorePort a0 a1 a2).shape = a0.shape := by
  unfold State.restorePort
  simp

@[simp] theorem State_restorePorts_shape (a0 : State) (a1 : List Nat) (a2 : List PortRead) :
    (State.restorePorts a0 a1 a2).shape = a0.shape := by
  unfold State.restorePorts
  refine shape_foldl' _ _ _ fun s j => ?_
  split <;> simp

@[simp] theorem State_throttled_shape (a0 : State) (a1 : Bool) (a2 : Code) (a3 : Nat) :
    (State.throttled a0 a1 a2 a3).shape = a0.shape := by
  unfold State.throttled
  simp

@[simp] theorem State_selectSlot_shape (a0 : State) :
    (State.selectSlot a0).shape = a0.shape := by
  unfold State.selectSlot
  try simp only []
  (repeat' split) <;> first | rfl | (simp; done) | (refine (shape_foldl' _ _ _ ?_).trans ?_ <;> first | (simp; done) | (intro s x; (repeat' split) <;> (simp; done)))

@[simp] theorem State_clearStart_shape (a0 : State) :
    (State.clearStart a0).shape = a0.shape := by
  unfold State.clearStart
  simp

@[simp] theorem State_logBoard_shape (a0 : State) :
    (State.logBoard a0).shape = a0.shape := by
  unfold State.logBoard
  simp

@[simp] theorem State_startPorts_shape (a0 : State) (a1 : Bool) (a2 : List PortRead) :
    (State.startPorts a0 a1 a2).shape = a0.shape := by
  unfold State.startPorts
  simp

@[simp] theorem State_startCores_shape (a0 : State) (a1 : Bool) (a2 : List (BitVec 17)) :
    (State.startCores a0 a1 a2).shape = a0.shape := by
  unfold State.startCores
  simp

@[simp] theorem State_startFrom_shape (a0 : State) (a1 : Bool) (a2 : Bool) (a3 : StartIn) :
    (State.startFrom a0 a1 a2 a3).shape = a0.shape := by
  unfold State.startFrom
  simp

theorem State_onParcel_shape (s : State) (rq : Nat) (t : BitVec 4) (f : Parcel → State → State)
    (h : ∀ p s, (f p s).shape = s.shape) : (s.onParcel rq t f).shape = s.shape := by
  unfold State.onParcel; (repeat' split) <;> first | rfl | simp [h]

@[simp] theorem State_placeTables_shape (a0 : State) (a1 : Plan) (a2 : List Byte) :
    (State.placeTables a0 a1 a2).shape = a0.shape := by
  unfold State.placeTables
  simp

@[simp] theorem State_consumed_shape (a0 : State) (a1 : Nat) (a2 : Nat) :
    (State.consumed a0 a1 a2).shape = a0.shape := by
  unfold State.consumed
  simp

@[simp] theorem State_knowPartner_shape (a0 : State) (a1 : Nat) (a2 : List W32) :
    (State.knowPartner a0 a1 a2).shape = a0.shape := by
  simp [State.knowPartner]

@[simp] theorem State_sendOffers_shape (a0 : State) (a1 : Nat) :
    (State.sendOffers a0 a1).shape = a0.shape := by
  unfold State.sendOffers
  exact shape_foldl' _ _ _ fun s l => by simp

@[simp] theorem State_portUp_shape (a0 : State) (a1 : Nat) (a2 : List W32) :
    (State.portUp a0 a1 a2).shape = a0.shape := by
  unfold State.portUp
  simp

@[simp] theorem State_takeHello_shape (a0 : State) (a1 : Nat) (a2 : List W32) :
    (State.takeHello a0 a1 a2).shape = a0.shape := by
  unfold State.takeHello
  simp

@[simp] theorem State_negotiateFrom2_shape (a0 : State) (a1 : Nat) (a2 : NegIn) :
    (State.negotiateFrom2 a0 a1 a2).shape = a0.shape := by
  unfold State.negotiateFrom2
  simp

@[simp] theorem State_retrySets_shape (a0 : State) (a1 : Nat → Bool) :
    (State.retrySets a0 a1).shape = a0.shape := by
  unfold State.retrySets
  simp

theorem State_loadChannels_shape (a0 : Nat) (a1 : List (List W32)) (a2 : State) :
    ∀ r, State.loadChannels a0 a1 a2 = some r → r.shape = a2.shape := by
  induction a1 generalizing a0 a2 with
  | nil => intro r h; simp [State.loadChannels] at h; subst h; rfl
  | cons e t ih =>
    intro r h; unfold State.loadChannels at h
    split at h
    · rename_i hb; exact (ih _ _ _ h).trans (State_loadChannel_shape _ _ _ _ hb)
    · simp at h

@[simp] theorem State_endWriteBack_shape (a0 : State) (a1 : Handle) (a2 : Move) (a3 : Nat) :
    (State.endWriteBack a0 a1 a2 a3).shape = a0.shape := by
  unfold State.endWriteBack; simp only []
  split <;> split <;> simp

@[simp] theorem State_failMirror_shape (a0 : State) (a1 : Nat) :
    (State.failMirror a0 a1).shape = a0.shape := by
  unfold State.failMirror
  simp

@[simp] theorem State_deferReq_shape (a0 : State) (a1 : Nat) (a2 : Nat) :
    (State.deferReq a0 a1 a2).shape = a0.shape := by
  unfold State.deferReq
  try simp only []
  (repeat' split) <;> first | rfl | (simp; done) | (refine (shape_foldl' _ _ _ ?_).trans ?_ <;> first | (simp; done) | (intro s x; (repeat' split) <;> (simp; done)))

@[simp] theorem State_pauseReq_shape (a0 : State) (a1 : Nat) : (State.pauseReq a0 a1).shape = a0.shape := by
  unfold State.pauseReq
  refine State_ifLive_shape _ _ _ fun i => ?_
  first | (simp; done) | (split <;> simp)

@[simp] theorem State_issueRecv_shape (s : State) (id : Nat) (f : List W32 → Bool) (w : State → Cmd → Res → Work) :
    (s.issueRecv id f w).shape = s.shape := by
  unfold State.issueRecv; (repeat' split) <;> simp

@[simp] theorem State_l1_shape (a0 : State) :
    (State.l1 a0).shape = a0.shape := by
  unfold State.l1
  simp

@[simp] theorem State_mirrorErrata_shape (a0 : State) : (State.mirrorErrata a0).shape = a0.shape := by
  unfold State.mirrorErrata; simp only []
  split
  · rfl
  · split
    · rfl
    · split
      · rename_i hb; have := State_putMirror_shape _ _ _ _ _ _ _ _ _ _ hb; simpa using this
      · rfl

theorem State_rebuildLeaf_shape (a0 : State) (a1 : BitVec 20) (a2 a3 a4 a5 a6 : Nat)
    (a7 : State → Nat → Option (Handle × State)) (h7 : ∀ s n r, a7 s n = some r → r.2.shape = s.shape) :
    ∀ r, State.rebuildLeaf a0 a1 a2 a3 a4 a5 a6 a7 = some r → r.2.shape = a0.shape := by
  intro r h; unfold State.rebuildLeaf at h
  split at h
  · simp at h
  · rename_i hb; have := State_takeSingle_shape _ _ _ _ hb
    simp only [Option.some.injEq] at h; subst h
    refine (shape_foldl' _ _ _ fun s x => ?_).trans (by simpa using this)
    split
    · rename_i hc; have := h7 _ _ _ hc; simpa using this
    · rfl

theorem State_rebuildSpine_shape (a0 : BitVec 20) (a1 : Nat) (a2 : State) (a3 : Nat) :
    ∀ r, State.rebuildSpine a0 a1 a2 a3 = some r → r.2.shape = a2.shape := by
  intro r h; unfold State.rebuildSpine at h
  split at h
  · simp at h
  · rename_i hb; have := State_takeSingle_shape _ _ _ _ hb
    simp only [Option.some.injEq] at h; subst h
    refine (shape_foldl' _ _ _ fun s x => ?_).trans (by simpa using this)
    split
    · rename_i hc; have := State_nameMapped_shape _ _ _ _ hc; simpa using this
    · rfl

@[simp] theorem State_restore_shape (a0 : State) (a1 : Manifest) : (State.restore a0 a1).shape = a0.shape := by
  unfold State.restore; simp only []
  split
  · simp
  · split
    · split
      · simp
      · split
        · simp
        · split
          · simp
          · rename_i hb
            have h1 := State_rebuildLeaf_shape _ _ _ _ _ _ _ _ (fun s n r h => State_nameMapped_shape _ _ _ _ h) _ hb
            split
            · simp
            · rename_i hc
              have h2 := State_rebuildLeaf_shape _ _ _ _ _ _ _ _ (fun s n r h => State_rebuildSpine_shape _ _ _ _ _ h) _ hc
              simpa using h2.trans h1
    · simp

@[simp] theorem State_loseOwner_shape (a0 : State) (a1 : BitVec 20) :
    (State.loseOwner a0 a1).shape = a0.shape := by
  unfold State.loseOwner
  simp

theorem State_placeWeights_shape (a0 : Nat) (a1 : Nat → FrameDesc) (a2 a3 : List Byte) (a4 a5 : Nat) (a6 : State) :
    ∀ r, State.placeWeights a0 a1 a2 a3 a4 a5 a6 = some r → r.2.shape = a6.shape := by
  induction a4 generalizing a5 a6 with
  | zero => intro r h; simp [State.placeWeights] at h; subst h; rfl
  | succ n ih =>
    intro r h; unfold State.placeWeights at h
    split at h
    · rename_i hb
      simp only [Option.map_eq_some_iff] at h
      obtain ⟨x, hx, rfl⟩ := h
      exact (ih _ _ _ hx).trans (State_placeWeight_shape _ _ _ _ _ hb)
    · simp at h

@[simp] theorem State_trained_shape (a0 : State) (a1 : PortTrain) :
    (State.trained a0 a1).shape = a0.shape := by
  unfold State.trained
  simp

@[simp] theorem State_rotate_shape (a0 : State) (a1 : Imprint) :
    (State.rotate a0 a1).shape = a0.shape := by
  unfold State.rotate
  simp

@[simp] theorem State_runFailure_shape (a0 : State) (a1 : Nat) (a2 : Nat) :
    (State.runFailure a0 a1 a2).shape = a0.shape := by
  unfold State.runFailure
  simp

@[simp] theorem State_failSlice_shape (a0 : State) (a1 : Nat) :
    (State.failSlice a0 a1).shape = a0.shape := by
  unfold State.failSlice
  (repeat' split) <;> (simp; done)

@[simp] theorem State_publish_shape (a0 : State) (a1 : Nat) :
    (State.publish a0 a1).shape = a0.shape := by
  unfold State.publish
  simp

@[simp] theorem State_idle_shape (a0 : State) :
    (State.idle a0).shape = a0.shape := by
  unfold State.idle
  simp

@[simp] theorem State_boardLog_shape (a0 : State) (a1 : Nat) (a2 : Nat) :
    (State.boardLog a0 a1 a2).shape = a0.shape := by
  unfold State.boardLog
  simp

@[simp] theorem State_startCycle_shape (a0 : Nat) (a1 : Nat) (a2 : State) : (State.startCycle a0 a1 a2).shape = a2.shape := by
  induction a0 generalizing a2 with
  | zero => rfl
  | succ n ih =>
    unfold State.startCycle; simp only []
    split
    · split <;> simp [ih]
    · generalize ht : (if (a2.part a1).bulkFirst = true then (none, a2) else a2.assembleClass a1 true) = t
      have hb : t.2.shape = a2.shape := by subst ht; split <;> simp
      split
      · simpa using hb
      · split
        · split <;> simp [ih, hb]
        · split <;> simp [ih, hb]

@[simp] theorem State_moveTo_shape (a0 : State) (a1 : Nat) (a2 : Nat) (a3 : Nat) (a4 : List Byte) :
    (State.moveTo a0 a1 a2 a3 a4).shape = a0.shape := by
  unfold State.moveTo
  simp

@[simp] theorem State_endReqStream_shape (a0 : State) (a1 : Nat) : (State.endReqStream a0 a1).shape = a0.shape := by
  unfold State.endReqStream
  refine State_ifLive_shape _ _ _ fun i => ?_
  first | (simp; done) | (split <;> simp)

@[simp] theorem State_inputLost_shape (a0 : State) :
    (State.inputLost a0).shape = a0.shape := by
  unfold State.inputLost
  simp

@[simp] theorem State_addBlock_shape (s : State) (c : Nat) (l : List (BitVec 23)) : (s.addBlock c l).shape = s.shape := by
  unfold State.addBlock
  simp only []
  split
  · rfl
  · split
    · simp
    · split
      · simp
      · split
        · split <;> simp
        · split
          · rfl
          · rename_i hb
            have hg := State_putGrad_shape _ _ _ _ _ hb
            split <;> simp [hg]

@[simp] theorem State_wakeEvent_shape (a0 : State) :
    (State.wakeEvent a0).shape = a0.shape := by
  unfold State.wakeEvent
  try simp only []
  (repeat' split) <;> first | rfl | (simp; done) | (refine (shape_foldl' _ _ _ ?_).trans ?_ <;> first | (simp; done) | (intro s x; (repeat' split) <;> (simp; done)))

@[simp] theorem State_retireDie_shape (a0 : State) (a1 : Nat) :
    (State.retireDie a0 a1).shape = a0.shape := by
  unfold State.retireDie
  simp

@[simp] theorem State_admitMove_shape (a0 : State) (a1 : Handle) (a2 : Move) :
    (State.admitMove a0 a1 a2).shape = a0.shape := by
  unfold State.admitMove
  simp

@[simp] theorem State_enableQueue_shape (a0 : State) (a1 : Nat) (a2 : W32) :
    (State.enableQueue a0 a1 a2).shape = a0.shape := by
  unfold State.enableQueue
  simp

@[simp] theorem State_enterPlan_shape (a0 : State) (a1 : Nat) (a2 : List Byte) (a3 : List Handle) (a4 : W64) :
    (State.enterPlan a0 a1 a2 a3 a4).shape = a0.shape := by
  unfold State.enterPlan
  simp

@[simp] theorem State_dormantRegs_shape (s : State) : s.dormantRegs.shape = s.shape := by
  unfold State.dormantRegs
  apply shape_mk <;> simp [Port.blank]

@[simp] theorem State_initRecords_shape (a0 : State) (a1 : Nat) (a2 : List W32) :
    (State.initRecords a0 a1 a2).shape = a0.shape := by
  unfold State.initRecords
  simp

@[simp] theorem State_meetErrors_shape (s : State) : s.meetErrors.shape = s.shape := by
  unfold State.meetErrors
  split
  · rfl
  · exact (shape_foldl' _ _ _ fun s x => by simp).trans (by simp)

theorem State_afterErrors_shape (s : State) (h : Handle) (f : State → Move → State)
    (hf : ∀ s m, (f s m).shape = s.shape) : (s.afterErrors h f).shape = s.shape := by
  have key : s.meetErrors.shape = s.shape := State_meetErrors_shape s
  unfold State.afterErrors; simp only []
  split
  · rfl
  · split
    · rw [hf, key]
    · exact key

@[simp] theorem State_setResident_shape (a0 : State) :
    (State.setResident a0).shape = a0.shape := by
  unfold State.setResident
  simp

@[simp] theorem State_endTransfer_shape (a0 : State) (a1 : Nat) (a2 : Nat) (a3 : HostData) :
    (State.endTransfer a0 a1 a2 a3).shape = a0.shape := by
  unfold State.endTransfer
  try simp only []
  (repeat' split) <;> first | rfl | (simp; done) | (refine (shape_foldl' _ _ _ ?_).trans ?_ <;> first | (simp; done) | (intro s x; (repeat' split) <;> (simp; done)))

@[simp] theorem State_caskBack_shape (a0 : State) :
    (State.caskBack a0).shape = a0.shape := by
  unfold State.caskBack
  simp

@[simp] theorem State_pinFault_shape (a0 : State) (a1 : Nat) (a2 : Nat) :
    (State.pinFault a0 a1 a2).shape = a0.shape := by
  unfold State.pinFault
  simp

@[simp] theorem State_resumeReq_shape (a0 : State) (a1 : Nat) : (State.resumeReq a0 a1).shape = a0.shape := by
  unfold State.resumeReq
  refine State_ifLive_shape _ _ _ fun i => ?_
  first | (simp; done) | (split <;> simp)

@[simp] theorem State_drainTx_shape (a0 : State) (a1 : Nat) :
    (State.drainTx a0 a1).shape = a0.shape := by
  unfold State.drainTx
  exact (shape_foldl' _ _ _ fun s w => by simp).trans (by simp)

@[simp] theorem State_openCtx_shape (a0 : State) (a1 : Nat) (a2 : Datagram) :
    (State.openCtx a0 a1 a2).shape = a0.shape := by
  unfold State.openCtx
  try simp only []
  (repeat' split) <;> first | rfl | (simp; done) | (refine (shape_foldl' _ _ _ ?_).trans ?_ <;> first | (simp; done) | (intro s x; (repeat' split) <;> (simp; done)))

@[simp] theorem State_loadTable_shape (a0 : State) (a1 : Nat) (a2 : Nat) (a3 : List (List W32)) :
    (State.loadTable a0 a1 a2 a3).2.shape = a0.shape := by
  unfold State.loadTable
  split
  · rfl
  · split
    · split
      · rename_i hb; exact State_loadChannels_shape _ _ _ _ hb
      · rfl
    · simp
    · simp
    · simp

@[simp] theorem State_fallBehind_shape (a0 : State) (a1 : Nat) (a2 : Code) (a3 : Nat) (a4 : BitVec 23) :
    (State.fallBehind a0 a1 a2 a3 a4).shape = a0.shape := by
  unfold State.fallBehind
  simp

@[simp] theorem State_takeDown_shape (s : State) (c : Nat) : (s.takeDown c).shape = s.shape := by
  unfold State.takeDown
  simp only []
  split
  · rfl
  · split
    · split <;> simp
    · split
      · rfl
      · rename_i hb
        have hg := State_putGrad_shape _ _ _ _ _ hb
        split <;> simp [hg]

@[simp] theorem State_ageQueries_shape (a0 : State) :
    (State.ageQueries a0).shape = a0.shape := by
  unfold State.ageQueries
  simp

end Sys2Proof.Machine
end

