-- ==== Sys2Proof/Laws/ExecShape.lean ====
section
/-! SUPPORT. Every command keeps the sizes of the register files. -/

set_option maxRecDepth 4000
namespace Sys2Proof.Machine

theorem execNop_shape (q tag : Nat) (s : State) : ∃ t, execNop q tag s = .next t ∧ t.shape = s.shape := by
  refine ⟨_, rfl, ?_⟩
  refine State_onStarted_shape _ _ _ _ _ _ fun t => ?_
  (repeat' split) <;> first | (simp; done) | rfl | (simp_all; done)

theorem execOpenSessionChallenge_shape (q tag : Nat) (s : State) : ∃ t, execOpenSessionChallenge q tag s = .next t ∧ t.shape = s.shape := by
  refine ⟨_, rfl, ?_⟩
  refine State_onStarted_shape _ _ _ _ _ _ fun t => ?_
  (repeat' split) <;> first | (simp; done) | rfl | (simp_all; done)

theorem execOpenSessionAnswer_shape (q tag : Nat) (answer : SessionAnswer) (s : State) : ∃ t, execOpenSessionAnswer q tag answer s = .next t ∧ t.shape = s.shape := by
  refine ⟨_, rfl, ?_⟩
  refine State_onStarted_shape _ _ _ _ _ _ fun t => ?_
  (repeat' split) <;> first | (simp; done) | rfl | (simp_all; done)

theorem execCloseSession_shape (q tag : Nat) (s : State) : ∃ t, execCloseSession q tag s = .next t ∧ t.shape = s.shape := by
  refine ⟨_, rfl, ?_⟩
  refine State_onStarted_shape _ _ _ _ _ _ fun t => ?_
  (repeat' split) <;> first | (simp; done) | rfl | (simp_all; done)

theorem execLoadPlan_shape (q tag : Nat) (image : List Byte) (s : State) : ∃ t, execLoadPlan q tag image s = .next t ∧ t.shape = s.shape := by
  refine ⟨_, rfl, ?_⟩
  refine State_onStarted_shape _ _ _ _ _ _ fun t => ?_
  simp only []
  split
  · simp
  · split
    · rfl
    · split
      · simp
      · rename_i hb
        have := State_placeWeights_shape _ _ _ _ _ _ _ _ hb
        simpa using this

theorem execLoadPlanAdopt_shape (q tag : Nat) (image : List Byte) (s : State) : ∃ t, execLoadPlanAdopt q tag image s = .next t ∧ t.shape = s.shape := by
  refine ⟨_, rfl, ?_⟩
  refine State_onStarted_shape _ _ _ _ _ _ fun t => ?_
  simp only []
  split
  · simp
  · split
    · simp
    · split <;> simp

theorem execUnloadPlan_shape (q tag : Nat) (s : State) : ∃ t, execUnloadPlan q tag s = .next t ∧ t.shape = s.shape := by
  refine ⟨_, rfl, ?_⟩
  refine State_onStarted_shape _ _ _ _ _ _ fun t => ?_
  (repeat' split) <;> first | (simp; done) | rfl | (simp_all; done)

theorem execGrist_shape (q tag : Nat) (header : List W32) (s : State) : ∃ t, execGrist q tag header s = .next t ∧ t.shape = s.shape := by
  refine ⟨_, rfl, ?_⟩
  refine State_onStarted_shape _ _ _ _ _ _ fun t => ?_
  (repeat' split) <;> first | (simp; done) | rfl | (simp_all; done)

theorem execTrain_shape (q tag : Nat) (runs : List W32) (s : State) : ∃ t, execTrain q tag runs s = .next t ∧ t.shape = s.shape := by
  refine ⟨_, rfl, ?_⟩
  refine State_onStarted_shape _ _ _ _ _ _ fun t => ?_
  (repeat' split) <;> first | (simp; done) | rfl | (simp_all; done)

theorem execPlainRerun_shape (q tag : Nat) (s : State) : ∃ t, execPlainRerun q tag s = .next t ∧ t.shape = s.shape := by
  refine ⟨_, rfl, ?_⟩
  refine State_onStarted_shape _ _ _ _ _ _ fun t => ?_
  simp only []
  (repeat' split) <;> first | (simp; done) | rfl | (simp_all; done)

theorem execSetRefresh_shape (q tag : Nat) (s : State) : ∃ t, execSetRefresh q tag s = .next t ∧ t.shape = s.shape := by
  refine ⟨_, rfl, ?_⟩
  refine State_onStarted_shape _ _ _ _ _ _ fun t => ?_
  (repeat' split) <;> first | (simp; done) | rfl | (simp_all; done)

theorem execReadTable_shape (q tag : Nat) (s : State) : ∃ t, execReadTable q tag s = .next t ∧ t.shape = s.shape := by
  refine ⟨_, rfl, ?_⟩
  refine State_onStarted_shape _ _ _ _ _ _ fun t => ?_
  (repeat' split) <;> first | (simp; done) | rfl | (simp_all; done)

theorem execLoadTable_shape (q tag : Nat) (entries : List W32) (s : State) : ∃ t, execLoadTable q tag entries s = .next t ∧ t.shape = s.shape := by
  refine ⟨_, rfl, ?_⟩
  refine State_onStarted_shape _ _ _ _ _ _ fun t => ?_
  (repeat' split) <;> first | (simp; done) | rfl | (simp_all; done)

theorem execInitSet_shape (q tag : Nat) (s : State) : ∃ t, execInitSet q tag s = .next t ∧ t.shape = s.shape := by
  refine ⟨_, rfl, ?_⟩
  refine State_onStarted_shape _ _ _ _ _ _ fun t => ?_
  (repeat' split) <;> first | (simp; done) | rfl | (simp_all; done)

theorem execDmaStart_shape (q tag : Nat) (s : State) : ∃ t, execDmaStart q tag s = .next t ∧ t.shape = s.shape := by
  refine ⟨_, rfl, ?_⟩
  refine State_onStarted_shape _ _ _ _ _ _ fun t => ?_
  (repeat' split) <;> first | (simp; done) | rfl | (simp_all; done)

theorem execDmaControlResume_shape (q tag : Nat) (s : State) : ∃ t, execDmaControlResume q tag s = .next t ∧ t.shape = s.shape := by
  refine ⟨_, rfl, ?_⟩
  refine State_onStarted_shape _ _ _ _ _ _ fun t => ?_
  refine State_dmaSettle_shape _ _ _ fun a b c => ?_
  simp

theorem execDmaControlAbort_shape (q tag : Nat) (s : State) : ∃ t, execDmaControlAbort q tag s = .next t ∧ t.shape = s.shape := by
  refine ⟨_, rfl, ?_⟩
  refine State_onStarted_shape _ _ _ _ _ _ fun t => ?_
  refine State_dmaSettle_shape _ _ _ fun a b c => ?_
  simp

theorem execSimmerDisable_shape (q tag : Nat) (s : State) : ∃ t, execSimmerDisable q tag s = .next t ∧ t.shape = s.shape := by
  refine ⟨_, rfl, ?_⟩
  refine State_onStarted_shape _ _ _ _ _ _ fun t => ?_
  (repeat' split) <;> first | (simp; done) | rfl | (simp_all; done)

theorem execSimmerEnable_shape (q tag : Nat) (s : State) : ∃ t, execSimmerEnable q tag s = .next t ∧ t.shape = s.shape := by
  refine ⟨_, rfl, ?_⟩
  refine State_onStarted_shape _ _ _ _ _ _ fun t => ?_
  (repeat' split) <;> first | (simp; done) | rfl | (simp_all; done)

theorem execPowerSetRest_shape (q tag : Nat) (s : State) : ∃ t, execPowerSetRest q tag s = .next t ∧ t.shape = s.shape := by
  refine ⟨_, rfl, ?_⟩
  simp; done

theorem execPowerSetDormant_shape (q tag : Nat) (s : State) : ∃ t, execPowerSetDormant q tag s = .next t ∧ t.shape = s.shape := by
  refine ⟨_, rfl, ?_⟩
  simp; done

theorem execPowerSetStandby_shape (q tag : Nat) (s : State) : ∃ t, execPowerSetStandby q tag s = .next t ∧ t.shape = s.shape := by
  refine ⟨_, rfl, ?_⟩
  simp; done

theorem execPowerCap_shape (q tag : Nat) (s : State) : ∃ t, execPowerCap q tag s = .next t ∧ t.shape = s.shape := by
  refine ⟨_, rfl, ?_⟩
  refine State_onStarted_shape _ _ _ _ _ _ fun t => ?_
  (repeat' split) <;> first | (simp; done) | rfl | (simp_all; done)

theorem execReadTelemetry_shape (q tag : Nat) (s : State) : ∃ t, execReadTelemetry q tag s = .next t ∧ t.shape = s.shape := by
  refine ⟨_, rfl, ?_⟩
  refine State_onStarted_shape _ _ _ _ _ _ fun t => ?_
  (repeat' split) <;> first | (simp; done) | rfl | (simp_all; done)

theorem execInstallImprint_shape (q tag : Nat) (image : Imprint) (s : State) : ∃ t, execInstallImprint q tag image s = .next t ∧ t.shape = s.shape := by
  refine ⟨_, rfl, ?_⟩
  refine State_onStarted_shape _ _ _ _ _ _ fun t => ?_
  (repeat' split) <;> first | (simp; done) | rfl | (simp_all; done)

theorem execInstallFirmware_shape (q tag : Nat) (image : Firmware) (s : State) : ∃ t, execInstallFirmware q tag image s = .next t ∧ t.shape = s.shape := by
  refine ⟨_, rfl, ?_⟩
  refine State_onStarted_shape _ _ _ _ _ _ fun t => ?_
  (repeat' split) <;> first | (simp; done) | rfl | (simp_all; done)

theorem execCommitVersion_shape (q tag : Nat) (s : State) : ∃ t, execCommitVersion q tag s = .next t ∧ t.shape = s.shape := by
  refine ⟨_, rfl, ?_⟩
  refine State_onStarted_shape _ _ _ _ _ _ fun t => ?_
  (repeat' split) <;> first | (simp; done) | rfl | (simp_all; done)

theorem execRestart_shape (q tag : Nat) (start : StartIn) (s : State) : ∃ t, execRestart q tag start s = .next t ∧ t.shape = s.shape := by
  refine ⟨_, rfl, ?_⟩
  refine State_onStarted_shape _ _ _ _ _ _ fun t => ?_
  simp

theorem execReadErrata_shape (q tag : Nat) (s : State) : ∃ t, execReadErrata q tag s = .next t ∧ t.shape = s.shape := by
  refine ⟨_, rfl, ?_⟩
  refine State_onStarted_shape _ _ _ _ _ _ fun t => ?_
  (repeat' split) <;> first | (simp; done) | rfl | (simp_all; done)

theorem execOpenWindow_shape (q tag : Nat) (companion : Digest) (s : State) : ∃ t, execOpenWindow q tag companion s = .next t ∧ t.shape = s.shape := by
  refine ⟨_, rfl, ?_⟩
  refine State_onStarted_shape _ _ _ _ _ _ fun t => ?_
  (repeat' split) <;> first | (simp; done) | rfl | (simp_all; done)

theorem execCloseWindow_shape (q tag : Nat) (s : State) : ∃ t, execCloseWindow q tag s = .next t ∧ t.shape = s.shape := by
  refine ⟨_, rfl, ?_⟩
  refine State_onStarted_shape _ _ _ _ _ _ fun t => ?_
  (repeat' split) <;> first | (simp; done) | rfl | (simp_all; done)

theorem execAttest_shape (q tag : Nat) (s : State) : ∃ t, execAttest q tag s = .next t ∧ t.shape = s.shape := by
  refine ⟨_, rfl, ?_⟩
  refine State_onStarted_shape _ _ _ _ _ _ fun t => ?_
  (repeat' split) <;> first | (simp; done) | rfl | (simp_all; done)

theorem execCoreService_shape (q tag : Nat) (s : State) : ∃ t, execCoreService q tag s = .next t ∧ t.shape = s.shape := by
  refine ⟨_, rfl, ?_⟩
  refine State_onStarted_shape _ _ _ _ _ _ fun t => ?_
  (repeat' split) <;> first | (simp; done) | rfl | (simp_all; done)

theorem execSelfTest_shape (q tag : Nat) (failed : BitVec 17) (s : State) : ∃ t, execSelfTest q tag failed s = .next t ∧ t.shape = s.shape := by
  refine ⟨_, rfl, ?_⟩
  refine State_onStarted_shape _ _ _ _ _ _ fun t => ?_
  (repeat' split) <;> first | (simp; done) | rfl | (simp_all; done)

theorem execLaneService_shape (q tag : Nat) (net : NegIn) (s : State) : ∃ t, execLaneService q tag net s = .next t ∧ t.shape = s.shape := by
  refine ⟨_, rfl, ?_⟩
  refine State_onStarted_shape _ _ _ _ _ _ fun t => ?_
  (repeat' split) <;> first | (simp; done) | rfl | (simp_all; done)

theorem execPortService_shape (q tag : Nat) (s : State) : ∃ t, execPortService q tag s = .next t ∧ t.shape = s.shape := by
  refine ⟨_, rfl, ?_⟩
  refine State_onStarted_shape _ _ _ _ _ _ fun t => ?_
  (repeat' split) <;> first | (simp; done) | rfl | (simp_all; done)

theorem execReadSpares_shape (q tag : Nat) (s : State) : ∃ t, execReadSpares q tag s = .next t ∧ t.shape = s.shape := by
  refine ⟨_, rfl, ?_⟩
  refine State_onStarted_shape _ _ _ _ _ _ fun t => ?_
  (repeat' split) <;> first | (simp; done) | rfl | (simp_all; done)

theorem execSqTail_shape (q : Nat) (value : W32) (s : State) : ∃ t, execSqTail q value s = .next t ∧ t.shape = s.shape := by
  refine ⟨_, rfl, ?_⟩
  simp; done

theorem execCqHead_shape (q : Nat) (value : W32) (s : State) : ∃ t, execCqHead q value s = .next t ∧ t.shape = s.shape := by
  refine ⟨_, rfl, ?_⟩
  simp; done

theorem execQueueEnable_shape (q : Nat) (value : W32) (s : State) : ∃ t, execQueueEnable q value s = .next t ∧ t.shape = s.shape := by
  refine ⟨_, rfl, ?_⟩
  simp; done

theorem execQueueDisable_shape (q : Nat) (value : W32) (s : State) : ∃ t, execQueueDisable q value s = .next t ∧ t.shape = s.shape := by
  refine ⟨_, rfl, ?_⟩
  simp; done

theorem execAttnPendingClear_shape (value : W32) (events : BitVec 8) (s : State) : ∃ t, execAttnPendingClear value events s = .next t ∧ t.shape = s.shape := by
  refine ⟨_, rfl, ?_⟩
  split
  · rw [← State_l1_shape s]
    apply shape_mk <;> (unfold State.l1; split <;> rfl)
  · rfl

theorem execTimeLoRead_shape (s : State) : ∃ t, execTimeLoRead  s = .next t ∧ t.shape = s.shape := by
  refine ⟨_, rfl, ?_⟩
  split
  · rw [← State_l1_shape s, State_emit_shape]
    apply shape_mk <;> (unfold State.l1; split <;> rfl)
  · rfl

theorem execReadClearField_shape (offset : Nat) (event : Bool) (s : State) : ∃ t, execReadClearField offset event s = .next t ∧ t.shape = s.shape := by
  refine ⟨_, rfl, ?_⟩
  split
  · rename_i h
    split at h
    · simp [State_readClear_shape _ _ _ _ h]
    · simp at h
  · rfl

theorem execRegisterWriteOther_shape (offset : Nat) (value : W32) (size : Nat) (s : State) : ∃ t, execRegisterWriteOther offset value size s = .next t ∧ t.shape = s.shape := by
  refine ⟨_, rfl, ?_⟩
  simp; done

theorem execSubmissionFetch_shape (got : HostFetch) (s : State) : ∃ t, execSubmissionFetch got s = .next t ∧ t.shape = s.shape := by
  refine ⟨_, rfl, ?_⟩
  simp; done

theorem execConventionalReset_shape (s : State) : ∃ t, execConventionalReset  s = .next t ∧ t.shape = s.shape := by
  refine ⟨_, rfl, ?_⟩
  rw [← State_portReset_shape s]
  generalize s.portReset = u
  apply shape_mk <;> rfl

theorem execHotReset_shape (s : State) : ∃ t, execHotReset  s = .next t ∧ t.shape = s.shape := by
  refine ⟨_, rfl, ?_⟩
  simp; done

theorem execFunctionLevelReset_shape (s : State) : ∃ t, execFunctionLevelReset  s = .next t ∧ t.shape = s.shape := by
  refine ⟨_, rfl, ?_⟩
  simp; done

theorem execPerstRelease_shape (refclk : Bool) (s : State) : ∃ t, execPerstRelease refclk s = .next t ∧ t.shape = s.shape := by
  refine ⟨_, rfl, ?_⟩
  rfl

theorem execConfigWrite_shape (w : ConfigWrite) (s : State) : ∃ t, execConfigWrite w s = .next t ∧ t.shape = s.shape := by
  refine ⟨_, rfl, ?_⟩
  (repeat' split) <;> (simp; done)

theorem execSidebandStatus_shape (s : State) : ∃ t, execSidebandStatus  s = .next t ∧ t.shape = s.shape := by
  refine ⟨_, rfl, ?_⟩
  simp; done

theorem execSidebandWake_shape (data : Byte) (pec : Bool) (s : State) : ∃ t, execSidebandWake data pec s = .next t ∧ t.shape = s.shape := by
  refine ⟨_, rfl, ?_⟩
  simp; done

theorem execSidebandStandby_shape (data : Byte) (pec : Bool) (s : State) : ∃ t, execSidebandStandby data pec s = .next t ∧ t.shape = s.shape := by
  refine ⟨_, rfl, ?_⟩
  simp; done

theorem execSupplyTurnOn_shape (s : State) : ∃ t, execSupplyTurnOn  s = .next t ∧ t.shape = s.shape := by
  refine ⟨_, rfl, ?_⟩
  simp; done

theorem execColdStart_shape (start : StartIn) (s : State) : ∃ t, execColdStart start s = .next t ∧ t.shape = s.shape := by
  refine ⟨_, rfl, ?_⟩
  simp; done

theorem execCaskTrainingDone_shape (results : List PortTrain) (s : State) : ∃ t, execCaskTrainingDone results s = .next t ∧ t.shape = s.shape := by
  refine ⟨_, rfl, ?_⟩
  (repeat' split) <;> (simp; done)

theorem execCellarRebuildDone_shape (s : State) : ∃ t, execCellarRebuildDone  s = .next t ∧ t.shape = s.shape := by
  refine ⟨_, rfl, ?_⟩
  simp; done

theorem execUndervoltage_shape (s : State) : ∃ t, execUndervoltage  s = .next t ∧ t.shape = s.shape := by
  refine ⟨_, rfl, ?_⟩
  simp; done

theorem execOvervoltage_shape (s : State) : ∃ t, execOvervoltage  s = .next t ∧ t.shape = s.shape := by
  refine ⟨_, rfl, ?_⟩
  simp; done

theorem execAuxPowerApplied_shape (straps : BitVec 2) (s : State) : ∃ t, execAuxPowerApplied straps s = .next t ∧ t.shape = s.shape := by
  refine ⟨_, rfl, ?_⟩
  split
  · rfl
  · split
    · rw [State_modPower_shape]
      apply shape_mk <;> simp
    · apply shape_mk <;> rfl

theorem execAuxPowerLost_shape (s : State) : ∃ t, execAuxPowerLost  s = .next t ∧ t.shape = s.shape := by
  refine ⟨_, rfl, ?_⟩
  simp; done

theorem execThermalTrip_shape (s : State) : ∃ t, execThermalTrip  s = .next t ∧ t.shape = s.shape := by
  refine ⟨_, rfl, ?_⟩
  simp; done

theorem execEmergencyDrop_shape (sec temp : Nat) (s : State) : ∃ t, execEmergencyDrop sec temp s = .next t ∧ t.shape = s.shape := by
  refine ⟨_, rfl, ?_⟩
  simp; done

theorem execThrottleAdjust_shape (sensors : Sensors) (s : State) : ∃ t, execThrottleAdjust sensors s = .next t ∧ t.shape = s.shape := by
  refine ⟨_, rfl, ?_⟩
  simp; done

theorem execTelemetrySample_shape (sensors : Sensors) (s : State) : ∃ t, execTelemetrySample sensors s = .next t ∧ t.shape = s.shape := by
  refine ⟨_, rfl, ?_⟩
  simp; done

theorem execEnterReady_shape (s : State) : ∃ t, execEnterReady  s = .next t ∧ t.shape = s.shape := by
  refine ⟨_, rfl, ?_⟩
  simp; done

theorem execReturnToRun_shape (s : State) : ∃ t, execReturnToRun  s = .next t ∧ t.shape = s.shape := by
  refine ⟨_, rfl, ?_⟩
  simp; done

theorem execAutoRest_shape (s : State) : ∃ t, execAutoRest  s = .next t ∧ t.shape = s.shape := by
  refine ⟨_, rfl, ?_⟩
  simp; done

theorem execPowerEntryComplete_shape (s : State) : ∃ t, execPowerEntryComplete  s = .next t ∧ t.shape = s.shape := by
  refine ⟨_, rfl, ?_⟩
  (repeat' split) <;> (simp; done)

theorem execWakeAtReached_shape (s : State) : ∃ t, execWakeAtReached  s = .next t ∧ t.shape = s.shape := by
  refine ⟨_, rfl, ?_⟩
  simp; done

theorem execExitRest_shape (s : State) : ∃ t, execExitRest  s = .next t ∧ t.shape = s.shape := by
  refine ⟨_, rfl, ?_⟩
  simp; done

theorem execExitDormant_shape (ports : List PortRead) (s : State) : ∃ t, execExitDormant ports s = .next t ∧ t.shape = s.shape := by
  refine ⟨_, rfl, ?_⟩
  simp; done

theorem execExitStandby_shape (start : StartIn) (s : State) : ∃ t, execExitStandby start s = .next t ∧ t.shape = s.shape := by
  refine ⟨_, rfl, ?_⟩
  simp; done

theorem execRequestDatagram_shape (port : Nat) (dgram : Datagram) (s : State) : ∃ t, execRequestDatagram port dgram s = .next t ∧ t.shape = s.shape := by
  refine ⟨_, rfl, ?_⟩
  (repeat' split) <;> (simp; done)

theorem execRequestAssemblyTimeout_shape (port ctx : Nat) (s : State) : ∃ t, execRequestAssemblyTimeout port ctx s = .next t ∧ t.shape = s.shape := by
  refine ⟨_, rfl, ?_⟩
  (repeat' split) <;> (simp; done)

theorem execReplyContextExpiry_shape (port ctx : Nat) (s : State) : ∃ t, execReplyContextExpiry port ctx s = .next t ∧ t.shape = s.shape := by
  refine ⟨_, rfl, ?_⟩
  (repeat' split) <;> (simp; done)

theorem execNeighbourRequest_shape (port : Nat) (ip6 : Bool) (target : BitVec 128) (s : State) : ∃ t, execNeighbourRequest port ip6 target s = .next t ∧ t.shape = s.shape := by
  refine ⟨_, rfl, ?_⟩
  simp; done

theorem execRequestAdmit_shape (sec rec : Nat) (s : State) : ∃ t, execRequestAdmit sec rec s = .next t ∧ t.shape = s.shape := by
  refine ⟨_, rfl, ?_⟩
  refine State_onReq_shape _ _ _ _ _ fun t => ?_
  simp

theorem execRequestContinue_shape (sec rec : Nat) (s : State) : ∃ t, execRequestContinue sec rec s = .next t ∧ t.shape = s.shape := by
  refine ⟨_, rfl, ?_⟩
  refine State_onReq_shape _ _ _ _ _ fun t => ?_
  simp

theorem execRequestFork_shape (sec rec : Nat) (s : State) : ∃ t, execRequestFork sec rec s = .next t ∧ t.shape = s.shape := by
  refine ⟨_, rfl, ?_⟩
  refine State_onReq_shape _ _ _ _ _ fun t => ?_
  simp

theorem execRequestReset_shape (sec rec : Nat) (s : State) : ∃ t, execRequestReset sec rec s = .next t ∧ t.shape = s.shape := by
  refine ⟨_, rfl, ?_⟩
  refine State_onReq_shape _ _ _ _ _ fun t => ?_
  simp

theorem execRequestEnd_shape (sec rec : Nat) (s : State) : ∃ t, execRequestEnd sec rec s = .next t ∧ t.shape = s.shape := by
  refine ⟨_, rfl, ?_⟩
  refine State_onReq_shape _ _ _ _ _ fun t => ?_
  simp

theorem execRequestPause_shape (sec rec : Nat) (s : State) : ∃ t, execRequestPause sec rec s = .next t ∧ t.shape = s.shape := by
  refine ⟨_, rfl, ?_⟩
  refine State_onReq_shape _ _ _ _ _ fun t => ?_
  simp

theorem execRequestResume_shape (sec rec : Nat) (s : State) : ∃ t, execRequestResume sec rec s = .next t ∧ t.shape = s.shape := by
  refine ⟨_, rfl, ?_⟩
  refine State_onReq_shape _ _ _ _ _ fun t => ?_
  simp

theorem execGristCycleStart_shape (part : Nat) (s : State) : ∃ t, execGristCycleStart part s = .next t ∧ t.shape = s.shape := by
  refine ⟨_, rfl, ?_⟩
  simp; done

theorem execGristTick_shape (part : Nat) (s : State) : ∃ t, execGristTick part s = .next t ∧ t.shape = s.shape := by
  refine ⟨_, rfl, ?_⟩
  (repeat' split) <;> (simp; done)

theorem execGristCycleEnd_shape (part : Nat) (s : State) : ∃ t, execGristCycleEnd part s = .next t ∧ t.shape = s.shape := by
  refine ⟨_, rfl, ?_⟩
  simp only []
  (repeat' split) <;> first | (simp; done) | rfl | (simp_all; done)

theorem execForkCycle_shape (part : Nat) (s : State) : ∃ t, execForkCycle part s = .next t ∧ t.shape = s.shape := by
  refine ⟨_, rfl, ?_⟩
  simp; done

theorem execEndCycle_shape (part : Nat) (s : State) : ∃ t, execEndCycle part s = .next t ∧ t.shape = s.shape := by
  refine ⟨_, rfl, ?_⟩
  simp; done

theorem execMatmul_shape (id : Nat) (s : State) : ∃ t, execMatmul id s = .next t ∧ t.shape = s.shape := by
  refine ⟨_, rfl, ?_⟩
  simp; done

theorem execMatmulPair_shape (id : Nat) (s : State) : ∃ t, execMatmulPair id s = .next t ∧ t.shape = s.shape := by
  refine ⟨_, rfl, ?_⟩
  simp; done

theorem execAttend_shape (id : Nat) (s : State) : ∃ t, execAttend id s = .next t ∧ t.shape = s.shape := by
  refine ⟨_, rfl, ?_⟩
  simp; done

theorem execScan_shape (id : Nat) (s : State) : ∃ t, execScan id s = .next t ∧ t.shape = s.shape := by
  refine ⟨_, rfl, ?_⟩
  simp; done

theorem execConv_shape (id : Nat) (s : State) : ∃ t, execConv id s = .next t ∧ t.shape = s.shape := by
  refine ⟨_, rfl, ?_⟩
  simp; done

theorem execPool_shape (id : Nat) (s : State) : ∃ t, execPool id s = .next t ∧ t.shape = s.shape := by
  refine ⟨_, rfl, ?_⟩
  simp; done

theorem execDist_shape (id : Nat) (s : State) : ∃ t, execDist id s = .next t ∧ t.shape = s.shape := by
  refine ⟨_, rfl, ?_⟩
  simp; done

theorem execReduce_shape (id : Nat) (s : State) : ∃ t, execReduce id s = .next t ∧ t.shape = s.shape := by
  refine ⟨_, rfl, ?_⟩
  simp; done

theorem execVector_shape (id : Nat) (s : State) : ∃ t, execVector id s = .next t ∧ t.shape = s.shape := by
  refine ⟨_, rfl, ?_⟩
  simp; done

theorem execRoute_shape (id : Nat) (s : State) : ∃ t, execRoute id s = .next t ∧ t.shape = s.shape := by
  refine ⟨_, rfl, ?_⟩
  simp; done

theorem execSend_shape (id : Nat) (s : State) : ∃ t, execSend id s = .next t ∧ t.shape = s.shape := by
  refine ⟨_, rfl, ?_⟩
  simp; done

theorem execRecvGather_shape (id : Nat) (s : State) : ∃ t, execRecvGather id s = .next t ∧ t.shape = s.shape := by
  refine ⟨_, rfl, ?_⟩
  simp; done

theorem execRecvSum_shape (id : Nat) (s : State) : ∃ t, execRecvSum id s = .next t ∧ t.shape = s.shape := by
  refine ⟨_, rfl, ?_⟩
  simp; done

theorem execRecvChannel_shape (id : Nat) (s : State) : ∃ t, execRecvChannel id s = .next t ∧ t.shape = s.shape := by
  refine ⟨_, rfl, ?_⟩
  simp; done

theorem execFork_shape (id : Nat) (s : State) : ∃ t, execFork id s = .next t ∧ t.shape = s.shape := by
  refine ⟨_, rfl, ?_⟩
  simp; done

theorem execLeafAppend_shape (id : Nat) (s : State) : ∃ t, execLeafAppend id s = .next t ∧ t.shape = s.shape := by
  refine ⟨_, rfl, ?_⟩
  simp; done

theorem execLeafTrim_shape (id : Nat) (s : State) : ∃ t, execLeafTrim id s = .next t ∧ t.shape = s.shape := by
  refine ⟨_, rfl, ?_⟩
  simp; done

theorem execLeafFree_shape (id : Nat) (s : State) : ∃ t, execLeafFree id s = .next t ∧ t.shape = s.shape := by
  refine ⟨_, rfl, ?_⟩
  simp; done

theorem execSparge_shape (id : Nat) (s : State) : ∃ t, execSparge id s = .next t ∧ t.shape = s.shape := by
  refine ⟨_, rfl, ?_⟩
  simp; done

theorem execFence_shape (id : Nat) (s : State) : ∃ t, execFence id s = .next t ∧ t.shape = s.shape := by
  refine ⟨_, rfl, ?_⟩
  simp; done

theorem execPassStart_shape (id : Nat) (errs : List SectorError) (s : State) : ∃ t, execPassStart id errs s = .next t ∧ t.shape = s.shape := by
  refine ⟨_, rfl, ?_⟩
  split
  · simp
  · split
    · rfl
    · simp only []
      have h : (errs.foldl (fun s x => s.sectorError x) s).shape = s.shape := by simp
      generalize errs.foldl (fun s x => s.sectorError x) s = u at h ⊢
      rw [← h]
      split
      · rfl
      · split
        · simp
        · refine State_under_shape _ _ _ fun s => ?_
          split
          · rename_i hb
            exact State_meetPoison_shape _ _ _ hb
          · split <;> simp

theorem execCommitFlip_shape (id arrTime : Nat) (s : State) : ∃ t, execCommitFlip id arrTime s = .next t ∧ t.shape = s.shape := by
  refine ⟨_, rfl, ?_⟩
  simp only []
  (repeat' split) <;> first | (simp; done) | rfl | (simp_all; done)

theorem execSimmerRampDown_shape (core : Nat) (s : State) : ∃ t, execSimmerRampDown core s = .next t ∧ t.shape = s.shape := by
  refine ⟨_, rfl, ?_⟩
  simp; done

theorem execRampUpStep_shape (core : Nat) (s : State) : ∃ t, execRampUpStep core s = .next t ∧ t.shape = s.shape := by
  refine ⟨_, rfl, ?_⟩
  simp; done

theorem execCommandTimeLimit_shape (id : Nat) (waiting : Bool) (s : State) : ∃ t, execCommandTimeLimit id waiting s = .next t ∧ t.shape = s.shape := by
  refine ⟨_, rfl, ?_⟩
  split
  · rfl
  · refine (shape_ite _ _ _).trans ?_
    split
    · rfl
    · split
      · simp
      · split
        · refine State_under_shape _ _ _ fun s => ?_
          exact (shape_foldl' _ _ _ fun s a => by simp).trans (by simp)
        · simp

theorem execLeafExhausted_shape (id : Nat) (s : State) : ∃ t, execLeafExhausted id s = .next t ∧ t.shape = s.shape := by
  refine ⟨_, rfl, ?_⟩
  (repeat' split) <;> (simp; done)

theorem execCommitSweep_shape (s : State) : ∃ t, execCommitSweep  s = .next t ∧ t.shape = s.shape := by
  refine ⟨_, rfl, ?_⟩
  have h (l : List Cmd) (s : State) : (l.foldl (fun s c =>
      match s.cmd? c.id with
      | some c => s.under c fun s => if s.inTurn c && (s.unwritable c).isEmpty then s.commit c c.arr else s
      | none => s) s).shape = s.shape := by
    refine shape_foldl' _ _ _ fun s c => ?_
    split
    · refine State_under_shape _ _ _ fun s => ?_
      split <;> simp
    · rfl
  split
  · rfl
  · simp only []
    rw [shape_foldl' (fun s sec => State.settleCores s sec) _ _ fun s x => by simp,
      shape_foldl' (fun s x => State.spargeIntake s x) _ _ fun s x => by simp]
    refine (State_modFabric_shape _ _ fun _ => ?_).trans ?_
    · rfl
    refine (h _ _).trans ?_
    exact shape_foldl' _ _ _ fun s p => by simp

theorem execHeatEpoch_shape (s : State) : ∃ t, execHeatEpoch  s = .next t ∧ t.shape = s.shape := by
  refine ⟨_, rfl, ?_⟩
  simp; done

theorem execPromotionDone_shape (handle : Handle) (s : State) : ∃ t, execPromotionDone handle s = .next t ∧ t.shape = s.shape := by
  refine ⟨_, rfl, ?_⟩
  (repeat' split) <;> (simp; done)

theorem execCellarDirectReadDone_shape (handle : Handle) (s : State) : ∃ t, execCellarDirectReadDone handle s = .next t ∧ t.shape = s.shape := by
  refine ⟨_, rfl, ?_⟩
  simp; done

theorem execSectionStoreCopyDone_shape (handle : Handle) (s : State) : ∃ t, execSectionStoreCopyDone handle s = .next t ∧ t.shape = s.shape := by
  refine ⟨_, rfl, ?_⟩
  split
  · rfl
  · split
    · rfl
    · exact State_afterErrors_shape _ _ _ fun s m => by simp

theorem execEarlyWriteBack_shape (part : Nat) (handle : Handle) (s : State) : ∃ t, execEarlyWriteBack part handle s = .next t ∧ t.shape = s.shape := by
  refine ⟨_, rfl, ?_⟩
  simp; done

theorem execWriteBackAdmitted_shape (handle : Handle) (s : State) : ∃ t, execWriteBackAdmitted handle s = .next t ∧ t.shape = s.shape := by
  refine ⟨_, rfl, ?_⟩
  split
  · simp
  · split
    · rfl
    · exact State_afterErrors_shape _ _ _ fun s m => by simp

theorem execWriteBufferAccept_shape (handle : Handle) (s : State) : ∃ t, execWriteBufferAccept handle s = .next t ∧ t.shape = s.shape := by
  refine ⟨_, rfl, ?_⟩
  (repeat' split) <;> first
    | rfl
    | (rename_i hb; have := State_acceptFrame_shape _ _ _ _ hb; simpa using this)
    | (simp; done)

theorem execNandProgram_shape (s : State) : ∃ t, execNandProgram  s = .next t ∧ t.shape = s.shape := by
  refine ⟨_, rfl, ?_⟩
  simp only []
  (repeat' split) <;> first | (simp; done) | rfl | (simp_all; done)

theorem execReclamation_shape (die : Nat) (s : State) : ∃ t, execReclamation die s = .next t ∧ t.shape = s.shape := by
  refine ⟨_, rfl, ?_⟩
  (repeat' split) <;> (simp; done)

theorem execProgramEraseFailure_shape (die block : Nat) (s : State) : ∃ t, execProgramEraseFailure die block s = .next t ∧ t.shape = s.shape := by
  refine ⟨_, rfl, ?_⟩
  (repeat' split) <;> (simp; done)

theorem execCellarReadDone_shape (handle : Handle) (rung : Rung) (s : State) : ∃ t, execCellarReadDone handle rung s = .next t ∧ t.shape = s.shape := by
  refine ⟨_, rfl, ?_⟩
  (repeat' split) <;> (simp; done)

theorem execWeightCopyArrival_shape (handle : Handle) (data : List Byte) (tags : List (BitVec 4)) (s : State) : ∃ t, execWeightCopyArrival handle data tags s = .next t ∧ t.shape = s.shape := by
  refine ⟨_, rfl, ?_⟩
  simp; done

theorem execWeightFetchTimeout_shape (handle : Handle) (s : State) : ∃ t, execWeightFetchTimeout handle s = .next t ∧ t.shape = s.shape := by
  refine ⟨_, rfl, ?_⟩
  simp; done

theorem execRetrainingPause_shape (port : Nat) (pins : List W32) (answered pinsOk : Bool) (s : State) : ∃ t, execRetrainingPause port pins answered pinsOk s = .next t ∧ t.shape = s.shape := by
  refine ⟨_, rfl, ?_⟩
  simp; done

theorem execCaskRestartDone_shape (ports : List PortRead) (s : State) : ∃ t, execCaskRestartDone ports s = .next t ∧ t.shape = s.shape := by
  refine ⟨_, rfl, ?_⟩
  simp; done

theorem execDeviceTemperatureRead_shape (port t0 t1 : Nat) (s : State) : ∃ t, execDeviceTemperatureRead port t0 t1 s = .next t ∧ t.shape = s.shape := by
  refine ⟨_, rfl, ?_⟩
  simp; done

theorem execNegotiation_shape (port : Nat) (net : NegIn) (s : State) : ∃ t, execNegotiation port net s = .next t ∧ t.shape = s.shape := by
  refine ⟨_, rfl, ?_⟩
  simp; done

theorem execNegotiationStepLimit_shape (port step : Nat) (s : State) : ∃ t, execNegotiationStepLimit port step s = .next t ∧ t.shape = s.shape := by
  refine ⟨_, rfl, ?_⟩
  simp; done

theorem execNegotiationRetry_shape (port : Nat) (s : State) : ∃ t, execNegotiationRetry port s = .next t ∧ t.shape = s.shape := by
  refine ⟨_, rfl, ?_⟩
  simp; done

theorem execRenegotiation_shape (port : Nat) (net : NegIn) (s : State) : ∃ t, execRenegotiation port net s = .next t ∧ t.shape = s.shape := by
  refine ⟨_, rfl, ?_⟩
  simp; done

theorem execPartnerLoss_shape (port : Nat) (s : State) : ∃ t, execPartnerLoss port s = .next t ∧ t.shape = s.shape := by
  refine ⟨_, rfl, ?_⟩
  simp; done

theorem execEdgePortUp_shape (port : Nat) (s : State) : ∃ t, execEdgePortUp port s = .next t ∧ t.shape = s.shape := by
  refine ⟨_, rfl, ?_⟩
  simp; done

theorem execEdgePortDown_shape (port : Nat) (s : State) : ∃ t, execEdgePortDown port s = .next t ∧ t.shape = s.shape := by
  refine ⟨_, rfl, ?_⟩
  simp; done

theorem execHelloSend_shape (port : Nat) (s : State) : ∃ t, execHelloSend port s = .next t ∧ t.shape = s.shape := by
  refine ⟨_, rfl, ?_⟩
  simp; done

theorem execHelloReceive_shape (port : Nat) (hello : List W32) (s : State) : ∃ t, execHelloReceive port hello s = .next t ∧ t.shape = s.shape := by
  refine ⟨_, rfl, ?_⟩
  simp; done

theorem execParcelArrival_shape (port : Nat) (parcel : Parcel) (trailer : W32) (s : State) : ∃ t, execParcelArrival port parcel trailer s = .next t ∧ t.shape = s.shape := by
  refine ⟨_, rfl, ?_⟩
  simp; done

theorem execResendRequestReceive_shape (rq : Nat) (s : State) : ∃ t, execResendRequestReceive rq s = .next t ∧ t.shape = s.shape := by
  refine ⟨_, rfl, ?_⟩
  refine State_onParcel_shape _ _ _ _ fun p t => ?_
  try simp only []
  (repeat' split) <;> first | (simp; done) | rfl | (simp_all; done)

theorem execQueryReceive_shape (rq : Nat) (s : State) : ∃ t, execQueryReceive rq s = .next t ∧ t.shape = s.shape := by
  refine ⟨_, rfl, ?_⟩
  refine State_onParcel_shape _ _ _ _ fun p t => ?_
  try simp only []
  (repeat' split) <;> first | (simp; done) | rfl | (simp_all; done)

theorem execQueryReplyReceive_shape (rq : Nat) (s : State) : ∃ t, execQueryReplyReceive rq s = .next t ∧ t.shape = s.shape := by
  refine ⟨_, rfl, ?_⟩
  refine State_onParcel_shape _ _ _ _ fun p t => ?_
  try simp only []
  (repeat' split) <;> first | (simp; done) | rfl | (simp_all; done)

theorem execQueryDataReceive_shape (rq : Nat) (s : State) : ∃ t, execQueryDataReceive rq s = .next t ∧ t.shape = s.shape := by
  refine ⟨_, rfl, ?_⟩
  refine State_onParcel_shape _ _ _ _ fun p t => ?_
  try simp only []
  (repeat' split) <;> first | (simp; done) | rfl | (simp_all; done)

theorem execParcelExpiry_shape (rq : Nat) (s : State) : ∃ t, execParcelExpiry rq s = .next t ∧ t.shape = s.shape := by
  refine ⟨_, rfl, ?_⟩
  (repeat' split) <;> (simp; done)

theorem execUnreachableQuery_shape (addr : Nat) (s : State) : ∃ t, execUnreachableQuery addr s = .next t ∧ t.shape = s.shape := by
  refine ⟨_, rfl, ?_⟩
  simp; done

theorem execTimeParcelSend_shape (port : Nat) (s : State) : ∃ t, execTimeParcelSend port s = .next t ∧ t.shape = s.shape := by
  refine ⟨_, rfl, ?_⟩
  simp; done

theorem execTimeParcelReceive_shape (port : Nat) (payload : List W32) (arrival : W64) (s : State) : ∃ t, execTimeParcelReceive port payload arrival s = .next t ∧ t.shape = s.shape := by
  refine ⟨_, rfl, ?_⟩
  simp only []
  (repeat' split) <;> first | (simp; done) | rfl | (simp_all; done)

theorem execSyncRisingEdge_shape (s : State) : ∃ t, execSyncRisingEdge  s = .next t ∧ t.shape = s.shape := by
  refine ⟨_, rfl, ?_⟩
  simp; done

theorem execAddBlock_shape (channel : Nat) (s : State) : ∃ t, execAddBlock channel s = .next t ∧ t.shape = s.shape := by
  refine ⟨_, rfl, ?_⟩
  simp; done

theorem execDownBlockReceive_shape (channel : Nat) (s : State) : ∃ t, execDownBlockReceive channel s = .next t ∧ t.shape = s.shape := by
  refine ⟨_, rfl, ?_⟩
  simp; done

theorem execDownBlockResendWait_shape (channel : Nat) (s : State) : ∃ t, execDownBlockResendWait channel s = .next t ∧ t.shape = s.shape := by
  refine ⟨_, rfl, ?_⟩
  simp; done

theorem execUpdateLeafWaitTimeout_shape (s : State) : ∃ t, execUpdateLeafWaitTimeout  s = .next t ∧ t.shape = s.shape := by
  refine ⟨_, rfl, ?_⟩
  simp; done

theorem execPublish_shape (slot : Nat) (s : State) : ∃ t, execPublish slot s = .next t ∧ t.shape = s.shape := by
  refine ⟨_, rfl, ?_⟩
  simp; done

theorem execSpargeResendReceive_shape (rq : Nat) (s : State) : ∃ t, execSpargeResendReceive rq s = .next t ∧ t.shape = s.shape := by
  refine ⟨_, rfl, ?_⟩
  refine State_onSparge_shape _ _ _ _ fun p t => ?_
  try simp only []
  (repeat' split) <;> first | (simp; done) | rfl | (simp_all; done)

theorem execCreditParcelReceive_shape (rq : Nat) (s : State) : ∃ t, execCreditParcelReceive rq s = .next t ∧ t.shape = s.shape := by
  refine ⟨_, rfl, ?_⟩
  refine State_onSparge_shape _ _ _ _ fun p t => ?_
  try simp only []
  (repeat' split) <;> first | (simp; done) | rfl | (simp_all; done)

theorem execBackupBlockArrival_shape (rq : Nat) (s : State) : ∃ t, execBackupBlockArrival rq s = .next t ∧ t.shape = s.shape := by
  refine ⟨_, rfl, ?_⟩
  refine State_onSparge_shape _ _ _ _ fun p t => ?_
  try simp only []
  (repeat' split) <;> first | (simp; done) | rfl | (simp_all; done)

theorem execBackupDeadline_shape (channel seq : Nat) (s : State) : ∃ t, execBackupDeadline channel seq s = .next t ∧ t.shape = s.shape := by
  refine ⟨_, rfl, ?_⟩
  simp; done

theorem execStepTimerExpiry_shape (channel : Nat) (s : State) : ∃ t, execStepTimerExpiry channel s = .next t ∧ t.shape = s.shape := by
  refine ⟨_, rfl, ?_⟩
  simp; done

theorem execAbortReceive_shape (rq : Nat) (s : State) : ∃ t, execAbortReceive rq s = .next t ∧ t.shape = s.shape := by
  refine ⟨_, rfl, ?_⟩
  refine State_onSparge_shape _ _ _ _ fun p t => ?_
  try simp only []
  (repeat' split) <;> first | (simp; done) | rfl | (simp_all; done)

theorem execMirrorParcelReceive_shape (rq : Nat) (s : State) : ∃ t, execMirrorParcelReceive rq s = .next t ∧ t.shape = s.shape := by
  refine ⟨_, rfl, ?_⟩
  refine State_onMirror_shape _ _ _ _ fun p t => ?_
  try simp only []
  (repeat' split) <;> first | (simp; done) | rfl | (simp_all; done)

theorem execMirrorAdmissionTimeout_shape (owner stream : Nat) (s : State) : ∃ t, execMirrorAdmissionTimeout owner stream s = .next t ∧ t.shape = s.shape := by
  refine ⟨_, rfl, ?_⟩
  simp only []
  (repeat' split) <;> first | (simp; done) | rfl | (simp_all; done)

theorem execMirrorAckReceive_shape (rq : Nat) (s : State) : ∃ t, execMirrorAckReceive rq s = .next t ∧ t.shape = s.shape := by
  refine ⟨_, rfl, ?_⟩
  refine State_onMirror_shape _ _ _ _ fun p t => ?_
  try simp only []
  (repeat' split) <;> first | (simp; done) | rfl | (simp_all; done)

theorem execMirrorRefusalReceive_shape (rq : Nat) (s : State) : ∃ t, execMirrorRefusalReceive rq s = .next t ∧ t.shape = s.shape := by
  refine ⟨_, rfl, ?_⟩
  refine State_onMirror_shape _ _ _ _ fun p t => ?_
  try simp only []
  (repeat' split) <;> first | (simp; done) | rfl | (simp_all; done)

theorem execMirrorAckTimeout_shape (stream : Nat) (s : State) : ∃ t, execMirrorAckTimeout stream s = .next t ∧ t.shape = s.shape := by
  refine ⟨_, rfl, ?_⟩
  simp; done

theorem execMirrorReleaseReceive_shape (rq : Nat) (s : State) : ∃ t, execMirrorReleaseReceive rq s = .next t ∧ t.shape = s.shape := by
  refine ⟨_, rfl, ?_⟩
  refine State_onMirror_shape _ _ _ _ fun p t => ?_
  try simp only []
  (repeat' split) <;> first | (simp; done) | rfl | (simp_all; done)

theorem execMirrorMapSweep_shape (s : State) : ∃ t, execMirrorMapSweep  s = .next t ∧ t.shape = s.shape := by
  refine ⟨_, rfl, ?_⟩
  simp; done

theorem execRollCall_shape (s : State) : ∃ t, execRollCall  s = .next t ∧ t.shape = s.shape := by
  refine ⟨_, rfl, ?_⟩
  simp; done

theorem execRollCallReceive_shape (rq : Nat) (s : State) : ∃ t, execRollCallReceive rq s = .next t ∧ t.shape = s.shape := by
  refine ⟨_, rfl, ?_⟩
  refine State_onMirror_shape _ _ _ _ fun p t => ?_
  try simp only []
  (repeat' split) <;> first | (simp; done) | rfl | (simp_all; done)

theorem execRollAnswerReceive_shape (rq : Nat) (s : State) : ∃ t, execRollAnswerReceive rq s = .next t ∧ t.shape = s.shape := by
  refine ⟨_, rfl, ?_⟩
  refine State_onMirror_shape _ _ _ _ fun p t => ?_
  try simp only []
  (repeat' split) <;> first | (simp; done) | rfl | (simp_all; done)

theorem execOwnerLost_shape (owner : Nat) (s : State) : ∃ t, execOwnerLost owner s = .next t ∧ t.shape = s.shape := by
  refine ⟨_, rfl, ?_⟩
  simp; done

theorem execCoreFailure_shape (sec phys : Nat) (s : State) : ∃ t, execCoreFailure sec phys s = .next t ∧ t.shape = s.shape := by
  refine ⟨_, rfl, ?_⟩
  simp; done

theorem execSliceReportTimeout_shape (id core : Nat) (s : State) : ∃ t, execSliceReportTimeout id core s = .next t ∧ t.shape = s.shape := by
  refine ⟨_, rfl, ?_⟩
  (repeat' split) <;> (simp; done)

theorem execDmaChannelStart_shape (sec : Nat) (s : State) : ∃ t, execDmaChannelStart sec s = .next t ∧ t.shape = s.shape := by
  refine ⟨_, rfl, ?_⟩
  (repeat' split) <;> (simp; done)

theorem execDmaChannelDone_shape (sec : Nat) (host : HostData) (s : State) : ∃ t, execDmaChannelDone sec host s = .next t ∧ t.shape = s.shape := by
  refine ⟨_, rfl, ?_⟩
  (repeat' split) <;> (simp; done)

theorem execDmaHalt_shape (sec : Nat) (cause : BitVec 4) (dir : Bool) (addr : W64) (done : Nat) (host : HostData) (s : State) : ∃ t, execDmaHalt sec cause dir addr done host s = .next t ∧ t.shape = s.shape := by
  refine ⟨_, rfl, ?_⟩
  (repeat' split) <;> (simp; done)

theorem execErrataFoldFlush_shape (s : State) : ∃ t, execErrataFoldFlush  s = .next t ∧ t.shape = s.shape := by
  refine ⟨_, rfl, ?_⟩
  simp; done

theorem execWindowExpiry_shape (s : State) : ∃ t, execWindowExpiry  s = .next t ∧ t.shape = s.shape := by
  refine ⟨_, rfl, ?_⟩
  simp; done

theorem execMakerSessionExpiry_shape (q : Nat) (s : State) : ∃ t, execMakerSessionExpiry q s = .next t ∧ t.shape = s.shape := by
  refine ⟨_, rfl, ?_⟩
  simp; done

theorem execOutputShort_shape (pin : Pin) (low : Bool) (s : State) : ∃ t, execOutputShort pin low s = .next t ∧ t.shape = s.shape := by
  refine ⟨_, rfl, ?_⟩
  simp; done

theorem execShortRetry_shape (pin : Pin) (good : Bool) (s : State) : ∃ t, execShortRetry pin good s = .next t ∧ t.shape = s.shape := by
  refine ⟨_, rfl, ?_⟩
  simp; done

theorem execPresentTest_shape (low : Bool) (s : State) : ∃ t, execPresentTest low s = .next t ∧ t.shape = s.shape := by
  refine ⟨_, rfl, ?_⟩
  simp; done

theorem execSyncHeld_shape (s : State) : ∃ t, execSyncHeld  s = .next t ∧ t.shape = s.shape := by
  refine ⟨_, rfl, ?_⟩
  simp; done

theorem execDebugInstruction_shape (s : State) : ∃ t, execDebugInstruction  s = .next t ∧ t.shape = s.shape := by
  refine ⟨_, rfl, ?_⟩
  simp; done

theorem execTimeSourceExpiry_shape (s : State) : ∃ t, execTimeSourceExpiry  s = .next t ∧ t.shape = s.shape := by
  refine ⟨_, rfl, ?_⟩
  simp; done

theorem execSyncThrottleInput_shape (level : Bool) (s : State) : ∃ t, execSyncThrottleInput level s = .next t ∧ t.shape = s.shape := by
  refine ⟨_, rfl, ?_⟩
  simp; done

theorem execLinkRetrained_shape (s : State) : ∃ t, execLinkRetrained  s = .next t ∧ t.shape = s.shape := by
  refine ⟨_, rfl, ?_⟩
  simp; done

theorem execInputReversed_shape (reversed : Bool) (s : State) : ∃ t, execInputReversed reversed s = .next t ∧ t.shape = s.shape := by
  refine ⟨_, rfl, ?_⟩
  simp; done

theorem execSessionLockoutExpiry_shape (s : State) : ∃ t, execSessionLockoutExpiry  s = .next t ∧ t.shape = s.shape := by
  refine ⟨_, rfl, ?_⟩
  rfl

theorem execChallengeExpiry_shape (q : Nat) (s : State) : ∃ t, execChallengeExpiry q s = .next t ∧ t.shape = s.shape := by
  refine ⟨_, rfl, ?_⟩
  simp; done

theorem execMirrorLeafSent_shape (sid : Nat) (handle : Handle) (s : State) : ∃ t, execMirrorLeafSent sid handle s = .next t ∧ t.shape = s.shape := by
  refine ⟨_, rfl, ?_⟩
  simp only []
  (repeat' split) <;> first | (simp; done) | rfl | (simp_all; done)

theorem execLinkCreditGrant_shape (port units : Nat) (s : State) : ∃ t, execLinkCreditGrant port units s = .next t ∧ t.shape = s.shape := by
  refine ⟨_, rfl, ?_⟩
  simp; done

end Sys2Proof.Machine
end

