-- ==== Sys2Proof/WellFormed.lean ====
section
/-! DEFINITION. Well-formed commands: operands within the ranges that the spec gives their fields. -/

namespace Sys2Proof

/-- A queue pair (R412) and a TAG (R415). -/
def wfPair (q tag : Nat) : Bool := decide (q < 16) && decide (tag < 65536)

/-- A Dareno port (R335). -/
def wfPort (p : Nat) : Bool := decide (p < 16)

/-- A request record: section and record (R312). -/
def wfReq (sec rec_ : Nat) : Bool := decide (sec < 4) && decide (rec_ < 4096)

/-- A leaf handle that names a leaf (R146, R275). -/
def wfHandle (h : Nat) : Bool := decide (0 < h) && decide (h < Config.nullHandle)

/-- A slot of the receive area (R338). -/
def wfSlot (rq : Nat) : Bool := decide (rq < 65536)

/-- A parcel: a payload of at most 8 192 bytes, a multiple of 16, and six route segments at most (R348). -/
def Parcel.wf (p : Parcel) : Bool :=
  decide (p.payload.length ≤ 8192) && p.payload.length % 16 == 0 && decide (p.segs.length ≤ 6)

/-- A datagram: 16 header words, at most 8 960 bytes of data (R365). -/
def Datagram.wf (d : Datagram) : Bool := d.words.length == 16 && decide (d.data.length ≤ 8960)

/-- An imprint: 16 header words, 256 system words, 256 module words (R445). -/
def Imprint.wf (i : Imprint) : Bool := i.header.length == 16 && i.system.length == 256 && i.modsec.length == 256

/-- What a start meets: four sections, 16 ports. -/
def StartIn.wf (x : StartIn) : Bool := x.selfTest.length == 4 && x.ports.length == 16

/-- Operands within their fields' ranges. -/
def Instr.wf : Instr → Bool
  | .nop q t | .openSessionChallenge q t | .closeSession q t | .unloadPlan q t | .plainRerun q t | .setRefresh q t
  | .readTable q t | .initSet q t | .dmaStart q t | .dmaControlResume q t | .dmaControlAbort q t | .simmerDisable q t
  | .simmerEnable q t | .powerSetRest q t | .powerSetDormant q t | .powerSetStandby q t | .powerCap q t
  | .readTelemetry q t | .commitVersion q t | .readErrata q t | .closeWindow q t | .attest q t | .coreService q t
  | .portService q t | .readSpares q t => wfPair q t
  | .openSessionAnswer q t _ => wfPair q t
  | .loadPlan q t im | .loadPlanAdopt q t im => wfPair q t && im.length % 64 == 0
  | .grist q t h => wfPair q t && h.length == 16
  | .train q t r => wfPair q t && r.length % 4 == 0
  | .loadTable q t _ => wfPair q t
  | .installImprint q t im => wfPair q t && im.wf
  | .installFirmware q t _ => wfPair q t
  | .restart q t x => wfPair q t && x.wf
  | .openWindow q t _ => wfPair q t
  | .selfTest q t _ => wfPair q t
  | .laneService q t _ => wfPair q t
  | .sqTail q _ | .cqHead q _ | .makerSessionExpiry q | .challengeExpiry q => decide (q < 16)
  | .queueEnable q v => decide (q < 16) && v.getLsbD 8
  | .queueDisable q v => decide (q < 16) && !v.getLsbD 8
  | .attnPendingClear _ ev => !ev.getLsbD 0
  | .readClearField off _ => off % 4 == 0 && decide (off < 65536)
  | .registerWriteOther off _ _ => decide (off < 65536)
  | .submissionFetch g =>
    match g with
    | .entry w => w.length == 16
    | _ => true
  | .coldStart x | .exitStandby x => x.wf
  | .exitDormant p | .caskRestartDone p => p.length == 16
  | .caskTrainingDone r => r.all fun t => decide (t.port < 16)
  | .emergencyDrop sec _ | .dmaChannelStart sec | .dmaChannelDone sec _ | .dmaHalt sec _ _ _ _ _ => decide (sec < 4)
  | .requestDatagram p d => wfPort p && d.wf
  | .requestAssemblyTimeout p _ | .replyContextExpiry p _ | .neighbourRequest p _ _ | .retrainingPause p _ _ _
  | .deviceTemperatureRead p _ _ | .negotiation p _ | .negotiationStepLimit p _ | .negotiationRetry p
  | .renegotiation p _ | .partnerLoss p | .edgePortUp p | .edgePortDown p | .helloSend p | .timeParcelSend p
  | .linkCreditGrant p _ => wfPort p
  | .helloReceive p h => wfPort p && h.length == 16
  | .parcelArrival p x _ => wfPort p && x.wf
  | .timeParcelReceive p w _ => wfPort p && w.length == 8
  | .requestAdmit a b | .requestContinue a b | .requestFork a b | .requestReset a b | .requestEnd a b
  | .requestPause a b | .requestResume a b => wfReq a b
  | .gristCycleStart n | .gristTick n | .gristCycleEnd n | .forkCycle n | .endCycle n => decide (n < 8)
  | .earlyWriteBack n h => decide (n < 8) && wfHandle h
  | .promotionDone h | .cellarDirectReadDone h | .sectionStoreCopyDone h | .writeBackAdmitted h | .writeBufferAccept h
  | .cellarReadDone h _ | .weightFetchTimeout h | .mirrorLeafSent _ h => wfHandle h
  | .weightCopyArrival h d t => wfHandle h && d.length == 65536 && t.length == 1024
  | .reclamation d | .programEraseFailure d _ => decide (d < 128)
  | .resendRequestReceive r | .queryReceive r | .queryReplyReceive r | .queryDataReceive r | .parcelExpiry r
  | .spargeResendReceive r | .creditParcelReceive r | .backupBlockArrival r | .abortReceive r | .mirrorParcelReceive r
  | .mirrorAckReceive r | .mirrorRefusalReceive r | .mirrorReleaseReceive r | .rollCallReceive r
  | .rollAnswerReceive r => wfSlot r
  | .addBlock c | .downBlockReceive c | .downBlockResendWait c | .stepTimerExpiry c | .backupDeadline c _
  | .publish c => decide (c < 64)
  | .mirrorAckTimeout i | .mirrorAdmissionTimeout _ i => decide (i < 65536)
  | .coreFailure sec p => decide (sec < 4) && decide (p < 17)
  | .simmerRampDown c | .rampUpStep c | .sliceReportTimeout _ c => decide (c < 64)
  | .unreachableQuery a | .ownerLost a => decide (a < 1048576)
  | .sidebandStatus | .sidebandWake _ _ | .sidebandStandby _ _ | .supplyTurnOn | .cellarRebuildDone | .undervoltage
  | .overvoltage | .auxPowerApplied _ | .auxPowerLost | .thermalTrip | .throttleAdjust _ | .telemetrySample _
  | .enterReady | .returnToRun | .autoRest | .powerEntryComplete | .wakeAtReached | .exitRest | .timeLoRead
  | .conventionalReset | .hotReset | .functionLevelReset | .perstRelease _ | .configWrite _ | .matmul _
  | .matmulPair _ | .attend _ | .scan _ | .conv _ | .pool _ | .dist _ | .reduce _ | .vector _ | .route _ | .send _
  | .recvGather _ | .recvSum _ | .recvChannel _ | .fork _ | .leafAppend _ | .leafTrim _ | .leafFree _ | .sparge _
  | .fence _ | .passStart _ _ | .commitFlip _ _ | .commandTimeLimit _ _ | .leafExhausted _ | .commitSweep
  | .heatEpoch | .nandProgram | .syncRisingEdge | .updateLeafWaitTimeout | .mirrorMapSweep
  | .rollCall | .errataFoldFlush | .windowExpiry | .outputShort _ _ | .shortRetry _ _ | .presentTest _ | .syncHeld
  | .debugInstruction | .timeSourceExpiry | .syncThrottleInput _ | .linkRetrained | .inputReversed _
  | .sessionLockoutExpiry => true

end Sys2Proof
end

