-- ==== Sys2Proof/Laws/PerInstr.lean ====
section
/-! SUPPORT. The family Args: the operands that name a part of the module lie in the ranges the spec gives those parts, in every
well-formed command. -/

namespace Sys2Proof.Laws.Args

/-- The queue pair and TAG of a control-port command. -/
def pairOf : Instr → Option (Nat × Nat)
  | .nop q tag | .openSessionChallenge q tag | .openSessionAnswer q tag _ | .closeSession q tag | .loadPlan q tag _
  | .loadPlanAdopt q tag _ | .unloadPlan q tag | .grist q tag _ | .train q tag _ | .plainRerun q tag
  | .setRefresh q tag | .readTable q tag | .loadTable q tag _ | .initSet q tag | .dmaStart q tag
  | .dmaControlResume q tag | .dmaControlAbort q tag | .simmerDisable q tag | .simmerEnable q tag | .powerSetRest q tag
  | .powerSetDormant q tag | .powerSetStandby q tag | .powerCap q tag | .readTelemetry q tag | .installImprint q tag _
  | .installFirmware q tag _ | .commitVersion q tag | .restart q tag _ | .readErrata q tag | .openWindow q tag _
  | .closeWindow q tag | .attest q tag | .coreService q tag | .selfTest q tag _ | .laneService q tag _
  | .portService q tag | .readSpares q tag => some (q, tag)
  | _ => none

/-- The port of a row of a port. -/
def portOf : Instr → Option Nat
  | .requestDatagram port _ | .requestAssemblyTimeout port _ | .replyContextExpiry port _ | .neighbourRequest port _ _
  | .retrainingPause port _ _ _ | .deviceTemperatureRead port _ _ | .negotiation port _ | .negotiationStepLimit port _
  | .negotiationRetry port | .renegotiation port _ | .partnerLoss port | .edgePortUp port | .edgePortDown port
  | .helloSend port | .helloReceive port _ | .parcelArrival port _ _ | .timeParcelSend port
  | .timeParcelReceive port _ _ | .linkCreditGrant port _ => some port
  | _ => none

/-- The receive-area slot of a row of a parcel. -/
def slotOf : Instr → Option Nat
  | .resendRequestReceive rq | .queryReceive rq | .queryReplyReceive rq | .queryDataReceive rq | .parcelExpiry rq
  | .spargeResendReceive rq | .creditParcelReceive rq | .backupBlockArrival rq | .abortReceive rq
  | .mirrorParcelReceive rq | .mirrorAckReceive rq | .mirrorRefusalReceive rq | .mirrorReleaseReceive rq
  | .rollCallReceive rq | .rollAnswerReceive rq => some rq
  | _ => none

/-- The reduction channel of a row of one. -/
def channelOf : Instr → Option Nat
  | .addBlock channel | .downBlockReceive channel | .downBlockResendWait channel | .backupDeadline channel _
  | .stepTimerExpiry channel => some channel
  | _ => none

/-- The partition of a row of one. -/
def partitionOf : Instr → Option Nat
  | .gristCycleStart part | .gristTick part | .gristCycleEnd part | .forkCycle part | .endCycle part
  | .earlyWriteBack part _ => some part
  | _ => none

/-- The leaf of a row of one. -/
def leafOf : Instr → Option Nat
  | .promotionDone handle | .cellarDirectReadDone handle | .sectionStoreCopyDone handle | .earlyWriteBack _ handle
  | .writeBackAdmitted handle | .writeBufferAccept handle | .cellarReadDone handle _ | .weightCopyArrival handle _ _
  | .weightFetchTimeout handle | .mirrorLeafSent _ handle => some handle
  | _ => none

/-- A well-formed command names a queue pair of the 16 and a 16-bit TAG (R412, R415), a port of the 16 (R15, R335), a slot of the
receive area (R338), a reduction channel of the 64 (R378), a partition of the 8 (R25), and a leaf that is neither handle 0 nor null
(R146, R275). -/
def Statement (i : Instr) : Prop :=
  i.wf = true →
    (∀ x, pairOf i = some x → x.1 < 16 ∧ x.2 < 65536) ∧ (∀ p, portOf i = some p → p < 16) ∧
    (∀ r, slotOf i = some r → r < 65536) ∧ (∀ c, channelOf i = some c → c < 64) ∧ (∀ n, partitionOf i = some n → n < 8) ∧
    (∀ h, leafOf i = some h → 0 < h ∧ h < Config.nullHandle)

theorem and_left {a b : Bool} (h : (a && b) = true) : a = true := by
  cases a
  · exact h
  · rfl

theorem and_right {a b : Bool} (h : (a && b) = true) : b = true := by
  cases a
  · cases h
  · exact h

theorem bound_none {α : Type} {P : α → Prop} : ∀ x, (none : Option α) = some x → P x := fun _ e => nomatch e

theorem bound_some {α : Type} {P : α → Prop} {y : α} (h : P y) : ∀ x, some y = some x → P x := fun _ e => (Option.some.inj e) ▸ h

theorem pair_ok {q t : Nat} (h : wfPair q t = true) : q < 16 ∧ t < 65536 :=
  ⟨of_decide_eq_true (and_left h), of_decide_eq_true (and_right h)⟩

theorem handle_ok {n : Nat} (h : wfHandle n = true) : 0 < n ∧ n < Config.nullHandle :=
  ⟨of_decide_eq_true (and_left h), of_decide_eq_true (and_right h)⟩

theorem nop (q : Nat) (tag : Nat) : Statement (.nop q tag) := fun h =>
  ⟨bound_some (pair_ok h), bound_none, bound_none, bound_none, bound_none, bound_none⟩
theorem openSessionChallenge (q : Nat) (tag : Nat) : Statement (.openSessionChallenge q tag) := fun h =>
  ⟨bound_some (pair_ok h), bound_none, bound_none, bound_none, bound_none, bound_none⟩
theorem openSessionAnswer (q : Nat) (tag : Nat) (answer : SessionAnswer) : Statement (.openSessionAnswer q tag answer) := fun h =>
  ⟨bound_some (pair_ok h), bound_none, bound_none, bound_none, bound_none, bound_none⟩
theorem closeSession (q : Nat) (tag : Nat) : Statement (.closeSession q tag) := fun h =>
  ⟨bound_some (pair_ok h), bound_none, bound_none, bound_none, bound_none, bound_none⟩
theorem loadPlan (q : Nat) (tag : Nat) (image : List Byte) : Statement (.loadPlan q tag image) := fun h =>
  ⟨bound_some (pair_ok (and_left h)), bound_none, bound_none, bound_none, bound_none, bound_none⟩
theorem loadPlanAdopt (q : Nat) (tag : Nat) (image : List Byte) : Statement (.loadPlanAdopt q tag image) := fun h =>
  ⟨bound_some (pair_ok (and_left h)), bound_none, bound_none, bound_none, bound_none, bound_none⟩
theorem unloadPlan (q : Nat) (tag : Nat) : Statement (.unloadPlan q tag) := fun h =>
  ⟨bound_some (pair_ok h), bound_none, bound_none, bound_none, bound_none, bound_none⟩
theorem grist (q : Nat) (tag : Nat) (header : List W32) : Statement (.grist q tag header) := fun h =>
  ⟨bound_some (pair_ok (and_left h)), bound_none, bound_none, bound_none, bound_none, bound_none⟩
theorem train (q : Nat) (tag : Nat) (runs : List W32) : Statement (.train q tag runs) := fun h =>
  ⟨bound_some (pair_ok (and_left h)), bound_none, bound_none, bound_none, bound_none, bound_none⟩
theorem plainRerun (q : Nat) (tag : Nat) : Statement (.plainRerun q tag) := fun h =>
  ⟨bound_some (pair_ok h), bound_none, bound_none, bound_none, bound_none, bound_none⟩
theorem setRefresh (q : Nat) (tag : Nat) : Statement (.setRefresh q tag) := fun h =>
  ⟨bound_some (pair_ok h), bound_none, bound_none, bound_none, bound_none, bound_none⟩
theorem readTable (q : Nat) (tag : Nat) : Statement (.readTable q tag) := fun h =>
  ⟨bound_some (pair_ok h), bound_none, bound_none, bound_none, bound_none, bound_none⟩
theorem loadTable (q : Nat) (tag : Nat) (entries : List W32) : Statement (.loadTable q tag entries) := fun h =>
  ⟨bound_some (pair_ok h), bound_none, bound_none, bound_none, bound_none, bound_none⟩
theorem initSet (q : Nat) (tag : Nat) : Statement (.initSet q tag) := fun h =>
  ⟨bound_some (pair_ok h), bound_none, bound_none, bound_none, bound_none, bound_none⟩
theorem dmaStart (q : Nat) (tag : Nat) : Statement (.dmaStart q tag) := fun h =>
  ⟨bound_some (pair_ok h), bound_none, bound_none, bound_none, bound_none, bound_none⟩
theorem dmaControlResume (q : Nat) (tag : Nat) : Statement (.dmaControlResume q tag) := fun h =>
  ⟨bound_some (pair_ok h), bound_none, bound_none, bound_none, bound_none, bound_none⟩
theorem dmaControlAbort (q : Nat) (tag : Nat) : Statement (.dmaControlAbort q tag) := fun h =>
  ⟨bound_some (pair_ok h), bound_none, bound_none, bound_none, bound_none, bound_none⟩
theorem simmerDisable (q : Nat) (tag : Nat) : Statement (.simmerDisable q tag) := fun h =>
  ⟨bound_some (pair_ok h), bound_none, bound_none, bound_none, bound_none, bound_none⟩
theorem simmerEnable (q : Nat) (tag : Nat) : Statement (.simmerEnable q tag) := fun h =>
  ⟨bound_some (pair_ok h), bound_none, bound_none, bound_none, bound_none, bound_none⟩
theorem powerSetRest (q : Nat) (tag : Nat) : Statement (.powerSetRest q tag) := fun h =>
  ⟨bound_some (pair_ok h), bound_none, bound_none, bound_none, bound_none, bound_none⟩
theorem powerSetDormant (q : Nat) (tag : Nat) : Statement (.powerSetDormant q tag) := fun h =>
  ⟨bound_some (pair_ok h), bound_none, bound_none, bound_none, bound_none, bound_none⟩
theorem powerSetStandby (q : Nat) (tag : Nat) : Statement (.powerSetStandby q tag) := fun h =>
  ⟨bound_some (pair_ok h), bound_none, bound_none, bound_none, bound_none, bound_none⟩
theorem powerCap (q : Nat) (tag : Nat) : Statement (.powerCap q tag) := fun h =>
  ⟨bound_some (pair_ok h), bound_none, bound_none, bound_none, bound_none, bound_none⟩
theorem readTelemetry (q : Nat) (tag : Nat) : Statement (.readTelemetry q tag) := fun h =>
  ⟨bound_some (pair_ok h), bound_none, bound_none, bound_none, bound_none, bound_none⟩
theorem installImprint (q : Nat) (tag : Nat) (image : Imprint) : Statement (.installImprint q tag image) := fun h =>
  ⟨bound_some (pair_ok (and_left h)), bound_none, bound_none, bound_none, bound_none, bound_none⟩
theorem installFirmware (q : Nat) (tag : Nat) (image : Firmware) : Statement (.installFirmware q tag image) := fun h =>
  ⟨bound_some (pair_ok h), bound_none, bound_none, bound_none, bound_none, bound_none⟩
theorem commitVersion (q : Nat) (tag : Nat) : Statement (.commitVersion q tag) := fun h =>
  ⟨bound_some (pair_ok h), bound_none, bound_none, bound_none, bound_none, bound_none⟩
theorem restart (q : Nat) (tag : Nat) (start : StartIn) : Statement (.restart q tag start) := fun h =>
  ⟨bound_some (pair_ok (and_left h)), bound_none, bound_none, bound_none, bound_none, bound_none⟩
theorem readErrata (q : Nat) (tag : Nat) : Statement (.readErrata q tag) := fun h =>
  ⟨bound_some (pair_ok h), bound_none, bound_none, bound_none, bound_none, bound_none⟩
theorem openWindow (q : Nat) (tag : Nat) (companion : Digest) : Statement (.openWindow q tag companion) := fun h =>
  ⟨bound_some (pair_ok h), bound_none, bound_none, bound_none, bound_none, bound_none⟩
theorem closeWindow (q : Nat) (tag : Nat) : Statement (.closeWindow q tag) := fun h =>
  ⟨bound_some (pair_ok h), bound_none, bound_none, bound_none, bound_none, bound_none⟩
theorem attest (q : Nat) (tag : Nat) : Statement (.attest q tag) := fun h =>
  ⟨bound_some (pair_ok h), bound_none, bound_none, bound_none, bound_none, bound_none⟩
theorem coreService (q : Nat) (tag : Nat) : Statement (.coreService q tag) := fun h =>
  ⟨bound_some (pair_ok h), bound_none, bound_none, bound_none, bound_none, bound_none⟩
theorem selfTest (q : Nat) (tag : Nat) (failed : BitVec 17) : Statement (.selfTest q tag failed) := fun h =>
  ⟨bound_some (pair_ok h), bound_none, bound_none, bound_none, bound_none, bound_none⟩
theorem laneService (q : Nat) (tag : Nat) (net : NegIn) : Statement (.laneService q tag net) := fun h =>
  ⟨bound_some (pair_ok h), bound_none, bound_none, bound_none, bound_none, bound_none⟩
theorem portService (q : Nat) (tag : Nat) : Statement (.portService q tag) := fun h =>
  ⟨bound_some (pair_ok h), bound_none, bound_none, bound_none, bound_none, bound_none⟩
theorem readSpares (q : Nat) (tag : Nat) : Statement (.readSpares q tag) := fun h =>
  ⟨bound_some (pair_ok h), bound_none, bound_none, bound_none, bound_none, bound_none⟩
theorem sqTail (q : Nat) (value : W32) : Statement (.sqTail q value) := fun _ =>
  ⟨bound_none, bound_none, bound_none, bound_none, bound_none, bound_none⟩
theorem cqHead (q : Nat) (value : W32) : Statement (.cqHead q value) := fun _ =>
  ⟨bound_none, bound_none, bound_none, bound_none, bound_none, bound_none⟩
theorem queueEnable (q : Nat) (value : W32) : Statement (.queueEnable q value) := fun _ =>
  ⟨bound_none, bound_none, bound_none, bound_none, bound_none, bound_none⟩
theorem queueDisable (q : Nat) (value : W32) : Statement (.queueDisable q value) := fun _ =>
  ⟨bound_none, bound_none, bound_none, bound_none, bound_none, bound_none⟩
theorem attnPendingClear (value : W32) (events : BitVec 8) : Statement (.attnPendingClear value events) := fun _ =>
  ⟨bound_none, bound_none, bound_none, bound_none, bound_none, bound_none⟩
theorem timeLoRead : Statement .timeLoRead := fun _ =>
  ⟨bound_none, bound_none, bound_none, bound_none, bound_none, bound_none⟩
theorem readClearField (offset : Nat) (event : Bool) : Statement (.readClearField offset event) := fun _ =>
  ⟨bound_none, bound_none, bound_none, bound_none, bound_none, bound_none⟩
theorem registerWriteOther (offset : Nat) (value : W32) (size : Nat) : Statement (.registerWriteOther offset value size) := fun _ =>
  ⟨bound_none, bound_none, bound_none, bound_none, bound_none, bound_none⟩
theorem submissionFetch (got : HostFetch) : Statement (.submissionFetch got) := fun _ =>
  ⟨bound_none, bound_none, bound_none, bound_none, bound_none, bound_none⟩
theorem conventionalReset : Statement .conventionalReset := fun _ =>
  ⟨bound_none, bound_none, bound_none, bound_none, bound_none, bound_none⟩
theorem hotReset : Statement .hotReset := fun _ =>
  ⟨bound_none, bound_none, bound_none, bound_none, bound_none, bound_none⟩
theorem functionLevelReset : Statement .functionLevelReset := fun _ =>
  ⟨bound_none, bound_none, bound_none, bound_none, bound_none, bound_none⟩
theorem perstRelease (refclk : Bool) : Statement (.perstRelease refclk) := fun _ =>
  ⟨bound_none, bound_none, bound_none, bound_none, bound_none, bound_none⟩
theorem configWrite (w : ConfigWrite) : Statement (.configWrite w) := fun _ =>
  ⟨bound_none, bound_none, bound_none, bound_none, bound_none, bound_none⟩
theorem sidebandStatus : Statement .sidebandStatus := fun _ =>
  ⟨bound_none, bound_none, bound_none, bound_none, bound_none, bound_none⟩
theorem sidebandWake (data : Byte) (pec : Bool) : Statement (.sidebandWake data pec) := fun _ =>
  ⟨bound_none, bound_none, bound_none, bound_none, bound_none, bound_none⟩
theorem sidebandStandby (data : Byte) (pec : Bool) : Statement (.sidebandStandby data pec) := fun _ =>
  ⟨bound_none, bound_none, bound_none, bound_none, bound_none, bound_none⟩
theorem supplyTurnOn : Statement .supplyTurnOn := fun _ =>
  ⟨bound_none, bound_none, bound_none, bound_none, bound_none, bound_none⟩
theorem coldStart (start : StartIn) : Statement (.coldStart start) := fun _ =>
  ⟨bound_none, bound_none, bound_none, bound_none, bound_none, bound_none⟩
theorem caskTrainingDone (results : List PortTrain) : Statement (.caskTrainingDone results) := fun _ =>
  ⟨bound_none, bound_none, bound_none, bound_none, bound_none, bound_none⟩
theorem cellarRebuildDone : Statement .cellarRebuildDone := fun _ =>
  ⟨bound_none, bound_none, bound_none, bound_none, bound_none, bound_none⟩
theorem undervoltage : Statement .undervoltage := fun _ =>
  ⟨bound_none, bound_none, bound_none, bound_none, bound_none, bound_none⟩
theorem overvoltage : Statement .overvoltage := fun _ =>
  ⟨bound_none, bound_none, bound_none, bound_none, bound_none, bound_none⟩
theorem auxPowerApplied (straps : BitVec 2) : Statement (.auxPowerApplied straps) := fun _ =>
  ⟨bound_none, bound_none, bound_none, bound_none, bound_none, bound_none⟩
theorem auxPowerLost : Statement .auxPowerLost := fun _ =>
  ⟨bound_none, bound_none, bound_none, bound_none, bound_none, bound_none⟩
theorem thermalTrip : Statement .thermalTrip := fun _ =>
  ⟨bound_none, bound_none, bound_none, bound_none, bound_none, bound_none⟩
theorem emergencyDrop (sec : Nat) (temp : Nat) : Statement (.emergencyDrop sec temp) := fun _ =>
  ⟨bound_none, bound_none, bound_none, bound_none, bound_none, bound_none⟩
theorem throttleAdjust (sensors : Sensors) : Statement (.throttleAdjust sensors) := fun _ =>
  ⟨bound_none, bound_none, bound_none, bound_none, bound_none, bound_none⟩
theorem telemetrySample (sensors : Sensors) : Statement (.telemetrySample sensors) := fun _ =>
  ⟨bound_none, bound_none, bound_none, bound_none, bound_none, bound_none⟩
theorem enterReady : Statement .enterReady := fun _ =>
  ⟨bound_none, bound_none, bound_none, bound_none, bound_none, bound_none⟩
theorem returnToRun : Statement .returnToRun := fun _ =>
  ⟨bound_none, bound_none, bound_none, bound_none, bound_none, bound_none⟩
theorem autoRest : Statement .autoRest := fun _ =>
  ⟨bound_none, bound_none, bound_none, bound_none, bound_none, bound_none⟩
theorem powerEntryComplete : Statement .powerEntryComplete := fun _ =>
  ⟨bound_none, bound_none, bound_none, bound_none, bound_none, bound_none⟩
theorem wakeAtReached : Statement .wakeAtReached := fun _ =>
  ⟨bound_none, bound_none, bound_none, bound_none, bound_none, bound_none⟩
theorem exitRest : Statement .exitRest := fun _ =>
  ⟨bound_none, bound_none, bound_none, bound_none, bound_none, bound_none⟩
theorem exitDormant (ports : List PortRead) : Statement (.exitDormant ports) := fun _ =>
  ⟨bound_none, bound_none, bound_none, bound_none, bound_none, bound_none⟩
theorem exitStandby (start : StartIn) : Statement (.exitStandby start) := fun _ =>
  ⟨bound_none, bound_none, bound_none, bound_none, bound_none, bound_none⟩
theorem requestDatagram (port : Nat) (dgram : Datagram) : Statement (.requestDatagram port dgram) := fun h =>
  ⟨bound_none, bound_some (of_decide_eq_true (and_left h)), bound_none, bound_none, bound_none, bound_none⟩
theorem requestAssemblyTimeout (port : Nat) (ctx : Nat) : Statement (.requestAssemblyTimeout port ctx) := fun h =>
  ⟨bound_none, bound_some (of_decide_eq_true h), bound_none, bound_none, bound_none, bound_none⟩
theorem replyContextExpiry (port : Nat) (ctx : Nat) : Statement (.replyContextExpiry port ctx) := fun h =>
  ⟨bound_none, bound_some (of_decide_eq_true h), bound_none, bound_none, bound_none, bound_none⟩
theorem neighbourRequest (port : Nat) (ip6 : Bool) (target : BitVec 128) : Statement (.neighbourRequest port ip6 target) := fun h =>
  ⟨bound_none, bound_some (of_decide_eq_true h), bound_none, bound_none, bound_none, bound_none⟩
theorem requestAdmit (sec : Nat) (rec : Nat) : Statement (.requestAdmit sec rec) := fun _ =>
  ⟨bound_none, bound_none, bound_none, bound_none, bound_none, bound_none⟩
theorem requestContinue (sec : Nat) (rec : Nat) : Statement (.requestContinue sec rec) := fun _ =>
  ⟨bound_none, bound_none, bound_none, bound_none, bound_none, bound_none⟩
theorem requestFork (sec : Nat) (rec : Nat) : Statement (.requestFork sec rec) := fun _ =>
  ⟨bound_none, bound_none, bound_none, bound_none, bound_none, bound_none⟩
theorem requestReset (sec : Nat) (rec : Nat) : Statement (.requestReset sec rec) := fun _ =>
  ⟨bound_none, bound_none, bound_none, bound_none, bound_none, bound_none⟩
theorem requestEnd (sec : Nat) (rec : Nat) : Statement (.requestEnd sec rec) := fun _ =>
  ⟨bound_none, bound_none, bound_none, bound_none, bound_none, bound_none⟩
theorem requestPause (sec : Nat) (rec : Nat) : Statement (.requestPause sec rec) := fun _ =>
  ⟨bound_none, bound_none, bound_none, bound_none, bound_none, bound_none⟩
theorem requestResume (sec : Nat) (rec : Nat) : Statement (.requestResume sec rec) := fun _ =>
  ⟨bound_none, bound_none, bound_none, bound_none, bound_none, bound_none⟩
theorem gristCycleStart (part : Nat) : Statement (.gristCycleStart part) := fun h =>
  ⟨bound_none, bound_none, bound_none, bound_none, bound_some (of_decide_eq_true h), bound_none⟩
theorem gristTick (part : Nat) : Statement (.gristTick part) := fun h =>
  ⟨bound_none, bound_none, bound_none, bound_none, bound_some (of_decide_eq_true h), bound_none⟩
theorem gristCycleEnd (part : Nat) : Statement (.gristCycleEnd part) := fun h =>
  ⟨bound_none, bound_none, bound_none, bound_none, bound_some (of_decide_eq_true h), bound_none⟩
theorem forkCycle (part : Nat) : Statement (.forkCycle part) := fun h =>
  ⟨bound_none, bound_none, bound_none, bound_none, bound_some (of_decide_eq_true h), bound_none⟩
theorem endCycle (part : Nat) : Statement (.endCycle part) := fun h =>
  ⟨bound_none, bound_none, bound_none, bound_none, bound_some (of_decide_eq_true h), bound_none⟩
theorem matmul (id : Nat) : Statement (.matmul id) := fun _ =>
  ⟨bound_none, bound_none, bound_none, bound_none, bound_none, bound_none⟩
theorem matmulPair (id : Nat) : Statement (.matmulPair id) := fun _ =>
  ⟨bound_none, bound_none, bound_none, bound_none, bound_none, bound_none⟩
theorem attend (id : Nat) : Statement (.attend id) := fun _ =>
  ⟨bound_none, bound_none, bound_none, bound_none, bound_none, bound_none⟩
theorem scan (id : Nat) : Statement (.scan id) := fun _ =>
  ⟨bound_none, bound_none, bound_none, bound_none, bound_none, bound_none⟩
theorem conv (id : Nat) : Statement (.conv id) := fun _ =>
  ⟨bound_none, bound_none, bound_none, bound_none, bound_none, bound_none⟩
theorem pool (id : Nat) : Statement (.pool id) := fun _ =>
  ⟨bound_none, bound_none, bound_none, bound_none, bound_none, bound_none⟩
theorem dist (id : Nat) : Statement (.dist id) := fun _ =>
  ⟨bound_none, bound_none, bound_none, bound_none, bound_none, bound_none⟩
theorem reduce (id : Nat) : Statement (.reduce id) := fun _ =>
  ⟨bound_none, bound_none, bound_none, bound_none, bound_none, bound_none⟩
theorem vector (id : Nat) : Statement (.vector id) := fun _ =>
  ⟨bound_none, bound_none, bound_none, bound_none, bound_none, bound_none⟩
theorem route (id : Nat) : Statement (.route id) := fun _ =>
  ⟨bound_none, bound_none, bound_none, bound_none, bound_none, bound_none⟩
theorem send (id : Nat) : Statement (.send id) := fun _ =>
  ⟨bound_none, bound_none, bound_none, bound_none, bound_none, bound_none⟩
theorem recvGather (id : Nat) : Statement (.recvGather id) := fun _ =>
  ⟨bound_none, bound_none, bound_none, bound_none, bound_none, bound_none⟩
theorem recvSum (id : Nat) : Statement (.recvSum id) := fun _ =>
  ⟨bound_none, bound_none, bound_none, bound_none, bound_none, bound_none⟩
theorem recvChannel (id : Nat) : Statement (.recvChannel id) := fun _ =>
  ⟨bound_none, bound_none, bound_none, bound_none, bound_none, bound_none⟩
theorem fork (id : Nat) : Statement (.fork id) := fun _ =>
  ⟨bound_none, bound_none, bound_none, bound_none, bound_none, bound_none⟩
theorem leafAppend (id : Nat) : Statement (.leafAppend id) := fun _ =>
  ⟨bound_none, bound_none, bound_none, bound_none, bound_none, bound_none⟩
theorem leafTrim (id : Nat) : Statement (.leafTrim id) := fun _ =>
  ⟨bound_none, bound_none, bound_none, bound_none, bound_none, bound_none⟩
theorem leafFree (id : Nat) : Statement (.leafFree id) := fun _ =>
  ⟨bound_none, bound_none, bound_none, bound_none, bound_none, bound_none⟩
theorem sparge (id : Nat) : Statement (.sparge id) := fun _ =>
  ⟨bound_none, bound_none, bound_none, bound_none, bound_none, bound_none⟩
theorem fence (id : Nat) : Statement (.fence id) := fun _ =>
  ⟨bound_none, bound_none, bound_none, bound_none, bound_none, bound_none⟩
theorem passStart (id : Nat) (errs : List SectorError) : Statement (.passStart id errs) := fun _ =>
  ⟨bound_none, bound_none, bound_none, bound_none, bound_none, bound_none⟩
theorem commitFlip (id : Nat) (arrTime : Nat) : Statement (.commitFlip id arrTime) := fun _ =>
  ⟨bound_none, bound_none, bound_none, bound_none, bound_none, bound_none⟩
theorem simmerRampDown (core : Nat) : Statement (.simmerRampDown core) := fun _ =>
  ⟨bound_none, bound_none, bound_none, bound_none, bound_none, bound_none⟩
theorem rampUpStep (core : Nat) : Statement (.rampUpStep core) := fun _ =>
  ⟨bound_none, bound_none, bound_none, bound_none, bound_none, bound_none⟩
theorem commandTimeLimit (id : Nat) (waiting : Bool) : Statement (.commandTimeLimit id waiting) := fun _ =>
  ⟨bound_none, bound_none, bound_none, bound_none, bound_none, bound_none⟩
theorem leafExhausted (id : Nat) : Statement (.leafExhausted id) := fun _ =>
  ⟨bound_none, bound_none, bound_none, bound_none, bound_none, bound_none⟩
theorem commitSweep : Statement .commitSweep := fun _ =>
  ⟨bound_none, bound_none, bound_none, bound_none, bound_none, bound_none⟩
theorem heatEpoch : Statement .heatEpoch := fun _ =>
  ⟨bound_none, bound_none, bound_none, bound_none, bound_none, bound_none⟩
theorem promotionDone (handle : Handle) : Statement (.promotionDone handle) := fun h =>
  ⟨bound_none, bound_none, bound_none, bound_none, bound_none, bound_some (handle_ok h)⟩
theorem cellarDirectReadDone (handle : Handle) : Statement (.cellarDirectReadDone handle) := fun h =>
  ⟨bound_none, bound_none, bound_none, bound_none, bound_none, bound_some (handle_ok h)⟩
theorem sectionStoreCopyDone (handle : Handle) : Statement (.sectionStoreCopyDone handle) := fun h =>
  ⟨bound_none, bound_none, bound_none, bound_none, bound_none, bound_some (handle_ok h)⟩
theorem earlyWriteBack (part : Nat) (handle : Handle) : Statement (.earlyWriteBack part handle) := fun h =>
  ⟨bound_none, bound_none, bound_none, bound_none, bound_some (of_decide_eq_true (and_left h)), bound_some (handle_ok (and_right h))⟩
theorem writeBackAdmitted (handle : Handle) : Statement (.writeBackAdmitted handle) := fun h =>
  ⟨bound_none, bound_none, bound_none, bound_none, bound_none, bound_some (handle_ok h)⟩
theorem writeBufferAccept (handle : Handle) : Statement (.writeBufferAccept handle) := fun h =>
  ⟨bound_none, bound_none, bound_none, bound_none, bound_none, bound_some (handle_ok h)⟩
theorem nandProgram : Statement .nandProgram := fun _ =>
  ⟨bound_none, bound_none, bound_none, bound_none, bound_none, bound_none⟩
theorem reclamation (die : Nat) : Statement (.reclamation die) := fun _ =>
  ⟨bound_none, bound_none, bound_none, bound_none, bound_none, bound_none⟩
theorem programEraseFailure (die : Nat) (block : Nat) : Statement (.programEraseFailure die block) := fun _ =>
  ⟨bound_none, bound_none, bound_none, bound_none, bound_none, bound_none⟩
theorem cellarReadDone (handle : Handle) (rung : Rung) : Statement (.cellarReadDone handle rung) := fun h =>
  ⟨bound_none, bound_none, bound_none, bound_none, bound_none, bound_some (handle_ok h)⟩
theorem weightCopyArrival (handle : Handle) (data : List Byte) (tags : List (BitVec 4)) : Statement (.weightCopyArrival handle data tags) := fun h =>
  ⟨bound_none, bound_none, bound_none, bound_none, bound_none, bound_some (handle_ok (and_left (and_left h)))⟩
theorem weightFetchTimeout (handle : Handle) : Statement (.weightFetchTimeout handle) := fun h =>
  ⟨bound_none, bound_none, bound_none, bound_none, bound_none, bound_some (handle_ok h)⟩
theorem retrainingPause (port : Nat) (pins : List W32) (answered : Bool) (pinsOk : Bool) : Statement (.retrainingPause port pins answered pinsOk) := fun h =>
  ⟨bound_none, bound_some (of_decide_eq_true h), bound_none, bound_none, bound_none, bound_none⟩
theorem caskRestartDone (ports : List PortRead) : Statement (.caskRestartDone ports) := fun _ =>
  ⟨bound_none, bound_none, bound_none, bound_none, bound_none, bound_none⟩
theorem deviceTemperatureRead (port : Nat) (t0 : Nat) (t1 : Nat) : Statement (.deviceTemperatureRead port t0 t1) := fun h =>
  ⟨bound_none, bound_some (of_decide_eq_true h), bound_none, bound_none, bound_none, bound_none⟩
theorem negotiation (port : Nat) (net : NegIn) : Statement (.negotiation port net) := fun h =>
  ⟨bound_none, bound_some (of_decide_eq_true h), bound_none, bound_none, bound_none, bound_none⟩
theorem negotiationStepLimit (port : Nat) (step : Nat) : Statement (.negotiationStepLimit port step) := fun h =>
  ⟨bound_none, bound_some (of_decide_eq_true h), bound_none, bound_none, bound_none, bound_none⟩
theorem negotiationRetry (port : Nat) : Statement (.negotiationRetry port) := fun h =>
  ⟨bound_none, bound_some (of_decide_eq_true h), bound_none, bound_none, bound_none, bound_none⟩
theorem renegotiation (port : Nat) (net : NegIn) : Statement (.renegotiation port net) := fun h =>
  ⟨bound_none, bound_some (of_decide_eq_true h), bound_none, bound_none, bound_none, bound_none⟩
theorem partnerLoss (port : Nat) : Statement (.partnerLoss port) := fun h =>
  ⟨bound_none, bound_some (of_decide_eq_true h), bound_none, bound_none, bound_none, bound_none⟩
theorem edgePortUp (port : Nat) : Statement (.edgePortUp port) := fun h =>
  ⟨bound_none, bound_some (of_decide_eq_true h), bound_none, bound_none, bound_none, bound_none⟩
theorem edgePortDown (port : Nat) : Statement (.edgePortDown port) := fun h =>
  ⟨bound_none, bound_some (of_decide_eq_true h), bound_none, bound_none, bound_none, bound_none⟩
theorem helloSend (port : Nat) : Statement (.helloSend port) := fun h =>
  ⟨bound_none, bound_some (of_decide_eq_true h), bound_none, bound_none, bound_none, bound_none⟩
theorem helloReceive (port : Nat) (hello : List W32) : Statement (.helloReceive port hello) := fun h =>
  ⟨bound_none, bound_some (of_decide_eq_true (and_left h)), bound_none, bound_none, bound_none, bound_none⟩
theorem parcelArrival (port : Nat) (parcel : Parcel) (trailer : W32) : Statement (.parcelArrival port parcel trailer) := fun h =>
  ⟨bound_none, bound_some (of_decide_eq_true (and_left h)), bound_none, bound_none, bound_none, bound_none⟩
theorem resendRequestReceive (rq : Nat) : Statement (.resendRequestReceive rq) := fun h =>
  ⟨bound_none, bound_none, bound_some (of_decide_eq_true h), bound_none, bound_none, bound_none⟩
theorem queryReceive (rq : Nat) : Statement (.queryReceive rq) := fun h =>
  ⟨bound_none, bound_none, bound_some (of_decide_eq_true h), bound_none, bound_none, bound_none⟩
theorem queryReplyReceive (rq : Nat) : Statement (.queryReplyReceive rq) := fun h =>
  ⟨bound_none, bound_none, bound_some (of_decide_eq_true h), bound_none, bound_none, bound_none⟩
theorem queryDataReceive (rq : Nat) : Statement (.queryDataReceive rq) := fun h =>
  ⟨bound_none, bound_none, bound_some (of_decide_eq_true h), bound_none, bound_none, bound_none⟩
theorem parcelExpiry (rq : Nat) : Statement (.parcelExpiry rq) := fun h =>
  ⟨bound_none, bound_none, bound_some (of_decide_eq_true h), bound_none, bound_none, bound_none⟩
theorem unreachableQuery (addr : Nat) : Statement (.unreachableQuery addr) := fun _ =>
  ⟨bound_none, bound_none, bound_none, bound_none, bound_none, bound_none⟩
theorem timeParcelSend (port : Nat) : Statement (.timeParcelSend port) := fun h =>
  ⟨bound_none, bound_some (of_decide_eq_true h), bound_none, bound_none, bound_none, bound_none⟩
theorem timeParcelReceive (port : Nat) (payload : List W32) (arrival : W64) : Statement (.timeParcelReceive port payload arrival) := fun h =>
  ⟨bound_none, bound_some (of_decide_eq_true (and_left h)), bound_none, bound_none, bound_none, bound_none⟩
theorem syncRisingEdge : Statement .syncRisingEdge := fun _ =>
  ⟨bound_none, bound_none, bound_none, bound_none, bound_none, bound_none⟩
theorem addBlock (channel : Nat) : Statement (.addBlock channel) := fun h =>
  ⟨bound_none, bound_none, bound_none, bound_some (of_decide_eq_true h), bound_none, bound_none⟩
theorem downBlockReceive (channel : Nat) : Statement (.downBlockReceive channel) := fun h =>
  ⟨bound_none, bound_none, bound_none, bound_some (of_decide_eq_true h), bound_none, bound_none⟩
theorem downBlockResendWait (channel : Nat) : Statement (.downBlockResendWait channel) := fun h =>
  ⟨bound_none, bound_none, bound_none, bound_some (of_decide_eq_true h), bound_none, bound_none⟩
theorem updateLeafWaitTimeout : Statement .updateLeafWaitTimeout := fun _ =>
  ⟨bound_none, bound_none, bound_none, bound_none, bound_none, bound_none⟩
theorem publish (slot : Nat) : Statement (.publish slot) := fun _ =>
  ⟨bound_none, bound_none, bound_none, bound_none, bound_none, bound_none⟩
theorem spargeResendReceive (rq : Nat) : Statement (.spargeResendReceive rq) := fun h =>
  ⟨bound_none, bound_none, bound_some (of_decide_eq_true h), bound_none, bound_none, bound_none⟩
theorem creditParcelReceive (rq : Nat) : Statement (.creditParcelReceive rq) := fun h =>
  ⟨bound_none, bound_none, bound_some (of_decide_eq_true h), bound_none, bound_none, bound_none⟩
theorem backupBlockArrival (rq : Nat) : Statement (.backupBlockArrival rq) := fun h =>
  ⟨bound_none, bound_none, bound_some (of_decide_eq_true h), bound_none, bound_none, bound_none⟩
theorem backupDeadline (channel : Nat) (seq : Nat) : Statement (.backupDeadline channel seq) := fun h =>
  ⟨bound_none, bound_none, bound_none, bound_some (of_decide_eq_true h), bound_none, bound_none⟩
theorem stepTimerExpiry (channel : Nat) : Statement (.stepTimerExpiry channel) := fun h =>
  ⟨bound_none, bound_none, bound_none, bound_some (of_decide_eq_true h), bound_none, bound_none⟩
theorem abortReceive (rq : Nat) : Statement (.abortReceive rq) := fun h =>
  ⟨bound_none, bound_none, bound_some (of_decide_eq_true h), bound_none, bound_none, bound_none⟩
theorem mirrorParcelReceive (rq : Nat) : Statement (.mirrorParcelReceive rq) := fun h =>
  ⟨bound_none, bound_none, bound_some (of_decide_eq_true h), bound_none, bound_none, bound_none⟩
theorem mirrorAdmissionTimeout (owner : Nat) (stream : Nat) : Statement (.mirrorAdmissionTimeout owner stream) := fun _ =>
  ⟨bound_none, bound_none, bound_none, bound_none, bound_none, bound_none⟩
theorem mirrorAckReceive (rq : Nat) : Statement (.mirrorAckReceive rq) := fun h =>
  ⟨bound_none, bound_none, bound_some (of_decide_eq_true h), bound_none, bound_none, bound_none⟩
theorem mirrorRefusalReceive (rq : Nat) : Statement (.mirrorRefusalReceive rq) := fun h =>
  ⟨bound_none, bound_none, bound_some (of_decide_eq_true h), bound_none, bound_none, bound_none⟩
theorem mirrorAckTimeout (stream : Nat) : Statement (.mirrorAckTimeout stream) := fun _ =>
  ⟨bound_none, bound_none, bound_none, bound_none, bound_none, bound_none⟩
theorem mirrorReleaseReceive (rq : Nat) : Statement (.mirrorReleaseReceive rq) := fun h =>
  ⟨bound_none, bound_none, bound_some (of_decide_eq_true h), bound_none, bound_none, bound_none⟩
theorem mirrorMapSweep : Statement .mirrorMapSweep := fun _ =>
  ⟨bound_none, bound_none, bound_none, bound_none, bound_none, bound_none⟩
theorem rollCall : Statement .rollCall := fun _ =>
  ⟨bound_none, bound_none, bound_none, bound_none, bound_none, bound_none⟩
theorem rollCallReceive (rq : Nat) : Statement (.rollCallReceive rq) := fun h =>
  ⟨bound_none, bound_none, bound_some (of_decide_eq_true h), bound_none, bound_none, bound_none⟩
theorem rollAnswerReceive (rq : Nat) : Statement (.rollAnswerReceive rq) := fun h =>
  ⟨bound_none, bound_none, bound_some (of_decide_eq_true h), bound_none, bound_none, bound_none⟩
theorem ownerLost (owner : Nat) : Statement (.ownerLost owner) := fun _ =>
  ⟨bound_none, bound_none, bound_none, bound_none, bound_none, bound_none⟩
theorem coreFailure (sec : Nat) (phys : Nat) : Statement (.coreFailure sec phys) := fun _ =>
  ⟨bound_none, bound_none, bound_none, bound_none, bound_none, bound_none⟩
theorem sliceReportTimeout (id : Nat) (core : Nat) : Statement (.sliceReportTimeout id core) := fun _ =>
  ⟨bound_none, bound_none, bound_none, bound_none, bound_none, bound_none⟩
theorem dmaChannelStart (sec : Nat) : Statement (.dmaChannelStart sec) := fun _ =>
  ⟨bound_none, bound_none, bound_none, bound_none, bound_none, bound_none⟩
theorem dmaChannelDone (sec : Nat) (host : HostData) : Statement (.dmaChannelDone sec host) := fun _ =>
  ⟨bound_none, bound_none, bound_none, bound_none, bound_none, bound_none⟩
theorem dmaHalt (sec : Nat) (cause : BitVec 4) (dir : Bool) (addr : W64) (done : Nat) (host : HostData) : Statement (.dmaHalt sec cause dir addr done host) := fun _ =>
  ⟨bound_none, bound_none, bound_none, bound_none, bound_none, bound_none⟩
theorem errataFoldFlush : Statement .errataFoldFlush := fun _ =>
  ⟨bound_none, bound_none, bound_none, bound_none, bound_none, bound_none⟩
theorem windowExpiry : Statement .windowExpiry := fun _ =>
  ⟨bound_none, bound_none, bound_none, bound_none, bound_none, bound_none⟩
theorem makerSessionExpiry (q : Nat) : Statement (.makerSessionExpiry q) := fun _ =>
  ⟨bound_none, bound_none, bound_none, bound_none, bound_none, bound_none⟩
theorem outputShort (pin : Pin) (low : Bool) : Statement (.outputShort pin low) := fun _ =>
  ⟨bound_none, bound_none, bound_none, bound_none, bound_none, bound_none⟩
theorem shortRetry (pin : Pin) (good : Bool) : Statement (.shortRetry pin good) := fun _ =>
  ⟨bound_none, bound_none, bound_none, bound_none, bound_none, bound_none⟩
theorem presentTest (low : Bool) : Statement (.presentTest low) := fun _ =>
  ⟨bound_none, bound_none, bound_none, bound_none, bound_none, bound_none⟩
theorem syncHeld : Statement .syncHeld := fun _ =>
  ⟨bound_none, bound_none, bound_none, bound_none, bound_none, bound_none⟩
theorem debugInstruction : Statement .debugInstruction := fun _ =>
  ⟨bound_none, bound_none, bound_none, bound_none, bound_none, bound_none⟩
theorem timeSourceExpiry : Statement .timeSourceExpiry := fun _ =>
  ⟨bound_none, bound_none, bound_none, bound_none, bound_none, bound_none⟩
theorem syncThrottleInput (level : Bool) : Statement (.syncThrottleInput level) := fun _ =>
  ⟨bound_none, bound_none, bound_none, bound_none, bound_none, bound_none⟩
theorem linkRetrained : Statement .linkRetrained := fun _ =>
  ⟨bound_none, bound_none, bound_none, bound_none, bound_none, bound_none⟩
theorem inputReversed (reversed : Bool) : Statement (.inputReversed reversed) := fun _ =>
  ⟨bound_none, bound_none, bound_none, bound_none, bound_none, bound_none⟩
theorem sessionLockoutExpiry : Statement .sessionLockoutExpiry := fun _ =>
  ⟨bound_none, bound_none, bound_none, bound_none, bound_none, bound_none⟩
theorem challengeExpiry (q : Nat) : Statement (.challengeExpiry q) := fun _ =>
  ⟨bound_none, bound_none, bound_none, bound_none, bound_none, bound_none⟩
theorem mirrorLeafSent (sid : Nat) (handle : Handle) : Statement (.mirrorLeafSent sid handle) := fun h =>
  ⟨bound_none, bound_none, bound_none, bound_none, bound_none, bound_some (handle_ok h)⟩
theorem linkCreditGrant (port : Nat) (units : Nat) : Statement (.linkCreditGrant port units) := fun h =>
  ⟨bound_none, bound_some (of_decide_eq_true h), bound_none, bound_none, bound_none, bound_none⟩

end Sys2Proof.Laws.Args
end

