-- ==== Sys2Proof/Laws/State.lean ====
section
/-! SUPPORT. One lemma for each field of State under each update of a part of it, and what a read gives after a write of the
same part. No later proof need unfold a record update. -/

namespace Sys2Proof.Machine

/-! ### Lists -/

theorem modAt_getD_same {α : Type} (l : List α) (i : Nat) (f : α → α) (d : α) (h : i < l.length) :
    (modAt l i f).getD i d = f (l.getD i d) := by
  induction l generalizing i with
  | nil => simp at h
  | cons a t ih => cases i with
    | zero => rfl
    | succ n => simpa [modAt] using ih n (by simpa using h)

theorem modAt_getD_other {α : Type} (l : List α) (i j : Nat) (f : α → α) (d : α) (h : j ≠ i) :
    (modAt l i f).getD j d = l.getD j d := by
  induction l generalizing i j with
  | nil => rfl
  | cons a t ih => cases i with
    | zero => cases j with
      | zero => exact absurd rfl h
      | succ m => rfl
    | succ n => cases j with
      | zero => rfl
      | succ m => simpa [modAt] using ih n m (by omega)

theorem find?_filter_key {α : Type} (p : Nat → Bool) (k : Nat) (l : List (Nat × α)) :
    (l.filter fun e => p e.1).find? (fun e => e.1 == k) = if p k then l.find? (fun e => e.1 == k) else none := by
  induction l with
  | nil => simp
  | cons a t ih =>
    by_cases ha : a.1 = k
    · subst ha
      by_cases hp : p a.1 <;> simp [hp, ih]
    · by_cases hp : p a.1 <;> simp [hp, ih, ha]

theorem alGet_alSet_same {α : Type} [DecidableEq α] (d v : α) (k : Nat) (l : List (Nat × α)) :
    alGet d k (alSet d k v l) = v := by
  have h1 := find?_filter_key (fun n => decide (n < k)) k l
  have h2 := find?_filter_key (fun n => decide (k < n)) k l
  by_cases hv : v = d
  · subst hv
    simp [alGet, alSet, List.find?_append, h1, h2]
  · simp [alGet, alSet, List.find?_append, h1, hv]

theorem alGet_alSet_other {α : Type} [DecidableEq α] (d v : α) (k j : Nat) (l : List (Nat × α)) (h : j ≠ k) :
    alGet d j (alSet d k v l) = alGet d j l := by
  have h1 := find?_filter_key (fun n => decide (n < k)) j l
  have h2 := find?_filter_key (fun n => decide (k < n)) j l
  have hm : (if v = d then ([] : List (Nat × α)) else [(k, v)]).find? (fun e => e.1 == j) = none := by
    split
    · rfl
    · simp [Ne.symm h]
  unfold alGet alSet
  rw [List.find?_append, List.find?_append, h1, h2, hm]
  by_cases hl : j < k
  · have : ¬ k < j := by omega
    simp [hl, this]
  · have : k < j := by omega
    simp [hl, this]

/-! ### Reads after writes -/

theorem stream_setStream (s : State) (i : Nat) (e : Stream) : (s.setStream i e).stream i = e := alGet_alSet_same _ _ _ _

theorem stream_setStream_other (s : State) (i j : Nat) (e : Stream) (h : j ≠ i) :
    (s.setStream i e).stream j = s.stream j := alGet_alSet_other _ _ _ _ _ h

theorem req_setReq (s : State) (k : Nat) (r : Req) : (s.setReq k r).req k = r := alGet_alSet_same _ _ _ _

theorem pset_modPSet (s : State) (n : Nat) (f : PSet → PSet) : (s.modPSet n f).pset n = f (s.pset n) := alGet_alSet_same _ _ _ _

theorem pset_modPSet_other (s : State) (n m : Nat) (f : PSet → PSet) (h : m ≠ n) :
    (s.modPSet n f).pset m = s.pset m := alGet_alSet_other _ _ _ _ _ h

theorem chan_modChan (s : State) (c : Nat) (f : Channel64 → Channel64) (h : c < s.channels.length) :
    (s.modChan c f).chan c = f (s.chan c) := modAt_getD_same _ _ _ _ h

theorem chan_modChan_other (s : State) (c n : Nat) (f : Channel64 → Channel64) (h : n ≠ c) :
    (s.modChan c f).chan n = s.chan n := modAt_getD_other _ _ _ _ _ h

theorem fport_modFPort (s : State) (p : Nat) (f : FPort → FPort) (h : p < s.fabric.ports.length) :
    (s.modFPort p f).fport p = f (s.fport p) := modAt_getD_same _ _ _ _ h

theorem fport_modFPort_other (s : State) (p r : Nat) (f : FPort → FPort) (h : r ≠ p) :
    (s.modFPort p f).fport r = s.fport r := modAt_getD_other _ _ _ _ _ h

/-- A port whose mode is set, or which has a state, is one of the module's ports. -/
theorem fport_exists (s : State) (p : Nat) (h : (s.fport p).mode ≠ 0 ∨ (s.fport p).state ≠ 0) : p < s.fabric.ports.length := by
  rcases Nat.lt_or_ge p s.fabric.ports.length with hp | hp
  · exact hp
  · simp [State.fport, List.getElem?_eq_none hp, List.getD_eq_getElem?_getD] at h

/-- A channel with an entry is one of the module's channels. -/
theorem chan_exists (s : State) (c : Nat) (h : (s.chan c).mode ≠ 0) : c < s.channels.length := by
  rcases Nat.lt_or_ge c s.channels.length with hc | hc
  · exact hc
  · refine absurd ?_ h
    have e : s.chan c = Channel64.reset := by simp [State.chan, List.getElem?_eq_none hc, List.getD_eq_getElem?_getD]
    rw [e]
    decide

/-! ### emit -/

@[simp] theorem State.emit_pending (s : State) (o : Out) : (s.emit o).pending = s.pending := rfl
@[simp] theorem State.emit_draws (s : State) (o : Out) : (s.emit o).draws = s.draws := rfl
@[simp] theorem State.emit_port (s : State) (o : Out) : (s.emit o).port = s.port := rfl
@[simp] theorem State.emit_nor (s : State) (o : Out) : (s.emit o).nor = s.nor := rfl
@[simp] theorem State.emit_ident (s : State) (o : Out) : (s.emit o).ident = s.ident := rfl
@[simp] theorem State.emit_errata (s : State) (o : Out) : (s.emit o).errata = s.errata := rfl
@[simp] theorem State.emit_sects (s : State) (o : Out) : (s.emit o).sects = s.sects := rfl
@[simp] theorem State.emit_cores (s : State) (o : Out) : (s.emit o).cores = s.cores := rfl
@[simp] theorem State.emit_cap (s : State) (o : Out) : (s.emit o).cap = s.cap := rfl
@[simp] theorem State.emit_coreMem (s : State) (o : Out) : (s.emit o).coreMem = s.coreMem := rfl
@[simp] theorem State.emit_coreLines (s : State) (o : Out) : (s.emit o).coreLines = s.coreLines := rfl
@[simp] theorem State.emit_sectMem (s : State) (o : Out) : (s.emit o).sectMem = s.sectMem := rfl
@[simp] theorem State.emit_sectLines (s : State) (o : Out) : (s.emit o).sectLines = s.sectLines := rfl
@[simp] theorem State.emit_caskRaw (s : State) (o : Out) : (s.emit o).caskRaw = s.caskRaw := rfl
@[simp] theorem State.emit_mem (s : State) (o : Out) : (s.emit o).mem = s.mem := rfl
@[simp] theorem State.emit_rack (s : State) (o : Out) : (s.emit o).rack = s.rack := rfl
@[simp] theorem State.emit_cellar (s : State) (o : Out) : (s.emit o).cellar = s.cellar := rfl
@[simp] theorem State.emit_streams (s : State) (o : Out) : (s.emit o).streams = s.streams := rfl
@[simp] theorem State.emit_slots (s : State) (o : Out) : (s.emit o).slots = s.slots := rfl
@[simp] theorem State.emit_reqs (s : State) (o : Out) : (s.emit o).reqs = s.reqs := rfl
@[simp] theorem State.emit_parts (s : State) (o : Out) : (s.emit o).parts = s.parts := rfl
@[simp] theorem State.emit_cmds (s : State) (o : Out) : (s.emit o).cmds = s.cmds := rfl
@[simp] theorem State.emit_nextCmd (s : State) (o : Out) : (s.emit o).nextCmd = s.nextCmd := rfl
@[simp] theorem State.emit_logs (s : State) (o : Out) : (s.emit o).logs = s.logs := rfl
@[simp] theorem State.emit_fabric (s : State) (o : Out) : (s.emit o).fabric = s.fabric := rfl
@[simp] theorem State.emit_channels (s : State) (o : Out) : (s.emit o).channels = s.channels := rfl
@[simp] theorem State.emit_malt (s : State) (o : Out) : (s.emit o).malt = s.malt := rfl
@[simp] theorem State.emit_buddy (s : State) (o : Out) : (s.emit o).buddy = s.buddy := rfl
@[simp] theorem State.emit_power (s : State) (o : Out) : (s.emit o).power = s.power := rfl
@[simp] theorem State.emit_time (s : State) (o : Out) : (s.emit o).time = s.time := rfl
@[simp] theorem State.emit_board (s : State) (o : Out) : (s.emit o).board = s.board := rfl

/-! ### modFabric -/

@[simp] theorem State.modFabric_pending (s : State) (f : Fabric → Fabric) : (s.modFabric f).pending = s.pending := rfl
@[simp] theorem State.modFabric_out (s : State) (f : Fabric → Fabric) : (s.modFabric f).out = s.out := rfl
@[simp] theorem State.modFabric_draws (s : State) (f : Fabric → Fabric) : (s.modFabric f).draws = s.draws := rfl
@[simp] theorem State.modFabric_port (s : State) (f : Fabric → Fabric) : (s.modFabric f).port = s.port := rfl
@[simp] theorem State.modFabric_nor (s : State) (f : Fabric → Fabric) : (s.modFabric f).nor = s.nor := rfl
@[simp] theorem State.modFabric_ident (s : State) (f : Fabric → Fabric) : (s.modFabric f).ident = s.ident := rfl
@[simp] theorem State.modFabric_errata (s : State) (f : Fabric → Fabric) : (s.modFabric f).errata = s.errata := rfl
@[simp] theorem State.modFabric_sects (s : State) (f : Fabric → Fabric) : (s.modFabric f).sects = s.sects := rfl
@[simp] theorem State.modFabric_cores (s : State) (f : Fabric → Fabric) : (s.modFabric f).cores = s.cores := rfl
@[simp] theorem State.modFabric_cap (s : State) (f : Fabric → Fabric) : (s.modFabric f).cap = s.cap := rfl
@[simp] theorem State.modFabric_coreMem (s : State) (f : Fabric → Fabric) : (s.modFabric f).coreMem = s.coreMem := rfl
@[simp] theorem State.modFabric_coreLines (s : State) (f : Fabric → Fabric) : (s.modFabric f).coreLines = s.coreLines := rfl
@[simp] theorem State.modFabric_sectMem (s : State) (f : Fabric → Fabric) : (s.modFabric f).sectMem = s.sectMem := rfl
@[simp] theorem State.modFabric_sectLines (s : State) (f : Fabric → Fabric) : (s.modFabric f).sectLines = s.sectLines := rfl
@[simp] theorem State.modFabric_caskRaw (s : State) (f : Fabric → Fabric) : (s.modFabric f).caskRaw = s.caskRaw := rfl
@[simp] theorem State.modFabric_mem (s : State) (f : Fabric → Fabric) : (s.modFabric f).mem = s.mem := rfl
@[simp] theorem State.modFabric_rack (s : State) (f : Fabric → Fabric) : (s.modFabric f).rack = s.rack := rfl
@[simp] theorem State.modFabric_cellar (s : State) (f : Fabric → Fabric) : (s.modFabric f).cellar = s.cellar := rfl
@[simp] theorem State.modFabric_streams (s : State) (f : Fabric → Fabric) : (s.modFabric f).streams = s.streams := rfl
@[simp] theorem State.modFabric_slots (s : State) (f : Fabric → Fabric) : (s.modFabric f).slots = s.slots := rfl
@[simp] theorem State.modFabric_reqs (s : State) (f : Fabric → Fabric) : (s.modFabric f).reqs = s.reqs := rfl
@[simp] theorem State.modFabric_parts (s : State) (f : Fabric → Fabric) : (s.modFabric f).parts = s.parts := rfl
@[simp] theorem State.modFabric_cmds (s : State) (f : Fabric → Fabric) : (s.modFabric f).cmds = s.cmds := rfl
@[simp] theorem State.modFabric_nextCmd (s : State) (f : Fabric → Fabric) : (s.modFabric f).nextCmd = s.nextCmd := rfl
@[simp] theorem State.modFabric_logs (s : State) (f : Fabric → Fabric) : (s.modFabric f).logs = s.logs := rfl
@[simp] theorem State.modFabric_channels (s : State) (f : Fabric → Fabric) : (s.modFabric f).channels = s.channels := rfl
@[simp] theorem State.modFabric_malt (s : State) (f : Fabric → Fabric) : (s.modFabric f).malt = s.malt := rfl
@[simp] theorem State.modFabric_buddy (s : State) (f : Fabric → Fabric) : (s.modFabric f).buddy = s.buddy := rfl
@[simp] theorem State.modFabric_power (s : State) (f : Fabric → Fabric) : (s.modFabric f).power = s.power := rfl
@[simp] theorem State.modFabric_time (s : State) (f : Fabric → Fabric) : (s.modFabric f).time = s.time := rfl
@[simp] theorem State.modFabric_board (s : State) (f : Fabric → Fabric) : (s.modFabric f).board = s.board := rfl

/-! ### modFPort -/

@[simp] theorem State.modFPort_pending (s : State) (p : Nat) (f : FPort → FPort) : (s.modFPort p f).pending = s.pending := rfl
@[simp] theorem State.modFPort_out (s : State) (p : Nat) (f : FPort → FPort) : (s.modFPort p f).out = s.out := rfl
@[simp] theorem State.modFPort_draws (s : State) (p : Nat) (f : FPort → FPort) : (s.modFPort p f).draws = s.draws := rfl
@[simp] theorem State.modFPort_port (s : State) (p : Nat) (f : FPort → FPort) : (s.modFPort p f).port = s.port := rfl
@[simp] theorem State.modFPort_nor (s : State) (p : Nat) (f : FPort → FPort) : (s.modFPort p f).nor = s.nor := rfl
@[simp] theorem State.modFPort_ident (s : State) (p : Nat) (f : FPort → FPort) : (s.modFPort p f).ident = s.ident := rfl
@[simp] theorem State.modFPort_errata (s : State) (p : Nat) (f : FPort → FPort) : (s.modFPort p f).errata = s.errata := rfl
@[simp] theorem State.modFPort_sects (s : State) (p : Nat) (f : FPort → FPort) : (s.modFPort p f).sects = s.sects := rfl
@[simp] theorem State.modFPort_cores (s : State) (p : Nat) (f : FPort → FPort) : (s.modFPort p f).cores = s.cores := rfl
@[simp] theorem State.modFPort_cap (s : State) (p : Nat) (f : FPort → FPort) : (s.modFPort p f).cap = s.cap := rfl
@[simp] theorem State.modFPort_coreMem (s : State) (p : Nat) (f : FPort → FPort) : (s.modFPort p f).coreMem = s.coreMem := rfl
@[simp] theorem State.modFPort_coreLines (s : State) (p : Nat) (f : FPort → FPort) : (s.modFPort p f).coreLines = s.coreLines := rfl
@[simp] theorem State.modFPort_sectMem (s : State) (p : Nat) (f : FPort → FPort) : (s.modFPort p f).sectMem = s.sectMem := rfl
@[simp] theorem State.modFPort_sectLines (s : State) (p : Nat) (f : FPort → FPort) : (s.modFPort p f).sectLines = s.sectLines := rfl
@[simp] theorem State.modFPort_caskRaw (s : State) (p : Nat) (f : FPort → FPort) : (s.modFPort p f).caskRaw = s.caskRaw := rfl
@[simp] theorem State.modFPort_mem (s : State) (p : Nat) (f : FPort → FPort) : (s.modFPort p f).mem = s.mem := rfl
@[simp] theorem State.modFPort_rack (s : State) (p : Nat) (f : FPort → FPort) : (s.modFPort p f).rack = s.rack := rfl
@[simp] theorem State.modFPort_cellar (s : State) (p : Nat) (f : FPort → FPort) : (s.modFPort p f).cellar = s.cellar := rfl
@[simp] theorem State.modFPort_streams (s : State) (p : Nat) (f : FPort → FPort) : (s.modFPort p f).streams = s.streams := rfl
@[simp] theorem State.modFPort_slots (s : State) (p : Nat) (f : FPort → FPort) : (s.modFPort p f).slots = s.slots := rfl
@[simp] theorem State.modFPort_reqs (s : State) (p : Nat) (f : FPort → FPort) : (s.modFPort p f).reqs = s.reqs := rfl
@[simp] theorem State.modFPort_parts (s : State) (p : Nat) (f : FPort → FPort) : (s.modFPort p f).parts = s.parts := rfl
@[simp] theorem State.modFPort_cmds (s : State) (p : Nat) (f : FPort → FPort) : (s.modFPort p f).cmds = s.cmds := rfl
@[simp] theorem State.modFPort_nextCmd (s : State) (p : Nat) (f : FPort → FPort) : (s.modFPort p f).nextCmd = s.nextCmd := rfl
@[simp] theorem State.modFPort_logs (s : State) (p : Nat) (f : FPort → FPort) : (s.modFPort p f).logs = s.logs := rfl
@[simp] theorem State.modFPort_channels (s : State) (p : Nat) (f : FPort → FPort) : (s.modFPort p f).channels = s.channels := rfl
@[simp] theorem State.modFPort_malt (s : State) (p : Nat) (f : FPort → FPort) : (s.modFPort p f).malt = s.malt := rfl
@[simp] theorem State.modFPort_buddy (s : State) (p : Nat) (f : FPort → FPort) : (s.modFPort p f).buddy = s.buddy := rfl
@[simp] theorem State.modFPort_power (s : State) (p : Nat) (f : FPort → FPort) : (s.modFPort p f).power = s.power := rfl
@[simp] theorem State.modFPort_time (s : State) (p : Nat) (f : FPort → FPort) : (s.modFPort p f).time = s.time := rfl
@[simp] theorem State.modFPort_board (s : State) (p : Nat) (f : FPort → FPort) : (s.modFPort p f).board = s.board := rfl

/-! ### dropAt -/

@[simp] theorem State.dropAt_pending (s : State) (p : Nat) : (s.dropAt p).pending = s.pending := rfl
@[simp] theorem State.dropAt_out (s : State) (p : Nat) : (s.dropAt p).out = s.out := rfl
@[simp] theorem State.dropAt_draws (s : State) (p : Nat) : (s.dropAt p).draws = s.draws := rfl
@[simp] theorem State.dropAt_port (s : State) (p : Nat) : (s.dropAt p).port = s.port := rfl
@[simp] theorem State.dropAt_nor (s : State) (p : Nat) : (s.dropAt p).nor = s.nor := rfl
@[simp] theorem State.dropAt_ident (s : State) (p : Nat) : (s.dropAt p).ident = s.ident := rfl
@[simp] theorem State.dropAt_errata (s : State) (p : Nat) : (s.dropAt p).errata = s.errata := rfl
@[simp] theorem State.dropAt_sects (s : State) (p : Nat) : (s.dropAt p).sects = s.sects := rfl
@[simp] theorem State.dropAt_cores (s : State) (p : Nat) : (s.dropAt p).cores = s.cores := rfl
@[simp] theorem State.dropAt_cap (s : State) (p : Nat) : (s.dropAt p).cap = s.cap := rfl
@[simp] theorem State.dropAt_coreMem (s : State) (p : Nat) : (s.dropAt p).coreMem = s.coreMem := rfl
@[simp] theorem State.dropAt_coreLines (s : State) (p : Nat) : (s.dropAt p).coreLines = s.coreLines := rfl
@[simp] theorem State.dropAt_sectMem (s : State) (p : Nat) : (s.dropAt p).sectMem = s.sectMem := rfl
@[simp] theorem State.dropAt_sectLines (s : State) (p : Nat) : (s.dropAt p).sectLines = s.sectLines := rfl
@[simp] theorem State.dropAt_caskRaw (s : State) (p : Nat) : (s.dropAt p).caskRaw = s.caskRaw := rfl
@[simp] theorem State.dropAt_mem (s : State) (p : Nat) : (s.dropAt p).mem = s.mem := rfl
@[simp] theorem State.dropAt_rack (s : State) (p : Nat) : (s.dropAt p).rack = s.rack := rfl
@[simp] theorem State.dropAt_cellar (s : State) (p : Nat) : (s.dropAt p).cellar = s.cellar := rfl
@[simp] theorem State.dropAt_streams (s : State) (p : Nat) : (s.dropAt p).streams = s.streams := rfl
@[simp] theorem State.dropAt_slots (s : State) (p : Nat) : (s.dropAt p).slots = s.slots := rfl
@[simp] theorem State.dropAt_reqs (s : State) (p : Nat) : (s.dropAt p).reqs = s.reqs := rfl
@[simp] theorem State.dropAt_parts (s : State) (p : Nat) : (s.dropAt p).parts = s.parts := rfl
@[simp] theorem State.dropAt_cmds (s : State) (p : Nat) : (s.dropAt p).cmds = s.cmds := rfl
@[simp] theorem State.dropAt_nextCmd (s : State) (p : Nat) : (s.dropAt p).nextCmd = s.nextCmd := rfl
@[simp] theorem State.dropAt_logs (s : State) (p : Nat) : (s.dropAt p).logs = s.logs := rfl
@[simp] theorem State.dropAt_channels (s : State) (p : Nat) : (s.dropAt p).channels = s.channels := rfl
@[simp] theorem State.dropAt_malt (s : State) (p : Nat) : (s.dropAt p).malt = s.malt := rfl
@[simp] theorem State.dropAt_buddy (s : State) (p : Nat) : (s.dropAt p).buddy = s.buddy := rfl
@[simp] theorem State.dropAt_power (s : State) (p : Nat) : (s.dropAt p).power = s.power := rfl
@[simp] theorem State.dropAt_time (s : State) (p : Nat) : (s.dropAt p).time = s.time := rfl
@[simp] theorem State.dropAt_board (s : State) (p : Nat) : (s.dropAt p).board = s.board := rfl

/-! ### dropRx -/

@[simp] theorem State.dropRx_pending (s : State) (rq : Nat) : (s.dropRx rq).pending = s.pending := rfl
@[simp] theorem State.dropRx_out (s : State) (rq : Nat) : (s.dropRx rq).out = s.out := rfl
@[simp] theorem State.dropRx_draws (s : State) (rq : Nat) : (s.dropRx rq).draws = s.draws := rfl
@[simp] theorem State.dropRx_port (s : State) (rq : Nat) : (s.dropRx rq).port = s.port := rfl
@[simp] theorem State.dropRx_nor (s : State) (rq : Nat) : (s.dropRx rq).nor = s.nor := rfl
@[simp] theorem State.dropRx_ident (s : State) (rq : Nat) : (s.dropRx rq).ident = s.ident := rfl
@[simp] theorem State.dropRx_errata (s : State) (rq : Nat) : (s.dropRx rq).errata = s.errata := rfl
@[simp] theorem State.dropRx_sects (s : State) (rq : Nat) : (s.dropRx rq).sects = s.sects := rfl
@[simp] theorem State.dropRx_cores (s : State) (rq : Nat) : (s.dropRx rq).cores = s.cores := rfl
@[simp] theorem State.dropRx_cap (s : State) (rq : Nat) : (s.dropRx rq).cap = s.cap := rfl
@[simp] theorem State.dropRx_coreMem (s : State) (rq : Nat) : (s.dropRx rq).coreMem = s.coreMem := rfl
@[simp] theorem State.dropRx_coreLines (s : State) (rq : Nat) : (s.dropRx rq).coreLines = s.coreLines := rfl
@[simp] theorem State.dropRx_sectMem (s : State) (rq : Nat) : (s.dropRx rq).sectMem = s.sectMem := rfl
@[simp] theorem State.dropRx_sectLines (s : State) (rq : Nat) : (s.dropRx rq).sectLines = s.sectLines := rfl
@[simp] theorem State.dropRx_caskRaw (s : State) (rq : Nat) : (s.dropRx rq).caskRaw = s.caskRaw := rfl
@[simp] theorem State.dropRx_mem (s : State) (rq : Nat) : (s.dropRx rq).mem = s.mem := rfl
@[simp] theorem State.dropRx_rack (s : State) (rq : Nat) : (s.dropRx rq).rack = s.rack := rfl
@[simp] theorem State.dropRx_cellar (s : State) (rq : Nat) : (s.dropRx rq).cellar = s.cellar := rfl
@[simp] theorem State.dropRx_streams (s : State) (rq : Nat) : (s.dropRx rq).streams = s.streams := rfl
@[simp] theorem State.dropRx_slots (s : State) (rq : Nat) : (s.dropRx rq).slots = s.slots := rfl
@[simp] theorem State.dropRx_reqs (s : State) (rq : Nat) : (s.dropRx rq).reqs = s.reqs := rfl
@[simp] theorem State.dropRx_parts (s : State) (rq : Nat) : (s.dropRx rq).parts = s.parts := rfl
@[simp] theorem State.dropRx_cmds (s : State) (rq : Nat) : (s.dropRx rq).cmds = s.cmds := rfl
@[simp] theorem State.dropRx_nextCmd (s : State) (rq : Nat) : (s.dropRx rq).nextCmd = s.nextCmd := rfl
@[simp] theorem State.dropRx_logs (s : State) (rq : Nat) : (s.dropRx rq).logs = s.logs := rfl
@[simp] theorem State.dropRx_channels (s : State) (rq : Nat) : (s.dropRx rq).channels = s.channels := rfl
@[simp] theorem State.dropRx_malt (s : State) (rq : Nat) : (s.dropRx rq).malt = s.malt := rfl
@[simp] theorem State.dropRx_buddy (s : State) (rq : Nat) : (s.dropRx rq).buddy = s.buddy := rfl
@[simp] theorem State.dropRx_power (s : State) (rq : Nat) : (s.dropRx rq).power = s.power := rfl
@[simp] theorem State.dropRx_time (s : State) (rq : Nat) : (s.dropRx rq).time = s.time := rfl
@[simp] theorem State.dropRx_board (s : State) (rq : Nat) : (s.dropRx rq).board = s.board := rfl

/-! ### keep -/

@[simp] theorem State.keep_pending (s : State) (p : Parcel) : (s.keep p).pending = s.pending := rfl
@[simp] theorem State.keep_out (s : State) (p : Parcel) : (s.keep p).out = s.out := rfl
@[simp] theorem State.keep_draws (s : State) (p : Parcel) : (s.keep p).draws = s.draws := rfl
@[simp] theorem State.keep_port (s : State) (p : Parcel) : (s.keep p).port = s.port := rfl
@[simp] theorem State.keep_nor (s : State) (p : Parcel) : (s.keep p).nor = s.nor := rfl
@[simp] theorem State.keep_ident (s : State) (p : Parcel) : (s.keep p).ident = s.ident := rfl
@[simp] theorem State.keep_errata (s : State) (p : Parcel) : (s.keep p).errata = s.errata := rfl
@[simp] theorem State.keep_sects (s : State) (p : Parcel) : (s.keep p).sects = s.sects := rfl
@[simp] theorem State.keep_cores (s : State) (p : Parcel) : (s.keep p).cores = s.cores := rfl
@[simp] theorem State.keep_cap (s : State) (p : Parcel) : (s.keep p).cap = s.cap := rfl
@[simp] theorem State.keep_coreMem (s : State) (p : Parcel) : (s.keep p).coreMem = s.coreMem := rfl
@[simp] theorem State.keep_coreLines (s : State) (p : Parcel) : (s.keep p).coreLines = s.coreLines := rfl
@[simp] theorem State.keep_sectMem (s : State) (p : Parcel) : (s.keep p).sectMem = s.sectMem := rfl
@[simp] theorem State.keep_sectLines (s : State) (p : Parcel) : (s.keep p).sectLines = s.sectLines := rfl
@[simp] theorem State.keep_caskRaw (s : State) (p : Parcel) : (s.keep p).caskRaw = s.caskRaw := rfl
@[simp] theorem State.keep_mem (s : State) (p : Parcel) : (s.keep p).mem = s.mem := rfl
@[simp] theorem State.keep_rack (s : State) (p : Parcel) : (s.keep p).rack = s.rack := rfl
@[simp] theorem State.keep_cellar (s : State) (p : Parcel) : (s.keep p).cellar = s.cellar := rfl
@[simp] theorem State.keep_streams (s : State) (p : Parcel) : (s.keep p).streams = s.streams := rfl
@[simp] theorem State.keep_slots (s : State) (p : Parcel) : (s.keep p).slots = s.slots := rfl
@[simp] theorem State.keep_reqs (s : State) (p : Parcel) : (s.keep p).reqs = s.reqs := rfl
@[simp] theorem State.keep_parts (s : State) (p : Parcel) : (s.keep p).parts = s.parts := rfl
@[simp] theorem State.keep_cmds (s : State) (p : Parcel) : (s.keep p).cmds = s.cmds := rfl
@[simp] theorem State.keep_nextCmd (s : State) (p : Parcel) : (s.keep p).nextCmd = s.nextCmd := rfl
@[simp] theorem State.keep_logs (s : State) (p : Parcel) : (s.keep p).logs = s.logs := rfl
@[simp] theorem State.keep_channels (s : State) (p : Parcel) : (s.keep p).channels = s.channels := rfl
@[simp] theorem State.keep_malt (s : State) (p : Parcel) : (s.keep p).malt = s.malt := rfl
@[simp] theorem State.keep_buddy (s : State) (p : Parcel) : (s.keep p).buddy = s.buddy := rfl
@[simp] theorem State.keep_power (s : State) (p : Parcel) : (s.keep p).power = s.power := rfl
@[simp] theorem State.keep_time (s : State) (p : Parcel) : (s.keep p).time = s.time := rfl
@[simp] theorem State.keep_board (s : State) (p : Parcel) : (s.keep p).board = s.board := rfl

/-! ### listUnreachable -/

@[simp] theorem State.listUnreachable_pending (s : State) (a : BitVec 20) : (s.listUnreachable a).pending = s.pending := rfl
@[simp] theorem State.listUnreachable_out (s : State) (a : BitVec 20) : (s.listUnreachable a).out = s.out := rfl
@[simp] theorem State.listUnreachable_draws (s : State) (a : BitVec 20) : (s.listUnreachable a).draws = s.draws := rfl
@[simp] theorem State.listUnreachable_port (s : State) (a : BitVec 20) : (s.listUnreachable a).port = s.port := rfl
@[simp] theorem State.listUnreachable_nor (s : State) (a : BitVec 20) : (s.listUnreachable a).nor = s.nor := rfl
@[simp] theorem State.listUnreachable_ident (s : State) (a : BitVec 20) : (s.listUnreachable a).ident = s.ident := rfl
@[simp] theorem State.listUnreachable_errata (s : State) (a : BitVec 20) : (s.listUnreachable a).errata = s.errata := rfl
@[simp] theorem State.listUnreachable_sects (s : State) (a : BitVec 20) : (s.listUnreachable a).sects = s.sects := rfl
@[simp] theorem State.listUnreachable_cores (s : State) (a : BitVec 20) : (s.listUnreachable a).cores = s.cores := rfl
@[simp] theorem State.listUnreachable_cap (s : State) (a : BitVec 20) : (s.listUnreachable a).cap = s.cap := rfl
@[simp] theorem State.listUnreachable_coreMem (s : State) (a : BitVec 20) : (s.listUnreachable a).coreMem = s.coreMem := rfl
@[simp] theorem State.listUnreachable_coreLines (s : State) (a : BitVec 20) : (s.listUnreachable a).coreLines = s.coreLines := rfl
@[simp] theorem State.listUnreachable_sectMem (s : State) (a : BitVec 20) : (s.listUnreachable a).sectMem = s.sectMem := rfl
@[simp] theorem State.listUnreachable_sectLines (s : State) (a : BitVec 20) : (s.listUnreachable a).sectLines = s.sectLines := rfl
@[simp] theorem State.listUnreachable_caskRaw (s : State) (a : BitVec 20) : (s.listUnreachable a).caskRaw = s.caskRaw := rfl
@[simp] theorem State.listUnreachable_mem (s : State) (a : BitVec 20) : (s.listUnreachable a).mem = s.mem := rfl
@[simp] theorem State.listUnreachable_rack (s : State) (a : BitVec 20) : (s.listUnreachable a).rack = s.rack := rfl
@[simp] theorem State.listUnreachable_cellar (s : State) (a : BitVec 20) : (s.listUnreachable a).cellar = s.cellar := rfl
@[simp] theorem State.listUnreachable_streams (s : State) (a : BitVec 20) : (s.listUnreachable a).streams = s.streams := rfl
@[simp] theorem State.listUnreachable_slots (s : State) (a : BitVec 20) : (s.listUnreachable a).slots = s.slots := rfl
@[simp] theorem State.listUnreachable_reqs (s : State) (a : BitVec 20) : (s.listUnreachable a).reqs = s.reqs := rfl
@[simp] theorem State.listUnreachable_parts (s : State) (a : BitVec 20) : (s.listUnreachable a).parts = s.parts := rfl
@[simp] theorem State.listUnreachable_cmds (s : State) (a : BitVec 20) : (s.listUnreachable a).cmds = s.cmds := rfl
@[simp] theorem State.listUnreachable_nextCmd (s : State) (a : BitVec 20) : (s.listUnreachable a).nextCmd = s.nextCmd := rfl
@[simp] theorem State.listUnreachable_logs (s : State) (a : BitVec 20) : (s.listUnreachable a).logs = s.logs := rfl
@[simp] theorem State.listUnreachable_channels (s : State) (a : BitVec 20) : (s.listUnreachable a).channels = s.channels := rfl
@[simp] theorem State.listUnreachable_malt (s : State) (a : BitVec 20) : (s.listUnreachable a).malt = s.malt := rfl
@[simp] theorem State.listUnreachable_buddy (s : State) (a : BitVec 20) : (s.listUnreachable a).buddy = s.buddy := rfl
@[simp] theorem State.listUnreachable_power (s : State) (a : BitVec 20) : (s.listUnreachable a).power = s.power := rfl
@[simp] theorem State.listUnreachable_time (s : State) (a : BitVec 20) : (s.listUnreachable a).time = s.time := rfl
@[simp] theorem State.listUnreachable_board (s : State) (a : BitVec 20) : (s.listUnreachable a).board = s.board := rfl

/-! ### modCvu -/

@[simp] theorem State.modCvu_pending (s : State) (p : Nat) (f : Cvu → Cvu) : (s.modCvu p f).pending = s.pending := rfl
@[simp] theorem State.modCvu_out (s : State) (p : Nat) (f : Cvu → Cvu) : (s.modCvu p f).out = s.out := rfl
@[simp] theorem State.modCvu_draws (s : State) (p : Nat) (f : Cvu → Cvu) : (s.modCvu p f).draws = s.draws := rfl
@[simp] theorem State.modCvu_port (s : State) (p : Nat) (f : Cvu → Cvu) : (s.modCvu p f).port = s.port := rfl
@[simp] theorem State.modCvu_nor (s : State) (p : Nat) (f : Cvu → Cvu) : (s.modCvu p f).nor = s.nor := rfl
@[simp] theorem State.modCvu_ident (s : State) (p : Nat) (f : Cvu → Cvu) : (s.modCvu p f).ident = s.ident := rfl
@[simp] theorem State.modCvu_errata (s : State) (p : Nat) (f : Cvu → Cvu) : (s.modCvu p f).errata = s.errata := rfl
@[simp] theorem State.modCvu_sects (s : State) (p : Nat) (f : Cvu → Cvu) : (s.modCvu p f).sects = s.sects := rfl
@[simp] theorem State.modCvu_cores (s : State) (p : Nat) (f : Cvu → Cvu) : (s.modCvu p f).cores = s.cores := rfl
@[simp] theorem State.modCvu_cap (s : State) (p : Nat) (f : Cvu → Cvu) : (s.modCvu p f).cap = s.cap := rfl
@[simp] theorem State.modCvu_coreMem (s : State) (p : Nat) (f : Cvu → Cvu) : (s.modCvu p f).coreMem = s.coreMem := rfl
@[simp] theorem State.modCvu_coreLines (s : State) (p : Nat) (f : Cvu → Cvu) : (s.modCvu p f).coreLines = s.coreLines := rfl
@[simp] theorem State.modCvu_sectMem (s : State) (p : Nat) (f : Cvu → Cvu) : (s.modCvu p f).sectMem = s.sectMem := rfl
@[simp] theorem State.modCvu_sectLines (s : State) (p : Nat) (f : Cvu → Cvu) : (s.modCvu p f).sectLines = s.sectLines := rfl
@[simp] theorem State.modCvu_caskRaw (s : State) (p : Nat) (f : Cvu → Cvu) : (s.modCvu p f).caskRaw = s.caskRaw := rfl
@[simp] theorem State.modCvu_mem (s : State) (p : Nat) (f : Cvu → Cvu) : (s.modCvu p f).mem = s.mem := rfl
@[simp] theorem State.modCvu_rack (s : State) (p : Nat) (f : Cvu → Cvu) : (s.modCvu p f).rack = s.rack := rfl
@[simp] theorem State.modCvu_cellar (s : State) (p : Nat) (f : Cvu → Cvu) : (s.modCvu p f).cellar = s.cellar := rfl
@[simp] theorem State.modCvu_streams (s : State) (p : Nat) (f : Cvu → Cvu) : (s.modCvu p f).streams = s.streams := rfl
@[simp] theorem State.modCvu_slots (s : State) (p : Nat) (f : Cvu → Cvu) : (s.modCvu p f).slots = s.slots := rfl
@[simp] theorem State.modCvu_reqs (s : State) (p : Nat) (f : Cvu → Cvu) : (s.modCvu p f).reqs = s.reqs := rfl
@[simp] theorem State.modCvu_parts (s : State) (p : Nat) (f : Cvu → Cvu) : (s.modCvu p f).parts = s.parts := rfl
@[simp] theorem State.modCvu_cmds (s : State) (p : Nat) (f : Cvu → Cvu) : (s.modCvu p f).cmds = s.cmds := rfl
@[simp] theorem State.modCvu_nextCmd (s : State) (p : Nat) (f : Cvu → Cvu) : (s.modCvu p f).nextCmd = s.nextCmd := rfl
@[simp] theorem State.modCvu_logs (s : State) (p : Nat) (f : Cvu → Cvu) : (s.modCvu p f).logs = s.logs := rfl
@[simp] theorem State.modCvu_channels (s : State) (p : Nat) (f : Cvu → Cvu) : (s.modCvu p f).channels = s.channels := rfl
@[simp] theorem State.modCvu_malt (s : State) (p : Nat) (f : Cvu → Cvu) : (s.modCvu p f).malt = s.malt := rfl
@[simp] theorem State.modCvu_buddy (s : State) (p : Nat) (f : Cvu → Cvu) : (s.modCvu p f).buddy = s.buddy := rfl
@[simp] theorem State.modCvu_power (s : State) (p : Nat) (f : Cvu → Cvu) : (s.modCvu p f).power = s.power := rfl
@[simp] theorem State.modCvu_time (s : State) (p : Nat) (f : Cvu → Cvu) : (s.modCvu p f).time = s.time := rfl
@[simp] theorem State.modCvu_board (s : State) (p : Nat) (f : Cvu → Cvu) : (s.modCvu p f).board = s.board := rfl

/-! ### modTime -/

@[simp] theorem State.modTime_pending (s : State) (f : TimeBase → TimeBase) : (s.modTime f).pending = s.pending := rfl
@[simp] theorem State.modTime_out (s : State) (f : TimeBase → TimeBase) : (s.modTime f).out = s.out := rfl
@[simp] theorem State.modTime_draws (s : State) (f : TimeBase → TimeBase) : (s.modTime f).draws = s.draws := rfl
@[simp] theorem State.modTime_port (s : State) (f : TimeBase → TimeBase) : (s.modTime f).port = s.port := rfl
@[simp] theorem State.modTime_nor (s : State) (f : TimeBase → TimeBase) : (s.modTime f).nor = s.nor := rfl
@[simp] theorem State.modTime_ident (s : State) (f : TimeBase → TimeBase) : (s.modTime f).ident = s.ident := rfl
@[simp] theorem State.modTime_errata (s : State) (f : TimeBase → TimeBase) : (s.modTime f).errata = s.errata := rfl
@[simp] theorem State.modTime_sects (s : State) (f : TimeBase → TimeBase) : (s.modTime f).sects = s.sects := rfl
@[simp] theorem State.modTime_cores (s : State) (f : TimeBase → TimeBase) : (s.modTime f).cores = s.cores := rfl
@[simp] theorem State.modTime_cap (s : State) (f : TimeBase → TimeBase) : (s.modTime f).cap = s.cap := rfl
@[simp] theorem State.modTime_coreMem (s : State) (f : TimeBase → TimeBase) : (s.modTime f).coreMem = s.coreMem := rfl
@[simp] theorem State.modTime_coreLines (s : State) (f : TimeBase → TimeBase) : (s.modTime f).coreLines = s.coreLines := rfl
@[simp] theorem State.modTime_sectMem (s : State) (f : TimeBase → TimeBase) : (s.modTime f).sectMem = s.sectMem := rfl
@[simp] theorem State.modTime_sectLines (s : State) (f : TimeBase → TimeBase) : (s.modTime f).sectLines = s.sectLines := rfl
@[simp] theorem State.modTime_caskRaw (s : State) (f : TimeBase → TimeBase) : (s.modTime f).caskRaw = s.caskRaw := rfl
@[simp] theorem State.modTime_mem (s : State) (f : TimeBase → TimeBase) : (s.modTime f).mem = s.mem := rfl
@[simp] theorem State.modTime_rack (s : State) (f : TimeBase → TimeBase) : (s.modTime f).rack = s.rack := rfl
@[simp] theorem State.modTime_cellar (s : State) (f : TimeBase → TimeBase) : (s.modTime f).cellar = s.cellar := rfl
@[simp] theorem State.modTime_streams (s : State) (f : TimeBase → TimeBase) : (s.modTime f).streams = s.streams := rfl
@[simp] theorem State.modTime_slots (s : State) (f : TimeBase → TimeBase) : (s.modTime f).slots = s.slots := rfl
@[simp] theorem State.modTime_reqs (s : State) (f : TimeBase → TimeBase) : (s.modTime f).reqs = s.reqs := rfl
@[simp] theorem State.modTime_parts (s : State) (f : TimeBase → TimeBase) : (s.modTime f).parts = s.parts := rfl
@[simp] theorem State.modTime_cmds (s : State) (f : TimeBase → TimeBase) : (s.modTime f).cmds = s.cmds := rfl
@[simp] theorem State.modTime_nextCmd (s : State) (f : TimeBase → TimeBase) : (s.modTime f).nextCmd = s.nextCmd := rfl
@[simp] theorem State.modTime_logs (s : State) (f : TimeBase → TimeBase) : (s.modTime f).logs = s.logs := rfl
@[simp] theorem State.modTime_fabric (s : State) (f : TimeBase → TimeBase) : (s.modTime f).fabric = s.fabric := rfl
@[simp] theorem State.modTime_channels (s : State) (f : TimeBase → TimeBase) : (s.modTime f).channels = s.channels := rfl
@[simp] theorem State.modTime_malt (s : State) (f : TimeBase → TimeBase) : (s.modTime f).malt = s.malt := rfl
@[simp] theorem State.modTime_buddy (s : State) (f : TimeBase → TimeBase) : (s.modTime f).buddy = s.buddy := rfl
@[simp] theorem State.modTime_power (s : State) (f : TimeBase → TimeBase) : (s.modTime f).power = s.power := rfl
@[simp] theorem State.modTime_board (s : State) (f : TimeBase → TimeBase) : (s.modTime f).board = s.board := rfl

/-! ### modPower -/

@[simp] theorem State.modPower_pending (s : State) (f : Power → Power) : (s.modPower f).pending = s.pending := rfl
@[simp] theorem State.modPower_out (s : State) (f : Power → Power) : (s.modPower f).out = s.out := rfl
@[simp] theorem State.modPower_draws (s : State) (f : Power → Power) : (s.modPower f).draws = s.draws := rfl
@[simp] theorem State.modPower_port (s : State) (f : Power → Power) : (s.modPower f).port = s.port := rfl
@[simp] theorem State.modPower_nor (s : State) (f : Power → Power) : (s.modPower f).nor = s.nor := rfl
@[simp] theorem State.modPower_ident (s : State) (f : Power → Power) : (s.modPower f).ident = s.ident := rfl
@[simp] theorem State.modPower_errata (s : State) (f : Power → Power) : (s.modPower f).errata = s.errata := rfl
@[simp] theorem State.modPower_sects (s : State) (f : Power → Power) : (s.modPower f).sects = s.sects := rfl
@[simp] theorem State.modPower_cores (s : State) (f : Power → Power) : (s.modPower f).cores = s.cores := rfl
@[simp] theorem State.modPower_cap (s : State) (f : Power → Power) : (s.modPower f).cap = s.cap := rfl
@[simp] theorem State.modPower_coreMem (s : State) (f : Power → Power) : (s.modPower f).coreMem = s.coreMem := rfl
@[simp] theorem State.modPower_coreLines (s : State) (f : Power → Power) : (s.modPower f).coreLines = s.coreLines := rfl
@[simp] theorem State.modPower_sectMem (s : State) (f : Power → Power) : (s.modPower f).sectMem = s.sectMem := rfl
@[simp] theorem State.modPower_sectLines (s : State) (f : Power → Power) : (s.modPower f).sectLines = s.sectLines := rfl
@[simp] theorem State.modPower_caskRaw (s : State) (f : Power → Power) : (s.modPower f).caskRaw = s.caskRaw := rfl
@[simp] theorem State.modPower_mem (s : State) (f : Power → Power) : (s.modPower f).mem = s.mem := rfl
@[simp] theorem State.modPower_rack (s : State) (f : Power → Power) : (s.modPower f).rack = s.rack := rfl
@[simp] theorem State.modPower_cellar (s : State) (f : Power → Power) : (s.modPower f).cellar = s.cellar := rfl
@[simp] theorem State.modPower_streams (s : State) (f : Power → Power) : (s.modPower f).streams = s.streams := rfl
@[simp] theorem State.modPower_slots (s : State) (f : Power → Power) : (s.modPower f).slots = s.slots := rfl
@[simp] theorem State.modPower_reqs (s : State) (f : Power → Power) : (s.modPower f).reqs = s.reqs := rfl
@[simp] theorem State.modPower_parts (s : State) (f : Power → Power) : (s.modPower f).parts = s.parts := rfl
@[simp] theorem State.modPower_cmds (s : State) (f : Power → Power) : (s.modPower f).cmds = s.cmds := rfl
@[simp] theorem State.modPower_nextCmd (s : State) (f : Power → Power) : (s.modPower f).nextCmd = s.nextCmd := rfl
@[simp] theorem State.modPower_logs (s : State) (f : Power → Power) : (s.modPower f).logs = s.logs := rfl
@[simp] theorem State.modPower_fabric (s : State) (f : Power → Power) : (s.modPower f).fabric = s.fabric := rfl
@[simp] theorem State.modPower_channels (s : State) (f : Power → Power) : (s.modPower f).channels = s.channels := rfl
@[simp] theorem State.modPower_malt (s : State) (f : Power → Power) : (s.modPower f).malt = s.malt := rfl
@[simp] theorem State.modPower_buddy (s : State) (f : Power → Power) : (s.modPower f).buddy = s.buddy := rfl
@[simp] theorem State.modPower_time (s : State) (f : Power → Power) : (s.modPower f).time = s.time := rfl
@[simp] theorem State.modPower_board (s : State) (f : Power → Power) : (s.modPower f).board = s.board := rfl

/-! ### modChan -/

@[simp] theorem State.modChan_pending (s : State) (c : Nat) (f : Channel64 → Channel64) : (s.modChan c f).pending = s.pending := rfl
@[simp] theorem State.modChan_out (s : State) (c : Nat) (f : Channel64 → Channel64) : (s.modChan c f).out = s.out := rfl
@[simp] theorem State.modChan_draws (s : State) (c : Nat) (f : Channel64 → Channel64) : (s.modChan c f).draws = s.draws := rfl
@[simp] theorem State.modChan_port (s : State) (c : Nat) (f : Channel64 → Channel64) : (s.modChan c f).port = s.port := rfl
@[simp] theorem State.modChan_nor (s : State) (c : Nat) (f : Channel64 → Channel64) : (s.modChan c f).nor = s.nor := rfl
@[simp] theorem State.modChan_ident (s : State) (c : Nat) (f : Channel64 → Channel64) : (s.modChan c f).ident = s.ident := rfl
@[simp] theorem State.modChan_errata (s : State) (c : Nat) (f : Channel64 → Channel64) : (s.modChan c f).errata = s.errata := rfl
@[simp] theorem State.modChan_sects (s : State) (c : Nat) (f : Channel64 → Channel64) : (s.modChan c f).sects = s.sects := rfl
@[simp] theorem State.modChan_cores (s : State) (c : Nat) (f : Channel64 → Channel64) : (s.modChan c f).cores = s.cores := rfl
@[simp] theorem State.modChan_cap (s : State) (c : Nat) (f : Channel64 → Channel64) : (s.modChan c f).cap = s.cap := rfl
@[simp] theorem State.modChan_coreMem (s : State) (c : Nat) (f : Channel64 → Channel64) : (s.modChan c f).coreMem = s.coreMem := rfl
@[simp] theorem State.modChan_coreLines (s : State) (c : Nat) (f : Channel64 → Channel64) : (s.modChan c f).coreLines = s.coreLines := rfl
@[simp] theorem State.modChan_sectMem (s : State) (c : Nat) (f : Channel64 → Channel64) : (s.modChan c f).sectMem = s.sectMem := rfl
@[simp] theorem State.modChan_sectLines (s : State) (c : Nat) (f : Channel64 → Channel64) : (s.modChan c f).sectLines = s.sectLines := rfl
@[simp] theorem State.modChan_caskRaw (s : State) (c : Nat) (f : Channel64 → Channel64) : (s.modChan c f).caskRaw = s.caskRaw := rfl
@[simp] theorem State.modChan_mem (s : State) (c : Nat) (f : Channel64 → Channel64) : (s.modChan c f).mem = s.mem := rfl
@[simp] theorem State.modChan_rack (s : State) (c : Nat) (f : Channel64 → Channel64) : (s.modChan c f).rack = s.rack := rfl
@[simp] theorem State.modChan_cellar (s : State) (c : Nat) (f : Channel64 → Channel64) : (s.modChan c f).cellar = s.cellar := rfl
@[simp] theorem State.modChan_streams (s : State) (c : Nat) (f : Channel64 → Channel64) : (s.modChan c f).streams = s.streams := rfl
@[simp] theorem State.modChan_slots (s : State) (c : Nat) (f : Channel64 → Channel64) : (s.modChan c f).slots = s.slots := rfl
@[simp] theorem State.modChan_reqs (s : State) (c : Nat) (f : Channel64 → Channel64) : (s.modChan c f).reqs = s.reqs := rfl
@[simp] theorem State.modChan_parts (s : State) (c : Nat) (f : Channel64 → Channel64) : (s.modChan c f).parts = s.parts := rfl
@[simp] theorem State.modChan_cmds (s : State) (c : Nat) (f : Channel64 → Channel64) : (s.modChan c f).cmds = s.cmds := rfl
@[simp] theorem State.modChan_nextCmd (s : State) (c : Nat) (f : Channel64 → Channel64) : (s.modChan c f).nextCmd = s.nextCmd := rfl
@[simp] theorem State.modChan_logs (s : State) (c : Nat) (f : Channel64 → Channel64) : (s.modChan c f).logs = s.logs := rfl
@[simp] theorem State.modChan_fabric (s : State) (c : Nat) (f : Channel64 → Channel64) : (s.modChan c f).fabric = s.fabric := rfl
@[simp] theorem State.modChan_malt (s : State) (c : Nat) (f : Channel64 → Channel64) : (s.modChan c f).malt = s.malt := rfl
@[simp] theorem State.modChan_buddy (s : State) (c : Nat) (f : Channel64 → Channel64) : (s.modChan c f).buddy = s.buddy := rfl
@[simp] theorem State.modChan_power (s : State) (c : Nat) (f : Channel64 → Channel64) : (s.modChan c f).power = s.power := rfl
@[simp] theorem State.modChan_time (s : State) (c : Nat) (f : Channel64 → Channel64) : (s.modChan c f).time = s.time := rfl
@[simp] theorem State.modChan_board (s : State) (c : Nat) (f : Channel64 → Channel64) : (s.modChan c f).board = s.board := rfl

/-! ### modMalt -/

@[simp] theorem State.modMalt_pending (s : State) (f : Malt → Malt) : (s.modMalt f).pending = s.pending := rfl
@[simp] theorem State.modMalt_out (s : State) (f : Malt → Malt) : (s.modMalt f).out = s.out := rfl
@[simp] theorem State.modMalt_draws (s : State) (f : Malt → Malt) : (s.modMalt f).draws = s.draws := rfl
@[simp] theorem State.modMalt_port (s : State) (f : Malt → Malt) : (s.modMalt f).port = s.port := rfl
@[simp] theorem State.modMalt_nor (s : State) (f : Malt → Malt) : (s.modMalt f).nor = s.nor := rfl
@[simp] theorem State.modMalt_ident (s : State) (f : Malt → Malt) : (s.modMalt f).ident = s.ident := rfl
@[simp] theorem State.modMalt_errata (s : State) (f : Malt → Malt) : (s.modMalt f).errata = s.errata := rfl
@[simp] theorem State.modMalt_sects (s : State) (f : Malt → Malt) : (s.modMalt f).sects = s.sects := rfl
@[simp] theorem State.modMalt_cores (s : State) (f : Malt → Malt) : (s.modMalt f).cores = s.cores := rfl
@[simp] theorem State.modMalt_cap (s : State) (f : Malt → Malt) : (s.modMalt f).cap = s.cap := rfl
@[simp] theorem State.modMalt_coreMem (s : State) (f : Malt → Malt) : (s.modMalt f).coreMem = s.coreMem := rfl
@[simp] theorem State.modMalt_coreLines (s : State) (f : Malt → Malt) : (s.modMalt f).coreLines = s.coreLines := rfl
@[simp] theorem State.modMalt_sectMem (s : State) (f : Malt → Malt) : (s.modMalt f).sectMem = s.sectMem := rfl
@[simp] theorem State.modMalt_sectLines (s : State) (f : Malt → Malt) : (s.modMalt f).sectLines = s.sectLines := rfl
@[simp] theorem State.modMalt_caskRaw (s : State) (f : Malt → Malt) : (s.modMalt f).caskRaw = s.caskRaw := rfl
@[simp] theorem State.modMalt_mem (s : State) (f : Malt → Malt) : (s.modMalt f).mem = s.mem := rfl
@[simp] theorem State.modMalt_rack (s : State) (f : Malt → Malt) : (s.modMalt f).rack = s.rack := rfl
@[simp] theorem State.modMalt_cellar (s : State) (f : Malt → Malt) : (s.modMalt f).cellar = s.cellar := rfl
@[simp] theorem State.modMalt_streams (s : State) (f : Malt → Malt) : (s.modMalt f).streams = s.streams := rfl
@[simp] theorem State.modMalt_slots (s : State) (f : Malt → Malt) : (s.modMalt f).slots = s.slots := rfl
@[simp] theorem State.modMalt_reqs (s : State) (f : Malt → Malt) : (s.modMalt f).reqs = s.reqs := rfl
@[simp] theorem State.modMalt_parts (s : State) (f : Malt → Malt) : (s.modMalt f).parts = s.parts := rfl
@[simp] theorem State.modMalt_cmds (s : State) (f : Malt → Malt) : (s.modMalt f).cmds = s.cmds := rfl
@[simp] theorem State.modMalt_nextCmd (s : State) (f : Malt → Malt) : (s.modMalt f).nextCmd = s.nextCmd := rfl
@[simp] theorem State.modMalt_logs (s : State) (f : Malt → Malt) : (s.modMalt f).logs = s.logs := rfl
@[simp] theorem State.modMalt_fabric (s : State) (f : Malt → Malt) : (s.modMalt f).fabric = s.fabric := rfl
@[simp] theorem State.modMalt_channels (s : State) (f : Malt → Malt) : (s.modMalt f).channels = s.channels := rfl
@[simp] theorem State.modMalt_buddy (s : State) (f : Malt → Malt) : (s.modMalt f).buddy = s.buddy := rfl
@[simp] theorem State.modMalt_power (s : State) (f : Malt → Malt) : (s.modMalt f).power = s.power := rfl
@[simp] theorem State.modMalt_time (s : State) (f : Malt → Malt) : (s.modMalt f).time = s.time := rfl
@[simp] theorem State.modMalt_board (s : State) (f : Malt → Malt) : (s.modMalt f).board = s.board := rfl

/-! ### modPSet -/

@[simp] theorem State.modPSet_pending (s : State) (n : Nat) (f : PSet → PSet) : (s.modPSet n f).pending = s.pending := rfl
@[simp] theorem State.modPSet_out (s : State) (n : Nat) (f : PSet → PSet) : (s.modPSet n f).out = s.out := rfl
@[simp] theorem State.modPSet_draws (s : State) (n : Nat) (f : PSet → PSet) : (s.modPSet n f).draws = s.draws := rfl
@[simp] theorem State.modPSet_port (s : State) (n : Nat) (f : PSet → PSet) : (s.modPSet n f).port = s.port := rfl
@[simp] theorem State.modPSet_nor (s : State) (n : Nat) (f : PSet → PSet) : (s.modPSet n f).nor = s.nor := rfl
@[simp] theorem State.modPSet_ident (s : State) (n : Nat) (f : PSet → PSet) : (s.modPSet n f).ident = s.ident := rfl
@[simp] theorem State.modPSet_errata (s : State) (n : Nat) (f : PSet → PSet) : (s.modPSet n f).errata = s.errata := rfl
@[simp] theorem State.modPSet_sects (s : State) (n : Nat) (f : PSet → PSet) : (s.modPSet n f).sects = s.sects := rfl
@[simp] theorem State.modPSet_cores (s : State) (n : Nat) (f : PSet → PSet) : (s.modPSet n f).cores = s.cores := rfl
@[simp] theorem State.modPSet_cap (s : State) (n : Nat) (f : PSet → PSet) : (s.modPSet n f).cap = s.cap := rfl
@[simp] theorem State.modPSet_coreMem (s : State) (n : Nat) (f : PSet → PSet) : (s.modPSet n f).coreMem = s.coreMem := rfl
@[simp] theorem State.modPSet_coreLines (s : State) (n : Nat) (f : PSet → PSet) : (s.modPSet n f).coreLines = s.coreLines := rfl
@[simp] theorem State.modPSet_sectMem (s : State) (n : Nat) (f : PSet → PSet) : (s.modPSet n f).sectMem = s.sectMem := rfl
@[simp] theorem State.modPSet_sectLines (s : State) (n : Nat) (f : PSet → PSet) : (s.modPSet n f).sectLines = s.sectLines := rfl
@[simp] theorem State.modPSet_caskRaw (s : State) (n : Nat) (f : PSet → PSet) : (s.modPSet n f).caskRaw = s.caskRaw := rfl
@[simp] theorem State.modPSet_mem (s : State) (n : Nat) (f : PSet → PSet) : (s.modPSet n f).mem = s.mem := rfl
@[simp] theorem State.modPSet_rack (s : State) (n : Nat) (f : PSet → PSet) : (s.modPSet n f).rack = s.rack := rfl
@[simp] theorem State.modPSet_cellar (s : State) (n : Nat) (f : PSet → PSet) : (s.modPSet n f).cellar = s.cellar := rfl
@[simp] theorem State.modPSet_streams (s : State) (n : Nat) (f : PSet → PSet) : (s.modPSet n f).streams = s.streams := rfl
@[simp] theorem State.modPSet_slots (s : State) (n : Nat) (f : PSet → PSet) : (s.modPSet n f).slots = s.slots := rfl
@[simp] theorem State.modPSet_reqs (s : State) (n : Nat) (f : PSet → PSet) : (s.modPSet n f).reqs = s.reqs := rfl
@[simp] theorem State.modPSet_parts (s : State) (n : Nat) (f : PSet → PSet) : (s.modPSet n f).parts = s.parts := rfl
@[simp] theorem State.modPSet_cmds (s : State) (n : Nat) (f : PSet → PSet) : (s.modPSet n f).cmds = s.cmds := rfl
@[simp] theorem State.modPSet_nextCmd (s : State) (n : Nat) (f : PSet → PSet) : (s.modPSet n f).nextCmd = s.nextCmd := rfl
@[simp] theorem State.modPSet_logs (s : State) (n : Nat) (f : PSet → PSet) : (s.modPSet n f).logs = s.logs := rfl
@[simp] theorem State.modPSet_fabric (s : State) (n : Nat) (f : PSet → PSet) : (s.modPSet n f).fabric = s.fabric := rfl
@[simp] theorem State.modPSet_channels (s : State) (n : Nat) (f : PSet → PSet) : (s.modPSet n f).channels = s.channels := rfl
@[simp] theorem State.modPSet_buddy (s : State) (n : Nat) (f : PSet → PSet) : (s.modPSet n f).buddy = s.buddy := rfl
@[simp] theorem State.modPSet_power (s : State) (n : Nat) (f : PSet → PSet) : (s.modPSet n f).power = s.power := rfl
@[simp] theorem State.modPSet_time (s : State) (n : Nat) (f : PSet → PSet) : (s.modPSet n f).time = s.time := rfl
@[simp] theorem State.modPSet_board (s : State) (n : Nat) (f : PSet → PSet) : (s.modPSet n f).board = s.board := rfl

/-! ### modBuddy -/

@[simp] theorem State.modBuddy_pending (s : State) (f : Buddy → Buddy) : (s.modBuddy f).pending = s.pending := rfl
@[simp] theorem State.modBuddy_out (s : State) (f : Buddy → Buddy) : (s.modBuddy f).out = s.out := rfl
@[simp] theorem State.modBuddy_draws (s : State) (f : Buddy → Buddy) : (s.modBuddy f).draws = s.draws := rfl
@[simp] theorem State.modBuddy_port (s : State) (f : Buddy → Buddy) : (s.modBuddy f).port = s.port := rfl
@[simp] theorem State.modBuddy_nor (s : State) (f : Buddy → Buddy) : (s.modBuddy f).nor = s.nor := rfl
@[simp] theorem State.modBuddy_ident (s : State) (f : Buddy → Buddy) : (s.modBuddy f).ident = s.ident := rfl
@[simp] theorem State.modBuddy_errata (s : State) (f : Buddy → Buddy) : (s.modBuddy f).errata = s.errata := rfl
@[simp] theorem State.modBuddy_sects (s : State) (f : Buddy → Buddy) : (s.modBuddy f).sects = s.sects := rfl
@[simp] theorem State.modBuddy_cores (s : State) (f : Buddy → Buddy) : (s.modBuddy f).cores = s.cores := rfl
@[simp] theorem State.modBuddy_cap (s : State) (f : Buddy → Buddy) : (s.modBuddy f).cap = s.cap := rfl
@[simp] theorem State.modBuddy_coreMem (s : State) (f : Buddy → Buddy) : (s.modBuddy f).coreMem = s.coreMem := rfl
@[simp] theorem State.modBuddy_coreLines (s : State) (f : Buddy → Buddy) : (s.modBuddy f).coreLines = s.coreLines := rfl
@[simp] theorem State.modBuddy_sectMem (s : State) (f : Buddy → Buddy) : (s.modBuddy f).sectMem = s.sectMem := rfl
@[simp] theorem State.modBuddy_sectLines (s : State) (f : Buddy → Buddy) : (s.modBuddy f).sectLines = s.sectLines := rfl
@[simp] theorem State.modBuddy_caskRaw (s : State) (f : Buddy → Buddy) : (s.modBuddy f).caskRaw = s.caskRaw := rfl
@[simp] theorem State.modBuddy_mem (s : State) (f : Buddy → Buddy) : (s.modBuddy f).mem = s.mem := rfl
@[simp] theorem State.modBuddy_rack (s : State) (f : Buddy → Buddy) : (s.modBuddy f).rack = s.rack := rfl
@[simp] theorem State.modBuddy_cellar (s : State) (f : Buddy → Buddy) : (s.modBuddy f).cellar = s.cellar := rfl
@[simp] theorem State.modBuddy_streams (s : State) (f : Buddy → Buddy) : (s.modBuddy f).streams = s.streams := rfl
@[simp] theorem State.modBuddy_slots (s : State) (f : Buddy → Buddy) : (s.modBuddy f).slots = s.slots := rfl
@[simp] theorem State.modBuddy_reqs (s : State) (f : Buddy → Buddy) : (s.modBuddy f).reqs = s.reqs := rfl
@[simp] theorem State.modBuddy_parts (s : State) (f : Buddy → Buddy) : (s.modBuddy f).parts = s.parts := rfl
@[simp] theorem State.modBuddy_cmds (s : State) (f : Buddy → Buddy) : (s.modBuddy f).cmds = s.cmds := rfl
@[simp] theorem State.modBuddy_nextCmd (s : State) (f : Buddy → Buddy) : (s.modBuddy f).nextCmd = s.nextCmd := rfl
@[simp] theorem State.modBuddy_logs (s : State) (f : Buddy → Buddy) : (s.modBuddy f).logs = s.logs := rfl
@[simp] theorem State.modBuddy_fabric (s : State) (f : Buddy → Buddy) : (s.modBuddy f).fabric = s.fabric := rfl
@[simp] theorem State.modBuddy_channels (s : State) (f : Buddy → Buddy) : (s.modBuddy f).channels = s.channels := rfl
@[simp] theorem State.modBuddy_malt (s : State) (f : Buddy → Buddy) : (s.modBuddy f).malt = s.malt := rfl
@[simp] theorem State.modBuddy_power (s : State) (f : Buddy → Buddy) : (s.modBuddy f).power = s.power := rfl
@[simp] theorem State.modBuddy_time (s : State) (f : Buddy → Buddy) : (s.modBuddy f).time = s.time := rfl
@[simp] theorem State.modBuddy_board (s : State) (f : Buddy → Buddy) : (s.modBuddy f).board = s.board := rfl

/-! ### modSect -/

@[simp] theorem State.modSect_pending (s : State) (n : Nat) (f : Sect → Sect) : (s.modSect n f).pending = s.pending := rfl
@[simp] theorem State.modSect_out (s : State) (n : Nat) (f : Sect → Sect) : (s.modSect n f).out = s.out := rfl
@[simp] theorem State.modSect_draws (s : State) (n : Nat) (f : Sect → Sect) : (s.modSect n f).draws = s.draws := rfl
@[simp] theorem State.modSect_port (s : State) (n : Nat) (f : Sect → Sect) : (s.modSect n f).port = s.port := rfl
@[simp] theorem State.modSect_nor (s : State) (n : Nat) (f : Sect → Sect) : (s.modSect n f).nor = s.nor := rfl
@[simp] theorem State.modSect_ident (s : State) (n : Nat) (f : Sect → Sect) : (s.modSect n f).ident = s.ident := rfl
@[simp] theorem State.modSect_errata (s : State) (n : Nat) (f : Sect → Sect) : (s.modSect n f).errata = s.errata := rfl
@[simp] theorem State.modSect_cores (s : State) (n : Nat) (f : Sect → Sect) : (s.modSect n f).cores = s.cores := rfl
@[simp] theorem State.modSect_cap (s : State) (n : Nat) (f : Sect → Sect) : (s.modSect n f).cap = s.cap := rfl
@[simp] theorem State.modSect_coreMem (s : State) (n : Nat) (f : Sect → Sect) : (s.modSect n f).coreMem = s.coreMem := rfl
@[simp] theorem State.modSect_coreLines (s : State) (n : Nat) (f : Sect → Sect) : (s.modSect n f).coreLines = s.coreLines := rfl
@[simp] theorem State.modSect_sectMem (s : State) (n : Nat) (f : Sect → Sect) : (s.modSect n f).sectMem = s.sectMem := rfl
@[simp] theorem State.modSect_sectLines (s : State) (n : Nat) (f : Sect → Sect) : (s.modSect n f).sectLines = s.sectLines := rfl
@[simp] theorem State.modSect_caskRaw (s : State) (n : Nat) (f : Sect → Sect) : (s.modSect n f).caskRaw = s.caskRaw := rfl
@[simp] theorem State.modSect_mem (s : State) (n : Nat) (f : Sect → Sect) : (s.modSect n f).mem = s.mem := rfl
@[simp] theorem State.modSect_rack (s : State) (n : Nat) (f : Sect → Sect) : (s.modSect n f).rack = s.rack := rfl
@[simp] theorem State.modSect_cellar (s : State) (n : Nat) (f : Sect → Sect) : (s.modSect n f).cellar = s.cellar := rfl
@[simp] theorem State.modSect_streams (s : State) (n : Nat) (f : Sect → Sect) : (s.modSect n f).streams = s.streams := rfl
@[simp] theorem State.modSect_slots (s : State) (n : Nat) (f : Sect → Sect) : (s.modSect n f).slots = s.slots := rfl
@[simp] theorem State.modSect_reqs (s : State) (n : Nat) (f : Sect → Sect) : (s.modSect n f).reqs = s.reqs := rfl
@[simp] theorem State.modSect_parts (s : State) (n : Nat) (f : Sect → Sect) : (s.modSect n f).parts = s.parts := rfl
@[simp] theorem State.modSect_cmds (s : State) (n : Nat) (f : Sect → Sect) : (s.modSect n f).cmds = s.cmds := rfl
@[simp] theorem State.modSect_nextCmd (s : State) (n : Nat) (f : Sect → Sect) : (s.modSect n f).nextCmd = s.nextCmd := rfl
@[simp] theorem State.modSect_logs (s : State) (n : Nat) (f : Sect → Sect) : (s.modSect n f).logs = s.logs := rfl
@[simp] theorem State.modSect_fabric (s : State) (n : Nat) (f : Sect → Sect) : (s.modSect n f).fabric = s.fabric := rfl
@[simp] theorem State.modSect_channels (s : State) (n : Nat) (f : Sect → Sect) : (s.modSect n f).channels = s.channels := rfl
@[simp] theorem State.modSect_malt (s : State) (n : Nat) (f : Sect → Sect) : (s.modSect n f).malt = s.malt := rfl
@[simp] theorem State.modSect_buddy (s : State) (n : Nat) (f : Sect → Sect) : (s.modSect n f).buddy = s.buddy := rfl
@[simp] theorem State.modSect_power (s : State) (n : Nat) (f : Sect → Sect) : (s.modSect n f).power = s.power := rfl
@[simp] theorem State.modSect_time (s : State) (n : Nat) (f : Sect → Sect) : (s.modSect n f).time = s.time := rfl
@[simp] theorem State.modSect_board (s : State) (n : Nat) (f : Sect → Sect) : (s.modSect n f).board = s.board := rfl

/-! ### modCore -/

@[simp] theorem State.modCore_pending (s : State) (n : Nat) (f : CoreSt → CoreSt) : (s.modCore n f).pending = s.pending := rfl
@[simp] theorem State.modCore_out (s : State) (n : Nat) (f : CoreSt → CoreSt) : (s.modCore n f).out = s.out := rfl
@[simp] theorem State.modCore_draws (s : State) (n : Nat) (f : CoreSt → CoreSt) : (s.modCore n f).draws = s.draws := rfl
@[simp] theorem State.modCore_port (s : State) (n : Nat) (f : CoreSt → CoreSt) : (s.modCore n f).port = s.port := rfl
@[simp] theorem State.modCore_nor (s : State) (n : Nat) (f : CoreSt → CoreSt) : (s.modCore n f).nor = s.nor := rfl
@[simp] theorem State.modCore_ident (s : State) (n : Nat) (f : CoreSt → CoreSt) : (s.modCore n f).ident = s.ident := rfl
@[simp] theorem State.modCore_errata (s : State) (n : Nat) (f : CoreSt → CoreSt) : (s.modCore n f).errata = s.errata := rfl
@[simp] theorem State.modCore_sects (s : State) (n : Nat) (f : CoreSt → CoreSt) : (s.modCore n f).sects = s.sects := rfl
@[simp] theorem State.modCore_cap (s : State) (n : Nat) (f : CoreSt → CoreSt) : (s.modCore n f).cap = s.cap := rfl
@[simp] theorem State.modCore_coreMem (s : State) (n : Nat) (f : CoreSt → CoreSt) : (s.modCore n f).coreMem = s.coreMem := rfl
@[simp] theorem State.modCore_coreLines (s : State) (n : Nat) (f : CoreSt → CoreSt) : (s.modCore n f).coreLines = s.coreLines := rfl
@[simp] theorem State.modCore_sectMem (s : State) (n : Nat) (f : CoreSt → CoreSt) : (s.modCore n f).sectMem = s.sectMem := rfl
@[simp] theorem State.modCore_sectLines (s : State) (n : Nat) (f : CoreSt → CoreSt) : (s.modCore n f).sectLines = s.sectLines := rfl
@[simp] theorem State.modCore_caskRaw (s : State) (n : Nat) (f : CoreSt → CoreSt) : (s.modCore n f).caskRaw = s.caskRaw := rfl
@[simp] theorem State.modCore_mem (s : State) (n : Nat) (f : CoreSt → CoreSt) : (s.modCore n f).mem = s.mem := rfl
@[simp] theorem State.modCore_rack (s : State) (n : Nat) (f : CoreSt → CoreSt) : (s.modCore n f).rack = s.rack := rfl
@[simp] theorem State.modCore_cellar (s : State) (n : Nat) (f : CoreSt → CoreSt) : (s.modCore n f).cellar = s.cellar := rfl
@[simp] theorem State.modCore_streams (s : State) (n : Nat) (f : CoreSt → CoreSt) : (s.modCore n f).streams = s.streams := rfl
@[simp] theorem State.modCore_slots (s : State) (n : Nat) (f : CoreSt → CoreSt) : (s.modCore n f).slots = s.slots := rfl
@[simp] theorem State.modCore_reqs (s : State) (n : Nat) (f : CoreSt → CoreSt) : (s.modCore n f).reqs = s.reqs := rfl
@[simp] theorem State.modCore_parts (s : State) (n : Nat) (f : CoreSt → CoreSt) : (s.modCore n f).parts = s.parts := rfl
@[simp] theorem State.modCore_cmds (s : State) (n : Nat) (f : CoreSt → CoreSt) : (s.modCore n f).cmds = s.cmds := rfl
@[simp] theorem State.modCore_nextCmd (s : State) (n : Nat) (f : CoreSt → CoreSt) : (s.modCore n f).nextCmd = s.nextCmd := rfl
@[simp] theorem State.modCore_logs (s : State) (n : Nat) (f : CoreSt → CoreSt) : (s.modCore n f).logs = s.logs := rfl
@[simp] theorem State.modCore_fabric (s : State) (n : Nat) (f : CoreSt → CoreSt) : (s.modCore n f).fabric = s.fabric := rfl
@[simp] theorem State.modCore_channels (s : State) (n : Nat) (f : CoreSt → CoreSt) : (s.modCore n f).channels = s.channels := rfl
@[simp] theorem State.modCore_malt (s : State) (n : Nat) (f : CoreSt → CoreSt) : (s.modCore n f).malt = s.malt := rfl
@[simp] theorem State.modCore_buddy (s : State) (n : Nat) (f : CoreSt → CoreSt) : (s.modCore n f).buddy = s.buddy := rfl
@[simp] theorem State.modCore_power (s : State) (n : Nat) (f : CoreSt → CoreSt) : (s.modCore n f).power = s.power := rfl
@[simp] theorem State.modCore_time (s : State) (n : Nat) (f : CoreSt → CoreSt) : (s.modCore n f).time = s.time := rfl
@[simp] theorem State.modCore_board (s : State) (n : Nat) (f : CoreSt → CoreSt) : (s.modCore n f).board = s.board := rfl

/-! ### modMem -/

@[simp] theorem State.modMem_pending (s : State) (p : Nat) (f : MemPort → MemPort) : (s.modMem p f).pending = s.pending := rfl
@[simp] theorem State.modMem_out (s : State) (p : Nat) (f : MemPort → MemPort) : (s.modMem p f).out = s.out := rfl
@[simp] theorem State.modMem_draws (s : State) (p : Nat) (f : MemPort → MemPort) : (s.modMem p f).draws = s.draws := rfl
@[simp] theorem State.modMem_port (s : State) (p : Nat) (f : MemPort → MemPort) : (s.modMem p f).port = s.port := rfl
@[simp] theorem State.modMem_nor (s : State) (p : Nat) (f : MemPort → MemPort) : (s.modMem p f).nor = s.nor := rfl
@[simp] theorem State.modMem_ident (s : State) (p : Nat) (f : MemPort → MemPort) : (s.modMem p f).ident = s.ident := rfl
@[simp] theorem State.modMem_errata (s : State) (p : Nat) (f : MemPort → MemPort) : (s.modMem p f).errata = s.errata := rfl
@[simp] theorem State.modMem_sects (s : State) (p : Nat) (f : MemPort → MemPort) : (s.modMem p f).sects = s.sects := rfl
@[simp] theorem State.modMem_cores (s : State) (p : Nat) (f : MemPort → MemPort) : (s.modMem p f).cores = s.cores := rfl
@[simp] theorem State.modMem_cap (s : State) (p : Nat) (f : MemPort → MemPort) : (s.modMem p f).cap = s.cap := rfl
@[simp] theorem State.modMem_coreMem (s : State) (p : Nat) (f : MemPort → MemPort) : (s.modMem p f).coreMem = s.coreMem := rfl
@[simp] theorem State.modMem_coreLines (s : State) (p : Nat) (f : MemPort → MemPort) : (s.modMem p f).coreLines = s.coreLines := rfl
@[simp] theorem State.modMem_sectMem (s : State) (p : Nat) (f : MemPort → MemPort) : (s.modMem p f).sectMem = s.sectMem := rfl
@[simp] theorem State.modMem_sectLines (s : State) (p : Nat) (f : MemPort → MemPort) : (s.modMem p f).sectLines = s.sectLines := rfl
@[simp] theorem State.modMem_caskRaw (s : State) (p : Nat) (f : MemPort → MemPort) : (s.modMem p f).caskRaw = s.caskRaw := rfl
@[simp] theorem State.modMem_rack (s : State) (p : Nat) (f : MemPort → MemPort) : (s.modMem p f).rack = s.rack := rfl
@[simp] theorem State.modMem_cellar (s : State) (p : Nat) (f : MemPort → MemPort) : (s.modMem p f).cellar = s.cellar := rfl
@[simp] theorem State.modMem_streams (s : State) (p : Nat) (f : MemPort → MemPort) : (s.modMem p f).streams = s.streams := rfl
@[simp] theorem State.modMem_slots (s : State) (p : Nat) (f : MemPort → MemPort) : (s.modMem p f).slots = s.slots := rfl
@[simp] theorem State.modMem_reqs (s : State) (p : Nat) (f : MemPort → MemPort) : (s.modMem p f).reqs = s.reqs := rfl
@[simp] theorem State.modMem_parts (s : State) (p : Nat) (f : MemPort → MemPort) : (s.modMem p f).parts = s.parts := rfl
@[simp] theorem State.modMem_cmds (s : State) (p : Nat) (f : MemPort → MemPort) : (s.modMem p f).cmds = s.cmds := rfl
@[simp] theorem State.modMem_nextCmd (s : State) (p : Nat) (f : MemPort → MemPort) : (s.modMem p f).nextCmd = s.nextCmd := rfl
@[simp] theorem State.modMem_logs (s : State) (p : Nat) (f : MemPort → MemPort) : (s.modMem p f).logs = s.logs := rfl
@[simp] theorem State.modMem_fabric (s : State) (p : Nat) (f : MemPort → MemPort) : (s.modMem p f).fabric = s.fabric := rfl
@[simp] theorem State.modMem_channels (s : State) (p : Nat) (f : MemPort → MemPort) : (s.modMem p f).channels = s.channels := rfl
@[simp] theorem State.modMem_malt (s : State) (p : Nat) (f : MemPort → MemPort) : (s.modMem p f).malt = s.malt := rfl
@[simp] theorem State.modMem_buddy (s : State) (p : Nat) (f : MemPort → MemPort) : (s.modMem p f).buddy = s.buddy := rfl
@[simp] theorem State.modMem_power (s : State) (p : Nat) (f : MemPort → MemPort) : (s.modMem p f).power = s.power := rfl
@[simp] theorem State.modMem_time (s : State) (p : Nat) (f : MemPort → MemPort) : (s.modMem p f).time = s.time := rfl
@[simp] theorem State.modMem_board (s : State) (p : Nat) (f : MemPort → MemPort) : (s.modMem p f).board = s.board := rfl

/-! ### modQueue -/

@[simp] theorem State.modQueue_pending (s : State) (q : Nat) (f : Queue → Queue) : (s.modQueue q f).pending = s.pending := rfl
@[simp] theorem State.modQueue_out (s : State) (q : Nat) (f : Queue → Queue) : (s.modQueue q f).out = s.out := rfl
@[simp] theorem State.modQueue_draws (s : State) (q : Nat) (f : Queue → Queue) : (s.modQueue q f).draws = s.draws := rfl
@[simp] theorem State.modQueue_nor (s : State) (q : Nat) (f : Queue → Queue) : (s.modQueue q f).nor = s.nor := rfl
@[simp] theorem State.modQueue_ident (s : State) (q : Nat) (f : Queue → Queue) : (s.modQueue q f).ident = s.ident := rfl
@[simp] theorem State.modQueue_errata (s : State) (q : Nat) (f : Queue → Queue) : (s.modQueue q f).errata = s.errata := rfl
@[simp] theorem State.modQueue_sects (s : State) (q : Nat) (f : Queue → Queue) : (s.modQueue q f).sects = s.sects := rfl
@[simp] theorem State.modQueue_cores (s : State) (q : Nat) (f : Queue → Queue) : (s.modQueue q f).cores = s.cores := rfl
@[simp] theorem State.modQueue_cap (s : State) (q : Nat) (f : Queue → Queue) : (s.modQueue q f).cap = s.cap := rfl
@[simp] theorem State.modQueue_coreMem (s : State) (q : Nat) (f : Queue → Queue) : (s.modQueue q f).coreMem = s.coreMem := rfl
@[simp] theorem State.modQueue_coreLines (s : State) (q : Nat) (f : Queue → Queue) : (s.modQueue q f).coreLines = s.coreLines := rfl
@[simp] theorem State.modQueue_sectMem (s : State) (q : Nat) (f : Queue → Queue) : (s.modQueue q f).sectMem = s.sectMem := rfl
@[simp] theorem State.modQueue_sectLines (s : State) (q : Nat) (f : Queue → Queue) : (s.modQueue q f).sectLines = s.sectLines := rfl
@[simp] theorem State.modQueue_caskRaw (s : State) (q : Nat) (f : Queue → Queue) : (s.modQueue q f).caskRaw = s.caskRaw := rfl
@[simp] theorem State.modQueue_mem (s : State) (q : Nat) (f : Queue → Queue) : (s.modQueue q f).mem = s.mem := rfl
@[simp] theorem State.modQueue_rack (s : State) (q : Nat) (f : Queue → Queue) : (s.modQueue q f).rack = s.rack := rfl
@[simp] theorem State.modQueue_cellar (s : State) (q : Nat) (f : Queue → Queue) : (s.modQueue q f).cellar = s.cellar := rfl
@[simp] theorem State.modQueue_streams (s : State) (q : Nat) (f : Queue → Queue) : (s.modQueue q f).streams = s.streams := rfl
@[simp] theorem State.modQueue_slots (s : State) (q : Nat) (f : Queue → Queue) : (s.modQueue q f).slots = s.slots := rfl
@[simp] theorem State.modQueue_reqs (s : State) (q : Nat) (f : Queue → Queue) : (s.modQueue q f).reqs = s.reqs := rfl
@[simp] theorem State.modQueue_parts (s : State) (q : Nat) (f : Queue → Queue) : (s.modQueue q f).parts = s.parts := rfl
@[simp] theorem State.modQueue_cmds (s : State) (q : Nat) (f : Queue → Queue) : (s.modQueue q f).cmds = s.cmds := rfl
@[simp] theorem State.modQueue_nextCmd (s : State) (q : Nat) (f : Queue → Queue) : (s.modQueue q f).nextCmd = s.nextCmd := rfl
@[simp] theorem State.modQueue_logs (s : State) (q : Nat) (f : Queue → Queue) : (s.modQueue q f).logs = s.logs := rfl
@[simp] theorem State.modQueue_fabric (s : State) (q : Nat) (f : Queue → Queue) : (s.modQueue q f).fabric = s.fabric := rfl
@[simp] theorem State.modQueue_channels (s : State) (q : Nat) (f : Queue → Queue) : (s.modQueue q f).channels = s.channels := rfl
@[simp] theorem State.modQueue_malt (s : State) (q : Nat) (f : Queue → Queue) : (s.modQueue q f).malt = s.malt := rfl
@[simp] theorem State.modQueue_buddy (s : State) (q : Nat) (f : Queue → Queue) : (s.modQueue q f).buddy = s.buddy := rfl
@[simp] theorem State.modQueue_power (s : State) (q : Nat) (f : Queue → Queue) : (s.modQueue q f).power = s.power := rfl
@[simp] theorem State.modQueue_time (s : State) (q : Nat) (f : Queue → Queue) : (s.modQueue q f).time = s.time := rfl
@[simp] theorem State.modQueue_board (s : State) (q : Nat) (f : Queue → Queue) : (s.modQueue q f).board = s.board := rfl

/-! ### modStarted -/

@[simp] theorem State.modStarted_pending (s : State) (q tag : Nat) (f : Started → Started) : (s.modStarted q tag f).pending = s.pending := rfl
@[simp] theorem State.modStarted_out (s : State) (q tag : Nat) (f : Started → Started) : (s.modStarted q tag f).out = s.out := rfl
@[simp] theorem State.modStarted_draws (s : State) (q tag : Nat) (f : Started → Started) : (s.modStarted q tag f).draws = s.draws := rfl
@[simp] theorem State.modStarted_nor (s : State) (q tag : Nat) (f : Started → Started) : (s.modStarted q tag f).nor = s.nor := rfl
@[simp] theorem State.modStarted_ident (s : State) (q tag : Nat) (f : Started → Started) : (s.modStarted q tag f).ident = s.ident := rfl
@[simp] theorem State.modStarted_errata (s : State) (q tag : Nat) (f : Started → Started) : (s.modStarted q tag f).errata = s.errata := rfl
@[simp] theorem State.modStarted_sects (s : State) (q tag : Nat) (f : Started → Started) : (s.modStarted q tag f).sects = s.sects := rfl
@[simp] theorem State.modStarted_cores (s : State) (q tag : Nat) (f : Started → Started) : (s.modStarted q tag f).cores = s.cores := rfl
@[simp] theorem State.modStarted_cap (s : State) (q tag : Nat) (f : Started → Started) : (s.modStarted q tag f).cap = s.cap := rfl
@[simp] theorem State.modStarted_coreMem (s : State) (q tag : Nat) (f : Started → Started) : (s.modStarted q tag f).coreMem = s.coreMem := rfl
@[simp] theorem State.modStarted_coreLines (s : State) (q tag : Nat) (f : Started → Started) : (s.modStarted q tag f).coreLines = s.coreLines := rfl
@[simp] theorem State.modStarted_sectMem (s : State) (q tag : Nat) (f : Started → Started) : (s.modStarted q tag f).sectMem = s.sectMem := rfl
@[simp] theorem State.modStarted_sectLines (s : State) (q tag : Nat) (f : Started → Started) : (s.modStarted q tag f).sectLines = s.sectLines := rfl
@[simp] theorem State.modStarted_caskRaw (s : State) (q tag : Nat) (f : Started → Started) : (s.modStarted q tag f).caskRaw = s.caskRaw := rfl
@[simp] theorem State.modStarted_mem (s : State) (q tag : Nat) (f : Started → Started) : (s.modStarted q tag f).mem = s.mem := rfl
@[simp] theorem State.modStarted_rack (s : State) (q tag : Nat) (f : Started → Started) : (s.modStarted q tag f).rack = s.rack := rfl
@[simp] theorem State.modStarted_cellar (s : State) (q tag : Nat) (f : Started → Started) : (s.modStarted q tag f).cellar = s.cellar := rfl
@[simp] theorem State.modStarted_streams (s : State) (q tag : Nat) (f : Started → Started) : (s.modStarted q tag f).streams = s.streams := rfl
@[simp] theorem State.modStarted_slots (s : State) (q tag : Nat) (f : Started → Started) : (s.modStarted q tag f).slots = s.slots := rfl
@[simp] theorem State.modStarted_reqs (s : State) (q tag : Nat) (f : Started → Started) : (s.modStarted q tag f).reqs = s.reqs := rfl
@[simp] theorem State.modStarted_parts (s : State) (q tag : Nat) (f : Started → Started) : (s.modStarted q tag f).parts = s.parts := rfl
@[simp] theorem State.modStarted_cmds (s : State) (q tag : Nat) (f : Started → Started) : (s.modStarted q tag f).cmds = s.cmds := rfl
@[simp] theorem State.modStarted_nextCmd (s : State) (q tag : Nat) (f : Started → Started) : (s.modStarted q tag f).nextCmd = s.nextCmd := rfl
@[simp] theorem State.modStarted_logs (s : State) (q tag : Nat) (f : Started → Started) : (s.modStarted q tag f).logs = s.logs := rfl
@[simp] theorem State.modStarted_fabric (s : State) (q tag : Nat) (f : Started → Started) : (s.modStarted q tag f).fabric = s.fabric := rfl
@[simp] theorem State.modStarted_channels (s : State) (q tag : Nat) (f : Started → Started) : (s.modStarted q tag f).channels = s.channels := rfl
@[simp] theorem State.modStarted_malt (s : State) (q tag : Nat) (f : Started → Started) : (s.modStarted q tag f).malt = s.malt := rfl
@[simp] theorem State.modStarted_buddy (s : State) (q tag : Nat) (f : Started → Started) : (s.modStarted q tag f).buddy = s.buddy := rfl
@[simp] theorem State.modStarted_power (s : State) (q tag : Nat) (f : Started → Started) : (s.modStarted q tag f).power = s.power := rfl
@[simp] theorem State.modStarted_time (s : State) (q tag : Nat) (f : Started → Started) : (s.modStarted q tag f).time = s.time := rfl
@[simp] theorem State.modStarted_board (s : State) (q tag : Nat) (f : Started → Started) : (s.modStarted q tag f).board = s.board := rfl

/-! ### modChannel -/

@[simp] theorem State.modChannel_pending (s : State) (n c : Nat) (f : Channel → Channel) : (s.modChannel n c f).pending = s.pending := rfl
@[simp] theorem State.modChannel_out (s : State) (n c : Nat) (f : Channel → Channel) : (s.modChannel n c f).out = s.out := rfl
@[simp] theorem State.modChannel_draws (s : State) (n c : Nat) (f : Channel → Channel) : (s.modChannel n c f).draws = s.draws := rfl
@[simp] theorem State.modChannel_nor (s : State) (n c : Nat) (f : Channel → Channel) : (s.modChannel n c f).nor = s.nor := rfl
@[simp] theorem State.modChannel_ident (s : State) (n c : Nat) (f : Channel → Channel) : (s.modChannel n c f).ident = s.ident := rfl
@[simp] theorem State.modChannel_errata (s : State) (n c : Nat) (f : Channel → Channel) : (s.modChannel n c f).errata = s.errata := rfl
@[simp] theorem State.modChannel_sects (s : State) (n c : Nat) (f : Channel → Channel) : (s.modChannel n c f).sects = s.sects := rfl
@[simp] theorem State.modChannel_cores (s : State) (n c : Nat) (f : Channel → Channel) : (s.modChannel n c f).cores = s.cores := rfl
@[simp] theorem State.modChannel_cap (s : State) (n c : Nat) (f : Channel → Channel) : (s.modChannel n c f).cap = s.cap := rfl
@[simp] theorem State.modChannel_coreMem (s : State) (n c : Nat) (f : Channel → Channel) : (s.modChannel n c f).coreMem = s.coreMem := rfl
@[simp] theorem State.modChannel_coreLines (s : State) (n c : Nat) (f : Channel → Channel) : (s.modChannel n c f).coreLines = s.coreLines := rfl
@[simp] theorem State.modChannel_sectMem (s : State) (n c : Nat) (f : Channel → Channel) : (s.modChannel n c f).sectMem = s.sectMem := rfl
@[simp] theorem State.modChannel_sectLines (s : State) (n c : Nat) (f : Channel → Channel) : (s.modChannel n c f).sectLines = s.sectLines := rfl
@[simp] theorem State.modChannel_caskRaw (s : State) (n c : Nat) (f : Channel → Channel) : (s.modChannel n c f).caskRaw = s.caskRaw := rfl
@[simp] theorem State.modChannel_mem (s : State) (n c : Nat) (f : Channel → Channel) : (s.modChannel n c f).mem = s.mem := rfl
@[simp] theorem State.modChannel_rack (s : State) (n c : Nat) (f : Channel → Channel) : (s.modChannel n c f).rack = s.rack := rfl
@[simp] theorem State.modChannel_cellar (s : State) (n c : Nat) (f : Channel → Channel) : (s.modChannel n c f).cellar = s.cellar := rfl
@[simp] theorem State.modChannel_streams (s : State) (n c : Nat) (f : Channel → Channel) : (s.modChannel n c f).streams = s.streams := rfl
@[simp] theorem State.modChannel_slots (s : State) (n c : Nat) (f : Channel → Channel) : (s.modChannel n c f).slots = s.slots := rfl
@[simp] theorem State.modChannel_reqs (s : State) (n c : Nat) (f : Channel → Channel) : (s.modChannel n c f).reqs = s.reqs := rfl
@[simp] theorem State.modChannel_parts (s : State) (n c : Nat) (f : Channel → Channel) : (s.modChannel n c f).parts = s.parts := rfl
@[simp] theorem State.modChannel_cmds (s : State) (n c : Nat) (f : Channel → Channel) : (s.modChannel n c f).cmds = s.cmds := rfl
@[simp] theorem State.modChannel_nextCmd (s : State) (n c : Nat) (f : Channel → Channel) : (s.modChannel n c f).nextCmd = s.nextCmd := rfl
@[simp] theorem State.modChannel_logs (s : State) (n c : Nat) (f : Channel → Channel) : (s.modChannel n c f).logs = s.logs := rfl
@[simp] theorem State.modChannel_fabric (s : State) (n c : Nat) (f : Channel → Channel) : (s.modChannel n c f).fabric = s.fabric := rfl
@[simp] theorem State.modChannel_channels (s : State) (n c : Nat) (f : Channel → Channel) : (s.modChannel n c f).channels = s.channels := rfl
@[simp] theorem State.modChannel_malt (s : State) (n c : Nat) (f : Channel → Channel) : (s.modChannel n c f).malt = s.malt := rfl
@[simp] theorem State.modChannel_buddy (s : State) (n c : Nat) (f : Channel → Channel) : (s.modChannel n c f).buddy = s.buddy := rfl
@[simp] theorem State.modChannel_power (s : State) (n c : Nat) (f : Channel → Channel) : (s.modChannel n c f).power = s.power := rfl
@[simp] theorem State.modChannel_time (s : State) (n c : Nat) (f : Channel → Channel) : (s.modChannel n c f).time = s.time := rfl
@[simp] theorem State.modChannel_board (s : State) (n c : Nat) (f : Channel → Channel) : (s.modChannel n c f).board = s.board := rfl

/-! ### record -/

@[simp] theorem State.record_pending (s : State) (k : BitVec 8) (c : Code) (a b : W32) : (s.record k c a b).pending = s.pending := rfl
@[simp] theorem State.record_out (s : State) (k : BitVec 8) (c : Code) (a b : W32) : (s.record k c a b).out = s.out := rfl
@[simp] theorem State.record_draws (s : State) (k : BitVec 8) (c : Code) (a b : W32) : (s.record k c a b).draws = s.draws := rfl
@[simp] theorem State.record_port (s : State) (k : BitVec 8) (c : Code) (a b : W32) : (s.record k c a b).port = s.port := rfl
@[simp] theorem State.record_nor (s : State) (k : BitVec 8) (c : Code) (a b : W32) : (s.record k c a b).nor = s.nor := rfl
@[simp] theorem State.record_ident (s : State) (k : BitVec 8) (c : Code) (a b : W32) : (s.record k c a b).ident = s.ident := rfl
@[simp] theorem State.record_sects (s : State) (k : BitVec 8) (c : Code) (a b : W32) : (s.record k c a b).sects = s.sects := rfl
@[simp] theorem State.record_cores (s : State) (k : BitVec 8) (c : Code) (a b : W32) : (s.record k c a b).cores = s.cores := rfl
@[simp] theorem State.record_cap (s : State) (k : BitVec 8) (c : Code) (a b : W32) : (s.record k c a b).cap = s.cap := rfl
@[simp] theorem State.record_coreMem (s : State) (k : BitVec 8) (c : Code) (a b : W32) : (s.record k c a b).coreMem = s.coreMem := rfl
@[simp] theorem State.record_coreLines (s : State) (k : BitVec 8) (c : Code) (a b : W32) : (s.record k c a b).coreLines = s.coreLines := rfl
@[simp] theorem State.record_sectMem (s : State) (k : BitVec 8) (c : Code) (a b : W32) : (s.record k c a b).sectMem = s.sectMem := rfl
@[simp] theorem State.record_sectLines (s : State) (k : BitVec 8) (c : Code) (a b : W32) : (s.record k c a b).sectLines = s.sectLines := rfl
@[simp] theorem State.record_caskRaw (s : State) (k : BitVec 8) (c : Code) (a b : W32) : (s.record k c a b).caskRaw = s.caskRaw := rfl
@[simp] theorem State.record_mem (s : State) (k : BitVec 8) (c : Code) (a b : W32) : (s.record k c a b).mem = s.mem := rfl
@[simp] theorem State.record_rack (s : State) (k : BitVec 8) (c : Code) (a b : W32) : (s.record k c a b).rack = s.rack := rfl
@[simp] theorem State.record_cellar (s : State) (k : BitVec 8) (c : Code) (a b : W32) : (s.record k c a b).cellar = s.cellar := rfl
@[simp] theorem State.record_streams (s : State) (k : BitVec 8) (c : Code) (a b : W32) : (s.record k c a b).streams = s.streams := rfl
@[simp] theorem State.record_slots (s : State) (k : BitVec 8) (c : Code) (a b : W32) : (s.record k c a b).slots = s.slots := rfl
@[simp] theorem State.record_reqs (s : State) (k : BitVec 8) (c : Code) (a b : W32) : (s.record k c a b).reqs = s.reqs := rfl
@[simp] theorem State.record_parts (s : State) (k : BitVec 8) (c : Code) (a b : W32) : (s.record k c a b).parts = s.parts := rfl
@[simp] theorem State.record_cmds (s : State) (k : BitVec 8) (c : Code) (a b : W32) : (s.record k c a b).cmds = s.cmds := rfl
@[simp] theorem State.record_nextCmd (s : State) (k : BitVec 8) (c : Code) (a b : W32) : (s.record k c a b).nextCmd = s.nextCmd := rfl
@[simp] theorem State.record_logs (s : State) (k : BitVec 8) (c : Code) (a b : W32) : (s.record k c a b).logs = s.logs := rfl
@[simp] theorem State.record_fabric (s : State) (k : BitVec 8) (c : Code) (a b : W32) : (s.record k c a b).fabric = s.fabric := rfl
@[simp] theorem State.record_channels (s : State) (k : BitVec 8) (c : Code) (a b : W32) : (s.record k c a b).channels = s.channels := rfl
@[simp] theorem State.record_malt (s : State) (k : BitVec 8) (c : Code) (a b : W32) : (s.record k c a b).malt = s.malt := rfl
@[simp] theorem State.record_buddy (s : State) (k : BitVec 8) (c : Code) (a b : W32) : (s.record k c a b).buddy = s.buddy := rfl
@[simp] theorem State.record_power (s : State) (k : BitVec 8) (c : Code) (a b : W32) : (s.record k c a b).power = s.power := rfl
@[simp] theorem State.record_time (s : State) (k : BitVec 8) (c : Code) (a b : W32) : (s.record k c a b).time = s.time := rfl
@[simp] theorem State.record_board (s : State) (k : BitVec 8) (c : Code) (a b : W32) : (s.record k c a b).board = s.board := rfl

/-! ### recordBy -/

@[simp] theorem State.recordBy_pending (s : State) (k : BitVec 8) (r p : Nat) (c : Code) (a b : W32) : (s.recordBy k r p c a b).pending = s.pending := rfl
@[simp] theorem State.recordBy_out (s : State) (k : BitVec 8) (r p : Nat) (c : Code) (a b : W32) : (s.recordBy k r p c a b).out = s.out := rfl
@[simp] theorem State.recordBy_draws (s : State) (k : BitVec 8) (r p : Nat) (c : Code) (a b : W32) : (s.recordBy k r p c a b).draws = s.draws := rfl
@[simp] theorem State.recordBy_port (s : State) (k : BitVec 8) (r p : Nat) (c : Code) (a b : W32) : (s.recordBy k r p c a b).port = s.port := rfl
@[simp] theorem State.recordBy_nor (s : State) (k : BitVec 8) (r p : Nat) (c : Code) (a b : W32) : (s.recordBy k r p c a b).nor = s.nor := rfl
@[simp] theorem State.recordBy_ident (s : State) (k : BitVec 8) (r p : Nat) (c : Code) (a b : W32) : (s.recordBy k r p c a b).ident = s.ident := rfl
@[simp] theorem State.recordBy_sects (s : State) (k : BitVec 8) (r p : Nat) (c : Code) (a b : W32) : (s.recordBy k r p c a b).sects = s.sects := rfl
@[simp] theorem State.recordBy_cores (s : State) (k : BitVec 8) (r p : Nat) (c : Code) (a b : W32) : (s.recordBy k r p c a b).cores = s.cores := rfl
@[simp] theorem State.recordBy_cap (s : State) (k : BitVec 8) (r p : Nat) (c : Code) (a b : W32) : (s.recordBy k r p c a b).cap = s.cap := rfl
@[simp] theorem State.recordBy_coreMem (s : State) (k : BitVec 8) (r p : Nat) (c : Code) (a b : W32) : (s.recordBy k r p c a b).coreMem = s.coreMem := rfl
@[simp] theorem State.recordBy_coreLines (s : State) (k : BitVec 8) (r p : Nat) (c : Code) (a b : W32) : (s.recordBy k r p c a b).coreLines = s.coreLines := rfl
@[simp] theorem State.recordBy_sectMem (s : State) (k : BitVec 8) (r p : Nat) (c : Code) (a b : W32) : (s.recordBy k r p c a b).sectMem = s.sectMem := rfl
@[simp] theorem State.recordBy_sectLines (s : State) (k : BitVec 8) (r p : Nat) (c : Code) (a b : W32) : (s.recordBy k r p c a b).sectLines = s.sectLines := rfl
@[simp] theorem State.recordBy_caskRaw (s : State) (k : BitVec 8) (r p : Nat) (c : Code) (a b : W32) : (s.recordBy k r p c a b).caskRaw = s.caskRaw := rfl
@[simp] theorem State.recordBy_mem (s : State) (k : BitVec 8) (r p : Nat) (c : Code) (a b : W32) : (s.recordBy k r p c a b).mem = s.mem := rfl
@[simp] theorem State.recordBy_rack (s : State) (k : BitVec 8) (r p : Nat) (c : Code) (a b : W32) : (s.recordBy k r p c a b).rack = s.rack := rfl
@[simp] theorem State.recordBy_cellar (s : State) (k : BitVec 8) (r p : Nat) (c : Code) (a b : W32) : (s.recordBy k r p c a b).cellar = s.cellar := rfl
@[simp] theorem State.recordBy_streams (s : State) (k : BitVec 8) (r p : Nat) (c : Code) (a b : W32) : (s.recordBy k r p c a b).streams = s.streams := rfl
@[simp] theorem State.recordBy_slots (s : State) (k : BitVec 8) (r p : Nat) (c : Code) (a b : W32) : (s.recordBy k r p c a b).slots = s.slots := rfl
@[simp] theorem State.recordBy_reqs (s : State) (k : BitVec 8) (r p : Nat) (c : Code) (a b : W32) : (s.recordBy k r p c a b).reqs = s.reqs := rfl
@[simp] theorem State.recordBy_parts (s : State) (k : BitVec 8) (r p : Nat) (c : Code) (a b : W32) : (s.recordBy k r p c a b).parts = s.parts := rfl
@[simp] theorem State.recordBy_cmds (s : State) (k : BitVec 8) (r p : Nat) (c : Code) (a b : W32) : (s.recordBy k r p c a b).cmds = s.cmds := rfl
@[simp] theorem State.recordBy_nextCmd (s : State) (k : BitVec 8) (r p : Nat) (c : Code) (a b : W32) : (s.recordBy k r p c a b).nextCmd = s.nextCmd := rfl
@[simp] theorem State.recordBy_logs (s : State) (k : BitVec 8) (r p : Nat) (c : Code) (a b : W32) : (s.recordBy k r p c a b).logs = s.logs := rfl
@[simp] theorem State.recordBy_fabric (s : State) (k : BitVec 8) (r p : Nat) (c : Code) (a b : W32) : (s.recordBy k r p c a b).fabric = s.fabric := rfl
@[simp] theorem State.recordBy_channels (s : State) (k : BitVec 8) (r p : Nat) (c : Code) (a b : W32) : (s.recordBy k r p c a b).channels = s.channels := rfl
@[simp] theorem State.recordBy_malt (s : State) (k : BitVec 8) (r p : Nat) (c : Code) (a b : W32) : (s.recordBy k r p c a b).malt = s.malt := rfl
@[simp] theorem State.recordBy_buddy (s : State) (k : BitVec 8) (r p : Nat) (c : Code) (a b : W32) : (s.recordBy k r p c a b).buddy = s.buddy := rfl
@[simp] theorem State.recordBy_power (s : State) (k : BitVec 8) (r p : Nat) (c : Code) (a b : W32) : (s.recordBy k r p c a b).power = s.power := rfl
@[simp] theorem State.recordBy_time (s : State) (k : BitVec 8) (r p : Nat) (c : Code) (a b : W32) : (s.recordBy k r p c a b).time = s.time := rfl
@[simp] theorem State.recordBy_board (s : State) (k : BitVec 8) (r p : Nat) (c : Code) (a b : W32) : (s.recordBy k r p c a b).board = s.board := rfl

/-! ### log -/

@[simp] theorem State.log_pending (s : State) (c : Code) (a b : W32) : (s.log c a b).pending = s.pending := rfl
@[simp] theorem State.log_out (s : State) (c : Code) (a b : W32) : (s.log c a b).out = s.out := rfl
@[simp] theorem State.log_draws (s : State) (c : Code) (a b : W32) : (s.log c a b).draws = s.draws := rfl
@[simp] theorem State.log_port (s : State) (c : Code) (a b : W32) : (s.log c a b).port = s.port := rfl
@[simp] theorem State.log_nor (s : State) (c : Code) (a b : W32) : (s.log c a b).nor = s.nor := rfl
@[simp] theorem State.log_ident (s : State) (c : Code) (a b : W32) : (s.log c a b).ident = s.ident := rfl
@[simp] theorem State.log_sects (s : State) (c : Code) (a b : W32) : (s.log c a b).sects = s.sects := rfl
@[simp] theorem State.log_cores (s : State) (c : Code) (a b : W32) : (s.log c a b).cores = s.cores := rfl
@[simp] theorem State.log_cap (s : State) (c : Code) (a b : W32) : (s.log c a b).cap = s.cap := rfl
@[simp] theorem State.log_coreMem (s : State) (c : Code) (a b : W32) : (s.log c a b).coreMem = s.coreMem := rfl
@[simp] theorem State.log_coreLines (s : State) (c : Code) (a b : W32) : (s.log c a b).coreLines = s.coreLines := rfl
@[simp] theorem State.log_sectMem (s : State) (c : Code) (a b : W32) : (s.log c a b).sectMem = s.sectMem := rfl
@[simp] theorem State.log_sectLines (s : State) (c : Code) (a b : W32) : (s.log c a b).sectLines = s.sectLines := rfl
@[simp] theorem State.log_caskRaw (s : State) (c : Code) (a b : W32) : (s.log c a b).caskRaw = s.caskRaw := rfl
@[simp] theorem State.log_mem (s : State) (c : Code) (a b : W32) : (s.log c a b).mem = s.mem := rfl
@[simp] theorem State.log_rack (s : State) (c : Code) (a b : W32) : (s.log c a b).rack = s.rack := rfl
@[simp] theorem State.log_cellar (s : State) (c : Code) (a b : W32) : (s.log c a b).cellar = s.cellar := rfl
@[simp] theorem State.log_streams (s : State) (c : Code) (a b : W32) : (s.log c a b).streams = s.streams := rfl
@[simp] theorem State.log_slots (s : State) (c : Code) (a b : W32) : (s.log c a b).slots = s.slots := rfl
@[simp] theorem State.log_reqs (s : State) (c : Code) (a b : W32) : (s.log c a b).reqs = s.reqs := rfl
@[simp] theorem State.log_parts (s : State) (c : Code) (a b : W32) : (s.log c a b).parts = s.parts := rfl
@[simp] theorem State.log_cmds (s : State) (c : Code) (a b : W32) : (s.log c a b).cmds = s.cmds := rfl
@[simp] theorem State.log_nextCmd (s : State) (c : Code) (a b : W32) : (s.log c a b).nextCmd = s.nextCmd := rfl
@[simp] theorem State.log_logs (s : State) (c : Code) (a b : W32) : (s.log c a b).logs = s.logs := rfl
@[simp] theorem State.log_fabric (s : State) (c : Code) (a b : W32) : (s.log c a b).fabric = s.fabric := rfl
@[simp] theorem State.log_channels (s : State) (c : Code) (a b : W32) : (s.log c a b).channels = s.channels := rfl
@[simp] theorem State.log_malt (s : State) (c : Code) (a b : W32) : (s.log c a b).malt = s.malt := rfl
@[simp] theorem State.log_buddy (s : State) (c : Code) (a b : W32) : (s.log c a b).buddy = s.buddy := rfl
@[simp] theorem State.log_power (s : State) (c : Code) (a b : W32) : (s.log c a b).power = s.power := rfl
@[simp] theorem State.log_time (s : State) (c : Code) (a b : W32) : (s.log c a b).time = s.time := rfl
@[simp] theorem State.log_board (s : State) (c : Code) (a b : W32) : (s.log c a b).board = s.board := rfl

/-! ### attention -/

@[simp] theorem State.attention_pending (s : State) (n : Nat) (c : Code) (a b : W32) : (s.attention n c a b).pending = s.pending := rfl
@[simp] theorem State.attention_out (s : State) (n : Nat) (c : Code) (a b : W32) : (s.attention n c a b).out = s.out := rfl
@[simp] theorem State.attention_draws (s : State) (n : Nat) (c : Code) (a b : W32) : (s.attention n c a b).draws = s.draws := rfl
@[simp] theorem State.attention_nor (s : State) (n : Nat) (c : Code) (a b : W32) : (s.attention n c a b).nor = s.nor := rfl
@[simp] theorem State.attention_ident (s : State) (n : Nat) (c : Code) (a b : W32) : (s.attention n c a b).ident = s.ident := rfl
@[simp] theorem State.attention_sects (s : State) (n : Nat) (c : Code) (a b : W32) : (s.attention n c a b).sects = s.sects := rfl
@[simp] theorem State.attention_cores (s : State) (n : Nat) (c : Code) (a b : W32) : (s.attention n c a b).cores = s.cores := rfl
@[simp] theorem State.attention_cap (s : State) (n : Nat) (c : Code) (a b : W32) : (s.attention n c a b).cap = s.cap := rfl
@[simp] theorem State.attention_coreMem (s : State) (n : Nat) (c : Code) (a b : W32) : (s.attention n c a b).coreMem = s.coreMem := rfl
@[simp] theorem State.attention_coreLines (s : State) (n : Nat) (c : Code) (a b : W32) : (s.attention n c a b).coreLines = s.coreLines := rfl
@[simp] theorem State.attention_sectMem (s : State) (n : Nat) (c : Code) (a b : W32) : (s.attention n c a b).sectMem = s.sectMem := rfl
@[simp] theorem State.attention_sectLines (s : State) (n : Nat) (c : Code) (a b : W32) : (s.attention n c a b).sectLines = s.sectLines := rfl
@[simp] theorem State.attention_caskRaw (s : State) (n : Nat) (c : Code) (a b : W32) : (s.attention n c a b).caskRaw = s.caskRaw := rfl
@[simp] theorem State.attention_mem (s : State) (n : Nat) (c : Code) (a b : W32) : (s.attention n c a b).mem = s.mem := rfl
@[simp] theorem State.attention_rack (s : State) (n : Nat) (c : Code) (a b : W32) : (s.attention n c a b).rack = s.rack := rfl
@[simp] theorem State.attention_cellar (s : State) (n : Nat) (c : Code) (a b : W32) : (s.attention n c a b).cellar = s.cellar := rfl
@[simp] theorem State.attention_streams (s : State) (n : Nat) (c : Code) (a b : W32) : (s.attention n c a b).streams = s.streams := rfl
@[simp] theorem State.attention_slots (s : State) (n : Nat) (c : Code) (a b : W32) : (s.attention n c a b).slots = s.slots := rfl
@[simp] theorem State.attention_reqs (s : State) (n : Nat) (c : Code) (a b : W32) : (s.attention n c a b).reqs = s.reqs := rfl
@[simp] theorem State.attention_parts (s : State) (n : Nat) (c : Code) (a b : W32) : (s.attention n c a b).parts = s.parts := rfl
@[simp] theorem State.attention_cmds (s : State) (n : Nat) (c : Code) (a b : W32) : (s.attention n c a b).cmds = s.cmds := rfl
@[simp] theorem State.attention_nextCmd (s : State) (n : Nat) (c : Code) (a b : W32) : (s.attention n c a b).nextCmd = s.nextCmd := rfl
@[simp] theorem State.attention_logs (s : State) (n : Nat) (c : Code) (a b : W32) : (s.attention n c a b).logs = s.logs := rfl
@[simp] theorem State.attention_fabric (s : State) (n : Nat) (c : Code) (a b : W32) : (s.attention n c a b).fabric = s.fabric := rfl
@[simp] theorem State.attention_channels (s : State) (n : Nat) (c : Code) (a b : W32) : (s.attention n c a b).channels = s.channels := rfl
@[simp] theorem State.attention_malt (s : State) (n : Nat) (c : Code) (a b : W32) : (s.attention n c a b).malt = s.malt := rfl
@[simp] theorem State.attention_buddy (s : State) (n : Nat) (c : Code) (a b : W32) : (s.attention n c a b).buddy = s.buddy := rfl
@[simp] theorem State.attention_power (s : State) (n : Nat) (c : Code) (a b : W32) : (s.attention n c a b).power = s.power := rfl
@[simp] theorem State.attention_time (s : State) (n : Nat) (c : Code) (a b : W32) : (s.attention n c a b).time = s.time := rfl
@[simp] theorem State.attention_board (s : State) (n : Nat) (c : Code) (a b : W32) : (s.attention n c a b).board = s.board := rfl

/-! ### modRack -/

@[simp] theorem State.modRack_pending (s : State) (f : Rack → Rack) : (s.modRack f).pending = s.pending := rfl
@[simp] theorem State.modRack_out (s : State) (f : Rack → Rack) : (s.modRack f).out = s.out := rfl
@[simp] theorem State.modRack_draws (s : State) (f : Rack → Rack) : (s.modRack f).draws = s.draws := rfl
@[simp] theorem State.modRack_port (s : State) (f : Rack → Rack) : (s.modRack f).port = s.port := rfl
@[simp] theorem State.modRack_nor (s : State) (f : Rack → Rack) : (s.modRack f).nor = s.nor := rfl
@[simp] theorem State.modRack_ident (s : State) (f : Rack → Rack) : (s.modRack f).ident = s.ident := rfl
@[simp] theorem State.modRack_errata (s : State) (f : Rack → Rack) : (s.modRack f).errata = s.errata := rfl
@[simp] theorem State.modRack_sects (s : State) (f : Rack → Rack) : (s.modRack f).sects = s.sects := rfl
@[simp] theorem State.modRack_cores (s : State) (f : Rack → Rack) : (s.modRack f).cores = s.cores := rfl
@[simp] theorem State.modRack_cap (s : State) (f : Rack → Rack) : (s.modRack f).cap = s.cap := rfl
@[simp] theorem State.modRack_coreMem (s : State) (f : Rack → Rack) : (s.modRack f).coreMem = s.coreMem := rfl
@[simp] theorem State.modRack_coreLines (s : State) (f : Rack → Rack) : (s.modRack f).coreLines = s.coreLines := rfl
@[simp] theorem State.modRack_sectMem (s : State) (f : Rack → Rack) : (s.modRack f).sectMem = s.sectMem := rfl
@[simp] theorem State.modRack_sectLines (s : State) (f : Rack → Rack) : (s.modRack f).sectLines = s.sectLines := rfl
@[simp] theorem State.modRack_caskRaw (s : State) (f : Rack → Rack) : (s.modRack f).caskRaw = s.caskRaw := rfl
@[simp] theorem State.modRack_mem (s : State) (f : Rack → Rack) : (s.modRack f).mem = s.mem := rfl
@[simp] theorem State.modRack_cellar (s : State) (f : Rack → Rack) : (s.modRack f).cellar = s.cellar := rfl
@[simp] theorem State.modRack_streams (s : State) (f : Rack → Rack) : (s.modRack f).streams = s.streams := rfl
@[simp] theorem State.modRack_slots (s : State) (f : Rack → Rack) : (s.modRack f).slots = s.slots := rfl
@[simp] theorem State.modRack_reqs (s : State) (f : Rack → Rack) : (s.modRack f).reqs = s.reqs := rfl
@[simp] theorem State.modRack_parts (s : State) (f : Rack → Rack) : (s.modRack f).parts = s.parts := rfl
@[simp] theorem State.modRack_cmds (s : State) (f : Rack → Rack) : (s.modRack f).cmds = s.cmds := rfl
@[simp] theorem State.modRack_nextCmd (s : State) (f : Rack → Rack) : (s.modRack f).nextCmd = s.nextCmd := rfl
@[simp] theorem State.modRack_logs (s : State) (f : Rack → Rack) : (s.modRack f).logs = s.logs := rfl
@[simp] theorem State.modRack_fabric (s : State) (f : Rack → Rack) : (s.modRack f).fabric = s.fabric := rfl
@[simp] theorem State.modRack_channels (s : State) (f : Rack → Rack) : (s.modRack f).channels = s.channels := rfl
@[simp] theorem State.modRack_malt (s : State) (f : Rack → Rack) : (s.modRack f).malt = s.malt := rfl
@[simp] theorem State.modRack_buddy (s : State) (f : Rack → Rack) : (s.modRack f).buddy = s.buddy := rfl
@[simp] theorem State.modRack_power (s : State) (f : Rack → Rack) : (s.modRack f).power = s.power := rfl
@[simp] theorem State.modRack_time (s : State) (f : Rack → Rack) : (s.modRack f).time = s.time := rfl
@[simp] theorem State.modRack_board (s : State) (f : Rack → Rack) : (s.modRack f).board = s.board := rfl

/-! ### setLeaf -/

@[simp] theorem State.setLeaf_pending (s : State) (h : Handle) (e : Leaf) : (s.setLeaf h e).pending = s.pending := rfl
@[simp] theorem State.setLeaf_out (s : State) (h : Handle) (e : Leaf) : (s.setLeaf h e).out = s.out := rfl
@[simp] theorem State.setLeaf_draws (s : State) (h : Handle) (e : Leaf) : (s.setLeaf h e).draws = s.draws := rfl
@[simp] theorem State.setLeaf_port (s : State) (h : Handle) (e : Leaf) : (s.setLeaf h e).port = s.port := rfl
@[simp] theorem State.setLeaf_nor (s : State) (h : Handle) (e : Leaf) : (s.setLeaf h e).nor = s.nor := rfl
@[simp] theorem State.setLeaf_ident (s : State) (h : Handle) (e : Leaf) : (s.setLeaf h e).ident = s.ident := rfl
@[simp] theorem State.setLeaf_errata (s : State) (h : Handle) (e : Leaf) : (s.setLeaf h e).errata = s.errata := rfl
@[simp] theorem State.setLeaf_sects (s : State) (h : Handle) (e : Leaf) : (s.setLeaf h e).sects = s.sects := rfl
@[simp] theorem State.setLeaf_cores (s : State) (h : Handle) (e : Leaf) : (s.setLeaf h e).cores = s.cores := rfl
@[simp] theorem State.setLeaf_cap (s : State) (h : Handle) (e : Leaf) : (s.setLeaf h e).cap = s.cap := rfl
@[simp] theorem State.setLeaf_coreMem (s : State) (h : Handle) (e : Leaf) : (s.setLeaf h e).coreMem = s.coreMem := rfl
@[simp] theorem State.setLeaf_coreLines (s : State) (h : Handle) (e : Leaf) : (s.setLeaf h e).coreLines = s.coreLines := rfl
@[simp] theorem State.setLeaf_sectMem (s : State) (h : Handle) (e : Leaf) : (s.setLeaf h e).sectMem = s.sectMem := rfl
@[simp] theorem State.setLeaf_sectLines (s : State) (h : Handle) (e : Leaf) : (s.setLeaf h e).sectLines = s.sectLines := rfl
@[simp] theorem State.setLeaf_caskRaw (s : State) (h : Handle) (e : Leaf) : (s.setLeaf h e).caskRaw = s.caskRaw := rfl
@[simp] theorem State.setLeaf_mem (s : State) (h : Handle) (e : Leaf) : (s.setLeaf h e).mem = s.mem := rfl
@[simp] theorem State.setLeaf_cellar (s : State) (h : Handle) (e : Leaf) : (s.setLeaf h e).cellar = s.cellar := rfl
@[simp] theorem State.setLeaf_streams (s : State) (h : Handle) (e : Leaf) : (s.setLeaf h e).streams = s.streams := rfl
@[simp] theorem State.setLeaf_slots (s : State) (h : Handle) (e : Leaf) : (s.setLeaf h e).slots = s.slots := rfl
@[simp] theorem State.setLeaf_reqs (s : State) (h : Handle) (e : Leaf) : (s.setLeaf h e).reqs = s.reqs := rfl
@[simp] theorem State.setLeaf_parts (s : State) (h : Handle) (e : Leaf) : (s.setLeaf h e).parts = s.parts := rfl
@[simp] theorem State.setLeaf_cmds (s : State) (h : Handle) (e : Leaf) : (s.setLeaf h e).cmds = s.cmds := rfl
@[simp] theorem State.setLeaf_nextCmd (s : State) (h : Handle) (e : Leaf) : (s.setLeaf h e).nextCmd = s.nextCmd := rfl
@[simp] theorem State.setLeaf_logs (s : State) (h : Handle) (e : Leaf) : (s.setLeaf h e).logs = s.logs := rfl
@[simp] theorem State.setLeaf_fabric (s : State) (h : Handle) (e : Leaf) : (s.setLeaf h e).fabric = s.fabric := rfl
@[simp] theorem State.setLeaf_channels (s : State) (h : Handle) (e : Leaf) : (s.setLeaf h e).channels = s.channels := rfl
@[simp] theorem State.setLeaf_malt (s : State) (h : Handle) (e : Leaf) : (s.setLeaf h e).malt = s.malt := rfl
@[simp] theorem State.setLeaf_buddy (s : State) (h : Handle) (e : Leaf) : (s.setLeaf h e).buddy = s.buddy := rfl
@[simp] theorem State.setLeaf_power (s : State) (h : Handle) (e : Leaf) : (s.setLeaf h e).power = s.power := rfl
@[simp] theorem State.setLeaf_time (s : State) (h : Handle) (e : Leaf) : (s.setLeaf h e).time = s.time := rfl
@[simp] theorem State.setLeaf_board (s : State) (h : Handle) (e : Leaf) : (s.setLeaf h e).board = s.board := rfl

/-! ### modLeaf -/

@[simp] theorem State.modLeaf_pending (s : State) (h : Handle) (f : Leaf → Leaf) : (s.modLeaf h f).pending = s.pending := rfl
@[simp] theorem State.modLeaf_out (s : State) (h : Handle) (f : Leaf → Leaf) : (s.modLeaf h f).out = s.out := rfl
@[simp] theorem State.modLeaf_draws (s : State) (h : Handle) (f : Leaf → Leaf) : (s.modLeaf h f).draws = s.draws := rfl
@[simp] theorem State.modLeaf_port (s : State) (h : Handle) (f : Leaf → Leaf) : (s.modLeaf h f).port = s.port := rfl
@[simp] theorem State.modLeaf_nor (s : State) (h : Handle) (f : Leaf → Leaf) : (s.modLeaf h f).nor = s.nor := rfl
@[simp] theorem State.modLeaf_ident (s : State) (h : Handle) (f : Leaf → Leaf) : (s.modLeaf h f).ident = s.ident := rfl
@[simp] theorem State.modLeaf_errata (s : State) (h : Handle) (f : Leaf → Leaf) : (s.modLeaf h f).errata = s.errata := rfl
@[simp] theorem State.modLeaf_sects (s : State) (h : Handle) (f : Leaf → Leaf) : (s.modLeaf h f).sects = s.sects := rfl
@[simp] theorem State.modLeaf_cores (s : State) (h : Handle) (f : Leaf → Leaf) : (s.modLeaf h f).cores = s.cores := rfl
@[simp] theorem State.modLeaf_cap (s : State) (h : Handle) (f : Leaf → Leaf) : (s.modLeaf h f).cap = s.cap := rfl
@[simp] theorem State.modLeaf_coreMem (s : State) (h : Handle) (f : Leaf → Leaf) : (s.modLeaf h f).coreMem = s.coreMem := rfl
@[simp] theorem State.modLeaf_coreLines (s : State) (h : Handle) (f : Leaf → Leaf) : (s.modLeaf h f).coreLines = s.coreLines := rfl
@[simp] theorem State.modLeaf_sectMem (s : State) (h : Handle) (f : Leaf → Leaf) : (s.modLeaf h f).sectMem = s.sectMem := rfl
@[simp] theorem State.modLeaf_sectLines (s : State) (h : Handle) (f : Leaf → Leaf) : (s.modLeaf h f).sectLines = s.sectLines := rfl
@[simp] theorem State.modLeaf_caskRaw (s : State) (h : Handle) (f : Leaf → Leaf) : (s.modLeaf h f).caskRaw = s.caskRaw := rfl
@[simp] theorem State.modLeaf_mem (s : State) (h : Handle) (f : Leaf → Leaf) : (s.modLeaf h f).mem = s.mem := rfl
@[simp] theorem State.modLeaf_cellar (s : State) (h : Handle) (f : Leaf → Leaf) : (s.modLeaf h f).cellar = s.cellar := rfl
@[simp] theorem State.modLeaf_streams (s : State) (h : Handle) (f : Leaf → Leaf) : (s.modLeaf h f).streams = s.streams := rfl
@[simp] theorem State.modLeaf_slots (s : State) (h : Handle) (f : Leaf → Leaf) : (s.modLeaf h f).slots = s.slots := rfl
@[simp] theorem State.modLeaf_reqs (s : State) (h : Handle) (f : Leaf → Leaf) : (s.modLeaf h f).reqs = s.reqs := rfl
@[simp] theorem State.modLeaf_parts (s : State) (h : Handle) (f : Leaf → Leaf) : (s.modLeaf h f).parts = s.parts := rfl
@[simp] theorem State.modLeaf_cmds (s : State) (h : Handle) (f : Leaf → Leaf) : (s.modLeaf h f).cmds = s.cmds := rfl
@[simp] theorem State.modLeaf_nextCmd (s : State) (h : Handle) (f : Leaf → Leaf) : (s.modLeaf h f).nextCmd = s.nextCmd := rfl
@[simp] theorem State.modLeaf_logs (s : State) (h : Handle) (f : Leaf → Leaf) : (s.modLeaf h f).logs = s.logs := rfl
@[simp] theorem State.modLeaf_fabric (s : State) (h : Handle) (f : Leaf → Leaf) : (s.modLeaf h f).fabric = s.fabric := rfl
@[simp] theorem State.modLeaf_channels (s : State) (h : Handle) (f : Leaf → Leaf) : (s.modLeaf h f).channels = s.channels := rfl
@[simp] theorem State.modLeaf_malt (s : State) (h : Handle) (f : Leaf → Leaf) : (s.modLeaf h f).malt = s.malt := rfl
@[simp] theorem State.modLeaf_buddy (s : State) (h : Handle) (f : Leaf → Leaf) : (s.modLeaf h f).buddy = s.buddy := rfl
@[simp] theorem State.modLeaf_power (s : State) (h : Handle) (f : Leaf → Leaf) : (s.modLeaf h f).power = s.power := rfl
@[simp] theorem State.modLeaf_time (s : State) (h : Handle) (f : Leaf → Leaf) : (s.modLeaf h f).time = s.time := rfl
@[simp] theorem State.modLeaf_board (s : State) (h : Handle) (f : Leaf → Leaf) : (s.modLeaf h f).board = s.board := rfl

/-! ### setFrame -/

@[simp] theorem State.setFrame_pending (s : State) (n : Nat) (b : Bytes) : (s.setFrame n b).pending = s.pending := rfl
@[simp] theorem State.setFrame_out (s : State) (n : Nat) (b : Bytes) : (s.setFrame n b).out = s.out := rfl
@[simp] theorem State.setFrame_draws (s : State) (n : Nat) (b : Bytes) : (s.setFrame n b).draws = s.draws := rfl
@[simp] theorem State.setFrame_port (s : State) (n : Nat) (b : Bytes) : (s.setFrame n b).port = s.port := rfl
@[simp] theorem State.setFrame_nor (s : State) (n : Nat) (b : Bytes) : (s.setFrame n b).nor = s.nor := rfl
@[simp] theorem State.setFrame_ident (s : State) (n : Nat) (b : Bytes) : (s.setFrame n b).ident = s.ident := rfl
@[simp] theorem State.setFrame_errata (s : State) (n : Nat) (b : Bytes) : (s.setFrame n b).errata = s.errata := rfl
@[simp] theorem State.setFrame_sects (s : State) (n : Nat) (b : Bytes) : (s.setFrame n b).sects = s.sects := rfl
@[simp] theorem State.setFrame_cores (s : State) (n : Nat) (b : Bytes) : (s.setFrame n b).cores = s.cores := rfl
@[simp] theorem State.setFrame_cap (s : State) (n : Nat) (b : Bytes) : (s.setFrame n b).cap = s.cap := rfl
@[simp] theorem State.setFrame_coreMem (s : State) (n : Nat) (b : Bytes) : (s.setFrame n b).coreMem = s.coreMem := rfl
@[simp] theorem State.setFrame_coreLines (s : State) (n : Nat) (b : Bytes) : (s.setFrame n b).coreLines = s.coreLines := rfl
@[simp] theorem State.setFrame_sectMem (s : State) (n : Nat) (b : Bytes) : (s.setFrame n b).sectMem = s.sectMem := rfl
@[simp] theorem State.setFrame_sectLines (s : State) (n : Nat) (b : Bytes) : (s.setFrame n b).sectLines = s.sectLines := rfl
@[simp] theorem State.setFrame_caskRaw (s : State) (n : Nat) (b : Bytes) : (s.setFrame n b).caskRaw = s.caskRaw := rfl
@[simp] theorem State.setFrame_mem (s : State) (n : Nat) (b : Bytes) : (s.setFrame n b).mem = s.mem := rfl
@[simp] theorem State.setFrame_cellar (s : State) (n : Nat) (b : Bytes) : (s.setFrame n b).cellar = s.cellar := rfl
@[simp] theorem State.setFrame_streams (s : State) (n : Nat) (b : Bytes) : (s.setFrame n b).streams = s.streams := rfl
@[simp] theorem State.setFrame_slots (s : State) (n : Nat) (b : Bytes) : (s.setFrame n b).slots = s.slots := rfl
@[simp] theorem State.setFrame_reqs (s : State) (n : Nat) (b : Bytes) : (s.setFrame n b).reqs = s.reqs := rfl
@[simp] theorem State.setFrame_parts (s : State) (n : Nat) (b : Bytes) : (s.setFrame n b).parts = s.parts := rfl
@[simp] theorem State.setFrame_cmds (s : State) (n : Nat) (b : Bytes) : (s.setFrame n b).cmds = s.cmds := rfl
@[simp] theorem State.setFrame_nextCmd (s : State) (n : Nat) (b : Bytes) : (s.setFrame n b).nextCmd = s.nextCmd := rfl
@[simp] theorem State.setFrame_logs (s : State) (n : Nat) (b : Bytes) : (s.setFrame n b).logs = s.logs := rfl
@[simp] theorem State.setFrame_fabric (s : State) (n : Nat) (b : Bytes) : (s.setFrame n b).fabric = s.fabric := rfl
@[simp] theorem State.setFrame_channels (s : State) (n : Nat) (b : Bytes) : (s.setFrame n b).channels = s.channels := rfl
@[simp] theorem State.setFrame_malt (s : State) (n : Nat) (b : Bytes) : (s.setFrame n b).malt = s.malt := rfl
@[simp] theorem State.setFrame_buddy (s : State) (n : Nat) (b : Bytes) : (s.setFrame n b).buddy = s.buddy := rfl
@[simp] theorem State.setFrame_power (s : State) (n : Nat) (b : Bytes) : (s.setFrame n b).power = s.power := rfl
@[simp] theorem State.setFrame_time (s : State) (n : Nat) (b : Bytes) : (s.setFrame n b).time = s.time := rfl
@[simp] theorem State.setFrame_board (s : State) (n : Nat) (b : Bytes) : (s.setFrame n b).board = s.board := rfl

/-! ### modCellar -/

@[simp] theorem State.modCellar_pending (s : State) (f : Cellar → Cellar) : (s.modCellar f).pending = s.pending := rfl
@[simp] theorem State.modCellar_out (s : State) (f : Cellar → Cellar) : (s.modCellar f).out = s.out := rfl
@[simp] theorem State.modCellar_draws (s : State) (f : Cellar → Cellar) : (s.modCellar f).draws = s.draws := rfl
@[simp] theorem State.modCellar_port (s : State) (f : Cellar → Cellar) : (s.modCellar f).port = s.port := rfl
@[simp] theorem State.modCellar_nor (s : State) (f : Cellar → Cellar) : (s.modCellar f).nor = s.nor := rfl
@[simp] theorem State.modCellar_ident (s : State) (f : Cellar → Cellar) : (s.modCellar f).ident = s.ident := rfl
@[simp] theorem State.modCellar_errata (s : State) (f : Cellar → Cellar) : (s.modCellar f).errata = s.errata := rfl
@[simp] theorem State.modCellar_sects (s : State) (f : Cellar → Cellar) : (s.modCellar f).sects = s.sects := rfl
@[simp] theorem State.modCellar_cores (s : State) (f : Cellar → Cellar) : (s.modCellar f).cores = s.cores := rfl
@[simp] theorem State.modCellar_cap (s : State) (f : Cellar → Cellar) : (s.modCellar f).cap = s.cap := rfl
@[simp] theorem State.modCellar_coreMem (s : State) (f : Cellar → Cellar) : (s.modCellar f).coreMem = s.coreMem := rfl
@[simp] theorem State.modCellar_coreLines (s : State) (f : Cellar → Cellar) : (s.modCellar f).coreLines = s.coreLines := rfl
@[simp] theorem State.modCellar_sectMem (s : State) (f : Cellar → Cellar) : (s.modCellar f).sectMem = s.sectMem := rfl
@[simp] theorem State.modCellar_sectLines (s : State) (f : Cellar → Cellar) : (s.modCellar f).sectLines = s.sectLines := rfl
@[simp] theorem State.modCellar_caskRaw (s : State) (f : Cellar → Cellar) : (s.modCellar f).caskRaw = s.caskRaw := rfl
@[simp] theorem State.modCellar_mem (s : State) (f : Cellar → Cellar) : (s.modCellar f).mem = s.mem := rfl
@[simp] theorem State.modCellar_rack (s : State) (f : Cellar → Cellar) : (s.modCellar f).rack = s.rack := rfl
@[simp] theorem State.modCellar_streams (s : State) (f : Cellar → Cellar) : (s.modCellar f).streams = s.streams := rfl
@[simp] theorem State.modCellar_slots (s : State) (f : Cellar → Cellar) : (s.modCellar f).slots = s.slots := rfl
@[simp] theorem State.modCellar_reqs (s : State) (f : Cellar → Cellar) : (s.modCellar f).reqs = s.reqs := rfl
@[simp] theorem State.modCellar_parts (s : State) (f : Cellar → Cellar) : (s.modCellar f).parts = s.parts := rfl
@[simp] theorem State.modCellar_cmds (s : State) (f : Cellar → Cellar) : (s.modCellar f).cmds = s.cmds := rfl
@[simp] theorem State.modCellar_nextCmd (s : State) (f : Cellar → Cellar) : (s.modCellar f).nextCmd = s.nextCmd := rfl
@[simp] theorem State.modCellar_logs (s : State) (f : Cellar → Cellar) : (s.modCellar f).logs = s.logs := rfl
@[simp] theorem State.modCellar_fabric (s : State) (f : Cellar → Cellar) : (s.modCellar f).fabric = s.fabric := rfl
@[simp] theorem State.modCellar_channels (s : State) (f : Cellar → Cellar) : (s.modCellar f).channels = s.channels := rfl
@[simp] theorem State.modCellar_malt (s : State) (f : Cellar → Cellar) : (s.modCellar f).malt = s.malt := rfl
@[simp] theorem State.modCellar_buddy (s : State) (f : Cellar → Cellar) : (s.modCellar f).buddy = s.buddy := rfl
@[simp] theorem State.modCellar_power (s : State) (f : Cellar → Cellar) : (s.modCellar f).power = s.power := rfl
@[simp] theorem State.modCellar_time (s : State) (f : Cellar → Cellar) : (s.modCellar f).time = s.time := rfl
@[simp] theorem State.modCellar_board (s : State) (f : Cellar → Cellar) : (s.modCellar f).board = s.board := rfl

/-! ### setStream -/

@[simp] theorem State.setStream_pending (s : State) (i : Nat) (e : Stream) : (s.setStream i e).pending = s.pending := rfl
@[simp] theorem State.setStream_out (s : State) (i : Nat) (e : Stream) : (s.setStream i e).out = s.out := rfl
@[simp] theorem State.setStream_draws (s : State) (i : Nat) (e : Stream) : (s.setStream i e).draws = s.draws := rfl
@[simp] theorem State.setStream_port (s : State) (i : Nat) (e : Stream) : (s.setStream i e).port = s.port := rfl
@[simp] theorem State.setStream_nor (s : State) (i : Nat) (e : Stream) : (s.setStream i e).nor = s.nor := rfl
@[simp] theorem State.setStream_ident (s : State) (i : Nat) (e : Stream) : (s.setStream i e).ident = s.ident := rfl
@[simp] theorem State.setStream_errata (s : State) (i : Nat) (e : Stream) : (s.setStream i e).errata = s.errata := rfl
@[simp] theorem State.setStream_sects (s : State) (i : Nat) (e : Stream) : (s.setStream i e).sects = s.sects := rfl
@[simp] theorem State.setStream_cores (s : State) (i : Nat) (e : Stream) : (s.setStream i e).cores = s.cores := rfl
@[simp] theorem State.setStream_cap (s : State) (i : Nat) (e : Stream) : (s.setStream i e).cap = s.cap := rfl
@[simp] theorem State.setStream_coreMem (s : State) (i : Nat) (e : Stream) : (s.setStream i e).coreMem = s.coreMem := rfl
@[simp] theorem State.setStream_coreLines (s : State) (i : Nat) (e : Stream) : (s.setStream i e).coreLines = s.coreLines := rfl
@[simp] theorem State.setStream_sectMem (s : State) (i : Nat) (e : Stream) : (s.setStream i e).sectMem = s.sectMem := rfl
@[simp] theorem State.setStream_sectLines (s : State) (i : Nat) (e : Stream) : (s.setStream i e).sectLines = s.sectLines := rfl
@[simp] theorem State.setStream_caskRaw (s : State) (i : Nat) (e : Stream) : (s.setStream i e).caskRaw = s.caskRaw := rfl
@[simp] theorem State.setStream_mem (s : State) (i : Nat) (e : Stream) : (s.setStream i e).mem = s.mem := rfl
@[simp] theorem State.setStream_rack (s : State) (i : Nat) (e : Stream) : (s.setStream i e).rack = s.rack := rfl
@[simp] theorem State.setStream_cellar (s : State) (i : Nat) (e : Stream) : (s.setStream i e).cellar = s.cellar := rfl
@[simp] theorem State.setStream_slots (s : State) (i : Nat) (e : Stream) : (s.setStream i e).slots = s.slots := rfl
@[simp] theorem State.setStream_reqs (s : State) (i : Nat) (e : Stream) : (s.setStream i e).reqs = s.reqs := rfl
@[simp] theorem State.setStream_parts (s : State) (i : Nat) (e : Stream) : (s.setStream i e).parts = s.parts := rfl
@[simp] theorem State.setStream_cmds (s : State) (i : Nat) (e : Stream) : (s.setStream i e).cmds = s.cmds := rfl
@[simp] theorem State.setStream_nextCmd (s : State) (i : Nat) (e : Stream) : (s.setStream i e).nextCmd = s.nextCmd := rfl
@[simp] theorem State.setStream_logs (s : State) (i : Nat) (e : Stream) : (s.setStream i e).logs = s.logs := rfl
@[simp] theorem State.setStream_fabric (s : State) (i : Nat) (e : Stream) : (s.setStream i e).fabric = s.fabric := rfl
@[simp] theorem State.setStream_channels (s : State) (i : Nat) (e : Stream) : (s.setStream i e).channels = s.channels := rfl
@[simp] theorem State.setStream_malt (s : State) (i : Nat) (e : Stream) : (s.setStream i e).malt = s.malt := rfl
@[simp] theorem State.setStream_buddy (s : State) (i : Nat) (e : Stream) : (s.setStream i e).buddy = s.buddy := rfl
@[simp] theorem State.setStream_power (s : State) (i : Nat) (e : Stream) : (s.setStream i e).power = s.power := rfl
@[simp] theorem State.setStream_time (s : State) (i : Nat) (e : Stream) : (s.setStream i e).time = s.time := rfl
@[simp] theorem State.setStream_board (s : State) (i : Nat) (e : Stream) : (s.setStream i e).board = s.board := rfl

/-! ### modStream -/

@[simp] theorem State.modStream_pending (s : State) (i : Nat) (f : Stream → Stream) : (s.modStream i f).pending = s.pending := rfl
@[simp] theorem State.modStream_out (s : State) (i : Nat) (f : Stream → Stream) : (s.modStream i f).out = s.out := rfl
@[simp] theorem State.modStream_draws (s : State) (i : Nat) (f : Stream → Stream) : (s.modStream i f).draws = s.draws := rfl
@[simp] theorem State.modStream_port (s : State) (i : Nat) (f : Stream → Stream) : (s.modStream i f).port = s.port := rfl
@[simp] theorem State.modStream_nor (s : State) (i : Nat) (f : Stream → Stream) : (s.modStream i f).nor = s.nor := rfl
@[simp] theorem State.modStream_ident (s : State) (i : Nat) (f : Stream → Stream) : (s.modStream i f).ident = s.ident := rfl
@[simp] theorem State.modStream_errata (s : State) (i : Nat) (f : Stream → Stream) : (s.modStream i f).errata = s.errata := rfl
@[simp] theorem State.modStream_sects (s : State) (i : Nat) (f : Stream → Stream) : (s.modStream i f).sects = s.sects := rfl
@[simp] theorem State.modStream_cores (s : State) (i : Nat) (f : Stream → Stream) : (s.modStream i f).cores = s.cores := rfl
@[simp] theorem State.modStream_cap (s : State) (i : Nat) (f : Stream → Stream) : (s.modStream i f).cap = s.cap := rfl
@[simp] theorem State.modStream_coreMem (s : State) (i : Nat) (f : Stream → Stream) : (s.modStream i f).coreMem = s.coreMem := rfl
@[simp] theorem State.modStream_coreLines (s : State) (i : Nat) (f : Stream → Stream) : (s.modStream i f).coreLines = s.coreLines := rfl
@[simp] theorem State.modStream_sectMem (s : State) (i : Nat) (f : Stream → Stream) : (s.modStream i f).sectMem = s.sectMem := rfl
@[simp] theorem State.modStream_sectLines (s : State) (i : Nat) (f : Stream → Stream) : (s.modStream i f).sectLines = s.sectLines := rfl
@[simp] theorem State.modStream_caskRaw (s : State) (i : Nat) (f : Stream → Stream) : (s.modStream i f).caskRaw = s.caskRaw := rfl
@[simp] theorem State.modStream_mem (s : State) (i : Nat) (f : Stream → Stream) : (s.modStream i f).mem = s.mem := rfl
@[simp] theorem State.modStream_rack (s : State) (i : Nat) (f : Stream → Stream) : (s.modStream i f).rack = s.rack := rfl
@[simp] theorem State.modStream_cellar (s : State) (i : Nat) (f : Stream → Stream) : (s.modStream i f).cellar = s.cellar := rfl
@[simp] theorem State.modStream_slots (s : State) (i : Nat) (f : Stream → Stream) : (s.modStream i f).slots = s.slots := rfl
@[simp] theorem State.modStream_reqs (s : State) (i : Nat) (f : Stream → Stream) : (s.modStream i f).reqs = s.reqs := rfl
@[simp] theorem State.modStream_parts (s : State) (i : Nat) (f : Stream → Stream) : (s.modStream i f).parts = s.parts := rfl
@[simp] theorem State.modStream_cmds (s : State) (i : Nat) (f : Stream → Stream) : (s.modStream i f).cmds = s.cmds := rfl
@[simp] theorem State.modStream_nextCmd (s : State) (i : Nat) (f : Stream → Stream) : (s.modStream i f).nextCmd = s.nextCmd := rfl
@[simp] theorem State.modStream_logs (s : State) (i : Nat) (f : Stream → Stream) : (s.modStream i f).logs = s.logs := rfl
@[simp] theorem State.modStream_fabric (s : State) (i : Nat) (f : Stream → Stream) : (s.modStream i f).fabric = s.fabric := rfl
@[simp] theorem State.modStream_channels (s : State) (i : Nat) (f : Stream → Stream) : (s.modStream i f).channels = s.channels := rfl
@[simp] theorem State.modStream_malt (s : State) (i : Nat) (f : Stream → Stream) : (s.modStream i f).malt = s.malt := rfl
@[simp] theorem State.modStream_buddy (s : State) (i : Nat) (f : Stream → Stream) : (s.modStream i f).buddy = s.buddy := rfl
@[simp] theorem State.modStream_power (s : State) (i : Nat) (f : Stream → Stream) : (s.modStream i f).power = s.power := rfl
@[simp] theorem State.modStream_time (s : State) (i : Nat) (f : Stream → Stream) : (s.modStream i f).time = s.time := rfl
@[simp] theorem State.modStream_board (s : State) (i : Nat) (f : Stream → Stream) : (s.modStream i f).board = s.board := rfl

/-! ### modSlot -/

@[simp] theorem State.modSlot_pending (s : State) (j : Nat) (f : Slot → Slot) : (s.modSlot j f).pending = s.pending := rfl
@[simp] theorem State.modSlot_out (s : State) (j : Nat) (f : Slot → Slot) : (s.modSlot j f).out = s.out := rfl
@[simp] theorem State.modSlot_draws (s : State) (j : Nat) (f : Slot → Slot) : (s.modSlot j f).draws = s.draws := rfl
@[simp] theorem State.modSlot_port (s : State) (j : Nat) (f : Slot → Slot) : (s.modSlot j f).port = s.port := rfl
@[simp] theorem State.modSlot_nor (s : State) (j : Nat) (f : Slot → Slot) : (s.modSlot j f).nor = s.nor := rfl
@[simp] theorem State.modSlot_ident (s : State) (j : Nat) (f : Slot → Slot) : (s.modSlot j f).ident = s.ident := rfl
@[simp] theorem State.modSlot_errata (s : State) (j : Nat) (f : Slot → Slot) : (s.modSlot j f).errata = s.errata := rfl
@[simp] theorem State.modSlot_sects (s : State) (j : Nat) (f : Slot → Slot) : (s.modSlot j f).sects = s.sects := rfl
@[simp] theorem State.modSlot_cores (s : State) (j : Nat) (f : Slot → Slot) : (s.modSlot j f).cores = s.cores := rfl
@[simp] theorem State.modSlot_cap (s : State) (j : Nat) (f : Slot → Slot) : (s.modSlot j f).cap = s.cap := rfl
@[simp] theorem State.modSlot_coreMem (s : State) (j : Nat) (f : Slot → Slot) : (s.modSlot j f).coreMem = s.coreMem := rfl
@[simp] theorem State.modSlot_coreLines (s : State) (j : Nat) (f : Slot → Slot) : (s.modSlot j f).coreLines = s.coreLines := rfl
@[simp] theorem State.modSlot_sectMem (s : State) (j : Nat) (f : Slot → Slot) : (s.modSlot j f).sectMem = s.sectMem := rfl
@[simp] theorem State.modSlot_sectLines (s : State) (j : Nat) (f : Slot → Slot) : (s.modSlot j f).sectLines = s.sectLines := rfl
@[simp] theorem State.modSlot_caskRaw (s : State) (j : Nat) (f : Slot → Slot) : (s.modSlot j f).caskRaw = s.caskRaw := rfl
@[simp] theorem State.modSlot_mem (s : State) (j : Nat) (f : Slot → Slot) : (s.modSlot j f).mem = s.mem := rfl
@[simp] theorem State.modSlot_rack (s : State) (j : Nat) (f : Slot → Slot) : (s.modSlot j f).rack = s.rack := rfl
@[simp] theorem State.modSlot_cellar (s : State) (j : Nat) (f : Slot → Slot) : (s.modSlot j f).cellar = s.cellar := rfl
@[simp] theorem State.modSlot_streams (s : State) (j : Nat) (f : Slot → Slot) : (s.modSlot j f).streams = s.streams := rfl
@[simp] theorem State.modSlot_reqs (s : State) (j : Nat) (f : Slot → Slot) : (s.modSlot j f).reqs = s.reqs := rfl
@[simp] theorem State.modSlot_parts (s : State) (j : Nat) (f : Slot → Slot) : (s.modSlot j f).parts = s.parts := rfl
@[simp] theorem State.modSlot_cmds (s : State) (j : Nat) (f : Slot → Slot) : (s.modSlot j f).cmds = s.cmds := rfl
@[simp] theorem State.modSlot_nextCmd (s : State) (j : Nat) (f : Slot → Slot) : (s.modSlot j f).nextCmd = s.nextCmd := rfl
@[simp] theorem State.modSlot_logs (s : State) (j : Nat) (f : Slot → Slot) : (s.modSlot j f).logs = s.logs := rfl
@[simp] theorem State.modSlot_fabric (s : State) (j : Nat) (f : Slot → Slot) : (s.modSlot j f).fabric = s.fabric := rfl
@[simp] theorem State.modSlot_channels (s : State) (j : Nat) (f : Slot → Slot) : (s.modSlot j f).channels = s.channels := rfl
@[simp] theorem State.modSlot_malt (s : State) (j : Nat) (f : Slot → Slot) : (s.modSlot j f).malt = s.malt := rfl
@[simp] theorem State.modSlot_buddy (s : State) (j : Nat) (f : Slot → Slot) : (s.modSlot j f).buddy = s.buddy := rfl
@[simp] theorem State.modSlot_power (s : State) (j : Nat) (f : Slot → Slot) : (s.modSlot j f).power = s.power := rfl
@[simp] theorem State.modSlot_time (s : State) (j : Nat) (f : Slot → Slot) : (s.modSlot j f).time = s.time := rfl
@[simp] theorem State.modSlot_board (s : State) (j : Nat) (f : Slot → Slot) : (s.modSlot j f).board = s.board := rfl

/-! ### modPlan -/

@[simp] theorem State.modPlan_pending (s : State) (j : Nat) (f : Plan → Plan) : (s.modPlan j f).pending = s.pending := rfl
@[simp] theorem State.modPlan_out (s : State) (j : Nat) (f : Plan → Plan) : (s.modPlan j f).out = s.out := rfl
@[simp] theorem State.modPlan_draws (s : State) (j : Nat) (f : Plan → Plan) : (s.modPlan j f).draws = s.draws := rfl
@[simp] theorem State.modPlan_port (s : State) (j : Nat) (f : Plan → Plan) : (s.modPlan j f).port = s.port := rfl
@[simp] theorem State.modPlan_nor (s : State) (j : Nat) (f : Plan → Plan) : (s.modPlan j f).nor = s.nor := rfl
@[simp] theorem State.modPlan_ident (s : State) (j : Nat) (f : Plan → Plan) : (s.modPlan j f).ident = s.ident := rfl
@[simp] theorem State.modPlan_errata (s : State) (j : Nat) (f : Plan → Plan) : (s.modPlan j f).errata = s.errata := rfl
@[simp] theorem State.modPlan_sects (s : State) (j : Nat) (f : Plan → Plan) : (s.modPlan j f).sects = s.sects := rfl
@[simp] theorem State.modPlan_cores (s : State) (j : Nat) (f : Plan → Plan) : (s.modPlan j f).cores = s.cores := rfl
@[simp] theorem State.modPlan_cap (s : State) (j : Nat) (f : Plan → Plan) : (s.modPlan j f).cap = s.cap := rfl
@[simp] theorem State.modPlan_coreMem (s : State) (j : Nat) (f : Plan → Plan) : (s.modPlan j f).coreMem = s.coreMem := rfl
@[simp] theorem State.modPlan_coreLines (s : State) (j : Nat) (f : Plan → Plan) : (s.modPlan j f).coreLines = s.coreLines := rfl
@[simp] theorem State.modPlan_sectMem (s : State) (j : Nat) (f : Plan → Plan) : (s.modPlan j f).sectMem = s.sectMem := rfl
@[simp] theorem State.modPlan_sectLines (s : State) (j : Nat) (f : Plan → Plan) : (s.modPlan j f).sectLines = s.sectLines := rfl
@[simp] theorem State.modPlan_caskRaw (s : State) (j : Nat) (f : Plan → Plan) : (s.modPlan j f).caskRaw = s.caskRaw := rfl
@[simp] theorem State.modPlan_mem (s : State) (j : Nat) (f : Plan → Plan) : (s.modPlan j f).mem = s.mem := rfl
@[simp] theorem State.modPlan_rack (s : State) (j : Nat) (f : Plan → Plan) : (s.modPlan j f).rack = s.rack := rfl
@[simp] theorem State.modPlan_cellar (s : State) (j : Nat) (f : Plan → Plan) : (s.modPlan j f).cellar = s.cellar := rfl
@[simp] theorem State.modPlan_streams (s : State) (j : Nat) (f : Plan → Plan) : (s.modPlan j f).streams = s.streams := rfl
@[simp] theorem State.modPlan_reqs (s : State) (j : Nat) (f : Plan → Plan) : (s.modPlan j f).reqs = s.reqs := rfl
@[simp] theorem State.modPlan_parts (s : State) (j : Nat) (f : Plan → Plan) : (s.modPlan j f).parts = s.parts := rfl
@[simp] theorem State.modPlan_cmds (s : State) (j : Nat) (f : Plan → Plan) : (s.modPlan j f).cmds = s.cmds := rfl
@[simp] theorem State.modPlan_nextCmd (s : State) (j : Nat) (f : Plan → Plan) : (s.modPlan j f).nextCmd = s.nextCmd := rfl
@[simp] theorem State.modPlan_logs (s : State) (j : Nat) (f : Plan → Plan) : (s.modPlan j f).logs = s.logs := rfl
@[simp] theorem State.modPlan_fabric (s : State) (j : Nat) (f : Plan → Plan) : (s.modPlan j f).fabric = s.fabric := rfl
@[simp] theorem State.modPlan_channels (s : State) (j : Nat) (f : Plan → Plan) : (s.modPlan j f).channels = s.channels := rfl
@[simp] theorem State.modPlan_malt (s : State) (j : Nat) (f : Plan → Plan) : (s.modPlan j f).malt = s.malt := rfl
@[simp] theorem State.modPlan_buddy (s : State) (j : Nat) (f : Plan → Plan) : (s.modPlan j f).buddy = s.buddy := rfl
@[simp] theorem State.modPlan_power (s : State) (j : Nat) (f : Plan → Plan) : (s.modPlan j f).power = s.power := rfl
@[simp] theorem State.modPlan_time (s : State) (j : Nat) (f : Plan → Plan) : (s.modPlan j f).time = s.time := rfl
@[simp] theorem State.modPlan_board (s : State) (j : Nat) (f : Plan → Plan) : (s.modPlan j f).board = s.board := rfl

/-! ### modPart -/

@[simp] theorem State.modPart_pending (s : State) (n : Nat) (f : Partition → Partition) : (s.modPart n f).pending = s.pending := rfl
@[simp] theorem State.modPart_out (s : State) (n : Nat) (f : Partition → Partition) : (s.modPart n f).out = s.out := rfl
@[simp] theorem State.modPart_draws (s : State) (n : Nat) (f : Partition → Partition) : (s.modPart n f).draws = s.draws := rfl
@[simp] theorem State.modPart_port (s : State) (n : Nat) (f : Partition → Partition) : (s.modPart n f).port = s.port := rfl
@[simp] theorem State.modPart_nor (s : State) (n : Nat) (f : Partition → Partition) : (s.modPart n f).nor = s.nor := rfl
@[simp] theorem State.modPart_ident (s : State) (n : Nat) (f : Partition → Partition) : (s.modPart n f).ident = s.ident := rfl
@[simp] theorem State.modPart_errata (s : State) (n : Nat) (f : Partition → Partition) : (s.modPart n f).errata = s.errata := rfl
@[simp] theorem State.modPart_sects (s : State) (n : Nat) (f : Partition → Partition) : (s.modPart n f).sects = s.sects := rfl
@[simp] theorem State.modPart_cores (s : State) (n : Nat) (f : Partition → Partition) : (s.modPart n f).cores = s.cores := rfl
@[simp] theorem State.modPart_cap (s : State) (n : Nat) (f : Partition → Partition) : (s.modPart n f).cap = s.cap := rfl
@[simp] theorem State.modPart_coreMem (s : State) (n : Nat) (f : Partition → Partition) : (s.modPart n f).coreMem = s.coreMem := rfl
@[simp] theorem State.modPart_coreLines (s : State) (n : Nat) (f : Partition → Partition) : (s.modPart n f).coreLines = s.coreLines := rfl
@[simp] theorem State.modPart_sectMem (s : State) (n : Nat) (f : Partition → Partition) : (s.modPart n f).sectMem = s.sectMem := rfl
@[simp] theorem State.modPart_sectLines (s : State) (n : Nat) (f : Partition → Partition) : (s.modPart n f).sectLines = s.sectLines := rfl
@[simp] theorem State.modPart_caskRaw (s : State) (n : Nat) (f : Partition → Partition) : (s.modPart n f).caskRaw = s.caskRaw := rfl
@[simp] theorem State.modPart_mem (s : State) (n : Nat) (f : Partition → Partition) : (s.modPart n f).mem = s.mem := rfl
@[simp] theorem State.modPart_rack (s : State) (n : Nat) (f : Partition → Partition) : (s.modPart n f).rack = s.rack := rfl
@[simp] theorem State.modPart_cellar (s : State) (n : Nat) (f : Partition → Partition) : (s.modPart n f).cellar = s.cellar := rfl
@[simp] theorem State.modPart_streams (s : State) (n : Nat) (f : Partition → Partition) : (s.modPart n f).streams = s.streams := rfl
@[simp] theorem State.modPart_slots (s : State) (n : Nat) (f : Partition → Partition) : (s.modPart n f).slots = s.slots := rfl
@[simp] theorem State.modPart_reqs (s : State) (n : Nat) (f : Partition → Partition) : (s.modPart n f).reqs = s.reqs := rfl
@[simp] theorem State.modPart_cmds (s : State) (n : Nat) (f : Partition → Partition) : (s.modPart n f).cmds = s.cmds := rfl
@[simp] theorem State.modPart_nextCmd (s : State) (n : Nat) (f : Partition → Partition) : (s.modPart n f).nextCmd = s.nextCmd := rfl
@[simp] theorem State.modPart_logs (s : State) (n : Nat) (f : Partition → Partition) : (s.modPart n f).logs = s.logs := rfl
@[simp] theorem State.modPart_fabric (s : State) (n : Nat) (f : Partition → Partition) : (s.modPart n f).fabric = s.fabric := rfl
@[simp] theorem State.modPart_channels (s : State) (n : Nat) (f : Partition → Partition) : (s.modPart n f).channels = s.channels := rfl
@[simp] theorem State.modPart_malt (s : State) (n : Nat) (f : Partition → Partition) : (s.modPart n f).malt = s.malt := rfl
@[simp] theorem State.modPart_buddy (s : State) (n : Nat) (f : Partition → Partition) : (s.modPart n f).buddy = s.buddy := rfl
@[simp] theorem State.modPart_power (s : State) (n : Nat) (f : Partition → Partition) : (s.modPart n f).power = s.power := rfl
@[simp] theorem State.modPart_time (s : State) (n : Nat) (f : Partition → Partition) : (s.modPart n f).time = s.time := rfl
@[simp] theorem State.modPart_board (s : State) (n : Nat) (f : Partition → Partition) : (s.modPart n f).board = s.board := rfl

/-! ### setReq -/

@[simp] theorem State.setReq_pending (s : State) (k : Nat) (r : Req) : (s.setReq k r).pending = s.pending := rfl
@[simp] theorem State.setReq_out (s : State) (k : Nat) (r : Req) : (s.setReq k r).out = s.out := rfl
@[simp] theorem State.setReq_draws (s : State) (k : Nat) (r : Req) : (s.setReq k r).draws = s.draws := rfl
@[simp] theorem State.setReq_port (s : State) (k : Nat) (r : Req) : (s.setReq k r).port = s.port := rfl
@[simp] theorem State.setReq_nor (s : State) (k : Nat) (r : Req) : (s.setReq k r).nor = s.nor := rfl
@[simp] theorem State.setReq_ident (s : State) (k : Nat) (r : Req) : (s.setReq k r).ident = s.ident := rfl
@[simp] theorem State.setReq_errata (s : State) (k : Nat) (r : Req) : (s.setReq k r).errata = s.errata := rfl
@[simp] theorem State.setReq_sects (s : State) (k : Nat) (r : Req) : (s.setReq k r).sects = s.sects := rfl
@[simp] theorem State.setReq_cores (s : State) (k : Nat) (r : Req) : (s.setReq k r).cores = s.cores := rfl
@[simp] theorem State.setReq_cap (s : State) (k : Nat) (r : Req) : (s.setReq k r).cap = s.cap := rfl
@[simp] theorem State.setReq_coreMem (s : State) (k : Nat) (r : Req) : (s.setReq k r).coreMem = s.coreMem := rfl
@[simp] theorem State.setReq_coreLines (s : State) (k : Nat) (r : Req) : (s.setReq k r).coreLines = s.coreLines := rfl
@[simp] theorem State.setReq_sectMem (s : State) (k : Nat) (r : Req) : (s.setReq k r).sectMem = s.sectMem := rfl
@[simp] theorem State.setReq_sectLines (s : State) (k : Nat) (r : Req) : (s.setReq k r).sectLines = s.sectLines := rfl
@[simp] theorem State.setReq_caskRaw (s : State) (k : Nat) (r : Req) : (s.setReq k r).caskRaw = s.caskRaw := rfl
@[simp] theorem State.setReq_mem (s : State) (k : Nat) (r : Req) : (s.setReq k r).mem = s.mem := rfl
@[simp] theorem State.setReq_rack (s : State) (k : Nat) (r : Req) : (s.setReq k r).rack = s.rack := rfl
@[simp] theorem State.setReq_cellar (s : State) (k : Nat) (r : Req) : (s.setReq k r).cellar = s.cellar := rfl
@[simp] theorem State.setReq_streams (s : State) (k : Nat) (r : Req) : (s.setReq k r).streams = s.streams := rfl
@[simp] theorem State.setReq_slots (s : State) (k : Nat) (r : Req) : (s.setReq k r).slots = s.slots := rfl
@[simp] theorem State.setReq_parts (s : State) (k : Nat) (r : Req) : (s.setReq k r).parts = s.parts := rfl
@[simp] theorem State.setReq_cmds (s : State) (k : Nat) (r : Req) : (s.setReq k r).cmds = s.cmds := rfl
@[simp] theorem State.setReq_nextCmd (s : State) (k : Nat) (r : Req) : (s.setReq k r).nextCmd = s.nextCmd := rfl
@[simp] theorem State.setReq_logs (s : State) (k : Nat) (r : Req) : (s.setReq k r).logs = s.logs := rfl
@[simp] theorem State.setReq_fabric (s : State) (k : Nat) (r : Req) : (s.setReq k r).fabric = s.fabric := rfl
@[simp] theorem State.setReq_channels (s : State) (k : Nat) (r : Req) : (s.setReq k r).channels = s.channels := rfl
@[simp] theorem State.setReq_malt (s : State) (k : Nat) (r : Req) : (s.setReq k r).malt = s.malt := rfl
@[simp] theorem State.setReq_buddy (s : State) (k : Nat) (r : Req) : (s.setReq k r).buddy = s.buddy := rfl
@[simp] theorem State.setReq_power (s : State) (k : Nat) (r : Req) : (s.setReq k r).power = s.power := rfl
@[simp] theorem State.setReq_time (s : State) (k : Nat) (r : Req) : (s.setReq k r).time = s.time := rfl
@[simp] theorem State.setReq_board (s : State) (k : Nat) (r : Req) : (s.setReq k r).board = s.board := rfl

/-! ### modReq -/

@[simp] theorem State.modReq_pending (s : State) (k : Nat) (f : Req → Req) : (s.modReq k f).pending = s.pending := rfl
@[simp] theorem State.modReq_out (s : State) (k : Nat) (f : Req → Req) : (s.modReq k f).out = s.out := rfl
@[simp] theorem State.modReq_draws (s : State) (k : Nat) (f : Req → Req) : (s.modReq k f).draws = s.draws := rfl
@[simp] theorem State.modReq_port (s : State) (k : Nat) (f : Req → Req) : (s.modReq k f).port = s.port := rfl
@[simp] theorem State.modReq_nor (s : State) (k : Nat) (f : Req → Req) : (s.modReq k f).nor = s.nor := rfl
@[simp] theorem State.modReq_ident (s : State) (k : Nat) (f : Req → Req) : (s.modReq k f).ident = s.ident := rfl
@[simp] theorem State.modReq_errata (s : State) (k : Nat) (f : Req → Req) : (s.modReq k f).errata = s.errata := rfl
@[simp] theorem State.modReq_sects (s : State) (k : Nat) (f : Req → Req) : (s.modReq k f).sects = s.sects := rfl
@[simp] theorem State.modReq_cores (s : State) (k : Nat) (f : Req → Req) : (s.modReq k f).cores = s.cores := rfl
@[simp] theorem State.modReq_cap (s : State) (k : Nat) (f : Req → Req) : (s.modReq k f).cap = s.cap := rfl
@[simp] theorem State.modReq_coreMem (s : State) (k : Nat) (f : Req → Req) : (s.modReq k f).coreMem = s.coreMem := rfl
@[simp] theorem State.modReq_coreLines (s : State) (k : Nat) (f : Req → Req) : (s.modReq k f).coreLines = s.coreLines := rfl
@[simp] theorem State.modReq_sectMem (s : State) (k : Nat) (f : Req → Req) : (s.modReq k f).sectMem = s.sectMem := rfl
@[simp] theorem State.modReq_sectLines (s : State) (k : Nat) (f : Req → Req) : (s.modReq k f).sectLines = s.sectLines := rfl
@[simp] theorem State.modReq_caskRaw (s : State) (k : Nat) (f : Req → Req) : (s.modReq k f).caskRaw = s.caskRaw := rfl
@[simp] theorem State.modReq_mem (s : State) (k : Nat) (f : Req → Req) : (s.modReq k f).mem = s.mem := rfl
@[simp] theorem State.modReq_rack (s : State) (k : Nat) (f : Req → Req) : (s.modReq k f).rack = s.rack := rfl
@[simp] theorem State.modReq_cellar (s : State) (k : Nat) (f : Req → Req) : (s.modReq k f).cellar = s.cellar := rfl
@[simp] theorem State.modReq_streams (s : State) (k : Nat) (f : Req → Req) : (s.modReq k f).streams = s.streams := rfl
@[simp] theorem State.modReq_slots (s : State) (k : Nat) (f : Req → Req) : (s.modReq k f).slots = s.slots := rfl
@[simp] theorem State.modReq_parts (s : State) (k : Nat) (f : Req → Req) : (s.modReq k f).parts = s.parts := rfl
@[simp] theorem State.modReq_cmds (s : State) (k : Nat) (f : Req → Req) : (s.modReq k f).cmds = s.cmds := rfl
@[simp] theorem State.modReq_nextCmd (s : State) (k : Nat) (f : Req → Req) : (s.modReq k f).nextCmd = s.nextCmd := rfl
@[simp] theorem State.modReq_logs (s : State) (k : Nat) (f : Req → Req) : (s.modReq k f).logs = s.logs := rfl
@[simp] theorem State.modReq_fabric (s : State) (k : Nat) (f : Req → Req) : (s.modReq k f).fabric = s.fabric := rfl
@[simp] theorem State.modReq_channels (s : State) (k : Nat) (f : Req → Req) : (s.modReq k f).channels = s.channels := rfl
@[simp] theorem State.modReq_malt (s : State) (k : Nat) (f : Req → Req) : (s.modReq k f).malt = s.malt := rfl
@[simp] theorem State.modReq_buddy (s : State) (k : Nat) (f : Req → Req) : (s.modReq k f).buddy = s.buddy := rfl
@[simp] theorem State.modReq_power (s : State) (k : Nat) (f : Req → Req) : (s.modReq k f).power = s.power := rfl
@[simp] theorem State.modReq_time (s : State) (k : Nat) (f : Req → Req) : (s.modReq k f).time = s.time := rfl
@[simp] theorem State.modReq_board (s : State) (k : Nat) (f : Req → Req) : (s.modReq k f).board = s.board := rfl

/-! ### setCmd -/

@[simp] theorem State.setCmd_pending (s : State) (c : Cmd) : (s.setCmd c).pending = s.pending := rfl
@[simp] theorem State.setCmd_out (s : State) (c : Cmd) : (s.setCmd c).out = s.out := rfl
@[simp] theorem State.setCmd_draws (s : State) (c : Cmd) : (s.setCmd c).draws = s.draws := rfl
@[simp] theorem State.setCmd_port (s : State) (c : Cmd) : (s.setCmd c).port = s.port := rfl
@[simp] theorem State.setCmd_nor (s : State) (c : Cmd) : (s.setCmd c).nor = s.nor := rfl
@[simp] theorem State.setCmd_ident (s : State) (c : Cmd) : (s.setCmd c).ident = s.ident := rfl
@[simp] theorem State.setCmd_errata (s : State) (c : Cmd) : (s.setCmd c).errata = s.errata := rfl
@[simp] theorem State.setCmd_sects (s : State) (c : Cmd) : (s.setCmd c).sects = s.sects := rfl
@[simp] theorem State.setCmd_cores (s : State) (c : Cmd) : (s.setCmd c).cores = s.cores := rfl
@[simp] theorem State.setCmd_cap (s : State) (c : Cmd) : (s.setCmd c).cap = s.cap := rfl
@[simp] theorem State.setCmd_coreMem (s : State) (c : Cmd) : (s.setCmd c).coreMem = s.coreMem := rfl
@[simp] theorem State.setCmd_coreLines (s : State) (c : Cmd) : (s.setCmd c).coreLines = s.coreLines := rfl
@[simp] theorem State.setCmd_sectMem (s : State) (c : Cmd) : (s.setCmd c).sectMem = s.sectMem := rfl
@[simp] theorem State.setCmd_sectLines (s : State) (c : Cmd) : (s.setCmd c).sectLines = s.sectLines := rfl
@[simp] theorem State.setCmd_caskRaw (s : State) (c : Cmd) : (s.setCmd c).caskRaw = s.caskRaw := rfl
@[simp] theorem State.setCmd_mem (s : State) (c : Cmd) : (s.setCmd c).mem = s.mem := rfl
@[simp] theorem State.setCmd_rack (s : State) (c : Cmd) : (s.setCmd c).rack = s.rack := rfl
@[simp] theorem State.setCmd_cellar (s : State) (c : Cmd) : (s.setCmd c).cellar = s.cellar := rfl
@[simp] theorem State.setCmd_streams (s : State) (c : Cmd) : (s.setCmd c).streams = s.streams := rfl
@[simp] theorem State.setCmd_slots (s : State) (c : Cmd) : (s.setCmd c).slots = s.slots := rfl
@[simp] theorem State.setCmd_reqs (s : State) (c : Cmd) : (s.setCmd c).reqs = s.reqs := rfl
@[simp] theorem State.setCmd_parts (s : State) (c : Cmd) : (s.setCmd c).parts = s.parts := rfl
@[simp] theorem State.setCmd_nextCmd (s : State) (c : Cmd) : (s.setCmd c).nextCmd = s.nextCmd := rfl
@[simp] theorem State.setCmd_logs (s : State) (c : Cmd) : (s.setCmd c).logs = s.logs := rfl
@[simp] theorem State.setCmd_fabric (s : State) (c : Cmd) : (s.setCmd c).fabric = s.fabric := rfl
@[simp] theorem State.setCmd_channels (s : State) (c : Cmd) : (s.setCmd c).channels = s.channels := rfl
@[simp] theorem State.setCmd_malt (s : State) (c : Cmd) : (s.setCmd c).malt = s.malt := rfl
@[simp] theorem State.setCmd_buddy (s : State) (c : Cmd) : (s.setCmd c).buddy = s.buddy := rfl
@[simp] theorem State.setCmd_power (s : State) (c : Cmd) : (s.setCmd c).power = s.power := rfl
@[simp] theorem State.setCmd_time (s : State) (c : Cmd) : (s.setCmd c).time = s.time := rfl
@[simp] theorem State.setCmd_board (s : State) (c : Cmd) : (s.setCmd c).board = s.board := rfl

/-! ### dropCmd -/

@[simp] theorem State.dropCmd_pending (s : State) (n : Nat) : (s.dropCmd n).pending = s.pending := rfl
@[simp] theorem State.dropCmd_out (s : State) (n : Nat) : (s.dropCmd n).out = s.out := rfl
@[simp] theorem State.dropCmd_draws (s : State) (n : Nat) : (s.dropCmd n).draws = s.draws := rfl
@[simp] theorem State.dropCmd_port (s : State) (n : Nat) : (s.dropCmd n).port = s.port := rfl
@[simp] theorem State.dropCmd_nor (s : State) (n : Nat) : (s.dropCmd n).nor = s.nor := rfl
@[simp] theorem State.dropCmd_ident (s : State) (n : Nat) : (s.dropCmd n).ident = s.ident := rfl
@[simp] theorem State.dropCmd_errata (s : State) (n : Nat) : (s.dropCmd n).errata = s.errata := rfl
@[simp] theorem State.dropCmd_sects (s : State) (n : Nat) : (s.dropCmd n).sects = s.sects := rfl
@[simp] theorem State.dropCmd_cores (s : State) (n : Nat) : (s.dropCmd n).cores = s.cores := rfl
@[simp] theorem State.dropCmd_cap (s : State) (n : Nat) : (s.dropCmd n).cap = s.cap := rfl
@[simp] theorem State.dropCmd_coreMem (s : State) (n : Nat) : (s.dropCmd n).coreMem = s.coreMem := rfl
@[simp] theorem State.dropCmd_coreLines (s : State) (n : Nat) : (s.dropCmd n).coreLines = s.coreLines := rfl
@[simp] theorem State.dropCmd_sectMem (s : State) (n : Nat) : (s.dropCmd n).sectMem = s.sectMem := rfl
@[simp] theorem State.dropCmd_sectLines (s : State) (n : Nat) : (s.dropCmd n).sectLines = s.sectLines := rfl
@[simp] theorem State.dropCmd_caskRaw (s : State) (n : Nat) : (s.dropCmd n).caskRaw = s.caskRaw := rfl
@[simp] theorem State.dropCmd_mem (s : State) (n : Nat) : (s.dropCmd n).mem = s.mem := rfl
@[simp] theorem State.dropCmd_rack (s : State) (n : Nat) : (s.dropCmd n).rack = s.rack := rfl
@[simp] theorem State.dropCmd_cellar (s : State) (n : Nat) : (s.dropCmd n).cellar = s.cellar := rfl
@[simp] theorem State.dropCmd_streams (s : State) (n : Nat) : (s.dropCmd n).streams = s.streams := rfl
@[simp] theorem State.dropCmd_slots (s : State) (n : Nat) : (s.dropCmd n).slots = s.slots := rfl
@[simp] theorem State.dropCmd_reqs (s : State) (n : Nat) : (s.dropCmd n).reqs = s.reqs := rfl
@[simp] theorem State.dropCmd_parts (s : State) (n : Nat) : (s.dropCmd n).parts = s.parts := rfl
@[simp] theorem State.dropCmd_nextCmd (s : State) (n : Nat) : (s.dropCmd n).nextCmd = s.nextCmd := rfl
@[simp] theorem State.dropCmd_logs (s : State) (n : Nat) : (s.dropCmd n).logs = s.logs := rfl
@[simp] theorem State.dropCmd_fabric (s : State) (n : Nat) : (s.dropCmd n).fabric = s.fabric := rfl
@[simp] theorem State.dropCmd_channels (s : State) (n : Nat) : (s.dropCmd n).channels = s.channels := rfl
@[simp] theorem State.dropCmd_malt (s : State) (n : Nat) : (s.dropCmd n).malt = s.malt := rfl
@[simp] theorem State.dropCmd_buddy (s : State) (n : Nat) : (s.dropCmd n).buddy = s.buddy := rfl
@[simp] theorem State.dropCmd_power (s : State) (n : Nat) : (s.dropCmd n).power = s.power := rfl
@[simp] theorem State.dropCmd_time (s : State) (n : Nat) : (s.dropCmd n).time = s.time := rfl
@[simp] theorem State.dropCmd_board (s : State) (n : Nat) : (s.dropCmd n).board = s.board := rfl

/-! ### putCore -/

@[simp] theorem State.putCore_pending (s : State) (a : Nat) (bs : List Byte) : (s.putCore a bs).pending = s.pending := rfl
@[simp] theorem State.putCore_out (s : State) (a : Nat) (bs : List Byte) : (s.putCore a bs).out = s.out := rfl
@[simp] theorem State.putCore_draws (s : State) (a : Nat) (bs : List Byte) : (s.putCore a bs).draws = s.draws := rfl
@[simp] theorem State.putCore_port (s : State) (a : Nat) (bs : List Byte) : (s.putCore a bs).port = s.port := rfl
@[simp] theorem State.putCore_nor (s : State) (a : Nat) (bs : List Byte) : (s.putCore a bs).nor = s.nor := rfl
@[simp] theorem State.putCore_ident (s : State) (a : Nat) (bs : List Byte) : (s.putCore a bs).ident = s.ident := rfl
@[simp] theorem State.putCore_errata (s : State) (a : Nat) (bs : List Byte) : (s.putCore a bs).errata = s.errata := rfl
@[simp] theorem State.putCore_sects (s : State) (a : Nat) (bs : List Byte) : (s.putCore a bs).sects = s.sects := rfl
@[simp] theorem State.putCore_cores (s : State) (a : Nat) (bs : List Byte) : (s.putCore a bs).cores = s.cores := rfl
@[simp] theorem State.putCore_cap (s : State) (a : Nat) (bs : List Byte) : (s.putCore a bs).cap = s.cap := rfl
@[simp] theorem State.putCore_sectMem (s : State) (a : Nat) (bs : List Byte) : (s.putCore a bs).sectMem = s.sectMem := rfl
@[simp] theorem State.putCore_sectLines (s : State) (a : Nat) (bs : List Byte) : (s.putCore a bs).sectLines = s.sectLines := rfl
@[simp] theorem State.putCore_caskRaw (s : State) (a : Nat) (bs : List Byte) : (s.putCore a bs).caskRaw = s.caskRaw := rfl
@[simp] theorem State.putCore_mem (s : State) (a : Nat) (bs : List Byte) : (s.putCore a bs).mem = s.mem := rfl
@[simp] theorem State.putCore_rack (s : State) (a : Nat) (bs : List Byte) : (s.putCore a bs).rack = s.rack := rfl
@[simp] theorem State.putCore_cellar (s : State) (a : Nat) (bs : List Byte) : (s.putCore a bs).cellar = s.cellar := rfl
@[simp] theorem State.putCore_streams (s : State) (a : Nat) (bs : List Byte) : (s.putCore a bs).streams = s.streams := rfl
@[simp] theorem State.putCore_slots (s : State) (a : Nat) (bs : List Byte) : (s.putCore a bs).slots = s.slots := rfl
@[simp] theorem State.putCore_reqs (s : State) (a : Nat) (bs : List Byte) : (s.putCore a bs).reqs = s.reqs := rfl
@[simp] theorem State.putCore_parts (s : State) (a : Nat) (bs : List Byte) : (s.putCore a bs).parts = s.parts := rfl
@[simp] theorem State.putCore_cmds (s : State) (a : Nat) (bs : List Byte) : (s.putCore a bs).cmds = s.cmds := rfl
@[simp] theorem State.putCore_nextCmd (s : State) (a : Nat) (bs : List Byte) : (s.putCore a bs).nextCmd = s.nextCmd := rfl
@[simp] theorem State.putCore_logs (s : State) (a : Nat) (bs : List Byte) : (s.putCore a bs).logs = s.logs := rfl
@[simp] theorem State.putCore_fabric (s : State) (a : Nat) (bs : List Byte) : (s.putCore a bs).fabric = s.fabric := rfl
@[simp] theorem State.putCore_channels (s : State) (a : Nat) (bs : List Byte) : (s.putCore a bs).channels = s.channels := rfl
@[simp] theorem State.putCore_malt (s : State) (a : Nat) (bs : List Byte) : (s.putCore a bs).malt = s.malt := rfl
@[simp] theorem State.putCore_buddy (s : State) (a : Nat) (bs : List Byte) : (s.putCore a bs).buddy = s.buddy := rfl
@[simp] theorem State.putCore_power (s : State) (a : Nat) (bs : List Byte) : (s.putCore a bs).power = s.power := rfl
@[simp] theorem State.putCore_time (s : State) (a : Nat) (bs : List Byte) : (s.putCore a bs).time = s.time := rfl
@[simp] theorem State.putCore_board (s : State) (a : Nat) (bs : List Byte) : (s.putCore a bs).board = s.board := rfl

/-! ### putSect -/

@[simp] theorem State.putSect_pending (s : State) (a : Nat) (bs : List Byte) : (s.putSect a bs).pending = s.pending := rfl
@[simp] theorem State.putSect_out (s : State) (a : Nat) (bs : List Byte) : (s.putSect a bs).out = s.out := rfl
@[simp] theorem State.putSect_draws (s : State) (a : Nat) (bs : List Byte) : (s.putSect a bs).draws = s.draws := rfl
@[simp] theorem State.putSect_port (s : State) (a : Nat) (bs : List Byte) : (s.putSect a bs).port = s.port := rfl
@[simp] theorem State.putSect_nor (s : State) (a : Nat) (bs : List Byte) : (s.putSect a bs).nor = s.nor := rfl
@[simp] theorem State.putSect_ident (s : State) (a : Nat) (bs : List Byte) : (s.putSect a bs).ident = s.ident := rfl
@[simp] theorem State.putSect_errata (s : State) (a : Nat) (bs : List Byte) : (s.putSect a bs).errata = s.errata := rfl
@[simp] theorem State.putSect_sects (s : State) (a : Nat) (bs : List Byte) : (s.putSect a bs).sects = s.sects := rfl
@[simp] theorem State.putSect_cores (s : State) (a : Nat) (bs : List Byte) : (s.putSect a bs).cores = s.cores := rfl
@[simp] theorem State.putSect_cap (s : State) (a : Nat) (bs : List Byte) : (s.putSect a bs).cap = s.cap := rfl
@[simp] theorem State.putSect_coreMem (s : State) (a : Nat) (bs : List Byte) : (s.putSect a bs).coreMem = s.coreMem := rfl
@[simp] theorem State.putSect_coreLines (s : State) (a : Nat) (bs : List Byte) : (s.putSect a bs).coreLines = s.coreLines := rfl
@[simp] theorem State.putSect_caskRaw (s : State) (a : Nat) (bs : List Byte) : (s.putSect a bs).caskRaw = s.caskRaw := rfl
@[simp] theorem State.putSect_mem (s : State) (a : Nat) (bs : List Byte) : (s.putSect a bs).mem = s.mem := rfl
@[simp] theorem State.putSect_rack (s : State) (a : Nat) (bs : List Byte) : (s.putSect a bs).rack = s.rack := rfl
@[simp] theorem State.putSect_cellar (s : State) (a : Nat) (bs : List Byte) : (s.putSect a bs).cellar = s.cellar := rfl
@[simp] theorem State.putSect_streams (s : State) (a : Nat) (bs : List Byte) : (s.putSect a bs).streams = s.streams := rfl
@[simp] theorem State.putSect_slots (s : State) (a : Nat) (bs : List Byte) : (s.putSect a bs).slots = s.slots := rfl
@[simp] theorem State.putSect_reqs (s : State) (a : Nat) (bs : List Byte) : (s.putSect a bs).reqs = s.reqs := rfl
@[simp] theorem State.putSect_parts (s : State) (a : Nat) (bs : List Byte) : (s.putSect a bs).parts = s.parts := rfl
@[simp] theorem State.putSect_cmds (s : State) (a : Nat) (bs : List Byte) : (s.putSect a bs).cmds = s.cmds := rfl
@[simp] theorem State.putSect_nextCmd (s : State) (a : Nat) (bs : List Byte) : (s.putSect a bs).nextCmd = s.nextCmd := rfl
@[simp] theorem State.putSect_logs (s : State) (a : Nat) (bs : List Byte) : (s.putSect a bs).logs = s.logs := rfl
@[simp] theorem State.putSect_fabric (s : State) (a : Nat) (bs : List Byte) : (s.putSect a bs).fabric = s.fabric := rfl
@[simp] theorem State.putSect_channels (s : State) (a : Nat) (bs : List Byte) : (s.putSect a bs).channels = s.channels := rfl
@[simp] theorem State.putSect_malt (s : State) (a : Nat) (bs : List Byte) : (s.putSect a bs).malt = s.malt := rfl
@[simp] theorem State.putSect_buddy (s : State) (a : Nat) (bs : List Byte) : (s.putSect a bs).buddy = s.buddy := rfl
@[simp] theorem State.putSect_power (s : State) (a : Nat) (bs : List Byte) : (s.putSect a bs).power = s.power := rfl
@[simp] theorem State.putSect_time (s : State) (a : Nat) (bs : List Byte) : (s.putSect a bs).time = s.time := rfl
@[simp] theorem State.putSect_board (s : State) (a : Nat) (bs : List Byte) : (s.putSect a bs).board = s.board := rfl

/-! ### modCtx -/

@[simp] theorem State.modCtx_pending (s : State) (p c : Nat) (f : Ctxt → Ctxt) : (s.modCtx p c f).pending = s.pending := rfl
@[simp] theorem State.modCtx_out (s : State) (p c : Nat) (f : Ctxt → Ctxt) : (s.modCtx p c f).out = s.out := rfl
@[simp] theorem State.modCtx_draws (s : State) (p c : Nat) (f : Ctxt → Ctxt) : (s.modCtx p c f).draws = s.draws := rfl
@[simp] theorem State.modCtx_port (s : State) (p c : Nat) (f : Ctxt → Ctxt) : (s.modCtx p c f).port = s.port := rfl
@[simp] theorem State.modCtx_nor (s : State) (p c : Nat) (f : Ctxt → Ctxt) : (s.modCtx p c f).nor = s.nor := rfl
@[simp] theorem State.modCtx_ident (s : State) (p c : Nat) (f : Ctxt → Ctxt) : (s.modCtx p c f).ident = s.ident := rfl
@[simp] theorem State.modCtx_errata (s : State) (p c : Nat) (f : Ctxt → Ctxt) : (s.modCtx p c f).errata = s.errata := rfl
@[simp] theorem State.modCtx_sects (s : State) (p c : Nat) (f : Ctxt → Ctxt) : (s.modCtx p c f).sects = s.sects := rfl
@[simp] theorem State.modCtx_cores (s : State) (p c : Nat) (f : Ctxt → Ctxt) : (s.modCtx p c f).cores = s.cores := rfl
@[simp] theorem State.modCtx_cap (s : State) (p c : Nat) (f : Ctxt → Ctxt) : (s.modCtx p c f).cap = s.cap := rfl
@[simp] theorem State.modCtx_coreMem (s : State) (p c : Nat) (f : Ctxt → Ctxt) : (s.modCtx p c f).coreMem = s.coreMem := rfl
@[simp] theorem State.modCtx_coreLines (s : State) (p c : Nat) (f : Ctxt → Ctxt) : (s.modCtx p c f).coreLines = s.coreLines := rfl
@[simp] theorem State.modCtx_sectMem (s : State) (p c : Nat) (f : Ctxt → Ctxt) : (s.modCtx p c f).sectMem = s.sectMem := rfl
@[simp] theorem State.modCtx_sectLines (s : State) (p c : Nat) (f : Ctxt → Ctxt) : (s.modCtx p c f).sectLines = s.sectLines := rfl
@[simp] theorem State.modCtx_caskRaw (s : State) (p c : Nat) (f : Ctxt → Ctxt) : (s.modCtx p c f).caskRaw = s.caskRaw := rfl
@[simp] theorem State.modCtx_mem (s : State) (p c : Nat) (f : Ctxt → Ctxt) : (s.modCtx p c f).mem = s.mem := rfl
@[simp] theorem State.modCtx_rack (s : State) (p c : Nat) (f : Ctxt → Ctxt) : (s.modCtx p c f).rack = s.rack := rfl
@[simp] theorem State.modCtx_cellar (s : State) (p c : Nat) (f : Ctxt → Ctxt) : (s.modCtx p c f).cellar = s.cellar := rfl
@[simp] theorem State.modCtx_streams (s : State) (p c : Nat) (f : Ctxt → Ctxt) : (s.modCtx p c f).streams = s.streams := rfl
@[simp] theorem State.modCtx_slots (s : State) (p c : Nat) (f : Ctxt → Ctxt) : (s.modCtx p c f).slots = s.slots := rfl
@[simp] theorem State.modCtx_reqs (s : State) (p c : Nat) (f : Ctxt → Ctxt) : (s.modCtx p c f).reqs = s.reqs := rfl
@[simp] theorem State.modCtx_parts (s : State) (p c : Nat) (f : Ctxt → Ctxt) : (s.modCtx p c f).parts = s.parts := rfl
@[simp] theorem State.modCtx_cmds (s : State) (p c : Nat) (f : Ctxt → Ctxt) : (s.modCtx p c f).cmds = s.cmds := rfl
@[simp] theorem State.modCtx_nextCmd (s : State) (p c : Nat) (f : Ctxt → Ctxt) : (s.modCtx p c f).nextCmd = s.nextCmd := rfl
@[simp] theorem State.modCtx_logs (s : State) (p c : Nat) (f : Ctxt → Ctxt) : (s.modCtx p c f).logs = s.logs := rfl
@[simp] theorem State.modCtx_channels (s : State) (p c : Nat) (f : Ctxt → Ctxt) : (s.modCtx p c f).channels = s.channels := rfl
@[simp] theorem State.modCtx_malt (s : State) (p c : Nat) (f : Ctxt → Ctxt) : (s.modCtx p c f).malt = s.malt := rfl
@[simp] theorem State.modCtx_buddy (s : State) (p c : Nat) (f : Ctxt → Ctxt) : (s.modCtx p c f).buddy = s.buddy := rfl
@[simp] theorem State.modCtx_power (s : State) (p c : Nat) (f : Ctxt → Ctxt) : (s.modCtx p c f).power = s.power := rfl
@[simp] theorem State.modCtx_time (s : State) (p c : Nat) (f : Ctxt → Ctxt) : (s.modCtx p c f).time = s.time := rfl
@[simp] theorem State.modCtx_board (s : State) (p c : Nat) (f : Ctxt → Ctxt) : (s.modCtx p c f).board = s.board := rfl

/-! ### draw -/

@[simp] theorem State.draw_pending (s : State) : s.draw.2.pending = s.pending := rfl
@[simp] theorem State.draw_out (s : State) : s.draw.2.out = s.out := rfl
@[simp] theorem State.draw_port (s : State) : s.draw.2.port = s.port := rfl
@[simp] theorem State.draw_nor (s : State) : s.draw.2.nor = s.nor := rfl
@[simp] theorem State.draw_ident (s : State) : s.draw.2.ident = s.ident := rfl
@[simp] theorem State.draw_errata (s : State) : s.draw.2.errata = s.errata := rfl
@[simp] theorem State.draw_sects (s : State) : s.draw.2.sects = s.sects := rfl
@[simp] theorem State.draw_cores (s : State) : s.draw.2.cores = s.cores := rfl
@[simp] theorem State.draw_cap (s : State) : s.draw.2.cap = s.cap := rfl
@[simp] theorem State.draw_coreMem (s : State) : s.draw.2.coreMem = s.coreMem := rfl
@[simp] theorem State.draw_coreLines (s : State) : s.draw.2.coreLines = s.coreLines := rfl
@[simp] theorem State.draw_sectMem (s : State) : s.draw.2.sectMem = s.sectMem := rfl
@[simp] theorem State.draw_sectLines (s : State) : s.draw.2.sectLines = s.sectLines := rfl
@[simp] theorem State.draw_caskRaw (s : State) : s.draw.2.caskRaw = s.caskRaw := rfl
@[simp] theorem State.draw_mem (s : State) : s.draw.2.mem = s.mem := rfl
@[simp] theorem State.draw_rack (s : State) : s.draw.2.rack = s.rack := rfl
@[simp] theorem State.draw_cellar (s : State) : s.draw.2.cellar = s.cellar := rfl
@[simp] theorem State.draw_streams (s : State) : s.draw.2.streams = s.streams := rfl
@[simp] theorem State.draw_slots (s : State) : s.draw.2.slots = s.slots := rfl
@[simp] theorem State.draw_reqs (s : State) : s.draw.2.reqs = s.reqs := rfl
@[simp] theorem State.draw_parts (s : State) : s.draw.2.parts = s.parts := rfl
@[simp] theorem State.draw_cmds (s : State) : s.draw.2.cmds = s.cmds := rfl
@[simp] theorem State.draw_nextCmd (s : State) : s.draw.2.nextCmd = s.nextCmd := rfl
@[simp] theorem State.draw_logs (s : State) : s.draw.2.logs = s.logs := rfl
@[simp] theorem State.draw_fabric (s : State) : s.draw.2.fabric = s.fabric := rfl
@[simp] theorem State.draw_channels (s : State) : s.draw.2.channels = s.channels := rfl
@[simp] theorem State.draw_malt (s : State) : s.draw.2.malt = s.malt := rfl
@[simp] theorem State.draw_buddy (s : State) : s.draw.2.buddy = s.buddy := rfl
@[simp] theorem State.draw_power (s : State) : s.draw.2.power = s.power := rfl
@[simp] theorem State.draw_time (s : State) : s.draw.2.time = s.time := rfl
@[simp] theorem State.draw_board (s : State) : s.draw.2.board = s.board := rfl

end Sys2Proof.Machine
end

