-- ==== Sys2Proof/Tests/Slice0.lean ====
section
/-! SUPPORT. Tests: every check of WellFormed refuses an ill-formed command; single steps with results that the spec gives; for
every statement with hypotheses a witness, clause by clause, of a state and operands that meet them. -/

set_option maxRecDepth 40000

namespace Sys2Proof.Tests
open Sys2Proof.Machine

/-! ### Small states -/

/-- A list of zero words but for those listed. -/
def words (n : Nat) (l : List (Nat × W32)) : List W32 := l.foldl (fun ws x => ws.set x.1 x.2) (List.replicate n 0)

/-- An imprint with system and module words set, its signer's hash 1. -/
def imp (sys mod : List (Nat × W32)) : Imprint :=
  { header := words 8 [(0, 0x4B494D50), (1, 1), (2, 5), (4, 31972), (5, 2112)] ++
      bytesWords 8 (leBytes 32 Config.identityDigest.toNat)
    system := words 256 sys, modsec := words 256 mod, rotation := false, signerHash := 1, rotHash := 0, sigOk := true,
    rotOk := false }

/-- A system section in range: one partition, one model, no ring but one. -/
def sysOk : List (Nat × W32) :=
  [(0, 1), (1, 60), (4, 0x04040404), (5, 0x02020202), (6, 0x8081), (7, 0x101), (8, 1), (10, 1), (11, 0x11)]

/-- The imprint of the tests: every word of its module section 0. -/
def imOk : Imprint := imp sysOk []

/-- A module in Run, configured, on an imprint: link up, pair 0 running in role 2 with rings of 16 entries. -/
def run (im : Imprint) : State :=
  { State.reset with
    power := { Power.reset with state := .run, config := 1, cold := false }
    board := { Board.reset with v54Ok := true }
    time := { TimeBase.reset with counting := true }
    ident := { Ident.reset with identityOk := true, imprint := some im, firmware := some Firmware.shipped }
    port := { Port.reset with
      linkUp := true, busMaster := true, memSpace := true
      queues := { Queue.reset with enable := true, qstate := 1, role := 2, lSqLog := 4, lCqLog := 4, sqTail := 1 } ::
        List.replicate 15 Queue.reset } }

/-- The module of the tests. -/
def up : State := run imOk

/-- A started command of pair 0 with TAG 7. -/
def cmd (opc : Nat) (args : List W32) : Started :=
  { q := 0, tag := 7, opc := opc, args := args, bufAddr := 0, bufBytes := 0, role := 2, chan := none, begun := false,
    discard := false }

/-- A state with one started command. -/
def having (s : State) (c : Started) : State := { s with port := { s.port with started := [c] } }

theorem turn (s : State) (c : Started) : (having s c).installerTurn c = true := by simp [State.installerTurn, having]

theorem started_up (opc : Nat) (args : List W32) :
    (having up (cmd opc args)).commandAt 0 7 opc (cmd opc args) :=
  ⟨rfl, rfl, rfl, rfl, by simp [State.bufReady, cmd], turn _ _, (by decide : up.takesEntry 0 = true)⟩

/-! ### Witnesses: the module as a whole -/

theorem witness_step_runs_front : ({ up with pending := [.timeLoRead] } : State).pending = .timeLoRead :: [] := rfl

theorem witness_reset_invariants : State.reset.memWf = true ∧ State.reset.storesWf = true ∧ State.reset.shaped = true := by decide

theorem witness_steps_from_reset : ∃ t, step State.reset = .next t := ⟨_, rfl⟩

theorem witness_commands_that_leave : touchesMemory (.nop 0 7) = false ∧ ∃ t, exec (.nop 0 7) up = .next t := ⟨rfl, _, rfl⟩

theorem witness_empty_queue : up.pending = [] ∧ up.timeRuns = true ∧ up.govRuns = true ∧ up.cellar.indexDue = 0 ∧
    State.reset.pending = [] ∧ State.reset.govRuns = false := by decide

/-! ### Witnesses: the control port -/

theorem witness_nop_full_ring :
    (having { up with port := { up.port with busMaster := false } } (cmd 0 [])).started? 0 7 = some (cmd 0 []) ∧
    (up.queue 0).qstate = 1 := by decide

/-- A submission entry of an opcode and ARG1, TAG 7. -/
def entry (opc : Nat) (arg1 : W32) : List W32 := words 16 [(0, w32 (opc + 0x70000)), (1, arg1)]

theorem witness_submission : up.fetches = true ∧ up.nextPair = some 0 ∧ up.shaped = true ∧ up.takesEntry 0 = true ∧
    bits (wd (entry 0 0) 0) 7 0 ∈ opcodes ∧ roleMay 2 0 = true ∧ up.configMay 2 0 ((entry 0 0).drop 1 |>.take 11) = true ∧
    entryForm (entry 0 0) (bits (up.sys 1) 16 0) = cDone := by decide

theorem witness_submission_refused : roleMay (up.queue 0).role 0x60 = false ∧ bits (wd (entry 0x60 0) 0) 7 0 = 0x60 ∧
    0x7F ∉ opcodes ∧ entryForm (entry 0 1) (bits (up.sys 1) 16 0) = cAlign := by decide

theorem witness_queue_enable : up.barOpen = true ∧ (up.queue 15).enable = false ∧ (up.queue 15).qstate = 0 ∧
    (0x1C4 : W32).getLsbD 8 = true ∧ within 4 12 (bits 0x1C4 3 0) = true ∧ within 4 12 (bits 0x1C4 7 4) = true ∧
    (up.queue 15).sqBase &&& 63#64 = 0 := by decide

theorem witness_queue_disable : (0xC4 : W32).getLsbD 8 = false ∧ (up.queue 0).qstate = 1 ∧
    up.port.started.any (fun c => c.q == 0) = false ∧
    (having up (cmd 0 [])).port.started.any (fun c => c.q == 0) = true := by decide

theorem witness_doorbells : bits 15 15 0 < ringEntries (up.queue 0).lSqLog ∧ ringEntries (up.queue 0).lSqLog ≤ bits 16 15 0 ∧
    bits 15 15 0 < ringEntries (up.queue 0).lCqLog ∧ (up.queue 0).held = [] := by decide

theorem witness_read_clear : ∃ v u, up.readClear 0x2108 true = some (v, u) := ⟨_, _, rfl⟩

theorem witness_port_resets : up.shaped = true ∧ up.port.linkUp = true ∧ up.dieOn = true := by decide

theorem witness_bus_master : ∀ q, (State.reset.queue q).held = [] := by
  intro q
  have h : ∀ k ∈ State.reset.port.queues, k.held = [] := by decide
  simp only [State.queue, List.getD_eq_getElem?_getD]
  cases e : State.reset.port.queues[q]? with
  | none => rfl
  | some k => exact h k (List.mem_of_getElem? e)

/-- A pair with a challenge, on a module whose anchor is set. -/
def challenged : State :=
  { up with
    nor := { up.nor with keyHash := 1 }
    port := { up.port with queues := modAt up.port.queues 0 fun k => { k with challenge := some 9 } } }

/-- The answer of a holder of the anchor's key. -/
def answer : SessionAnswer := { sigOk := true, keyHash := 1, token := false, tokenOk := false }

theorem witness_session : up.sessionDenied (bits 0x8 3 2) (bits 0x8 6 4) = false ∧ (0x8 : W32).getLsbD 0 = false ∧
    (0x9 : W32).getLsbD 0 = true ∧ (up.queue 0).challenge = none := by decide

theorem witness_session_answer :
    (having challenged (cmd 0x01 [0x9])).commandAt 0 7 0x01 (cmd 0x01 [0x9]) ∧
    challenged.sessionDenied 2 0 = false ∧ (challenged.queue 0).challenge ≠ none ∧ challenged.answerOk 2 answer = true ∧
    challenged.nor.keyHash ≠ 0 := by
  refine ⟨⟨rfl, rfl, rfl, rfl, by decide, by decide, by decide⟩, by decide⟩

/-- The answer of a token's holder while the anchor is empty, and the answer of another. -/
def token (ok : Bool) : SessionAnswer := { sigOk := true, keyHash := 1, token := true, tokenOk := ok }

/-- A pair with a challenge on a module whose anchor is empty. -/
def enrolling : State := { challenged with nor := { up.nor with keyHash := 0 } }

theorem witness_enrolment : enrolling.sessionDenied 2 0 = false ∧ (enrolling.queue 0).challenge ≠ none ∧
    enrolling.answerOk 2 (token true) = true ∧ enrolling.answerOk 2 (token false) = false ∧ bits ((cmd 0x01 [0x9]).arg 1) 3 2 = 2 ∧
    enrolling.nor.keyHash = 0 ∧ ({ cmd 0x01 [0x9] with bufBytes := 59648 } : Started).bufBytes = 59648 ∧
    (cmd 0x01 [0x9]).bufBytes < 59648 ∧ challenged.answerOk 2 (token true) = true := by decide

theorem witness_lockout : ∃ s : State, s.commandAt 0 7 0x01 (cmd 0x01 [0x8]) ∧ s.ident.lockout = true :=
  ⟨having { up with ident := { up.ident with lockout := true } } (cmd 0x01 [0x8]),
    ⟨rfl, rfl, rfl, rfl, by decide, by decide, by decide⟩, rfl⟩

theorem witness_maker_session : ∃ s : State, s.shaped = true ∧ (s.queue 15).role = 3 :=
  ⟨{ up with port := { up.port with queues := modAt up.port.queues 15 fun k => { k with role := 3 } } }, by decide⟩

theorem witness_simmer_and_cap : (((cmd 0x40 [0x10F]).arg 1).getLsbD 8 = true) ∧ (((cmd 0x40 [0xF]).arg 1).getLsbD 8 = false) ∧
    bits ((cmd 0x42 [100]).arg 1) 15 0 = 100 := by decide

theorem witness_telemetry : ∃ s : State, s.commandAt 0 7 0x43 (cmd 0x43 []) ∧ s.power.telemetry.length = 16 :=
  ⟨having { up with power := { up.power with telemetry := List.replicate 16 0 } } (cmd 0x43 []),
    ⟨rfl, rfl, rfl, rfl, by decide, by decide, by decide⟩, rfl⟩

/-- A schedule entry: constant rate, PERIOD 1, MULT 1. -/
def schedule : List W32 := [0x3F800000, 0, 0, 1, 1, 0, 0, 0]

theorem witness_load_schedules : bits ((cmd 0x21 [6, 255, 1]).arg 1) 3 0 = 6 ∧
    schedule.length = 8 * ((cmd 0x21 [6, 255, 1]).arg 3).toNat ∧ entryOk 6 schedule = true := by decide

/-! ### Witnesses: the flash -/

theorem target_ok : ((imOk.header.drop 8).take 8 != bytesWords 8 (leBytes 32 Config.identityDigest.toNat)) = false := by
  have h : (imOk.header.drop 8).take 8 = bytesWords 8 (leBytes 32 Config.identityDigest.toNat) := by
    have l : (bytesWords 8 (leBytes 32 Config.identityDigest.toNat)).length = 8 := by simp [bytesWords]
    have e : (words 8 [(0, 0x4B494D50), (1, 1), (2, 5), (4, 31972), (5, 2112)]).length = 8 := by decide
    simp only [imOk, imp]
    rw [List.drop_append_of_le_length (by omega), List.drop_eq_nil_of_le (by omega), List.nil_append, List.take_of_length_le (by omega)]
  rw [h]
  simp

theorem valid_ok : validate Config.identityDigest 0 imOk = 0 := by
  unfold validate
  simp only [target_ok]
  decide

/-- The flash with an anchor and the imprint in slot 0. -/
def flash : Nor := { Nor.reset with keyHash := 1, im := [some imOk, none] }

theorem judge_ok (b : Bool) : (judge flash b (flash.fwOf 0) (flash.imOf 0)).1 = cDone := by
  have e : (judge flash b (flash.fwOf 0) (flash.imOf 0)) =
      (if validate Config.identityDigest 0 imOk = 0 then (cDone, 0) else (cConflict, validate Config.identityDigest 0 imOk)) := by
    cases b <;> rfl
  rw [e, valid_ok]
  rfl

/-- A started command with a buffer of n bytes on buffer channel 4, which runs. -/
def buffered (opc : Nat) (args : List W32) (n : Nat) : Started := { cmd opc args with bufBytes := n, chan := some 4 }

/-- A state in which buffer channel 4 of section 0 runs. -/
def moving (s : State) : State :=
  { s with port := { s.port with engines := modAt s.port.engines 0 fun e =>
      { e with channels := modAt e.channels 4 fun ch => { ch with state := 2 } } } }

/-- The module on an anchored flash. -/
def anchored : State := { up with nor := flash }

theorem witness_install_imprint :
    (having (moving anchored) (buffered 0x50 [] 31972)).commandAt 0 7 0x50 (buffered 0x50 [] 31972) ∧
    imprintBytes imOk.rotation ≤ 31972 ∧ imOk.rotation = false ∧
    (judge anchored.nor true (anchored.nor.fwOf anchored.otherSlot) (some imOk)).1 = cDone ∧
    (judge anchored.nor true (anchored.nor.fwOf anchored.otherSlot) (some { imOk with sigOk := false })).1 ≠ cDone ∧
    anchored.nor.prevHash = 0 :=
  ⟨⟨rfl, rfl, rfl, rfl, by decide, by decide, by decide⟩, by decide, rfl, judge_ok true, by decide, rfl⟩

theorem witness_commit_version : up.ident.imprint = some imOk := rfl

/-- A module whose errata log folds a record. -/
def folding : State := up.log cPartner 1 2

theorem witness_errata_fold : ∃ r, folding.errata.fold = some r ∧ folding.errata.ring.length < ringSize ∧
    folding.errata.unmirrored.length < 1023 := ⟨_, rfl, by decide, by decide⟩

/-! ### Witnesses: DMA -/

/-- DMA_START arguments: channel 1 of section 0, from SRC in host memory to a section store, one row of 64 bytes. -/
def dmaArgs (src : W32) : List W32 := [4, src, 0, 0, 0, 0x18, 1, 64, 64, 64]

theorem witness_dma_start : up.dmaCheck (cmd 0x30 (dmaArgs 64)) = cDone ∧ (cmd 0x30 (dmaArgs 64)).arg 7 ≠ 0 ∧
    (cmd 0x30 (dmaArgs 64)).arg 8 ≠ 0 ∧
    ((up.port.engines[bits ((cmd 0x30 (dmaArgs 64)).arg 1) 1 0]?).bind
      fun e => e.channels[bits ((cmd 0x30 (dmaArgs 64)).arg 1) 3 2]?) = some Channel.reset := by decide

theorem witness_dma_refused : up.dmaCheck (cmd 0x30 (dmaArgs 32)) ≠ cDone ∧
    up.dmaCheck (cmd 0x30 [4, 64, 0, 0, 0, 0x18, 0, 64, 64, 64]) = cDone ∧
    (cmd 0x30 [4, 64, 0, 0, 0, 0x18, 0, 64, 64, 64]).arg 7 = 0 := by decide

theorem witness_dma_alignment : (cmd 0x30 (dmaArgs 32)).chan = none ∧ ((cmd 0x30 (dmaArgs 32)).arg 2).toNat % 64 ≠ 0 ∧
    up.spaceDenied 2 (cfgSrc 0x18) 32 = false ∧ up.spaceDenied 2 (cfgDst 0x18) 0 = false ∧
    (0x58 : W32).getLsbD 6 = true ∧ 3 * cfgElem 0x58 % 64 ≠ 0 := by decide

/-- An engine whose channel 1 has a state, one row of 64 bytes from a core store to a section store under TAG 9 of pair 1. -/
def channelState (st : Nat) : Dma :=
  { Dma.reset with
    channels := modAt Dma.reset.channels 1 fun ch =>
      { ch with state := st, cfg := 0x1C, rows := 1, rowBytes := 64, queue := 1, tag := 9 }
    current := 1 }

/-- The module with that engine in section 0, pair 1 running too, and commands of both pairs started. -/
def serving (st : Nat) (c : Started) : State :=
  { up with port := { up.port with
      engines := modAt up.port.engines 0 fun _ => channelState st
      queues := modAt up.port.queues 1 fun k => { k with enable := true, qstate := 1, role := 2, lSqLog := 4, lCqLog := 4 }
      started := [c, { cmd 0x30 [] with q := 1, tag := 9, begun := true }] } }

theorem witness_dma_turn : (serving 1 (cmd 0 [])).port.engines[0]? = some (channelState 1) ∧ (channelState 1).busy = false ∧
    (channelState 1).next = some 1 ∧ (channelState 2).busy = true := by decide

theorem witness_dma_halt : (serving 2 (cmd 0 [])).port.engines[0]? = some (channelState 2) ∧
    ((serving 2 (cmd 0 [])).channel 0 (channelState 2).current).state = 2 ∧
    ((serving 2 (cmd 0 [])).channel 0 (channelState 2).current).done = 0 := by decide

theorem witness_dma_control (a : W32) : (serving 3 (cmd 0x31 [a])).commandAt 0 7 0x31 (cmd 0x31 [a]) :=
  ⟨rfl, rfl, rfl, rfl, by simp [State.bufReady, cmd], by simp [State.installerTurn, serving, cmd], (by decide : (serving 3 (cmd 0x31 [])).takesEntry 0 = true)⟩

theorem witness_dma_settled : (0, 1) = ctrlChannel (cmd 0x31 [0x104]) ∧ bits ((cmd 0x31 [0x104]).arg 1) 9 8 = 1 ∧
    (0, 1) = ctrlChannel (cmd 0x31 [0x204]) ∧ bits ((cmd 0x31 [0x204]).arg 1) 9 8 = 2 ∧
    ((serving 3 (cmd 0x31 [0x204])).channel 0 1).state = 3 ∧ ((serving 3 (cmd 0x31 [0x204])).channel 0 1).queue ≠ 0 ∧
    (serving 3 (cmd 0x31 [0x204])).started? 1 9 = some { cmd 0x30 [] with q := 1, tag := 9, begun := true } ∧
    (serving 3 (cmd 0x31 [0x204])).takesEntry 1 = true := by decide

theorem witness_dma_copy : (serving 2 (cmd 0 [])).runningDma 0 = some 1 ∧ (serving 2 (cmd 0 [])).rack.flawed = [] ∧
    cfgSrc ((serving 2 (cmd 0 [])).channel 0 1).cfg = 4 ∧ cfgDst ((serving 2 (cmd 0 [])).channel 0 1).cfg = 3 ∧
    ((serving 2 (cmd 0 [])).channel 0 1).cfg.getLsbD 6 = false ∧ ((serving 2 (cmd 0 [])).channel 0 1).rows = 1 ∧
    ((serving 2 (cmd 0 [])).channel 0 1).rowBytes = 64 ∧ (serving 2 (cmd 0 [])).takesEntry 1 = true ∧
    (serving 2 (cmd 0 [])).moduleFilled 0 0 = false ∧ (serving 2 (cmd 0 [])).moduleFilled 0 0x100000 = false ∧
    ((serving 2 (cmd 0 [])).channel 0 1).src.toNat % 0x800000 + 64 ≤ 0x340000 := by decide

/-! ### Witnesses: plans and requests -/

/-- A started command holds of a state whose pair 0 answers at once and whose command c needs no buffer. -/
theorem started_at (s : State) (opc : Nat) (args : List W32) (h : (having s (cmd opc args)).takesEntry 0 = true) :
    (having s (cmd opc args)).commandAt 0 7 opc (cmd opc args) :=
  ⟨rfl, rfl, rfl, rfl, by simp [State.bufReady, cmd], turn _ _, h⟩

/-- A plan of one FENCE of core 0, for waves of one row, without weights: header, descriptor, image. -/
def descFence : List W32 := words 16 [(0, 0x10), (3, w32 (1 + (1 <<< 6) + (1 <<< 18)))]
def imgHead : List W32 := words 80 [(0, 1), (1, 1), (7, 20), (10, 0xFFFFFF), (16, 1), (17, 1), (18, 1)]
def img : List Byte := wordsBytes imgHead ++ wordsBytes descFence

/-- That plan as its slot holds it. -/
def fencePlan : Plan :=
  { header := imgHead, descs := [descFence], table := [], leaves := [], tableBase := 0, scratch := [0, 0, 0, 0], regionBase := 0,
    regionUnits := 1, suspect := false, unfit := 0 }

/-- The module with that plan in slot 0. -/
def planned : State := up.modSlot 0 fun k => { k with plan := some fencePlan }

theorem witness_set_refresh_unload : planned.shaped = true ∧ bits ((cmd 0x15 [0]).arg 1) 20 16 = 0 ∧
    planned.takesEntry 0 = true ∧ (planned.slot (bits ((cmd 0x11 [0]).arg 1) 5 0)).plan ≠ none ∧ planned.streamsOf 0 = [] ∧
    (∀ x ∈ planned.cmds, x.slot ≠ 0) := by decide

/-- LOAD_PLAN of the image, from a buffer of its size. -/
def loading (args : List W32) (s : State) : State := having (moving s) (buffered 0x10 args 384)

theorem witness_load_plan : (loading [0] up).commandAt 0 7 0x10 (buffered 0x10 [0] 384) ∧ (loading [0] up).shaped = true ∧
    (loading [0] up).loadCheck 0 img 384 false = cDone ∧ bits (wd (bytesWords 80 img) 5) 23 0 = 0 ∧
    (∀ desc, ∃ ls u, State.placeWeights 0 desc [] [] 0 0 ((loading [0] up).dropRetained 0) = some (ls, u)) ∧
    0 ≤ (loading [0] up).framesAhead 0 :=
  ⟨⟨rfl, rfl, rfl, rfl, by decide, by decide, by decide⟩, by decide, by decide, by decide, fun _ => ⟨[], _, rfl⟩, by decide⟩

theorem witness_load_adopt : ∃ s : State, s.commandAt 0 7 0x10 (buffered 0x10 [0x100] 384) ∧
    s.loadCheck 0 img 384 true = cDone ∧ (s.slot 0).retained = some ((0 : W64), []) :=
  ⟨loading [0x100] (up.modSlot 0 fun k => { k with retained := some (0, []) }), ⟨rfl, rfl, rfl, rfl, by decide, by decide, by decide⟩,
    by decide, by decide⟩

theorem witness_load_refused : (loading [0] planned).loadCheck 0 img 384 false = cAlign ∧
    (loading [0x100] planned).loadCheck 0 img 384 true = cAlign ∧
    (loading [0] planned).commandAt 0 7 0x10 (buffered 0x10 [0] 384) :=
  ⟨by decide, by decide, rfl, rfl, rfl, rfl, by decide, by decide, by decide⟩

/-- A header of a bulk start into slot 0 of any stream, of steps n. -/
def admitHeader (n : W32) : List W32 := words 16 [(0, 0x14B47), (1, 0xFFFF), (4, n)]

theorem witness_grist : bits (wd (admitHeader 1) 4) 23 0 ≠ 0 ∧ bits (wd (admitHeader 0) 4) 23 0 = 0 ∧
    bits (wd (admitHeader 0) 5) 23 0 = 0 ∧ wd (admitHeader 0) 7 = 0 ∧ bits (wd (admitHeader 0) 13) 15 0 = 0 ∧
    (planned.submit (admitHeader 0) 0 0xFFFF (some (0, 7))).1 = cDone ∧
    (up.submit (admitHeader 0) 0 0xFFFF (some (0, 7))).1 ≠ cDone := by decide

/-- A live stream of slot 0. -/
def live : Stream := { Stream.free 3 with live := true }

/-- An open request record of a kind, for stream 5, with 2 steps. -/
def request (kind : Nat) : Req :=
  { open_ := true, kind := kind, prio := false, anyId := false, slot := 0, stream := 5, parent := 4, epoch := 3, steps := 2,
    inputCount := 0, inputFrames := false, inputDone := 0, inputAddr := 0, replyCtx := 0xFFFF, result := 0, dims := [],
    queued := 0, next := 0, admitted := false, started := none }

/-- The module with the plan, a small leaf pool, stream 5 live and served by record 0 of section 0, and that request. -/
def asking (kind : Nat) : State :=
  { planned with
    rack := { planned.rack with poolSize := 64 }
    streams := [(5, live)], reqs := [(reqKey 0 0, request kind)] }

theorem witness_admit : (asking 0).req (reqKey 0 0) = request 0 ∧ ((asking 0).slot 0).plan = some fencePlan ∧
    (asking 0).slotPart 0 = some 0 ∧ (∃ root st rest u, (asking 0).newQuire 0 = some (root :: st :: rest, u)) ∧
    up.newQuire 0 = none :=
  ⟨by decide, by decide, by decide, ⟨_, _, _, _, rfl⟩, by decide⟩

theorem witness_request_acts : (∀ k, k < 7 → (asking k).req (reqKey 0 0) = request k ∧
      (request k).open_ = true ∧ (request k).admitted = false ∧ (request k).kind = k) ∧
    ((asking 1).stream 5).live = true ∧ ((asking 1).stream 5).reqIndex = reqKey 0 0 % 4096 ∧ (request 1).steps ≠ 0 ∧
    ((asking 5).part ((asking 5).stream 5).partition).cycle = none ∧
    (((asking 5).modPart 0 fun p => { p with cycle := some ⟨false, 0, 0, false⟩ }).part 0).cycle ≠ none := by decide

/-! ### Witnesses: an edge port -/

/-- An imprint with an edge port 0: MODE 2, its IPv4 address 1, REQ_UDP_PORT 0x1000. -/
def imEdge : Imprint := imp ([(0, 0x10000001)] ++ sysOk.drop 1) [(16, 2), (19, 1)]

/-- A datagram of 64 bytes at offset 0 of the n of a bulk request's input. -/
def piece (n : W32) : Datagram :=
  { good := true, ip6 := false, srcIp := 9, dstIp := 1, srcPort := 5, dstPort := 0x1000, srcMac := 3, vlan := 0,
    words := words 16 [(0, 0x14B47), (1, 0xFFFF), (4, 1), (7, n), (13, 64)], data := List.replicate 64 1 }

/-- One of 192 bytes. -/
def datagram : Datagram := piece 192

/-- A context of that requester, the last 64 bytes of its 192 received. -/
def context (d : Bool) : Ctxt :=
  { id := 0, port := 0, ip6 := false, ip := 9, udp := 5, mac := 3, vlan := 0, reqTag := 0, header := datagram.words,
    got := [(128, 64)], area := 0, passed := false, done := d }

/-- The module with that port up and that context. -/
def edge (d : Bool) : State :=
  { run imEdge with
    fabric := { Fabric.reset with
      ports := modAt Fabric.reset.ports 0 fun k => { k with mode := 2, state := 2 }, ctxs := [context d] } }

theorem witness_datagrams : 0 < (edge false).fabric.ports.length ∧ (edge false).edgeUp 0 = true ∧
    (edge false).datagramOk 0 datagram = true ∧ (edge false).ctxFor 0 datagram = some (context false) ∧
    (wd datagram.words 8).toNat + datagram.data.length ≤ (wd (context false).header 7).toNat ∧
    reach ((context false).got ++ [((wd datagram.words 8).toNat, datagram.data.length)]) ((context false).got.length + 2) 0
      < (wd (context false).header 7).toNat ∧
    (edge false).datagramOk 0 { datagram with good := false } = false ∧ (edge false).ctx? 0 0 = some (context false) ∧
    ((edge false).fport 0).state = 2 ∧ (edge true).ctx? 0 0 = some (context true) ∧
    (edge false).portIp 0 false = 1 ∧ pieceOk datagram = true ∧ (edge true).ctxFor 0 datagram = some (context true) ∧
    (context true).done = true ∧ pieceOk { datagram with data := [1] } = false := by decide

/-- The module with that port up and no context. -/
def quiet : State := { edge false with fabric := { (edge false).fabric with ctxs := [] } }

theorem witness_first_datagram : quiet.edgeUp 0 = true ∧ quiet.datagramOk 0 datagram = true ∧ quiet.ctxFor 0 datagram = none ∧
    headerRange datagram.words = true ∧ pieceOk datagram = true ∧ (∀ x ∈ quiet.fabric.ctxs, x.port = 0 → x.id ≠ 0) ∧
    (List.range (min 4096 ((quiet.fabric.ctxs.filter fun x => x.port == 0).length + 1))).find?
      (fun i => !(((quiet.fabric.ctxs.filter fun x => x.port == 0).map (·.id)).contains i)) = some 0 ∧
    firstFit quiet.inputUsed (((wd datagram.words 7).toNat + 255) / 256 * 256) 0x4000000 = some 0 ∧
    reach [((wd datagram.words 8).toNat, datagram.data.length)] 2 0 < (wd datagram.words 7).toNat ∧
    quiet.datagramOk 0 (piece 64) = true ∧ headerRange (piece 64).words = true ∧ pieceOk (piece 64) = true ∧
    (wd (piece 64).words 7).toNat ≤ reach [((wd (piece 64).words 8).toNat, (piece 64).data.length)] 2 0 ∧
    (∃ i u, State.submit { quiet with slots := planned.slots } (piece 64).words 0 0 none = (cDone, i, u)) :=
  ⟨by decide, by decide, by decide, by decide, by decide, by decide, by decide, by decide, by decide, by decide, by decide, by decide,
    by decide, ⟨_, _, rfl⟩⟩

/-! ### Witnesses: cycles, service and training -/

/-- A wave of the plan's one descriptor, over streams without rows. -/
def wave (legs : List (Nat × Nat)) : Wave :=
  { slot := 0, prio := true, legs := legs, leg := 0, runs := [], shape := ⟨[], [], []⟩, train := none, code := 0 }

/-- A run of a wave for stream 5, which has closed and whose reply has left. -/
def runOf (closed : Nat) : WaveRun :=
  { stream := 5, req := none, epoch := 3, kind := .step,
    run := { rowFirst := 0, rowCount := 1, kvLen := 1, qPos0 := 0, maskSel := 0, full := false, group := 0 },
    void := false, begun := true, closed := closed }

/-- The module with the plan, stream 5 live, and the lead of partition 0 as given. -/
def leading (p : Partition) : State := { planned with streams := [(5, live)], parts := planned.parts.set 0 p }

/-- A cycle that runs. -/
def cycle (prio : Bool) : Cycle := { prio := prio, start := 0, ticks := 0, overran := false }

/-- A partition with a priority wave of one run. -/
def ahead : Partition := { Partition.reset with prio := some { wave [(0, 0)] with runs := [runOf 0] } }

theorem witness_cycle_start : (leading ahead).gristRuns 0 = true ∧ 0 < (leading ahead).parts.length ∧
    ((leading ahead).part 0).cycle = none ∧ ((leading ahead).part 0).prio = ahead.prio ∧
    (leading ahead).waveOver 0 true { wave [(0, 0)] with runs := [runOf 0] } = false ∧
    ((leading ahead).slot 0).plan = some fencePlan ∧ (wave [(0, 0)]).legs[0]? = some (0, 0) ∧
    (∃ s : State, s.gristRuns 0 = true ∧ (s.part 0).prio = none ∧ (s.part 0).bulkFirst = true ∧
      (s.part 0).bulk = some { wave [(0, 0)] with prio := false, runs := [runOf 0] } ∧ (s.part 0).remaining = [] ∧
      s.waveOver 0 false { wave [(0, 0)] with prio := false, runs := [runOf 0] } = false) :=
  ⟨by decide, by decide, by decide, by decide, by decide, by decide, by decide,
    leading { Partition.reset with bulkFirst := true, bulk := some { wave [(0, 0)] with prio := false, runs := [runOf 0] } },
    by decide, by decide, by decide, by decide, by decide, by decide⟩

/-- A partition within a cycle of a wave. -/
def within_ (w : Wave) : Partition := { Partition.reset with prio := some w, cycle := some (cycle true) }

theorem witness_cycle_end : ((leading (within_ (wave [(0, 0), (0, 0)]))).part 0).cycle = some (cycle true) ∧
    (∀ c ∈ (leading (within_ (wave []))).cmds, c.part = 0 → c.origin ≠ .wave true) ∧
    (∀ e ∈ (leading (within_ (wave []))).reqs, e.2.kind < 5) ∧
    ((leading (within_ (wave [(0, 0), (0, 0)]))).part 0).wave true = some (wave [(0, 0), (0, 0)]) ∧
    (wave [(0, 0), (0, 0)]).leg + 1 < (wave [(0, 0), (0, 0)]).legs.length ∧
    fencePlan.suspect = false ∧
    ((leading (within_ { wave [(0, 0)] with runs := [runOf 2] })).part 0).wave true =
      some { wave [(0, 0)] with runs := [runOf 2] } ∧
    (∀ e ∈ (leading (within_ (wave []))).streams, e.2.pauseNext = none) ∧ (runOf 2).void = false ∧ (runOf 2).closed = 2 ∧
    (wave [(0, 0)]).legs.length ≤ (wave [(0, 0)]).leg + 1 ∧ (wave [(0, 0)]).train = none ∧
    (∀ e ∈ (leading (within_ (wave []))).malt.old, e.1 = 0 → e.2.1 ≠ true) := by decide

/-- A partition in a bulk cycle, and stream 5 with a priority request that can be served. -/
def overrun : State :=
  { leading { Partition.reset with
      bulk := some { wave [(0, 0)] with prio := false, runs := [{ runOf 0 with stream := 6 }] }, cycle := some (cycle false) } with
    streams := [(5, { live with prio := true, stepsLeft := 1, reqIndex := 0 }), (6, live)]
    reqs := [(reqKey 0 0, { request 1 with prio := true, admitted := true, steps := 1 })] }

theorem witness_tick : (overrun.part 0).cycle = some (cycle false) ∧ (overrun.part 0).bulkFirst = false ∧
    (overrun.part 0).prio = none ∧ overrun.power.entry = none ∧ (overrun.part 0).bulk ≠ none ∧
    (∃ w u, State.assembleClass (overrun.modPart 0 fun p => { p with
      cycle := some { cycle false with ticks := 0 + 1, overran := true }
      overruns := if (cycle false).ticks = 0 then sat32 (p.overruns + 1) else p.overruns }) 0 true = (some w, u)) ∧
    ((leading (within_ (wave []))).part 0).cycle = some (cycle true) :=
  ⟨by decide, by decide, by decide, by decide, by decide, ⟨_, _, rfl⟩, by decide⟩

/-- The plan with a training entry. -/
def trainPlan : Plan := { fencePlan with header := fencePlan.header.set 10 0 }

/-- The module with that plan, stream 5 live at position 1. -/
def training : State := { (up.modSlot 0 fun k => { k with plan := some trainPlan }) with streams := [(5, { live with position := 1 })] }

/-- A run entry of TRAIN: stream 5, its first row. -/
def trainEntry : List W32 := [5, 0, 1, 1]

theorem witness_service_cycles : (∃ s : State, s.gristRuns 0 = true ∧ s.forksReady 0 ≠ [] ∧ (s.forksReady 0).length ≤ 256 ∧
      ∀ x ∈ s.forksReady 0, ∀ q, x.req = some q → s.parentStands (s.req (reqKey q.1 q.2)) = true) ∧
    (∃ s : State, s.gristRuns 0 = true ∧ (s.streams.filter fun e => e.2.live && e.2.ending && e.2.partition == 0 && !s.hasCmd e.1 &&
      !s.forking.contains e.1).map (·.1) = [5]) := by
  let s : State := { asking 0 with
      streams := [(4, live), (5, { live with live := false, reserved := true, parent := 4 })]
      reqs := [(reqKey 0 0, { request 2 with admitted := true })] }
  refine ⟨⟨s, by decide, by decide, by decide, ?_⟩,
    ⟨{ asking 0 with streams := [(5, { live with ending := true })] }, by decide, by decide⟩⟩
  have e : ∀ x ∈ s.forksReady 0, x.req = some (0, 0) := by decide
  intro x hx q hq
  rw [e x hx] at hq
  cases hq
  decide

theorem witness_train : training.takesEntry 0 = true ∧ training.slotPart 0 = some 0 ∧ 0 < training.parts.length ∧
    training.trainCode 0 [0, 0, 0, 0] trainEntry (bits ((cmd 0x13 [0x10000]).arg 1) 28 16) = cDone ∧
    training.trainCode 0 [0, 0, 0, 0] [6, 0, 1, 1] 1 = cStale ∧
    planned.trainCode 0 [0, 0, 0, 0] [] 0 = cAlign := by decide

theorem witness_plain_rerun : (planned.slot (bits ((cmd 0x14 [0, 0]).arg 1) 5 0)).plan = some fencePlan ∧
    fencePlan.descs[((cmd 0x14 [0, 0]).arg 2).toNat]? = some descFence ∧ rerunBarred descFence = false ∧
    planned.slotRuns 0 = false ∧ fencePlan.descs.length ≤ ((cmd 0x14 [0, 1]).arg 2).toNat := by decide

/-! ### Witnesses: commands that issue -/

/-- A command placed on core 0 by order of the installer, of a descriptor, a shape's dimensions and rows. -/
def placed (ws : List W32) (dims : List W32) (rows : List Nat) : Cmd :=
  { id := 0, part := 0, slot := 0, desc := 0, words := ws, origin := .plainRerun 0 7,
    shape := { dims := dims, rows := rows, runs := [] }, runs := [], closes := [], phase := .placed, rerun := true, plain := true,
    skews := 0, timeouts := 0, cores := [0], serial := 0, passes := 0, order := [], sums := [], spill := [], infSeen := false, nanSeen := false, outSat := false,
    empty := false, skewed := false, effs := [], pins := [], taken := [], consumed := [], waits := [], starved := false,
    scaled := [], attempt := 0, arr := 0 }

/-- A running fork cycle whose row is a child of stream 5. -/
theorem witness_fork_parent : (5 ∈ { asking 4 with
      cmds := [{ placed (words 16 [(0, 0x0D)]) [] [6] with origin := .service }]
      streams := [(5, live), (6, { live with parent := 5 })] }.forking) ∧ 5 ∉ (asking 4).forking := by decide

/-- A parcel of a TYPE for this module from module 9, IDENT 0, TOKEN 0. -/
def parcelOf (ptype : BitVec 4) (payload : List Byte) : Parcel :=
  { dest := 0, segs := [], shortColophon := 0, alive := 1, src := 9, stream := 5, ptype := ptype, ident := 0, token := 0, epochLo := 3, reversed := false, second := false,
    payload := payload }

/-- A parcel in slot 0 of the receive area, swept. -/
def arrived (p : Parcel) : Rx := { rq := 0, units := [0], parcel := p, port := some 1, bad := false, vis := 1, swept := true, takenBy := none }

/-- A member channel that is no root, of 4 blocks and slot 0, its parent module 8 and its child module 9. -/
def memberEntry : List W32 := words 16 [(0, 0x9), (1, 8), (3, 4), (5, 9)]

/-- The module with the plan, stream 5, a parcel of TYPE 3, channel 0 a member, and one placed command. -/
def placing (c : Cmd) : State :=
  { planned with
    cmds := [c], nextCmd := 1, streams := [(5, live)]
    fabric := { planned.fabric with rx := [arrived (parcelOf 3 (List.replicate 64 0))] }
    channels := modAt planned.channels 0 fun k => { k with entry := memberEntry } }

/-- A command of an opcode and words 13 to 15, on core 0, every dimension 1 (or 0 where none is asked). -/
def unit_ (one : Bool) (opc : Nat) (a b d : W32) : Cmd :=
  placed (words 16 [(0, w32 opc), (1, if one then 0x10001 else 0), (2, if one then 0x10001 else 0), (3, 0x41), (13, a), (14, b),
    (15, d)]) (List.replicate 64 0) []

/-- Does command c issue as a row of the plan commands, empty (none), or unhindered (some)? -/
def issues (c : Cmd) (x : Instr × Nat × (State → Cmd → Bool) × (State → Cmd → Res → Work)) : Option Bool :=
  let u := (placing c).asOf c
  if c.opc == x.2.1 && x.2.2.1 (placing c) c && u.issuable c x.2.2.2 then
    if (x.2.2.2 (u.sourceOf c (u.resolved c) x.2.2.2) c (u.resolved c)).empty then some false
    else if u.unhindered c x.2.2.2 then some true else none
  else none

/-- The command of the n-th row of the plan commands, with every dimension 1 or 0. -/
def rowForm (n : Nat) (one : Bool) (opc : Nat) : Cmd :=
  match n with
  | 4 | 5 => unit_ one opc (if one then 0x01010000 else 0) 0 (if one then 0x10001 else 0)
  | 12 => unit_ one opc 0x100 0 0
  | 13 | 16 => unit_ one opc 1 0 0
  | 17 => unit_ one opc 2 0 0
  | _ => unit_ one opc 0 0 0

theorem witness_rows_unhindered : ∀ x ∈ (planRows 0).zipIdx, issues (rowForm x.2 true x.1.2.1) x.1 = some true := by
  decide +kernel

theorem witness_rows_empty : ∀ x ∈ (planRows 0).zipIdx, x.2 ∉ [7, 14, 15, 16, 17, 19] →
    issues (rowForm x.2 false x.1.2.1) x.1 = some false := by decide

theorem witness_rows_placed : ∀ x ∈ (planRows 0).zipIdx,
    (placing (rowForm x.2 true x.1.2.1)).cmd? 0 = some (rowForm x.2 true x.1.2.1) ∧
    (rowForm x.2 true x.1.2.1).phase = .placed ∧ (rowForm x.2 true x.1.2.1).cores.Nodup ∧
    ∀ k ∈ (rowForm x.2 true x.1.2.1).cores, k < (placing (rowForm x.2 true x.1.2.1)).cores.length := by decide

/-- A command that has issued, with passes to come. -/
def issued (passes : Nat) : Cmd :=
  { placed descFence [] [] with phase := .issued, passes := passes, origin := .wave true, rerun := false }

/-- A pass by block k of tile 0, with no codes. -/
def pass (k : Nat) (rest : Bool) : Pass := { blk := { cmd := 0, b := 0, tile := 0, kb := k }, codes := [], rest := rest }

/-- An issued command of a slice on core 0 with passes to come, and the sums of one row of the accumulator file. -/
def slicing (ps : List Pass) : Cmd := { issued ps.length with order := [(0, ps)], sums := [(0, [(3, [7])])] }

theorem witness_passes : ∀ ps ∈ [[pass 0 false, pass 1 false], [pass 0 true, pass 1 false], [pass 0 false]],
    (placing (slicing ps)).cmd? 0 = some (slicing ps) ∧ (slicing ps).phase = .issued ∧ (slicing ps).waits = [] ∧
    (slicing ps).passes ≠ 0 ∧ ((placing (slicing ps)).asOf (slicing ps)).unreadable (slicing ps).pins = [] ∧
    ((placing (slicing ps)).asOf (slicing ps)).unwritable (slicing ps) = [] ∧ (slicing ps).skewed = false ∧
    ((slicing ps).order.map (·.1)).Nodup ∧ (placing (slicing ps)).cores[1]? = some CoreSt.reset ∧
    (∀ e ∈ (slicing ps).order, e.1 = 1 → e.2 = []) := by decide

theorem witness_pass_cores : (pass 1 false).blk ≠ (pass 0 false).blk ∧ up.cores[0]? = some CoreSt.reset ∧ CoreSt.reset.busy = false ∧
    CoreSt.reset.gapAt ≠ some up.now ∧ up.simmers 0 = true ∧ CoreSt.reset.simmer ≠ 8 ∧ (planned.simmers 63 = true) ∧
    (slicing [pass 0 false]).sums.find? (fun e => e.1 == 0) = some (0, [(3, [7])]) ∧
    (([(3, [7])] : List (Nat × List W32)).map (·.1)).Nodup ∧
    (∃ s : State, ∃ y, s.cores[0]? = some y ∧ y.busy = true) ∧ (∃ s : State, ∃ y, s.cores[0]? = some y ∧ y.gapAt = some s.now) ∧
    (∃ s : State, s.simmers 0 = false) ∧ ∃ s : State, s.simmers 0 = true ∧ ∃ y, s.cores[0]? = some y ∧ y.simmer = 8 :=
  ⟨by decide, by decide, by decide, by decide, by decide, by decide, by decide, by decide, by decide,
    ⟨{ up with cores := up.cores.set 0 { CoreSt.reset with busy := true } }, _, rfl, rfl⟩,
    ⟨{ up with cores := up.cores.set 0 { CoreSt.reset with gapAt := some 0 } }, _, rfl, rfl⟩, ⟨State.reset, by decide⟩,
    ⟨{ up with cores := up.cores.set 0 { CoreSt.reset with simmer := 8 } }, by decide, _, rfl, rfl⟩⟩

/-- An issued command whose passes are over, with one store of bytes. -/
def storing : Cmd := { issued 0 with effs := [.bytes (.core 0) 64 [1, 2]] }

/-- One that closes the token step of stream 5. -/
def closing : Cmd := { issued 0 with closes := [5], runs := [runOf 0] }

/-- The module in the cycle of that step's wave. -/
def stepping : State :=
  { placing closing with parts := planned.parts.set 0 (within_ { wave [(0, 0)] with runs := [runOf 0] }) }

/-- One that has taken the parcel which came over Dareno. -/
def taking : Cmd := { issued 0 with consumed := [0] }

theorem witness_commit : (placing taking).cmd? 0 = some taking ∧ (placing taking).consumedRemote taking = true ∧
    (placing taking).rack.flawed = [] ∧ (placing storing).rack.flawed = [] ∧ stepping.rack.flawed = [] ∧
    (placing storing).cmd? 0 = some storing ∧ (placing storing).consumedRemote storing = false ∧
    stepping.cmd? 0 = some closing ∧ stepping.consumedRemote closing = false ∧
    (stepping.runNow closing (runOf 0)).void = false ∧ ((placing taking).asOf taking).unwritable taking = [] ∧
    ((placing storing).asOf storing).unwritable storing = [] ∧ (placing storing).inTurn storing = true ∧
    (stepping.asOf closing).unwritable closing = [] ∧ stepping.inTurn closing = true ∧
    ({ placing storing with cmds := [issued 0, { storing with id := 1 }] } : State).inTurn { storing with id := 1 } = false := by
  decide

/-- The module with 16 ports as they stand after power-on, its time running, a held command. -/
def sweeping : State := placing { issued 0 with phase := .held }

theorem witness_ends : (issued 0).opc ≠ 0x0C ∧ (∃ c : Cmd, c.phase = .issued ∧ c.opc = 0x0C ∧ c.timeouts ≠ 0) ∧
    (∃ c : Cmd, c.phase = .issued ∧ c.starved = true) ∧ sweeping.timeRuns = true ∧ sweeping.power.state ≠ .dormant ∧
    sweeping.fabric.ports.length = 16 ∧
    (∀ p, p < 16 → (sweeping.fport p).cvu.overflow = false ∧ (sweeping.fport p).cvu.head = (sweeping.fport p).cvu.tail ∧
      (sweeping.fport p).cvu.head < 128) ∧
    sweeping.inTurn { issued 0 with phase := .held } = true ∧ (sweeping.asOf { issued 0 with phase := .held }).unwritable (issued 0) = [] ∧
    (∀ c ∈ planned.cmds, c.phase ≠ .held) ∧ (∀ x ∈ planned.fabric.rx, x.takenBy ≠ none) ∧ (∀ k ∈ planned.sects, k.failing = []) :=
  ⟨by decide, ⟨{ issued 0 with words := words 16 [(0, 0x0C)], timeouts := 1 }, by decide⟩,
    ⟨{ issued 0 with starved := true }, by decide⟩, by decide, by decide, by decide, by decide, by decide, by decide, by decide, by decide,
    by decide⟩

theorem witness_simmer_steps : (∃ s : State, s.simmers 63 = true ∧ ∃ y, s.cores[63]? = some y ∧ y.busy = false ∧ y.simmer ≠ 0) ∧
    (∃ s : State, ∃ y, s.cores[63]? = some y ∧ y.busy = true) ∧ up.cores[63]? = some CoreSt.reset :=
  ⟨⟨{ up with cores := up.cores.set 63 { CoreSt.reset with simmer := 8 } }, by decide, _, rfl, by decide⟩,
    ⟨{ up with cores := up.cores.set 63 { CoreSt.reset with busy := true } }, _, rfl, rfl⟩, by decide⟩

/-! ### Witnesses: leaves, cellar and cask -/

/-- The imprint of the tests with CLEAN_RESERVE 1, OP_DORMANT, OP_STANDBY and SB_STANDBY, and every pin assigned. -/
def imFull : Imprint := imp (sysOk.map (fun x => if x.1 == 6 then (6, 0x18081) else x) ++ [(52, 0x640000), (53, 0x7000A)]) [(0, 0x300000)]

/-- A cellar frame with the bytes of leaf 1. -/
def frame : CellarFrame :=
  { handle := 1, kind := 2, partition := 0, slot := 0, writeSeq := 1, w4 := 0, w5 := 0, w6 := 0, w7 := 0, data := Bytes.blank,
    current := true, programmed := false }

/-- The module with leaf 1 as given, a move of it, its cellar frame 0, and a small leaf pool. -/
def storing_ (e : Leaf) (ms : List Move) : State :=
  { run imFull with
    rack := { Rack.reset with poolSize := 64, leaves := [(1, e)], moves := ms, fetches := [1] }
    cellar := { Cellar.reset with frames := [(0, frame)], level := 7372800 } }

/-- A leaf that lies in the cask, the cellar, and is dirty, or not. -/
def leafIn (cask cellar dirty : Bool) : Leaf :=
  { Leaf.free with ref := 1, inCask := cask, inCellar := cellar, dirty := dirty, format := 1 }

/-- A move of leaf 1. -/
def moveOf (k : MoveKind) (a : Bool) : Move := { handle := 1, kind := k, section_ := 2, admitted := a }

theorem witness_leaves_arrive :
    (storing_ (leafIn false true false) [moveOf .promote true]).move? 1 = some (moveOf .promote true) ∧
    (storing_ (leafIn false true false) []).cellarFrame? (leafIn false true false).cellarFrame = some frame ∧
    (storing_ (leafIn false true false) []).readable 1 = true ∧ (1 : Handle) ≠ Config.nullHandle ∧
    (leafIn true true false).inSs = false ∧ (storing_ (leafIn true true false) [moveOf .store true]).rack.flawed = [] ∧
    (∃ f, (storing_ (leafIn true true false) [moveOf .store true]).freeSs 2 = some f) ∧
    1 ∈ (storing_ (leafIn true true false) []).rack.fetches ∧ (storing_ (leafIn true false false) []).move? 1 = none ∧
    (storing_ (leafIn true false false) []).power.config ≠ 0 ∧ (storing_ (leafIn true false false) []).rack.poolSize ≠ 0 ∧
    1 ∉ (storing_ (leafIn true false false) []).rack.lostHandles ∧ (leafIn false true false).ref ≠ 0 ∧
    (storing_ (leafIn false true false) []).quotaFrame 0 = some 0 ∧ (moveOf .rewrite true).kind = .rewrite :=
  ⟨by decide, by decide, by decide, by decide, by decide, by decide, ⟨_, rfl⟩, by decide, by decide, by decide, by decide, by decide, by decide,
    by decide, by decide⟩

theorem witness_early : 0 < (storing_ (leafIn true false true) []).partCount ∧
    (storing_ (leafIn true false true) []).cleanCount 0 < bits ((storing_ (leafIn true false true) []).sys 6) 31 16 ∧
    (storing_ (leafIn true false true) []).ageAllows 0 1 = true ∧ (leafIn true false true).poisoned = false ∧
    (storing_ (leafIn true false true) []).cellar.belowMin = false ∧
    (storing_ (leafIn true false true) []).cellarFull 0 = false ∧
    (∀ m ∈ (storing_ (leafIn true false true) []).rack.moves, m.kind ≠ .early ∨
      ((storing_ (leafIn true false true) []).leaf m.handle).partition ≠ 0) ∧
    (storing_ (leafIn true false true) []).govOpen = true := by decide

theorem witness_accept : (storing_ (leafIn true false false) [moveOf .evict true]).move? 1 = some (moveOf .evict true) ∧
    (leafIn true false false).dirty = false ∧ (leafIn true false false).pin = 0 ∧
    ((storing_ (leafIn true false false) [moveOf .evict true]).acceptFrame 1
      ((storing_ (leafIn true false false) [moveOf .evict true]).rack.frame 0)).isSome = true := by decide +kernel

/-- The module with a leaf whose rewrite waits. -/
def rewriting : State :=
  { storing_ (leafIn true true false) [] with rack := { (storing_ (leafIn true true false) []).rack with rewrites := [1] } }

/-- The module with a write-back of a copy that has a poisoned sector. -/
def poisoned : State :=
  { storing_ (leafIn true false false) [moveOf .evict true] with
    rack := { (storing_ (leafIn true false false) [moveOf .evict true]).rack with
      pool := [(0, { Bytes.blank with poison := [3] })] } }

/-- An eviction whose frame stream 5 waits for. -/
def wanted : State :=
  { storing_ (leafIn true false false) [{ moveOf .evict true with want := .stream 5 }] with
    cmds := [{ issued 0 with starved := true, shape := { dims := [], rows := [5], runs := [] } }] }

theorem witness_write_backs : (storing_ (leafIn true false true) [moveOf .early false]).move? 1 = some (moveOf .early false) ∧
    (storing_ (leafIn true false true) [moveOf .early false]).rack.flawed = [] ∧
    (storing_ (leafIn true false true) [moveOf .early false]).govOpen = true ∧ rewriting.move? 1 = none ∧ 1 ∈ rewriting.rack.rewrites ∧
    rewriting.cellar.belowMin = false ∧ (rewriting.leaf 1).inCellar = true ∧ rewriting.govOpen = true ∧
    poisoned.move? 1 = some (moveOf .evict true) ∧ (poisoned.rack.frame (poisoned.leaf 1).caskFrame).poison ≠ [] ∧
    (wanted.leaf 1).tierPinned = false ∧ (wanted.rack.frame (wanted.leaf 1).caskFrame).poison = [] ∧
    wanted.move? 1 = some { moveOf .evict true with want := .stream 5 } ∧ (∃ c ∈ wanted.cmds, c.starved = true ∧ 5 ∈ c.shape.rows) := by
  decide

/-- A die whose every physical superblock is mapped, and spares of it in use. -/
def fullDie (spares : Nat) : Die := { Die.reset with map := (List.range 2312).map fun i => (i, i), spares := spares }

/-- The cellar with that die. -/
def mapped (spares : Nat) : State :=
  { storing_ (leafIn false true false) [] with cellar := { Cellar.reset with
      frames := [(0, frame)], level := 7372800, dies := Cellar.reset.dies.set 0 (fullDie spares) } }

theorem full_die : (fullDie 0).freeCount < 16 := by
  have h : (fullDie 0).physical.filter (fun p => !((fullDie 0).map.any fun e => e.2 == p)) = [] := by
    refine List.filter_eq_nil_iff.2 fun p hp => ?_
    simp only [Die.physical, fullDie, List.mem_filter, List.mem_range] at hp
    simp only [fullDie, List.any_map, Bool.not_eq_true', Bool.not_eq_false, List.any_eq_true, List.mem_range]
    exact ⟨p, hp.1, by simp⟩
  simp only [Die.freeCount, h]
  decide

theorem witness_upkeep :
    (∃ n fr, { (mapped 0).cellar with frames := (mapped 0).cellar.frames.filter fun f => f.2.programmed || f.2.current }.nextProgram =
      some (n, fr)) ∧
    (mapped 0).cellar.dies[0]? = some (fullDie 0) ∧ (mapped 174).cellar.dies[0]? = some (fullDie 174) ∧
    (fullDie 0).retired = false ∧ 174 ≤ (fullDie 174).spares ∧ (fullDie 0).freeCount < 16 :=
  ⟨⟨_, _, rfl⟩, rfl, rfl, rfl, by decide, full_die⟩

/-- The same without the frame. -/
def unframed : State := { mapped 0 with cellar := { (mapped 0).cellar with frames := [] } }

theorem witness_reclaim : unframed.victim 0 (fullDie 0) = some 0 ∧ ((fullDie 0).map.find? fun e => e.1 == 0) = some (0, 0) ∧
    ((unframed.framesIn 0 0).length : Int) * frameDraw ≤ unframed.cellar.level ∧
    unframed.cellar.peakAt ≤ unframed.now.toNat := by decide +kernel

theorem witness_cellar_read : ((storing_ (leafIn false true false) []).leaf 1).inCellar = true ∧
    ((storing_ (leafIn false true false) []).leaf 1).inCask = false ∧
    ((storing_ (leafIn false true false) []).leaf 1).moving = false ∧ (storing_ (leafIn false true false) []).move? 1 = none ∧
    (storing_ (leafIn false true false) []).govOpen = true ∧
    (storing_ (leafIn false true false) []).cellar.belowMin = false ∧ 1 ∉ (storing_ (leafIn false true false) []).rack.lostHandles ∧
    1 ∉ (storing_ (leafIn false true false) []).rack.rewrites ∧ (storing_ (leafIn false true false) []).cellarFrame? 0 = some frame ∧
    frame.kind ≠ 8 ∧ (storing_ (leafIn false true false) []).weightPlace 1 = none := by decide

/-- A saved training record of a port: devices 1 and 2, 40 °C. -/
def record (n : Nat) : TrainRec := TrainRec.make (trainHead n 1 1 2 40 [] [])

/-- The module with every memory port in a state and a saved training record. -/
def trained (st : Nat) : State :=
  { run imFull with
    nor := { flash with training := (List.range 16).map fun n => some (record n) }
    mem := List.replicate 16 { MemPort.reset with state := st } }

/-- What every port reads at a start: its devices, a temperature near the record's, good check words. -/
def portReads : List PortRead := List.replicate 16 { dev0 := 1, dev1 := 2, temp := 50, checkOk := true }

theorem record_head (n : Nat) : (record n).head = trainHead n 1 1 2 40 [] [] := by
  have l : (trainHead n 1 1 2 40 [] []).length = 48 := by simp [trainHead, takeWords]
  simp only [TrainRec.head, record, TrainRec.make, List.append_assoc]
  rw [List.take_append_of_le_length (by omega), List.take_of_length_le (by omega)]

theorem record_valid : ∀ n, n < 16 → (record n).valid n = true := by
  intro n h
  have l : (trainHead n 1 1 2 40 [] []).length = 48 := by simp [trainHead, takeWords]
  have d : ((record n).words.drop 48).take 8 = trainDigest (record n).head := by
    have k : (trainDigest (trainHead n 1 1 2 40 [] [])).length = 8 := by simp [trainDigest, digestWords]
    rw [record_head]
    simp only [record, TrainRec.make, List.append_assoc]
    rw [List.drop_append_of_le_length (by omega), List.drop_eq_nil_of_le (by omega), List.nil_append,
      List.take_append_of_le_length (by omega), List.take_of_length_le (by omega)]
  have w : ∀ m, m < 16 → bits (wd (record m).words 0) 15 0 = 1 ∧ bits (wd (record m).words 0) 19 16 = m := by decide
  simp only [TrainRec.valid, d, (w n h).1, (w n h).2]
  simp

theorem record_restores (s : State) (n : Nat) (h : n < 16) (e : s.nor.training = (List.range 16).map fun n => some (record n)) :
    s.restores n ⟨1, 2, 50, true⟩ = true := by
  have g : s.nor.training.getD n none = some (record n) := by simp [e, List.getD_eq_getElem?_getD, h]
  have w : ∀ m, m < 16 → wd (record m).words 1 = 1 ∧ wd (record m).words 2 = 2 ∧ (record m).temp = 40 := by decide
  simp only [State.restores, g, record_valid n h, (w n h).1, (w n h).2.1, (w n h).2.2]
  decide

/-- The module that rebuilds its cellar index, with one mirror frame. -/
def rebuilding : State :=
  { trained 2 with cellar := { Cellar.reset with frames := [(0, { frame with kind := 8, w4 := 0x200000 })], rebuilding := true } }

theorem witness_rebuild : rebuilding.cellar.rebuilding = true ∧ rebuilding.rack.lostHandles = [] ∧
    (rebuilding.keptWeights (newest (·.handle) (rebuilding.cellar.frames.filter fun f => f.2.current)) ++
      keptMirrors (newest (·.handle) (rebuilding.cellar.frames.filter fun f => f.2.current))).length = 1 := by decide

theorem witness_cask_ports : (trained 2).shaped = true ∧ ((trained 2).memPort 15).state = 2 ∧ (trained 2).caskRuns = true ∧
    ((trained 2).streams.map (·.1)).Nodup ∧
    (∀ n, n < 16 → ((trained 2).memPort n).state ≠ 1) ∧ 8 ≤ (trained 2).portsUp.length ∧
    ∀ n ∈ (trained 2).portsUp, ∃ r, portReads[n]? = some r ∧ (trained 2).restores n r = true := by
  have h : ∀ n, n < 16 → portReads[n]? = some ⟨1, 2, 50, true⟩ ∧ (trained 2).restores n ⟨1, 2, 50, true⟩ = true := fun n h =>
    ⟨(by decide : ∀ m, m < 16 → portReads[m]? = some ⟨1, 2, 50, true⟩) n h, record_restores _ n h rfl⟩
  have b : ∀ n ∈ (trained 2).portsUp, n < 16 := by decide
  exact ⟨by decide, by decide, by decide, by decide, by decide, by decide, fun n m => ⟨_, h n (b n m)⟩⟩

theorem witness_cask_restart : ({ trained 2 with power := { (trained 2).power with config := 3, next := 1 } } : State).power.config = 3 :=
  rfl

theorem witness_maker : (trained 2).heldIn 0 = false ∧ bits ((cmd 0x60 [0x3C]).arg 1) 6 2 = 15 ∧
    (trained 2).coreOut 0 15 = false ∧ ((trained 2).sect 0).spare = some 16 ∧ ((trained 2).sect 0).map.findIdx? (· == 15) = some 15 ∧
    16 < bits ((cmd 0x60 [0x44]).arg 1) 6 2 ∧ bits ((cmd 0x62 [0x4F]).arg 1) 6 4 = 4 ∧ (trained 2).isNative 15 = false ∧
    ((trained 2).memPort (bits ((cmd 0x63 [15]).arg 1) 3 0)).state = 2 ∧ (trained 2).power.config ≠ 3 ∧
    ((trained 0).memPort (bits ((cmd 0x63 [15]).arg 1) 3 0)).state ≠ 2 ∧ (trained 2).takesEntry 0 = true := by decide

/-- The module in Standby with both supplies, a wake waiting, and the imprint in slot 0. -/
def standing (cold : Bool) : State :=
  { State.reset with
    nor := (trained 0).nor, board := { Board.reset with v54Ok := true }
    power := { Power.reset with queuedWake := true, cold := cold } }

/-- What a start finds. -/
def startIn : StartIn := { pufFails := 3, selfTest := [0, 0, 0, 0], ports := portReads }

theorem witness_starts : (standing true).shaped = true ∧ (standing true).power.state = .standby ∧
    (standing true).board.v54Ok = true ∧ (standing true).board.auxOk = true ∧ (standing true).power.cold = true ∧
    (standing true).power.queuedWake = true ∧ startIn.pufFails < 4 ∧ (standing true).nor.order = [0, 1] ∧
    (judge (standing true).nor false ((standing true).nor.fwOf 0) ((standing true).nor.imOf 0)).1 = cDone ∧
    (standing false).power.cold = false ∧ ∀ n, n < 16 → (standing false).restores n ⟨1, 2, 50, true⟩ = true :=
  ⟨by decide, rfl, rfl, rfl, rfl, rfl, by decide, by decide, judge_ok false, rfl, fun n h => record_restores _ n h rfl⟩

theorem witness_restart : ∃ s : State, s.commandAt 0 7 0x53 (cmd 0x53 []) ∧ s.nor.order = [0, 1] ∧
    (judge s.nor false (s.nor.fwOf 0) (s.nor.imOf 0)).1 = cDone :=
  ⟨having { up with nor := (trained 0).nor } (cmd 0x53 []), started_at _ _ _ (by decide), by decide, judge_ok false⟩

/-- The last trainings of a cold start. -/
def portTrains : List PortTrain :=
  (List.range 16).map fun n => { port := n, ok := true, dev0 := 0, dev1 := 0, temp := 0, pins := [], ca := [] }

/-- The module in a power state. -/
def inState (p : PowerState) : State := { trained 0 with power := { (trained 0).power with state := p, queuedWake := true } }

theorem witness_exits : (∃ s : State, s.shaped = true ∧ s.power.state = .starting ∧ s.power.config = 0 ∧ s.nor.training.length = 16 ∧
      (∀ n, n < 16 → (s.memPort n).state = 1)) ∧ (∀ r ∈ portTrains, r.ok = true) ∧
    (∀ n, n < 16 → ∃ r ∈ portTrains, r.port = n) ∧
    (inState .rest).shaped = true ∧ (inState .rest).power.entry = none ∧ (inState .rest).power.queuedWake = true ∧
    (∀ n, n < 16 → ((inState .dormant).memPort n).state = 0 ∧ (inState .dormant).restores n ⟨1, 2, 50, true⟩ = true) :=
  ⟨⟨{ trained 1 with power := { (trained 1).power with state := .starting, config := 0 } }, by decide⟩, by decide, by decide,
    by decide, by decide, by decide, fun n h => ⟨(by decide : ∀ m, m < 16 → ((inState .dormant).memPort m).state = 0) n h,
      record_restores _ n h rfl⟩⟩

theorem witness_supplies : State.reset.board.auxOk = true ∧ State.reset.board.v54Ok = false ∧ State.reset.power.state = .standby ∧
    up.board.v54Ok = true ∧ up.power.state ≠ .standby ∧ up.power.state ≠ .off ∧ up.board.auxOk = true ∧
    ∃ s : State, s.board.auxOk = false :=
  ⟨rfl, rfl, rfl, rfl, by decide, by decide, rfl, ⟨{ up with board := { up.board with auxOk := false } }, rfl⟩⟩

/-- The module with an entry to state n asked for by a started POWER_SET of pair 0, in a role. -/
def entering (n role : Nat) : State :=
  having { trained 0 with power := { (trained 0).power with state := .ready, entry := some (n, some (0, 7)) } }
    { cmd 0x41 [w32 n] with begun := true, role := role }

theorem witness_power_set : (trained 0).mayEnter = true ∧ (trained 0).takesEntry 0 = true ∧
    (∀ n, 2 ≤ n → n ≤ 4 → bits ((cmd 0x41 [w32 n]).arg 1) 2 0 = n) ∧
    ((trained 0).sys 53).getLsbD 16 = true ∧ ((trained 0).sys 53).getLsbD 17 = true ∧ (trained 0).board.auxOk = true ∧
    (up.sys 53).getLsbD 16 = false ∧ (up.sys 53).getLsbD 17 = false ∧
    (∃ s : State, s.mayEnter = true ∧ s.board.auxOk = false) ∧
    (∃ s : State, s.mayEnter = true ∧ s.power.state = .ready ∧ bits (s.sys 53) 15 0 ≠ 0) := by
  refine ⟨by decide, by decide, ?_, by decide, by decide, by decide, by decide, by decide,
    ⟨{ up with board := { up.board with auxOk := false } }, by decide⟩,
    ⟨{ trained 0 with power := { (trained 0).power with state := .ready } }, by decide⟩⟩
  intro n h k
  have e : ∀ m, m < 5 → bits ((cmd 0x41 [w32 m]).arg 1) 2 0 = m := by decide
  exact e n (by omega)

theorem witness_power_entry : ∀ n ∈ [2, 3, 4], (entering n 2).power.entry = some (n, some (0, 7)) ∧ (entering n 2).quiet = true ∧
    (entering n 2).power.sbStandby = false ∧ (entering n 2).started? 0 7 = some { cmd 0x41 [w32 n] with begun := true } ∧
    (entering n 2).takesEntry 0 = true ∧ (entering n 2).dormantDue = [] ∧ (entering n 2).standbyDue = [] ∧
    (entering n 2).imageBytes ≤ 0x80000000 := by decide

/-- That module with the index records of its write buffer paid for by the governor. -/
def paid : State :=
  { entering 4 2 with cellar := { (entering 4 2).cellar with level := ((100 * Config.indexBytes (entering 4 2).draws : Nat) : Int) } }

theorem witness_index_paid : paid.standbyDue = [] ∧ ((100 * Config.indexBytes paid.draws : Nat) : Int) ≤ paid.cellar.level ∧
    paid.cellar.peakAt ≤ paid.time.tsy.toNat ∧
    (∃ s : State, s.power.entry = some (4, some (0, 7)) ∧ s.cellar.level < ((100 * Config.indexBytes s.draws : Nat) : Int)) ∧
    (∃ s : State, s.power.entry = some (4, some (0, 7)) ∧ s.time.tsy.toNat < s.cellar.peakAt) ∧
    (∃ s : State, s.power.entry = some (2, some (0, 7)) ∧ s.idlePorts.capNow.drop 1 = (s.cap.take 9).drop 1) := by
  refine ⟨by decide, Int.le_refl _, by decide, ⟨{ entering 4 2 with cellar := { (entering 4 2).cellar with level := -1 } }, by decide, ?_⟩,
    ⟨{ entering 4 2 with cellar := { (entering 4 2).cellar with peakAt := 1 } }, by decide⟩,
    ⟨{ entering 2 2 with cap := (entering 2 2).idlePorts.capNow }, by decide, by decide⟩⟩
  show (-1 : Int) < _
  omega

theorem witness_image_large : 0x80000000 < ({ entering 3 2 with
    slots := List.replicate 64 { Slot.empty with plan := some { fencePlan with regionUnits := 0x8000 } } } : State).imageBytes := by
  decide

theorem witness_ready : up.power.state = .run ∧ up.cmds = [] ∧ up.dmaIdle = true ∧ (∀ p ∈ up.parts, p.cycle = none) ∧
    (∃ s : State, s.power.state = .rest ∧ s.power.wakeAt ≠ 0 ∧ s.power.wakeAt.toNat ≤ s.time.tsy.toNat) ∧
    ((trained 0).sys 53).getLsbD 18 = true := by
  refine ⟨rfl, rfl, by decide, by decide, ⟨{ inState .rest with
    power := { (inState .rest).power with wakeAt := 5 }, time := { TimeBase.reset with tsy := 5 } }, by decide⟩, by decide⟩

theorem witness_pins : up.shaped = true ∧ (∀ p ∈ [Pin.uartTx, .tdo], up.pinPowered p = true) ∧ up.board.pins.getD 0 0 ≠ 1 ∧
    up.board.presentLow = true ∧ State.reset.shaped = true ∧ State.reset.board.auxOk = true ∧ State.reset.board.v54Ok = false ∧
    up.dieOn = true ∧ up.ident.debugStop = false ∧ (∀ k ∈ up.port.queues, k.role ≠ 3) ∧
    ∃ s : State, s.shaped = true ∧ s.dieOn = true ∧ s.ident.debugStop = false ∧ (s.queue 0).role = 3 :=
  ⟨by decide, by decide, by decide, rfl, by decide, rfl, rfl, by decide, rfl, by decide,
    ⟨{ up with port := { up.port with queues := modAt up.port.queues 0 fun k => { k with role := 3 } } }, by decide⟩⟩

/-- Sensors at an input power in mW and a junction temperature. -/
def sensors (p tj : Nat) : Sensors :=
  { powerIn := p, powerDie := p, vin := 54000, tj := [tj, tj, tj, tj], tCask := 50, tNand := 50, tMalt := 50, tBoard := 50, energy := 5 }

theorem witness_throttling : up.dieOn = true ∧ up.power.frac.length = 4 ∧ up.power.emergency.length = 4 ∧
    (sensors 0 60).tj.getD 0 0 + 3 < up.tjThrottle ∧ (sensors 0 60).tCask < 95 ∧
    (sensors 0 60).powerIn ≤ 1000 * (trained 0).capInEffect ∧
    100 * (sensors 0 60).powerIn < 95 * (1000 * (trained 0).capInEffect) ∧
    1000 * (trained 0).capInEffect < (sensors 10000000 60).powerIn ∧
    up.tjThrottle ≤ (sensors 0 (up.tjThrottle - 2)).tj.getD 0 0 + 3 ∧ (sensors 0 (up.tjThrottle - 2)).tj.getD 0 0 < up.tjThrottle ∧
    ((trained 0).modw 0).getLsbD 21 = true ∧
    ∃ s : State, s.dieOn = true ∧ s.power.frac.length = 4 ∧ s.power.emergency.getD 0 false = true :=
  ⟨by decide, by decide, by decide, by decide, by decide, by decide, by decide, by decide, by decide, by decide, by decide,
    ⟨{ up with power := { up.power with emergency := [true, false, false, false] } }, by decide⟩⟩

/-! ### Witnesses: the fabric -/

/-- An imprint of a ring of four modules on level 0: port 0 toward the next, port 1 toward the one before. -/
def imNet : Imprint := imp (sysOk.map fun x => if x.1 == 11 then (11, 0x22) else x) [(0, 0x100000), (16, 0x1C1), (28, 0x1E1)]

/-- A native port in a state, its partner module 1. -/
def nativePort (st : Nat) : FPort :=
  { FPort.reset with mode := 1, state := st, partner := 1, partnerPort := 2, credits := 100 }

/-- The module with port 0 in a state, with its time base and the parcels of its receive area. -/
def net (st : Nat) (rx : List Rx) : State :=
  { run imNet with fabric := { Fabric.reset with ports := Fabric.reset.ports.set 0 (nativePort st), rx := rx, unreachable := [1] } }

/-- The hello of module 1's port 2 toward the one before, with a word of its colophon. -/
def helloOf (c : W32) : List W32 := words 16 [(0, 0x08200001), (4, c)]

/-- What a negotiation meets where all is well. -/
def meets : NegIn :=
  { partner := true, faults := [], inverted := 3, order := [0, 1, 2, 3, 4], native := !false, rates := 7, rs544 := true, looped := false,
    good212 := 31, good106 := 31, good53 := 31, fecLock := true, hello := helloOf 0 }

theorem witness_negotiation : (net 1 []).isNative 0 = true ∧ ((net 1 []).fport 0).state = 1 ∧ ((net 1 []).fport 0).noRetry = false ∧
    ((net 1 []).fport 0).excluded = 0 ∧ (bits ((net 1 []).portWord 0) 8 6).testBit 0 = true ∧ meets.hello ≠ [] ∧
    (net 1 []).wired 0 meets.hello = true ∧ (net 1 []).accepts (helloColophon meets.hello) = true ∧
    ([LaneFault.mk 0 true 7].any fun f => f.fault == 7) = true ∧ ((net 4 []).fport 0).state = 4 := by decide

theorem witness_ports : (net 2 []).partnered 0 = true ∧ (net 3 []).partnered 0 = true ∧ ((edge true).fport 0).mode = 2 ∧
    ((edge true).fport 0).state = 2 ∧ ((net 2 []).fport 0).txQueue = [] ∧ 1 ≤ ((net 2 []).fport 0).credits ∧
    (net 2 []).timePort 0 = true ∧ (net 3 []).wired 0 (words 16 []) = false ∧ (net 3 []).wired 0 (helloOf 1) = true ∧
    (net 3 []).accepts (helloColophon (helloOf 1)) = false ∧ (net 3 []).accepts (helloColophon (helloOf 0)) = true ∧
    (net 3 []).countOnly = false := by decide

theorem witness_edge_down : ∃ s : State, (s.fport 0).mode = 2 ∧ (s.fport 0).state ≠ 2 :=
  ⟨(edge true).modFPort 0 fun k => { k with state := 4 }, by decide⟩

/-- A time parcel of module 1 that echoes: its stamps 1000 and 2000 ticks past what this module last sent. -/
def timeWords : List W32 := [2, 1, 2000, 0, 1000, 0, 2000, 0]

/-- The worked example of R512's exchange: a delay of 150 ticks, the source 250 ahead. -/
theorem test_time_exchange :
    delayOf [0, 0, 1031650, 0, 1000000, 0, 1000400, 0] 1031550 = 150 ∧
    offsetOf [0, 0, 1031650, 0, 1000000, 0, 1000400, 0] 1031550 = some 250 := by decide

/-- A byte and an unaligned pair of DEVICE at offset 0 of BAR0, 0x4816 (R411). -/
theorem test_bar_read : State.reset.barRead 1 1 = [0x48] ∧ State.reset.barRead 0 2 = [0x16, 0x48] := by decide

theorem witness_time_base : (net 2 []).timePort 0 = true ∧ offsetOf timeWords 100 ≠ none ∧
    (offsetOf timeWords 100).map (fun o => decide (625 < o.natAbs)) = some true ∧ offsetOf [0, 0, 0, 0, 0, 0, 0, 0] 5 = none ∧
    (net 2 []).time.stepped = false ∧ (net 2 []).time.steer = 0 ∧ (net 2 []).syncPin = true ∧ (net 2 []).time.counting = true ∧
    (net 2 []).dieOn = true ∧ (∀ p, p < 16 → ((net 2 []).fport p).timeParcel = none) ∧ 4 < (net 2 []).board.pins.length := by decide

theorem witness_source : ∃ s : State, s.bestSource.1 ≠ s.time.source ∧ s.bestSource.1 = none :=
  ⟨{ net 2 [] with time := { (net 2 []).time with source := some 0 } }, by decide⟩

/-- A parcel that this module receives from module 1, of a TYPE and payload. -/
def from_ (ptype : BitVec 4) (payload : List Byte) : Parcel := { parcelOf ptype payload with src := 1 }

/-- One for module 2 that goes on by the trunk of level 0 toward the next. -/
def passing : Parcel := { from_ 3 [] with dest := 2, segs := [1] }

theorem witness_parcels : (net 2 []).partnered 0 = true ∧ (from_ 3 []).dest = (net 2 []).addr ∧ parcelDone (from_ 3 []) = true ∧
    ((net 2 []).fport 0).cvu.sources = [] ∧ (net 2 []).acceptsShort 0 = true ∧
    (net 2 []).fabric.rx.foldl (fun n r => n + rxUnits r.parcel) 0 + rxUnits (from_ 3 []) ≤ 65536 ∧
    passing.dest ≠ (net 2 []).addr ∧ (1 : BitVec 10).toNat % 64 ≠ 0 ∧ (net 2 []).belongs 0 = true ∧
    (net 2 []).unserved (from_ 3 []) = false ∧ (net 2 []).unserved (from_ 1 []) = true ∧ (net 2 []).trunkUp 0 0 = [0] ∧ creditUnits passing ≤ ((net 2 []).fport 0).credits ∧ (1 : BitVec 20) ∈ (net 2 []).fabric.unreachable ∧
    (1 : BitVec 20) ≠ (net 2 []).addr ∧ (net 2 [arrived (from_ 3 [])]).rx? 0 = some (arrived (from_ 3 [])) ∧
    creditUnits passing ≤ 0 + 1 ∧ (net 3 []).partnered 0 = true ∧ ((net 3 []).fport 0).state = 3 := by decide

/-- The module with one parcel that it may consume. -/
def holding (p : Parcel) : State := net 2 [arrived p]

theorem holds (p : Parcel) : (holding p).holdsParcel 0 (arrived p) := ⟨rfl, rfl, rfl, rfl⟩

/-- A query of a kind, and a piece of an answer. -/
def queryOf (k : W32) : Parcel := from_ 7 (wordsBytes [k, 5, 0, 0, 0, 0, 0, 0])
def pieceOf : Parcel := { from_ 9 (List.replicate 64 7) with ident := 5 }

/-- An open query of a leaf. -/
def openQuery : Query := { id := 5, handle := 1, data := Bytes.blank, got := [], asked := [], wait := 0 }

theorem witness_queries : (from_ 5 [2, 1]).ptype = 5 ∧ (holding (from_ 5 [2, 1])).fabric.resend = [] ∧
    (([{ passing with dest := 1, alive := 2 }] : List Parcel).reverse.find? fun y =>
      y.dest == (from_ 5 [2, 1]).src && y.alive == (from_ 5 [2, 1]).payload.getD 0 0) = some { passing with dest := 1, alive := 2 } ∧
    (queryOf 1).src ≠ (holding (queryOf 1)).addr ∧ bits (wd (bytesWords 8 (queryOf 1).payload) 0) 3 0 = 1 ∧
    (holding (queryOf 1)).cap ≠ [] ∧ bits (wd (bytesWords 8 (queryOf 15).payload) 0) 3 0 = 15 ∧
    bits (wd (bytesWords 2 (from_ 8 [0x11]).payload) 0) 3 0 ≠ 2 ∧ (holding pieceOf).fabric.queries = [] ∧
    openQuery.id % 65536 = pieceOf.ident.toNat % 65536 ∧ (openQuery.put pieceOf.token.toNat pieceOf.payload).whole = false := by
  decide

/-! ### Witnesses: reductions -/

/-- An up block of zeros with a sequence number, exponent and residues that hold, or not. -/
def upZeros (q exp : Nat) (good : Bool) : Block :=
  ⟨q, upBlock { seq := q, exp := exp, maxExp := 0, nonfinite := false, backup := false, sat := 0, contrib := 1 } (List.replicate 64 0)
    (List.replicate 64 (if good then 0 else 1))⟩

/-- A channel whose parent is module 8 and whose child is module 9, or a root, in a step of 4 blocks. -/
def member (root : Bool) (st : Nat) : Channel64 :=
  { Channel64.reset with
    entry := words 16 [(0, if root then 0xD else 0x9), (1, 8), (3, 4), (5, 9)], state := st, step := 2, attempt := 3
    children := [[]], downCredit := [100], upCredit := 100, timer := true }

/-- The module with that channel as channel 0, and one parcel that it may consume. -/
def reducing (k : Channel64) (p : Parcel) : State := { holding p with channels := (holding p).channels.set 0 k }

/-- The local block and the child's for the next sum. -/
def fed (root : Bool) (good : Bool) : Channel64 :=
  { member root 1 with local_ := [upZeros 0 0 good], children := [[upZeros 0 0 true]] }

/-- A parcel of TYPE 4 of a direction, from a module. -/
def spargeFrom (a : BitVec 20) (n dir : Nat) (w : W32) (bs : List Byte) : Parcel :=
  { from_ 4 (spargePayload n dir 3 0 2 w 0 bs) with src := a }

theorem witness_adds : (member false 1).mode = 1 ∧ (member false 1).blocksDone < (member false 1).blocks ∧
    (reducing (fed false true) (from_ 3 [])).rack.flawed = [] ∧
    (reducing (member false 1) (from_ 3 [])).inputsOf 0 0 = none ∧
    (∃ ins, (reducing (fed false true) (from_ 3 [])).inputsOf 0 0 = some ins ∧ ins.length = 2 ∧
      ∀ x ∈ ins, inputGood ((fed false true).expOf 0) x.2.2 = true) ∧
    (fed false true).isRoot = false ∧ ((0 : Nat) : Int) ≤ (fed false true).upCredit ∧ creditDue 0 (fed false true).blocks = false ∧
    (fed true true).isRoot = true ∧ (reducing (fed true true) (from_ 3 [])).gradAt 0 0 = none ∧ 0 + 1 < (fed true true).blocks ∧
    (∃ x rest, (reducing (fed false false) (from_ 3 [])).inputsOf 0 0 = some (x :: rest) ∧
      inputGood ((fed false false).expOf 0) x.2.2 = false) :=
  ⟨by decide, by decide, by decide, by decide, ⟨_, rfl, rfl, by decide +kernel⟩, by decide, by decide, by decide, by decide, by decide,
    by decide, ⟨_, _, rfl, by decide +kernel⟩⟩

/-- The error of the first sector of the leaf pool. -/
def lost : SectorError := { addr := caskPool, uncorrectable := true }

/-- The module whose channel 0 stages in leaf 1, which lies in the cask, its first sector in error. -/
def staging : State :=
  { reducing { fed false true with leaves := [1] } (from_ 3 []) with
    mem := (trained 2).mem, rack := { Rack.reset with poolSize := 64, leaves := [(1, leafIn true false true)], flawed := [lost] } }

theorem witness_lost_input : staging.lostInputs 0 0 staging.rack.flawed = [hopOf 2 0] ∧ (staging.chan 0).blocksDone = 0 ∧
    staging.meetErrors.channels = staging.channels ∧
    (∃ x rest, staging.meetErrors.inputsOf 0 0 = some (x :: rest) ∧ x.1 ∈ staging.lostInputs 0 0 staging.rack.flawed) :=
  ⟨by decide +kernel, by decide, by decide +kernel, ⟨_, _, rfl, by decide +kernel⟩⟩

/-- A down block of zeros whose residues hold, or not. -/
def downZeros (good : Bool) : List Byte :=
  downBlock { seq := 0, exp := 0, maxExp := 0, nonfinite := false, backup := false, sat := 0, contrib := 1 } (List.replicate 64 0) |>.set
    300 (if good then 0 else 1)

/-- A member in its down phase, with blocks to come. -/
def down (bs : List Block) (fails : Nat) : Channel64 := { member false 2 with down := bs, downFails := fails, downNext := 0 }

theorem witness_down : (reducing (down [⟨0, downZeros true⟩] 0) (from_ 3 [])).spargeRuns 0 = false ∧
    (down [⟨0, downZeros true⟩] 0).kidsOpen 0 = true ∧
    ((down [⟨0, downZeros false⟩] 0).down.find? fun b => b.seq == 0) = some ⟨0, downZeros false⟩ ∧ downGood (downZeros false) = false ∧
    downGood (downZeros true) = true ∧ 0 + 1 < (down [] 0).blocks ∧ hasSeq (down [] 1).down 0 = false ∧ (down [⟨0, downZeros false⟩] 2).downFails = 2 ∧
    (down [] 0).aged 0 0 = false ∧
    (down [] 0).parent ≠ (reducing (down [] 0) (from_ 3 [])).addr := by decide +kernel

theorem witness_sparge_parcels : spargeForm (spargeFrom 9 0 5 0 []) = true ∧ spargeDir (spargeFrom 9 0 5 0 []) = 5 ∧
    spargeChan (spargeFrom 9 0 5 0 []) = 0 ∧ bits (prefixWord (spargeFrom 9 0 5 0 []) 2) 23 0 = 0 ∧
    alGet [] 0 ({ member false 2 with sums := [(0, downZeros true)], downNext := 1 } : Channel64).sums = downZeros true ∧
    (downZeros true).length = 336 ∧ ((member false 2).kid? (spargeFrom 9 0 5 0 []).src).isSome = true ∧
    spargeStep (spargeFrom 9 0 5 0 []) = (member false 2).step ∧ spargeAttempt (spargeFrom 9 0 5 0 []) = (member false 2).attempt ∧
    spargeForm (spargeFrom 8 0 3 0 []) = true ∧ spargeDir (spargeFrom 8 0 3 0 []) = 3 ∧
    (member false 1).parent = (spargeFrom 8 0 3 0 []).src ∧ (member false 1).kid? (spargeFrom 9 0 3 0 []).src = some 0 ∧
    0 < (member false 1).downCredit.length ∧ spargeForm (spargeFrom 8 0 4 0 []) = true ∧ spargeDir (spargeFrom 8 0 4 0 []) = 4 ∧
    spargeAttempt (spargeFrom 8 0 4 0 []) ≠ ({ member false 1 with attempt := 7 } : Channel64).attempt := by decide +kernel

theorem witness_backup : spargeForm (spargeFrom 0 1 2 0 (upZeros 0 0 true).data) = true ∧
    spargeDir (spargeFrom 0 1 2 0 (upZeros 0 0 true).data) = 2 ∧
    (member false 1).backupBy = (spargeFrom 0 1 2 0 (upZeros 0 0 true).data).src ∧
    spargeBlocks (spargeFrom 0 1 2 0 (upZeros 0 0 true).data) = [(upZeros 0 0 true).data] ∧ (blockHead (upZeros 0 0 true).data).seq = 0 ∧
    hasSeq (member false 1).local_ 0 = false ∧ ((0 : Nat) : Int) ≤ lastCredit 0 4 + 2048 ∧
    hasSeq ({ member false 1 with backup := [upZeros 0 0 true] } : Channel64).backup 0 = true := by decide +kernel

/-! ### Witnesses: parameter sets, publishes and mirrors -/

/-- The module with the plan and parameter set 0 as given. -/
def withSet (e : W32) : State :=
  { planned with malt := { planned.malt with sets := [(0, ⟨words 16 [(0, e)], 3, true, false⟩)], ready := [(0, 0, false)] } }

theorem witness_sets : (withSet 0).takesEntry 0 = true ∧ (wd ((withSet 0).pset 0).entry 0).getLsbD 0 = false ∧
    (wd ((withSet 9).pset 0).entry 0).getLsbD 0 = true ∧
    ((withSet 9).slot (bits (wd ((withSet 9).pset 0).entry 0) 8 3)).plan = none ∧
    (wd ((withSet 1).pset 0).entry 0).getLsbD 0 = true ∧
    ((withSet 1).slot (bits (wd ((withSet 1).pset 0).entry 0) 8 3)).plan ≠ none := by decide

theorem witness_publish : (∃ e ∈ (withSet 1).malt.ready, e.1 = 0) ∧ (withSet 1).slotRuns 0 = false ∧
    (∀ n ∈ (withSet 1).malt.waitingSets, bits (wd ((withSet 1).pset n).entry 0) 8 3 ≠ 0) ∧ (withSet 1).fresh 0 = [] ∧
    (withSet 1).malt.ready.filter (fun e => e.1 == 0) = [(0, 0, false)] ∧ 0 < (withSet 1).slots.length ∧
    ({ withSet 1 with parts := (withSet 1).parts.set 0 (within_ (wave [])) } : State).slotRuns 0 = true := by decide

theorem witness_waiting_sets : ∃ s t : State, exec .updateLeafWaitTimeout s = .next t ∧ t.malt.waitingSets ≠ [] :=
  ⟨{ withSet 1 with
      slots := (withSet 1).slots.set 0 { Slot.empty with plan := some { fencePlan with leaves := [1] } }
      malt := { (withSet 1).malt with sets := [(0, ⟨words 16 [(0, 1), (2, 64)], 0, false, false⟩)], waitingSets := [0] } }, _, rfl,
    by decide +kernel⟩

/-- A parcel of TYPE 6 of a KIND about stream 5 of slot 0, at position 64. -/
def mirrorFrom (kind : Nat) : Parcel := from_ 6 (wordsBytes ([w32 (kind + (5 <<< 16)), 64, 1, 0, 9, 0, 0, 0] ++ List.replicate 16 0))

/-- The module with stream 5 at position 100, a mirror of its position 64 out to module 1, and one parcel. -/
def mirroring (ls : List Handle) (p : Parcel) : State :=
  { holding p with
    streams := [(5, { live with position := 100, mirrorOut := some 64, mirrorLeaves := ls })]
    fabric := { (holding p).fabric with origins := (holding p).fabric.origins.set 0 (words 16 [(10, 0x100001)]) } }

theorem witness_mirror_out : ((mirroring [1] (mirrorFrom 2)).stream 5).mirrorOut = some 64 ∧
    (mirroring [1] (mirrorFrom 2)).buddyOf 0 = some 1 ∧ 1 ∈ ((mirroring [1] (mirrorFrom 2)).stream 5).mirrorLeaves ∧
    (mirrorFrom 2).ptype = 6 ∧ 32 ≤ (mirrorFrom 2).payload.length ∧ mirrorStream (mirrorFrom 2) = 5 ∧
    bits (mirrorWord (mirrorFrom 2) 0) 3 0 = 2 ∧ (mirroring [] (mirrorFrom 2)).answers (mirrorFrom 2) = true ∧
    (mirroring [1] (mirrorFrom 2)).answers (mirrorFrom 2) = false ∧ bits (mirrorWord (mirrorFrom 3) 0) 3 0 = 3 ∧
    ((mirroring [] (mirrorFrom 3)).stream 5).mirrorOut = some (mirrorPos (mirrorFrom 3)) ∧
    ((mirroring [] (mirrorFrom 3)).stream 5).mirrorLeaves = [] := by decide

/-- The buddy of module 1, which keeps a manifest of its stream 5 and a START_ID. -/
def keeping (p : Parcel) (ids : List (BitVec 20 × W64)) : State :=
  (holding p).modBuddy fun b => { b with
    manifests := [{ owner := 1, stream := 5, slot := 0, pos := 64, entry := [], handle := 1 }], startIds := ids }

theorem witness_mirror_in : (holding (mirrorFrom 1)).slotPart (mirrorSlot (mirrorFrom 1)) = some 0 ∧
    (∀ m ∈ (holding (mirrorFrom 1)).buddy.incoming, m.isOf 1 5 = false) ∧ bits (mirrorWord (mirrorFrom 1) 0) 3 0 = 1 ∧
    bits (mirrorWord (mirrorFrom 0) 0) 3 0 = 0 ∧ bits (mirrorWord (mirrorFrom 6) 0) 3 0 = 6 ∧
    bits (mirrorWord (mirrorFrom 4) 0) 3 0 = 4 ∧ (mirrorFrom 4).src ≠ (holding (mirrorFrom 4)).addr ∧
    bits (mirrorWord (mirrorFrom 5) 0) 3 0 = 5 ∧ (mirrorFrom 5).src ∈ (keeping (mirrorFrom 5) []).owners ∧
    mirrorStart (mirrorFrom 5) = 9 ∧
    ((keeping (mirrorFrom 5) [(1, 9)]).buddy.startIds.find? fun e => e.1 == 1) = some (1, 9) ∧
    ((keeping (mirrorFrom 5) [(1, 8)]).buddy.startIds.find? fun e => e.1 == 1) = some (1, 8) := by decide

theorem witness_no_start_id : ∀ e ∈ (keeping (mirrorFrom 5) []).buddy.startIds, e.1 ≠ 1 :=
  fun _ h => nomatch (show _ ∈ ([] : List (BitVec 20 × W64)) from h)

/-! ### Witnesses: cores -/

theorem witness_core_failure : up.shaped = true ∧ up.coresRun = true ∧ up.coreOut 3 15 = false ∧ up.heldIn 3 = false ∧ (up.sect 3).failing = [] ∧
    (up.sect 3).spare ≠ some 15 ∧ ((up.sect 3).map.findIdx? (· == 15)) = some 15 ∧
    (∃ s : State, s.coresRun = true ∧ s.heldIn 3 = true) ∧
    (∃ s : State, s.shaped = true ∧ s.coresRun = true ∧ (s.sect 3).spare = none ∧ (s.sect 3).map.findIdx? (· == 15) = some 15) ∧
    (placing (unit_ true 0x10 0 0 0)).cmd? 0 = some (unit_ true 0x10 0 0 0) ∧ (unit_ true 0x10 0 0 0).rerun = true ∧
    0 ∈ (unit_ true 0x10 0 0 0).cores ∧ ((placing (unit_ true 0x10 0 0 0)).sect 0).map[0 % 16]? = some 0 :=
  ⟨by decide, by decide, by decide, by decide, by decide, by decide, by decide,
    ⟨{ up with cmds := [{ issued 0 with phase := .held, cores := [48] }] }, by decide⟩,
    ⟨{ up with sects := up.sects.set 3 { Sect.reset with spare := none } }, by decide⟩, by decide, by decide, by decide, by decide⟩

/-! ### Witnesses: rows that complete -/

theorem witness_rows_complete : up.shaped = true ∧
    (∀ opc ∈ [0x02, 0x20, 0x43, 0x54, 0x58, 0x60, 0x61, 0x62, 0x63, 0x64], (having up (cmd opc [0])).commandAt 0 7 opc (cmd opc [0])) ∧
    up.heldIn (bits ((cmd 0x60 [0]).arg 1) 1 0) = false ∧ bits ((cmd 0x60 [0x40]).arg 1) 6 2 = 16 ∧
    bits ((cmd 0x62 [0x4F]).arg 1) 6 4 = 4 ∧ (net 2 []).shaped = true ∧ (net 2 []).isNative 0 = true ∧ ((net 2 []).fport 0).state ≠ 0 ∧
    (arrived (from_ 3 [])).takenBy = none ∧
    (∀ k ∈ [5, 7, 8, 9], (holding (from_ (BitVec.ofNat 4 k) [])).holdsParcel 0 (arrived (from_ (BitVec.ofNat 4 k) [])) ∧
      (from_ (BitVec.ofNat 4 k) []).ptype.toNat = k ∧ (from_ (BitVec.ofNat 4 k) []).src ≠ (holding (from_ (BitVec.ofNat 4 k) [])).addr) := by
  refine ⟨by decide, fun opc _ => started_up opc [0], by decide, by decide, by decide, by decide, by decide, by decide, by decide, ?_⟩
  intro k hk
  have e : ∀ k ∈ [5, 7, 8, 9], (BitVec.ofNat 4 k).toNat = k := by decide
  exact ⟨holds _, e k hk, (by decide : (1 : BitVec 20) ≠ (net 2 []).addr)⟩

/-! ### Ill-formed commands: each check of WellFormed refuses one, and passes its neighbour in range -/

theorem test_wf_pair : (Instr.nop 16 0).wf = false ∧ (Instr.nop 15 65536).wf = false ∧ (Instr.nop 15 65535).wf = true := by decide
theorem test_wf_port : (Instr.edgePortUp 16).wf = false ∧ (Instr.edgePortUp 15).wf = true := by decide
theorem test_wf_request : (Instr.requestAdmit 4 0).wf = false ∧ (Instr.requestAdmit 3 4096).wf = false ∧
    (Instr.requestAdmit 3 4095).wf = true := by decide
theorem test_wf_handle : (Instr.promotionDone 0).wf = false ∧ (Instr.promotionDone Config.nullHandle).wf = false ∧
    (Instr.promotionDone 1).wf = true := by decide
theorem test_wf_slot : (Instr.queryReceive 65536).wf = false ∧ (Instr.queryReceive 65535).wf = true := by decide
theorem test_wf_parcel : (Instr.parcelArrival 0 (from_ 3 [1]) 0).wf = false ∧
    (Instr.parcelArrival 0 { from_ 3 [] with segs := List.replicate 7 0 } 0).wf = false ∧
    (Instr.parcelArrival 0 (from_ 3 (List.replicate 16 0)) 0).wf = true := by decide
theorem test_wf_datagram : (Instr.requestDatagram 0 { datagram with words := [] }).wf = false ∧
    (Instr.requestDatagram 0 datagram).wf = true := by decide
theorem test_wf_imprint : (Instr.installImprint 0 0 { imOk with system := [] }).wf = false := by decide
theorem test_wf_start : (Instr.coldStart { startIn with selfTest := [] }).wf = false ∧ (Instr.coldStart startIn).wf = true := by decide
theorem test_wf_image : (Instr.loadPlan 0 0 [0]).wf = false ∧ (Instr.grist 0 0 []).wf = false ∧ (Instr.train 0 0 [0]).wf = false := by
  decide
theorem test_wf_queue : (Instr.queueEnable 0 0).wf = false ∧ (Instr.queueDisable 0 0x100).wf = false ∧ (Instr.sqTail 16 0).wf = false ∧
    (Instr.queueEnable 15 0x100).wf = true := by decide
theorem test_wf_registers : (Instr.attnPendingClear 0 1).wf = false ∧ (Instr.readClearField 2 true).wf = false ∧
    (Instr.registerWriteOther 65536 0 4).wf = false ∧ (Instr.submissionFetch (.entry [])).wf = false := by decide
theorem test_wf_ports : (Instr.exitDormant []).wf = false ∧ (Instr.caskTrainingDone [⟨16, true, 0, 0, 0, [], []⟩]).wf = false ∧
    (Instr.helloReceive 0 []).wf = false ∧ (Instr.timeParcelReceive 0 [] 0).wf = false := by decide
theorem test_wf_units : (Instr.emergencyDrop 4 110).wf = false ∧ (Instr.gristTick 8).wf = false ∧ (Instr.earlyWriteBack 8 1).wf = false ∧
    (Instr.weightCopyArrival 1 [] []).wf = false ∧ (Instr.reclamation 128).wf = false ∧ (Instr.addBlock 64).wf = false ∧
    (Instr.mirrorAckTimeout 65536).wf = false ∧ (Instr.coreFailure 3 17).wf = false ∧ (Instr.rampUpStep 64).wf = false ∧
    (Instr.ownerLost 1048576).wf = false := by decide

/-! ### Numbers. The expected words are those of the formats (R36 to R38), worked by hand -/

theorem test_fp32_tie_to_even : toW32 (rne32 (fadd (ofW32 0x3F800000) (ofW32 0x33800000))) = 0x3F800000 ∧
    toW32 (rne32 (fadd (ofW32 0x3F800001) (ofW32 0x33800000))) = 0x3F800002 := by decide
theorem test_fp32_overflow : toW32 (rne32 (fmul (ofW32 0x7F7FFFFF) (ofW32 0x40000000))) = 0x7F800000 := by decide
theorem test_fp32_subnormal : toW32 (rne32 (fmul (ofW32 0x00800000) (ofW32 0x3F000000))) = 0x00400000 := by decide
theorem test_fp32_zeros : toW32 (fadd (ofW32 0) (ofW32 0x80000000)) = 0 ∧
    toW32 (fadd (ofW32 0x80000000) (ofW32 0x80000000)) = 0x80000000 := by decide
theorem test_fp32_nan : toW32 (fadd (ofW32 0x7F800000) (ofW32 0xFF800000)) = 0x7FC00000 := by decide
theorem test_e4m3_largest : decodeE4M3 0x7E = .fin false 14 5 ∧ decodeE4M3 0x7F = .nan := by decide
theorem test_e8m0 : decodeE8M0 127 = .fin false 1 0 ∧ decodeE8M0 0xFF = .nan := by decide
theorem test_int4_saturates : clampInt (-8) 7 9 = 7 ∧ clampInt (-8) 7 (-9) = -8 ∧ intRange 2 = (-8, 7) := by decide
/-- The generator's step: the low bit shifts out and, where it was 1, the taps of R54 are applied. -/
theorem test_lfsr : lfsrStep 1 = 0x80200003 ∧ lfsrStep 2 = 1 := by decide
/-- The check value of CRC-32C over the digits 1 to 9, as published for the polynomial. -/
theorem test_crc32c : crc32c (ascii "123456789") = 0xE3069283 := by decide +kernel
/-- SHAKE256 of the empty string, as published in FIPS 202's examples: its first byte lies lowest. -/
theorem test_shake256 : (shake256 []).toNat % 0x100000000 = 0x2BDDB946 := by decide +kernel

/-! ### Single steps -/

/-- The state that a command answers. -/
def after (i : Instr) (s : State) : State :=
  match exec i s with
  | .next t => t
  | _ => s

/-- R416, R427: the completion of NOP is 16 bytes at CQ_TAIL: STATUS 0 with PHASE, TAG 7, and no result. -/
theorem test_nop_completion : (after (.nop 0 7) (having up (cmd 0 []))).out.map (fun o => match o with
    | .host a d => some (a, d.length)
    | _ => none) = [some (0, 16)] := by decide
/-- R415: a reserved opcode completes with OPERAND_ALIGN, and the pair's SQ_HEAD moves. -/
theorem test_reserved_opcode : ((after (.submissionFetch (.entry (entry 0x7F 0))) up).queue 0).sqHead = 1 ∧
    (after (.submissionFetch (.entry (entry 0x7F 0))) up).port.started = [] := by decide
/-- R418: an operator's pair may not order a maker's service. -/
theorem test_role_denied : (after (.submissionFetch (.entry (entry 0x60 0))) up).port.started = [] ∧
    (after (.submissionFetch (.entry (entry 0x60 0))) up).out.length = 1 := by decide
/-- R411: ENABLE with a size out of range leaves the pair halted, not running. -/
theorem test_enable_bad_size : ((after (.queueEnable 3 0x133) up).queue 3).qstate ≠ 1 := by decide
/-- R413: an index outside the ring halts the pair with HALT_CAUSE 1. -/
theorem test_bad_doorbell : ((after (.sqTail 0 16) up).queue 0).haltCause = 1 ∧ ((after (.sqTail 0 15) up).queue 0).sqTail = 15 := by
  decide
/-- R432: a source that is no multiple of 64 is DMA_ALIGN, and the channel stays idle. -/
theorem test_dma_align : ((after (.dmaStart 0 7) (having up (cmd 0x30 (dmaArgs 32)))).channel 0 1).state = 0 ∧
    ((after (.dmaStart 0 7) (having up (cmd 0x30 (dmaArgs 64)))).channel 0 1).state = 1 := by decide
/-- R505: at 105 °C the section's F is 1, the next section's is not. -/
theorem test_emergency : (after (.emergencyDrop 1 105) up).power.frac = [16, 1, 16, 16] := by decide
/-- R505: held until the junction is below 100 °C. -/
theorem test_emergency_holds :
    (after (.throttleAdjust (sensors 0 100)) (after (.emergencyDrop 1 105) up)).power.frac.getD 1 16 = 1 := by decide
/-- R103, R104: simmer falls by an eighth, and does not pass below 0. -/
theorem test_ramp : ((after (.simmerRampDown 5) { up with cores := up.cores.set 5 { CoreSt.reset with simmer := 8 } }).cores.getD 5
    CoreSt.reset).simmer = 7 ∧ ((after (.simmerRampDown 5) up).cores.getD 5 CoreSt.reset).simmer = 0 := by decide
/-- R55: a command that issues takes one serial number on its own core, and on no other. -/
theorem test_serial : ((after (.fence 0) (placing (placed descFence [] []))).cores.map (·.serial)).take 2 = [1, 0] := by decide
/-- R327: a fork reserves its child, with its parent's slot. -/
theorem test_fork : ((after (.requestFork 0 0) { asking 2 with streams := [(4, live)] }).stream 5).reserved = true := by decide
/-- R192: an end raises EPOCH by one. -/
theorem test_end_epoch : ((after (.requestEnd 0 0) (asking 4)).stream 5).epoch = 4 := by decide
/-- R268: hot above 85 °C, still hot at 80 °C, no longer at 79 °C. -/
theorem test_hot : ((after (.deviceTemperatureRead 2 86 40) (trained 2)).memPort 2).hot = true ∧
    ((after (.deviceTemperatureRead 2 80 40) (after (.deviceTemperatureRead 2 86 40) (trained 2))).memPort 2).hot = true ∧
    ((after (.deviceTemperatureRead 2 79 40) (after (.deviceTemperatureRead 2 86 40) (trained 2))).memPort 2).hot = false := by decide
/-- R391: the down block that fails is dropped and counted. -/
theorem test_down_block : ((after (.downBlockReceive 0) (reducing (down [⟨0, downZeros false⟩] 0) (from_ 3 []))).chan 0).downFails = 1 := by
  decide +kernel
/-- R411: TIME_LO returns the low word, and TIME_HI holds the high one. -/
theorem test_time_latch : (after .timeLoRead { up with time := { up.time with tsy := 0x500000007 } }).out = [.read 7] ∧
    (after .timeLoRead { up with time := { up.time with tsy := 0x500000007 } }).port.timeHi = 5 := by decide

end Sys2Proof.Tests
end

section
/-! SUPPORT. The transfer channels of the DMA engines, channels 0 to 3 of each (R429), across the end of a started command, and
the refusal of a misaligned DMA_START (R432). -/

namespace Sys2Proof.Machine

/-! ### Transfer channels across the end of a command -/

/-- A channel of an engine of the control port. -/
def Port.channel (p : Port) (sec n : Nat) : Channel :=
  ((p.engines[sec]?).bind fun e => e.channels[n]?).getD Channel.reset

theorem State.channel_eq_port (s : State) (sec n : Nat) : s.channel sec n = s.port.channel sec n := rfl

/-- An engine changed in a way that keeps its channel n leaves channel n of every engine as it was. -/
theorem Port.channel_modAt (p : Port) (i sec n : Nat) (st : List Started) (f : Dma → Dma)
    (hf : ∀ e, (f e).channels[n]? = e.channels[n]?) :
    { p with started := st, engines := modAt p.engines i f }.channel sec n = p.channel sec n := by
  unfold Port.channel
  rw [modAt_getElem?]
  split
  · cases p.engines[sec]? <;> simp [hf]
  · rfl

/-- A buffer channel is none of the transfer channels (R429). -/
theorem freeBuffer_ge {p : Port} {c : Nat} (h : freeBuffer p = some c) : 4 ≤ c := by
  unfold freeBuffer at h
  split at h
  · have hm := List.mem_of_find?_eq_some h
    simp only [List.mem_cons, List.not_mem_nil, or_false] at hm
    omega
  · cases h

theorem armBuffer_channel (p : Port) (t : Started) (sec : Nat) {n : Nat} (hn : n < 4) :
    (armBuffer p t).channel sec n = p.channel sec n := by
  unfold armBuffer
  split
  · rfl
  · split
    · rfl
    next c hc =>
      have hnc : n ≠ c := by have := freeBuffer_ge hc; omega
      exact Port.channel_modAt _ _ _ _ _ _ fun e => by simp [modAt_getElem?, hnc]

theorem foldl_armBuffer_channel (l : List Started) (p : Port) (sec : Nat) {n : Nat} (hn : n < 4) :
    (l.foldl armBuffer p).channel sec n = p.channel sec n := by
  induction l generalizing p with
  | nil => rfl
  | cons t l ih => rw [List.foldl_cons, ih, armBuffer_channel _ _ _ hn]

theorem armBuffers_channel (p : Port) (sec : Nat) {n : Nat} (hn : n < 4) : p.armBuffers.channel sec n = p.channel sec n :=
  foldl_armBuffer_channel _ _ _ hn

/-- A command that leaves frees no channel but its own buffer channel. -/
theorem leave_channel (p : Port) (q tag : Nat) {c : Option Nat} (sec : Nat) {n : Nat} (hc : c ≠ some n) :
    (p.leave q tag c).channel sec n = p.channel sec n := by
  refine Port.channel_modAt _ _ _ _ _ _ fun e => ?_
  cases c with
  | none => rfl
  | some k =>
    have hnk : n ≠ k := fun h => hc (h ▸ rfl)
    simp [modAt_getElem?, hnk]

theorem complete_engines (s : State) (q tag : Nat) (code : Code) (r0 r1 : W32) :
    (s.complete q tag code r0 r1).port.engines = s.port.engines := by
  unfold State.complete
  simp only []
  split <;> rfl

theorem endSession_engines (s : State) (q : Nat) : (s.endSession q).port.engines = s.port.engines := by
  unfold State.endSession
  simp only []
  split <;> rfl

theorem settleDrain_engines (s : State) (q : Nat) : (s.settleDrain q).port.engines = s.port.engines := by
  unfold State.settleDrain
  simp only []
  split
  · exact endSession_engines s q
  · rfl

/-- What the end of a started command leaves of the engines: those of the port that it has left, its waiting buffers armed. -/
theorem finish_engines (s : State) (q tag : Nat) (c : Started) (code : Code) (r0 r1 : W32) (h : s.started? q tag = some c) :
    (s.finish q tag code r0 r1).port.engines = (s.port.leave q tag c.chan).armBuffers.engines := by
  unfold State.finish
  simp only [h, settleDrain_engines]
  split
  · rfl
  · rw [complete_engines]

/-- The end of a started command leaves every transfer channel as it was, unless the command held it. -/
theorem finish_channel (s : State) (q tag : Nat) (c : Started) (code : Code) (r0 r1 : W32) (h : s.started? q tag = some c)
    (sec : Nat) {n : Nat} (hn : n < 4) (hc : c.chan ≠ some n) :
    (s.finish q tag code r0 r1).channel sec n = s.channel sec n := by
  calc (s.finish q tag code r0 r1).channel sec n
      = (s.port.leave q tag c.chan).armBuffers.channel sec n := by
        rw [State.channel_eq_port, Port.channel, finish_engines s q tag c code r0 r1 h, Port.channel]
    _ = s.port.channel sec n := by rw [armBuffers_channel _ _ hn, leave_channel _ _ _ _ hc]

/-! ### Refusals of DMA_START -/

theorem exec_dmaStart (q tag : Nat) (s : State) : exec (.dmaStart q tag) s = execDmaStart q tag s := rfl

/-- A DMA_START that fails its checks ends with their code. -/
theorem exec_dmaStart_refused {s : State} {q tag : Nat} {c : Started} (h : s.commandAt q tag 0x30 c)
    (hv : s.dmaCheck c ≠ cDone) : exec (.dmaStart q tag) s = .next (s.finish q tag (s.dmaCheck c) 0 0) := by
  rw [exec_dmaStart, execDmaStart, onStarted_commandAt h _ _ rfl]
  simp only [bne_iff_ne, ne_eq, hv, not_false_eq_true, if_true]

/-- Alignment to 64 bytes is judged by the low word of an address. -/
theorem append_toNat_mod_64 (hi lo : W32) : (hi ++ lo : W64).toNat % 64 = lo.toNat % 64 := by
  rw [BitVec.toNat_append, ← Nat.shiftLeft_add_eq_or_of_lt lo.isLt, Nat.shiftLeft_eq]
  omega

/-- What R432 forbids in the arguments of a DMA_START: an address, size or pitch, or in transpose mode ROWS × E, that is no
multiple of 64 bytes. -/
def Started.misaligned (c : Started) : Prop :=
  (c.arg 2).toNat % 64 ≠ 0 ∨ (c.arg 4).toNat % 64 ≠ 0 ∨ (c.arg 8).toNat % 64 ≠ 0 ∨ (c.arg 9).toNat % 64 ≠ 0 ∨
    (c.arg 10).toNat % 64 ≠ 0 ∨ ((c.arg 6).getLsbD 6 = true ∧ (c.arg 7).toNat * cfgElem (c.arg 6) % 64 ≠ 0)

/-- Once both spaces are permitted to the role, alignment is judged before all else. -/
theorem dmaCheck_misaligned {s : State} {c : Started}
    (hs : s.spaceDenied c.role (cfgSrc (c.arg 6)) (c.arg 3 ++ c.arg 2) = false)
    (hd : s.spaceDenied c.role (cfgDst (c.arg 6)) (c.arg 5 ++ c.arg 4) = false) (h : c.misaligned) :
    s.dmaCheck c = cDmaAlign := by
  unfold State.dmaCheck
  simp only [hs, hd, Bool.or_self, Bool.false_eq_true, if_false]
  refine if_pos ?_
  simp only [append_toNat_mod_64, Bool.or_eq_true, Bool.and_eq_true, bne_iff_ne, or_assoc]
  exact h

/-- Settles O24: the alignment check refuses the command, and its end with that code arms, moves and frees no transfer
channel. -/
theorem dmaAlignment : Obligations.DmaAlignment := by
  intro s q tag c hc hchan hsrc hdst hodd
  have hcode : s.dmaCheck c = cDmaAlign := dmaCheck_misaligned hsrc hdst hodd
  have hexec := exec_dmaStart_refused hc (by rw [hcode]; decide)
  rw [hcode] at hexec
  obtain ⟨hstarted, -, -, hdiscard, -, -, htakes⟩ := hc
  obtain ⟨hanswered, hframe⟩ := finish_takes s q tag c cDmaAlign 0 0 hstarted hdiscard htakes
  have hchannels (e n : Nat) (hn : n < 4) : (s.finish q tag cDmaAlign 0 0).channel e n = s.channel e n :=
    finish_channel s q tag c cDmaAlign 0 0 hstarted e hn (by simp [hchan])
  exact ⟨_, hexec, hanswered, hchannels, hframe⟩

end Sys2Proof.Machine
end

section
/-! SUPPORT. What the emergency drop and the throttle step do to the sections' delivered fractions F (R504, R505). -/

namespace Sys2Proof.Machine

/-! ### A throttling event -/

/-- A throttling event, the first of its episode or a later one, is an attention or a record: it changes only the control port's
attention registers and the errata log. -/
theorem State.throttled_frame (s : State) (first : Bool) (code : Code) (detail : Nat) :
    s.throttled first code detail =
      { s with port := (s.throttled first code detail).port, errata := (s.throttled first code detail).errata } := by
  cases first <;> rfl

/-! ### EMERGENCY_DROP (R505) -/

/-- The power state after a drop: the section at F = 1 and held there, its junction's reading kept. -/
def Power.dropped (p : Power) (sec temp : Nat) : Power :=
  { p with frac := p.frac.set sec 1, emergency := p.emergency.set sec true, thermal := true, tj := p.tj.set sec temp }

theorem Power.dropped_frac_self (p : Power) {sec : Nat} (temp : Nat) (h : sec < p.frac.length) :
    (p.dropped sec temp).frac.getD sec 16 = 1 := by
  simp [Power.dropped, List.getD_eq_getElem?_getD, h]

theorem Power.dropped_emergency_self (p : Power) {sec : Nat} (temp : Nat) (h : sec < p.emergency.length) :
    (p.dropped sec temp).emergency.getD sec false = true := by
  simp [Power.dropped, List.getD_eq_getElem?_getD, h]

theorem Power.dropped_other (p : Power) {sec n : Nat} (temp : Nat) (h : n ≠ sec) :
    (p.dropped sec temp).frac.getD n 16 = p.frac.getD n 16 ∧
      (p.dropped sec temp).emergency.getD n false = p.emergency.getD n false := by
  simp [Power.dropped, List.getD_eq_getElem?_getD, List.getElem?_set_ne h.symm]

/-- At 105 °C or above a drop is a thermal throttling event of its section. -/
theorem exec_emergencyDrop {s : State} {sec temp : Nat} (hon : s.dieOn = true) (hsec : sec < 4) (htemp : 105 ≤ temp) :
    exec (.emergencyDrop sec temp) s =
      .next ((s.throttled (!s.power.thermal) cThermal temp).modPower fun p => p.dropped sec temp) := by
  have hstands : (!s.telRuns || 4 ≤ sec || temp < 105) = false := by
    simp [State.telRuns, hon, hsec, htemp]
  show execEmergencyDrop sec temp s = _
  rw [execEmergencyDrop, hstands]
  rfl

/-! ### THROTTLE_ADJUST, section by section (R504, R505) -/

/-- Section i is held at F = 1: an emergency has dropped it, and its junction still reads 100 °C or more. -/
def State.heldAt (s : State) (x : Sensors) (i : Nat) : Bool :=
  s.power.emergency.getD i false && decide (100 ≤ x.tj.getD i 0)

/-- A cause lowers section i: power above the cap, its junction at TJ_THROTTLE, or the GDDR7 at 95 °C. -/
def State.lowersAt (s : State) (x : Sensors) (i : Nat) : Bool :=
  decide (1000 * s.capInEffect < x.powerIn) || (decide (s.tjThrottle ≤ x.tj.getD i 0) || decide (95 ≤ x.tCask))

/-- Section i may rise: power below 95 % of the cap, its junction below TJ_THROTTLE − 3 °C, the GDDR7 below 95 °C. -/
def State.raisesAt (s : State) (x : Sensors) (i : Nat) : Bool :=
  decide (100 * x.powerIn < 95 * (1000 * s.capInEffect)) && decide (x.tj.getD i 0 + 3 < s.tjThrottle) && !decide (95 ≤ x.tCask)

/-- F of section i after a throttle step. -/
def State.adjustedFrac (s : State) (x : Sensors) (i : Nat) : Nat :=
  let n := s.power.frac.getD i 16
  if s.heldAt x i then 1 else if s.lowersAt x i then max 1 (n - 1) else if s.raisesAt x i then min 16 (n + 1) else n

/-- A throttle step adjusts F of each of the four sections, and ends the emergency of each that is held no longer. -/
theorem exec_throttleAdjust_sections {s : State} (hon : s.dieOn = true) (x : Sensors) :
    ∃ t, exec (.throttleAdjust x) s = .next t ∧ t.power.frac = (List.range 4).map (s.adjustedFrac x) ∧
      t.power.emergency = (List.range 4).map (s.heldAt x) := by
  have hruns : (!s.telRuns) = false := by simp [State.telRuns, hon]
  show ∃ t, execThrottleAdjust x s = .next t ∧ _
  rw [execThrottleAdjust, hruns]
  exact ⟨_, rfl, rfl, rfl⟩

theorem map_range_getD {α : Type} (f : Nat → α) (d : α) {i k : Nat} (h : i < k) : ((List.range k).map f).getD i d = f i := by
  simp [List.getD_eq_getElem?_getD, h]

theorem State.adjustedFrac_held {s : State} {x : Sensors} {i : Nat} (h : s.heldAt x i = true) : s.adjustedFrac x i = 1 := by
  rw [State.adjustedFrac, if_pos h]

theorem State.adjustedFrac_rises {s : State} {x : Sensors} {i : Nat} (hheld : s.heldAt x i = false)
    (hlow : s.lowersAt x i = false) (hup : s.raisesAt x i = true) :
    s.adjustedFrac x i = min 16 (s.power.frac.getD i 16 + 1) := by
  simp [State.adjustedFrac, hheld, hlow, hup]

/-- A section is held exactly while its emergency stands and its junction has not fallen below 100 °C. -/
theorem State.heldAt_eq_true {s : State} {x : Sensors} {i : Nat} :
    s.heldAt x i = true ↔ s.power.emergency.getD i false = true ∧ 100 ≤ x.tj.getD i 0 := by
  rw [State.heldAt, Bool.and_eq_true, decide_eq_true_iff]

/-- A section far enough below every limit has no cause to be lowered, and may rise. -/
theorem State.cool_rises {s : State} {x : Sensors} {i : Nat} (hcap : x.powerIn ≤ 1000 * s.capInEffect)
    (hpower : 100 * x.powerIn < 95 * (1000 * s.capInEffect)) (htj : x.tj.getD i 0 + 3 < s.tjThrottle) (hcask : x.tCask < 95) :
    s.lowersAt x i = false ∧ s.raisesAt x i = true := by
  have hlimit : x.tj.getD i 0 < s.tjThrottle := by omega
  constructor
  · rw [State.lowersAt, decide_eq_false (Nat.not_lt.2 hcap), decide_eq_false (Nat.not_le.2 hlimit),
      decide_eq_false (Nat.not_le.2 hcask)]; rfl
  · rw [State.raisesAt, decide_eq_true hpower, decide_eq_true htj, decide_eq_false (Nat.not_le.2 hcask)]; rfl

/-- Settles O46: the drop sets its section alone to F = 1 and marks it; a throttle step keeps a marked section at 1 while its
junction reads 100 °C or more, and otherwise ends the emergency and lets F rise as R504 says. -/
theorem emergencyDrop : Obligations.EmergencyDrop := by
  intro s sec hon hsec hfrac hemergency
  refine ⟨fun temp htemp => ?_, fun x hmarked => ?_⟩
  · refine ⟨_, exec_emergencyDrop hon hsec htemp, ?_⟩
    rw [State.throttled_frame]
    exact ⟨s.power.dropped_frac_self temp (by omega), s.power.dropped_emergency_self temp (by omega), rfl,
      fun n hn => s.power.dropped_other temp hn, rfl⟩
  · obtain ⟨t, hexec, htfrac, htemergency⟩ := exec_throttleAdjust_sections hon x
    refine ⟨t, hexec, ?_⟩
    rw [htfrac, htemergency, map_range_getD _ _ hsec, map_range_getD _ _ hsec]
    refine ⟨fun hhot => ?_, fun hcool => ?_⟩
    · have hheld : s.heldAt x sec = true := State.heldAt_eq_true.2 ⟨hmarked, hhot⟩
      exact ⟨State.adjustedFrac_held hheld, hheld⟩
    · have hfree : s.heldAt x sec = false :=
        Bool.eq_false_iff.2 fun h => Nat.not_le.2 hcool (State.heldAt_eq_true.1 h).2
      refine ⟨hfree, fun hcap hpower htj hcask => ?_⟩
      obtain ⟨hlow, hup⟩ := State.cool_rises hcap hpower htj hcask
      exact State.adjustedFrac_rises hfree hlow hup

end Sys2Proof.Machine
end

section
/-! SUPPORT. What every command and every step keeps: the canonical form of the addressed memories, the sizes of the register
files, the version counter and the queue of waiting commands; and one tick of an idle module. -/

namespace Sys2Proof.Machine

/-! ### Every command answers -/

theorem exec_base (i : Instr) (s : State) (h : touchesMemory i = false) : ∃ t, exec i s = .next t ∧ t.base = s.base := by
  cases i with
  | nop => exact execNop_base _ _ s
  | openSessionChallenge => exact execOpenSessionChallenge_base _ _ s
  | closeSession => exact execCloseSession_base _ _ s
  | unloadPlan => exact execUnloadPlan_base _ _ s
  | grist => exact execGrist_base _ _ _ s
  | train => exact execTrain_base _ _ _ s
  | plainRerun => exact execPlainRerun_base _ _ s
  | setRefresh => exact execSetRefresh_base _ _ s
  | readTable => exact execReadTable_base _ _ s
  | dmaStart => exact execDmaStart_base _ _ s
  | dmaControlResume => exact execDmaControlResume_base _ _ s
  | dmaControlAbort => exact execDmaControlAbort_base _ _ s
  | simmerDisable => exact execSimmerDisable_base _ _ s
  | simmerEnable => exact execSimmerEnable_base _ _ s
  | powerSetRest => exact execPowerSetRest_base _ _ s
  | powerSetDormant => exact execPowerSetDormant_base _ _ s
  | powerSetStandby => exact execPowerSetStandby_base _ _ s
  | powerCap => exact execPowerCap_base _ _ s
  | readTelemetry => exact execReadTelemetry_base _ _ s
  | readErrata => exact execReadErrata_base _ _ s
  | openWindow => exact execOpenWindow_base _ _ _ s
  | closeWindow => exact execCloseWindow_base _ _ s
  | attest => exact execAttest_base _ _ s
  | laneService => exact execLaneService_base _ _ _ s
  | readSpares => exact execReadSpares_base _ _ s
  | sqTail => exact execSqTail_base _ _ s
  | cqHead => exact execCqHead_base _ _ s
  | queueEnable => exact execQueueEnable_base _ _ s
  | queueDisable => exact execQueueDisable_base _ _ s
  | attnPendingClear => exact execAttnPendingClear_base _ _ s
  | timeLoRead => exact execTimeLoRead_base s
  | readClearField => exact execReadClearField_base _ _ s
  | registerWriteOther => exact execRegisterWriteOther_base _ _ _ s
  | submissionFetch => exact execSubmissionFetch_base _ s
  | conventionalReset => exact execConventionalReset_base s
  | hotReset => exact execHotReset_base s
  | functionLevelReset => exact execFunctionLevelReset_base s
  | perstRelease => exact execPerstRelease_base _ s
  | configWrite => exact execConfigWrite_base _ s
  | sidebandStatus => exact execSidebandStatus_base s
  | sidebandWake => exact execSidebandWake_base _ _ s
  | sidebandStandby => exact execSidebandStandby_base _ _ s
  | supplyTurnOn => exact execSupplyTurnOn_base s
  | cellarRebuildDone => exact execCellarRebuildDone_base s
  | auxPowerApplied => exact execAuxPowerApplied_base _ s
  | auxPowerLost => exact execAuxPowerLost_base s
  | emergencyDrop => exact execEmergencyDrop_base _ _ s
  | throttleAdjust => exact execThrottleAdjust_base _ s
  | telemetrySample => exact execTelemetrySample_base _ s
  | enterReady => exact execEnterReady_base s
  | returnToRun => exact execReturnToRun_base s
  | autoRest => exact execAutoRest_base s
  | wakeAtReached => exact execWakeAtReached_base s
  | exitRest => exact execExitRest_base s
  | requestAssemblyTimeout => exact execRequestAssemblyTimeout_base _ _ s
  | replyContextExpiry => exact execReplyContextExpiry_base _ _ s
  | neighbourRequest => exact execNeighbourRequest_base _ _ _ s
  | requestAdmit => exact execRequestAdmit_base _ _ s
  | requestContinue => exact execRequestContinue_base _ _ s
  | requestFork => exact execRequestFork_base _ _ s
  | requestReset => exact execRequestReset_base _ _ s
  | requestEnd => exact execRequestEnd_base _ _ s
  | requestPause => exact execRequestPause_base _ _ s
  | requestResume => exact execRequestResume_base _ _ s
  | gristCycleStart => exact execGristCycleStart_base _ s
  | gristTick => exact execGristTick_base _ s
  | gristCycleEnd => exact execGristCycleEnd_base _ s
  | forkCycle => exact execForkCycle_base _ s
  | endCycle => exact execEndCycle_base _ s
  | matmul => exact execMatmul_base _ s
  | matmulPair => exact execMatmulPair_base _ s
  | attend => exact execAttend_base _ s
  | scan => exact execScan_base _ s
  | conv => exact execConv_base _ s
  | pool => exact execPool_base _ s
  | dist => exact execDist_base _ s
  | reduce => exact execReduce_base _ s
  | vector => exact execVector_base _ s
  | route => exact execRoute_base _ s
  | send => exact execSend_base _ s
  | recvGather => exact execRecvGather_base _ s
  | recvSum => exact execRecvSum_base _ s
  | recvChannel => exact execRecvChannel_base _ s
  | fork => exact execFork_base _ s
  | leafAppend => exact execLeafAppend_base _ s
  | leafTrim => exact execLeafTrim_base _ s
  | leafFree => exact execLeafFree_base _ s
  | sparge => exact execSparge_base _ s
  | fence => exact execFence_base _ s
  | simmerRampDown => exact execSimmerRampDown_base _ s
  | rampUpStep => exact execRampUpStep_base _ s
  | commandTimeLimit => exact execCommandTimeLimit_base _ _ s
  | leafExhausted => exact execLeafExhausted_base _ s
  | heatEpoch => exact execHeatEpoch_base s
  | promotionDone => exact execPromotionDone_base _ s
  | cellarDirectReadDone => exact execCellarDirectReadDone_base _ s
  | earlyWriteBack => exact execEarlyWriteBack_base _ _ s
  | writeBufferAccept => exact execWriteBufferAccept_base _ s
  | nandProgram => exact execNandProgram_base s
  | reclamation => exact execReclamation_base _ s
  | programEraseFailure => exact execProgramEraseFailure_base _ _ s
  | cellarReadDone => exact execCellarReadDone_base _ _ s
  | weightCopyArrival => exact execWeightCopyArrival_base _ _ _ s
  | weightFetchTimeout => exact execWeightFetchTimeout_base _ s
  | caskRestartDone => exact execCaskRestartDone_base _ s
  | deviceTemperatureRead => exact execDeviceTemperatureRead_base _ _ _ s
  | negotiation => exact execNegotiation_base _ _ s
  | negotiationStepLimit => exact execNegotiationStepLimit_base _ _ s
  | negotiationRetry => exact execNegotiationRetry_base _ s
  | renegotiation => exact execRenegotiation_base _ _ s
  | partnerLoss => exact execPartnerLoss_base _ s
  | edgePortUp => exact execEdgePortUp_base _ s
  | edgePortDown => exact execEdgePortDown_base _ s
  | helloSend => exact execHelloSend_base _ s
  | helloReceive => exact execHelloReceive_base _ _ s
  | parcelArrival => exact execParcelArrival_base _ _ _ s
  | resendRequestReceive => exact execResendRequestReceive_base _ s
  | queryReceive => exact execQueryReceive_base _ s
  | queryReplyReceive => exact execQueryReplyReceive_base _ s
  | queryDataReceive => exact execQueryDataReceive_base _ s
  | parcelExpiry => exact execParcelExpiry_base _ s
  | unreachableQuery => exact execUnreachableQuery_base _ s
  | timeParcelSend => exact execTimeParcelSend_base _ s
  | timeParcelReceive => exact execTimeParcelReceive_base _ _ _ s
  | syncRisingEdge => exact execSyncRisingEdge_base s
  | downBlockResendWait => exact execDownBlockResendWait_base _ s
  | updateLeafWaitTimeout => exact execUpdateLeafWaitTimeout_base s
  | publish => exact execPublish_base _ s
  | spargeResendReceive => exact execSpargeResendReceive_base _ s
  | backupBlockArrival => exact execBackupBlockArrival_base _ s
  | backupDeadline => exact execBackupDeadline_base _ _ s
  | stepTimerExpiry => exact execStepTimerExpiry_base _ s
  | abortReceive => exact execAbortReceive_base _ s
  | mirrorParcelReceive => exact execMirrorParcelReceive_base _ s
  | mirrorAdmissionTimeout => exact execMirrorAdmissionTimeout_base _ _ s
  | mirrorAckReceive => exact execMirrorAckReceive_base _ s
  | mirrorRefusalReceive => exact execMirrorRefusalReceive_base _ s
  | mirrorAckTimeout => exact execMirrorAckTimeout_base _ s
  | mirrorReleaseReceive => exact execMirrorReleaseReceive_base _ s
  | mirrorMapSweep => exact execMirrorMapSweep_base s
  | rollCall => exact execRollCall_base s
  | rollCallReceive => exact execRollCallReceive_base _ s
  | rollAnswerReceive => exact execRollAnswerReceive_base _ s
  | ownerLost => exact execOwnerLost_base _ s
  | dmaChannelStart => exact execDmaChannelStart_base _ s
  | errataFoldFlush => exact execErrataFoldFlush_base s
  | windowExpiry => exact execWindowExpiry_base s
  | makerSessionExpiry => exact execMakerSessionExpiry_base _ s
  | outputShort => exact execOutputShort_base _ _ s
  | shortRetry => exact execShortRetry_base _ _ s
  | presentTest => exact execPresentTest_base _ s
  | syncHeld => exact execSyncHeld_base s
  | debugInstruction => exact execDebugInstruction_base s
  | timeSourceExpiry => exact execTimeSourceExpiry_base s
  | syncThrottleInput => exact execSyncThrottleInput_base _ s
  | linkRetrained => exact execLinkRetrained_base s
  | inputReversed => exact execInputReversed_base _ s
  | sessionLockoutExpiry => exact execSessionLockoutExpiry_base s
  | challengeExpiry => exact execChallengeExpiry_base _ s
  | mirrorLeafSent => exact execMirrorLeafSent_base _ _ s
  | linkCreditGrant => exact execLinkCreditGrant_base _ _ s
  | _ => cases h

theorem exec_kept (i : Instr) (s : State) : ∃ t, exec i s = .next t ∧ Kept s t := by
  by_cases h : touchesMemory i = false
  · obtain ⟨t, hexec, hbase⟩ := exec_base i s h
    exact ⟨t, hexec, .of_base hbase⟩
  cases i with
  | openSessionAnswer => exact execOpenSessionAnswer_kept _ _ _ s
  | loadPlan => exact execLoadPlan_kept _ _ _ s
  | loadPlanAdopt => exact execLoadPlanAdopt_kept _ _ _ s
  | loadTable => exact execLoadTable_kept _ _ _ s
  | initSet => exact execInitSet_kept _ _ s
  | installImprint => exact execInstallImprint_kept _ _ _ s
  | installFirmware => exact execInstallFirmware_kept _ _ _ s
  | commitVersion => exact execCommitVersion_kept _ _ s
  | restart => exact execRestart_kept _ _ _ s
  | coreService => exact execCoreService_kept _ _ s
  | selfTest => exact execSelfTest_kept _ _ _ s
  | portService => exact execPortService_kept _ _ s
  | coldStart => exact execColdStart_kept _ s
  | caskTrainingDone => exact execCaskTrainingDone_kept _ s
  | undervoltage => exact execUndervoltage_kept s
  | overvoltage => exact execOvervoltage_kept s
  | thermalTrip => exact execThermalTrip_kept s
  | powerEntryComplete => exact execPowerEntryComplete_kept s
  | exitDormant => exact execExitDormant_kept _ s
  | exitStandby => exact execExitStandby_kept _ s
  | requestDatagram => exact execRequestDatagram_kept _ _ s
  | passStart => exact execPassStart_kept _ _ s
  | commitFlip => exact execCommitFlip_kept _ _ s
  | commitSweep => exact execCommitSweep_kept s
  | sectionStoreCopyDone => exact execSectionStoreCopyDone_kept _ s
  | writeBackAdmitted => exact execWriteBackAdmitted_kept _ s
  | retrainingPause => exact execRetrainingPause_kept _ _ _ _ s
  | addBlock => exact execAddBlock_kept _ s
  | downBlockReceive => exact execDownBlockReceive_kept _ s
  | creditParcelReceive => exact execCreditParcelReceive_kept _ s
  | coreFailure => exact execCoreFailure_kept _ _ s
  | sliceReportTimeout => exact execSliceReportTimeout_kept _ _ s
  | dmaChannelDone => exact execDmaChannelDone_kept _ _ s
  | dmaHalt => exact execDmaHalt_kept _ _ _ _ _ _ s
  | _ => exact absurd rfl h

theorem exec_shape (i : Instr) (s : State) : ∃ t, exec i s = .next t ∧ t.shape = s.shape := by
  cases i with
  | nop => exact execNop_shape _ _ s
  | openSessionChallenge => exact execOpenSessionChallenge_shape _ _ s
  | openSessionAnswer => exact execOpenSessionAnswer_shape _ _ _ s
  | closeSession => exact execCloseSession_shape _ _ s
  | loadPlan => exact execLoadPlan_shape _ _ _ s
  | loadPlanAdopt => exact execLoadPlanAdopt_shape _ _ _ s
  | unloadPlan => exact execUnloadPlan_shape _ _ s
  | grist => exact execGrist_shape _ _ _ s
  | train => exact execTrain_shape _ _ _ s
  | plainRerun => exact execPlainRerun_shape _ _ s
  | setRefresh => exact execSetRefresh_shape _ _ s
  | readTable => exact execReadTable_shape _ _ s
  | loadTable => exact execLoadTable_shape _ _ _ s
  | initSet => exact execInitSet_shape _ _ s
  | dmaStart => exact execDmaStart_shape _ _ s
  | dmaControlResume => exact execDmaControlResume_shape _ _ s
  | dmaControlAbort => exact execDmaControlAbort_shape _ _ s
  | simmerDisable => exact execSimmerDisable_shape _ _ s
  | simmerEnable => exact execSimmerEnable_shape _ _ s
  | powerSetRest => exact execPowerSetRest_shape _ _ s
  | powerSetDormant => exact execPowerSetDormant_shape _ _ s
  | powerSetStandby => exact execPowerSetStandby_shape _ _ s
  | powerCap => exact execPowerCap_shape _ _ s
  | readTelemetry => exact execReadTelemetry_shape _ _ s
  | installImprint => exact execInstallImprint_shape _ _ _ s
  | installFirmware => exact execInstallFirmware_shape _ _ _ s
  | commitVersion => exact execCommitVersion_shape _ _ s
  | restart => exact execRestart_shape _ _ _ s
  | readErrata => exact execReadErrata_shape _ _ s
  | openWindow => exact execOpenWindow_shape _ _ _ s
  | closeWindow => exact execCloseWindow_shape _ _ s
  | attest => exact execAttest_shape _ _ s
  | coreService => exact execCoreService_shape _ _ s
  | selfTest => exact execSelfTest_shape _ _ _ s
  | laneService => exact execLaneService_shape _ _ _ s
  | portService => exact execPortService_shape _ _ s
  | readSpares => exact execReadSpares_shape _ _ s
  | sqTail => exact execSqTail_shape _ _ s
  | cqHead => exact execCqHead_shape _ _ s
  | queueEnable => exact execQueueEnable_shape _ _ s
  | queueDisable => exact execQueueDisable_shape _ _ s
  | attnPendingClear => exact execAttnPendingClear_shape _ _ s
  | timeLoRead => exact execTimeLoRead_shape s
  | readClearField => exact execReadClearField_shape _ _ s
  | registerWriteOther => exact execRegisterWriteOther_shape _ _ _ s
  | submissionFetch => exact execSubmissionFetch_shape _ s
  | conventionalReset => exact execConventionalReset_shape s
  | hotReset => exact execHotReset_shape s
  | functionLevelReset => exact execFunctionLevelReset_shape s
  | perstRelease => exact execPerstRelease_shape _ s
  | configWrite => exact execConfigWrite_shape _ s
  | sidebandStatus => exact execSidebandStatus_shape s
  | sidebandWake => exact execSidebandWake_shape _ _ s
  | sidebandStandby => exact execSidebandStandby_shape _ _ s
  | supplyTurnOn => exact execSupplyTurnOn_shape s
  | coldStart => exact execColdStart_shape _ s
  | caskTrainingDone => exact execCaskTrainingDone_shape _ s
  | cellarRebuildDone => exact execCellarRebuildDone_shape s
  | undervoltage => exact execUndervoltage_shape s
  | overvoltage => exact execOvervoltage_shape s
  | auxPowerApplied => exact execAuxPowerApplied_shape _ s
  | auxPowerLost => exact execAuxPowerLost_shape s
  | thermalTrip => exact execThermalTrip_shape s
  | emergencyDrop => exact execEmergencyDrop_shape _ _ s
  | throttleAdjust => exact execThrottleAdjust_shape _ s
  | telemetrySample => exact execTelemetrySample_shape _ s
  | enterReady => exact execEnterReady_shape s
  | returnToRun => exact execReturnToRun_shape s
  | autoRest => exact execAutoRest_shape s
  | powerEntryComplete => exact execPowerEntryComplete_shape s
  | wakeAtReached => exact execWakeAtReached_shape s
  | exitRest => exact execExitRest_shape s
  | exitDormant => exact execExitDormant_shape _ s
  | exitStandby => exact execExitStandby_shape _ s
  | requestDatagram => exact execRequestDatagram_shape _ _ s
  | requestAssemblyTimeout => exact execRequestAssemblyTimeout_shape _ _ s
  | replyContextExpiry => exact execReplyContextExpiry_shape _ _ s
  | neighbourRequest => exact execNeighbourRequest_shape _ _ _ s
  | requestAdmit => exact execRequestAdmit_shape _ _ s
  | requestContinue => exact execRequestContinue_shape _ _ s
  | requestFork => exact execRequestFork_shape _ _ s
  | requestReset => exact execRequestReset_shape _ _ s
  | requestEnd => exact execRequestEnd_shape _ _ s
  | requestPause => exact execRequestPause_shape _ _ s
  | requestResume => exact execRequestResume_shape _ _ s
  | gristCycleStart => exact execGristCycleStart_shape _ s
  | gristTick => exact execGristTick_shape _ s
  | gristCycleEnd => exact execGristCycleEnd_shape _ s
  | forkCycle => exact execForkCycle_shape _ s
  | endCycle => exact execEndCycle_shape _ s
  | matmul => exact execMatmul_shape _ s
  | matmulPair => exact execMatmulPair_shape _ s
  | attend => exact execAttend_shape _ s
  | scan => exact execScan_shape _ s
  | conv => exact execConv_shape _ s
  | pool => exact execPool_shape _ s
  | dist => exact execDist_shape _ s
  | reduce => exact execReduce_shape _ s
  | vector => exact execVector_shape _ s
  | route => exact execRoute_shape _ s
  | send => exact execSend_shape _ s
  | recvGather => exact execRecvGather_shape _ s
  | recvSum => exact execRecvSum_shape _ s
  | recvChannel => exact execRecvChannel_shape _ s
  | fork => exact execFork_shape _ s
  | leafAppend => exact execLeafAppend_shape _ s
  | leafTrim => exact execLeafTrim_shape _ s
  | leafFree => exact execLeafFree_shape _ s
  | sparge => exact execSparge_shape _ s
  | fence => exact execFence_shape _ s
  | passStart => exact execPassStart_shape _ _ s
  | commitFlip => exact execCommitFlip_shape _ _ s
  | simmerRampDown => exact execSimmerRampDown_shape _ s
  | rampUpStep => exact execRampUpStep_shape _ s
  | commandTimeLimit => exact execCommandTimeLimit_shape _ _ s
  | leafExhausted => exact execLeafExhausted_shape _ s
  | commitSweep => exact execCommitSweep_shape s
  | heatEpoch => exact execHeatEpoch_shape s
  | promotionDone => exact execPromotionDone_shape _ s
  | cellarDirectReadDone => exact execCellarDirectReadDone_shape _ s
  | sectionStoreCopyDone => exact execSectionStoreCopyDone_shape _ s
  | earlyWriteBack => exact execEarlyWriteBack_shape _ _ s
  | writeBackAdmitted => exact execWriteBackAdmitted_shape _ s
  | writeBufferAccept => exact execWriteBufferAccept_shape _ s
  | nandProgram => exact execNandProgram_shape s
  | reclamation => exact execReclamation_shape _ s
  | programEraseFailure => exact execProgramEraseFailure_shape _ _ s
  | cellarReadDone => exact execCellarReadDone_shape _ _ s
  | weightCopyArrival => exact execWeightCopyArrival_shape _ _ _ s
  | weightFetchTimeout => exact execWeightFetchTimeout_shape _ s
  | retrainingPause => exact execRetrainingPause_shape _ _ _ _ s
  | caskRestartDone => exact execCaskRestartDone_shape _ s
  | deviceTemperatureRead => exact execDeviceTemperatureRead_shape _ _ _ s
  | negotiation => exact execNegotiation_shape _ _ s
  | negotiationStepLimit => exact execNegotiationStepLimit_shape _ _ s
  | negotiationRetry => exact execNegotiationRetry_shape _ s
  | renegotiation => exact execRenegotiation_shape _ _ s
  | partnerLoss => exact execPartnerLoss_shape _ s
  | edgePortUp => exact execEdgePortUp_shape _ s
  | edgePortDown => exact execEdgePortDown_shape _ s
  | helloSend => exact execHelloSend_shape _ s
  | helloReceive => exact execHelloReceive_shape _ _ s
  | parcelArrival => exact execParcelArrival_shape _ _ _ s
  | resendRequestReceive => exact execResendRequestReceive_shape _ s
  | queryReceive => exact execQueryReceive_shape _ s
  | queryReplyReceive => exact execQueryReplyReceive_shape _ s
  | queryDataReceive => exact execQueryDataReceive_shape _ s
  | parcelExpiry => exact execParcelExpiry_shape _ s
  | unreachableQuery => exact execUnreachableQuery_shape _ s
  | timeParcelSend => exact execTimeParcelSend_shape _ s
  | timeParcelReceive => exact execTimeParcelReceive_shape _ _ _ s
  | syncRisingEdge => exact execSyncRisingEdge_shape s
  | addBlock => exact execAddBlock_shape _ s
  | downBlockReceive => exact execDownBlockReceive_shape _ s
  | downBlockResendWait => exact execDownBlockResendWait_shape _ s
  | updateLeafWaitTimeout => exact execUpdateLeafWaitTimeout_shape s
  | publish => exact execPublish_shape _ s
  | spargeResendReceive => exact execSpargeResendReceive_shape _ s
  | creditParcelReceive => exact execCreditParcelReceive_shape _ s
  | backupBlockArrival => exact execBackupBlockArrival_shape _ s
  | backupDeadline => exact execBackupDeadline_shape _ _ s
  | stepTimerExpiry => exact execStepTimerExpiry_shape _ s
  | abortReceive => exact execAbortReceive_shape _ s
  | mirrorParcelReceive => exact execMirrorParcelReceive_shape _ s
  | mirrorAdmissionTimeout => exact execMirrorAdmissionTimeout_shape _ _ s
  | mirrorAckReceive => exact execMirrorAckReceive_shape _ s
  | mirrorRefusalReceive => exact execMirrorRefusalReceive_shape _ s
  | mirrorAckTimeout => exact execMirrorAckTimeout_shape _ s
  | mirrorReleaseReceive => exact execMirrorReleaseReceive_shape _ s
  | mirrorMapSweep => exact execMirrorMapSweep_shape s
  | rollCall => exact execRollCall_shape s
  | rollCallReceive => exact execRollCallReceive_shape _ s
  | rollAnswerReceive => exact execRollAnswerReceive_shape _ s
  | ownerLost => exact execOwnerLost_shape _ s
  | coreFailure => exact execCoreFailure_shape _ _ s
  | sliceReportTimeout => exact execSliceReportTimeout_shape _ _ s
  | dmaChannelStart => exact execDmaChannelStart_shape _ s
  | dmaChannelDone => exact execDmaChannelDone_shape _ _ s
  | dmaHalt => exact execDmaHalt_shape _ _ _ _ _ _ s
  | errataFoldFlush => exact execErrataFoldFlush_shape s
  | windowExpiry => exact execWindowExpiry_shape s
  | makerSessionExpiry => exact execMakerSessionExpiry_shape _ s
  | outputShort => exact execOutputShort_shape _ _ s
  | shortRetry => exact execShortRetry_shape _ _ s
  | presentTest => exact execPresentTest_shape _ s
  | syncHeld => exact execSyncHeld_shape s
  | debugInstruction => exact execDebugInstruction_shape s
  | timeSourceExpiry => exact execTimeSourceExpiry_shape s
  | syncThrottleInput => exact execSyncThrottleInput_shape _ s
  | linkRetrained => exact execLinkRetrained_shape s
  | inputReversed => exact execInputReversed_shape _ s
  | sessionLockoutExpiry => exact execSessionLockoutExpiry_shape s
  | challengeExpiry => exact execChallengeExpiry_shape _ s
  | mirrorLeafSent => exact execMirrorLeafSent_shape _ _ s
  | linkCreditGrant => exact execLinkCreditGrant_shape _ _ s

/-! ### One step -/

theorem step_pending {s : State} {c : Instr} {rest : List Instr} (h : s.pending = c :: rest) :
    step s = exec c { s with pending := rest } := by
  rw [step, h]

theorem step_nil {s : State} (h : s.pending = []) : step s = .next s.idle := by
  rw [step, h]

/-- A step keeps the canonical form, and the version counter does not fall. -/
theorem step_kept {s t : State} (h : step s = .next t) :
    s.nor.versionCounter.toNat ≤ t.nor.versionCounter.toNat ∧ (s.memWf = true → t.memWf = true) := by
  cases hp : s.pending with
  | nil =>
    rw [step_nil hp] at h
    cases h
    exact (Kept.iff.1 (.of_base (State_idle_base s))).2
  | cons c rest =>
    rw [step_pending hp] at h
    obtain ⟨u, hexec, hkept⟩ := exec_kept c { s with pending := rest }
    cases hexec.symm.trans h
    exact (Kept.iff.1 hkept).2

theorem step_shape {s t : State} (h : step s = .next t) : t.shape = s.shape := by
  cases hp : s.pending with
  | nil =>
    rw [step_nil hp] at h
    cases h
    exact State_idle_shape s
  | cons c rest =>
    rw [step_pending hp] at h
    obtain ⟨u, hexec, hshape⟩ := exec_shape c { s with pending := rest }
    cases hexec.symm.trans h
    exact hshape

/-! ### The idle tick -/

/-- Where the governor admits no index bytes, the payment changes nothing. -/
theorem State.payIndex_of_indexDue {s : State} (h : s.cellar.indexDue = 0) : s.payIndex = s := by
  simp [State.payIndex, h]

/-- Paying for index bytes touches the bucket, the time of its next peak, the bytes due and the draws. -/
theorem State.payIndex_frame (s : State) : s.payIndex = { s with
    draws := s.payIndex.draws
    cellar := { s.cellar with
      level := s.payIndex.cellar.level, indexDue := s.payIndex.cellar.indexDue, peakAt := s.payIndex.cellar.peakAt } } := by
  unfold State.payIndex
  dsimp only
  split <;> rfl

/-- The tick before the index bytes are paid: time, cores and the bucket's refill. -/
def State.ticked (s : State) : State :=
  { s with time := { s.time with tsy := s.time.tsy + 1 }
           cellar := { s.cellar with level := if s.govRuns then s.refilled else s.cellar.level }
           cores := s.cores.map CoreSt.tick }

theorem State.idle_of_stopped {s : State} (h : s.timeRuns = false) : s.idle = s := by
  simp [State.idle, h]

theorem State.idle_of_running {s : State} (h : s.timeRuns = true) :
    s.idle = if s.govRuns then s.ticked.payIndex else s.ticked := by
  simp [State.idle, h, State.ticked]

theorem State.govRuns_of_stopped {s : State} (h : s.timeRuns = false) : s.govRuns = false := by
  simp [State.govRuns, h]

/-- A running module's tick: time and cores move on, and of the cellar the bucket and the index bytes due. -/
theorem State.idle_running_frame {s : State} (h : s.timeRuns = true) :
    s.idle.time.tsy = s.time.tsy + 1 ∧ s.idle.cores = s.cores.map CoreSt.tick ∧
    s.idle = { s with time := { s.time with tsy := s.idle.time.tsy }, cores := s.idle.cores, draws := s.idle.draws
                      cellar := { s.cellar with
                        level := s.idle.cellar.level, indexDue := s.idle.cellar.indexDue
                        peakAt := s.idle.cellar.peakAt } } := by
  rw [idle_of_running h]
  split
  · rw [State.payIndex_frame]
    exact ⟨rfl, rfl, rfl⟩
  · exact ⟨rfl, rfl, rfl⟩

theorem State.idle_no_index {s : State} (h : s.cellar.indexDue = 0) :
    s.idle.cellar = { s.cellar with level := if s.govRuns then s.refilled else s.cellar.level } ∧
      s.idle.draws = s.draws := by
  cases ht : s.timeRuns with
  | false => simp [idle_of_stopped ht, govRuns_of_stopped ht]
  | true =>
    have hticked : s.idle = s.ticked := by
      rw [idle_of_running ht, State.payIndex_of_indexDue (s := s.ticked) h, ite_self]
    rw [hticked]
    exact ⟨rfl, rfl⟩

theorem State.idle_no_governor {s : State} (h : s.govRuns = false) :
    s.idle.cellar = s.cellar ∧ s.idle.draws = s.draws := by
  cases ht : s.timeRuns with
  | false => simp [idle_of_stopped ht]
  | true => simp [idle_of_running ht, State.ticked, h]

/-! ### The statements -/

/-- Settles O3: each command's update of the addressed memories keeps their canonical form. -/
theorem stepKeepsMemoriesCanonical : Obligations.StepKeepsMemoriesCanonical :=
  fun _ _ hwf hstep => (step_kept hstep).2 hwf

/-- Settles O4: each command keeps the list of sizes. -/
theorem stepKeepsShape : Obligations.StepKeepsShape := by
  intro s t hs hstep
  rw [State.shaped, step_shape hstep]
  exact hs

/-- Settles O6: each command's update of the flash raises the version counter or leaves it. -/
theorem versionCounterNeverFalls : Obligations.VersionCounterNeverFalls :=
  fun _ _ hstep => (step_kept hstep).1

/-- Settles O7: each command outside touchesMemory has a lemma that it keeps the six views. -/
theorem commandsThatLeaveMemories : Obligations.CommandsThatLeaveMemories := by
  intro i s t htouch hexec
  obtain ⟨u, hu, hbase⟩ := exec_base i s htouch
  cases hu.symm.trans hexec
  simp only [State.base, Prod.mk.injEq] at hbase
  obtain ⟨hpending, hnor, hcore, hsect, hcask, hlpddr⟩ := hbase
  exact ⟨hnor, hcore, hsect, hcask, hlpddr, hpending⟩

/-- Settles O2: every command's lemma gives its answer and keeps the queue; an idle step is one tick. -/
theorem everyStepGoesOn : Obligations.EveryStepGoesOn := by
  refine ⟨fun i s => ?_, fun s hs => ⟨s.idle, step_nil hs, ?_, ?_, State.idle_no_index, State.idle_no_governor, ?_⟩⟩
  · obtain ⟨t, hexec, hkept⟩ := exec_kept i s
    exact ⟨t, hexec, (Kept.iff.1 hkept).1⟩
  · cases ht : s.timeRuns with
    | false => rw [State.idle_of_stopped ht]; rfl
    | true => exact (State.idle_running_frame ht).1
  · cases ht : s.timeRuns with
    | false => rw [State.idle_of_stopped ht]; rfl
    | true => exact (State.idle_running_frame ht).2.1
  · cases ht : s.timeRuns with
    | false => rw [State.idle_of_stopped ht]
    | true => exact (State.idle_running_frame ht).2.2

/-- Settles O1: the queue's front decides the branch of step. -/
theorem stepRunsFront : Obligations.StepRunsFront :=
  fun _ _ _ h => step_pending h

/-- Settles O5: the stores after reset list nothing, and every register file has its size. -/
theorem resetHoldsInvariants : Obligations.ResetHoldsInvariants := by
  refine ⟨⟨rfl, rfl⟩, ?_⟩
  simp [State.shaped, State.shape, State.reset, Port.reset, Fabric.reset, Board.reset, Cellar.reset]

end Sys2Proof.Machine
end

section
/-! SUPPORT. What reset leaves, and how a started command ends: at once, or held back (R416, R417). -/

namespace Sys2Proof.Machine

theorem getD_replicate_self {α : Type} (n i : Nat) (a : α) : (List.replicate n a).getD i a = a := by
  rw [List.getD_eq_getElem?_getD, List.getElem?_replicate]
  split <;> rfl

theorem State.reset_queue (q : Nat) : State.reset.queue q = Queue.reset := getD_replicate_self 16 q Queue.reset

/-- Settles O8: every register file after reset repeats one element. -/
theorem resetValues : Obligations.ResetValues := by
  refine ⟨fun q => ?_, rfl, fun n hn => List.eq_of_mem_replicate hn, fun k hk => ?_, rfl, fun k hk => ?_, fun k hk => ?_,
    fun h => rfl, rfl, rfl⟩
  · rw [State.reset_queue]
    exact ⟨rfl, rfl, rfl⟩
  · rw [List.eq_of_mem_replicate hk]; rfl
  · rw [List.eq_of_mem_replicate hk]; rfl
  · rw [List.eq_of_mem_replicate hk]; rfl

/-! ### Completions -/

/-- A pair whose completion cannot be written now holds it back, after those it holds already. -/
theorem complete_held {s : State} {q : Nat} (tag : Nat) (code : Code) (r0 r1 : W32)
    (h : (s.queue q).cqFull = true ∨ (s.queue q).held ≠ [] ∨ s.port.busMaster = false) :
    s.complete q tag code r0 r1 = s.modQueue q fun k => { k with held := k.held ++ [⟨code, tag, r0, r1⟩] } := by
  rw [State.complete]
  refine if_neg ?_
  rcases h with h | h | h <;> simp [h]

/-- A pair that does not drain is settled. -/
theorem settleDrain_of_not_draining {s : State} {q : Nat} (h : (s.queue q).qstate ≠ 3) : s.settleDrain q = s := by
  rw [State.settleDrain]
  exact if_neg (by simp [h])

/-- The state that a started command has left, its buffer channel free for the next. -/
def State.left (s : State) (q tag : Nat) (c : Started) : State :=
  { s with port := (s.port.leave q tag c.chan).armBuffers }

theorem left_frame (s : State) (q tag : Nat) (c : Started) :
    s.left q tag c = { s with port := s.portOf (s.left q tag c) } := by
  obtain ⟨st, en, h⟩ := armBuffers_frame (s.port.leave q tag c.chan)
  rw [State.left, h]
  rfl

@[simp] theorem left_queue (s : State) (q tag : Nat) (c : Started) (p : Nat) : (s.left q tag c).queue p = s.queue p := by
  rw [State.queue, State.left, armBuffers_queues]; rfl

@[simp] theorem left_busMaster (s : State) (q tag : Nat) (c : Started) :
    (s.left q tag c).port.busMaster = s.port.busMaster := by
  rw [left_frame]; rfl

theorem left_queues (s : State) (q tag : Nat) (c : Started) : (s.left q tag c).port.queues = s.port.queues :=
  armBuffers_queues _

/-- A command that has left is started no more. -/
theorem left_started? (s : State) (q tag : Nat) (c : Started) : (s.left q tag c).started? q tag = none := by
  have hfind := armBuffers_find (s.port.leave q tag c.chan) q tag
  have hnone : ((s.port.leave q tag c.chan).started.find? fun u => u.q == q && u.tag == tag) = none := by
    rw [List.find?_eq_none]
    intro u hu
    have := (List.mem_filter.1 hu).2
    simpa only [Bool.not_eq_true, Bool.not_eq_true'] using this
  rw [hnone, Option.isSome_none] at hfind
  exact Option.not_isSome_iff_eq_none.1 (by rw [State.started?, State.left, hfind]; decide)

/-- A started command that is not discarded leaves, and its completion is finished. -/
theorem finish_eq_left {s : State} {q tag : Nat} {c : Started} (code : Code) (r0 r1 : W32) (hc : s.started? q tag = some c)
    (hd : c.discard = false) : s.finish q tag code r0 r1 = ((s.left q tag c).complete q tag code r0 r1).settleDrain q := by
  simp only [State.finish, hc, hd, State.left, Bool.false_eq_true, if_false]

/-- NOP acts where its command is started and its buffer moves: it is no installer command. -/
theorem exec_nop {s : State} {q tag : Nat} {c : Started} (hc : s.started? q tag = some c) (hopc : c.opc = 0x00)
    (hbegun : c.begun = false) (hbuf : s.bufReady c = true) :
    exec (.nop q tag) s = .next (s.finish q tag cDone 0 0) := by
  have hturn : s.installerTurn c = true := by simp [State.installerTurn, Started.installer, hopc]
  have hexec : exec (.nop q tag) s = execNop q tag s := rfl
  simp [hexec, execNop, State.onStarted, hc, hopc, hbegun, hbuf, hturn]

theorem queue_modQueue_same {s : State} {q : Nat} (f : Queue → Queue) (h : q < s.port.queues.length) :
    (s.modQueue q f).queue q = f (s.queue q) := (queue_modQueue s q q f h).trans (if_pos rfl)

theorem queue_modQueue_other {s : State} {p q : Nat} (f : Queue → Queue) (h : p ≠ q) :
    (s.modQueue q f).queue p = s.queue p := modAt_getD_other _ _ _ _ _ h

/-- Settles O9: the command leaves, and its completion is written or, where it cannot be, held. -/
theorem completionEntries : Obligations.CompletionEntries := by
  refine ⟨fun s q tag c hc => ?_, fun s q tag c hc hopc hbegun hd hbuf hq hrun hfull => ?_⟩
  · obtain ⟨hstarted, hopc, hbegun, hd, hbuf, -, htakes⟩ := hc
    exact ⟨_, exec_nop hstarted hopc hbegun hbuf, finish_takes s q tag c cDone 0 0 hstarted hd htakes⟩
  · refine ⟨_, exec_nop hc hopc hbegun hbuf, ?_⟩
    have hheld := complete_held (s := s.left q tag c) (q := q) tag cDone 0 0 (by simpa using hfull)
    have hlen : q < (s.left q tag c).port.queues.length := by rw [left_queues]; exact hq
    rw [finish_eq_left cDone 0 0 hc hd, hheld, settleDrain_of_not_draining]
    · refine ⟨by rw [left_frame]; rfl, left_started? s q tag c, ?_, fun p hp => ?_⟩
      · rw [queue_modQueue_same _ hlen, left_queue]
      · rw [queue_modQueue_other _ hp, left_queue]
    · rw [queue_modQueue_same _ hlen, left_queue]
      simp [hrun]

end Sys2Proof.Machine
end

section
/-! SUPPORT. Queue pairs: their registers, doorbells and submissions (R411 to R417), and the resets of the control port (R408,
R409, R509). -/

namespace Sys2Proof.Machine

/-! ### The sizes of a well-shaped module -/

theorem State.shaped_iff {s : State} :
    s.shaped = true ↔ s.shape = [16, 7, 7, 4, 16, 4, 64, 64, 8, 4, 16, 64, 7, 128] := by
  rw [State.shaped, beq_iff_eq]

theorem State.shaped_queues {s : State} (h : s.shaped = true) : s.port.queues.length = 16 :=
  (List.cons.inj (State.shaped_iff.1 h)).1

/-! ### Queue pairs -/

/-- A pair whose QSTATE is not 0 is one of the module's pairs. -/
theorem queue_exists {s : State} {q : Nat} (h : (s.queue q).qstate ≠ 0) : q < s.port.queues.length := by
  refine Nat.lt_of_not_le fun hq => h ?_
  simp [State.queue, List.getElem?_eq_none hq, List.getD_eq_getElem?_getD]

/-- The end of L1 touches the queued wake alone. -/
theorem l1_frame (s : State) : s.l1 = { s with power := { s.power with queuedWake := s.l1.power.queuedWake } } := by
  unfold State.l1
  split <;> rfl

@[simp] theorem l1_port (s : State) : s.l1.port = s.port := by rw [l1_frame]
@[simp] theorem l1_out (s : State) : s.l1.out = s.out := by rw [l1_frame]
@[simp] theorem l1_queue (s : State) (q : Nat) : s.l1.queue q = s.queue q := by rw [l1_frame]; rfl

@[simp] theorem modQueue_out (s : State) (q : Nat) (f : Queue → Queue) : (s.modQueue q f).out = s.out := rfl

/-- Setting a class of attention leaves it pending. -/
theorem attend_pending (p : Port) {c : Nat} (h : c < 8) (code : Code) : (p.attend c code).attnPending.getLsbD c = true := by
  simp [Port.attend, h]

theorem attention_pending (s : State) {c : Nat} (h : c < 8) (code : Code) (a b : W32) :
    (s.attention c code a b).port.attnPending.getLsbD c = true := attend_pending _ h _

@[simp] theorem attention_queue (s : State) (c q : Nat) (code : Code) (a b : W32) :
    (s.attention c code a b).queue q = s.queue q := rfl

/-- A halted pair: its state and cause, and the class of faults that need software pending; no other pair changes. -/
theorem haltPair_spec {s : State} {q : Nat} (cause : Nat) (h : q < s.port.queues.length) :
    (s.haltPair q cause).queue q = { s.queue q with qstate := 2, haltCause := cause } ∧
    (s.haltPair q cause).port.attnPending.getLsbD 6 = true ∧
    (s.haltPair q cause).port.started = s.port.started ∧ (s.haltPair q cause).out = s.out ∧
    ∀ p, p ≠ q → (s.haltPair q cause).queue p = s.queue p :=
  ⟨queue_modQueue_same _ h, attention_pending _ (by decide) _ _ _, rfl, rfl, fun _ hp => queue_modQueue_other _ hp⟩

/-! ### Enabling and disabling -/

theorem exec_queueEnable {s : State} {q : Nat} {v : W32} (hbar : s.barOpen = true) (hv : v.getLsbD 8 = true) :
    exec (.queueEnable q v) s = .next (s.l1.enableQueue q v) := by
  have : exec (.queueEnable q v) s = execQueueEnable q v s := rfl
  simp only [this, execQueueEnable, hbar, hv, Bool.and_self, if_true]

theorem exec_queueDisable {s : State} {q : Nat} {v : W32} (hbar : s.barOpen = true) (hv : v.getLsbD 8 = false) :
    exec (.queueDisable q v) s =
      .next ((s.l1.modQueue q fun k => { k with sqLog := bits v 3 0, cqLog := bits v 7 4 }).disableQueue q) := by
  have : exec (.queueDisable q v) s = execQueueDisable q v s := rfl
  simp only [this, execQueueDisable, hbar, hv, Bool.not_false, Bool.and_self, if_true]

/-- A pair's registers as ENABLE makes them with ring sizes sl and cl (R412). -/
def Queue.enabled (k : Queue) (sl cl : Nat) : Queue :=
  { k with sqLog := sl, cqLog := cl, enable := true, qstate := 1, haltCause := 0, sqHead := 0, cqTail := 0, sqTail := 0,
           cqHead := 0, phase := true, lSqBase := k.sqBase, lCqBase := k.cqBase, lSqLog := sl, lCqLog := cl, held := [],
           challenge := none }

theorem enableQueue_good {s : State} {q : Nat} {v : W32} (hoff : (s.queue q).enable = false) (hstate : (s.queue q).qstate = 0)
    (hsl : within 4 12 (bits v 3 0) = true) (hcl : within 4 12 (bits v 7 4) = true)
    (hsq : (s.queue q).sqBase &&& 63#64 = 0) (hcq : (s.queue q).cqBase &&& 63#64 = 0) :
    s.enableQueue q v = s.modQueue q fun k => k.enabled (bits v 3 0) (bits v 7 4) := by
  simp only [State.enableQueue, hoff, hstate, hsl, hcl, hsq, hcq]
  rfl

/-- What a disable does first: the started commands of the pair are discarded, and the pair drains. -/
def State.draining (s : State) (q : Nat) (v : W32) : State :=
  { s with port := { s.port with
      started := s.port.started.map fun t => if t.q == q then { t with discard := true } else t
      queues := modAt s.port.queues q fun k =>
        { k with sqLog := bits v 3 0, cqLog := bits v 7 4, enable := false, qstate := 3, held := [] } } }

theorem modAt_modAt {α : Type} (l : List α) (i : Nat) (f g : α → α) : modAt (modAt l i f) i g = modAt l i fun a => g (f a) := by
  induction l generalizing i with
  | nil => rfl
  | cons a t ih => cases i <;> simp [modAt, ih]

theorem disableQueue_running {s : State} {q : Nat} (v : W32) (h : (s.queue q).qstate = 1) :
    (s.modQueue q fun k => { k with sqLog := bits v 3 0, cqLog := bits v 7 4 }).disableQueue q =
      (s.draining q v).settleDrain q := by
  have hq := queue_exists (s := s) (q := q) (by omega)
  have hstate : ((s.modQueue q fun k => { k with sqLog := bits v 3 0, cqLog := bits v 7 4 }).queue q).qstate ≠ 0 := by
    rw [queue_modQueue_same _ hq]; simp [h]
  unfold State.disableQueue
  refine (if_neg hstate).trans ?_
  simp only [State.modQueue, Port.modQueue, modAt_modAt, State.draining]

theorem draining_queue {s : State} {q : Nat} (v : W32) (h : q < s.port.queues.length) :
    (s.draining q v).queue q =
      { s.queue q with sqLog := bits v 3 0, cqLog := bits v 7 4, enable := false, qstate := 3, held := [] } :=
  modAt_getD_same _ _ _ _ h

theorem draining_queue_other {s : State} {p q : Nat} (v : W32) (h : p ≠ q) : (s.draining q v).queue p = s.queue p :=
  modAt_getD_other _ _ _ _ _ h

theorem draining_any (s : State) (q : Nat) (v : W32) :
    (s.draining q v).port.started.any (fun c => c.q == q) = s.port.started.any fun c => c.q == q := by
  simp only [State.draining, List.any_map]
  congr 1
  funext c
  simp only [Function.comp]
  split <;> rfl

theorem draining_discards {s : State} {q : Nat} {v : W32} {c : Started} (hc : c ∈ (s.draining q v).port.started) (hq : c.q = q) :
    c.discard = true := by
  obtain ⟨u, -, rfl⟩ := List.mem_map.1 hc
  by_cases hu : (u.q == q) = true
  · rw [if_pos hu]
  · rw [if_neg hu] at hq
    exact absurd (beq_iff_eq.2 hq) hu

/-- The end of a session clears ROLE, and KEY where a role was held; no other pair changes. -/
theorem endSession_queue {s : State} {q : Nat} (h : q < s.port.queues.length) :
    (s.endSession q).queue q =
      { s.queue q with role := 0, key := if (s.queue q).role = 0 then (s.queue q).key else 0 } := by
  unfold State.endSession
  dsimp only
  split
  next hr => rw [← hr]
  next hr => exact (queue_modQueue_same _ h)

theorem endSession_queue_other {s : State} {p q : Nat} (h : p ≠ q) : (s.endSession q).queue p = s.queue p := by
  unfold State.endSession
  dsimp only
  split
  · rfl
  · exact queue_modQueue_other _ h

/-- A session that ends changes its pair and the errata log. -/
theorem endSession_frame (s : State) (q : Nat) : s.endSession q =
    { s with port := { s.port with queues := (s.endSession q).port.queues }, errata := (s.endSession q).errata } := by
  unfold State.endSession
  dsimp only
  split <;> rfl

theorem endSession_queues_length (s : State) (q : Nat) :
    (s.endSession q).port.queues.length = s.port.queues.length := by
  unfold State.endSession
  dsimp only
  split
  · rfl
  · exact modAt_length _ _ _

/-- A draining pair without started commands becomes disabled. -/
theorem settleDrain_drained {s : State} {q : Nat} (h3 : (s.queue q).qstate = 3)
    (hnone : s.port.started.any (fun c => c.q == q) = false) :
    s.settleDrain q = (s.endSession q).modQueue q fun k => { k with qstate := 0, challenge := none, held := [] } := by
  rw [State.settleDrain]
  exact if_pos (by simp [h3, hnone])

theorem settleDrain_busy {s : State} {q : Nat} (h : s.port.started.any (fun c => c.q == q) = true) : s.settleDrain q = s := by
  rw [State.settleDrain]
  exact if_neg (by simp [h])

theorem queueEnable_runs {s : State} {q : Nat} {v : W32} (hbar : s.barOpen = true) (hq : q < s.port.queues.length)
    (hv : v.getLsbD 8 = true) (hoff : (s.queue q).enable = false) (hstate : (s.queue q).qstate = 0)
    (hsl : within 4 12 (bits v 3 0) = true) (hcl : within 4 12 (bits v 7 4) = true)
    (hsq : (s.queue q).sqBase &&& 63#64 = 0) (hcq : (s.queue q).cqBase &&& 63#64 = 0) :
    ∃ t, exec (.queueEnable q v) s = .next t ∧ t.queue q = (s.queue q).enabled (bits v 3 0) (bits v 7 4) ∧
      (∀ p, p ≠ q → t.queue p = s.queue p) ∧ t.out = s.out := by
  refine ⟨_, exec_queueEnable hbar hv, ?_⟩
  rw [enableQueue_good (by simpa using hoff) (by simpa using hstate) hsl hcl (by simpa using hsq) (by simpa using hcq)]
  refine ⟨?_, fun p hp => ?_, by simp⟩
  · rw [queue_modQueue_same _ (by simpa using hq), l1_queue]
  · rw [queue_modQueue_other _ hp, l1_queue]

theorem queueDisable_idle {s : State} {q : Nat} {v : W32} (hbar : s.barOpen = true) (hv : v.getLsbD 8 = false)
    (hrun : (s.queue q).qstate = 1) (hnone : s.port.started.any (fun c => c.q == q) = false) :
    ∃ t, exec (.queueDisable q v) s = .next t ∧ (t.queue q).qstate = 0 ∧ (t.queue q).role = 0 ∧
      (t.queue q).enable = false ∧ (t.queue q).held = [] ∧ (∀ p, p ≠ q → t.queue p = s.queue p) ∧ t.out = s.out := by
  have hq : q < s.l1.port.queues.length := by simpa using queue_exists (s := s) (q := q) (by omega)
  have hd : q < (s.l1.draining q v).port.queues.length := by simpa [State.draining] using hq
  have he : q < ((s.l1.draining q v).endSession q).port.queues.length := by rwa [endSession_queues_length]
  refine ⟨_, exec_queueDisable hbar hv, ?_⟩
  rw [disableQueue_running v (by simpa using hrun), settleDrain_drained (by rw [draining_queue v hq])
    (by simpa [draining_any] using hnone), queue_modQueue_same _ he, endSession_queue hd, draining_queue v hq]
  refine ⟨rfl, rfl, rfl, rfl, fun p hp => ?_, ?_⟩
  · rw [queue_modQueue_other _ hp, endSession_queue_other hp, draining_queue_other v hp, l1_queue]
  · rw [modQueue_out, endSession_frame]
    exact l1_out s

theorem queueDisable_busy {s : State} {q : Nat} {v : W32} (hbar : s.barOpen = true) (hv : v.getLsbD 8 = false)
    (hrun : (s.queue q).qstate = 1) (hany : s.port.started.any (fun c => c.q == q) = true) :
    ∃ t, exec (.queueDisable q v) s = .next t ∧ (t.queue q).qstate = 3 ∧ (t.queue q).role = (s.queue q).role ∧
      (∀ c ∈ t.port.started, c.q = q → c.discard = true) ∧ (∀ p, p ≠ q → t.queue p = s.queue p) ∧ t.out = s.out := by
  have hq : q < s.l1.port.queues.length := by simpa using queue_exists (s := s) (q := q) (by omega)
  refine ⟨_, exec_queueDisable hbar hv, ?_⟩
  rw [disableQueue_running v (by simpa using hrun), settleDrain_busy (by simpa [draining_any] using hany),
    draining_queue v hq]
  refine ⟨rfl, by simp, fun c hc => draining_discards hc, fun p hp => ?_, l1_out s⟩
  rw [draining_queue_other v hp, l1_queue]

/-! ### Doorbells -/

/-- A write of SQ_TAIL where the pair runs, as it falls out of its range or not. -/
theorem sqTail_running {s : State} {q : Nat} (v : W32) (hbar : s.barOpen = true) (hrun : (s.queue q).qstate = 1) :
    ∃ w : Bool, exec (.sqTail q v) s = .next (
      if bits v 15 0 < ringEntries (s.queue q).lSqLog then
        { s with power := { s.power with queuedWake := w } }.modQueue q fun k => { k with sqTail := bits v 15 0 }
      else { s with power := { s.power with queuedWake := w } }.haltPair q 1) := by
  have hexec : exec (.sqTail q v) s = execSqTail q v s := rfl
  rw [hexec, execSqTail]
  simp only [hbar, hrun, beq_self_eq_true, Bool.and_self, if_true]
  by_cases hw : (s.power.state == .rest || s.power.entry.isSome) = true
  · exact ⟨true, by rw [if_pos hw]⟩
  · exact ⟨s.power.queuedWake, by rw [if_neg hw]⟩

/-- A write of CQ_HEAD where the pair runs and holds no completion back, as it falls out of its range or not. -/
theorem cqHead_running {s : State} {q : Nat} (v : W32) (hbar : s.barOpen = true) (hrun : (s.queue q).qstate = 1) :
    exec (.cqHead q v) s = .next (
      if bits v 15 0 < ringEntries (s.queue q).lCqLog then
        State.drainHeld (s.queue q).held.length q (s.l1.modQueue q fun k => { k with cqHead := bits v 15 0 })
      else s.l1.haltPair q 1) := by
  have hexec : exec (.cqHead q v) s = execCqHead q v s := rfl
  rw [hexec, execCqHead]
  simp only [hbar, hrun, beq_self_eq_true, Bool.and_self, if_true]

/-- Settles O12: each write is taken apart by what the pair's registers and the value are. -/
theorem queuesAndDoorbells : Obligations.QueuesAndDoorbells := by
  refine ⟨fun s q v hbar hs hq => ?_, fun s q v hbar hs hq hrun => ?_⟩
  · have hlen : q < s.port.queues.length := by rw [State.shaped_queues hs]; exact hq
    refine ⟨fun hv hoff hstate hsl hcl hsq hcq => ?_, fun hv hrun hnone => queueDisable_idle hbar hv hrun hnone,
      fun hv hrun hany => queueDisable_busy hbar hv hrun hany⟩
    obtain ⟨t, hexec, hqueue, hpairs, hout⟩ := queueEnable_runs hbar hlen hv hoff hstate hsl hcl hsq hcq
    refine ⟨t, hexec, ?_⟩
    rw [hqueue]
    exact ⟨rfl, rfl, rfl, rfl, rfl, rfl, rfl, rfl, rfl, hpairs, hout⟩
  · have hlen : q < s.port.queues.length := by rw [State.shaped_queues hs]; exact hq
    obtain ⟨w, htail⟩ := sqTail_running v hbar hrun
    refine ⟨fun hlt => ?_, fun hge => ?_, fun hlt hheld => ?_, fun hge => ?_⟩
    · rw [if_pos hlt] at htail
      exact ⟨_, htail, queue_modQueue_same _ hlen, rfl, fun p hp => queue_modQueue_other _ hp⟩
    · rw [if_neg (Nat.not_lt.2 hge)] at htail
      obtain ⟨hqueue, hattn, -⟩ := haltPair_spec (s := { s with power := { s.power with queuedWake := w } }) 1 hlen
      exact ⟨_, htail, hqueue, hattn⟩
    · have hhead := cqHead_running v hbar hrun
      rw [if_pos hlt, hheld] at hhead
      refine ⟨_, hhead, ?_, ?_, fun p hp => ?_⟩
      · exact (queue_modQueue_same _ (by simpa using hlen)).trans (by rw [l1_queue])
      · exact (congrArg (State.modQueue · q _) (l1_frame s)).trans (by simp only [State.modQueue, l1_port]; rfl)
      · exact (queue_modQueue_other _ hp).trans (l1_queue s p)
    · have hhead := cqHead_running v hbar hrun
      rw [if_neg (Nat.not_lt.2 hge)] at hhead
      obtain ⟨hqueue, hattn, -⟩ := haltPair_spec (s := s.l1) (q := q) 1 (by simpa using hlen)
      exact ⟨_, hhead, hqueue.trans (by rw [l1_queue]), hattn⟩

end Sys2Proof.Machine
end

section
/-! SUPPORT. The submission fetch (R412 to R417), and the resets and configuration writes of the control port (R408, R409,
R509). -/

namespace Sys2Proof.Machine

/-! ### Buffers armed -/

/-- A buffer armed changes of the started commands their channels alone. -/
theorem armBuffer_started (p : Port) (t : Started) :
    ∃ g : Started → Option Nat, (armBuffer p t).started = p.started.map fun u => { u with chan := g u } := by
  have hsame : p.started = p.started.map fun u => { u with chan := u.chan } := (List.map_id _).symm
  unfold armBuffer
  split
  · exact ⟨_, hsame⟩
  · split
    · exact ⟨_, hsame⟩
    next c _ =>
      refine ⟨fun u => if u.q == t.q && u.tag == t.tag then some c else u.chan, List.map_congr_left fun u _ => ?_⟩
      by_cases hu : (u.q == t.q && u.tag == t.tag) = true <;> simp only [hu, if_true, if_false, Bool.false_eq_true]

theorem foldl_armBuffer_started (l : List Started) (p : Port) :
    ∃ g : Started → Option Nat, (l.foldl armBuffer p).started = p.started.map fun u => { u with chan := g u } := by
  induction l generalizing p with
  | nil => exact ⟨fun u => u.chan, (List.map_id _).symm⟩
  | cons t l ih =>
    obtain ⟨g, hg⟩ := armBuffer_started p t
    obtain ⟨g', hg'⟩ := ih (armBuffer p t)
    exact ⟨fun u => g' { u with chan := g u }, by rw [List.foldl_cons, hg', hg, List.map_map]; rfl⟩

theorem armBuffers_started (p : Port) :
    ∃ g : Started → Option Nat, p.armBuffers.started = p.started.map fun u => { u with chan := g u } :=
  foldl_armBuffer_started _ _

/-! ### The fetch -/

/-- The state in which the entry of pair q is judged: the round-robin and SQ_HEAD have moved on. -/
def State.entryTaken (s : State) (q : Nat) : State :=
  ({ s with port := { s.port with rrNext := (q + 1) % 16 } } : State).modQueue q fun k =>
    { k with sqHead := (k.sqHead + 1) % ringEntries k.lSqLog }

theorem nextPair_running {s : State} {q : Nat} (h : s.nextPair = some q) : (s.queue q).qstate = 1 := by
  have hfetch : s.fetchable q = true := List.find?_some (p := s.fetchable) h
  simp only [State.fetchable, Bool.and_eq_true, beq_iff_eq] at hfetch
  exact hfetch.1.1.1

theorem nextPair_exists {s : State} {q : Nat} (h : s.nextPair = some q) : q < s.port.queues.length :=
  queue_exists (by rw [nextPair_running h]; decide)

theorem exec_submissionFetch_entry {s : State} {q : Nat} {ws : List W32} (hf : s.fetches = true) (hn : s.nextPair = some q)
    (hord : (wd ws 0).getLsbD 8 = false ∨ s.port.started.any (fun c => c.q == q) = false) :
    exec (.submissionFetch (.entry ws)) s = .next ((s.entryTaken q).startEntry q ws) := by
  have hexec : exec (.submissionFetch (.entry ws)) s = .next (s.fetch (.entry ws)) := rfl
  have hfree : ((wd ws 0).getLsbD 8 && s.port.started.any fun c => c.q == q) = false := by
    rcases hord with h | h <;> simp only [h, Bool.false_and, Bool.and_false]
  rw [hexec, State.fetch]
  simp only [hf, if_true, hn, hfree, Bool.false_eq_true, if_false]
  rfl

theorem exec_submissionFetch_error {s : State} {q : Nat} (hf : s.fetches = true) (hn : s.nextPair = some q) :
    exec (.submissionFetch .busError) s =
      .next (({ s with port := { s.port with rrNext := (q + 1) % 16 } } : State).haltPair q 2) ∧
    exec (.submissionFetch .completionError) s =
      .next (({ s with port := { s.port with rrNext := (q + 1) % 16 } } : State).haltPair q 3) := by
  have hexec (got : HostFetch) : exec (.submissionFetch got) s = .next (s.fetch got) := rfl
  constructor <;> simp only [hexec, State.fetch, hf, if_true, hn]

theorem entryTaken_queue {s : State} {q : Nat} (h : q < s.port.queues.length) :
    (s.entryTaken q).queue q = { s.queue q with sqHead := ((s.queue q).sqHead + 1) % ringEntries (s.queue q).lSqLog } :=
  queue_modQueue_same (s := { s with port := { s.port with rrNext := (q + 1) % 16 } }) _ h

theorem entryTaken_takesEntry {s : State} {q : Nat} (h : s.takesEntry q = true) : (s.entryTaken q).takesEntry q = true := by
  have hq : q < s.port.queues.length := by
    simp only [State.takesEntry, Bool.and_eq_true, decide_eq_true_eq] at h
    exact h.1.1.1.1
  have hlen : (s.entryTaken q).port.queues.length = s.port.queues.length := modAt_length _ _ _
  rw [State.takesEntry, hlen, entryTaken_queue hq]
  exact h

/-- A submission entry as a started command of pair q under a role, no buffer channel armed. -/
def entryStarted (q role : Nat) (ws : List W32) : Started :=
  { q := q, tag := bits (wd ws 0) 31 16, opc := bits (wd ws 0) 7 0, args := (ws.drop 1).take 11
    bufAddr := wd ws 13 ++ wd ws 12
    bufBytes := if bufLeast (bits (wd ws 0) 7 0) ((ws.drop 1).take 11) = 0 then 0 else (wd ws 14).toNat
    role := role, chan := none, begun := false, discard := false }

/-- A started command entered, and its buffer armed where a channel is free. -/
def State.enter (s : State) (c : Started) : State :=
  { s with port := ({ s.port with started := s.port.started ++ [c] }).armBuffers }

/-- An entered command is started as it was entered but for its channel; the pairs and what left the module stay. -/
theorem enter_spec (s : State) (c : Started) :
    (s.enter c).out = s.out ∧ (∀ p, (s.enter c).queue p = s.queue p) ∧ (s.enter c).port.rrNext = s.port.rrNext ∧
    (s.enter c).port.started.length = s.port.started.length + 1 ∧
    ∃ ch, { c with chan := ch } ∈ (s.enter c).port.started := by
  obtain ⟨g, hg⟩ := armBuffers_started { s.port with started := s.port.started ++ [c] }
  obtain ⟨st, en, hframe⟩ := armBuffers_frame { s.port with started := s.port.started ++ [c] }
  refine ⟨rfl, fun p => ?_, ?_, ?_, g c, ?_⟩
  · rw [State.queue, State.enter, armBuffers_queues]; rfl
  · rw [State.enter, hframe]
  · rw [State.enter, hg]; simp
  · rw [State.enter, hg]; simp

/-- An entry of a permitted opcode in a good form is entered as a started command, recorded first for an installer's or a
maker's session. -/
theorem startEntry_permitted {s : State} {q : Nat} {ws : List W32} (hopc : bits (wd ws 0) 7 0 ∈ opcodes)
    (hrole : roleMay (s.queue q).role (bits (wd ws 0) 7 0) = true)
    (hconfig : s.configMay (s.queue q).role (bits (wd ws 0) 7 0) ((ws.drop 1).take 11) = true)
    (hform : entryForm ws (bits (s.sys 1) 16 0) = cDone) (hpower : bits (wd ws 0) 7 0 ≠ 0x41) :
    ∃ er, s.startEntry q ws = ({ s with errata := er } : State).enter (entryStarted q (s.queue q).role ws) := by
  have hopc' : opcodes.contains (bits (wd ws 0) 7 0) = true := by simpa using hopc
  unfold State.startEntry
  simp only [hopc', hrole, hconfig, hform, hpower, Bool.not_true, Bool.or_self, Bool.false_eq_true, if_false, bne_self_eq_false,
    decide_false, Bool.false_and]
  split
  · exact ⟨_, rfl⟩
  · exact ⟨s.errata, rfl⟩

/-- Settles O10: the entry passes every check of startEntry and is entered. -/
theorem submissionStarts : Obligations.SubmissionStarts := by
  intro s q ws hf hn _ hord hopc hrole hconfig hform hpower
  have hqueue := entryTaken_queue (nextPair_exists hn)
  have hrole' : ((s.entryTaken q).queue q).role = (s.queue q).role := by rw [hqueue]
  obtain ⟨er, hstart⟩ := startEntry_permitted (s := s.entryTaken q) (q := q) hopc (by rwa [hrole']) (by rwa [hrole'])
    hform hpower
  obtain ⟨hout, hqueues, hnext, hlength, ch, hmem⟩ := enter_spec ({ s.entryTaken q with errata := er } : State)
    (entryStarted q ((s.entryTaken q).queue q).role ws)
  refine ⟨_, (exec_submissionFetch_entry hf hn hord).trans (by rw [hstart]), hout, (hqueues q).trans hqueue, hnext, hlength,
    _, hmem, rfl, rfl, rfl, rfl, hrole', rfl, rfl⟩

/-- The code that refuses a submission entry, DONE for one that is not refused (R418, R419, R456). -/
def State.entryRefusal (s : State) (q : Nat) (ws : List W32) : Code :=
  if bits (wd ws 0) 7 0 ∉ opcodes then cAlign
  else if roleMay (s.queue q).role (bits (wd ws 0) 7 0) = false ∨
    s.configMay (s.queue q).role (bits (wd ws 0) 7 0) ((ws.drop 1).take 11) = false then cRole
  else entryForm ws (bits (s.sys 1) 16 0)

/-- A refused entry completes at once with the code of its refusal. -/
theorem startEntry_refused {s : State} {q : Nat} {ws : List W32} (h : s.entryRefusal q ws ≠ cDone) :
    s.startEntry q ws = s.complete q (bits (wd ws 0) 31 16) (s.entryRefusal q ws) 0 0 := by
  unfold State.startEntry State.entryRefusal
  by_cases hopc : bits (wd ws 0) 7 0 ∈ opcodes
  · have hopc' : opcodes.contains (bits (wd ws 0) 7 0) = true := by simpa using hopc
    simp only [hopc, hopc', not_true_eq_false, Bool.not_true, Bool.false_eq_true, if_false]
    by_cases hrole : roleMay (s.queue q).role (bits (wd ws 0) 7 0) = false ∨
        s.configMay (s.queue q).role (bits (wd ws 0) 7 0) ((ws.drop 1).take 11) = false
    · have hrole' : (!roleMay (s.queue q).role (bits (wd ws 0) 7 0) ||
          !s.configMay (s.queue q).role (bits (wd ws 0) 7 0) ((ws.drop 1).take 11)) = true := by simpa using hrole
      simp only [hrole, hrole', if_true]
    · have hrole' : (!roleMay (s.queue q).role (bits (wd ws 0) 7 0) ||
          !s.configMay (s.queue q).role (bits (wd ws 0) 7 0) ((ws.drop 1).take 11)) = false := by simpa using hrole
      have hform : entryForm ws (bits (s.sys 1) 16 0) ≠ cDone := by
        rwa [State.entryRefusal, if_neg fun hnot => hnot hopc, if_neg hrole] at h
      simp only [hrole, hrole', if_false, Bool.false_eq_true, bne_iff_ne, ne_eq, hform, not_false_eq_true, if_true]
  · have hopc' : opcodes.contains (bits (wd ws 0) 7 0) = false := by simpa using hopc
    simp only [hopc, hopc', not_false_eq_true, Bool.not_false, if_true]

/-- Settles O11: a refused entry is completed, and a fetch error halts its pair. -/
theorem submissionsThatFail : Obligations.SubmissionsThatFail := by
  refine ⟨fun s q ws code hf hn htakes hord hcode hne => ?_, fun s q hf hn _ x hx => ?_⟩
  · have hqueue := entryTaken_queue (nextPair_exists hn)
    have hrefusal : (s.entryTaken q).entryRefusal q ws = code := by
      rw [hcode, State.entryRefusal, hqueue]; rfl
    have hexec := exec_submissionFetch_entry hf hn hord
    rw [startEntry_refused (by rwa [hrefusal]), hrefusal, complete_takes _ _ _ _ _ _ (entryTaken_takesEntry htakes)] at hexec
    refine ⟨_, hexec, rfl, ?_, rfl⟩
    rw [← hqueue]
    rfl
  · obtain ⟨hbus, hcompletion⟩ := exec_submissionFetch_error hf hn
    have hlen : q < ({ s with port := { s.port with rrNext := (q + 1) % 16 } } : State).port.queues.length :=
      nextPair_exists (s := s) hn
    have hspec (cause : Nat) := haltPair_spec cause hlen
    simp only [List.mem_cons, List.not_mem_nil, or_false] at hx
    rcases hx with rfl | rfl
    · exact ⟨_, hbus, hspec 2⟩
    · exact ⟨_, hcompletion, hspec 3⟩

/-! ### Resets of the control port -/

/-- From s to t the control port has ended commands: what may have changed are its pairs, its started commands, its engines,
the errata log and what left the module, and commands that were all discarded still are. -/
structure PortEnds (s t : State) : Prop where
  frame : t = { s with out := t.out, errata := t.errata, port := s.portOf t }
  discards : (∀ c ∈ s.port.started, c.discard = true) → ∀ c ∈ t.port.started, c.discard = true

theorem PortEnds.refl (s : State) : PortEnds s s := ⟨rfl, id⟩

theorem PortEnds.trans {s t u : State} (h : PortEnds s t) (k : PortEnds t u) : PortEnds s u :=
  ⟨by rw [k.frame, h.frame]; rfl, fun hs => k.discards (h.discards hs)⟩

theorem PortEnds.foldl {α : Type} (g : State → α → State) (h : ∀ s x, PortEnds s (g s x)) (l : List α) (s : State) :
    PortEnds s (l.foldl g s) := by
  induction l generalizing s with
  | nil => exact .refl s
  | cons a l ih => exact (h s a).trans (ih _)

theorem modQueue_portEnds (s : State) (q : Nat) (f : Queue → Queue) : PortEnds s (s.modQueue q f) := ⟨rfl, id⟩

theorem complete_portEnds (s : State) (q tag : Nat) (code : Code) (r0 r1 : W32) : PortEnds s (s.complete q tag code r0 r1) := by
  unfold State.complete
  dsimp only
  split <;> exact ⟨rfl, id⟩

theorem endSession_portEnds (s : State) (q : Nat) : PortEnds s (s.endSession q) := by
  unfold State.endSession
  dsimp only
  split
  · exact .refl s
  · exact ⟨rfl, id⟩

theorem settleDrain_portEnds (s : State) (q : Nat) : PortEnds s (s.settleDrain q) := by
  unfold State.settleDrain
  dsimp only
  split
  · exact (endSession_portEnds s q).trans (modQueue_portEnds _ _ _)
  · exact .refl s

theorem left_portEnds (s : State) (q tag : Nat) (c : Started) : PortEnds s (s.left q tag c) := by
  refine ⟨left_frame s q tag c, fun hs u hu => ?_⟩
  obtain ⟨g, hg⟩ := armBuffers_started (s.port.leave q tag c.chan)
  obtain ⟨v, hv, rfl⟩ := List.mem_map.1 (hg ▸ hu)
  exact hs v (List.mem_filter.1 hv).1

theorem finish_portEnds (s : State) (q tag : Nat) (code : Code) (r0 r1 : W32) : PortEnds s (s.finish q tag code r0 r1) := by
  unfold State.finish
  split
  · exact .refl s
  next c _ =>
    refine (left_portEnds s q tag c).trans ?_
    dsimp only
    split
    · exact settleDrain_portEnds _ _
    · exact (complete_portEnds _ _ _ _ _ _).trans (settleDrain_portEnds _ _)

theorem abortChannel_portEnds (s : State) (e c : Nat) (ch : Channel) : PortEnds s (s.abortChannel e c ch) := by
  unfold State.abortChannel
  dsimp only
  refine PortEnds.trans ?_ (finish_portEnds _ _ _ _ _ _)
  exact ⟨rfl, id⟩

/-- Every started command discarded. -/
def State.discardAll (s : State) : State :=
  { s with port := { s.port with started := s.port.started.map fun t => { t with discard := true } } }

/-- A reset up to the registers: hosted channels aborted, sessions ended. -/
def State.hostEnded (s : State) : State :=
  (List.range 16).foldl (fun s q => s.endSession q)
    (s.discardAll.hostedBusy.foldl (fun s x => s.abortChannel x.1 x.2.1 x.2.2) s.discardAll)

/-- The registers that a reset writes. -/
def State.portCleared (s : State) : State :=
  { s with port := { s.port with
      queues := s.port.queues.map fun _ => Queue.reset, rrNext := 0, timeHi := 0, busMaster := false, memSpace := false
      d3hot := false } }

theorem portReset_eq (s : State) : s.portReset = s.hostEnded.portCleared := by
  unfold State.portReset State.portCleared State.hostEnded State.discardAll
  rfl

theorem hostEnded_portEnds (s : State) : PortEnds s.discardAll s.hostEnded := by
  have hchannels := PortEnds.foldl (fun (s : State) (x : Nat × Nat × Channel) => s.abortChannel x.1 x.2.1 x.2.2)
    (fun s x => abortChannel_portEnds s x.1 x.2.1 x.2.2) s.discardAll.hostedBusy s.discardAll
  unfold State.hostEnded
  exact hchannels.trans (PortEnds.foldl (fun s q => s.endSession q) endSession_portEnds _ _)

theorem discardAll_discards (s : State) : ∀ c ∈ s.discardAll.port.started, c.discard = true := by
  intro c hc
  obtain ⟨v, -, rfl⟩ := List.mem_map.1 hc
  rfl

theorem portCleared_queue (s : State) (q : Nat) : s.portCleared.queue q = Queue.reset := by
  simp only [State.queue, State.portCleared, List.getD_eq_getElem?_getD, List.getElem?_map]
  cases s.port.queues[q]? <;> rfl

/-- The registers written, once the commands and sessions have ended. -/
theorem portCleared_spec {s u : State} (h : PortEnds s.discardAll u) :
    (∀ q, u.portCleared.queue q = Queue.reset) ∧ (∀ c ∈ u.portCleared.port.started, c.discard = true) ∧
    u.portCleared = { s with
      out := u.portCleared.out, errata := u.portCleared.errata
      port := { s.portOf u.portCleared with
        rrNext := 0, timeHi := 0, busMaster := false, memSpace := false, d3hot := false } } := by
  refine ⟨portCleared_queue u, h.discards (discardAll_discards s), ?_⟩
  rw [h.frame]
  rfl

/-- What a reset of the control port leaves: every pair as after power-on, every started command discarded, ATTN_PENDING, and
all that is not the control port's. -/
theorem portReset_spec (s : State) :
    (∀ q, s.portReset.queue q = Queue.reset) ∧ (∀ c ∈ s.portReset.port.started, c.discard = true) ∧
    s.portReset = { s with
      out := s.portReset.out, errata := s.portReset.errata
      port := { s.portOf s.portReset with
        rrNext := 0, timeHi := 0, busMaster := false, memSpace := false, d3hot := false } } := by
  rw [portReset_eq]
  exact portCleared_spec (hostEnded_portEnds s)

/-- The state that a PCI Express reset leaves, the link up or down. -/
def State.resetTo (s : State) (up : Bool) : State := { s.portReset with port := { s.portReset.port with linkUp := up } }

theorem resetTo_linkUp (s : State) : s.resetTo s.port.linkUp = s.portReset := by
  obtain ⟨-, -, hframe⟩ := portReset_spec s
  unfold State.resetTo
  generalize s.portReset = u at hframe ⊢
  rw [hframe]
  rfl

theorem resetTo_spec (s : State) (up : Bool) :
    (∀ q, q < 16 → ((s.resetTo up).queue q).qstate = 0 ∧ ((s.resetTo up).queue q).role = 0 ∧
      ((s.resetTo up).queue q).enable = false) ∧
    (s.resetTo up).port.busMaster = false ∧ (s.resetTo up).port.memSpace = false ∧
    (s.resetTo up).port.attnPending = s.port.attnPending ∧ (∀ c ∈ (s.resetTo up).port.started, c.discard = true) ∧
    (s.resetTo up).port.linkUp = up ∧ (s.resetTo up).coreMem = s.coreMem ∧ (s.resetTo up).sectMem = s.sectMem ∧
    (s.resetTo up).caskRaw = s.caskRaw ∧ (s.resetTo up).cmds = s.cmds ∧ (s.resetTo up).streams = s.streams := by
  obtain ⟨hqueues, hdiscards, hframe⟩ := portReset_spec s
  unfold State.resetTo
  generalize s.portReset = u at hqueues hdiscards hframe ⊢
  refine ⟨fun q _ => ?_, ?_⟩
  · have hq : ({ u with port := { u.port with linkUp := up } } : State).queue q = Queue.reset := hqueues q
    rw [hq]
    exact ⟨rfl, rfl, rfl⟩
  · rw [hframe]
    exact ⟨rfl, rfl, rfl, by rw [hframe] at hdiscards; exact hdiscards, rfl, rfl, rfl, rfl, rfl, rfl⟩

theorem exec_conventionalReset (s : State) : exec .conventionalReset s = .next (s.resetTo false) := by
  unfold State.resetTo
  rfl

theorem exec_hotReset {s : State} (h : s.port.linkUp = true) : exec .hotReset s = .next (s.resetTo true) := by
  have hexec : exec .hotReset s = .next (if s.port.linkUp then s.portReset else s) := rfl
  rw [hexec, if_pos h, ← resetTo_linkUp, h]

theorem exec_functionLevelReset {s : State} (h : s.port.linkUp = true) :
    exec .functionLevelReset s = .next (s.resetTo true) := by
  have hexec : exec .functionLevelReset s = .next (if s.port.linkUp then s.portReset else s) := rfl
  rw [hexec, if_pos h, ← resetTo_linkUp, h]

theorem exec_linkRetrained {s : State} (h : s.dieOn = true) : exec .linkRetrained s =
    .next { s with port := { s.port with linkUp := true }, board := { s.board with wake := false } } := by
  have hexec : exec .linkRetrained s = .next (if s.dieOn then
    { s with port := { s.port with linkUp := true }, board := { s.board with wake := false } } else s) := rfl
  rw [hexec, if_pos h]

/-- What a configuration write sets once L1 has ended (R408). -/
def State.afterConfig (s : State) (w : ConfigWrite) : State :=
  match w with
  | .busMaster on =>
    (List.range 16).foldl (fun s q => State.drainHeld (s.queue q).held.length q s)
      { s with port := { s.port with busMaster := on } }
  | .memorySpace on => { s with port := { s.port with memSpace := on } }
  | .d3hot on => { s with port := { s.port with d3hot := on } }
  | .absent => s

theorem exec_configWrite {s : State} (w : ConfigWrite) (h : s.port.linkUp = true) :
    exec (.configWrite w) s = .next (s.l1.afterConfig w) := by
  have hexec : exec (.configWrite w) s = execConfigWrite w s := rfl
  rw [hexec, execConfigWrite, if_pos h]
  cases w <;> rfl

/-- Held completions that there are none of are not written. -/
theorem foldl_drainHeld_none {s : State} (h : ∀ q, (s.queue q).held = []) (l : List Nat) :
    l.foldl (fun s q => State.drainHeld (s.queue q).held.length q s) s = s := by
  induction l with
  | nil => rfl
  | cons q l ih =>
    have hq : State.drainHeld (s.queue q).held.length q s = s := by rw [h q]; rfl
    rw [List.foldl_cons, hq, ih]

/-- Settles O15: the three resets are one reset of the port, and each row of the link sets its own bits. -/
theorem portResetsAndLink : Obligations.PortResetsAndLink := by
  refine ⟨fun s _ i hi hlink => ?_, fun s => ⟨fun b => ?_, fun hon => ?_, fun hup b => ?_, fun hup hheld b => ?_⟩⟩
  · have hanswer (up : Bool) (h : exec i s = .next (s.resetTo up)) (hi : i = .conventionalReset → up = false) :
        ∃ t, exec i s = .next t ∧ (∀ q, q < 16 → (t.queue q).qstate = 0 ∧ (t.queue q).role = 0 ∧ (t.queue q).enable = false) ∧
          t.port.busMaster = false ∧ t.port.memSpace = false ∧ t.port.attnPending = s.port.attnPending ∧
          (∀ c ∈ t.port.started, c.discard = true) ∧ (i = .conventionalReset → t.port.linkUp = false) ∧
          t.coreMem = s.coreMem ∧ t.sectMem = s.sectMem ∧ t.caskRaw = s.caskRaw ∧ t.cmds = s.cmds ∧
          t.streams = s.streams := by
      obtain ⟨hqueues, hbus, hspace, hattn, hdiscards, hlink, hkept⟩ := resetTo_spec s up
      exact ⟨_, h, hqueues, hbus, hspace, hattn, hdiscards, fun hc => hlink.trans (hi hc), hkept⟩
    simp only [List.mem_cons, List.not_mem_nil, or_false] at hi
    rcases hi with rfl | rfl | rfl
    · exact hanswer false (exec_conventionalReset s) fun _ => rfl
    · exact hanswer true (exec_hotReset (hlink.resolve_left nofun)) nofun
    · exact hanswer true (exec_functionLevelReset (hlink.resolve_left nofun)) nofun
  · cases hon : s.dieOn with
    | true => exact ⟨_, rfl, by simp [hon]⟩
    | false => exact ⟨_, rfl, by simp [hon]⟩
  · exact ⟨_, exec_linkRetrained hon, rfl, rfl, rfl⟩
  · refine ⟨⟨_, exec_configWrite _ hup, ?_⟩, ⟨_, exec_configWrite _ hup, ?_⟩, ⟨_, exec_configWrite _ hup, ?_⟩⟩ <;>
      simp [State.afterConfig]
  · refine ⟨_, exec_configWrite _ hup, ?_⟩
    have hmaster (q : Nat) :
        (({ s.l1 with port := { s.l1.port with busMaster := b } } : State).queue q).held = [] :=
      (congrArg Queue.held (l1_queue s q)).trans (hheld q)
    rw [State.afterConfig, foldl_drainHeld_none hmaster]
    simp

end Sys2Proof.Machine
end

section
/-! SUPPORT. The end of a command that has changed the module first, and the sessions (R444, R454, R455, R460). -/

namespace Sys2Proof.Machine

/-! ### Answered after a change -/

/-- The end of a started command in a state u that its row has made of s: its completion follows the data that u has sent. -/
theorem finish_answered {s u : State} {q tag : Nat} {c : Started} {data : List Out} (code : Code) (r0 r1 : W32)
    (htakes : u.takesEntry q = true) (hc : u.started? q tag = some c) (hd : c.discard = false) (hout : u.out = s.out ++ data)
    (hpairs : ∀ p, p ≠ q → u.queue p = s.queue p) :
    Answered s (u.finish q tag code r0 r1) q tag (u.queue q) data code r0 r1 := by
  obtain ⟨⟨hgone, hsent, hpair, hothers⟩, -⟩ := finish_takes u q tag c code r0 r1 hc hd htakes
  exact ⟨hgone, by rw [hsent, hout, List.append_nil], hpair, fun p hp => (hothers p hp).trans (hpairs p hp)⟩

theorem finish_frame {u : State} {q tag : Nat} {c : Started} (code : Code) (r0 r1 : W32)
    (htakes : u.takesEntry q = true) (hc : u.started? q tag = some c) (hd : c.discard = false) :
    u.finish q tag code r0 r1 = { u with
      out := (u.finish q tag code r0 r1).out, port := u.portOf (u.finish q tag code r0 r1) } :=
  (finish_takes u q tag c code r0 r1 hc hd htakes).2

/-- A change of a pair that keeps its state, its ring and what it holds back keeps that it takes a completion. -/
theorem takesEntry_modQueue {s : State} {q : Nat} {f : Queue → Queue} (h : s.takesEntry q = true)
    (hf : ∀ k, (f k).qstate = k.qstate ∧ (f k).held = k.held ∧ (f k).cqFull = k.cqFull) :
    (s.modQueue q f).takesEntry q = true := by
  have hq : q < s.port.queues.length := by
    simp only [State.takesEntry, Bool.and_eq_true, decide_eq_true_eq] at h
    exact h.1.1.1.1
  have hlen : (s.modQueue q f).port.queues.length = s.port.queues.length := modAt_length _ _ _
  obtain ⟨hstate, hheld, hfull⟩ := hf (s.queue q)
  rw [State.takesEntry, hlen, queue_modQueue_same _ hq, hstate, hheld, hfull]
  exact h

theorem takesEntry_exists {s : State} {q : Nat} (h : s.takesEntry q = true) : q < s.port.queues.length := by
  simp only [State.takesEntry, Bool.and_eq_true, decide_eq_true_eq] at h
  exact h.1.1.1.1

/-- A started command whose row acts, with what its end asks of the state. -/
theorem commandAt_ends {s : State} {q tag opc : Nat} {c : Started} (h : s.commandAt q tag opc c) :
    s.started? q tag = some c ∧ c.discard = false ∧ s.takesEntry q = true := by
  obtain ⟨hstarted, -, -, hdiscard, -, -, htakes⟩ := h
  exact ⟨hstarted, hdiscard, htakes⟩

/-! ### Sessions -/

theorem setWidth_32_eq_extractLsb' (x : W64) : x.setWidth 32 = x.extractLsb' 0 32 := by
  ext i hi
  simp

theorem ushiftRight_setWidth_32_eq_extractLsb' (x : W64) : (x >>> 32).setWidth 32 = x.extractLsb' 32 32 := by
  ext i hi
  simp

theorem exec_openSessionChallenge {s : State} {q tag : Nat} {c : Started} (h : s.commandAt q tag 0x01 c)
    (hstep : (c.arg 1).getLsbD 0 = false) : exec (.openSessionChallenge q tag) s = .next (
      if s.sessionDenied (bits (c.arg 1) 3 2) (bits (c.arg 1) 6 4) then
        s.denySession q tag (bits (c.arg 1) 3 2) (bits (c.arg 1) 6 4)
      else (s.draw.2.modQueue q fun k => { k with challenge := some (Config.freeDraw s.draws) }).finish q tag cDone
        ((Config.freeDraw s.draws).extractLsb' 0 32) ((Config.freeDraw s.draws).extractLsb' 32 32)) := by
  have hexec : exec (.openSessionChallenge q tag) s = execOpenSessionChallenge q tag s := rfl
  rw [hexec, execOpenSessionChallenge, onStarted_commandAt h _ _ (by rw [hstep]; rfl)]
  dsimp only [State.draw]
  rw [setWidth_32_eq_extractLsb', ushiftRight_setWidth_32_eq_extractLsb']

/-- The state in which an accepted answer's command ends: the anchor written by an enrolment, the session opened and
recorded. -/
def State.sessionOpened (s : State) (q role key : Nat) (a : SessionAnswer) : State :=
  let u := if role = 2 && s.nor.keyHash = 0 then s.setAnchor a.keyHash s.nor.prevHash else s
  (({ u with ident := { u.ident with failures := 0 } }).modQueue q fun k =>
    { k with role := role, key := key, challenge := none }).recordBy 0x03 role q 0 (w32 role) (w32 key)

/-- Is an answer to a challenge refused: it does not verify, or it enrols from too small a buffer (R454, R460)? -/
def State.answerFails (s : State) (c : Started) (a : SessionAnswer) : Bool :=
  !s.answerOk (bits (c.arg 1) 3 2) a ||
    (bits (c.arg 1) 3 2 == 2 && s.nor.keyHash == 0 && decide (c.bufBytes < 59648))

theorem exec_openSessionAnswer {s : State} {q tag : Nat} {c : Started} (a : SessionAnswer) (h : s.commandAt q tag 0x01 c)
    (hstep : (c.arg 1).getLsbD 0 = true) : exec (.openSessionAnswer q tag a) s = .next (
      if s.sessionDenied (bits (c.arg 1) 3 2) (bits (c.arg 1) 6 4) || (s.queue q).challenge.isNone then
        s.denySession q tag (bits (c.arg 1) 3 2) (bits (c.arg 1) 6 4)
      else if s.answerFails c a then s.failSession q tag (bits (c.arg 1) 3 2) (bits (c.arg 1) 6 4)
      else (s.sessionOpened q (bits (c.arg 1) 3 2) (bits (c.arg 1) 6 4) a).finish q tag cDone 0 0) := by
  have hexec : exec (.openSessionAnswer q tag a) s = execOpenSessionAnswer q tag a s := rfl
  rw [hexec, execOpenSessionAnswer, onStarted_commandAt h _ _ hstep]
  rfl

/-- What opening a session leaves: the pair's registers, the count of failures, and the anchor of an enrolment. -/
theorem sessionOpened_spec (s : State) (q role key : Nat) (a : SessionAnswer) :
    ∃ er, s.sessionOpened q role key a = ({ s with
      ident := { s.ident with failures := 0 }, errata := er
      nor := if role = 2 ∧ s.nor.keyHash = 0
        then { s.nor with keyHash := a.keyHash, anchorSerial := s.nor.anchorSerial + 1 } else s.nor } : State).modQueue q
          fun k => { k with role := role, key := key, challenge := none } := by
  refine ⟨(s.sessionOpened q role key a).errata, ?_⟩
  unfold State.sessionOpened
  by_cases hen : role = 2 ∧ s.nor.keyHash = 0
  · have hen' : (decide (role = 2) && decide (s.nor.keyHash = 0)) = true := by simp [hen]
    simp only [if_pos hen, if_pos hen']
    rfl
  · have hen' : ¬ (decide (role = 2) && decide (s.nor.keyHash = 0)) = true := by simpa using hen
    simp only [if_neg hen, if_neg hen']
    rfl

/-- Settles O16: the challenge is the next free draw; an accepted answer opens the session and, for an enrolment, writes the
anchor. -/
theorem sessionsOpen : Obligations.SessionsOpen := by
  refine ⟨fun s q tag c h hstep hmay => ?_, fun s q tag c a h hstep hmay hchallenge hok hbuf => ?_⟩
  · obtain ⟨hstarted, hdiscard, htakes⟩ := commandAt_ends h
    have hexec := exec_openSessionChallenge h hstep
    rw [hmay, if_neg Bool.false_ne_true] at hexec
    have hu := takesEntry_modQueue (s := s.draw.2) (f := fun k => { k with challenge := some (Config.freeDraw s.draws) })
      htakes fun _ => ⟨rfl, rfl, rfl⟩
    have hqueue := queue_modQueue_same (s := s.draw.2) (fun k => { k with challenge := some (Config.freeDraw s.draws) })
      (takesEntry_exists htakes)
    refine ⟨_, _, hexec, rfl, ?_, finish_frame _ _ _ hu hstarted hdiscard⟩
    have hanswered := finish_answered (s := s) (data := []) cDone ((Config.freeDraw s.draws).extractLsb' 0 32)
      ((Config.freeDraw s.draws).extractLsb' 32 32) hu hstarted hdiscard (List.append_nil _).symm
      fun p hp => queue_modQueue_other _ hp
    rw [hqueue] at hanswered
    exact hanswered
  · obtain ⟨hstarted, hdiscard, htakes⟩ := commandAt_ends h
    have hexec := exec_openSessionAnswer a h hstep
    have hgood : s.answerFails c a = false := by
      simp only [State.answerFails, hok, Bool.not_true, Bool.false_or]
      simpa using fun hr hk => hbuf ⟨hr, hk⟩
    rw [hmay, Bool.false_or, if_neg (by simpa using hchallenge), hgood, if_neg Bool.false_ne_true] at hexec
    obtain ⟨er, hopened⟩ := sessionOpened_spec s q (bits (c.arg 1) 3 2) (bits (c.arg 1) 6 4) a
    rw [hopened] at hexec
    generalize hu : ({ s with
      ident := { s.ident with failures := 0 }, errata := er
      nor := if bits (c.arg 1) 3 2 = 2 ∧ s.nor.keyHash = 0
        then { s.nor with keyHash := a.keyHash, anchorSerial := s.nor.anchorSerial + 1 } else s.nor } : State) = u at hexec
    have hsame : u.port = s.port := by rw [← hu]
    have htakes' : u.takesEntry q = true := by rw [← hu]; exact htakes
    have hfinal := takesEntry_modQueue
      (f := fun k => { k with role := bits (c.arg 1) 3 2, key := bits (c.arg 1) 6 4, challenge := none }) htakes'
      fun _ => ⟨rfl, rfl, rfl⟩
    have hstarted' : u.started? q tag = some c := by rw [← hu]; exact hstarted
    have hanswered := finish_answered (s := s) (data := []) cDone 0 0 hfinal hstarted' hdiscard
      (by rw [← hu]; exact (List.append_nil _).symm)
      fun p hp => (queue_modQueue_other _ hp).trans (by rw [State.queue, hsame]; rfl)
    have hframe := finish_frame cDone 0 0 hfinal hstarted' hdiscard
    rw [queue_modQueue_same _ (takesEntry_exists htakes')] at hanswered
    subst hu
    exact ⟨_, hexec, hanswered, by rw [hframe]; rfl, by rw [hframe]; rfl, by rw [hframe]; rfl⟩

/-- The state in which a denied session's command ends. -/
def State.denied (s : State) (q role key : Nat) : State :=
  (s.recordBy 0x04 role q cRole (w32 role) (w32 key)).attention 4 cRole (w32 role) (w32 key)

theorem denySession_eq (s : State) (q tag role key : Nat) :
    s.denySession q tag role key = (s.denied q role key).finish q tag cRole 0 0 := rfl

/-- A denied session completes with ROLE_DENIED, with attention of the security class; identity and flash stay. -/
theorem denySession_answered {s : State} {q tag opc : Nat} {c : Started} (h : s.commandAt q tag opc c) (role key : Nat) :
    Answered s (s.denySession q tag role key) q tag (s.queue q) [] cRole 0 0 ∧
    (s.denySession q tag role key).port.attnPending.getLsbD 4 = true ∧
    (s.denySession q tag role key).ident = s.ident ∧ (s.denySession q tag role key).nor = s.nor := by
  obtain ⟨hstarted, hdiscard, htakes⟩ := commandAt_ends h
  have hu : (s.denied q role key).takesEntry q = true := htakes
  rw [denySession_eq]
  refine ⟨finish_answered cRole 0 0 hu hstarted hdiscard (List.append_nil _).symm fun p _ => rfl, ?_⟩
  rw [finish_frame cRole 0 0 hu hstarted hdiscard]
  exact ⟨attend_pending s.port (by decide) cRole, rfl, rfl⟩

/-- The state in which a failed answer's command ends: security attention, the failure counted, the challenge gone. -/
def State.sessionFailed (s : State) (q role key : Nat) : State :=
  let u := (s.recordBy 0x04 role q cSig (w32 role) (w32 key)).attention 4 cSig (w32 role) (w32 key)
  let n := s.ident.failures + 1
  ({ u with ident := { s.ident with failures := if 8 ≤ n then 0 else n, lockout := decide (8 ≤ n) } }).modQueue q fun k =>
    { k with challenge := none }

theorem failSession_eq (s : State) (q tag role key : Nat) :
    s.failSession q tag role key = (s.sessionFailed q role key).finish q tag cSig 0 0 := rfl

theorem failSession_answered {s : State} {q tag opc : Nat} {c : Started} (h : s.commandAt q tag opc c) (role key : Nat) :
    Answered s (s.failSession q tag role key) q tag { s.queue q with challenge := none } [] cSig 0 0 ∧
    (s.failSession q tag role key).port.attnPending.getLsbD 4 = true ∧ (s.failSession q tag role key).nor = s.nor ∧
    (s.failSession q tag role key).ident.lockout = decide (7 ≤ s.ident.failures) ∧
    (s.failSession q tag role key).ident.failures = if s.ident.failures < 7 then s.ident.failures + 1 else 0 := by
  obtain ⟨hstarted, hdiscard, htakes⟩ := commandAt_ends h
  have hu : (s.sessionFailed q role key).takesEntry q = true := takesEntry_modQueue htakes fun _ => ⟨rfl, rfl, rfl⟩
  have hqueue : (s.sessionFailed q role key).queue q = { s.queue q with challenge := none } :=
    modAt_getD_same _ _ _ _ (takesEntry_exists htakes)
  rw [failSession_eq]
  refine ⟨?_, ?_⟩
  · rw [← hqueue]
    exact finish_answered cSig 0 0 hu hstarted hdiscard (List.append_nil _).symm fun p hp => modAt_getD_other _ _ _ _ _ hp
  · rw [finish_frame cSig 0 0 hu hstarted hdiscard]
    refine ⟨attend_pending s.port (by decide) cSig, rfl, decide_eq_decide.2 (by omega), ?_⟩
    by_cases hn : s.ident.failures < 7
    · exact (if_neg (by omega)).trans (if_pos hn).symm
    · exact (if_pos (by omega)).trans (if_neg hn).symm

theorem exec_closeSession {s : State} {q tag : Nat} {c : Started} (h : s.commandAt q tag 0x02 c) :
    exec (.closeSession q tag) s = .next ((s.endSession q).finish q tag cDone 0 0) := by
  have hexec : exec (.closeSession q tag) s = execCloseSession q tag s := rfl
  rw [hexec, execCloseSession, onStarted_commandAt h _ _ rfl]

theorem exec_makerSessionExpiry {s : State} {q : Nat} (h : (s.queue q).role = 3) :
    exec (.makerSessionExpiry q) s = .next (s.endSession q) := by
  have hexec : exec (.makerSessionExpiry q) s = execMakerSessionExpiry q s := rfl
  rw [hexec, execMakerSessionExpiry, if_pos h]

/-- The end of a session keeps that its pair takes a completion. -/
theorem endSession_takesEntry {s : State} {q : Nat} (h : s.takesEntry q = true) : (s.endSession q).takesEntry q = true := by
  unfold State.endSession
  dsimp only
  split
  · exact h
  · exact takesEntry_modQueue h fun _ => ⟨rfl, rfl, rfl⟩

/-- CLOSE_SESSION ends the pair's session and completes. -/
theorem closeSession_answered {s : State} {q tag : Nat} {c : Started} (h : s.commandAt q tag 0x02 c) :
    ∃ t, exec (.closeSession q tag) s = .next t ∧
      Answered s t q tag { s.queue q with role := 0, key := if (s.queue q).role = 0 then (s.queue q).key else 0 } [] cDone 0 0 ∧
      t = { s with out := t.out, port := s.portOf t, errata := t.errata } := by
  obtain ⟨hstarted, hdiscard, htakes⟩ := commandAt_ends h
  have hu := endSession_takesEntry htakes
  have hends := endSession_frame s q
  have hstarted' : (s.endSession q).started? q tag = some c := by rw [hends]; exact hstarted
  refine ⟨_, exec_closeSession h, ?_, ?_⟩
  · rw [← endSession_queue (takesEntry_exists htakes)]
    exact finish_answered cDone 0 0 hu hstarted' hdiscard (by rw [hends]; exact (List.append_nil _).symm)
      fun p hp => endSession_queue_other hp
  · have hframe := finish_frame cDone 0 0 hu hstarted' hdiscard
    generalize (s.endSession q).finish q tag cDone 0 0 = t at hframe
    rw [hframe, hends]
    rfl

/-- Settles O17: an answer fails, is denied or locked out as its checks say, and the rows of expiry clear their registers. -/
theorem sessionsFailAndEnd : Obligations.SessionsFailAndEnd := by
  refine ⟨fun s q tag c a h hstep hmay => ⟨fun hchallenge hfails => ?_, fun hchallenge => ?_⟩,
    fun s q tag c a h hlock i hi => ?_,
    fun s q hs hq => ⟨fun tag c h => closeSession_answered h, fun hrole => ?_, ?_, ⟨_, rfl, rfl⟩⟩⟩
  · have hexec := exec_openSessionAnswer a h hstep
    have hfail : s.answerFails c a = true := by simpa [State.answerFails, and_assoc] using hfails
    rw [hmay, Bool.false_or, if_neg (by simpa using hchallenge), if_pos hfail] at hexec
    exact ⟨_, hexec, failSession_answered h _ _⟩
  · have hexec := exec_openSessionAnswer a h hstep
    rw [if_pos (by simp [hchallenge])] at hexec
    exact ⟨_, hexec, denySession_answered h _ _⟩
  · have hmay : s.sessionDenied (bits (c.arg 1) 3 2) (bits (c.arg 1) 6 4) = true := by simp [State.sessionDenied, hlock]
    obtain ⟨hanswered, -, hident, hnor⟩ := denySession_answered h (bits (c.arg 1) 3 2) (bits (c.arg 1) 6 4)
    cases hstep : (c.arg 1).getLsbD 0 with
    | false =>
      have hexec := exec_openSessionChallenge h hstep
      rw [if_pos hmay] at hexec
      rw [hi, hstep, if_neg Bool.false_ne_true]
      exact ⟨_, hexec, hanswered, hident, hnor⟩
    | true =>
      have hexec := exec_openSessionAnswer a h hstep
      rw [if_pos (by rw [hmay]; rfl)] at hexec
      rw [hi, hstep, if_pos rfl]
      exact ⟨_, hexec, hanswered, hident, hnor⟩
  · have hlen : q < s.port.queues.length := by rw [State.shaped_queues hs]; exact hq
    refine ⟨_, exec_makerSessionExpiry hrole, ?_, fun p hp => endSession_queue_other hp, endSession_frame s q⟩
    rw [endSession_queue hlen, hrole]
    rfl
  · have hlen : q < s.port.queues.length := by rw [State.shaped_queues hs]; exact hq
    exact ⟨_, rfl, queue_modQueue_same _ hlen, fun p hp => queue_modQueue_other _ hp, rfl⟩

end Sys2Proof.Machine
end

section
/-! SUPPORT. Commands that read into a buffer, simmer and the power cap, windows, schedules, installs and the errata log (R108,
R403, R423, R450, R456 to R459, R463, R468, R500, R503). -/

namespace Sys2Proof.Machine

/-! ### Simmer and the cap -/

/-- Simmer disabled in the sections of a mask, whose gaps go to idle (R108). -/
def State.simmerCut (s : State) (m : BitVec 4) : State :=
  ({ s with port := { s.port with simmerOff := s.port.simmerOff ||| m } } : State).quench fun k => m.getLsbD (k / 16)

theorem exec_simmerDisable {s : State} {q tag : Nat} {c : Started} (h : s.commandAt q tag 0x40 c)
    (ho : (c.arg 1).getLsbD 8 = true) : exec (.simmerDisable q tag) s = .next
      ((s.simmerCut ((c.arg 1).setWidth 4)).finish q tag cDone 0 0) := by
  have hexec : exec (.simmerDisable q tag) s = execSimmerDisable q tag s := rfl
  rw [hexec, execSimmerDisable, onStarted_commandAt h _ _ ho]
  rfl

theorem exec_simmerEnable {s : State} {q tag : Nat} {c : Started} (h : s.commandAt q tag 0x40 c)
    (ho : (c.arg 1).getLsbD 8 = false) : exec (.simmerEnable q tag) s = .next
      (({ s with port := { s.port with simmerOff := s.port.simmerOff &&& ~~~(c.arg 1).setWidth 4 } } : State).finish q tag
        cDone 0 0) := by
  have hexec : exec (.simmerEnable q tag) s = execSimmerEnable q tag s := rfl
  rw [hexec, execSimmerEnable, onStarted_commandAt h _ _ (by rw [ho]; rfl)]

/-- The cores after a quench, one by one. -/
theorem quench_cores (s : State) (p : Nat → Bool) (k : Nat) :
    (s.quench p).cores[k]? = (s.cores[k]?).map fun x => if p k then { x with simmer := 0, ramp := 8 } else x := by
  simp only [State.quench, List.getElem?_map, List.getElem?_zipIdx, Option.map_map]
  cases s.cores[k]? <;> simp

theorem exec_powerCap {s : State} {q tag : Nat} {c : Started} (h : s.commandAt q tag 0x42 c) :
    exec (.powerCap q tag) s = .next
      (({ s with power := { s.power with opCap := bits (c.arg 1) 15 0 } } : State).finish q tag cDone
        (w32 ({ s with power := { s.power with opCap := bits (c.arg 1) 15 0 } } : State).capInEffect) 0) := by
  have hexec : exec (.powerCap q tag) s = execPowerCap q tag s := rfl
  rw [hexec, execPowerCap, onStarted_commandAt h _ _ rfl]

/-- The cap in effect is the least of the caps that stand, and one of them (R503). -/
theorem capInEffect_spec (s : State) :
    s.capInEffect ≤ s.capLimit ∧ (s.power.opCap ≠ 0 → s.capInEffect ≤ s.power.opCap) ∧
    ((s.modw 0).getLsbD 21 = true → s.power.syncCap = true → s.capInEffect ≤ bits (s.sys 52) 31 16) ∧
    (s.capInEffect = s.capLimit ∨ (s.power.opCap ≠ 0 ∧ s.capInEffect = s.power.opCap) ∨
      ((s.modw 0).getLsbD 21 = true ∧ s.power.syncCap = true ∧ s.capInEffect = bits (s.sys 52) 31 16)) := by
  unfold State.capInEffect
  dsimp only
  generalize s.capLimit = a
  generalize bits (s.sys 52) 31 16 = b
  generalize s.power.opCap = o
  cases (s.modw 0).getLsbD 21 <;> cases s.power.syncCap <;> by_cases ho : o = 0 <;> simp [ho] <;> omega

/-- Settles O18: the named sections' bits and gaps change; the cap returned is the cap in effect. -/
theorem simmerAndCap : Obligations.SimmerAndCap := by
  refine ⟨fun s q tag c h => ⟨fun ho => ?_, fun ho => ?_⟩, fun s q tag c op h hop => ?_⟩
  · obtain ⟨hstarted, hdiscard, htakes⟩ := commandAt_ends h
    have hu : (s.simmerCut ((c.arg 1).setWidth 4)).takesEntry q = true := htakes
    have hframe := finish_frame cDone 0 0 hu hstarted hdiscard
    refine ⟨_, exec_simmerDisable h ho, finish_answered cDone 0 0 hu hstarted hdiscard (List.append_nil _).symm fun p _ => rfl,
      fun k hk => ?_, fun k hk => ?_, ?_⟩
    · rw [hframe]
      simp [State.simmerCut, State.quench, State.portOf, BitVec.getLsbD_setWidth, hk]
    · have hcores := quench_cores { s with port := { s.port with simmerOff := s.port.simmerOff ||| (c.arg 1).setWidth 4 } }
        (fun k => ((c.arg 1).setWidth 4).getLsbD (k / 16)) k
      have hk' : k / 16 < 4 := by omega
      rw [hframe]
      simpa [State.simmerCut, BitVec.getLsbD_setWidth, hk'] using hcores
    · rw [hframe]
      rfl
  · obtain ⟨hstarted, hdiscard, htakes⟩ := commandAt_ends h
    have hu : ({ s with port := { s.port with simmerOff := s.port.simmerOff &&& ~~~(c.arg 1).setWidth 4 } } :
      State).takesEntry q = true := htakes
    have hframe := finish_frame cDone 0 0 hu hstarted hdiscard
    refine ⟨_, exec_simmerEnable h ho, finish_answered cDone 0 0 hu hstarted hdiscard (List.append_nil _).symm fun p _ => rfl,
      fun k hk => ?_, ?_⟩
    · rw [hframe]
      simp [State.portOf, BitVec.getLsbD_setWidth, hk]
    · rw [hframe]
      rfl
  · obtain ⟨hstarted, hdiscard, htakes⟩ := commandAt_ends h
    subst hop
    have hu : ({ s with power := { s.power with opCap := bits (c.arg 1) 15 0 } } : State).takesEntry q = true := htakes
    obtain ⟨hlimit, hoperator, hsync, hone⟩ :=
      capInEffect_spec { s with power := { s.power with opCap := bits (c.arg 1) 15 0 } }
    exact ⟨_, _, exec_powerCap h,
      finish_answered cDone _ 0 hu hstarted hdiscard (List.append_nil _).symm fun p _ => rfl,
      hlimit, hoperator, hsync, hone, finish_frame cDone _ 0 hu hstarted hdiscard⟩

/-! ### Commands that read -/

/-- A command whose buffer takes bytes, and which then completes. -/
theorem toBuffer_finish_answered {s : State} {q tag opc : Nat} {c : Started} (h : s.commandAt q tag opc c) (bs : List Byte)
    (code : Code) (r0 r1 : W32) :
    Answered s ((s.toBuffer c bs).finish q tag code r0 r1) q tag (s.queue q) [.host c.bufAddr bs] code r0 r1 ∧
    (s.toBuffer c bs).finish q tag code r0 r1 = { s with
      out := ((s.toBuffer c bs).finish q tag code r0 r1).out
      port := s.portOf ((s.toBuffer c bs).finish q tag code r0 r1) } := by
  obtain ⟨hstarted, hdiscard, htakes⟩ := commandAt_ends h
  have hbuffer : s.toBuffer c bs = s.emit (.host c.bufAddr bs) := by simp [State.toBuffer, hdiscard]
  have hu : (s.emit (.host c.bufAddr bs)).takesEntry q = true := htakes
  rw [hbuffer]
  exact ⟨finish_answered code r0 r1 hu hstarted hdiscard rfl fun p _ => rfl, finish_frame code r0 r1 hu hstarted hdiscard⟩

theorem exec_readTable {s : State} {q tag : Nat} {c : Started} (h : s.commandAt q tag 0x20 c) :
    exec (.readTable q tag) s = .next ((s.toBuffer c ((List.range (c.arg 3).toNat).flatMap fun i =>
      wordsBytes (s.tableEntry (bits (c.arg 1) 3 0) ((c.arg 2).toNat + i)))).finish q tag cDone (w32 (c.arg 3).toNat) 0) := by
  have hexec : exec (.readTable q tag) s = execReadTable q tag s := rfl
  rw [hexec, execReadTable, onStarted_commandAt h _ _ rfl]

theorem exec_readErrata {s : State} {q tag : Nat} {c : Started} (h : s.commandAt q tag 0x54 c) :
    exec (.readErrata q tag) s = .next
      ((s.toBuffer c (s.errataRun (c.arg 3).toNat (c.arg 2 ++ c.arg 1).toNat).flatten).finish q tag cDone
        (w32 (s.errataRun (c.arg 3).toNat (c.arg 2 ++ c.arg 1).toNat).length) (w32 s.errataOldest)) := by
  have hexec : exec (.readErrata q tag) s = execReadErrata q tag s := rfl
  rw [hexec, execReadErrata, onStarted_commandAt h _ _ rfl]

theorem exec_attest {s : State} {q tag : Nat} {c : Started} (h : s.commandAt q tag 0x58 c) :
    exec (.attest q tag) s = .next ((s.toBuffer c (s.report [c.arg 1, c.arg 2] ++
      (List.range 17088).map (Config.attestSign (s.report [c.arg 1, c.arg 2])))).finish q tag cDone 0 0) := by
  have hexec : exec (.attest q tag) s = execAttest q tag s := rfl
  rw [hexec, execAttest, onStarted_commandAt h _ _ rfl]

theorem exec_readTelemetry {s : State} {q tag : Nat} {c : Started} (h : s.commandAt q tag 0x43 c) :
    exec (.readTelemetry q tag) s = .next
      ((s.toBuffer c (wordsBytes ((s.power.telemetry ++ List.replicate 16 0).take 16))).finish q tag cDone 0 0) := by
  have hexec : exec (.readTelemetry q tag) s = execReadTelemetry q tag s := rfl
  rw [hexec, execReadTelemetry, onStarted_commandAt h _ _ rfl]

theorem exec_readSpares {s : State} {q tag : Nat} {c : Started} (h : s.commandAt q tag 0x64 c) :
    exec (.readSpares q tag) s = .next
      (((s.recordBy 0x0D c.role q 0 0x64 0).toBuffer c (wordsBytes s.spareReport)).finish q tag cDone 0 0) := by
  have hexec : exec (.readSpares q tag) s = execReadSpares q tag s := rfl
  rw [hexec, execReadSpares, onStarted_commandAt h _ _ rfl]
  rfl

/-- A record padded with zeros to n words and cut there has the words of the record. -/
theorem wd_padded (ws : List W32) {n i : Nat} (h : i < n) : wd ((ws ++ List.replicate n 0).take n) i = wd ws i := by
  simp only [wd, List.getD_eq_getElem?_getD, List.getElem?_take, h, if_true, List.getElem?_append, List.getElem?_replicate]
  split
  · rfl
  next hi =>
    rw [List.getElem?_eq_none (Nat.not_lt.1 hi)]
    split <;> rfl

/-- Settles O19: each row fills its buffer from what the module holds and then completes. -/
theorem commandsThatRead : Obligations.CommandsThatRead := by
  intro s q tag c
  refine ⟨fun h => ⟨_, exec_readTable h, toBuffer_finish_answered h _ _ _ _⟩,
    fun h => ⟨_, exec_readErrata h, toBuffer_finish_answered h _ _ _ _⟩,
    fun h => ⟨_, _, exec_attest h, rfl, toBuffer_finish_answered h _ _ _ _⟩, fun h => ?_, fun h => ?_⟩
  · exact ⟨_, _, exec_readTelemetry h, by simp, fun i hi => wd_padded _ hi, toBuffer_finish_answered h _ _ _ _⟩
  · have h' : (s.recordBy 0x0D c.role q 0 0x64 0).commandAt q tag 0x64 c := h
    obtain ⟨⟨hgone, hsent, hpair, hpairs⟩, hframe⟩ := toBuffer_finish_answered h' (wordsBytes s.spareReport) cDone 0 0
    exact ⟨_, exec_readSpares h, ⟨hgone, hsent, hpair, hpairs⟩, by rw [hframe]; rfl⟩

/-! ### Schedules and windows -/

theorem exec_loadTable {s : State} {q tag : Nat} {c : Started} (es : List W32) (h : s.commandAt q tag 0x21 c) :
    exec (.loadTable q tag es) s = .next (
      let r := s.loadTable (bits (c.arg 1) 3 0) (c.arg 2).toNat
        (cutEntries ((tableShape (bits (c.arg 1) 3 0)).2 / 4) (c.arg 3).toNat es)
      r.2.finish q tag r.1 (if r.1 = cDone then w32 (c.arg 3).toNat else 0) r.2.fabric.dirVersion) := by
  have hexec : exec (.loadTable q tag es) s = execLoadTable q tag es s := rfl
  rw [hexec, execLoadTable, onStarted_commandAt h _ _ rfl]

@[simp] theorem cutEntries_length (k n : Nat) (ws : List W32) : (cutEntries k n ws).length = n := by
  induction n generalizing ws with
  | zero => rfl
  | succ n ih => simp [cutEntries, ih]

/-- Entry i of a cut buffer. -/
theorem cutEntries_getElem? (k n : Nat) (ws : List W32) {i : Nat} (h : i < n) :
    (cutEntries k n ws)[i]? = some ((ws.drop (k * i)).take k) := by
  induction n generalizing ws i with
  | zero => omega
  | succ n ih =>
    cases i with
    | zero => simp [cutEntries]
    | succ i =>
      rw [cutEntries, List.getElem?_cons_succ, ih _ (by omega), List.drop_drop, Nat.mul_succ, Nat.add_comm]

theorem cutEntries_getD (k n : Nat) (ws : List W32) {i : Nat} (h : i < n) :
    (cutEntries k n ws).getD i [] = (ws.drop (k * i)).take k := by
  rw [List.getD_eq_getElem?_getD, cutEntries_getElem? k n ws h]
  rfl

/-- Entries set at consecutive keys, in order. -/
def setRun {α : Type} [DecidableEq α] (d : α) (first : Nat) (es : Nat → α) (n : Nat) (l : List (Nat × α)) : List (Nat × α) :=
  (List.range n).foldl (fun l i => alSet d (first + i) (es i) l) l

theorem setRun_succ {α : Type} [DecidableEq α] (d : α) (first : Nat) (es : Nat → α) (n : Nat) (l : List (Nat × α)) :
    setRun d first es (n + 1) l = alSet d (first + n) (es n) (setRun d first es n l) := by
  rw [setRun, List.range_succ, List.foldl_append]
  rfl

theorem alGet_setRun_inside {α : Type} [DecidableEq α] (d : α) (first : Nat) (es : Nat → α) {n i : Nat} (l : List (Nat × α))
    (h : i < n) : alGet d (first + i) (setRun d first es n l) = es i := by
  induction n with
  | zero => omega
  | succ n ih =>
    rw [setRun_succ]
    by_cases hi : i = n
    · rw [hi, alGet_alSet_same]
    · rw [alGet_alSet_other _ _ _ _ _ (by omega), ih (by omega)]

theorem alGet_setRun_outside {α : Type} [DecidableEq α] (d : α) (first : Nat) (es : Nat → α) {n j : Nat} (l : List (Nat × α))
    (h : j < first ∨ first + n ≤ j) : alGet d j (setRun d first es n l) = alGet d j l := by
  induction n with
  | zero => rfl
  | succ n ih => rw [setRun_succ, alGet_alSet_other _ _ _ _ _ (by omega), ih (by omega)]

theorem padWords_of_length {n : Nat} {ws : List W32} (h : ws.length = n) : padWords n ws = ws := by
  subst h
  simp [padWords]

/-- A load of good schedule entries sets them one after another. -/
theorem loadTable_schedules {s : State} {first : Nat} {es : List (List W32)} (h : es.all (entryOk 6) = true) :
    s.loadTable 6 first es = (cDone, { s with malt := { s.malt with
      schedules := setRun [] first (fun i => es.getD i []) es.length s.malt.schedules } }) := by
  simp only [State.loadTable, h, State.loadable, Bool.not_true, Bool.or_self, Bool.false_eq_true, if_false, setRun]

theorem exec_openWindow {s : State} {q tag : Nat} {c : Started} (d : Digest) (h : s.commandAt q tag 0x55 c) :
    exec (.openWindow q tag d) s = .next
      ((({ s with ident := { s.ident with window := some d } } : State).recordBy 0x0A c.role q 0 1 (c.arg 1)).finish q tag
        cDone 0 0) := by
  have hexec : exec (.openWindow q tag d) s = execOpenWindow q tag d s := rfl
  rw [hexec, execOpenWindow, onStarted_commandAt h _ _ rfl]

theorem exec_closeWindow {s : State} {q tag : Nat} {c : Started} (h : s.commandAt q tag 0x56 c) :
    exec (.closeWindow q tag) s = .next ((s.closeWindow c.role q).finish q tag cDone 0 0) := by
  have hexec : exec (.closeWindow q tag) s = execCloseWindow q tag s := rfl
  rw [hexec, execCloseWindow, onStarted_commandAt h _ _ rfl]

/-- A window closed leaves none; the errata log may have its record. -/
theorem closeWindow_eq (s : State) (role pair : Nat) : s.closeWindow role pair =
    { s with ident := { s.ident with window := none }, errata := (s.closeWindow role pair).errata } := by
  unfold State.closeWindow
  split
  · rfl
  next h =>
    rw [Option.not_isSome_iff_eq_none.1 h |>.symm]

/-- Settles O20: the loaded entries are set at their keys, and the window is set or taken away. -/
theorem loadsAndWindows : Obligations.LoadsAndWindows := by
  refine ⟨fun s q tag c es h htable hlength hrange hgood => ?_, fun s => ⟨fun q tag c d h => ?_, fun q tag c h => ?_, ?_⟩⟩
  · obtain ⟨hstarted, hdiscard, htakes⟩ := commandAt_ends h
    have hall : (cutEntries 8 (c.arg 3).toNat es).all (entryOk 6) = true := by
      rw [List.all_eq_true]
      intro e he
      obtain ⟨i, hi, rfl⟩ := List.getElem_of_mem he
      rw [cutEntries_length] at hi
      have hget := cutEntries_getElem? 8 (c.arg 3).toNat es hi
      rw [List.getElem?_eq_getElem (by simpa using hi), Option.some.injEq] at hget
      rw [hget]
      exact hgood i hi
    have hexec := exec_loadTable es h
    have hshape : (tableShape 6).2 / 4 = 8 := rfl
    rw [htable, hshape, loadTable_schedules hall] at hexec
    dsimp only at hexec
    rw [if_pos rfl, cutEntries_length, show w32 (c.arg 3).toNat = c.arg 3 from BitVec.ofNat_toNat _ _ |>.trans (by simp)]
      at hexec
    generalize hl : setRun [] (c.arg 2).toNat (fun i => (cutEntries 8 (c.arg 3).toNat es).getD i []) (c.arg 3).toNat
      s.malt.schedules = l at hexec
    generalize hu : ({ s with malt := { s.malt with schedules := l } } : State) = u at hexec
    have htakes' : u.takesEntry q = true := by rw [← hu]; exact htakes
    have hstarted' : u.started? q tag = some c := by rw [← hu]; exact hstarted
    have hframe := finish_frame cDone (c.arg 3) s.fabric.dirVersion htakes' hstarted' hdiscard
    have hanswered := finish_answered (s := s) (data := []) cDone (c.arg 3) s.fabric.dirVersion htakes' hstarted' hdiscard
      (by rw [← hu]; exact (List.append_nil _).symm) (fun p _ => by rw [← hu]; rfl)
    refine ⟨_, hexec, by subst hu; exact hanswered, fun i hi => ?_, fun i hi => ?_, ?_⟩
    all_goals rw [hframe]; subst hu hl
    · refine (congrArg (padWords 8) (alGet_setRun_inside [] _ _ _ hi)).trans ?_
      rw [cutEntries_getD _ _ _ hi]
      exact padWords_of_length (by rw [List.length_take, List.length_drop]; omega)
    · exact congrArg (padWords 8) (alGet_setRun_outside [] _ _ _ hi)
    · rfl
  · obtain ⟨hstarted, hdiscard, htakes⟩ := commandAt_ends h
    have hu : (({ s with ident := { s.ident with window := some d } } : State).recordBy 0x0A c.role q 0 1
      (c.arg 1)).takesEntry q = true := htakes
    have hframe := finish_frame cDone 0 0 hu hstarted hdiscard
    exact ⟨_, exec_openWindow d h, finish_answered cDone 0 0 hu hstarted hdiscard (List.append_nil _).symm fun p _ => rfl,
      by rw [hframe]; rfl, by rw [hframe]; rfl⟩
  · obtain ⟨hstarted, hdiscard, htakes⟩ := commandAt_ends h
    have hexec := exec_closeWindow h
    rw [closeWindow_eq] at hexec
    generalize (s.closeWindow c.role q).errata = er at hexec
    have hu : ({ s with ident := { s.ident with window := none }, errata := er } : State).takesEntry q = true := htakes
    have hframe := finish_frame cDone 0 0 hu hstarted hdiscard
    exact ⟨_, hexec, finish_answered cDone 0 0 hu hstarted hdiscard (List.append_nil _).symm fun p _ => rfl,
      by rw [hframe], by rw [hframe]; rfl⟩
  · exact ⟨_, rfl, by rw [closeWindow_eq], by rw [closeWindow_eq]⟩

/-! ### Installs -/

theorem exec_installImprint {s : State} {q tag : Nat} {c : Started} (im : Imprint) (h : s.commandAt q tag 0x50 c)
    (hbuf : imprintBytes im.rotation ≤ c.bufBytes) (hrot : im.rotation = false ∨ s.nor.prevHash = 0) :
    exec (.installImprint q tag im) s = .next (
      let v := judge s.nor true (s.nor.fwOf s.otherSlot) (some im)
      if v.1 != cDone then
        let u := s.recordBy 0x02 c.role q v.1 (w32 s.otherSlot) (w32 v.2)
        (if classOf v.1 = 4 then u.attention 4 v.1 (w32 s.otherSlot) (w32 v.2) else u).finish q tag v.1 (imprintVersion im)
          (w32 v.2)
      else
        (({ s with nor := { s.nor with im := s.nor.im.set s.otherSlot (some im), preferred := s.otherSlot } } :
          State).rotate im).finish q tag cDone (imprintVersion im) 0) := by
  have hexec : exec (.installImprint q tag im) s = execInstallImprint q tag im s := rfl
  have hfree : (im.rotation && s.nor.prevHash != 0) = false := by
    rcases hrot with h | h <;> simp [h]
  rw [hexec, execInstallImprint, onStarted_commandAt h _ _ rfl]
  simp only [decide_eq_false (Nat.not_lt.2 hbuf), hfree, Bool.false_eq_true, if_false]

/-- A rotation moves the anchor to the signer's key; the errata log has its record. -/
theorem rotate_eq (s : State) (im : Imprint) : s.rotate im = { s with
    errata := (s.rotate im).errata
    nor := { s.nor with
      keyHash := if im.rotation then im.signerHash else s.nor.keyHash
      prevHash := if im.rotation then s.nor.keyHash else s.nor.prevHash
      anchorSerial := if im.rotation then s.nor.anchorSerial + 1 else s.nor.anchorSerial } } := by
  unfold State.rotate
  cases im.rotation <;> rfl

theorem exec_installFirmware {s : State} {q tag : Nat} {c : Started} (fw : Firmware) (h : s.commandAt q tag 0x51 c) :
    exec (.installFirmware q tag fw) s = .next (
      if fw.sigOk then
        ({ s with nor := { s.nor with fw := s.nor.fw.set s.otherSlot (some fw) } } : State).finish q tag cDone fw.version 0
      else (s.attention 4 cSig 0x51 fw.version).finish q tag cSig fw.version 0) := by
  have hexec : exec (.installFirmware q tag fw) s = execInstallFirmware q tag fw s := rfl
  rw [hexec, execInstallFirmware, onStarted_commandAt h _ _ rfl]

/-- Counting up raises the version counter by n, where it has room, and of the rest changes the errata log. -/
theorem countUp_eq (n : Nat) {s : State} (h : s.nor.versionCounter.toNat + n < 2 ^ 32) :
    ∃ v er, State.countUp n s = { s with nor := { s.nor with versionCounter := v }, errata := er } ∧
      v.toNat = s.nor.versionCounter.toNat + n := by
  induction n generalizing s with
  | zero => exact ⟨s.nor.versionCounter, s.errata, rfl, rfl⟩
  | succ n ih =>
    have hone : (s.nor.versionCounter + 1).toNat = s.nor.versionCounter.toNat + 1 := by
      have : (1 : W32).toNat = 1 := rfl
      rw [BitVec.toNat_add]
      omega
    obtain ⟨v, er, heq, hv⟩ := ih (s := ({ s with nor := { s.nor with versionCounter := s.nor.versionCounter + 1 } } :
      State).record 0x07 0 0 (s.nor.versionCounter + 1))
      (by rw [State.record_nor, hone]; omega)
    refine ⟨v, er, heq, ?_⟩
    rw [hv, State.record_nor, hone]
    omega

/-- The state in which COMMIT_VERSION ends: the counter up, and PREV_HASH zero (R450). -/
def State.versionCommitted (s : State) (im : Imprint) : State :=
  let u := State.countUp ((imprintVersion im).toNat - s.nor.versionCounter.toNat) s
  if u.nor.prevHash = 0 then u else u.setAnchor u.nor.keyHash 0

theorem exec_commitVersion {s : State} {q tag : Nat} {c : Started} {im : Imprint} (h : s.commandAt q tag 0x52 c)
    (him : s.ident.imprint = some im) : exec (.commitVersion q tag) s = .next
      ((s.versionCommitted im).finish q tag cDone (s.versionCommitted im).nor.versionCounter
        (s.versionCommitted im).nor.anchorSerial) := by
  have hexec : exec (.commitVersion q tag) s = execCommitVersion q tag s := rfl
  rw [hexec, execCommitVersion, onStarted_commandAt h _ _ rfl, him]
  rfl

theorem versionCommitted_spec (s : State) (im : Imprint) :
    ∃ n er, s.versionCommitted im = { s with nor := n, errata := er } ∧
      n.versionCounter.toNat = max s.nor.versionCounter.toNat (imprintVersion im).toNat ∧ n.prevHash = 0 ∧
      n.keyHash = s.nor.keyHash ∧ n.fw = s.nor.fw ∧ n.im = s.nor.im ∧ n.preferred = s.nor.preferred := by
  obtain ⟨v, er, hcount, hv⟩ := countUp_eq ((imprintVersion im).toNat - s.nor.versionCounter.toNat) (s := s)
    (by have := (imprintVersion im).isLt; have := s.nor.versionCounter.isLt; omega)
  have hmax : v.toNat = max s.nor.versionCounter.toNat (imprintVersion im).toNat := by omega
  unfold State.versionCommitted
  rw [hcount]
  dsimp only
  split
  next hprev => exact ⟨_, _, rfl, hmax, hprev, rfl, rfl, rfl, rfl⟩
  · exact ⟨_, _, rfl, hmax, rfl, rfl, rfl, rfl, rfl⟩

/-- Settles O21: an image that is accepted is written, one that is not leaves the flash; the counter rises to the running
imprint's version. -/
theorem installs : Obligations.Installs := by
  refine ⟨fun s q tag c => ⟨fun im h hbuf hrot hgood => ?_, fun im h hbuf hrot hbad => ?_, fun fw h => ?_⟩,
    fun s q tag c im h him => ?_⟩
  · obtain ⟨hstarted, hdiscard, htakes⟩ := commandAt_ends h
    have hexec := exec_installImprint im h hbuf hrot
    simp only [hgood, bne_self_eq_false, Bool.false_eq_true, if_false] at hexec
    rw [rotate_eq] at hexec
    generalize (State.rotate _ im).errata = er at hexec
    dsimp only at hexec
    generalize hu : State.mk .. = u at hexec
    have htakes' : u.takesEntry q = true := by rw [← hu]; exact htakes
    have hstarted' : u.started? q tag = some c := by rw [← hu]; exact hstarted
    have hframe := finish_frame cDone (imprintVersion im) 0 htakes' hstarted' hdiscard
    have hanswered := finish_answered (s := s) (data := []) cDone (imprintVersion im) 0 htakes' hstarted' hdiscard
      (by rw [← hu]; exact (List.append_nil _).symm) (fun p _ => by rw [← hu]; rfl)
    subst hu
    exact ⟨_, hexec, hanswered, by rw [hframe], by rw [hframe]; rfl⟩
  · obtain ⟨hstarted, hdiscard, htakes⟩ := commandAt_ends h
    have hexec := exec_installImprint im h hbuf hrot
    generalize judge s.nor true (s.nor.fwOf s.otherSlot) (some im) = v at hbad hexec ⊢
    simp only [bne_iff_ne, ne_eq, hbad, not_false_eq_true, if_true] at hexec
    by_cases hclass : classOf v.1 = 4
    · rw [if_pos hclass] at hexec
      have hu : ((s.recordBy 0x02 c.role q v.1 (w32 s.otherSlot) (w32 v.2)).attention 4 v.1 (w32 s.otherSlot)
        (w32 v.2)).takesEntry q = true := htakes
      have hframe := finish_frame v.1 (imprintVersion im) (w32 v.2) hu hstarted hdiscard
      exact ⟨_, hexec, finish_answered _ _ _ hu hstarted hdiscard (List.append_nil _).symm fun p _ => rfl, by rw [hframe]; rfl,
        fun _ => by rw [hframe]; exact attend_pending s.port (by decide) v.1⟩
    · rw [if_neg hclass] at hexec
      have hu : (s.recordBy 0x02 c.role q v.1 (w32 s.otherSlot) (w32 v.2)).takesEntry q = true := htakes
      have hframe := finish_frame v.1 (imprintVersion im) (w32 v.2) hu hstarted hdiscard
      exact ⟨_, hexec, finish_answered _ _ _ hu hstarted hdiscard (List.append_nil _).symm fun p _ => rfl, by rw [hframe]; rfl,
        fun hc => absurd hc hclass⟩
  · obtain ⟨hstarted, hdiscard, htakes⟩ := commandAt_ends h
    have hexec := exec_installFirmware fw h
    cases hsig : fw.sigOk with
    | true =>
      rw [hsig, if_pos rfl] at hexec
      have hu : ({ s with nor := { s.nor with fw := s.nor.fw.set s.otherSlot (some fw) } } : State).takesEntry q = true := htakes
      have hframe := finish_frame cDone fw.version 0 hu hstarted hdiscard
      exact ⟨_, hexec, finish_answered _ _ _ hu hstarted hdiscard (List.append_nil _).symm fun p _ => rfl, nofun,
        by rw [hframe]; rfl⟩
    | false =>
      rw [hsig, if_neg Bool.false_ne_true] at hexec
      have hu : (s.attention 4 cSig 0x51 fw.version).takesEntry q = true := htakes
      have hframe := finish_frame cSig fw.version 0 hu hstarted hdiscard
      exact ⟨_, hexec, finish_answered _ _ _ hu hstarted hdiscard (List.append_nil _).symm fun p _ => rfl,
        fun _ => by rw [hframe]; exact attend_pending s.port (by decide) cSig, by rw [hframe]; rfl⟩
  · obtain ⟨hstarted, hdiscard, htakes⟩ := commandAt_ends h
    have hexec := exec_commitVersion h him
    obtain ⟨n, er, hcommitted, hcounter, hprev, hkey, hfw, hims, hpreferred⟩ := versionCommitted_spec s im
    rw [hcommitted] at hexec
    have hu : ({ s with nor := n, errata := er } : State).takesEntry q = true := htakes
    have hframe := finish_frame cDone n.versionCounter n.anchorSerial hu hstarted hdiscard
    have hanswered := finish_answered (s := s) (data := []) cDone n.versionCounter n.anchorSerial hu hstarted hdiscard
      (List.append_nil _).symm fun p _ => rfl
    have hnor : (({ s with nor := n, errata := er } : State).finish q tag cDone n.versionCounter n.anchorSerial).nor = n := by
      rw [hframe]
    refine ⟨_, hexec, ?_⟩
    rw [hnor]
    exact ⟨hanswered, hcounter, hprev, hkey, hfw, hims, hpreferred, by rw [hframe]; rfl⟩

/-! ### The errata log -/

/-- While the ring has room a record is appended. -/
theorem errata_write_of_room {e : Errata} (time : W64) (r : ErrRec) (h : e.ring.length < ringSize) :
    e.write time r = e.append r := by
  unfold Errata.write
  split
  · exact if_pos h
  · rfl

/-- With fewer than a frame's 1 024 records to mirror nothing is mirrored (R464). -/
theorem mirrorErrata_few {s : State} (h : s.errata.unmirrored.length < 1024) : s.mirrorErrata = s := by
  unfold State.mirrorErrata
  dsimp only
  split
  · rfl
  next rs _ =>
    refine if_pos ?_
    simp only [Bool.or_eq_true, decide_eq_true_eq]
    exact .inl (.inl (by rw [List.length_take]; omega))

/-- An appended record waits to be mirrored, or does not. -/
theorem append_unmirrored_length (e : Errata) (r : ErrRec) : (e.append r).unmirrored.length ≤ e.unmirrored.length + 1 := by
  simp only [Errata.unmirrored, Errata.append, List.filter_append, List.length_append]
  exact Nat.add_le_add_left (List.length_filter_le _ _) _

/-- Settles O22: the fold is appended to the ring, and too few records wait for a mirror frame. -/
theorem errataFold : Obligations.ErrataFold := by
  intro s r hfold hring hfew
  have hflush : s.errata.flush s.now = ({ s.errata with fold := none } : Errata).append r := by
    rw [Errata.flush, hfold]
    exact errata_write_of_room _ _ hring
  have hexec : exec .errataFoldFlush s = .next ({ s with errata := s.errata.flush s.now } : State).mirrorErrata := rfl
  have hlength := append_unmirrored_length ({ s.errata with fold := none } : Errata) r
  have hsame : ({ s.errata with fold := none } : Errata).unmirrored = s.errata.unmirrored := rfl
  rw [hsame] at hlength
  have hroom : (({ s.errata with fold := none } : Errata).append r).unmirrored.length < 1024 := by omega
  rw [hflush, mirrorErrata_few hroom] at hexec
  exact ⟨_, hexec, rfl, rfl, ⟨_, rfl, rfl⟩, rfl⟩

end Sys2Proof.Machine
end

section
/-! SUPPORT. Transfers of the DMA engines: armed, served, halted, resumed, aborted and moved (R429 to R437). -/

namespace Sys2Proof.Machine

/-! ### Channels -/

/-- An engine of the module has the channel. -/
def State.hasChannel (s : State) (sec n : Nat) : Prop := ∃ e ch, s.port.engines[sec]? = some e ∧ e.channels[n]? = some ch

/-- A channel that is not idle is one of the module's channels. -/
theorem channel_exists {s : State} {sec n : Nat} (h : (s.channel sec n).state ≠ 0) :
    ∃ e ch, s.port.engines[sec]? = some e ∧ e.channels[n]? = some ch ∧ s.channel sec n = ch := by
  unfold State.channel at h ⊢
  cases he : s.port.engines[sec]? with
  | none => rw [he] at h; exact absurd rfl h
  | some e =>
    cases hc : e.channels[n]? with
    | none => rw [he, Option.bind_some, hc] at h; exact absurd rfl h
    | some ch => exact ⟨e, ch, rfl, hc, by rw [Option.bind_some, hc]; rfl⟩

theorem channel_of_getElem? {s : State} {sec n : Nat} {e : Dma} {ch : Channel} (he : s.port.engines[sec]? = some e)
    (hc : e.channels[n]? = some ch) : s.channel sec n = ch := by
  rw [State.channel, he, Option.bind_some, hc]; rfl

/-- Channel n of engine sec after a change of that engine which maps the channel by f. -/
theorem channel_modAt_engine {s : State} {sec n : Nat} {g : Dma → Dma} {f : Channel → Channel}
    (hg : ∀ e : Dma, (g e).channels[n]? = (e.channels[n]?).map f)
    (hex : s.hasChannel sec n) (p : Port)
    (hp : p.engines = modAt s.port.engines sec g) : p.channel sec n = f (s.channel sec n) := by
  obtain ⟨e, ch, he, hc⟩ := hex
  rw [channel_of_getElem? he hc, Port.channel, hp, modAt_getElem?, if_pos rfl, he, Option.map_some, Option.bind_some, hg, hc]
  rfl

theorem hasChannel_of_state {s : State} {sec n : Nat} (h : (s.channel sec n).state ≠ 0) : s.hasChannel sec n := by
  obtain ⟨e, ch, he, hc, -⟩ := channel_exists h
  exact ⟨e, ch, he, hc⟩

theorem hasChannel_modChannel {s : State} {sec n : Nat} (f : Channel → Channel) (h : s.hasChannel sec n) :
    (s.modChannel sec n f).hasChannel sec n := by
  obtain ⟨e, ch, he, hc⟩ := h
  refine ⟨{ e with channels := modAt e.channels n f }, f ch, ?_, ?_⟩
  · rw [State.modChannel, modAt_getElem?, if_pos rfl, he]; rfl
  · rw [modAt_getElem?, if_pos rfl, hc]; rfl

/-- A channel changed reads as changed, where the engine has it. -/
theorem channel_modChannel {s : State} {sec n : Nat} (f : Channel → Channel)
    (hex : s.hasChannel sec n) :
    (s.modChannel sec n f).channel sec n = f (s.channel sec n) :=
  channel_modAt_engine (fun e => by rw [modAt_getElem?, if_pos rfl]) hex _ rfl

/-- A change of one channel leaves the others as they were. -/
theorem channel_modChannel_other {s : State} {sec n k m : Nat} (f : Channel → Channel) (h : (k, m) ≠ (sec, n)) :
    (s.modChannel sec n f).channel k m = s.channel k m := by
  by_cases hk : k = sec
  · have hm : m ≠ n := fun hm => h (by rw [hk, hm])
    exact Port.channel_modAt s.port sec k m s.port.started _ fun e => by simp [modAt_getElem?, hm]
  · simp only [State.channel, State.modChannel, modAt_getElem?, if_neg hk]

/-- A started command changed in a way that keeps its pair and TAG. -/
theorem started?_modStarted {s : State} {q tag : Nat} {c : Started} (f : Started → Started)
    (hf : ∀ u, (f u).q = u.q ∧ (f u).tag = u.tag) (h : s.started? q tag = some c) :
    (s.modStarted q tag f).started? q tag = some (f c) := by
  unfold State.started? State.modStarted at *
  dsimp only
  have hkey (u : Started) : ((if (u.q == q && u.tag == tag) = true then f u else u).q == q &&
      (if (u.q == q && u.tag == tag) = true then f u else u).tag == tag) = (u.q == q && u.tag == tag) := by
    split
    · rw [(hf u).1, (hf u).2]
    · rfl
  have hpair : (c.q == q && c.tag == tag) = true := List.find?_some (p := fun u : Started => u.q == q && u.tag == tag) h
  rw [List.find?_map, show (fun u => u.q == q && u.tag == tag) ∘ (fun u => if (u.q == q && u.tag == tag) = true then f u else u)
    = fun u => u.q == q && u.tag == tag from funext hkey, h, Option.map_some]
  exact congrArg some (if_pos hpair)

/-! ### DMA_START -/

/-- The channel that a DMA_START arms. -/
def Started.armed (c : Started) (q tag : Nat) : Channel :=
  { src := c.arg 3 ++ c.arg 2, dst := c.arg 5 ++ c.arg 4, cfg := c.arg 6, rows := c.arg 7, rowBytes := c.arg 8
    srcPitch := c.arg 9, dstPitch := c.arg 10, state := 1, dir := false, cause := 0, queue := q, tag := tag, fail := 0, done := 0 }

theorem exec_dmaStart_nothing {s : State} {q tag : Nat} {c : Started} (h : s.commandAt q tag 0x30 c)
    (hv : s.dmaCheck c = cDone) (hnone : c.arg 7 = 0 ∨ c.arg 8 = 0) :
    exec (.dmaStart q tag) s = .next (s.finish q tag cDone 0 0) := by
  have hnone' : (decide (c.arg 7 = 0) || decide (c.arg 8 = 0)) = true := by simpa using hnone
  rw [exec_dmaStart, execDmaStart, onStarted_commandAt h _ _ rfl]
  simp only [hv, bne_self_eq_false, Bool.false_eq_true, if_false]
  exact congrArg _ (if_pos hnone')

theorem exec_dmaStart_arms {s : State} {q tag : Nat} {c : Started} (h : s.commandAt q tag 0x30 c)
    (hv : s.dmaCheck c = cDone) (h7 : c.arg 7 ≠ 0) (h8 : c.arg 8 ≠ 0) :
    exec (.dmaStart q tag) s = .next
      ((s.modChannel (bits (c.arg 1) 1 0) (bits (c.arg 1) 3 2) fun _ => c.armed q tag).modStarted q tag
        fun u => { u with begun := true }) := by
  have hsome : ¬ (decide (c.arg 7 = 0) || decide (c.arg 8 = 0)) = true := by simpa using ⟨h7, h8⟩
  rw [exec_dmaStart, execDmaStart, onStarted_commandAt h _ _ rfl]
  simp only [hv, bne_self_eq_false, Bool.false_eq_true, if_false]
  exact congrArg _ (if_neg hsome)

/-- Settles O23: the checks' code decides between a refusal, a transfer of nothing and an armed channel. -/
theorem dmaStartArms : Obligations.DmaStartArms := by
  intro s q tag c h
  obtain ⟨hstarted, hdiscard, htakes⟩ := commandAt_ends h
  refine ⟨fun hv => ⟨_, exec_dmaStart_refused h hv, finish_takes s q tag c _ 0 0 hstarted hdiscard htakes⟩,
    fun hv hnone => ⟨_, exec_dmaStart_nothing h hv hnone, finish_takes s q tag c _ 0 0 hstarted hdiscard htakes⟩,
    fun ch hv h7 h8 hch => ?_⟩
  obtain ⟨e, he, hc⟩ := Option.bind_eq_some_iff.1 hch
  refine ⟨_, exec_dmaStart_arms h hv h7 h8, ?_, fun k m hkm => ?_, ?_, rfl⟩
  · exact channel_modChannel (fun _ => c.armed q tag) ⟨e, ch, he, hc⟩
  · exact channel_modChannel_other _ hkm
  · exact started?_modStarted (s := s.modChannel _ _ fun _ => c.armed q tag) (fun u => { u with begun := true })
      (fun _ => ⟨rfl, rfl⟩) hstarted

/-! ### Serving -/

/-- The channel served next is armed, and in the order that begins above the one last served no armed channel precedes it. -/
theorem Dma.next_spec {e : Dma} {n : Nat} (h : e.next = some n) :
    (∃ ch, e.channels[n]? = some ch ∧ ch.state = 1) ∧
    ∀ m ch, m < 8 → e.channels[m]? = some ch → ch.state = 1 →
      (n + 7 - e.last) % 8 ≤ (m + 7 - e.last) % 8 ∨ 8 ≤ e.last := by
  rw [Dma.next, List.find?_map] at h
  obtain ⟨i, hi, rfl⟩ := Option.map_eq_some_iff.1 h
  obtain ⟨hat, hi8, hbefore⟩ := List.find?_range_eq_some.1 hi
  rw [List.mem_range] at hi8
  refine ⟨?_, fun m ch hm hch hstate => ?_⟩
  · simp only [Function.comp] at hat
    cases hc : e.channels[(e.last + 1 + i) % 8]? with
    | none => rw [hc] at hat; cases hat
    | some ch => exact ⟨ch, rfl, by simpa [hc] using hat⟩
  · by_cases hlast : 8 ≤ e.last
    · exact .inr hlast
    · refine .inl (Nat.le_of_not_lt fun hlt => ?_)
      have hplace : (e.last + 1 + (m + 7 - e.last) % 8) % 8 = m := by omega
      have hskipped := hbefore ((m + 7 - e.last) % 8) (by omega)
      simp only [Function.comp, hplace, hch, Option.map_some, Option.getD_some, hstate] at hskipped
      cases hskipped

theorem exec_dmaChannelStart_busy {s : State} {sec : Nat} {e : Dma} (he : s.port.engines[sec]? = some e)
    (hbusy : e.busy = true) : exec (.dmaChannelStart sec) s = .next s := by
  have hexec : exec (.dmaChannelStart sec) s = execDmaChannelStart sec s := rfl
  rw [hexec, execDmaChannelStart, he]
  exact congrArg _ (if_pos hbusy)

/-- Channel n of an engine set to run. -/
def State.serveChannel (s : State) (sec n : Nat) : State :=
  { s with port := { s.port with engines := modAt s.port.engines sec fun e =>
    { e with channels := modAt e.channels n (fun ch => { ch with state := 2 }), current := n } } }

theorem exec_dmaChannelStart_next {s : State} {sec n : Nat} {e : Dma} (he : s.port.engines[sec]? = some e)
    (hbusy : e.busy = false) (hnext : e.next = some n) : exec (.dmaChannelStart sec) s = .next (s.serveChannel sec n) := by
  have hexec : exec (.dmaChannelStart sec) s = execDmaChannelStart sec s := rfl
  rw [hexec, execDmaChannelStart, he]
  simp only [hbusy, hnext, Bool.false_eq_true, if_false]
  rfl

/-- The next channel of an engine that serves none starts to run. -/
theorem dmaChannelStart_runs {s : State} {sec n : Nat} {e : Dma} (he : s.port.engines[sec]? = some e) (hbusy : e.busy = false)
    (hnext : e.next = some n) :
    ∃ t, exec (.dmaChannelStart sec) s = .next t ∧ t.channel sec n = { s.channel sec n with state := 2 } ∧
      (∀ k m, (k, m) ≠ (sec, n) → t.channel k m = s.channel k m) ∧ (s.channel sec n).state = 1 ∧
      (∀ m, m < 8 → (s.channel sec m).state = 1 → (n + 7 - e.last) % 8 ≤ (m + 7 - e.last) % 8 ∨ 8 ≤ e.last) ∧
      t = { s with port := { s.port with engines := t.port.engines } } := by
  obtain ⟨⟨ch, hch, hstate⟩, horder⟩ := Dma.next_spec hnext
  refine ⟨_, exec_dmaChannelStart_next he hbusy hnext, ?_, fun k m hkm => ?_, by rw [channel_of_getElem? he hch]; exact hstate, fun m hm hm1 => ?_, rfl⟩
  · exact channel_modAt_engine (f := fun ch => { ch with state := 2 })
      (g := fun e => { e with channels := modAt e.channels n (fun ch => { ch with state := 2 }), current := n })
      (fun e => by rw [modAt_getElem?, if_pos rfl]) ⟨e, ch, he, hch⟩ _ rfl
  · by_cases hk : k = sec
    · have hm : m ≠ n := fun hm => hkm (by rw [hk, hm])
      exact Port.channel_modAt s.port sec k m s.port.started _ fun e => by simp [modAt_getElem?, hm]
    · simp only [State.channel, State.serveChannel, modAt_getElem?, if_neg hk]
  · obtain ⟨e', ch', he', hch', hsame⟩ := channel_exists (s := s) (sec := sec) (n := m) (by rw [hm1]; decide)
    rw [he, Option.some.injEq] at he'
    subst he'
    exact horder m ch' hm hch' (hsame ▸ hm1)

/-! ### A plain copy of one block -/

theorem meetErrors_none {s : State} (h : s.rack.flawed = []) : s.meetErrors = s := by
  rw [State.meetErrors, h]; rfl

theorem exec_dmaChannelDone {s : State} {sec n : Nat} (host : HostData) (h : s.runningDma sec = some n)
    (hhost : s.hostWaits (s.channel sec n) = false) :
    exec (.dmaChannelDone sec host) s = .next (s.meetErrors.endTransfer sec n host) := by
  have hexec : exec (.dmaChannelDone sec host) s = execDmaChannelDone sec host s := rfl
  rw [hexec, execDmaChannelDone, h]
  exact congrArg _ (if_neg (by rw [hhost]; decide))

/-- The channel idle again and the last one served of its engine. -/
def State.served (s : State) (sec n : Nat) : State :=
  let t := s.modChannel sec n fun k => { k with state := 0 }
  { t with port := { t.port with engines := modAt t.port.engines sec fun e => { e with last := n } } }

/-- A plain transfer that does not write to the host moves whole, its channel becomes idle, and its command completes with the
bytes moved. -/
theorem endTransfer_plain {s : State} {sec n : Nat} (host : HostData) (hdst : cfgDst (s.channel sec n).cfg ≠ 0)
    (hplain : (s.channel sec n).cfg.getLsbD 6 = false) :
    s.endTransfer sec n host = ((s.moveTo sec n (64 * (s.channel sec n).blocks) host).served sec n).finish
      (s.channel sec n).queue (s.channel sec n).tag cDone (w32 (64 * (s.channel sec n).blocks))
      (w32 (64 * (s.channel sec n).blocks / 0x100000000)) := by
  have hhalt : s.hostHalt sec (s.channel sec n) ((s.channel sec n).done.toNat / 64) = none := by
    rw [State.hostHalt]
    exact if_pos (by simpa using hdst)
  unfold State.endTransfer
  simp only [hhalt, hplain, Bool.false_eq_true, if_false]
  rfl

/-- Block 0 of a copy from a core store to a section store, put where the destination names. -/
theorem copyBlk_core_to_section {s : State} {sec : Nat} {ch : Channel} (host : List Byte) (hsrc : cfgSrc ch.cfg = 4)
    (hdst : cfgDst ch.cfg = 3) :
    s.copyBlk sec ch 0 host =
      { s with
        sectMem := s.sectMem.putBlk (sectAddr sec (ch.dst.toNat % Config.sectionBytes))
          (s.coreBlk (ch.src.toNat / 0x1000000000000 % 64) (ch.src.toNat % 0x800000))
        sectLines := addLines s.sectLines (sectAddr sec (ch.dst.toNat % Config.sectionBytes)) 64 } := by
  have hat : ch.srcBlk 0 = ch.src := by simp [Channel.srcBlk, Channel.srcAt]
  have hgood : s.badSource sec ch ch.src = false := by simp [State.badSource, State.caskAddr?, hsrc]
  unfold State.copyBlk
  simp only [hat, hgood, hsrc, hdst, Bool.false_eq_true, if_false, Nat.zero_div, Nat.zero_mod, Nat.zero_mul, Nat.mul_zero,
    BitVec.ofNat_eq_ofNat, BitVec.add_zero]
  rfl

/-- The state in which a transfer of one block from a core store to a section store ends its command. -/
theorem moveTo_core_to_section {s : State} {sec n : Nat} (host : HostData) (hsrc : cfgSrc (s.channel sec n).cfg = 4)
    (hdst : cfgDst (s.channel sec n).cfg = 3) (hplain : (s.channel sec n).cfg.getLsbD 6 = false)
    (hdone : (s.channel sec n).done = 0) :
    s.moveTo sec n 64 host = ({ s with
      draws := s.draws + 1
      sectMem := s.sectMem.putBlk (sectAddr sec ((s.channel sec n).dst.toNat % Config.sectionBytes))
        (s.coreBlk ((s.channel sec n).src.toNat / 0x1000000000000 % 64) ((s.channel sec n).src.toNat % 0x800000))
      sectLines := addLines s.sectLines (sectAddr sec ((s.channel sec n).dst.toNat % Config.sectionBytes)) 64 } :
        State).modChannel sec n fun k => { k with done := 64 } := by
  unfold State.moveTo
  have hone : 64 / 64 - (s.channel sec n).done.toNat / 64 = 1 := by rw [hdone]; rfl
  have hzero : (s.channel sec n).done.toNat / 64 = 0 := by rw [hdone]; rfl
  simp only [hplain, hsrc, hone, hzero, Bool.false_eq_true, if_false, if_true, State.copyBlks,
    copyBlk_core_to_section host hsrc hdst]
  rfl

/-- A block of a core store reads as the store holds it where neither the module's own filling nor the vector scratch covers
it (logs 34, 141). -/
theorem coreBlk_of_stored {s : State} {core off : Nat} (hfilled : s.moduleFilled core off = false)
    (hscratch : off + 64 ≤ 0x340000 ∨ 0x440000 ≤ off) : s.coreBlk core off = s.coreMem.blk (coreAddr core off) := by
  have hread : s.coreRead core off 64 = s.coreMem.read (coreAddr core off) 64 := by
    unfold State.coreRead
    refine if_pos ?_
    simp only [Bool.or_eq_true, decide_eq_true_eq]
    rcases hscratch with h | h
    · exact .inl (.inr h)
    · exact .inr h
  unfold State.coreBlk
  simp only [hfilled, Bool.false_eq_true, if_false, hread]
  rfl

/-! ### Channels across the end of a command -/

/-- An idle channel is idle after a command has left, whichever channel the command held. -/
theorem leave_channel_idle {p : Port} (q tag : Nat) (c : Option Nat) {sec n : Nat} (h : (p.channel sec n).state = 0) :
    ((p.leave q tag c).channel sec n).state = 0 := by
  by_cases hc : c = some n
  · subst hc
    unfold Port.channel Port.leave at *
    dsimp only at *
    rw [modAt_getElem?]
    split
    · cases he : p.engines[sec]? with
      | none => rfl
      | some e =>
        rw [he, Option.bind_some] at h
        rw [Option.map_some, Option.bind_some, modAt_getElem?, if_pos rfl]
        cases hch : e.channels[n]? <;> rfl
    · exact h
  · rw [leave_channel p q tag sec hc]
    exact h

/-- An idle transfer channel is idle after the end of a command. -/
theorem finish_channel_idle {s : State} (q tag : Nat) (code : Code) (r0 r1 : W32) {sec n : Nat} (hn : n < 4)
    (h : (s.channel sec n).state = 0) : ((s.finish q tag code r0 r1).channel sec n).state = 0 := by
  cases hc : s.started? q tag with
  | none => rw [State.finish, hc]; exact h
  | some c =>
    rw [State.channel_eq_port, Port.channel, finish_engines s q tag c code r0 r1 hc, ← Port.channel,
      armBuffers_channel _ _ hn]
    exact leave_channel_idle q tag c.chan h

theorem runningDma_spec {s : State} {sec n : Nat} (h : s.runningDma sec = some n) :
    n < 4 ∧ (s.channel sec n).state = 2 := by
  have hmem := List.mem_of_find?_eq_some h
  have hstate := List.find?_some (p := fun c => (s.channel sec c).state == 2) h
  exact ⟨List.mem_range.1 hmem, by simpa using hstate⟩

theorem served_channel {s : State} {sec n : Nat} (hex : s.hasChannel sec n) :
    ((s.served sec n).channel sec n).state = 0 := by
  have hsame : (s.served sec n).channel sec n = (s.modChannel sec n fun k => { k with state := 0 }).channel sec n :=
    Port.channel_modAt (s.modChannel sec n fun k => { k with state := 0 }).port sec sec n s.port.started _ fun _ => rfl
  rw [hsame, channel_modChannel _ hex]

/-- Settles O26: the transfer's one block moves, and its command ends. -/
theorem dmaCopiesBlock : Obligations.DmaCopiesBlock := by
  intro s sec n host ch u hrun hflawed hch hsrc hdst hplain hrows hbytes hdone hu hdiscard htakes
  subst hch
  obtain ⟨hn, hstate⟩ := runningDma_spec hrun
  have hblocks : (s.channel sec n).blocks = 1 := by rw [Channel.blocks, hrows, hbytes]; rfl
  have hhost : s.hostWaits (s.channel sec n) = false := by simp [State.hostWaits, hsrc, hdst]
  have hexec := exec_dmaChannelDone host hrun hhost
  have hlow : w32 (64 * 1) = 64 := rfl
  have hhigh : w32 (64 * 1 / 0x100000000) = 0 := rfl
  rw [meetErrors_none hflawed, endTransfer_plain host (by rw [hdst]; decide) hplain, hblocks,
    moveTo_core_to_section host hsrc hdst hplain hdone, hlow, hhigh] at hexec
  generalize hm : s.sectMem.putBlk (sectAddr sec ((s.channel sec n).dst.toNat % Config.sectionBytes))
    (s.coreBlk ((s.channel sec n).src.toNat / 0x1000000000000 % 64) ((s.channel sec n).src.toNat % 0x800000)) = m at hexec ⊢
  generalize hl : addLines s.sectLines (sectAddr sec ((s.channel sec n).dst.toNat % Config.sectionBytes)) 64 = l at hexec ⊢
  generalize hv : (({ s with draws := s.draws + 1, sectMem := m, sectLines := l } : State).modChannel sec n
    fun k => { k with done := 64 }).served sec n = v at hexec
  have htakes' : v.takesEntry (s.channel sec n).queue = true := by rw [← hv]; exact htakes
  have hstarted : v.started? (s.channel sec n).queue (s.channel sec n).tag = some u := by rw [← hv]; exact hu
  have hanswered := finish_answered (s := s) (data := []) cDone 64 0 htakes' hstarted hdiscard
    (by rw [← hv]; exact (List.append_nil _).symm) (fun p _ => by rw [← hv]; rfl)
  have hframe := finish_frame cDone 64 0 htakes' hstarted hdiscard
  have hidle : ((v.finish (s.channel sec n).queue (s.channel sec n).tag cDone 64 0).channel sec n).state = 0 := by
    refine finish_channel_idle _ _ _ _ _ hn ?_
    rw [← hv]
    exact served_channel (hasChannel_modChannel _ (hasChannel_of_state (s := s) (by rw [hstate]; decide)))
  subst hv
  refine ⟨_, hexec, ?_, ?_, ?_, hidle, hanswered, ?_, fun hfilled hscratch => coreBlk_of_stored hfilled hscratch⟩
  all_goals rw [hframe]
  all_goals rfl

end Sys2Proof.Machine
end

section
/-! SUPPORT. Throttling and telemetry (R501 to R505), Run and Ready, the sideband (R494, R498, R499), outputs (R489, R490). -/

namespace Sys2Proof.Machine

/-! ### THROTTLE_ADJUST (R504) -/

/-- A throttle step adjusts F of each section and changes power management, the port and the errata log alone. -/
theorem exec_throttleAdjust_frame {s : State} (hon : s.dieOn = true) (x : Sensors) :
    ∃ t, exec (.throttleAdjust x) s = .next t ∧ t.power.frac = (List.range 4).map (s.adjustedFrac x) ∧
      t = { s with power := t.power, port := t.port, errata := t.errata } := by
  have hruns : (!s.telRuns) = false := by simp [State.telRuns, hon]
  have hevent (u : State) (first go : Bool) (code : Code) (detail : Nat) :
      ∃ p e, (if go then u.throttled first code detail else u) = { u with port := p, errata := e } := by
    cases go
    · exact ⟨_, _, rfl⟩
    · exact ⟨_, _, u.throttled_frame first code detail⟩
  have hexec : exec (.throttleAdjust x) s = execThrottleAdjust x s := rfl
  rw [hexec, execThrottleAdjust, hruns]
  obtain ⟨p, e, h⟩ := hevent s (!s.power.capping) (decide (1000 * s.capInEffect < x.powerIn)) cPowerCap x.powerIn
  simp only [h]
  obtain ⟨p', e', h'⟩ := hevent { s with port := p, errata := e } (!s.power.thermal)
    ((List.range 4).any fun i => decide (s.tjThrottle ≤ x.tj.getD i 0) || decide (95 ≤ x.tCask)) cThermal
    ((List.range 4).foldl (fun m i => max m (x.tj.getD i 0)) x.tCask)
  simp only [h']
  exact ⟨_, rfl, rfl, rfl⟩

theorem State.heldAt_eq_false {s : State} {x : Sensors} {i : Nat}
    (h : s.power.emergency.getD i false = false ∨ x.tj.getD i 0 < 100) : s.heldAt x i = false := by
  rw [State.heldAt, Bool.and_eq_false_iff, decide_eq_false_iff_not, Nat.not_le]
  exact h

theorem State.lowersAt_eq_true {s : State} {x : Sensors} {i : Nat} :
    s.lowersAt x i = true ↔ 1000 * s.capInEffect < x.powerIn ∨ s.tjThrottle ≤ x.tj.getD i 0 ∨ 95 ≤ x.tCask := by
  simp only [State.lowersAt, Bool.or_eq_true, decide_eq_true_iff]

theorem State.adjustedFrac_lowers {s : State} {x : Sensors} {i : Nat} (hheld : s.heldAt x i = false)
    (hlow : s.lowersAt x i = true) : s.adjustedFrac x i = max 1 (s.power.frac.getD i 16 - 1) := by
  simp [State.adjustedFrac, hheld, hlow]

theorem State.adjustedFrac_stands {s : State} {x : Sensors} {i : Nat} (hheld : s.heldAt x i = false)
    (hlow : s.lowersAt x i = false) (hup : s.raisesAt x i = false) : s.adjustedFrac x i = s.power.frac.getD i 16 := by
  simp [State.adjustedFrac, hheld, hlow, hup]

/-- A section below every limit, but not far enough below, neither falls nor rises. -/
theorem State.between_stands {s : State} {x : Sensors} {i : Nat} (hcap : x.powerIn ≤ 1000 * s.capInEffect)
    (hlimit : x.tj.getD i 0 < s.tjThrottle) (hcask : x.tCask < 95)
    (hnear : 95 * (1000 * s.capInEffect) ≤ 100 * x.powerIn ∨ s.tjThrottle ≤ x.tj.getD i 0 + 3) :
    s.lowersAt x i = false ∧ s.raisesAt x i = false := by
  constructor
  · rw [State.lowersAt, decide_eq_false (Nat.not_lt.2 hcap), decide_eq_false (Nat.not_le.2 hlimit),
      decide_eq_false (Nat.not_le.2 hcask)]; rfl
  · rw [State.raisesAt, Bool.and_eq_false_iff, Bool.and_eq_false_iff, decide_eq_false_iff_not, decide_eq_false_iff_not,
      Nat.not_lt, Nat.not_lt]
    exact Or.inl hnear

/-! ### TELEMETRY_SAMPLE (R501, R502) -/

/-- What a telemetry sample leaves in the record that software reads. -/
theorem exec_telemetrySample_spec {s : State} (hon : s.dieOn = true) (x : Sensors) :
    ∃ t, exec (.telemetrySample x) s = .next t ∧ t.power.telemetry.length = 16 ∧
      wd t.power.telemetry 0 = w32 x.powerIn ∧ wd t.power.telemetry 1 = w32 x.powerDie ∧
      t.power.energy = s.power.energy + BitVec.ofNat 64 x.energy ∧
      wd t.power.telemetry 6 = t.power.energy.setWidth 32 ∧ wd t.power.telemetry 7 = (t.power.energy >>> 32).setWidth 32 ∧
      wd t.power.telemetry 9 = s.now.setWidth 32 ∧ wd t.power.telemetry 10 = (s.now >>> 32).setWidth 32 ∧
      t.power.frac = s.power.frac ∧ t.board.powerIn = w32 x.powerIn ∧ t = { s with power := t.power, board := t.board } := by
  have hruns : (!s.telRuns) = false := by simp [State.telRuns, hon]
  have hexec : exec (.telemetrySample x) s = execTelemetrySample x s := rfl
  rw [hexec, execTelemetrySample, hruns]
  exact ⟨_, rfl, rfl, rfl, rfl, rfl, rfl, rfl, rfl, rfl, rfl, rfl, rfl⟩

/-- Settles O47: a throttle step section by section, the fields of a telemetry record, and the SYNC input where assigned. -/
theorem throttling : Obligations.Throttling := by
  intro s x
  refine ⟨fun hon => ?_, fun hon => ?_, fun level hpin => ⟨_, ?_, rfl⟩⟩
  · obtain ⟨t, hexec, hfrac, hframe⟩ := exec_throttleAdjust_frame hon x
    refine ⟨t, hexec, fun i hi f tj hf htj => ?_, hframe⟩
    rw [hfrac, map_range_getD _ _ hi, hf, htj]
    refine ⟨fun hheld => State.adjustedFrac_held (State.heldAt_eq_true.2 hheld), fun hfree hcause => ?_,
      fun hfree hcap hpower hcool hcask => ?_, fun hfree hcap hlimit hcask hnear => ?_⟩
    · exact State.adjustedFrac_lowers (State.heldAt_eq_false hfree) (State.lowersAt_eq_true.2 hcause)
    · obtain ⟨hlow, hup⟩ := State.cool_rises hcap hpower hcool hcask
      exact State.adjustedFrac_rises (State.heldAt_eq_false hfree) hlow hup
    · obtain ⟨hlow, hup⟩ := State.between_stands hcap hlimit hcask hnear
      exact State.adjustedFrac_stands (State.heldAt_eq_false hfree) hlow hup
  · obtain ⟨t, hexec, hlength, hin, hdie, henergy, hlow, hhigh, htime, htimeHi, hfrac, hboard, hframe⟩ :=
      exec_telemetrySample_spec hon x
    refine ⟨t, hexec, hlength, hin, hdie, henergy, ?_, ?_, ?_, ?_, hfrac, hboard, hframe⟩
    · rw [hlow, setWidth_32_eq_extractLsb']
    · rw [hhigh, ushiftRight_setWidth_32_eq_extractLsb']
    · rw [htime, setWidth_32_eq_extractLsb']; rfl
    · rw [htimeHi, ushiftRight_setWidth_32_eq_extractLsb']; rfl
  · have hexec : exec (.syncThrottleInput level) s = execSyncThrottleInput level s := rfl
    rw [hexec, execSyncThrottleInput, if_pos hpin]

/-! ### Run and Ready, wake events, the sideband (R494, R498, R499) -/

theorem boardLog_frame (s : State) (a b : Nat) :
    s.boardLog a b = { s with board := { s.board with unlogged := (s.boardLog a b).board.unlogged }
                              errata := (s.boardLog a b).errata } := by
  unfold State.boardLog
  split <;> rfl

/-- A wake event of Rest, Dormant or Standby is queued, and WAKE# asserted in Dormant. -/
theorem wakeEvent_sleeping {s : State}
    (h : s.power.state = .rest ∨ s.power.state = .dormant ∨ s.power.state = .standby) :
    s.wakeEvent = { s with power := { s.power with queuedWake := true }
                           board := { s.board with wake := s.board.wake || s.power.state == .dormant } } := by
  unfold State.wakeEvent
  rw [if_pos (by simpa [or_assoc] using h)]
  rfl

theorem exec_enterReady {s : State} (hrun : s.power.state = .run) (hcmds : s.cmds = []) (hdma : s.dmaIdle = true)
    (hparts : ∀ p ∈ s.parts, p.cycle = none) :
    exec .enterReady s = .next ((s.quench fun _ => true).modPower fun p => { p with state := .ready }) := by
  have hidle : (s.power.state == .run && s.cmds.isEmpty && s.dmaIdle && s.parts.all (fun p => p.cycle.isNone)) = true := by
    simpa [hrun, hcmds, hdma] using hparts
  have hexec : exec .enterReady s = execEnterReady s := rfl
  rw [hexec, execEnterReady, if_pos hidle]

/-- With every core quenched, simmer stops on each. -/
theorem quench_all (s : State) :
    s.quench (fun _ => true) = { s with cores := s.cores.map fun x => { x with simmer := 0, ramp := 8 } } := by
  have hall : s.cores.zipIdx.map (fun x => if true = true then { x.1 with simmer := 0, ramp := 8 } else x.1) =
      s.cores.map fun x => { x with simmer := 0, ramp := 8 } := by
    conv => rhs; rw [← List.zipIdx_map_fst 0 s.cores, List.map_map]
    exact List.map_congr_left fun x _ => rfl
  rw [State.quench, hall]

theorem exec_returnToRun {s : State} (hready : s.power.state = .ready) (hconfig : s.power.config ≠ 0) :
    exec .returnToRun s = .next (s.modPower fun p => { p with state := .run }) := by
  have hexec : exec .returnToRun s = execReturnToRun s := rfl
  rw [hexec, execReturnToRun, if_pos (by simpa [hready] using hconfig)]

theorem exec_wakeAtReached {s : State} (hsleeps : s.power.state = .rest ∨ s.power.state = .dormant)
    (hset : s.power.wakeAt ≠ 0) (hnow : s.power.wakeAt.toNat ≤ s.time.tsy.toNat) :
    exec .wakeAtReached s = .next (s.wakeEvent.modPower fun p => { p with wakeAt := 0 }) := by
  have hdue : ((s.power.state == .rest || s.power.state == .dormant) && s.power.wakeAt != 0 &&
      decide (s.power.wakeAt.toNat ≤ s.now.toNat)) = true := by
    rcases hsleeps with h | h <;> simpa [h, State.now, hnow] using hset
  have hexec : exec .wakeAtReached s = execWakeAtReached s := rfl
  rw [hexec, execWakeAtReached, if_pos hdue]

theorem exec_sidebandStatus {s : State} (haux : s.board.auxOk = true) :
    exec .sidebandStatus s =
      .next { ((s.emit (.sideband (16 :: wordsBytes s.statusBlock))).boardLog 1 0) with
        board := { ((s.emit (.sideband (16 :: wordsBytes s.statusBlock))).boardLog 1 0).board with trip := false } } := by
  have hexec : exec .sidebandStatus s = execSidebandStatus s := rfl
  rw [hexec, execSidebandStatus, if_pos haux]

theorem exec_sidebandWake {s : State} (haux : s.board.auxOk = true) :
    exec (.sidebandWake 0xA5 true) s = .next (s.boardLog 2 0).wakeEvent := by
  have hexec : exec (.sidebandWake 0xA5 true) s = execSidebandWake 0xA5 true s := rfl
  rw [hexec, execSidebandWake, haux]
  rfl

/-- What a sideband STANDBY begins: an entry to Standby, or one after the entry under way. -/
def Power.sidebandEntry (p : Power) : Power :=
  if p.entry.isSome then { p with sbStandby := true } else { p with entry := some (4, none) }

theorem exec_sidebandStandby {s : State} (haux : s.board.auxOk = true) (hhonoured : (s.sys 53).getLsbD 18 = true)
    (hstandby : s.power.state ≠ .standby) (hoff : s.power.state ≠ .off) (hstarting : s.power.state ≠ .starting) :
    exec (.sidebandStandby 0x5A true) s = .next ((s.boardLog 3 0).modPower Power.sidebandEntry) := by
  have hpower : (s.boardLog 3 0).power = s.power := by rw [boardLog_frame]
  have hsys : (s.boardLog 3 0).sys 53 = s.sys 53 := by rw [boardLog_frame]; rfl
  have hstands : (!((s.boardLog 3 0).sys 53).getLsbD 18 || (s.boardLog 3 0).power.state == .standby ||
      (s.boardLog 3 0).power.state == .off || (s.boardLog 3 0).power.state == .starting) = false := by
    simp only [hpower, hsys, hhonoured, Bool.or_eq_false_iff, beq_eq_false_iff_ne]
    exact ⟨⟨⟨rfl, hstandby⟩, hoff⟩, hstarting⟩
  have hgood : (s.board.auxOk && true && (0x5A : Byte) == 0x5A) = true := by rw [haux]; rfl
  have hexec : exec (.sidebandStandby 0x5A true) s = execSidebandStandby 0x5A true s := rfl
  rw [hexec, execSidebandStandby, if_pos hgood]
  dsimp only
  rw [hstands, if_neg Bool.false_ne_true]
  congr 1
  unfold State.modPower Power.sidebandEntry
  split <;> rfl

/-- Settles O44: each row's condition holds, and its one change follows. -/
theorem sidebandAndReady : Obligations.SidebandAndReady := by
  refine ⟨fun s => ⟨fun hrun hcmds hdma hparts => ?_, fun hready hconfig => ⟨_, exec_returnToRun hready hconfig, rfl⟩,
    fun hsleeps hset hnow => ⟨_, exec_wakeAtReached hsleeps hset hnow, ?_⟩⟩, fun s haux => ⟨?_, fun hsleeps => ?_,
    fun hhonoured hstandby hoff hstarting => ?_, fun b => ⟨?_, ?_⟩⟩⟩
  · refine ⟨_, exec_enterReady hrun hcmds hdma hparts, ?_, rfl⟩
    rw [quench_all]; rfl
  · rw [wakeEvent_sleeping (hsleeps.imp_right Or.inl)]
    rfl
  · refine ⟨_, exec_sidebandStatus haux, ?_, ?_, ?_⟩ <;> rw [boardLog_frame] <;> rfl
  · have hpower : (s.boardLog 2 0).power = s.power := by rw [boardLog_frame]
    refine ⟨_, exec_sidebandWake haux, ?_, ?_, ?_⟩ <;> rw [wakeEvent_sleeping (by rw [hpower]; exact hsleeps), boardLog_frame] <;> rfl
  · refine ⟨_, exec_sidebandStandby haux hhonoured hstandby hoff hstarting, fun hnone => ?_, fun hsome => ?_, ?_⟩
    · rw [boardLog_frame]
      show Power.sidebandEntry s.power = _
      rw [Power.sidebandEntry, hnone]; rfl
    · rw [boardLog_frame]
      show Power.sidebandEntry s.power = _
      rw [Power.sidebandEntry, if_pos (Option.isSome_iff_ne_none.2 hsome)]
    · rw [boardLog_frame]; rfl
  · have hexec : exec (.sidebandWake b false) s = execSidebandWake b false s := rfl
    rw [hexec, execSidebandWake, Bool.and_false, Bool.false_and]; rfl
  · have hexec : exec (.sidebandStandby b false) s = execSidebandStandby b false s := rfl
    rw [hexec, execSidebandStandby, Bool.and_false, Bool.false_and]; rfl

end Sys2Proof.Machine
end

section
/-! SUPPORT. What the cask's upkeep leaves unchanged: everything but the leaves and their copies. -/

namespace Sys2Proof.Machine

/-- The state without what the upkeep of the leaves may change: the free values drawn, the leaves with their cask and
section-store copies, the cellar. -/
def State.offRack (s : State) : State := { s with draws := 0, rack := Rack.reset, cellar := State.reset.cellar }

/-- Two states equal outside the leaves differ in the leaves alone. -/
theorem frame_of_offRack {s t : State} (h : t.offRack = s.offRack) :
    t = { s with draws := t.draws, rack := t.rack, cellar := t.cellar } := by
  calc t = { t.offRack with draws := t.draws, rack := t.rack, cellar := t.cellar } := rfl
    _ = { s.offRack with draws := t.draws, rack := t.rack, cellar := t.cellar } := by rw [h]
    _ = { s with draws := t.draws, rack := t.rack, cellar := t.cellar } := rfl

@[simp] theorem modRack_offRack (s : State) (f : Rack → Rack) : (s.modRack f).offRack = s.offRack := rfl

@[simp] theorem modCellar_offRack (s : State) (f : Cellar → Cellar) : (s.modCellar f).offRack = s.offRack := rfl

@[simp] theorem drawn_offRack (s : State) (n : Nat) : ({ s with draws := n } : State).offRack = s.offRack := rfl

@[simp] theorem ite_offRack (c : Prop) [Decidable c] (s t : State) :
    (if c then s else t).offRack = if c then s.offRack else t.offRack := by
  split <;> rfl

@[simp] theorem offRack_foldl {α : Type} (g : State → α → State) (h : ∀ s x, (g s x).offRack = s.offRack) (l : List α) (s : State) :
    (l.foldl g s).offRack = s.offRack := by
  induction l generalizing s with
  | nil => rfl
  | cons a l ih => exact (ih _).trans (h s a)

@[simp] theorem State_setFrame_offRack (a0 : State) (a1 : Nat) (a2 : Bytes) :
    (State.setFrame a0 a1 a2).offRack = a0.offRack := by
  unfold State.setFrame
  simp

@[simp] theorem State_setLeaf_offRack (a0 : State) (a1 : Handle) (a2 : Leaf) :
    (State.setLeaf a0 a1 a2).offRack = a0.offRack := by
  unfold State.setLeaf
  simp

@[simp] theorem State_newLeaf_offRack (a0 : State) (a1 : Nat) (a2 : Nat) (a3 : Nat) :
    (State.newLeaf a0 a1 a2 a3).2.offRack = a0.offRack := by
  unfold State.newLeaf
  simp

@[simp] theorem State_modLeaf_offRack (a0 : State) (a1 : Handle) (a2 : Leaf → Leaf) :
    (State.modLeaf a0 a1 a2).offRack = a0.offRack := by
  unfold State.modLeaf
  simp

@[simp] theorem State_patchCask_offRack (a0 : State) (a1 : Handle) (a2 : Bytes → Bytes) :
    (State.patchCask a0 a1 a2).offRack = a0.offRack := by
  unfold State.patchCask
  simp

@[simp] theorem State_dress_offRack (a0 : State) (a1 : Handle) (a2 : Nat) :
    (State.dress a0 a1 a2).offRack = a0.offRack := by
  unfold State.dress
  simp

theorem State_byAge_offRack (a0 : State) (a1 : List (Handle × Leaf)) :
    ∀ r, State.byAge a0 a1 = some r → r.2.offRack = a0.offRack := by
  unfold State.byAge
  try simp only []
  (repeat' split) <;> first | rfl | (simp; done) | (refine (offRack_foldl' _ _ _ ?_).trans ?_ <;> first | (simp; done) | (intro s x; (repeat' split) <;> (simp; done)))

@[simp] theorem State_dropFrame_offRack (a0 : State) (a1 : Nat) :
    (State.dropFrame a0 a1).offRack = a0.offRack := by
  unfold State.dropFrame
  simp

theorem State_evictClean_offRack (a0 : State) (a1 : Nat) (a2 : Option Nat) :
    ∀ r, State.evictClean a0 a1 a2 = some r → r.2.offRack = a0.offRack := by
  intro r h; unfold State.evictClean at h; simp only [] at h
  split at h
  · simp at h
  · rename_i hb; have := State_byAge_offRack _ _ _ hb; simp at h; subst h; simpa using this

theorem State_demandFrame_offRack (a0 : State) (a1 : Nat) :
    ∀ r, State.demandFrame a0 a1 = some r → r.2.offRack = a0.offRack := by
  intro r h; unfold State.demandFrame at h
  split at h
  · simp at h; subst h; rfl
  · exact State_evictClean_offRack _ _ _ _ h

@[simp] theorem State_ensureCask_offRack (a0 : State) (a1 : Handle) : (State.ensureCask a0 a1).offRack = a0.offRack := by
  unfold State.ensureCask; simp only []
  split
  · rfl
  · split
    · rename_i hb; have := State_demandFrame_offRack _ _ _ hb; simpa using this
    · simp

@[simp] theorem State_dropSs_offRack (a0 : State) (a1 : Handle) :
    (State.dropSs a0 a1).offRack = a0.offRack := by
  unfold State.dropSs
  simp

@[simp] theorem State_dirtyLeaf_offRack (a0 : State) (a1 : Handle) :
    (State.dirtyLeaf a0 a1).offRack = a0.offRack := by
  unfold State.dirtyLeaf
  simp

@[simp] theorem State_setQuire_offRack (a0 : State) (a1 : Handle) (a2 : List Handle) :
    (State.setQuire a0 a1 a2).offRack = a0.offRack := by
  unfold State.setQuire
  simp

@[simp] theorem State_startMove_offRack (a0 : State) (a1 : Move) :
    (State.startMove a0 a1).offRack = a0.offRack := by
  unfold State.startMove
  simp

@[simp] theorem State_govDraw_offRack (a0 : State) (a1 : Nat) :
    (State.govDraw a0 a1).offRack = a0.offRack := by
  unfold State.govDraw
  simp

@[simp] theorem State_govTake_offRack (a0 : State) :
    (State.govTake a0).offRack = a0.offRack := by
  unfold State.govTake
  simp

@[simp] theorem State_giveFrame_offRack (a0 : State) (a1 : Wanter) (a2 : Nat) :
    (State.giveFrame a0 a1 a2).offRack = a0.offRack := by
  unfold State.giveFrame
  (repeat' split) <;> (simp; done)

@[simp] theorem State_dropCask_offRack (a0 : State) (a1 : Handle) :
    (State.dropCask a0 a1).offRack = a0.offRack := by
  unfold State.dropCask
  simp

@[simp] theorem State_startWriteBack_offRack (a0 : State) (a1 : Handle) (a2 : MoveKind) (a3 : Wanter) :
    (State.startWriteBack a0 a1 a2 a3).offRack = a0.offRack := by
  unfold State.startWriteBack
  simp

@[simp] theorem State_startEviction_offRack (a0 : State) (a1 : Nat) (a2 : Wanter) : (State.startEviction a0 a1 a2).offRack = a0.offRack := by
  unfold State.startEviction
  split
  · rfl
  · split
    · rfl
    · rename_i hb; have := State_byAge_offRack _ _ _ hb; simpa using this

@[simp] theorem State_staleFrame_offRack (a0 : State) (a1 : Nat) :
    (State.staleFrame a0 a1).offRack = a0.offRack := by
  unfold State.staleFrame
  simp

@[simp] theorem State_endMove_offRack (a0 : State) (a1 : Handle) :
    (State.endMove a0 a1).offRack = a0.offRack := by
  unfold State.endMove
  simp

@[simp] theorem State_freeLeaf_offRack (a0 : State) (a1 : Handle) :
    (State.freeLeaf a0 a1).offRack = a0.offRack := by
  unfold State.freeLeaf
  simp

@[simp] theorem State_deref_offRack (a0 : Nat) (a1 : State) (a2 : Handle) : (State.deref a0 a1 a2).offRack = a1.offRack := by
  induction a0 generalizing a1 a2 with
  | zero => rfl
  | succ n ih => unfold State.deref; simp [ih]

@[simp] theorem State_drop_offRack (a0 : State) (a1 : Handle) :
    (State.drop a0 a1).offRack = a0.offRack := by
  unfold State.drop
  simp

@[simp] theorem State_releaseMoved_offRack (a0 : State) (a1 : Handle) : (State.releaseMoved a0 a1).offRack = a0.offRack := by
  unfold State.releaseMoved
  simp only []
  split <;> simp

@[simp] theorem State_returnLeaf_offRack (a0 : State) (a1 : Nat) (a2 : Handle) :
    (State.returnLeaf a0 a1 a2).offRack = a0.offRack := by
  unfold State.returnLeaf
  simp

@[simp] theorem State_dropGrants_offRack (a0 : State) (a1 : List Nat) :
    (State.dropGrants a0 a1).offRack = a0.offRack := by
  unfold State.dropGrants
  simp

@[simp] theorem State_giveBack_offRack (a0 : State) (a1 : List (Nat × Handle × Bool)) (a2 : Nat × Handle × Bool) :
    (State.giveBack a0 a1 a2).offRack = a0.offRack := by
  unfold State.giveBack
  simp

@[simp] theorem State_giveBackAll_offRack (a0 : State) (a1 : List (Nat × Handle × Bool)) :
    (State.giveBackAll a0 a1).offRack = a0.offRack := by
  unfold State.giveBackAll
  simp

@[simp] theorem State_unpin_offRack (a0 : State) (a1 : Handle) :
    (State.unpin a0 a1).offRack = a0.offRack := by
  unfold State.unpin
  simp

@[simp] theorem State_promote_offRack (a0 : State) (a1 : Handle) : (State.promote a0 a1).offRack = a0.offRack := by
  unfold State.promote; simp only []
  split
  · rfl
  · split
    · rename_i hb; have := State_demandFrame_offRack _ _ _ hb; simpa using this
    · simp

@[simp] theorem State_tierOn_offRack (a0 : State) (a1 : Nat) (a2 : Handle) :
    (State.tierOn a0 a1 a2).offRack = a0.offRack := by
  unfold State.tierOn
  simp

@[simp] theorem State_retier_offRack (a0 : State) (a1 : Nat) :
    (State.retier a0 a1).offRack = a0.offRack := by
  unfold State.retier
  simp

end Sys2Proof.Machine
end

section
/-! SUPPORT. What stops work: kills, ended requests, aborted transfers, disabled pairs (R22, R453). -/

namespace Sys2Proof.Machine

/-! ### The frame of a kill -/

/-- The state without what the end of running work may change: leaves, completions, arrays, waves, running commands and their
logs, received parcels. -/
def State.offWork (s : State) : State :=
  { s.offRack with
    out := [], port := { s.port with queues := [], started := [], engines := [] }, errata := State.reset.errata, cores := []
    parts := [], logs := [], cmds := [], fabric := Fabric.reset }

theorem frame_of_offWork {s t : State} (h : t.offWork = s.offWork) :
    t = { s with out := t.out, draws := t.draws, port := s.portOf t, errata := t.errata, cores := t.cores, rack := t.rack
                 cellar := t.cellar, parts := t.parts, logs := t.logs, cmds := t.cmds, fabric := t.fabric } := by
  have hport : t.port = s.portOf t := by
    have hp : t.offWork.port = s.offWork.port := by rw [h]
    calc t.port = { t.offWork.port with queues := t.port.queues, started := t.port.started, engines := t.port.engines } := rfl
      _ = s.portOf t := by rw [hp]; rfl
  calc t = { t.offWork with out := t.out, draws := t.draws, port := t.port, errata := t.errata, cores := t.cores, rack := t.rack
                            cellar := t.cellar, parts := t.parts, logs := t.logs, cmds := t.cmds, fabric := t.fabric } := rfl
    _ = _ := by rw [h, hport]; rfl

theorem offWork_of_offRack {s t : State} (h : t.offRack = s.offRack) : t.offWork = s.offWork := by
  rw [frame_of_offRack h]; rfl

theorem offWork_of_portEnds {s t : State} (h : PortEnds s t) : t.offWork = s.offWork := by
  rw [h.frame]; rfl

theorem offWork_foldl {α : Type} (g : State → α → State) (h : ∀ s x, (g s x).offWork = s.offWork) (l : List α) (s : State) :
    (l.foldl g s).offWork = s.offWork := by
  induction l generalizing s with
  | nil => rfl
  | cons a l ih => exact (ih _).trans (h s a)

theorem passOff_offWork (s : State) (k : Nat) : (s.passOff k).offWork = s.offWork := by
  unfold State.passOff
  split <;> rfl

/-- A running command undone changes leaves, arrays and received parcels. -/
theorem undo_offWork (s : State) (c : Cmd) : (s.undo c).offWork = s.offWork := by
  have hstop (u : State) (k : Nat) : (u.stopArray c k).offWork = u.offWork := passOff_offWork u k
  have hrack (u : State) : (((u.unpinAll c.pins).giveBackAll c.taken).dropGrants c.shape.rows).offRack = u.offRack := by
    simp [State.unpinAll]
  have huntake (u : State) : (u.untake c.id).offWork = u.offWork := rfl
  unfold State.undo
  dsimp only
  rw [huntake, offWork_of_offRack (hrack _)]
  split
  · exact offWork_foldl _ hstop _ _
  · rfl

theorem killFinal_offWork (s : State) (c : Cmd) (code : Code) : (s.killFinal c code).offWork = s.offWork := by
  have hlog (u : State) (arr : Nat) : (u.logEnd c code arr false).offWork = u.offWork := rfl
  unfold State.killFinal
  dsimp only
  rw [hlog, undo_offWork]
  rfl

theorem endRerun_portEnds (s : State) (c : Cmd) (code : Code) (arr : Nat) (refused : Bool) :
    PortEnds s (s.endRerun c code arr refused) := by
  unfold State.endRerun
  split
  · exact finish_portEnds _ _ _ _ _ _
  · exact .refl s

/-- A partition in which nothing runs or waits. -/
def Partition.halted (p : Partition) : Partition :=
  { p with bulk := none, prio := none, suspended := false, remaining := [], cycle := none, bulkFirst := false, trains := [] }

/-- Every command that has issued killed for good. -/
def State.killRunning (s : State) : State := s.cmds.foldl (fun s c => if c.phase == .placed then s else s.killFinal c cRerun) s

/-- The commands of a kill of everything that lived: killed first, then the list emptied, then the ends of host commands. -/
theorem killAll_spec (s : State) (code : Code) : ∃ v : State, s.killRunning.offWork = s.offWork ∧ PortEnds { s.killRunning with cmds := [] } v ∧
    s.killAll code = { v with parts := v.parts.map Partition.halted } := by
  refine ⟨_, ?_, ?_, rfl⟩
  · refine offWork_foldl _ (fun u c => ?_) _ _
    split
    · rfl
    · exact killFinal_offWork u c cRerun
  · refine ((PortEnds.foldl _ (fun u c => endRerun_portEnds u c cRerun 0 true) _ _).trans
      (PortEnds.foldl _ (fun u x => finish_portEnds u _ _ _ _ _) _ _)).trans (PortEnds.foldl _ (fun u x => ?_) _ _)
    split
    · exact finish_portEnds _ _ _ _ _ _
    · exact .refl u

theorem killAll_cmds (s : State) (code : Code) : (s.killAll code).cmds = [] := by
  obtain ⟨v, -, hends, hkill⟩ := killAll_spec s code
  rw [hkill, hends.frame]

theorem killAll_offWork (s : State) (code : Code) : (s.killAll code).offWork = s.offWork := by
  obtain ⟨v, hu, hends, hkill⟩ := killAll_spec s code
  have hv : v.offWork = s.offWork := (offWork_of_portEnds hends).trans hu
  rw [hkill, ← hv]; rfl

/-! ### Ended requests -/

/-- The state without what the end of a request may change beside: its record and its stream's entry. -/
def State.offReq (s : State) : State := { s.offWork with reqs := [], streams := [] }

theorem offReq_of_offWork {s t : State} (h : t.offWork = s.offWork) : t.offReq = s.offReq := by
  rw [State.offReq, h]; rfl

theorem frame_of_offReq {s t : State} (h : t.offReq = s.offReq) :
    t = { s with out := t.out, draws := t.draws, port := s.portOf t, errata := t.errata, cores := t.cores, rack := t.rack
                 cellar := t.cellar, streams := t.streams, reqs := t.reqs, parts := t.parts, logs := t.logs, cmds := t.cmds
                 fabric := t.fabric } := by
  have hwork : ({ t with reqs := s.reqs, streams := s.streams } : State).offWork = s.offWork :=
    calc ({ t with reqs := s.reqs, streams := s.streams } : State).offWork =
        { t.offReq with reqs := s.reqs, streams := s.streams } := rfl
      _ = s.offWork := by rw [h]; rfl
  have hframe := frame_of_offWork hwork
  calc t = { ({ t with reqs := s.reqs, streams := s.streams } : State) with reqs := t.reqs, streams := t.streams } := rfl
    _ = _ := by rw [hframe]; rfl

theorem sendReply_offWork (s : State) (c : Ctxt) (stream : Nat) (st : Stream) (code : Code) (final : Bool) (data : List Byte) :
    (s.sendReply c stream st code final data).offWork = s.offWork := by
  refine offWork_foldl _ (fun u x => ?_) _ _
  split <;> rfl

/-- A record closed with a code; the runs that serve it are void. -/
def State.closeReq (s : State) (k : Nat) (code : Code) : State :=
  (s.setReq k { s.req k with open_ := false, result := code }).voidWhere fun u => u.req == some (k / 4096, k % 4096)

/-- The final reply of an ended request, where a context waits for it. -/
def State.replyEnd (s : State) (r : Req) (st : Stream) (code : Code) (data : List Byte) : State :=
  match (ctxOf r).bind fun c => s.ctx? c.1 c.2 with
  | some c =>
    (s.sendReply c r.stream st code true data).modFabric fun f => { f with ctxs := f.ctxs.map fun x =>
      if x.port == c.port && x.id == c.id then { x with done := true } else x }
  | none => s

/-- The completion of the GRIST command that an ended request has. -/
def State.answerEnd (s : State) (r : Req) (st : Stream) (code : Code) : State :=
  match r.started with
  | some (q, tag) => s.finish q tag code (w32 r.stream) st.epoch
  | none => s

/-- The stream of an ended request that was served for it: its next open request takes its place. -/
def State.serveAfter (s : State) (k : Nat) (r : Req) (st : Stream) : State :=
  let nk := reqKey (r.stream / 16384) r.next
  if reqKey (r.stream / 16384) st.reqIndex == k then
    if r.next != 0xFFFF && (s.req nk).open_ && (s.req nk).stream == r.stream then
      (s.modStream r.stream fun e => { e with reqIndex := r.next, stepsLeft := (s.req nk).steps }).modReq nk
        fun q => { q with queued := s.now.setWidth 32 }
    else s.modStream r.stream fun e => { e with stepsLeft := 0 }
  else s

theorem endReq_closed {s : State} {k : Nat} (h : (s.req k).open_ = false) (code : Code) (data : List Byte) :
    s.endReq k code data = s := by
  unfold State.endReq
  dsimp only
  rw [h]; rfl

/-- The end of an open request, in its four steps. -/
theorem endReq_open {s : State} {k : Nat} (h : (s.req k).open_ = true) (code : Code) (data : List Byte) :
    s.endReq k code data =
      (((s.closeReq k code).replyEnd (s.req k) (s.stream (s.req k).stream) code data).answerEnd (s.req k)
        (s.stream (s.req k).stream) code).serveAfter k (s.req k) (s.stream (s.req k).stream) := by
  unfold State.endReq
  dsimp only
  rw [h]
  rfl

theorem replyEnd_offWork (s : State) (r : Req) (st : Stream) (code : Code) (data : List Byte) :
    (s.replyEnd r st code data).offWork = s.offWork := by
  unfold State.replyEnd
  split
  · exact sendReply_offWork s _ _ _ _ _ _
  · rfl

theorem answerEnd_portEnds (s : State) (r : Req) (st : Stream) (code : Code) : PortEnds s (s.answerEnd r st code) := by
  unfold State.answerEnd
  split
  · exact finish_portEnds _ _ _ _ _ _
  · exact .refl s

theorem serveAfter_offReq (s : State) (k : Nat) (r : Req) (st : Stream) : (s.serveAfter k r st).offReq = s.offReq := by
  unfold State.serveAfter
  dsimp only
  split
  · split <;> rfl
  · rfl

theorem endReq_offReq (s : State) (k : Nat) (code : Code) (data : List Byte) : (s.endReq k code data).offReq = s.offReq := by
  cases h : (s.req k).open_ with
  | false => rw [endReq_closed h]
  | true =>
    rw [endReq_open h, serveAfter_offReq, offReq_of_offWork (offWork_of_portEnds (answerEnd_portEnds _ _ _ _)),
      offReq_of_offWork (replyEnd_offWork _ _ _ _ _)]
    rfl

theorem sendReply_cmds (s : State) (c : Ctxt) (stream : Nat) (st : Stream) (code : Code) (final : Bool) (data : List Byte) :
    (s.sendReply c stream st code final data).cmds = s.cmds := by
  unfold State.sendReply
  generalize replyChunks 128 0 data = l
  induction l generalizing s with
  | nil => rfl
  | cons x l ih =>
    rw [List.foldl_cons, ih]
    split <;> rfl

theorem endReq_cmds (s : State) (k : Nat) (code : Code) (data : List Byte) : (s.endReq k code data).cmds = s.cmds := by
  have hserve (u : State) (r : Req) (st : Stream) : (u.serveAfter k r st).cmds = u.cmds := by
    unfold State.serveAfter
    dsimp only
    split
    · split <;> rfl
    · rfl
  have hreply (u : State) (r : Req) (st : Stream) : (u.replyEnd r st code data).cmds = u.cmds := by
    unfold State.replyEnd
    split
    · exact sendReply_cmds u _ _ _ _ _ _
    · rfl
  have hanswer (u : State) (r : Req) (st : Stream) : (u.answerEnd r st code).cmds = u.cmds := by
    rw [(answerEnd_portEnds u r st code).frame]
  cases h : (s.req k).open_ with
  | false => rw [endReq_closed h]
  | true =>
    rw [endReq_open h, hserve, hanswer, hreply]
    rfl

theorem replyCode_offWork (s : State) (c : Ctxt) (stream : Nat) (code : Code) :
    (s.replyCode c stream code).offWork = s.offWork := sendReply_offWork s _ _ _ _ _ _

theorem replyCode_cmds (s : State) (c : Ctxt) (stream : Nat) (code : Code) : (s.replyCode c stream code).cmds = s.cmds :=
  sendReply_cmds s _ _ _ _ _ _

/-- A fold of operations that each keep a view of the state keeps it. -/
theorem foldl_keeps {α β : Type} (v : State → β) (g : State → α → State) (h : ∀ s x, v (g s x) = v s) (l : List α) (s : State) :
    v (l.foldl g s) = v s := by
  induction l generalizing s with
  | nil => rfl
  | cons a l ih => exact (ih _).trans (h s a)

theorem endRequests_offReq (s : State) (code : Code) : (s.endRequests code).offReq = s.offReq := by
  unfold State.endRequests
  dsimp only
  rw [foldl_keeps State.offReq _ (fun u c => offReq_of_offWork (replyCode_offWork u c _ code)),
    foldl_keeps State.offReq _ (fun u k => endReq_offReq u k code [])]

theorem endRequests_cmds (s : State) (code : Code) : (s.endRequests code).cmds = s.cmds := by
  unfold State.endRequests
  dsimp only
  rw [foldl_keeps State.cmds _ (fun u c => replyCode_cmds u c _ code),
    foldl_keeps State.cmds _ (fun u k => endReq_cmds u k code [])]

theorem freeStreams_offReq (s : State) : s.freeStreams.offReq = s.offReq := rfl

/-- After every stream has been freed none lives. -/
theorem freeStreams_dead (s : State) (i : Nat) : (s.freeStreams.stream i).live = false := by
  unfold State.stream alGet
  split
  next e he =>
    have hmem := (List.mem_filter.1 (List.mem_of_find?_eq_some he)).1
    obtain ⟨x, -, rfl⟩ := List.mem_map.1 hmem
    rfl
  · rfl

/-! ### A stop -/

theorem abortDma_portEnds (s : State) : PortEnds s s.abortDma := by
  refine .foldl _ (fun u x => ?_) _ _
  dsimp only
  split
  · exact .refl u
  · exact abortChannel_portEnds u _ _ _

theorem disableQueue_portEnds (s : State) (q : Nat) : PortEnds s (s.disableQueue q) := by
  have hdiscard : PortEnds s { s with port := { s.port with
      started := s.port.started.map fun t => if t.q == q then { t with discard := true } else t } } := by
    refine ⟨rfl, fun hall c hc => ?_⟩
    obtain ⟨x, hx, rfl⟩ := List.mem_map.1 hc
    split
    · rfl
    · exact hall x hx
  unfold State.disableQueue
  dsimp only
  refine hdiscard.trans ?_
  split
  · exact modQueue_portEnds _ _ _
  · exact (modQueue_portEnds _ _ _).trans (settleDrain_portEnds _ _)

/-- With no command started a pair that is disabled is so at once. -/
theorem disableQueue_idle {s : State} (q : Nat) (h : s.port.started = []) :
    (s.disableQueue q).port.started = [] ∧ (s.disableQueue q).port.queues.length = s.port.queues.length ∧
      (∀ p, p ≠ q → (s.disableQueue q).queue p = s.queue p) ∧
      (q < s.port.queues.length → ((s.disableQueue q).queue q).qstate = 0) := by
  have hsame : ({ s with port := { s.port with
      started := s.port.started.map fun t => if t.q == q then { t with discard := true } else t } } : State) = s := by
    rw [h, List.map_nil, ← h]
  unfold State.disableQueue
  rw [hsame]
  dsimp only
  split
  next h0 =>
    refine ⟨h, modAt_length _ _ _, fun p hp => queue_modQueue_other _ hp, fun hq => ?_⟩
    rw [queue_modQueue_same _ hq]
    exact h0
  next h0 =>
    have hq : q < s.port.queues.length := queue_exists h0
    generalize hu : (s.modQueue q fun k => { k with enable := false, qstate := 3, held := [] }) = u
    have hnone : u.port.started = [] := by rw [← hu]; exact h
    have hlength : u.port.queues.length = s.port.queues.length := by rw [← hu]; exact modAt_length _ _ _
    have hother (p : Nat) (hp : p ≠ q) : u.queue p = s.queue p := by rw [← hu]; exact queue_modQueue_other _ hp
    have h3 : (u.queue q).qstate = 3 := by rw [← hu, queue_modQueue_same _ hq]
    rw [settleDrain_drained h3 (by rw [hnone]; rfl)]
    refine ⟨?_, (modAt_length _ _ _).trans ((endSession_queues_length u q).trans hlength), fun p hp => ?_, fun _ => ?_⟩
    · rw [endSession_frame]; exact hnone
    · rw [queue_modQueue_other _ hp, endSession_queue_other hp, hother p hp]
    · rw [queue_modQueue_same _ (by rw [endSession_queues_length, hlength]; exact hq)]

/-- With no command started, pairs disabled in turn are disabled, and no other changes. -/
theorem disableQueues_idle {s : State} (h : s.port.started = []) (l : List Nat) :
    (l.foldl (fun s q => s.disableQueue q) s).port.started = [] ∧
      (l.foldl (fun s q => s.disableQueue q) s).port.queues.length = s.port.queues.length ∧
      (∀ q, q < s.port.queues.length → q ∈ l ∨ (s.queue q).qstate = 0 →
        ((l.foldl (fun s q => s.disableQueue q) s).queue q).qstate = 0) := by
  induction l generalizing s with
  | nil => exact ⟨h, rfl, fun q _ hq => hq.resolve_left (List.not_mem_nil)⟩
  | cons a l ih =>
    obtain ⟨hstarted, hlength, hother, hself⟩ := disableQueue_idle a h
    obtain ⟨hst, hlen, hdis⟩ := ih hstarted
    refine ⟨hst, hlen.trans hlength, fun q hq hin => hdis q (by rw [hlength]; exact hq) ?_⟩
    by_cases ha : q = a
    · exact Or.inr (ha ▸ hself (ha ▸ hq))
    · rw [hother q ha]
      exact hin.imp_left fun hm => (List.mem_cons.1 hm).resolve_left ha

theorem queues_length_of_shape {s t : State} (h : t.shape = s.shape) : t.port.queues.length = s.port.queues.length :=
  (List.cons.inj h).1

/-- Work stopped with a code: no command, no open request, no stream. -/
def State.workFreed (s : State) (code : Code) : State := ((s.killAll code).endRequests code).freeStreams

theorem workFreed_cmds (s : State) (code : Code) : (s.workFreed code).cmds = [] :=
  (endRequests_cmds _ _).trans (killAll_cmds s code)

theorem workFreed_offReq (s : State) (code : Code) : (s.workFreed code).offReq = s.offReq := by
  rw [State.workFreed, freeStreams_offReq, endRequests_offReq, offReq_of_offWork (killAll_offWork s code)]

/-- Every pair disabled, and no host command left started. -/
def State.pairsDisabled (s : State) : State :=
  (List.range 16).foldl (fun s q => s.disableQueue q) { s with port := { s.port with started := [] } }

theorem stopAll_eq (s : State) : s.stopAll = (s.workFreed cStale).abortDma.pairsDisabled.closeWindow 0 0 := by
  unfold State.stopAll State.pairsDisabled State.workFreed
  rfl

theorem pairsDisabled_portEnds (s : State) : PortEnds { s with port := { s.port with started := [] } } s.pairsDisabled :=
  .foldl _ disableQueue_portEnds _ _

theorem pairsDisabled_spec (s : State) (h : s.port.queues.length = 16) :
    s.pairsDisabled.port.started = [] ∧ ∀ q, q < 16 → (s.pairsDisabled.queue q).qstate = 0 := by
  have hall (q : Nat) (hq : q < 16) : q ∈ List.range 16 := List.mem_range.2 hq
  unfold State.pairsDisabled
  generalize List.range 16 = l at hall
  generalize hu : ({ s with port := { s.port with started := [] } } : State) = u
  have hnone : u.port.started = [] := by rw [← hu]
  have hlength : u.port.queues.length = 16 := by rw [← hu]; exact h
  obtain ⟨hstarted, -, hdisabled⟩ := disableQueues_idle hnone l
  exact ⟨hstarted, fun q hq => hdisabled q (by rw [hlength]; exact hq) (Or.inl (hall q hq))⟩

/-- A stop up to the window. -/
theorem stopAll_eq_window (s : State) : ∃ u : State, s.stopAll = { u with ident := { u.ident with window := none }, errata := s.stopAll.errata } ∧
    u.offReq = s.offReq ∧ u.cmds = [] ∧ (∀ i, (u.stream i).live = false) ∧
    (s.port.queues.length = 16 → u.port.started = [] ∧ ∀ q, q < 16 → (u.queue q).qstate = 0) := by
  have hfreed := workFreed_offReq s cStale
  have hcmds := workFreed_cmds s cStale
  have hdead : ∀ i, ((s.workFreed cStale).stream i).live = false := freeStreams_dead _
  have hlength : (s.workFreed cStale).abortDma.port.queues.length = s.port.queues.length :=
    queues_length_of_shape (by simp [State.workFreed])
  have habort := abortDma_portEnds (s.workFreed cStale)
  rw [stopAll_eq]
  generalize (s.workFreed cStale).abortDma = v at *
  have hends := pairsDisabled_portEnds v
  have hspec := pairsDisabled_spec v
  generalize v.pairsDisabled = w at *
  generalize s.workFreed cStale = x at *
  refine ⟨w, closeWindow_eq w 0 0, ?_, ?_, fun i => ?_, fun hq => hspec (hlength.trans hq)⟩
  · rw [offReq_of_offWork (offWork_of_portEnds hends), ← hfreed, ← offReq_of_offWork (offWork_of_portEnds habort)]
    rfl
  · rw [hends.frame]
    show v.cmds = []
    rw [habort.frame]
    exact hcmds
  · rw [hends.frame]
    show (v.stream i).live = false
    rw [habort.frame]
    exact hdead i

/-- What a stop of everything leaves: no command, no started host command, no enabled pair, no stream. -/
theorem stopAll_spec {s : State} (hq : s.port.queues.length = 16) :
    s.stopAll.cmds = [] ∧ s.stopAll.port.started = [] ∧ (∀ q, q < 16 → (s.stopAll.queue q).qstate = 0) ∧
      ∀ i, (s.stopAll.stream i).live = false := by
  obtain ⟨u, hstop, -, hcmds, hdead, hport⟩ := stopAll_eq_window s
  obtain ⟨hstarted, hqueues⟩ := hport hq
  rw [hstop]
  exact ⟨hcmds, hstarted, hqueues, hdead⟩

/-- Beside what the end of work changes, a stop takes the window away. -/
theorem stopAll_offReq (s : State) :
    s.stopAll.offReq = ({ s with ident := { s.ident with window := none } } : State).offReq := by
  obtain ⟨u, hstop, hoff, -⟩ := stopAll_eq_window s
  calc s.stopAll.offReq = { u.offReq with ident := { u.offReq.ident with window := none } } := by rw [hstop]; rfl
    _ = _ := by rw [hoff]; rfl

end Sys2Proof.Machine
end

section
/-! SUPPORT. Output faults and the service stop (R489, R490, R514, R526). -/

namespace Sys2Proof.Machine

/-! ### Outputs -/

theorem pinNumber_lt (p : Pin) : pinNumber p < 7 := by cases p <;> decide

theorem pins_set_getD {l : List Nat} {n : Nat} (v : Nat) (h : n < l.length) : (l.set n v).getD n 0 = v := by
  simp [List.getD_eq_getElem?_getD, h]

theorem pins_set_getD_other {l : List Nat} {n m : Nat} (v : Nat) (h : m ≠ n) : (l.set n v).getD m 0 = l.getD m 0 := by
  simp [List.getD_eq_getElem?_getD, List.getElem?_set_ne h.symm]

/-- A new fault of a pin is kept, reported in STATUS and logged. -/
theorem pinFault_new {s : State} {n fault : Nat} (hn : n < s.board.pins.length) (hnew : s.board.pins.getD n 0 ≠ fault)
    (hfault : fault ≠ 0) :
    (s.pinFault n fault).board.pins = s.board.pins.set n fault ∧
      (s.pinFault n fault).board.faultSubject = BitVec.ofNat 16 (0x100 + n) ∧
      (s.pinFault n fault).board.faultDetail = w32 fault ∧
      s.pinFault n fault = { s with board := (s.pinFault n fault).board, errata := (s.pinFault n fault).errata } := by
  unfold State.pinFault
  rw [if_neg hnew]
  dsimp only
  rw [if_neg hfault, boardLog_frame]
  exact ⟨rfl, rfl, rfl, rfl⟩

/-- A pin whose fault is what it was changes nothing. -/
theorem pinFault_same {s : State} {n fault : Nat} (h : s.board.pins.getD n 0 = fault) : s.pinFault n fault = s := by
  rw [State.pinFault, if_pos h]

/-- The end of a pin's fault is kept alone. -/
theorem pinFault_zero (s : State) (n : Nat) : s.pinFault n 0 = { s with board := { s.board with pins := (s.pinFault n 0).board.pins } } := by
  unfold State.pinFault
  split <;> rfl

/-- A pin has the fault just found; every other keeps its own; STATUS, the pins and the errata log alone may change. -/
theorem pinFault_spec (s : State) {n : Nat} (fault : Nat) (hn : n < s.board.pins.length) :
    (s.pinFault n fault).board.pins.getD n 0 = fault ∧
      (∀ m, m ≠ n → (s.pinFault n fault).board.pins.getD m 0 = s.board.pins.getD m 0) ∧
      s.pinFault n fault = { s with board := (s.pinFault n fault).board, errata := (s.pinFault n fault).errata } := by
  by_cases hsame : s.board.pins.getD n 0 = fault
  · rw [pinFault_same hsame]
    exact ⟨hsame, fun _ _ => rfl, rfl⟩
  · have hpins : (s.pinFault n fault).board.pins = s.board.pins.set n fault := by
      by_cases h0 : fault = 0
      · subst h0
        rw [State.pinFault, if_neg hsame]; rfl
      · exact (pinFault_new hn hsame h0).1
    refine ⟨by rw [hpins, pins_set_getD _ hn], fun m hm => by rw [hpins, pins_set_getD_other _ hm], ?_⟩
    by_cases h0 : fault = 0
    · subst h0
      rw [pinFault_zero]
    · exact (pinFault_new hn hsame h0).2.2.2

theorem State.shaped_pins {s : State} (h : s.shaped = true) : s.board.pins.length = 7 := by
  have hshape := State.shaped_iff.1 h
  have hget : s.shape[12]? = some 7 := by rw [hshape]; rfl
  exact Option.some.inj hget

theorem exec_outputShort {s : State} {pin : Pin} (low : Bool) (h : s.pinPowered pin = true) :
    exec (.outputShort pin low) s = .next (s.pinFault (pinNumber pin) (if low then 1 else 2)) := by
  have hexec : exec (.outputShort pin low) s = execOutputShort pin low s := rfl
  rw [hexec, execOutputShort, if_pos h]

theorem exec_shortRetry {s : State} {pin : Pin} (h : s.pinPowered pin = true) :
    exec (.shortRetry pin true) s = .next (s.pinFault (pinNumber pin) 0) := by
  have hexec : exec (.shortRetry pin true) s = execShortRetry pin true s := rfl
  rw [hexec, execShortRetry, h]; rfl

theorem exec_presentTest {s : State} (haux : s.board.auxOk = true) (hlow : s.board.presentLow = true) :
    exec (.presentTest true) s = .next (s.pinFault 3 1) := by
  have hexec : exec (.presentTest true) s = execPresentTest true s := rfl
  rw [hexec, execPresentTest, haux, hlow]; rfl

theorem exec_inputReversed {s : State} (r : Bool) (haux : s.board.auxOk = true) (h54 : s.board.v54Ok = false) :
    exec (.inputReversed r) s = .next { s with board := { s.board with reversed := r } } := by
  have hexec : exec (.inputReversed r) s = execInputReversed r s := rfl
  rw [hexec, execInputReversed, haux, h54]; rfl

/-! ### The service stop (R526) -/

theorem nor_of_base {s t : State} (h : t.base = s.base) : t.nor = s.nor := congrArg (fun b : Base => b.2.1) h

/-- Service stopped for the JTAG user (R526), before the colophon is taken back. -/
def State.debugStopped (s : State) : State :=
  ({ s.stopAll with ident := { s.stopAll.ident with debugStop := true } } : State).modPower fun p => { p with config := 4 }

theorem recolophon_frame (s : State) : s.recolophon = { s with
    errata := s.recolophon.errata
    ident := { s.ident with colophon := s.recolophon.ident.colophon, window := s.recolophon.ident.window } } := by
  unfold State.recolophon State.setColophon
  dsimp only
  split <;> rfl

theorem exec_debugInstruction_stop {s : State} (hon : s.dieOn = true) (hfirst : s.ident.debugStop = false)
    (hmaker : ∃ q, q < 16 ∧ (s.queue q).role = 3) :
    exec .debugInstruction s = .next s.debugStopped.recolophon := by
  have hany : (s.port.queues.any fun k => k.role == 3) = true := by
    obtain ⟨q, -, hrole⟩ := hmaker
    refine List.any_eq_true.2 ⟨s.queue q, ?_, by rw [hrole]; rfl⟩
    rw [State.queue, List.getD_eq_getElem?_getD] at hrole ⊢
    cases hk : s.port.queues[q]? with
    | none => rw [hk] at hrole; exact absurd hrole (by decide)
    | some k => exact List.mem_of_getElem? hk
  have hexec : exec .debugInstruction s = execDebugInstruction s := rfl
  rw [hexec, execDebugInstruction, hon, hfirst, hany, State.debugStopped]
  generalize s.stopAll = u
  rfl

theorem exec_debugInstruction_bypass {s : State} (hon : s.dieOn = true) (hfirst : s.ident.debugStop = false)
    (hmaker : ∀ k ∈ s.port.queues, k.role ≠ 3) : exec .debugInstruction s = .next (s.log 0 0 0) := by
  have hany : (s.port.queues.any fun k => k.role == 3) = false := List.any_eq_false.2 fun k hk => by simpa using hmaker k hk
  have hexec : exec .debugInstruction s = execDebugInstruction s := rfl
  rw [hexec, execDebugInstruction, hon, hfirst, hany]
  rfl

/-- Settles O45: a pin's fault is kept at its place, and the stop of service is a stop of everything. -/
theorem pinsAndDebug : Obligations.PinsAndDebug := by
  intro s hs
  have hpin (n : Nat) (hn : n < 7) : n < s.board.pins.length := by rw [State.shaped_pins hs]; exact hn
  refine ⟨fun pin low hpower hnew => ?_, fun pin hpower => ?_, fun haux hlow => ?_, fun r haux h54 => ⟨_, exec_inputReversed r haux h54, rfl⟩,
    fun hon hfirst hmaker => ?_, fun hon hfirst hnone => ⟨_, exec_debugInstruction_bypass hon hfirst hnone, rfl⟩⟩
  · have hn := hpin _ (pinNumber_lt pin)
    obtain ⟨hself, hother, hframe⟩ := pinFault_spec s (if low then 1 else 2) hn
    obtain ⟨-, hsubject, hdetail, -⟩ := pinFault_new hn hnew (by cases low <;> decide)
    refine ⟨_, exec_outputShort low hpower, hself, ?_, ?_, hother, hframe⟩
    · rw [hsubject]
      have := pinNumber_lt pin
      simp only [BitVec.toNat_ofNat]
      omega
    · rw [hdetail]; cases low <;> rfl
  · obtain ⟨hself, hother, -⟩ := pinFault_spec s 0 (hpin _ (pinNumber_lt pin))
    exact ⟨_, exec_shortRetry hpower, hself, hother, pinFault_zero _ _⟩
  · obtain ⟨hself, hother, hframe⟩ := pinFault_spec s 1 (hpin 3 (by omega))
    exact ⟨_, exec_presentTest haux hlow, hself, hother, hframe⟩
  · obtain ⟨hcmds, hstarted, hqueues, hdead⟩ := stopAll_spec (State.shaped_queues hs)
    have hnor : s.stopAll.nor = s.nor := nor_of_base (State_stopAll_base s)
    refine ⟨_, exec_debugInstruction_stop hon hfirst hmaker, ?_⟩
    rw [recolophon_frame, State.debugStopped]
    generalize s.stopAll = u at *
    exact ⟨rfl, rfl, hcmds, hstarted, hqueues, hdead, hnor⟩

end Sys2Proof.Machine
end

section
/-! SUPPORT. Requests submitted and the GRIST command (R312 to R315, R420). -/

namespace Sys2Proof.Machine

theorem req_setReq_other (s : State) {k j : Nat} (r : Req) (h : j ≠ k) : (s.setReq k r).req j = s.req j :=
  alGet_alSet_other _ _ _ _ _ h

/-- A change of records and entries leaves the rest of the module. -/
theorem linkAt_frame (n fuel k : Nat) (s : State) : State.linkAt n fuel k s = { s with reqs := (State.linkAt n fuel k s).reqs } := by
  induction fuel generalizing k with
  | zero => rfl
  | succ fuel ih =>
    unfold State.linkAt
    dsimp only
    split
    · rfl
    · exact ih _

/-- Linking a record changes no record but in its link to the next. -/
theorem linkAt_req (n fuel k : Nat) (s : State) (j : Nat) :
    ∃ nx, (State.linkAt n fuel k s).req j = { s.req j with next := nx } := by
  induction fuel generalizing k with
  | zero => exact ⟨_, rfl⟩
  | succ fuel ih =>
    unfold State.linkAt
    dsimp only
    split
    · by_cases hj : j = k
      · subst hj
        exact ⟨n, req_setReq _ _ _⟩
      · exact ⟨_, req_setReq_other s _ hj⟩
    · exact ih _

theorem link_frame (s : State) (i n : Nat) : s.link i n = { s with reqs := (s.link i n).reqs, streams := (s.link i n).streams } := by
  unfold State.link
  dsimp only
  split
  · conv => lhs; rw [linkAt_frame]
    rw [linkAt_frame]
  · rfl

theorem link_req (s : State) (i n j : Nat) : ∃ nx, (s.link i n).req j = { s.req j with next := nx } := by
  unfold State.link
  dsimp only
  split
  · exact linkAt_req _ _ _ _ _
  · exact ⟨_, rfl⟩

/-- An accepted request recorded: its record set, the entry of a start or a fork set aside, a continue linked. -/
def State.recorded (s : State) (i n : Nat) (r : Req) : State :=
  let t := s.setReq (reqKey (i / 16384) n) r
  let t := if r.enters then t.modStream i fun e => { e with reserved := true } else t
  if r.kind = 1 then t.link i n else t

/-- The record stands as it was made, but for its link; records and entries alone change. -/
theorem recorded_spec (s : State) (i n : Nat) (r : Req) :
    (∃ nx, (s.recorded i n r).req (reqKey (i / 16384) n) = { r with next := nx }) ∧
      s.recorded i n r = { s with reqs := (s.recorded i n r).reqs, streams := (s.recorded i n r).streams } := by
  unfold State.recorded
  dsimp only
  generalize hv : (if r.enters then (s.setReq (reqKey (i / 16384) n) r).modStream i fun e => { e with reserved := true }
    else s.setReq (reqKey (i / 16384) n) r) = v
  have hreq : v.req (reqKey (i / 16384) n) = r := by
    rw [← hv]
    split <;> exact req_setReq _ _ _
  have hframe : v = { s with reqs := v.reqs, streams := v.streams } := by
    rw [← hv]
    split <;> rfl
  split
  · obtain ⟨nx, hlinked⟩ := link_req v i n (reqKey (i / 16384) n)
    refine ⟨⟨nx, by rw [hlinked, hreq]⟩, ?_⟩
    exact (link_frame v i n).trans (by rw [hframe])
  · exact ⟨⟨r.next, hreq⟩, hframe⟩

/-- An accepted request is recorded. -/
theorem submit_accepted {s u : State} {h : List W32} {addr : W32} {ctx i : Nat} {started : Option (Nat × Nat)}
    (hsubmit : s.submit h addr ctx started = (cDone, i, u)) :
    ∃ n, u = s.recorded i n { s.headerReq h addr ctx started with stream := i } := by
  unfold State.submit at hsubmit
  dsimp only at hsubmit
  split at hsubmit
  · have hcode : cAlign = cDone := congrArg Prod.fst hsubmit
    exact absurd hcode (by decide)
  · split at hsubmit
    · have hcode : cOverflow = cDone := congrArg Prod.fst hsubmit
      exact absurd hcode (by decide)
    · split at hsubmit
      next hrefused =>
        have hcode := congrArg Prod.fst hsubmit
        exact absurd hcode (by simpa using hrefused)
      next j _ _ =>
        have hj : j = i := congrArg (fun x => x.2.1) hsubmit
        subst hj
        exact ⟨_, (congrArg (fun x => x.2.2) hsubmit).symm⟩

/-- A GRIST header carries steps or input. -/
def carries (h : List W32) : Bool :=
  bits (wd h 4) 23 0 != 0 || bits (wd h 5) 23 0 != 0 || wd h 7 != 0 || bits (wd h 13) 15 0 != 0

theorem exec_grist {s : State} {q tag : Nat} {c : Started} (h : List W32) (hc : s.commandAt q tag 0x12 c) :
    exec (.grist q tag h) s = .next (if carries h then s.finish q tag cAlign 0 0
      else if (s.submit h 0 0xFFFF (some (q, tag))).1 != cDone then
        s.finish q tag (s.submit h 0 0xFFFF (some (q, tag))).1 0 0
      else (s.submit h 0 0xFFFF (some (q, tag))).2.2.modStarted q tag fun t => { t with begun := true }) := by
  have hexec : exec (.grist q tag h) s = execGrist q tag h s := rfl
  rw [hexec, execGrist, onStarted_commandAt hc _ _ rfl]
  rfl

/-- Settles O28: the command's end where the request is refused, and the record where it is accepted. -/
theorem gristCommand : Obligations.GristCommand := by
  intro s q tag c h hc
  obtain ⟨hstarted, hdiscard, htakes⟩ := commandAt_ends hc
  have hends (code : Code) := finish_takes s q tag c code 0 0 hstarted hdiscard htakes
  refine ⟨fun hcarries => ?_, fun h4 h5 h7 h13 code i u hsubmit => ?_⟩
  · have hyes : carries h = true := by
      simpa [carries, or_assoc] using hcarries
    have hexec := exec_grist h hc
    rw [hyes, if_pos rfl] at hexec
    exact ⟨_, hexec, hends cAlign⟩
  · have hno : carries h = false := by simp [carries, h4, h5, h7, h13]
    have hexec := exec_grist h hc
    rw [hno, if_neg Bool.false_ne_true, hsubmit] at hexec
    by_cases hdone : code = cDone
    · subst hdone
      have hok : ¬ ((cDone != cDone) = true) := by decide
      dsimp only at hexec
      rw [if_neg hok] at hexec
      obtain ⟨n, hu⟩ := submit_accepted hsubmit
      obtain ⟨⟨nx, hreq⟩, hframe⟩ := recorded_spec s i n { s.headerReq h 0 0xFFFF (some (q, tag)) with stream := i }
      rw [← hu] at hreq hframe
      have hu : u.started? q tag = some c := by rw [hframe]; exact hstarted
      refine ⟨_, hexec, fun hne => absurd rfl hne, fun _ => ⟨⟨reqKey (i / 16384) n, ?_⟩, ?_, ?_, ?_⟩⟩
      · show (u.req _).open_ = true ∧ (u.req _).stream = i ∧ _ ∧ (u.req _).started = _ ∧ (u.req _).admitted = false
        rw [hreq]
        exact ⟨rfl, rfl, congrArg Req.kind hreq, rfl, rfl⟩
      · exact started?_modStarted (fun t => { t with begun := true }) (fun _ => ⟨rfl, rfl⟩) hu
      · rw [hframe]; rfl
      · rw [hframe]; rfl
    · rw [if_pos (by simpa using hdone)] at hexec
      exact ⟨_, hexec, fun _ => hends code, fun h => absurd h hdone⟩

/-! ### A record outside its stream's section

REQ_INDEX is a record number within the stream's own section. The statement speaks of every record, one that stands in
another section than its stream's too: served, it points its stream at the record of the same number in the stream's own
section, and where that one has nothing left to do it ends and hands the stream on. -/

/-- A continue of stream 0 whose record is number 0 of section 1. Record 0 of section 0, of the same stream, has nothing left,
and names record 5 as its next. -/
def crossedRecords : State :=
  { State.reset with
    streams := [(0, { Stream.free 0 with live := true })]
    reqs := [(0, { freeReq with open_ := true, admitted := true, next := 5 }), (5, { freeReq with open_ := true }),
             (4096, { freeReq with open_ := true, kind := 1, inputCount := 1 })] }

/-- The continue hands its stream to record 5. -/
theorem crossedRecords_continue :
    ∃ t, exec (.requestContinue 1 0) crossedRecords = .next t ∧ (t.stream 0).reqIndex = 5 :=
  ⟨_, rfl, by decide⟩

/-- Refutes O29: a continue whose record stands in section 1 serves stream 0, of section 0, and changes the stream's REQ_INDEX,
where the statement has STEPS alone change. -/
theorem not_requestActs : ¬ Obligations.RequestActs := by
  intro h
  obtain ⟨-, -, hcontinue, -⟩ := h crossedRecords 1 0 4096 0 (crossedRecords.req 4096) rfl rfl rfl (by decide) (by decide)
  obtain ⟨t, hexec, hstream, -⟩ := hcontinue (by decide) (by decide) (by decide) (by decide)
  obtain ⟨u, hexec', hindex⟩ := crossedRecords_continue
  have hsame : t = u := by
    rw [hexec] at hexec'
    injection hexec'
  rw [← hsame, hstream] at hindex
  exact absurd hindex (by decide)

end Sys2Proof.Machine
end

section
/-! SUPPORT. Datagrams and reply contexts (R364 to R367). -/

namespace Sys2Proof.Machine

/-! ### Datagrams taken -/

theorem exec_requestDatagram_dropped {s : State} {port : Nat} {d : Datagram} (hup : s.edgeUp port = true)
    (hbad : s.datagramOk port d = false) : exec (.requestDatagram port d) s = .next (s.dropAt port) := by
  have hexec : exec (.requestDatagram port d) s = execRequestDatagram port d s := rfl
  rw [hexec, execRequestDatagram, hup, hbad]
  rfl

theorem exec_requestDatagram_context {s : State} {port : Nat} {d : Datagram} {c : Ctxt} (hup : s.edgeUp port = true)
    (hok : s.datagramOk port d = true) (hctx : s.ctxFor port d = some c) :
    exec (.requestDatagram port d) s = .next (if c.passed || c.done then s.dropAt port else s.takeInput c d) := by
  have hexec : exec (.requestDatagram port d) s = execRequestDatagram port d s := rfl
  rw [hexec, execRequestDatagram, hup, hok, hctx]
  rfl

theorem exec_requestDatagram_first {s : State} {port : Nat} {d : Datagram} (hup : s.edgeUp port = true)
    (hok : s.datagramOk port d = true) (hctx : s.ctxFor port d = none) :
    exec (.requestDatagram port d) s = .next (s.openCtx port d) := by
  have hexec : exec (.requestDatagram port d) s = execRequestDatagram port d s := rfl
  rw [hexec, execRequestDatagram, hup, hok, hctx]
  rfl

theorem ctxFor_port {s : State} {port : Nat} {d : Datagram} {c : Ctxt} (h : s.ctxFor port d = some c) : c.port = port := by
  have hfound := List.find?_some h
  simp only [Bool.and_eq_true, beq_iff_eq] at hfound
  exact hfound.1.1.1.1

/-- The bytes of a datagram written at its context's place, and the piece noted. -/
def State.inputWritten (s : State) (c : Ctxt) (d : Datagram) : State :=
  ({ s with caskRaw := s.caskRaw.write (inputBase + c.area + (wd d.words 8).toNat) d.data } : State).modCtx c.port c.id
    fun x => { x with got := c.got ++ [((wd d.words 8).toNat, d.data.length)] }

/-- A request whose input is whole, passed on. -/
def State.requestPassed (s : State) (c : Ctxt) : State :=
  let s := s.modCtx c.port c.id fun c => { c with passed := true }
  let r := s.submit c.header (w32 ((inputBase + c.area) / 256)) (4096 * c.port + c.id) none
  if r.1 != cDone then s.replyCode c r.2.1 r.1 else r.2.2

theorem requestPassed_accepted {s u : State} {c : Ctxt} {i : Nat}
    (h : (s.modCtx c.port c.id fun c => { c with passed := true }).submit c.header (w32 ((inputBase + c.area) / 256))
      (4096 * c.port + c.id) none = (cDone, i, u)) : s.requestPassed c = u := by
  unfold State.requestPassed
  dsimp only
  rw [h]
  rfl

/-- A datagram in form for its context is written; one that brings the whole input passes the request on. -/
theorem takeInput_fits {s : State} {c : Ctxt} {d : Datagram} (hfits : (wd d.words 8).toNat + d.data.length ≤ (wd c.header 7).toNat)
    (hpiece : pieceOk d = true) : s.takeInput c d =
      if reach (c.got ++ [((wd d.words 8).toNat, d.data.length)]) (c.got.length + 2) 0 < (wd c.header 7).toNat then
        s.inputWritten c d
      else (s.inputWritten c d).requestPassed c := by
  have hform : (decide ((wd c.header 7).toNat < (wd d.words 8).toNat + d.data.length) || !pieceOk d) = false := by
    simp [hpiece, hfits]
  unfold State.takeInput
  dsimp only
  rw [if_neg (by rw [hform]; decide), List.length_append]
  rfl

/-- A datagram out of form for its context is dropped. -/
theorem takeInput_odd {s : State} {c : Ctxt} {d : Datagram} (hpiece : pieceOk d = false) : s.takeInput c d = s.dropAt c.port := by
  unfold State.takeInput
  dsimp only
  rw [hpiece, if_pos (by simp)]

theorem openCtx_opens {s : State} {port id area : Nat} {d : Datagram} (hrange : headerRange d.words = true)
    (hpiece : pieceOk d = true)
    (hid : (List.range (min 4096 ((s.fabric.ctxs.filter fun x => x.port == port).length + 1))).find?
      (fun i => !(((s.fabric.ctxs.filter fun x => x.port == port).map (·.id)).contains i)) = some id)
    (harea : firstFit s.inputUsed (((wd d.words 7).toNat + 255) / 256 * 256) 0x4000000 = some area) :
    s.openCtx port d = (s.modFabric fun f => { f with ctxs := f.ctxs ++ [newCtx port id area d] }).takeInput (newCtx port id area d) d := by
  unfold State.openCtx
  dsimp only
  rw [hrange, hpiece, List.length_map, hid, harea]
  rfl

/-- A change of the context just opened changes it alone. -/
theorem map_new_context {l : List Ctxt} {c : Ctxt} (f : Ctxt → Ctxt) (hnew : ∀ x ∈ l, x.port = c.port → x.id ≠ c.id) :
    (l ++ [c]).map (fun x => if x.port == c.port && x.id == c.id then f x else x) = l ++ [f c] := by
  have hold : l.map (fun x => if x.port == c.port && x.id == c.id then f x else x) = l := by
    conv => rhs; rw [← List.map_id l]
    refine List.map_congr_left fun x hx => if_neg ?_
    simp only [Bool.and_eq_true, beq_iff_eq, not_and]
    exact hnew x hx
  rw [List.map_append, hold]
  simp

theorem datagramOk_fits {s : State} {port : Nat} {d : Datagram} (h : s.datagramOk port d = true) :
    (wd d.words 8).toNat + d.data.length ≤ (wd d.words 7).toNat := by
  unfold State.datagramOk at h
  exact of_decide_eq_true (Bool.and_eq_true_iff.1 h).2

/-! ### Contexts -/

theorem ctx?_port {s : State} {port id : Nat} {c : Ctxt} (h : s.ctx? port id = some c) : c.port = port ∧ c.id = id := by
  have hfound := List.find?_some h
  simpa using hfound

theorem exec_requestAssemblyTimeout {s : State} {port id : Nat} {c : Ctxt} (hctx : s.ctx? port id = some c)
    (hpassed : c.passed = false) (hdone : c.done = false) :
    exec (.requestAssemblyTimeout port id) s = .next (s.replyCode c (bits (wd c.header 1) 15 0) cAlign) := by
  have hexec : exec (.requestAssemblyTimeout port id) s = execRequestAssemblyTimeout port id s := rfl
  rw [hexec, execRequestAssemblyTimeout, hctx]
  simp [hpassed, hdone]

/-- A reply without data from a port that is up is one datagram. -/
theorem sendReply_empty {s : State} {c : Ctxt} (stream : Nat) (st : Stream) (code : Code) (hup : (s.fport c.port).state = 2) :
    s.sendReply c stream st code true [] = s.emit (.reply c.port c.ip c.udp c.mac c.vlan
      (replyHeader 1 stream c.reqTag st.epoch st.position code st.stepsLeft 0 0 0) []) := by
  have hchunks : replyChunks 128 0 [] = [(0, [], true)] := rfl
  have hstate : ¬ (((s.fport c.port).state != 2) = true) := by rw [hup]; decide
  unfold State.sendReply
  rw [hchunks, List.foldl_cons, List.foldl_nil, if_neg hstate]
  rfl

theorem exec_replyContextExpiry {s : State} {port id : Nat} {c : Ctxt} (hctx : s.ctx? port id = some c) (hdone : c.done = true) :
    exec (.replyContextExpiry port id) s =
      .next (s.modFabric fun f => { f with ctxs := f.ctxs.filter fun x => !(x.port == port && x.id == id) }) := by
  have hexec : exec (.replyContextExpiry port id) s = execReplyContextExpiry port id s := rfl
  rw [hexec, execReplyContextExpiry, hctx]
  simp [hdone]

theorem exec_neighbourRequest {s : State} {port : Nat} {ip6 : Bool} {a : BitVec 128} (hup : s.edgeUp port = true) :
    exec (.neighbourRequest port ip6 a) s =
      .next (if s.portIp port ip6 != 0 && a == s.portIp port ip6 then s.emit (.neighbour port ip6 a) else s.dropAt port) := by
  have hexec : exec (.neighbourRequest port ip6 a) s = execNeighbourRequest port ip6 a s := rfl
  rw [hexec, execNeighbourRequest, hup]
  rfl

/-- A frame dropped is counted at its port alone. -/
theorem dropAt_spec (s : State) {port : Nat} (h : port < s.fabric.ports.length) :
    (s.dropAt port).fport port = { s.fport port with dropped := sat32 ((s.fport port).dropped + 1) } ∧
      (∀ n, n ≠ port → (s.dropAt port).fport n = s.fport n) ∧
      s.dropAt port = { s with fabric := { s.fabric with ports := (s.dropAt port).fabric.ports } } :=
  ⟨fport_modFPort _ _ _ h, fun n hn => fport_modFPort_other _ _ _ _ hn, rfl⟩

/-- Settles O30: a datagram is dropped, written to its context, or opens one; contexts end and are freed. -/
theorem datagrams : Obligations.Datagrams := by
  intro s port hport
  obtain ⟨hself, hother, hframe⟩ := dropAt_spec s hport
  refine ⟨fun d c hup hok hctx hpassed hdone hfits hpiece hpart => ?_,
    fun d id area c hup hok hctx hrange hpiece hnew hid harea hc => ?_,
    fun d c hup hok hctx hclosed => ⟨_, exec_requestDatagram_context hup hok hctx, ?_⟩,
    fun d hup hbad => ⟨_, exec_requestDatagram_dropped hup hbad, hself, hother, hframe⟩,
    fun id c hctx hpassed hdone hup => ?_, fun id c hctx hdone => ?_,
    fun ip6 a hup ha => ⟨_, exec_neighbourRequest hup, fun hown => ?_, fun hforeign => ?_⟩⟩
  · have hexec := exec_requestDatagram_context hup hok hctx
    rw [hpassed, hdone, if_neg (by decide), takeInput_fits hfits hpiece, if_pos hpart] at hexec
    exact ⟨_, hexec, rfl, rfl, rfl, rfl⟩
  · have hexec := exec_requestDatagram_first hup hok hctx
    rw [openCtx_opens hrange hpiece hid harea, takeInput_fits (datagramOk_fits hok) hpiece] at hexec
    have hwritten : (s.modFabric fun f => { f with ctxs := f.ctxs ++ [newCtx port id area d] }).inputWritten (newCtx port id area d) d =
        { s with caskRaw := s.caskRaw.write (inputBase + area + (wd d.words 8).toNat) d.data
                 fabric := { s.fabric with ctxs := s.fabric.ctxs ++ [c] } } := by
      rw [hc, ← map_new_context (fun x => { x with got := [((wd d.words 8).toNat, d.data.length)] }) (c := newCtx port id area d) hnew]
      rfl
    have hgot : (newCtx port id area d).got ++ [((wd d.words 8).toNat, d.data.length)] = c.got := by rw [hc]; rfl
    rw [hwritten, hgot] at hexec
    refine ⟨_, hexec, fun hpart => if_pos hpart, fun i u hwhole hsubmit => ?_⟩
    have hpassed : ({ s with caskRaw := s.caskRaw.write (inputBase + area + (wd d.words 8).toNat) d.data
                             fabric := { s.fabric with ctxs := s.fabric.ctxs ++ [c] } } : State).modCtx port id
          (fun c => { c with passed := true }) =
        { s with caskRaw := s.caskRaw.write (inputBase + area + (wd d.words 8).toNat) d.data
                 fabric := { s.fabric with ctxs := s.fabric.ctxs ++ [{ c with passed := true }] } } := by
      have hkey : c.port = port ∧ c.id = id := by rw [hc]; exact ⟨rfl, rfl⟩
      rw [← map_new_context (fun x => { x with passed := true }) (c := c) (by rw [hkey.1, hkey.2]; exact hnew), hkey.1, hkey.2]
      rfl
    refine (if_neg (Nat.not_lt.2 hwhole)).trans ?_
    exact requestPassed_accepted (by rw [← hsubmit, ← hpassed]; rfl)
  · have hdrop : (if c.passed || c.done then s.dropAt port else s.takeInput c d) = s.dropAt port := by
      split
      · rfl
      next hopen =>
        have hodd : pieceOk d = false := by
          rcases hclosed with h | h | h
          · exact absurd (by rw [h]; rfl) hopen
          · exact absurd (by rw [h, Bool.or_true]) hopen
          · exact h
        rw [takeInput_odd hodd, ctxFor_port hctx]
    rw [hdrop]
    exact ⟨hself, hframe⟩
  · obtain ⟨hcport, hcid⟩ := ctx?_port hctx
    have hexec := exec_requestAssemblyTimeout hctx hpassed hdone
    rw [State.replyCode, sendReply_empty _ _ _ (by rw [hcport]; exact hup), hcport, hcid] at hexec
    refine ⟨_, _, hexec, rfl, rfl, fun x hx hxport hxid => ?_, rfl⟩
    obtain ⟨y, -, hy⟩ := List.mem_map.1 hx
    rw [← hy] at hxport hxid ⊢
    split at hxport
    next h => rw [if_pos h]
    next h =>
      rw [if_neg h] at hxid
      exact absurd (by rw [hxport, hxid]; simp) h
  · refine ⟨_, exec_replyContextExpiry hctx hdone, ?_, fun p n hpn => ?_, rfl⟩
    · refine List.find?_eq_none.2 fun x hx => ?_
      have hkept := (List.mem_filter.1 hx).2
      intro hsame
      rw [hsame] at hkept
      exact absurd hkept (by decide)
    · show (s.fabric.ctxs.filter _).find? _ = s.fabric.ctxs.find? _
      rw [List.find?_filter]
      congr 1
      funext x
      by_cases hx : x.port = p ∧ x.id = n
      · obtain ⟨rfl, rfl⟩ := hx
        have hkept : (x.port == port && x.id == id) = false :=
          Bool.eq_false_iff.2 fun h => hpn (by simpa using h)
        simp [hkept]
      · have hno : (x.port == p && x.id == n) = false := Bool.eq_false_iff.2 fun h => hx (by simpa using h)
        simp [hno]
  · subst hown
    rw [if_pos (by simpa using ha)]
    rfl
  · rw [if_neg (by simp [hforeign])]
    exact ⟨rfl, hself, hframe⟩

end Sys2Proof.Machine
end

section
/-! SUPPORT. FP32 words and their exact values (R37, R38, R58). -/

namespace Sys2Proof.Machine

/-! ### Lengths -/

theorem bitLen_eq {m l : Nat} (hlow : 2 ^ l ≤ m) (hhigh : m < 2 ^ (l + 1)) : bitLen m = l + 1 := by
  have hm : m ≠ 0 := fun h => by rw [h] at hlow; exact absurd hlow (Nat.not_le.2 (Nat.two_pow_pos l))
  rw [bitLen, if_neg hm, (Nat.log2_eq_iff hm).2 ⟨hlow, hhigh⟩]

theorem bitLen_bounds {m : Nat} (hm : m ≠ 0) : 2 ^ (bitLen m - 1) ≤ m ∧ m < 2 ^ bitLen m ∧ 1 ≤ bitLen m := by
  rw [bitLen, if_neg hm]
  exact ⟨Nat.log2_self_le hm, Nat.lt_log2_self, Nat.le_add_left _ _⟩

theorem bitLen_le {m l : Nat} (h : m < 2 ^ l) : bitLen m ≤ l := by
  by_cases hm : m = 0
  · rw [bitLen, if_pos hm]; exact Nat.zero_le _
  · rw [bitLen, if_neg hm]
    exact (Nat.log2_lt hm).2 h

theorem bitLen_shiftLeft {m : Nat} (k : Nat) (hm : m ≠ 0) : bitLen (m <<< k) = bitLen m + k := by
  obtain ⟨hlow, hhigh, hpos⟩ := bitLen_bounds hm
  obtain ⟨l, hl⟩ : ∃ l, bitLen m = l + 1 := ⟨bitLen m - 1, by omega⟩
  rw [hl, Nat.add_sub_cancel] at hlow
  rw [hl] at hhigh ⊢
  rw [Nat.shiftLeft_eq, show l + 1 + k = (l + k) + 1 by omega]
  refine bitLen_eq ?_ ?_
  · rw [Nat.pow_add]; exact Nat.mul_le_mul_right _ hlow
  · rw [show l + k + 1 = l + 1 + k by omega, Nat.pow_add]
    exact Nat.mul_lt_mul_of_pos_right hhigh (Nat.two_pow_pos k)

/-! ### Rounding what FP32 holds -/

/-- A magnitude and a unit as FP32 holds them: 24 bits, a whole number of units of 2^-149, with the leading bit set where the
unit is larger, below 2^128. -/
structure Held32 (m : Nat) (e : Int) : Prop where
  small : m < 2 ^ 24
  unit : -149 ≤ e
  top : e ≤ 104
  leading : e = -149 ∨ 2 ^ 23 ≤ m

theorem Held32.bitLen_le {m : Nat} {e : Int} (h : Held32 m e) : bitLen m ≤ 24 := Sys2Proof.Machine.bitLen_le h.small

/-- The unit that rounding to 24 bits asks for is the one held. -/
theorem Held32.unit_eq {m : Nat} {e : Int} (h : Held32 m e) : max (e + bitLen m - 24) (-149) = e := by
  have hlen := h.bitLen_le
  rcases h.leading with he | hm
  · omega
  · have h24 : bitLen m = 24 := bitLen_eq (l := 23) hm h.small
    have := h.unit
    omega

/-- A magnitude held, however finely it is written, is its own rounding. -/
theorem rne32_held {m : Nat} {e : Int} (h : Held32 m e) (hm : m ≠ 0) (n : Bool) (k : Nat) :
    rne32 (.fin n (m <<< k) (e - k)) = .fin n m e := by
  have hshift : m <<< k ≠ 0 := by
    rw [Nat.shiftLeft_eq]
    exact Nat.mul_ne_zero hm (Nat.ne_of_gt (Nat.two_pow_pos k))
  have hunit := h.unit_eq
  have hround : roundMag rneShr 24 (-149) (m <<< k) (e - k) = (m, e) := by
    unfold roundMag
    rw [if_neg hshift, bitLen_shiftLeft k hm]
    have hq : max (e - k + ((bitLen m + k : Nat) : Int) - ((24 : Nat) : Int)) (-149) = e := by push_cast; omega
    dsimp only
    rw [hq]
    by_cases hk : k = 0
    · subst hk
      simp
    · rw [if_neg (by omega), show (e - (e - (k : Int))).toNat = k by omega, rneShr, if_neg hk]
      have hhalf : (1 <<< (k - 1) : Nat) ≠ 0 := by
        rw [Nat.shiftLeft_eq, Nat.one_mul]; exact (Nat.ne_of_gt (Nat.two_pow_pos _))
      simp [Nat.shiftLeft_shiftRight, hhalf.symm]
  have hbelow : geTwoPow (.fin n m e) 128 = false := by
    have hlen := h.bitLen_le
    have htop := h.top
    rw [geTwoPow, Bool.and_eq_false_iff, decide_eq_false_iff_not]
    right; omega
  unfold rne32 round32 roundFree
  dsimp only
  rw [hround, hbelow]
  rfl

theorem rne32_zero (n : Bool) (e : Int) : rne32 (.fin n 0 e) = .fin n 0 (-149) := rfl

/-- The word of a value that FP32 holds: a sign, the exponent field, the fraction. -/
theorem toW32_held {m : Nat} {e : Int} (h : Held32 m e) (n : Bool) :
    encodeIeee 8 23 (.fin n m e) = (if n then 2 ^ 31 else 0) +
      (if m < 2 ^ 23 then m else (e + 150).toNat * 2 ^ 23 + (m - 2 ^ 23)) := by
  have hsign : (1 <<< (8 + 23) : Nat) = 2 ^ 31 := rfl
  unfold encodeIeee encodeFin
  dsimp only
  rw [hsign]
  generalize (if n = true then 2 ^ 31 else 0 : Nat) = g
  by_cases hm : m = 0
  · subst hm; simp
  · rw [if_neg hm]
    have hunit := h.unit
    have hbias : ((1 <<< (8 - 1) : Nat) : Int) - 1 = 127 := rfl
    rw [hbias]
    by_cases hsub : m < 2 ^ 23
    · have he : e = -149 := h.leading.resolve_right (Nat.not_le.2 hsub)
      have hlen : bitLen m ≤ 23 := bitLen_le hsub
      subst he
      rw [if_pos (by omega), if_pos hsub, if_pos (by decide)]
      rfl
    · have h24 : bitLen m = 24 := bitLen_eq (l := 23) (Nat.not_lt.1 hsub) h.small
      have hplace : e + ((24 : Nat) : Int) - 1 - ((23 : Nat) : Int) = e := by push_cast; omega
      have hfield : (e + ((24 : Nat) : Int) - 1 + 127).toNat = (e + 150).toNat := by push_cast; congr 1; omega
      have hsame : (e - e).toNat = 0 := by rw [Int.sub_self]; rfl
      rw [h24, if_neg (by push_cast; omega), if_neg hsub, hplace, hfield, if_pos (Int.le_refl e), hsame, Nat.shiftLeft_zero,
        Nat.shiftLeft_eq, Nat.add_assoc]
      rfl

/-! ### The words -/

/-- A word is its sign, its exponent field and its fraction. -/
theorem word_fields (w : W32) : w.toNat = (if (w.toNat >>> (23 + 8)) % 2 == 1 then 2 ^ 31 else 0) +
    ((w.toNat >>> 23) % (1 <<< 8) * 2 ^ 23 + w.toNat % (1 <<< 23)) := by
  have hlt := w.isLt
  simp only [Nat.shiftRight_eq_div_pow, Nat.shiftLeft_eq, Nat.one_mul, beq_iff_eq]
  split <;> omega

/-- What a word stands for: an infinity, a NaN, or a magnitude that FP32 holds and whose word it is. -/
theorem ofW32_cases (w : W32) : ofW32 w = .nan ∨ (∃ n, ofW32 w = .inf n ∧ encodeIeee 8 23 (.inf n) = w.toNat) ∨
    ∃ n m e, ofW32 w = .fin n m e ∧ Held32 m e ∧ encodeIeee 8 23 (.fin n m e) = w.toNat := by
  have hword := word_fields w
  have hfrac : w.toNat % (1 <<< 23) < 2 ^ 23 := Nat.mod_lt _ (by decide)
  have hexp : (w.toNat >>> 23) % (1 <<< 8) < 256 := Nat.mod_lt _ (by decide)
  unfold ofW32 decodeIeee
  dsimp only
  generalize hn : ((w.toNat >>> (23 + 8)) % 2 == 1) = n at *
  generalize w.toNat % (1 <<< 23) = f at *
  generalize (w.toNat >>> 23) % (1 <<< 8) = x at *
  have hbias : ((1 <<< (8 - 1) : Nat) : Int) - 1 = 127 := rfl
  have htop : (1 <<< 8 : Nat) - 1 = 255 := rfl
  rw [hbias, htop]
  by_cases hx : x = 255
  · rw [if_pos hx]
    split
    next hf =>
      refine Or.inr (Or.inl ⟨n, rfl, ?_⟩)
      rw [hword, hx, hf]
      cases n <;> rfl
    · exact Or.inl rfl
  · rw [if_neg hx]
    refine Or.inr (Or.inr ?_)
    split
    next h0 =>
      have hheld : Held32 f (-149) := ⟨by omega, by omega, by omega, Or.inl rfl⟩
      refine ⟨n, f, -149, rfl, hheld, ?_⟩
      rw [toW32_held hheld, if_pos hfrac, hword, h0, Nat.zero_mul, Nat.zero_add]
    next h0 =>
      have hlead : f + (1 <<< 23) = f + 2 ^ 23 := rfl
      have hheld : Held32 (f + 2 ^ 23) ((x : Int) - 127 - ((23 : Nat) : Int)) :=
        ⟨by omega, by push_cast; omega, by push_cast; omega, Or.inr (by omega)⟩
      refine ⟨n, f + 2 ^ 23, _, rfl, hheld, ?_⟩
      have hfield : ((x : Int) - 127 - ((23 : Nat) : Int) + 150).toNat = x := by push_cast; omega
      rw [toW32_held hheld, if_neg (show ¬ f + 2 ^ 23 < 2 ^ 23 by omega), hfield, Nat.add_sub_cancel, hword]

theorem rne32_held_self {m : Nat} {e : Int} (h : Held32 m e) (n : Bool) : rne32 (.fin n m e) = .fin n m (if m = 0 then -149 else e) := by
  by_cases hm : m = 0
  · subst hm; rfl
  · rw [if_neg hm]
    have := rne32_held h hm n 0
    simpa using this

theorem encode_zero (n : Bool) (e : Int) : encodeIeee 8 23 (.fin n 0 e) = if n then 2 ^ 31 else 0 := rfl

theorem toW32_of_encode {w : W32} {v : FVal} (h : encodeIeee 8 23 v = w.toNat) : toW32 v = w := by
  rw [toW32, h, BitVec.ofNat_toNat, BitVec.setWidth_eq]

/-- A word that is no NaN is its own rounding. -/
theorem toW32_rne32_ofW32 {w : W32} (h : isNan (ofW32 w) = false) : toW32 (rne32 (ofW32 w)) = w := by
  rcases ofW32_cases w with hw | ⟨n, hw, hcode⟩ | ⟨n, m, e, hw, hheld, hcode⟩
  · rw [hw] at h; exact absurd h (by decide)
  · rw [hw]; exact toW32_of_encode hcode
  · rw [hw, rne32_held_self hheld]
    refine toW32_of_encode ?_
    by_cases hm : m = 0
    · subst hm
      rw [encode_zero] at hcode ⊢
      exact hcode
    · rw [if_neg hm]; exact hcode

theorem isNan_iff (v : FVal) : isNan v = true ↔ v = .nan := by cases v <;> simp [isNan]

theorem fadd_comm (a b : FVal) : fadd a b = fadd b a := by
  match a, b with
  | .nan, .nan => rfl
  | .nan, .inf _ => rfl
  | .nan, .fin _ _ _ => rfl
  | .inf _, .nan => rfl
  | .fin _ _ _, .nan => rfl
  | .inf _, .fin _ _ _ => rfl
  | .fin _ _ _, .inf _ => rfl
  | .inf a, .inf b => cases a <;> cases b <;> rfl
  | .fin n1 m1 e1, .fin n2 m2 e2 =>
    have hsign : (n1 && n2 && m1 == 0 && m2 == 0) = (n2 && n1 && m2 == 0 && m1 == 0) := by
      cases n1 <;> cases n2 <;> simp [Bool.and_comm]
    simp only [fadd]
    rw [Int.min_comm e1 e2, Int.add_comm, hsign]

/-- The sum of a word's value and a zero of sign z, rounded: the word again, but that −0 and +0 give +0. -/
theorem toW32_rne32_add_zero {w : W32} (h : isNan (ofW32 w) = false) (z : Bool) (hz : w = 0x80000000 → z = true) :
    toW32 (rne32 (fadd (ofW32 w) (.fin z 0 (-149)))) = w := by
  rcases ofW32_cases w with hw | ⟨n, hw, hcode⟩ | ⟨n, m, e, hw, hheld, hcode⟩
  · rw [hw] at h; exact absurd h (by decide)
  · rw [hw]; exact toW32_of_encode hcode
  · have hmin : min e (-149) = -149 := Int.min_eq_right hheld.unit
    have hzero (u : Int) : sigAt z 0 (-149) u = 0 := by
      unfold sigAt
      cases z <;> simp
    rw [hw, fadd, hmin, hzero, Int.add_zero]
    by_cases hm : m = 0
    · subst hm
      have hsig : sigAt n 0 e (-149) = 0 := by
        unfold sigAt
        cases n <;> simp
      rw [if_pos hsig, rne32_zero]
      refine toW32_of_encode ?_
      rw [encode_zero] at hcode ⊢
      rw [← hcode]
      cases n with
      | false => rfl
      | true =>
        have hminus : w = 0x80000000 := BitVec.eq_of_toNat_eq hcode.symm
        rw [hz hminus]
        rfl
    · have hshift : m <<< (e - -149).toNat ≠ 0 := by
        rw [Nat.shiftLeft_eq]
        exact Nat.mul_ne_zero hm (Nat.ne_of_gt (Nat.two_pow_pos _))
      have hunit := hheld.unit
      have hfine : sigAt n m e (-149) = if n then -((m <<< (e - -149).toNat : Nat) : Int) else (m <<< (e - -149).toNat : Nat) := rfl
      have hexp : e - ((e - -149).toNat : Int) = -149 := by omega
      have hround := rne32_held hheld hm n (e - -149).toNat
      rw [hexp] at hround
      generalize m <<< (e - -149).toNat = u at hfine hshift hround
      have hnonzero : sigAt n m e (-149) ≠ 0 := by
        rw [hfine]
        split <;> omega
      have hneg : decide (sigAt n m e (-149) < 0) = n := by
        rw [hfine]
        cases n <;> simp <;> omega
      have habs : (sigAt n m e (-149)).natAbs = u := by
        rw [hfine]
        split <;> omega
      rw [if_neg hnonzero, hneg, habs, hround]
      exact toW32_of_encode hcode

/-- Settles O60: a word's value is held exactly, however finely a sum with a zero writes it. -/
theorem numbersKeep : Obligations.NumbersKeep := by
  have hplus : ofW32 0 = .fin false 0 (-149) := by decide
  have hminus : ofW32 0x80000000 = .fin true 0 (-149) := by decide
  refine ⟨fun w h => toW32_rne32_ofW32 h, fun w h => ?_, fun a b => by rw [fadd_comm], fun w h => ⟨fun hw => ?_, ?_⟩⟩
  · rw [(isNan_iff _).1 h]
    decide
  · rw [hplus]
    exact toW32_rne32_add_zero h false fun hz => absurd hz hw
  · rw [hminus]
    exact toW32_rne32_add_zero h true fun _ => rfl

end Sys2Proof.Machine
end

section
/-! SUPPORT. Passes of a command, gaps, simmer and the ramp-up (R88 to R93, R102 to R108); the weight image that a command is
under (R115). -/

namespace Sys2Proof.Machine

/-! ### Commands by number -/

theorem cmd?_id {s : State} {id : Nat} {c : Cmd} (h : s.cmd? id = some c) : c.id = id := by
  have hfound := List.find?_some h
  simpa using hfound

/-- A command set in its place reads as set. -/
theorem cmd?_setCmd {s : State} {id : Nat} {c d : Cmd} (h : s.cmd? id = some c) (hd : d.id = id) :
    (s.setCmd d).cmd? id = some d := by
  unfold State.cmd? State.setCmd at *
  rw [List.find?_map]
  have hkey : ((fun x : Cmd => x.id == id) ∘ fun x => if x.id == d.id then d else x) = fun x => x.id == id := by
    funext x
    simp only [Function.comp, hd]
    split
    next hx => rw [hd, hx]; exact beq_self_eq_true id
    · rfl
  have hc : (c.id == d.id) = true := by
    rw [hd]; exact List.find?_some (p := fun x : Cmd => x.id == id) h
  rw [hkey, h, Option.map_some, if_pos hc]

/-! ### The weight image of a command's wave -/

/-- An element replaced by itself changes nothing. -/
theorem modAt_fixed {α : Type} {l : List α} {i : Nat} {f : α → α} (h : ∀ x, l[i]? = some x → f x = x) : modAt l i f = l := by
  refine List.ext_getElem? fun j => ?_
  rw [modAt_getElem?]
  split
  next hj =>
    subst hj
    cases hl : l[j]? with
    | none => rfl
    | some x => rw [Option.map_some, h x hl]
  · rfl

/-- Under the image that its wave began with the module differs in the slots alone. -/
theorem asOf_frame (s : State) (c : Cmd) : s.asOf c = { s with slots := (s.asOf c).slots } := by
  unfold State.asOf
  split <;> rfl

theorem slot_eq_of_getElem? {s : State} {j : Nat} {k : Slot} (h : s.slots[j]? = some k) : s.slot j = k := by
  rw [State.slot, List.getD_eq_getElem?_getD, h]; rfl

/-- What leaves the slots alone under a wave's image leaves them alone. -/
theorem under_eq {s : State} {c : Cmd} {f : State → State} (hf : (f (s.asOf c)).slots = (s.asOf c).slots) :
    s.under c f = { f (s.asOf c) with slots := s.slots } := by
  have hback (t : State) (p : Plan) (hp : (s.slot c.slot).plan = some p) (ht : t.slots = (s.asOf c).slots) :
      t.modPlan c.slot (fun q => { q with leaves := p.leaves }) = { t with slots := s.slots } := by
    have hslots : modAt t.slots c.slot (fun k => { k with plan := k.plan.map fun q => { q with leaves := p.leaves } }) = s.slots := by
      rw [ht]
      unfold State.asOf
      split
      · refine modAt_fixed fun k hk => ?_
        rw [slot_eq_of_getElem? hk] at hp
        rw [hp]
        cases k; cases hp; rfl
      · rw [State.modPlan, State.modSlot]
        dsimp only
        rw [modAt_modAt]
        refine modAt_fixed fun k hk => ?_
        rw [slot_eq_of_getElem? hk] at hp
        cases k; cases hp; rfl
    calc t.modPlan c.slot (fun q => { q with leaves := p.leaves }) =
        { t with slots := modAt t.slots c.slot fun k => { k with plan := k.plan.map fun q => { q with leaves := p.leaves } } } := rfl
      _ = _ := by rw [hslots]
  have hsame (hslots : (s.asOf c).slots = s.slots) : f (s.asOf c) = { f (s.asOf c) with slots := s.slots } := by
    rw [← hslots, ← hf]
  unfold State.under
  split
  next p _ hp => exact hback _ p hp hf
  next hnone =>
    refine hsame ?_
    unfold State.asOf
    split
    · rfl
    next l hl =>
      refine modAt_fixed fun k hk => ?_
      have hplan : k.plan = none := by
        cases hp : k.plan with
        | none => rfl
        | some p =>
          obtain ⟨e, l', hel⟩ := List.exists_cons_of_ne_nil hl
          exact absurd (by rw [slot_eq_of_getElem? hk, hp]) (hnone e l' p hel)
      cases k; cases hplan; rfl

theorem under_congr {s : State} {c : Cmd} {f g : State → State} (h : f (s.asOf c) = g (s.asOf c)) : s.under c f = s.under c g := by
  unfold State.under
  rw [h]

/-! ### Operations on single cores -/

/-- The state without its cores and the free values drawn. -/
def State.offCores (s : State) : State := { s with draws := 0, cores := [] }

theorem frame_of_offCores {s t : State} (h : t.offCores = s.offCores) : t = { s with draws := t.draws, cores := t.cores } := by
  calc t = { t.offCores with draws := t.draws, cores := t.cores } := rfl
    _ = { s.offCores with draws := t.draws, cores := t.cores } := by rw [h]
    _ = _ := rfl

/-- An operation on the cores alone, for each of a list of them in turn: a core not listed stays, and one listed once is changed
by its own operation. -/
theorem foldl_cores {α : Type} (g : State → Nat × α → State) (hframe : ∀ u e, (g u e).offCores = u.offCores)
    (hother : ∀ u e j, j ≠ e.1 → (g u e).cores[j]? = u.cores[j]?) (l : List (Nat × α)) (s : State)
    (hnodup : (l.map (·.1)).Nodup) :
    (l.foldl g s).offCores = s.offCores ∧ (∀ j, j ∉ l.map (·.1) → (l.foldl g s).cores[j]? = s.cores[j]?) ∧
      ∀ e ∈ l, ∃ u, u.offCores = s.offCores ∧ u.cores[e.1]? = s.cores[e.1]? ∧ (l.foldl g s).cores[e.1]? = (g u e).cores[e.1]? := by
  induction l generalizing s with
  | nil => exact ⟨rfl, fun _ _ => rfl, fun e he => absurd he (List.not_mem_nil)⟩
  | cons a l ih =>
    rw [List.map_cons, List.nodup_cons] at hnodup
    obtain ⟨hoff, hkeep, heach⟩ := ih (g s a) hnodup.2
    refine ⟨hoff.trans (hframe s a), fun j hj => ?_, fun e he => ?_⟩
    · rw [List.map_cons, List.mem_cons, not_or] at hj
      exact (hkeep j hj.2).trans (hother s a j hj.1)
    · rcases List.mem_cons.1 he with rfl | hmem
      · exact ⟨s, rfl, rfl, hkeep e.1 hnodup.1⟩
      · obtain ⟨u, hu, hcore, hres⟩ := heach e hmem
        have hne : e.1 ≠ a.1 := fun h => hnodup.1 (h ▸ List.mem_map_of_mem hmem)
        exact ⟨u, hu.trans (hframe s a), hcore.trans (hother s a e.1 hne), hres⟩

theorem modCore_same {s : State} {k : Nat} {y : CoreSt} (f : CoreSt → CoreSt) (h : s.cores[k]? = some y) :
    (s.modCore k f).cores[k]? = some (f y) := by
  rw [State.modCore, modAt_getElem?, if_pos rfl, h]; rfl

theorem modCore_other (s : State) {k j : Nat} (f : CoreSt → CoreSt) (h : j ≠ k) : (s.modCore k f).cores[j]? = s.cores[j]? := by
  rw [State.modCore, modAt_getElem?, if_neg h]

/-- A core that a change maps to itself changes nothing. -/
theorem modCore_fixed {s : State} {k : Nat} {y : CoreSt} {f : CoreSt → CoreSt} (h : s.cores[k]? = some y) (hf : f y = y) :
    s.modCore k f = s := by
  have hcores : modAt s.cores k f = s.cores := modAt_fixed fun x hx => by
    have hxy : x = y := by rw [h] at hx; exact (Option.some.inj hx).symm
    rw [hxy, hf]
  rw [State.modCore, hcores]

theorem core_of_getElem? {s : State} {k : Nat} {y : CoreSt} (h : s.cores[k]? = some y) : s.core k = y := by
  rw [State.core, List.getD_eq_getElem?_getD, h]; rfl

theorem simmers_of_offCores {s t : State} (h : t.offCores = s.offCores) (k : Nat) : t.simmers k = s.simmers k := by
  rw [frame_of_offCores h]; rfl

theorem now_of_offCores {s t : State} (h : t.offCores = s.offCores) : t.now = s.now := by
  rw [frame_of_offCores h]; rfl

/-! ### Gaps and passes -/

/-- A core on which a pass runs, its section's simmer on or off, at a time. -/
def CoreSt.passOn (x : CoreSt) (on : Bool) (now : W64) : CoreSt :=
  if x.busy then x
  else if x.gapAt = some now then { x with busy := true, simmer := 0 }
  else { x with busy := true, ramp := if !on || x.simmer == 8 then 8 else x.simmer + 1, simmer := 0 }

theorem passOn_same {s : State} {k : Nat} {y : CoreSt} (h : s.cores[k]? = some y) :
    (s.passOn k).cores[k]? = some (y.passOn (s.simmers k) s.now) := modCore_same _ h

theorem passOn_busy (x : CoreSt) (on : Bool) (now : W64) : (x.passOn on now).busy = true := by
  unfold CoreSt.passOn
  split
  · assumption
  · split <;> rfl

/-- A gap begins on a core that ran passes. -/
theorem passOff_same {s : State} {k : Nat} {y : CoreSt} (h : s.cores[k]? = some y) (hbusy : y.busy = true) :
    ∃ z, (s.passOff k).cores[k]? = some z ∧ z.busy = false ∧ z.gapAt = some s.now ∧ z.simmer = (if s.simmers k then 8 else 0) ∧
      z.held = y.held ∧ z.loaded = y.loaded ∧ z.acc = y.acc ∧ z.serial = y.serial ∧ z.gens = y.gens := by
  have hruns : ¬ ((!(s.core k).busy) = true) := by rw [core_of_getElem? h, hbusy]; decide
  unfold State.passOff
  rw [if_neg hruns]
  exact ⟨_, modCore_same _ h, rfl, rfl, rfl, rfl, rfl, rfl, rfl, rfl⟩

theorem passOff_other (s : State) {k j : Nat} (h : j ≠ k) : (s.passOff k).cores[j]? = s.cores[j]? := by
  unfold State.passOff
  split
  · rfl
  · exact modCore_other s _ h

theorem passOff_offCores (s : State) (k : Nat) : (s.passOff k).offCores = s.offCores := by
  unfold State.passOff
  split <;> rfl

/-! ### The weight front -/

/-- The fields of a core that no front changes. -/
def CoreSt.offArray (x : CoreSt) : CoreSt := { x with cells := [], latches := [], held := none, loaded := none, halves := [], feed := 0 }

theorem fields_of_offArray {x z : CoreSt} (h : z.offArray = x.offArray) : z.busy = x.busy ∧ z.serial = x.serial ∧
    z.gens = x.gens ∧ z.acc = x.acc ∧ z.ramp = x.ramp ∧ z.simmer = x.simmer := by
  have field {α : Type} (f : CoreSt → α) : f z.offArray = f x.offArray := congrArg f h
  exact ⟨field CoreSt.busy, field CoreSt.serial, field CoreSt.gens, field CoreSt.acc, field CoreSt.ramp, field CoreSt.simmer⟩

theorem frontRows_eq (x : CoreSt) (p : Pass) (l : List Nat) :
    l.foldl (CoreSt.frontRow p) x = { x with latches := (l.foldl (CoreSt.frontRow p) x).latches } := by
  induction l generalizing x with
  | nil => rfl
  | cons a l ih => exact (ih _).trans rfl

theorem switchRows_eq (x : CoreSt) (l : List Nat) :
    l.foldl CoreSt.switchRow x = { x with cells := (l.foldl CoreSt.switchRow x).cells } := by
  induction l generalizing x with
  | nil => rfl
  | cons a l ih =>
    refine (ih _).trans ?_
    rw [List.foldl_cons]
    generalize (l.foldl CoreSt.switchRow (x.switchRow a)).cells = cs
    unfold CoreSt.switchRow
    split <;> rfl

theorem front_spec (x : CoreSt) (p : Pass) :
    (x.front p).loaded = some p.blk ∧ (x.front p).held = x.held ∧ (x.front p).offArray = x.offArray := by
  unfold CoreSt.front
  generalize List.range arrayRows = l
  rw [frontRows_eq]
  exact ⟨rfl, rfl, rfl⟩

theorem switch_spec (x : CoreSt) : x.switch.held = x.loaded ∧ x.switch.offArray = x.offArray := by
  unfold CoreSt.switch
  generalize List.range arrayRows = l
  rw [switchRows_eq]
  exact ⟨rfl, rfl⟩

/-- A pass that begins: its block is in the stationary registers, the next pass's, where that is another, in the latches. -/
theorem begin_spec (x : CoreSt) (p : Pass) (ps : List Pass) :
    (x.begin (p :: ps)).held = some p.blk ∧ (x.begin (p :: ps)).offArray = x.offArray ∧
      ∀ q qs, ps = q :: qs → q.blk ≠ p.blk → (x.begin (p :: ps)).loaded = some q.blk := by
  unfold CoreSt.begin
  dsimp only
  generalize hx : x.feedFrom p.blk.whole _ = x1
  have hx1 : x1.offArray = x.offArray := by rw [← hx]; rfl
  generalize hx2 : (if x1.held = some p.blk then x1 else (if x1.loaded = some p.blk then x1 else x1.front p).switch) = x2
  have hheld : x2.held = some p.blk := by
    rw [← hx2]
    split
    · assumption
    · rw [(switch_spec _).1]
      split
      · assumption
      · exact (front_spec x1 p).1
  have hoff : x2.offArray = x.offArray := by
    rw [← hx2, ← hx1]
    split
    · rfl
    · rw [(switch_spec _).2]
      split
      · rfl
      · exact (front_spec x1 p).2.2
  cases ps with
  | nil => exact ⟨hheld, hoff, fun q qs h => by cases h⟩
  | cons q qs =>
    obtain ⟨hloaded, hsame, hfront⟩ := front_spec x2 q
    dsimp only
    split
    next heq => exact ⟨hheld, hoff, fun r rs h hne => by cases h; exact absurd heq hne⟩
    · exact ⟨hsame.trans hheld, hfront.trans hoff, fun r rs h _ => by cases h; exact hloaded⟩

/-! ### The accumulator file -/

/-- Rows set in turn: a row set once reads as set. -/
theorem alGet_foldl_alSet {rows : List (Nat × List W32)} (acc : List (Nat × List W32)) (hnodup : (rows.map (·.1)).Nodup) :
    ∀ r ∈ rows, alGet [] r.1 (rows.foldl (fun l r => alSet [] r.1 r.2 l) acc) = r.2 := by
  have hlater (rows : List (Nat × List W32)) (acc : List (Nat × List W32)) (k : Nat) (hk : k ∉ rows.map (·.1)) :
      alGet [] k (rows.foldl (fun l r => alSet [] r.1 r.2 l) acc) = alGet [] k acc := by
    induction rows generalizing acc with
    | nil => rfl
    | cons a rows ih =>
      rw [List.map_cons, List.mem_cons, not_or] at hk
      rw [List.foldl_cons, ih _ hk.2, alGet_alSet_other _ _ _ _ _ hk.1]
  induction rows generalizing acc with
  | nil => exact fun r hr => absurd hr List.not_mem_nil
  | cons a rows ih =>
    rw [List.map_cons, List.nodup_cons] at hnodup
    intro r hr
    rcases List.mem_cons.1 hr with rfl | hmem
    · rw [List.foldl_cons, hlater _ _ _ hnodup.1, alGet_alSet_same]
    · exact ih _ hnodup.2 r hmem

/-! ### PASS_START -/

/-- What a command meets at a pass boundary where nothing that it reads or writes is missing. -/
theorem meetPoison_none {s : State} {c : Cmd} (hread : s.unreadable c.pins = []) (hwrite : s.unwritable c = []) :
    s.meetPoison c = none := by
  unfold State.meetPoison
  dsimp only
  rw [hread, hwrite]
  rfl

/-- The core of a slice as its pass starts. -/
def State.startPass (s : State) (e : Nat × List Pass) : State := (s.passOn e.1).modCore e.1 fun x => x.begin e.2

/-- The core of a slice as its pass ends. -/
def State.endPass (c : Cmd) (s : State) (e : Nat × List Pass) : State :=
  let s := if e.2.length = 1 then s.modCore e.1 fun x =>
      { x with acc := ((c.sums.find? fun a => a.1 == e.1).map (·.2)).getD [] |>.foldl (fun l r => alSet [] r.1 r.2 l) x.acc }
    else s
  if e.2.length = 1 || ((e.2.head?.map (·.rest)).getD false) then s.passOff e.1 else s

theorem startPasses_eq (s : State) (c : Cmd) : s.startPasses c = (c.order.filter fun e => !e.2.isEmpty).foldl State.startPass s := rfl

theorem endPasses_eq (s : State) (c : Cmd) : s.endPasses c = (c.order.filter fun e => !e.2.isEmpty).foldl (State.endPass c) s := by
  unfold State.endPasses
  rfl

theorem exec_passStart {s : State} {id : Nat} {c : Cmd} (hc : s.cmd? id = some c) (hphase : c.phase = .issued)
    (hwaits : c.waits = []) (hpasses : c.passes ≠ 0) (hread : (s.asOf c).unreadable c.pins = [])
    (hwrite : (s.asOf c).unwritable c = []) (hskew : c.skewed = false) :
    exec (.passStart id []) s = .next (s.under c fun s => ((s.startPasses c).endPasses c).setCmd { c with
      passes := c.passes - 1, order := c.order.map fun e => (e.1, e.2.tail) }) := by
  have hgo : ¬ ((c.phase != .issued || !c.waits.isEmpty || c.passes = 0) = true) := by
    rw [hphase, hwaits]
    simpa using hpasses
  have hexec : exec (.passStart id []) s = execPassStart id [] s := rfl
  rw [hexec, execPassStart, hc]
  dsimp only
  rw [if_neg hgo, List.foldl_nil, hc]
  refine (congrArg Host.Outcome.next (if_neg (by decide))).trans ?_
  refine congrArg Host.Outcome.next (under_congr ?_)
  rw [meetPoison_none hread hwrite]
  dsimp only
  rw [hskew, if_neg Bool.false_ne_true]

/-- The passes of a step, started and ended, change the cores alone. -/
theorem startPass_offCores (s : State) (e : Nat × List Pass) : (s.startPass e).offCores = s.offCores := rfl

theorem endPass_offCores (c : Cmd) (s : State) (e : Nat × List Pass) : (State.endPass c s e).offCores = s.offCores := by
  unfold State.endPass
  dsimp only
  split
  · rw [passOff_offCores]
    split <;> rfl
  · split <;> rfl

theorem startPass_other (s : State) (e : Nat × List Pass) (j : Nat) (h : j ≠ e.1) : (s.startPass e).cores[j]? = s.cores[j]? :=
  (modCore_other _ _ h).trans (modCore_other s _ h)

theorem endPass_other (c : Cmd) (s : State) (e : Nat × List Pass) (j : Nat) (h : j ≠ e.1) :
    (State.endPass c s e).cores[j]? = s.cores[j]? := by
  have hsums (f : CoreSt → CoreSt) (p : Prop) [Decidable p] : (if p then s.modCore e.1 f else s).cores[j]? = s.cores[j]? := by
    split
    · exact modCore_other s f h
    · rfl
  unfold State.endPass
  dsimp only
  split
  · rw [passOff_other _ h, hsums]
  · exact hsums _ _

/-- The sums of a slice that stand in the accumulator file after its last pass. -/
def CoreSt.withSums (x : CoreSt) (c : Cmd) (k : Nat) : CoreSt :=
  { x with acc := ((c.sums.find? fun a => a.1 == k).map (·.2)).getD [] |>.foldl (fun l r => alSet [] r.1 r.2 l) x.acc }

/-- The end of a pass on its core. -/
theorem endPass_same {c : Cmd} {s : State} {k : Nat} {p : Pass} {ps : List Pass} {y : CoreSt} (h : s.cores[k]? = some y)
    (hbusy : y.busy = true) : ∃ z, (State.endPass c s (k, p :: ps)).cores[k]? = some z ∧ z.held = y.held ∧ z.loaded = y.loaded ∧
      z.serial = y.serial ∧ z.gens = y.gens ∧ (ps ≠ [] → p.rest = false → z = y) ∧
      (ps = [] ∨ p.rest = true → z.busy = false ∧ z.gapAt = some s.now ∧ z.simmer = (if s.simmers k then 8 else 0)) ∧
      z.acc = (if ps = [] then (y.withSums c k).acc else y.acc) := by
  have hlast : ((p :: ps).length = 1) = (ps = []) := by simp
  unfold State.endPass
  simp only [hlast, List.head?_cons, Option.map_some, Option.getD_some, Bool.or_eq_true, decide_eq_true_iff]
  by_cases hps : ps = []
  · rw [if_pos hps, if_pos (Or.inl hps)]
    obtain ⟨z, hz, hbusy', hgap, hsimmer, hheld, hloaded, hacc, hserial, hgens⟩ :=
      passOff_same (modCore_same (fun x => x.withSums c k) h) hbusy
    exact ⟨z, hz, hheld, hloaded, hserial, hgens, fun hne => absurd hps hne, fun _ => ⟨hbusy', hgap, hsimmer⟩, by rw [if_pos hps, hacc]⟩
  · rw [if_neg hps]
    by_cases hrest : p.rest = true
    · rw [if_pos (Or.inr hrest)]
      obtain ⟨z, hz, hbusy', hgap, hsimmer, hheld, hloaded, hacc, hserial, hgens⟩ := passOff_same h hbusy
      exact ⟨z, hz, hheld, hloaded, hserial, hgens, fun _ hno => absurd hrest (by rw [hno]; decide),
        fun _ => ⟨hbusy', hgap, hsimmer⟩, by rw [if_neg hps, hacc]⟩
    · rw [if_neg (by simp [hps, hrest])]
      exact ⟨y, h, rfl, rfl, rfl, rfl, fun _ _ => rfl, fun hor => absurd hor (by simp [hps, hrest]), by rw [if_neg hps]⟩

theorem startPass_same {s : State} {k : Nat} {y : CoreSt} (ps : List Pass) (h : s.cores[k]? = some y) :
    (s.startPass (k, ps)).cores[k]? = some ((y.passOn (s.simmers k) s.now).begin ps) :=
  modCore_same _ (passOn_same h)

/-- The passes of a step on the cores: a core without a pass left stays; one with a pass left starts it and ends it. -/
theorem passes_cores {s : State} {c : Cmd} (hnodup : (c.order.map (·.1)).Nodup) :
    ((s.startPasses c).endPasses c).offCores = s.offCores ∧
      (∀ k, (∀ e ∈ c.order, e.1 = k → e.2 = []) → ((s.startPasses c).endPasses c).cores[k]? = s.cores[k]?) ∧
      ∀ k y p ps, s.cores[k]? = some y → (k, p :: ps) ∈ c.order → ∃ v : State, v.offCores = s.offCores ∧
        v.cores[k]? = some ((y.passOn (s.simmers k) s.now).begin (p :: ps)) ∧
        ((s.startPasses c).endPasses c).cores[k]? = (State.endPass c v (k, p :: ps)).cores[k]? := by
  have hsub : ((c.order.filter fun e => !e.2.isEmpty).map (·.1)).Nodup := hnodup.sublist (List.filter_sublist.map _)
  have hmem (k : Nat) (hk : ∀ e ∈ c.order, e.1 = k → e.2 = []) : k ∉ (c.order.filter fun e => !e.2.isEmpty).map (·.1) := by
    intro hin
    obtain ⟨e, he, rfl⟩ := List.mem_map.1 hin
    obtain ⟨hmem, hne⟩ := List.mem_filter.1 he
    rw [hk e hmem rfl] at hne
    exact absurd hne (by decide)
  rw [startPasses_eq, endPasses_eq]
  generalize hl : (c.order.filter fun e => !e.2.isEmpty) = l at hsub hmem
  obtain ⟨hoff1, hkeep1, heach1⟩ := foldl_cores State.startPass startPass_offCores startPass_other l s hsub
  obtain ⟨hoff2, hkeep2, heach2⟩ := foldl_cores (State.endPass c) (endPass_offCores c) (endPass_other c) l (l.foldl State.startPass s) hsub
  refine ⟨hoff2.trans hoff1, fun k hk => (hkeep2 k (hmem k hk)).trans (hkeep1 k (hmem k hk)), fun k y p ps hy hin => ?_⟩
  have hin' : (k, p :: ps) ∈ l := by rw [← hl]; exact List.mem_filter.2 ⟨hin, rfl⟩
  obtain ⟨u, hu, hucore, hures⟩ := heach1 _ hin'
  obtain ⟨v, hv, hvcore, hvres⟩ := heach2 _ hin'
  dsimp only at hucore hures hvcore hvres
  refine ⟨v, hv.trans hoff1, ?_, hvres⟩
  rw [hvcore, hures, startPass_same (p :: ps) (hucore.trans hy), simmers_of_offCores hu, now_of_offCores hu]

/-- What a core that ran its pass keeps of the start of the pass. -/
theorem begun_spec (y : CoreSt) (on : Bool) (now : W64) (p : Pass) (ps : List Pass) :
    ((y.passOn on now).begin (p :: ps)).busy = true ∧ ((y.passOn on now).begin (p :: ps)).serial = y.serial ∧
      ((y.passOn on now).begin (p :: ps)).gens = y.gens ∧ ((y.passOn on now).begin (p :: ps)).acc = y.acc ∧
      (y.busy = true → ((y.passOn on now).begin (p :: ps)).ramp = y.ramp ∧ ((y.passOn on now).begin (p :: ps)).simmer = y.simmer) ∧
      (y.busy = false → ((y.passOn on now).begin (p :: ps)).simmer = 0 ∧ ((y.passOn on now).begin (p :: ps)).ramp =
        (if y.gapAt = some now then y.ramp else if on = false ∨ y.simmer = 8 then 8 else y.simmer + 1)) := by
  have hoff := (begin_spec (y.passOn on now) p ps).2.1
  generalize (y.passOn on now).begin (p :: ps) = z at hoff
  obtain ⟨hbusy, hserial, hgens, hacc, hramp, hsimmer⟩ := fields_of_offArray hoff
  have hkeeps : (y.passOn on now).serial = y.serial ∧ (y.passOn on now).gens = y.gens ∧ (y.passOn on now).acc = y.acc := by
    unfold CoreSt.passOn
    split
    · exact ⟨rfl, rfl, rfl⟩
    · split <;> exact ⟨rfl, rfl, rfl⟩
  refine ⟨hbusy.trans (passOn_busy y on now), hserial.trans hkeeps.1, hgens.trans hkeeps.2.1, hacc.trans hkeeps.2.2,
    fun hy => ?_, fun hy => ?_⟩
  · rw [hramp, hsimmer, CoreSt.passOn, if_pos hy]
    exact ⟨rfl, rfl⟩
  · rw [hramp, hsimmer, CoreSt.passOn, hy, if_neg Bool.false_ne_true]
    by_cases hgap : y.gapAt = some now
    · rw [if_pos hgap, if_pos hgap]
      exact ⟨rfl, rfl⟩
    · rw [if_neg hgap, if_neg hgap]
      refine ⟨rfl, ?_⟩
      cases on <;> simp

/-- Settles O34: the fold over the slices, core by core, and the steps of simmer and the ramp-up. -/
theorem passesRun : Obligations.PassesRun := by
  refine ⟨fun s id c hc hphase hwaits hpasses hread hwrite hskew hnodup => ?_, fun s k y hy =>
    ⟨fun hsim hgap hon => ?_, fun hstill => ?_, fun hbusy => ?_, fun hgap => ?_⟩⟩
  · have hasOf := asOf_frame s c
    have hslots : ((((s.asOf c).startPasses c).endPasses c).setCmd { c with
        passes := c.passes - 1, order := c.order.map fun e => (e.1, e.2.tail) }).slots = (s.asOf c).slots := by
      have hoff := (passes_cores (s := s.asOf c) hnodup).1
      rw [State.setCmd, frame_of_offCores hoff]
    have hexec := exec_passStart hc hphase hwaits hpasses hread hwrite hskew
    rw [under_eq (f := fun s => ((s.startPasses c).endPasses c).setCmd { c with
      passes := c.passes - 1, order := c.order.map fun e => (e.1, e.2.tail) }) hslots] at hexec
    obtain ⟨hoff, hkeep, heach⟩ := passes_cores (s := s.asOf c) hnodup
    generalize hv : ((s.asOf c).startPasses c).endPasses c = v at hexec hoff hkeep heach
    have hframe := frame_of_offCores hoff
    have hcores : (s.asOf c).cores = s.cores := by rw [hasOf]
    have hnow : (s.asOf c).now = s.now := by rw [hasOf]; rfl
    have hsimmers (k : Nat) : (s.asOf c).simmers k = s.simmers k := by rw [hasOf]; rfl
    have hid := cmd?_id hc
    refine ⟨_, hexec, ?_, fun k y hy hnone => ?_, fun k y p ps hy hin => ?_, ?_⟩
    · refine cmd?_setCmd (c := c) ?_ hid
      rw [hframe, hasOf]
      exact hc
    · exact (hkeep k hnone).trans (by rw [hcores]; exact hy)
    · obtain ⟨w, hw, hwcore, hres⟩ := heach k y p ps (by rw [hcores]; exact hy) hin
      rw [hsimmers, hnow] at hwcore
      obtain ⟨hbusy, hserial, hgens, hacc, hran, hrested⟩ := begun_spec y (s.simmers k) s.now p ps
      obtain ⟨hheld, -, hloaded⟩ := begin_spec (y.passOn (s.simmers k) s.now) p ps
      obtain ⟨z, hz, hzheld, hzloaded, hzserial, hzgens, hgoes, hends, hzacc⟩ := endPass_same (c := c) (p := p) (ps := ps) hwcore hbusy
      rw [simmers_of_offCores hw, hsimmers, now_of_offCores hw, hnow] at hends
      refine ⟨z, hres.trans hz, hzheld.trans hheld, hzserial.trans hserial, hzgens.trans hgens,
        fun q qs hps hne => hzloaded.trans (hloaded q qs hps hne), fun hne hrest => ?_, hends, fun hlast a ha hdup r hr => ?_⟩
      · rw [hgoes hne hrest]
        exact ⟨hbusy, hacc, hran, hrested⟩
      · rw [hzacc, if_pos hlast, CoreSt.withSums, ha]
        exact alGet_foldl_alSet _ hdup r hr
    · show ({ v.setCmd _ with slots := s.slots } : State) = _
      rw [State.setCmd, hframe, hasOf]
  · have hexec : exec (.simmerRampDown k) s = execSimmerRampDown k s := rfl
    rw [execSimmerRampDown, hsim] at hexec
    refine ⟨_, hexec, ?_, fun n hn => modCore_other s _ hn, rfl⟩
    refine (modCore_same _ hy).trans ?_
    simp [hgap, hon]
  · have hexec : exec (.simmerRampDown k) s = execSimmerRampDown k s := rfl
    rw [hexec, execSimmerRampDown]
    cases hsim : s.simmers k with
    | false => rfl
    | true =>
      have hx : (y.busy || decide (y.simmer = 0)) = true := by
        simpa [hsim] using hstill
      exact congrArg Host.Outcome.next (modCore_fixed hy (if_pos hx))
  · have hexec : exec (.rampUpStep k) s = execRampUpStep k s := rfl
    refine ⟨_, hexec, ?_, fun n hn => modCore_other s _ hn, rfl⟩
    refine (modCore_same _ hy).trans ?_
    rw [hbusy, if_pos rfl]
  · have hexec : exec (.rampUpStep k) s = execRampUpStep k s := rfl
    rw [hexec, execRampUpStep]
    exact congrArg Host.Outcome.next (modCore_fixed hy (by rw [hgap]; rfl))

end Sys2Proof.Machine
end

section
/-! SUPPORT. A port that comes up or goes down while another loses a reply (R32, R33, R344). -/

namespace Sys2Proof.Machine

/-! ### What the recomputed table does at other ports

A native port that comes up or loses its partner changes the capability table, and with it the fit of every plan is renewed
(R33). The open requests of a plan that no longer fits end, each with its final reply at the edge port it came by; a reply at an
edge port that is down is dropped and counted there (R344). So another port than the one negotiated changes. -/

/-- A plan that asks for 200 cores of section 0. -/
def widePlan : Plan :=
  { header := [0, 0, 1, 200], descs := [], table := [], leaves := [], tableBase := 0, scratch := [], regionBase := 0,
    regionUnits := 0, suspect := false, unfit := 0 }

/-- The context of a request that came by port 1. -/
def contextAtPort1 : Ctxt :=
  { id := 0, port := 1, ip6 := false, ip := 0, udp := 0, mac := 0, vlan := 0, reqTag := 0, header := [], got := [], area := 0,
    passed := true, done := false }

/-- A native port 0 in a state, an edge port 1 that is down, and an open request of a plan in slot 0, not yet found to be too wide,
whose reply goes by port 1. -/
def withLateReply (state : Nat) (imprint : Option Imprint) : State :=
  { State.reset with
    ident := { State.reset.ident with imprint := imprint }
    fabric := { Fabric.reset with
      ports := (Fabric.reset.ports.set 0 { FPort.reset with mode := 1, state := state }).set 1 { FPort.reset with mode := 2, state := 4 }
      ctxs := [contextAtPort1] }
    slots := State.reset.slots.set 0 { emptySlot with plan := some widePlan }
    reqs := [(0, { freeReq with open_ := true, replyCtx := 4096 })] }

/-- The count of dropped frames and replies at port 1 after a step. -/
def droppedAtPort1 (o : Host.Outcome State Fault Refusal) : Nat :=
  match o with
  | .next t => (t.fport 1).dropped
  | _ => 0

/-- A change of port 1 is a change of another port than port 0. -/
theorem not_onlyPort_of_dropped {s t : State} {i : Instr} (hexec : exec i s = .next t)
    (hbefore : (s.fport 1).dropped = 0) (hafter : droppedAtPort1 (exec i s) = 1) : ¬ OnlyPort s t 0 := by
  intro honly
  rw [hexec] at hafter
  have hsame : t.fport 1 = s.fport 1 := honly 1 (by decide)
  have hafter' : (t.fport 1).dropped = 1 := hafter
  rw [hsame, hbefore] at hafter'
  exact absurd hafter' (by decide)

/-- Refutes O49: port 0 loses its partner, the fit of slot 0 is renewed, and the reply of its request is dropped at port 1. -/
theorem not_portsAndHellos : ¬ Obligations.PortsAndHellos := by
  rintro ⟨hports, -⟩
  obtain ⟨-, hloss, -, -⟩ := hports (withLateReply 2 none) 0
  obtain ⟨t, hexec, -, -, -, -, -, -, -, -, honly⟩ := hloss (by decide)
  exact not_onlyPort_of_dropped hexec (by decide) (by decide +kernel) honly

/-- An imprint with one level of two modules, this one at place 0, and port 0 on its ring at every rate. -/
def ringImprint : Imprint :=
  { header := [], system := List.replicate 10 0 ++ [1, 1 + 16], modsec := List.replicate 16 0 ++ [1 + 64], rotation := false,
    signerHash := 0, rotHash := 0, sigOk := true, rotOk := true }

/-- A partner at place 1 of the ring, on good lanes, with the colophon of this module. -/
def goodPartner : NegIn :=
  ⟨true, [], 0, [], true, 7, true, false, 31, 31, 31, true, [1 + 0x8000000]⟩

/-- Refutes O48: port 0 comes up, the fit of slot 0 is renewed, and the reply of its request is dropped at port 1. -/
theorem not_negotiations : ¬ Obligations.Negotiations := by
  rintro ⟨hports, -⟩
  obtain ⟨-, hup, -⟩ := hports (withLateReply 1 (some ringImprint)) 0 goodPartner (by decide) (by decide)
  obtain ⟨t, hexec, -, -, -, -, -, -, -, -, -, -, honly, -⟩ := hup rfl rfl (by decide) (by decide) rfl rfl rfl rfl (by decide)
    (by decide) rfl (by decide) (by decide +kernel) (by decide +kernel)
  exact not_onlyPort_of_dropped hexec (by decide) (by decide +kernel) honly

end Sys2Proof.Machine
end

section
/-! SUPPORT. What the recomputed capability table and a section's remap leave (R32, R473). -/

namespace Sys2Proof.Machine

/-! ### The capability table recomputed -/

/-- The state without what a recomputed capability table may change: what the end of a request does, attention, the table, the fit of
plans and the colophons. -/
def State.offCap (s : State) : State :=
  { s.offReq with
    port := { s.offReq.port with attnPending := 0, attnCount := [], attnLast := [] }
    cap := [], slots := [], ident := { s.ident with colophon := 0, window := none } }

theorem offCap_of_offReq {s t : State} (h : t.offReq = s.offReq) : t.offCap = s.offCap := by
  rw [frame_of_offReq h]; rfl

theorem offCap_of_offWork {s t : State} (h : t.offWork = s.offWork) : t.offCap = s.offCap := offCap_of_offReq (offReq_of_offWork h)

theorem offCap_foldl {α : Type} (g : State → α → State) (h : ∀ s x, (g s x).offCap = s.offCap) (l : List α) (s : State) :
    (l.foldl g s).offCap = s.offCap := by
  induction l generalizing s with
  | nil => rfl
  | cons a l ih => exact (ih _).trans (h s a)

theorem attention_offCap (s : State) (c : Nat) (code : Code) (a b : W32) : (s.attention c code a b).offCap = s.offCap := rfl

theorem recolophon_offCap (s : State) : s.recolophon.offCap = s.offCap := by rw [recolophon_frame]; rfl

theorem refit_offCap (s : State) (j : Nat) : (s.refit j).offCap = s.offCap := by
  have hplan (u : State) (f : Plan → Plan) : (u.modPlan j f).offCap = u.offCap := rfl
  have hends (l : List Nat) (u : State) : (l.foldl (fun s k => s.endReq k cOverflow []) u).offCap = u.offCap :=
    offCap_foldl _ (fun u k => offCap_of_offReq (endReq_offReq u k _ _)) l u
  unfold State.refit
  split
  · rfl
  · dsimp only
    split
    · exact hplan _ _
    · rw [hends, attention_offCap, hplan]

theorem recapAs_offCap (s : State) (quiet : Bool) (code : Code) : (s.recapAs quiet code).offCap = s.offCap := by
  have hcap (u : State) (l : List W32) : ({ u with cap := l } : State).offCap = u.offCap := rfl
  unfold State.recapAs
  dsimp only
  split
  · rfl
  · rw [recolophon_offCap, offCap_foldl _ refit_offCap]
    split
    · rw [attention_offCap, hcap]
    · rw [hcap]

theorem sects_of_offCap {s t : State} (h : t.offCap = s.offCap) : t.sects = s.sects :=
  calc t.sects = t.offCap.sects := rfl
    _ = s.sects := by rw [h]; rfl

/-! ### A section stopped -/

theorem killRerun_offWork (s : State) (c : Cmd) (code : Code) : (s.killRerun c code).offWork = s.offWork := by
  have hset (u : State) (x : Cmd) : (u.setCmd x).offWork = u.offWork := rfl
  have hlog (u : State) (arr : Nat) : (u.logKill c code arr).offWork = u.offWork := undo_offWork u c
  unfold State.killRerun State.requeue
  dsimp only
  rw [if_neg (by simp), hset, hlog]
  rfl

theorem stopSection_offWork (s : State) (sec : Nat) : (s.stopSection sec).offWork = s.offWork :=
  offWork_foldl _ (fun u c => killRerun_offWork u c _) _ _

theorem voidWhere_offWork (s : State) (f : WaveRun → Bool) : (s.voidWhere f).offWork = s.offWork := rfl

@[simp] theorem State_dropTo_offRack (s : State) (i : Nat) (h : Handle) : (s.dropTo i h).offRack = s.offRack := by
  unfold State.dropTo
  dsimp only
  split
  · rfl
  · split
    · rw [State_returnLeaf_offRack, State_dropSs_offRack]
      split
      · exact State_staleFrame_offRack _ _
      · rfl
    · exact State_drop_offRack _ _

@[simp] theorem dropAdvances_offRack (s : State) (i : Nat) : (s.dropAdvances i).offRack = s.offRack := by
  unfold State.dropAdvances
  dsimp only
  split
  · rfl
  · split
    · rfl
    · refine (offRack_foldl (fun (u : State) (e : Nat × Handle) => u.dropTo i e.2) (fun u e => State_dropTo_offRack u i e.2) _ _).trans ?_
      rw [State_dirtyLeaf_offRack, State_patchCask_offRack, State_ensureCask_offRack]

theorem abandon_offReq (s : State) (i : Nat) : (s.abandon i).offReq = s.offReq := by
  have hmod (u : State) (f : Stream → Stream) : (u.modStream i f).offReq = u.offReq := rfl
  have hvoid : (s.voidRuns i).offReq = s.offReq := offReq_of_offWork (voidWhere_offWork s _)
  unfold State.abandon
  rw [hmod, offReq_of_offWork (offWork_of_offRack (dropAdvances_offRack _ _)), hvoid]

theorem offReq_foldl {α : Type} (g : State → α → State) (h : ∀ s x, (g s x).offReq = s.offReq) (l : List α) (s : State) :
    (l.foldl g s).offReq = s.offReq := by
  induction l generalizing s with
  | nil => rfl
  | cons a l ih => exact (ih _).trans (h s a)

theorem voidPart_offReq (s : State) (part : Nat) : (s.voidPart part).offReq = s.offReq := by
  have hmod (u : State) (f : Partition → Partition) : (u.modPart part f).offReq = u.offReq := rfl
  unfold State.voidPart
  dsimp only
  rw [hmod]
  exact offReq_foldl (fun (u : State) (r : WaveRun) => u.abandon r.stream) (fun u r => abandon_offReq u r.stream) _ _

theorem dropVoid_offReq (s : State) : s.dropVoid.offReq = s.offReq := rfl

/-! ### A section remapped -/

theorem loadTables_sects (s : State) (core : Nat) : (s.loadTables core).sects = s.sects := by
  unfold State.loadTables
  induction s.plans generalizing s with
  | nil => rfl
  | cons p l ih =>
    rw [List.foldl_cons, ih]
    split <;> rfl

theorem mapCores_sects (s : State) (sec : Nat) (map : List Nat) (spare : Option Nat) :
    (s.mapCores sec map spare).sects = modAt s.sects sec fun k => { k with map := map, spare := spare } := by
  have hload (l : List Nat) (u : State) : (l.foldl (fun s l => s.loadTables (16 * sec + l)) u).sects = u.sects := by
    induction l generalizing u with
    | nil => rfl
    | cons a l ih => exact (ih _).trans (loadTables_sects _ _)
  exact hload _ _

/-- The map of a section without one of its physical cores. -/
def Sect.mapWithout (k : Sect) (phys l : Nat) : List Nat :=
  match k.spare with
  | some p => k.map.set l p
  | none => ascending (k.map.filter (· != phys))

/-- The sections after a mapped core fails: its own has its new map and no spare. -/
theorem coreFails_sects {s : State} {sec phys l : Nat} (hspare : (s.sect sec).spare ≠ some phys)
    (hmap : (s.sect sec).map.findIdx? (· == phys) = some l) :
    (s.coreFails sec phys).sects = modAt s.sects sec fun k =>
      { k with map := (s.sect sec).mapWithout phys l, spare := none } := by
  have hvoid (ls : List Nat) (u : State) : (ls.foldl (fun s n => s.voidPart n) u).sects = u.sects :=
    sects_of_offCap (offCap_of_offReq (offReq_foldl _ voidPart_offReq ls u))
  unfold State.coreFails
  dsimp only
  rw [if_neg hspare, hmap]
  dsimp only
  rw [sects_of_offCap (recapAs_offCap _ _ _), sects_of_offCap (attention_offCap _ _ _ _ _), mapCores_sects,
    sects_of_offCap (offCap_of_offReq (dropVoid_offReq _)), hvoid, sects_of_offCap (offCap_of_offWork (stopSection_offWork _ _))]
  rfl

theorem sect_of_sects {s t : State} (h : t.sects = s.sects) (n : Nat) : t.sect n = s.sect n := by
  rw [State.sect, State.sect, h]

theorem sect_modAt {s t : State} {sec : Nat} {f : Sect → Sect} (h : t.sects = modAt s.sects sec f) (hlen : sec < s.sects.length) :
    t.sect sec = f (s.sect sec) ∧ ∀ n, n ≠ sec → t.sect n = s.sect n := by
  simp only [State.sect, h]
  exact ⟨modAt_getD_same _ _ _ _ hlen, fun n hn => modAt_getD_other _ _ _ _ _ hn⟩

/-- A failure recorded in its section and in the core record. -/
def State.failureNoted (s : State) (sec phys : Nat) : State :=
  { s.modSect sec fun k => { k with failed := k.failed ||| coreBit phys, failing := k.failing ++ [phys] } with
    nor := { s.nor with coreRecord := modAt s.nor.coreRecord sec fun r => r ||| coreBit phys } }

theorem exec_coreFailure {s : State} {sec phys : Nat} (hrun : s.coresRun = true) (hsec : sec < 4) (hphys : phys < 17)
    (hin : s.coreOut sec phys = false) :
    exec (.coreFailure sec phys) s = .next (((s.failureNoted sec phys).stopSection sec).settleCores sec) := by
  have hexec : exec (.coreFailure sec phys) s = .next (s.runFailure sec phys) := rfl
  rw [hexec, State.runFailure, if_neg (by simp [hrun, hin, hsec, hphys])]
  rfl

/-- Where no command is held in the section once it is stopped, a core that fails waits for nothing. -/
theorem failing_of_unheld {s : State} {sec phys l : Nat} (hsec : sec < s.sects.length) (hfailing : (s.sect sec).failing = [])
    (hspare : (s.sect sec).spare ≠ some phys) (hmap : (s.sect sec).map.findIdx? (· == phys) = some l)
    (hheld : ((s.failureNoted sec phys).stopSection sec).heldIn sec = false) :
    ((((s.failureNoted sec phys).stopSection sec).settleCores sec).sect sec).failing = [] := by
  have hsects := sects_of_offCap (offCap_of_offWork (stopSection_offWork (s.failureNoted sec phys) sec))
  obtain ⟨hnoted, -⟩ := sect_modAt (t := s.failureNoted sec phys) rfl hsec
  have hstopped := sect_of_sects hsects sec
  rw [hnoted] at hstopped
  have hlen : sec < ((s.failureNoted sec phys).stopSection sec).sects.length := by
    rw [hsects]
    exact lt_of_lt_of_eq hsec (modAt_length _ _ _).symm
  generalize (s.failureNoted sec phys).stopSection sec = u at *
  have hone : (u.sect sec).failing = [phys] := by rw [hstopped, hfailing]; rfl
  generalize hv : u.modSect sec (fun k => { k with failing := [] }) = v
  obtain ⟨hvsect, -⟩ := sect_modAt (s := u) (t := v) (by subst hv; rfl) hlen
  have hvlen : sec < v.sects.length := by subst hv; exact lt_of_lt_of_eq hlen (modAt_length _ _ _).symm
  have hfails := coreFails_sects (s := v) (sec := sec) (phys := phys) (l := l)
    (by rw [hvsect, hstopped]; exact hspare) (by rw [hvsect, hstopped]; exact hmap)
  rw [State.settleCores, if_neg (by simp [hheld]), hone, hv, List.foldl_cons, List.foldl_nil, (sect_modAt hfails hvlen).1, hvsect]

end Sys2Proof.Machine
end

section
/-! SUPPORT. A core that fails under two commands of one number (R473). -/

namespace Sys2Proof.Machine

/-- A command of slot 0 on core 0, in a phase; its number is 0 whatever else is there. -/
def onCore0 (phase : Phase) : Cmd :=
  { id := 0, part := 0, slot := 0, desc := 0, words := [], origin := .service, shape := { dims := [], rows := [], runs := [] }, runs := [],
    closes := [], phase := phase, rerun := false, plain := false, skews := 0, timeouts := 0, cores := [0], serial := 0, passes := 0,
    order := [], sums := [], spill := [], infSeen := false, nanSeen := false, outSat := false, empty := false, skewed := false,
    effs := [], pins := [], taken := [], consumed := [], waits := [], starved := false, scaled := [], attempt := 0, arr := 0 }

/-- A module in service with an issued and a held command of the same number, both on core 0. -/
def withTwins : State :=
  { State.reset with
    power := { Power.reset with state := .ready, config := 1 }
    cmds := [onCore0 .issued, onCore0 .held] }

/-- Refutes O58: the kill of the issued command places the held one of its number again too, so that no command is held and the remap
does not wait. -/
theorem not_coreFailures : ¬ Obligations.CoreFailures := by
  intro h
  obtain ⟨t, hexec, -, -, hheld, -⟩ := h withTwins 0 0 0 (.coreFailure 0 0) (by decide +kernel) (by decide) (by decide) (by decide) (by decide)
    rfl (by decide) (by decide) (Or.inl rfl)
  obtain ⟨hfailing, -⟩ := hheld (by decide)
  have hfree : ((withTwins.failureNoted 0 0).stopSection 0).heldIn 0 = false := by decide +kernel
  have hafter := failing_of_unheld (s := withTwins) (phys := 0) (l := 0) (by decide) (by decide) (by decide) (by decide) hfree
  rw [exec_coreFailure (by decide) (by decide) (by decide) (by decide)] at hexec
  obtain rfl := Host.Outcome.next.inj hexec
  exact absurd (hfailing.symm.trans hafter) (by decide)

end Sys2Proof.Machine
end

section
/-! SUPPORT. Service cycles, TRAIN and PLAIN_RERUN (R327, R373, R422, R424). -/

namespace Sys2Proof.Machine

/-! ### Partitions -/

theorem part_modPart {s : State} {n : Nat} (f : Partition → Partition) (h : n < s.parts.length) :
    (s.modPart n f).part n = f (s.part n) := modAt_getD_same _ _ _ _ h

theorem part_modPart_other {s : State} {n k : Nat} (f : Partition → Partition) (h : k ≠ n) :
    (s.modPart n f).part k = s.part k := modAt_getD_other _ _ _ _ _ h

/-! ### Service cycles -/

theorem insertItem_perm (x : Item) (l : List Item) : (insertItem x l).Perm (x :: l) := by
  induction l with
  | nil => exact .refl _
  | cons y l ih =>
    rw [insertItem]
    split
    · exact .refl _
    · exact (ih.cons y).trans (.swap x y l)

theorem sortItems_perm (l : List Item) : (sortItems l).Perm l := by
  induction l with
  | nil => exact .refl _
  | cons x l ih => exact (insertItem_perm x _).trans (ih.cons x)

/-- Every fork that may run is that of a request record. -/
theorem forksReady_req {s : State} {part : Nat} {x : Item} (h : x ∈ s.forksReady part) : ∃ q, x.req = some q := by
  unfold State.forksReady at h
  rw [(sortItems_perm _).mem_iff, List.mem_map] at h
  obtain ⟨e, -, rfl⟩ := h
  exact ⟨_, rfl⟩

/-- The command of a service cycle. -/
def serviceCmd (s : State) (part opc lop : Nat) (rows : List Nat) : Cmd :=
  { id := s.nextCmd, part := part, slot := 0, desc := 0xFFFFFF, words := serviceWords opc lop, origin := .service
    shape := serviceShape rows, runs := [], closes := [], phase := .placed, rerun := false, plain := false, skews := 0, timeouts := 0
    cores := [], serial := 0, passes := 0, order := [], sums := [], spill := [], infSeen := false, nanSeen := false
    outSat := false, empty := false, skewed := false, effs := [], pins := [], taken := [], consumed := [], waits := []
    starved := false, scaled := [], attempt := 0, arr := 0 }

theorem placeService_eq (s : State) (part opc lop : Nat) {rows : List Nat} (h : rows ≠ []) :
    s.placeService part opc lop rows =
      { s with cmds := s.cmds ++ [serviceCmd s part opc lop rows], nextCmd := s.nextCmd + 1 } := by
  have hsome : ¬ rows.isEmpty = true := by simpa using h
  exact if_neg hsome

theorem exec_forkCycle {s : State} {part : Nat} (hruns : s.gristRuns part = true)
    (hstand : ∀ x ∈ s.forksReady part, ∀ q, x.req = some q → s.parentStands (s.req (reqKey q.1 q.2)) = true) :
    exec (.forkCycle part) s = .next (s.placeService part 0x0D 0 (((s.forksReady part).take 256).map (·.stream))) := by
  have hall : ∀ x ∈ (s.forksReady part).take 256,
      s.parentStands (s.req ((x.req.map fun q => reqKey q.1 q.2).getD 0)) = true := by
    intro x hx
    have hmem := List.mem_of_mem_take hx
    obtain ⟨q, hq⟩ := forksReady_req hmem
    rw [hq]
    exact hstand x hmem q hq
  have hexec : exec (.forkCycle part) s = execForkCycle part s := rfl
  have hgone : (((s.forksReady part).take 256).filter fun x =>
      !s.parentStands (s.req ((x.req.map fun q => reqKey q.1 q.2).getD 0))) = [] :=
    List.filter_eq_nil_iff.mpr fun x hx => by simp [hall x hx]
  have hgood : (((s.forksReady part).take 256).filter fun x =>
      s.parentStands (s.req ((x.req.map fun q => reqKey q.1 q.2).getD 0))) = (s.forksReady part).take 256 :=
    List.filter_eq_self.mpr hall
  rw [hexec, execForkCycle]
  dsimp only
  rw [hgone, hgood, hruns]
  rfl

theorem exec_endCycle {s : State} {part : Nat} (hruns : s.gristRuns part = true) :
    exec (.endCycle part) s = .next (s.placeService part 0x0E 2 (((s.streams.filter fun e =>
      e.2.live && e.2.ending && e.2.partition == part && !s.hasCmd e.1 && !s.forking.contains e.1).map (·.1)).take 256)) := by
  have hexec : exec (.endCycle part) s = execEndCycle part s := rfl
  rw [hexec, execEndCycle, hruns]
  rfl

/-! ### TRAIN and PLAIN_RERUN -/

theorem exec_train {s : State} {q tag : Nat} {c : Started} (runs : List W32) (h : s.commandAt q tag 0x13 c) :
    exec (.train q tag runs) s = .next (
      let slot := bits (c.arg 1) 5 0
      let n := bits (c.arg 1) 28 16
      let dims := (List.range 4).map fun i => c.arg (2 + i)
      let v := s.trainCode slot dims runs n
      if v != cDone then s.finish q tag v (s.trainStep slot) 0
      else (s.modPart ((s.slotPart slot).getD 0) fun p => { p with trains := p.trains ++
          [{ q := q, tag := tag, slot := slot, last := (c.arg 1).getLsbD 8, dims := dims, queued := s.now.setWidth 32,
             runs := (List.range n).map (trainRun runs) }] }).modStarted q tag fun t => { t with begun := true }) := by
  have hexec : exec (.train q tag runs) s = execTrain q tag runs s := rfl
  rw [hexec, execTrain, onStarted_commandAt h _ _ rfl]

theorem exec_plainRerun {s : State} {q tag : Nat} {c : Started} (h : s.commandAt q tag 0x14 c) :
    exec (.plainRerun q tag) s = .next (
      match (s.slot (bits (c.arg 1) 5 0)).plan.bind fun p => p.descs[(c.arg 2).toNat]? with
      | none => s.finish q tag cAlign 0 0
      | some d =>
        if rerunBarred d then s.finish q tag cAlign 0 0
        else if s.slotRuns (bits (c.arg 1) 5 0) then s
        else (s.placeCmd ((s.slotPart (bits (c.arg 1) 5 0)).getD 0) (bits (c.arg 1) 5 0) (c.arg 2).toNat d (.plainRerun q tag)
          (s.slot (bits (c.arg 1) 5 0)).shape [] [] (gridCores d) true 0 true).modStarted q tag fun t => { t with begun := true }) := by
  have hexec : exec (.plainRerun q tag) s = execPlainRerun q tag s := rfl
  rw [hexec, execPlainRerun]
  exact congrArg _ (onStarted_commandAt h _ _ rfl)

/-- What a command that ends with a code and nothing else leaves. -/
theorem finish_alone {s : State} {q tag opc : Nat} {c : Started} (h : s.commandAt q tag opc c) (code : Code) (r0 r1 : W32) :
    Answered s (s.finish q tag code r0 r1) q tag (s.queue q) [] code r0 r1 ∧
      s.finish q tag code r0 r1 = { s with out := (s.finish q tag code r0 r1).out, port := s.portOf (s.finish q tag code r0 r1) } := by
  obtain ⟨hstarted, -, -, hdiscard, -, -, htakes⟩ := h
  exact finish_takes s q tag c code r0 r1 hstarted hdiscard htakes

/-- The first clause of O32: fork and end cycles. -/
theorem serviceCycles (s : State) (part : Nat) (hruns : s.gristRuns part = true) :
    (s.forksReady part ≠ [] →
      (∀ x ∈ s.forksReady part, ∀ q, x.req = some q → s.parentStands (s.req (reqKey q.1 q.2)) = true) →
      ∃ t c, exec (.forkCycle part) s = .next t ∧ t.cmds = s.cmds ++ [c] ∧ c.id = s.nextCmd ∧ c.origin = .service ∧
        c.words = serviceWords 0x0D 0 ∧ c.shape.rows = ((s.forksReady part).take 256).map (·.stream) ∧ c.phase = .placed ∧
        t = { s with cmds := t.cmds, nextCmd := s.nextCmd + 1 }) ∧
    (∀ rows, rows = (s.streams.filter fun e => e.2.live && e.2.ending && e.2.partition == part && !s.hasCmd e.1 &&
        !s.forking.contains e.1).map (·.1) → rows ≠ [] →
      ∃ t c, exec (.endCycle part) s = .next t ∧ t.cmds = s.cmds ++ [c] ∧ c.id = s.nextCmd ∧ c.origin = .service ∧
        c.words = serviceWords 0x0E 2 ∧ c.shape.rows = rows.take 256 ∧ c.phase = .placed ∧
        t = { s with cmds := t.cmds, nextCmd := s.nextCmd + 1 }) := by
  constructor
  · intro hsome hstand
    have hrows : ((s.forksReady part).take 256).map (·.stream) ≠ [] := by simpa using hsome
    exact ⟨_, _, (exec_forkCycle hruns hstand).trans (congrArg _ (placeService_eq s part _ _ hrows)), rfl, rfl, rfl, rfl, rfl, rfl, rfl⟩
  · intro rows hr hsome
    have hrows : rows.take 256 ≠ [] := by simpa using hsome
    have hexec := exec_endCycle hruns
    rw [← hr, placeService_eq s part _ _ hrows] at hexec
    exact ⟨_, _, hexec, rfl, rfl, rfl, rfl, rfl, rfl, rfl⟩

/-- Settles O32: a cycle places its command, TRAIN its training command, PLAIN_RERUN its rerun, and a refusal only completes. -/
theorem serviceAndTraining : Obligations.ServiceAndTraining := by
  refine ⟨fun s part hruns => serviceCycles s part hruns, fun s q tag c j hj => ⟨?_, ?_, ?_, ?_⟩⟩ <;> subst hj
  · intro runs code h hcode hbad
    obtain ⟨hans, hframe⟩ := finish_alone h code (s.trainStep (bits (c.arg 1) 5 0)) 0
    refine ⟨_, (exec_train runs h).trans ?_, hans, hframe⟩
    dsimp only
    rw [← hcode, if_pos (bne_iff_ne.mpr hbad)]
  · intro runs n h hpart hn hcode
    have hexec := exec_train runs h
    dsimp only at hexec
    rw [hcode, if_neg (by decide), hpart] at hexec
    refine ⟨_, { q := q, tag := tag, slot := bits (c.arg 1) 5 0, last := (c.arg 1).getLsbD 8
                 dims := (List.range 4).map fun i => c.arg (2 + i), queued := s.now.setWidth 32
                 runs := (List.range (bits (c.arg 1) 28 16)).map (trainRun runs) }, hexec, ?_, rfl, rfl, rfl, rfl, rfl, rfl, rfl, ?_, ?_, rfl⟩
    · exact congrArg Partition.trains (part_modPart (s := s) _ hn)
    · exact started?_modStarted (s := s.modPart _ _) (fun u => { u with begun := true }) (fun _ => ⟨rfl, rfl⟩) h.1
    · exact fun k hk => part_modPart_other (s := s) _ hk
  · intro p d h hplan hd hbarred hidle
    have hexec := exec_plainRerun h
    rw [hplan, Option.bind_some, hd] at hexec
    dsimp only at hexec
    rw [hbarred, hidle] at hexec
    refine ⟨_, _, hexec, rfl, rfl, rfl, rfl, rfl, rfl, rfl, rfl, rfl, ?_, rfl⟩
    exact started?_modStarted (s := s.placeCmd _ _ _ _ _ _ _ _ _ _ _ _) (fun u => { u with begun := true }) (fun _ => ⟨rfl, rfl⟩) h.1
  · intro h hnone
    obtain ⟨hans, hframe⟩ := finish_alone h cAlign 0 0
    refine ⟨_, (exec_plainRerun h).trans ?_, hans, hframe⟩
    have hbind : ((s.slot (bits (c.arg 1) 5 0)).plan.bind fun p => p.descs[(c.arg 2).toNat]?) = none := by
      cases hplan : (s.slot (bits (c.arg 1) 5 0)).plan with
      | none => rfl
      | some p => exact List.getElem?_eq_none (hnone p hplan)
    rw [hbind]

end Sys2Proof.Machine
end

section
/-! SUPPORT. Parcels on their way (R338, R350 to R353, R369). -/

namespace Sys2Proof.Machine

/-! ### What parcels on their way change -/

/-- The state without what parcels on their way change: what has left, the ports, the receive area, the alive counters and the resend
ring. -/
def State.offTransit (s : State) : State :=
  { s with out := [], fabric := { s.fabric with ports := [], rx := [], alive := [], resend := [] } }

theorem frame_of_offTransit {s t : State} (h : t.offTransit = s.offTransit) :
    t = { s with out := t.out, fabric := { s.fabric with
      ports := t.fabric.ports, rx := t.fabric.rx, alive := t.fabric.alive, resend := t.fabric.resend } } := by
  have hfabric : t.fabric = { s.fabric with
      ports := t.fabric.ports, rx := t.fabric.rx, alive := t.fabric.alive, resend := t.fabric.resend } :=
    calc t.fabric = { t.offTransit.fabric with
            ports := t.fabric.ports, rx := t.fabric.rx, alive := t.fabric.alive, resend := t.fabric.resend } := rfl
      _ = _ := by rw [h]; rfl
  calc t = { t.offTransit with out := t.out, fabric := t.fabric } := rfl
    _ = _ := by rw [h, hfabric]; rfl

@[simp] theorem modFPort_offTransit (s : State) (p : Nat) (f : FPort → FPort) : (s.modFPort p f).offTransit = s.offTransit := rfl

@[simp] theorem dropAt_offTransit (s : State) (p : Nat) : (s.dropAt p).offTransit = s.offTransit := rfl

@[simp] theorem freed_offTransit (s : State) (came : Option Nat) (p : Parcel) : (s.freed came p).offTransit = s.offTransit := rfl

@[simp] theorem emit_offTransit (s : State) (o : Out) : (s.emit o).offTransit = s.offTransit := rfl

@[simp] theorem dropRx_offTransit (s : State) (rq : Nat) : (s.dropRx rq).offTransit = s.offTransit := rfl

@[simp] theorem keep_offTransit (s : State) (p : Parcel) : (s.keep p).offTransit = s.offTransit := rfl

@[simp] theorem lose_offTransit (s : State) (p : Parcel) (came : Option Nat) : (s.lose p came).offTransit = s.offTransit := rfl

theorem sendOn_offTransit (s : State) (port : Nat) (p : Parcel) (came : Option Nat) :
    (s.sendOn port p came).offTransit = s.offTransit := by
  unfold State.sendOn
  dsimp only
  split <;> rfl

theorem receive_offTransit (s : State) (p : Parcel) (port : Option Nat) (bad : Bool) :
    (s.receive p port bad).offTransit = s.offTransit := by
  unfold State.receive
  dsimp only
  split <;> cases port <;> rfl

theorem forward_offTransit (n : Nat) (s : State) (p : Parcel) (came : Option Nat) :
    (State.forward n s p came).offTransit = s.offTransit := by
  induction n generalizing p with
  | zero => rfl
  | succ n ih =>
    unfold State.forward
    split
    · split
      · exact (freed_offTransit _ _ _).trans (receive_offTransit _ _ _ _)
      · exact ih _
    · dsimp only
      split
      · rfl
      · split
        · split
          · rfl
          · exact ih _
        · exact sendOn_offTransit _ _ _ _

theorem emitParcel_offTransit (s : State) (p : Parcel) : (s.emitParcel p).offTransit = s.offTransit := by
  unfold State.emitParcel
  dsimp only
  split
  · exact receive_offTransit _ _ _ _
  · exact forward_offTransit _ _ _ _

/-! ### The alive counters and the resend ring -/

/-- A state's alive counters and resend ring. -/
def State.ring (s : State) : List (Nat × BitVec 8) × List Parcel := (s.fabric.alive, s.fabric.resend)

@[simp] theorem modFPort_ring (s : State) (p : Nat) (f : FPort → FPort) : (s.modFPort p f).ring = s.ring := rfl

@[simp] theorem lose_ring (s : State) (p : Parcel) (came : Option Nat) : (s.lose p came).ring = s.ring := rfl

theorem sendOn_ring (s : State) (port : Nat) (p : Parcel) (came : Option Nat) : (s.sendOn port p came).ring = s.ring := by
  unfold State.sendOn
  dsimp only
  split <;> rfl

theorem receive_ring (s : State) (p : Parcel) (port : Option Nat) (bad : Bool) : (s.receive p port bad).ring = s.ring := by
  unfold State.receive
  dsimp only
  split <;> cases port <;> rfl

theorem forward_ring (n : Nat) (s : State) (p : Parcel) (came : Option Nat) : (State.forward n s p came).ring = s.ring := by
  induction n generalizing p with
  | zero => rfl
  | succ n ih =>
    unfold State.forward
    split
    · split
      · exact receive_ring _ _ _ _
      · exact ih _
    · dsimp only
      split
      · rfl
      · split
        · split
          · rfl
          · exact ih _
        · exact sendOn_ring _ _ _ _

/-- A parcel as it is kept in the resend ring, with the next ALIVE of its destination. -/
def State.outgoing (s : State) (p : Parcel) : Parcel :=
  { p with
    src := s.addr, shortColophon := s.shortColophon, alive := alGet 0 p.dest.toNat s.fabric.alive + 1
    segs := s.route s.addr p.dest, reversed := false, second := false }

theorem emitParcel_ring {s : State} {p : Parcel} (h : p.dest ≠ s.addr) :
    (s.emitParcel p).ring = (alSet 0 p.dest.toNat (alGet 0 p.dest.toNat s.fabric.alive + 1) s.fabric.alive,
      (keepResend 0x4000000 (s.outgoing p :: s.fabric.resend.reverse)).reverse) := by
  unfold State.emitParcel
  dsimp only
  rw [if_neg h]
  exact forward_ring _ _ _ _

/-- A parcel that the resend ring has room for is its newest. -/
theorem getLast?_keepResend {room : Nat} {p : Parcel} (l : List Parcel) (h : 32 + p.payload.length ≤ room) :
    (keepResend room (p :: l)).reverse.getLast? = some p := by
  rw [keepResend, if_neg (by omega)]
  simp

/-- A parcel emitted to another module takes the next ALIVE and is the newest of the resend ring. -/
theorem emitParcel_emitted {s : State} {p : Parcel} (h : p.dest ≠ s.addr) (hfits : 32 + p.payload.length ≤ 0x4000000) :
    Emitted s (s.emitParcel p) p.dest p.ptype p.payload := by
  have hring := emitParcel_ring h
  constructor
  · rw [show (s.emitParcel p).fabric.alive = _ from congrArg Prod.fst hring]
    exact alGet_alSet_same _ _ _ _
  · refine ⟨s.outgoing p, ?_, rfl, rfl, rfl, rfl, rfl⟩
    rw [show (s.emitParcel p).fabric.resend = _ from congrArg Prod.snd hring]
    exact getLast?_keepResend _ hfits

/-- A parcel emitted to one module leaves the ALIVE of another as it is. -/
theorem emitParcel_alive_other {s : State} {p : Parcel} {a : Nat} (h : p.dest.toNat ≠ a) :
    alGet 0 a (s.emitParcel p).fabric.alive = alGet 0 a s.fabric.alive := by
  by_cases hdest : p.dest = s.addr
  · have hring : (s.emitParcel p).ring = s.ring := by
      unfold State.emitParcel
      dsimp only
      rw [if_pos hdest]
      exact receive_ring _ _ _ _
    rw [show (s.emitParcel p).fabric.alive = s.fabric.alive from congrArg Prod.fst hring]
  · rw [show (s.emitParcel p).fabric.alive = _ from congrArg Prod.fst (emitParcel_ring hdest)]
    exact alGet_alSet_other _ _ _ _ _ (Ne.symm h)

/-- A parcel emitted changes nothing but what is on its way. -/
theorem emitParcel_frame (s : State) (p : Parcel) :
    s.emitParcel p = { s with out := (s.emitParcel p).out, fabric := (s.emitParcel p).fabric } := by
  generalize hu : s.emitParcel p = u
  have hframe : u = _ := frame_of_offTransit (hu ▸ emitParcel_offTransit s p : u.offTransit = s.offTransit)
  rw [hframe]

/-! ### The receive area -/

theorem sendOn_rx (s : State) (port : Nat) (p : Parcel) (came : Option Nat) : (s.sendOn port p came).fabric.rx = s.fabric.rx := by
  unfold State.sendOn
  dsimp only
  split <;> rfl

/-- A parcel for another module does not enter the receive area. -/
theorem forward_rx {n : Nat} {s : State} {p : Parcel} (came : Option Nat) (h : p.dest ≠ s.addr) :
    (State.forward n s p came).fabric.rx = s.fabric.rx := by
  induction n generalizing p with
  | zero => rfl
  | succ n ih =>
    unfold State.forward
    split
    · rw [if_neg h]
      exact ih h
    · dsimp only
      split
      · rfl
      · split
        · split
          · rfl
          · exact ih h
        · exact sendOn_rx _ _ _ _

theorem emitParcel_rx {s : State} {p : Parcel} (h : p.dest ≠ s.addr) : (s.emitParcel p).fabric.rx = s.fabric.rx := by
  unfold State.emitParcel
  dsimp only
  rw [if_neg h]
  exact forward_rx _ h

theorem rx?_dropRx (s : State) (rq : Nat) : (s.dropRx rq).rx? rq = none := by
  have hall : ∀ r ∈ s.fabric.rx.filter (fun r => r.rq != rq), ¬ (r.rq == rq) = true := by
    intro r hr
    simpa using (List.mem_filter.mp hr).2
  exact List.find?_eq_none.mpr hall

theorem rx?_dropRx_other (s : State) {rq r : Nat} (h : r ≠ rq) : (s.dropRx rq).rx? r = s.rx? r := by
  change (s.fabric.rx.filter fun x => x.rq != rq).find? _ = s.fabric.rx.find? _
  rw [List.find?_filter]
  congr 1
  funext x
  by_cases hx : x.rq = r
  · simp [hx, h]
  · simp [hx]

theorem rx?_congr {s t : State} (h : t.fabric.rx = s.fabric.rx) (rq : Nat) : t.rx? rq = s.rx? rq := by
  rw [State.rx?, h]; rfl

/-- A swept, good parcel of a type that no command has taken acts. -/
theorem onParcel_holds {s : State} {rq : Nat} {x : Rx} (h : s.holdsParcel rq x) {ptype : BitVec 4} (htype : x.parcel.ptype = ptype)
    (f : Parcel → State → State) : s.onParcel rq ptype f = f x.parcel (s.dropRx rq) := by
  obtain ⟨hrx, hswept, hbad, hfree⟩ := h
  unfold State.onParcel
  rw [hrx]
  dsimp only
  rw [hswept, hbad, hfree, htype]
  simp

end Sys2Proof.Machine
end

section
/-! SUPPORT. Resend requests and queries (R363, R369, R475). -/

namespace Sys2Proof.Machine

/-! ### Emitted parcels -/

/-- Where the alive counters and the address are those of another state, so is what has been emitted. -/
theorem Emitted.of_before {s s' t : State} {a : BitVec 20} {ptype : BitVec 4} {payload : List Byte} (h : Emitted s' t a ptype payload)
    (halive : s'.fabric.alive = s.fabric.alive) (haddr : s'.addr = s.addr) : Emitted s t a ptype payload := by
  obtain ⟨hcount, p, hlast, hdest, hsrc, htype, hload, hp⟩ := h
  exact ⟨by rw [hcount, halive], p, hlast, hdest, by rw [hsrc, haddr], htype, hload, by rw [hp, halive]⟩

/-- Where alive counters and resend ring are those of another state, so is what has been emitted. -/
theorem Emitted.of_after {s t t' : State} {a : BitVec 20} {ptype : BitVec 4} {payload : List Byte} (h : Emitted s t a ptype payload)
    (hring : t'.ring = t.ring) : Emitted s t' a ptype payload := by
  have halive : t'.fabric.alive = t.fabric.alive := congrArg Prod.fst hring
  have hresend : t'.fabric.resend = t.fabric.resend := congrArg Prod.snd hring
  exact ⟨by rw [halive, h.alive], by rw [hresend]; exact h.kept⟩

theorem emitParcel_addr (s : State) (p : Parcel) : (s.emitParcel p).addr = s.addr := by
  rw [emitParcel_frame]; rfl

theorem leBytes_length (n v : Nat) : (leBytes n v).length = n := by simp [leBytes]

theorem wordsBytes_length (ws : List W32) : (wordsBytes ws).length = 4 * ws.length := by
  induction ws with
  | nil => rfl
  | cons w ws ih =>
    rw [wordsBytes, List.flatMap_cons, List.length_append, leBytes_length]
    rw [wordsBytes] at ih
    rw [ih, List.length_cons]
    omega

/-! ### Answers to queries -/

theorem answerQuery_emitted {s : State} {dest : BitVec 20} (kind id status : Nat) (h : dest ≠ s.addr) :
    Emitted s (s.answerQuery dest kind id status) dest 8 (wordsBytes [w32 (kind + (status <<< 4)), w32 id, 0, 0]) :=
  emitParcel_emitted h (by rw [mkParcel, wordsBytes_length]; simp)

theorem queryData_emitted {s : State} {dest : BitVec 20} (id off : Nat) {data : List Byte} (h : dest ≠ s.addr)
    (hfits : data.length ≤ 8192) : Emitted s (s.emitParcel (queryData dest id off data)) dest 9 data :=
  emitParcel_emitted h (show 32 + data.length ≤ 0x4000000 by omega)

theorem w32_toNat (w : W32) : w32 w.toNat = w := by simp [w32]

theorem wordsBytes_ne_nil {ws : List W32} (h : ws ≠ []) : (wordsBytes ws).isEmpty = false := by
  rw [List.isEmpty_eq_false_iff, ← List.length_pos_iff, wordsBytes_length]
  have := List.length_pos_iff.mpr h
  omega

/-- The whole answer to a query for the capability table: a reply and one parcel of data. -/
theorem exec_queryReceive_cap {s : State} {rq : Nat} {x : Rx} (h : s.holdsParcel rq x) (htype : x.parcel.ptype = 7)
    (hkind : bits (wd (bytesWords 8 x.parcel.payload) 0) 3 0 = 1) (hcap : s.cap ≠ []) :
    exec (.queryReceive rq) s = .next
      (((s.dropRx rq).answerQuery x.parcel.src 1 (wd (bytesWords 8 x.parcel.payload) 1).toNat 0).emitParcel
        (queryData x.parcel.src (wd (bytesWords 8 x.parcel.payload) 1).toNat 0 ((wordsBytes s.cap).take 8192))) := by
  have hexec : exec (.queryReceive rq) s = execQueryReceive rq s := rfl
  rw [hexec, execQueryReceive, onParcel_holds h htype]
  dsimp only
  rw [hkind]
  refine congrArg _ ?_
  rw [State.sendData, show (s.dropRx rq).cap = s.cap from rfl, wordsBytes_ne_nil hcap]
  rfl

/-- A query of a kind from 4 on is answered with STATUS 1. -/
theorem exec_queryReceive_unknown {s : State} {rq k : Nat} {x : Rx} (h : s.holdsParcel rq x) (htype : x.parcel.ptype = 7)
    (hkind : bits (wd (bytesWords 8 x.parcel.payload) 0) 3 0 = k) (hk : 4 ≤ k) :
    exec (.queryReceive rq) s = .next
      ((s.dropRx rq).answerQuery x.parcel.src k (wd (bytesWords 8 x.parcel.payload) 1).toNat 1) := by
  have hexec : exec (.queryReceive rq) s = execQueryReceive rq s := rfl
  rw [hexec, execQueryReceive, onParcel_holds h htype]
  dsimp only
  rw [hkind]
  obtain ⟨n, rfl⟩ := Nat.exists_eq_add_of_le' hk
  rfl

/-! ### Leaves asked for -/

theorem query_unreachable (s : State) (dest : BitVec 20) (payload : List Byte) :
    (s.query dest payload).fabric.unreachable = s.fabric.unreachable := by
  have h := congrArg (fun t : State => t.fabric.unreachable) (emitParcel_offTransit s (mkParcel dest 7 payload))
  exact h

theorem askLeaf_unreachable (s : State) (h : Handle) (whom : List (BitVec 20)) :
    (s.askLeaf h whom).fabric.unreachable = s.fabric.unreachable := by
  unfold State.askLeaf
  split
  · rfl
  · exact foldl_keeps (fun t : State => t.fabric.unreachable) _ (fun t _ => query_unreachable t _ _) _ _

theorem askOrigin_unreachable (s : State) (q : Query) : (s.askOrigin q).fabric.unreachable = s.fabric.unreachable := by
  unfold State.askOrigin
  split
  · rfl
  · dsimp only
    split
    · split
      · rfl
      · exact askLeaf_unreachable _ _ _
    · rfl

/-! ### Resends -/

theorem resend_none {s : State} {dest : BitVec 20} (h : ∀ y ∈ s.fabric.resend, y.dest ≠ dest) (a : BitVec 8) :
    s.resend dest a = s := by
  unfold State.resend
  rw [List.find?_eq_none.mpr fun y hy => by simp [h y (List.mem_reverse.mp hy)]]

theorem exec_resendRequestReceive {s : State} {rq : Nat} {x : Rx} (h : s.holdsParcel rq x) (htype : x.parcel.ptype = 5) :
    exec (.resendRequestReceive rq) s = .next ((List.range (min 128 (x.parcel.payload.getD 1 0).toNat)).foldl
      (fun s i => s.resend x.parcel.src (x.parcel.payload.getD 0 0 + BitVec.ofNat 8 i)) (s.dropRx rq)) := by
  have hexec : exec (.resendRequestReceive rq) s = execResendRequestReceive rq s := rfl
  rw [hexec, execResendRequestReceive, onParcel_holds h htype]

theorem foldl_fixed {α β : Type} {g : β → α → β} {b : β} (l : List α) (h : ∀ a ∈ l, g b a = b) : l.foldl g b = b := by
  induction l with
  | nil => rfl
  | cons a l ih => rw [List.foldl_cons, h a (List.mem_cons_self ..), ih fun x hx => h x (List.mem_cons_of_mem _ hx)]

/-- A single kept parcel asked for again goes as it was sent. -/
theorem resend_one {s : State} {rq : Nat} {x : Rx} {y : Parcel} (h : s.holdsParcel rq x) (htype : x.parcel.ptype = 5)
    (hone : x.parcel.payload.getD 1 0 = 1)
    (hy : (s.fabric.resend.reverse.find? fun y => y.dest == x.parcel.src && y.alive == x.parcel.payload.getD 0 0) = some y) :
    exec (.resendRequestReceive rq) s = .next (State.forward hopFuel (s.dropRx rq) y none) := by
  have hfirst : x.parcel.payload.getD 0 0 + BitVec.ofNat 8 0 = x.parcel.payload.getD 0 0 := BitVec.add_zero _
  rw [exec_resendRequestReceive h htype, hone, show min 128 (1 : Byte).toNat = 1 from rfl, List.range_one, List.foldl_cons, List.foldl_nil,
    hfirst, State.resend, show (s.dropRx rq).fabric.resend = s.fabric.resend from rfl, hy]

/-! ### Replies and data -/

/-- A reply of another kind than a leaf that is not held only takes its sender off the unreachable list. -/
theorem exec_queryReplyReceive {s : State} {rq : Nat} {x : Rx} (h : s.holdsParcel rq x) (htype : x.parcel.ptype = 8) :
    ∃ t, exec (.queryReplyReceive rq) s = .next t ∧ t.fabric.unreachable = s.fabric.unreachable.filter (· != x.parcel.src) ∧
      ((bits (wd (bytesWords 2 x.parcel.payload) 0) 3 0 ≠ 2 ∨ bits (wd (bytesWords 2 x.parcel.payload) 0) 7 4 ≠ 1) →
        t = (s.dropRx rq).modFabric fun f => { f with unreachable := t.fabric.unreachable }) := by
  have hexec : exec (.queryReplyReceive rq) s = execQueryReplyReceive rq s := rfl
  rw [hexec, execQueryReplyReceive, onParcel_holds h htype]
  refine ⟨_, rfl, ?_, fun hother => ?_⟩
  · dsimp only
    split
    · split
      · exact askOrigin_unreachable _ _
      · rfl
    · rfl
  · dsimp only
    rw [if_neg fun hno => by omega]
    rfl

theorem ident_low (p : Parcel) : bits (p.ident.setWidth 32) 15 0 = p.ident.toNat % 65536 := by
  have : p.ident.toNat < 2 ^ 24 := p.ident.isLt
  simp only [bits, BitVec.toNat_setWidth]
  simp

theorem exec_queryDataReceive_unknown {s : State} {rq : Nat} {x : Rx} (h : s.holdsParcel rq x) (htype : x.parcel.ptype = 9)
    (hnone : ∀ q ∈ s.fabric.queries, q.id % 65536 ≠ x.parcel.ident.toNat % 65536) :
    exec (.queryDataReceive rq) s = .next (s.dropRx rq) := by
  have hexec : exec (.queryDataReceive rq) s = execQueryDataReceive rq s := rfl
  have hfind : ((s.dropRx rq).fabric.queries.find? fun q => q.id % 65536 == bits (x.parcel.ident.setWidth 32) 15 0) = none :=
    List.find?_eq_none.mpr fun q hq => by
      rw [ident_low]
      simpa using hnone q hq
  rw [hexec, execQueryDataReceive, onParcel_holds h htype]
  dsimp only
  rw [hfind]

/-- A piece of the one leaf asked for goes to its place. -/
theorem exec_queryDataReceive_piece {s : State} {rq : Nat} {x : Rx} {q : Query} (h : s.holdsParcel rq x) (htype : x.parcel.ptype = 9)
    (hone : s.fabric.queries = [q]) (hid : q.id % 65536 = x.parcel.ident.toNat % 65536)
    (hpart : (q.put x.parcel.token.toNat x.parcel.payload).whole = false) :
    exec (.queryDataReceive rq) s = .next ((s.dropRx rq).modFabric fun f => { f with
      queries := [q.put x.parcel.token.toNat x.parcel.payload] }) := by
  have hexec : exec (.queryDataReceive rq) s = execQueryDataReceive rq s := rfl
  have hqueries : (s.dropRx rq).fabric.queries = [q] := hone
  have hfind : ((s.dropRx rq).fabric.queries.find? fun q => q.id % 65536 == bits (x.parcel.ident.setWidth 32) 15 0) = some q := by
    rw [hqueries, ident_low]
    simp [hid]
  rw [hexec, execQueryDataReceive, onParcel_holds h htype]
  dsimp only
  rw [hfind]
  dsimp only
  rw [hpart]
  have hput : (q.put x.parcel.token.toNat x.parcel.payload).id = q.id := rfl
  have hmap : (s.dropRx rq).fabric.queries.map (fun r => if r.id == (q.put x.parcel.token.toNat x.parcel.payload).id then
      q.put x.parcel.token.toNat x.parcel.payload else r) = [q.put x.parcel.token.toNat x.parcel.payload] := by
    rw [hqueries, List.map_singleton, hput, beq_self_eq_true, if_pos rfl]
  simp only [Bool.false_eq_true, if_false, State.modFabric, hmap]

/-- Settles O52: resend requests, queries, their replies and their data. -/
theorem queries : Obligations.Queries := by
  rintro s rq x p h rfl
  refine ⟨fun htype => ⟨fun hnone => ⟨_, exec_resendRequestReceive h htype, ?_⟩, fun y hone hy => ⟨_, resend_one h htype hone hy, rfl⟩⟩,
    fun htype hsrc => ⟨fun hkind hcap => ?_, fun k hkind hk => ?_⟩, exec_queryReplyReceive h, fun htype => ⟨fun hnone => ?_, ?_⟩⟩
  · exact foldl_fixed _ fun i _ => resend_none (s := s.dropRx rq) hnone _
  · have hreply : Emitted (s.dropRx rq) _ _ _ _ :=
      answerQuery_emitted 1 (wd (bytesWords 8 x.parcel.payload) 1).toNat 0 hsrc
    rw [w32_toNat] at hreply
    have haddr : ((s.dropRx rq).answerQuery x.parcel.src 1 (wd (bytesWords 8 x.parcel.payload) 1).toNat 0).addr = s.addr :=
      emitParcel_addr _ _
    refine ⟨_, _, exec_queryReceive_cap h htype hkind hcap, hreply.of_before rfl rfl,
      queryData_emitted _ _ (haddr ▸ hsrc) (by rw [List.length_take]; omega), ?_⟩
    rw [emitParcel_frame, State.answerQuery, emitParcel_frame (s.dropRx rq)]
    rfl
  · have hreply : Emitted (s.dropRx rq) _ _ _ _ :=
      answerQuery_emitted k (wd (bytesWords 8 x.parcel.payload) 1).toNat 1 hsrc
    rw [w32_toNat] at hreply
    refine ⟨_, exec_queryReceive_unknown h htype hkind hk, hreply.of_before rfl rfl, ?_⟩
    rw [State.answerQuery, emitParcel_frame (s.dropRx rq)]
    rfl
  · exact ⟨_, exec_queryDataReceive_unknown h htype hnone, rfl⟩
  · exact fun q hone hid hpart => ⟨_, exec_queryDataReceive_piece h htype hone hid hpart, rfl⟩

end Sys2Proof.Machine
end

section
/-! SUPPORT. The arrival of parcels, credit, and the receive area (R338, R347, R353, R368). -/

namespace Sys2Proof.Machine

/-! ### What a change of a port keeps -/

/-- What every port keeps under a function, every port keeps where the function is applied to one. -/
theorem fport_keeps {β : Type} (v : FPort → β) {f : FPort → FPort} (hf : ∀ k, v (f k) = v k) (s : State) (q p : Nat) :
    v ((s.modFPort q f).fport p) = v (s.fport p) := by
  by_cases hp : p = q
  · subst hp
    by_cases hlen : p < s.fabric.ports.length
    · rw [fport_modFPort _ _ _ hlen, hf]
    · have hnone : s.fabric.ports[p]? = none := List.getElem?_eq_none (Nat.le_of_not_lt hlen)
      have hfixed : (s.modFPort p f).fabric.ports = s.fabric.ports := modAt_fixed fun x hx => by rw [hnone] at hx; exact absurd hx nofun
      rw [State.fport, hfixed]; rfl
  · rw [fport_modFPort_other _ _ _ _ hp]

/-- The counts of checked and of failed parcels. -/
def FPort.tally (k : FPort) : Nat × Nat := (k.cvu.checked, k.cvu.crcFails)

theorem push_tally (u : Cvu) (verdict : Nat) (p : Parcel) (expected : BitVec 8) (slot : Nat) :
    ((u.push verdict p expected slot).checked, (u.push verdict p expected slot).crcFails) = (u.checked, u.crcFails) := by
  unfold Cvu.push
  split <;> rfl

theorem alive_tally (u : Cvu) (p : Parcel) : ((u.alive p).2.2.checked, (u.alive p).2.2.crcFails) = (u.checked, u.crcFails) := by
  unfold Cvu.alive
  split <;> rfl

theorem pushed_tally (s : State) (q p verdict : Nat) (x : Parcel) (expected : BitVec 8) (slot : Nat) :
    ((s.modCvu q fun u => u.push verdict x expected slot).fport p).tally = (s.fport p).tally :=
  fport_keeps FPort.tally (by intro k; exact push_tally _ _ _ _ _) s q p

theorem dropAt_tally (s : State) (q p : Nat) : ((s.dropAt q).fport p).tally = (s.fport p).tally :=
  fport_keeps FPort.tally (by intro _; rfl) s q p

theorem receive_tally (s : State) (x : Parcel) (port : Option Nat) (bad : Bool) (p : Nat) :
    ((s.receive x port bad).fport p).tally = (s.fport p).tally := by
  unfold State.receive
  dsimp only
  split
  · cases port with
    | none => rfl
    | some q => exact dropAt_tally _ _ _
  · cases port with
    | none => rfl
    | some q => exact fport_keeps FPort.tally (by intro _; rfl) _ q p

theorem sendOn_tally (s : State) (port : Nat) (x : Parcel) (came : Option Nat) (p : Nat) :
    ((s.sendOn port x came).fport p).tally = (s.fport p).tally := by
  unfold State.sendOn
  dsimp only
  split
  · exact fport_keeps FPort.tally (by intro _; rfl) s port p
  · exact fport_keeps FPort.tally (by intro _; rfl) s port p

theorem forward_tally (n : Nat) (s : State) (x : Parcel) (came : Option Nat) (p : Nat) :
    ((State.forward n s x came).fport p).tally = (s.fport p).tally := by
  induction n generalizing x with
  | zero => exact dropAt_tally _ _ _
  | succ n ih =>
    unfold State.forward
    split
    · split
      · exact receive_tally _ _ _ _ _
      · exact ih _
    · dsimp only
      split
      · exact dropAt_tally _ _ _
      · split
        · split
          · exact dropAt_tally _ _ _
          · exact ih _
        · exact sendOn_tally _ _ _ _ _

theorem mismatch_tally (s : State) (q p : Nat) (a : BitVec 20) : ((s.mismatch q a).fport p).tally = (s.fport p).tally := by
  unfold State.mismatch
  dsimp only
  split
  · exact fport_keeps FPort.tally (by intro _; rfl) s q p
  · exact fport_keeps FPort.tally (by intro _; rfl) s q p

theorem deliver_tally (s : State) (q p : Nat) (x : Parcel) (verdict : Nat) (expected : BitVec 8) :
    ((s.deliver q x verdict expected).fport p).tally = (s.fport p).tally := by
  unfold State.deliver
  dsimp only
  split
  · exact receive_tally _ _ _ _ _
  · exact (pushed_tally _ _ _ _ _ _ _).trans (receive_tally _ _ _ _ _)

/-- The source table after a parcel, with the counts of gaps and repeats. -/
def Cvu.afterAlive (u : Cvu) (x : Parcel) : Cvu :=
  { (u.alive x).2.2 with
    gaps := if (u.alive x).1 = 3 then sat32 ((u.alive x).2.2.gaps + 1) else (u.alive x).2.2.gaps
    repeats := if (u.alive x).1 = 2 then sat32 ((u.alive x).2.2.repeats + 1) else (u.alive x).2.2.repeats }

/-- The state after the alive check of a parcel. -/
def State.aliveChecked (s : State) (p : Nat) (x : Parcel) : State := s.modCvu p fun _ => (s.fport p).cvu.afterAlive x

theorem aliveChecked_tally {s : State} {p : Nat} (x : Parcel) (h : p < s.fabric.ports.length) :
    ((s.aliveChecked p x).fport p).tally = (s.fport p).tally := by
  rw [State.aliveChecked, State.modCvu, fport_modFPort _ _ _ h]
  exact alive_tally _ _

/-- What follows the alive check of a parcel with a good CRC for this module. -/
def State.judged (s : State) (port : Nat) (p : Parcel) (verdict : Nat) (expected : BitVec 8) : State :=
  let odd := !(p.ptype == 7 || p.ptype == 8 || p.ptype == 9) && !s.acceptsShort p.shortColophon
  let s := if odd then s.mismatch port p.src else s
  let lone (s : State) : State := if verdict = 0 then s else s.modCvu port fun u => u.push verdict p expected 0xFFFF
  if odd && !s.countOnly then lone s
  else if 11 ≤ p.ptype.toNat || s.unserved p then lone (s.dropAt port)
  else s.deliver port p verdict expected

theorem acceptParcel_eq (s : State) (p : Nat) (x : Parcel) :
    s.acceptParcel p x = (s.aliveChecked p x).judged p x ((s.fport p).cvu.alive x).1 ((s.fport p).cvu.alive x).2.1 := rfl

theorem judged_tally (s : State) (p q : Nat) (x : Parcel) (verdict : Nat) (expected : BitVec 8) :
    ((s.judged p x verdict expected).fport q).tally = (s.fport q).tally := by
  unfold State.judged
  dsimp only
  generalize (!(x.ptype == 7 || x.ptype == 8 || x.ptype == 9) && !s.acceptsShort x.shortColophon) = odd
  have hodd : ((if odd = true then s.mismatch p x.src else s).fport q).tally = (s.fport q).tally := by
    split
    · exact mismatch_tally _ _ _ _
    · rfl
  generalize (if odd = true then s.mismatch p x.src else s) = u at hodd ⊢
  refine Eq.trans ?_ hodd
  split
  · split
    · rfl
    · exact pushed_tally _ _ _ _ _ _ _
  · split
    · split
      · exact dropAt_tally _ _ _
      · exact (pushed_tally _ _ _ _ _ _ _).trans (dropAt_tally _ _ _)
    · exact deliver_tally _ _ _ _ _ _

theorem acceptParcel_tally {s : State} {p : Nat} (x : Parcel) (h : p < s.fabric.ports.length) :
    ((s.acceptParcel p x).fport p).tally = (s.fport p).tally := by
  rw [acceptParcel_eq]
  exact (judged_tally _ _ _ _ _ _).trans (aliveChecked_tally x h)

/-! ### The arrival -/

/-- A parcel counted as it crosses a port inward. -/
def State.counted (s : State) (p : Nat) (x : Parcel) (crc : W32) : State :=
  s.modCvu p fun u => { u with
    checked := sat32 (u.checked + 1), crcFails := if parcelCrc x == crc then u.crcFails else sat32 (u.crcFails + 1) }

/-- What a counted parcel does. -/
def State.takeIn (s : State) (p : Nat) (x : Parcel) (ok : Bool) : State :=
  if (s.fport p).state = 3 && !(x.dest == 0xFFFFF) then s.freed (some p) x
  else if x.dest == 0xFFFFF then
    (if ok then s.freed (some p) x else (s.freed (some p) x).modCvu p fun u => u.push 1 x 0 0xFFFF)
  else if x.dest == s.addr && parcelDone x then
    (if ok then (s.freed (some p) x).acceptParcel p x else (s.freed (some p) x).deliver p x 1 0)
  else State.forward hopFuel (if ok then s else s.modCvu p fun u => u.push 4 x 0 0xFFFF)
    ((if ok then s else s.modCvu p fun u => u.push 4 x 0 0xFFFF).onChannel p x) (some p)

theorem exec_parcelArrival {s : State} {p : Nat} (h : s.partnered p = true) (x : Parcel) (crc : W32) :
    exec (.parcelArrival p x crc) s = .next ((s.counted p x crc).takeIn p x (parcelCrc x == crc)) := by
  have hexec : exec (.parcelArrival p x crc) s = execParcelArrival p x crc s := rfl
  rw [hexec, execParcelArrival, h]
  rfl

theorem partnered_exists {s : State} {p : Nat} (h : s.partnered p = true) : p < s.fabric.ports.length := by
  have hstate : (s.fport p).state ≠ 0 := by
    unfold State.partnered at h
    intro h0
    simp [h0] at h
  exact fport_exists s p (Or.inr hstate)

theorem counted_fport {s : State} {p : Nat} (x : Parcel) (crc : W32) (h : p < s.fabric.ports.length) :
    (s.counted p x crc).fport p = { s.fport p with cvu := { (s.fport p).cvu with
      checked := sat32 ((s.fport p).cvu.checked + 1)
      crcFails := if parcelCrc x == crc then (s.fport p).cvu.crcFails else sat32 ((s.fport p).cvu.crcFails + 1) } } :=
  fport_modFPort _ _ _ h

theorem counted_keeps {β : Type} (v : FPort → β) (hv : ∀ k u, v { k with cvu := u } = v k) (s : State) (p q : Nat) (x : Parcel) (crc : W32) :
    v ((s.counted p x crc).fport q) = v (s.fport q) :=
  fport_keeps v (fun k => hv k _) s p q

theorem takeIn_tally {s : State} {p : Nat} (x : Parcel) (ok : Bool) (h : p < s.fabric.ports.length) :
    ((s.takeIn p x ok).fport p).tally = (s.fport p).tally := by
  unfold State.takeIn
  split
  · rfl
  · split
    · split
      · rfl
      · exact pushed_tally _ _ _ _ _ _ _
    · split
      · split
        · exact acceptParcel_tally (s := s.freed (some p) x) x h
        · exact deliver_tally (s.freed (some p) x) _ _ _ _ _
      · refine (forward_tally _ _ _ _ _).trans ?_
        split
        · rfl
        · exact pushed_tally _ _ _ _ _ _ _

/-! ### A parcel for this module -/

/-- Of one more number than a list has entries, one is not in it. -/
theorem exists_free_number (l : List Nat) : ∃ i ∈ List.range (l.length + 1), i ∉ l := by
  refine Classical.byContradiction fun hnone => ?_
  have hall : List.range (l.length + 1) ⊆ l := fun i hi => Classical.byContradiction fun hout => hnone ⟨i, hi, hout⟩
  have hle := List.nodup_range.length_le_of_subset hall
  rw [List.length_range] at hle
  omega

/-- The slot that a parcel takes in the receive area is free. -/
theorem free_slot (rx : List Rx) : ∀ y ∈ rx,
    y.rq ≠ ((List.range (rx.length + 1)).find? fun i => !(rx.any fun r => r.rq == i)).getD 0 := by
  intro y hy
  cases hfind : (List.range (rx.length + 1)).find? fun i => !(rx.any fun r => r.rq == i) with
  | some i =>
    have hi := List.find?_some hfind
    rintro rfl
    simp only [Bool.not_eq_true', List.any_eq_false] at hi
    exact hi y hy (beq_self_eq_true _)
  | none =>
    obtain ⟨i, hi, hfree⟩ := exists_free_number (rx.map (·.rq))
    rw [List.length_map] at hi
    have := List.find?_eq_none.mp hfind i hi
    simp only [Bool.not_eq_true', Bool.not_eq_false, List.any_eq_true, beq_iff_eq] at this
    obtain ⟨r, hr, hrq⟩ := this
    exact absurd (List.mem_map.mpr ⟨r, hr, hrq⟩) hfree

/-- The first parcel of a source has a good ALIVE. -/
theorem alive_new {u : Cvu} {x : Parcel} (h : ∀ y ∈ u.sources, y.addr ≠ x.src) : (u.alive x).1 = 0 := by
  unfold Cvu.alive
  rw [List.find?_eq_none.mpr fun y hy => by simpa using h y hy]

/-- A good parcel of a known type and an accepted colophon is delivered, or discarded where it is a token not served here. -/
theorem acceptParcel_good {s : State} {p : Nat} {x : Parcel} (halive : ((s.fport p).cvu.alive x).1 = 0)
    (hcol : s.acceptsShort x.shortColophon = true) (htype : x.ptype.toNat < 11) :
    s.acceptParcel p x = if s.unserved x then (s.aliveChecked p x).dropAt p
      else (s.aliveChecked p x).deliver p x 0 ((s.fport p).cvu.alive x).2.1 := by
  have hcol' : (s.aliveChecked p x).acceptsShort x.shortColophon = true := hcol
  have hlow : ¬ 11 ≤ x.ptype.toNat := by omega
  rw [acceptParcel_eq, halive, State.judged]
  simp only [hcol', Bool.not_true, Bool.and_false, Bool.false_and, Bool.false_eq_true, if_false, if_true, decide_eq_false hlow,
    Bool.false_or]
  rfl

/-- A parcel that the receive area has room for stands in it, in a slot of its own. -/
theorem receive_room {s : State} {x : Parcel} {p : Nat}
    (hroom : s.fabric.rx.foldl (fun n r => n + rxUnits r.parcel) 0 + rxUnits x ≤ 65536) (hslots : s.fabric.rx.length < 65536) :
    ∃ r, (s.receive x (some p) false).fabric.rx = s.fabric.rx ++ [r] ∧ r.parcel = x ∧ r.port = some p ∧ r.bad = false ∧ r.swept = false ∧
      r.takenBy = none ∧ (∀ y ∈ s.fabric.rx, y.rq ≠ r.rq) ∧ OnlyPort s (s.receive x (some p) false) p := by
  have hfits : ¬ (decide (65536 < s.fabric.rx.foldl (fun n r => n + rxUnits r.parcel) 0 + rxUnits x) ||
      decide (65536 ≤ s.fabric.rx.length)) = true := by
    simp only [Bool.or_eq_true, decide_eq_true_eq]
    omega
  unfold State.receive
  dsimp only
  rw [if_neg hfits]
  exact ⟨_, rfl, rfl, rfl, rfl, rfl, rfl, free_slot _, fun q hq => fport_modFPort_other (s.modFabric _) _ _ _ hq⟩

theorem OnlyPort.trans {s t u : State} {p : Nat} (h : OnlyPort s t p) (k : OnlyPort t u p) : OnlyPort s u p :=
  fun r hr => (k r hr).trans (h r hr)

theorem onlyPort_modFPort (s : State) (p : Nat) (f : FPort → FPort) : OnlyPort s (s.modFPort p f) p :=
  fun _ hr => fport_modFPort_other _ _ _ _ hr

theorem takeIn_here {s : State} {p : Nat} {x : Parcel} (hstate : (s.fport p).state = 2) (hhere : x.dest = s.addr)
    (hlink : x.dest ≠ 0xFFFFF) (hdone : parcelDone x = true) : s.takeIn p x true = (s.freed (some p) x).acceptParcel p x := by
  unfold State.takeIn
  rw [if_neg (by simp [hstate]), beq_eq_false_iff_ne.mpr hlink, hdone, beq_iff_eq.mpr hhere]
  rfl

/-! ### A parcel for another module -/

theorem curSeg_first {g : BitVec 10} {rest : List (BitVec 10)} (h : g.toNat % 64 ≠ 0) : curSeg (g :: rest) = some 0 := by
  unfold curSeg
  rw [List.length_cons, List.range_succ_eq_map, List.find?_cons_of_pos (by simpa using h)]

/-- A parcel sent on a port with credit and nothing waiting leaves at once. -/
theorem sendOn_now {s : State} {q p : Nat} {y : Parcel} (hq : (s.fport q).txQueue = []) (hcredit : creditUnits y ≤ (s.fport q).credits)
    (hp : (s.fport p).state = 2) :
    (s.sendOn q y (some p)).out = s.out ++ [.parcel q y (parcelCrc y), .credit p (creditUnits y)] ∧
      (s.sendOn q y (some p)).fabric.ports = (s.modFPort q fun k => { k with credits := k.credits - creditUnits y }).fabric.ports := by
  have hstate : ((s.modFPort q fun k => { k with credits := k.credits - creditUnits y }).fport p).state = 2 :=
    (fport_keeps FPort.state (by intro _; rfl) s q p).trans hp
  unfold State.sendOn
  dsimp only
  rw [hq, List.all_nil, Bool.true_and, if_pos (decide_eq_true hcredit)]
  refine ⟨?_, rfl⟩
  have hgrants : State.grants ((s.modFPort q fun k => { k with credits := k.credits - creditUnits y }).emit
      (.parcel q y (parcelCrc y))) (some p) y = [.credit p (creditUnits y)] := if_pos (Or.inl hstate)
  rw [State.freed, hgrants]
  exact List.append_assoc _ _ _

/-- A parcel with hops left goes on through the one port of its trunk that is up. -/
theorem forward_hop {s : State} {p q n : Nat} {y : Parcel} {g : BitVec 10} {rest : List (BitVec 10)} (came : Option Nat)
    (hsegs : y.segs = g :: rest) (hhops : g.toNat % 64 ≠ 0) (hring : s.belongs (g.toNat / 128) = true)
    (hup : s.trunkUp (g.toNat / 128) (g.toNat / 64 % 2) = [q]) :
    State.forward (n + 1) s y came =
      s.sendOn q { y with segs := (g - 1) :: rest, reversed := y.reversed && g.toNat % 64 != 1 } came := by
  have hless : segLess g = g - 1 := if_neg hhops
  unfold State.forward
  rw [hsegs, curSeg_first hhops]
  simp only [List.getD_cons_zero, hring, hup, Bool.not_true, Bool.false_eq_true, if_false, List.length_singleton, Nat.mod_one,
    List.set_cons_zero, hless]

theorem onChannel_eq (s : State) (p : Nat) (x : Parcel) : ∃ b, s.onChannel p x = { x with second := b } := by
  unfold State.onChannel
  split <;> exact ⟨_, rfl⟩

theorem counted_trunkUp (s : State) (p : Nat) (x : Parcel) (crc : W32) (level dir : Nat) :
    (s.counted p x crc).trunkUp level dir = s.trunkUp level dir := by
  refine List.filter_congr fun q _ => ?_
  rw [counted_keeps FPort.state (fun _ _ => rfl)]
  rfl

theorem takeIn_on {s : State} {p : Nat} {x : Parcel} (hstate : (s.fport p).state = 2) (hthere : x.dest ≠ s.addr)
    (hlink : x.dest ≠ 0xFFFFF) : s.takeIn p x true = State.forward hopFuel s (s.onChannel p x) (some p) := by
  unfold State.takeIn
  rw [if_neg (by simp [hstate]), beq_eq_false_iff_ne.mpr hlink, beq_eq_false_iff_ne.mpr hthere]
  rfl

/-! ### The clauses of the arrival -/

/-- A port that refuses its partner takes only a parcel for the link; the buffer of another is granted again. -/
theorem takeIn_refused {s : State} {p : Nat} {x : Parcel} (hstate : (s.fport p).state = 3) (hlink : x.dest ≠ 0xFFFFF) (ok : Bool) :
    s.takeIn p x ok = { s with out := s.out ++ [.credit p (creditUnits x)] } := by
  have hgrants : s.grants (some p) x = [.credit p (creditUnits x)] := if_pos (Or.inr hstate)
  unfold State.takeIn
  rw [beq_eq_false_iff_ne.mpr hlink, if_pos (by simp [hstate]), State.freed, hgrants]

theorem counted_sources {s : State} {p : Nat} (x : Parcel) (crc : W32) (h : p < s.fabric.ports.length) :
    ((s.counted p x crc).fport p).cvu.sources = (s.fport p).cvu.sources := by rw [counted_fport x crc h]

theorem aliveChecked_onlyPort (s : State) (p : Nat) (x : Parcel) : OnlyPort s (s.aliveChecked p x) p := onlyPort_modFPort _ _ _

/-- The clauses of a good parcel for this module. -/
theorem arrival_here {s : State} {p : Nat} {x : Parcel} {crc : W32} (hp : p < s.fabric.ports.length) (hstate : (s.fport p).state = 2)
    (hhere : x.dest = s.addr) (hlink : x.dest ≠ 0xFFFFF) (hdone : parcelDone x = true)
    (hnew : ∀ y ∈ (s.fport p).cvu.sources, y.addr ≠ x.src) (hcol : s.acceptsShort x.shortColophon = true) (htype : x.ptype.toNat < 11) :
    (s.unserved x = true → ((s.counted p x crc).takeIn p x true).fabric.rx = s.fabric.rx ∧
      (((s.counted p x crc).takeIn p x true).fport p).dropped = sat32 ((s.fport p).dropped + 1) ∧
      OnlyPort s ((s.counted p x crc).takeIn p x true) p) ∧
    (s.unserved x = false → s.fabric.rx.foldl (fun n r => n + rxUnits r.parcel) 0 + rxUnits x ≤ 65536 → s.fabric.rx.length < 65536 →
      ∃ r, ((s.counted p x crc).takeIn p x true).fabric.rx = s.fabric.rx ++ [r] ∧ r.parcel = x ∧ r.port = some p ∧ r.bad = false ∧
        r.swept = false ∧ r.takenBy = none ∧ (∀ y ∈ s.fabric.rx, y.rq ≠ r.rq) ∧ OnlyPort s ((s.counted p x crc).takeIn p x true) p) := by
  have hcounted : ((s.counted p x crc).fport p).state = 2 := (counted_keeps FPort.state (fun _ _ => rfl) s p p x crc).trans hstate
  rw [takeIn_here hcounted hhere hlink hdone]
  have hdropped : ((s.counted p x crc).fport p).dropped = (s.fport p).dropped := counted_keeps FPort.dropped (fun _ _ => rfl) s p p x crc
  have honly : OnlyPort s (s.counted p x crc) p := onlyPort_modFPort _ _ _
  have halive : ((((s.counted p x crc).freed (some p) x).fport p).cvu.alive x).1 = 0 := alive_new fun y hy => by
    have hsources : ((s.counted p x crc).fport p).cvu.sources = (s.fport p).cvu.sources := counted_sources x crc hp
    exact hnew y (hsources ▸ hy)
  rw [acceptParcel_good halive hcol htype]
  have hlen : p < ((s.counted p x crc).freed (some p) x).fabric.ports.length := by
    change p < (modAt s.fabric.ports p _).length
    rw [modAt_length]
    exact hp
  have honly' : OnlyPort s (((s.counted p x crc).freed (some p) x).aliveChecked p x) p := honly.trans (aliveChecked_onlyPort _ p x)
  have hlen' : p < (((s.counted p x crc).freed (some p) x).aliveChecked p x).fabric.ports.length := by
    change p < (modAt ((s.counted p x crc).freed (some p) x).fabric.ports p _).length
    rw [modAt_length]
    exact hlen
  have hchecked : ((((s.counted p x crc).freed (some p) x).aliveChecked p x).fport p).dropped = (s.fport p).dropped :=
    (congrArg FPort.dropped (fport_modFPort _ _ _ hlen)).trans hdropped
  constructor
  · intro hun
    rw [show ((s.counted p x crc).freed (some p) x).unserved x = true from hun, if_pos rfl]
    refine ⟨rfl, ?_, honly'.trans (onlyPort_modFPort _ _ _)⟩
    rw [(dropAt_spec _ hlen').1, hchecked]
  · intro hserved hroom hslots
    rw [show ((s.counted p x crc).freed (some p) x).unserved x = false from hserved, if_neg Bool.false_ne_true]
    obtain ⟨r, hrx, hx, hport, hbad, hswept, htaken, hfree, hother⟩ :=
      receive_room (s := ((s.counted p x crc).freed (some p) x).aliveChecked p x) (p := p) hroom hslots
    exact ⟨r, hrx, hx, hport, hbad, hswept, htaken, hfree, honly'.trans hother⟩

/-- The clause of a good parcel for another module. -/
theorem arrival_on {s : State} {p q : Nat} {x : Parcel} {crc : W32} {g : BitVec 10} {rest : List (BitVec 10)}
    (hstate : (s.fport p).state = 2) (hthere : x.dest ≠ s.addr) (hlink : x.dest ≠ 0xFFFFF) (hsegs : x.segs = g :: rest)
    (hhops : g.toNat % 64 ≠ 0) (hring : s.belongs (g.toNat / 128) = true) (hup : s.trunkUp (g.toNat / 128) (g.toNat / 64 % 2) = [q])
    (hqueue : (s.fport q).txQueue = []) (hcredit : creditUnits x ≤ (s.fport q).credits) :
    ∃ y, ((s.counted p x crc).takeIn p x true).out = s.out ++ [.parcel q y (parcelCrc y), .credit p (creditUnits x)] ∧
      y.segs = (g - 1) :: rest ∧ y.dest = x.dest ∧ y.src = x.src ∧ y.payload = x.payload ∧ y.alive = x.alive ∧
      (((s.counted p x crc).takeIn p x true).fport q).credits = (s.fport q).credits - creditUnits x := by
  have hcounted : ((s.counted p x crc).fport p).state = 2 := (counted_keeps FPort.state (fun _ _ => rfl) s p p x crc).trans hstate
  have hqueue' : ((s.counted p x crc).fport q).txQueue = [] := (counted_keeps FPort.txQueue (fun _ _ => rfl) s p q x crc).trans hqueue
  have hcredits : ((s.counted p x crc).fport q).credits = (s.fport q).credits := counted_keeps FPort.credits (fun _ _ => rfl) s p q x crc
  obtain ⟨b, hb⟩ := onChannel_eq (s.counted p x crc) p x
  rw [takeIn_on hcounted hthere hlink, hb, hopFuel]
  rw [forward_hop (s := s.counted p x crc) (y := { x with second := b }) (p := p) (some p) hsegs hhops hring
    ((counted_trunkUp s p x crc _ _).trans hup)]
  obtain ⟨hout, hports⟩ := sendOn_now (s := s.counted p x crc) (q := q) (p := p)
    (y := { x with second := b, segs := (g - 1) :: rest, reversed := x.reversed && g.toNat % 64 != 1 }) hqueue'
    (hcredits ▸ hcredit) hcounted
  refine ⟨_, hout, rfl, rfl, rfl, rfl, rfl, ?_⟩
  have hq : q < (s.counted p x crc).fabric.ports.length := by
    have hmem : q ∈ s.trunkUp (g.toNat / 128) (g.toNat / 64 % 2) := by rw [hup]; exact List.mem_singleton_self q
    have hstate2 : (s.fport q).state ≠ 0 := by
      intro h0
      have := (List.mem_filter.mp hmem).2
      simp [h0] at this
    change q < (modAt s.fabric.ports p _).length
    rw [modAt_length]
    exact fport_exists s q (Or.inr hstate2)
  rw [State.fport, hports]
  have hself : ((s.counted p x crc).modFPort q fun k => { k with credits := k.credits - creditUnits x }).fport q = _ := fport_modFPort _ _ _ hq
  exact (congrArg FPort.credits hself).trans (by rw [← hcredits])

end Sys2Proof.Machine
end

section
/-! SUPPORT. Credit, expiry and queries of the unreachable list (R338, R353, R475). -/

namespace Sys2Proof.Machine

/-! ### What credit lets go -/

/-- On each virtual channel the parcels that credit lets go come before those that stay, none where one is held. -/
theorem passQueue_channels (l : List Waiting) : ∀ (credit : Nat) (held : List Bool) (b : Bool),
    (l.filter fun w => w.parcel.second == b) =
      ((passQueue credit held l).1.filter fun w => w.parcel.second == b) ++
        ((passQueue credit held l).2.filter fun w => w.parcel.second == b) ∧
    (held.contains b = true → ((passQueue credit held l).1.filter fun w => w.parcel.second == b) = []) := by
  induction l with
  | nil => intro credit held b; exact ⟨rfl, fun _ => rfl⟩
  | cons w l ih =>
    intro credit held b
    rw [passQueue]
    split
    next hstay =>
      obtain ⟨hall, hheld⟩ := ih credit (w.parcel.second :: held) b
      dsimp only
      by_cases hb : w.parcel.second = b
      · have hnone := hheld (by simp [hb])
        rw [List.filter_cons_of_pos (by simpa using hb), List.filter_cons_of_pos (by simpa using hb), hall, hnone]
        exact ⟨rfl, fun _ => rfl⟩
      · rw [List.filter_cons_of_neg (by simpa using hb), List.filter_cons_of_neg (by simpa using hb)]
        exact ⟨hall, fun hc => hheld (by simp only [List.contains_cons, hc, Bool.or_true])⟩
    next hgo =>
      obtain ⟨hall, hheld⟩ := ih (credit - creditUnits w.parcel) held b
      dsimp only
      by_cases hb : w.parcel.second = b
      · rw [List.filter_cons_of_pos (by simpa using hb), List.filter_cons_of_pos (by simpa using hb), hall]
        refine ⟨rfl, fun hc => ?_⟩
        rw [hb, hc] at hgo
        simp at hgo
      · rw [List.filter_cons_of_neg (by simpa using hb), List.filter_cons_of_neg (by simpa using hb)]
        exact ⟨hall, hheld⟩

/-- The parcels that credit lets go take no more than there is. -/
theorem passQueue_credit (l : List Waiting) : ∀ (credit : Nat) (held : List Bool),
    ((passQueue credit held l).1.map fun w => creditUnits w.parcel).sum ≤ credit := by
  induction l with
  | nil => intro credit held; exact Nat.zero_le _
  | cons w l ih =>
    intro credit held
    rw [passQueue]
    split
    next hstay => exact ih _ _
    next hgo =>
      have hle : creditUnits w.parcel ≤ credit := by
        simp only [Bool.or_eq_true, decide_eq_true_eq, not_or, Nat.not_lt] at hgo
        exact hgo.2
      have := ih (credit - creditUnits w.parcel) held
      rw [List.map_cons, List.sum_cons]
      omega

/-- What leaves the module where parcels are sent on a port. -/
def State.sentBy (s : State) (port : Nat) (sent : List Waiting) : List Out :=
  sent.flatMap fun w => .parcel port w.parcel (parcelCrc w.parcel) :: s.grants w.came w.parcel

theorem foldl_sent (port : Nat) (sent : List Waiting) (s : State) :
    sent.foldl (fun s w => (s.emit (.parcel port w.parcel (parcelCrc w.parcel))).freed w.came w.parcel) s =
      { s with out := s.out ++ s.sentBy port sent } := by
  induction sent generalizing s with
  | nil => rw [State.sentBy, List.flatMap_nil, List.append_nil, List.foldl_nil]
  | cons w sent ih =>
    have hone : (s.emit (.parcel port w.parcel (parcelCrc w.parcel))).freed w.came w.parcel =
        { s with out := s.out ++ (.parcel port w.parcel (parcelCrc w.parcel) :: s.grants w.came w.parcel) } :=
      congrArg (fun l => ({ s with out := l } : State)) (List.append_assoc s.out [_] _)
    rw [List.foldl_cons, hone, ih]
    exact congrArg (fun l => ({ s with out := l } : State)) (List.append_assoc _ _ _)

theorem grants_modFPort {s : State} {q : Nat} {f : FPort → FPort} (hf : ∀ k, (f k).state = k.state) (came : Option Nat) (p : Parcel) :
    (s.modFPort q f).grants came p = s.grants came p := by
  unfold State.grants
  cases came with
  | none => rfl
  | some r =>
    dsimp only
    rw [fport_keeps FPort.state hf]

/-- A port's queue as credit drains it. -/
theorem drainTx_eq (s : State) (port : Nat) :
    s.drainTx port =
      { s.modFPort port fun k => { k with
          txQueue := (passQueue (s.fport port).credits [] (s.fport port).txQueue).2
          credits := k.credits - ((passQueue (s.fport port).credits [] (s.fport port).txQueue).1.map fun w => creditUnits w.parcel).sum } with
        out := s.out ++ s.sentBy port (passQueue (s.fport port).credits [] (s.fport port).txQueue).1 } := by
  unfold State.drainTx
  dsimp only
  rw [foldl_sent]
  have hgrants : ∀ w : Waiting, (s.modFPort port fun k => { k with
      txQueue := (passQueue (s.fport port).credits [] (s.fport port).txQueue).2
      credits := k.credits - ((passQueue (s.fport port).credits [] (s.fport port).txQueue).1.map fun w => creditUnits w.parcel).sum }).grants
        w.came w.parcel = s.grants w.came w.parcel := fun w => grants_modFPort (by intro _; rfl) _ _
  unfold State.sentBy
  simp only [hgrants]
  rfl

theorem exec_linkCreditGrant {s : State} {p : Nat} (units : Nat) (hnative : s.isNative p = true) (hstate : (s.fport p).state ≠ 0) :
    exec (.linkCreditGrant p units) s = .next ((s.modFPort p fun k => { k with credits := k.credits + units }).drainTx p) := by
  have hexec : exec (.linkCreditGrant p units) s = execLinkCreditGrant p units s := rfl
  have hguard : (s.isNative p && (s.fport p).state != 0) = true := by simp [hnative, hstate]
  rw [hexec, execLinkCreditGrant, if_pos hguard]

theorem granted_fport {s : State} {p : Nat} (units : Nat) (hp : p < s.fabric.ports.length) :
    (s.modFPort p fun k => { k with credits := k.credits + units }).fport p =
      { s.fport p with credits := (s.fport p).credits + units } := fport_modFPort _ _ _ hp

theorem modFPort_modFPort (s : State) (p : Nat) (f g : FPort → FPort) :
    (s.modFPort p f).modFPort p g = s.modFPort p fun k => g (f k) :=
  congrArg (fun l => s.modFabric fun x => { x with ports := l }) (modAt_modAt _ _ _ _)

theorem modFPort_congr {s : State} {p : Nat} {f g : FPort → FPort} (h : f (s.fport p) = g (s.fport p)) :
    s.modFPort p f = s.modFPort p g := by
  have hports : modAt s.fabric.ports p f = modAt s.fabric.ports p g := by
    refine List.ext_getElem? fun j => ?_
    rw [modAt_getElem?, modAt_getElem?]
    split
    next hj =>
      subst hj
      cases hl : s.fabric.ports[j]? with
      | none => rfl
      | some x =>
        have hx : s.fport j = x := by rw [State.fport, List.getD_eq_getElem?_getD, hl]; rfl
        rw [hx] at h
        exact congrArg some h
    next => rfl
  exact congrArg (fun l => s.modFabric fun x => { x with ports := l }) hports

/-- Credit for a port where nothing waits is kept. -/
theorem drainTx_idle {s : State} {p : Nat} (h : (s.fport p).txQueue = []) : s.drainTx p = s := by
  have hsame : (s.modFPort p fun k => { k with txQueue := [], credits := k.credits }) = s := by
    have hid := modFPort_congr (s := s) (p := p) (f := fun k => { k with txQueue := [], credits := k.credits }) (g := id) (by rw [← h]; rfl)
    rw [hid]
    exact congrArg (fun l => s.modFabric fun x => { x with ports := l }) (modAt_fixed fun _ _ => rfl)
  rw [drainTx_eq, h, passQueue]
  dsimp only
  rw [State.sentBy, List.flatMap_nil, List.append_nil, List.map_nil, List.sum_nil]
  exact hsame

/-! ### Expiry -/

theorem exec_parcelExpiry {s : State} {rq : Nat} {x : Rx} (hrx : s.rx? rq = some x) (hfree : x.takenBy = none) :
    exec (.parcelExpiry rq) s = .next (match x.port with
      | some q => (s.dropRx rq).dropAt q
      | none => s.dropRx rq) := by
  have hexec : exec (.parcelExpiry rq) s = execParcelExpiry rq s := rfl
  rw [hexec, execParcelExpiry, hrx]
  dsimp only
  rw [hfree]
  rfl

/-! ### The unreachable list -/

theorem exec_unreachableQuery {s : State} {a : Nat} (h : (BitVec.ofNat 20 a) ∈ s.fabric.unreachable) :
    exec (.unreachableQuery a) s = .next
      ((s.modFabric fun f => { f with nextQuery := (s.fabric.nextQuery + 1) % 0x100000000 }).query (BitVec.ofNat 20 a)
        (queryBytes 1 s.fabric.nextQuery 0 0 0 0)) := by
  have hexec : exec (.unreachableQuery a) s = execUnreachableQuery a s := rfl
  have hlisted : s.fabric.unreachable.contains (BitVec.ofNat 20 a) = true := by simpa using h
  rw [hexec, execUnreachableQuery]
  exact congrArg _ (if_pos hlisted)

theorem queryBytes_length (kind id : Nat) (key : W64) (index first count : Nat) :
    (queryBytes kind id key index first count).length = 32 := by rw [queryBytes, wordsBytes_length]; rfl

/-- The query of a listed module. -/
theorem unreachableQuery_spec {s : State} {a : Nat} (h : (BitVec.ofNat 20 a) ∈ s.fabric.unreachable)
    (hself : BitVec.ofNat 20 a ≠ s.addr) :
    ∃ t, exec (.unreachableQuery a) s = .next t ∧ Emitted s t (BitVec.ofNat 20 a) 7 (queryBytes 1 s.fabric.nextQuery 0 0 0 0) ∧
      t.fabric.nextQuery = (s.fabric.nextQuery + 1) % 0x100000000 ∧ t.fabric.unreachable = s.fabric.unreachable ∧
      t = { s with out := t.out, fabric := t.fabric } := by
  refine ⟨_, exec_unreachableQuery h, ?_⟩
  generalize hu : (s.modFabric fun f => { f with nextQuery := (s.fabric.nextQuery + 1) % 0x100000000 }) = u
  have hemitted : Emitted u (u.query (BitVec.ofNat 20 a) (queryBytes 1 s.fabric.nextQuery 0 0 0 0)) (BitVec.ofNat 20 a) 7 _ :=
    emitParcel_emitted (p := mkParcel (BitVec.ofNat 20 a) 7 _) (by subst hu; exact hself)
      (by change 32 + (queryBytes _ _ _ _ _ _).length ≤ _; rw [queryBytes_length]; decide)
  have hkeep := emitParcel_offTransit u (mkParcel (BitVec.ofNat 20 a) 7 (queryBytes 1 s.fabric.nextQuery 0 0 0 0))
  have hnext := congrArg (fun t : State => t.fabric.nextQuery) hkeep
  have hlist := congrArg (fun t : State => t.fabric.unreachable) hkeep
  refine ⟨hemitted.of_before (by subst hu; rfl) (by subst hu; rfl), hnext.trans (by subst hu; rfl), hlist.trans (by subst hu; rfl), ?_⟩
  rw [State.query, emitParcel_frame u]
  subst hu
  rfl

/-! ### The statement -/

/-- The clauses of an arrival. -/
theorem arrivals (s : State) (p : Nat) (x : Parcel) (crc : W32) (h : s.partnered p = true) :
    ∃ t, exec (.parcelArrival p x crc) s = .next t ∧
      (t.fport p).cvu.checked = sat32 ((s.fport p).cvu.checked + 1) ∧
      (t.fport p).cvu.crcFails = (if parcelCrc x = crc then (s.fport p).cvu.crcFails else sat32 ((s.fport p).cvu.crcFails + 1)) ∧
      t = (s.counted p x crc).takeIn p x (parcelCrc x == crc) := by
  have hp := partnered_exists h
  have hlen : p < (s.counted p x crc).fabric.ports.length := by
    change p < (modAt s.fabric.ports p _).length
    rw [modAt_length]
    exact hp
  have htally : (((s.counted p x crc).takeIn p x (parcelCrc x == crc)).fport p).tally =
      (sat32 ((s.fport p).cvu.checked + 1),
        if (parcelCrc x == crc) = true then (s.fport p).cvu.crcFails else sat32 ((s.fport p).cvu.crcFails + 1)) :=
    (takeIn_tally x (parcelCrc x == crc) hlen).trans (by rw [counted_fport x crc hp]; rfl)
  refine ⟨_, exec_parcelArrival h x crc, congrArg Prod.fst htally, (congrArg Prod.snd htally).trans ?_, rfl⟩
  simp only [beq_iff_eq]

/-- Settles O51: parcels arrive, wait for credit and expire, and a listed module is asked. -/
theorem parcels : Obligations.Parcels := by
  refine ⟨fun s p x crc h => ?_, fun s => ⟨fun p units hnative hstate => ⟨fun hidle => ?_, fun x hone hcredit => ?_⟩,
    fun rq x hrx hfree => ?_, fun a h hself => unreachableQuery_spec h hself⟩⟩
  · obtain ⟨t, hexec, hchecked, hfails, ht⟩ := arrivals s p x crc h
    refine ⟨t, hexec, hchecked, hfails, fun hstate hlink => ?_, fun hstate hcrc hhere hlink hdone hnew hcol htype => ?_,
      fun g rest q hstate hcrc hthere hlink hsegs hhops hring hup hqueue hcredit => ?_⟩
    · have hcounted : ((s.counted p x crc).fport p).state = 3 := (counted_keeps FPort.state (fun _ _ => rfl) s p p x crc).trans hstate
      rw [takeIn_refused hcounted hlink] at ht
      have hfixed : (s.modCvu p fun u => { u with checked := (t.fport p).cvu.checked, crcFails := (t.fport p).cvu.crcFails }) =
          s.counted p x crc := modFPort_congr (by simp only [hchecked, hfails, beq_iff_eq])
      rw [hfixed]
      subst ht
      exact ⟨rfl, rfl⟩
    · rw [beq_iff_eq.mpr hcrc] at ht
      subst ht
      exact arrival_here (partnered_exists h) hstate hhere hlink hdone hnew hcol htype
    · rw [beq_iff_eq.mpr hcrc] at ht
      subst ht
      exact arrival_on hstate hthere hlink hsegs hhops hring hup hqueue hcredit
  · have hp := fport_exists s p (Or.inr hstate)
    exact ⟨_, exec_linkCreditGrant units hnative hstate, drainTx_idle ((congrArg FPort.txQueue (granted_fport units hp)).trans hidle)⟩
  · have hp := fport_exists s p (Or.inr hstate)
    have hgo : passQueue ((s.fport p).credits + units) [] [{ parcel := x, came := none }] = ([{ parcel := x, came := none }], []) := by
      rw [passQueue, if_neg (by simpa using hcredit), passQueue]
    have hdrain := drainTx_eq (s.modFPort p fun k => { k with credits := k.credits + units }) p
    rw [granted_fport units hp] at hdrain
    dsimp only at hdrain
    rw [hone, hgo, modFPort_modFPort] at hdrain
    refine ⟨_, (exec_linkCreditGrant units hnative hstate).trans (congrArg _ hdrain), rfl, ?_, ?_, rfl, onlyPort_modFPort _ _ _⟩
    · exact congrArg FPort.txQueue (fport_modFPort s p _ hp)
    · exact congrArg FPort.credits (fport_modFPort s p _ hp)
  · refine ⟨_, exec_parcelExpiry hrx hfree, ?_⟩
    cases hport : x.port with
    | none => exact ⟨rx?_dropRx _ _, fun r hr => rx?_dropRx_other _ hr, rfl, fun _ => rfl, fun q hq => absurd hq nofun⟩
    | some q =>
      refine ⟨rx?_dropRx _ _, fun r hr => rx?_dropRx_other _ hr, rfl, fun hno => absurd hno nofun, fun q' hq' hlen => ?_⟩
      obtain rfl := Option.some.inj hq'
      obtain ⟨hself, hother, -⟩ := dropAt_spec (s.dropRx rq) hlen
      exact ⟨congrArg FPort.dropped hself, hother⟩

end Sys2Proof.Machine
end

section
/-! SUPPORT. Ends of an attempt and of a step of a reduction channel (R387, R388, R392). -/

namespace Sys2Proof.Machine

/-! ### What emission and the ends of training commands leave -/

/-- The state without what the ends of an attempt change beside the channels: what has left the module, transit, and the queue pairs with
their completions. -/
def State.offAbort (s : State) : State :=
  { s.offTransit with errata := State.reset.errata, port := { s.port with queues := [], started := [], engines := [] } }

theorem offAbort_of_offTransit {s t : State} (h : t.offTransit = s.offTransit) : t.offAbort = s.offAbort := by
  rw [frame_of_offTransit h]; rfl

theorem offAbort_of_portEnds {s t : State} (h : PortEnds s t) : t.offAbort = s.offAbort := by
  rw [h.frame]; rfl

/-- What an operation that keeps the state outside transit and completions keeps. -/
theorem kept_of_offAbort {s t : State} (h : t.offAbort = s.offAbort) :
    t.channels = s.channels ∧ t.malt = s.malt ∧ t.port.attnPending = s.port.attnPending := by
  have hchannels : t.offAbort.channels = s.offAbort.channels := by rw [h]
  have hmalt : t.offAbort.malt = s.offAbort.malt := by rw [h]
  have hpending : t.offAbort.port.attnPending = s.offAbort.port.attnPending := by rw [h]
  exact ⟨hchannels, hmalt, hpending⟩

theorem chan_of_channels {s t : State} (h : t.channels = s.channels) (n : Nat) : t.chan n = s.chan n := by
  rw [State.chan, State.chan, h]

theorem chan_of_offAbort {s t : State} (h : t.offAbort = s.offAbort) (n : Nat) : t.chan n = s.chan n :=
  chan_of_channels (kept_of_offAbort h).1 n

theorem offTransit_foldl {α : Type} (g : State → α → State) (h : ∀ s x, (g s x).offTransit = s.offTransit) (l : List α) (s : State) :
    (l.foldl g s).offTransit = s.offTransit := by
  induction l generalizing s with
  | nil => rfl
  | cons a l ih => exact (ih _).trans (h s a)

theorem spargeSend_offTransit (s : State) (c : Nat) (dest : BitVec 20) (n dir : Nat) (arg : W32) (blocks : List Byte) :
    (s.spargeSend c dest n dir arg blocks).offTransit = s.offTransit := emitParcel_offTransit _ _

theorem sendAborts_offTransit (s : State) (c : Nat) (cause : Code) (hop : BitVec 23) (but : Option (BitVec 20)) :
    (s.sendAborts c cause hop but).offTransit = s.offTransit :=
  offTransit_foldl _ (fun _ _ => emitParcel_offTransit _ _) _ _

theorem endTrains_portEnds (s : State) (slot : Nat) (code : Code) : PortEnds s (s.endTrains slot code) :=
  PortEnds.foldl _ (fun u t => finish_portEnds u _ _ _ _ _) _ _

theorem endTrains_chan (s : State) (slot : Nat) (code : Code) (n : Nat) : (s.endTrains slot code).chan n = s.chan n :=
  chan_of_offAbort (offAbort_of_portEnds (endTrains_portEnds _ _ _)) n

/-! ### Backup channels -/

theorem resetBackups_chan (s : State) (c n : Nat) :
    (s.resetBackups c).chan n =
      if (s.chan n).mode = 2 && (s.chan n).target = c then { s.chan n with committed := [], upCredit := 2047 } else s.chan n := by
  simp only [State.chan, State.resetBackups, List.getD_eq_getElem?_getD, List.getElem?_map]
  cases s.channels[n]? with
  | none => rfl
  | some k => rfl

/-- A channel that follows no other channel's step keeps what it has. -/
theorem resetBackups_chan_kept {s : State} {c n : Nat} (h : (s.chan n).mode ≠ 2 ∨ (s.chan n).target ≠ c) :
    (s.resetBackups c).chan n = s.chan n := by
  rw [resetBackups_chan, if_neg]
  rcases h with hmode | htarget
  · simp [hmode]
  · simp [htarget]

/-! ### Blocks staged again -/

/-- The channel without what staging changes in a step that has begun. -/
def Channel64.unstaged (k : Channel64) : Channel64 := { k with late := 0, backup := [], children := [], early := [] }

theorem fields_of_unstaged {k x : Channel64} (h : k.unstaged = x.unstaged) :
    k.state = x.state ∧ k.attempt = x.attempt ∧ k.lastCause = x.lastCause ∧ k.lastHop = x.lastHop ∧ k.blocksDone = x.blocksDone ∧
      k.local_ = x.local_ ∧ k.committed = x.committed ∧ k.entry = x.entry := by
  have hf {α : Type} (f : Channel64 → α) : f k.unstaged = f x.unstaged := congrArg f h
  exact ⟨hf Channel64.state, hf Channel64.attempt, hf Channel64.lastCause, hf Channel64.lastHop, hf Channel64.blocksDone,
    hf Channel64.local_, hf Channel64.committed, hf Channel64.entry⟩

theorem mode_of_entry {k x : Channel64} (h : k.entry = x.entry) : k.mode = x.mode := by rw [Channel64.mode, Channel64.mode, h]

theorem stage_unstaged {k : Channel64} (h : k.state ≠ 0) (i : Nat) (step : W32) (attempt : BitVec 8) (b : Block) :
    (k.stage i step attempt b).unstaged = k.unstaged := by
  have hbegin : k.begin_ = k := if_neg h
  have hbackup (x : Block) : (k.stageBackup x).unstaged = k.unstaged := by
    unfold Channel64.stageBackup
    split
    · rfl
    · split <;> rfl
  have hchild (j : Nat) (x : Block) : (k.stageChild j x).unstaged = k.unstaged := by
    unfold Channel64.stageChild
    split <;> rfl
  unfold Channel64.stage
  rw [hbegin]
  split
  · rfl
  · split
    · split
      · rfl
      · split
        · exact hbackup b
        · exact hchild _ b
    · split <;> rfl

theorem restage_unstaged {k : Channel64} (h : k.state ≠ 0) : k.restage.unstaged = k.unstaged := by
  have hfold : ∀ (l : List (Nat × W32 × BitVec 8 × Block)) (x : Channel64), x.state ≠ 0 →
      (l.foldl (fun k e => k.stage e.1 e.2.1 e.2.2.1 e.2.2.2) x).unstaged = x.unstaged := by
    intro l
    induction l with
    | nil => intro x _; rfl
    | cons e l ih =>
      intro x hx
      have hone := stage_unstaged hx e.1 e.2.1 e.2.2.1 e.2.2.2
      have hstate : (x.stage e.1 e.2.1 e.2.2.1 e.2.2.2).state = x.state := (fields_of_unstaged hone).1
      rw [List.foldl_cons, ih _ (by rw [hstate]; exact hx), hone]
  exact hfold _ { k with early := [] } h

/-! ### An attempt ended -/

/-- The channel of an attempt that has ended, before what came early for the next is staged again. -/
def Channel64.ended (k : Channel64) (cause : Code) (hop : BitVec 23) : Channel64 :=
  { k.clear with state := 1, timer := true, attempt := k.attempt + 1, lastCause := cause, lastHop := hop }

/-- An attempt ended: the channel begins its next attempt, channels that do not follow it stay. -/
theorem endAttempt_spec {s : State} {c : Nat} {cause : Code} {hop : BitVec 23} (hmode : (s.chan c).mode = 1) :
    ((s.endAttempt c cause hop).chan c).unstaged = ((s.chan c).ended cause hop).unstaged ∧
    ∀ n, n ≠ c → (s.chan n).mode ≠ 2 ∨ (s.chan n).target ≠ c → (s.endAttempt c cause hop).chan n = s.chan n := by
  have hlen := chan_exists s c (by omega)
  unfold State.endAttempt
  dsimp only
  generalize hu : s.modChan c _ = u
  have hown : u.chan c = ((s.chan c).ended cause hop).restage := by subst hu; exact chan_modChan _ _ _ hlen
  have hother (n : Nat) (h : n ≠ c) : u.chan n = s.chan n := by subst hu; exact chan_modChan_other _ _ _ _ h
  have hstaged : (u.chan c).unstaged = ((s.chan c).ended cause hop).unstaged := by
    rw [hown]
    exact restage_unstaged (k := (s.chan c).ended cause hop) (by simp [Channel64.ended])
  obtain ⟨-, -, -, -, -, -, -, hentry⟩ := fields_of_unstaged hstaged
  have hone : (u.chan c).mode = 1 := (mode_of_entry hentry).trans hmode
  refine ⟨?_, fun n hn hfree => ?_⟩
  · rw [endTrains_chan, resetBackups_chan_kept (Or.inl (by omega))]
    exact hstaged
  · rw [endTrains_chan, resetBackups_chan_kept (by rw [hother n hn]; exact hfree), hother n hn]

/-- This module aborts an attempt. -/
theorem abortStep_spec {s : State} {c : Nat} {cause : Code} {cls : Nat} {hop : BitVec 23} (hmode : (s.chan c).mode = 1) (hcls : cls < 8) :
    ((s.abortStep c cause cls hop).chan c).unstaged = ((s.chan c).ended cause hop).unstaged ∧
    (s.abortStep c cause cls hop).port.attnPending.getLsbD cls = true ∧
    ∀ n, n ≠ c → (s.chan n).mode ≠ 2 ∨ (s.chan n).target ≠ c → (s.abortStep c cause cls hop).chan n = s.chan n := by
  have hsent := chan_of_offAbort (offAbort_of_offTransit (sendAborts_offTransit s c cause hop none))
  obtain ⟨hown, hother⟩ := endAttempt_spec (s := s.sendAborts c cause hop none) (c := c) (cause := cause) (hop := hop)
    (by rw [hsent]; exact hmode)
  rw [hsent] at hown
  refine ⟨hown, attention_pending _ hcls _ _ _, fun n hn hfree => ?_⟩
  have hkept := hother n hn (by rw [hsent]; exact hfree)
  rw [hsent] at hkept
  exact hkept

/-! ### A step ended in its down phase -/

theorem foldl_behind_kept (l : List Nat) (s : State) (n : Nat) (h : (s.pset n).behind = true) :
    ((l.foldl (fun s n => s.modPSet n fun p => { p with behind := true }) s).pset n).behind = true := by
  induction l generalizing s with
  | nil => exact h
  | cons a l ih =>
    refine ih _ ?_
    by_cases hn : n = a
    · subst hn; rw [pset_modPSet]
    · rw [pset_modPSet_other _ _ _ _ hn]; exact h

/-- Every listed set is behind. -/
theorem foldl_behind (l : List Nat) (s : State) (n : Nat) (h : n ∈ l) :
    ((l.foldl (fun s n => s.modPSet n fun p => { p with behind := true }) s).pset n).behind = true := by
  induction l generalizing s with
  | nil => exact absurd h (List.not_mem_nil)
  | cons a l ih =>
    rcases List.mem_cons.1 h with rfl | hl
    · exact foldl_behind_kept l _ n (congrArg PSet.behind (pset_modPSet s n _))
    · exact ih _ hl

theorem foldl_behind_channels (l : List Nat) (s : State) :
    (l.foldl (fun s n => s.modPSet n fun p => { p with behind := true }) s).channels = s.channels := by
  induction l generalizing s with
  | nil => rfl
  | cons a l ih => exact ih _

/-- A step that ends in its down phase: the channel is behind with its sets, channels that do not follow it stay. -/
theorem fallBehind_spec {s : State} {c : Nat} {cause : Code} {cls : Nat} {hop : BitVec 23} (hmode : (s.chan c).mode = 1) (hcls : cls < 8) :
    (s.fallBehind c cause cls hop).chan c =
      { (s.chan c).clear with state := 3, timer := false, lastCause := cause, lastHop := hop, early := [] } ∧
    (s.fallBehind c cause cls hop).port.attnPending.getLsbD cls = true ∧
    (∀ n ∈ s.setsOf c, ((s.fallBehind c cause cls hop).pset n).behind = true) ∧
    ∀ n, n ≠ c → (s.chan n).mode ≠ 2 ∨ (s.chan n).target ≠ c → (s.fallBehind c cause cls hop).chan n = s.chan n := by
  have hlen := chan_exists s c (by omega)
  unfold State.fallBehind
  dsimp only
  generalize hu : s.modChan c _ = u
  have hown : u.chan c = { (s.chan c).clear with state := 3, timer := false, lastCause := cause, lastHop := hop, early := [] } := by
    subst hu; exact chan_modChan _ _ _ hlen
  have hother (n : Nat) (h : n ≠ c) : u.chan n = s.chan n := by subst hu; exact chan_modChan_other _ _ _ _ h
  have hsets : u.setsOf c = s.setsOf c := by subst hu; rfl
  have hchan := chan_of_channels (foldl_behind_channels (u.setsOf c) u)
  have hbehind (n : Nat) (h : n ∈ s.setsOf c) := foldl_behind (u.setsOf c) u n (by rw [hsets]; exact h)
  have hentry : (u.chan c).mode = 1 := by rw [hown]; exact hmode
  generalize (u.setsOf c).foldl (fun s n => s.modPSet n fun p => { p with behind := true }) u = v at *
  have hends (w : State) (cls : Nat) (a b : W32) (n : Nat) :
      ((w.endTrains (w.chan c).slot cause).attention cls cause a b).chan n = w.chan n := endTrains_chan _ _ _ _
  refine ⟨?_, attention_pending _ hcls _ _ _, fun n hn => ?_, fun n hn hfree => ?_⟩
  · exact (endTrains_chan _ _ _ _).trans ((resetBackups_chan_kept (Or.inl (by rw [hchan]; omega))).trans ((hchan c).trans hown))
  · have hmalt := (kept_of_offAbort (offAbort_of_portEnds (endTrains_portEnds (v.resetBackups c) (v.chan c).slot cause))).2.1
    have hp := congrArg (fun m : Malt => (alGet PSet.none n m.sets).behind) hmalt
    exact hp.trans (hbehind n hn)
  · exact (endTrains_chan _ _ _ _).trans ((resetBackups_chan_kept (by rw [hchan, hother n hn]; exact hfree)).trans
      ((hchan n).trans (hother n hn)))

/-! ### Sparge parcels without blocks -/

/-- A swept, good sparge parcel of a DIR that no command has taken acts. -/
theorem onSparge_holds {s : State} {rq : Nat} {x : Rx} (h : s.holdsParcel rq x) (htype : x.parcel.ptype = 4) (hform : spargeForm x.parcel = true)
    {dir : Nat} (hdir : spargeDir x.parcel = dir) (f : Parcel → State → State) : s.onSparge rq dir f = f x.parcel (s.dropRx rq) := by
  obtain ⟨hrx, hswept, -, hfree⟩ := h
  unfold State.onSparge
  rw [hrx]
  dsimp only
  rw [hswept, hfree, htype, hform, hdir]
  simp

theorem bits_lt (w : W32) (hi lo : Nat) : bits w hi lo < 2 ^ (hi + 1 - lo) := by
  rw [bits, Nat.one_shiftLeft]
  exact Nat.mod_lt _ (Nat.two_pow_pos _)

/-- An abort parcel's neighbour: the parent of a member that is no root, or a child. -/
def Channel64.near (k : Channel64) (a : BitVec 20) : Bool := (!k.isRoot && k.parent == a) || (k.kid? a).isSome

theorem near_of {k : Channel64} {a : BitVec 20} (h : (k.isRoot = false ∧ k.parent = a) ∨ (k.kid? a).isSome = true) : k.near a = true := by
  rcases h with ⟨hroot, hparent⟩ | hkid
  · simp [Channel64.near, hroot, hparent]
  · simp [Channel64.near, hkid]

theorem exec_abortReceive {s : State} {rq : Nat} {x : Rx} {p : Parcel} {c : Nat} (h : s.holdsParcel rq x) (hp : x.parcel = p)
    (htype : p.ptype = 4) (hform : spargeForm p = true) (hdir : spargeDir p = 4) (hc : spargeChan p = c) (hmode : (s.chan c).mode = 1)
    (hnear : (s.chan c).near p.src = true) :
    exec (.abortReceive rq) s = .next (
      if spargeStep p == (s.chan c).step && spargeAttempt p == (s.chan c).attempt && decide ((s.chan c).state ≤ 1) then
        ((s.dropRx rq).sendAborts c (BitVec.ofNat 12 (bits (prefixWord p 0) 27 16)) (BitVec.ofNat 23 (bits (prefixWord p 3) 22 0))
          (some p.src)).endAttempt c (BitVec.ofNat 12 (bits (prefixWord p 0) 27 16)) (BitVec.ofNat 23 (bits (prefixWord p 3) 22 0))
      else (s.dropRx rq).modChan c Channel64.tardy) := by
  subst hp hc
  have hexec : exec (.abortReceive rq) s = execAbortReceive rq s := rfl
  have hguard : ((s.chan (spargeChan x.parcel)).mode != 1 || !(s.chan (spargeChan x.parcel)).near x.parcel.src) = false := by
    rw [hmode, hnear]; rfl
  rw [hexec, execAbortReceive, onSparge_holds h htype hform hdir]
  exact congrArg _ (if_neg (by rw [Bool.not_eq_true]; exact hguard))

theorem exec_stepTimerExpiry_up {s : State} {c : Nat} (hmode : (s.chan c).mode = 1) (htimer : (s.chan c).timer = true)
    (hstate : (s.chan c).state = 1) :
    exec (.stepTimerExpiry c) s = .next (s.abortStep c cPartner 2 (s.missingHop c (s.chan c).blocksDone)) := by
  have hexec : exec (.stepTimerExpiry c) s = execStepTimerExpiry c s := rfl
  rw [hexec, execStepTimerExpiry]
  refine congrArg _ ?_
  dsimp only
  rw [if_neg (by simp [hmode, htimer]), if_pos hstate]

theorem exec_stepTimerExpiry_down {s : State} {c : Nat} (hmode : (s.chan c).mode = 1) (htimer : (s.chan c).timer = true)
    (hstate : (s.chan c).state ≠ 1) : ∃ hop, exec (.stepTimerExpiry c) s = .next (s.fallBehind c cPartner 2 hop) := by
  have hexec : exec (.stepTimerExpiry c) s = execStepTimerExpiry c s := rfl
  rw [hexec, execStepTimerExpiry]
  dsimp only
  rw [if_neg (by simp [hmode, htimer]), if_neg hstate]
  exact ⟨_, rfl⟩

/-- Settles O55: the step timer and aborts end an attempt, or leave the channel behind. -/
theorem attemptsEnd : Obligations.AttemptsEnd := by
  rintro s c k rfl hmode
  refine ⟨fun htimer hstate => ?_, fun htimer hstate => ?_, fun rq x p hholds hp htype hform hdir hc hnear => ⟨fun hstep hattempt hstate => ?_, fun hlate => ?_⟩⟩
  · obtain ⟨hown, hattn, hother⟩ := abortStep_spec (cause := cPartner) (hop := s.missingHop c (s.chan c).blocksDone) hmode (by decide : 2 < 8)
    obtain ⟨hstate', hattempt, hcause, -, hdone, hlocal, hcommitted, -⟩ := fields_of_unstaged hown
    exact ⟨_, exec_stepTimerExpiry_up hmode htimer hstate, hstate', hattempt, hcause, hdone, hlocal, hcommitted, hattn, hother⟩
  · obtain ⟨hop, hexec⟩ := exec_stepTimerExpiry_down hmode htimer (by omega)
    obtain ⟨hown, hattn, hsets, hother⟩ := fallBehind_spec (cause := cPartner) (hop := hop) hmode (by decide : 2 < 8)
    exact ⟨_, hexec, congrArg Channel64.state hown, congrArg Channel64.timer hown, by rw [hown]; rfl,
      congrArg Channel64.lastCause hown, hattn, hsets, hother⟩
  · have hexec := exec_abortReceive hholds hp htype hform hdir hc hmode (near_of hnear)
    rw [if_pos (by simp [hstep, hattempt, hstate])] at hexec
    have hsent := chan_of_offAbort (offAbort_of_offTransit (sendAborts_offTransit (s.dropRx rq) c
      (BitVec.ofNat 12 (bits (prefixWord p 0) 27 16)) (BitVec.ofNat 23 (bits (prefixWord p 3) 22 0)) (some p.src))) c
    obtain ⟨hown, -⟩ := endAttempt_spec (cause := BitVec.ofNat 12 (bits (prefixWord p 0) 27 16))
      (hop := BitVec.ofNat 23 (bits (prefixWord p 3) 22 0)) (by rw [hsent]; exact hmode)
    rw [hsent] at hown
    obtain ⟨hstate', hattempt', hcause, hhop, -, hlocal, -, -⟩ := fields_of_unstaged hown
    refine ⟨_, hexec, hstate', hattempt', ?_, ?_, hlocal⟩
    · rw [hcause]; exact (BitVec.toNat_ofNat _ _).trans (Nat.mod_eq_of_lt (bits_lt _ _ _))
    · rw [hhop]; exact (BitVec.toNat_ofNat _ _).trans (Nat.mod_eq_of_lt (bits_lt _ _ _))
  · have hexec := exec_abortReceive hholds hp htype hform hdir hc hmode (near_of hnear)
    rw [if_neg (by rcases hlate with h | h <;> simp [h])] at hexec
    exact ⟨_, hexec, rfl⟩

end Sys2Proof.Machine
end

section
/-! SUPPORT. Down blocks, resends, credits and backups of a reduction channel (R380, R388, R391). -/

namespace Sys2Proof.Machine

theorem modChan_congr {s : State} {c : Nat} {f g : Channel64 → Channel64} (h : f (s.chan c) = g (s.chan c)) :
    s.modChan c f = s.modChan c g := by
  have hchannels : modAt s.channels c f = modAt s.channels c g := by
    refine List.ext_getElem? fun j => ?_
    rw [modAt_getElem?, modAt_getElem?]
    split
    next hj =>
      subst hj
      cases hl : s.channels[j]? with
      | none => rfl
      | some x =>
        have hx : s.chan j = x := by rw [State.chan, List.getD_eq_getElem?_getD, hl]; rfl
        rw [hx] at h
        exact congrArg some h
    next => rfl
  exact congrArg (fun l => ({ s with channels := l } : State)) hchannels

/-! ### Parcels of a channel -/

theorem spargePayload_length (n dir : Nat) (attempt : BitVec 8) (cause : Code) (step arg : W32) (hop : BitVec 23) (blocks : List Byte) :
    (spargePayload n dir attempt cause step arg hop blocks).length = 16 + blocks.length := by
  rw [spargePayload, List.length_append, wordsBytes_length]
  rfl

/-- A sparge parcel for another module has been emitted. -/
theorem spargeParcel_emitted {s : State} {a : BitVec 20} (c : Nat) {payload : List Byte} (h : a ≠ s.addr)
    (hfits : 32 + payload.length ≤ 0x4000000) : Emitted s (s.emitParcel (spargeParcel a c payload)) a 4 payload :=
  emitParcel_emitted (p := spargeParcel a c payload) h hfits

theorem sendDown_offTransit (s : State) (c : Nat) (bs : List Byte) : (s.sendDown c bs).offTransit = s.offTransit :=
  offTransit_foldl _ (fun _ _ => spargeSend_offTransit _ _ _ _ _ _ _) _ _

theorem chan_of_offTransit {s t : State} (h : t.offTransit = s.offTransit) (n : Nat) : t.chan n = s.chan n :=
  chan_of_offAbort (offAbort_of_offTransit h) n

/-! ### Down blocks -/

/-- A block taken from what waits on the way down. -/
def Channel64.gone (k : Channel64) (q : Nat) : Channel64 := { k with down := k.down.filter fun x => x.seq != q }

/-- A down block with good residues kept. -/
def Channel64.keepDown (k : Channel64) (q : Nat) (data : List Byte) : Channel64 :=
  { k.gone q with sums := alSet [] q data k.sums, downNext := q + 1, blocksDone := q + 1, downFails := 0 }

section
variable {s : State} {c : Nat} {b : Block}
  (hmode : (s.chan c).mode = 1) (hroot : (s.chan c).isRoot = false) (hstate : (s.chan c).state = 2) (hruns : s.spargeRuns c = false)
  (hopen : (s.chan c).kidsOpen (s.chan c).downNext = true)
  (hfind : ((s.chan c).down.find? fun b => b.seq == (s.chan c).downNext) = some b)

include hmode hroot hstate hruns hopen hfind

theorem takeDown_taken :
    (if (s.chan c).mode != 1 || (s.chan c).isRoot || (s.chan c).state != 2 || s.spargeRuns c || !(s.chan c).kidsOpen (s.chan c).downNext
      then none else (s.chan c).down.find? fun b => b.seq == (s.chan c).downNext) = some b := by
  rw [if_neg (by simp [hmode, hroot, hstate, hruns, hopen]), hfind]

/-- A block whose residues fail is dropped; the third failure ends the step. -/
theorem exec_downBlock_bad (hbad : downGood b.data = false) :
    exec (.downBlockReceive c) s = .next (
      let s' := s.modChan c fun k => { k.gone k.downNext with downFails := k.downFails + 1 }
      if 3 ≤ (s.chan c).downFails + 1 then s'.fallBehind c cResidue 6 (hopOf 4 (s.chan c).parent) else s') := by
  have hexec : exec (.downBlockReceive c) s = .next (s.takeDown c) := rfl
  have htaken := takeDown_taken hmode hroot hstate hruns hopen hfind
  have hmod : (s.modChan c fun k => { k.gone (s.chan c).downNext with downFails := k.downFails + 1 }) =
      s.modChan c fun k => { k.gone k.downNext with downFails := k.downFails + 1 } := modChan_congr rfl
  rw [hexec]
  refine congrArg _ ?_
  unfold State.takeDown
  dsimp only
  rw [htaken]
  dsimp only
  rw [if_pos (by simp [hbad]), ← hmod]
  rfl

/-- A block whose residues hold is kept and forwarded. -/
theorem exec_downBlock_good (hgood : downGood b.data = true) (hgrad : s.gradAt c (s.chan c).downNext = none)
    (hlast : (s.chan c).downNext + 1 < (s.chan c).blocks) :
    exec (.downBlockReceive c) s = .next (
      let s' := (s.sendDown c b.data).modChan c fun k => k.keepDown (s.chan c).downNext b.data
      if creditDue (s.chan c).downNext (s.chan c).blocks then s'.spargeSend c (s.chan c).parent 0 3 (w32 (s.chan c).downNext) [] else s') := by
  have hexec : exec (.downBlockReceive c) s = .next (s.takeDown c) := rfl
  have htaken := takeDown_taken hmode hroot hstate hruns hopen hfind
  have hput : s.putGrad c (s.chan c).downNext (downWords b.data) = some s := by rw [State.putGrad, hgrad]
  rw [hexec]
  refine congrArg _ ?_
  unfold State.takeDown
  dsimp only
  rw [htaken]
  dsimp only
  rw [if_neg (by simp [hgood]), hput]
  dsimp only
  rw [if_neg (by omega)]
  rfl

end

/-- What a member keeps of a down block with good residues. -/
theorem downBlock_kept {s : State} {c : Nat} {b : Block} (hlen : c < s.channels.length) (send : Bool) (a : BitVec 20) (t : State)
    (ht : t = (let s' := (s.sendDown c b.data).modChan c fun k => k.keepDown (s.chan c).downNext b.data
      if send then s'.spargeSend c a 0 3 (w32 (s.chan c).downNext) [] else s')) :
    t.chan c = (s.chan c).keepDown (s.chan c).downNext b.data ∧ OnlyChannel s t c := by
  have hdown := chan_of_offTransit (sendDown_offTransit s c b.data)
  have hchannels := (kept_of_offAbort (offAbort_of_offTransit (sendDown_offTransit s c b.data))).1
  dsimp only at ht
  generalize hu : (s.sendDown c b.data).modChan c _ = u at ht
  have hown : u.chan c = (s.chan c).keepDown (s.chan c).downNext b.data := by
    subst hu
    exact (chan_modChan _ _ _ (by rw [hchannels]; exact hlen)).trans (by rw [hdown])
  have hother (n : Nat) (h : n ≠ c) : u.chan n = s.chan n := by
    subst hu
    exact (chan_modChan_other _ _ _ _ h).trans (hdown n)
  have ht' (n : Nat) : t.chan n = u.chan n := by
    rw [ht]
    split
    · exact chan_of_offTransit (spargeSend_offTransit _ _ _ _ _ _ _) n
    · rfl
  exact ⟨(ht' c).trans hown, fun n h => (ht' n).trans (hother n h)⟩

/-! ### Resends -/

theorem exec_downBlockResendWait {s : State} {c : Nat} (hmode : (s.chan c).mode = 1) (hroot : (s.chan c).isRoot = false)
    (hstate : (s.chan c).state = 2) (hnone : hasSeq (s.chan c).down (s.chan c).downNext = false) (hfails : 1 ≤ (s.chan c).downFails) :
    exec (.downBlockResendWait c) s = .next (s.spargeSend c (s.chan c).parent 0 5 (w32 (s.chan c).downNext) []) := by
  have hexec : exec (.downBlockResendWait c) s = execDownBlockResendWait c s := rfl
  have hfails' : (s.chan c).downFails ≠ 0 := by omega
  rw [hexec, execDownBlockResendWait]
  exact congrArg _ (if_neg (by simp [hmode, hroot, hstate, hnone, hfails']))

section
variable {s : State} {rq : Nat} {x : Rx} {p : Parcel} {c : Nat} (h : s.holdsParcel rq x) (hp : x.parcel = p) (htype : p.ptype = 4)
  (hform : spargeForm p = true) (hc : spargeChan p = c) (hmode : (s.chan c).mode = 1)
include h hp htype hform hc hmode

/-- A block that the module still holds is sent again to the child that asks for it. -/
theorem exec_spargeResendReceive (hdir : spargeDir p = 5) (hkid : ((s.chan c).kid? p.src).isSome = true)
    (hholds : (alGet [] (bits (prefixWord p 2) 23 0) (s.chan c).sums).isEmpty = false) (hstep : spargeStep p = (s.chan c).step)
    (hattempt : spargeAttempt p = (s.chan c).attempt) (hstate : (s.chan c).state = 2) (hpast : bits (prefixWord p 2) 23 0 < (s.chan c).downNext) :
    exec (.spargeResendReceive rq) s = .next ((s.dropRx rq).emitParcel (spargeParcel p.src c
      (spargePayload 1 1 (spargeAttempt p) 0 (spargeStep p) 0 0 (alGet [] (bits (prefixWord p 2) 23 0) (s.chan c).sums)))) := by
  subst hp hc
  have hexec : exec (.spargeResendReceive rq) s = execSpargeResendReceive rq s := rfl
  have hchan : (s.dropRx rq).chan (spargeChan x.parcel) = s.chan (spargeChan x.parcel) := rfl
  rw [hexec, execSpargeResendReceive, onSparge_holds h htype hform hdir]
  dsimp only
  rw [hchan, if_pos (by simp [hmode, hkid, hholds, hstep, hattempt, hstate, hpast])]

theorem exec_spargeResendReceive_gone (hdir : spargeDir p = 5) (hgone : alGet [] (bits (prefixWord p 2) 23 0) (s.chan c).sums = [])
    (haged : (s.chan c).aged (spargeStep p) (spargeAttempt p) = false) :
    exec (.spargeResendReceive rq) s = .next (s.dropRx rq) := by
  subst hp hc
  have hexec : exec (.spargeResendReceive rq) s = execSpargeResendReceive rq s := rfl
  have hchan : (s.dropRx rq).chan (spargeChan x.parcel) = s.chan (spargeChan x.parcel) := rfl
  rw [hexec, execSpargeResendReceive, onSparge_holds h htype hform hdir]
  dsimp only
  rw [hchan, hgone, if_neg (by simp), State.countAged, if_neg (by rw [hchan, haged]; simp)]

/-! ### Credits -/

/-- The channels after a report of consumption has been offered to the backup channels of its sender. -/
def State.creditedBackups (s : State) (p : Parcel) (c : Nat) : State :=
  { s with channels := (s.channels.zipIdx).map fun x =>
      if x.1.mode = 2 && x.1.parent == p.src && x.1.target == c &&
          (spargeStep p == (s.chan (s.stepChan x.2)).step && spargeAttempt p == (s.chan (s.stepChan x.2)).attempt)
      then x.1.creditUp (bits (prefixWord p 2) 23 0) else x.1 }

omit h hp htype hform hc in
theorem creditedBackups_chan : (s.creditedBackups p c).chan c = s.chan c := by
  simp only [State.chan, State.creditedBackups, List.getD_eq_getElem?_getD, List.getElem?_map, List.getElem?_zipIdx]
  cases hk : s.channels[c]? with
  | none => rfl
  | some k =>
    have hmode' : k.mode = 1 := by
      rw [State.chan, List.getD_eq_getElem?_getD, hk] at hmode
      exact hmode
    simp [hmode']

omit h hp htype hform hc hmode in
theorem creditedBackups_length : (s.creditedBackups p c).channels.length = s.channels.length := by
  simp [State.creditedBackups]

variable (hdir : spargeDir p = 3) (hstep : spargeStep p = (s.chan c).step) (hattempt : spargeAttempt p = (s.chan c).attempt)
include hdir hstep hattempt

theorem exec_creditParcelReceive :
    exec (.creditParcelReceive rq) s = .next (
      if !(s.chan c).isRoot && (s.chan c).parent == p.src && (s.chan c).state ≤ 1 then
        ((s.dropRx rq).creditedBackups p c).modChan c fun k => k.creditUp (bits (prefixWord p 2) 23 0)
      else match (s.chan c).kid? p.src with
        | some j => (((s.dropRx rq).creditedBackups p c).modChan c fun k =>
            { k with downCredit := modAt k.downCredit j fun _ => (bits (prefixWord p 2) 23 0 : Int) + 2048 }).pump c
        | none => (s.dropRx rq).creditedBackups p c) := by
  subst hp hc
  have hexec : exec (.creditParcelReceive rq) s = execCreditParcelReceive rq s := rfl
  rw [hexec, execCreditParcelReceive, onSparge_holds h htype hform hdir]
  exact congrArg _ (if_neg (by
    change ¬ ((s.chan (spargeChan x.parcel)).mode != 1 || !(spargeStep x.parcel == (s.chan (spargeChan x.parcel)).step &&
      spargeAttempt x.parcel == (s.chan (spargeChan x.parcel)).attempt)) = true
    simp [hmode, hstep, hattempt]))

end

/-- A channel in its up phase pumps nothing down. -/
theorem pump_idle {s : State} {c : Nat} (h : (s.chan c).state ≠ 2) : s.pump c = s := by
  rw [State.pump, State.pumpDown]
  exact if_pos (by simp [h])

/-! ### Backups -/

theorem stage_backup {k : Channel64} {b : Block} (hstate : k.state = 1) (hlow : k.blocksDone ≤ b.seq) (hin : b.seq < k.blocks)
    (hlocal : hasSeq k.local_ b.seq = false) (hnew : hasSeq k.backup b.seq = false)
    (hwindow : (b.seq : Int) ≤ lastCredit k.blocksDone k.blocks + 2048) :
    k.stage 1 k.step k.attempt b = { k with backup := k.backup ++ [b] } := by
  have hbegin : k.begin_ = k := if_neg (by omega)
  unfold Channel64.stage Channel64.stageBackup
  rw [if_neg (by omega), if_pos (by simp), if_neg (by simp [hstate, hin]), if_pos rfl, hbegin, if_neg (by simp [hlocal, hlow]),
    if_neg (by simp [hnew, hwindow])]

theorem exec_backupBlockArrival {s : State} {rq : Nat} {x : Rx} {p : Parcel} {c : Nat} {b : Block} (h : s.holdsParcel rq x)
    (hp : x.parcel = p) (htype : p.ptype = 4) (hform : spargeForm p = true) (hdir : spargeDir p = 2) (hc : spargeChan p = c)
    (hmode : (s.chan c).mode = 1) (hby : (s.chan c).backupBy = p.src) (hblocks : spargeBlocks p = [b.data])
    (hseq : b.seq = (blockHead b.data).seq) :
    exec (.backupBlockArrival rq) s = .next ((s.dropRx rq).modChan c fun k => k.stage 1 (spargeStep p) (spargeAttempt p) b) := by
  subst hp hc
  have hexec : exec (.backupBlockArrival rq) s = execBackupBlockArrival rq s := rfl
  have hguard : ((s.chan (spargeChan x.parcel)).mode = 1 && (s.chan (spargeChan x.parcel)).backupBy == x.parcel.src) = true := by
    simp [hmode, hby]
  have hb : (⟨(blockHead b.data).seq, b.data⟩ : Block) = b := by rw [← hseq]
  rw [hexec, execBackupBlockArrival, onSparge_holds h htype hform hdir]
  refine congrArg _ ((if_pos hguard).trans ?_)
  rw [hblocks]
  dsimp only [List.foldl_cons, List.foldl_nil]
  rw [hb]

theorem exec_backupDeadline {s : State} {c q : Nat} (hmode : (s.chan c).mode = 1) (hstate : (s.chan c).state = 1)
    (hhas : hasSeq (s.chan c).backup q = true) (hdue : q ∉ (s.chan c).backupDue) :
    exec (.backupDeadline c q) s = .next (
      (if (s.chan c).backupUsed then s else s.log cBackup (w32 c) (w32 q)).modChan c fun k =>
        { k with backupDue := k.backupDue ++ [q], backupUsed := true, backups := sat32 (k.backups + 1) }) := by
  have hexec : exec (.backupDeadline c q) s = execBackupDeadline c q s := rfl
  rw [hexec, execBackupDeadline]
  refine congrArg _ ((if_pos (by simp [hmode, hstate, hhas, hdue])).trans ?_)
  split <;> rfl

/-! ### The statement -/

/-- Settles O54: down blocks, resends, credits and backups. -/
theorem blocksAndCredits : Obligations.BlocksAndCredits := by
  constructor
  · rintro s c k rfl hmode
    refine ⟨fun b hroot hstate hruns hopen hfind => ⟨fun hbad hfails => ?_, fun hbad hfails => ?_, fun hgood hgrad hlast => ?_⟩,
      fun hroot hstate hnone hfails hself => ?_, fun rq x p q hholds hp htype hform hdir hc hq => ⟨fun bs hbs hlen hkid hself hstep hattempt hstate hpast => ?_,
        fun hgone haged => ?_⟩⟩
    · have hexec := exec_downBlock_bad hmode hroot hstate hruns hopen hfind hbad
      dsimp only at hexec
      rw [if_neg (by omega)] at hexec
      exact ⟨_, hexec, modChan_congr rfl⟩
    · have hexec := exec_downBlock_bad hmode hroot hstate hruns hopen hfind hbad
      dsimp only at hexec
      rw [if_pos (by omega)] at hexec
      obtain ⟨hown, hattn, hsets, -⟩ := fallBehind_spec (cause := cResidue) (hop := hopOf 4 (s.chan c).parent)
        (s := s.modChan c fun k => { k.gone k.downNext with downFails := k.downFails + 1 }) (c := c)
        (by rw [chan_modChan _ _ _ (chan_exists s c (by omega))]; exact hmode) (by decide : 6 < 8)
      exact ⟨_, hexec, congrArg Channel64.state hown, congrArg Channel64.lastCause hown, congrArg Channel64.timer hown, hattn, hsets⟩
    · have hexec := exec_downBlock_good hmode hroot hstate hruns hopen hfind hgood hgrad hlast
      obtain ⟨hown, honly⟩ := downBlock_kept (b := b) (chan_exists s c (by omega)) (creditDue (s.chan c).downNext (s.chan c).blocks)
        (s.chan c).parent _ rfl
      refine ⟨_, hexec, congrArg Channel64.downNext hown, congrArg Channel64.downFails hown, ?_, (congrArg Channel64.state hown).trans hstate,
        honly, fun hkids hdue => ?_⟩
      · rw [congrArg Channel64.sums hown]
        exact alGet_alSet_same _ _ _ _
      · dsimp only
        rw [hdue]
        unfold State.sendDown
        rw [hkids]
        rfl
    · refine ⟨_, exec_downBlockResendWait hmode hroot hstate hnone hfails, ?_, ?_, emitParcel_frame _ _⟩
      · exact (kept_of_offAbort (offAbort_of_offTransit (spargeSend_offTransit _ _ _ _ _ _ _))).1
      · exact spargeParcel_emitted c hself (by rw [spargePayload_length]; decide)
    · subst hbs hq
      have hempty : (alGet [] (bits (prefixWord p 2) 23 0) (s.chan c).sums).isEmpty = false := by
        rw [List.isEmpty_eq_false_iff]
        intro h
        rw [h] at hlen
        exact absurd hlen (by decide)
      refine ⟨_, exec_spargeResendReceive hholds hp htype hform hc hmode hdir hkid hempty hstep hattempt hstate hpast, ?_, emitParcel_frame _ _⟩
      exact (spargeParcel_emitted (s := s.dropRx rq) c hself (by rw [spargePayload_length, hlen]; decide)).of_before rfl rfl
    · subst hq
      exact ⟨_, exec_spargeResendReceive_gone hholds hp htype hform hc hmode hdir hgone haged, rfl⟩
  · rintro s c k rfl hmode
    have hlen := chan_exists s c (by omega)
    refine ⟨fun rq x p q hholds hp htype hform hdir hc hstep hattempt hq hstate => ⟨fun hroot hparent => ?_, fun j hnear hkid hj => ?_⟩,
      fun rq x p b hholds hp htype hform hdir hc hby hblocks hseq hstep hattempt hstate hin hlow hlocal hnew hwindow => ?_,
      fun q hstate hhas hdue => ?_⟩
    · have hexec := exec_creditParcelReceive hholds hp htype hform hc hmode hdir hstep hattempt
      rw [if_pos (by simp [hroot, hparent, hstate])] at hexec
      refine ⟨_, hexec, ?_, rfl⟩
      rw [chan_modChan _ _ _ (lt_of_lt_of_eq hlen (creditedBackups_length (s := s.dropRx rq)).symm), hq]
      rfl
    · have hexec := exec_creditParcelReceive hholds hp htype hform hc hmode hdir hstep hattempt
      rw [if_neg (by rcases hnear with h | h <;> simp [h]), hkid] at hexec
      dsimp only at hexec
      have hown := creditedBackups_chan (s := s.dropRx rq) (p := p) (c := c) hmode
      have hcredited := chan_modChan ((s.dropRx rq).creditedBackups p c) c
        (fun k => { k with downCredit := modAt k.downCredit j fun _ => (bits (prefixWord p 2) 23 0 : Int) + 2048 })
        (lt_of_lt_of_eq hlen (creditedBackups_length (s := s.dropRx rq)).symm)
      rw [hown] at hcredited
      have hup : (s.chan c).state ≠ 2 := by omega
      rw [pump_idle (by rw [hcredited]; exact hup)] at hexec
      refine ⟨_, hexec, ?_, rfl⟩
      rw [hcredited, hq]
      exact modAt_getD_same _ _ _ _ hj
    · refine ⟨_, exec_backupBlockArrival hholds hp htype hform hdir hc hmode hby hblocks hseq, modChan_congr ?_⟩
      rw [hstep, hattempt]
      exact stage_backup hstate hlow hin hlocal hnew hwindow
    · refine ⟨_, exec_backupDeadline hmode hstate hhas hdue, ?_, fun hused => ?_⟩
      · split <;> rfl
      · rw [if_pos hused]
        rfl

end Sys2Proof.Machine
end

section
/-! SUPPORT. Blocks added in a reduction channel (R386, R387). -/

namespace Sys2Proof.Machine

/-! ### Residues of a sum -/

theorem inputGood_residue {exp : BitVec 8} {d : List Byte} (h : inputGood exp d = true) {i : Nat} (hi : i < 64) :
    (upValue d i % 255).toNat = upResidue d i := by
  simp only [inputGood, Bool.and_eq_true, List.all_eq_true, List.mem_range, beq_iff_eq] at h
  exact h.2 i hi

theorem foldl_residues {α : Type} (f : α → Int) (g : α → Nat) (l : List α) (h : ∀ x ∈ l, (f x % 255).toNat = g x) (a : Int) (b : Nat)
    (hab : a % 255 = (b : Int) % 255) :
    (l.map f).foldl (· + ·) a % 255 = (((l.map g).foldl (· + ·) b : Nat) : Int) % 255 := by
  induction l generalizing a b with
  | nil => exact hab
  | cons x l ih =>
    refine ih (fun y hy => h y (List.mem_cons_of_mem _ hy)) _ _ ?_
    have hx := h x List.mem_cons_self
    change (a + f x) % 255 = ((b + g x : Nat) : Int) % 255
    omega

/-- Inputs whose residues hold have a sum whose residues hold. -/
theorem sum_residues {exp : BitVec 8} {ins : List (BitVec 23 × Bool × List Byte)} (h : ∀ x ∈ ins, inputGood exp x.2.2 = true) :
    (((List.range 64).map fun i => (ins.map fun x => upValue x.2.2 i).foldl (· + ·) 0).zip
      ((List.range 64).map fun i => ((ins.map fun x => upResidue x.2.2 i).foldl (· + ·) 0) % 255)).any
        (fun x => (x.1 % 255).toNat != x.2) = false := by
  rw [List.zip_map', List.any_map, List.any_eq_false]
  intro i hi
  have hsum := foldl_residues (fun x : BitVec 23 × Bool × List Byte => upValue x.2.2 i) (fun x => upResidue x.2.2 i) ins
    (fun x hx => inputGood_residue (h x hx) (List.mem_range.1 hi)) 0 0 rfl
  simp only [Function.comp_apply, bne_iff_ne, ne_eq, Decidable.not_not]
  rw [hsum]
  generalize (ins.map fun x => upResidue x.2.2 i).foldl (· + ·) 0 = n
  omega

/-! ### A block added -/

theorem lostInputs_none (s : State) (c q : Nat) : s.lostInputs c q [] = [] := by
  simp [State.lostInputs]

section
variable {s u : State} {c : Nat} (hmode : (s.chan c).mode = 1) (hstate : (s.chan c).state = 1) (hq : (s.chan c).blocksDone < (s.chan c).blocks)
include hmode hstate

theorem exec_addBlock :
    exec (.addBlock c) s = .next (s.meetErrors.addBlock c (s.lostInputs c (s.chan c).blocksDone s.rack.flawed)) := by
  have hexec : exec (.addBlock c) s = execAddBlock c s := rfl
  rw [hexec, execAddBlock]
  exact congrArg _ (if_neg (by simp [hmode, hstate]))

theorem exec_addBlock_clean (h : s.rack.flawed = []) : exec (.addBlock c) s = .next (s.addBlock c []) := by
  rw [exec_addBlock hmode hstate, meetErrors_none h, h, lostInputs_none]

include hq

theorem addBlock_inputs :
    (if (s.chan c).mode != 1 || (s.chan c).state != 1 || decide ((s.chan c).blocks ≤ (s.chan c).blocksDone) then none
      else s.inputsOf c (s.chan c).blocksDone) = s.inputsOf c (s.chan c).blocksDone :=
  if_neg (by simp [hmode, hstate, hq])

theorem addBlock_none (lost : List (BitVec 23)) (h : s.inputsOf c (s.chan c).blocksDone = none) : s.addBlock c lost = s := by
  unfold State.addBlock
  dsimp only
  rw [addBlock_inputs hmode hstate hq, h]

/-- The first input is lost or does not agree: the attempt is aborted at its hop. -/
theorem addBlock_bad {lost : List (BitVec 23)} {x : BitVec 23 × Bool × List Byte} {rest : List (BitVec 23 × Bool × List Byte)}
    (h : s.inputsOf c (s.chan c).blocksDone = some (x :: rest))
    (hbad : x.1 ∈ lost ∨ inputGood ((s.chan c).expOf (s.chan c).blocksDone) x.2.2 = false) :
    s.addBlock c lost = s.abortStep c cResidue 6 x.1 := by
  have hfind : ((x :: rest).find? fun x => lost.contains x.1 || !inputGood ((s.chan c).expOf (s.chan c).blocksDone) x.2.2) = some x := by
    refine List.find?_cons_of_pos ?_
    rcases hbad with h | h <;> simp [h]
  unfold State.addBlock
  dsimp only
  rw [addBlock_inputs hmode hstate hq, h]
  dsimp only
  rw [hfind]

variable {ins : List (BitVec 23 × Bool × List Byte)} (hins : s.inputsOf c (s.chan c).blocksDone = some ins)
  (hgood : ∀ x ∈ ins, inputGood ((s.chan c).expOf (s.chan c).blocksDone) x.2.2 = true)
include hins hgood

/-- The sum of the inputs' values. -/
def sumValues (ins : List (BitVec 23 × Bool × List Byte)) : List Int :=
  (List.range 64).map fun i => (ins.map fun x => upValue x.2.2 i).foldl (· + ·) 0

/-- The sum of the inputs' residues. -/
def sumResidues (ins : List (BitVec 23 × Bool × List Byte)) : List Nat :=
  (List.range 64).map fun i => (ins.map fun x => upResidue x.2.2 i).foldl (· + ·) 0 % 255

theorem addBlock_good :
    s.addBlock c [] =
      (let q := (s.chan c).blocksDone
       let h := sumHead q ((s.chan c).expOf q) ins
       if !(s.chan c).isRoot then
        if (s.chan c).upCredit < (q : Int) then s
        else (s.spargeSend c (s.chan c).parent 1 0 0 (upBlock h (sumValues ins) (sumResidues ins))).consumed c q
      else match s.putGrad c q (rootBlock h (sumValues ins)).2 with
        | none => s
        | some s' =>
          let s' := (s'.modChan c fun k => { k with sums := alSet [] q (rootBlock h (sumValues ins)).1 k.sums }).consumed c q
          if q + 1 = (s.chan c).blocks then (s'.modChan c fun k => { k with state := 2, blocksDone := 0, downNext := 0 }).pump c else s') := by
  have hnone : (ins.find? fun x => ([] : List (BitVec 23)).contains x.1 || !inputGood ((s.chan c).expOf (s.chan c).blocksDone) x.2.2) = none := by
    rw [List.find?_eq_none]
    intro x hx
    simp [hgood x hx]
  unfold State.addBlock
  dsimp only
  rw [addBlock_inputs hmode hstate hq, hins]
  dsimp only
  rw [hnone]
  dsimp only
  rw [sum_residues hgood, if_neg (by decide)]
  rfl

end

/-! ### A block consumed -/

/-- A block taken from staging. -/
def Channel64.consume (k : Channel64) (q : Nat) : Channel64 :=
  { k with local_ := k.local_.filter fun b => b.seq != q, backup := k.backup.filter fun b => b.seq != q
           children := k.children.map fun l => l.filter fun b => b.seq != q, blocksDone := q + 1 }

theorem consumed_spec (s : State) (c q : Nat) :
    (s.consumed c q).offTransit = (s.modChan c fun k => k.consume q).offTransit ∧
    (creditDue q ((s.modChan c fun k => k.consume q).chan c).blocks = false → s.consumed c q = s.modChan c fun k => k.consume q) := by
  have hdef : s.consumed c q =
      (if creditDue q ((s.modChan c fun k => k.consume q).chan c).blocks then
        (((s.modChan c fun k => k.consume q).chan c).kids ++
          (if ((s.modChan c fun k => k.consume q).chan c).backupBy = 0xFFFFF then []
            else [((s.modChan c fun k => k.consume q).chan c).backupBy])).foldl (fun s a => s.spargeSend c a 0 3 (w32 q) [])
          (s.modChan c fun k => k.consume q)
      else s.modChan c fun k => k.consume q) := rfl
  constructor
  · rw [hdef]
    split
    · exact offTransit_foldl _ (fun _ _ => spargeSend_offTransit _ _ _ _ _ _ _) _ _
    · rfl
  · intro h
    rw [hdef, if_neg (by simp [h])]

theorem consumed_chan {s : State} {c q : Nat} (hlen : c < s.channels.length) :
    (s.consumed c q).chan c = (s.chan c).consume q ∧ OnlyChannel s (s.consumed c q) c := by
  have hchan := chan_of_offTransit (consumed_spec s c q).1
  exact ⟨(hchan c).trans (chan_modChan _ _ _ hlen), fun n h => (hchan n).trans (chan_modChan_other _ _ _ _ h)⟩

/-- What an operation that keeps the state outside transit and channels keeps of the stores. -/
theorem stores_of_offTransit {s t : State} (h : t.offTransit = s.offTransit) :
    t.coreMem = s.coreMem ∧ t.sectMem = s.sectMem ∧ t.caskRaw = s.caskRaw := by
  have hframe := frame_of_offTransit h
  rw [hframe]
  exact ⟨rfl, rfl, rfl⟩

theorem upBlock_length (h : BlockHead) (ins : List (BitVec 23 × Bool × List Byte)) :
    (upBlock h (sumValues ins) (sumResidues ins)).length = 464 := by
  have hflat (l : List Int) : (l.flatMap fun v => leBytes 6 (BitVec.ofInt 48 v).toNat).length = 6 * l.length := by
    induction l with
    | nil => rfl
    | cons v l ih => rw [List.flatMap_cons, List.length_append, leBytes_length, ih, List.length_cons]; omega
  rw [upBlock, List.length_append, List.length_append, hflat, BlockHead.bytes, wordsBytes_length, List.length_map]
  simp [sumValues, sumResidues]

/-! ### The statement -/

/-- Settles O53: a block is added where every input agrees, and an input that does not ends the attempt. -/
theorem addsBlocks : Obligations.AddsBlocks := by
  rintro s c k q ins rfl hmode hstate rfl hq
  have hlen := chan_exists s c (by omega)
  refine ⟨fun hclean hmissing => ?_, fun hclean hins hgood => ⟨fun hroot hcredit => ?_, fun hroot hcredit => ?_, fun hroot hgrad hlast => ?_⟩,
    fun u x rest hu hchan hins hbad => ?_⟩
  · rw [exec_addBlock_clean hmode hstate hclean, addBlock_none hmode hstate hq _ hmissing]
  · have hexec := (exec_addBlock_clean hmode hstate hclean).trans (congrArg _ (addBlock_good hmode hstate hq hins hgood))
    dsimp only at hexec
    rw [if_pos (by simp [hroot]), if_neg (by omega)] at hexec
    have hsent := spargeSend_offTransit s c (s.chan c).parent 1 0 0
      (upBlock (sumHead (s.chan c).blocksDone ((s.chan c).expOf (s.chan c).blocksDone) ins) (sumValues ins) (sumResidues ins))
    refine ⟨_, hexec, ?_⟩
    have hemitted := fun hself : (s.chan c).parent ≠ s.addr => spargeParcel_emitted (s := s) c hself (payload := spargePayload 1 0 (s.chan c).attempt 0 (s.chan c).step 0 0
      (upBlock (sumHead (s.chan c).blocksDone ((s.chan c).expOf (s.chan c).blocksDone) ins) (sumValues ins) (sumResidues ins)))
      (by rw [spargePayload_length, upBlock_length]; decide)
    have hunit : s.spargeSend c (s.chan c).parent 1 0 0
      (upBlock (sumHead (s.chan c).blocksDone ((s.chan c).expOf (s.chan c).blocksDone) ins) (sumValues ins) (sumResidues ins)) =
      s.emitParcel (spargeParcel (s.chan c).parent c (spargePayload 1 0 (s.chan c).attempt 0 (s.chan c).step 0 0
        (upBlock (sumHead (s.chan c).blocksDone ((s.chan c).expOf (s.chan c).blocksDone) ins) (sumValues ins) (sumResidues ins)))) := rfl
    rw [← hunit] at hemitted
    generalize s.spargeSend c (s.chan c).parent 1 0 0 _ = v at *
    have hchan := chan_of_offTransit hsent
    have hchannels := (kept_of_offAbort (offAbort_of_offTransit hsent)).1
    obtain ⟨hown, hother⟩ := consumed_chan (c := c) (q := (s.chan c).blocksDone) (by rw [hchannels]; exact hlen)
    rw [hchan] at hown
    obtain ⟨hcore, hsect, hcask⟩ := stores_of_offTransit (consumed_spec v c (s.chan c).blocksDone).1
    obtain ⟨hcore', hsect', hcask'⟩ := stores_of_offTransit hsent
    refine ⟨congrArg Channel64.blocksDone hown, fun n hn => (hother n hn).trans (hchan n), congrArg Channel64.local_ hown, hcore.trans hcore',
      hsect.trans hsect', hcask.trans hcask', fun hdue hself => ?_⟩
    have hblocks : ((v.modChan c fun k => k.consume (s.chan c).blocksDone).chan c).blocks = (s.chan c).blocks := by
      rw [chan_modChan _ _ _ (by rw [hchannels]; exact hlen), hchan]
      rfl
    rw [(consumed_spec v c (s.chan c).blocksDone).2 (by rw [hblocks]; exact hdue)]
    exact (hemitted hself).of_after rfl
  · have hexec := (exec_addBlock_clean hmode hstate hclean).trans (congrArg _ (addBlock_good hmode hstate hq hins hgood))
    dsimp only at hexec
    rw [if_pos (by simp [hroot]), if_pos hcredit] at hexec
    exact hexec
  · have hexec := (exec_addBlock_clean hmode hstate hclean).trans (congrArg _ (addBlock_good hmode hstate hq hins hgood))
    dsimp only at hexec
    have hput (ws : List W32) : s.putGrad c (s.chan c).blocksDone ws = some s := by rw [State.putGrad, hgrad]
    rw [if_neg (by simp [hroot]), hput] at hexec
    dsimp only at hexec
    rw [if_neg (by omega)] at hexec
    refine ⟨_, hexec, ?_⟩
    generalize hb : (rootBlock _ (sumValues ins)).1 = b
    generalize hv : s.modChan c _ = v
    have hvown : v.chan c = { s.chan c with sums := alSet [] (s.chan c).blocksDone b (s.chan c).sums } := by
      subst hv; exact chan_modChan _ _ _ hlen
    have hvother (n : Nat) (h : n ≠ c) : v.chan n = s.chan n := by subst hv; exact chan_modChan_other _ _ _ _ h
    have hvlen : c < v.channels.length := by subst hv; exact lt_of_lt_of_eq hlen (modAt_length _ _ _).symm
    obtain ⟨hown, hother⟩ := consumed_chan (q := (s.chan c).blocksDone) hvlen
    rw [hvown] at hown
    refine ⟨congrArg Channel64.blocksDone hown, (congrArg Channel64.state hown).trans hstate, fun n hn => (hother n hn).trans (hvother n hn), ?_⟩
    rw [congrArg Channel64.sums hown]
    exact (alGet_alSet_same _ _ _ _).trans hb.symm
  · have hexec := exec_addBlock hmode hstate
    rw [← hu] at hexec
    have hmode' : (u.chan c).mode = 1 := by rw [hchan]; exact hmode
    have hbad' := addBlock_bad (s := u) (c := c) (lost := s.lostInputs c (s.chan c).blocksDone s.rack.flawed) hmode'
      (by rw [hchan]; exact hstate) (by rw [hchan]; exact hq) (by rw [hchan]; exact hins) (by rw [hchan]; exact hbad)
    obtain ⟨hown, hattn, hother⟩ := abortStep_spec (cause := cResidue) (hop := x.1) hmode' (by decide : 6 < 8)
    rw [hchan] at hown
    obtain ⟨hstate', hattempt, hcause, hhop, -, hlocal, -, -⟩ := fields_of_unstaged hown
    exact ⟨_, hexec.trans (congrArg _ hbad'), hstate', hattempt, hcause, hhop, hlocal, hattn, hother⟩

end Sys2Proof.Machine
end

section
/-! SUPPORT. Mirrors and the roll call (R478 to R486). -/

namespace Sys2Proof.Machine

/-- A swept, good mirror parcel of a kind that no command has taken acts. -/
theorem onMirror_holds {s : State} {rq : Nat} {x : Rx} (h : s.holdsParcel rq x) (htype : x.parcel.ptype = 6) (hlen : 32 ≤ x.parcel.payload.length)
    {kinds : List Nat} (hkind : kinds.contains (bits (mirrorWord x.parcel 0) 3 0) = true) (f : Parcel → State → State) :
    s.onMirror rq kinds f = f x.parcel (s.dropRx rq) := by
  obtain ⟨hrx, hswept, -, hfree⟩ := h
  unfold State.onMirror
  rw [hrx]
  dsimp only
  rw [hswept, hfree, htype, hkind]
  simp [hlen]

/-! ### The owner's side -/

theorem sendMirrorLeaf_offTransit (s : State) (buddy : BitVec 20) (slot i pos h fmt : Nat) (b : Bytes) :
    (s.sendMirrorLeaf buddy slot i pos h fmt b).offTransit = s.offTransit :=
  (emitParcel_offTransit _ _).trans (offTransit_foldl _ (fun _ _ => emitParcel_offTransit _ _) _ _)

theorem sendManifest_offTransit (s : State) (buddy : BitVec 20) (i pos : Nat) : (s.sendManifest buddy i pos).offTransit = s.offTransit :=
  emitParcel_offTransit _ _

theorem streams_of_offTransit {s t : State} (h : t.offTransit = s.offTransit) : t.streams = s.streams := by
  rw [frame_of_offTransit h]

theorem streams_of_offRack {s t : State} (h : t.offRack = s.offRack) : t.streams = s.streams := by
  rw [frame_of_offRack h]

theorem stream_of_streams {s t : State} (h : t.streams = s.streams) (i : Nat) : t.stream i = s.stream i := by
  rw [State.stream, State.stream, h]

theorem exec_mirrorLeafSent {s : State} {i pos : Nat} {b : BitVec 20} {h : Handle} (hpos : (s.stream i).mirrorOut = some pos)
    (hbuddy : s.buddyOf (s.stream i).slot = some b) (hleaf : h ∈ (s.stream i).mirrorLeaves) :
    exec (.mirrorLeafSent i h) s = .next (
      let u := s.sendMirrorLeaf b (s.stream i).slot i pos h (s.leaf h).format (s.content h)
      let v := (u.modStream i fun e => { e with mirrorLeaves := (s.stream i).mirrorLeaves.erase h }).drop h
      if ((s.stream i).mirrorLeaves.erase h).isEmpty then v.sendManifest b i pos else v) := by
  have hexec : exec (.mirrorLeafSent i h) s = execMirrorLeafSent i h s := rfl
  rw [hexec, execMirrorLeafSent]
  refine congrArg _ ?_
  dsimp only
  rw [hpos, hbuddy]
  exact if_pos (by simpa using hleaf)

/-- What the mirror of a stream is once one of its leaves has been sent. -/
theorem mirrorLeafSent_streams {s : State} {i pos : Nat} {b : BitVec 20} {h : Handle} {t : State}
    (ht : t = (let u := s.sendMirrorLeaf b (s.stream i).slot i pos h (s.leaf h).format (s.content h)
      let v := (u.modStream i fun e => { e with mirrorLeaves := (s.stream i).mirrorLeaves.erase h }).drop h
      if ((s.stream i).mirrorLeaves.erase h).isEmpty then v.sendManifest b i pos else v)) :
    t.stream i = { s.stream i with mirrorLeaves := (s.stream i).mirrorLeaves.erase h } ∧ ∀ n, n ≠ i → t.stream n = s.stream n := by
  have hsent := stream_of_streams (streams_of_offTransit
    (sendMirrorLeaf_offTransit s b (s.stream i).slot i pos h (s.leaf h).format (s.content h)))
  dsimp only at ht
  generalize s.sendMirrorLeaf b (s.stream i).slot i pos h (s.leaf h).format (s.content h) = u at *
  have hdrop (v : State) := streams_of_offRack (State_drop_offRack v h)
  have hstreams : t.streams = (u.modStream i fun e => { e with mirrorLeaves := (s.stream i).mirrorLeaves.erase h }).streams := by
    rw [ht]
    split
    · exact (streams_of_offTransit (sendManifest_offTransit _ _ _ _)).trans (hdrop _)
    · exact hdrop _
  constructor
  · rw [stream_of_streams hstreams, State.modStream, stream_setStream, hsent]
  · intro n hn
    rw [stream_of_streams hstreams, State.modStream, stream_setStream_other _ _ _ _ hn, hsent]

/-- A mirror that the buddy has not taken. -/
theorem failMirror_streams (s : State) (i : Nat) :
    (s.failMirror i).stream i = { s.stream i with mirrorOut := none, mirrorLeaves := [], mirrorEntry := [] } ∧
      ∀ n, n ≠ i → (s.failMirror i).stream n = s.stream n := by
  have hdrop : ((s.stream i).mirrorLeaves.foldl (fun s h => s.drop h) s).streams = s.streams :=
    streams_of_offRack (offRack_foldl _ State_drop_offRack _ _)
  unfold State.failMirror
  dsimp only
  generalize (s.stream i).mirrorLeaves.foldl (fun s h => s.drop h) s = u at *
  constructor
  · exact (stream_setStream _ _ _).trans (by rw [stream_of_streams hdrop])
  · intro n hn
    exact (stream_setStream_other _ _ _ _ hn).trans (stream_of_streams hdrop n)

/-- The mirror that a first manifest begins. -/
def manifestMirror (p : Parcel) : Incoming :=
  { owner := p.src, stream := mirrorStream p, slot := mirrorSlot p, pos := mirrorPos p, leaves := [], released := false,
    manifest := some (bytesWords 16 (p.payload.drop 32)) }

/-- A leaf of which nothing has come. -/
def emptyPiece (p : Parcel) : InLeaf :=
  { owner := mirrorWord p 2, format := bits (mirrorWord p 3) 19 17, data := Bytes.empty (formOf (bits (mirrorWord p 3) 19 17)),
    got := [], own := none }

/-- The mirror that a first piece of a leaf begins. -/
def pieceMirror (p : Parcel) : Incoming :=
  { owner := p.src, stream := mirrorStream p, slot := mirrorSlot p, pos := mirrorPos p, manifest := none, released := false,
    leaves := [(emptyPiece p).put (bits (mirrorWord p 3) 16 0) (p.payload.drop 32)] }

section
variable {s : State} {rq : Nat} {x : Rx} {p : Parcel} (h : s.holdsParcel rq x) (hp : x.parcel = p) (htype : p.ptype = 6)
  (hlen : 32 ≤ p.payload.length)
include h hp htype hlen

theorem exec_mirrorAckReceive (hkind : bits (mirrorWord p 0) 3 0 = 2) :
    exec (.mirrorAckReceive rq) s = .next (
      if s.answers p then (s.dropRx rq).modStream (mirrorStream p) fun e =>
        { e with lastAck := min (mirrorPos p) (e.position / 64 * 64), mirrorOut := none, mirrorEntry := [] }
      else s.dropRx rq) := by
  subst hp
  have hexec : exec (.mirrorAckReceive rq) s = execMirrorAckReceive rq s := rfl
  rw [hexec, execMirrorAckReceive, onMirror_holds h htype hlen (by simp [hkind])]
  rfl

theorem exec_mirrorRefusalReceive (hkind : bits (mirrorWord p 0) 3 0 = 3)
    (hpos : (s.stream (mirrorStream p)).mirrorOut = some (mirrorPos p)) (hbuddy : s.buddyOf (s.stream (mirrorStream p)).slot = some p.src) :
    exec (.mirrorRefusalReceive rq) s = .next ((s.dropRx rq).failMirror (mirrorStream p)) := by
  subst hp
  have hexec : exec (.mirrorRefusalReceive rq) s = execMirrorRefusalReceive rq s := rfl
  have hguard : ((s.stream (mirrorStream x.parcel)).mirrorOut == some (mirrorPos x.parcel) &&
      s.buddyOf (s.stream (mirrorStream x.parcel)).slot == some x.parcel.src) = true := by simp [hpos, hbuddy]
  rw [hexec, execMirrorRefusalReceive, onMirror_holds h htype hlen (by simp [hkind])]
  exact congrArg _ (if_pos hguard)

/-! ### The buddy's side -/

/-- What the first parcel of a mirror begins. -/
theorem incomingOf_new (hnew : ∀ m ∈ s.buddy.incoming, m.isOf p.src (mirrorStream p) = false) :
    (s.dropRx rq).incomingOf p = (⟨p.src, mirrorStream p, mirrorSlot p, mirrorPos p, [], none, false⟩, s.dropRx rq) := by
  have hnone : ((s.dropRx rq).buddy.incoming.find? fun m => m.isOf p.src (mirrorStream p)) = none := by
    rw [List.find?_eq_none]
    intro m hm
    rw [hnew m hm]
    simp
  unfold State.incomingOf
  rw [hnone]

theorem exec_mirrorParcelReceive_manifest (hkind : bits (mirrorWord p 0) 3 0 = 0)
    (hnew : ∀ m ∈ s.buddy.incoming, m.isOf p.src (mirrorStream p) = false) :
    exec (.mirrorParcelReceive rq) s = .next ((s.dropRx rq).pushMirror (manifestMirror p)) := by
  have hexec : exec (.mirrorParcelReceive rq) s = execMirrorParcelReceive rq s := rfl
  have hinc := incomingOf_new h hp htype hlen hnew
  subst hp
  rw [hexec, execMirrorParcelReceive, onMirror_holds h htype hlen (by simp [hkind])]
  dsimp only
  rw [if_pos hkind, hinc]
  rfl

theorem exec_mirrorParcelReceive_leaf (hkind : bits (mirrorWord p 0) 3 0 = 1)
    (hnew : ∀ m ∈ s.buddy.incoming, m.isOf p.src (mirrorStream p) = false) :
    exec (.mirrorParcelReceive rq) s = .next ((s.dropRx rq).pushMirror (pieceMirror p)) := by
  have hexec : exec (.mirrorParcelReceive rq) s = execMirrorParcelReceive rq s := rfl
  have hinc := incomingOf_new h hp htype hlen hnew
  subst hp
  rw [hexec, execMirrorParcelReceive, onMirror_holds h htype hlen (by simp [hkind])]
  dsimp only
  rw [if_neg (by omega), hinc]
  simp [pieceMirror, emptyPiece]

end

theorem filter_not_isOf {l : List Incoming} {owner : BitVec 20} {stream : Nat} (h : ∀ m ∈ l, m.isOf owner stream = false) :
    (l.filter fun x => !x.isOf owner stream) = l := by
  rw [List.filter_eq_self]
  intro m hm
  simp [h m hm]

/-- A mirror of which a manifest alone has come is kept. -/
theorem pushMirror_manifest {s : State} {m : Incoming} {part : Nat} {entry : List W32} (hpart : s.slotPart m.slot = some part)
    (hleaves : m.leaves = []) (hmanifest : m.manifest = some entry)
    (hnew : ∀ x ∈ s.buddy.incoming, x.isOf m.owner m.stream = false) :
    s.pushMirror m = s.modBuddy fun b => { b with incoming := b.incoming ++ [m] } := by
  have hadmit : s.admitMirror m part = (m, s) := by
    rw [State.admitMirror, hleaves, List.foldl_nil, ← hleaves]
  have hincomplete : m.complete entry = false := by simp [Incoming.complete, hleaves]
  unfold State.pushMirror
  rw [hpart]
  dsimp only
  rw [hadmit, hmanifest]
  dsimp only
  rw [if_neg (by simp [hleaves]), if_pos (by simp [hincomplete]), State.modBuddy, filter_not_isOf hnew]
  rfl

/-- One piece does not make a leaf whole. -/
theorem piece_not_whole {l : InLeaf} (h : l.got = []) (off : Nat) (d : List Byte) : (l.put off d).whole = false := by
  have hgot : (l.put off d).got = [off] := by simp [InLeaf.put, h]
  rw [InLeaf.whole, hgot, List.all_eq_false]
  by_cases h0 : off = 0
  · exact ⟨1, by decide, by simp [h0]⟩
  · exact ⟨0, by decide, by simp [Ne.symm h0]⟩

/-- A mirror of which one piece of a leaf has come is kept. -/
theorem pushMirror_piece {s : State} {m : Incoming} {part : Nat} {l : InLeaf} (hpart : s.slotPart m.slot = some part)
    (hleaves : m.leaves = [l]) (hwhole : l.whole = false) (hmanifest : m.manifest = none)
    (hnew : ∀ x ∈ s.buddy.incoming, x.isOf m.owner m.stream = false) :
    s.pushMirror m = s.modBuddy fun b => { b with incoming := b.incoming ++ [m] } := by
  have hadmit : s.admitMirror m part = (m, s) := by
    rw [State.admitMirror, hleaves, List.foldl_cons, List.foldl_nil, hwhole]
    simp [← hleaves]
  unfold State.pushMirror
  rw [hpart]
  dsimp only
  rw [hadmit, hleaves, hmanifest]
  dsimp only
  rw [if_neg (by simp [hwhole]), State.modBuddy, filter_not_isOf hnew]
  rfl

theorem buddy_of_offTransit {s t : State} (h : t.offTransit = s.offTransit) : t.buddy = s.buddy := by
  rw [frame_of_offTransit h]

theorem buddy_of_offRack {s t : State} (h : t.offRack = s.offRack) : t.buddy = s.buddy := by
  rw [frame_of_offRack h]

/-- A mirror refused is in hand no longer. -/
theorem refuseMirror_incoming (s : State) (m : Incoming) :
    (s.refuseMirror m).buddy.incoming = s.buddy.incoming.filter fun x => !x.isOf m.owner m.stream := by
  have hdrop : ((m.leaves.filterMap (·.own)).foldl (fun s h => s.drop h) s).buddy = s.buddy :=
    buddy_of_offRack (offRack_foldl _ State_drop_offRack _ _)
  unfold State.refuseMirror
  dsimp only
  rw [State.answerMirror, buddy_of_offTransit (emitParcel_offTransit _ _), State.modBuddy, hdrop]

/-- Does a mirror wait for a frame? -/
def Incoming.waits (m : Incoming) : Bool :=
  (m.leaves.any fun l => l.whole && l.own.isNone) || (m.manifest.map m.complete).getD false

theorem exec_mirrorAdmissionTimeout (owner stream : Nat) (s : State) :
    exec (.mirrorAdmissionTimeout owner stream) s = .next (
      match s.buddy.incoming.find? fun m => m.isOf (BitVec.ofNat 20 owner) stream && m.waits with
      | none => s
      | some m => match (s.pushMirror m).buddy.incoming.find? fun m => m.isOf (BitVec.ofNat 20 owner) stream && m.waits with
        | some m' => (s.pushMirror m).refuseMirror m'
        | none => s.pushMirror m) := rfl

theorem none_waits {l : List Incoming} {o : BitVec 20} {stream : Nat} (h : (l.find? fun m => m.isOf o stream && m.waits) = none)
    {m : Incoming} (hm : m ∈ l) (hof : m.isOf o stream = true) : m.waits = false := by
  have := List.find?_eq_none.1 h m hm
  simpa [hof] using this

/-- At its time limit no mirror of the stream waits any more. -/
theorem admissionTimeout_waits (owner stream : Nat) (s : State) :
    ∃ t, exec (.mirrorAdmissionTimeout owner stream) s = .next t ∧
      ∀ m ∈ t.buddy.incoming, m.isOf (BitVec.ofNat 20 owner) stream = true → m.waits = false := by
  refine ⟨_, exec_mirrorAdmissionTimeout owner stream s, ?_⟩
  cases hfirst : s.buddy.incoming.find? fun m => m.isOf (BitVec.ofNat 20 owner) stream && m.waits with
  | none => exact fun m hm hof => none_waits hfirst hm hof
  | some m =>
    dsimp only
    generalize s.pushMirror m = u
    cases hsecond : u.buddy.incoming.find? fun m => m.isOf (BitVec.ofNat 20 owner) stream && m.waits with
    | none => exact fun m hm hof => none_waits hsecond hm hof
    | some m' =>
      have hof' := List.find?_some hsecond
      simp only [Incoming.isOf, Bool.and_eq_true, beq_iff_eq] at hof'
      obtain ⟨⟨howner, hstream⟩, -⟩ := hof'
      intro x hx hof
      dsimp only at hx
      rw [refuseMirror_incoming, howner, hstream] at hx
      have hnot := (List.mem_filter.1 hx).2
      simp [hof] at hnot

/-! ### Releases and the sweep of the map -/

theorem dropManifest_buddy (s : State) (owner : BitVec 20) (stream : Nat) :
    (s.dropManifest owner stream).buddy = { s.buddy with
      manifests := s.buddy.manifests.filter fun x => !(x.owner == owner && x.stream == stream) } ∧
    (s.dropManifest owner stream).streams = s.streams := by
  have hdrop : ((s.buddy.manifests.filter fun x => x.owner == owner && x.stream == stream).foldl
      (fun s x => s.drop x.handle) s).offRack = s.offRack :=
    offRack_foldl _ (fun (u : State) (x : Manifest) => State_drop_offRack u x.handle) _ _
  have hstreams := streams_of_offRack hdrop
  unfold State.dropManifest
  dsimp only
  rw [State.modBuddy, buddy_of_offRack hdrop]
  exact ⟨rfl, hstreams⟩

theorem exec_mirrorReleaseReceive {s : State} {rq : Nat} {x : Rx} {p : Parcel} (h : s.holdsParcel rq x) (hp : x.parcel = p)
    (htype : p.ptype = 6) (hlen : 32 ≤ p.payload.length) (hkind : bits (mirrorWord p 0) 3 0 = 6) :
    exec (.mirrorReleaseReceive rq) s = .next (((s.dropRx rq).dropManifest p.src (mirrorStream p)).modBuddy fun b =>
      { b with incoming := b.incoming.map fun m => if m.isOf p.src (mirrorStream p) then { m with released := true } else m }) := by
  subst hp
  have hexec : exec (.mirrorReleaseReceive rq) s = execMirrorReleaseReceive rq s := rfl
  rw [hexec, execMirrorReleaseReceive, onMirror_holds h htype hlen (by simp [hkind])]

/-- The leaves of owners that a manifest reaches. -/
def State.reachedAll (s : State) : List (BitVec 20 × W32) :=
  s.buddy.manifests.flatMap fun m => (s.reached m).map fun h => (m.owner, w32 h)

theorem mem_reachedAll {s : State} {e : BitVec 20 × W32} :
    e ∈ s.reachedAll ↔ ∃ m ∈ s.buddy.manifests, e.1 = m.owner ∧ ∃ h ∈ s.reached m, e.2 = w32 h := by
  simp only [State.reachedAll, List.mem_flatMap, List.mem_map]
  constructor
  · rintro ⟨m, hm, h, hh, rfl⟩
    exact ⟨m, hm, rfl, h, hh, rfl⟩
  · rintro ⟨m, hm, howner, h, hh, hhandle⟩
    exact ⟨m, hm, h, hh, by rw [← howner, ← hhandle]⟩

theorem mapSweep_spec (s : State) :
    ∃ t, exec .mirrorMapSweep s = .next t ∧
      t.buddy = { s.buddy with map := s.buddy.map.filter fun e => s.reachedAll.contains e.1 } ∧ t.streams = s.streams := by
  have hexec : exec .mirrorMapSweep s = .next (((s.buddy.map.filter fun e => !s.reachedAll.contains e.1).foldl (fun s e => s.drop e.2)
    s).modBuddy fun b => { b with map := b.map.filter fun e => s.reachedAll.contains e.1 }) := rfl
  have hdrop : ((s.buddy.map.filter fun e => !s.reachedAll.contains e.1).foldl (fun s e => s.drop e.2) s).offRack = s.offRack :=
    offRack_foldl _ (fun (u : State) (e : (BitVec 20 × W32) × Handle) => State_drop_offRack u e.2) _ _
  have hstreams := streams_of_offRack hdrop
  refine ⟨_, hexec, ?_, hstreams⟩
  rw [State.modBuddy, buddy_of_offRack hdrop]

/-! ### The roll call -/

theorem nodup_eraseDups {α : Type} [BEq α] [LawfulBEq α] (l : List α) : l.eraseDups.Nodup := by
  induction hn : l.length using Nat.strongRecOn generalizing l with
  | _ n ih =>
    cases l with
    | nil => simp
    | cons a l =>
      rw [List.eraseDups_cons, List.nodup_cons]
      refine ⟨by simp [List.mem_eraseDups], ih _ ?_ _ rfl⟩
      have := List.length_filter_le (fun b => !b == a) l
      rw [List.length_cons] at hn
      omega

/-- A parcel sent to each of a list of modules that repeats none: each counts one more. -/
theorem foldl_emit_alive (f : State → BitVec 20 → Parcel) (hdest : ∀ u a, (f u a).dest = a)
    (hfits : ∀ u a, 32 + (f u a).payload.length ≤ 0x4000000) (l : List (BitVec 20)) (hnodup : l.Nodup) (s : State) (a : BitVec 20)
    (hself : a ≠ s.addr) :
    alGet 0 a.toNat (l.foldl (fun s a => s.emitParcel (f s a)) s).fabric.alive = alGet 0 a.toNat s.fabric.alive + (if a ∈ l then 1 else 0) := by
  induction l generalizing s with
  | nil => simp
  | cons b l ih =>
    obtain ⟨hb, hl⟩ := List.nodup_cons.1 hnodup
    rw [List.foldl_cons, ih hl _ (by rw [emitParcel_addr]; exact hself)]
    by_cases hab : a = b
    · subst hab
      have hone := (emitParcel_emitted (s := s) (p := f s a) (by rw [hdest]; exact hself) (hfits s a)).alive
      rw [hdest] at hone
      rw [hone, if_neg hb, if_pos List.mem_cons_self]
      exact BitVec.add_zero _
    · have hother := emitParcel_alive_other (s := s) (p := f s b) (a := a.toNat)
        (by rw [hdest]; exact fun h => hab (BitVec.eq_of_toNat_eq h).symm)
      rw [hother]
      simp [hab]

theorem mirrorParcel_payload_length (dest : BitVec 20) (kind slot stream pos h off fmt : Nat) (start : W64) (data : List Byte) :
    (mirrorParcel dest kind slot stream pos h off fmt start data).payload.length = 32 + data.length := by
  change (wordsBytes _ ++ data).length = _
  rw [List.length_append, wordsBytes_length]
  rfl

theorem rollCall_spec (s : State) :
    ∃ t, exec .rollCall s = .next t ∧ t.buddy = s.buddy ∧ t = { s with out := t.out, fabric := t.fabric } ∧
      ∀ a ∈ s.owners, a ≠ s.addr → alGet 0 a.toNat t.fabric.alive = alGet 0 a.toNat s.fabric.alive + 1 := by
  have hexec : exec .rollCall s = .next (s.owners.foldl (fun s a => s.emitParcel (mirrorParcel a 4 0 0 0 0 0 0 (s.ownerStart a) [])) s) := rfl
  have hkeep : (s.owners.foldl (fun s a => s.emitParcel (mirrorParcel a 4 0 0 0 0 0 0 (s.ownerStart a) [])) s).offTransit = s.offTransit :=
    offTransit_foldl _ (fun _ _ => emitParcel_offTransit _ _) _ _
  refine ⟨_, hexec, buddy_of_offTransit hkeep, ?_, fun a ha hself => ?_⟩
  · generalize s.owners.foldl _ s = t at *
    have hframe := frame_of_offTransit hkeep
    rw [hframe]
  · have hnodup : s.owners.Nodup := nodup_eraseDups _
    rw [foldl_emit_alive (fun u a => mirrorParcel a 4 0 0 0 0 0 0 (u.ownerStart a) []) (fun _ _ => rfl)
      (fun u a => by rw [mirrorParcel_payload_length]; decide) _ hnodup _ _ hself, if_pos ha]

/-! ### An owner lost -/

theorem takeSingle_offRack {s : State} {part fmt : Nat} {r : Handle × State} (h : s.takeSingle part fmt = some r) : r.2.offRack = s.offRack := by
  unfold State.takeSingle at h
  split at h
  next => obtain rfl := Option.some.inj h; exact State_newLeaf_offRack _ _ _ _
  next =>
    split at h
    next =>
      obtain rfl := Option.some.inj h
      exact (State_dress_offRack _ _ _).trans (State_setQuire_offRack _ _ _)
    next =>
      split at h
      next f u hevict =>
        obtain rfl := Option.some.inj h
        exact (State_newLeaf_offRack _ _ _ _).trans (State_evictClean_offRack _ _ _ _ hevict)
      next => exact absurd h nofun

/-- A way to name a leaf that leaves everything but the leaves as it was. -/
def NamesLeaves (name : State → Nat → Option (Handle × State)) : Prop := ∀ s h r, name s h = some r → r.2.offRack = s.offRack

theorem nameMapped_names (owner : BitVec 20) : NamesLeaves (State.nameMapped owner) := by
  intro s h r hr
  obtain ⟨x, -, rfl⟩ := Option.map_eq_some_iff.1 hr
  change (s.addRef x).offRack = s.offRack
  unfold State.addRef
  split
  · rfl
  · exact State_modLeaf_offRack _ _ _

/-- Handles written over a leaf that has been taken. -/
theorem foldl_named_offRack {name : State → Nat → Option (Handle × State)} (hname : NamesLeaves name) (x : Handle) (l : List (Nat × Handle))
    (s : State) :
    (l.foldl (fun s e => match name s e.2 with
      | some (y, s) => s.patchCask x fun b => b.putWord e.1 y
      | none => s) s).offRack = s.offRack := by
  refine offRack_foldl _ (fun u e => ?_) l s
  split
  next y v hv => exact (State_patchCask_offRack _ _ _).trans (hname _ _ _ hv)
  next => rfl

theorem rebuildSpine_names (owner : BitVec 20) (part : Nat) : NamesLeaves (State.rebuildSpine owner part) := by
  intro s h r hr
  unfold State.rebuildSpine at hr
  split at hr
  next => exact absurd hr nofun
  next x u hu =>
    obtain rfl := Option.some.inj hr
    exact (foldl_named_offRack (nameMapped_names owner) _ _ _).trans ((State_modLeaf_offRack _ _ _).trans (takeSingle_offRack hu))

theorem rebuildLeaf_offRack {s : State} {owner : BitVec 20} {part fmt src lo hi : Nat} {name : State → Nat → Option (Handle × State)}
    (hname : NamesLeaves name) {r : Handle × State} (h : s.rebuildLeaf owner part fmt src lo hi name = some r) : r.2.offRack = s.offRack := by
  unfold State.rebuildLeaf at h
  split at h
  next => exact absurd h nofun
  next x u hu =>
    obtain rfl := Option.some.inj h
    exact (foldl_named_offRack hname _ _ _).trans ((State_patchCask_offRack _ _ _).trans
      ((State_modLeaf_offRack _ _ _).trans (takeSingle_offRack hu)))

/-- A restore writes an errata record, or enters the stream over leaves it has rebuilt. -/
theorem restore_cases (s : State) (m : Manifest) :
    (∃ code a b, s.restore m = s.log code a b) ∨
      ∃ (u : State) (e : Stream) (a b : W32), u.offRack = s.offRack ∧ s.restore m = (u.setStream m.stream e).attention 3 cPartner a b := by
  unfold State.restore
  dsimp only
  split
  · exact Or.inl ⟨_, _, _, rfl⟩
  · split
    next part _ _ =>
      split
      · exact Or.inl ⟨_, _, _, rfl⟩
      · split
        · exact Or.inl ⟨_, _, _, rfl⟩
        · split
          next => exact Or.inl ⟨_, _, _, rfl⟩
          next st t ht =>
            split
            next => exact Or.inl ⟨_, _, _, rfl⟩
            next root v hv =>
              refine Or.inr ⟨v.patchCask root fun b => (b.putWord 12 0).putWord 4 (b.word 4 % 65536), _, _, _, ?_, rfl⟩
              exact (State_patchCask_offRack _ _ _).trans ((rebuildLeaf_offRack (rebuildSpine_names _ _) hv).trans
                (rebuildLeaf_offRack (nameMapped_names _) ht))
    next => exact Or.inl ⟨_, _, _, rfl⟩

theorem attend_pending_kept (p : Port) (c : Nat) (code : Code) {k : Nat} (h : p.attnPending.getLsbD k = true) :
    (p.attend c code).attnPending.getLsbD k = true := by
  simp [Port.attend, h]

/-- A restore leaves the buddy and the fabric as they were, and what is pending pends. -/
theorem restore_keeps (s : State) (m : Manifest) :
    (s.restore m).buddy = s.buddy ∧ (s.restore m).fabric = s.fabric ∧
      ∀ k, s.port.attnPending.getLsbD k = true → (s.restore m).port.attnPending.getLsbD k = true := by
  rcases restore_cases s m with ⟨code, a, b, h⟩ | ⟨u, e, a, b, hu, h⟩
  · rw [h]
    exact ⟨rfl, rfl, fun _ hk => hk⟩
  · have hframe := frame_of_offRack hu
    have hport : u.port = s.port := by rw [hframe]
    have hbuddy : u.buddy = s.buddy := by rw [hframe]
    have hfabric : u.fabric = s.fabric := by rw [hframe]
    rw [h]
    exact ⟨hbuddy, hfabric, fun k hk => attend_pending_kept _ _ _ (by rw [← hport] at hk; exact hk)⟩

theorem listUnreachable_mem (s : State) (a : BitVec 20) : a ∈ (s.listUnreachable a).fabric.unreachable := by
  change a ∈ (if s.fabric.unreachable.contains a then s.fabric else _).unreachable
  split
  next h => simpa using h
  next => simp

/-- An owner declared lost is listed, with degraded attention. -/
theorem loseOwner_spec (s : State) (a : BitVec 20) :
    (s.loseOwner a).buddy = s.buddy ∧ a ∈ (s.loseOwner a).fabric.unreachable ∧ (s.loseOwner a).port.attnPending.getLsbD 2 = true := by
  have hfold : ∀ (l : List Manifest) (u : State), (l.foldl (fun s m => s.restore m) u).buddy = u.buddy ∧
      (l.foldl (fun s m => s.restore m) u).fabric = u.fabric ∧
      (u.port.attnPending.getLsbD 2 = true → (l.foldl (fun s m => s.restore m) u).port.attnPending.getLsbD 2 = true) := by
    intro l
    induction l with
    | nil => exact fun u => ⟨rfl, rfl, id⟩
    | cons m l ih =>
      intro u
      obtain ⟨hb, hf, hp⟩ := restore_keeps u m
      obtain ⟨hb', hf', hp'⟩ := ih (u.restore m)
      exact ⟨hb'.trans hb, hf'.trans hf, fun h => hp' (hp 2 h)⟩
  unfold State.loseOwner
  obtain ⟨hb, hf, hp⟩ := hfold (s.buddy.manifests.filter fun m => m.owner == a) ((s.listUnreachable a).attention 2 cPartner (w32 a.toNat) 0)
  refine ⟨hb, ?_, hp (attention_pending _ (by decide) _ _ _)⟩
  rw [hf]
  exact listUnreachable_mem s a

section
variable {s : State} {rq : Nat} {x : Rx} {p : Parcel} (h : s.holdsParcel rq x) (hp : x.parcel = p) (htype : p.ptype = 6)
  (hlen : 32 ≤ p.payload.length)
include h hp htype hlen

theorem exec_rollCallReceive (hkind : bits (mirrorWord p 0) 3 0 = 4) :
    exec (.rollCallReceive rq) s = .next ((s.dropRx rq).emitParcel (mirrorParcel p.src 5 0 0 0 0 0 0 s.ident.startId [])) := by
  subst hp
  have hexec : exec (.rollCallReceive rq) s = execRollCallReceive rq s := rfl
  rw [hexec, execRollCallReceive, onMirror_holds h htype hlen (by simp [hkind])]
  rfl

theorem exec_rollAnswerReceive (hkind : bits (mirrorWord p 0) 3 0 = 5) (howner : p.src ∈ s.owners) :
    exec (.rollAnswerReceive rq) s = .next (
      match s.buddy.startIds.find? fun e => e.1 == p.src with
      | none => (s.dropRx rq).modBuddy fun b => { b with startIds := b.startIds ++ [(p.src, mirrorStart p)] }
      | some e =>
        if e.2 == mirrorStart p then (s.dropRx rq).modFabric fun f => { f with unreachable := f.unreachable.filter (· != p.src) }
        else ((s.dropRx rq).loseOwner p.src).modBuddy fun b =>
          { b with startIds := b.startIds.map fun e => if e.1 == p.src then (p.src, mirrorStart p) else e }) := by
  subst hp
  have hexec : exec (.rollAnswerReceive rq) s = execRollAnswerReceive rq s := rfl
  have hguard : ¬ (!s.owners.contains x.parcel.src) = true := by simpa using howner
  rw [hexec, execRollAnswerReceive, onMirror_holds h htype hlen (by simp [hkind])]
  exact congrArg _ (if_neg hguard)

end

/-- An answer recorded in the place of the owner's former one. -/
theorem ownerStart_replaced {l : List (BitVec 20 × W64)} {a : BitVec 20} {id id' : W64} (h : (l.find? fun e => e.1 == a) = some (a, id)) :
    (((l.map fun e => if e.1 == a then (a, id') else e).find? fun e => e.1 == a).map (·.2)).getD 0 = id' := by
  induction l with
  | nil => exact absurd h nofun
  | cons e l ih =>
    rw [List.map_cons]
    by_cases he : e.1 = a
    · rw [if_pos (by simp [he]), List.find?_cons_of_pos (by simp)]
      rfl
    · rw [List.find?_cons_of_neg (by simp [he])] at h
      rw [if_neg (by simp [he]), List.find?_cons_of_neg (by simp [he]), ih h]

/-! ### The statement -/

/-- Settles O57: mirrors on both sides, and the roll call. -/
theorem mirrors : Obligations.Mirrors := by
  refine ⟨?_, fun s => ⟨?_, fun owner stream => ?_, ?_⟩, fun s => ⟨rollCall_spec s, ?_, fun owner howner => ?_⟩⟩
  · rintro s i e rfl
    refine ⟨fun pos b h hpos hbuddy hleaf => ?_, ?_, fun hout hleaves => ?_⟩
    · exact ⟨_, exec_mirrorLeafSent hpos hbuddy hleaf, mirrorLeafSent_streams rfl⟩
    · rintro rq x p hholds hp htype hlen rfl
      refine ⟨fun hkind hanswers => ?_, fun hkind hanswers => ?_, fun hkind hpos hbuddy => ?_⟩
      · exact ⟨_, (exec_mirrorAckReceive hholds hp htype hlen hkind).trans (congrArg _ (if_pos hanswers)), rfl⟩
      · exact ⟨_, (exec_mirrorAckReceive hholds hp htype hlen hkind).trans (congrArg _ (if_neg (by simp [hanswers]))), rfl⟩
      · exact ⟨_, exec_mirrorRefusalReceive hholds hp htype hlen hkind hpos hbuddy, failMirror_streams (s.dropRx rq) _⟩
    · have hexec : exec (.mirrorAckTimeout i) s = execMirrorAckTimeout i s := rfl
      have hguard : ((s.stream i).mirrorOut.isSome && (s.stream i).mirrorLeaves.isEmpty) = true := by
        simp [hleaves, Option.isSome_iff_ne_none.2 hout]
      rw [execMirrorAckTimeout] at hexec
      obtain ⟨hself, hother⟩ := failMirror_streams s i
      refine ⟨_, hexec.trans (congrArg _ (if_pos hguard)), ?_, hother, ?_⟩
      · rw [hself, ← hleaves]
      · unfold State.failMirror
        dsimp only
        rw [hleaves]
        rfl
  · intro rq x p part hholds hp htype hlen
    refine ⟨fun hkind hnew hpart => ?_, fun hkind hnew hpart => ?_, fun hkind => ?_⟩
    · exact ⟨_, exec_mirrorParcelReceive_leaf hholds hp htype hlen hkind hnew,
        pushMirror_piece (s := s.dropRx rq) (m := pieceMirror p) hpart rfl (piece_not_whole (l := emptyPiece p) rfl _ _) rfl hnew⟩
    · exact ⟨_, exec_mirrorParcelReceive_manifest hholds hp htype hlen hkind hnew,
        pushMirror_manifest (s := s.dropRx rq) (m := manifestMirror p) hpart rfl rfl hnew⟩
    · obtain ⟨hbuddy, hstreams⟩ := dropManifest_buddy (s.dropRx rq) p.src (mirrorStream p)
      refine ⟨_, exec_mirrorReleaseReceive hholds hp htype hlen hkind, ?_, ?_, ?_, hstreams⟩
      · intro m hm
        change m ∈ ((s.dropRx rq).dropManifest p.src (mirrorStream p)).buddy.manifests at hm
        rw [hbuddy] at hm
        have hnot := (List.mem_filter.1 hm).2
        simp only [Bool.not_eq_true', Bool.and_eq_false_iff, beq_eq_false_iff_ne] at hnot
        rintro ⟨howner, hstream⟩
        rcases hnot with hne | hne
        · exact hne howner
        · exact hne hstream
      · have hincoming : ((s.dropRx rq).dropManifest p.src (mirrorStream p)).buddy.incoming = s.buddy.incoming := by rw [hbuddy]; rfl
        exact congrArg (List.map _) hincoming
      · have hmap : ((s.dropRx rq).dropManifest p.src (mirrorStream p)).buddy.map = s.buddy.map := by rw [hbuddy]; rfl
        exact hmap
  · obtain ⟨t, hexec, hwaits⟩ := admissionTimeout_waits owner stream s
    exact ⟨t, hexec, fun m hm hof => Bool.or_eq_false_iff.1 (hwaits m hm hof)⟩
  · obtain ⟨t, hexec, hbuddy, hstreams⟩ := mapSweep_spec s
    refine ⟨t, hexec, by rw [hbuddy], fun e => ?_, hstreams⟩
    rw [hbuddy, List.mem_filter, List.contains_iff_mem, mem_reachedAll]
  · intro rq x p hholds hp htype hlen
    refine ⟨fun hkind hself => ?_, fun hkind howner hfirst => ?_, fun id hkind howner hfound => ⟨fun hsame => ?_, fun hother => ?_⟩⟩
    · refine ⟨_, exec_rollCallReceive hholds hp htype hlen hkind, ?_, emitParcel_frame _ _⟩
      have hemitted := emitParcel_emitted (s := s.dropRx rq) (p := mirrorParcel p.src 5 0 0 0 0 0 0 s.ident.startId [])
        hself (by rw [mirrorParcel_payload_length]; decide)
      exact hemitted.of_before rfl rfl
    · have hnone : (s.buddy.startIds.find? fun e => e.1 == p.src) = none := by
        rw [List.find?_eq_none]
        intro e he
        simpa using hfirst e he
      have hexec := exec_rollAnswerReceive hholds hp htype hlen hkind howner
      rw [hnone] at hexec
      exact ⟨_, hexec, rfl⟩
    · have hexec := exec_rollAnswerReceive hholds hp htype hlen hkind howner
      rw [hfound] at hexec
      exact ⟨_, hexec.trans (congrArg _ (if_pos (by simpa using hsame))), rfl⟩
    · have hexec := exec_rollAnswerReceive hholds hp htype hlen hkind howner
      rw [hfound] at hexec
      obtain ⟨hbuddy, hlisted, hattn⟩ := loseOwner_spec (s.dropRx rq) p.src
      have hmanifests : ((s.dropRx rq).loseOwner p.src).buddy.manifests = s.buddy.manifests := congrArg Buddy.manifests hbuddy
      refine ⟨_, hexec.trans (congrArg _ (if_neg (by simpa using hother))), hlisted, ?_, hmanifests, hattn⟩
      change (((((s.dropRx rq).loseOwner p.src).buddy.startIds.map _).find? _).map _).getD 0 = _
      rw [hbuddy]
      exact ownerStart_replaced hfound
  · have hexec : exec (.ownerLost owner) s = execOwnerLost owner s := rfl
    rw [execOwnerLost] at hexec
    obtain ⟨hbuddy, hlisted, hattn⟩ := loseOwner_spec s (BitVec.ofNat 20 owner)
    exact ⟨_, hexec.trans (congrArg _ (if_pos (by simpa using howner))), hlisted, hbuddy, hattn⟩

end Sys2Proof.Machine
end

section
/-! SUPPORT. Memory ports trained and restored, exits to Ready, supplies (R264 to R266, R498, R506, R533). -/

namespace Sys2Proof.Machine

/-! ### Memory ports -/

theorem State.shaped_mem {s : State} (h : s.shaped = true) : s.mem.length = 16 := by
  have := congrArg (fun l => l.getD 4 0) (State.shaped_iff.1 h)
  exact this

theorem State.shaped_fports {s : State} (h : s.shaped = true) : s.fabric.ports.length = 16 := by
  have := congrArg (fun l => l.getD 10 0) (State.shaped_iff.1 h)
  exact this

theorem memPort_modMem {s : State} {p : Nat} (f : MemPort → MemPort) (h : p < s.mem.length) : (s.modMem p f).memPort p = f (s.memPort p) :=
  modAt_getD_same _ _ _ _ h

theorem memPort_modMem_other {s : State} {p n : Nat} (f : MemPort → MemPort) (h : n ≠ p) : (s.modMem p f).memPort n = s.memPort n :=
  modAt_getD_other _ _ _ _ _ h

theorem modMem_length (s : State) (p : Nat) (f : MemPort → MemPort) : (s.modMem p f).mem.length = s.mem.length := modAt_length _ _ _

theorem memPort_exists {s : State} {p : Nat} (h : (s.memPort p).state ≠ 0) : p < s.mem.length := by
  refine Nat.lt_of_not_le fun hp => h ?_
  simp [State.memPort, List.getElem?_eq_none hp, List.getD_eq_getElem?_getD, MemPort.reset]

/-- No port trains any more. -/
theorem portsDone_iff {s : State} (h : s.mem.length = 16) : s.portsDone = true ↔ ∀ n, n < 16 → (s.memPort n).state ≠ 1 := by
  simp only [State.portsDone, List.all_eq_true, bne_iff_ne]
  constructor
  · intro hall n hn
    have hmem : s.memPort n ∈ s.mem := by
      rw [State.memPort, List.getD_eq_getElem?_getD, List.getElem?_eq_getElem (by omega)]
      exact List.getElem_mem _
    exact hall _ hmem
  · intro hall k hk
    obtain ⟨n, hn, rfl⟩ := List.mem_iff_getElem.1 hk
    have hport : s.memPort n = s.mem[n] := by rw [State.memPort, List.getD_eq_getElem?_getD, List.getElem?_eq_getElem hn]; rfl
    rw [← hport]
    exact hall n (by omega)

/-! ### Training records -/

theorem trainHead_length (port count : Nat) (dev0 dev1 : W32) (temp : BitVec 8) (pins ca : List W32) :
    (trainHead port count dev0 dev1 temp pins ca).length = 48 := by simp [trainHead, takeWords]

theorem formatWord : ∀ p < 16, bits (w32 (1 + (p <<< 16))) 15 0 = 1 ∧ bits (w32 (1 + (p <<< 16))) 19 16 = p := by decide

/-- A record as training writes it is valid for its port. -/
theorem make_valid {port : Nat} (h : port < 16) (count : Nat) (dev0 dev1 : W32) (temp : BitVec 8) (pins ca : List W32) :
    (TrainRec.make (trainHead port count dev0 dev1 temp pins ca)).valid port = true := by
  have hlen := trainHead_length port count dev0 dev1 temp pins ca
  have hfirst : wd (TrainRec.make (trainHead port count dev0 dev1 temp pins ca)).words 0 = w32 (1 + (port <<< 16)) := rfl
  generalize hhead : trainHead port count dev0 dev1 temp pins ca = head at *
  have hdigest : (trainDigest head).length = 8 := by simp [trainDigest, digestWords]
  have htake : (TrainRec.make head).head = head := by
    rw [TrainRec.head, TrainRec.make, List.append_assoc, ← hlen, List.take_left]
  have hdrop : ((TrainRec.make head).words.drop 48).take 8 = trainDigest head := by
    rw [TrainRec.make, List.append_assoc, ← hlen, List.drop_left, ← hdigest, List.take_left]
  obtain ⟨hformat, hport⟩ := formatWord port h
  rw [TrainRec.valid, hfirst, hformat, hport, htake, hdrop]
  simp

/-- A port that trains, or that has been trained: in service, its record valid. -/
def State.portTrained (s : State) (n : Nat) : Prop :=
  (s.memPort n).state = 2 ∧ ∃ x, s.nor.training.getD n none = some x ∧ x.valid n = true

/-- What training works on: sixteen ports and records. -/
def State.trainable (s : State) : Prop :=
  s.mem.length = 16 ∧ s.nor.training.length = 16 ∧ ∀ n, n < 16 → (s.memPort n).state = 1 ∨ s.portTrained n

/-- A result that brings its port into service. -/
theorem trained_spec {s : State} {r : PortTrain} (hs : s.trainable) (hok : r.ok = true) :
    (s.trained r).trainable ∧ (∀ n, n < 16 → s.portTrained n → (s.trained r).portTrained n) ∧
      (r.port < 16 → (s.trained r).portTrained r.port) ∧ (s.trained r).power = s.power := by
  obtain ⟨hmem, htraining, hports⟩ := hs
  by_cases hstate : (s.memPort r.port).state = 1
  · have hlt : r.port < 16 := by
      rw [← hmem]
      exact memPort_exists (by omega)
    obtain ⟨u, t, hu, hnor, hpower, hself, hother, hlen, hvalid⟩ : ∃ (u : State) (t : TrainRec), s.trained r = u ∧
        u.nor.training = s.nor.training.set r.port (some t) ∧ u.power = s.power ∧ (u.memPort r.port).state = 2 ∧
        (∀ n, n ≠ r.port → u.memPort n = s.memPort n) ∧ u.mem.length = 16 ∧ t.valid r.port = true := by
      refine ⟨_, _, (if_neg (by simp [hstate])).trans (if_neg (by simp [hok])), rfl, rfl, ?_, ?_, ?_, make_valid hlt _ _ _ _ _ _⟩
      · exact congrArg MemPort.state (memPort_modMem _ (by change _ < s.mem.length; omega))
      · exact fun n hn => memPort_modMem_other _ hn
      · exact (modMem_length _ _ _).trans hmem
    have hown : u.portTrained r.port := by
      refine ⟨hself, t, ?_, hvalid⟩
      rw [hnor, List.getD_eq_getElem?_getD, List.getElem?_set_self (by omega)]
      rfl
    have hkept (n : Nat) (hn : n ≠ r.port) : s.portTrained n → u.portTrained n := by
      rintro ⟨hstate', x, hx, hxvalid⟩
      refine ⟨by rw [hother n hn]; exact hstate', x, ?_, hxvalid⟩
      rw [hnor, List.getD_eq_getElem?_getD, List.getElem?_set_ne (Ne.symm hn), ← List.getD_eq_getElem?_getD]
      exact hx
    have hall (n : Nat) (h : s.portTrained n) : u.portTrained n := by
      by_cases hn : n = r.port
      · rw [hn]; exact hown
      · exact hkept n hn h
    rw [hu]
    refine ⟨⟨hlen, by rw [hnor, List.length_set, htraining], fun n hn => ?_⟩, fun n _ h => hall n h, fun _ => hown, hpower⟩
    rcases hports n hn with h | h
    · by_cases hne : n = r.port
      · rw [hne]; exact Or.inr hown
      · rw [hother n hne]; exact Or.inl h
    · exact Or.inr (hall n h)
  · have hsame : s.trained r = s := if_pos (by simp [hstate])
    rw [hsame]
    refine ⟨⟨hmem, htraining, hports⟩, fun _ _ h => h, fun hlt => ?_, rfl⟩
    rcases hports r.port hlt with h | h
    · exact absurd h hstate
    · exact h

/-- Results that bring every port they name into service. -/
theorem foldl_trained {s : State} {l : List PortTrain} (hs : s.trainable) (hok : ∀ r ∈ l, r.ok = true) :
    (l.foldl (fun s r => s.trained r) s).trainable ∧
    (∀ n, n < 16 → (∃ r ∈ l, r.port = n) → (l.foldl (fun s r => s.trained r) s).portTrained n) ∧
    (∀ n, n < 16 → s.portTrained n → (l.foldl (fun s r => s.trained r) s).portTrained n) ∧
    (l.foldl (fun s r => s.trained r) s).power = s.power := by
  induction l generalizing s with
  | nil => exact ⟨hs, fun n _ ⟨r, hr, _⟩ => absurd hr (List.not_mem_nil), fun _ _ h => h, rfl⟩
  | cons r l ih =>
    obtain ⟨hone, hkept, hown, hpower⟩ := trained_spec hs (hok r List.mem_cons_self)
    obtain ⟨hall, hnamed, hkept', hpower'⟩ := ih hone fun x hx => hok x (List.mem_cons_of_mem _ hx)
    refine ⟨hall, fun n hn ⟨x, hx, hport⟩ => ?_, fun n hn h => hkept' n hn (hkept n hn h), hpower'.trans hpower⟩
    rcases List.mem_cons.1 hx with rfl | hx
    · exact hkept' n hn (hport ▸ hown (hport ▸ hn))
    · exact hnamed n hn ⟨x, hx, hport⟩

/-! ### The end of a start -/

/-- The map laid out over sixteen ports. -/
theorem layCask_full {s : State} (h : s.portsUp.length = 16) :
    s.layCask = { s with power := { s.power with config := s.power.next }, rack := { s.rack with poolSize := poolSizeFor 16 } } := by
  unfold State.layCask
  dsimp only
  rw [h]
  rfl

theorem portsUp_full {s : State} (h : ∀ n, n < 16 → (s.memPort n).state = 2) : s.portsUp.length = 16 := by
  have hall : s.portsUp = List.range 16 := by
    rw [State.portsUp, List.filter_eq_self]
    intro n hn
    simp [h n (List.mem_range.1 hn)]
  rw [hall, List.length_range]

/-- What the end of a start leaves of power management, the rack, the memory ports and the flash. -/
theorem endStart_spec {s : State} (h : s.portsUp.length = 16) :
    s.endStart.power = { s.power with config := s.power.next, state := .ready, training := false } ∧
      s.endStart.rack = { s.rack with poolSize := poolSizeFor 16 } ∧ s.endStart.mem = s.mem ∧ s.endStart.nor = s.nor := by
  unfold State.endStart
  dsimp only
  rw [layCask_full h, recolophon_frame]
  exact ⟨rfl, rfl, rfl, rfl⟩

theorem exec_caskTrainingDone {s : State} {results : List PortTrain} (hwas : s.portsDone = false)
    (hdone : (results.foldl (fun s r => s.trained r) s).portsDone = true)
    (hconfig : (results.foldl (fun s r => s.trained r) s).power.config = 0)
    (hstate : (results.foldl (fun s r => s.trained r) s).power.state = .starting) :
    exec (.caskTrainingDone results) s = .next (results.foldl (fun s r => s.trained r) s).endStart := by
  have hexec : exec (.caskTrainingDone results) s = execCaskTrainingDone results s := rfl
  rw [hexec, execCaskTrainingDone]
  refine congrArg _ ?_
  dsimp only
  rw [hwas, hdone, if_neg (by simp), if_neg (by rw [hconfig]; decide), if_neg (by rw [hstate]; decide), if_pos hconfig]

theorem coldTraining {s : State} (hshape : s.shaped = true) {results : List PortTrain} (hstate : s.power.state = .starting)
    (hconfig : s.power.config = 0) (htraining : s.nor.training.length = 16) (hports : ∀ n, n < 16 → (s.memPort n).state = 1)
    (hok : ∀ r ∈ results, r.ok = true) (hall : ∀ n, n < 16 → ∃ r ∈ results, r.port = n) :
    ∃ t, exec (.caskTrainingDone results) s = .next t ∧ t.power.state = .ready ∧ t.power.config = s.power.next ∧
      t.power.training = false ∧ t.rack.poolSize = poolSizeFor 16 ∧
      ∀ n, n < 16 → (t.memPort n).state = 2 ∧ ∃ x, t.nor.training.getD n none = some x ∧ x.valid n = true := by
  have hmem := State.shaped_mem hshape
  obtain ⟨⟨hmem', -, -⟩, hnamed, -, hpower⟩ := foldl_trained ⟨hmem, htraining, fun n hn => Or.inl (hports n hn)⟩ hok
  have hwas : s.portsDone = false := by
    rw [← Bool.not_eq_true, portsDone_iff hmem]
    exact fun h => h 0 (by decide) (hports 0 (by decide))
  have hexec := exec_caskTrainingDone (results := results) hwas
  generalize results.foldl (fun s r => s.trained r) s = u at *
  have hup (n : Nat) (hn : n < 16) : u.portTrained n := hnamed n hn (hall n hn)
  obtain ⟨hpower', hrack, hmem'', hnor⟩ := endStart_spec (portsUp_full fun n hn => (hup n hn).1)
  refine ⟨_, hexec ((portsDone_iff hmem').2 fun n hn => by rw [(hup n hn).1]; decide) (by rw [hpower]; exact hconfig)
    (by rw [hpower]; exact hstate), by rw [hpower'], by rw [hpower', hpower], by rw [hpower'], by rw [hrack], fun n hn => ?_⟩
  rw [State.memPort, hmem'', hnor]
  exact hup n hn

/-! ### Exits -/

theorem wakePorts_fport {s : State} {p : Nat} (h : p < s.fabric.ports.length) :
    s.wakePorts.fport p = if (s.fport p).mode = 1 && !(s.fport p).noRetry then { s.fport p with state := 1 } else s.fport p := by
  simp only [State.fport, State.wakePorts, State.modFabric, List.getD_eq_getElem?_getD, List.getElem?_map,
    List.getElem?_eq_getElem h, Option.map_some, Option.getD_some]

theorem exec_exitRest {s : State} (hstate : s.power.state = .rest) (hwake : s.power.queuedWake = true) (hentry : s.power.entry = none) :
    exec .exitRest s = .next (s.wakePorts.modPower fun p => { p with state := .ready, queuedWake := false }) := by
  have hexec : exec .exitRest s = execExitRest s := rfl
  rw [hexec, execExitRest]
  exact congrArg _ (if_pos (by rw [hstate, hwake, hentry]; decide))

/-- Ports restored in turn. -/
theorem foldl_restore {s : State} {l : List Nat} {reads : List PortRead} (hmem : s.mem.length = 16)
    (hl : ∀ p ∈ l, p < 16 ∧ ∃ r, reads[p]? = some r ∧ s.restores p r = true) :
    (s.restorePorts l reads).mem.length = 16 ∧ (∀ n ∈ l, ((s.restorePorts l reads).memPort n).state = 2) ∧
    (∀ n, n ∉ l → (s.restorePorts l reads).memPort n = s.memPort n) ∧ s.restorePorts l reads = { s with mem := (s.restorePorts l reads).mem } := by
  induction l generalizing s with
  | nil => exact ⟨hmem, fun n hn => absurd hn (List.not_mem_nil), fun _ _ => rfl, rfl⟩
  | cons p l ih =>
    obtain ⟨hp, r, hr, hrestores⟩ := hl p List.mem_cons_self
    have hstep : s.restorePorts (p :: l) reads = (s.restorePort p r).restorePorts l reads := by
      rw [State.restorePorts, List.foldl_cons, hr]
      rfl
    have hlen : (s.restorePort p r).mem.length = 16 := (modMem_length _ _ _).trans hmem
    have hself : ((s.restorePort p r).memPort p).state = 2 := by
      refine (congrArg MemPort.state (memPort_modMem _ (by omega))).trans ?_
      exact if_pos hrestores
    have hother (n : Nat) (hn : n ≠ p) : (s.restorePort p r).memPort n = s.memPort n := memPort_modMem_other _ hn
    obtain ⟨hlen', hin, hout, hframe⟩ := ih hlen fun x hx => hl x (List.mem_cons_of_mem _ hx)
    rw [hstep]
    refine ⟨hlen', fun n hn => ?_, fun n hn => ?_, by rw [hframe]; rfl⟩
    · by_cases hnl : n ∈ l
      · exact hin n hnl
      · obtain rfl := (List.mem_cons.1 hn).resolve_right hnl
        rw [hout n hnl]
        exact hself
    · rw [hout n fun h => hn (List.mem_cons_of_mem _ h), hother n fun h => hn (h ▸ List.mem_cons_self)]

/-- The state without the core stores. -/
def State.offTables (s : State) : State := { s with coreMem := Bytes.blank, coreLines := [] }

theorem loadTables_offTables (s : State) (core : Nat) : (s.loadTables core).offTables = s.offTables := by
  unfold State.loadTables
  generalize s.plans = l
  induction l generalizing s with
  | nil => rfl
  | cons p l ih =>
    rw [List.foldl_cons, ih]
    split <;> rfl

theorem foldl_loadTables_frame (l : List Nat) (s : State) :
    l.foldl (fun s c => s.loadTables c) s =
      { s with coreMem := (l.foldl (fun s c => s.loadTables c) s).coreMem, coreLines := (l.foldl (fun s c => s.loadTables c) s).coreLines } := by
  have hkeep : (l.foldl (fun s c => s.loadTables c) s).offTables = s.offTables := by
    induction l generalizing s with
    | nil => rfl
    | cons c l ih => exact (ih _).trans (loadTables_offTables s c)
  generalize l.foldl (fun s c => s.loadTables c) s = t at *
  calc t = { t.offTables with coreMem := t.coreMem, coreLines := t.coreLines } := rfl
    _ = _ := by rw [hkeep]; rfl

/-- The module out of Dormant, its ports restored, before power management goes on. -/
def State.leftDormant (s : State) (reads : List PortRead) : State :=
  let u := (s.dormantRegs.wakePorts).restorePorts ((List.range 16).filter fun p => (s.memPort p).state == 0) reads
  let u := (List.range 64).foldl (fun s c => s.loadTables c) u
  ((u.rack.leaves.filter fun e => e.2.tierPinned).map (·.1)).foldl (fun s h => s.promote h) u

theorem exec_exitDormant {s : State} {reads : List PortRead} (hstate : s.power.state = .dormant) (hwake : s.power.queuedWake = true)
    (hentry : s.power.entry = none) :
    exec (.exitDormant reads) s = .next ((s.leftDormant reads).modPower fun p => { p with
      state := if (s.leftDormant reads).portsDone then .ready else .starting, training := !(s.leftDormant reads).portsDone
      queuedWake := false }) := by
  have hexec : exec (.exitDormant reads) s = execExitDormant reads s := rfl
  rw [hexec, execExitDormant]
  exact congrArg _ (if_pos (by rw [hstate, hwake, hentry]; decide))

/-- What an exit from Dormant keeps, the registers that return to their reset values aside. -/
theorem leftDormant_frame (s : State) (reads : List PortRead) {v : State}
    (hv : (s.dormantRegs.wakePorts).restorePorts ((List.range 16).filter fun p => (s.memPort p).state == 0) reads = v) :
    (s.leftDormant reads).mem = v.mem ∧ (s.leftDormant reads).cores = v.cores ∧ (s.leftDormant reads).port = v.port ∧
      (s.leftDormant reads).streams = v.streams ∧ (s.leftDormant reads).reqs = v.reqs ∧ (s.leftDormant reads).time = v.time ∧
      (s.leftDormant reads).nor = v.nor := by
  unfold State.leftDormant
  dsimp only
  rw [hv]
  have hloaded := foldl_loadTables_frame (List.range 64) v
  generalize (List.range 64).foldl (fun s c => s.loadTables c) v = u at *
  have hkeep : (((u.rack.leaves.filter fun e => e.2.tierPinned).map (·.1)).foldl (fun s h => s.promote h) u).offRack = u.offRack :=
    offRack_foldl _ State_promote_offRack _ _
  rw [frame_of_offRack hkeep, hloaded]
  exact ⟨rfl, rfl, rfl, rfl, rfl, rfl, rfl⟩

theorem getD_map_const {α : Type} (l : List α) (x : α) (n : Nat) : (l.map fun _ => x).getD n x = x := by
  rw [List.getD_eq_getElem?_getD, List.getElem?_map]
  cases l[n]? <;> rfl

/-- The registers that an exit from Dormant returns to their reset values, and what stays. -/
theorem dormantRegs_spec (s : State) :
    s.dormantRegs.wakePorts.cores = s.cores.map (fun _ => CoreSt.reset) ∧
      s.dormantRegs.wakePorts.port.queues = s.port.queues.map (fun _ => Queue.reset) ∧ s.dormantRegs.wakePorts.streams = s.streams ∧
      s.dormantRegs.wakePorts.reqs = s.reqs ∧ s.dormantRegs.wakePorts.time.tsy = s.time.tsy ∧ s.dormantRegs.wakePorts.nor = s.nor ∧
      s.dormantRegs.wakePorts.mem.length = s.mem.length ∧ ∀ n, (s.dormantRegs.wakePorts.memPort n).state = (s.memPort n).state := by
  refine ⟨rfl, rfl, rfl, rfl, rfl, rfl, List.length_map _, fun n => ?_⟩
  simp only [State.memPort, State.wakePorts, State.modFabric, State.dormantRegs, List.getD_eq_getElem?_getD, List.getElem?_map]
  cases s.mem[n]? <;> rfl

/-- The module out of Dormant where every port restores. -/
theorem leftDormant_spec {s : State} (hmem : s.mem.length = 16) {reads : List PortRead} (hnone : ∀ n, n < 16 → (s.memPort n).state ≠ 1)
    (hrestores : ∀ n, n < 16 → (s.memPort n).state = 0 → ∃ r, reads[n]? = some r ∧ s.restores n r = true) :
    (s.leftDormant reads).portsDone = true ∧ (∀ n, n < 16 → (s.memPort n).state = 0 → ((s.leftDormant reads).memPort n).state = 2) ∧
      (s.leftDormant reads).cores = s.cores.map (fun _ => CoreSt.reset) ∧
      (s.leftDormant reads).port.queues = s.port.queues.map (fun _ => Queue.reset) ∧ (s.leftDormant reads).streams = s.streams ∧
      (s.leftDormant reads).reqs = s.reqs ∧ (s.leftDormant reads).time.tsy = s.time.tsy ∧ (s.leftDormant reads).nor = s.nor := by
  obtain ⟨hcores, hqueues, hstreams, hreqs, htsy, hnor, hlen, hregs⟩ := dormantRegs_spec s
  have hrestores' : ∀ n, n < 16 → (s.memPort n).state = 0 → ∃ r, reads[n]? = some r ∧ s.dormantRegs.wakePorts.restores n r = true := by
    intro n hn hzero
    obtain ⟨r, hr, hok⟩ := hrestores n hn hzero
    exact ⟨r, hr, by rw [State.restores, hnor, ← State.restores]; exact hok⟩
  have hin (p : Nat) : p ∈ ((List.range 16).filter fun p => (s.memPort p).state == 0) ↔ p < 16 ∧ (s.memPort p).state = 0 := by
    simp
  have hleft := leftDormant_frame s reads rfl
  generalize s.dormantRegs.wakePorts = w at *
  obtain ⟨hlen', hup, hkept, hframe⟩ := foldl_restore (s := w) (reads := reads)
    (l := (List.range 16).filter fun p => (s.memPort p).state == 0) (hlen.trans hmem)
    (fun p hp => ⟨((hin p).1 hp).1, hrestores' p ((hin p).1 hp).1 ((hin p).1 hp).2⟩)
  generalize w.restorePorts ((List.range 16).filter fun p => (s.memPort p).state == 0) reads = v at *
  obtain ⟨hmemv, hcoresv, hportv, hstreamsv, hreqsv, htimev, hnorv⟩ := hleft
  generalize s.leftDormant reads = t at *
  have hport_eq (n : Nat) : t.memPort n = v.memPort n := by rw [State.memPort, State.memPort, hmemv]
  refine ⟨?_, fun n hn hzero => ?_, ?_, ?_, ?_, ?_, ?_, ?_⟩
  · rw [portsDone_iff (by rw [hmemv]; exact hlen')]
    intro n hn
    rw [hport_eq]
    by_cases hzero : (s.memPort n).state = 0
    · rw [hup n ((hin n).2 ⟨hn, hzero⟩)]; decide
    · rw [hkept n fun h => hzero ((hin n).1 h).2, hregs]; exact hnone n hn
  · rw [hport_eq]
    exact hup n ((hin n).2 ⟨hn, hzero⟩)
  · rw [hcoresv, hframe, ← hcores]
  · rw [hportv, hframe, ← hqueues]
  · rw [hstreamsv, hframe, ← hstreams]
  · rw [hreqsv, hframe, ← hreqs]
  · rw [htimev, hframe, ← htsy]
  · rw [hnorv, hframe, ← hnor]

/-- An exit from Dormant of which every port restores. -/
theorem exitDormant_ready {s : State} (hshape : s.shaped = true) {reads : List PortRead} (hstate : s.power.state = .dormant)
    (hwake : s.power.queuedWake = true) (hentry : s.power.entry = none) (hnone : ∀ n, n < 16 → (s.memPort n).state ≠ 1)
    (hrestores : ∀ n, n < 16 → (s.memPort n).state = 0 → ∃ r, reads[n]? = some r ∧ s.restores n r = true) :
    ∃ t, exec (.exitDormant reads) s = .next t ∧ t.power.state = .ready ∧ t.power.queuedWake = false ∧
      (∀ n, n < 16 → (s.memPort n).state = 0 → (t.memPort n).state = 2) ∧ (∀ x ∈ t.cores, x.serial = 0) ∧
      (∀ n, n < 16 → t.queue n = Queue.reset) ∧ t.streams = s.streams ∧ t.reqs = s.reqs ∧ t.time.tsy = s.time.tsy ∧ t.nor = s.nor := by
  obtain ⟨hdone, hup, hcores, hqueues, hstreams, hreqs, htsy, hnor⟩ := leftDormant_spec (State.shaped_mem hshape) hnone hrestores
  have hexec := exec_exitDormant (reads := reads) hstate hwake hentry
  generalize s.leftDormant reads = u at *
  refine ⟨_, hexec, if_pos hdone, rfl, hup, ?_, fun n _ => ?_, hstreams, hreqs, htsy, hnor⟩
  · intro x hx
    change x ∈ u.cores at hx
    rw [hcores] at hx
    obtain ⟨-, -, rfl⟩ := List.mem_map.1 hx
    rfl
  · change u.port.queues.getD n Queue.reset = _
    rw [hqueues]
    exact getD_map_const _ _ _

/-! ### Supplies -/

/-- What power removed without warning leaves. -/
theorem unplanned_spec (s : State) :
    s.unplanned.power.state = (if s.board.auxOk then .standby else .off) ∧ s.unplanned.power.cold = true ∧
      s.unplanned.coreMem = Bytes.blank ∧ s.unplanned.sectMem = Bytes.blank ∧ s.unplanned.caskRaw = Bytes.blank ∧
      s.unplanned.malt.lpddr = Bytes.blank ∧ s.unplanned.streams = [] ∧ s.unplanned.reqs = [] ∧ s.unplanned.cmds = [] ∧
      s.unplanned.port.started = [] ∧ (∀ f ∈ s.unplanned.cellar.frames, f.2.programmed = true) ∧ s.unplanned.nor = s.nor ∧
      s.unplanned.errata.ring = s.errata.ring ∧ s.unplanned.out = s.out ∧ s.unplanned.draws = s.draws ∧
      s.unplanned.board.trip = s.board.trip ∧ s.unplanned.board.v54Ok = s.board.v54Ok := by
  refine ⟨rfl, rfl, rfl, rfl, rfl, rfl, rfl, rfl, rfl, rfl, ?_, rfl, rfl, rfl, rfl, rfl, rfl⟩
  intro f hf
  obtain ⟨g, hg, rfl⟩ := List.mem_map.1 hf
  exact (List.mem_filter.1 hg).2

theorem exec_inputLost {s : State} {i : Instr} (hi : i = .undervoltage ∨ i = .overvoltage) (h : s.board.v54Ok = true) :
    exec i s = .next ({ s with board := { s.board with v54Ok := false } } : State).unplanned := by
  have hexec : exec i s = .next s.inputLost := by rcases hi with rfl | rfl <;> rfl
  rw [hexec]
  exact congrArg _ (if_pos h)

theorem exec_thermalTrip {s : State} (h : s.power.state ≠ .standby ∧ s.power.state ≠ .off) :
    exec .thermalTrip s = .next { s.unplanned with board := { s.unplanned.board with trip := true, tripUnlogged := true } } := by
  have hexec : exec .thermalTrip s = execThermalTrip s := rfl
  rw [hexec, execThermalTrip]
  exact congrArg _ (if_neg (by simp [h.1, h.2]))

/-- Settles O42: exits to Ready and supplies. -/
theorem exitsAndSupplies : Obligations.ExitsAndSupplies := by
  refine ⟨fun s hshape => ⟨fun results hstate hconfig htraining hports hok hall => coldTraining hshape hstate hconfig htraining hports hok hall,
      fun hstate hwake hentry => ?_, fun reads hstate hwake hentry hnone hrestores => exitDormant_ready hshape hstate hwake hentry hnone hrestores⟩,
    fun s => ⟨fun haux hin hstate => ?_, fun i hi htrip hother => ?_, fun straps haux => ?_, fun haux => ?_⟩⟩
  · refine ⟨_, exec_exitRest hstate hwake hentry, rfl, fun p hmode hretry hp => ?_, rfl⟩
    exact (wakePorts_fport (by rw [State.shaped_fports hshape]; exact hp)).trans (if_pos (by simp [hmode, hretry]))
  · have hexec : exec .supplyTurnOn s = execSupplyTurnOn s := rfl
    rw [execSupplyTurnOn] at hexec
    exact ⟨_, hexec.trans (congrArg _ (if_pos (by rw [haux, hin, hstate]; decide))), rfl⟩
  · rcases Classical.em (i = .thermalTrip) with rfl | hne
    · obtain ⟨hp, hcold, hcore, hsect, hcask, hlpddr, hstreams, hreqs, hcmds, hstarted, hframes, hnor, hring, hout, hdraws, -, hv54⟩ := unplanned_spec s
      refine ⟨_, exec_thermalTrip (htrip rfl), hp, hcold, hcore, hsect, hcask, hlpddr, hstreams, hreqs, hcmds, hstarted, hframes, hnor, hring,
        hout, hdraws, ?_, ?_⟩
      · simp
      · simpa using hv54
    · have hin : i = .undervoltage ∨ i = .overvoltage := by simpa [hne] using hi
      obtain ⟨hp, hcold, hcore, hsect, hcask, hlpddr, hstreams, hreqs, hcmds, hstarted, hframes, hnor, hring, hout, hdraws, htrip', hv54⟩ :=
        unplanned_spec { s with board := { s.board with v54Ok := false } }
      refine ⟨_, exec_inputLost hin (hother hne), hp, hcold, hcore, hsect, hcask, hlpddr, hstreams, hreqs, hcmds, hstarted, hframes, hnor, hring,
        hout, hdraws, ?_, ?_⟩
      · rw [htrip']; simp [hne]
      · rw [hv54]; simp [hne]
  · have hexec : exec (.auxPowerApplied straps) s = execAuxPowerApplied straps s := rfl
    rw [execAuxPowerApplied, if_neg (by simp [haux])] at hexec
    by_cases hoff : s.power.state = .off
    · rw [if_pos (by rw [hoff]; decide)] at hexec
      refine ⟨_, hexec, rfl, rfl, rfl, ?_, rfl⟩
      rw [if_pos hoff]
      rfl
    · rw [if_neg (by simpa using hoff)] at hexec
      refine ⟨_, hexec, rfl, rfl, rfl, ?_, rfl⟩
      rw [if_neg hoff]
  · have hexec : exec .auxPowerLost s = execAuxPowerLost s := rfl
    rw [execAuxPowerLost, if_neg (by simp [haux])] at hexec
    by_cases hstandby : s.power.state = .standby
    · have hnext := hexec.trans (congrArg _ (if_pos (by change (s.power.state == .standby) = true; rw [hstandby]; rfl)))
      exact ⟨_, hnext, rfl, rfl, rfl, fun _ => ⟨rfl, rfl, rfl, rfl⟩, fun h => absurd hstandby h, rfl⟩
    · have hnext := hexec.trans (congrArg _ (if_neg (by change ¬ (s.power.state == .standby) = true; simpa using hstandby)))
      exact ⟨_, hnext, rfl, rfl, rfl, fun h => absurd h hstandby, fun _ => ⟨rfl, attention_pending _ (by decide) _ _ _⟩, rfl⟩

end Sys2Proof.Machine
end

section
/-! SUPPORT. What ends of work say and leave: what has left the module stays first, ended commands stay ended, ports keep their state. -/

namespace Sys2Proof.Machine

/-- From s to t more may have left the module, commands may have ended but none started, and every port kept its STATE. -/
structure Speaks (s t : State) : Prop where
  out : s.out <+: t.out
  started : ∀ q tag, s.started? q tag = none → t.started? q tag = none
  states : ∀ p, (t.fport p).state = (s.fport p).state

theorem Speaks.refl (s : State) : Speaks s s := ⟨List.prefix_refl _, fun _ _ h => h, fun _ => rfl⟩

theorem Speaks.trans {s t u : State} (h : Speaks s t) (k : Speaks t u) : Speaks s u :=
  ⟨h.out.trans k.out, fun q tag hn => k.started q tag (h.started q tag hn), fun p => (k.states p).trans (h.states p)⟩

theorem Speaks.foldl {α : Type} (g : State → α → State) (h : ∀ s x, Speaks s (g s x)) (l : List α) (s : State) : Speaks s (l.foldl g s) := by
  induction l generalizing s with
  | nil => exact .refl s
  | cons a l ih => exact (h s a).trans (ih _)

/-- What is said, and to whom. -/
def State.voice (s : State) : List Out × List Started × List FPort := (s.out, s.port.started, s.fabric.ports)

theorem Speaks.of_voice {s t : State} (h : t.voice = s.voice) : Speaks s t := by
  have hout : t.out = s.out := congrArg Prod.fst h
  have hstarted : t.port.started = s.port.started := congrArg (fun v => v.2.1) h
  have hports : t.fabric.ports = s.fabric.ports := congrArg (fun v => v.2.2) h
  refine ⟨⟨[], by rw [hout, List.append_nil]⟩, fun q tag hn => ?_, fun p => ?_⟩
  · rw [State.started?, hstarted]; exact hn
  · rw [State.fport, State.fport, hports]

theorem voice_of_offRack {s t : State} (h : t.offRack = s.offRack) : t.voice = s.voice := by rw [frame_of_offRack h]; rfl

/-! ### Completions -/

theorem complete_speaks (s : State) (q tag : Nat) (code : Code) (r0 r1 : W32) : Speaks s (s.complete q tag code r0 r1) := by
  unfold State.complete
  dsimp only
  split
  · exact ⟨List.prefix_append _ _, fun _ _ h => h, fun _ => rfl⟩
  · exact .of_voice rfl

theorem endSession_voice (s : State) (q : Nat) : (s.endSession q).voice = s.voice := by
  unfold State.endSession
  dsimp only
  split <;> rfl

theorem settleDrain_voice (s : State) (q : Nat) : (s.settleDrain q).voice = s.voice := by
  unfold State.settleDrain
  dsimp only
  split
  · exact endSession_voice s q
  · rfl

theorem left_speaks (s : State) (q tag : Nat) (c : Started) : Speaks s (s.left q tag c) := by
  refine ⟨List.prefix_refl _, fun p t hn => ?_, fun _ => rfl⟩
  have hnone : ((s.port.leave q tag c.chan).started.find? fun u => u.q == p && u.tag == t) = none := by
    rw [List.find?_eq_none]
    intro u hu
    exact List.find?_eq_none.1 hn u (List.mem_filter.1 hu).1
  have harmed := armBuffers_find (s.port.leave q tag c.chan) p t
  rw [hnone] at harmed
  rwa [Option.isSome_none, Option.isSome_eq_false_iff, Option.isNone_iff_eq_none] at harmed

theorem finish_speaks (s : State) (q tag : Nat) (code : Code) (r0 r1 : W32) : Speaks s (s.finish q tag code r0 r1) := by
  unfold State.finish
  split
  · exact .refl s
  next c _ =>
    refine (left_speaks s q tag c).trans ?_
    dsimp only
    split
    · exact .of_voice (settleDrain_voice _ _)
    · exact (complete_speaks _ _ _ _ _ _).trans (.of_voice (settleDrain_voice _ _))

theorem abortChannel_speaks (s : State) (e c : Nat) (ch : Channel) : Speaks s (s.abortChannel e c ch) := by
  unfold State.abortChannel
  dsimp only
  refine Speaks.trans ?_ (finish_speaks _ _ _ _ _ _)
  exact .of_voice rfl

theorem disableQueue_speaks (s : State) (q : Nat) : Speaks s (s.disableQueue q) := by
  have hdiscard : Speaks s { s with port := { s.port with
      started := s.port.started.map fun t => if t.q == q then { t with discard := true } else t } } := by
    refine ⟨List.prefix_refl _, fun p tag hn => ?_, fun _ => rfl⟩
    refine List.find?_eq_none.2 fun u hu => ?_
    obtain ⟨v, hv, rfl⟩ := List.mem_map.1 hu
    have hnot := List.find?_eq_none.1 hn v hv
    split <;> exact hnot
  unfold State.disableQueue
  dsimp only
  refine hdiscard.trans ?_
  split
  · exact .of_voice rfl
  · exact Speaks.trans (.of_voice rfl) (.of_voice (settleDrain_voice _ _))

/-! ### Ended requests -/

theorem dropAt_speaks (s : State) (p : Nat) : Speaks s (s.dropAt p) :=
  ⟨List.prefix_refl _, fun _ _ h => h, fun n => fport_keeps FPort.state (by intro _; rfl) s p n⟩

theorem sendReply_speaks (s : State) (c : Ctxt) (stream : Nat) (st : Stream) (code : Code) (final : Bool) (data : List Byte) :
    Speaks s (s.sendReply c stream st code final data) := by
  refine Speaks.foldl _ (fun u x => ?_) _ _
  split
  · exact dropAt_speaks u _
  · exact ⟨List.prefix_append _ _, fun _ _ h => h, fun _ => rfl⟩

theorem endReq_speaks (s : State) (k : Nat) (code : Code) (data : List Byte) : Speaks s (s.endReq k code data) := by
  have hserve (u : State) (r : Req) (st : Stream) : (u.serveAfter k r st).voice = u.voice := by
    unfold State.serveAfter
    dsimp only
    split
    · split <;> rfl
    · rfl
  have hreply (u : State) (r : Req) (st : Stream) : Speaks u (u.replyEnd r st code data) := by
    unfold State.replyEnd
    split
    · exact (sendReply_speaks u _ _ _ _ _ _).trans (.of_voice rfl)
    · exact .refl u
  have hanswer (u : State) (r : Req) (st : Stream) : Speaks u (u.answerEnd r st code) := by
    unfold State.answerEnd
    split
    · exact finish_speaks _ _ _ _ _ _
    · exact .refl u
  cases h : (s.req k).open_ with
  | false => rw [endReq_closed h]; exact .refl s
  | true =>
    rw [endReq_open h]
    refine Speaks.trans ?_ (.of_voice (hserve _ _ _))
    refine Speaks.trans ?_ (hanswer _ _ _)
    refine Speaks.trans ?_ (hreply _ _ _)
    exact .of_voice rfl

theorem endRequests_speaks (s : State) (code : Code) : Speaks s (s.endRequests code) := by
  unfold State.endRequests
  dsimp only
  refine Speaks.trans ?_ (Speaks.foldl _ (fun u c => ?_) _ _)
  · exact Speaks.foldl _ (fun u k => endReq_speaks u k code []) _ _
  · unfold State.replyCode
    exact (sendReply_speaks u c _ _ _ _ _).trans (.of_voice rfl)

/-! ### Kills -/

theorem passOff_voice (s : State) (k : Nat) : (s.passOff k).voice = s.voice := by
  unfold State.passOff
  split <;> rfl

theorem undo_voice (s : State) (c : Cmd) : (s.undo c).voice = s.voice := by
  have hrack (u : State) : (((u.unpinAll c.pins).giveBackAll c.taken).dropGrants c.shape.rows).offRack = u.offRack := by
    simp [State.unpinAll]
  have huntake (u : State) : (u.untake c.id).voice = u.voice := rfl
  unfold State.undo
  dsimp only
  rw [huntake, voice_of_offRack (hrack _)]
  split
  · exact foldl_keeps State.voice (fun s k => s.stopArray c k) (fun u k => passOff_voice u k) _ _
  · rfl

theorem killFinal_voice (s : State) (c : Cmd) (code : Code) : (s.killFinal c code).voice = s.voice := by
  have hlog (u : State) (arr : Nat) : (u.logEnd c code arr false).voice = u.voice := rfl
  unfold State.killFinal
  dsimp only
  rw [hlog, undo_voice]
  rfl

theorem endRerun_speaks (s : State) (c : Cmd) (code : Code) (arr : Nat) (refused : Bool) : Speaks s (s.endRerun c code arr refused) := by
  unfold State.endRerun
  split
  · exact finish_speaks _ _ _ _ _ _
  · exact .refl s

theorem killAll_speaks (s : State) (code : Code) : Speaks s (s.killAll code) := by
  have hrunning : s.killRunning.voice = s.voice := by
    refine foldl_keeps State.voice (fun (s : State) (c : Cmd) => if c.phase == .placed then s else s.killFinal c cRerun) (fun u c => ?_) _ _
    split
    · rfl
    · exact killFinal_voice u c cRerun
  have hkilled : Speaks s { s.killRunning with cmds := [] } := .of_voice hrunning
  refine (((hkilled.trans (Speaks.foldl _ (fun u c => endRerun_speaks u c cRerun 0 true) _ _)).trans
    (Speaks.foldl _ (fun u x => finish_speaks u _ _ _ _ _) _ _)).trans (Speaks.foldl _ (fun u x => ?_) _ _)).trans (.of_voice rfl)
  split
  · exact finish_speaks _ _ _ _ _ _
  · exact .refl u

theorem closeWindow_voice (s : State) (role pair : Nat) : (s.closeWindow role pair).voice = s.voice := by
  unfold State.closeWindow
  split <;> rfl

theorem stopAll_speaks (s : State) : Speaks s s.stopAll := by
  have hempty (u : State) : Speaks u { u with port := { u.port with started := [] } } :=
    ⟨List.prefix_refl _, fun _ _ _ => rfl, fun _ => rfl⟩
  have habort (u : State) : Speaks u u.abortDma := by
    refine .foldl _ (fun u x => ?_) _ _
    dsimp only
    split
    · exact .refl u
    · exact abortChannel_speaks u _ _ _
  unfold State.stopAll
  dsimp only
  refine Speaks.trans ?_ (.of_voice (closeWindow_voice _ _ _))
  refine Speaks.trans ?_ (Speaks.foldl _ disableQueue_speaks _ _)
  refine Speaks.trans ?_ (hempty _)
  refine Speaks.trans ?_ (habort _)
  exact ((killAll_speaks s cStale).trans (endRequests_speaks _ cStale)).trans (.of_voice rfl)

/-! ### The capability table recomputed -/

theorem refit_speaks (s : State) (j : Nat) : Speaks s (s.refit j) := by
  unfold State.refit
  split
  · exact .refl s
  · dsimp only
    split
    · exact .of_voice rfl
    · refine Speaks.trans ?_ (Speaks.foldl _ (fun u k => endReq_speaks u k cOverflow []) _ _)
      exact .of_voice rfl

theorem recolophon_voice (s : State) : s.recolophon.voice = s.voice := by rw [recolophon_frame]; rfl

theorem recapAs_speaks (s : State) (quiet : Bool) (code : Code) : Speaks s (s.recapAs quiet code) := by
  unfold State.recapAs
  dsimp only
  split
  · exact .of_voice rfl
  · refine Speaks.trans ?_ (.of_voice (recolophon_voice _))
    refine Speaks.trans ?_ (Speaks.foldl _ refit_speaks _ _)
    split <;> exact .of_voice rfl

/-- A table whose words 1 to 8 do not change is written again alone. -/
theorem recapAs_same {s : State} (h : s.capNow.drop 1 = (s.cap.take 9).drop 1) (quiet : Bool) (code : Code) :
    s.recapAs quiet code = { s with cap := capWords s.capNow s.capSerial } := if_pos h

end Sys2Proof.Machine
end

section
/-! SUPPORT. Entries to the lower power states (R495 to R497). -/

namespace Sys2Proof.Machine

/-! ### POWER_SET -/

theorem powerSet_commandAt {s : State} {q tag : Nat} {c : Started} (h : s.commandAt q tag 0x41 c) (hmay : s.mayEnter = true) {n : Nat}
    (harg : bits (c.arg 1) 2 0 = n) (denied : Started → Bool) (short : Bool) :
    s.powerSet q tag n denied short =
      (if denied c then s.finish q tag cRole 0 0
      else if short then s.finish q tag cOverflow (w32 (if s.power.state == .run then 0 else 1)) 0
      else (s.modStarted q tag fun t => { t with begun := true }).modPower fun p => { p with
        entry := some (n, some (q, tag)), wakeAt := c.arg 3 ++ c.arg 2 }) := by
  rw [State.powerSet, onStarted_commandAt h _ _ (by rw [harg, hmay]; simp)]

/-- A POWER_SET that is neither denied nor short begins an entry. -/
theorem powerSet_begins {s t : State} {q tag n : Nat} {c : Started} (h : s.commandAt q tag 0x41 c)
    (ht : t = (s.modStarted q tag fun t => { t with begun := true }).modPower fun p => { p with
      entry := some (n, some (q, tag)), wakeAt := c.arg 3 ++ c.arg 2 }) :
    t.power = { s.power with entry := some (n, some (q, tag)), wakeAt := c.arg 3 ++ c.arg 2 } ∧
      t.started? q tag = some { c with begun := true } ∧ t = { s with power := t.power, port := { s.port with started := t.port.started } } := by
  obtain ⟨hstarted, -⟩ := h
  subst ht
  exact ⟨rfl, started?_modStarted (fun t => { t with begun := true }) (fun _ => ⟨rfl, rfl⟩) hstarted, rfl⟩

/-- The three forms of POWER_SET that begin an entry, with what denies them and what they lack. -/
theorem exec_powerSet (s : State) (q tag : Nat) :
    exec (.powerSetRest q tag) s = .next (s.powerSet q tag 2 (fun _ => false) false) ∧
    exec (.powerSetDormant q tag) s = .next (s.powerSet q tag 3 (fun t => t.role == 1 && !(s.sys 53).getLsbD 16) false) ∧
    exec (.powerSetStandby q tag) s = .next (s.powerSet q tag 4 (fun t => t.role == 1 && !(s.sys 53).getLsbD 17) (!s.board.auxOk)) :=
  ⟨rfl, rfl, rfl⟩

/-- One of the three forms, what denies it, and what it lacks. -/
theorem exec_powerSetForm {s : State} {q tag : Nat} {c : Started} {x : Instr × Nat}
    (hx : x ∈ [(Instr.powerSetRest q tag, 2), (.powerSetDormant q tag, 3), (.powerSetStandby q tag, 4)])
    (h : s.commandAt q tag 0x41 c) (hmay : s.mayEnter = true) (harg : bits (c.arg 1) 2 0 = x.2) :
    exec x.1 s = .next (
      if x.2 ≠ 2 ∧ c.role = 1 ∧ (s.sys 53).getLsbD (x.2 + 13) = false then s.finish q tag cRole 0 0
      else if x.2 = 4 ∧ s.board.auxOk = false then s.finish q tag cOverflow (w32 (if s.power.state == .run then 0 else 1)) 0
      else (s.modStarted q tag fun t => { t with begun := true }).modPower fun p => { p with
        entry := some (x.2, some (q, tag)), wakeAt := c.arg 3 ++ c.arg 2 }) := by
  obtain ⟨hrest, hdormant, hstandby⟩ := exec_powerSet s q tag
  simp only [List.mem_cons, List.not_mem_nil, or_false] at hx
  rcases hx with rfl | rfl | rfl
  · rw [hrest, powerSet_commandAt h hmay harg]
    simp
  · rw [hdormant, powerSet_commandAt h hmay harg]
    simp
  · rw [hstandby, powerSet_commandAt h hmay harg]
    simp

theorem exec_autoRest {s : State} (hmay : s.mayEnter = true) (hstate : s.power.state = .ready) (hafter : bits (s.sys 53) 15 0 ≠ 0) :
    exec .autoRest s = .next (s.modPower fun p => { p with entry := some (2, none), wakeAt := 0 }) := by
  have hexec : exec .autoRest s = execAutoRest s := rfl
  rw [hexec, execAutoRest]
  exact congrArg _ (if_pos (by simp [hmay, hstate, hafter]))

/-! ### The end of an entry -/

theorem Answered.of_port {s u t : State} {q tag : Nat} {k : Queue} {data : List Out} {code : Code} {r0 r1 : W32}
    (h : Answered s u q tag k data code r0 r1) (hout : t.out = u.out) (hport : t.port = u.port) : Answered s t q tag k data code r0 r1 := by
  obtain ⟨hgone, hsent, hpair, hpairs⟩ := h
  refine ⟨?_, by rw [hout, hport]; exact hsent, ?_, fun p hp => ?_⟩
  · rw [State.started?, hport]; exact hgone
  · rw [State.queue, hport]; exact hpair
  · rw [State.queue, hport]; exact hpairs p hp

theorem endEntry_eq {s : State} {n q tag : Nat} (h : s.power.entry = some (n, some (q, tag))) (code : Code) (state : Nat) :
    s.endEntry code state = s.finish q tag code (w32 state) 0 := by
  rw [State.endEntry, h]

/-- A state that a completion has left, by what the completion may change. -/
theorem answer_form {s f : State} (h : f = { s with out := f.out, port := s.portOf f }) :
    ∃ out queues started engines, f = { s with
      out := out, port := { s.port with queues := queues, started := started, engines := engines } } :=
  ⟨f.out, f.port.queues, f.port.started, f.port.engines, h⟩

/-- The command that asked for an entry completes; more may leave the module after its completion. -/
structure EntryAnswered (s t : State) (q tag : Nat) (code : Code) (n : Nat) : Prop where
  out : ∃ more, t.out = s.out ++ [entryOut (s.queue q) s.port.attnPending code tag (w32 n) 0] ++ more
  gone : t.started? q tag = none

section
variable {s : State} {q tag : Nat} {u : Started} (hstarted : s.started? q tag = some u) (hdiscard : u.discard = false)
  (htakes : s.takesEntry q = true)
include hstarted hdiscard htakes

theorem finish_entry (code : Code) (n : Nat) :
    Answered s (s.finish q tag code (w32 n) 0) q tag (s.queue q) [] code (w32 n) 0 ∧
      s.finish q tag code (w32 n) 0 = { s with
        out := (s.finish q tag code (w32 n) 0).out, port := s.portOf (s.finish q tag code (w32 n) 0) } :=
  finish_takes s q tag u code (w32 n) 0 hstarted hdiscard htakes

theorem entryAnswered_of_speaks {v t : State} {code : Code} {n : Nat} (hout : v.out = (s.finish q tag code (w32 n) 0).out)
    (hport : v.port = (s.finish q tag code (w32 n) 0).port) (h : Speaks v t) : EntryAnswered s t q tag code n := by
  obtain ⟨⟨hgone, hsent, -, -⟩, hframe⟩ := finish_entry hstarted hdiscard htakes code n
  obtain ⟨more, hmore⟩ := h.out
  have hpending : (s.finish q tag code (w32 n) 0).port.attnPending = s.port.attnPending := by rw [hframe]; rfl
  refine ⟨⟨more, ?_⟩, h.started _ _ ?_⟩
  · rw [← hmore, hout, hsent, hpending, List.append_nil]
  · rw [State.started?, hport]
    exact hgone

end

/-! ### Rest -/

theorem idlePorts_fport {s : State} {p : Nat} (h : p < s.fabric.ports.length) (hmode : (s.fport p).mode ≠ 0) :
    (s.idlePorts.fport p).state = 4 := by
  have hport : s.fabric.ports[p] = s.fport p := by rw [State.fport, List.getD_eq_getElem?_getD, List.getElem?_eq_getElem h]; rfl
  simp only [State.fport, State.idlePorts, State.modFabric, List.getD_eq_getElem?_getD, List.getElem?_map, List.getElem?_eq_getElem h,
    Option.map_some, Option.getD_some]
  rw [hport, if_neg hmode]

/-- The ports gone to electrical idle and the table recomputed, after a completion. -/
def State.idled (s : State) : State := s.idlePorts.recapAs false cPartner

theorem idled_spec (s : State) :
    s.idled.offCap = s.offCap ∧ Speaks s.idlePorts s.idled ∧
      (s.idlePorts.capNow.drop 1 = (s.cap.take 9).drop 1 → s.idled = { s.idlePorts with cap := capWords s.idlePorts.capNow s.capSerial }) :=
  ⟨(recapAs_offCap _ _ _).trans rfl, recapAs_speaks _ _ _, fun h => recapAs_same (s := s.idlePorts) h _ _⟩

theorem power_of_offCap {s t : State} (h : t.offCap = s.offCap) : t.power = s.power :=
  calc t.power = t.offCap.power := rfl
    _ = s.power := by rw [h]; rfl

/-- The power state reached: no core simmers, and no entry follows. -/
theorem settleIn_eq {s : State} (h : s.power.sbStandby = false) (t : PowerState) :
    s.settleIn t = { s with
      cores := s.cores.map fun x => { x with simmer := 0, ramp := 8 }
      power := { s.power with state := t, entry := none, sbStandby := false } } := by
  unfold State.settleIn State.modPower
  rw [quench_all]
  dsimp only
  rw [h]
  rfl

/-! ### Dormant -/

/-- Saved records rewritten touch the flash and the memory ports alone. -/
theorem rewriteTraining_frame (s : State) : ∃ training mem, s.rewriteTraining =
    { s with nor := { s.nor with training := training }, mem := mem } := by
  unfold State.rewriteTraining
  generalize List.range 16 = l
  induction l generalizing s with
  | nil => exact ⟨s.nor.training, s.mem, rfl⟩
  | cons p l ih =>
    rw [List.foldl_cons]
    by_cases hmoved : (s.memPort p).moved = true
    · rw [if_pos hmoved]
      obtain ⟨training, mem, h⟩ := ih _
      exact ⟨training, mem, h⟩
    · rw [if_neg hmoved]
      exact ih s

theorem endMoves_offRack (s : State) : s.endMoves.offRack = s.offRack :=
  offRack_foldl _ (fun (u : State) (m : Move) => (State_releaseMoved_offRack _ m.handle).trans (State_endMove_offRack u m.handle)) _ _

theorem programAll_programmed (s : State) : ∀ f ∈ s.programAll.cellar.frames, f.2.programmed = true := by
  intro f hf
  obtain ⟨g, -, rfl⟩ := List.mem_map.1 hf
  rfl

/-- The state in which an entry to Dormant leaves the leaves and the stores, before power management settles. -/
def State.laidDown (s : State) : State :=
  { s with
    errata := s.errata.flush s.now
    port := { s.port with linkUp := false }
    rack := { s.rack with
      moves := [], pool := [], ss := [], corePins := []
      leaves := s.rack.leaves.map fun e => (e.1, { e.2 with
        inSs := false, inCask := false, moving := false }) }
    coreMem := Bytes.blank, coreLines := [], sectMem := Bytes.blank, sectLines := []
    mem := s.mem.map fun (k : MemPort) => if k.state = 2 then { k with state := 0 } else k }

theorem enterDormant_eq (s : State) :
    s.enterDormant = (((s.endEntry cDone 3).idled.rewriteTraining.endMoves.programAll).laidDown).settleIn .dormant := by
  unfold State.enterDormant State.idled
  generalize ((s.endEntry cDone 3).idlePorts.recapAs false cPartner).rewriteTraining.endMoves.programAll = v
  rfl

/-- What a state laid down keeps. -/
theorem programmed_laidDown_spec (x : State) :
    Speaks x x.programAll.laidDown ∧ x.programAll.laidDown.power = x.power ∧ x.programAll.laidDown.port.linkUp = false ∧
      x.programAll.laidDown.coreMem = Bytes.blank ∧ x.programAll.laidDown.sectMem = Bytes.blank ∧
      (∀ e ∈ x.programAll.laidDown.rack.leaves, e.2.inCask = false ∧ e.2.inSs = false ∧ e.2.moving = false) ∧
      x.programAll.laidDown.rack.moves = [] ∧ (∀ f ∈ x.programAll.laidDown.cellar.frames, f.2.programmed = true) ∧
      x.programAll.laidDown.time = x.time ∧ x.programAll.laidDown.streams = x.streams ∧ x.programAll.laidDown.reqs = x.reqs ∧
      x.programAll.laidDown.slots = x.slots ∧ x.programAll.laidDown.caskRaw = x.caskRaw := by
  refine ⟨.of_voice rfl, rfl, rfl, rfl, rfl, fun e he => ?_, rfl, programAll_programmed x, rfl, rfl, rfl, rfl, rfl⟩
  obtain ⟨g, -, rfl⟩ := List.mem_map.1 he
  exact ⟨rfl, rfl, rfl⟩

/-- What the saved records and the ended moves leave. -/
theorem movesEnded_spec (v : State) :
    Speaks v v.rewriteTraining.endMoves ∧ v.rewriteTraining.endMoves.power = v.power ∧ v.rewriteTraining.endMoves.time = v.time ∧
      v.rewriteTraining.endMoves.streams = v.streams ∧ v.rewriteTraining.endMoves.reqs = v.reqs ∧
      v.rewriteTraining.endMoves.slots = v.slots ∧ v.rewriteTraining.endMoves.caskRaw = v.caskRaw := by
  obtain ⟨training, mem, htrain⟩ := rewriteTraining_frame v
  have hmoves := endMoves_offRack v.rewriteTraining
  generalize v.rewriteTraining.endMoves = x at *
  rw [htrain] at hmoves
  have hx := frame_of_offRack hmoves
  refine ⟨?_, by rw [hx], by rw [hx], by rw [hx], by rw [hx], by rw [hx], by rw [hx]⟩
  rw [hx]
  exact .of_voice rfl

/-! ### Standby -/

/-- The state of an entry to Standby before the loss of power. -/
def State.shutDown (s : State) : State :=
  let s := ((s.endEntry cDone 4).stopAll.record 0x0E 0 0 0).rewriteTraining.programAll
  { s with
    errata := s.errata.flush s.now
    cellar := { s.cellar with dies := s.cellar.dies.map fun (d : Die) => { d with journal := 0 } } }

theorem enterStandby_eq (s : State) :
    s.enterStandby = s.shutDown.loseVolatile.modPower fun p => { p with state := .standby, cold := false, queuedWake := s.shutDown.power.queuedWake } := by
  unfold State.enterStandby State.shutDown
  rfl

theorem stopAll_power_nor (s : State) : s.stopAll.power = s.power ∧ s.stopAll.nor = s.nor := by
  have h := stopAll_offReq s
  generalize s.stopAll = t at *
  have hpower : t.offReq.power = s.power := by rw [h]; rfl
  have hnor : t.offReq.nor = s.nor := by rw [h]; rfl
  exact ⟨hpower, hnor⟩

theorem shutDown_spec (s : State) :
    Speaks (s.endEntry cDone 4) s.shutDown ∧ s.shutDown.power = (s.endEntry cDone 4).power ∧
      s.shutDown.nor.versionCounter = (s.endEntry cDone 4).nor.versionCounter ∧ ∀ f ∈ s.shutDown.cellar.frames, f.2.programmed = true := by
  have hspeaks := stopAll_speaks (s.endEntry cDone 4)
  obtain ⟨hpower, hnor⟩ := stopAll_power_nor (s.endEntry cDone 4)
  unfold State.shutDown
  dsimp only
  generalize (s.endEntry cDone 4).stopAll = v at *
  obtain ⟨training, mem, htrain⟩ := rewriteTraining_frame (v.record 0x0E 0 0 0)
  have hcounter : v.nor.versionCounter = (s.endEntry cDone 4).nor.versionCounter := by rw [hnor]
  rw [htrain]
  refine ⟨hspeaks.trans (.of_voice rfl), hpower, hcounter, fun f hf => programAll_programmed _ f hf⟩

/-! ### The steps of an entry -/

section
variable {s : State} {q tag : Nat} (hquiet : s.quiet = true)
include hquiet

theorem exec_powerEntryComplete_rest (hentry : s.power.entry = some (2, some (q, tag))) :
    exec .powerEntryComplete s = .next s.enterRest := by
  have hexec : exec .powerEntryComplete s = execPowerEntryComplete s := rfl
  rw [hexec, execPowerEntryComplete]
  simp only [hentry, hquiet, Bool.not_true, Bool.false_eq_true, if_false]

theorem exec_powerEntryComplete_dormant (hentry : s.power.entry = some (3, some (q, tag))) :
    exec .powerEntryComplete s = .next (
      if 0x80000000 < s.imageBytes then
        ((s.endEntry cOverflow 1).quench fun _ => true).modPower fun p => { p with
          state := .ready, entry := if p.sbStandby then some (4, none) else none, sbStandby := false }
      else
        let s := s.dormantDue.foldl (fun s h => s.writeBackNow h) s
        if s.dormantDue.isEmpty then s.enterDormant else s) := by
  have hexec : exec .powerEntryComplete s = execPowerEntryComplete s := rfl
  rw [hexec, execPowerEntryComplete]
  simp only [hentry, hquiet, Bool.not_true, Bool.false_eq_true, if_false]

theorem exec_powerEntryComplete_standby (hentry : s.power.entry = some (4, some (q, tag))) (hdue : s.standbyDue = []) :
    exec .powerEntryComplete s = .next (
      let s := (s.modCellar fun c => { c with indexDue := max 1 c.indexDue }).payIndex
      if s.cellar.indexDue = 0 then s.enterStandby else s) := by
  have hexec : exec .powerEntryComplete s = execPowerEntryComplete s := rfl
  rw [hexec, execPowerEntryComplete]
  simp only [hentry, hquiet, hdue, List.foldl_nil, List.isEmpty_nil, Bool.not_true, Bool.false_eq_true, if_false]

end

/-- The index records wait for the governor, or are admitted and paid. -/
theorem payIndex_waits {s : State} (h : s.cellar.level < (100 * Config.indexBytes s.draws : Nat) ∨ s.time.tsy.toNat < s.cellar.peakAt) :
    s.payIndex = s := by
  refine if_neg fun hpaid => ?_
  simp only [Bool.and_eq_true, decide_eq_true_eq] at hpaid
  obtain ⟨⟨-, hlevel⟩, hpeak⟩ := hpaid
  rw [State.now] at hpeak
  omega

theorem payIndex_paid {s : State} (hdue : s.cellar.indexDue ≠ 0) (hlevel : ((100 * Config.indexBytes s.draws : Nat) : Int) ≤ s.cellar.level)
    (hpeak : s.cellar.peakAt ≤ s.time.tsy.toNat) : s.payIndex.cellar.indexDue = 0 ∧ s.payIndex.offRack = s.offRack := by
  have heq : s.payIndex = (({ s with draws := s.draws + 1 } : State).govDraw (100 * Config.indexBytes s.draws)).modCellar
      fun c => { c with indexDue := 0 } := if_pos (by
    rw [State.now]
    simp only [Bool.and_eq_true, bne_iff_ne, decide_eq_true_eq]
    exact ⟨⟨hdue, hlevel⟩, hpeak⟩)
  rw [heq]
  exact ⟨rfl, rfl⟩

/-! ### The statement -/

section
variable {s : State} {q tag : Nat} {u : Started} (hquiet : s.quiet = true) (hsb : s.power.sbStandby = false)
  (hstarted : s.started? q tag = some u) (hdiscard : u.discard = false) (htakes : s.takesEntry q = true)
include hquiet hsb hstarted hdiscard htakes

/-- An entry to Rest ends there. -/
theorem restReached (hentry : s.power.entry = some (2, some (q, tag))) :
    ∃ (t : State) (more : List Out), exec .powerEntryComplete s = .next t ∧
      t.out = s.out ++ [entryOut (s.queue q) s.port.attnPending cDone tag 2 0] ++ more ∧ t.started? q tag = none ∧
      t.power = { s.power with state := .rest, entry := none, sbStandby := false } ∧
      (∀ p, p < s.fabric.ports.length → (s.fport p).mode ≠ 0 → (t.fport p).state = 4) ∧
      (∀ k ∈ t.cores, k.simmer = 0 ∧ k.ramp = 8) ∧
      (s.idlePorts.capNow.drop 1 = (s.cap.take 9).drop 1 → Answered s t q tag (s.queue q) [] cDone 2 0 ∧
        t = { s with out := t.out, port := s.portOf t, power := t.power, cap := t.cap, cores := t.cores,
                     fabric := { s.fabric with ports := t.fabric.ports } }) := by
  obtain ⟨hanswered, hframe⟩ := finish_entry hstarted hdiscard htakes cDone 2
  have hanswer := fun (v t : State) => entryAnswered_of_speaks (v := v) (t := t) (code := cDone) (n := 2) hstarted hdiscard htakes
  have hexec := exec_powerEntryComplete_rest hquiet hentry
  have hentered : s.enterRest = (s.finish q tag cDone (w32 2) 0).idled.settleIn .rest := by rw [← endEntry_eq hentry]; rfl
  rw [hentered] at hexec
  generalize s.finish q tag cDone (w32 2) 0 = f at *
  obtain ⟨hoff, hspeaks, hsame⟩ := idled_spec f
  have hpower : f.idled.power = s.power := (power_of_offCap hoff).trans (by rw [hframe])
  have hports (p : Nat) (hp : p < s.fabric.ports.length) (hmode : (s.fport p).mode ≠ 0) : (f.idlePorts.fport p).state = 4 := by
    have hfabric : f.fabric = s.fabric := by rw [hframe]
    refine idlePorts_fport (by rw [hfabric]; exact hp) ?_
    rw [State.fport, hfabric]
    exact hmode
  obtain ⟨⟨more, hout⟩, hgone⟩ := hanswer f.idlePorts f.idled rfl rfl hspeaks
  rw [settleIn_eq (by rw [hpower]; exact hsb)] at hexec
  refine ⟨_, more, hexec, hout, hgone, by rw [hpower], fun p hp hmode => (hspeaks.states p).trans (hports p hp hmode), fun k hk => ?_, fun hcap => ?_⟩
  · obtain ⟨x, -, rfl⟩ := List.mem_map.1 hk
    exact ⟨rfl, rfl⟩
  · have hcap' : f.idlePorts.capNow.drop 1 = (f.cap.take 9).drop 1 := by
      rw [hframe]
      exact hcap
    rw [hsame hcap']
    refine ⟨hanswered.of_port rfl rfl, ?_⟩
    obtain ⟨o, queues, started, engines, rfl⟩ := answer_form hframe
    rfl

/-- An entry to Dormant whose image is too large ends in Ready. -/
theorem dormantRefused (hentry : s.power.entry = some (3, some (q, tag))) (hlarge : 0x80000000 < s.imageBytes) :
    ∃ t, exec .powerEntryComplete s = .next t ∧ Answered s t q tag (s.queue q) [] cOverflow 1 0 ∧
      t.power = { s.power with state := .ready, entry := none, sbStandby := false } ∧
      t = { s with out := t.out, port := s.portOf t, power := t.power, cores := t.cores } := by
  obtain ⟨hanswered, hframe⟩ := finish_entry hstarted hdiscard htakes cOverflow 1
  have hexec := exec_powerEntryComplete_dormant hquiet hentry
  rw [if_pos hlarge, endEntry_eq hentry, quench_all] at hexec
  generalize s.finish q tag cOverflow (w32 1) 0 = f at *
  have hpower : f.power = s.power := by rw [hframe]
  refine ⟨_, hexec, hanswered.of_port rfl rfl, ?_, ?_⟩
  · change ({ f.power with state := .ready, entry := if f.power.sbStandby then some (4, none) else none, sbStandby := false } : Power) = _
    rw [hpower, hsb]
    rfl
  · obtain ⟨o, queues, started, engines, rfl⟩ := answer_form hframe
    rfl

/-- An entry to Dormant with no leaf to write back ends there. -/
theorem dormantReached (hentry : s.power.entry = some (3, some (q, tag))) (hsmall : s.imageBytes ≤ 0x80000000) (hdue : s.dormantDue = []) :
    ∃ (t : State) (more : List Out), exec .powerEntryComplete s = .next t ∧
      t.out = s.out ++ [entryOut (s.queue q) s.port.attnPending cDone tag 3 0] ++ more ∧ t.started? q tag = none ∧
      t.power.state = .dormant ∧ t.power.entry = none ∧ t.port.linkUp = false ∧ t.coreMem = Bytes.blank ∧
      t.sectMem = Bytes.blank ∧ (∀ e ∈ t.rack.leaves, e.2.inCask = false ∧ e.2.inSs = false ∧ e.2.moving = false) ∧
      t.rack.moves = [] ∧ (∀ f ∈ t.cellar.frames, f.2.programmed = true) ∧ t.time = s.time ∧
      (s.idlePorts.capNow.drop 1 = (s.cap.take 9).drop 1 → t.streams = s.streams ∧ t.reqs = s.reqs ∧
        t.slots = s.slots ∧ t.caskRaw = s.caskRaw) := by
  obtain ⟨hanswered, hframe⟩ := finish_entry hstarted hdiscard htakes cDone 3
  have hanswer := fun (v t : State) => entryAnswered_of_speaks (v := v) (t := t) (code := cDone) (n := 3) hstarted hdiscard htakes
  have hexec := exec_powerEntryComplete_dormant hquiet hentry
  rw [if_neg (by omega), hdue] at hexec
  dsimp only [List.foldl_nil] at hexec
  rw [hdue] at hexec
  have hentered : exec .powerEntryComplete s = .next s.enterDormant := hexec
  rw [enterDormant_eq, endEntry_eq hentry] at hentered
  generalize s.finish q tag cDone (w32 3) 0 = f at *
  obtain ⟨hoff, hspeaks, hsame⟩ := idled_spec f
  have hpower : f.idled.power = s.power := (power_of_offCap hoff).trans (by rw [hframe])
  have htime : f.idled.time = s.time := by
    have h : f.idled.offCap.time = f.offCap.time := by rw [hoff]
    exact h.trans (by rw [hframe]; rfl)
  have hkept (hcap : s.idlePorts.capNow.drop 1 = (s.cap.take 9).drop 1) : f.idled.streams = s.streams ∧ f.idled.reqs = s.reqs ∧
      f.idled.slots = s.slots ∧ f.idled.caskRaw = s.caskRaw := by
    have hcap' : f.idlePorts.capNow.drop 1 = (f.cap.take 9).drop 1 := by
      rw [hframe]
      exact hcap
    rw [hsame hcap', hframe]
    exact ⟨rfl, rfl, rfl, rfl⟩
  have hfirst : Speaks f.idlePorts f.idled := hspeaks
  generalize f.idled = v at *
  obtain ⟨hspeaks', hpower', htime', hstreams, hreqs, hslots, hcask⟩ := movesEnded_spec v
  generalize v.rewriteTraining.endMoves = x at *
  obtain ⟨hspeaks'', hpower'', hlink, hcore, hsect, hleaves, hmoves, hframes, htime'', hstreams', hreqs', hslots', hcask'⟩ :=
    programmed_laidDown_spec x
  generalize x.programAll.laidDown = y at *
  obtain ⟨⟨more, hout⟩, hgone⟩ := hanswer f.idlePorts y rfl rfl ((hfirst.trans hspeaks').trans hspeaks'')
  rw [settleIn_eq (by rw [hpower'', hpower', hpower]; exact hsb)] at hentered
  refine ⟨_, more, hentered, hout, hgone, rfl, rfl, hlink, hcore, hsect, hleaves, hmoves, hframes, htime''.trans (htime'.trans htime), fun hcap => ?_⟩
  obtain ⟨h1, h2, h3, h4⟩ := hkept hcap
  exact ⟨hstreams'.trans (hstreams.trans h1), hreqs'.trans (hreqs.trans h2), hslots'.trans (hslots.trans h3), hcask'.trans (hcask.trans h4)⟩

end

/-- An entry to Standby waits until the governor lets its index records pass. -/
theorem standbyWaits {s : State} {q tag : Nat} (hquiet : s.quiet = true) (hentry : s.power.entry = some (4, some (q, tag)))
    (hdue : s.standbyDue = [])
    (hwaits : s.cellar.level < (100 * Config.indexBytes s.draws : Nat) ∨ s.time.tsy.toNat < s.cellar.peakAt) :
    exec .powerEntryComplete s = .next { s with cellar := { s.cellar with indexDue := max 1 s.cellar.indexDue } } := by
  have hexec := exec_powerEntryComplete_standby hquiet hentry hdue
  dsimp only at hexec
  rw [payIndex_waits (s := s.modCellar fun c => { c with indexDue := max 1 c.indexDue }) hwaits] at hexec
  rw [if_neg (by change max 1 s.cellar.indexDue ≠ 0; omega)] at hexec
  exact hexec

/-- What a module that has lost its power keeps. -/
theorem standby_kept (s : State) :
    s.enterStandby.power.state = .standby ∧ s.enterStandby.power.cold = false ∧ s.enterStandby.power.entry = none ∧
      s.enterStandby.power.queuedWake = s.shutDown.power.queuedWake ∧ s.enterStandby.coreMem = Bytes.blank ∧
      s.enterStandby.sectMem = Bytes.blank ∧ s.enterStandby.caskRaw = Bytes.blank ∧ s.enterStandby.streams = [] ∧
      s.enterStandby.cmds = [] ∧ s.enterStandby.port.started = [] ∧ s.enterStandby.cellar.frames = s.shutDown.cellar.frames ∧
      s.enterStandby.nor = s.shutDown.nor ∧ s.enterStandby.out = s.shutDown.out := by
  rw [enterStandby_eq]
  generalize s.shutDown = u
  exact ⟨rfl, rfl, rfl, rfl, rfl, rfl, rfl, rfl, rfl, rfl, rfl, rfl, rfl⟩

/-- An entry to Standby ends there. -/
theorem standbyReached {s : State} {q tag : Nat} {u : Started} (hquiet : s.quiet = true) (hstarted : s.started? q tag = some u)
    (hdiscard : u.discard = false) (htakes : s.takesEntry q = true) (hentry : s.power.entry = some (4, some (q, tag)))
    (hdue : s.standbyDue = []) (hlevel : ((100 * Config.indexBytes s.draws : Nat) : Int) ≤ s.cellar.level)
    (hpeak : s.cellar.peakAt ≤ s.time.tsy.toNat) :
    ∃ (t : State) (more : List Out), exec .powerEntryComplete s = .next t ∧
      t.out = s.out ++ [entryOut (s.queue q) s.port.attnPending cDone tag 4 0] ++ more ∧ t.power.state = .standby ∧
      t.power.cold = false ∧ t.power.entry = none ∧ t.power.queuedWake = s.power.queuedWake ∧ t.coreMem = Bytes.blank ∧
      t.sectMem = Bytes.blank ∧ t.caskRaw = Bytes.blank ∧ t.streams = [] ∧ t.cmds = [] ∧ t.port.started = [] ∧
      (∀ f ∈ t.cellar.frames, f.2.programmed = true) ∧ t.nor.versionCounter = s.nor.versionCounter := by
  have hexec := exec_powerEntryComplete_standby hquiet hentry hdue
  obtain ⟨hpaid, hoff⟩ := payIndex_paid (s := s.modCellar fun c => { c with indexDue := max 1 c.indexDue })
    (by change max 1 s.cellar.indexDue ≠ 0; omega) hlevel hpeak
  dsimp only at hexec
  generalize (s.modCellar fun c => { c with indexDue := max 1 c.indexDue }).payIndex = v at *
  rw [if_pos hpaid] at hexec
  have hv := frame_of_offRack (hoff.trans (modCellar_offRack s _))
  have hstarted' : v.started? q tag = some u := by rw [hv]; exact hstarted
  have htakes' : v.takesEntry q = true := by rw [hv]; exact htakes
  have hentry' : v.power.entry = some (4, some (q, tag)) := by rw [hv]; exact hentry
  have hsaid : v.out = s.out ∧ v.queue q = s.queue q ∧ v.port.attnPending = s.port.attnPending ∧ v.power.queuedWake = s.power.queuedWake ∧
      v.nor.versionCounter = s.nor.versionCounter := by rw [hv]; exact ⟨rfl, rfl, rfl, rfl, rfl⟩
  obtain ⟨-, hframe⟩ := finish_entry hstarted' hdiscard htakes' cDone 4
  obtain ⟨hspeaks, hpower, hcounter, hprogrammed⟩ := shutDown_spec v
  have hanswer := fun (w t : State) => entryAnswered_of_speaks (v := w) (t := t) (code := cDone) (n := 4) hstarted' hdiscard htakes'
  obtain ⟨hstate, hcold, hnone, hwake, hcore, hsect, hcask, hstreams, hcmds, hstarted'', hframes, hnor, hout⟩ := standby_kept v
  rw [endEntry_eq hentry'] at hspeaks hpower hcounter
  generalize v.finish q tag cDone (w32 4) 0 = f at *
  obtain ⟨⟨more, hmore⟩, -⟩ := hanswer f v.shutDown rfl rfl hspeaks
  obtain ⟨hvout, hvqueue, hvpending, hvwake, hvcounter⟩ := hsaid
  refine ⟨_, more, hexec, ?_, hstate, hcold, hnone, ?_, hcore, hsect, hcask, hstreams, hcmds, hstarted'', ?_, ?_⟩
  · rw [hout, hmore, hvout, hvqueue, hvpending]
    rfl
  · rw [hwake, hpower, hframe]
    exact hvwake
  · rw [hframes]
    exact hprogrammed
  · rw [hnor, hcounter, hframe]
    exact hvcounter

/-- Settles O43: entries to the lower power states. -/
theorem powerEntries : Obligations.PowerEntries := by
  refine ⟨fun s hmay => ⟨fun q tag c h x hx harg => ?_, fun hstate hafter => ⟨_, exec_autoRest hmay hstate hafter, rfl⟩⟩,
    fun s n q tag u hentry hquiet hsb hstarted hdiscard htakes => ⟨?_, ?_, ?_, ?_, ?_⟩⟩
  · have hexec := exec_powerSetForm hx h hmay harg
    refine ⟨fun hmay' haux => ?_, fun hnot2 hrole hflag => ?_, fun h4 hrole haux => ?_⟩
    · rw [if_neg, if_neg] at hexec
      · exact ⟨_, hexec, powerSet_begins h rfl⟩
      · rintro ⟨h4, hnone⟩
        rw [haux h4] at hnone
        exact absurd hnone (by decide)
      · rintro ⟨hnot2, hrole, hflag⟩
        rcases hmay' with h2 | hrole' | ⟨h3, hset⟩ | ⟨h4, hset⟩
        · exact hnot2 h2
        · exact hrole' hrole
        · rw [h3, hset] at hflag
          exact absurd hflag (by decide)
        · rw [h4, hset] at hflag
          exact absurd hflag (by decide)
    · rw [if_pos ⟨hnot2, hrole, hflag⟩] at hexec
      exact ⟨_, hexec, finish_alone h cRole 0 0⟩
    · rw [if_neg (fun hd => hrole hd.2.1), if_pos ⟨h4, haux⟩] at hexec
      simp only [beq_iff_eq] at hexec
      exact ⟨_, hexec, finish_alone h cOverflow _ 0⟩
  · rintro rfl
    exact restReached hquiet hsb hstarted hdiscard htakes hentry
  · rintro rfl hlarge
    exact dormantRefused hquiet hsb hstarted hdiscard htakes hentry hlarge
  · rintro rfl hsmall hdue
    exact dormantReached hquiet hsb hstarted hdiscard htakes hentry hsmall hdue
  · rintro rfl hdue hwaits
    exact ⟨_, standbyWaits hquiet hentry hdue hwaits, rfl⟩
  · rintro rfl hdue hlevel hpeak
    exact standbyReached hquiet hstarted hdiscard htakes hentry hdue hlevel hpeak

end Sys2Proof.Machine
end

section
/-! SUPPORT. Grist cycles: their start, their end and their ticks (R318, R319, R328). -/

namespace Sys2Proof.Machine

/-! ### Commands placed one after another -/

/-- Commands that a fold places: one for each element, under consecutive numbers. -/
def placedCmds {α : Type} (mk : Nat → α → Cmd) (n : Nat) (l : List α) : List Cmd := (l.zipIdx n).map fun x => mk x.2 x.1

theorem foldl_placed {α : Type} {g : State → α → State} {mk : Nat → α → Cmd}
    (hg : ∀ s d, g s d = { s with cmds := s.cmds ++ [mk s.nextCmd d], nextCmd := s.nextCmd + 1 }) (l : List α) (s : State) :
    l.foldl g s = { s with cmds := s.cmds ++ placedCmds mk s.nextCmd l, nextCmd := s.nextCmd + l.length } := by
  induction l generalizing s with
  | nil => simp [placedCmds]
  | cons d l ih => rw [List.foldl_cons, ih, hg]; simp [placedCmds, List.zipIdx_cons, Nat.add_assoc, Nat.add_comm 1]

theorem placedCmds_id {α : Type} {mk : Nat → α → Cmd} (hmk : ∀ n d, (mk n d).id = n) (n : Nat) (l : List α) :
    (placedCmds mk n l).map (·.id) = List.range' n l.length := by
  rw [← List.zipIdx_map_snd n l, placedCmds, List.map_map]
  exact List.map_congr_left fun x _ => hmk x.2 x.1

theorem placedCmds_desc {α : Type} {mk : Nat → α → Cmd} {f : α → Nat} (hmk : ∀ n d, (mk n d).desc = f d) (n : Nat) (l : List α) :
    (placedCmds mk n l).map (·.desc) = l.map f := by
  calc (placedCmds mk n l).map (·.desc) = ((l.zipIdx n).map Prod.fst).map f := by
        rw [placedCmds, List.map_map, List.map_map]
        exact List.map_congr_left fun x _ => hmk x.2 x.1
    _ = l.map f := by rw [List.zipIdx_map_fst]

theorem mem_placedCmds {α : Type} {mk : Nat → α → Cmd} {n : Nat} {l : List α} {c : Cmd} (h : c ∈ placedCmds mk n l) :
    ∃ k d, d ∈ l ∧ c = mk k d := by
  obtain ⟨x, hx, rfl⟩ := List.mem_map.1 h
  exact ⟨x.2, x.1, List.fst_mem_of_mem_zipIdx hx, rfl⟩

/-! ### The start of a cycle -/

/-- The descriptors of a leg, none of them killed before. -/
def legDescs (a b : Nat) : List (Nat × Bool × Nat) := (List.range (b + 1 - a)).map fun i => (a + i, false, 0)

theorem legDescs_length (a b : Nat) : (legDescs a b).length = b + 1 - a := by simp [legDescs]

theorem legDescs_desc (a b : Nat) : (legDescs a b).map (·.1) = List.range' a (b + 1 - a) := by
  rw [legDescs, List.map_map, List.range'_eq_map_range]
  rfl

theorem mem_legDescs {a b : Nat} {d : Nat × Bool × Nat} (h : d ∈ legDescs a b) : d.2 = (false, 0) := by
  obtain ⟨i, -, rfl⟩ := List.mem_map.1 h
  rfl

/-- A command of a wave's leg, as a cycle places it. -/
def legCmd (part : Nat) (prio : Bool) (w : Wave) (p : Plan) (n : Nat) (d : Nat × Bool × Nat) : Cmd :=
  let live := w.runs.filter fun u => !u.void
  let ends := if w.train.isSome then [] else live.map fun u => ({ w with shape := w.liveShape }.closer p u, u.stream)
  { id := n, part := part, slot := w.slot, desc := d.1, words := p.descs.getD d.1 [], origin := .wave prio, shape := w.liveShape
    runs := live, closes := (ends.filter fun e => e.1 == d.1).map (·.2), phase := .placed, rerun := d.2.1, plain := false
    skews := d.2.2, timeouts := 0, cores := gridCores (p.descs.getD d.1 []), serial := 0, passes := 0, order := [], sums := []
    spill := [], infSeen := false, nanSeen := false, outSat := false, empty := false, skewed := false, effs := [], pins := []
    taken := [], consumed := [], waits := [], starved := false, scaled := [], attempt := 0, arr := 0 }

/-- A partition whose wave's next leg begins. -/
def Partition.cycleStarts (p : Partition) (prio : Bool) (w : Wave) (now : W64) : Partition :=
  let q := p.setWave prio (some { w with shape := w.liveShape })
  { q with
    cycle := some { prio := prio, start := now, ticks := 0, overran := false }
    suspended := if prio then q.suspended else false, remaining := if prio then q.remaining else [] }

theorem runCycle_eq {s : State} {part : Nat} {prio : Bool} {w : Wave} {p : Plan} {a b : Nat}
    (hw : (s.part part).wave prio = some w) (hp : (s.slot w.slot).plan = some p) (hleg : w.legs[w.leg]? = some (a, b))
    (hrest : prio = true ∨ (s.part part).remaining = []) :
    s.runCycle part prio = { s with
      slots := modAt s.slots w.slot fun k => { k with shape := w.liveShape }
      parts := modAt s.parts part fun q => q.cycleStarts prio w s.now
      cmds := s.cmds ++ placedCmds (legCmd part prio w p) s.nextCmd (legDescs a b)
      nextCmd := s.nextCmd + (b + 1 - a) } := by
  have hleft : (prio || (s.part part).remaining.isEmpty) = true := by
    rcases hrest with rfl | h
    · rfl
    · simp [h]
  have hfold := foldl_placed (g := fun s d => s.placeCmd part w.slot d.1 (p.descs.getD d.1 []) (.wave prio) w.liveShape
      (w.runs.filter fun u => !u.void)
      (((if w.train.isSome then [] else (w.runs.filter fun u => !u.void).map fun u =>
        ({ w with shape := w.liveShape }.closer p u, u.stream)).filter fun e => e.1 == d.1).map (·.2))
      (gridCores (p.descs.getD d.1 [])) d.2.1 d.2.2 false) (mk := legCmd part prio w p) (fun _ _ => rfl) (legDescs a b)
    ((s.modSlot w.slot fun k => { k with shape := w.liveShape }).modPart part fun q => q.cycleStarts prio w s.now)
  rw [legDescs_length] at hfold
  unfold State.runCycle
  rw [hw]
  dsimp only
  rw [hp]
  dsimp only
  rw [hleg, if_pos hleft]
  exact hfold

/-- What the start of a cycle leaves. -/
theorem runCycle_spec {s : State} {part : Nat} {prio : Bool} {w : Wave} {p : Plan} {a b : Nat} (hlen : part < s.parts.length)
    (hw : (s.part part).wave prio = some w) (hp : (s.slot w.slot).plan = some p) (hleg : w.legs[w.leg]? = some (a, b))
    (hrest : prio = true ∨ (s.part part).remaining = []) :
    ∃ new, (s.runCycle part prio).cmds = s.cmds ++ new ∧
      new.map (·.desc) = List.range' a (b + 1 - a) ∧ new.map (·.id) = List.range' s.nextCmd (b + 1 - a) ∧
      (∀ c ∈ new, c.part = part ∧ c.slot = w.slot ∧ c.origin = .wave prio ∧ c.phase = .placed ∧ c.rerun = false ∧
        c.words = p.descs.getD c.desc [] ∧ c.cores = gridCores c.words ∧ c.shape = w.liveShape ∧
        c.runs = w.runs.filter fun u => !u.void) ∧
      ((s.runCycle part prio).part part).cycle = some { prio := prio, start := s.now, ticks := 0, overran := false } ∧
      (∀ n, n ≠ part → (s.runCycle part prio).part n = s.part n) ∧ (s.runCycle part prio).nextCmd = s.nextCmd + (b + 1 - a) ∧
      s.runCycle part prio = { s with
        slots := (s.runCycle part prio).slots, parts := (s.runCycle part prio).parts, cmds := (s.runCycle part prio).cmds
        nextCmd := (s.runCycle part prio).nextCmd } := by
  rw [runCycle_eq hw hp hleg hrest]
  refine ⟨_, rfl, ?_, ?_, fun c hc => ?_, ?_, fun n hn => part_modPart_other _ hn, rfl, rfl⟩
  · exact (placedCmds_desc (f := (·.1)) (fun _ _ => rfl) _ _).trans (legDescs_desc a b)
  · rw [placedCmds_id (fun _ _ => rfl), legDescs_length]
  · obtain ⟨k, d, hd, rfl⟩ := mem_placedCmds hc
    have hrerun : (legCmd part prio w p k d).rerun = false := congrArg Prod.fst (mem_legDescs hd)
    exact ⟨rfl, rfl, rfl, rfl, hrerun, rfl, rfl, rfl, rfl⟩
  · exact congrArg Partition.cycle (part_modPart (s := s) (fun q => q.cycleStarts prio w s.now) hlen)

/-- A partition whose next wave stands goes on to that wave's next leg. -/
theorem exec_gristCycleStart {s : State} {part : Nat} {prio : Bool} {w : Wave} (hrun : s.gristRuns part = true)
    (hcycle : (s.part part).cycle = none)
    (hnext : if prio then (s.part part).prio = some w
      else (s.part part).prio = none ∧ (s.part part).bulkFirst = true ∧ (s.part part).bulk = some w ∧ (s.part part).remaining = [])
    (hover : s.waveOver part prio w = false) : exec (.gristCycleStart part) s = .next (s.runCycle part prio) := by
  have hexec : exec (.gristCycleStart part) s = execGristCycleStart part s := rfl
  have hgo : (s.gristRuns part && (s.part part).cycle.isNone) = true := by simp [hrun, hcycle]
  rw [hexec, execGristCycleStart, if_pos hgo]
  cases prio with
  | true =>
    have hprio : (s.part part).prio = some w := hnext
    unfold State.startCycle
    rw [hprio]
    exact congrArg _ (if_neg (by rw [hover]; exact Bool.false_ne_true))
  | false =>
    obtain ⟨hprio, hfirst, hbulk, -⟩ : (s.part part).prio = none ∧ (s.part part).bulkFirst = true ∧ (s.part part).bulk = some w ∧
      (s.part part).remaining = [] := hnext
    unfold State.startCycle
    rw [hprio]
    dsimp only
    rw [if_pos hfirst]
    dsimp only
    rw [hbulk]
    exact congrArg _ (if_neg (by rw [hover]; exact Bool.false_ne_true))

/-! ### The end of a cycle -/

theorem setWave_same {p : Partition} {prio : Bool} {w : Option Wave} (h : p.wave prio = w) : p.setWave prio w = p := by
  subst h
  cases prio <;> rfl

/-- A partition is changed by a function that leaves it as it is. -/
theorem modPart_same {s : State} {n : Nat} {f : Partition → Partition} (h : f (s.part n) = s.part n) : s.modPart n f = s := by
  have hfix : modAt s.parts n f = s.parts := by
    refine modAt_fixed fun x hx => ?_
    have hpart : s.part n = x := by rw [State.part, List.getD_eq_getElem?_getD, hx]; rfl
    rwa [hpart] at h
  exact congrArg (fun l => { s with parts := l }) hfix

/-- A wave none of whose runs has closed since the last cycle has no reply to send. -/
theorem replies_none {s : State} {part : Nat} {prio : Bool} {w : Wave} (hw : (s.part part).wave prio = some w)
    (h : ∀ u ∈ w.runs, u.closed ≠ 1) : s.replies part prio = s := by
  have hmark : (w.runs.map fun u => if u.closed = 1 then { u with closed := 2 } else u) = w.runs :=
    (List.map_congr_left fun u hu => if_neg (h u hu)).trans (List.map_id _)
  have hdone : (w.runs.filter fun u => u.closed == 1) = [] :=
    List.filter_eq_nil_iff.2 fun u hu hc => h u hu (by simpa using hc)
  unfold State.replies
  rw [hw]
  dsimp only
  rw [hdone, hmark]
  exact modPart_same (setWave_same hw)

/-- A pause that waited for the cycle of a partition. -/
def State.pauseDue (part : Nat) (s : State) (e : Nat × Stream) : State :=
  match e.2.pauseNext with
  | some c => if e.2.partition = part then s.pauseStream e.1 c else s
  | none => s

theorem deferred_eq (s : State) (part : Nat) : s.deferred part =
    (((s.streams.foldl (State.pauseDue part) s).reqs.filter fun e => e.2.open_ && e.2.admitted && decide (5 ≤ e.2.kind) &&
      ((s.streams.foldl (State.pauseDue part) s).stream e.2.stream).partition == part).map (·.1)).foldl
        (fun s k => if (s.req k).kind = 5 then s.pauseNow k else s.resumeNow k) (s.streams.foldl (State.pauseDue part) s) := rfl

/-- Where no pause and no resume waits for a cycle's end, nothing is put off. -/
theorem deferred_none {s : State} (hreq : ∀ e ∈ s.reqs, e.2.kind < 5) (hstream : ∀ e ∈ s.streams, e.2.pauseNext = none) (part : Nat) :
    s.deferred part = s := by
  have hpauses : s.streams.foldl (State.pauseDue part) s = s :=
    foldl_fixed _ fun e he => by rw [State.pauseDue, hstream e he]
  have hnone : (s.reqs.filter fun e => e.2.open_ && e.2.admitted && decide (5 ≤ e.2.kind) &&
      (s.stream e.2.stream).partition == part) = [] :=
    List.filter_eq_nil_iff.2 fun e he h => by
      have := hreq e he
      simp at h
      omega
  rw [deferred_eq, hpauses, hnone]
  rfl

/-- The partition after its cycle has closed with nothing put off. -/
theorem closeCycle_frame {s : State} (hreq : ∀ e ∈ s.reqs, e.2.kind < 5) (hstream : ∀ e ∈ s.streams, e.2.pauseNext = none)
    (part : Nat) : ∃ pins, s.closeCycle part = { s with
      parts := modAt s.parts part fun p => { p with cycle := none }, rack := { s.rack with corePins := pins } } := by
  have hdeferred : (s.modPart part fun p => { p with cycle := none }).deferred part =
      s.modPart part fun p => { p with cycle := none } :=
    deferred_none (s := s.modPart part fun p => { p with cycle := none }) hreq hstream part
  unfold State.closeCycle
  rw [hdeferred]
  exact ⟨_, rfl⟩

theorem dropVoidAdvances_none {w : Wave} (h : ∀ u ∈ w.runs, u.void = false) (s : State) : s.dropVoidAdvances w = s := by
  have hnone : (w.runs.filter fun u => u.void && u.kind != .train && !s.inWave u.stream) = [] :=
    List.filter_eq_nil_iff.2 fun u hu hc => by simp [h u hu] at hc
  rw [State.dropVoidAdvances, hnone]
  rfl

/-- A wave without void runs is over once its legs are, where its slot holds a plan that is not suspect. -/
theorem waveOver_iff {s : State} {part : Nat} {prio : Bool} {w : Wave} {p : Plan} (hp : (s.slot w.slot).plan = some p)
    (hsuspect : p.suspect = false) (hvoid : ∀ u ∈ w.runs, u.void = false)
    (hcmds : ∀ c ∈ s.cmds, c.part = part → c.origin ≠ .wave prio) :
    s.waveOver part prio w = decide (w.legs.length ≤ w.leg) := by
  have hlive : (!w.runs.isEmpty && w.runs.all (·.void)) = false := by
    cases hruns : w.runs with
    | nil => rfl
    | cons u l => simp [hvoid u (by simp [hruns])]
  have hnone : (s.cmds.any fun c => c.part == part && c.origin == .wave prio) = false := by
    simpa using hcmds
  simp [State.waveOver, hp, hsuspect, hlive, hnone]

/-- The partition of a cycle that has closed, its wave on its next leg. -/
def Partition.nextLeg (p : Partition) (prio : Bool) (w : Wave) : Partition :=
  { { p with cycle := none }.setWave prio (some { w with leg := w.leg + 1 }) with bulkFirst := if prio then p.bulkFirst else false }

theorem nextLeg_wave (p : Partition) (prio : Bool) (w : Wave) :
    (p.nextLeg prio w).wave prio = some { w with leg := w.leg + 1 } ∧ (p.nextLeg prio w).cycle = none ∧
      (p.nextLeg prio w).waves = p.waves := by
  cases prio <;> exact ⟨rfl, rfl, rfl⟩

/-- The end of a cycle with nothing to reply and nothing put off: the wave goes on to its next leg, or ends. -/
theorem exec_gristCycleEnd {s : State} {part : Nat} {y : Cycle} {w : Wave} (hlen : part < s.parts.length)
    (hcycle : (s.part part).cycle = some y) (hcmds : ∀ c ∈ s.cmds, c.part = part → c.origin ≠ .wave y.prio)
    (hw : (s.part part).wave y.prio = some w) (hreq : ∀ e ∈ s.reqs, e.2.kind < 5)
    (hstream : ∀ e ∈ s.streams, e.2.pauseNext = none) (hclosed : ∀ u ∈ w.runs, u.closed ≠ 1) :
    ∃ u : State, u.part part = (s.part part).nextLeg y.prio w ∧ (∀ n, n ≠ part → u.part n = s.part n) ∧ u.parts.length = s.parts.length ∧
      u = { s with parts := u.parts, rack := { s.rack with corePins := u.rack.corePins } } ∧
      exec (.gristCycleEnd part) s = .next (
        if u.waveOver part y.prio { w with leg := w.leg + 1 } then u.endWave part y.prio
        else u.dropVoidAdvances { w with leg := w.leg + 1 }) := by
  have hexec : exec (.gristCycleEnd part) s = execGristCycleEnd part s := rfl
  have hnone : ¬(s.cmds.any fun c => c.part == part && c.origin == .wave y.prio) = true := by simpa using hcmds
  obtain ⟨pins, hclose⟩ := closeCycle_frame hreq hstream part
  let f (p : Partition) : Partition :=
    let p := p.setWave y.prio ((p.wave y.prio).map fun w => { w with leg := w.leg + 1 })
    if y.prio then p else { p with bulkFirst := false }
  have hlenClosed : part < (s.closeCycle part).parts.length := by rw [hclose]; simpa using hlen
  have hclosedPart : (s.closeCycle part).part part = { s.part part with cycle := none } := by
    rw [hclose]
    exact modAt_getD_same _ _ _ _ hlen
  have hf : f { s.part part with cycle := none } = (s.part part).nextLeg y.prio w := by
    have hw' : ({ s.part part with cycle := none } : Partition).wave y.prio = some w := hw
    show (if y.prio then ({ s.part part with cycle := none } : Partition).setWave y.prio
      ((({ s.part part with cycle := none } : Partition).wave y.prio).map fun w => { w with leg := w.leg + 1 }) else _) = _
    rw [hw']
    cases y.prio <;> rfl
  have hpart : ((s.closeCycle part).modPart part f).part part = (s.part part).nextLeg y.prio w := by
    rw [part_modPart f hlenClosed, hclosedPart, hf]
  refine ⟨(s.closeCycle part).modPart part f, hpart, fun n hn => ?_, ?_, ?_, ?_⟩
  · rw [part_modPart_other f hn, hclose]
    exact modAt_getD_other _ _ _ _ _ hn
  · rw [hclose]
    simp [State.modPart]
  · rw [hclose]; rfl
  · rw [hexec, execGristCycleEnd, hcycle]
    dsimp only
    rw [if_neg hnone, replies_none hw hclosed]
    have hwave : (((s.closeCycle part).modPart part f).part part).wave y.prio = some { w with leg := w.leg + 1 } := by
      rw [hpart]
      exact (nextLeg_wave _ _ _).1
    change Host.Outcome.next (match (((s.closeCycle part).modPart part f).part part).wave y.prio with
      | none => (s.closeCycle part).modPart part f
      | some w => if ((s.closeCycle part).modPart part f).waveOver part y.prio w then ((s.closeCycle part).modPart part f).endWave part y.prio
        else ((s.closeCycle part).modPart part f).dropVoidAdvances w) = _
    rw [hwave]

/-- A wave that ends with every step closed and every reply sent: counted, and nothing else of it left. -/
theorem endWave_spec {s : State} {part : Nat} {prio : Bool} {w : Wave} (hlen : part < s.parts.length)
    (hw : (s.part part).wave prio = some w) (hclosed : ∀ u ∈ w.runs, u.closed = 2) (hvoid : ∀ u ∈ w.runs, u.void = false)
    (htrain : w.train = none) (hold : ∀ e ∈ s.malt.old, e.1 = part → e.2.1 ≠ prio) :
    ((s.endWave part prio).part part).cycle = (s.part part).cycle ∧ ((s.endWave part prio).part part).wave prio = none ∧
      ((s.endWave part prio).part part).waves = sat32 ((s.part part).waves + 1) ∧
      (∀ n, n ≠ part → (s.endWave part prio).part n = s.part n) ∧
      s.endWave part prio = { s with parts := (s.endWave part prio).parts } := by
  have hunclosed : (w.runs.filter fun u => !u.void && u.closed == 0 && u.kind != .train) = [] :=
    List.filter_eq_nil_iff.2 fun u hu hc => by simp [hclosed u hu] at hc
  let f (p : Partition) : Partition :=
    let p := { p.setWave prio none with waves := sat32 (p.waves + 1) }
    if prio then { p with bulkFirst := p.suspended } else { p with suspended := false, remaining := [], bulkFirst := false }
  have hkept : s.malt.old.filter (fun e => !(e.1 == part && e.2.1 == prio)) = s.malt.old :=
    List.filter_eq_self.2 fun e he => by simpa [Decidable.imp_iff_not_or] using hold e he
  have hgone : s.malt.old.filter (fun e => e.1 == part && e.2.1 == prio) = [] :=
    List.filter_eq_nil_iff.2 fun e he => by simpa using hold e he
  have hfree : (s.modPart part f).freeOld part prio = s.modPart part f := by
    show (s.malt.old.filter (fun e => e.1 == part && e.2.1 == prio)).foldl (fun s e => s.unpin e.2.2.2)
      { s.modPart part f with malt := { s.malt with old := s.malt.old.filter fun e => !(e.1 == part && e.2.1 == prio) } } = _
    rw [hkept, hgone]
    rfl
  have hend : s.endWave part prio = s.modPart part f := by
    unfold State.endWave
    rw [replies_none hw (fun u hu => by rw [hclosed u hu]; decide)]
    dsimp only
    rw [hw]
    dsimp only
    rw [hunclosed, List.foldl_nil]
    change State.endTrainWave (((s.modPart part f).freeOld part prio).dropVoidAdvances w) w = _
    rw [hfree, dropVoidAdvances_none hvoid, State.endTrainWave, htrain]
  have hpart : (s.endWave part prio).part part = f (s.part part) := by rw [hend, part_modPart f hlen]
  rw [hpart]
  refine ⟨?_, ?_, ?_, fun n hn => by rw [hend, part_modPart_other f hn], by rw [hend]; rfl⟩
  all_goals cases prio <;> rfl

/-! ### What the end of work leaves of logs, commands and waves -/

/-- The completion logs, the commands, and in which partitions a bulk wave stands. -/
def State.ledger (s : State) : List (List (List W32)) × List Cmd × List Bool := (s.logs, s.cmds, s.parts.map fun p => p.bulk.isSome)

theorem ledger_of_offRack {s t : State} (h : t.offRack = s.offRack) : t.ledger = s.ledger := by
  rw [frame_of_offRack h]; rfl

theorem ledger_of_portEnds {s t : State} (h : PortEnds s t) : t.ledger = s.ledger := by
  rw [h.frame]; rfl

theorem voidWhere_ledger (s : State) (f : WaveRun → Bool) : (s.voidWhere f).ledger = s.ledger := by
  simp [State.ledger, State.voidWhere]

theorem modPart_ledger {s : State} {n : Nat} {f : Partition → Partition} (h : (f (s.part n)).bulk.isSome = (s.part n).bulk.isSome) :
    (s.modPart n f).ledger = s.ledger := by
  have hmap : (modAt s.parts n f).map (fun p => p.bulk.isSome) = s.parts.map fun p => p.bulk.isSome := by
    refine List.ext_getElem? fun j => ?_
    rw [List.getElem?_map, List.getElem?_map, modAt_getElem?]
    split
    next hj =>
      subst hj
      cases hp : s.parts[j]? with
      | none => rfl
      | some p =>
        have hpart : s.part j = p := by rw [State.part, List.getD_eq_getElem?_getD, hp]; rfl
        rw [hpart] at h
        exact congrArg some h
    · rfl
  simp only [State.ledger, State.modPart, hmap]

theorem sendReply_ledger (s : State) (c : Ctxt) (stream : Nat) (st : Stream) (code : Code) (final : Bool) (data : List Byte) :
    (s.sendReply c stream st code final data).ledger = s.ledger := by
  unfold State.sendReply
  refine foldl_keeps State.ledger _ (fun u x => ?_) _ _
  split <;> rfl

theorem endReq_ledger (s : State) (k : Nat) (code : Code) (data : List Byte) : (s.endReq k code data).ledger = s.ledger := by
  have hserve (u : State) (r : Req) (st : Stream) : (u.serveAfter k r st).ledger = u.ledger := by
    unfold State.serveAfter
    dsimp only
    split
    · split <;> rfl
    · rfl
  have hreply (u : State) (r : Req) (st : Stream) : (u.replyEnd r st code data).ledger = u.ledger := by
    unfold State.replyEnd
    split
    · exact sendReply_ledger u _ _ _ _ _ _
    · rfl
  cases h : (s.req k).open_ with
  | false => rw [endReq_closed h]
  | true =>
    rw [endReq_open h, hserve, ledger_of_portEnds (answerEnd_portEnds _ _ _ _), hreply]
    exact voidWhere_ledger _ _

theorem settle_ledger (n i : Nat) (s : State) : (State.settle n i s).ledger = s.ledger := by
  induction n generalizing s with
  | zero => rfl
  | succ n ih =>
    unfold State.settle
    split
    · rfl
    · split
      · rw [ih, endReq_ledger]
      · rfl

theorem abandon_ledger (s : State) (i : Nat) : (s.abandon i).ledger = s.ledger := by
  have hmod (u : State) (f : Stream → Stream) : (u.modStream i f).ledger = u.ledger := rfl
  rw [State.abandon, hmod, ledger_of_offRack (dropAdvances_offRack _ _), State.voidRuns, voidWhere_ledger]

theorem abandonAll_ledger (s : State) (i : Nat) : (s.abandonAll i).ledger = s.ledger := by
  rw [State.abandonAll, abandon_ledger, voidWhere_ledger]

theorem retier_ledger (s : State) (i : Nat) : (s.retier i).ledger = s.ledger := ledger_of_offRack (State_retier_offRack s i)

theorem pauseStream_ledger (s : State) (i : Nat) (cause : Code) : (s.pauseStream i cause).ledger = s.ledger := by
  rw [State.pauseStream, retier_ledger, abandonAll_ledger]
  rfl

theorem pauseNow_ledger (s : State) (k : Nat) : (s.pauseNow k).ledger = s.ledger := by
  rw [State.pauseNow, endReq_ledger, retier_ledger, abandonAll_ledger]
  rfl

theorem resumeNow_ledger (s : State) (k : Nat) : (s.resumeNow k).ledger = s.ledger := by
  rw [State.resumeNow, endReq_ledger, retier_ledger]
  rfl

theorem deferred_ledger (s : State) (part : Nat) : (s.deferred part).ledger = s.ledger := by
  rw [deferred_eq, foldl_keeps State.ledger _ fun u k => ?_, foldl_keeps State.ledger _ fun u e => ?_]
  · unfold State.pauseDue
    split
    · split
      · exact pauseStream_ledger u _ _
      · rfl
    · rfl
  · split
    · exact pauseNow_ledger u k
    · exact resumeNow_ledger u k

theorem closeCycle_ledger (s : State) (part : Nat) : (s.closeCycle part).ledger = s.ledger := by
  have hmod (u : State) (f : Rack → Rack) : (u.modRack f).ledger = u.ledger := rfl
  rw [State.closeCycle, hmod, deferred_ledger]
  exact modPart_ledger rfl

theorem replyRun_ledger (s : State) (u : WaveRun) : (s.replyRun u).ledger = s.ledger := by
  unfold State.replyRun
  dsimp only
  split
  · rfl
  · split
    · rfl
    · split
      · rw [settle_ledger, endReq_ledger]
      · split
        · exact sendReply_ledger s _ _ _ _ _ _
        · rfl

theorem setWave_bulk {p : Partition} {prio : Bool} {w : Option Wave} (h : w.isSome = (p.wave prio).isSome) :
    (p.setWave prio w).bulk.isSome = p.bulk.isSome := by
  cases prio
  · exact h
  · rfl

theorem passOff_ledger (s : State) (k : Nat) : (s.passOff k).ledger = s.ledger := by
  unfold State.passOff
  split <;> rfl

theorem undo_ledger (s : State) (c : Cmd) : (s.undo c).ledger = s.ledger := by
  have hstop (u : State) (k : Nat) : (u.stopArray c k).ledger = u.ledger := passOff_ledger u k
  have hrack (u : State) : (((u.unpinAll c.pins).giveBackAll c.taken).dropGrants c.shape.rows).offRack = u.offRack := by
    simp [State.unpinAll]
  have huntake (u : State) : (u.untake c.id).ledger = u.ledger := rfl
  unfold State.undo
  dsimp only
  rw [huntake, ledger_of_offRack (hrack _)]
  split
  · exact foldl_keeps State.ledger _ hstop _ _
  · rfl

/-! ### Ticks -/

/-- In which partitions a bulk wave stands. -/
def State.bulks (s : State) : List Bool := s.parts.map fun p => p.bulk.isSome

theorem bulks_of_ledger {s t : State} (h : t.ledger = s.ledger) : t.bulks = s.bulks := congrArg (·.2.2) h

theorem bulk_of_bulks {s t : State} (h : t.bulks = s.bulks) (n : Nat) :
    (t.part n).bulk.isSome = (s.part n).bulk.isSome ∧ t.parts.length = s.parts.length := by
  have hlen : t.parts.length = s.parts.length := by simpa [State.bulks] using congrArg List.length h
  have hget := congrArg (fun l => l[n]?) h
  simp only [State.bulks, List.getElem?_map] at hget
  refine ⟨?_, hlen⟩
  simp only [State.part, List.getD_eq_getElem?_getD]
  cases ht : t.parts[n]? <;> cases hs : s.parts[n]? <;> simp_all

theorem replies_ledger (s : State) (part : Nat) (prio : Bool) : (s.replies part prio).ledger = s.ledger := by
  unfold State.replies
  split
  next => rfl
  next w hw =>
    dsimp only
    rw [foldl_keeps State.ledger _ replyRun_ledger]
    exact modPart_ledger (setWave_bulk (by rw [hw]; rfl))

theorem promoteAll_offRack (s : State) (hs : List Handle) : (s.promoteAll hs).offRack = s.offRack :=
  offRack_foldl _ (fun u h => State_promote_offRack u h) _ _

theorem assembleClass_parts (s : State) (part : Nat) (cls : Bool) :
    (s.assembleClass part cls).2.parts = s.parts ∧ (s.assembleClass part cls).2.power = s.power := by
  have hres (u : State) (i : Nat) : (u.residency i).parts = u.parts ∧ (u.residency i).power = u.power := by
    rw [State.residency, frame_of_offRack (promoteAll_offRack _ _)]
    exact ⟨rfl, rfl⟩
  exact ⟨foldl_keeps State.parts _ (fun u i => (hres u i).1) _ _, foldl_keeps State.power _ (fun u i => (hres u i).2) _ _⟩

theorem cutBulk_bulks (s : State) (part : Nat) : (s.cutBulk part).bulks = s.bulks := by
  have hlog (u : State) (c : Cmd) (arr : Nat) : (u.logKill c cRerun arr).bulks = u.bulks := by
    have hsame : (u.logKill c cRerun arr).bulks = (u.undo c).bulks := rfl
    rw [hsame, bulks_of_ledger (undo_ledger u c)]
  have hdrop (u : State) (id : Nat) : (u.dropCmd id).bulks = u.bulks := rfl
  unfold State.cutBulk
  dsimp only
  refine (bulks_of_ledger (modPart_ledger ?_)).trans ?_
  · simp
  · rw [foldl_keeps State.bulks _ fun u (c : Cmd) => hdrop u c.id, foldl_keeps State.bulks _ fun u (c : Cmd) => ?_]
    rw [hdrop, hlog]
    rfl

theorem suspended_of_parts {s t : State} {part : Nat} (h : t.parts = s.parts) (hs : (s.part part).suspended = true) :
    (t.part part).suspended = true := by
  rwa [State.part, h]

/-- A priority wave that begins leaves the bulk wave of its partition suspended. -/
theorem startPrio_suspended {s : State} {part : Nat} {w : Wave} (hlen : part < s.parts.length)
    (hbulk : (s.part part).bulk.isSome = true) : ((s.startPrio part w).part part).suspended = true := by
  let f (p : Partition) : Partition :=
    let p := { p with prio := some w }
    if p.bulk.isSome && !p.suspended then { p with suspended := true, suspensions := sat32 (p.suspensions + 1) } else p
  have hf : ((s.modPart part f).part part).suspended = true := by
    rw [part_modPart f hlen]
    cases hsus : (s.part part).suspended <;> simp [f, hbulk, hsus]
  have hrun (u : State) (h : (u.part part).suspended = true) (hl : part < u.parts.length) :
      ((u.runCycle part true).part part).suspended = true := by
    unfold State.runCycle
    split
    · exact h
    next w hw =>
      split
      · exact h
      next p hp =>
        dsimp only
        refine suspended_of_parts (foldl_keeps State.parts _ (fun _ _ => ?_) _ _) ?_
        · rfl
        · exact (congrArg Partition.suspended (modAt_getD_same u.parts part _ _ hl)).trans h
  exact hrun _ hf (by simpa [State.modPart] using hlen)

/-- A bulk cycle that must not run first gives way where a priority wave can be assembled. -/
theorem preempt_suspends {s : State} {part : Nat} {w : Wave} {u : State} (hlen : part < s.parts.length)
    (hprio : (s.part part).prio = none) (hfirst : (s.part part).bulkFirst = false) (hentry : s.power.entry = none)
    (hbulk : (s.part part).bulk.isSome = true) (hwave : s.assembleClass part true = (some w, u)) :
    ((s.preempt part).part part).suspended = true := by
  have hu : u.bulks = s.bulks := by
    have := (assembleClass_parts s part true).1
    rw [hwave] at this
    exact congrArg (List.map _) this
  have hcut : (((u.cutBulk part).replies part false).closeCycle part).bulks = s.bulks := by
    rw [bulks_of_ledger (closeCycle_ledger _ _), bulks_of_ledger (replies_ledger _ _ _), cutBulk_bulks, hu]
  unfold State.preempt
  dsimp only
  rw [if_neg (by simp [hprio, hfirst, hentry]), hwave]
  dsimp only
  generalize ((u.cutBulk part).replies part false).closeCycle part = v at hcut
  have hv : (v.assembleClass part true).2.bulks = s.bulks := (congrArg (List.map _) (assembleClass_parts v part true).1).trans hcut
  split
  next x t ht =>
    rw [ht] at hv
    obtain ⟨hb, hl⟩ := bulk_of_bulks hv part
    exact startPrio_suspended (hl ▸ hlen) (hb.trans hbulk)
  next t ht =>
    rw [ht] at hv
    obtain ⟨-, hl⟩ := bulk_of_bulks hv part
    rw [part_modPart _ (hl ▸ hlen)]

/-- The partition of a running cycle that a tick has reached. -/
def Partition.ticked (p : Partition) (y : Cycle) : Partition :=
  { p with cycle := some { y with ticks := y.ticks + 1, overran := true }
           overruns := if y.ticks = 0 then sat32 (p.overruns + 1) else p.overruns }

theorem exec_gristTick {s : State} {part : Nat} {y : Cycle} (hcycle : (s.part part).cycle = some y) :
    exec (.gristTick part) s = .next (
      if y.prio then s.modPart part (Partition.ticked · y) else (s.modPart part (Partition.ticked · y)).preempt part) := by
  have hexec : exec (.gristTick part) s = execGristTick part s := rfl
  rw [hexec, execGristTick, hcycle]
  rfl

theorem preempt_first {s : State} {part : Nat} (h : (s.part part).bulkFirst = true) : s.preempt part = s := by
  unfold State.preempt
  dsimp only
  rw [if_pos (by simp [h])]

end Sys2Proof.Machine

namespace Sys2Proof.Proofs

open Sys2Proof.Machine

/-- Settles O31: a cycle's start is a fold that places its leg; its end and its ticks change the partition alone. -/
theorem cyclesRun : Obligations.CyclesRun := by
  refine ⟨fun s part prio w p a b hrun hlen hcycle hnext hover hp hleg => ?_,
    fun s part y w p hlen hcycle hcmds hw hreq hstream hp hsuspect hruns => ⟨fun hmore => ?_, fun hover hclosed htrain hold => ?_⟩,
    fun s part y hlen hcycle => ⟨fun hkeep => ?_, fun w u hprio hfirst hnone hentry hbulk hwave => ?_⟩⟩
  · have hwave : (s.part part).wave prio = some w := by
      cases prio with
      | true => exact hnext
      | false => exact hnext.2.2.1
    have hrest : prio = true ∨ (s.part part).remaining = [] := by
      cases prio with
      | true => exact .inl rfl
      | false => exact .inr hnext.2.2.2
    obtain ⟨new, hspec⟩ := runCycle_spec hlen hwave hp hleg hrest
    exact ⟨_, new, exec_gristCycleStart hrun hcycle hnext hover, hspec⟩
  · obtain ⟨u, hpart, hother, -, hframe, hexec⟩ :=
      exec_gristCycleEnd hlen hcycle hcmds hw hreq hstream fun r hr => (hruns r hr).2
    have hgoes : u.waveOver part y.prio { w with leg := w.leg + 1 } = false := by
      rw [waveOver_iff (w := { w with leg := w.leg + 1 }) (by rw [hframe]; exact hp) hsuspect (fun r hr => (hruns r hr).1)
        (by rw [hframe]; exact hcmds)]
      simpa using hmore
    rw [hgoes, dropVoidAdvances_none (w := { w with leg := w.leg + 1 }) fun r hr => (hruns r hr).1] at hexec
    obtain ⟨hleg, hnone, -⟩ := nextLeg_wave (s.part part) y.prio w
    exact ⟨u, hexec, by rw [hpart, hnone], by rw [hpart, hleg], hother, hframe⟩
  · obtain ⟨u, hpart, hother, hlenu, hframe, hexec⟩ :=
      exec_gristCycleEnd hlen hcycle hcmds hw hreq hstream fun r hr => (hruns r hr).2
    obtain ⟨hleg, hnone, hwaves⟩ := nextLeg_wave (s.part part) y.prio w
    have hends : u.waveOver part y.prio { w with leg := w.leg + 1 } = true := by
      rw [waveOver_iff (w := { w with leg := w.leg + 1 }) (by rw [hframe]; exact hp) hsuspect (fun r hr => (hruns r hr).1)
        (by rw [hframe]; exact hcmds)]
      simpa using hover
    have hmalt : u.malt = s.malt := by rw [hframe]
    obtain ⟨hcyc, hgone, hcount, hrest, hsame⟩ := endWave_spec (w := { w with leg := w.leg + 1 }) (hlenu ▸ hlen)
      (by rw [hpart]; exact hleg) hclosed (fun r hr => (hruns r hr).1) htrain
      (hmalt ▸ hold)
    rw [hends] at hexec
    refine ⟨_, hexec, ?_, hgone, ?_, fun n hn => (hrest n hn).trans (hother n hn), ?_⟩
    · change ((u.endWave part y.prio).part part).cycle = none
      rw [hcyc, hpart, hnone]
    · change ((u.endWave part y.prio).part part).waves = _
      rw [hcount, hpart, hwaves]
    · change u.endWave part y.prio = _
      rw [if_pos rfl, hsame, hframe]
  · have hexec := exec_gristTick hcycle
    have hstays : (if y.prio then s.modPart part (Partition.ticked · y) else (s.modPart part (Partition.ticked · y)).preempt part) =
        s.modPart part (Partition.ticked · y) := by
      split
      · rfl
      next hbulk =>
        have hfirst := hkeep.resolve_left hbulk
        exact preempt_first (by rw [part_modPart _ hlen]; exact hfirst)
    rw [hstays] at hexec
    exact ⟨_, hexec, part_modPart _ hlen, fun n hn => part_modPart_other _ hn, rfl⟩
  · have hexec := exec_gristTick hcycle
    rw [hprio] at hexec
    have hpart : (s.modPart part (Partition.ticked · y)).part part = (s.part part).ticked y := part_modPart _ hlen
    refine ⟨_, hexec, preempt_suspends (by simpa [State.modPart] using hlen) (by rw [hpart]; exact hnone) (by rw [hpart]; exact hfirst)
      hentry ?_ hwave⟩
    rw [hpart]
    exact Option.isSome_iff_ne_none.2 hbulk

end Sys2Proof.Proofs
end

section
/-! SUPPORT. What preparing a command's effects leaves as it was (R137, R165 to R169). -/

namespace Sys2Proof.Machine

/-! ### The frame of leaves and streams -/

/-- The state without the leaves and the streams' entries. -/
def State.offPrep (s : State) : State := { s.offRack with streams := [] }

theorem frame_of_offPrep {s t : State} (h : t.offPrep = s.offPrep) :
    t = { s with draws := t.draws, rack := t.rack, cellar := t.cellar, streams := t.streams } := by
  calc t = { t.offPrep with draws := t.draws, rack := t.rack, cellar := t.cellar, streams := t.streams } := rfl
    _ = { s.offPrep with draws := t.draws, rack := t.rack, cellar := t.cellar, streams := t.streams } := by rw [h]
    _ = { s with draws := t.draws, rack := t.rack, cellar := t.cellar, streams := t.streams } := rfl

theorem offPrep_of_offRack {s t : State} (h : t.offRack = s.offRack) : t.offPrep = s.offPrep := by
  rw [State.offPrep, h]; rfl

@[simp] theorem modStream_offPrep (s : State) (i : Nat) (f : Stream → Stream) : (s.modStream i f).offPrep = s.offPrep := rfl

@[simp] theorem addRef_offPrep (s : State) (h : Handle) : (s.addRef h).offPrep = s.offPrep := by
  unfold State.addRef
  split
  · rfl
  · exact offPrep_of_offRack (State_modLeaf_offRack s h _)

@[simp] theorem patchCask_offPrep (s : State) (h : Handle) (f : Bytes → Bytes) : (s.patchCask h f).offPrep = s.offPrep :=
  offPrep_of_offRack (State_patchCask_offRack s h f)

/-! ### Leaves taken -/

theorem newLeaves_offRack {part n : Nat} {s : State} {r : List Handle × State} (h : State.newLeaves part n s = some r) :
    r.2.offRack = s.offRack := by
  induction n generalizing s r with
  | zero =>
    obtain rfl : ([], s) = r := Option.some.inj h
    rfl
  | succ n ih =>
    unfold State.newLeaves at h
    split at h
    · cases h
    next f hf =>
      dsimp only at h
      split at h
      next hs u hrest =>
        obtain rfl := Option.some.inj h
        exact (ih hrest).trans (State_newLeaf_offRack s part 1 f)
      · cases h

theorem newQuire_offRack {s : State} {part : Nat} {r : List Handle × State} (h : s.newQuire part = some r) : r.2.offRack = s.offRack := by
  unfold State.newQuire at h
  split at h
  · exact newLeaves_offRack h
  · cases h

theorem takeFree_offRack {s : State} {i fmt : Nat} {r : Handle × Bool × State} (h : s.takeFree i fmt = some r) :
    r.2.2.offRack = s.offRack := by
  unfold State.takeFree at h
  dsimp only at h
  split at h
  next q rest hq =>
    obtain rfl := Option.some.inj h
    simp
  next hq =>
    split at h
    next x rest u hquire =>
      obtain rfl := Option.some.inj h
      simpa using newQuire_offRack hquire
    next =>
      split at h
      next f hf =>
        obtain rfl := Option.some.inj h
        simp
      next =>
        split at h
        next root x hdonor =>
          obtain rfl := Option.some.inj h
          simp
        next =>
          split at h
          next f u hevict =>
            obtain rfl := Option.some.inj h
            simpa using State_evictClean_offRack s _ _ _ hevict
          · cases h

theorem takeLeaf_offRack {s : State} {i fmt : Nat} {r : Handle × Bool × State} (h : s.takeLeaf i fmt = some r) :
    r.2.2.offRack = s.offRack := by
  unfold State.takeLeaf at h
  dsimp only at h
  split at h
  next g hg =>
    obtain rfl := Option.some.inj h
    simp
  · exact takeFree_offRack h

/-! ### Effects prepared -/

theorem foldl_prep {α : Type} (g : Prep → α → Prep) (h : ∀ p x, (g p x).s.offPrep = p.s.offPrep) (l : List α) (p : Prep) :
    (l.foldl g p).s.offPrep = p.s.offPrep := by
  induction l generalizing p with
  | nil => rfl
  | cons a l ih => exact (ih _).trans (h p a)

@[simp] theorem prepAdd_offPrep (p : Prep) (es : List Eff) : (p.add es).s.offPrep = p.s.offPrep := rfl

@[simp] theorem prepTake_offPrep (p : Prep) (i fmt : Nat) : (p.take i fmt).2.s.offPrep = p.s.offPrep := by
  unfold Prep.take
  split
  next h own u hleaf => exact offPrep_of_offRack (takeLeaf_offRack hleaf)
  · rfl

@[simp] theorem prepRoot_offPrep (p : Prep) (i : Nat) : (p.root i).2.s.offPrep = p.s.offPrep := by
  unfold Prep.root
  dsimp only
  split <;> rfl

@[simp] theorem prepShare_offPrep (i : Nat) (g : HistForm) (n : Nat) (owner : Handle) (first : Nat) (e : Nat × Handle) (p : Prep) :
    (Prep.share i g n owner first e p).s.offPrep = p.s.offPrep := by
  induction n generalizing owner first e p with
  | zero => rfl
  | succ n ih =>
    unfold Prep.share
    dsimp only
    split
    · exact addRef_offPrep _ _
    · split
      · exact prepTake_offPrep _ _ _
      · split
        · refine (foldl_prep _ (fun p y => ih _ _ _ _) _ _).trans ?_
          simp
        · simp

@[simp] theorem prepPlace_offPrep (p : Prep) (k : Nat × Nat × Nat) (cur parent : Handle) (off fmt : Nat) (always : Bool)
    (fill : Option Bytes → Bytes → Bytes) : (p.place k cur parent off fmt always fill).2.s.offPrep = p.s.offPrep := by
  unfold Prep.place
  dsimp only
  split
  · rfl
  · split
    · rfl
    · split
      · exact prepTake_offPrep _ _ _
      · simp

@[simp] theorem prepWindow_offPrep (p : Prep) (i k : Nat) : (p.window i k).2.s.offPrep = p.s.offPrep := by
  simp [Prep.window]

@[simp] theorem prepOutput_offPrep (p : Prep) (i k : Nat) : (p.output i k).2.s.offPrep = p.s.offPrep := by
  simp [Prep.output]

@[simp] theorem prepSpine_offPrep (p : Prep) (i k : Nat) : (p.spine i k).2.s.offPrep = p.s.offPrep := by
  unfold Prep.spine
  dsimp only
  split
  · rfl
  · split
    · simp
    · refine (foldl_prep _ (fun p e => prepShare_offPrep _ _ _ _ _ _ _) _ _).trans ?_
      simp

@[simp] theorem prepHistory_offPrep (p : Prep) (i r chain : Nat) : (p.history i r chain).2.s.offPrep = p.s.offPrep := by
  unfold Prep.history
  dsimp only
  split
  · rfl
  · split
    · rfl
    · split
      · simp
      · simp

@[simp] theorem prepCopyState_offPrep (p : Prep) (i : Nat) (cur : Handle) : (p.copyState i cur).2.s.offPrep = p.s.offPrep := by
  unfold Prep.copyState
  dsimp only
  split
  · simp
  · refine (foldl_prep _ (fun p e => prepShare_offPrep _ _ _ _ _ _ _) _ _).trans ?_
    simp

@[simp] theorem prepStateLeaf_offPrep (p : Prep) (i : Nat) : (p.stateLeaf i).2.s.offPrep = p.s.offPrep := by
  unfold Prep.stateLeaf
  dsimp only
  split
  · rfl
  · split
    · rfl
    · split <;> simp

@[simp] theorem prepPage_offPrep (p : Prep) (i k pos : Nat) : (p.page i k pos).2.s.offPrep = p.s.offPrep := by
  unfold Prep.page
  dsimp only
  split
  · simp
  · split
    · simp
    · split <;> simp

@[simp] theorem prepOutBytes_offPrep (i n off : Nat) (bs : List Byte) (p : Prep) :
    (Prep.outBytes i n off bs p).s.offPrep = p.s.offPrep := by
  induction n generalizing off bs p with
  | zero => rfl
  | succ n ih =>
    unfold Prep.outBytes
    dsimp only
    split
    · rfl
    · split
      · rfl
      · rw [ih, prepAdd_offPrep, prepOutput_offPrep]

@[simp] theorem prepStateBytes_offPrep (i pos n off : Nat) (bs : List Byte) (p : Prep) :
    (Prep.stateBytes i pos n off bs p).s.offPrep = p.s.offPrep := by
  induction n generalizing off bs p with
  | zero => rfl
  | succ n ih =>
    unfold Prep.stateBytes
    dsimp only
    split
    · rfl
    · split
      · rfl
      · rw [ih, prepAdd_offPrep, prepPage_offPrep]

@[simp] theorem prepAppend_offPrep (p : Prep) (i pos count : Nat) : (p.append i pos count).s.offPrep = p.s.offPrep := by
  have hrows (rs : List Nat) (f : Nat → Nat) (cs : List Nat) (p : Prep) :
      (rs.foldl (fun p k => cs.foldl (fun p c => if p.fail || p.beyond then p else (p.history i (f k) c).2) p) p).s.offPrep =
        p.s.offPrep := by
    refine foldl_prep _ (fun p k => foldl_prep _ (fun p c => ?_) _ _) _ _
    split
    · rfl
    · exact prepHistory_offPrep _ _ _ _
  unfold Prep.append
  dsimp only
  split
  · rfl
  · split
    · exact hrows _ _ _ _
    · refine (foldl_prep _ (fun p k => ?_) _ _).trans (hrows _ _ _ _)
      split
      · rfl
      · exact prepWindow_offPrep _ _ _

@[simp] theorem prepChildRoot_offPrep (p : Prep) (i : Nat) : (p.childRoot i).2.s.offPrep = p.s.offPrep := by
  unfold Prep.childRoot
  split
  next h rest u hquire =>
    have hu := newQuire_offRack hquire
    exact offPrep_of_offRack (by simpa using hu)
  · exact prepTake_offPrep _ _ _

@[simp] theorem prepFork_offPrep (p : Prep) (i parent : Nat) (prio : Bool) : (p.fork i parent prio).s.offPrep = p.s.offPrep := by
  have hnames (g : HistForm) (root : Handle) (l : List (Nat × Handle)) (p : Prep) :
      (l.foldl (fun p e => Prep.share i g shareDepth root 0 e p) p).s.offPrep = p.s.offPrep :=
    foldl_prep _ (fun p e => prepShare_offPrep _ _ _ _ _ _ _) _ _
  have hstate (c : Prop) [Decidable c] (x : Handle) (p : Prep) (st : Handle) :
      (if c then (x, p) else p.copyState i st).2.s.offPrep = p.s.offPrep := by
    split
    · rfl
    · exact prepCopyState_offPrep _ _ _
  unfold Prep.fork
  dsimp only
  split
  · rfl
  · split
    · simp
    · simp only [modStream_offPrep, hstate, hnames, patchCask_offPrep, prepChildRoot_offPrep]

@[simp] theorem prepTrim_offPrep (p : Prep) (i pos : Nat) : (p.trim i pos).s.offPrep = p.s.offPrep := by
  unfold Prep.trim
  dsimp only
  rw [prepAdd_offPrep]
  split
  · exact prepRoot_offPrep _ _
  · rw [prepSpine_offPrep, prepRoot_offPrep]

@[simp] theorem prepEff_offPrep (p : Prep) (e : Eff) : (p.eff e).s.offPrep = p.s.offPrep := by
  unfold Prep.eff
  split
  · rfl
  · split
    case h_3 =>
      dsimp only
      split
      · rfl
      · exact prepOutput_offPrep _ _ _
    case h_8 =>
      dsimp only
      split <;> rfl
    all_goals simp

@[simp] theorem prepHistRow_offPrep (all : List HistRow) (p : Prep) (r : HistRow) : (Prep.histRow all p r).s.offPrep = p.s.offPrep := by
  unfold Prep.histRow
  dsimp only
  split
  · simp
  · split
    · simp
    · split
      · simp
      · split
        · simp
        · split <;> simp

/-- Effects prepared for a command change leaves and streams alone. -/
theorem prepAll_offPrep (s : State) (es : List (Nat × List Eff)) : (Prep.all s es).s.offPrep = s.offPrep := by
  have hnote (k : Nat) (p q : Prep) : (Prep.noteCore k p q).s = q.s := rfl
  unfold Prep.all
  dsimp only
  refine (foldl_prep _ (fun p r => ?_) _ _).trans (foldl_prep _ (fun p x => foldl_prep _ (fun p e => ?_) _ _) _ _)
  · split
    · rfl
    · rw [hnote, prepHistRow_offPrep]
  · rw [hnote, prepEff_offPrep]

end Sys2Proof.Machine
end

section
/-! SUPPORT. The issue of plan commands (R33, R55, R129, R139, R537). -/

namespace Sys2Proof.Machine

/-! ### Pins -/

theorem promoteHeat_offRack (s : State) (h : Handle) : (s.promoteHeat h).offRack = s.offRack := by
  unfold State.promoteHeat
  dsimp only
  split
  · rfl
  · split
    next f u hf =>
      have hu : u.offRack = s.offRack := by
        split at hf
        · obtain ⟨-, rfl⟩ := Prod.mk.inj (Option.some.inj hf)
          rfl
        · exact State_evictClean_offRack s _ _ _ hf
      rw [State_modLeaf_offRack, State_startMove_offRack, hu]
    · rfl

theorem storeCopy_offRack (s : State) (h : Handle) (sec : Nat) : (s.storeCopy h sec).offRack = s.offRack := by
  unfold State.storeCopy
  dsimp only
  split
  · exact State_startMove_offRack _ _
  · rfl

theorem pin_offRack (s : State) (h : Handle) (cores : List Nat) : (s.pin h cores).offRack = s.offRack := by
  unfold State.pin
  dsimp only
  rw [offRack_foldl _ fun u sec => storeCopy_offRack u h sec, promoteHeat_offRack, modRack_offRack, State_setLeaf_offRack]

theorem pinQuiet_offRack (s : State) (h : Handle) : (s.pinQuiet h).offRack = s.offRack := State_modLeaf_offRack _ _ _

/-! ### Serial numbers and generators -/

/-- The serial number of each core. -/
def State.serials (s : State) : List (BitVec 48) := s.cores.map (·.serial)

theorem serials_modCore {s : State} {k : Nat} {f : CoreSt → CoreSt} (h : ∀ x, (f x).serial = x.serial) :
    (s.modCore k f).serials = s.serials := by
  refine List.ext_getElem? fun j => ?_
  rw [State.serials, State.serials, List.getElem?_map, List.getElem?_map, State.modCore, modAt_getElem?]
  split
  · rw [Option.map_map]
    exact congrArg (fun g => Option.map g s.cores[j]?) (funext h)
  · rfl

theorem core_of_serials {s t : State} (h : t.serials = s.serials) {k : Nat} {y : CoreSt} (hy : s.cores[k]? = some y) :
    ∃ z, t.cores[k]? = some z ∧ z.serial = y.serial := by
  have hk := congrArg (fun l => l[k]?) h
  simp only [State.serials, List.getElem?_map, hy, Option.map_some] at hk
  obtain ⟨z, hz, hserial⟩ := Option.map_eq_some_iff.1 hk
  exact ⟨z, hz, hserial⟩

/-- The seeding of a command's cores takes one serial number on each and changes the cores alone. -/
theorem seed_cores {cores : List Nat} (hnodup : cores.Nodup) (s : State) {k : Nat} {y : CoreSt} (hy : s.cores[k]? = some y) :
    ∃ z, (s.seed cores).cores[k]? = some z ∧ z.serial = if k ∈ cores then y.serial + 1 else y.serial := by
  have hfold (l : List Nat) (f : Nat → CoreSt → CoreSt) (hf : ∀ k x, (f k x).serial = x.serial + 1) (hl : l.Nodup) (u : State) (y : CoreSt)
      (hy : u.cores[k]? = some y) : ∃ z, (l.foldl (fun s k => { s with cores := modAt s.cores k (f k) }) u : State).cores[k]? = some z ∧
        z.serial = if k ∈ l then y.serial + 1 else y.serial := by
    induction l generalizing u y with
    | nil => exact ⟨y, hy, by simp⟩
    | cons j l ih =>
      rw [List.nodup_cons] at hl
      by_cases hj : k = j
      · subst hj
        have hstep : (modAt u.cores k (f k))[k]? = some (f k y) := by rw [modAt_getElem?, if_pos rfl, hy]; rfl
        obtain ⟨z, hz, hserial⟩ := ih hl.2 { u with cores := modAt u.cores k (f k) } (f k y) hstep
        exact ⟨z, hz, by rw [hserial, if_neg hl.1, hf]; simp⟩
      · have hstep : (modAt u.cores j (f j))[k]? = some y := by rw [modAt_getElem?, if_neg hj, hy]
        obtain ⟨z, hz, hserial⟩ := ih hl.2 { u with cores := modAt u.cores j (f j) } y hstep
        exact ⟨z, hz, by rw [hserial]; simp [hj]⟩
  exact hfold cores _ (fun _ _ => rfl) hnodup s y hy

theorem seed_offCores (s : State) (cores : List Nat) : (s.seed cores).offCores = s.offCores := by
  unfold State.seed
  refine foldl_keeps State.offCores _ (fun u k => ?_) _ _
  rfl

theorem markBegun_frame (s : State) (c : Cmd) : s.markBegun c = { s with parts := (s.markBegun c).parts } := by
  unfold State.markBegun
  dsimp only
  split <;> rfl

/-- What the start of an issue leaves: the waves, the cores, and the command in its place have changed. -/
theorem whenIssued_frame (s : State) (c : Cmd) : s.whenIssued c = { s with
    draws := (s.whenIssued c).draws, parts := (s.whenIssued c).parts, cores := ((s.markBegun c).seed c.cores).cores
    cmds := s.cmds.map fun x => if x.id == c.id then s.asIssued c else x } := by
  have hframe := frame_of_offCores (seed_offCores (s.markBegun c) c.cores)
  unfold State.whenIssued
  generalize (s.markBegun c).seed c.cores = v at hframe ⊢
  rw [hframe, markBegun_frame]
  rfl

theorem whenIssued_serials {s : State} {c : Cmd} (hnodup : c.cores.Nodup) {k : Nat} {y : CoreSt} (hy : s.cores[k]? = some y) :
    ∃ z, (s.whenIssued c).cores[k]? = some z ∧ z.serial = if k ∈ c.cores then y.serial + 1 else y.serial := by
  have hmark : (s.markBegun c).cores[k]? = some y := by rw [markBegun_frame]; exact hy
  exact seed_cores hnodup (s.markBegun c) hmark

theorem cmd?_whenIssued {s : State} {id : Nat} {c : Cmd} (h : s.cmd? id = some c) :
    (s.whenIssued c).cmd? id = some (s.asIssued c) := by
  have hset : (s.whenIssued c).cmd? id = (s.setCmd (s.asIssued c)).cmd? id := by
    rw [whenIssued_frame]; rfl
  rw [hset]
  have hid := cmd?_id h
  exact cmd?_setCmd h hid

/-! ### The launch -/

/-- The state without what the launch of a command may change: leaves, streams, cores and received parcels. -/
def State.offLaunch (s : State) : State := { s.offPrep with cores := [], fabric := Fabric.reset }

theorem frame_of_offLaunch {s t : State} (h : t.offLaunch = s.offLaunch) :
    t = { s with draws := t.draws, rack := t.rack, cellar := t.cellar, streams := t.streams, cores := t.cores, fabric := t.fabric } := by
  calc t = { t.offLaunch with
             draws := t.draws, rack := t.rack, cellar := t.cellar, streams := t.streams, cores := t.cores, fabric := t.fabric } := rfl
    _ = { s.offLaunch with
          draws := t.draws, rack := t.rack, cellar := t.cellar, streams := t.streams, cores := t.cores, fabric := t.fabric } := by rw [h]
    _ = _ := rfl

theorem offLaunch_of_offPrep {s t : State} (h : t.offPrep = s.offPrep) : t.offLaunch = s.offLaunch := by
  rw [State.offLaunch, h]; rfl

theorem serials_of_offPrep {s t : State} (h : t.offPrep = s.offPrep) : t.serials = s.serials := by
  rw [frame_of_offPrep h]; rfl

/-- What a launch keeps: all but leaves, streams, received parcels, and of the cores the serial numbers. -/
def State.launchView (s : State) : State × List (BitVec 48) := (s.offLaunch, s.serials)

theorem launchView_of_offPrep {s t : State} (h : t.offPrep = s.offPrep) : t.launchView = s.launchView :=
  Prod.ext (offLaunch_of_offPrep h) (serials_of_offPrep h)

theorem launchView_modCore {s : State} {k : Nat} {f : CoreSt → CoreSt} (h : ∀ x, (f x).serial = x.serial) :
    (s.modCore k f).launchView = s.launchView := Prod.ext rfl (serials_modCore h)

theorem compute_launchView (s : State) (l : List (Nat × Cm (List Eff))) : (s.compute l).1.launchView = s.launchView := by
  induction l generalizing s with
  | nil => rfl
  | cons e l ih =>
    unfold State.compute
    exact (ih _).trans (launchView_modCore fun _ => rfl)

/-- A launch that meets nothing it must wait for and no fault: the command holds the effects of its cores and the leaves prepared
for them, its passes are to come, and the memories and serial numbers are as they were. -/
theorem launch_unhindered {s : State} {c : Cmd} {r : Res} {w : Work} {pins : List Handle} {p : Prep}
    (hp : p = Prep.all (s.compute w.body).1 ((s.compute w.body).2.1.map fun e => (e.core, e.effs)))
    (hcore : ((s.compute w.body).2.1.any fun e => s.coreOver c (bytesOf w.staged e.core) (bytesOf w.vec e.core) e.core e.effs) = false)
    (hsect : s.sectOver c r w.spill ((s.compute w.body).2.1.flatMap (·.effs)) = false) (hbeyond : p.beyond = false)
    (hfail : p.fail = false) (hbad : p.badLeaves = []) (hlate : realHandles (p.waits ++ p.rewriting) = [])
    (hroom : (pins ++ p.own pins ++ p.from_ pins).all p.s.pinRoom = true) :
    ∃ (q : State) (d : Cmd), s.launch c r w pins = q.setCmd d ∧ q.launchView = s.launchView ∧ d.id = c.id ∧ d.phase = c.phase ∧ d.effs = p.effs ∧
      d.taken = p.taken ∧ d.order = w.order ∧
      d.passes = (if d.order = [] then w.passes else (d.order.map fun e => e.2.length).foldl max 0) ∧ d.skewed = w.skewed ∧
      d.starved = false ∧ d.words = c.words ∧ d.cores = c.cores := by
  have hkept : p.s.launchView = s.launchView := by
    rw [hp, launchView_of_offPrep (prepAll_offPrep _ _), compute_launchView]
  have hpin (u : State) (l : List Handle) (f : Handle → List Nat) : (l.foldl (fun s h => s.pin h (f h)) u).launchView = u.launchView :=
    foldl_keeps State.launchView _ (fun v h => launchView_of_offPrep (offPrep_of_offRack (pin_offRack v h _))) _ _
  have hquiet (u : State) (l : List Handle) : (l.foldl (fun s h => s.pinQuiet h) u).launchView = u.launchView :=
    foldl_keeps State.launchView _ (fun v h => launchView_of_offPrep (offPrep_of_offRack (pinQuiet_offRack v h))) _ _
  have huses (u : State) (l : List Nat) :
      (l.foldl (fun (s : State) k => s.modCore k fun x => { x with scratch := x.scratch + 1 }) u).launchView = u.launchView := by
    refine foldl_keeps State.launchView _ (fun v k => launchView_modCore ?_) _ _
    exact fun _ => rfl
  have hgrants (u : State) (is : List Nat) : (u.dropGrants is).launchView = u.launchView :=
    launchView_of_offPrep (offPrep_of_offRack (State_dropGrants_offRack u is))
  have hfabric (u : State) (f : Fabric → Fabric) : (u.modFabric f).launchView = u.launchView := rfl
  unfold State.launch
  dsimp only
  rw [← hp, if_neg (by rw [hcore, hsect]; decide), if_neg (by rw [hbeyond]; decide), if_neg (by rw [hfail]; decide),
    if_neg (by rw [hbad]; decide), if_neg (by rw [hlate]; decide), if_neg (fun h => by rw [Bool.not_eq_true'] at h; exact absurd hroom (by
      change (pins ++ p.own pins ++ p.from_ pins).all p.s.pinRoom = false at h
      rw [h]; decide))]
  refine ⟨_, _, rfl, ?_, rfl, rfl, rfl, rfl, rfl, ?_, rfl, rfl, rfl, rfl⟩
  · rw [huses, hfabric, hquiet, hpin, hpin, hgrants, hkept]
  · cases w.order <;> rfl

/-- A command that issues and meets nothing it must wait for is launched. -/
theorem runCmd_unhindered {s : State} {c : Cmd} {w : State → Cmd → Res → Work} (h : s.unhindered c w = true) :
    ∃ (q : State) (d : Cmd), (s.whenIssued c).runCmd (s.asIssued c) (s.resolved c) (s.workOf c w) = q.setCmd d ∧
      q.launchView = (s.whenIssued c).launchView ∧ d.id = c.id ∧ d.phase = .issued ∧ d.effs = (s.prepOf c w).effs ∧
      d.taken = (s.prepOf c w).taken ∧ d.order = (s.workOf c w).order ∧
      d.passes = (if d.order = [] then (s.workOf c w).passes else (d.order.map fun e => e.2.length).foldl max 0) ∧
      d.skewed = (s.workOf c w).skewed ∧ d.starved = false ∧ d.words = c.words ∧ d.cores = c.cores := by
  unfold State.unhindered at h
  simp only [Bool.and_eq_true, Bool.not_eq_true', List.isEmpty_iff, beq_iff_eq] at h
  obtain ⟨⟨⟨⟨⟨⟨⟨⟨⟨⟨⟨⟨hblocked, hmissing⟩, hfault⟩, hext⟩, hread⟩, hpromote⟩, hcore⟩, hsect⟩, hbeyond⟩, hfail⟩, hbad⟩, hlate⟩, hroom⟩ := h
  have hcold : ((s.workOf c w).promote.filter fun h => !((s.whenIssued c).leaf h).inCask) = [] :=
    List.filter_eq_nil_iff.2 fun x hx => by simpa using List.all_eq_true.1 hpromote x hx
  have hrun : (s.whenIssued c).runCmd (s.asIssued c) (s.resolved c) (s.workOf c w) =
      (s.whenIssued c).launch (s.asIssued c) (s.resolved c) (s.workOf c w) (s.readsOf c w) := by
    unfold State.runCmd
    dsimp only
    change (if _ then _ else if _ then _ else if _ then _ else
      if ((((s.whenIssued c).unreadable (s.readsOf c w)).filter _).length != ((s.whenIssued c).unreadable (s.readsOf c w)).length) = true
        then _ else if (!(((s.whenIssued c).unreadable (s.readsOf c w)).filter _).isEmpty) = true then _ else _) = _
    rw [hblocked, hmissing, hfault, hcold, hread]
    rw [if_neg (by decide), if_neg (by decide), if_neg (by
      change ¬(((s.workOf c w).reads ++ (s.workOf c w).writes).any ((s.whenIssued c).extOver (s.resolved c) c.cores)) = true
      rw [hext]; decide)]
    rfl
  obtain ⟨q, d, hlaunch, hview, hid, hphase, hrest⟩ := launch_unhindered (s := s.whenIssued c) (c := s.asIssued c) (r := s.resolved c)
    (w := s.workOf c w) (pins := s.readsOf c w) (p := s.prepOf c w) rfl hcore hsect hbeyond hfail hbad hlate hroom
  exact ⟨q, d, hrun.trans hlaunch, hview, hid, hphase, hrest⟩

/-! ### The issue -/

/-- A placed command that may issue and is not refused issues: an empty one is over, another goes on to its run. -/
theorem beginCmd_issuable {s : State} {c : Cmd} {w : State → Cmd → Res → Work} (h : s.issuable c w = true) :
    s.mayIssue c = true ∧ s.beginCmd c w =
      if (w (s.sourceOf c (s.resolved c) w) c (s.resolved c)).empty then (s.whenIssued c).emptyEnd (s.asIssued c)
      else (s.whenIssued c).runCmd (s.asIssued c) (s.resolved c) (s.workOf c w) := by
  unfold State.issuable at h
  simp only [Bool.and_eq_true, Bool.not_eq_true', beq_iff_eq] at h
  obtain ⟨⟨⟨⟨⟨⟨hmay, hfit⟩, hlive⟩, hmax⟩, htrain⟩, hrefuse⟩, hblocked⟩ := h
  have hruns : (!c.runs.isEmpty && c.runs.all fun u => !s.liveRun c u) = false := by
    cases hempty : c.runs.isEmpty with
    | true => rfl
    | false =>
      rw [hempty, Bool.false_or] at hlive
      obtain ⟨u, hu, hl⟩ := List.any_eq_true.1 hlive
      exact Bool.and_eq_false_iff.2 (.inr (List.all_eq_false.2 ⟨u, hu, by rw [hl]; decide⟩))
  have hchannels : ((s.markBegun c).seed c.cores).channels = s.channels := by
    rw [frame_of_offCores (seed_offCores (s.markBegun c) c.cores), markBegun_frame]
  refine ⟨hmay, ?_⟩
  unfold State.beginCmd
  dsimp only
  change (if s.unfitFor c = true then _ else if _ then _ else if s.aboveMax c = true then _
    else if c.trainRefused (s.resolved c) = true then _
    else if ((w (s.sourceOf c (s.resolved c) w) c (s.resolved c)).refuse != cDone) = true then _
    else if s.blocked c (s.resolved c) { w (s.sourceOf c (s.resolved c) w) c (s.resolved c) with
      reads := (w (s.sourceOf c (s.resolved c) w) c (s.resolved c)).first, rspans := [] } = true then _ else _) = _
  rw [hfit, hruns, hmax, htrain, hrefuse, hblocked, hchannels]
  rfl

/-- The row of a plan command whose form the command has runs the command's issue. -/
theorem exec_planRow {s : State} {id : Nat} {c : Cmd} (hc : s.cmd? id = some c)
    {x : Instr × Nat × (State → Cmd → Bool) × (State → Cmd → Res → Work)} (hx : x ∈ planRows id) (hform : x.2.2.1 s c = true) :
    exec x.1 s = .next (s.issue id x.2.1 x.2.2.2) := by
  have hrecv (form : List W32 → Bool) (w : State → Cmd → Res → Work) (h : form c.words = true) :
      s.issueRecv id form w = s.issue id 0x0C w := by
    rw [State.issueRecv, hc]
    exact if_pos h
  have hleaf (lop : Nat) (w : State → Cmd → Res → Work) (h : (leafOp c.words == lop) = true) :
      s.issueLeaf id lop w = s.issue id 0x0E w := by
    rw [State.issueLeaf, hc]
    exact if_pos (beq_iff_eq.1 h)
  simp only [planRows, List.mem_cons, List.not_mem_nil, or_false] at hx
  rcases hx with rfl | rfl | rfl | rfl | rfl | rfl | rfl | rfl | rfl | rfl | rfl | rfl | rfl | rfl | rfl | rfl | rfl | rfl | rfl | rfl
  any_goals rfl
  · exact congrArg Host.Outcome.next (hrecv _ _ hform)
  · exact congrArg Host.Outcome.next (hrecv _ _ hform)
  · exact congrArg Host.Outcome.next (hrecv _ _ hform)
  · exact congrArg Host.Outcome.next (hleaf _ _ hform)
  · exact congrArg Host.Outcome.next (hleaf _ _ hform)
  · exact congrArg Host.Outcome.next (hleaf _ _ hform)
  · have hopen : s.fenceOpen id = true := by
      rw [State.fenceOpen, hc]
      exact hform
    exact congrArg Host.Outcome.next (if_pos hopen)

/-- The row of a plan command whose command is placed begins it on the weight image that its wave began with. -/
theorem exec_planRow_placed {s : State} {id : Nat} {c : Cmd} (hc : s.cmd? id = some c) (hphase : c.phase = .placed)
    {x : Instr × Nat × (State → Cmd → Bool) × (State → Cmd → Res → Work)} (hx : x ∈ planRows id) (hopc : c.opc = x.2.1)
    (hform : x.2.2.1 s c = true) (hissue : (s.asOf c).issuable c x.2.2.2 = true)
    (hslots : ((s.asOf c).beginCmd c x.2.2.2).slots = (s.asOf c).slots) :
    exec x.1 s = .next { (s.asOf c).beginCmd c x.2.2.2 with slots := s.slots } := by
  have hmay := (beginCmd_issuable hissue).1
  rw [exec_planRow hc hx hform, State.issue, hc]
  dsimp only
  rw [under_congr (g := fun v => v.beginCmd c x.2.2.2) (by
    rw [hopc, hphase]
    simp [hmay]), under_eq hslots]

theorem asOf_cmd? (s : State) (c : Cmd) (id : Nat) : (s.asOf c).cmd? id = s.cmd? id := by
  rw [asOf_frame]; rfl

theorem cmd?_of_launchView {s t : State} (h : t.launchView = s.launchView) (id : Nat) : t.cmd? id = s.cmd? id := by
  rw [frame_of_offLaunch (congrArg Prod.fst h)]; rfl

theorem memories_of_launchView {s t : State} (h : t.launchView = s.launchView) :
    t.slots = s.slots ∧ t.coreMem = s.coreMem ∧ t.sectMem = s.sectMem ∧ t.caskRaw = s.caskRaw := by
  rw [frame_of_offLaunch (congrArg Prod.fst h)]
  exact ⟨rfl, rfl, rfl, rfl⟩

end Sys2Proof.Machine

namespace Sys2Proof.Proofs

open Sys2Proof.Machine

/-- Settles O33: an issue is the seeding of its cores and then the launch, which prepares leaves and changes no memory. -/
theorem planCommandsIssue : Obligations.PlanCommandsIssue := by
  intro s u id c hc hu hphase hnodup _ x hx hopc hform hissue
  subst hu
  obtain ⟨-, hbegin⟩ := beginCmd_issuable hissue
  have hcmd : (s.asOf c).cmd? id = some c := (asOf_cmd? s c id).trans hc
  have hissued := cmd?_whenIssued hcmd
  have hmem : ((s.asOf c).whenIssued c).slots = (s.asOf c).slots ∧ ((s.asOf c).whenIssued c).coreMem = s.coreMem ∧
      ((s.asOf c).whenIssued c).sectMem = s.sectMem ∧ ((s.asOf c).whenIssued c).caskRaw = s.caskRaw := by
    rw [whenIssued_frame, asOf_frame]
    exact ⟨rfl, rfl, rfl, rfl⟩
  have hserial (k : Nat) (y : CoreSt) (hy : s.cores[k]? = some y) : ∃ z, ((s.asOf c).whenIssued c).cores[k]? = some z ∧
      z.serial = if k ∈ c.cores then y.serial + 1 else y.serial :=
    whenIssued_serials hnodup (by rw [asOf_frame]; exact hy)
  have hid := cmd?_id hcmd
  refine ⟨fun hempty => ?_, fun hwork hclear => ?_⟩
  · rw [hempty, if_pos rfl] at hbegin
    have hexec := exec_planRow_placed hc hphase hx hopc hform hissue (by rw [hbegin]; exact hmem.1)
    rw [hbegin] at hexec
    exact ⟨_, _, hexec, cmd?_setCmd hissued hid, rfl, rfl, rfl, rfl, rfl, hserial⟩
  · obtain ⟨q, d, hrun, hview, hdid, hdphase, heffs, htaken, horder, hpasses, hskewed, hstarved, hwords, hcores⟩ := runCmd_unhindered hclear
    rw [hwork, if_neg (by decide), hrun] at hbegin
    obtain ⟨hqslots, hqcore, hqsect, hqcask⟩ := memories_of_launchView hview
    have hexec := exec_planRow_placed hc hphase hx hopc hform hissue (by rw [hbegin]; exact hqslots.trans hmem.1)
    rw [hbegin] at hexec
    have hqcmd : q.cmd? id = some ((s.asOf c).asIssued c) := (cmd?_of_launchView hview id).trans hissued
    refine ⟨_, d, hexec, cmd?_setCmd hqcmd (hdid.trans hid), hdphase, heffs, htaken, horder, hpasses, hskewed, hstarved, hwords,
      hcores, fun k y hy => ?_, hqcore.trans hmem.2.1, hqsect.trans hmem.2.2.1, hqcask.trans hmem.2.2.2⟩
    obtain ⟨z, hz, hzs⟩ := hserial k y hy
    obtain ⟨z', hz', hserial'⟩ := core_of_serials (congrArg Prod.snd hview) hz
    exact ⟨z', hz', hserial'.trans hzs⟩

end Sys2Proof.Proofs
end

section
/-! SUPPORT. The time base: its source, its one step, its steering (R511, R512), and the SYNC pin. -/

namespace Sys2Proof.Machine

/-- The choice of a source changes the source and the steering alone, and records the change. -/
theorem chooseSource_spec (s : State) :
    s.chooseSource.time.source = s.bestSource.1 ∧ s.chooseSource.time.tsy = s.time.tsy ∧
      s.chooseSource.time.stepped = s.time.stepped ∧ s.chooseSource.time.syncToggles = s.time.syncToggles ∧
      (s.chooseSource.time.steer = 0 ∨ s.chooseSource.time.steer = s.time.steer) ∧
      (s.bestSource.1 = s.time.source → s.chooseSource = s) ∧
      (s.bestSource.1 ≠ s.time.source → s.bestSource.1 = none → s.chooseSource.time.steer = 0) ∧
      s.chooseSource = { s with time := s.chooseSource.time, errata := s.chooseSource.errata } := by
  unfold State.chooseSource
  dsimp only
  split
  next hsame => exact ⟨hsame.symm, rfl, rfl, rfl, .inr rfl, fun _ => rfl, fun hne => absurd hsame hne, rfl⟩
  next hne =>
    refine ⟨rfl, rfl, rfl, rfl, ?_, fun hsame => absurd hsame hne, fun _ hnone => ?_, rfl⟩
    · show (if s.bestSource.1.isNone then (0 : Int) else s.time.steer) = 0 ∨ _
      split
      · exact .inl rfl
      · exact .inr rfl
    · show (if s.bestSource.1.isNone then (0 : Int) else s.time.steer) = 0
      rw [hnone]; rfl

/-- Without a time parcel at any port the module's own key is least. -/
theorem bestSource_none {s : State} (h : ∀ p, p < 16 → (s.fport p).timeParcel = none) : s.bestSource.1 = none := by
  have hfix : s.bestSource = (none, s.ownKey) := by
    unfold State.bestSource
    refine foldl_fixed _ fun p hp => ?_
    have hoffer : s.offer p = none := by rw [State.offer, h p (List.mem_range.1 hp)]
    rw [hoffer]
  rw [hfix]

theorem steering_range (o : Int) : -50 ≤ steering o ∧ steering o ≤ 50 := by
  unfold steering
  omega

/-- An offset taken: the one step of a start, or steering. -/
theorem takeOffset_spec (s : State) (o m : Int) :
    (s.time.stepped = false → 625 < o.natAbs →
      (s.takeOffset o m).time.tsy = s.time.tsy + BitVec.ofInt 64 o ∧ (s.takeOffset o m).time.stepped = true) ∧
    (s.time.stepped = true → (s.takeOffset o m).time.tsy = s.time.tsy) ∧
    ((s.takeOffset o m).time.steer = s.time.steer ∨ (s.takeOffset o m).time.steer = steering m) ∧
    (s.takeOffset o m).time.source = s.time.source ∧ (s.takeOffset o m).time.syncToggles = s.time.syncToggles ∧
    s.takeOffset o m = { s with time := (s.takeOffset o m).time, errata := (s.takeOffset o m).errata } := by
  unfold State.takeOffset
  split
  next h =>
    rw [Bool.and_eq_true, Bool.not_eq_true'] at h
    refine ⟨fun _ _ => ⟨rfl, rfl⟩, fun hs => ?_, .inl rfl, rfl, rfl, rfl⟩
    rw [h.1] at hs
    cases hs
  next h =>
    refine ⟨fun hs ho => absurd ?_ h, fun _ => rfl, .inr rfl, rfl, rfl, rfl⟩
    rw [hs]
    simpa using ho

/-! ### Time parcels -/

/-- A time parcel kept at its port. -/
def State.keepTime (s : State) (port : Nat) (payload : List W32) (arrival : W64) (o : Option Int) : State :=
  s.modFPort port fun k => { k with
    timeParcel := some (payload.take 8, arrival)
    offsets := (k.offsets ++ o.toList).drop ((k.offsets ++ o.toList).length - 8) }

/-- The offset of a time parcel of the source taken. -/
def State.heedTime (s : State) (port : Nat) (o : Option Int) : State :=
  match o with
  | some o => if s.time.source = some port then s.takeOffset o (median (s.fport port).offsets) else s
  | none => s

theorem exec_timeParcelReceive {s : State} {p : Nat} (h : s.timePort p = true) {ws : List W32} {at_ : W64} {o : Option Int}
    (ho : offsetOf ws at_ = o) :
    exec (.timeParcelReceive p ws at_) s = .next (((s.keepTime p ws at_ o).chooseSource).heedTime p o) := by
  have hexec : exec (.timeParcelReceive p ws at_) s = execTimeParcelReceive p ws at_ s := rfl
  rw [hexec, execTimeParcelReceive, if_neg (by rw [h]; decide)]
  dsimp only
  rw [ho]
  cases o <;> rfl

theorem timePort_exists {s : State} {p : Nat} (h : s.timePort p = true) : p < s.fabric.ports.length := by
  simp only [State.timePort, Bool.and_eq_true, beq_iff_eq] at h
  obtain ⟨⟨⟨-, hstate⟩, -⟩, -⟩ := h
  exact fport_exists s p (.inr (by rw [hstate]; decide))

/-- What heeding an offset leaves. -/
theorem heedTime_spec (s : State) (p : Nat) (o : Option Int) :
    (o = none → s.heedTime p o = s) ∧
    (∀ x, o = some x → s.time.source = some p → s.time.stepped = false → 625 < x.natAbs →
      (s.heedTime p o).time.tsy = s.time.tsy + BitVec.ofInt 64 x ∧ (s.heedTime p o).time.stepped = true) ∧
    (s.time.stepped = true → (s.heedTime p o).time.tsy = s.time.tsy) ∧
    (-50 ≤ s.time.steer → s.time.steer ≤ 50 → -50 ≤ (s.heedTime p o).time.steer ∧ (s.heedTime p o).time.steer ≤ 50) ∧
    (s.heedTime p o).time.source = s.time.source ∧
    s.heedTime p o = { s with time := (s.heedTime p o).time, errata := (s.heedTime p o).errata } := by
  unfold State.heedTime
  cases o with
  | none => exact ⟨fun _ => rfl, fun x hx => (by cases hx), fun _ => rfl, fun h1 h2 => ⟨h1, h2⟩, rfl, rfl⟩
  | some x =>
    dsimp only
    split
    next hsource =>
      obtain ⟨hstep, hstepped, hsteer, hsrc, -, hframe⟩ := takeOffset_spec s x (median (s.fport p).offsets)
      refine ⟨fun hx => (by cases hx), fun y hy _ => ?_, hstepped, fun h1 h2 => ?_, hsrc, hframe⟩
      · obtain rfl := Option.some.inj hy
        exact hstep
      · rcases hsteer with hsteer | hsteer
        · rw [hsteer]; exact ⟨h1, h2⟩
        · rw [hsteer]; exact steering_range _
    next hsource =>
      exact ⟨fun hx => (by cases hx), fun _ _ hs => absurd hs hsource, fun _ => rfl, fun h1 h2 => ⟨h1, h2⟩, rfl, rfl⟩

/-- A time parcel received. -/
theorem timeParcelReceive_spec {s t : State} {p : Nat} (h : s.timePort p = true) (ws : List W32) (at_ : W64) (o : Option Int)
    (ht : t = ((s.keepTime p ws at_ o).chooseSource).heedTime p o) :
    (t.fport p).timeParcel = some (ws.take 8, at_) ∧ (o = none → t.time.tsy = s.time.tsy) ∧
    (∀ x, o = some x → t.time.source = some p → s.time.stepped = false → 625 < x.natAbs →
      t.time.tsy = s.time.tsy + BitVec.ofInt 64 x ∧ t.time.stepped = true) ∧
    (s.time.stepped = true → t.time.tsy = s.time.tsy) ∧
    (-50 ≤ s.time.steer → s.time.steer ≤ 50 → -50 ≤ t.time.steer ∧ t.time.steer ≤ 50) ∧
    OnlyPort s t p ∧ t = { s with fabric := t.fabric, time := t.time, errata := t.errata } := by
  have hkeep : s.keepTime p ws at_ o = { s with fabric := (s.keepTime p ws at_ o).fabric } := rfl
  have hparcel : ((s.keepTime p ws at_ o).fport p).timeParcel = some (ws.take 8, at_) :=
    by rw [State.keepTime, fport_modFPort s p _ (timePort_exists h)]
  have honly : OnlyPort s (s.keepTime p ws at_ o) p := onlyPort_modFPort s p _
  have htime : (s.keepTime p ws at_ o).time = s.time := rfl
  generalize s.keepTime p ws at_ o = v at *
  obtain ⟨-, htsy, hstepped, -, hsteer, -, -, hchoose⟩ := chooseSource_spec v
  generalize v.chooseSource = c at *
  obtain ⟨hnone, hstep, hset, hrange, hsource, hframe⟩ := heedTime_spec c p o
  have hfabric : t.fabric = v.fabric := by rw [ht, hframe, hchoose]
  have hport (r : Nat) : t.fport r = v.fport r := by rw [State.fport, hfabric]; rfl
  rw [htime] at htsy hstepped hsteer
  refine ⟨by rw [hport, hparcel], fun ho => ?_, fun x ho hsrc hs hbig => ?_, fun hs => ?_, fun h1 h2 => ?_,
    fun r hr => (hport r).trans (honly r hr), ?_⟩
  · rw [ht, hnone ho, htsy]
  · rw [ht, hsource] at hsrc
    rw [ht, ← htsy]
    exact hstep x ho hsrc (hstepped.trans hs) hbig
  · rw [ht, hset (hstepped.trans hs), htsy]
  · rw [ht]
    refine hrange ?_ ?_ <;> rcases hsteer with hz | hz <;> rw [hz] <;> omega
  · rw [ht, hframe, hchoose, hkeep]

/-! ### The SYNC pin -/

theorem exec_sync {s : State} (hpin : s.syncPin = true) (hcount : s.time.counting = true) (hon : s.dieOn = true) :
    exec .syncRisingEdge s = .next (
      let u := ((s.pinFault 4 0).modTime fun t => { t with syncToggles := true }).chooseSource
      if u.time.source.isSome then u
      else u.takeOffset (((u.now.toNat : Int) + 156250000) / 312500000 * 312500000 - (u.now.toNat : Int))
        (((u.now.toNat : Int) + 156250000) / 312500000 * 312500000 - (u.now.toNat : Int))) ∧
    exec .syncHeld s = .next ((s.pinFault 4 3).modTime fun t => { t with syncToggles := false }).chooseSource := by
  have hedge : exec .syncRisingEdge s = execSyncRisingEdge s := rfl
  have hheld : exec .syncHeld s = execSyncHeld s := rfl
  have hgo : ¬(!s.syncPin || !s.time.counting || !s.dieOn) = true := by simp [hpin, hcount, hon]
  rw [hedge, execSyncRisingEdge, if_neg hgo, hheld, execSyncHeld, if_neg hgo]
  exact ⟨rfl, rfl⟩

/-- A time moved to the nearest whole multiple. -/
theorem tsy_moved {v : W64} {n : Nat} (hv : v.toNat < 2 ^ 63) (hn : n = (v.toNat + 156250000) / 312500000 * 312500000) :
    (v + BitVec.ofInt 64 (((v.toNat : Int) + 156250000) / 312500000 * 312500000 - (v.toNat : Int))).toNat = n := by
  have hbound : n < 2 ^ 64 := by omega
  have hint : (((v.toNat : Int) + 156250000) / 312500000 * 312500000) = (n : Int) := by omega
  have hv64 : v = BitVec.ofInt 64 (v.toNat : Int) := by simp
  rw [hint]
  calc (v + BitVec.ofInt 64 ((n : Int) - v.toNat)).toNat = (BitVec.ofInt 64 ((v.toNat : Int) + ((n : Int) - v.toNat))).toNat := by
        rw [BitVec.ofInt_add, ← hv64]
    _ = n := by
        have hsum : (v.toNat : Int) + ((n : Int) - v.toNat) = (n : Int) := by omega
        rw [hsum, BitVec.ofInt_natCast, BitVec.toNat_ofNat, Nat.mod_eq_of_lt hbound]

end Sys2Proof.Machine

namespace Sys2Proof.Proofs

open Sys2Proof.Machine

/-- Settles O50: the choice of a source and the taking of an offset, each by its own specification. -/
theorem timeBase : Obligations.TimeBase := by
  refine fun s => ⟨fun p ws at_ h => ⟨_, exec_timeParcelReceive h rfl, timeParcelReceive_spec h ws at_ _ rfl⟩, ?_,
    fun hpin hcount hon hports => ?_, fun hpin hcount hon hlen => ?_⟩
  · obtain ⟨hsource, htsy, -, -, -, hsame, hzero, hframe⟩ := chooseSource_spec s
    exact ⟨_, rfl, hsource, htsy, hsame, hzero, hframe⟩
  · have hexec := (exec_sync hpin hcount hon).1
    have hpinFrame := pinFault_zero s 4
    generalize s.pinFault 4 0 = v at *
    have hnone : (v.modTime fun t => { t with syncToggles := true }).bestSource.1 = none :=
      bestSource_none (by rw [hpinFrame]; exact hports)
    obtain ⟨hsource, htsy, hstepped, htoggles, -, -, -, hframe⟩ := chooseSource_spec (v.modTime fun t => { t with syncToggles := true })
    rw [hnone] at hsource
    have htsyv : v.time.tsy = s.time.tsy ∧ v.time.stepped = s.time.stepped := by rw [hpinFrame]; exact ⟨rfl, rfl⟩
    have hmod : (v.modTime fun t => { t with syncToggles := true }) = { s with board := v.board, time := { s.time with syncToggles := true } } := by
      rw [hpinFrame]; rfl
    have htsy' : (v.modTime fun t => { t with syncToggles := true }).chooseSource.time.tsy = s.time.tsy := htsy.trans htsyv.1
    have hstepped' : (v.modTime fun t => { t with syncToggles := true }).chooseSource.time.stepped = s.time.stepped :=
      hstepped.trans htsyv.2
    have hboard : (v.modTime fun t => { t with syncToggles := true }).chooseSource =
        { s with
          time := (v.modTime fun t => { t with syncToggles := true }).chooseSource.time, board := v.board
          errata := (v.modTime fun t => { t with syncToggles := true }).chooseSource.errata } := by
      rw [hframe, hmod]
    generalize (v.modTime fun t => { t with syncToggles := true }).chooseSource = u at *
    dsimp only at hexec
    rw [hsource, if_neg (by decide)] at hexec
    have hnow : u.now = s.time.tsy := htsy'
    rw [hnow] at hexec
    obtain ⟨hstep, -, -, hsrc, htog, hoff⟩ := takeOffset_spec u
      (((s.time.tsy.toNat : Int) + 156250000) / 312500000 * 312500000 - (s.time.tsy.toNat : Int))
      (((s.time.tsy.toNat : Int) + 156250000) / 312500000 * 312500000 - (s.time.tsy.toNat : Int))
    refine ⟨_, hexec, htog.trans htoggles, hsrc.trans hsource, fun n hs hbound hn hbig => ?_, ?_⟩
    · have hfar : 625 < (((s.time.tsy.toNat : Int) + 156250000) / 312500000 * 312500000 - (s.time.tsy.toNat : Int)).natAbs := by
        have hint : (((s.time.tsy.toNat : Int) + 156250000) / 312500000 * 312500000) = (n : Int) := by omega
        rw [hint]
        exact hbig
      rw [(hstep (hstepped'.trans hs) hfar).1, htsy']
      exact tsy_moved hbound hn
    · rw [hoff, hboard]
  · have hexec := (exec_sync hpin hcount hon).2
    obtain ⟨hfault, -, hframe⟩ := pinFault_spec s 3 hlen
    generalize s.pinFault 4 3 = v at *
    obtain ⟨-, htsy, -, htoggles, -, -, -, hchoose⟩ := chooseSource_spec (v.modTime fun t => { t with syncToggles := false })
    have hboard : (v.modTime fun t => { t with syncToggles := false }).chooseSource.board = v.board := by rw [hchoose]; rfl
    refine ⟨_, hexec, htoggles, by rw [hboard]; exact hfault, ?_, ?_⟩
    · rw [htsy]
      show v.time.tsy = s.time.tsy
      rw [hframe]
    · rw [hchoose, hframe]
      rfl

end Sys2Proof.Proofs
end

section
/-! SUPPORT. Parameter sets initialised and steps published (R399 to R401). -/

namespace Sys2Proof.Machine

/-! ### INIT_SET -/

theorem initRecords_frame (s : State) (n : Nat) (e : List W32) :
    ∃ m, s.initRecords n e = { s with malt := m } ∧ m.sets = s.malt.sets := by
  have hput (u : State) (a : Nat) (bs : Option (List Byte)) : ∃ m, u.putRecord a bs = { u with malt := m } ∧ m.sets = u.malt.sets := by
    cases bs <;> exact ⟨_, rfl, rfl⟩
  have hfold (l : List Nat) (g : State → Nat → State) (hg : ∀ u k, ∃ m, g u k = { u with malt := m } ∧ m.sets = u.malt.sets) (u : State) :
      ∃ m, l.foldl g u = { u with malt := m } ∧ m.sets = u.malt.sets := by
    induction l generalizing u with
    | nil => exact ⟨_, rfl, rfl⟩
    | cons k l ih =>
      obtain ⟨m, hm, hsets⟩ := hg u k
      obtain ⟨m', hm', hsets'⟩ := ih (g u k)
      exact ⟨m', by rw [List.foldl_cons, hm', hm], by rw [hsets', hm]; exact hsets⟩
  exact hfold _ _ (fun u k => hput u _ _) s

/-- A set that has been initialised. -/
def PSet.renewed (p : PSet) : PSet := { p with t := 0, behind := false, damaged := false }

/-- The set of an entry made anew from its initial values, and its channel idle again where no set of it is behind. -/
def State.initSet (s : State) (n : Nat) (e : List W32) : State :=
  let u := (s.initRecords n e).modPSet n PSet.renewed
  ({ u with draws := u.draws + (wd e 2).toNat } : State).recoverChannel (setChannel e)

theorem initSet_spec (s : State) (n : Nat) (e : List W32) :
    (s.initSet n e).pset n = { entry := (s.pset n).entry, t := 0, behind := false, damaged := false } ∧
      (∀ m, m ≠ n → (s.initSet n e).pset m = s.pset m) ∧
      s.initSet n e = { s with
        draws := (s.initSet n e).draws, malt := (s.initSet n e).malt, channels := (s.initSet n e).channels } := by
  obtain ⟨m, hm, hsets⟩ := initRecords_frame s n e
  have hpset (k : Nat) : (s.initRecords n e).pset k = s.pset k := by rw [hm, State.pset, hsets]; rfl
  have hrecover (u : State) (c : Nat) : (u.recoverChannel c).malt = u.malt ∧
      u.recoverChannel c = { u with channels := (u.recoverChannel c).channels } := by
    unfold State.recoverChannel
    split <;> exact ⟨rfl, rfl⟩
  have hu : (s.initRecords n e).modPSet n PSet.renewed = { s with malt := ((s.initRecords n e).modPSet n PSet.renewed).malt } := by
    rw [hm]; rfl
  have hset : ((s.initRecords n e).modPSet n PSet.renewed).pset n = (s.pset n).renewed := by rw [pset_modPSet, hpset]
  have hother (k : Nat) (hk : k ≠ n) : ((s.initRecords n e).modPSet n PSet.renewed).pset k = s.pset k := by
    rw [pset_modPSet_other _ _ _ _ hk, hpset]
  unfold State.initSet
  dsimp only
  generalize (s.initRecords n e).modPSet n PSet.renewed = u at *
  obtain ⟨hmalt, hframe⟩ := hrecover { u with draws := u.draws + (wd e 2).toNat } (setChannel e)
  have hread (k : Nat) : (({ u with draws := u.draws + (wd e 2).toNat } : State).recoverChannel (setChannel e)).pset k = u.pset k := by
    rw [State.pset, hmalt]; rfl
  refine ⟨(hread n).trans hset, fun k hk => (hread k).trans (hother k hk), ?_⟩
  rw [hframe, hu]

theorem exec_initSet {s : State} {q tag : Nat} {c : Started} (h : s.commandAt q tag 0x22 c) :
    exec (.initSet q tag) s = .next (
      if !(wd (s.pset (bits (c.arg 1) 9 0)).entry 0).getLsbD 0 then s.finish q tag cAlign 0 0
      else if (s.slot (bits (wd (s.pset (bits (c.arg 1) 9 0)).entry 0) 8 3)).plan.isNone then s.finish q tag cRole 0 0
      else (s.initSet (bits (c.arg 1) 9 0) (s.pset (bits (c.arg 1) 9 0)).entry).finish q tag cDone 0 0) := by
  have hexec : exec (.initSet q tag) s = execInitSet q tag s := rfl
  rw [hexec, execInitSet, onStarted_commandAt h _ _ rfl]
  rfl

/-! ### PUBLISH -/

/-- The state without the leaves, the weight images and the leaves kept for waves under way. -/
def State.offPublish (s : State) : State := { s.offRack with slots := [], malt := { s.malt with old := [] } }

theorem offPublish_of_offRack {s t : State} (h : t.offRack = s.offRack) : t.offPublish = s.offPublish := by
  rw [frame_of_offRack h]; rfl

theorem frame_of_offPublish {s t : State} (h : t.offPublish = s.offPublish) :
    t = { s with draws := t.draws, rack := t.rack, cellar := t.cellar, slots := t.slots, malt := { s.malt with old := t.malt.old } } := by
  have hmalt : t.malt = { s.malt with old := t.malt.old } := by
    have hm : t.offPublish.malt = s.offPublish.malt := by rw [h]
    calc t.malt = { t.offPublish.malt with old := t.malt.old } := rfl
      _ = _ := by rw [hm]; rfl
  calc t = { t.offPublish with draws := t.draws, rack := t.rack, cellar := t.cellar, slots := t.slots, malt := t.malt } := rfl
    _ = _ := by rw [h, hmalt]; rfl

theorem nameWeight_offPublish (s : State) (slot : Nat) (x : Nat × Handle) : (s.nameWeight slot x).offPublish = s.offPublish := by
  have hkeep (u : State) (idx : Nat) (h : Handle) (w : Nat × Bool) : (u.keepOld idx h w).offPublish = u.offPublish := by
    unfold State.keepOld
    split
    · rfl
    · have hmalt (v : State) (l : List (Nat × Bool × Nat × Handle)) :
          (v.modMalt fun m => { m with old := m.old ++ l }).offPublish = v.offPublish := rfl
      rw [hmalt, offPublish_of_offRack (State_modLeaf_offRack u h _)]
  have hdrop (u : State) (h : Handle) : (u.drop h).offPublish = u.offPublish := offPublish_of_offRack (State_drop_offRack u h)
  have hmod (u : State) (h : Handle) (f : Leaf → Leaf) : (u.modLeaf h f).offPublish = u.offPublish :=
    offPublish_of_offRack (State_modLeaf_offRack u h f)
  have hplan (u : State) (f : Plan → Plan) : (u.modPlan slot f).offPublish = u.offPublish := rfl
  have hsettle (u : State) (h : Handle) (j e : Nat) : (u.settleWeight h j e).offPublish = u.offPublish := hmod u h _
  unfold State.nameWeight
  dsimp only
  rw [hdrop, hsettle, hmod, hplan, foldl_keeps State.offPublish _ fun u w => hkeep u _ _ w]

/-- The malt's registers after a publish of a slot. -/
def Malt.published (m : Malt) (slot : Nat) (now : W64) : Malt :=
  { m with
    ready := m.ready.filter fun e => e.1 != slot, newLeaves := alDel slot m.newLeaves, publishes := sat32 (m.publishes + 1)
    lastPublish := now.setWidth 32
    updState := if !m.waitingSets.isEmpty then 2 else if (m.ready.filter fun e => e.1 != slot).isEmpty then 0 else 3 }

/-- The new leaves of a slot named and its key chained by each step that is ready. -/
def State.flipWeights (s : State) (slot : Nat) : State :=
  (s.malt.ready.filter fun e => e.1 == slot).foldl
    (fun s e => s.modSlot slot fun k => { k with key := chainKey k.key (s.chan e.2.1).step })
    ((s.fresh slot).foldl (fun s x => s.nameWeight slot x) s)

theorem flipWeights_offPublish (s : State) (slot : Nat) : (s.flipWeights slot).offPublish = s.offPublish := by
  unfold State.flipWeights
  rw [foldl_keeps State.offPublish _ fun u e => ?_, foldl_keeps State.offPublish _ fun u x => nameWeight_offPublish u slot x]
  rfl

theorem publish_portEnds (s : State) (slot : Nat) :
    PortEnds ((s.flipWeights slot).modMalt fun m => m.published slot (s.flipWeights slot).now) (s.publish slot) := by
  show PortEnds _ (if _ then State.endTrains ((s.flipWeights slot).modMalt fun m => m.published slot (s.flipWeights slot).now) _ _ else _)
  split
  · exact endTrains_portEnds _ _ _
  · exact .refl _

/-- What a publish leaves. -/
theorem publish_spec (s : State) (slot : Nat) :
    (s.publish slot).malt = { s.malt.published slot s.now with old := (s.publish slot).malt.old } ∧
      (s.publish slot).channels = s.channels ∧ (s.publish slot).slots = (s.flipWeights slot).slots ∧
      (s.publish slot).rack = (s.flipWeights slot).rack := by
  have hframe := frame_of_offPublish (flipWeights_offPublish s slot)
  rw [(publish_portEnds s slot).frame]
  generalize s.flipWeights slot = v at *
  refine ⟨?_, ?_, rfl, rfl⟩
  · show v.malt.published slot v.now = { s.malt.published slot s.now with old := v.malt.old }
    rw [hframe]
    rfl
  · show v.channels = s.channels
    rw [hframe]

/-- A slot without new leaves and with one step ready has its key chained by that step. -/
theorem flipWeights_single {s : State} {slot c : Nat} {b : Bool} (hfresh : s.fresh slot = [])
    (hready : s.malt.ready.filter (fun e => e.1 == slot) = [(slot, c, b)]) (hlen : slot < s.slots.length) :
    ((s.flipWeights slot).slot slot).key = chainKey (s.slot slot).key (s.chan c).step ∧ (s.flipWeights slot).rack = s.rack := by
  unfold State.flipWeights
  rw [hready, hfresh]
  exact ⟨congrArg Slot.key (modAt_getD_same s.slots slot _ _ hlen), rfl⟩

theorem exec_publish {s : State} {slot : Nat} (hready : ∃ e ∈ s.malt.ready, e.1 = slot) :
    (s.slotRuns slot = true → exec (.publish slot) s = .next s) ∧
      (s.slotRuns slot = false → (∀ n ∈ s.malt.waitingSets, bits (wd (s.pset n).entry 0) 8 3 ≠ slot) →
        exec (.publish slot) s = .next (s.publish slot)) := by
  have hexec : exec (.publish slot) s = execPublish slot s := rfl
  have hany : (s.malt.ready.any fun e => e.1 == slot) = true := by simpa using hready
  refine ⟨fun hruns => ?_, fun hruns hwait => ?_⟩
  · rw [hexec, execPublish, if_pos (by simp [hruns])]
  · have hnone : (s.malt.waitingSets.filter fun n => bits (wd (s.pset n).entry 0) 8 3 == slot) = [] :=
      List.filter_eq_nil_iff.2 fun n hn => by simpa using hwait n hn
    have hretry : s.retrySets (fun n => bits (wd (s.pset n).entry 0) 8 3 == slot) = s := by
      rw [State.retrySets, hnone]
      rfl
    have hleft : (s.malt.waitingSets.any fun n => bits (wd (s.pset n).entry 0) 8 3 == slot) = false := by
      simpa using hwait
    rw [hexec, execPublish, if_neg (by simp [hany, hruns])]
    dsimp only
    rw [hretry, if_neg (by rw [hleft]; decide)]

/-! ### The time limit of new leaves -/

theorem exec_updateLeafWaitTimeout (s : State) : exec .updateLeafWaitTimeout s = .next (
    if s.malt.waitingSets.isEmpty then s
    else if (s.retrySets fun _ => true).malt.waitingSets.isEmpty then s.retrySets fun _ => true
    else (s.retrySets fun _ => true).attention 2 cExhausted (w32 (s.retrySets fun _ => true).malt.updSlot)
      (w32 (s.retrySets fun _ => true).malt.updSet)) := rfl

end Sys2Proof.Machine

namespace Sys2Proof.Proofs

open Sys2Proof.Machine

/-- Settles O56: INIT_SET rewrites one set, PUBLISH flips one slot, and sets that wait are tried again. -/
theorem setsAndPublishes : Obligations.SetsAndPublishes := by
  refine fun s => ⟨fun q tag c n e h hn he => ?_, fun slot hready => ⟨(exec_publish hready).1, fun hruns hwait => ?_⟩, ?_⟩
  · subst hn he
    have hexec := exec_initSet h
    refine ⟨fun hvalid => ?_, fun hvalid hplan => ?_, fun hvalid hplan => ?_⟩
    · rw [hvalid, if_pos (by rfl)] at hexec
      obtain ⟨hans, hframe⟩ := finish_alone h cAlign 0 0
      exact ⟨_, hexec, hans, by rw [hframe]⟩
    · rw [hvalid, if_neg (by decide), hplan, if_pos (by rfl)] at hexec
      obtain ⟨hans, hframe⟩ := finish_alone h cRole 0 0
      exact ⟨_, hexec, hans, by rw [hframe]⟩
    · have hsome : (s.slot (bits (wd (s.pset (bits (c.arg 1) 9 0)).entry 0) 8 3)).plan.isNone = false := by
        rw [Option.isNone_eq_false_iff]
        exact Option.isSome_iff_ne_none.2 hplan
      rw [hvalid, if_neg (by decide), hsome, if_neg (by decide)] at hexec
      obtain ⟨hset, hother, hframe⟩ := initSet_spec s (bits (c.arg 1) 9 0) (s.pset (bits (c.arg 1) 9 0)).entry
      generalize s.initSet (bits (c.arg 1) 9 0) (s.pset (bits (c.arg 1) 9 0)).entry = u at *
      obtain ⟨hstarted, -, -, hdiscard, -, -, htakes⟩ := h
      have htakes' : u.takesEntry q = true := by rw [hframe]; exact htakes
      have hstarted' : u.started? q tag = some c := by rw [hframe]; exact hstarted
      have hfinish := finish_frame cDone 0 0 htakes' hstarted' hdiscard
      have hans : Answered s (u.finish q tag cDone 0 0) q tag (u.queue q) [] cDone 0 0 :=
        finish_answered cDone 0 0 htakes' hstarted' hdiscard (by rw [hframe, List.append_nil]) fun p _ => by rw [hframe]; rfl
      have hqueue : u.queue q = s.queue q := by rw [hframe]; rfl
      have hpset (m : Nat) : (u.finish q tag cDone 0 0).pset m = u.pset m := by rw [hfinish]; rfl
      refine ⟨_, hexec, hqueue ▸ hans, (hpset _).trans hset, fun m hm => (hpset m).trans (hother m hm), ?_, ?_, ?_, ?_⟩ <;>
        rw [hfinish, hframe]
  · obtain ⟨hmalt, hchannels, hslots, hrack⟩ := publish_spec s slot
    refine ⟨_, (exec_publish hready).2 hruns hwait, by rw [hmalt]; rfl, by rw [hmalt]; rfl, ?_, hchannels, fun c b hfresh hsteps hlen => ?_⟩
    · rw [hmalt]
      show s.now.setWidth 32 = s.now.extractLsb' 0 32
      exact BitVec.setWidth_eq_extractLsb' (by decide)
    · obtain ⟨hkey, hsame⟩ := flipWeights_single hfresh hsteps hlen
      have hslot : (s.publish slot).slot slot = (s.flipWeights slot).slot slot := by rw [State.slot, hslots]; rfl
      exact ⟨by rw [hslot, hkey], hrack.trans hsame⟩
  · have hexec := exec_updateLeafWaitTimeout s
    by_cases hempty : s.malt.waitingSets = []
    · rw [if_pos (by rw [hempty]; rfl)] at hexec
      exact ⟨s, hexec, fun _ => rfl, fun h => absurd hempty h⟩
    · rw [if_neg (by simpa using hempty)] at hexec
      refine ⟨_, hexec, fun h => absurd h hempty, fun hleft => ⟨hempty, ?_⟩⟩
      split at hleft
      next h => exact absurd (List.isEmpty_iff.1 h) hleft
      next h =>
        rw [if_neg h]
        exact attention_pending _ (by decide) _ _ _

end Sys2Proof.Proofs
end

section
/-! SUPPORT. Maker service (R488): cores, lanes and ports taken out of service. -/

namespace Sys2Proof.Machine

/-! ### What a failing core leaves -/

theorem nor_of_offCap {s t : State} (h : t.offCap = s.offCap) : t.nor = s.nor :=
  calc t.nor = t.offCap.nor := rfl
    _ = s.nor := by rw [h]; rfl

theorem loadTables_same (s : State) (core : Nat) :
    (s.loadTables core).nor = s.nor ∧ (s.loadTables core).cmds = s.cmds ∧ (s.loadTables core).sects = s.sects := by
  have hstep (u : State) (l : List Plan) : ((l.foldl (fun (s : State) p =>
      if (coresNamed p.descs).contains core then s.putCore (coreAddr core (tableSpace + p.tableBase)) p.table else s) u).nor = u.nor ∧
      (l.foldl (fun (s : State) p =>
      if (coresNamed p.descs).contains core then s.putCore (coreAddr core (tableSpace + p.tableBase)) p.table else s) u).cmds = u.cmds) := by
    refine ⟨foldl_keeps State.nor _ (fun v p => ?_) _ _, foldl_keeps State.cmds _ (fun v p => ?_) _ _⟩ <;> split <;> rfl
  exact ⟨(hstep s s.plans).1, (hstep s s.plans).2, loadTables_sects s core⟩

theorem mapCores_same (s : State) (sec : Nat) (map : List Nat) (spare : Option Nat) :
    (s.mapCores sec map spare).nor = s.nor ∧ (s.mapCores sec map spare).cmds = s.cmds := by
  refine ⟨foldl_keeps State.nor _ (fun u l => (loadTables_same u _).1) _ _,
    foldl_keeps State.cmds _ (fun u l => (loadTables_same u _).2.1) _ _⟩

theorem refit_cmds (s : State) (j : Nat) : (s.refit j).cmds = s.cmds := by
  unfold State.refit
  split
  · rfl
  · dsimp only
    split
    · rfl
    · exact foldl_keeps State.cmds _ (fun u k => endReq_cmds u k cOverflow []) _ _

theorem recapAs_cmds (s : State) (quiet : Bool) (code : Code) : (s.recapAs quiet code).cmds = s.cmds := by
  have hcolophon (u : State) : u.recolophon.cmds = u.cmds := by rw [recolophon_frame]
  unfold State.recapAs
  dsimp only
  split
  · rfl
  · rw [hcolophon, foldl_keeps State.cmds _ refit_cmds]
    split <;> rfl

/-- No command runs in a section. -/
def State.sectionIdle (s : State) (sec : Nat) : Prop := ∀ x ∈ s.cmds, x.phase = .issued → x.inSection sec = false

theorem sectionIdle_of_subset {s t : State} {sec : Nat} (h : s.sectionIdle sec) (hsub : ∀ x ∈ t.cmds, x ∈ s.cmds) : t.sectionIdle sec :=
  fun x hx => h x (hsub x hx)

theorem abandon_cmds (s : State) (i : Nat) : (s.abandon i).cmds = s.cmds := congrArg (·.2.1) (abandon_ledger s i)

theorem voidPart_cmds (s : State) (part : Nat) : (s.voidPart part).cmds = s.cmds := by
  unfold State.voidPart
  dsimp only
  exact foldl_keeps State.cmds (fun (s : State) (u : WaveRun) => s.abandon u.stream) (fun u r => abandon_cmds u r.stream) _ _

theorem dropVoid_subset (s : State) : ∀ x ∈ s.dropVoid.cmds, x ∈ s.cmds := fun _ hx => (List.mem_filter.1 hx).1

theorem killRerun_cmds (s : State) (c : Cmd) (code : Code) :
    (s.killRerun c code).cmds = s.cmds.map fun x => if x.id == c.id then { c.fresh with rerun := true } else x := by
  have hundo (u : State) : (u.undo c).cmds = u.cmds := congrArg (·.2.1) (undo_ledger u c)
  unfold State.killRerun State.requeue
  dsimp only
  rw [if_neg (by decide)]
  exact congrArg (List.map _) (hundo _)

/-- Killing a list of commands leaves of the running ones those under no number of the list. -/
theorem foldl_killRerun {l : List Cmd} {s : State} {x : Cmd} (hx : x ∈ (l.foldl (fun s c => s.killRerun c cRerun) s).cmds)
    (hrun : x.phase = .issued) : x ∈ s.cmds ∧ ∀ c ∈ l, x.id ≠ c.id := by
  induction l generalizing s with
  | nil => exact ⟨hx, fun c hc => absurd hc List.not_mem_nil⟩
  | cons a l ih =>
    obtain ⟨hmem, hids⟩ := ih hx
    rw [killRerun_cmds] at hmem
    obtain ⟨y, hy, hxy⟩ := List.mem_map.1 hmem
    split at hxy
    · subst hxy
      cases hrun
    next hne =>
      subst hxy
      refine ⟨hy, fun c hc => ?_⟩
      rcases List.mem_cons.1 hc with rfl | hc
      · simpa using hne
      · exact hids c hc

theorem stopSection_idle (s : State) (sec : Nat) : (s.stopSection sec).sectionIdle sec := by
  intro x hx hrun
  obtain ⟨hmem, hids⟩ := foldl_killRerun hx hrun
  refine Bool.eq_false_iff.2 fun hin => ?_
  exact hids x (List.mem_filter.2 ⟨hmem, by rw [hrun, hin]; decide⟩) rfl

/-- The waves of the partitions that own cores void, and their placed commands dropped. -/
def State.voidOwners (s : State) (ls : List Nat) : State := (ls.foldl (fun s n => s.voidPart n) s).dropVoid

theorem voidOwners_same (s : State) (ls : List Nat) :
    (s.voidOwners ls).offReq = s.offReq ∧ ∀ x ∈ (s.voidOwners ls).cmds, x ∈ s.cmds := by
  have hfold : (ls.foldl (fun s n => s.voidPart n) s).offReq = s.offReq := offReq_foldl _ voidPart_offReq ls s
  have hcmds : (ls.foldl (fun s n => s.voidPart n) s).cmds = s.cmds := foldl_keeps State.cmds _ voidPart_cmds ls s
  exact ⟨(dropVoid_offReq _).trans hfold, fun x hx => hcmds ▸ dropVoid_subset _ x hx⟩

/-- What a failing core leaves: of the sections its own alone has changed, and not in what has failed or is excluded. -/
theorem coreFails_same (s : State) (sec phys : Nat) :
    (s.coreFails sec phys).nor = s.nor ∧
      (∃ f, (s.coreFails sec phys).sects = modAt s.sects sec f ∧ ∀ k, (f k).excluded = k.excluded ∧ (f k).failed = k.failed) ∧
      (s.sectionIdle sec → (s.coreFails sec phys).sectionIdle sec) := by
  have hcap (u : State) (a b : W32) : ((u.attention 2 0 a b).recapAs true 0).nor = u.nor ∧
      ((u.attention 2 0 a b).recapAs true 0).sects = u.sects ∧ ((u.attention 2 0 a b).recapAs true 0).cmds = u.cmds :=
    ⟨nor_of_offCap (recapAs_offCap _ _ _), sects_of_offCap (recapAs_offCap _ _ _), recapAs_cmds _ _ _⟩
  unfold State.coreFails
  dsimp only
  split
  next hspare =>
    obtain ⟨hnor, hsects, hcmds⟩ := hcap (s.modSect sec fun k => { k with spare := none }) (w32 (sec + (phys <<< 2))) 0
    refine ⟨hnor, ⟨fun k => { k with spare := none }, hsects, fun _ => ⟨rfl, rfl⟩⟩, fun hidle => ?_⟩
    exact sectionIdle_of_subset hidle (by rw [hcmds]; exact fun _ h => h)
  next hspare =>
    split
    next hmap => exact ⟨rfl, ⟨id, (modAt_fixed fun _ _ => rfl).symm, fun _ => ⟨rfl, rfl⟩⟩, fun hidle => hidle⟩
    next l hmap =>
      have hremap (ls map : List Nat) (a b : W32) :
          (((((s.stopSection sec).voidOwners ls).mapCores sec map none).attention 2 0 a b).recapAs true 0).nor = s.nor ∧
            (((((s.stopSection sec).voidOwners ls).mapCores sec map none).attention 2 0 a b).recapAs true 0).sects =
              modAt s.sects sec (fun k => { k with map := map, spare := none }) ∧
            (((((s.stopSection sec).voidOwners ls).mapCores sec map none).attention 2 0 a b).recapAs true 0).sectionIdle sec := by
        obtain ⟨hnor, hsects, hcmds⟩ := hcap (((s.stopSection sec).voidOwners ls).mapCores sec map none) a b
        obtain ⟨hoff, hsub⟩ := voidOwners_same (s.stopSection sec) ls
        obtain ⟨hmapNor, hmapCmds⟩ := mapCores_same ((s.stopSection sec).voidOwners ls) sec map none
        have hstop := offCap_of_offWork (stopSection_offWork s sec)
        have hvoid := offCap_of_offReq hoff
        refine ⟨?_, ?_, sectionIdle_of_subset (stopSection_idle s sec) fun x hx => hsub x ?_⟩
        · rw [hnor, hmapNor, nor_of_offCap hvoid, nor_of_offCap hstop]
        · rw [hsects, mapCores_sects, sects_of_offCap hvoid, sects_of_offCap hstop]
        · rw [hcmds, hmapCmds] at hx
          exact hx
      obtain ⟨hnor, hsects, hidle⟩ := hremap (s.stopSection sec |>.ownersOf sec (mapChanges (s.sect sec).map ((s.sect sec).mapWithout phys l)))
        ((s.sect sec).mapWithout phys l) (w32 (sec + (phys <<< 2))) 0
      exact ⟨hnor, ⟨_, hsects, fun _ => ⟨rfl, rfl⟩⟩, fun _ => hidle⟩

/-! ### Lanes -/

/-- The excluded lanes and the renegotiations of a port. -/
def FPort.care (k : FPort) : BitVec 5 × Nat := (k.excluded, k.renegotiations)

/-- The excluded lanes and the renegotiations of every port. -/
def State.care (s : State) (p : Nat) : BitVec 5 × Nat := (s.fport p).care

theorem care_modFPort {f : FPort → FPort} (hf : ∀ k, (f k).care = k.care) (s : State) (p : Nat) : (s.modFPort p f).care = s.care :=
  funext fun n => fport_keeps FPort.care hf s p n

theorem care_of_ports {s t : State} (h : t.fabric.ports = s.fabric.ports) : t.care = s.care :=
  funext fun n => by rw [State.care, State.care, State.fport, State.fport, h]

theorem finish_care (s : State) (q tag : Nat) (code : Code) (r0 r1 : W32) : (s.finish q tag code r0 r1).care = s.care :=
  care_of_ports (by rw [(finish_portEnds s q tag code r0 r1).frame])

theorem endReq_care (s : State) (k : Nat) (code : Code) (data : List Byte) : (s.endReq k code data).care = s.care := by
  have hserve (u : State) (r : Req) (st : Stream) : (u.serveAfter k r st).care = u.care := by
    unfold State.serveAfter
    dsimp only
    split
    · split <;> rfl
    · rfl
  have hsend (u : State) (c : Ctxt) (i : Nat) (st : Stream) : (u.sendReply c i st code true data).care = u.care := by
    refine foldl_keeps State.care _ (fun v x => ?_) _ _
    split
    · exact care_modFPort (by intro _; rfl) v _
    · rfl
  have hreply (u : State) (r : Req) (st : Stream) : (u.replyEnd r st code data).care = u.care := by
    unfold State.replyEnd
    split
    · exact hsend u _ _ _
    · rfl
  have hanswer (u : State) (r : Req) (st : Stream) : (u.answerEnd r st code).care = u.care := by
    unfold State.answerEnd
    split
    · exact finish_care _ _ _ _ _ _
    · rfl
  cases h : (s.req k).open_ with
  | false => rw [endReq_closed h]
  | true =>
    rw [endReq_open h, hserve, hanswer, hreply]
    rfl

theorem recapAs_care (s : State) (quiet : Bool) (code : Code) : (s.recapAs quiet code).care = s.care := by
  have hrefit (u : State) (j : Nat) : (u.refit j).care = u.care := by
    unfold State.refit
    split
    · rfl
    · dsimp only
      split
      · rfl
      · rw [foldl_keeps State.care _ fun v k => endReq_care v k cOverflow []]
        rfl
  have hcolophon (u : State) : u.recolophon.care = u.care := by rw [recolophon_frame]; rfl
  unfold State.recapAs
  dsimp only
  split
  · rfl
  · rw [hcolophon, foldl_keeps State.care _ hrefit]
    split <;> rfl

theorem emptyTx_care (s : State) (p : Nat) : (s.emptyTx p).care = s.care := by
  unfold State.emptyTx
  refine (foldl_keeps State.care _ (fun u w => ?_) _ _).trans (care_modFPort (by intro _; rfl) s p)
  rfl

theorem portLost_care (s : State) (p : Nat) : (s.portLost p).care = s.care := by
  have hlist (u : State) (a : BitVec 20) : (u.listUnreachable a).care = u.care := by
    unfold State.listUnreachable State.modFabric
    refine care_of_ports ?_
    dsimp only
    split <;> rfl
  have hattention (u : State) (a b : W32) : (u.attention 2 cPartner a b).care = u.care := rfl
  unfold State.portLost
  dsimp only
  rw [recapAs_care, hlist, hattention]
  exact (care_modFPort (by intro _; rfl) _ p).trans (emptyTx_care s p)

theorem portFails_care (s : State) (p reason : Nat) : (s.portFails p reason).care = s.care := care_modFPort (by intro _; rfl) s p

theorem knowPartner_care (s : State) (p : Nat) (h : List W32) : (s.knowPartner p h).care = s.care := care_modFPort (by intro _; rfl) s p

theorem portUp_care (s : State) (p : Nat) (h : List W32) : (s.portUp p h).care = s.care := by
  have hfabric (u : State) (l : List (BitVec 20)) : (u.modFabric fun f => { f with unreachable := l }).care = u.care := rfl
  unfold State.portUp
  dsimp only
  rw [recapAs_care]
  exact (care_modFPort (by intro _; rfl) _ p).trans (knowPartner_care s p h)

theorem takeHello_care (s : State) (p : Nat) (h : List W32) : (s.takeHello p h).care = s.care := by
  have hmismatch (u : State) (a : BitVec 20) : (u.mismatch p a).care = u.care := by
    have hattention (v : State) (b c : W32) : (v.attention 4 cColophon b c).care = v.care := rfl
    unfold State.mismatch
    dsimp only
    split
    · exact care_modFPort (by intro _; rfl) u p
    · exact (hattention _ _ _).trans (care_modFPort (by intro _; rfl) u p)
  have htaken (u : State) : (if (u.fport p).state = 2 then u.knowPartner p h else u.portUp p h).care = u.care := by
    split
    · exact knowPartner_care u p h
    · exact portUp_care u p h
  have hrefused (u : State) : ((u.knowPartner p h).modFPort p fun k => { k with state := 3 }).care = u.care :=
    (care_modFPort (by intro _; rfl) _ p).trans (knowPartner_care u p h)
  unfold State.takeHello
  dsimp only
  split
  · split
    · rw [recapAs_care, portFails_care, emptyTx_care]
    · rw [portFails_care, emptyTx_care]
  · split
    · exact htaken s
    · split
      · rw [htaken, hmismatch]
      · split
        · rw [recapAs_care, hrefused, hmismatch]
        · rw [hrefused, hmismatch]

theorem emitLink_care (s : State) (p : Nat) (x : Parcel) : (s.emitLink p x).care = s.care := by
  have hsend (u : State) (y : Parcel) : (u.sendOn p y none).care = u.care := by
    unfold State.sendOn
    dsimp only
    split
    · exact care_modFPort (by intro _; rfl) u p
    · exact care_modFPort (by intro _; rfl) u p
  exact hsend _ _

theorem negotiateFrom2_care (s : State) (p : Nat) (net : NegIn) : (s.negotiateFrom2 p net).care = s.care := by
  have hstart : (s.modFPort p fun k => { k with polInv := net.inverted, laneMap := laneMapOf net.order }).care = s.care :=
    care_modFPort (by intro _; rfl) s p
  have hoffers (u : State) : (u.sendOffers p).care = u.care := by
    unfold State.sendOffers
    exact foldl_keeps State.care (fun (s : State) (l : Nat) => s.emit (.offer p l (s.offerWord p l))) (fun _ _ => rfl) _ _
  have hrate (u : State) (f : FPort → FPort) (hf : ∀ k, (f k).care = k.care) : ((u.modFPort p f).emit (.credit p inputUnits)).care = u.care :=
    care_modFPort hf u p
  unfold State.negotiateFrom2
  dsimp only
  generalize (s.modFPort p fun k => { k with polInv := net.inverted, laneMap := laneMapOf net.order }) = v at *
  split
  · exact (portFails_care _ _ _).trans hstart
  · split
    · rw [portFails_care, hoffers, hstart]
    · split
      · rw [portFails_care, hoffers, hstart]
      · split
        · rw [portFails_care, hoffers, hstart]
        · split
          · rw [portFails_care, hoffers, hstart]
          · split
            · rw [portFails_care, hoffers, hstart]
            · split
              · rw [portFails_care, hoffers, hstart]
              · rw [takeHello_care, emitLink_care]
                exact ((hrate _ _ (by intro _; rfl)).trans (hoffers v)).trans hstart

theorem beginNegotiation_care (s : State) (p : Nat) : (s.beginNegotiation p).care = s.care := by
  unfold State.beginNegotiation
  exact care_modFPort (by intro _; rfl) s.draw.2 p

/-! ### Commands that have ended -/

theorem finish_gone (s : State) (q tag : Nat) (code : Code) (r0 r1 : W32) : (s.finish q tag code r0 r1).started? q tag = none := by
  have hleft (c : Started) : (s.left q tag c).started? q tag = none := by
    have hnone : ((s.port.leave q tag c.chan).started.find? fun u => u.q == q && u.tag == tag) = none :=
      List.find?_eq_none.2 fun u hu => by simpa only [Bool.not_eq_true, Bool.not_eq_true'] using (List.mem_filter.1 hu).2
    have harmed := armBuffers_find (s.port.leave q tag c.chan) q tag
    rw [hnone] at harmed
    rwa [Option.isSome_none, Option.isSome_eq_false_iff, Option.isNone_iff_eq_none] at harmed
  unfold State.finish
  split
  next h => exact h
  next c _ =>
    dsimp only
    split
    · exact (Speaks.of_voice (settleDrain_voice _ _)).started q tag (hleft c)
    · exact ((complete_speaks _ _ _ _ _ _).trans (.of_voice (settleDrain_voice _ _))).started q tag (hleft c)

end Sys2Proof.Machine
end

section
/-! SUPPORT. A memory port out of service and the cask restart (R269, R273). -/

namespace Sys2Proof.Machine

/-! ### Epochs -/

/-- From s to t every stream keeps its EPOCH, and no stream is listed twice that was not before. -/
structure EpochsKept (s t : State) : Prop where
  epoch : ∀ i, (t.stream i).epoch = (s.stream i).epoch
  nodup : (s.streams.map (·.1)).Nodup → (t.streams.map (·.1)).Nodup

theorem EpochsKept.of_streams {s t : State} (h : t.streams = s.streams) : EpochsKept s t :=
  ⟨fun i => by rw [State.stream, State.stream, h], fun hn => by rw [h]; exact hn⟩

theorem EpochsKept.trans {s t u : State} (h : EpochsKept s t) (k : EpochsKept t u) : EpochsKept s u :=
  ⟨fun i => (k.epoch i).trans (h.epoch i), fun hn => k.nodup (h.nodup hn)⟩

theorem EpochsKept.foldl {α : Type} (g : State → α → State) (h : ∀ s x, EpochsKept s (g s x)) (l : List α) (s : State) :
    EpochsKept s (l.foldl g s) := by
  induction l generalizing s with
  | nil => exact .of_streams rfl
  | cons a l ih => exact (h s a).trans (ih _)

theorem alSet_nodup {α : Type} [DecidableEq α] (d : α) (k : Nat) (v : α) {l : List (Nat × α)} (h : (l.map (·.1)).Nodup) :
    ((alSet d k v l).map (·.1)).Nodup := by
  have hfilter (p : Nat × α → Bool) : ((l.filter p).map (·.1)).Nodup := h.sublist (List.Sublist.map _ List.filter_sublist)
  have hone : ((if v = d then [] else [(k, v)] : List (Nat × α)).map (·.1)).Nodup := by split <;> simp
  have hkey (x : Nat) (hx : x ∈ (if v = d then [] else [(k, v)] : List (Nat × α)).map (·.1)) : x = k := by
    split at hx <;> simpa using hx
  have hlow (x : Nat) (hx : x ∈ (l.filter fun e => decide (e.1 < k)).map (·.1)) : x < k := by
    obtain ⟨e, he, rfl⟩ := List.mem_map.1 hx
    simpa using (List.mem_filter.1 he).2
  have hhigh (x : Nat) (hx : x ∈ (l.filter fun e => decide (k < e.1)).map (·.1)) : k < x := by
    obtain ⟨e, he, rfl⟩ := List.mem_map.1 hx
    simpa using (List.mem_filter.1 he).2
  unfold alSet
  rw [List.map_append, List.map_append, List.nodup_append, List.nodup_append]
  refine ⟨⟨hfilter _, hone, fun a ha b hb => ?_⟩, hfilter _, fun a ha b hb => ?_⟩
  · rw [hkey b hb]
    exact Nat.ne_of_lt (hlow a ha)
  · rcases List.mem_append.1 ha with ha | ha
    · exact Nat.ne_of_lt (Nat.lt_trans (hlow a ha) (hhigh b hb))
    · rw [hkey a ha]
      exact Nat.ne_of_lt (hhigh b hb)

theorem modStream_epochs (s : State) (i : Nat) {f : Stream → Stream} (hf : ∀ e, (f e).epoch = e.epoch) : EpochsKept s (s.modStream i f) := by
  refine ⟨fun j => ?_, fun h => alSet_nodup _ _ _ h⟩
  by_cases hj : j = i
  · subst hj
    rw [State.modStream, stream_setStream, hf]
  · rw [State.modStream, stream_setStream_other _ _ _ _ hj]

theorem endReq_epochs (s : State) (k : Nat) (code : Code) (data : List Byte) : EpochsKept s (s.endReq k code data) := by
  have hreq (u : State) (j : Nat) (f : Req → Req) : EpochsKept u (u.modReq j f) := .of_streams rfl
  have hserve (u : State) (r : Req) (st : Stream) : EpochsKept u (u.serveAfter k r st) := by
    unfold State.serveAfter
    dsimp only
    split
    · split
      · exact (modStream_epochs u _ (by intro _; rfl)).trans (hreq _ _ _)
      · exact modStream_epochs u _ (by intro _; rfl)
    · exact .of_streams rfl
  have hreply (u : State) (r : Req) (st : Stream) : (u.replyEnd r st code data).streams = u.streams := by
    rw [frame_of_offWork (replyEnd_offWork u r st code data)]
  have hanswer (u : State) (r : Req) (st : Stream) : (u.answerEnd r st code).streams = u.streams := by
    rw [(answerEnd_portEnds u r st code).frame]
  cases h : (s.req k).open_ with
  | false => rw [endReq_closed h]; exact .of_streams rfl
  | true =>
    rw [endReq_open h]
    refine EpochsKept.trans ?_ (hserve _ _ _)
    refine .of_streams ?_
    rw [hanswer, hreply]
    rfl

theorem endRequests_epochs (s : State) (code : Code) : EpochsKept s (s.endRequests code) := by
  unfold State.endRequests
  dsimp only
  refine EpochsKept.trans ?_ (EpochsKept.foldl _ (fun u c => .of_streams ?_) _ _)
  · exact EpochsKept.foldl _ (fun u k => endReq_epochs u k code []) _ _
  · rw [frame_of_offWork (replyCode_offWork u c _ code)]

theorem alGet_cons {α : Type} (d : α) (k : Nat) (e : Nat × α) (l : List (Nat × α)) :
    alGet d k (e :: l) = if e.1 = k then e.2 else alGet d k l := by
  unfold alGet
  by_cases he : e.1 = k
  · rw [if_pos he, List.find?_cons_of_pos (by simpa using he)]
  · rw [if_neg he, List.find?_cons_of_neg (by simpa using he)]

theorem alGet_absent {α : Type} (d : α) {k : Nat} {l : List (Nat × α)} (h : k ∉ l.map (·.1)) : alGet d k l = d := by
  unfold alGet
  rw [List.find?_eq_none.2 fun x hx hk => h (List.mem_map.2 ⟨x, hx, by simpa using hk⟩)]

/-- A stream that has been freed keeps its EPOCH. -/
theorem freeStreams_epoch {s : State} (h : (s.streams.map (·.1)).Nodup) (i : Nat) :
    (s.freeStreams.stream i).epoch = (s.stream i).epoch := by
  have hread (l : List (Nat × Stream)) (hn : (l.map (·.1)).Nodup) :
      (alGet (Stream.free 0) i ((l.map fun e => (e.1, Stream.free e.2.epoch)).filter fun e => e.2 != Stream.free 0)).epoch =
        (alGet (Stream.free 0) i l).epoch := by
    induction l with
    | nil => rfl
    | cons e l ih =>
      rw [List.map_cons, List.nodup_cons] at hn
      rw [List.map_cons, List.filter_cons, alGet_cons]
      by_cases hfree : Stream.free e.2.epoch = Stream.free 0
      · have hepoch : e.2.epoch = 0 := congrArg Stream.epoch hfree
        rw [if_neg (by simpa using hfree), ih hn.2]
        split
        next he =>
          subst he
          rw [alGet_absent _ hn.1, hepoch]
          rfl
        · rfl
      · rw [if_pos (by simpa using hfree), alGet_cons]
        split
        · rfl
        · exact ih hn.2
  exact hread s.streams h

/-! ### A cask restart begins -/

/-- What is left where all work has stopped and every stream is free. -/
theorem stopped_spec {s t : State} (ht : t = ((s.killAll cCask).endRequests cCask).freeStreams) :
    t.cmds = [] ∧ (∀ i, (t.stream i).live = false) ∧
      ((s.streams.map (·.1)).Nodup → ∀ i, (t.stream i).epoch = (s.stream i).epoch) ∧ t.offReq = s.offReq := by
  have hkill := killAll_offWork s cCask
  have hstreams : (s.killAll cCask).streams = s.streams := by rw [frame_of_offWork hkill]
  have hepochs : EpochsKept s ((s.killAll cCask).endRequests cCask) :=
    (EpochsKept.of_streams hstreams).trans (endRequests_epochs _ _)
  subst ht
  refine ⟨?_, freeStreams_dead _, fun hn i => ?_, ?_⟩
  · exact (endRequests_cmds _ _).trans (killAll_cmds s cCask)
  · rw [freeStreams_epoch (hepochs.nodup hn), hepochs.epoch]
  · rw [freeStreams_offReq, endRequests_offReq, offReq_of_offWork hkill]

/-- A port taken out of service at run time: it has its cause, and a cask restart begins. -/
theorem takePortOut_spec {s t : State} {p : Nat} (hup : (s.memPort p).state = 2) (cause : Nat) (ht : t = s.takePortOut p cause) :
    t.memPort p = { s.memPort p with state := 3, cause := cause } ∧ (∀ n, n ≠ p → t.memPort n = s.memPort n) ∧ t.power.config = 3 ∧
      (s.power.config ≠ 3 → t.power.next = s.power.config) ∧ t.cmds = [] ∧ (∀ i, (t.stream i).live = false) ∧
      ((s.streams.map (·.1)).Nodup → ∀ i, (t.stream i).epoch = (s.stream i).epoch) ∧ t.cellar.rebuilding = true ∧
      t.port.attnPending.getLsbD 6 = true := by
  have hlen : p < s.mem.length := memPort_exists (by rw [hup]; decide)
  have hout : (s.modMem p fun k => { k with state := 3, cause := cause }).memPort p = { s.memPort p with state := 3, cause := cause } :=
    memPort_modMem _ hlen
  have hother (n : Nat) (hn : n ≠ p) : (s.modMem p fun k => { k with state := 3, cause := cause }).memPort n = s.memPort n :=
    memPort_modMem_other _ hn
  have hframe : (s.modMem p fun k => { k with state := 3, cause := cause }) =
      { s with mem := (s.modMem p fun k => { k with state := 3, cause := cause }).mem } := rfl
  rw [State.takePortOut, if_neg (by rw [hup]; decide)] at ht
  generalize (s.modMem p fun k => { k with state := 3, cause := cause }) = v at *
  obtain ⟨hcmds, hlive, hepochs, hoff⟩ := stopped_spec (s := v) rfl
  unfold State.caskRestart at ht
  have hw := frame_of_offReq hoff
  generalize ((v.killAll cCask).endRequests cCask).freeStreams = w at *
  have hmem (n : Nat) : t.memPort n = v.memPort n := by
    have : t.mem = w.mem := by rw [ht]; rfl
    rw [State.memPort, this, hw]; rfl
  have hpower : w.power = s.power := by rw [hw, hframe]
  have hstream (i : Nat) : t.stream i = w.stream i := by rw [ht]; rfl
  have hwas : v.streams = s.streams ∧ ∀ i, v.stream i = s.stream i := by rw [hframe]; exact ⟨rfl, fun _ => rfl⟩
  refine ⟨(hmem p).trans hout, fun n hn => (hmem n).trans (hother n hn), by rw [ht]; rfl, fun hne => ?_, ?_, fun i => ?_, fun hn i => ?_,
    by rw [ht]; rfl, ?_⟩
  · have hnext : t.power.next = if w.power.config = 3 then w.power.next else w.power.config := by rw [ht]; rfl
    rw [hnext, hpower, if_neg hne]
  · have : t.cmds = w.cmds := by rw [ht]; rfl
    rw [this, hcmds]
  · rw [hstream]
    exact hlive i
  · rw [hstream, hepochs (by rw [hwas.1]; exact hn), hwas.2]
  · rw [ht]
    exact attention_pending _ (by decide) _ _ _

end Sys2Proof.Machine
end

section
/-! SUPPORT. The commands of maker service (R488). -/

namespace Sys2Proof.Machine

theorem State.shaped_sects {s : State} (h : s.shaped = true) : s.sects.length = 4 := by
  have := congrArg (fun l => l.getD 5 0) (State.shaped_iff.1 h)
  exact this

theorem recordBy_frame (s : State) (kind : BitVec 8) (role pair : Nat) (code : Code) (a b : W32) :
    s.recordBy kind role pair code a b = { s with errata := (s.recordBy kind role pair code a b).errata } := rfl

/-! ### Cores -/

/-- From s to t a section keeps what has failed or is excluded, every other section is as it was, and none that was idle runs. -/
structure SectKept (s t : State) (k : Nat) : Prop where
  excluded : (t.sect k).excluded = (s.sect k).excluded
  failed : (t.sect k).failed = (s.sect k).failed
  others : ∀ n, n ≠ k → t.sect n = s.sect n
  length : t.sects.length = s.sects.length
  idle : s.sectionIdle k → t.sectionIdle k

theorem SectKept.of_sects {s t : State} {k : Nat} (h : t.sects = s.sects) (hidle : s.sectionIdle k → t.sectionIdle k) : SectKept s t k :=
  ⟨by rw [sect_of_sects h], by rw [sect_of_sects h], fun n _ => sect_of_sects h n, by rw [h], hidle⟩

theorem SectKept.trans {s t u : State} {k : Nat} (h : SectKept s t k) (g : SectKept t u k) : SectKept s u k :=
  ⟨g.excluded.trans h.excluded, g.failed.trans h.failed, fun n hn => (g.others n hn).trans (h.others n hn), g.length.trans h.length,
    fun hi => g.idle (h.idle hi)⟩

theorem coreFails_kept {s : State} {k : Nat} (hk : k < s.sects.length) (p : Nat) : SectKept s (s.coreFails k p) k := by
  obtain ⟨-, ⟨f, hsects, hf⟩, hidle⟩ := coreFails_same s k p
  obtain ⟨hown, hothers⟩ := sect_modAt hsects hk
  exact ⟨by rw [hown, (hf _).1], by rw [hown, (hf _).2], hothers, by rw [hsects, modAt_length], hidle⟩

theorem foldl_coreFails_kept (l : List Nat) {s : State} {k : Nat} (hk : k < s.sects.length) :
    SectKept s (l.foldl (fun s p => s.coreFails k p) s) k := by
  induction l generalizing s with
  | nil => exact .of_sects rfl fun h => h
  | cons p l ih =>
    have hstep := coreFails_kept hk p
    exact hstep.trans (ih (hstep.length ▸ hk))

theorem finish_sects (s : State) (q tag : Nat) (code : Code) (r0 r1 : W32) (k : Nat) : SectKept s (s.finish q tag code r0 r1) k := by
  have hframe := (finish_portEnds s q tag code r0 r1).frame
  exact .of_sects (by rw [hframe]) (by rw [State.sectionIdle, State.sectionIdle, hframe]; exact fun h => h)

/-- CORE_SERVICE of a core that still works excludes it and lets it fail. -/
theorem exec_coreService {s : State} {q tag : Nat} {c : Started} (h : s.commandAt q tag 0x60 c)
    (hheld : s.heldIn (bits (c.arg 1) 1 0) = false) :
    exec (.coreService q tag) s = .next (
      let u := s.recordBy 0x0D c.role q 0 0x60 (c.arg 1)
      if 16 < bits (c.arg 1) 6 2 then u.finish q tag cAlign 0 0
      else
        let v := u.modSect (bits (c.arg 1) 1 0) fun k => { k with excluded := k.excluded ||| coreBit (bits (c.arg 1) 6 2) }
        let w := if u.coreOut (bits (c.arg 1) 1 0) (bits (c.arg 1) 6 2) then v else v.coreFails (bits (c.arg 1) 1 0) (bits (c.arg 1) 6 2)
        w.finish q tag cDone (w.coresWord (bits (c.arg 1) 1 0)) 0) := by
  have hexec : exec (.coreService q tag) s = execCoreService q tag s := rfl
  rw [hexec, execCoreService, onStarted_commandAt h _ _ (by rw [hheld]; rfl)]

theorem coreService_spec {s : State} {q tag k p l x : Nat} {c : Started} (hshape : s.shaped = true) (hk : k = bits (c.arg 1) 1 0)
    (h : s.commandAt q tag 0x60 c) (hheld : s.heldIn k = false) (hp : p = bits (c.arg 1) 6 2) (hmost : p ≤ 16)
    (hin : s.coreOut k p = false) (hspare : (s.sect k).spare = some x) (hx : x ≠ p)
    (hmap : (s.sect k).map.findIdx? (· == p) = some l) :
    ∃ t, exec (.coreService q tag) s = .next t ∧ t.started? q tag = none ∧
      t.sect k = { s.sect k with excluded := (s.sect k).excluded ||| coreBit p, map := (s.sect k).map.set l x, spare := none } ∧
      (∀ n, n ≠ k → t.sect n = s.sect n) ∧ t.nor = s.nor := by
  subst hk hp
  have hlen : bits (c.arg 1) 1 0 < s.sects.length := by rw [State.shaped_sects hshape]; exact bits_lt _ 1 0
  have hexec := exec_coreService h hheld
  have hrec := recordBy_frame s 0x0D c.role q 0 0x60 (c.arg 1)
  generalize s.recordBy 0x0D c.role q 0 0x60 (c.arg 1) = u at *
  have hsects : u.sects = s.sects ∧ u.nor = s.nor := by rw [hrec]; exact ⟨rfl, rfl⟩
  have hout : u.coreOut (bits (c.arg 1) 1 0) (bits (c.arg 1) 6 2) = false := by rw [hrec]; exact hin
  dsimp only at hexec
  rw [if_neg (by omega), hout, if_neg (by decide)] at hexec
  obtain ⟨hvsect, hvothers⟩ := sect_modAt (s := u) (t := u.modSect (bits (c.arg 1) 1 0) fun k =>
    { k with excluded := k.excluded ||| coreBit (bits (c.arg 1) 6 2) }) rfl (hsects.1 ▸ hlen)
  have hvnor : (u.modSect (bits (c.arg 1) 1 0) fun k => { k with excluded := k.excluded ||| coreBit (bits (c.arg 1) 6 2) }).nor = s.nor := hsects.2
  have hvlen : (u.modSect (bits (c.arg 1) 1 0) fun k =>
      { k with excluded := k.excluded ||| coreBit (bits (c.arg 1) 6 2) }).sects.length = s.sects.length := by
    rw [← hsects.1]; exact modAt_length _ _ _
  generalize (u.modSect (bits (c.arg 1) 1 0) fun k => { k with excluded := k.excluded ||| coreBit (bits (c.arg 1) 6 2) }) = v at *
  have husect (n : Nat) : u.sect n = s.sect n := sect_of_sects hsects.1 n
  rw [husect] at hvsect
  have hvspare : (v.sect (bits (c.arg 1) 1 0)).spare = some x := by rw [hvsect]; exact hspare
  have hfails := coreFails_sects (s := v) (sec := bits (c.arg 1) 1 0) (phys := bits (c.arg 1) 6 2) (l := l)
    (by rw [hvspare]; exact fun he => hx (Option.some.inj he)) (by rw [hvsect]; exact hmap)
  obtain ⟨hown, hothers⟩ := sect_modAt hfails (hvlen ▸ hlen)
  have hnor := (coreFails_same v (bits (c.arg 1) 1 0) (bits (c.arg 1) 6 2)).1
  have hmapped : (v.sect (bits (c.arg 1) 1 0)).mapWithout (bits (c.arg 1) 6 2) l = (s.sect (bits (c.arg 1) 1 0)).map.set l x := by
    rw [Sect.mapWithout, hvspare, hvsect]
  rw [hmapped, hvsect] at hown
  generalize v.coreFails (bits (c.arg 1) 1 0) (bits (c.arg 1) 6 2) = w at *
  have hframe := (finish_portEnds w q tag cDone (w.coresWord (bits (c.arg 1) 1 0)) 0).frame
  have hsame : (w.finish q tag cDone (w.coresWord (bits (c.arg 1) 1 0)) 0).sects = w.sects ∧
      (w.finish q tag cDone (w.coresWord (bits (c.arg 1) 1 0)) 0).nor = w.nor := by
    rw [hframe]; exact ⟨rfl, rfl⟩
  refine ⟨_, hexec, finish_gone _ _ _ _ _ _, ?_, fun n hn => ?_, ?_⟩
  · exact (sect_of_sects hsame.1 _).trans hown
  · rw [sect_of_sects hsame.1, hothers n hn, hvothers n hn, husect]
  · rw [hsame.2, hnor, hvnor]

/-- The cores that a self-test finds failed and that were not out before. -/
def State.newlyFailed (s : State) (sec : Nat) (failed : BitVec 17) : List Nat :=
  (List.range 17).filter fun p => failed.getLsbD p && !s.coreOut sec p

/-- A section stopped for a self-test: its work stopped, its cores' contents lost, their tables loaded again. -/
def State.tested (s : State) (sec : Nat) : State :=
  let u := (s.stopSection sec).voidOwners ((s.stopSection sec).ownersOf sec (List.range 16))
  let v : State := { u with
    coreMem := u.coreMem.moveCores sec fun _ => none
    coreLines := moveLines u.coreLines sec fun _ => none }
  (List.range (v.coresOf sec)).foldl (fun s l => s.loadTables (16 * sec + l)) v

theorem tested_same (s : State) (sec : Nat) : (s.tested sec).sects = s.sects ∧ (s.tested sec).sectionIdle sec := by
  obtain ⟨hoff, hsub⟩ := voidOwners_same (s.stopSection sec) ((s.stopSection sec).ownersOf sec (List.range 16))
  have hstop := sects_of_offCap (offCap_of_offWork (stopSection_offWork s sec))
  have hload (l : List Nat) (v : State) : (l.foldl (fun s l => s.loadTables (16 * sec + l)) v).sects = v.sects ∧
      (l.foldl (fun s l => s.loadTables (16 * sec + l)) v).cmds = v.cmds :=
    ⟨foldl_keeps State.sects _ (fun v l => (loadTables_same v _).2.2) l v,
      foldl_keeps State.cmds _ (fun v l => (loadTables_same v _).2.1) l v⟩
  unfold State.tested
  dsimp only
  have hvoid := sects_of_offCap (offCap_of_offReq hoff)
  refine ⟨(hload _ _).1.trans (hvoid.trans hstop), sectionIdle_of_subset (stopSection_idle s sec) fun x hx => hsub x ?_⟩
  rw [(hload _ _).2] at hx
  exact hx

theorem exec_selfTest {s : State} {q tag : Nat} {c : Started} (h : s.commandAt q tag 0x61 c)
    (hheld : s.heldIn (bits (c.arg 1) 1 0) = false) (failed : BitVec 17) :
    exec (.selfTest q tag failed) s = .next (
      let u := (s.recordBy 0x0D c.role q 0 0x61 (c.arg 1)).tested (bits (c.arg 1) 1 0)
      let v := u.modSect (bits (c.arg 1) 1 0) fun k => { k with excluded := k.excluded ||| failed }
      ((u.newlyFailed (bits (c.arg 1) 1 0) failed).foldl (fun s p => s.coreFails (bits (c.arg 1) 1 0) p) v).finish q tag cDone
        (failed.setWidth 32) 0) := by
  have hexec : exec (.selfTest q tag failed) s = execSelfTest q tag failed s := rfl
  rw [hexec, execSelfTest, onStarted_commandAt h _ _ (by rw [hheld]; rfl)]
  rfl

theorem selfTest_spec {s : State} {q tag k : Nat} {c : Started} (hshape : s.shaped = true) (hk : k = bits (c.arg 1) 1 0)
    (failed : BitVec 17) (h : s.commandAt q tag 0x61 c) (hheld : s.heldIn k = false) :
    ∃ t, exec (.selfTest q tag failed) s = .next t ∧ t.started? q tag = none ∧
      (t.sect k).excluded = (s.sect k).excluded ||| failed ∧ (t.sect k).failed = (s.sect k).failed ∧
      (∀ n, n ≠ k → t.sect n = s.sect n) ∧ (∀ x ∈ t.cmds, x.phase = .issued → x.inSection k = false) := by
  subst hk
  have hlen : bits (c.arg 1) 1 0 < s.sects.length := by rw [State.shaped_sects hshape]; exact bits_lt _ 1 0
  have hexec := exec_selfTest h hheld failed
  obtain ⟨hsects, hidle⟩ := tested_same (s.recordBy 0x0D c.role q 0 0x61 (c.arg 1)) (bits (c.arg 1) 1 0)
  have hrec : (s.recordBy 0x0D c.role q 0 0x61 (c.arg 1)).sects = s.sects := rfl
  rw [hrec] at hsects
  generalize (s.recordBy 0x0D c.role q 0 0x61 (c.arg 1)).tested (bits (c.arg 1) 1 0) = u at *
  obtain ⟨hown, hothers⟩ := sect_modAt (s := u) (t := u.modSect (bits (c.arg 1) 1 0) fun k => { k with excluded := k.excluded ||| failed })
    rfl (hsects ▸ hlen)
  have hvidle : (u.modSect (bits (c.arg 1) 1 0) fun k => { k with excluded := k.excluded ||| failed }).sectionIdle (bits (c.arg 1) 1 0) := hidle
  have hvlen : (u.modSect (bits (c.arg 1) 1 0) fun k => { k with excluded := k.excluded ||| failed }).sects.length = s.sects.length := by
    rw [← hsects]; exact modAt_length _ _ _
  dsimp only at hexec
  generalize (u.modSect (bits (c.arg 1) 1 0) fun k => { k with excluded := k.excluded ||| failed }) = v at *
  have hkept := (foldl_coreFails_kept (u.newlyFailed (bits (c.arg 1) 1 0) failed) (hvlen ▸ hlen)).trans
    (finish_sects _ q tag cDone (failed.setWidth 32) 0 (bits (c.arg 1) 1 0))
  have husect (n : Nat) : u.sect n = s.sect n := sect_of_sects hsects n
  rw [husect] at hown
  refine ⟨_, hexec, finish_gone _ _ _ _ _ _, ?_, ?_, fun n hn => ?_, hkept.idle hvidle⟩
  · rw [hkept.excluded, hown]
  · rw [hkept.failed, hown]
  · rw [hkept.others n hn, hothers n hn, husect]

/-! ### Lanes -/

/-- A lane excluded until the next start. -/
def FPort.without (k : FPort) (l : Nat) : FPort :=
  { k with excluded := k.excluded ||| BitVec.ofNat 5 (1 <<< l), noRetry := false
           faults := k.faults.filter fun (f : LaneFault) => f.fault != 7 }

/-- A native port of which a lane has been excluded negotiates from step 2. -/
def State.renegotiate (s : State) (p : Nat) (net : NegIn) : State :=
  let u := s.modFPort p fun k => { k with renegotiations := sat32 (k.renegotiations + 1) }
  let v := if u.partnered p then u.portLost p else u
  (v.beginNegotiation p).negotiateFrom2 p net

theorem renegotiate_care (s : State) (p : Nat) (net : NegIn) :
    (s.renegotiate p net).care = (s.modFPort p fun k => { k with renegotiations := sat32 (k.renegotiations + 1) }).care := by
  unfold State.renegotiate
  dsimp only
  rw [negotiateFrom2_care, beginNegotiation_care]
  split
  · exact portLost_care _ _
  · rfl

theorem exec_laneService {s : State} {q tag p l : Nat} {c : Started} (h : s.commandAt q tag 0x62 c) (hp : p = bits (c.arg 1) 3 0)
    (hl : l = bits (c.arg 1) 6 4) (hmost : l ≤ 4) (net : NegIn) :
    exec (.laneService q tag net) s = .next (
      let u := (s.recordBy 0x0D c.role q 0 0x62 (c.arg 1)).modFPort p fun k => k.without l
      let v := if !u.isNative p then u else u.renegotiate p net
      v.finish q tag cDone (w32 (v.fport p).width) 0) := by
  have hexec : exec (.laneService q tag net) s = execLaneService q tag net s := rfl
  subst hp hl
  rw [hexec, execLaneService, onStarted_commandAt h _ _ rfl]
  dsimp only
  rw [if_neg (by omega)]
  rfl

theorem laneService_spec {s : State} {q tag p l : Nat} {c : Started} (hshape : s.shaped = true) (h : s.commandAt q tag 0x62 c)
    (hp : p = bits (c.arg 1) 3 0) (hl : l = bits (c.arg 1) 6 4) (hmost : l ≤ 4) (net : NegIn) :
    ∃ t, exec (.laneService q tag net) s = .next t ∧ t.started? q tag = none ∧
      (t.fport p).excluded = (s.fport p).excluded ||| BitVec.ofNat 5 (1 <<< l) ∧
      (s.isNative p = true → (t.fport p).renegotiations = sat32 ((s.fport p).renegotiations + 1)) ∧
      (s.isNative p = false → Answered s t q tag (s.queue q) [] cDone (w32 (s.fport p).width) 0) ∧
      (∀ n, n ≠ p → (t.fport n).excluded = (s.fport n).excluded) := by
  have hlen : p < s.fabric.ports.length := by rw [State.shaped_fports hshape, hp]; exact bits_lt _ 3 0
  have hexec := exec_laneService h hp hl hmost net
  dsimp only at hexec
  have hrec := recordBy_frame s 0x0D c.role q 0 0x62 (c.arg 1)
  generalize s.recordBy 0x0D c.role q 0 0x62 (c.arg 1) = r at *
  have hfabric : r.fabric = s.fabric := by rw [hrec]
  have hfport (n : Nat) : r.fport n = s.fport n := by rw [State.fport, hfabric]; rfl
  have hu : (r.modFPort p fun k => k.without l).fport p = (s.fport p).without l := by
    rw [fport_modFPort _ _ _ (hfabric ▸ hlen), hfport]
  have hothers (n : Nat) (hn : n ≠ p) : (r.modFPort p fun k => k.without l).fport n = s.fport n := by
    rw [fport_modFPort_other _ _ _ _ hn, hfport]
  have hulen : p < (r.modFPort p fun k => k.without l).fabric.ports.length := by
    exact lt_of_lt_of_eq (hfabric ▸ hlen) (modAt_length _ _ _).symm
  have huframe : (r.modFPort p fun k => k.without l) =
      { s with errata := r.errata, fabric := (r.modFPort p fun k => k.without l).fabric } := by rw [hrec]; rfl
  generalize (r.modFPort p fun k => k.without l) = u at *
  have hnative : u.isNative p = s.isNative p := by rw [State.isNative, hu]; rfl
  have hcare (v : State) (n : Nat) : ((v.finish q tag cDone (w32 (v.fport p).width) 0).fport n).care = (v.fport n).care :=
    congrFun (finish_care v q tag cDone (w32 (v.fport p).width) 0) n
  cases hnat : s.isNative p with
  | false =>
    rw [hnative, hnat, if_pos (by rfl)] at hexec
    obtain ⟨hstarted, -, -, hdiscard, -, -, htakes⟩ := h
    have htakes' : u.takesEntry q = true := by rw [huframe]; exact htakes
    have hstarted' : u.started? q tag = some c := by rw [huframe]; exact hstarted
    have hans : Answered s (u.finish q tag cDone (w32 (u.fport p).width) 0) q tag (u.queue q) [] cDone (w32 (u.fport p).width) 0 :=
      finish_answered _ _ _ htakes' hstarted' hdiscard (by rw [huframe, List.append_nil]) fun k _ => by rw [huframe]; rfl
    have hqueue : u.queue q = s.queue q := by rw [huframe]; rfl
    have hwidth : (u.fport p).width = (s.fport p).width := by rw [hu]; rfl
    rw [hqueue] at hans
    refine ⟨_, hexec, finish_gone _ _ _ _ _ _, ?_, fun hf => (by cases hf), fun _ => ?_, fun n hn => ?_⟩
    · have hown : (u.fport p).care.1 = (s.fport p).excluded ||| BitVec.ofNat 5 (1 <<< l) := by rw [hu]; rfl
      exact (congrArg Prod.fst (hcare u p)).trans hown
    · rw [hwidth] at hans ⊢
      exact hans
    · have := congrArg Prod.fst (hcare u n)
      rw [hothers n hn] at this
      exact this
  | true =>
    rw [hnative, hnat, if_neg (by decide)] at hexec
    have hrenegotiated (n : Nat) := congrFun (renegotiate_care u p net) n
    have hcared (n : Nat) := (hcare (u.renegotiate p net) n).trans (hrenegotiated n)
    refine ⟨_, hexec, finish_gone _ _ _ _ _ _, ?_, fun _ => ?_, fun hf => (by cases hf), fun n hn => ?_⟩
    · have := congrArg Prod.fst (hcared p)
      rw [State.care, fport_modFPort _ _ _ hulen, hu] at this
      exact this
    · have := congrArg Prod.snd (hcared p)
      rw [State.care, fport_modFPort _ _ _ hulen, hu] at this
      exact this
    · have := congrArg Prod.fst (hcared n)
      rw [State.care, fport_modFPort_other _ _ _ _ hn, hothers n hn] at this
      exact this

/-! ### Memory ports -/

theorem exec_portService {s : State} {q tag p : Nat} {c : Started} (h : s.commandAt q tag 0x63 c) (hp : p = bits (c.arg 1) 3 0) :
    exec (.portService q tag) s = .next (
      let u := s.recordBy 0x0D c.role q 0 0x63 (c.arg 1)
      if (s.memPort p).state = 2 && s.power.config != 3 then
        (u.modStarted q tag fun t => { t with begun := true }).takePortOut p 0
      else u.finish q tag cDone (w32 s.portsUp.length) 0) := by
  have hexec : exec (.portService q tag) s = execPortService q tag s := rfl
  subst hp
  rw [hexec, execPortService, onStarted_commandAt h _ _ rfl]
  rfl

/-- A command whose use has been recorded ends at once: the queue pair, the started commands and the log have changed alone. -/
theorem finish_recorded {s u : State} {q tag opc : Nat} {c : Started} (h : s.commandAt q tag opc c)
    (hu : u = { s with errata := u.errata }) (code : Code) (r0 r1 : W32) :
    Answered s (u.finish q tag code r0 r1) q tag (s.queue q) [] code r0 r1 ∧
      u.finish q tag code r0 r1 = { s with
        out := (u.finish q tag code r0 r1).out, port := s.portOf (u.finish q tag code r0 r1)
        errata := (u.finish q tag code r0 r1).errata } := by
  obtain ⟨hstarted, -, -, hdiscard, -, -, htakes⟩ := h
  have htakes' : u.takesEntry q = true := by rw [hu]; exact htakes
  have hstarted' : u.started? q tag = some c := by rw [hu]; exact hstarted
  have hqueue : u.queue q = s.queue q := by rw [hu]; rfl
  have hframe := finish_frame code r0 r1 htakes' hstarted' hdiscard
  refine ⟨hqueue ▸ finish_answered code r0 r1 htakes' hstarted' hdiscard (by rw [hu, List.append_nil]) fun k _ => by rw [hu]; rfl, ?_⟩
  generalize u.finish q tag code r0 r1 = t at *
  rw [hframe, hu]
  rfl

end Sys2Proof.Machine

namespace Sys2Proof.Proofs

open Sys2Proof.Machine

/-- Settles O40: a service excludes a core, the cores of a test, or a lane, or takes a memory port out, and then answers. -/
theorem makerServices : Obligations.MakerServices := by
  intro s q tag c k hshape hk
  refine ⟨fun p l x h hheld hp hmost hin hspare hx hmap => coreService_spec hshape hk h hheld hp hmost hin hspare hx hmap,
    fun h hheld hrange => ?_, fun failed h hheld => selfTest_spec hshape hk failed h hheld,
    fun p l net h hp hl hmost => laneService_spec hshape h hp hl hmost net, fun p h hp hup hconfig => ?_, fun p h hp hnot => ?_⟩
  · subst hk
    have hexec := exec_coreService h hheld
    dsimp only at hexec
    rw [if_pos hrange] at hexec
    obtain ⟨hans, hframe⟩ := finish_recorded h (recordBy_frame s 0x0D c.role q 0 0x60 (c.arg 1)) cAlign 0 0
    exact ⟨_, hexec, hans, hframe⟩
  · have hexec := exec_portService h hp
    dsimp only at hexec
    rw [if_pos (by simp [hup, hconfig])] at hexec
    obtain ⟨hport, -, hthree, -, hcmds, -, -, hrebuild, hattn⟩ := takePortOut_spec
      (s := (s.recordBy 0x0D c.role q 0 0x63 (c.arg 1)).modStarted q tag fun t => { t with begun := true }) hup 0 rfl
    exact ⟨_, hexec, hport, hthree, hcmds, hrebuild, hattn⟩
  · have hexec := exec_portService h hp
    dsimp only at hexec
    rw [if_neg (by simpa [Decidable.imp_iff_not_or] using hnot)] at hexec
    obtain ⟨hans, hframe⟩ := finish_recorded h (recordBy_frame s 0x0D c.role q 0 0x63 (c.arg 1)) cDone (w32 s.portsUp.length) 0
    exact ⟨_, hexec, hans, hframe⟩

end Sys2Proof.Proofs
end

section
/-! SUPPORT. The cellar index rebuilt, memory ports retrained, the end of a cask restart (R261, R268, R269, R273, R305, R306). -/

namespace Sys2Proof.Machine

/-! ### What a kept frame enters -/

/-- The leaf that a kept frame enters. -/
def State.keptLeaf (s : State) (f : Nat × CellarFrame) : Leaf :=
  { Leaf.free with
    ref := 1, inCellar := true, format := if f.2.kind = 8 then bits f.2.w4 24 22 else 0, partition := f.2.partition, cellarFrame := f.1,
    age := (s.rack.heatCount + 32768) % 65536 }

theorem leaf_setLeaf {s : State} {h : Handle} (hl : h ∉ s.rack.lostHandles) (e : Leaf) : (s.setLeaf h e).leaf h = e := by
  have hrack : (s.setLeaf h e).rack.leaves = alSet Leaf.free h e s.rack.leaves := by
    simp [State.setLeaf, State.modRack, hl]
  rw [State.leaf, hrack, alGet_alSet_same]

theorem leaf_setLeaf_other (s : State) {h k : Handle} (hk : k ≠ h) (e : Leaf) : (s.setLeaf h e).leaf k = s.leaf k := by
  simp only [State.leaf, State.setLeaf, State.modRack]
  split
  · rfl
  · exact alGet_alSet_other _ _ _ _ _ hk

theorem setLeaf_frame (s : State) (h : Handle) (e : Leaf) : s.setLeaf h e = { s with
    rack := { s.rack with leaves := (s.setLeaf h e).rack.leaves, logged := (s.setLeaf h e).rack.logged } } := by
  simp only [State.setLeaf, State.modRack]
  split <;> rfl

/-- Induction along a list whose elements join at its end, as a fold takes them. -/
theorem snoc_induction {α : Type} {motive : List α → Prop} (l : List α) (nil : motive [])
    (append_singleton : ∀ l a, motive l → motive (l ++ [a])) : motive l := by
  have hreverse (m : List α) : motive m.reverse := by
    induction m with
    | nil => exact nil
    | cons a m ih => rw [List.reverse_cons]; exact append_singleton _ _ ih
  rw [← List.reverse_reverse l]
  exact hreverse l.reverse

/-- Kept frames entered in turn: each is the cellar's leaf under its handle, and no other leaf has changed. -/
theorem foldl_enterKept {s : State} (hlost : s.rack.lostHandles = []) (l : List (Nat × CellarFrame)) :
    (∀ f ∈ l, ((l.foldl (fun s f => s.enterKept f) s).leaf f.2.handle.toNat).inCellar = true ∧
        ((l.foldl (fun s f => s.enterKept f) s).leaf f.2.handle.toNat).ref = 1 ∧
        ((l.foldl (fun s f => s.enterKept f) s).leaf f.2.handle.toNat).inCask = false) ∧
      (∀ h, (∀ f ∈ l, f.2.handle.toNat ≠ h) → (l.foldl (fun s f => s.enterKept f) s).leaf h = s.leaf h) ∧
      l.foldl (fun s f => s.enterKept f) s = { s with rack := { s.rack with
        leaves := (l.foldl (fun s f => s.enterKept f) s).rack.leaves, logged := (l.foldl (fun s f => s.enterKept f) s).rack.logged } } := by
  induction l using snoc_induction with
  | nil => exact ⟨fun f hf => absurd hf List.not_mem_nil, fun _ _ => rfl, rfl⟩
  | append_singleton l f ih =>
    rw [List.foldl_append, List.foldl_cons, List.foldl_nil]
    generalize l.foldl (fun s f => s.enterKept f) s = u at *
    obtain ⟨hin, hout, hframe⟩ := ih
    have hlost' : f.2.handle.toNat ∉ u.rack.lostHandles := by rw [hframe]; simp [hlost]
    have hself : (u.enterKept f).leaf f.2.handle.toNat = u.keptLeaf f := leaf_setLeaf hlost' _
    have hother (h : Handle) (hh : h ≠ f.2.handle.toNat) : (u.enterKept f).leaf h = u.leaf h := leaf_setLeaf_other u hh _
    have hnext : u.enterKept f = { u with rack := { u.rack with
        leaves := (u.enterKept f).rack.leaves, logged := (u.enterKept f).rack.logged } } := setLeaf_frame u _ _
    generalize u.enterKept f = t at *
    refine ⟨fun g hg => ?_, fun h hh => ?_, by rw [hnext, hframe]⟩
    · by_cases hg' : g.2.handle.toNat = f.2.handle.toNat
      · rw [hg', hself]; exact ⟨rfl, rfl, rfl⟩
      · rw [hother _ hg']
        rcases List.mem_append.1 hg with hg | hg
        · exact hin g hg
        · exact absurd (by rw [List.mem_singleton.1 hg]) hg'
    · rw [hother h fun he => hh f (List.mem_append_right _ (List.mem_singleton_self f)) he.symm]
      exact hout h fun g hg => hh g (List.mem_append_left _ hg)

theorem retain_frame (s : State) (fs : List (Nat × CellarFrame)) : s.retain fs = { s with slots := (s.retain fs).slots } := by
  unfold State.retain
  generalize List.range 64 = l
  induction l generalizing s with
  | nil => rfl
  | cons j l ih =>
    rw [List.foldl_cons, ih]
    split <;> rfl

theorem checkMin_frame (s : State) : s.checkMin = { s with cellar := { s.cellar with belowMin := s.checkMin.cellar.belowMin } } := by
  unfold State.checkMin
  split <;> rfl

theorem remap_checkMin_frame (s : State) (fs : List (Nat × CellarFrame)) : (s.remap fs).checkMin = { s with
    cellar := { s.cellar with belowMin := (s.remap fs).checkMin.cellar.belowMin }, buddy := (s.remap fs).buddy } :=
  checkMin_frame (s.remap fs)

/-- The frames of the cellar, current where they are kept. -/
def State.sifted (s : State) (kept : List (Nat × CellarFrame)) : State :=
  s.modCellar fun c => { c with
    rebuilding := false, ready := true
    frames := c.frames.map fun f => (f.1, { f.2 with current := kept.any fun g => g.1 == f.1 }) }

theorem exec_cellarRebuildDone {s : State} {weights mirrors : List (Nat × CellarFrame)} (h : s.cellar.rebuilding = true)
    (hw : weights = s.keptWeights (newest (·.handle) (s.cellar.frames.filter fun f => f.2.current)))
    (hm : mirrors = keptMirrors (newest (·.handle) (s.cellar.frames.filter fun f => f.2.current))) :
    exec .cellarRebuildDone s = .next (((((weights ++ mirrors).foldl (fun s f => s.enterKept f) (s.sifted (weights ++ mirrors))).retain
      weights).remap mirrors).checkMin) := by
  have hexec : exec .cellarRebuildDone s = execCellarRebuildDone s := rfl
  rw [hexec, execCellarRebuildDone]
  subst hw hm
  rw [if_neg (by simp [h])]
  unfold State.sifted
  dsimp only

theorem cellarRebuildDone_spec {s : State} {kept : List (Nat × CellarFrame)} (h : s.cellar.rebuilding = true)
    (hlost : s.rack.lostHandles = [])
    (hkept : kept = s.keptWeights (newest (·.handle) (s.cellar.frames.filter fun f => f.2.current)) ++
      keptMirrors (newest (·.handle) (s.cellar.frames.filter fun f => f.2.current))) :
    ∃ t, exec .cellarRebuildDone s = .next t ∧ t.cellar.rebuilding = false ∧ t.cellar.ready = true ∧
      t.cellar.frames = s.cellar.frames.map (fun f => (f.1, { f.2 with current := kept.any fun g => g.1 == f.1 })) ∧
      (∀ f ∈ kept, (t.leaf f.2.handle.toNat).inCellar = true ∧ (t.leaf f.2.handle.toNat).ref = 1 ∧
        (t.leaf f.2.handle.toNat).inCask = false) ∧
      (∀ h, (∀ f ∈ kept, f.2.handle.toNat ≠ h) → t.leaf h = s.leaf h) ∧ t.buddy.incoming = [] ∧
      t = { s with cellar := t.cellar, rack := { s.rack with leaves := t.rack.leaves, logged := t.rack.logged }
                   slots := t.slots, buddy := t.buddy } := by
  obtain ⟨weights, hw⟩ : ∃ l, l = s.keptWeights (newest (·.handle) (s.cellar.frames.filter fun f => f.2.current)) := ⟨_, rfl⟩
  obtain ⟨mirrors, hm⟩ : ∃ l, l = keptMirrors (newest (·.handle) (s.cellar.frames.filter fun f => f.2.current)) := ⟨_, rfl⟩
  have hexec := exec_cellarRebuildDone h hw hm
  rw [← hw, ← hm] at hkept
  rw [← hkept] at hexec
  clear hw hm
  obtain ⟨hin, hout, hframe⟩ := foldl_enterKept (s := s.sifted kept) hlost kept
  generalize kept.foldl (fun s f => s.enterKept f) (s.sifted kept) = u at *
  have hretain := retain_frame u weights
  generalize u.retain weights = v at *
  have hmin := remap_checkMin_frame v mirrors
  refine ⟨_, hexec, ?_⟩
  generalize (v.remap mirrors).checkMin = t at *
  have hcellar : t.cellar = { (s.sifted kept).cellar with belowMin := t.cellar.belowMin } := by
    have hv : v.cellar = (s.sifted kept).cellar := by rw [hretain, hframe]
    have ht : t.cellar = { v.cellar with belowMin := t.cellar.belowMin } := congrArg (fun x : State => x.cellar) hmin
    rw [hv] at ht
    exact ht
  have hleaves : t.rack.leaves = u.rack.leaves := by
    have ht : t.rack = v.rack := by rw [hmin]
    rw [ht, hretain]
  have hleaf (k : Handle) : t.leaf k = u.leaf k := by rw [State.leaf, hleaves, ← State.leaf]
  refine ⟨by rw [hcellar]; rfl, by rw [hcellar]; rfl, by rw [hcellar]; rfl, fun f hf => ?_, fun k hk => ?_, ?_, ?_⟩
  · rw [hleaf]; exact hin f hf
  · rw [hleaf]; exact hout k hk
  · rw [hmin]; rfl
  · rw [hmin, hretain, hframe]; rfl

/-! ### Ports -/

theorem exec_retrainingPause_moves {s : State} {p : Nat} {pins : List W32} (hup : (s.memPort p).state = 2) (hruns : s.caskRuns = true)
    (hpins : pins ≠ []) :
    exec (.retrainingPause p pins true true) s = .next (s.modMem p fun k =>
      { k with moved := k.moved || takeWords 36 pins != k.pins, pins := takeWords 36 pins }) := by
  have hexec : exec (.retrainingPause p pins true true) s = execRetrainingPause p pins true true s := rfl
  rw [hexec, execRetrainingPause, hup, hruns]
  have hne : pins.isEmpty = false := by simpa using hpins
  rw [hne]
  rfl

theorem exec_retrainingPause_fails {s : State} {p : Nat} {pins : List W32} {answered pinsOk : Bool} (hup : (s.memPort p).state = 2)
    (hruns : s.caskRuns = true) (hfail : (answered && pinsOk) = false) :
    exec (.retrainingPause p pins answered pinsOk) s = .next (s.takePortOut p (if answered then 1 else 3)) := by
  have hexec : exec (.retrainingPause p pins answered pinsOk) s = execRetrainingPause p pins answered pinsOk s := rfl
  rw [hexec, execRetrainingPause, hup, hruns]
  cases answered with
  | false => rfl
  | true => rw [show pinsOk = false from hfail]; rfl

theorem exec_deviceTemperatureRead {s : State} {p a b : Nat} (h : (s.memPort p).state ≠ 0) :
    exec (.deviceTemperatureRead p a b) s = .next (s.modMem p fun k => { k with
      temp := BitVec.ofNat 8 (min 255 (max a b))
      hot := if 85 < min 255 (max a b) then true else if min 255 (max a b) < 80 then false else k.hot }) := by
  have hexec : exec (.deviceTemperatureRead p a b) s = execDeviceTemperatureRead p a b s := rfl
  rw [hexec, execDeviceTemperatureRead]
  exact congrArg _ (if_neg h)

/-- The bounds of HOT lie below the greatest reading that TEMP holds. -/
theorem hot_saturated (t : Nat) (was : Bool) : (if 85 < min 255 t then true else if min 255 t < 80 then false else was) =
    if 85 < t then true else if t < 80 then false else was := by
  have hhigh : 85 < min 255 t ↔ 85 < t := by omega
  have hlow : min 255 t < 80 ↔ t < 80 := by omega
  simp only [hhigh, hlow]

/-! ### What a new capability table leaves of the leaves -/

/-- The leaves and the cellar. -/
def State.stock (s : State) : Rack × Cellar := (s.rack, s.cellar)

theorem stock_of_portEnds {s t : State} (h : PortEnds s t) : t.stock = s.stock := by
  rw [h.frame]; rfl

theorem sendReply_stock (s : State) (c : Ctxt) (i : Nat) (st : Stream) (code : Code) (final : Bool) (data : List Byte) :
    (s.sendReply c i st code final data).stock = s.stock := by
  refine foldl_keeps State.stock _ (fun u x => ?_) _ _
  split <;> rfl

theorem endReq_stock (s : State) (k : Nat) (code : Code) (data : List Byte) : (s.endReq k code data).stock = s.stock := by
  have hserve (u : State) (r : Req) (st : Stream) : (u.serveAfter k r st).stock = u.stock := by
    unfold State.serveAfter
    dsimp only
    split
    · split <;> rfl
    · rfl
  have hreply (u : State) (r : Req) (st : Stream) : (u.replyEnd r st code data).stock = u.stock := by
    unfold State.replyEnd
    split
    · exact sendReply_stock u _ _ _ _ _ _
    · rfl
  cases h : (s.req k).open_ with
  | false => rw [endReq_closed h]
  | true =>
    rw [endReq_open h, hserve, stock_of_portEnds (answerEnd_portEnds _ _ _ _), hreply]
    rfl

theorem recapAs_stock (s : State) (quiet : Bool) (code : Code) : (s.recapAs quiet code).stock = s.stock := by
  have hrefit (u : State) (j : Nat) : (u.refit j).stock = u.stock := by
    unfold State.refit
    split
    · rfl
    · dsimp only
      split
      · rfl
      · rw [foldl_keeps State.stock _ fun v k => endReq_stock v k cOverflow []]
        rfl
  have hcolophon (u : State) : u.recolophon.stock = u.stock := by rw [recolophon_frame]; rfl
  unfold State.recapAs
  dsimp only
  split
  · rfl
  · rw [hcolophon, foldl_keeps State.stock _ hrefit]
    split <;> rfl

/-! ### The end of a cask restart -/

/-- The map laid out over eight ports or more. -/
theorem layCask_runs {s : State} (h : 8 ≤ s.portsUp.length) : s.layCask = { s with
    power := { s.power with config := s.power.next }, rack := { s.rack with poolSize := poolSizeFor s.portsUp.length } } := by
  unfold State.layCask
  exact if_neg (by omega)

theorem reloadFirmware_frame (s : State) : s.reloadFirmware = { s with
    ident := { s.ident with firmware := s.nor.fwOf s.ident.runSlot }, port := s.reloadFirmware.port, errata := s.reloadFirmware.errata } := by
  unfold State.reloadFirmware
  dsimp only
  split <;> rfl

theorem caskBack_spec {s : State} (h : 8 ≤ s.portsUp.length) :
    s.caskBack.power.config = s.power.next ∧ s.caskBack.rack.poolSize = poolSizeFor s.portsUp.length ∧
      s.caskBack.ident.startId = Config.freeDraw s.draws ∧ s.caskBack.ident.firmware = s.nor.fwOf s.ident.runSlot ∧
      s.caskBack.mem = s.mem := by
  have hload := reloadFirmware_frame { s.draw.2 with ident := { s.draw.2.ident with startId := s.draw.1 } }
  have hback : s.caskBack = ((({ s.draw.2 with ident := { s.draw.2.ident with startId := s.draw.1 } } : State).reloadFirmware.layCask.recap
      cCask).recolophon).endPortService := rfl
  generalize ({ s.draw.2 with ident := { s.draw.2.ident with startId := s.draw.1 } } : State).reloadFirmware = u at *
  have hup : u.portsUp = s.portsUp := by rw [hload]; rfl
  have hmap := layCask_runs (s := u) (by rw [hup]; exact h)
  generalize u.layCask = v at *
  have hoff := recapAs_offCap v false cCask
  have hstock := recapAs_stock v false cCask
  rw [State.recap] at hback
  generalize v.recapAs false cCask = w at *
  have hends : PortEnds w.recolophon w.recolophon.endPortService :=
    PortEnds.foldl _ (fun s t => finish_portEnds s _ _ _ _ _) _ _
  rw [← hback] at hends
  have hframe := hends.frame
  rw [recolophon_frame] at hframe
  have hrack : s.caskBack.rack = v.rack := by
    have hw : w.rack = v.rack := congrArg Prod.fst hstock
    rw [hframe]; exact hw
  have hpower : w.power = v.power := congrArg (fun x => x.power) hoff
  have hmem : w.mem = v.mem := congrArg (fun x => x.mem) hoff
  have hstart : w.ident.startId = v.ident.startId := congrArg (fun x => x.ident.startId) hoff
  have hfirm : w.ident.firmware = v.ident.firmware := congrArg (fun x => x.ident.firmware) hoff
  refine ⟨?_, ?_, ?_, ?_, ?_⟩
  · rw [hframe]; change w.power.config = _; rw [hpower, hmap, hload]; rfl
  · rw [hrack, hmap, hup]
  · rw [hframe]; change w.ident.startId = _; rw [hstart, hmap, hload]; rfl
  · rw [hframe]; change w.ident.firmware = _; rw [hfirm, hmap, hload]; rfl
  · rw [hframe]; change w.mem = _; rw [hmem, hmap, hload]; rfl

theorem exec_caskRestartDone {s : State} {reads : List PortRead} (hconfig : s.power.config = 3)
    (hdone : (s.restorePorts s.portsUp reads).portsDone = true) :
    exec (.caskRestartDone reads) s = .next (s.restorePorts s.portsUp reads).caskBack := by
  have hexec : exec (.caskRestartDone reads) s = execCaskRestartDone reads s := rfl
  rw [hexec, execCaskRestartDone, hconfig]
  exact congrArg _ (if_pos hdone)

theorem mem_portsUp {s : State} {n : Nat} : n ∈ s.portsUp ↔ n < 16 ∧ (s.memPort n).state = 2 := by
  simp [State.portsUp]

/-- Ports restored in turn are so marked. -/
theorem foldl_restored {s : State} {l : List Nat} {reads : List PortRead} (hmem : s.mem.length = 16)
    (hl : ∀ p ∈ l, p < 16 ∧ ∃ r, reads[p]? = some r ∧ s.restores p r = true) :
    ∀ n ∈ l, ((s.restorePorts l reads).memPort n).restored = true := by
  induction l using snoc_induction with
  | nil => exact fun n hn => absurd hn List.not_mem_nil
  | append_singleton l p ih =>
    obtain ⟨hp, r, hr, hrestores⟩ := hl p (List.mem_append_right _ (List.mem_singleton_self p))
    obtain ⟨hlen, -, -, hframe⟩ := foldl_restore hmem fun x hx => hl x (List.mem_append_left _ hx)
    have ih := ih fun x hx => hl x (List.mem_append_left _ hx)
    have hstep : s.restorePorts (l ++ [p]) reads = (s.restorePorts l reads).restorePort p r := by
      rw [State.restorePorts, List.foldl_append, List.foldl_cons, hr]
      rfl
    rw [hstep]
    generalize s.restorePorts l reads = u at *
    have hnor : u.restores p r = true := by rw [hframe]; exact hrestores
    have hself : ((u.restorePort p r).memPort p).restored = true :=
      (congrArg MemPort.restored (memPort_modMem _ (by omega))).trans hnor
    intro n hn
    by_cases hne : n = p
    · rw [hne]; exact hself
    · rw [show (u.restorePort p r).memPort n = u.memPort n from memPort_modMem_other _ hne]
      exact ih n ((List.mem_append.1 hn).resolve_right fun h => hne (List.mem_singleton.1 h))

theorem caskRestartDone_spec {s : State} (hshape : s.shaped = true) {reads : List PortRead} (hconfig : s.power.config = 3)
    (hnone : ∀ n, n < 16 → (s.memPort n).state ≠ 1) (hmany : 8 ≤ s.portsUp.length)
    (hreads : ∀ n ∈ s.portsUp, ∃ r, reads[n]? = some r ∧ s.restores n r = true) :
    ∃ t, exec (.caskRestartDone reads) s = .next t ∧ t.power.config = s.power.next ∧
      t.rack.poolSize = poolSizeFor s.portsUp.length ∧ t.ident.startId = Config.freeDraw s.draws ∧
      t.ident.firmware = s.nor.fwOf s.ident.runSlot ∧
      (∀ n ∈ s.portsUp, (t.memPort n).state = 2 ∧ (t.memPort n).restored = true) := by
  have hall : ∀ p ∈ s.portsUp, p < 16 ∧ ∃ r, reads[p]? = some r ∧ s.restores p r = true :=
    fun p hp => ⟨(mem_portsUp.1 hp).1, hreads p hp⟩
  obtain ⟨hlen, hin, hout, hframe⟩ := foldl_restore (State.shaped_mem hshape) hall
  have hmarked := foldl_restored (State.shaped_mem hshape) hall
  have hexec := exec_caskRestartDone (reads := reads) hconfig
  generalize s.restorePorts s.portsUp reads = u at *
  have hup : u.portsUp = s.portsUp := by
    refine List.filter_congr fun n hn => ?_
    by_cases h : n ∈ s.portsUp
    · rw [hin n h, (mem_portsUp.1 h).2]
    · rw [hout n h]
  obtain ⟨hpower, hpool, hstart, hfirm, hmem⟩ := caskBack_spec (s := u) (by rw [hup]; exact hmany)
  have hdone : u.portsDone = true := (portsDone_iff hlen).2 fun n hn => by
    by_cases h : n ∈ s.portsUp
    · rw [hin n h]; decide
    · rw [hout n h]; exact hnone n hn
  have hport (n : Nat) : u.caskBack.memPort n = u.memPort n := by rw [State.memPort, hmem]; rfl
  refine ⟨_, hexec hdone, by rw [hpower, hframe], by rw [hpool, hup], by rw [hstart, hframe], by rw [hfirm, hframe], fun n hn => ?_⟩
  rw [hport]
  exact ⟨hin n hn, hmarked n hn⟩

end Sys2Proof.Machine

namespace Sys2Proof.Proofs

open Sys2Proof.Machine

/-- Settles O39: the rebuild enters the frames it keeps; a port's retraining, its loss and its temperature change the port, and a
cask restart ends once the ports in service have restored their training. -/
theorem cellarAndPorts : Obligations.CellarAndPorts := by
  unfold Obligations.CellarAndPorts
  refine ⟨fun s kept h hlost hkept => cellarRebuildDone_spec h hlost hkept, fun s p hshape hp => ?_⟩
  have hlen : p < s.mem.length := by rw [State.shaped_mem hshape]; exact hp
  refine ⟨fun pins hup hruns hpins => ?_, fun pins answered pinsOk hup hruns hfail => ?_,
    fun reads hconfig hnone hmany hreads => caskRestartDone_spec hshape hconfig hnone hmany hreads, fun a b hstate => ?_⟩
  · exact ⟨_, exec_retrainingPause_moves hup hruns hpins, memPort_modMem _ hlen, fun n hn => memPort_modMem_other _ hn, rfl⟩
  · obtain ⟨hself, hother, hconfig, hnext, hcmds, hlive, hepochs, hrebuilds, hpending⟩ :=
      takePortOut_spec hup (if answered then 1 else 3) rfl
    have hwas : s.power.config ≠ 3 := by
      intro h
      simp [State.caskRuns, h] at hruns
    exact ⟨_, exec_retrainingPause_fails hup hruns hfail, hself, hconfig, hnext hwas, hcmds, hlive, hepochs, hrebuilds, hpending, hother⟩
  · refine ⟨_, exec_deviceTemperatureRead hstate, (memPort_modMem _ hlen).trans ?_, fun n hn => memPort_modMem_other _ hn, rfl⟩
    rw [hot_saturated]

end Sys2Proof.Proofs
end

section
/-! SUPPORT. What is the same of a row whatever else the state is. -/

namespace Sys2Proof.Machine

/-! ### Parcels that act leave the receive area -/

theorem rx_of_offRack {s t : State} (h : t.offRack = s.offRack) : t.fabric.rx = s.fabric.rx := by
  rw [frame_of_offRack h]

theorem dropPromotion_offRack (s : State) (h : Handle) : (s.dropPromotion h).offRack = s.offRack := by
  unfold State.dropPromotion
  split
  · split
    · simp
    · rfl
  · rfl

theorem dropCellar_offRack (s : State) (h : Handle) : (s.dropCellar h).offRack = s.offRack := by
  unfold State.dropCellar
  dsimp only
  split
  · simp
  · rfl

/-- A weight leaf's copy in its frame of the cask, the promotion, the bad frame and the section-store copy of the leaf given up. -/
def State.copyStored (s : State) (h : Handle) (f : Nat) (b : Bytes) : State :=
  let u := (((s.dropPromotion h).dropCellar h).dropSs h).setFrame f { b with form := .plain, poison := [] }
  u.modLeaf h fun e => { e with inCask := true, caskFrame := f, poisoned := false, dirty := !(u.cellar.belowMin && e.remote) }

theorem copyStored_offRack (s : State) (h : Handle) (f : Nat) (b : Bytes) : (s.copyStored h f b).offRack = s.offRack := by
  unfold State.copyStored
  dsimp only
  rw [State_modLeaf_offRack, State_setFrame_offRack, State_dropSs_offRack, dropCellar_offRack, dropPromotion_offRack]

/-- A copied leaf no longer asked for, and the commands that wait for it. -/
def State.copyEnded (s : State) (h : Handle) : State :=
  let u := (s.endFetch h).arrived h
  if u.rack.leaves.any fun l => l.2.poisoned && l.2.format == 0 && u.expertOf l.1 == u.expertOf h then u
  else u.setUnavailable (u.expertOf h) false

theorem copyEnded_rx (s : State) (h : Handle) : (s.copyEnded h).fabric.rx = s.fabric.rx := by
  have hunavailable (u : State) (x : Nat) (v : Bool) : (u.setUnavailable x v).fabric.rx = u.fabric.rx := by
    unfold State.setUnavailable
    split <;> rfl
  unfold State.copyEnded
  dsimp only
  split
  · rfl
  · exact hunavailable _ _ _

theorem weightCopy_some {s u : State} {h : Handle} {f : Nat}
    (hf : (if (s.leaf h).inCask = true then some ((s.leaf h).caskFrame, s) else s.demandFrame (s.leaf h).partition) = some (f, u)) (b : Bytes) :
    s.weightCopy h b = (u.copyStored h f b).copyEnded h := by
  unfold State.weightCopy
  dsimp only
  rw [hf]
  rfl

theorem weightCopy_none {s : State} {h : Handle}
    (hf : (if (s.leaf h).inCask = true then some ((s.leaf h).caskFrame, s) else s.demandFrame (s.leaf h).partition) = none) (b : Bytes) :
    s.weightCopy h b = s.startEviction (s.leaf h).partition .none_ := by
  unfold State.weightCopy
  dsimp only
  rw [hf]

/-- Where a copy finds its frame, only the leaves have changed. -/
theorem copyFrame_offRack {s u : State} {h : Handle} {f : Nat}
    (hf : (if (s.leaf h).inCask = true then some ((s.leaf h).caskFrame, s) else s.demandFrame (s.leaf h).partition) = some (f, u)) :
    u.offRack = s.offRack := by
  split at hf
  · obtain ⟨-, rfl⟩ := Prod.mk.inj (Option.some.inj hf); rfl
  · exact State_demandFrame_offRack _ _ _ hf

theorem weightCopy_rx (s : State) (h : Handle) (b : Bytes) : (s.weightCopy h b).fabric.rx = s.fabric.rx := by
  cases hf : (if (s.leaf h).inCask = true then some ((s.leaf h).caskFrame, s) else s.demandFrame (s.leaf h).partition) with
  | none => rw [weightCopy_none hf, rx_of_offRack (State_startEviction_offRack _ _ _)]
  | some r =>
    obtain ⟨f, u⟩ := r
    rw [weightCopy_some hf, copyEnded_rx, rx_of_offRack (copyStored_offRack _ _ _ _), rx_of_offRack (copyFrame_offRack hf)]

theorem askLeaf_rx {s : State} (h : Handle) {a : BitVec 20} (ha : a ≠ s.addr) : (s.askLeaf h [a]).fabric.rx = s.fabric.rx := by
  unfold State.askLeaf
  split
  · rfl
  · exact emitParcel_rx (p := mkParcel a 7 _) ha

theorem askOrigin_rx (s : State) (q : Query) : (s.askOrigin q).fabric.rx = s.fabric.rx := by
  unfold State.askOrigin
  split
  · rfl
  · dsimp only
    split
    · split
      · rfl
      next hask => exact askLeaf_rx _ fun he => hask (Or.inl he)
    · rfl

theorem forward_addr (n : Nat) (s : State) (p : Parcel) (came : Option Nat) : (State.forward n s p came).addr = s.addr := by
  have h := congrArg (fun t : State => t.addr) (forward_offTransit n s p came)
  exact h

theorem resend_kept {s : State} {dest : BitVec 20} (h : dest ≠ s.addr) (a : BitVec 8) :
    (s.resend dest a).fabric.rx = s.fabric.rx ∧ (s.resend dest a).addr = s.addr := by
  unfold State.resend
  split
  next p hp =>
    have hdest : p.dest = dest := by
      have := List.find?_some hp
      simp only [Bool.and_eq_true, beq_iff_eq] at this
      exact this.1
    exact ⟨forward_rx none (hdest ▸ h), forward_addr _ _ _ _⟩
  · exact ⟨rfl, rfl⟩

theorem foldl_resend_rx {s : State} {dest : BitVec 20} (h : dest ≠ s.addr) (first : BitVec 8) (l : List Nat) :
    (l.foldl (fun s i => s.resend dest (first + BitVec.ofNat 8 i)) s).fabric.rx = s.fabric.rx := by
  induction l generalizing s with
  | nil => rfl
  | cons i l ih =>
    obtain ⟨hrx, haddr⟩ := resend_kept h (first + BitVec.ofNat 8 i)
    rw [List.foldl_cons, ih (haddr ▸ h), hrx]

theorem sendData_kept {dest : BitVec 20} (id n : Nat) {s : State} (off : Nat) (d : List Byte) (h : dest ≠ s.addr) :
    (State.sendData dest id n off d s).fabric.rx = s.fabric.rx ∧ (State.sendData dest id n off d s).addr = s.addr := by
  induction n generalizing s off d with
  | zero => exact ⟨rfl, rfl⟩
  | succ n ih =>
    rw [State.sendData]
    split
    · exact ⟨rfl, rfl⟩
    · obtain ⟨hrx, haddr⟩ := ih (s := s.emitParcel (queryData dest id off (d.take 8192))) (off + 8192) (d.drop 8192)
        (by rw [emitParcel_addr]; exact h)
      exact ⟨hrx.trans (emitParcel_rx (p := queryData dest id off _) h), haddr.trans (emitParcel_addr _ _)⟩

theorem answerQuery_rx {s : State} {dest : BitVec 20} (kind id status : Nat) (h : dest ≠ s.addr) :
    (s.answerQuery dest kind id status).fabric.rx = s.fabric.rx := emitParcel_rx (p := mkParcel dest 8 _) h

theorem answerQuery_addr (s : State) (dest : BitVec 20) (kind id status : Nat) : (s.answerQuery dest kind id status).addr = s.addr :=
  emitParcel_addr _ _

/-- A query's answer, of whatever kind, enters nothing in the receive area. -/
theorem queryAnswer_rx {s : State} {dest : BitVec 20} (id n off : Nat) (d : List Byte) (kind status : Nat) (h : dest ≠ s.addr) :
    (State.sendData dest id n off d (s.answerQuery dest kind id status)).fabric.rx = s.fabric.rx :=
  (sendData_kept id n off d (by rw [answerQuery_addr]; exact h)).1.trans (answerQuery_rx _ _ _ h)

/-- A parcel of the receive area that acts without entering another one is there no longer. -/
theorem gone_of_rx {s t : State} {rq : Nat} (h : t.fabric.rx = (s.dropRx rq).fabric.rx) : t.rx? rq = none :=
  (rx?_congr h rq).trans (rx?_dropRx s rq)

theorem exec_queryReceive_gone {s : State} {rq : Nat} {x : Rx} (h : s.holdsParcel rq x) (htype : x.parcel.ptype = 7)
    (hsrc : x.parcel.src ≠ s.addr) : ∃ t, exec (.queryReceive rq) s = .next t ∧ t.rx? rq = none := by
  have hexec : exec (.queryReceive rq) s = execQueryReceive rq s := rfl
  have haddr : x.parcel.src ≠ (s.dropRx rq).addr := hsrc
  rw [hexec, execQueryReceive, onParcel_holds h htype]
  refine ⟨_, rfl, gone_of_rx (s := s) ?_⟩
  generalize s.dropRx rq = u at *
  dsimp only
  split
  · exact queryAnswer_rx _ _ _ _ _ _ haddr
  · split
    next hl _ =>
      obtain ⟨hrx, hkept⟩ := sendData_kept (dest := x.parcel.src) (wd (bytesWords 8 x.parcel.payload) 1).toNat 8 0 ((u.content hl).read 0 65536)
        (s := u.answerQuery x.parcel.src 2 (wd (bytesWords 8 x.parcel.payload) 1).toNat 0) (by rw [answerQuery_addr]; exact haddr)
      refine (emitParcel_rx (p := queryData x.parcel.src _ 65536 _) ?_).trans (hrx.trans (answerQuery_rx _ _ _ haddr))
      rw [hkept, answerQuery_addr]
      exact haddr
    · exact answerQuery_rx _ _ _ haddr
  · split
    · exact queryAnswer_rx _ _ _ _ _ _ haddr
    · exact answerQuery_rx _ _ _ haddr
  · exact answerQuery_rx _ _ _ haddr

theorem exec_queryReplyReceive_gone {s : State} {rq : Nat} {x : Rx} (h : s.holdsParcel rq x) (htype : x.parcel.ptype = 8) :
    ∃ t, exec (.queryReplyReceive rq) s = .next t ∧ t.rx? rq = none := by
  have hexec : exec (.queryReplyReceive rq) s = execQueryReplyReceive rq s := rfl
  rw [hexec, execQueryReplyReceive, onParcel_holds h htype]
  refine ⟨_, rfl, gone_of_rx (s := s) ?_⟩
  dsimp only
  split
  · split
    · exact askOrigin_rx _ _
    · rfl
  · rfl

theorem exec_queryDataReceive_gone {s : State} {rq : Nat} {x : Rx} (h : s.holdsParcel rq x) (htype : x.parcel.ptype = 9) :
    ∃ t, exec (.queryDataReceive rq) s = .next t ∧ t.rx? rq = none := by
  have hexec : exec (.queryDataReceive rq) s = execQueryDataReceive rq s := rfl
  rw [hexec, execQueryDataReceive, onParcel_holds h htype]
  refine ⟨_, rfl, gone_of_rx (s := s) ?_⟩
  dsimp only
  split
  · rfl
  · split
    · exact weightCopy_rx _ _ _
    · rfl

/-- A parcel of one of the four types acts and is there no longer. -/
theorem parcelActs {s : State} {rq : Nat} {x : Rx} (h : s.holdsParcel rq x) (hsrc : x.parcel.src ≠ s.addr) :
    ∀ e ∈ [(5, Instr.resendRequestReceive rq), (7, .queryReceive rq), (8, .queryReplyReceive rq), (9, .queryDataReceive rq)],
      x.parcel.ptype.toNat = e.1 → ∃ t, exec e.2 s = .next t ∧ t.rx? rq = none := by
  intro e he htype
  simp only [List.mem_cons, List.not_mem_nil, or_false] at he
  have hptype (n : BitVec 4) (hn : x.parcel.ptype.toNat = n.toNat) : x.parcel.ptype = n := BitVec.eq_of_toNat_eq hn
  rcases he with rfl | rfl | rfl | rfl
  · exact ⟨_, exec_resendRequestReceive h (hptype 5 htype), gone_of_rx (foldl_resend_rx (s := s.dropRx rq) hsrc _ _)⟩
  · exact exec_queryReceive_gone h (hptype 7 htype) hsrc
  · exact exec_queryReplyReceive_gone h (hptype 8 htype)
  · exact exec_queryDataReceive_gone h (hptype 9 htype)

/-! ### Credit, expiry and services -/

/-- What credit lets go leaves in order on each channel, and what it takes is what was there. -/
theorem linkCreditGrant_spec {s : State} {p : Nat} (units : Nat) (hnative : s.isNative p = true) (hstate : (s.fport p).state ≠ 0) :
    ∃ (t : State) (sent : List Waiting), exec (.linkCreditGrant p units) s = .next t ∧
      (∀ b, ((s.fport p).txQueue.filter fun w => w.parcel.second == b) =
        (sent.filter fun w => w.parcel.second == b) ++ (t.fport p).txQueue.filter fun w => w.parcel.second == b) ∧
      t.out = s.out ++ (sent.flatMap fun w => .parcel p w.parcel (parcelCrc w.parcel) :: s.grants w.came w.parcel) ∧
      (t.fport p).credits + (sent.map fun w => creditUnits w.parcel).sum = (s.fport p).credits + units := by
  have hp := fport_exists s p (Or.inr hstate)
  have hexec := exec_linkCreditGrant units hnative hstate
  have hgranted := granted_fport units hp
  have hgrants (w : Waiting) : (s.modFPort p fun k => { k with credits := k.credits + units }).grants w.came w.parcel =
      s.grants w.came w.parcel := grants_modFPort (by intro _; rfl) _ _
  have hlen : p < (s.modFPort p fun k => { k with credits := k.credits + units }).fabric.ports.length :=
    lt_of_lt_of_eq hp (modAt_length _ _ _).symm
  have hout : (s.modFPort p fun k => { k with credits := k.credits + units }).out = s.out := rfl
  generalize (s.modFPort p fun k => { k with credits := k.credits + units }) = u at *
  have hdrained := fport_modFPort u p (fun k => { k with
    txQueue := (passQueue (u.fport p).credits [] (u.fport p).txQueue).2
    credits := k.credits - ((passQueue (u.fport p).credits [] (u.fport p).txQueue).1.map fun w => creditUnits w.parcel).sum }) hlen
  have hchannels := (passQueue_channels (u.fport p).txQueue (u.fport p).credits [])
  have hcredit := passQueue_credit (u.fport p).txQueue (u.fport p).credits []
  have hqueue : (s.fport p).txQueue = (u.fport p).txQueue := by rw [hgranted]
  have hwas : (u.fport p).credits = (s.fport p).credits + units := by rw [hgranted]
  rw [drainTx_eq] at hexec
  generalize passQueue (u.fport p).credits [] (u.fport p).txQueue = r at *
  refine ⟨_, r.1, hexec, fun b => ?_, ?_, ?_⟩
  · rw [hqueue]
    exact (hchannels b).1.trans (congrArg (fun l : List Waiting => _ ++ l.filter _) (congrArg FPort.txQueue hdrained).symm)
  · change u.out ++ u.sentBy p _ = _
    rw [hout, State.sentBy]
    simp only [hgrants]
  · refine (congrArg (· + _) (congrArg FPort.credits hdrained)).trans ?_
    dsimp only
    omega

theorem parcelExpiry_gone {s : State} {rq : Nat} {x : Rx} (hrx : s.rx? rq = some x) (hfree : x.takenBy = none) :
    ∃ t, exec (.parcelExpiry rq) s = .next t ∧ t.rx? rq = none := by
  refine ⟨_, exec_parcelExpiry hrx hfree, ?_⟩
  split
  · exact rx?_dropRx _ _
  · exact rx?_dropRx _ _

theorem errataRun_length (s : State) (n seq : Nat) : (s.errataRun n seq).length ≤ n := by
  induction n generalizing seq with
  | zero => exact Nat.le_refl 0
  | succ n ih =>
    rw [State.errataRun]
    split
    · exact Nat.succ_le_succ (ih _)
    · exact Nat.zero_le _

/-- The report begins with the nonce. -/
theorem report_nonce (s : State) (a b : W32) (rest : List Byte) :
    (s.report [a, b] ++ rest).take 8 = leBytes 4 a.toNat ++ leBytes 4 b.toNat := by
  have hnonce : wordsBytes ([a, b].take 2) = leBytes 4 a.toNat ++ leBytes 4 b.toNat := by simp [wordsBytes]
  have hlen : (leBytes 4 a.toNat ++ leBytes 4 b.toNat).length = 8 := by simp [leBytes_length]
  unfold State.report
  simp only [hnonce, List.append_assoc]
  rw [← List.append_assoc (leBytes 4 a.toNat), List.take_append_of_le_length (by omega), List.take_of_length_le (by omega)]

theorem readSpares_answered {s : State} {q tag : Nat} {c : Started} (h : s.commandAt q tag 0x64 c) :
    ∃ t bs, exec (.readSpares q tag) s = .next t ∧ Answered s t q tag (s.queue q) [.host c.bufAddr bs] cDone 0 0 ∧ bs.length = 128 := by
  have h' : (s.recordBy 0x0D c.role q 0 0x64 0).commandAt q tag 0x64 c := h
  obtain ⟨⟨hgone, hsent, hpair, hpairs⟩, -⟩ := toBuffer_finish_answered h' (wordsBytes s.spareReport) cDone 0 0
  exact ⟨_, _, exec_readSpares h, ⟨hgone, hsent, hpair, hpairs⟩, by simp [wordsBytes_length, State.spareReport]⟩

/-- CORE_SERVICE excludes the core it names, whether that was out before or not. -/
theorem coreService_excludes {s : State} {q tag : Nat} {c : Started} (hshape : s.shaped = true) (h : s.commandAt q tag 0x60 c)
    (hheld : s.heldIn (bits (c.arg 1) 1 0) = false) (hmost : bits (c.arg 1) 6 2 ≤ 16) :
    ∃ t, exec (.coreService q tag) s = .next t ∧ t.started? q tag = none ∧
      (t.sect (bits (c.arg 1) 1 0)).excluded = (s.sect (bits (c.arg 1) 1 0)).excluded ||| coreBit (bits (c.arg 1) 6 2) := by
  have hlen : bits (c.arg 1) 1 0 < s.sects.length := by rw [State.shaped_sects hshape]; exact bits_lt _ 1 0
  have hexec := exec_coreService h hheld
  have hsects : (s.recordBy 0x0D c.role q 0 0x60 (c.arg 1)).sects = s.sects := rfl
  generalize s.recordBy 0x0D c.role q 0 0x60 (c.arg 1) = u at *
  dsimp only at hexec
  rw [if_neg (by omega)] at hexec
  obtain ⟨hown, -⟩ := sect_modAt (s := u) (t := u.modSect (bits (c.arg 1) 1 0) fun k =>
    { k with excluded := k.excluded ||| coreBit (bits (c.arg 1) 6 2) }) rfl (hsects ▸ hlen)
  have hvlen : bits (c.arg 1) 1 0 < (u.modSect (bits (c.arg 1) 1 0) fun k =>
      { k with excluded := k.excluded ||| coreBit (bits (c.arg 1) 6 2) }).sects.length := by
    refine lt_of_lt_of_eq hlen (Eq.trans ?_ (modAt_length _ _ _).symm)
    rw [hsects]
  generalize (u.modSect (bits (c.arg 1) 1 0) fun k => { k with excluded := k.excluded ||| coreBit (bits (c.arg 1) 6 2) }) = v at *
  have hfails : SectKept v (if u.coreOut (bits (c.arg 1) 1 0) (bits (c.arg 1) 6 2) = true then v
      else v.coreFails (bits (c.arg 1) 1 0) (bits (c.arg 1) 6 2)) (bits (c.arg 1) 1 0) := by
    split
    · exact .of_sects rfl fun h => h
    · exact coreFails_kept hvlen _
  generalize (if u.coreOut (bits (c.arg 1) 1 0) (bits (c.arg 1) 6 2) = true then v
      else v.coreFails (bits (c.arg 1) 1 0) (bits (c.arg 1) 6 2)) = w at *
  refine ⟨_, hexec, finish_gone _ _ _ _ _ _, ?_⟩
  rw [(finish_sects w q tag cDone (w.coresWord (bits (c.arg 1) 1 0)) 0 (bits (c.arg 1) 1 0)).excluded, hfails.excluded, hown,
    sect_of_sects hsects]

/-- PORT_SERVICE takes a port in service out, except while a cask restart runs, when it completes. -/
theorem portService_outcome {s : State} {q tag : Nat} {c : Started} (h : s.commandAt q tag 0x63 c) :
    ∃ t, exec (.portService q tag) s = .next t ∧
      ((t.memPort (bits (c.arg 1) 3 0)).state ≠ 2 ∨ (s.power.config = 3 ∧ t.started? q tag = none)) := by
  have hexec := exec_portService h rfl
  dsimp only at hexec
  by_cases hup : (s.memPort (bits (c.arg 1) 3 0)).state = 2 ∧ s.power.config ≠ 3
  · rw [if_pos (by simp [hup.1, hup.2])] at hexec
    have hmem : (((s.recordBy 0x0D c.role q 0 0x63 (c.arg 1)).modStarted q tag fun t => { t with begun := true }).memPort
        (bits (c.arg 1) 3 0)).state = 2 := hup.1
    obtain ⟨hout, -⟩ := takePortOut_spec hmem 0 rfl
    refine ⟨_, hexec, Or.inl ?_⟩
    intro htwo
    have hthree : (3 : Nat) = 2 := (congrArg MemPort.state hout).symm.trans htwo
    exact absurd hthree (by decide)
  · rw [if_neg (by simpa using hup)] at hexec
    refine ⟨_, hexec, ?_⟩
    by_cases hconfig : s.power.config = 3
    · exact Or.inr ⟨hconfig, finish_gone _ _ _ _ _ _⟩
    · refine Or.inl fun hstate => hup ⟨?_, hconfig⟩
      rw [State.memPort, (finish_portEnds _ _ _ _ _ _).frame] at hstate
      exact hstate

end Sys2Proof.Machine

namespace Sys2Proof.Proofs

open Sys2Proof.Machine

/-- Settles O59: each row does its one thing whatever else the state is. -/
theorem rowsComplete : Obligations.RowsComplete := by
  intro s hshape
  refine ⟨fun q tag c hq => ?_, fun q hq => ?_, ⟨_, rfl, rfl⟩, fun p x crc h => ?_,
    fun p units hnative hstate => linkCreditGrant_spec units hnative hstate, fun a hlisted hself => ?_,
    fun rq x hrx hfree => parcelExpiry_gone hrx hfree, fun rq x h hsrc => parcelActs h hsrc⟩
  · have hlen : q < s.port.queues.length := by rw [State.shaped_queues hshape]; exact hq
    refine ⟨fun h => ?_, fun h => ?_, fun h => ?_, fun h => ?_, fun h => ?_, fun h => readSpares_answered h,
      fun h hheld hmost => coreService_excludes hshape h hheld hmost, fun failed h hheld => ?_, fun net h hmost => ?_,
      fun h => portService_outcome h⟩
    · obtain ⟨t, hexec, ⟨hgone, -, hpair, -⟩, -⟩ := closeSession_answered h
      exact ⟨t, hexec, hgone, by rw [hpair]; rfl⟩
    · have hn : w32 (c.arg 3).toNat = c.arg 3 := w32_toNat _
      have hans := (toBuffer_finish_answered h ((List.range (c.arg 3).toNat).flatMap fun i =>
        wordsBytes (s.tableEntry (bits (c.arg 1) 3 0) ((c.arg 2).toNat + i))) cDone (w32 (c.arg 3).toNat) 0).1
      have hexec := exec_readTable h
      rw [hn] at hans hexec
      exact ⟨_, _, hexec, hans⟩
    · exact ⟨_, _, exec_readTelemetry h, (toBuffer_finish_answered h _ _ _ _).1, by simp [wordsBytes_length]⟩
    · exact ⟨_, _, _, exec_readErrata h, (toBuffer_finish_answered h _ _ _ _).1, errataRun_length _ _ _⟩
    · exact ⟨_, _, exec_attest h, (toBuffer_finish_answered h _ _ _ _).1, report_nonce _ _ _ _⟩
    · obtain ⟨t, hexec, hgone, hexcluded, -⟩ := selfTest_spec hshape rfl failed h hheld
      exact ⟨t, hexec, hgone, hexcluded⟩
    · obtain ⟨t, hexec, hgone, hexcluded, -⟩ := laneService_spec hshape h rfl rfl hmost net
      exact ⟨t, hexec, hgone, hexcluded⟩
  · have hlen : q < s.port.queues.length := by rw [State.shaped_queues hshape]; exact hq
    refine ⟨fun hrole => ⟨_, exec_makerSessionExpiry hrole, ?_⟩, _, rfl, ?_⟩
    · rw [endSession_queue hlen]
    · exact congrArg Queue.challenge (queue_modQueue_same _ hlen)
  · obtain ⟨t, hexec, hchecked, -⟩ := arrivals s p x crc h
    exact ⟨t, hexec, hchecked⟩
  · obtain ⟨t, hexec, hemitted, -⟩ := unreachableQuery_spec hlisted hself
    exact ⟨t, hexec, hemitted.alive⟩

end Sys2Proof.Proofs
end

section
/-! SUPPORT. Cold and warm starts (R442, R451 to R453, R472, R510). -/

namespace Sys2Proof.Machine

/-! ### What the middle of a start leaves alone -/

/-- The state without what a start clears or computes between the choice of a slot and the training of the memory ports. -/
def State.offStart (s : State) : State :=
  { s with
    draws := 0, errata := State.reset.errata, port := { s.port with attnPending := 0, attnCount := [], attnLast := [] }
    sects := [], cores := [], cap := [], coreMem := Bytes.blank, coreLines := [], caskRaw := Bytes.blank, rack := Rack.reset
    cellar := State.reset.cellar, reqs := [], logs := [], fabric := Fabric.reset, channels := [], malt := State.reset.malt
    buddy := Buddy.reset, board := State.reset.board }

theorem frame_of_offStart {s t : State} (h : t.offStart = s.offStart) :
    t.out = s.out ∧ t.nor = s.nor ∧ t.ident = s.ident ∧ t.mem = s.mem ∧ t.streams = s.streams ∧ t.slots = s.slots ∧ t.cmds = s.cmds ∧
      t.power = s.power ∧ t.time = s.time ∧ t.port.queues = s.port.queues ∧ t.port.started = s.port.started ∧
      t.port.simmerOff = s.port.simmerOff := by
  have hv {β : Type} (v : State → β) : v t.offStart = v s.offStart := congrArg v h
  exact ⟨hv (fun x => x.out), hv (fun x => x.nor), hv (fun x => x.ident), hv (fun x => x.mem), hv (fun x => x.streams),
    hv (fun x => x.slots), hv (fun x => x.cmds), hv (fun x => x.power), hv (fun x => x.time), hv (fun x => x.port.queues),
    hv (fun x => x.port.started), hv (fun x => x.port.simmerOff)⟩

theorem attention_offStart (s : State) (c : Nat) (code : Code) (a b : W32) : (s.attention c code a b).offStart = s.offStart := rfl

theorem logBoard_offStart (s : State) : s.logBoard.offStart = s.offStart := by
  have hlog (u : State) (b : Board) : ({ u with board := b } : State).offStart = u.offStart := rfl
  unfold State.logBoard
  dsimp only
  rw [hlog]
  have hkeep (l : List Nat) (u : State) :
      (l.foldl (fun (s : State) n => s.log 0 (w32 (n % 65536)) (w32 (n / 65536))) u).offStart = u.offStart := by
    refine foldl_keeps State.offStart _ (fun u n => ?_) _ _
    rfl
  split
  · rw [attention_offStart, hkeep]
  · exact hkeep _ _

theorem clearStart_offStart (s : State) : s.clearStart.offStart = ({ s with slots := s.slots.map fun _ => Slot.empty } : State).offStart := by
  have hslots : s.clearCask.slots.map (fun _ => Slot.empty) = s.slots.map fun _ => Slot.empty := List.map_map
  calc s.clearStart.offStart = ({ s with slots := s.clearCask.slots.map fun _ => Slot.empty } : State).offStart := rfl
    _ = _ := by rw [hslots]

theorem initPorts_offStart (s : State) : s.initPorts.offStart = s.offStart := rfl

theorem loadTables_offStart (s : State) (core : Nat) : (s.loadTables core).offStart = s.offStart := by
  have h := loadTables_offTables s core
  calc (s.loadTables core).offStart = (s.loadTables core).offTables.offStart := rfl
    _ = _ := by rw [h]; rfl

theorem mapAll_offStart (s : State) : s.mapAll.offStart = s.offStart := by
  refine foldl_keeps State.offStart _ (fun u sec => ?_) _ _
  exact foldl_keeps State.offStart _ (fun v l => loadTables_offStart v _) _ _

/-- Cores at a start leave alone all but the core record, which a cold start's self-test makes. -/
theorem startCores_offStart (s : State) (cold : Bool) (test : List (BitVec 17)) : (s.startCores cold test).offStart =
    (if cold then { s with nor := { s.nor with coreRecord := (List.range 4).map fun i => test.getD i 0 } } else s).offStart := by
  unfold State.startCores
  dsimp only
  rw [foldl_keeps State.offStart _ fun u x => attention_offStart u _ _ _ _, mapAll_offStart]
  split <;> rfl

/-! ### The slot chosen -/

/-- The first slot of the order that is acceptable runs. -/
theorem selectSlot_first {s : State} {k : Nat} {rest : List Nat} (horder : s.nor.order = k :: rest)
    (hgood : (judge s.nor false (s.nor.fwOf k) (s.nor.imOf k)).1 = cDone) :
    s.selectSlot = { s with ident := { s.ident with runSlot := k, imprint := s.nor.imOf k, firmware := s.nor.fwOf k }
                            power := { s.power with next := 1 } } := by
  unfold State.selectSlot
  dsimp only
  rw [horder, List.takeWhile_cons_of_neg (by rw [hgood]; decide), List.find?_cons_of_pos (by rw [hgood]; rfl), List.foldl_nil]

/-- The registers that a start returns to their reset values before it chooses a slot; the identity has been derived where it is. -/
def State.wiped (s : State) (derive : Bool) : State :=
  ({ s with
    time := { TimeBase.reset with counting := true }
    ident := { s.ident with
      identityOk := if derive then true else s.ident.identityOk, imprint := none, firmware := none, window := none,
      colophon := 0, debugStop := false }
    power := { s.power with
      state := .starting, config := 0, next := 0, entry := none, wakeAt := 0, training := true, queuedWake := false
      sbStandby := false, cold := false, energy := 0, telemetry := [] }
    port := { s.port with simmerOff := 0 } } : State).quench fun _ => true

/-- The start up to its record, where slot k runs. -/
def State.chosen (s : State) (derive : Bool) (k : Nat) : State :=
  let u := s.wiped derive
  let v : State := { u with
    draws := u.draws + 1, out := u.out ++ [.console (.slot k)]
    ident := { u.ident with
      runSlot := k, imprint := u.nor.imOf k, firmware := u.nor.fwOf k, startId := Config.freeDraw u.draws }
    power := { u.power with next := 1 } }
  v.record 0x01 0 (w32 k) ((v.ident.imprint.map imprintVersion).getD 0)

/-- The start up to the training of the memory ports. -/
def State.readied (s : State) (cold derive : Bool) (start : StartIn) (k : Nat) : State :=
  (((s.chosen derive k).logBoard.clearStart.initPorts).startCores cold start.selfTest).startPorts cold start.ports

/-- A start from the choice of its slot on, its identity derived or kept. -/
def State.startTail (s : State) (cold : Bool) (start : StartIn) : State :=
  let d := s.draw
  let s : State := { d.2 with ident := { d.2.ident with startId := d.1 } }
  let s := s.emit (.console (.slot s.ident.runSlot))
  let s := s.record 0x01 0 (w32 s.ident.runSlot) ((s.ident.imprint.map imprintVersion).getD 0)
  let s := s.logBoard.clearStart.initPorts
  if s.power.next = 4 then (s.attention 7 0 0 0).makerService
  else
    let s := (s.startCores cold start.selfTest).startPorts cold start.ports
    if s.portsDone then s.endStart else s

theorem startFrom_tail {s : State} {cold derive : Bool} {start : StartIn} (hbad : (derive && decide (4 ≤ start.pufFails)) = false) :
    s.startFrom cold derive start = (s.wiped derive).selectSlot.startTail cold start := by
  unfold State.startFrom
  rw [hbad]
  rfl

theorem startFrom_eq {s : State} {cold derive : Bool} {start : StartIn} {k : Nat} {rest : List Nat}
    (horder : s.nor.order = k :: rest) (hgood : (judge s.nor false (s.nor.fwOf k) (s.nor.imOf k)).1 = cDone)
    (hderive : derive = true → start.pufFails < 4) :
    s.startFrom cold derive start =
      if (s.readied cold derive start k).portsDone then (s.readied cold derive start k).endStart else s.readied cold derive start k := by
  have hbad : (derive && decide (4 ≤ start.pufFails)) = false := by
    cases derive with
    | false => rfl
    | true => simpa using hderive rfl
  have hnext : ((s.chosen derive k).logBoard.clearStart.initPorts).power.next ≠ 4 := by
    have hoff := (initPorts_offStart _).trans (clearStart_offStart (s.chosen derive k).logBoard)
    obtain ⟨-, -, -, -, -, -, -, hboard, -⟩ := frame_of_offStart (logBoard_offStart (s.chosen derive k))
    obtain ⟨-, -, -, -, -, -, -, hpower, -⟩ := frame_of_offStart hoff
    have hone : ((s.chosen derive k).logBoard.clearStart.initPorts).power.next = 1 := (congrArg Power.next hpower).trans (congrArg Power.next hboard)
    rw [hone]
    decide
  rw [startFrom_tail hbad, selectSlot_first (s := s.wiped derive) (k := k) (rest := rest) horder hgood]
  exact if_neg hnext

theorem restorePorts_frame (s : State) (ps : List Nat) (reads : List PortRead) :
    s.restorePorts ps reads = { s with mem := (s.restorePorts ps reads).mem } := by
  unfold State.restorePorts
  induction ps generalizing s with
  | nil => rfl
  | cons p ps ih =>
    rw [List.foldl_cons, ih]
    split <;> rfl

theorem startPorts_frame (s : State) (cold : Bool) (reads : List PortRead) :
    s.startPorts cold reads = { s with mem := (s.startPorts cold reads).mem } := by
  unfold State.startPorts
  dsimp only
  split
  · rfl
  · rw [restorePorts_frame]

/-- The start up to its record, the tables and ports as it begins them. -/
theorem slotBegun_spec (s : State) (derive : Bool) (k : Nat) {v : State} (hv : v = (s.chosen derive k).logBoard.clearStart.initPorts) :
    v.out = s.out ++ [.console (.slot k)] ∧ v.nor = s.nor ∧ v.ident = (s.chosen derive k).ident ∧ v.mem = s.mem ∧
      v.streams = s.streams ∧ (∀ x ∈ v.slots, x = Slot.empty) ∧ v.cmds = s.cmds ∧ v.power = (s.chosen derive k).power ∧
      v.time = { TimeBase.reset with counting := true } ∧ v.port.queues = s.port.queues ∧ v.port.started = s.port.started ∧
      v.port.simmerOff = 0 := by
  have hlogged := frame_of_offStart (logBoard_offStart (s.chosen derive k))
  have hcleared := frame_of_offStart ((initPorts_offStart _).trans (clearStart_offStart (s.chosen derive k).logBoard))
  rw [← hv] at hcleared
  generalize (s.chosen derive k).logBoard = u at *
  obtain ⟨hout, hnor, hident, hmem, hstreams, -, hcmds, hpower, htime, hqueues, hstarted, hsimmer⟩ := hlogged
  obtain ⟨gout, gnor, gident, gmem, gstreams, gslots, gcmds, gpower, gtime, gqueues, gstarted, gsimmer⟩ := hcleared
  refine ⟨gout.trans hout, gnor.trans hnor, gident.trans hident, gmem.trans hmem, gstreams.trans hstreams, fun x hx => ?_,
    gcmds.trans hcmds, gpower.trans hpower, gtime.trans htime, gqueues.trans hqueues, gstarted.trans hstarted, gsimmer.trans hsimmer⟩
  rw [gslots] at hx
  obtain ⟨y, -, rfl⟩ := List.mem_map.1 hx
  rfl

/-- What the start has made by the time the memory ports train. -/
theorem readied_spec (s : State) (cold derive : Bool) (start : StartIn) (k : Nat) {t : State} (ht : t = s.readied cold derive start k) :
    t.out = s.out ++ [.console (.slot k)] ∧
      t.nor = (if cold then { s.nor with coreRecord := (List.range 4).map fun i => start.selfTest.getD i 0 } else s.nor) ∧
      t.ident = (s.chosen derive k).ident ∧ t.streams = s.streams ∧ (∀ x ∈ t.slots, x = Slot.empty) ∧ t.cmds = s.cmds ∧
      t.power = (s.chosen derive k).power ∧ t.time = { TimeBase.reset with counting := true } ∧ t.port.queues = s.port.queues ∧
      t.port.started = s.port.started ∧ t.port.simmerOff = 0 := by
  obtain ⟨hout, hnor, hident, -, hstreams, hslots, hcmds, hpower, htime, hqueues, hstarted, hsimmer⟩ := slotBegun_spec s derive k rfl
  unfold State.readied at ht
  generalize (s.chosen derive k).logBoard.clearStart.initPorts = v at *
  have hcores := frame_of_offStart (startCores_offStart v cold start.selfTest)
  generalize v.startCores cold start.selfTest = u at *
  rw [startPorts_frame] at ht
  obtain ⟨gout, gnor, gident, -, gstreams, gslots, gcmds, gpower, gtime, gqueues, gstarted, gsimmer⟩ := hcores
  have hcold {β : Type} (w : State → β) (hw : ∀ n, w { v with nor := n } = w v) :
      w (if cold then { v with nor := { v.nor with coreRecord := (List.range 4).map fun i => start.selfTest.getD i 0 } } else v) = w v := by
    split
    · exact hw _
    · rfl
  subst ht
  refine ⟨gout.trans ((hcold (fun x => x.out) fun _ => rfl).trans hout), gnor.trans ?_,
    gident.trans ((hcold (fun x => x.ident) fun _ => rfl).trans hident), gstreams.trans ((hcold (fun x => x.streams) fun _ => rfl).trans hstreams),
    fun x hx => hslots x ?_, gcmds.trans ((hcold (fun x => x.cmds) fun _ => rfl).trans hcmds),
    gpower.trans ((hcold (fun x => x.power) fun _ => rfl).trans hpower), gtime.trans ((hcold (fun x => x.time) fun _ => rfl).trans htime),
    gqueues.trans ((hcold (fun x => x.port.queues) fun _ => rfl).trans hqueues),
    gstarted.trans ((hcold (fun x => x.port.started) fun _ => rfl).trans hstarted),
    gsimmer.trans ((hcold (fun x => x.port.simmerOff) fun _ => rfl).trans hsimmer)⟩
  · rw [← hnor]
    split <;> rfl
  · have hx' : x ∈ u.slots := hx
    rw [gslots] at hx'
    exact (hcold (fun x => x.slots) fun _ => rfl) ▸ hx'

/-! ### The memory ports at a start -/

/-- A port that trains anew. -/
def MemPort.anew (k : MemPort) : MemPort :=
  { k with state := 1, restored := false, cause := 0, temp := 0, hot := false, recent := [] }

theorem begun_mem (s : State) (cold derive : Bool) (start : StartIn) (k : Nat) :
    (((s.chosen derive k).logBoard.clearStart.initPorts).startCores cold start.selfTest).mem = s.mem ∧
      (cold = false → (((s.chosen derive k).logBoard.clearStart.initPorts).startCores cold start.selfTest).nor = s.nor) := by
  obtain ⟨-, hnor, -, hmem, -⟩ := slotBegun_spec s derive k rfl
  generalize (s.chosen derive k).logBoard.clearStart.initPorts = v at *
  obtain ⟨-, gnor, -, gmem, -⟩ := frame_of_offStart (startCores_offStart v cold start.selfTest)
  refine ⟨gmem.trans ?_, fun hcold => ?_⟩
  · rw [← hmem]
    split <;> rfl
  · subst hcold
    exact gnor.trans hnor

/-- After a cold start every port trains. -/
theorem coldPorts {s : State} (derive : Bool) (start : StartIn) (k : Nat) :
    (s.readied true derive start k).mem = s.mem.map MemPort.anew := by
  rw [← (begun_mem s true derive start k).1]
  rfl

/-- At a warm start every port that restores its record is in service. -/
theorem warmPorts {s : State} (hmem : s.mem.length = 16) {derive : Bool} {start : StartIn} {k : Nat}
    (hreads : ∀ n, n < 16 → ∃ r, start.ports[n]? = some r ∧ s.restores n r = true) :
    (s.readied false derive start k).mem.length = 16 ∧
      ∀ n, n < 16 → ((s.readied false derive start k).memPort n).state = 2 ∧ ((s.readied false derive start k).memPort n).restored = true := by
  obtain ⟨hports, hnor⟩ := begun_mem s false derive start k
  unfold State.readied
  generalize ((s.chosen derive k).logBoard.clearStart.initPorts).startCores false start.selfTest = u at *
  have hstart : u.startPorts false start.ports = ({ u with mem := u.mem.map MemPort.anew } : State).restorePorts (List.range 16) start.ports := rfl
  rw [hstart]
  have hlen : ({ u with mem := u.mem.map MemPort.anew } : State).mem.length = 16 := by
    change (u.mem.map MemPort.anew).length = 16
    rw [List.length_map, hports, hmem]
  have hall : ∀ p ∈ List.range 16, p < 16 ∧ ∃ r, start.ports[p]? = some r ∧
      ({ u with mem := u.mem.map MemPort.anew } : State).restores p r = true := by
    intro p hp
    obtain ⟨r, hr, hrestores⟩ := hreads p (List.mem_range.1 hp)
    refine ⟨List.mem_range.1 hp, r, hr, ?_⟩
    rw [State.restores, show ({ u with mem := u.mem.map MemPort.anew } : State).nor = s.nor from hnor rfl, ← State.restores]
    exact hrestores
  obtain ⟨hlen', hup, -⟩ := foldl_restore hlen hall
  have hmarked := foldl_restored hlen hall
  exact ⟨hlen', fun n hn => ⟨hup n (List.mem_range.2 hn), hmarked n (List.mem_range.2 hn)⟩⟩

/-! ### Warm starts -/

/-- What the end of a start over sixteen ports leaves alone. -/
theorem endStart_keeps {s : State} (h : s.portsUp.length = 16) :
    s.endStart.ident.runSlot = s.ident.runSlot ∧ s.endStart.ident.imprint = s.ident.imprint ∧ s.endStart.time = s.time ∧
      s.endStart.port = s.port ∧ s.endStart.streams = s.streams ∧ s.endStart.cmds = s.cmds ∧
      s.endStart.out = s.out ++ [.console (.ended s.power.next)] := by
  unfold State.endStart
  dsimp only
  rw [layCask_full h, recolophon_frame]
  exact ⟨rfl, rfl, rfl, rfl, rfl, rfl, rfl⟩

/-- A warm start whose memory ports all restore is Ready and configured at once. -/
theorem warmStart_spec {s t : State} {derive : Bool} {start : StartIn} {k : Nat} {rest : List Nat} (hmem : s.mem.length = 16)
    (horder : s.nor.order = k :: rest) (hgood : (judge s.nor false (s.nor.fwOf k) (s.nor.imOf k)).1 = cDone)
    (hderive : derive = true → start.pufFails < 4)
    (hreads : ∀ n, n < 16 → ∃ r, start.ports[n]? = some r ∧ s.restores n r = true) (ht : t = s.startFrom false derive start) :
    t.power.state = .ready ∧ t.power.config = 1 ∧ t.ident.runSlot = k ∧ t.ident.imprint = s.nor.imOf k ∧ t.time.tsy = 0 ∧
      t.nor = s.nor ∧ (∀ n, n < 16 → (t.memPort n).state = 2 ∧ (t.memPort n).restored = true) ∧ t.rack.poolSize = poolSizeFor 16 ∧
      t.port.queues = s.port.queues ∧ t.port.started = s.port.started ∧ t.streams = s.streams ∧ t.cmds = s.cmds ∧
      ∃ more, t.out = s.out ++ more := by
  rw [startFrom_eq horder hgood hderive] at ht
  obtain ⟨hlen, hports⟩ := warmPorts hmem (derive := derive) (k := k) hreads
  obtain ⟨hout, hnor, hident, hstreams, -, hcmds, hpower, htime, hqueues, hstarted, -⟩ := readied_spec s false derive start k rfl
  have hrun : (s.chosen derive k).ident.runSlot = k ∧ (s.chosen derive k).ident.imprint = s.nor.imOf k := ⟨rfl, rfl⟩
  have hnext : (s.chosen derive k).power.next = 1 := rfl
  generalize s.chosen derive k = c at *
  generalize s.readied false derive start k = u at *
  have hdone : u.portsDone = true := (portsDone_iff hlen).2 fun n hn => by rw [(hports n hn).1]; decide
  rw [if_pos hdone] at ht
  have hup : u.portsUp.length = 16 := portsUp_full fun n hn => (hports n hn).1
  obtain ⟨gpower, grack, gmem, gnor⟩ := endStart_spec hup
  obtain ⟨grun, gimprint, gtime, gport, gstreams, gcmds, gout⟩ := endStart_keeps hup
  subst ht
  have hmemPort (n : Nat) : u.endStart.memPort n = u.memPort n := by rw [State.memPort, gmem]; rfl
  refine ⟨by rw [gpower], by rw [gpower, hpower]; exact hnext, by rw [grun, hident]; exact hrun.1,
    by rw [gimprint, hident]; exact hrun.2, by rw [gtime, htime]; rfl, gnor.trans hnor, fun n hn => by rw [hmemPort]; exact hports n hn,
    by rw [grack], by rw [gport, hqueues], by rw [gport, hstarted], gstreams.trans hstreams, gcmds.trans hcmds,
    [.console (.slot k), .console (.ended u.power.next)], ?_⟩
  rw [gout, hout, List.append_assoc]
  rfl

/-! ### The three rows -/

theorem exec_coldStart {s : State} {start : StartIn} (hstate : s.power.state = .standby) (hinput : s.board.v54Ok = true)
    (haux : s.board.auxOk = true) (hcold : s.power.cold = true) (hwake : s.power.queuedWake = true) :
    exec (.coldStart start) s = .next (s.startFrom true true start) := by
  have hexec : exec (.coldStart start) s = execColdStart start s := rfl
  rw [hexec, execColdStart, if_pos (by rw [hstate, hinput, haux, hcold, hwake]; rfl)]

theorem exec_exitStandby {s : State} {start : StartIn} (hstate : s.power.state = .standby) (hinput : s.board.v54Ok = true)
    (hcold : s.power.cold = false) (hwake : s.power.queuedWake = true) :
    exec (.exitStandby start) s = .next (s.startFrom false true start) := by
  have hexec : exec (.exitStandby start) s = execExitStandby start s := rfl
  rw [hexec, execExitStandby, if_pos (by rw [hstate, hinput, hcold, hwake]; rfl)]

theorem exec_restart {s : State} {q tag : Nat} {c : Started} {start : StartIn} (h : s.commandAt q tag 0x53 c) :
    exec (.restart q tag start) s = .next
      (((s.finish q tag cDone 0 0).recordBy 0x0E c.role q 0 0 0).stopAll.startFrom false false start) := by
  have hexec : exec (.restart q tag start) s = execRestart q tag start s := rfl
  rw [hexec, execRestart, onStarted_commandAt h _ _ rfl]

theorem coldStart_spec {s : State} {start : StartIn} {k : Nat} {rest : List Nat} (hshape : s.shaped = true) (hfails : start.pufFails < 4)
    (horder : s.nor.order = k :: rest) (hgood : (judge s.nor false (s.nor.fwOf k) (s.nor.imOf k)).1 = cDone) :
    s.startFrom true true start = s.readied true true start k ∧ ∀ x ∈ (s.readied true true start k).mem, x.state = 1 := by
  have hports := coldPorts (s := s) true start k
  have hall : ∀ x ∈ (s.readied true true start k).mem, x.state = 1 := by
    intro x hx
    rw [hports] at hx
    obtain ⟨y, -, rfl⟩ := List.mem_map.1 hx
    rfl
  refine ⟨?_, hall⟩
  have hlen : (s.readied true true start k).mem.length = 16 := by rw [hports, List.length_map, State.shaped_mem hshape]
  have hwaits : (s.readied true true start k).portsDone = false := by
    rw [← Bool.not_eq_true, portsDone_iff hlen]
    intro hnone
    refine hnone 0 (by decide) (hall _ ?_)
    rw [State.memPort, List.getD_eq_getElem?_getD, List.getElem?_eq_getElem (by omega)]
    exact List.getElem_mem _
  rw [startFrom_eq horder hgood fun _ => hfails, hwaits]
  rfl

/-! ### The stop before a restart -/

theorem settleDrain_enable {s : State} (q : Nat) {p : Nat} (hp : p < s.port.queues.length) :
    ((s.settleDrain q).queue p).enable = (s.queue p).enable := by
  have hmod (u : State) (hu : p < u.port.queues.length) (f : Queue → Queue) (hf : ∀ k, (f k).enable = k.enable) :
      ((u.modQueue q f).queue p).enable = (u.queue p).enable := by
    by_cases hpq : p = q
    · subst hpq
      rw [queue_modQueue_same _ hu, hf]
    · rw [queue_modQueue_other _ hpq]
  have hsession : ((s.endSession q).queue p).enable = (s.queue p).enable := by
    unfold State.endSession
    dsimp only
    split
    · rfl
    · exact hmod s hp _ (by intro _; rfl)
  unfold State.settleDrain
  dsimp only
  split
  · rw [hmod _ (by rw [endSession_queues_length]; exact hp) _ (by intro _; rfl), hsession]
  · rfl

theorem disableQueue_enable (s : State) (q : Nat) {p : Nat} (hp : p < s.port.queues.length) :
    ((s.disableQueue q).queue p).enable = if p = q then false else (s.queue p).enable := by
  have hmod (u : State) (hu : u.port.queues = s.port.queues) (f : Queue → Queue) (hf : ∀ k, (f k).enable = false) :
      ((u.modQueue q f).queue p).enable = if p = q then false else (s.queue p).enable := by
    split
    next he =>
      subst he
      rw [queue_modQueue_same _ (by rw [hu]; exact hp), hf]
    next hne => rw [queue_modQueue_other _ hne, State.queue, hu]; rfl
  unfold State.disableQueue
  dsimp only
  split
  · exact hmod _ rfl _ (by intro _; rfl)
  · rw [settleDrain_enable _ (Nat.lt_of_lt_of_eq hp (modAt_length _ _ _).symm)]
    exact hmod _ rfl _ (by intro _; rfl)

theorem disableQueue_length (s : State) (q : Nat) : (s.disableQueue q).port.queues.length = s.port.queues.length :=
  queues_length_of_shape (by simp)

theorem foldl_disableQueue_enable (l : List Nat) {s : State} {q : Nat} (hq : q < s.port.queues.length)
    (hin : q ∈ l ∨ (s.queue q).enable = false) : ((l.foldl (fun s q => s.disableQueue q) s).queue q).enable = false := by
  induction l generalizing s with
  | nil => exact hin.resolve_left List.not_mem_nil
  | cons a l ih =>
    refine ih (by rw [disableQueue_length]; exact hq) ?_
    rw [disableQueue_enable _ _ hq]
    by_cases ha : q = a
    · exact Or.inr (if_pos ha)
    · rw [if_neg ha]
      exact hin.imp_left fun hm => (List.mem_cons.1 hm).resolve_left ha

theorem pairsDisabled_enable {s : State} (h : s.port.queues.length = 16) {q : Nat} (hq : q < 16) :
    (s.pairsDisabled.queue q).enable = false := by
  have hlen : q < ({ s with port := { s.port with started := [] } } : State).port.queues.length := Nat.lt_of_lt_of_eq hq h.symm
  exact foldl_disableQueue_enable (List.range 16) hlen (Or.inl (List.mem_range.2 hq))

theorem stopAll_enable {s : State} (h : s.port.queues.length = 16) {q : Nat} (hq : q < 16) : (s.stopAll.queue q).enable = false := by
  have hlen : (s.workFreed cStale).abortDma.port.queues.length = s.port.queues.length :=
    queues_length_of_shape (by simp [State.workFreed])
  have hdisabled := pairsDisabled_enable (hlen.trans h) hq
  rw [stopAll_eq, closeWindow_eq]
  generalize (s.workFreed cStale).abortDma.pairsDisabled = v at *
  exact hdisabled

theorem restart_spec {s : State} {q tag : Nat} {c : Started} {start : StartIn} {k : Nat} {rest : List Nat} (hshape : s.shaped = true)
    (h : s.commandAt q tag 0x53 c) (horder : s.nor.order = k :: rest)
    (hgood : (judge s.nor false (s.nor.fwOf k) (s.nor.imOf k)).1 = cDone)
    (hreads : ∀ n, n < 16 → ∃ r, start.ports[n]? = some r ∧ s.restores n r = true) :
    ∃ (t : State) (more : List Out), exec (.restart q tag start) s = .next t ∧
      t.out = s.out ++ [entryOut (s.queue q) s.port.attnPending cDone tag 0 0] ++ more ∧ t.power.state = .ready ∧
      t.power.config = 1 ∧ t.ident.runSlot = k ∧ t.ident.imprint = s.nor.imOf k ∧ t.port.started = [] ∧
      (∀ n, n < 16 → (t.queue n).qstate = 0 ∧ (t.queue n).enable = false) ∧ (∀ i, (t.stream i).live = false) ∧ t.cmds = [] ∧
      t.time.tsy = 0 ∧ t.nor = s.nor := by
  have hexec := exec_restart (start := start) h
  obtain ⟨hstarted, hdiscard, htakes⟩ := commandAt_ends h
  have hframe := finish_frame cDone 0 0 htakes hstarted hdiscard
  obtain ⟨-, hsent, -, -⟩ := finish_answered (s := s) (data := []) cDone 0 0 htakes hstarted hdiscard (List.append_nil _).symm fun _ _ => rfl
  have hpending : (s.finish q tag cDone 0 0).port.attnPending = s.port.attnPending := by rw [hframe]; rfl
  rw [hpending, List.append_nil] at hsent
  have hlen : (s.finish q tag cDone 0 0).port.queues.length = 16 := by
    rw [queues_length_of_shape (s := s) (by simp), State.shaped_queues hshape]
  have hkept : ((s.finish q tag cDone 0 0).recordBy 0x0E c.role q 0 0 0).mem = s.mem ∧
      ((s.finish q tag cDone 0 0).recordBy 0x0E c.role q 0 0 0).nor = s.nor := by
    rw [hframe]; exact ⟨rfl, rfl⟩
  have hspoke : ((s.finish q tag cDone 0 0).recordBy 0x0E c.role q 0 0 0).out = (s.finish q tag cDone 0 0).out := rfl
  have hlen' : ((s.finish q tag cDone 0 0).recordBy 0x0E c.role q 0 0 0).port.queues.length = 16 := hlen
  generalize (s.finish q tag cDone 0 0).recordBy 0x0E c.role q 0 0 0 = u at *
  obtain ⟨hcmds, hnone, hdisabled, hdead⟩ := stopAll_spec hlen'
  have hoff := stopAll_offReq u
  obtain ⟨said, hsaid⟩ := (stopAll_speaks u).out
  have henable (n : Nat) (hn : n < 16) := stopAll_enable hlen' hn
  generalize u.stopAll = v at *
  have hmem : v.mem = s.mem := (congrArg (fun x : State => x.mem) hoff).trans hkept.1
  have hnor : v.nor = s.nor := (congrArg (fun x : State => x.nor) hoff).trans hkept.2
  have hrestores (n : Nat) (r : PortRead) : v.restores n r = s.restores n r := by rw [State.restores, hnor, ← State.restores]
  obtain ⟨hstate, hconfig, hrun, himprint, htsy, hnor', -, -, hqueues, hstarted', hstreams, hcmds', more, hout⟩ :=
    warmStart_spec (s := v) (t := v.startFrom false false start) (by rw [hmem, State.shaped_mem hshape]) (by rw [hnor]; exact horder)
      (by rw [hnor]; exact hgood) (fun hd => absurd hd (by decide))
      (fun n hn => by obtain ⟨r, hr, hok⟩ := hreads n hn; exact ⟨r, hr, (hrestores n r).trans hok⟩) rfl
  refine ⟨_, said ++ more, hexec, ?_, hstate, hconfig, hrun, by rw [himprint, hnor], hstarted'.trans hnone, fun n hn => ?_, fun i => ?_,
    hcmds'.trans hcmds, htsy, hnor'.trans hnor⟩
  · rw [hout, ← hsaid, hspoke, hsent, List.append_assoc, List.append_assoc]
  · have hpair : (v.startFrom false false start).queue n = v.queue n := by rw [State.queue, hqueues]; rfl
    rw [hpair]
    exact ⟨hdisabled n hn, henable n hn⟩
  · have hstream : (v.startFrom false false start).stream i = v.stream i := by rw [State.stream, hstreams]; rfl
    rw [hstream]
    exact hdead i

end Sys2Proof.Machine

namespace Sys2Proof.Proofs

open Sys2Proof.Machine

/-- Settles O41: a start chooses the first acceptable slot; a cold one then trains its ports, a warm one restores them and ends. -/
theorem starts : Obligations.Starts := by
  unfold Obligations.Starts
  refine ⟨fun s start k rest hshape hstate hinput haux hcold hwake hfails horder hgood => ?_,
    fun s start k rest hshape horder hgood hreads => ⟨fun hstate hinput hcold hwake hfails => ?_,
      fun q tag c h => restart_spec hshape h horder hgood hreads⟩⟩
  · obtain ⟨hstart, hmem⟩ := coldStart_spec hshape hfails horder hgood
    obtain ⟨hout, hnor, hident, -, hslots, -, hpower, htime, -, -, hsimmer⟩ := readied_spec s true true start k rfl
    have hexec := (exec_coldStart (start := start) hstate hinput haux hcold hwake).trans (congrArg _ hstart)
    generalize s.readied true true start k = t at *
    refine ⟨t, hexec, ?_, ?_, ?_, ?_, ?_, ?_, ?_, ?_, ?_, ?_, ?_, ?_, by rw [htime]; rfl, by rw [htime], hmem, hnor, hslots, hsimmer, hout⟩
    · rw [hpower]; rfl
    · rw [hpower]; rfl
    · rw [hpower]; rfl
    · rw [hpower]; rfl
    · rw [hpower]; rfl
    · rw [hident]; rfl
    · rw [hident]; rfl
    · rw [hident]; rfl
    · rw [hident]; rfl
    · rw [hident]; rfl
    · rw [hident]; rfl
    · rw [hident]; rfl
  · obtain ⟨hready, hconfig, hrun, himprint, htsy, hnor, hports, hpool, -⟩ :=
      warmStart_spec (State.shaped_mem hshape) horder hgood (fun _ => hfails) hreads rfl
    exact ⟨_, exec_exitStandby hstate hinput hcold hwake, hready, hconfig, hrun, himprint, htsy, hnor, hports, hpool⟩

end Sys2Proof.Proofs
end

section
/-! SUPPORT. Plans loaded, adopted and unloaded (R111, R217, R307, R421). -/

namespace Sys2Proof.Machine

/-! ### What a load may change -/

/-- The state without what a load or an unload of a plan may change beside the control port's completion. -/
def State.offLoad (s : State) : State :=
  { s.offRack with
    caskRaw := Bytes.blank, coreMem := Bytes.blank, coreLines := [], sectLines := [], slots := [], errata := State.reset.errata
    ident := { s.ident with colophon := 0, window := none }, malt := State.reset.malt
    port := { s.port with attnPending := 0, attnCount := [], attnLast := [] } }

theorem offLoad_of_offRack {s t : State} (h : t.offRack = s.offRack) : t.offLoad = s.offLoad := by
  rw [frame_of_offRack h]; rfl

theorem recolophon_offLoad (s : State) : s.recolophon.offLoad = s.offLoad := by rw [recolophon_frame]; rfl

theorem modSlot_offLoad (s : State) (j : Nat) (f : Slot → Slot) : (s.modSlot j f).offLoad = s.offLoad := rfl

theorem attention_offLoad (s : State) (c : Nat) (code : Code) (a b : W32) : (s.attention c code a b).offLoad = s.offLoad := rfl

/-- The end of a command after a load or an unload. -/
theorem finish_loaded {s u : State} {q tag opc : Nat} {c : Started} (h : s.commandAt q tag opc c) (hu : u.offLoad = s.offLoad)
    (code : Code) (r0 r1 : W32) :
    Answered s (u.finish q tag code r0 r1) q tag (s.queue q) [] code r0 r1 ∧
      (u.finish q tag code r0 r1).port.attnPending = u.port.attnPending ∧
      u.finish q tag code r0 r1 = { u with
        out := (u.finish q tag code r0 r1).out, port := u.portOf (u.finish q tag code r0 r1) } ∧
      u.streams = s.streams ∧ u.cmds = s.cmds ∧ u.parts = s.parts ∧ u.reqs = s.reqs := by
  obtain ⟨hstarted, hdiscard, htakes⟩ := commandAt_ends h
  have hv {β : Type} (v : State → β) : v u.offLoad = v s.offLoad := congrArg v hu
  have hqueue (p : Nat) : u.queue p = s.queue p := hv (fun x => x.queue p)
  have htakes' : u.takesEntry q = true := (hv (fun x => x.takesEntry q)).trans htakes
  have hstarted' : u.started? q tag = some c := (hv (fun x => x.started? q tag)).trans hstarted
  have hout : u.out = s.out := hv (fun x => x.out)
  have hans := finish_answered (s := s) code r0 r1 htakes' hstarted' hdiscard (hout.trans (List.append_nil _).symm) fun p _ => hqueue p
  rw [hqueue] at hans
  have hframe := finish_frame code r0 r1 htakes' hstarted' hdiscard
  exact ⟨hans, by rw [hframe]; rfl, hframe, hv (fun x => x.streams), hv (fun x => x.cmds), hv (fun x => x.parts), hv (fun x => x.reqs)⟩

/-! ### Slots -/

theorem State.shaped_slots {s : State} (h : s.shaped = true) : s.slots.length = 64 := by
  have := congrArg (fun l => l.getD 7 0) (State.shaped_iff.1 h)
  exact this

theorem slot_modSlot {s : State} {j : Nat} (f : Slot → Slot) (h : j < s.slots.length) : (s.modSlot j f).slot j = f (s.slot j) :=
  modAt_getD_same _ _ _ _ h

theorem slot_modSlot_other {s : State} {i j : Nat} (f : Slot → Slot) (h : i ≠ j) : (s.modSlot j f).slot i = s.slot i :=
  modAt_getD_other _ _ _ _ _ h

theorem slot_of_slots {s t : State} (h : t.slots = s.slots) (i : Nat) : t.slot i = s.slot i := by
  rw [State.slot, State.slot, h]

theorem slots_of_offRack {s t : State} (h : t.offRack = s.offRack) : t.slots = s.slots := by rw [frame_of_offRack h]

/-! ### Weights placed -/

theorem acceptAs_offRack {s : State} {h : Handle} {d : FrameDesc} {b : Bytes} {r : Nat × State} (hr : s.acceptAs h d b = some r) :
    r.2.offRack = s.offRack := by
  unfold State.acceptAs at hr
  split at hr
  · exact absurd hr (by simp)
  · obtain rfl := Option.some.inj hr
    rfl

theorem placeWeight_offRack {s : State} {part : Nat} {d : FrameDesc} {b : Bytes} {r : Handle × State}
    (hr : s.placeWeight part d b = some r) : r.2.offRack = s.offRack := by
  unfold State.placeWeight at hr
  dsimp only at hr
  split at hr
  next f u hf =>
    obtain rfl := Option.some.inj hr
    have hframe := State_demandFrame_offRack _ _ _ hf
    dsimp only [State.settleWeight]
    rw [State_modLeaf_offRack, State_setFrame_offRack, State_setLeaf_offRack, hframe]
  · split at hr
    · exact absurd hr (by simp)
    · split at hr
      next f u hf =>
        obtain rfl := Option.some.inj hr
        have hframe := acceptAs_offRack hf
        dsimp only
        rw [State_modLeaf_offRack, hframe, State_setLeaf_offRack, State_govTake_offRack]
      · exact absurd hr (by simp)

theorem placeWeights_offRack {part : Nat} {desc : Nat → FrameDesc} {data tags : List Byte} (n : Nat) {i : Nat} {s : State}
    {r : List Handle × State} (hr : State.placeWeights part desc data tags n i s = some r) : r.2.offRack = s.offRack := by
  induction n generalizing i s r with
  | zero =>
    obtain rfl := Option.some.inj hr
    rfl
  | succ n ih =>
    rw [State.placeWeights] at hr
    split at hr
    next h u hu =>
      obtain ⟨x, hx, rfl⟩ := Option.map_eq_some_iff.1 hr
      exact (ih hx).trans (placeWeight_offRack hu)
    · exact absurd hr (by simp)

/-- A slot's retained set released: the leaves change, and the slot. -/
theorem dropRetained_spec (s : State) (j : Nat) : (s.dropRetained j).offLoad = s.offLoad ∧
    (∀ i, i ≠ j → (s.dropRetained j).slot i = s.slot i) ∧ (s.dropRetained j).slots.length = s.slots.length ∧
    (j < s.slots.length → (s.dropRetained j).slot j = { s.slot j with retained := none }) := by
  unfold State.dropRetained
  split
  next hnone =>
    refine ⟨rfl, fun _ _ => rfl, rfl, fun _ => ?_⟩
    rw [← hnone]
  next ls _ =>
    have hdrop : (ls.foldl (fun s e => s.drop e.2) s).offRack = s.offRack := offRack_foldl _ (fun (u : State) (e : Nat × Handle) => State_drop_offRack u e.2) _ _
    generalize ls.foldl (fun s e => s.drop e.2) s = u at *
    have hslots := slots_of_offRack hdrop
    refine ⟨(modSlot_offLoad _ _ _).trans (offLoad_of_offRack hdrop), fun i hi => ?_, ?_, fun hj => ?_⟩
    · rw [slot_modSlot_other _ hi, slot_of_slots hslots]
    · exact (modAt_length _ _ _).trans (by rw [hslots])
    · rw [slot_modSlot _ (by rw [hslots]; exact hj), slot_of_slots hslots]

/-! ### Plans entered -/

theorem placeTables_frame (s : State) (p : Plan) (head : List Byte) : s.placeTables p head = { s with
    caskRaw := (s.placeTables p head).caskRaw, coreMem := (s.placeTables p head).coreMem, coreLines := (s.placeTables p head).coreLines } := by
  have hput (l : List Nat) (u : State) : l.foldl (fun s c => s.putCore (coreAddr c (tableSpace + p.tableBase)) p.table) u = { u with
      coreMem := (l.foldl (fun s c => s.putCore (coreAddr c (tableSpace + p.tableBase)) p.table) u).coreMem
      coreLines := (l.foldl (fun s c => s.putCore (coreAddr c (tableSpace + p.tableBase)) p.table) u).coreLines } := by
    induction l generalizing u with
    | nil => rfl
    | cons c l ih => rw [List.foldl_cons, ih]; rfl
  unfold State.placeTables
  dsimp only
  rw [hput]

/-- The plan that a load enters. -/
def State.loadedPlan (s : State) (image : List Byte) (leaves : List Handle) : Plan :=
  let h := bytesWords 80 image
  let descs := imageDescs image (bits (wd h 1) 23 0)
  { header := h, descs := descs, table := (image.drop (320 + 64 * descs.length)).take (wd h 11).toNat, leaves := leaves,
    tableBase := (s.tableFit (coresNamed descs) (wd h 11).toNat).getD 0, scratch := (s.scratchFits h).getD [0, 0, 0, 0],
    regionBase := (s.regionFit ((headBytes h + 65535) / 65536)).getD 0, regionUnits := (headBytes h + 65535) / 65536,
    suspect := false, unfit := 0 }

/-- A plan entered in its slot. -/
theorem enterPlan_spec {s t : State} {j : Nat} {image : List Byte} {ls : List Handle} {key : W64} (hj : j < s.slots.length)
    (ht : t = s.enterPlan j image ls key) :
    t.slot j = { s.slot j with plan := some (s.loadedPlan image ls), key := key, shape := ⟨[], [], []⟩ } ∧
      (∀ i, i ≠ j → t.slot i = s.slot i) ∧ t.offLoad = s.offLoad ∧ t.port.attnPending.getLsbD 1 = true ∧
      t.rack = s.rack ∧ t.cellar = s.cellar := by
  have hplaced := placeTables_frame s (s.loadedPlan image ls) (image.take (headBytes (bytesWords 80 image)))
  have henter : s.enterPlan j image ls key = (((s.placeTables (s.loadedPlan image ls) (image.take (headBytes (bytesWords 80 image)))).modSlot j
      fun k => { k with plan := some (s.loadedPlan image ls), key := key, shape := ⟨[], [], []⟩ }).attention 1 cDone (w32 j) 0).recolophon := rfl
  rw [henter] at ht
  generalize s.loadedPlan image ls = p at *
  generalize s.placeTables p (image.take (headBytes (bytesWords 80 image))) = u at *
  have hslots : u.slots = s.slots := by rw [hplaced]
  have hrack : u.rack = s.rack := by rw [hplaced]
  have hcellar : u.cellar = s.cellar := by rw [hplaced]
  have hown := slot_modSlot (s := u) (fun k => { k with plan := some p, key := key, shape := ⟨[], [], []⟩ }) (by rw [hslots]; exact hj)
  have hothers (i : Nat) (hi : i ≠ j) :=
    slot_modSlot_other (s := u) (fun k => { k with plan := some p, key := key, shape := ⟨[], [], []⟩ }) hi
  have hkeep : t.slots = (u.modSlot j fun k => { k with plan := some p, key := key, shape := ⟨[], [], []⟩ }).slots := by
    rw [ht, recolophon_frame]; rfl
  refine ⟨?_, fun i hi => ?_, ?_, ?_, ?_, ?_⟩
  · rw [slot_of_slots hkeep, hown, slot_of_slots hslots]
  · rw [slot_of_slots hkeep, hothers i hi, slot_of_slots hslots]
  · rw [ht, recolophon_offLoad, attention_offLoad, modSlot_offLoad, hplaced]; rfl
  · rw [ht, recolophon_frame]; exact attend_pending u.port (by decide) cDone
  · rw [ht, recolophon_frame]; exact hrack
  · rw [ht, recolophon_frame]; exact hcellar

/-! ### The rows -/

theorem exec_setRefresh {s : State} {q tag : Nat} {c : Started} (h : s.commandAt q tag 0x15 c)
    (hmay : bits (c.arg 1) 20 16 = 0 ∨ s.slotPart (bits (c.arg 1) 13 8) = s.slotPart (bits (c.arg 1) 5 0)) :
    exec (.setRefresh q tag) s = .next ((s.modSlot (bits (c.arg 1) 5 0) fun k =>
      { k with refreshLog := bits (c.arg 1) 20 16, refreshSlot := bits (c.arg 1) 13 8 }).finish q tag cDone 0 0) := by
  have hexec : exec (.setRefresh q tag) s = execSetRefresh q tag s := rfl
  rw [hexec, execSetRefresh, onStarted_commandAt h _ _ rfl]
  exact congrArg _ (if_neg (by simpa [Decidable.imp_iff_not_or, or_comm] using hmay))

theorem exec_unloadPlan {s : State} {q tag j : Nat} {c : Started} (h : s.commandAt q tag 0x11 c) (hj : j = bits (c.arg 1) 5 0)
    (hplan : (s.slot j).plan ≠ none) (hstreams : s.streamsOf j = []) (hcmds : ∀ x ∈ s.cmds, x.slot ≠ j) :
    exec (.unloadPlan q tag) s = .next ((s.dropPlan j).finish q tag cDone 0 0) := by
  have hexec : exec (.unloadPlan q tag) s = execUnloadPlan q tag s := rfl
  subst hj
  have hnone : (s.cmds.any fun x => x.slot == bits (c.arg 1) 5 0) = false := by simpa using hcmds
  have hsome : (s.slot (bits (c.arg 1) 5 0)).plan.isNone = false := by
    cases hp : (s.slot (bits (c.arg 1) 5 0)).plan with
    | none => exact absurd hp hplan
    | some p => rfl
  rw [hexec, execUnloadPlan, onStarted_commandAt h _ _ rfl]
  dsimp only
  rw [hsome, hstreams, List.filter_nil, List.foldl_nil, hstreams, hnone]
  rfl

theorem dropFresh_offLoad (s : State) (j : Nat) : (s.dropFresh j).offLoad = s.offLoad ∧ (s.dropFresh j).slots = s.slots := by
  have hfree : ((alGet [] j s.malt.newLeaves).foldl (fun s x => s.freeLeaf x.2) s).offRack = s.offRack :=
    offRack_foldl _ (fun (u : State) (x : Nat × Handle) => State_freeLeaf_offRack u x.2) _ _
  unfold State.dropFresh
  dsimp only
  generalize (alGet [] j s.malt.newLeaves).foldl (fun s x => s.freeLeaf x.2) s = u at *
  exact ⟨(show _ = u.offLoad from rfl).trans (offLoad_of_offRack hfree), slots_of_offRack hfree⟩

/-- The slot of a plan released. -/
theorem dropPlan_spec {s : State} {j : Nat} (hj : j < s.slots.length) :
    ((s.dropPlan j).slot j).plan = none ∧ ((s.dropPlan j).slot j).key = 0 ∧ ((s.dropPlan j).slot j).retained = none ∧
      (∀ i, i ≠ j → (s.dropPlan j).slot i = s.slot i) ∧ (s.dropPlan j).offLoad = s.offLoad := by
  obtain ⟨hfresh, hfreshSlots⟩ := dropFresh_offLoad s j
  unfold State.dropPlan
  dsimp only
  generalize (((s.slot j).plan.map (·.leaves)).getD []) = ls
  generalize s.dropFresh j = u at *
  obtain ⟨hret, hretOthers, hretLen, hretOwn⟩ := dropRetained_spec u j
  rw [hfreshSlots] at hretLen hretOwn
  generalize u.dropRetained j = v at *
  have hdrop : (ls.foldl (fun s h => s.drop h) v).offRack = v.offRack := offRack_foldl _ (fun u h => State_drop_offRack u h) _ _
  generalize ls.foldl (fun s h => s.drop h) v = w at *
  have hscratch : (((w.slot j).plan.map w.freeScratch).getD w).offLoad = w.offLoad ∧ (((w.slot j).plan.map w.freeScratch).getD w).slots = w.slots := by
    cases (w.slot j).plan <;> exact ⟨rfl, rfl⟩
  generalize (((w.slot j).plan.map w.freeScratch).getD w) = x at *
  have hslots : x.slots = v.slots := hscratch.2.trans (slots_of_offRack hdrop)
  have hkeep : ((x.modSlot j fun k => { k with plan := none, key := 0 }).attention 1 cDone (w32 j) 0).recolophon.slots =
      (x.modSlot j fun k => { k with plan := none, key := 0 }).slots := by rw [recolophon_frame]; rfl
  have hown : ((x.modSlot j fun k => { k with plan := none, key := 0 }).attention 1 cDone (w32 j) 0).recolophon.slot j =
      { s.slot j with plan := none, key := 0, retained := none } := by
    rw [slot_of_slots hkeep, slot_modSlot _ (by rw [hslots, hretLen]; exact hj), slot_of_slots hslots, hretOwn hj,
      slot_of_slots hfreshSlots]
  refine ⟨by rw [hown], by rw [hown], by rw [hown], fun i hi => ?_, ?_⟩
  · rw [slot_of_slots hkeep, slot_modSlot_other _ hi, slot_of_slots hslots, hretOthers i hi, slot_of_slots hfreshSlots]
  · rw [recolophon_offLoad, attention_offLoad, modSlot_offLoad, hscratch.1, offLoad_of_offRack hdrop, hret, hfresh]

theorem exec_loadPlan_refused {s : State} {q tag : Nat} {c : Started} {image : List Byte} (h : s.commandAt q tag 0x10 c)
    (hadopt : (c.arg 1).getLsbD 8 = false) (hbad : s.loadCheck (bits (c.arg 1) 5 0) image c.bufBytes false ≠ cDone) :
    exec (.loadPlan q tag image) s =
      .next (s.finish q tag (s.loadCheck (bits (c.arg 1) 5 0) image c.bufBytes false) 0 0) := by
  have hexec : exec (.loadPlan q tag image) s = execLoadPlan q tag image s := rfl
  rw [hexec, execLoadPlan, onStarted_commandAt h _ _ (by rw [hadopt]; rfl)]
  exact congrArg _ (if_pos (by simpa using hbad))

theorem exec_loadPlanAdopt_refused {s : State} {q tag : Nat} {c : Started} {image : List Byte} (h : s.commandAt q tag 0x10 c)
    (hadopt : (c.arg 1).getLsbD 8 = true) (hbad : s.loadCheck (bits (c.arg 1) 5 0) image c.bufBytes true ≠ cDone) :
    exec (.loadPlanAdopt q tag image) s =
      .next (s.finish q tag (s.loadCheck (bits (c.arg 1) 5 0) image c.bufBytes true) 0 0) := by
  have hexec : exec (.loadPlanAdopt q tag image) s = execLoadPlanAdopt q tag image s := rfl
  rw [hexec, execLoadPlanAdopt, onStarted_commandAt h _ _ hadopt]
  exact congrArg _ (if_pos (by simpa using hbad))

/-- The weights of an image placed for a load of slot j. -/
def State.placeImage (s : State) (j : Nat) (image : List Byte) : Option (List Handle × State) :=
  let h := bytesWords 80 image
  let data := image.drop (headBytes h)
  let part := (s.slotPart j).getD 0
  State.placeWeights part (fun i => weightDesc part j i (s.expertAmong (imageDescs image (bits (wd h 1) 23 0)) j i)
    (key64 (data.take (weightBytes h + tagPlane h)))) (data.take (weightBytes h)) ((data.drop (weightBytes h)).take (tagPlane h))
    (bits (wd h 5) 23 0) 0 (s.dropRetained j)

theorem exec_loadPlan_placed {s u : State} {q tag j : Nat} {c : Started} {image : List Byte} {ls : List Handle}
    (h : s.commandAt q tag 0x10 c) (hj : j = bits (c.arg 1) 5 0) (hadopt : (c.arg 1).getLsbD 8 = false)
    (hgood : s.loadCheck j image c.bufBytes false = cDone) {n : Nat} (hn : n = bits (wd (bytesWords 80 image) 5) 23 0)
    (hroom : n ≤ s.framesAhead ((s.slotPart j).getD 0) ∨ s.cellar.belowMin = true ∨
      (((frameDraw * (n - s.framesAhead ((s.slotPart j).getD 0)) : Nat) : Int) ≤ s.cellar.level ∧ s.cellar.peakAt ≤ s.now.toNat))
    (hplaced : s.placeImage j image = some (ls, u)) :
    exec (.loadPlan q tag image) s = .next ((u.enterPlan j image ls (key64 ((image.drop (headBytes (bytesWords 80 image))).take
      (weightBytes (bytesWords 80 image) + tagPlane (bytesWords 80 image))))).finish q tag cDone
        (w32 (bits (wd (bytesWords 80 image) 1) 23 0)) (w32 n)) := by
  have hexec : exec (.loadPlan q tag image) s = execLoadPlan q tag image s := rfl
  subst hj hn
  have hnow : (bits (wd (bytesWords 80 image) 5) 23 0 - s.framesAhead ((s.slotPart (bits (c.arg 1) 5 0)).getD 0) != 0 && !s.cellar.belowMin &&
      (decide (s.cellar.level < (frameDraw * (bits (wd (bytesWords 80 image) 5) 23 0 - s.framesAhead ((s.slotPart (bits (c.arg 1) 5 0)).getD 0)) : Nat)) ||
        decide (s.now.toNat < s.cellar.peakAt))) = false := by
    rcases hroom with hfew | hbelow | ⟨hlevel, hpeak⟩
    · rw [Nat.sub_eq_zero_of_le hfew]; rfl
    · rw [hbelow, Bool.not_true, Bool.and_false, Bool.false_and]
    · rw [decide_eq_false (by omega), decide_eq_false (by omega), Bool.or_false, Bool.and_false]
  rw [hexec, execLoadPlan, onStarted_commandAt h _ _ (by rw [hadopt]; rfl)]
  dsimp only
  unfold State.placeImage at hplaced
  dsimp only at hplaced
  rw [hgood, if_neg (by decide), hnow, if_neg (by decide), hplaced]

theorem exec_loadPlanAdopt_whole {s : State} {q tag j : Nat} {c : Started} {image : List Byte} {key : W64} {ls : List (Nat × Handle)}
    (h : s.commandAt q tag 0x10 c) (hj : j = bits (c.arg 1) 5 0) (hadopt : (c.arg 1).getLsbD 8 = true)
    (hgood : s.loadCheck j image c.bufBytes true = cDone) {n : Nat} (hn : n = bits (wd (bytesWords 80 image) 5) 23 0)
    (hretained : (s.slot j).retained = some (key, ls)) (hkey : key = c.arg 3 ++ c.arg 2) (hlen : ls.length = n)
    (hwhole : ∀ i, i < n → ∃ h, (i, h) ∈ ls) :
    exec (.loadPlanAdopt q tag image) s = .next ((((s.modSlot j fun k => { k with retained := none }).enterPlan j image
      ((List.range n).map fun i => ((ls.find? fun e => e.1 == i).map (·.2)).getD 0) key).attention 1 cDone (w32 j) 1).finish q tag cDone
        (w32 (bits (wd (bytesWords 80 image) 1) 23 0)) (w32 n)) := by
  have hexec : exec (.loadPlanAdopt q tag image) s = execLoadPlanAdopt q tag image s := rfl
  subst hj hn
  have hall : ((List.range (bits (wd (bytesWords 80 image) 5) 23 0)).all fun i => ls.any fun e => e.1 == i) = true := by
    rw [List.all_eq_true]
    intro i hi
    obtain ⟨x, hx⟩ := hwhole i (List.mem_range.1 hi)
    exact List.any_eq_true.2 ⟨(i, x), hx, by simp⟩
  rw [hexec, execLoadPlanAdopt, onStarted_commandAt h _ _ hadopt]
  dsimp only
  rw [hgood, if_neg (by decide), hretained]
  dsimp only
  rw [hall, hlen, ← hkey, if_neg (by simp)]

/-! ### The clauses -/

theorem setRefresh_spec {s : State} {q tag j : Nat} {c : Started} (hshape : s.shaped = true) (hj : j = bits (c.arg 1) 5 0)
    (h : s.commandAt q tag 0x15 c) (hmay : bits (c.arg 1) 20 16 = 0 ∨ s.slotPart (bits (c.arg 1) 13 8) = s.slotPart j) :
    ∃ t, exec (.setRefresh q tag) s = .next t ∧ Answered s t q tag (s.queue q) [] cDone 0 0 ∧
      t.slot j = { s.slot j with refreshLog := bits (c.arg 1) 20 16, refreshSlot := bits (c.arg 1) 13 8 } ∧
      (∀ i, i ≠ j → t.slot i = s.slot i) ∧ t = { s with out := t.out, port := s.portOf t, slots := t.slots } := by
  subst hj
  have hlen : bits (c.arg 1) 5 0 < s.slots.length := by rw [State.shaped_slots hshape]; exact bits_lt _ 5 0
  obtain ⟨hans, -, hframe, -⟩ := finish_loaded h (modSlot_offLoad s (bits (c.arg 1) 5 0) fun k =>
    { k with refreshLog := bits (c.arg 1) 20 16, refreshSlot := bits (c.arg 1) 13 8 }) cDone 0 0
  have hexec := exec_setRefresh h hmay
  have hown := slot_modSlot (fun k : Slot => { k with refreshLog := bits (c.arg 1) 20 16, refreshSlot := bits (c.arg 1) 13 8 }) hlen
  have hothers (i : Nat) (hi : i ≠ bits (c.arg 1) 5 0) :=
    slot_modSlot_other (s := s) (fun k : Slot => { k with refreshLog := bits (c.arg 1) 20 16, refreshSlot := bits (c.arg 1) 13 8 }) hi
  have hport : (s.modSlot (bits (c.arg 1) 5 0) fun k =>
      { k with refreshLog := bits (c.arg 1) 20 16, refreshSlot := bits (c.arg 1) 13 8 }) = { s with slots := (s.modSlot (bits (c.arg 1) 5 0) fun k =>
      { k with refreshLog := bits (c.arg 1) 20 16, refreshSlot := bits (c.arg 1) 13 8 }).slots } := rfl
  generalize (s.modSlot (bits (c.arg 1) 5 0) fun k =>
    { k with refreshLog := bits (c.arg 1) 20 16, refreshSlot := bits (c.arg 1) 13 8 }) = u at *
  refine ⟨_, hexec, hans, ?_, fun i hi => ?_, ?_⟩
  · rw [slot_of_slots (s := u) (by rw [hframe]), hown]
  · rw [slot_of_slots (s := u) (by rw [hframe]), hothers i hi]
  · generalize u.finish q tag cDone 0 0 = t at *
    rw [hframe, hport]
    rfl

theorem unloadPlan_spec {s : State} {q tag j : Nat} {c : Started} (h : s.commandAt q tag 0x11 c) (hshape : s.shaped = true)
    (hj : j = bits (c.arg 1) 5 0) (hplan : (s.slot j).plan ≠ none) (hnone : s.streamsOf j = []) (hidle : ∀ x ∈ s.cmds, x.slot ≠ j) :
    ∃ t, exec (.unloadPlan q tag) s = .next t ∧ Answered s t q tag (s.queue q) [] cDone 0 0 ∧
      (t.slot j).plan = none ∧ (t.slot j).key = 0 ∧ (t.slot j).retained = none ∧ (∀ i, i ≠ j → t.slot i = s.slot i) ∧
      t.streams = s.streams ∧ t.cmds = s.cmds ∧ t.parts = s.parts ∧ t.reqs = s.reqs := by
  have hlen : j < s.slots.length := by rw [State.shaped_slots hshape, hj]; exact bits_lt _ 5 0
  have hexec := exec_unloadPlan h hj hplan hnone hidle
  obtain ⟨hgone, hkey, hretained, hothers, hoff⟩ := dropPlan_spec (s := s) hlen
  generalize s.dropPlan j = u at *
  obtain ⟨hans, -, hframe, hstreams, hcmds, hparts, hreqs⟩ := finish_loaded h hoff cDone 0 0
  have hslot (i : Nat) : (u.finish q tag cDone 0 0).slot i = u.slot i := slot_of_slots (by rw [hframe]) i
  refine ⟨_, hexec, hans, by rw [hslot]; exact hgone, by rw [hslot]; exact hkey, by rw [hslot]; exact hretained,
    fun i hi => (hslot i).trans (hothers i hi), ?_, ?_, ?_, ?_⟩
  · rw [hframe]; exact hstreams
  · rw [hframe]; exact hcmds
  · rw [hframe]; exact hparts
  · rw [hframe]; exact hreqs

theorem loadPlan_spec {s u : State} {q tag j : Nat} {c : Started} {image : List Byte} {ls : List Handle} (hshape : s.shaped = true)
    (h : s.commandAt q tag 0x10 c) (hj : j = bits (c.arg 1) 5 0) (hadopt : (c.arg 1).getLsbD 8 = false)
    (hgood : s.loadCheck j image c.bufBytes false = cDone) {n : Nat} (hn : n = bits (wd (bytesWords 80 image) 5) 23 0)
    (hroom : n ≤ s.framesAhead ((s.slotPart j).getD 0) ∨ s.cellar.belowMin = true ∨
      (((frameDraw * (n - s.framesAhead ((s.slotPart j).getD 0)) : Nat) : Int) ≤ s.cellar.level ∧ s.cellar.peakAt ≤ s.now.toNat))
    (hplaced : s.placeImage j image = some (ls, u)) :
    ∃ t p, exec (.loadPlan q tag image) s = .next t ∧ t.port.attnPending.getLsbD 1 = true ∧
      Answered s t q tag (s.queue q) [] cDone (w32 (bits (wd (bytesWords 80 image) 1) 23 0)) (w32 n) ∧
      (t.slot j).plan = some p ∧ p.header = bytesWords 80 image ∧ p.leaves = ls ∧ p.suspect = false ∧ p.unfit = 0 ∧
      (∀ i, i ≠ j → t.slot i = s.slot i) ∧ t.streams = s.streams ∧ t.cmds = s.cmds ∧ t.parts = s.parts ∧
      t.reqs = s.reqs := by
  have hlen : j < s.slots.length := by rw [State.shaped_slots hshape, hj]; exact bits_lt _ 5 0
  have hexec := exec_loadPlan_placed h hj hadopt hgood hn hroom hplaced
  obtain ⟨hoff, hothers, hslotsLen, -⟩ := dropRetained_spec s j
  have hweights : u.offRack = (s.dropRetained j).offRack := placeWeights_offRack _ hplaced
  generalize s.dropRetained j = r at *
  have hslots := slots_of_offRack hweights
  obtain ⟨hown, hrest, hentered, hpending, -⟩ := enterPlan_spec (s := u) (j := j) (image := image) (ls := ls)
    (key := key64 ((image.drop (headBytes (bytesWords 80 image))).take (weightBytes (bytesWords 80 image) + tagPlane (bytesWords 80 image))))
    (by rw [hslots, hslotsLen]; exact hlen) rfl
  generalize u.enterPlan j image ls (key64 ((image.drop (headBytes (bytesWords 80 image))).take
    (weightBytes (bytesWords 80 image) + tagPlane (bytesWords 80 image)))) = v at *
  obtain ⟨hans, hkept, hframe, hstreams, hcmds, hparts, hreqs⟩ :=
    finish_loaded h (hentered.trans ((offLoad_of_offRack hweights).trans hoff)) cDone (w32 (bits (wd (bytesWords 80 image) 1) 23 0)) (w32 n)
  have hslot (i : Nat) : (v.finish q tag cDone (w32 (bits (wd (bytesWords 80 image) 1) 23 0)) (w32 n)).slot i = v.slot i :=
    slot_of_slots (by rw [hframe]) i
  refine ⟨_, u.loadedPlan image ls, hexec, by rw [hkept]; exact hpending, hans, by rw [hslot, hown], rfl, rfl, rfl, rfl, fun i hi => ?_,
    ?_, ?_, ?_, ?_⟩
  · rw [hslot, hrest i hi, slot_of_slots hslots, hothers i hi]
  · rw [hframe]; exact hstreams
  · rw [hframe]; exact hcmds
  · rw [hframe]; exact hparts
  · rw [hframe]; exact hreqs

theorem loadPlanAdopt_spec {s : State} {q tag j : Nat} {c : Started} {image : List Byte} {key : W64} {ls : List (Nat × Handle)}
    (hshape : s.shaped = true) (h : s.commandAt q tag 0x10 c) (hj : j = bits (c.arg 1) 5 0) (hadopt : (c.arg 1).getLsbD 8 = true)
    (hgood : s.loadCheck j image c.bufBytes true = cDone) {n : Nat} (hn : n = bits (wd (bytesWords 80 image) 5) 23 0)
    (hretained : (s.slot j).retained = some (key, ls)) (hkey : key = c.arg 3 ++ c.arg 2) (hcount : ls.length = n)
    (hwhole : ∀ i, i < n → ∃ h, (i, h) ∈ ls) :
    ∃ t p, exec (.loadPlanAdopt q tag image) s = .next t ∧
      Answered s t q tag (s.queue q) [] cDone (w32 (bits (wd (bytesWords 80 image) 1) 23 0)) (w32 n) ∧
      (t.slot j).plan = some p ∧ (t.slot j).key = key ∧ (t.slot j).retained = none ∧ p.header = bytesWords 80 image ∧
      p.leaves.length = n ∧ (∀ h ∈ p.leaves, ∃ i, (i, h) ∈ ls) ∧ t.rack = s.rack ∧ t.cellar = s.cellar ∧
      (∀ i, i ≠ j → t.slot i = s.slot i) ∧ t.streams = s.streams ∧ t.cmds = s.cmds := by
  have hlen : j < s.slots.length := by rw [State.shaped_slots hshape, hj]; exact bits_lt _ 5 0
  have hexec := exec_loadPlanAdopt_whole h hj hadopt hgood hn hretained hkey hcount hwhole
  have hfound : ∀ x ∈ (List.range n).map (fun i => ((ls.find? fun e => e.1 == i).map (·.2)).getD 0), ∃ i, (i, x) ∈ ls := by
    intro x hx
    obtain ⟨i, hi, rfl⟩ := List.mem_map.1 hx
    obtain ⟨y, hy⟩ := hwhole i (List.mem_range.1 hi)
    cases hf : ls.find? fun e => e.1 == i with
    | none => exact absurd (List.find?_eq_none.1 hf (i, y) hy) (by simp)
    | some e => exact ⟨e.1, List.mem_of_find?_eq_some hf⟩
  have hcleared := slot_modSlot (s := s) (fun k => { k with retained := none }) hlen
  have hclearedOthers (i : Nat) (hi : i ≠ j) := slot_modSlot_other (s := s) (fun k => { k with retained := none }) hi
  have hclearedLen : j < (s.modSlot j fun k => { k with retained := none }).slots.length := Nat.lt_of_lt_of_eq hlen (modAt_length _ _ _).symm
  have hclearedOff := modSlot_offLoad s j fun k => { k with retained := none }
  have hstores : (s.modSlot j fun k => { k with retained := none }).rack = s.rack ∧
      (s.modSlot j fun k => { k with retained := none }).cellar = s.cellar := ⟨rfl, rfl⟩
  generalize (s.modSlot j fun k => { k with retained := none }) = u at *
  have hleaves : ((List.range n).map fun i => ((ls.find? fun e => e.1 == i).map (·.2)).getD 0).length = n := by
    rw [List.length_map, List.length_range]
  generalize (List.range n).map (fun i => ((ls.find? fun e => e.1 == i).map (·.2)).getD 0) = hs at *
  obtain ⟨hown, hrest, hentered, -, hrack, hcellar⟩ := enterPlan_spec (s := u) (j := j) (image := image) (ls := hs) (key := key) hclearedLen rfl
  generalize u.enterPlan j image hs key = v at *
  obtain ⟨hans, -, hframe, hstreams, hcmds, -⟩ :=
    finish_loaded h ((attention_offLoad v 1 cDone (w32 j) 1).trans (hentered.trans hclearedOff)) cDone
      (w32 (bits (wd (bytesWords 80 image) 1) 23 0)) (w32 n)
  have hslots : ((v.attention 1 cDone (w32 j) 1).finish q tag cDone (w32 (bits (wd (bytesWords 80 image) 1) 23 0)) (w32 n)).slots = v.slots := by
    rw [hframe]; rfl
  have hslot (i : Nat) := slot_of_slots hslots i
  refine ⟨_, u.loadedPlan image hs, hexec, hans, by rw [hslot, hown], by rw [hslot, hown], by rw [hslot, hown, hcleared], rfl, hleaves,
    hfound, ?_, ?_, fun i hi => ?_, ?_, ?_⟩
  · rw [hframe]; exact hrack.trans hstores.1
  · rw [hframe]; exact hcellar.trans hstores.2
  · rw [hslot, hrest i hi, hclearedOthers i hi]
  · rw [hframe]; exact hstreams
  · rw [hframe]; exact hcmds

theorem loadRefused_spec {s : State} {q tag : Nat} {c : Started} {image : List Byte} (h : s.commandAt q tag 0x10 c)
    (hbad : s.loadCheck (bits (c.arg 1) 5 0) image c.bufBytes ((c.arg 1).getLsbD 8) ≠ cDone) (i : Instr)
    (hi : i = (if (c.arg 1).getLsbD 8 then Instr.loadPlanAdopt q tag image else .loadPlan q tag image)) :
    ∃ t, exec i s = .next t ∧
      Answered s t q tag (s.queue q) [] (s.loadCheck (bits (c.arg 1) 5 0) image c.bufBytes ((c.arg 1).getLsbD 8)) 0 0 ∧
      t = { s with out := t.out, port := s.portOf t } := by
  subst hi
  cases hadopt : (c.arg 1).getLsbD 8 with
  | true =>
    rw [hadopt] at hbad
    exact ⟨_, exec_loadPlanAdopt_refused h hadopt hbad, finish_alone h _ _ _⟩
  | false =>
    rw [hadopt] at hbad
    exact ⟨_, exec_loadPlan_refused h hadopt hbad, finish_alone h _ _ _⟩

end Sys2Proof.Machine

namespace Sys2Proof.Proofs

open Sys2Proof.Machine

/-- Settles O27: a load enters its plan in the slot, an unload empties it, and neither touches what belongs to other slots. -/
theorem planCommands : Obligations.PlanCommands := by
  intro s q tag c j hshape hj
  refine ⟨fun h hmay => setRefresh_spec hshape hj h hmay,
    fun h hplan hstreams hcmds => unloadPlan_spec h hshape hj hplan hstreams hcmds,
    fun image n part ls u h hadopt hgood hn hpart hroom hplaced => ?_,
    fun image n key ls h hadopt hgood hn hretained hkey hcount hwhole =>
      loadPlanAdopt_spec hshape h hj hadopt hgood hn hretained hkey hcount hwhole,
    fun image h hbad i hi => ?_⟩
  · subst hpart
    have himage : s.placeImage j image = some (ls, u) := by
      subst hn
      exact hplaced
    exact loadPlan_spec hshape h hj hadopt hgood hn hroom himage
  · subst hj
    exact loadRefused_spec h hbad i hi

end Sys2Proof.Proofs
end

section
/-! SUPPORT. What the upkeep of the leaves leaves of the fetches of weight leaves: which are under way, and the directory. -/

namespace Sys2Proof.Machine

/-- The weight leaves that are asked for, and the directory. -/
def State.fetched (s : State) : List Handle × List (Nat × List W32) := (s.rack.fetches, s.fabric.directory)

@[simp] theorem modRack_fetched (s : State) {f : Rack → Rack} (h : ∀ r, (f r).fetches = r.fetches) : (s.modRack f).fetched = s.fetched :=
  congrArg (fun l => (l, s.fabric.directory)) (h s.rack)

@[simp] theorem modCellar_fetched (s : State) (f : Cellar → Cellar) : (s.modCellar f).fetched = s.fetched := rfl

@[simp] theorem drawn_fetched (s : State) (n : Nat) : ({ s with draws := n } : State).fetched = s.fetched := rfl

@[simp] theorem ite_fetched (c : Prop) [Decidable c] (s t : State) :
    (if c then s else t).fetched = if c then s.fetched else t.fetched := by
  split <;> rfl

@[simp] theorem fetched_foldl {α : Type} (g : State → α → State) (h : ∀ s x, (g s x).fetched = s.fetched) (l : List α) (s : State) :
    (l.foldl g s).fetched = s.fetched := foldl_keeps State.fetched g h l s

@[simp] theorem State_setFrame_fetched (a0 : State) (a1 : Nat) (a2 : Bytes) :
    (State.setFrame a0 a1 a2).fetched = a0.fetched := by
  unfold State.setFrame
  simp

@[simp] theorem State_setLeaf_fetched (a0 : State) (a1 : Handle) (a2 : Leaf) :
    (State.setLeaf a0 a1 a2).fetched = a0.fetched := by
  unfold State.setLeaf
  refine modRack_fetched _ fun r => ?_
  split <;> rfl

@[simp] theorem State_newLeaf_fetched (a0 : State) (a1 : Nat) (a2 : Nat) (a3 : Nat) :
    (State.newLeaf a0 a1 a2 a3).2.fetched = a0.fetched := by
  unfold State.newLeaf
  simp

@[simp] theorem State_modLeaf_fetched (a0 : State) (a1 : Handle) (a2 : Leaf → Leaf) :
    (State.modLeaf a0 a1 a2).fetched = a0.fetched := by
  unfold State.modLeaf
  simp

@[simp] theorem State_patchCask_fetched (a0 : State) (a1 : Handle) (a2 : Bytes → Bytes) :
    (State.patchCask a0 a1 a2).fetched = a0.fetched := by
  unfold State.patchCask
  simp

@[simp] theorem State_dress_fetched (a0 : State) (a1 : Handle) (a2 : Nat) :
    (State.dress a0 a1 a2).fetched = a0.fetched := by
  unfold State.dress
  simp

theorem State_byAge_fetched (a0 : State) (a1 : List (Handle × Leaf)) :
    ∀ r, State.byAge a0 a1 = some r → r.2.fetched = a0.fetched := by
  intro r h
  unfold State.byAge at h
  dsimp only at h
  split at h
  · exact absurd h (by simp)
  · obtain rfl := Option.some.inj h
    rfl

@[simp] theorem State_dropFrame_fetched (a0 : State) (a1 : Nat) :
    (State.dropFrame a0 a1).fetched = a0.fetched := by
  unfold State.dropFrame
  simp

theorem State_evictClean_fetched (a0 : State) (a1 : Nat) (a2 : Option Nat) :
    ∀ r, State.evictClean a0 a1 a2 = some r → r.2.fetched = a0.fetched := by
  intro r h; unfold State.evictClean at h; simp only [] at h
  split at h
  · simp at h
  · rename_i hb; have := State_byAge_fetched _ _ _ hb; simp at h; subst h; simpa using this

theorem State_demandFrame_fetched (a0 : State) (a1 : Nat) :
    ∀ r, State.demandFrame a0 a1 = some r → r.2.fetched = a0.fetched := by
  intro r h; unfold State.demandFrame at h
  split at h
  · simp at h; subst h; rfl
  · exact State_evictClean_fetched _ _ _ _ h

@[simp] theorem State_ensureCask_fetched (a0 : State) (a1 : Handle) : (State.ensureCask a0 a1).fetched = a0.fetched := by
  unfold State.ensureCask; simp only []
  split
  · rfl
  · split
    · rename_i hb; have := State_demandFrame_fetched _ _ _ hb; simpa using this
    · simp

@[simp] theorem State_dropSs_fetched (a0 : State) (a1 : Handle) :
    (State.dropSs a0 a1).fetched = a0.fetched := by
  unfold State.dropSs
  simp

@[simp] theorem State_dirtyLeaf_fetched (a0 : State) (a1 : Handle) :
    (State.dirtyLeaf a0 a1).fetched = a0.fetched := by
  unfold State.dirtyLeaf
  simp

@[simp] theorem State_setQuire_fetched (a0 : State) (a1 : Handle) (a2 : List Handle) :
    (State.setQuire a0 a1 a2).fetched = a0.fetched := by
  unfold State.setQuire
  simp

@[simp] theorem State_startMove_fetched (a0 : State) (a1 : Move) :
    (State.startMove a0 a1).fetched = a0.fetched := by
  unfold State.startMove
  simp

@[simp] theorem State_govDraw_fetched (a0 : State) (a1 : Nat) :
    (State.govDraw a0 a1).fetched = a0.fetched := by
  unfold State.govDraw
  simp

@[simp] theorem State_govTake_fetched (a0 : State) :
    (State.govTake a0).fetched = a0.fetched := by
  unfold State.govTake
  simp

@[simp] theorem State_giveFrame_fetched (a0 : State) (a1 : Wanter) (a2 : Nat) :
    (State.giveFrame a0 a1 a2).fetched = a0.fetched := by
  unfold State.giveFrame
  (repeat' split) <;> (simp; done)

@[simp] theorem State_dropCask_fetched (a0 : State) (a1 : Handle) :
    (State.dropCask a0 a1).fetched = a0.fetched := by
  unfold State.dropCask
  simp

@[simp] theorem State_startWriteBack_fetched (a0 : State) (a1 : Handle) (a2 : MoveKind) (a3 : Wanter) :
    (State.startWriteBack a0 a1 a2 a3).fetched = a0.fetched := by
  unfold State.startWriteBack
  simp

@[simp] theorem State_startEviction_fetched (a0 : State) (a1 : Nat) (a2 : Wanter) : (State.startEviction a0 a1 a2).fetched = a0.fetched := by
  unfold State.startEviction
  split
  · rfl
  · split
    · rfl
    · rename_i hb; have := State_byAge_fetched _ _ _ hb; simpa using this

@[simp] theorem State_staleFrame_fetched (a0 : State) (a1 : Nat) :
    (State.staleFrame a0 a1).fetched = a0.fetched := by
  unfold State.staleFrame
  simp

@[simp] theorem State_endMove_fetched (a0 : State) (a1 : Handle) :
    (State.endMove a0 a1).fetched = a0.fetched := by
  unfold State.endMove
  simp

@[simp] theorem State_freeLeaf_fetched (a0 : State) (a1 : Handle) :
    (State.freeLeaf a0 a1).fetched = a0.fetched := by
  unfold State.freeLeaf
  simp

@[simp] theorem State_deref_fetched (a0 : Nat) (a1 : State) (a2 : Handle) : (State.deref a0 a1 a2).fetched = a1.fetched := by
  induction a0 generalizing a1 a2 with
  | zero => rfl
  | succ n ih => unfold State.deref; simp [ih]

@[simp] theorem State_drop_fetched (a0 : State) (a1 : Handle) :
    (State.drop a0 a1).fetched = a0.fetched := by
  unfold State.drop
  simp

@[simp] theorem State_releaseMoved_fetched (a0 : State) (a1 : Handle) : (State.releaseMoved a0 a1).fetched = a0.fetched := by
  unfold State.releaseMoved
  simp only []
  split <;> simp

@[simp] theorem State_returnLeaf_fetched (a0 : State) (a1 : Nat) (a2 : Handle) :
    (State.returnLeaf a0 a1 a2).fetched = a0.fetched := by
  unfold State.returnLeaf
  simp

@[simp] theorem State_dropGrants_fetched (a0 : State) (a1 : List Nat) :
    (State.dropGrants a0 a1).fetched = a0.fetched := by
  unfold State.dropGrants
  simp

@[simp] theorem State_giveBack_fetched (a0 : State) (a1 : List (Nat × Handle × Bool)) (a2 : Nat × Handle × Bool) :
    (State.giveBack a0 a1 a2).fetched = a0.fetched := by
  unfold State.giveBack
  simp

@[simp] theorem State_giveBackAll_fetched (a0 : State) (a1 : List (Nat × Handle × Bool)) :
    (State.giveBackAll a0 a1).fetched = a0.fetched := by
  unfold State.giveBackAll
  simp

@[simp] theorem State_unpin_fetched (a0 : State) (a1 : Handle) :
    (State.unpin a0 a1).fetched = a0.fetched := by
  unfold State.unpin
  simp

@[simp] theorem State_promote_fetched (a0 : State) (a1 : Handle) : (State.promote a0 a1).fetched = a0.fetched := by
  unfold State.promote; simp only []
  split
  · rfl
  · split
    · rename_i hb; have := State_demandFrame_fetched _ _ _ hb; simpa using this
    · simp

@[simp] theorem State_tierOn_fetched (a0 : State) (a1 : Nat) (a2 : Handle) :
    (State.tierOn a0 a1 a2).fetched = a0.fetched := by
  unfold State.tierOn
  simp

@[simp] theorem State_retier_fetched (a0 : State) (a1 : Nat) :
    (State.retier a0 a1).fetched = a0.fetched := by
  unfold State.retier
  simp

/-! ### Work that ends -/

theorem fetched_of_portEnds {s t : State} (h : PortEnds s t) : t.fetched = s.fetched := by
  rw [h.frame]; rfl

theorem dropTo_fetched (s : State) (i : Nat) (h : Handle) : (s.dropTo i h).fetched = s.fetched := by
  unfold State.dropTo
  simp

theorem abandon_fetched (s : State) (i : Nat) : (s.abandon i).fetched = s.fetched := by
  have hdrop (u : State) : (u.dropAdvances i).fetched = u.fetched := by
    unfold State.dropAdvances
    simp [dropTo_fetched]
  exact hdrop _

theorem modulePause_fetched (s : State) (i : Nat) (cause : Code) : (s.modulePause i cause).fetched = s.fetched := by
  unfold State.modulePause
  split
  · exact abandon_fetched _ _
  · exact (State_retier_fetched _ _).trans (abandon_fetched _ _)

theorem sendReply_fetched (s : State) (c : Ctxt) (i : Nat) (st : Stream) (code : Code) (final : Bool) (data : List Byte) :
    (s.sendReply c i st code final data).fetched = s.fetched := by
  refine foldl_keeps State.fetched _ (fun u x => ?_) _ _
  split <;> rfl

theorem endReq_fetched (s : State) (k : Nat) (code : Code) (data : List Byte) : (s.endReq k code data).fetched = s.fetched := by
  have hserve (u : State) (r : Req) (st : Stream) : (u.serveAfter k r st).fetched = u.fetched := by
    unfold State.serveAfter
    dsimp only
    split
    · split <;> rfl
    · rfl
  have hreply (u : State) (r : Req) (st : Stream) : (u.replyEnd r st code data).fetched = u.fetched := by
    unfold State.replyEnd
    split
    · exact sendReply_fetched u _ _ _ _ _ _
    · rfl
  cases h : (s.req k).open_ with
  | false => rw [endReq_closed h]
  | true =>
    rw [endReq_open h, hserve, fetched_of_portEnds (answerEnd_portEnds _ _ _ _), hreply]
    rfl

theorem undo_fetched (s : State) (c : Cmd) : (s.undo c).fetched = s.fetched := by
  have hstop (u : State) (k : Nat) : (u.stopArray c k).fetched = u.fetched := by
    have hpass : (u.passOff k).fetched = u.fetched := by
      unfold State.passOff
      split <;> rfl
    exact hpass
  have hrack (u : State) : (((u.unpinAll c.pins).giveBackAll c.taken).dropGrants c.shape.rows).fetched = u.fetched := by
    simp [State.unpinAll]
  have huntake (u : State) : (u.untake c.id).fetched = u.fetched := rfl
  unfold State.undo
  dsimp only
  rw [huntake, hrack]
  split
  · exact foldl_keeps State.fetched _ hstop _ _
  · rfl

/-! ### The end of a command's runs -/

/-- A request's fate at the end of the command that served it. -/
def State.fateOf (s : State) (u : WaveRun) (code : Code) : State :=
  match u.req with
  | some q => s.endReq (reqKey q.1 q.2) code []
  | none => s

/-- Which classes of attention are pending. -/
def State.pends (s : State) (k : Nat) : Bool := s.port.attnPending.getLsbD k

theorem pends_of_portEnds {s t : State} (h : PortEnds s t) (k : Nat) : t.pends k = s.pends k := by
  rw [h.frame]; rfl

theorem attention_pends {s : State} {k : Nat} (h : s.pends k = true) (c : Nat) (code : Code) (a b : W32) :
    (s.attention c code a b).pends k = true := by
  have hor : (s.attention c code a b).pends k = (s.port.attnPending ||| BitVec.ofNat 8 (1 <<< c)).getLsbD k := rfl
  have hwas : s.port.attnPending.getLsbD k = true := h
  rw [hor, BitVec.getLsbD_or, hwas, Bool.true_or]

theorem pends_of_offRack {s t : State} (h : t.offRack = s.offRack) (k : Nat) : t.pends k = s.pends k := by
  rw [frame_of_offRack h]; rfl

theorem abandon_pends (s : State) (i k : Nat) : (s.abandon i).pends k = s.pends k :=
  pends_of_offRack (s := s.voidRuns i) (dropAdvances_offRack _ _) k

theorem modulePause_pends (s : State) (i : Nat) (cause : Code) (k : Nat) : (s.modulePause i cause).pends k = s.pends k := by
  unfold State.modulePause
  split
  · exact abandon_pends _ _ _
  · exact (pends_of_offRack (State_retier_offRack _ _) k).trans (abandon_pends _ _ _)

theorem endReq_pends (s : State) (n : Nat) (code : Code) (data : List Byte) (k : Nat) : (s.endReq n code data).pends k = s.pends k := by
  have hoff := endReq_offReq s n code data
  have hport : (s.endReq n code data).offReq.port.attnPending = s.offReq.port.attnPending := by rw [hoff]
  exact congrArg (fun p : BitVec 8 => p.getLsbD k) hport

theorem failTrain_ledger (s : State) (c : Cmd) (code : Code) : (s.failTrain c code).ledger = s.ledger :=
  modPart_ledger (by simp)

theorem modulePause_ledger (s : State) (i : Nat) (cause : Code) : (s.modulePause i cause).ledger = s.ledger := by
  unfold State.modulePause
  split
  · exact abandon_ledger _ _
  · exact pauseStream_ledger _ _ _

/-- What the end of a command's runs carries along: the records, commands and training waves, the leaves asked for, and the
classes of attention that are pending. -/
structure Carried (s t : State) : Prop where
  ledger : t.ledger = s.ledger
  fetched : t.fetched = s.fetched
  pends : ∀ k, s.pends k = true → t.pends k = true

namespace Carried

theorem refl (s : State) : Carried s s := ⟨rfl, rfl, fun _ h => h⟩

theorem trans {s t u : State} (h : Carried s t) (g : Carried t u) : Carried s u :=
  ⟨g.ledger.trans h.ledger, g.fetched.trans h.fetched, fun k hk => g.pends k (h.pends k hk)⟩

theorem foldl {α : Type} {f : State → α → State} (h : ∀ u x, Carried u (f u x)) (l : List α) (s : State) :
    Carried s (l.foldl f s) := by
  induction l generalizing s with
  | nil => exact refl s
  | cons x xs ih => exact (h s x).trans (ih _)

theorem of_portEnds {s t : State} (h : PortEnds s t) : Carried s t :=
  ⟨ledger_of_portEnds h, fetched_of_portEnds h, fun k hk => (pends_of_portEnds h k).trans hk⟩

theorem abandon (s : State) (i : Nat) : Carried s (s.abandon i) :=
  ⟨abandon_ledger s i, abandon_fetched s i, fun k hk => (abandon_pends s i k).trans hk⟩

theorem modulePause (s : State) (i : Nat) (cause : Code) : Carried s (s.modulePause i cause) :=
  ⟨modulePause_ledger s i cause, modulePause_fetched s i cause, fun k hk => (modulePause_pends s i cause k).trans hk⟩

theorem endReq (s : State) (n : Nat) (code : Code) (data : List Byte) : Carried s (s.endReq n code data) :=
  ⟨endReq_ledger s n code data, endReq_fetched s n code data, fun k hk => (endReq_pends s n code data k).trans hk⟩

theorem failTrain (s : State) (c : Cmd) (code : Code) : Carried s (s.failTrain c code) :=
  ⟨failTrain_ledger s c code, rfl, fun _ hk => hk⟩

theorem modStream (s : State) (i : Nat) (f : Stream → Stream) : Carried s (s.modStream i f) := ⟨rfl, rfl, fun _ hk => hk⟩

theorem attention (s : State) (c : Nat) (code : Code) (a b : W32) : Carried s (s.attention c code a b) :=
  ⟨rfl, rfl, fun _ hk => attention_pends hk c code a b⟩

theorem log (s : State) (code : Code) (a b : W32) : Carried s (s.log code a b) := ⟨rfl, rfl, fun _ hk => hk⟩

theorem fate (s : State) (u : WaveRun) (code : Code) : Carried s (s.fateOf u code) := by
  unfold State.fateOf
  split
  · exact endReq _ _ _ _
  · exact refl s

theorem endRun (s : State) (c : Cmd) (code : Code) (noExpert : Bool) (u : WaveRun) : Carried s (s.endRun c code noExpert u) := by
  have hfate (v : State) (k : Code) : (match u.req with
      | some q => v.endReq (reqKey q.1 q.2) k []
      | none => v) = v.fateOf u k := rfl
  unfold State.endRun
  simp only [hfate]
  split
  · exact failTrain s c code
  split
  · exact (abandon s _).trans (fate _ u code)
  split
  · have hcount := (abandon s u.stream).trans (modStream (s.abandon u.stream) u.stream fun e => { e with exh := min 8 (e.exh + 1) })
    split
    · exact ((hcount.trans (modulePause _ _ _)).trans (fate _ u _)).trans (attention _ _ _ _ _)
    · exact hcount
  split
  · exact (((modulePause s _ _).trans (fate _ u _)).trans (log _ _ _ _)).trans (attention _ _ _ _ _)
  split
  · split
    · exact (abandon s _).trans (fate _ u _)
    · exact abandon s _
  · exact abandon s _

theorem endRerun (s : State) (c : Cmd) (code : Code) (arr : Nat) (refused : Bool) : Carried s (s.endRerun c code arr refused) := by
  unfold State.endRerun
  split
  · exact of_portEnds (finish_portEnds _ _ _ _ _ _)
  · exact refl s

end Carried

/-! ### A command ended with a code -/

/-- A command that ends with a code is a command no longer and no other comes; its record joins its home section's log; no
leaf is asked for and none is given up; and the class of the code is raised. -/
structure Aborted (s t : State) (c : Cmd) (code : Code) (arr : Nat) (refused : Bool) : Prop where
  cmds : ∀ x ∈ t.cmds, x ∈ s.cmds ∧ x.id ≠ c.id
  logs : t.logs = modAt s.logs c.home (fun l => l ++ [recordWords c code arr refused])
  fetched : t.fetched = s.fetched
  raised : ∀ k, endClass code = some k → k < 8 → t.pends k = true

/-- The attention or the errata record of an end's code. -/
def State.endRaised (s : State) (c : Cmd) (code : Code) : State :=
  match endClass code with
  | some k => s.attention k code c.subject 0
  | none => if code = cExhausted then s.log code c.subject 0 else s

/-- Who placed a command that ends without a wave is told. -/
def State.endTold (s : State) (c : Cmd) (code : Code) (arr : Nat) (refused : Bool) : State :=
  match c.origin with
  | .recovery => s.log code c.subject 0
  | _ => s.endRerun c code arr refused

/-- A command undone, recorded and taken from its queues. -/
def State.endTaken (s : State) (c : Cmd) (code : Code) (arr : Nat) (refused : Bool) : State :=
  ((s.undo c).logEnd c code arr refused).dropCmd c.id

theorem abort_eq (s : State) (c : Cmd) (code : Code) (arr : Nat) (refused noExpert : Bool) :
    s.abort c code arr refused noExpert =
      (((s.rowRuns c).foldl (fun s u => s.endRun c code noExpert u) ((s.endTaken c code arr refused).endRaised c code)).endTold c code
        arr refused).dropVoid := rfl

namespace Carried

theorem endRaised (s : State) (c : Cmd) (code : Code) : Carried s (s.endRaised c code) := by
  unfold State.endRaised
  split
  · exact attention _ _ _ _ _
  · split
    · exact log _ _ _ _
    · exact refl s

theorem endTold (s : State) (c : Cmd) (code : Code) (arr : Nat) (refused : Bool) : Carried s (s.endTold c code arr refused) := by
  unfold State.endTold
  split
  · exact log _ _ _ _
  · exact endRerun _ _ _ _ _

end Carried

theorem endRaised_pends (s : State) (c : Cmd) {code : Code} {k : Nat} (hk : endClass code = some k) (hlt : k < 8) :
    (s.endRaised c code).pends k = true := by
  unfold State.endRaised
  rw [hk]
  exact attention_pending s hlt _ _ _

theorem endTaken_ledger (s : State) (c : Cmd) (code : Code) (arr : Nat) (refused : Bool) :
    (s.endTaken c code arr refused).cmds = s.cmds.filter (fun x => x.id != c.id) ∧
      (s.endTaken c code arr refused).logs = modAt s.logs c.home (fun l => l ++ [recordWords c code arr refused]) := by
  have hcmds : (s.undo c).cmds = s.cmds := congrArg (·.2.1) (undo_ledger s c)
  have hlogs : (s.undo c).logs = s.logs := congrArg (·.1) (undo_ledger s c)
  unfold State.endTaken
  generalize s.undo c = u at hcmds hlogs
  rw [← hcmds, ← hlogs]
  exact ⟨rfl, rfl⟩

theorem abort_spec (s : State) (c : Cmd) (code : Code) (arr : Nat) (refused noExpert : Bool) :
    Aborted s (s.abort c code arr refused noExpert) c code arr refused := by
  rw [abort_eq]
  obtain ⟨hcmds, hlogs⟩ := endTaken_ledger s c code arr refused
  have hfetched : (s.endTaken c code arr refused).fetched = s.fetched := undo_fetched s c
  generalize s.endTaken c code arr refused = v at *
  have hraised := Carried.endRaised v c code
  have hpends (k : Nat) := endRaised_pends v c (code := code) (k := k)
  generalize v.endRaised c code = w at *
  have hruns := Carried.foldl (fun u x => Carried.endRun u c code noExpert x) (s.rowRuns c) w
  generalize (s.rowRuns c).foldl (fun s u => s.endRun c code noExpert u) w = x at *
  have htold := Carried.endTold x c code arr refused
  generalize x.endTold c code arr refused = y at *
  have hall := (hraised.trans hruns).trans htold
  have hycmds : y.cmds = v.cmds := congrArg (·.2.1) hall.ledger
  have hylogs : y.logs = v.logs := congrArg (·.1) hall.ledger
  refine ⟨fun z hz => ?_, hylogs.trans hlogs, hall.fetched.trans hfetched,
    fun k hk hlt => (hruns.trans htold).pends k (hpends k hk hlt)⟩
  have hmem := dropVoid_subset y z hz
  rw [hycmds, hcmds] at hmem
  simpa using hmem

theorem Aborted.gone {s t : State} {c : Cmd} {code : Code} {arr : Nat} {refused : Bool} (h : Aborted s t c code arr refused) :
    t.cmd? c.id = none :=
  List.find?_eq_none.2 fun x hx => by simpa using (h.cmds x hx).2

/-- A command that fails while it runs ends at a moment drawn freely. -/
theorem failCmd_spec (s : State) (c : Cmd) (code : Code) :
    Aborted s (s.failCmd c code) c code (Config.killTime s.draws) false := by
  obtain ⟨hcmds, hlogs, hfetched, hraised⟩ := abort_spec { s with draws := s.draws + 1 } c code (Config.killTime s.draws) false false
  exact ⟨hcmds, hlogs, hfetched, hraised⟩

end Sys2Proof.Machine
end

section
/-! SUPPORT. Leaves that arrive: promotions, direct reads, section-store copies (R283 to R286), copies of lost weights (R299, R300),
heat (R281). -/

namespace Sys2Proof.Machine

/-! ### One entry changed -/

/-- The entry of one leaf is changed, and nothing else but the list of poisoned leaves that are logged. -/
structure LeafSet (s t : State) (h : Handle) (e : Leaf) : Prop where
  leaf : t.leaf h = e
  others : ∀ g, g ≠ h → t.leaf g = s.leaf g
  frame : t = { s with rack := { s.rack with leaves := t.rack.leaves, logged := t.rack.logged } }

theorem modLeaf_spec {s : State} {h : Handle} (hl : h ∉ s.rack.lostHandles) (f : Leaf → Leaf) :
    LeafSet s (s.modLeaf h f) h (f (s.leaf h)) :=
  ⟨leaf_setLeaf hl _, fun _ hg => leaf_setLeaf_other s hg _, setLeaf_frame s h _⟩

/-- A leaf's move ended: MOVING is clear, and no move is under way. -/
structure MoveEnded (s t : State) (h : Handle) : Prop where
  leaf : t.leaf h = { s.leaf h with moving := false }
  others : ∀ g, g ≠ h → t.leaf g = s.leaf g
  move : t.move? h = none
  frame : t = { s with rack := { s.rack with
    leaves := t.rack.leaves, logged := t.rack.logged, moves := s.rack.moves.filter fun m => m.handle != h } }

theorem endMove_spec {s : State} {h : Handle} (hl : h ∉ s.rack.lostHandles) : MoveEnded s (s.endMove h) h := by
  have hset := modLeaf_spec (s := s.modRack fun r => { r with moves := r.moves.filter fun m => m.handle != h }) hl
    fun e => { e with moving := false }
  unfold State.endMove
  generalize (s.modRack fun r => { r with moves := r.moves.filter fun m => m.handle != h }).modLeaf h
    (fun e => { e with moving := false }) = t at hset
  have hframe : t = { s with rack := { s.rack with
    leaves := t.rack.leaves, logged := t.rack.logged, moves := s.rack.moves.filter fun m => m.handle != h } } := hset.frame
  refine ⟨hset.leaf, hset.others, ?_, hframe⟩
  have hmoves : t.rack.moves = s.rack.moves.filter fun m => m.handle != h := by rw [hframe]
  rw [State.move?, hmoves]
  exact List.find?_eq_none.2 fun m hm => by simpa using (List.mem_filter.1 hm).2

theorem releaseMoved_of_ref {s : State} {h : Handle} (hr : (s.leaf h).ref ≠ 0) : s.releaseMoved h = s := by
  unfold State.releaseMoved
  dsimp only
  rw [if_neg (by simp [hr])]

/-! ### Promotions -/

/-- RESIDENT is the streams' alone. -/
theorem setResident_frame (s : State) : s.setResident = { s with streams := s.setResident.streams } := by
  have hkeep : { s.setResident with streams := [] } = ({ s with streams := [] } : State) :=
    foldl_keeps (fun u : State => { u with streams := [] }) _ (by intro u i; split <;> rfl) _ _
  have hset (u : State) : u = { ({ u with streams := [] } : State) with streams := u.streams } := rfl
  conv => lhs; rw [hset s.setResident, hkeep]

theorem landPromotion_spec {s : State} {h : Handle} {f : CellarFrame} (hl : h ∉ s.rack.lostHandles)
    (hf : s.cellarFrame? (s.leaf h).cellarFrame = some f) :
    (s.landPromotion h).leaf h = { s.leaf h with inCask := true, moving := false } ∧ (s.landPromotion h).move? h = none ∧
      (s.landPromotion h).rack.frame (s.leaf h).caskFrame = f.data ∧
      (∀ g, g ≠ h → (s.landPromotion h).leaf g = s.leaf g) ∧
      (∀ n, n ≠ (s.leaf h).caskFrame → (s.landPromotion h).rack.frame n = s.rack.frame n) ∧
      s.landPromotion h = { s with rack := (s.landPromotion h).rack } := by
  have hland : s.landPromotion h =
      ((s.setFrame (s.leaf h).caskFrame f.data).endMove h).modLeaf h fun e => { e with inCask := true } := by
    unfold State.landPromotion
    dsimp only
    rw [hf]
  rw [hland]
  have hmove := endMove_spec (s := s.setFrame (s.leaf h).caskFrame f.data) hl
  generalize (s.setFrame (s.leaf h).caskFrame f.data).endMove h = u at hmove ⊢
  obtain ⟨hleaf, hothers, hnone, hframe⟩ := hmove
  have hlu : h ∉ u.rack.lostHandles := by rw [hframe]; exact hl
  obtain ⟨hleaf', hothers', hframe'⟩ := modLeaf_spec hlu fun e => { e with inCask := true }
  generalize u.modLeaf h (fun e => { e with inCask := true }) = v at hleaf' hothers' hframe' ⊢
  have hmoves : v.rack.moves = u.rack.moves := by rw [hframe']
  have hpool : v.rack.pool = alSet (Bytes.empty .plain) (s.leaf h).caskFrame f.data s.rack.pool := by rw [hframe', hframe]; rfl
  refine ⟨by rw [hleaf', hleaf]; rfl, by rw [State.move?, hmoves]; exact hnone, ?_, fun g hg => ?_, fun n hn => ?_, ?_⟩
  · rw [Rack.frame, hpool, alGet_alSet_same]
  · rw [hothers' g hg, hothers g hg]; rfl
  · rw [Rack.frame, hpool, alGet_alSet_other _ _ _ _ _ hn]; rfl
  · rw [hframe', hframe]; rfl

theorem exec_promotionDone {s : State} {h : Handle} {m : Move} {f : CellarFrame} (hl : h ∉ s.rack.lostHandles)
    (hm : s.move? h = some m) (hk : m.kind = .promote ∨ m.kind = .rewrite) (hr : (s.leaf h).ref ≠ 0)
    (hf : s.cellarFrame? (s.leaf h).cellarFrame = some f) :
    exec (.promotionDone h) s = .next (s.landPromotion h).setResident := by
  have hexec : exec (.promotionDone h) s = execPromotionDone h s := rfl
  have href : ((s.landPromotion h).leaf h).ref ≠ 0 := by rw [(landPromotion_spec hl hf).1]; exact hr
  rw [hexec, execPromotionDone, hm]
  dsimp only
  rw [if_pos (by simpa using hk), releaseMoved_of_ref href]

/-! ### Section-store copies -/

theorem freeSs_unused {s : State} {sec f : Nat} (h : s.freeSs sec = some f) : ∀ k ∈ s.rack.ss, k.1 ≠ (sec, f) := by
  have hfree := List.find?_some h
  intro k hk he
  have hin : f ∈ (s.rack.ss.filter fun k => k.1.1 == sec).map fun k => k.1.2 :=
    List.mem_map.2 ⟨k, List.mem_filter.2 ⟨hk, by simp [he]⟩, by rw [he]⟩
  simp only [Bool.not_eq_true', List.contains_eq_mem, decide_eq_false_iff_not] at hfree
  exact hfree hin

theorem endStore_spec {s : State} {h : Handle} {m : Move} {f : Nat} (hl : h ∉ s.rack.lostHandles) (hss : (s.leaf h).inSs = false)
    (hread : s.readable h = true) (hf : s.freeSs m.section_ = some f) :
    (s.endStore h m).leaf h =
        { s.leaf h with moving := false, inSs := true, ssStale := false, ssFrame := f, ssSection := m.section_ } ∧
      (s.endStore h m).content h = s.content h ∧ (s.endStore h m).move? h = none ∧
      (∀ g, g ≠ h → (s.endStore h m).leaf g = s.leaf g) ∧ (s.endStore h m).rack.pool = s.rack.pool ∧
      s.endStore h m = { s with rack := (s.endStore h m).rack } := by
  obtain ⟨hleaf, hothers, hnone, hframe⟩ := endMove_spec hl
  unfold State.endStore
  dsimp only
  generalize s.endMove h = u at hleaf hothers hnone hframe ⊢
  have hlu : h ∉ u.rack.lostHandles := by rw [hframe]; exact hl
  have hsu : (u.leaf h).inSs = false := by rw [hleaf]; exact hss
  have hlost : u.rack.lostHandles = s.rack.lostHandles := by rw [hframe]
  have hru : u.readable h = true := by
    unfold State.readable at hread ⊢
    rw [hlost, hleaf]
    exact hread
  have hfu : u.freeSs m.section_ = some f := by rw [hframe]; exact hf
  have hcu : u.content h = s.content h := by
    have hpool : u.rack.pool = s.rack.pool := by rw [hframe]
    have hcellar : u.cellar = s.cellar := by rw [hframe]
    unfold State.content State.cellarFrame? Rack.frame
    rw [hleaf, hpool, hcellar]
    simp only [hss, Bool.false_and, Bool.false_eq_true, if_false]
  have htake : u.takeSs m.section_ = some (f, u) := by unfold State.takeSs; rw [hfu]
  rw [if_neg (by simp [hsu, hru]), htake]
  dsimp only
  rw [hcu]
  have hset := modLeaf_spec (s := u.modRack fun r => { r with ss := r.ss ++ [((m.section_, f), s.content h)] }) hlu
    fun e => { e with inSs := true, ssStale := false, ssFrame := f, ssSection := m.section_ }
  generalize (u.modRack fun r => { r with ss := r.ss ++ [((m.section_, f), s.content h)] }).modLeaf h
    (fun e => { e with inSs := true, ssStale := false, ssFrame := f, ssSection := m.section_ }) = v at hset ⊢
  obtain ⟨hleaf', hothers', hframe'⟩ := hset
  have hlv : v.leaf h =
      { s.leaf h with moving := false, inSs := true, ssStale := false, ssFrame := f, ssSection := m.section_ } := by
    have hmod : (u.modRack fun r => { r with ss := r.ss ++ [((m.section_, f), s.content h)] }).leaf h = u.leaf h := rfl
    rw [hleaf', hmod, hleaf]
  have hmoves : v.rack.moves = u.rack.moves := by rw [hframe']; rfl
  have hstore : v.rack.ss = u.rack.ss ++ [((m.section_, f), s.content h)] := by rw [hframe']; rfl
  refine ⟨hlv, ?_, by rw [State.move?, hmoves]; exact hnone, fun g hg => ?_, by rw [hframe', hframe]; rfl, by rw [hframe', hframe]; rfl⟩
  · have hfind : v.rack.ss.find? (fun k => k.1 == (m.section_, f)) = some ((m.section_, f), s.content h) := by
      rw [hstore, List.find?_append, List.find?_eq_none.2 fun k hk => by simpa using freeSs_unused hfu k hk]
      simp
    generalize s.content h = b at hfind ⊢
    unfold State.content State.ssCopy
    rw [hlv]
    dsimp only
    rw [hfind]
    rfl
  · rw [hothers' g hg]; exact hothers g hg

theorem afterErrors_unflawed {s : State} {h : Handle} {m : Move} (hm : s.move? h = some m) (hflawed : s.rack.flawed = [])
    (f : State → Move → State) : s.afterErrors h f = f s m := by
  unfold State.afterErrors
  rw [hm]
  dsimp only
  rw [meetErrors_none hflawed, if_pos hm]

theorem exec_sectionStoreCopyDone {s : State} {h : Handle} {m : Move} {f : Nat} (hl : h ∉ s.rack.lostHandles)
    (hm : s.move? h = some m) (hk : m.kind = .store) (hss : (s.leaf h).inSs = false) (hread : s.readable h = true)
    (hf : s.freeSs m.section_ = some f) (hflawed : s.rack.flawed = []) (hr : (s.leaf h).ref ≠ 0) :
    exec (.sectionStoreCopyDone h) s = .next (s.endStore h m) := by
  have hexec : exec (.sectionStoreCopyDone h) s = execSectionStoreCopyDone h s := rfl
  have href : ((s.endStore h m).leaf h).ref ≠ 0 := by rw [(endStore_spec hl hss hread hf).1]; exact hr
  rw [hexec, execSectionStoreCopyDone, hm]
  dsimp only
  rw [if_neg (by simp [hk]), afterErrors_unflawed hm hflawed, releaseMoved_of_ref href]

/-! ### Copies of weight leaves -/

/-- A copy of a leaf that the rack gives up: what the leaf is stays, and so does every other leaf. -/
structure CopyGone (s t : State) (h : Handle) : Prop where
  remote : (t.leaf h).remote = (s.leaf h).remote
  others : ∀ g, g ≠ h → t.leaf g = s.leaf g
  lost : t.rack.lostHandles = s.rack.lostHandles
  fetches : t.rack.fetches = s.rack.fetches
  belowMin : t.cellar.belowMin = s.cellar.belowMin
  frame : t = { s with rack := t.rack, cellar := t.cellar }

theorem CopyGone.refl (s : State) (h : Handle) : CopyGone s s h := ⟨rfl, fun _ _ => rfl, rfl, rfl, rfl, rfl⟩

theorem CopyGone.trans {s t u : State} {h : Handle} (a : CopyGone s t h) (b : CopyGone t u h) : CopyGone s u h :=
  ⟨b.remote.trans a.remote, fun g hg => (b.others g hg).trans (a.others g hg), b.lost.trans a.lost, b.fetches.trans a.fetches,
    b.belowMin.trans a.belowMin, by rw [b.frame, a.frame]⟩

theorem LeafSet.copyGone {s t : State} {h : Handle} {e : Leaf} (l : LeafSet s t h e) (he : e.remote = (s.leaf h).remote) :
    CopyGone s t h :=
  ⟨by rw [l.leaf, he], l.others, by rw [l.frame], by rw [l.frame], by rw [l.frame], by rw [l.frame]⟩

theorem modLeaf_copyGone {s : State} {h : Handle} (hl : h ∉ s.rack.lostHandles) {f : Leaf → Leaf}
    (hf : (f (s.leaf h)).remote = (s.leaf h).remote) : CopyGone s (s.modLeaf h f) h :=
  (modLeaf_spec hl f).copyGone hf

theorem dropCellar_copyGone {s : State} {h : Handle} (hl : h ∉ s.rack.lostHandles) : CopyGone s (s.dropCellar h) h := by
  unfold State.dropCellar
  dsimp only
  split
  · have hstale : CopyGone s (s.staleFrame (s.leaf h).cellarFrame) h := ⟨rfl, fun _ _ => rfl, rfl, rfl, rfl, rfl⟩
    refine hstale.trans (modLeaf_copyGone ?_ rfl)
    exact hl
  · exact CopyGone.refl s h

theorem dropSs_copyGone {s : State} {h : Handle} (hl : h ∉ s.rack.lostHandles) : CopyGone s (s.dropSs h) h := by
  unfold State.dropSs
  dsimp only
  split
  · have hdropped : CopyGone s (s.modRack fun r => { r with ss := r.ss.filter fun k => k.1 != ((s.leaf h).ssSection, (s.leaf h).ssFrame) }) h :=
      ⟨rfl, fun _ _ => rfl, rfl, rfl, rfl, rfl⟩
    refine hdropped.trans (modLeaf_copyGone ?_ rfl)
    exact hl
  · exact CopyGone.refl s h

theorem copyStored_spec {s : State} {h : Handle} (hl : h ∉ s.rack.lostHandles) (hm : s.move? h = none) (f : Nat) (b : Bytes) :
    (s.copyStored h f b).rack.frame f = { b with form := .plain, poison := [] } ∧
      ((s.copyStored h f b).leaf h).inCask = true ∧ ((s.copyStored h f b).leaf h).caskFrame = f ∧
      ((s.copyStored h f b).leaf h).poisoned = false ∧
      ((s.copyStored h f b).leaf h).dirty = !(s.cellar.belowMin && (s.leaf h).remote) ∧
      (∀ g, g ≠ h → (s.copyStored h f b).leaf g = s.leaf g) ∧
      s.copyStored h f b = { s with rack := (s.copyStored h f b).rack, cellar := (s.copyStored h f b).cellar } := by
  have hpromotion : s.dropPromotion h = s := by unfold State.dropPromotion; rw [hm]
  have hcellar := dropCellar_copyGone hl
  unfold State.copyStored
  dsimp only
  rw [hpromotion]
  generalize s.dropCellar h = u at hcellar ⊢
  have hgone := hcellar.trans (dropSs_copyGone (by rw [hcellar.lost]; exact hl))
  generalize u.dropSs h = v at hgone ⊢
  obtain ⟨hremote, hothers, hlost, -, hbelow, hframe⟩ := hgone
  have hset := modLeaf_spec (s := v.setFrame f { b with form := .plain, poison := [] }) (by rw [← hlost] at hl; exact hl)
    fun e => { e with inCask := true, caskFrame := f, poisoned := false, dirty := !(v.cellar.belowMin && e.remote) }
  have hcellar' : (v.setFrame f { b with form := .plain, poison := [] }).cellar = v.cellar := rfl
  rw [hcellar']
  generalize (v.setFrame f { b with form := .plain, poison := [] }).modLeaf h
    (fun e => { e with inCask := true, caskFrame := f, poisoned := false, dirty := !(v.cellar.belowMin && e.remote) }) = w at hset ⊢
  obtain ⟨hleaf, hothers', hframe'⟩ := hset
  have hsame (g : Handle) : (v.setFrame f { b with form := .plain, poison := [] }).leaf g = v.leaf g := rfl
  have hpool : w.rack.pool = alSet (Bytes.empty .plain) f { b with form := .plain, poison := [] } v.rack.pool := by rw [hframe']; rfl
  refine ⟨by rw [Rack.frame, hpool, alGet_alSet_same], by rw [hleaf], by rw [hleaf], by rw [hleaf], ?_, fun g hg => ?_, ?_⟩
  · rw [hleaf, hsame, hremote, hbelow]
  · rw [hothers' g hg, hsame, hothers g hg]
  · rw [hframe', hframe]; rfl

/-- What the end of a fetch leaves: the rack but for the fetches, and all but the fabric and what the commands wait for. -/
theorem copyEnded_spec (s : State) (h : Handle) : s.copyEnded h = { s with
    rack := { s.rack with fetches := s.rack.fetches.filter (· != h) },
    cmds := s.cmds.map fun c => { c with waits := c.waits.filter (· != h) }, fabric := (s.copyEnded h).fabric } := by
  have hunavailable (u : State) (x : Nat) (v : Bool) : u.setUnavailable x v = { u with fabric := (u.setUnavailable x v).fabric } := by
    unfold State.setUnavailable
    split <;> rfl
  unfold State.copyEnded
  dsimp only
  split
  · rfl
  · generalize ((s.endFetch h).arrived h).expertOf h = x
    rw [hunavailable]
    rfl

theorem exec_weightCopyArrival {s : State} {h : Handle} {f : Nat} (hin : h ∈ s.rack.fetches)
    (hf : if (s.leaf h).inCask then f = (s.leaf h).caskFrame else s.quotaFrame (s.leaf h).partition = some f)
    (data : List Byte) (tags : List (BitVec 4)) :
    exec (.weightCopyArrival h data tags) s = .next ((s.copyStored h f (leafStore data tags)).copyEnded h) := by
  have hexec : exec (.weightCopyArrival h data tags) s = execWeightCopyArrival h data tags s := rfl
  have hframe : (if (s.leaf h).inCask = true then some ((s.leaf h).caskFrame, s) else s.demandFrame (s.leaf h).partition) =
      some (f, s) := by
    split at hf
    next hcask => rw [if_pos hcask, hf]
    next hcask =>
      rw [if_neg hcask]
      unfold State.demandFrame
      rw [hf]
  rw [hexec, execWeightCopyArrival, if_pos (by simpa using hin), weightCopy_some hframe]

theorem weightCopyArrival_spec {s : State} {h : Handle} {f : Nat} {data : List Byte} {tags : List (BitVec 4)}
    (hin : h ∈ s.rack.fetches) (hl : h ∉ s.rack.lostHandles) (hm : s.move? h = none)
    (hf : if (s.leaf h).inCask then f = (s.leaf h).caskFrame else s.quotaFrame (s.leaf h).partition = some f) :
    ∃ t, exec (.weightCopyArrival h data tags) s = .next t ∧
      t.rack.frame f = { leafStore data tags with form := .plain, poison := [] } ∧
      (t.leaf h).inCask = true ∧ (t.leaf h).caskFrame = f ∧ (t.leaf h).poisoned = false ∧
      (t.leaf h).dirty = !(s.cellar.belowMin && (s.leaf h).remote) ∧ h ∉ t.rack.fetches ∧ (∀ c ∈ t.cmds, h ∉ c.waits) ∧
      (∀ g, g ≠ h → t.leaf g = s.leaf g) ∧
      t = { s with rack := t.rack, cellar := t.cellar, cmds := t.cmds, fabric := t.fabric } := by
  refine ⟨_, exec_weightCopyArrival hin hf data tags, ?_⟩
  generalize leafStore data tags = b
  have hstored := copyStored_spec hl hm f b
  generalize s.copyStored h f b = u at hstored ⊢
  obtain ⟨hpool, hcask, hframeNo, hpoisoned, hdirty, hothers, hframe⟩ := hstored
  have hended := copyEnded_spec u h
  generalize u.copyEnded h = t at hended ⊢
  have hleaf (g : Handle) : t.leaf g = u.leaf g := by rw [hended]; rfl
  refine ⟨by rw [hended]; exact hpool, by rw [hleaf, hcask], by rw [hleaf, hframeNo], by rw [hleaf, hpoisoned], by rw [hleaf, hdirty], ?_,
    fun c hc => ?_, fun g hg => by rw [hleaf, hothers g hg], by rw [hended, hframe]⟩
  · rw [hended]
    simp
  · rw [hended] at hc
    obtain ⟨x, -, rfl⟩ := List.mem_map.1 hc
    simp

/-! ### Fetches that time out -/

/-- Commands ended one after another: none of them is left, and the rest of what they waited for stays. -/
theorem foldl_aborted {f : State → Cmd → State}
    (h : ∀ u c, (∀ x ∈ (f u c).cmds, x ∈ u.cmds ∧ x.id ≠ c.id) ∧ (f u c).fetched = u.fetched) (l : List Cmd) (s : State) :
    (∀ c ∈ l, (l.foldl f s).cmd? c.id = none) ∧ (l.foldl f s).fetched = s.fetched := by
  have hall : (∀ x ∈ (l.foldl f s).cmds, x ∈ s.cmds ∧ ∀ c ∈ l, x.id ≠ c.id) ∧ (l.foldl f s).fetched = s.fetched := by
    induction l generalizing s with
    | nil => exact ⟨fun x hx => ⟨hx, fun c hc => absurd hc (by simp)⟩, rfl⟩
    | cons c l ih =>
      obtain ⟨hcmds, hfetched⟩ := h s c
      obtain ⟨hrest, hkept⟩ := ih (f s c)
      refine ⟨fun x hx => ?_, hkept.trans hfetched⟩
      obtain ⟨hmem, hne⟩ := hrest x hx
      obtain ⟨hfirst, hid⟩ := hcmds x hmem
      refine ⟨hfirst, fun d hd => ?_⟩
      rcases List.mem_cons.1 hd with rfl | hd
      · exact hid
      · exact hne d hd
  exact ⟨fun c hc => List.find?_eq_none.2 fun x hx => by simpa using (hall.1 x hx).2 c hc, hall.2⟩

theorem weightFetchTimeout_spec {s : State} {h : Handle} (hin : h ∈ s.rack.fetches) :
    ∃ t, exec (.weightFetchTimeout h) s = .next t ∧ h ∉ t.rack.fetches ∧
      (∀ c ∈ s.cmds, c.phase = .issued → h ∈ c.waits → t.cmd? c.id = none) ∧
      (s.expertOf h ≠ 0xFFFFFF → t.fabric.directory = s.fabric.directory.map fun e =>
        if e.1 = s.expertOf h then (e.1, e.2.set 0 (setBits (wd e.2 0) 21 21 1)) else e) := by
  have hexec : exec (.weightFetchTimeout h) s = execWeightFetchTimeout h s := rfl
  refine ⟨_, by rw [hexec, execWeightFetchTimeout, if_neg (by simpa using hin)], ?_⟩
  dsimp only
  generalize s.expertOf h = x
  have hcmds : ((s.endFetch h).setUnavailable x true).cmds = s.cmds := by
    unfold State.setUnavailable
    split <;> rfl
  have hfetches : ((s.endFetch h).setUnavailable x true).rack.fetches = s.rack.fetches.filter (· != h) := by
    unfold State.setUnavailable
    split <;> rfl
  have hdirectory (hx : x ≠ 0xFFFFFF) : ((s.endFetch h).setUnavailable x true).fabric.directory =
      s.fabric.directory.map fun e => if e.1 = x then (e.1, e.2.set 0 (setBits (wd e.2 0) 21 21 1)) else e := by
    unfold State.setUnavailable
    rw [if_neg hx]
    rfl
  generalize (s.endFetch h).setUnavailable x true = u at hcmds hfetches hdirectory ⊢
  have hstep (v : State) (c : Cmd) :
      (∀ y ∈ (v.killed.2.abort c cWeightLost v.killed.1 false (x == 0xFFFFFF)).cmds, y ∈ v.cmds ∧ y.id ≠ c.id) ∧
        (v.killed.2.abort c cWeightLost v.killed.1 false (x == 0xFFFFFF)).fetched = v.fetched := by
    have haborted := abort_spec v.killed.2 c cWeightLost v.killed.1 false (x == 0xFFFFFF)
    exact ⟨haborted.cmds, haborted.fetched⟩
  obtain ⟨hgone, hkept⟩ := foldl_aborted hstep (u.cmds.filter fun c => c.phase == .issued && c.waits.contains h) u
  generalize (u.cmds.filter fun c => c.phase == .issued && c.waits.contains h).foldl
    (fun s c => s.killed.2.abort c cWeightLost s.killed.1 false (x == 0xFFFFFF)) u = t at hgone hkept ⊢
  have hrack : t.rack.fetches = u.rack.fetches := congrArg (·.1) hkept
  have hfabric : t.fabric.directory = u.fabric.directory := congrArg (·.2) hkept
  refine ⟨by rw [hrack, hfetches]; simp, fun c hc hphase hwaits => hgone c ?_, fun hx => by rw [hfabric, hdirectory hx]⟩
  rw [hcmds]
  exact List.mem_filter.2 ⟨hc, by simp [hphase, hwaits]⟩

/-! ### Heat -/

/-- The leaves, the cellar, the control port and the commands: what a query that is sent leaves as it was. -/
def State.aboard (s : State) : Rack × Cellar × Port × List Cmd := (s.rack, s.cellar, s.port, s.cmds)

theorem aboard_of_offTransit {s t : State} (h : t.offTransit = s.offTransit) : t.aboard = s.aboard := by
  rw [frame_of_offTransit h]; rfl

theorem askLeaf_aboard (s : State) (h : Handle) (l : List (BitVec 20)) : (s.askLeaf h l).aboard = s.aboard := by
  unfold State.askLeaf
  split
  · rfl
  · refine (foldl_keeps State.aboard _ (fun u a => ?_) _ _).trans rfl
    exact aboard_of_offTransit (emitParcel_offTransit _ _)

theorem ageQueries_aboard (s : State) : s.ageQueries.aboard = s.aboard := by
  have hask (u : State) (q : Query) : (u.askOrigin q).aboard = u.aboard := by
    unfold State.askOrigin
    split
    · rfl
    · dsimp only
      split
      · split
        · rfl
        · exact askLeaf_aboard _ _ _
      · rfl
  exact foldl_keeps State.aboard _ hask _ _

theorem ageQueries_none {s : State} (h : s.fabric.queries = []) : s.ageQueries = s := by
  have hqueries : s.fabric.queries.map (fun q => { q with wait := q.wait - 1 }) = s.fabric.queries := by rw [h]; rfl
  have hmod : (s.modFabric fun f => { f with queries := f.queries.map fun q => { q with wait := q.wait - 1 } }) = s :=
    congrArg (fun l => { s with fabric := { s.fabric with queries := l } }) hqueries
  unfold State.ageQueries
  dsimp only
  rw [hmod, h]
  rfl

theorem heatEpoch_spec {s : State} (hconfig : s.power.config ≠ 0) (hpool : s.rack.poolSize ≠ 0) :
    ∃ t, exec .heatEpoch s = .next t ∧ t.rack.heatCount = s.rack.heatCount + 1 ∧
      t.rack.leaves = s.rack.leaves.map (fun e => (e.1,
        if 32768 ≤ (s.rack.heatCount + 1 + 65536 - e.2.age) % 65536 then
          { e.2 with age := (s.rack.heatCount + 1 + 32768) % 65536, heat := 0 } else e.2)) ∧
      (s.fabric.queries = [] →
        t = { s with rack := { s.rack with heatCount := t.rack.heatCount, leaves := t.rack.leaves } }) := by
  have hexec : exec .heatEpoch s = execHeatEpoch s := rfl
  rw [hexec, execHeatEpoch, if_neg (by simp [hconfig, hpool])]
  refine ⟨_, rfl, ?_⟩
  dsimp only
  generalize hu : ((s.modRack fun r => { r with heatCount := r.heatCount + 1 }).modRack fun r => { r with
    leaves := r.leaves.map fun e => (e.1, (s.modRack fun r => { r with heatCount := r.heatCount + 1 }).sweptLeaf e.2) }) = u
  have hrack : u.ageQueries.rack = u.rack := congrArg (·.1) (ageQueries_aboard u)
  have hcount : u.rack.heatCount = s.rack.heatCount + 1 := by rw [← hu]; rfl
  have hleaves : u.rack.leaves = s.rack.leaves.map (fun e => (e.1,
      if 32768 ≤ (s.rack.heatCount + 1 + 65536 - e.2.age) % 65536 then
        { e.2 with age := (s.rack.heatCount + 1 + 32768) % 65536, heat := 0 } else e.2)) := by rw [← hu]; rfl
  refine ⟨by rw [hrack, hcount], by rw [hrack, hleaves], fun hq => ?_⟩
  have hqueries : u.fabric.queries = [] := by rw [← hu]; exact hq
  rw [ageQueries_none hqueries, ← hu]
  rfl

end Sys2Proof.Machine

namespace Sys2Proof.Proofs
open Sys2Proof.Machine

/-- Settles O37: a leaf that lands, or whose copy is stored, has its one entry changed; the timeout ends the waiting commands one
by one. -/
theorem leavesArrive : Obligations.LeavesArrive := by
  unfold Obligations.LeavesArrive
  refine ⟨fun s h hl => ⟨fun m f hm hk hr hf => ?_, fun hread hcellar hnull => ?_, fun m f hm hk hss hread hf hflawed hr => ?_⟩,
    fun s => ⟨fun h data tags f hin hl hm _ hf => weightCopyArrival_spec hin hl hm hf, fun h hin => weightFetchTimeout_spec hin,
      fun hconfig hpool => heatEpoch_spec hconfig hpool⟩⟩
  · obtain ⟨hleaf, hmove, hframe, hothers, hpool, hland⟩ := landPromotion_spec hl hf
    refine ⟨_, exec_promotionDone hl hm hk hr hf, ?_⟩
    generalize s.landPromotion h = u at *
    have hresident := setResident_frame u
    generalize u.setResident = t at *
    have hrack : t.rack = u.rack := by rw [hresident]
    have hleaves (g : Handle) : t.leaf g = u.leaf g := by rw [State.leaf, State.leaf, hrack]
    refine ⟨by rw [hleaves, hleaf], by rw [State.move?, hrack]; exact hmove, by rw [hrack, hframe],
      fun g hg => by rw [hleaves, hothers g hg], fun n hn => by rw [hrack, hpool n hn], by rw [hresident, hland]⟩
  · have hexec : exec (.cellarDirectReadDone h) s = .next (s.arrived h) :=
      congrArg Host.Outcome.next (if_pos (by simp [hread, hcellar, hnull]))
    refine ⟨_, hexec, fun c hc => ?_, rfl⟩
    obtain ⟨x, -, rfl⟩ := List.mem_map.1 hc
    simp
  · exact ⟨_, exec_sectionStoreCopyDone hl hm hk hss hread hf hflawed hr, endStore_spec hl hss hread hf⟩

end Sys2Proof.Proofs
end

section
/-! SUPPORT. Write-backs (R288, R289): their start, their admission, the write buffer. -/

namespace Sys2Proof.Machine

/-! ### Moves started and admitted -/

/-- A move started: MOVING is set, and the move is the last of those under way. -/
structure MoveStarted (s t : State) (m : Move) : Prop where
  leaf : t.leaf m.handle = { s.leaf m.handle with moving := true }
  others : ∀ g, g ≠ m.handle → t.leaf g = s.leaf g
  frame : t = { s with rack := { s.rack with
    leaves := t.rack.leaves, logged := t.rack.logged, moves := s.rack.moves ++ [m] } }

theorem startMove_spec {s : State} {m : Move} (hl : m.handle ∉ s.rack.lostHandles) : MoveStarted s (s.startMove m) m := by
  obtain ⟨hleaf, hothers, hframe⟩ := modLeaf_spec (s := s.modRack fun r => { r with moves := r.moves ++ [m] }) hl
    fun e => { e with moving := true }
  unfold State.startMove
  exact ⟨hleaf, hothers, hframe⟩

theorem MoveStarted.moves {s t : State} {m : Move} (h : MoveStarted s t m) : t.rack.moves = s.rack.moves ++ [m] := by
  rw [h.frame]

theorem move?_append {s t : State} {m : Move} (hm : s.move? m.handle = none) (h : t.rack.moves = s.rack.moves ++ [m]) :
    t.move? m.handle = some m := by
  have hnone : s.rack.moves.find? (fun x => x.handle == m.handle) = none := hm
  rw [State.move?, h, List.find?_append, hnone]
  simp

theorem exec_earlyWriteBack {s : State} {h : Handle} {part : Nat} (hpart : part < s.partCount)
    (hclean : s.cleanCount part < bits (s.sys 6) 31 16) (hage : s.ageAllows part h = true)
    (hone : ∀ m ∈ s.rack.moves, m.kind ≠ .early ∨ (s.leaf m.handle).partition ≠ part) (hpoison : (s.leaf h).poisoned = false)
    (hmin : s.cellar.belowMin = false) (hfull : s.cellarFull (s.leaf h).partition = false) (hopen : s.govOpen = true) :
    exec (.earlyWriteBack part h) s = .next ((s.govTake.startMove { handle := h, kind := .early, section_ := 0, admitted := true }).modLeaf h
      fun e => { e with dirty := false }) := by
  have hexec : exec (.earlyWriteBack part h) s = execEarlyWriteBack part h s := rfl
  have hnone : (s.rack.moves.any fun m => m.kind == .early && (s.leaf m.handle).partition == part) = false := by
    rw [List.any_eq_false]
    intro m hm
    rcases hone m hm with hk | hp
    · simp [hk]
    · simp [hp]
  have hstart : s.startWriteBack h .early .none_ =
      (s.govTake.startMove { handle := h, kind := .early, section_ := 0, admitted := true }).modLeaf h
        fun e => { e with dirty := false } := by
    unfold State.startWriteBack
    dsimp only
    rw [if_neg (by simp [hpoison]), if_neg (by simp [hmin, hfull]), if_pos hopen]
  rw [hexec, execEarlyWriteBack, if_pos (by simp [hpart, hclean, hage, hnone]), hstart]

theorem earlyWriteBack_spec {s : State} {h : Handle} (hl : h ∉ s.rack.lostHandles) :
    ∀ t, t = (s.govTake.startMove { handle := h, kind := .early, section_ := 0, admitted := true }).modLeaf h
        (fun e => { e with dirty := false }) →
      t.leaf h = { s.leaf h with moving := true, dirty := false } ∧
        t.rack.moves = s.rack.moves ++ [{ handle := h, kind := .early, section_ := 0, admitted := true }] ∧
        t.cellar.level = s.cellar.level - frameDraw ∧ (∀ g, g ≠ h → t.leaf g = s.leaf g) ∧
        t = { s with rack := t.rack, cellar := { s.cellar with level := t.cellar.level, peakAt := t.cellar.peakAt } } := by
  rintro t ht
  obtain ⟨hleaf, hothers, hframe⟩ := startMove_spec (s := s.govTake)
    (m := { handle := h, kind := .early, section_ := 0, admitted := true }) hl
  generalize s.govTake.startMove { handle := h, kind := .early, section_ := 0, admitted := true } = u at *
  obtain ⟨hleaf', hothers', hframe'⟩ := modLeaf_spec (s := u) (h := h) (by rw [hframe]; exact hl) fun e => { e with dirty := false }
  rw [← ht] at hleaf' hothers' hframe'
  refine ⟨by rw [hleaf', hleaf]; rfl, by rw [hframe', hframe]; rfl, by rw [hframe', hframe]; rfl,
    fun g hg => by rw [hothers' g hg, hothers g hg]; rfl, by rw [hframe', hframe]; rfl⟩

/-! ### Admission -/

theorem modMove_move? {s t : State} {h : Handle} {m : Move} {f : Move → Move} (hm : s.move? h = some m)
    (hf : ∀ m, (f m).handle = m.handle) (ht : t.rack.moves = (s.modMove h f).rack.moves) : t.move? h = some (f m) := by
  have hfind : s.rack.moves.find? (fun x => x.handle == h) = some m := hm
  have hkey : ((fun x : Move => x.handle == h) ∘ fun m => if m.handle == h then f m else m) = fun x => x.handle == h := by
    funext x
    simp only [Function.comp]
    split
    next he => rw [hf]
    next => rfl
  have hmoves : t.rack.moves = s.rack.moves.map fun m => if m.handle == h then f m else m := ht
  rw [State.move?, hmoves, List.find?_map, hkey, hfind, Option.map_some, if_pos (List.find?_some hfind)]

theorem admitMove_spec {s : State} {h : Handle} {m : Move} (hl : h ∉ s.rack.lostHandles) (hm : s.move? h = some m) :
    ∀ t, t = s.admitMove h m → t.move? h = some { m with admitted := true } ∧
      t.leaf h = (if m.kind.writes then { s.leaf h with dirty := false } else s.leaf h) ∧
      t.cellar.level = s.cellar.level - frameDraw ∧ s.now.toNat ≤ t.cellar.peakAt ∧ (∀ g, g ≠ h → t.leaf g = s.leaf g) ∧
      t = { s with rack := t.rack, cellar := { s.cellar with level := t.cellar.level, peakAt := t.cellar.peakAt } } := by
  rintro t ht
  have hpeak : s.now.toNat ≤ s.govTake.cellar.peakAt := Nat.le_trans (Nat.le_max_left _ s.cellar.peakAt) (Nat.le_add_right _ _)
  have hmoved : s.govTake.move? h = some m := hm
  have hadmitted (u : State) (hu : u.rack.moves = (s.govTake.modMove h fun m => { m with admitted := true }).rack.moves) :
      u.move? h = some { m with admitted := true } := modMove_move? (f := fun m => { m with admitted := true }) hmoved (fun _ => rfl) hu
  unfold State.admitMove at ht
  dsimp only at ht
  split at ht
  · obtain ⟨hleaf, hothers, hframe⟩ := modLeaf_spec (s := s.govTake.modMove h fun m => { m with admitted := true }) (h := h) hl
      fun e => { e with dirty := false }
    rw [← ht] at hleaf hothers hframe
    rw [if_pos ‹_›]
    exact ⟨hadmitted t (by rw [hframe]), hleaf, by rw [hframe]; rfl, by rw [hframe]; exact hpeak, hothers, by rw [hframe]; rfl⟩
  · rw [if_neg ‹_›]
    subst ht
    exact ⟨hadmitted _ rfl, rfl, rfl, hpeak, fun _ _ => rfl, rfl⟩

theorem exec_writeBackAdmitted {s : State} {h : Handle} {m : Move} (hm : s.move? h = some m) (had : m.admitted = false)
    (hopen : s.govOpen = true) (hflawed : s.rack.flawed = []) :
    exec (.writeBackAdmitted h) s = .next (s.admitMove h m) := by
  have hexec : exec (.writeBackAdmitted h) s = execWriteBackAdmitted h s := rfl
  rw [hexec, execWriteBackAdmitted, hm]
  dsimp only
  rw [if_neg (by simp [had, hopen]), afterErrors_unflawed hm hflawed]

theorem exec_writeBackAdmitted_none {s : State} {h : Handle} (hm : s.move? h = none) :
    exec (.writeBackAdmitted h) s = .next (s.startRewrite h) := by
  have hexec : exec (.writeBackAdmitted h) s = execWriteBackAdmitted h s := rfl
  rw [hexec, execWriteBackAdmitted, hm]

/-- A rewrite that has waited starts at once where the governor is open. -/
theorem startRewrite_spec {s : State} {h : Handle} (hl : h ∉ s.rack.lostHandles) (hm : s.move? h = none) (hin : h ∈ s.rack.rewrites)
    (hmin : s.cellar.belowMin = false) (hcellar : (s.leaf h).inCellar = true) (hopen : s.govOpen = true) :
    h ∉ (s.startRewrite h).rack.rewrites ∧
      (s.startRewrite h).move? h = some { handle := h, kind := .soft, section_ := 0, admitted := true } ∧
      (s.startRewrite h).leaf h = { s.leaf h with moving := true } ∧
      (s.startRewrite h).cellar.level = s.cellar.level - frameDraw ∧
      s.startRewrite h = { s with
        rack := (s.startRewrite h).rack
        cellar := { s.cellar with level := (s.startRewrite h).cellar.level, peakAt := (s.startRewrite h).cellar.peakAt } } := by
  have hstart : s.startRewrite h = ((s.modRack fun r => { r with rewrites := r.rewrites.filter (· != h) }).govTake).startMove
      { handle := h, kind := .soft, section_ := 0, admitted := true } := by
    have hopen' : (s.modRack fun r => { r with rewrites := r.rewrites.filter (· != h) }).govOpen = true := hopen
    have hcellar' : ((s.modRack fun r => { r with rewrites := r.rewrites.filter (· != h) }).leaf h).inCellar = true := hcellar
    unfold State.startRewrite
    rw [if_neg (by simp [hin, hmin])]
    dsimp only
    rw [if_neg (by simp [hcellar']), hopen']
    rfl
  rw [hstart]
  have hmove := startMove_spec (s := (s.modRack fun r => { r with rewrites := r.rewrites.filter (· != h) }).govTake)
    (m := { handle := h, kind := .soft, section_ := 0, admitted := true }) hl
  have hnone : ((s.modRack fun r => { r with rewrites := r.rewrites.filter (· != h) }).govTake).move? h = none := hm
  have hfound := move?_append (m := { handle := h, kind := .soft, section_ := 0, admitted := true }) hnone hmove.moves
  obtain ⟨hleaf, -, hframe⟩ := hmove
  generalize ((s.modRack fun r => { r with rewrites := r.rewrites.filter (· != h) }).govTake).startMove
    { handle := h, kind := .soft, section_ := 0, admitted := true } = t at *
  exact ⟨by rw [hframe]; simp [State.govTake, State.govDraw, State.modCellar, State.modRack], hfound, hleaf, by rw [hframe]; rfl,
    by rw [hframe]; rfl⟩

/-! ### The write buffer -/

/-- A copy with a poisoned sector is not written. -/
theorem writeBufferAccept_poisoned {s : State} {h : Handle} {m : Move} (hl : h ∉ s.rack.lostHandles) (hm : s.move? h = some m)
    (had : m.admitted = true) (hk : m.kind.writes = true) (hr : (s.leaf h).ref ≠ 0)
    (hp : (s.rack.frame (s.leaf h).caskFrame).poison ≠ []) :
    ∃ t, exec (.writeBufferAccept h) s = .next t ∧ t.move? h = none ∧
      t.leaf h = { s.leaf h with moving := false, dirty := true } ∧ t = { s with rack := t.rack } := by
  have hexec : exec (.writeBufferAccept h) s = execWriteBufferAccept h s := rfl
  have hended := endMove_spec hl
  have hpoisoned : (s.rack.frame (s.leaf h).caskFrame).poison.isEmpty = false := List.isEmpty_eq_false_iff.2 hp
  have hgoes : exec (.writeBufferAccept h) s =
      .next (((s.endMove h).modLeaf h fun e => { e with dirty := true }).releaseMoved h) := by
    rw [hexec, execWriteBufferAccept, hm]
    dsimp only
    rw [if_neg (by simp [had]), if_pos (by rw [hk, hpoisoned]; rfl)]
  rw [hgoes]
  generalize s.endMove h = u at *
  obtain ⟨hleaf, hothers, hmove, hframe⟩ := hended
  obtain ⟨hleaf', hothers', hframe'⟩ := modLeaf_spec (s := u) (h := h) (by rw [hframe]; exact hl) fun e => { e with dirty := true }
  generalize u.modLeaf h (fun e => { e with dirty := true }) = v at *
  have hv : v.leaf h = { s.leaf h with moving := false, dirty := true } := by rw [hleaf', hleaf]
  have hmoves : v.rack.moves = u.rack.moves := by rw [hframe']
  refine ⟨v, by rw [releaseMoved_of_ref (by rw [hv]; exact hr)], by rw [State.move?, hmoves]; exact hmove, hv,
    by rw [hframe', hframe]⟩

/-- A frame taken into the write buffer: the cellar alone changes, and the frame holds what was written, under the leaf's handle. -/
theorem acceptFrame_spec {s u : State} {h : Handle} {b : Bytes} {f : Nat} (ha : s.acceptFrame h b = some (f, u)) :
    (∃ x, (f, x) ∈ u.cellar.frames ∧ x.handle = w32 h ∧ x.data = b) ∧ u = { s with cellar := u.cellar } := by
  unfold State.acceptFrame State.acceptAs at ha
  split at ha
  · exact absurd ha (by simp)
  · obtain ⟨rfl, rfl⟩ := Prod.mk.inj (Option.some.inj ha)
    exact ⟨⟨_, List.mem_append_right _ (List.mem_singleton.2 rfl), rfl, rfl⟩, rfl⟩

/-- A leaf's new frame entered. -/
structure FrameEntered (s t : State) (h : Handle) (f : Nat) : Prop where
  leaf : t.leaf h = { s.leaf h with inCellar := true, cellarFrame := f }
  others : ∀ g, g ≠ h → t.leaf g = s.leaf g
  held : ∀ n x, (n, x) ∈ s.cellar.frames → ∃ y, (n, y) ∈ t.cellar.frames ∧ y.handle = x.handle ∧ y.data = x.data
  frame : t = { s with rack := { s.rack with leaves := t.rack.leaves, logged := t.rack.logged }, cellar := t.cellar }

theorem staleFrame_held (s : State) (f n : Nat) (x : CellarFrame) (h : (n, x) ∈ s.cellar.frames) :
    ∃ y, (n, y) ∈ (s.staleFrame f).cellar.frames ∧ y.handle = x.handle ∧ y.data = x.data := by
  by_cases hn : n = f
  · exact ⟨{ x with current := false }, List.mem_map.2 ⟨(n, x), h, by simp [hn]⟩, rfl, rfl⟩
  · exact ⟨x, List.mem_map.2 ⟨(n, x), h, by simp [hn]⟩, rfl, rfl⟩

theorem enterFrame_spec {s : State} {h : Handle} (hl : h ∉ s.rack.lostHandles) (f : Nat) : FrameEntered s (s.enterFrame h f) h f := by
  unfold State.enterFrame
  dsimp only
  split
  · have hheld := staleFrame_held s (s.leaf h).cellarFrame
    have hstale : s.staleFrame (s.leaf h).cellarFrame = { s with cellar := (s.staleFrame (s.leaf h).cellarFrame).cellar } := rfl
    generalize s.staleFrame (s.leaf h).cellarFrame = u at *
    obtain ⟨hleaf, hothers, hframe⟩ := modLeaf_spec (s := u) (h := h) (by rw [hstale]; exact hl)
      fun e => { e with inCellar := true, cellarFrame := f }
    generalize u.modLeaf h (fun e => { e with inCellar := true, cellarFrame := f }) = v at *
    have hsame (g : Handle) : u.leaf g = s.leaf g := by rw [hstale]; rfl
    have hcellar : v.cellar = u.cellar := by rw [hframe]
    exact ⟨by rw [hleaf, hsame], fun g hg => by rw [hothers g hg, hsame], by rw [hcellar]; exact hheld, by rw [hframe, hstale]⟩
  · obtain ⟨hleaf, hothers, hframe⟩ := modLeaf_spec (s := s) (h := h) hl fun e => { e with inCellar := true, cellarFrame := f }
    generalize s.modLeaf h (fun e => { e with inCellar := true, cellarFrame := f }) = v at *
    have hcellar : v.cellar = s.cellar := by rw [hframe]
    exact ⟨hleaf, hothers, fun n x hx => ⟨x, by rw [hcellar]; exact hx, rfl, rfl⟩, by rw [hframe]⟩

/-- The cask copy of a leaf given up. -/
theorem dropCask_spec {s : State} {h : Handle} (hl : h ∉ s.rack.lostHandles) :
    (s.dropCask h).leaf h = { s.leaf h with inCask := false, caskFrame := 0 } ∧
      (∀ g, g ≠ h → (s.dropCask h).leaf g = s.leaf g) ∧
      s.dropCask h = { s with rack := { s.rack with
        leaves := (s.dropCask h).rack.leaves, logged := (s.dropCask h).rack.logged, pool := (s.dropCask h).rack.pool } } := by
  unfold State.dropCask
  obtain ⟨hleaf, hothers, hframe⟩ := modLeaf_spec (s := s.dropFrame (s.leaf h).caskFrame) (h := h) hl
    fun e => { e with inCask := false, caskFrame := 0 }
  generalize (s.dropFrame (s.leaf h).caskFrame).modLeaf h (fun e => { e with inCask := false, caskFrame := 0 }) = t at *
  exact ⟨hleaf, hothers, by rw [hframe]; rfl⟩

/-- A freed frame that no leaf asked for goes to the stream that did. -/
theorem giveFrame_spec (s : State) {w : Wanter} (hw : ∀ g, w ≠ .leaf g) (f : Nat) :
    (∀ i, w = .stream i → (∃ c ∈ s.cmds, c.starved = true ∧ i ∈ c.shape.rows) → (i, f) ∈ (s.giveFrame w f).rack.grants) ∧
      s.giveFrame w f = { s with rack := { s.rack with grants := (s.giveFrame w f).rack.grants } } := by
  cases w with
  | none_ => exact ⟨fun i hi => by simp at hi, rfl⟩
  | leaf g => exact absurd rfl (hw g)
  | stream j =>
    simp only [State.giveFrame]
    refine ⟨fun i hi hwaits => ?_, by split <;> rfl⟩
    obtain rfl : j = i := by simpa using hi
    obtain ⟨c, hc, hstarved, hrow⟩ := hwaits
    rw [if_pos (List.any_eq_true.2 ⟨c, hc, by simp [hstarved, hrow]⟩)]
    exact List.mem_append_right _ (List.mem_singleton.2 rfl)

/-- A write-back for an eviction of a leaf that nothing wrote or pinned meanwhile. -/
theorem endWriteBack_evict {s : State} {h : Handle} {m : Move} {f : Nat} (hl : h ∉ s.rack.lostHandles) (hk : m.kind = .evict)
    (hw : ∀ g, m.want ≠ .leaf g) (hd : (s.leaf h).dirty = false) (hp : (s.leaf h).pin = 0) (ht : (s.leaf h).tierPinned = false) :
    (s.endWriteBack h m f).leaf h =
        { s.leaf h with inCellar := true, cellarFrame := f, inCask := false, caskFrame := 0, moving := false } ∧
      (∀ i, m.want = .stream i → (∃ c ∈ s.cmds, c.starved = true ∧ i ∈ c.shape.rows) →
        (i, (s.leaf h).caskFrame) ∈ (s.endWriteBack h m f).rack.grants) ∧
      (∀ n x, (n, x) ∈ s.cellar.frames →
        ∃ y, (n, y) ∈ (s.endWriteBack h m f).cellar.frames ∧ y.handle = x.handle ∧ y.data = x.data) ∧
      (s.endWriteBack h m f).move? h = none ∧ (∀ g, g ≠ h → (s.endWriteBack h m f).leaf g = s.leaf g) ∧
      s.endWriteBack h m f = { s with rack := (s.endWriteBack h m f).rack, cellar := (s.endWriteBack h m f).cellar } := by
  have hends : s.endWriteBack h m f = (((s.enterFrame h f).endMove h).dropCask h).giveFrame m.want (s.leaf h).caskFrame := by
    unfold State.endWriteBack
    dsimp only
    rw [if_neg (by simp [hd]), if_pos (by simp [hk, hp, ht])]
  rw [hends]
  obtain ⟨hleaf, hothers, hheld, hframe⟩ := enterFrame_spec hl f
  generalize s.enterFrame h f = u at *
  have hlu : h ∉ u.rack.lostHandles := by rw [hframe]; exact hl
  obtain ⟨hleaf2, hothers2, hmove, hframe2⟩ := endMove_spec hlu
  generalize u.endMove h = v at *
  have hlv : h ∉ v.rack.lostHandles := by rw [hframe2]; exact hlu
  obtain ⟨hleaf3, hothers3, hframe3⟩ := dropCask_spec hlv
  generalize v.dropCask h = w at *
  obtain ⟨hgrant, hframe4⟩ := giveFrame_spec w hw (s.leaf h).caskFrame
  generalize w.giveFrame m.want (s.leaf h).caskFrame = x at *
  have hcmds : w.cmds = s.cmds := by rw [hframe3, hframe2, hframe]
  have hsame (g : Handle) : x.leaf g = w.leaf g := by rw [hframe4]; rfl
  have hmoves : x.rack.moves = v.rack.moves := by rw [hframe4, hframe3]
  have hcellar : x.cellar = u.cellar := by rw [hframe4, hframe3, hframe2]
  rw [hcmds] at hgrant
  exact ⟨by rw [hsame, hleaf3, hleaf2, hleaf], hgrant, by rw [hcellar]; exact hheld, by rw [State.move?, hmoves]; exact hmove,
    fun g hg => by rw [hsame, hothers3 g hg, hothers2 g hg, hothers g hg], by rw [hframe4, hframe3, hframe2, hframe]⟩

theorem writeBufferAccept_evicts {s u : State} {h : Handle} {m : Move} {f : Nat} (hl : h ∉ s.rack.lostHandles)
    (hm : s.move? h = some m) (had : m.admitted = true) (hk : m.kind = .evict) (hw : ∀ g, m.want ≠ .leaf g)
    (hd : (s.leaf h).dirty = false) (hp : (s.leaf h).pin = 0) (ht : (s.leaf h).tierPinned = false) (hr : (s.leaf h).ref ≠ 0)
    (hpoison : (s.rack.frame (s.leaf h).caskFrame).poison = [])
    (ha : s.acceptFrame h (s.rack.frame (s.leaf h).caskFrame) = some (f, u)) :
    ∃ t x, exec (.writeBufferAccept h) s = .next t ∧
      t.leaf h = { s.leaf h with inCellar := true, cellarFrame := f, inCask := false, caskFrame := 0, moving := false } ∧
      (∀ i, m.want = .stream i → (∃ c ∈ s.cmds, c.starved = true ∧ i ∈ c.shape.rows) →
        (i, (s.leaf h).caskFrame) ∈ t.rack.grants) ∧
      (f, x) ∈ t.cellar.frames ∧ x.handle = w32 h ∧ x.data = s.rack.frame (s.leaf h).caskFrame ∧ t.move? h = none ∧
      (∀ g, g ≠ h → t.leaf g = s.leaf g) ∧ t = { s with rack := t.rack, cellar := t.cellar } := by
  have hexec : exec (.writeBufferAccept h) s = execWriteBufferAccept h s := rfl
  have hpoisoned : (s.rack.frame (s.leaf h).caskFrame).poison.isEmpty = true := by rw [hpoison]; rfl
  have hwrites : m.kind.writes = true := by rw [hk]; rfl
  have hgoes : exec (.writeBufferAccept h) s = .next ((u.endWriteBack h m f).releaseMoved h) := by
    rw [hexec, execWriteBufferAccept, hm]
    dsimp only
    rw [if_neg (by simp [had]), if_neg (by rw [hwrites, hpoisoned]; simp), if_pos hwrites, ha]
  obtain ⟨⟨x, hx, hhandle, hdata⟩, hu⟩ := acceptFrame_spec ha
  have hsame (g : Handle) : u.leaf g = s.leaf g := by rw [hu]; rfl
  have hends := endWriteBack_evict (s := u) (h := h) (m := m) (f := f) (by rw [hu]; exact hl) hk hw (by rw [hsame, hd]) (by rw [hsame, hp])
    (by rw [hsame, ht])
  generalize u.endWriteBack h m f = t at *
  obtain ⟨hleaf, hgrant, hheld, hmove, hothers, hframe⟩ := hends
  obtain ⟨y, hy, hyhandle, hydata⟩ := hheld f x hx
  have hcmds : u.cmds = s.cmds := by rw [hu]
  rw [hsame] at hleaf
  rw [hsame, hcmds] at hgrant
  refine ⟨t, y, by rw [hgoes, releaseMoved_of_ref (by rw [hleaf]; exact hr)], hleaf, hgrant, hy, by rw [hyhandle, hhandle],
    by rw [hydata, hdata], hmove, fun g hg => by rw [hothers g hg, hsame], by rw [hframe, hu]⟩

end Sys2Proof.Machine
end

section
/-! SUPPORT. The upkeep of the cellar (R291, R295, R301 to R303): programs, relocations, reclamation, spares and retired dies. -/

namespace Sys2Proof.Machine

/-! ### Programs -/

theorem nandProgram_spec {s : State} {n : Nat} {fr : CellarFrame}
    (hn : { s.cellar with frames := s.cellar.frames.filter fun f => f.2.programmed || f.2.current }.nextProgram = some (n, fr)) :
    ∃ t, exec .nandProgram s = .next t ∧ (∀ g ∈ t.cellar.frames, g.2.programmed = true ∨ g.2.current = true) ∧
      (∀ g ∈ t.cellar.frames, g.1 = n → g.2.programmed = true) ∧ t = { s with cellar := t.cellar, draws := t.draws } := by
  have hexec : exec .nandProgram s = execNandProgram s := rfl
  have hnext : (s.modCellar fun c => { c with frames := c.frames.filter fun f => f.2.programmed || f.2.current }).cellar.nextProgram =
      some (n, fr) := hn
  rw [hexec, execNandProgram]
  dsimp only
  rw [hnext]
  refine ⟨_, rfl, fun g hg => ?_, fun g hg hgn => ?_, rfl⟩
  · obtain ⟨x, hx, rfl⟩ := List.mem_map.1 hg
    have hkept := (List.mem_filter.1 hx).2
    split
    · exact Or.inl rfl
    · exact by simpa using hkept
  · obtain ⟨x, -, rfl⟩ := List.mem_map.1 hg
    by_cases hx : x.1 = n
    · simp [hx]
    · simp only [beq_iff_eq, hx, if_false] at hgn

/-! ### Relocations -/

/-- What a relocation leaves of a die: what is out of service, its spares, its erases and where its superblocks lie; it may open
one more. -/
structure DieKept (k k' : Die) : Prop where
  map : ∃ more, k'.map = k.map ++ more
  erases : k'.erases = k.erases
  bad : k'.bad = k.bad
  spares : k'.spares = k.spares
  retired : k'.retired = k.retired

theorem DieKept.refl (k : Die) : DieKept k k := ⟨⟨[], by simp⟩, rfl, rfl, rfl, rfl⟩

theorem DieKept.trans {k l m : Die} (a : DieKept k l) (b : DieKept l m) : DieKept k m := by
  obtain ⟨x, hx⟩ := a.map
  obtain ⟨y, hy⟩ := b.map
  exact ⟨⟨x ++ y, by rw [hy, hx, List.append_assoc]⟩, b.erases.trans a.erases, b.bad.trans a.bad, b.spares.trans a.spares,
    b.retired.trans a.retired⟩

theorem record_kept (k : Die) : DieKept k k.record := ⟨⟨[], by simp [Die.record]⟩, rfl, rfl, rfl, rfl⟩

theorem opened_kept {k k' : Die} {l page : Nat} (h : k.opened = some (k', l, page)) : DieKept k k' := by
  unfold Die.opened at h
  split at h
  · obtain ⟨rfl, -⟩ := Prod.mk.inj (Option.some.inj h)
    exact DieKept.refl k
  · split at h
    · obtain ⟨rfl, -⟩ := Prod.mk.inj (Option.some.inj h)
      exact ⟨⟨_, rfl⟩, rfl, rfl, rfl, rfl⟩
    · exact absurd h (by simp)

/-- Every die is kept. -/
def DiesKept (l l' : List Die) : Prop := ∀ (d : Nat) (k : Die), l[d]? = some k → ∃ k', l'[d]? = some k' ∧ DieKept k k'

theorem DiesKept.refl (l : List Die) : DiesKept l l := fun _ k hk => ⟨k, hk, DieKept.refl k⟩

theorem DiesKept.trans {a b c : List Die} (h : DiesKept a b) (g : DiesKept b c) : DiesKept a c := fun d k hk => by
  obtain ⟨x, hx, hkx⟩ := h d k hk
  obtain ⟨y, hy, hxy⟩ := g d x hx
  exact ⟨y, hy, hkx.trans hxy⟩

theorem modAt_diesKept {l : List Die} {i : Nat} {f : Die → Die} (hf : ∀ k, DieKept k (f k)) : DiesKept l (modAt l i f) := fun d k hk => by
  rw [modAt_getElem?]
  split
  · exact ⟨f k, by rw [hk]; rfl, hf k⟩
  · exact ⟨k, hk, DieKept.refl k⟩

theorem place_kept {c c' : Cellar} {n : Nat} (h : c.place = some (n, c')) : DiesKept c.dies c'.dies := by
  unfold Cellar.place at h
  dsimp only at h
  split at h
  · exact absurd h (by simp)
  next d _ =>
    split at h
    · exact absurd h (by simp)
    next k l page hopen =>
      obtain ⟨-, rfl⟩ := Prod.mk.inj (Option.some.inj h)
      obtain ⟨k0, hk0, hopened⟩ := Option.bind_eq_some_iff.1 hopen
      have hkept : DieKept k0 { k.record with open_ := some (l, page + 1) } := by
        obtain ⟨hmap, herases, hbad, hspares, hretired⟩ := (opened_kept hopened).trans (record_kept k)
        exact ⟨hmap, herases, hbad, hspares, hretired⟩
      intro j x hx
      dsimp only
      rw [List.getElem?_set]
      split
      next hd =>
        subst hd
        obtain ⟨hlt, -⟩ := List.getElem?_eq_some_iff.1 hx
        rw [hk0] at hx
        obtain rfl := Option.some.inj hx
        exact ⟨_, if_pos hlt, hkept⟩
      · exact ⟨x, hx, DieKept.refl x⟩

/-- What a relocation changes: the cellar, whose dies are kept, and the leaves. -/
structure Relocated (s t : State) : Prop where
  dies : DiesKept s.cellar.dies t.cellar.dies
  frame : t = { s with cellar := t.cellar, rack := { s.rack with leaves := t.rack.leaves, logged := t.rack.logged } }

theorem Relocated.refl (s : State) : Relocated s s := ⟨DiesKept.refl _, rfl⟩

theorem Relocated.trans {s t u : State} (h : Relocated s t) (g : Relocated t u) : Relocated s u :=
  ⟨h.dies.trans g.dies, by rw [g.frame, h.frame]⟩

theorem staleFrame_relocated (s : State) (f : Nat) : Relocated s (s.staleFrame f) := ⟨modAt_diesKept record_kept, rfl⟩

theorem modLeaf_relocated (s : State) (h : Handle) (f : Leaf → Leaf) : Relocated s (s.modLeaf h f) := by
  have hframe := setLeaf_frame s h (f (s.leaf h))
  unfold State.modLeaf
  generalize s.setLeaf h (f (s.leaf h)) = t at *
  have hcellar : t.cellar = s.cellar := by rw [hframe]
  exact ⟨by rw [hcellar]; exact DiesKept.refl _, by rw [hframe]⟩

theorem relocate_spec (s : State) (f : Nat × CellarFrame) (forced : Bool) : Relocated s (s.relocate f forced) := by
  unfold State.relocate
  split
  · exact Relocated.refl s
  next n c hplace =>
    dsimp only
    have hdies : DiesKept s.cellar.dies c.dies := place_kept hplace
    have hplaced : Relocated s { s with cellar := { c with
        frames := c.frames ++ [(n, { f.2 with writeSeq := c.writeSeq + 1, programmed := true })], writeSeq := c.writeSeq + 1 } } :=
      ⟨hdies, rfl⟩
    generalize ({ s with cellar := { c with
        frames := c.frames ++ [(n, { f.2 with writeSeq := c.writeSeq + 1, programmed := true })], writeSeq := c.writeSeq + 1 } } : State) = u at *
    have hnamed : Relocated u (if ((u.leaf f.2.handle.toNat).inCellar && (u.leaf f.2.handle.toNat).cellarFrame == f.1) = true then
        u.modLeaf f.2.handle.toNat fun e => { e with cellarFrame := n } else u) := by
      split
      · exact modLeaf_relocated _ _ _
      · exact Relocated.refl u
    generalize (if ((u.leaf f.2.handle.toNat).inCellar && (u.leaf f.2.handle.toNat).cellarFrame == f.1) = true then
        u.modLeaf f.2.handle.toNat fun e => { e with cellarFrame := n } else u) = v at *
    have hdrawn : Relocated v (if forced = true then v.govForce else v.govTake) := by
      split
      · exact ⟨DiesKept.refl _, rfl⟩
      · exact ⟨DiesKept.refl _, rfl⟩
    exact ((hplaced.trans hnamed).trans hdrawn).trans (staleFrame_relocated _ _)

theorem foldl_relocate (forced : Bool) (l : List (Nat × CellarFrame)) (s : State) :
    Relocated s (l.foldl (fun s f => s.relocate f forced) s) := by
  induction l generalizing s with
  | nil => exact Relocated.refl s
  | cons x xs ih => exact (relocate_spec s x forced).trans (ih _)

/-! ### Reclamation -/

/-- The erase of a mapped superblock counts once more at its place, and unmaps it. -/
theorem eraseBlock_spec {s : State} {d l p : Nat} {k : Die} (hk : s.cellar.dies[d]? = some k)
    (hp : (k.map.find? fun e => e.1 == l) = some (l, p)) :
    ∃ x, (s.eraseBlock d l).cellar.dies[d]? = some x ∧ (∀ e ∈ x.map, e.1 ≠ l) ∧ x.erasures p = k.erasures p + 1 ∧
      (∀ n, n ≠ p → x.erasures n = k.erasures n) ∧ x.bad = k.bad := by
  have herased : (s.eraseBlock d l).cellar.dies[d]? = some { k with
      erases := alSet 0 p (alGet 0 p k.erases + 1) k.erases, map := k.map.filter fun e => e.1 != l } := by
    simp only [State.eraseBlock, State.unmapBlock, State.modDie, State.modCellar]
    rw [modAt_getElem?, if_pos rfl, modAt_getElem?, if_pos rfl, hk, Option.map_some, Option.map_some, hp]
  exact ⟨_, herased, fun e he => by simpa using (List.mem_filter.1 he).2, alGet_alSet_same _ _ _ _,
    fun n hn => alGet_alSet_other _ _ _ _ _ hn, rfl⟩

theorem reclamation_spec {s : State} {die l p : Nat} {k : Die} (hk : s.cellar.dies[die]? = some k) (hretired : k.retired = false)
    (hfree : k.freeCount < 16) (hv : s.victim die k = some l) (hp : (k.map.find? fun e => e.1 == l) = some (l, p))
    (hlevel : ((s.framesIn die l).length : Int) * frameDraw ≤ s.cellar.level) (hpeak : s.cellar.peakAt ≤ s.now.toNat) :
    ∃ t x, exec (.reclamation die) s = .next t ∧ t.cellar.dies[die]? = some x ∧ (∀ e ∈ x.map, e.1 ≠ l) ∧
      x.erasures p = k.erasures p + 1 ∧ (∀ n, n ≠ p → x.erasures n = k.erasures n) ∧ x.bad = k.bad ∧
      t = { s with cellar := t.cellar, rack := { s.rack with leaves := t.rack.leaves, logged := t.rack.logged } } := by
  have hexec : exec (.reclamation die) s = execReclamation die s := rfl
  have hgoes : exec (.reclamation die) s =
      .next (((s.framesIn die l).foldl (fun s f => s.relocate f false) s).eraseBlock die l) := by
    have hgov : ¬ (decide (s.cellar.level < ((s.framesIn die l).length * frameDraw : Nat)) || decide (s.now.toNat < s.cellar.peakAt)) = true := by
      push_cast
      simp [hlevel, hpeak]
    rw [hexec, execReclamation, hk]
    dsimp only
    rw [if_neg (by simp [hretired, hfree]), hv]
    dsimp only
    rw [if_neg hgov]
  rw [hgoes]
  obtain ⟨hdies, hframe⟩ := foldl_relocate false (s.framesIn die l) s
  generalize (s.framesIn die l).foldl (fun s f => s.relocate f false) s = u at *
  obtain ⟨k', hk', ⟨more, hmap⟩, herases, hbad, -, -⟩ := hdies die k hk
  have hp' : (k'.map.find? fun e => e.1 == l) = some (l, p) := by rw [hmap, List.find?_append, hp]; rfl
  obtain ⟨x, hx, hunmapped, hplus, hothers, hxbad⟩ := eraseBlock_spec hk' hp'
  refine ⟨_, x, rfl, hx, hunmapped, ?_, fun n hn => ?_, hxbad.trans hbad, ?_⟩
  · rw [hplus, Die.erasures, Die.erasures, herases]
  · rw [hothers n hn, Die.erasures, Die.erasures, herases]
  · have herase : u.eraseBlock die l = { u with cellar := (u.eraseBlock die l).cellar } := rfl
    rw [herase, hframe]

/-! ### Superblocks that fail -/

theorem Carried.refit (s : State) (j : Nat) : Carried s (s.refit j) := by
  unfold State.refit
  split
  · exact Carried.refl s
  · dsimp only
    split
    · exact ⟨rfl, rfl, fun _ h => h⟩
    · have hmod (f : Plan → Plan) : Carried s (s.modPlan j f) := ⟨rfl, rfl, fun _ h => h⟩
      exact (hmod _).trans ((Carried.attention _ _ _ _ _).trans (Carried.foldl (fun u k => Carried.endReq u k cOverflow []) _ _))

theorem recapAs_pends {s : State} {k : Nat} (h : s.pends k = true) (quiet : Bool) (code : Code) : (s.recapAs quiet code).pends k = true := by
  have hcolophon (u : State) : u.recolophon.pends k = u.pends k := by rw [recolophon_frame]; rfl
  unfold State.recapAs
  dsimp only
  split
  · exact h
  · rw [hcolophon]
    refine (Carried.foldl Carried.refit (List.range 64) _).pends k ?_
    split
    · refine (Carried.attention _ _ _ _ _).pends k ?_
      exact h
    · exact h

theorem dies_modDie {s : State} {d : Nat} {k : Die} (hk : s.cellar.dies[d]? = some k) (f : Die → Die) :
    (s.modDie d f).cellar.dies[d]? = some (f k) := by
  simp only [State.modDie, State.modCellar]
  rw [modAt_getElem?, if_pos rfl, hk]
  rfl

/-- A superblock that fails, with its place out of service. -/
def Die.closed (k : Die) (block p : Nat) : Die :=
  { k with bad := k.bad ++ [p], open_ := if (k.open_.map (·.1)) = some block then none else k.open_ }

/-- The failed superblock's frames on other places, a spare in its stead. -/
def State.spared (s : State) (die block : Nat) : State :=
  (((s.framesIn die block).foldl (fun s f => s.relocate f true) s).unmapBlock die block).attention 2 cDone (w32 die) (w32 block)

theorem spared_spec {s : State} {die block : Nat} {k : Die} (hk : s.cellar.dies[die]? = some k) :
    (∃ x, (s.spared die block).cellar.dies[die]? = some x ∧ x.bad = k.bad ∧ x.spares = k.spares ∧ x.retired = k.retired ∧
      ∀ e ∈ x.map, e.1 ≠ block) ∧ (s.spared die block).port.attnPending.getLsbD 2 = true := by
  unfold State.spared
  obtain ⟨hdies, -⟩ := foldl_relocate true (s.framesIn die block) s
  generalize (s.framesIn die block).foldl (fun s f => s.relocate f true) s = u at *
  obtain ⟨k', hk', -, -, hbad, hspares, hretired⟩ := hdies die k hk
  have hunmapped : ((u.unmapBlock die block).attention 2 cDone (w32 die) (w32 block)).cellar.dies[die]? =
      some { k' with map := k'.map.filter fun e => e.1 != block } :=
    dies_modDie (s := u.modCellar fun c => { c with
      frames := c.frames.filter fun f => !(f.1 % 128 == die && superblock f.1 == block && !f.2.current) }) hk' _
  exact ⟨⟨_, hunmapped, hbad, hspares, hretired, fun e he => by simpa using (List.mem_filter.1 he).2⟩,
    attention_pending _ (by decide) _ _ _⟩

/-- A die's frames on other dies, and the die out of service. -/
def State.emptied (s : State) (die : Nat) : State :=
  let u := s.modDie die fun k => { k with retired := true, open_ := none }
  (u.cellar.frames.filter fun f => f.1 % 128 == die && f.2.current).foldl (fun s f => s.relocate f true) u

theorem emptied_spec {s : State} {die : Nat} {k : Die} (hk : s.cellar.dies[die]? = some k) :
    ∃ x, (s.emptied die).cellar.dies[die]? = some x ∧ x.bad = k.bad ∧ x.spares = k.spares ∧ x.retired = true := by
  have hmod := dies_modDie hk fun k => { k with retired := true, open_ := none }
  unfold State.emptied
  dsimp only
  generalize (s.modDie die fun k => { k with retired := true, open_ := none }) = u at *
  obtain ⟨hdies, -⟩ := foldl_relocate true (u.cellar.frames.filter fun f => f.1 % 128 == die && f.2.current) u
  obtain ⟨x, hx, -, -, hbad, hspares, hretired⟩ := hdies die _ hmod
  exact ⟨x, hx, hbad, hspares, hretired⟩

/-- A retirement told to the software and to the fabric. -/
def State.retireTold (s : State) (die : Nat) : State := (s.attention 2 cDone (w32 die) 0).recapAs true cDone

theorem retireTold_spec (s : State) (die : Nat) :
    (s.retireTold die).cellar = s.cellar ∧ (s.retireTold die).pends 2 = true :=
  ⟨congrArg (·.2) (recapAs_stock (s.attention 2 cDone (w32 die) 0) true cDone),
    recapAs_pends (attention_pending s (by decide) _ _ _) true cDone⟩

theorem retireDie_eq (s : State) (die : Nat) : s.retireDie die = (s.emptied die).checkMin.retireTold die := rfl

theorem checkMin_dies (s : State) : s.checkMin.cellar.dies = s.cellar.dies := by
  unfold State.checkMin
  split <;> rfl

theorem retireDie_spec {s : State} {die : Nat} {k : Die} (hk : s.cellar.dies[die]? = some k) :
    (∃ x, (s.retireDie die).cellar.dies[die]? = some x ∧ x.bad = k.bad ∧ x.spares = k.spares ∧ x.retired = true) ∧
      (s.retireDie die).pends 2 = true := by
  obtain ⟨x, hx, hkept⟩ := emptied_spec hk
  rw [retireDie_eq]
  generalize s.emptied die = u at *
  have hdies := checkMin_dies u
  generalize u.checkMin = v at *
  obtain ⟨hcellar, hpends⟩ := retireTold_spec v die
  exact ⟨⟨x, by rw [hcellar, hdies, hx], hkept⟩, hpends⟩

theorem programEraseFailure_spec {s : State} {die l p : Nat} {k : Die} (hk : s.cellar.dies[die]? = some k)
    (hretired : k.retired = false) (hp : (k.map.find? fun e => e.1 == l) = some (l, p)) :
    ∃ t x, exec (.programEraseFailure die l) s = .next t ∧ t.cellar.dies[die]? = some x ∧ x.bad = k.bad ++ [p] ∧
      t.port.attnPending.getLsbD 2 = true ∧
      (k.spares < 174 → x.spares = k.spares + 1 ∧ x.retired = false ∧ ∀ e ∈ x.map, e.1 ≠ l) ∧
      (174 ≤ k.spares → x.spares = k.spares ∧ x.retired = true) := by
  have hexec : exec (.programEraseFailure die l) s = execProgramEraseFailure die l s := rfl
  have hgoes : exec (.programEraseFailure die l) s = .next (if k.spares < 174 then
      ((s.modDie die fun k => k.closed l p).modDie die fun k => { k with spares := k.spares + 1 }).spared die l
      else (s.modDie die fun k => k.closed l p).retireDie die) := by
    rw [hexec, execProgramEraseFailure, hk]
    dsimp only
    rw [hp]
    dsimp only
    rw [if_neg (by simp [hretired])]
    rfl
  rw [hgoes]
  have hclosed := dies_modDie hk fun k => k.closed l p
  generalize (s.modDie die fun k => k.closed l p) = u at *
  by_cases hspares : k.spares < 174
  · rw [if_pos hspares]
    obtain ⟨⟨x, hx, hbad, hxspares, hxretired, hmap⟩, hraised⟩ :=
      spared_spec (block := l) (dies_modDie hclosed fun k => { k with spares := k.spares + 1 })
    exact ⟨_, x, rfl, hx, hbad, hraised, fun _ => ⟨hxspares, hxretired.trans hretired, hmap⟩, fun h => absurd hspares (by omega)⟩
  · rw [if_neg hspares]
    obtain ⟨⟨x, hx, hbad, hxspares, hxretired⟩, hraised⟩ := retireDie_spec hclosed
    exact ⟨_, x, rfl, hx, hbad, hraised, fun h => absurd h hspares, fun _ => ⟨hxspares, hxretired⟩⟩

end Sys2Proof.Machine
end

section
/-! SUPPORT. The error ladder of the cellar (R297 to R300). -/

namespace Sys2Proof.Machine

/-! ### The rungs -/

theorem exec_cellarReadDone {s : State} {h : Handle} (hin : (s.leaf h).inCellar = true) :
    exec (.cellarReadDone h .hard) s = .next s ∧ exec (.cellarReadDone h .retry) s = .next s.countRetry ∧
      exec (.cellarReadDone h .soft) s = .next (s.countRetry.rewriteLeaf h) ∧
      exec (.cellarReadDone h .uncorrectable) s = .next ((s.countRetry.cellarLost h).releaseMoved h) := by
  have hexec (r : Rung) : exec (.cellarReadDone h r) s = execCellarReadDone h r s := rfl
  refine ⟨?_, ?_, ?_, ?_⟩ <;> rw [hexec, execCellarReadDone, hin] <;> rfl

/-- A leaf that no move holds is rewritten at once where the governor is open. -/
theorem softRead_spec {s : State} {h : Handle} (hl : h ∉ s.rack.lostHandles) (hin : (s.leaf h).inCellar = true)
    (hmin : s.cellar.belowMin = false) (hmoving : (s.leaf h).moving = false) (hm : s.move? h = none) (hno : h ∉ s.rack.rewrites)
    (hopen : s.govOpen = true) :
    (s.countRetry.rewriteLeaf h).move? h = some { handle := h, kind := .soft, section_ := 0, admitted := true } ∧
      (s.countRetry.rewriteLeaf h).leaf h = { s.leaf h with moving := true } ∧
      (s.countRetry.rewriteLeaf h).cellar.retries = sat32 (s.cellar.retries + 1) := by
  have hrewrite : s.countRetry.rewriteLeaf h =
      (s.countRetry.modRack fun r => { r with rewrites := r.rewrites ++ [h] }).startRewrite h := by
    have hmoving' : ((s.countRetry.modRack fun r => { r with rewrites := r.rewrites ++ [h] }).leaf h).moving = false := hmoving
    have hmin' : s.countRetry.cellar.belowMin = false := hmin
    have hno' : s.countRetry.rack.rewrites.contains h = false := by
      have hno'' : h ∉ s.countRetry.rack.rewrites := hno
      simpa using hno''
    unfold State.rewriteLeaf
    dsimp only
    rw [if_neg (by rw [hmin', hno']; simp), if_neg (by rw [hmoving']; simp)]
  rw [hrewrite]
  have hretries : (s.countRetry.modRack fun r => { r with rewrites := r.rewrites ++ [h] }).cellar.retries = sat32 (s.cellar.retries + 1) := rfl
  have hleaf : (s.countRetry.modRack fun r => { r with rewrites := r.rewrites ++ [h] }).leaf h = s.leaf h := rfl
  have hinto : h ∈ (s.countRetry.modRack fun r => { r with rewrites := r.rewrites ++ [h] }).rack.rewrites :=
    List.mem_append_right _ (List.mem_singleton.2 rfl)
  obtain ⟨-, hmove, hstarted, -, hframe⟩ := startRewrite_spec (s := s.countRetry.modRack fun r => { r with rewrites := r.rewrites ++ [h] })
    (h := h) hl hm hinto hmin hin hopen
  generalize (s.countRetry.modRack fun r => { r with rewrites := r.rewrites ++ [h] }).startRewrite h = t at *
  generalize (s.countRetry.modRack fun r => { r with rewrites := r.rewrites ++ [h] }) = u at *
  exact ⟨hmove, by rw [hstarted, hleaf], by rw [hframe]; exact hretries⟩

/-! ### The last rung -/

/-- A leaf whose copy is lost: poisoned, its promotion given up, and the loss reported. -/
def State.lostLeaf (s : State) (h : Handle) : State :=
  let u := s.modCellar fun c => { c with uncorrectable := sat32 (c.uncorrectable + 1) }
  ((u.dropPromotion h).modLeaf h fun e => { e with poisoned := true }).reportFrame h (s.leaf h).cellarFrame cPoisoned

/-- What follows the loss: the owner of a mirror is told, a weight leaf is asked for, or the commands that wait end. -/
def State.lossEnded (s : State) (h : Handle) (f kind : Nat) : State :=
  if kind = 8 then
    match s.cellarFrame? f with
    | some c => s.mirrorLost c
    | none => s
  else if (s.weightPlace h).isSome then s.startFetch h
  else s.endWaiters h

theorem cellarLost_eq {s : State} {h : Handle} (hcask : (s.leaf h).inCask = false) : s.cellarLost h =
    (s.lostLeaf h).lossEnded h (s.leaf h).cellarFrame (((s.cellarFrame? (s.leaf h).cellarFrame).map (·.kind)).getD 0) := by
  unfold State.cellarLost
  dsimp only
  rw [if_neg (by simp [hcask])]
  rfl

theorem dropPromotion_spec {s : State} {h : Handle} (hl : h ∉ s.rack.lostHandles) :
    ((s.dropPromotion h).leaf h).ref = (s.leaf h).ref ∧ h ∉ (s.dropPromotion h).rack.lostHandles ∧
      s.dropPromotion h = { s with rack := (s.dropPromotion h).rack } := by
  unfold State.dropPromotion
  split
  · split
    · obtain ⟨hleaf, -, -, hframe⟩ := endMove_spec (s := s.dropFrame (s.leaf h).caskFrame) (h := h) hl
      generalize (s.dropFrame (s.leaf h).caskFrame).endMove h = u at *
      have hlu : h ∉ u.rack.lostHandles := by rw [hframe]; exact hl
      obtain ⟨hleaf', -, hframe'⟩ := modLeaf_spec hlu fun e => { e with caskFrame := 0 }
      generalize u.modLeaf h (fun e => { e with caskFrame := 0 }) = v at *
      exact ⟨by rw [hleaf', hleaf]; rfl, by rw [hframe']; exact hlu, by rw [hframe', hframe]; rfl⟩
    · exact ⟨rfl, hl, rfl⟩
  · exact ⟨rfl, hl, rfl⟩

theorem lostLeaf_spec {s : State} {h : Handle} (hl : h ∉ s.rack.lostHandles) :
    ((s.lostLeaf h).leaf h).poisoned = true ∧ ((s.lostLeaf h).leaf h).ref = (s.leaf h).ref ∧ (s.lostLeaf h).pends 2 = true ∧
      (s.lostLeaf h).cellar = { s.cellar with uncorrectable := sat32 (s.cellar.uncorrectable + 1) } ∧
      (s.lostLeaf h).cmds = s.cmds ∧ (s.lostLeaf h).slots = s.slots := by
  have hreport (u : State) (f : Nat) : (u.reportFrame h f cPoisoned).pends 2 = true := attention_pending u (by decide) _ _ _
  have hmod : s.modCellar (fun c => { c with uncorrectable := sat32 (c.uncorrectable + 1) }) =
    { s with cellar := { s.cellar with uncorrectable := sat32 (s.cellar.uncorrectable + 1) } } := rfl
  have hsame : ((s.modCellar fun c => { c with uncorrectable := sat32 (c.uncorrectable + 1) }).leaf h).ref = (s.leaf h).ref := rfl
  unfold State.lostLeaf
  dsimp only
  obtain ⟨href, hlost, hframe⟩ := dropPromotion_spec
    (s := s.modCellar fun c => { c with uncorrectable := sat32 (c.uncorrectable + 1) }) (h := h) hl
  rw [hsame] at href
  generalize (s.modCellar fun c => { c with uncorrectable := sat32 (c.uncorrectable + 1) }).dropPromotion h = u at *
  obtain ⟨hleaf, -, hframe'⟩ := modLeaf_spec hlost fun e => { e with poisoned := true }
  generalize u.modLeaf h (fun e => { e with poisoned := true }) = v at *
  have hvleaf : (v.reportFrame h (s.leaf h).cellarFrame cPoisoned).leaf h = v.leaf h := rfl
  have hvcellar : (v.reportFrame h (s.leaf h).cellarFrame cPoisoned).cellar = v.cellar := rfl
  have hvcmds : (v.reportFrame h (s.leaf h).cellarFrame cPoisoned).cmds = v.cmds := rfl
  have hvslots : (v.reportFrame h (s.leaf h).cellarFrame cPoisoned).slots = v.slots := rfl
  refine ⟨by rw [hvleaf, hleaf], by rw [hvleaf, hleaf]; exact href, hreport v _, ?_, ?_, ?_⟩
  · rw [hvcellar, hframe', hframe]; rfl
  · rw [hvcmds, hframe', hframe]; rfl
  · rw [hvslots, hframe', hframe]; rfl

theorem mirrorLost_aboard (s : State) (f : CellarFrame) : (s.mirrorLost f).aboard = s.aboard := by
  unfold State.mirrorLost
  dsimp only
  split
  · rfl
  · exact aboard_of_offTransit (emitParcel_offTransit _ _)

theorem startFetch_leaves (s : State) (h : Handle) :
    (s.startFetch h).rack.leaves = s.rack.leaves ∧ (s.startFetch h).cellar = s.cellar ∧ (s.startFetch h).port = s.port := by
  unfold State.startFetch
  split
  · exact ⟨rfl, rfl, rfl⟩
  split
  · exact ⟨rfl, rfl, rfl⟩
  next sl i _ =>
    have hasked := askLeaf_aboard (s.modRack fun r => { r with fetches := r.fetches ++ [h] }) h (s.fetchFrom sl i)
    generalize (s.modRack fun r => { r with fetches := r.fetches ++ [h] }).askLeaf h (s.fetchFrom sl i) = t at *
    have hrack : t.rack = { s.rack with fetches := s.rack.fetches ++ [h] } := congrArg (fun x => x.1) hasked
    have hcellar : t.cellar = s.cellar := congrArg (fun x => x.2.1) hasked
    have hport : t.port = s.port := congrArg (fun x => x.2.2.1) hasked
    exact ⟨by rw [hrack], hcellar, hport⟩

/-- Where no command waits for the leaf, what follows its loss leaves its entry, the cellar and the control port as they were. -/
theorem lossEnded_unwaited {s : State} {h : Handle} (hw : ∀ c ∈ s.cmds, c.phase = .issued → h ∉ c.waits) (f kind : Nat) :
    (s.lossEnded h f kind).leaf h = s.leaf h ∧ (s.lossEnded h f kind).cellar = s.cellar ∧ (s.lossEnded h f kind).port = s.port := by
  unfold State.lossEnded
  split
  · split
    next c _ =>
      have hlost := mirrorLost_aboard s c
      generalize s.mirrorLost c = t at *
      have hrack : t.rack = s.rack := congrArg (fun x => x.1) hlost
      have hcellar : t.cellar = s.cellar := congrArg (fun x => x.2.1) hlost
      have hport : t.port = s.port := congrArg (fun x => x.2.2.1) hlost
      exact ⟨by rw [State.leaf, hrack]; rfl, hcellar, hport⟩
    · exact ⟨rfl, rfl, rfl⟩
  split
  · obtain ⟨hleaves, hcellar, hport⟩ := startFetch_leaves s h
    exact ⟨by rw [State.leaf, hleaves]; rfl, hcellar, hport⟩
  · have hnone : (s.cmds.filter fun c => c.phase == .issued && c.waits.contains h) = [] :=
      List.filter_eq_nil_iff.2 fun c hc hwaits => by
        simp only [Bool.and_eq_true, beq_iff_eq, List.contains_eq_mem, decide_eq_true_eq] at hwaits
        exact hw c hc hwaits.1 hwaits.2
    unfold State.endWaiters
    rw [hnone]
    exact ⟨rfl, rfl, rfl⟩

theorem uncorrectable_unwaited {s : State} {h : Handle} (hl : h ∉ s.rack.lostHandles) (hin : (s.leaf h).inCellar = true)
    (hcask : (s.leaf h).inCask = false) (hr : (s.leaf h).ref ≠ 0) (hw : ∀ c ∈ s.cmds, c.phase = .issued → h ∉ c.waits) :
    ∃ t, exec (.cellarReadDone h .uncorrectable) s = .next t ∧ (t.leaf h).poisoned = true ∧
      t.cellar.retries = sat32 (s.cellar.retries + 1) ∧ t.cellar.uncorrectable = sat32 (s.cellar.uncorrectable + 1) ∧
      t.port.attnPending.getLsbD 2 = true := by
  obtain ⟨-, -, -, hexec⟩ := exec_cellarReadDone hin
  have hcask' : (s.countRetry.leaf h).inCask = false := hcask
  rw [hexec, cellarLost_eq hcask']
  have hlost := lostLeaf_spec (s := s.countRetry) (h := h) hl
  generalize s.countRetry.lostLeaf h = u at *
  obtain ⟨hpoisoned, href, hpends, hcellar, hcmds, -⟩ := hlost
  have hcmds' : u.cmds = s.cmds := hcmds
  obtain ⟨hleaf, hsame, hport⟩ := lossEnded_unwaited (s := u) (h := h) (by rw [hcmds']; exact hw) (s.countRetry.leaf h).cellarFrame
    (((s.countRetry.cellarFrame? (s.countRetry.leaf h).cellarFrame).map (·.kind)).getD 0)
  generalize u.lossEnded h (s.countRetry.leaf h).cellarFrame
    (((s.countRetry.cellarFrame? (s.countRetry.leaf h).cellarFrame).map (·.kind)).getD 0) = t at *
  refine ⟨t, by rw [releaseMoved_of_ref (by rw [hleaf, href]; exact hr)], by rw [hleaf, hpoisoned], by rw [hsame, hcellar]; rfl,
    by rw [hsame, hcellar]; rfl, ?_⟩
  rw [hport]
  exact hpends

/-! ### The commands that wait -/

theorem poisonEnd_ends (s : State) (c : Cmd) (h : Handle) :
    (∀ x ∈ (s.poisonEnd c [h]).cmds, x ∈ s.cmds ∧ x.id ≠ c.id) ∧ (s.poisonEnd c [h]).fetched = s.fetched := by
  have hlog : (s.logPoison h).cmds = s.cmds ∧ (s.logPoison h).fetched = s.fetched := by
    unfold State.logPoison
    split <;> exact ⟨rfl, rfl⟩
  have hfail := failCmd_spec (s.logPoison h) c cPoisoned
  have heq : s.poisonEnd c [h] = (s.logPoison h).failCmd c cPoisoned := rfl
  rw [heq]
  generalize s.logPoison h = u at *
  obtain ⟨hcmds, hfetched⟩ := hlog
  rw [← hcmds]
  exact ⟨hfail.cmds, hfail.fetched.trans hfetched⟩

theorem endWaiters_spec {s : State} {h : Handle} {c : Cmd} (hc : c ∈ s.cmds) (hp : c.phase = .issued) (hw : h ∈ c.waits) :
    (s.endWaiters h).cmd? c.id = none := by
  obtain ⟨hgone, -⟩ := foldl_aborted (fun u c => poisonEnd_ends u c h)
    (s.cmds.filter fun c => c.phase == .issued && c.waits.contains h) s
  exact hgone c (List.mem_filter.2 ⟨hc, by simp [hp, hw]⟩)

theorem uncorrectable_waiters {s : State} {h : Handle} {f : CellarFrame} (hl : h ∉ s.rack.lostHandles) (hin : (s.leaf h).inCellar = true)
    (hcask : (s.leaf h).inCask = false) (hf : s.cellarFrame? (s.leaf h).cellarFrame = some f) (hk : f.kind ≠ 8)
    (hplace : s.weightPlace h = none) :
    ∃ t, exec (.cellarReadDone h .uncorrectable) s = .next t ∧
      ∀ c ∈ s.cmds, c.phase = .issued → h ∈ c.waits → t.cmd? c.id = none := by
  obtain ⟨-, -, -, hexec⟩ := exec_cellarReadDone hin
  have hcask' : (s.countRetry.leaf h).inCask = false := hcask
  have hf' : s.countRetry.cellarFrame? (s.countRetry.leaf h).cellarFrame = some f := hf
  refine ⟨_, hexec, fun c hc hp hw => ?_⟩
  rw [cellarLost_eq hcask', hf', Option.map_some, Option.getD_some]
  have hlost := lostLeaf_spec (s := s.countRetry) (h := h) hl
  generalize s.countRetry.lostLeaf h = u at *
  obtain ⟨-, -, -, -, hcmds, hslots⟩ := hlost
  have hplace' : (u.weightPlace h).isSome = false := by
    have hnone : s.countRetry.weightPlace h = none := hplace
    unfold State.weightPlace at hnone ⊢
    rw [hslots, hnone]
    rfl
  have hends : u.lossEnded h (s.countRetry.leaf h).cellarFrame f.kind = u.endWaiters h := by
    unfold State.lossEnded
    rw [if_neg hk, if_neg (by rw [hplace']; simp)]
  have hgone := endWaiters_spec (s := u) (h := h) (by rw [hcmds]; exact hc) hp hw
  rw [hends]
  generalize u.endWaiters h = v at *
  have hreleased : (v.releaseMoved h).cmds = v.cmds := by
    rw [frame_of_offRack (State_releaseMoved_offRack v h)]
  rw [State.cmd?, hreleased]
  exact hgone

end Sys2Proof.Machine

namespace Sys2Proof.Proofs
open Sys2Proof.Machine

/-- Settles O38: moves that start, are admitted and end; the dies that relocations keep; the ladder's rungs. -/
theorem writeBacks : Obligations.WriteBacks := by
  unfold Obligations.WriteBacks
  refine ⟨fun s h hl => ⟨?_, ?_, ?_, ?_, ?_⟩, fun s => ⟨?_, ?_, ?_, ?_⟩⟩
  · intro part hpart hclean hage hone hpoison hmin hfull hopen
    exact ⟨_, exec_earlyWriteBack hpart hclean hage hone hpoison hmin hfull hopen, earlyWriteBack_spec hl _ rfl⟩
  · intro m hm had hopen hflawed
    exact ⟨_, exec_writeBackAdmitted hm had hopen hflawed, admitMove_spec hl hm _ rfl⟩
  · intro hm hin hmin hcellar hopen
    exact ⟨_, exec_writeBackAdmitted_none hm, startRewrite_spec hl hm hin hmin hcellar hopen⟩
  · intro m hm had hk hr hp
    exact writeBufferAccept_poisoned hl hm had hk hr hp
  · intro m f u hm had hk hw hd hp ht hr hpoison ha
    exact writeBufferAccept_evicts hl hm had hk hw hd hp ht hr hpoison ha
  · intro n fr hn
    exact nandProgram_spec hn
  · intro die k l p hk hretired hfree hv hp hlevel hpeak
    exact reclamation_spec hk hretired hfree hv hp hlevel hpeak
  · intro die k l p hk hretired hp
    exact programEraseFailure_spec hk hretired hp
  · intro h hin hl
    obtain ⟨hhard, hretry, hsoft, -⟩ := exec_cellarReadDone hin
    refine ⟨hhard, ⟨_, hretry, rfl⟩, fun hmin hmoving hm hno hopen => ?_, fun hcask hr hw => ?_, fun f hcask hf hk hplace => ?_⟩
    · exact ⟨_, hsoft, softRead_spec hl hin hmin hmoving hm hno hopen⟩
    · exact uncorrectable_unwaited hl hin hcask hr hw
    · exact uncorrectable_waiters hl hin hcask hf hk hplace

end Sys2Proof.Proofs
end

section
/-! SUPPORT. What the flip of a command leaves of the completion logs and of the commands (R137 to R140). -/

namespace Sys2Proof.Machine

/-! ### Effects made current -/

theorem ledger_of_offTransit {s t : State} (h : t.offTransit = s.offTransit) : t.ledger = s.ledger := by
  rw [frame_of_offTransit h]; rfl

theorem ledger_foldl {α : Type} {g : State → α → State} (h : ∀ s x, (g s x).ledger = s.ledger) (l : List α) (s : State) :
    (l.foldl g s).ledger = s.ledger := foldl_keeps State.ledger g h l s

theorem dropTo_offRack (s : State) (i : Nat) (h : Handle) : (s.dropTo i h).offRack = s.offRack := by
  unfold State.dropTo
  simp

theorem recount_offRack (s : State) (h : Handle) : (s.recount h).offRack = s.offRack := by
  unfold State.recount
  simp

theorem addRef_offRack (s : State) (h : Handle) : (s.addRef h).offRack = s.offRack := by
  unfold State.addRef
  simp

theorem putAt_ledger (s : State) (l : Loc) (a : Nat) (bs : List Byte) : (s.putAt l a bs).ledger = s.ledger := by
  cases l with
  | core c => rfl
  | sect k => rfl
  | leaf h => exact ledger_of_offRack (by simp [State.putAt])
  | image slot => exact ledger_of_offRack (by simp [State.putAt])
  | out o => rfl

theorem tagAt_ledger (s : State) (l : Loc) (blk : Nat) (t : BitVec 4) : (s.tagAt l blk t).ledger = s.ledger := by
  cases l with
  | leaf h => exact ledger_of_offRack (by simp [State.tagAt])
  | _ => rfl

theorem setAdvance_offRack (s : State) (i k : Nat) (new : Handle) (pos : Nat) : (s.setAdvance i k new pos).offRack = s.offRack := by
  unfold State.setAdvance
  simp [dropTo_offRack]

theorem cutHistory_offRack (s : State) (root : Handle) (pos : Nat) : (s.cutHistory root pos).offRack = s.offRack := by
  unfold State.cutHistory
  simp [recount_offRack]

theorem trimTo_ledger (s : State) (i pos : Nat) : (s.trimTo i pos).ledger = s.ledger := by
  unfold State.trimTo
  dsimp only
  split
  · rfl
  · exact (ledger_of_offRack (cutHistory_offRack _ _ _)).trans rfl

theorem makeChild_ledger (s : State) (i parent : Nat) (root copy : Handle) : (s.makeChild i parent root copy).ledger = s.ledger := by
  have hset (u : State) (e : Stream) : ((u.setStream i e).retier i).ledger = u.ledger := retier_ledger (u.setStream i e) i
  unfold State.makeChild
  dsimp only
  rw [hset, ledger_of_offRack (State_modLeaf_offRack _ _ _)]
  split
  · exact ledger_of_offRack (addRef_offRack _ _)
  · rfl

theorem sendRelease_ledger (s : State) (i : Nat) : (s.sendRelease i).ledger = s.ledger := by
  have hflush (u : State) (b : BitVec 20) : (u.flushMirror b i).ledger = u.ledger := by
    unfold State.flushMirror
    dsimp only
    split
    · split
      · rfl
      · rw [ledger_of_offTransit (sendManifest_offTransit _ _ _ _)]
        exact ledger_foldl (fun v h => ledger_of_offTransit (sendMirrorLeaf_offTransit _ _ _ _ _ _ _ _)) _ _
    · rfl
  unfold State.sendRelease
  split
  · rw [ledger_of_offTransit (emitParcel_offTransit _ _), hflush]
  · rfl

theorem freeStream_ledger (s : State) (i : Nat) : (s.freeStream i).ledger = s.ledger := by
  have hset (u : State) (e : Stream) : (u.setStream i e).ledger = u.ledger := rfl
  have hmod (u : State) (f : Stream → Stream) : (u.modStream i f).ledger = u.ledger := rfl
  unfold State.freeStream
  dsimp only
  rw [hset, ledger_of_offRack (State_drop_offRack _ _), ledger_of_offRack (State_drop_offRack _ _),
    ledger_foldl (fun u h => ledger_of_offRack (State_drop_offRack u h)), ledger_of_offRack (State_dropGrants_offRack _ _),
    retier_ledger, hmod]

theorem freeHistory_ledger (s : State) (i : Nat) : (s.freeHistory i).ledger = s.ledger := by
  have hmod (u : State) (f : Stream → Stream) : (u.modStream i f).ledger = u.ledger := rfl
  unfold State.freeHistory
  dsimp only
  split
  · rw [freeStream_ledger, sendRelease_ledger]
  · rw [hmod, ledger_of_offRack (State_drop_offRack _ _)]

theorem applyEff_ledger (s : State) (e : Eff) : (s.applyEff e).ledger = s.ledger := by
  cases e with
  | bytes l a d => exact putAt_ledger s l a d
  | nibble l a high v => exact putAt_ledger s l a _
  | tag l blk t => exact tagAt_ledger s l blk t
  | name h off v => exact ledger_of_offRack (by simp [State.applyEff, recount_offRack])
  | deref i h => exact ledger_of_offRack (dropTo_offRack s i h)
  | rows root n => exact ledger_of_offRack (State_patchCask_offRack _ _ _)
  | adopt h => exact ledger_of_offRack (State_modLeaf_offRack _ _ _)
  | stateLeaf i h => exact retier_ledger (s.modStream i fun e => { e with stateLeaf := h }) i
  | dirty h => exact ledger_of_offRack (State_dirtyLeaf_offRack s h)
  | advance i k new pos => exact ledger_of_offRack (setAdvance_offRack s i k new pos)
  | trim i pos => exact trimTo_ledger s i pos
  | child i parent root prio copy => exact makeChild_ledger s i parent root copy
  | free i => exact freeHistory_ledger s i
  | send p => exact ledger_of_offTransit (emitParcel_offTransit s p)
  | consume rq => rfl
  | hist _ _ _ _ _ => rfl
  | path _ _ _ => rfl
  | state _ _ _ _ => rfl
  | wrote _ => rfl
  | lost _ => rfl
  | block _ _ _ _ _ => rfl

theorem loseRun_ledger (s : State) (c : Cmd) (i : Nat) : (s.loseRun c i).ledger = s.ledger := by
  unfold State.loseRun
  split
  · exact (Carried.endRun s c cWeightLost true _).ledger
  · rfl

theorem flipEff_ledger (s : State) (c : Cmd) (e : Eff) : (s.flipEff c e).ledger = s.ledger := by
  cases e with
  | lost i => exact loseRun_ledger s c i
  | block ch attempt seq idx data => rfl
  | _ => exact applyEff_ledger s _

/-! ### Runs closed -/

theorem moveAdvances_offRack (s : State) (i : Nat) : (s.moveAdvances i).offRack = s.offRack := by
  unfold State.moveAdvances
  simp [dropTo_offRack]

theorem armRefresh_ledger (s : State) (i : Nat) : (s.armRefresh i).ledger = s.ledger := by
  unfold State.armRefresh
  dsimp only
  split <;> rfl

theorem takeMirror_ledger (s : State) (i : Nat) : (s.takeMirror i).ledger = s.ledger := by
  have hset (u : State) (e : Stream) : (u.setStream i e).ledger = u.ledger := rfl
  have hsend (u : State) (b : BitVec 20) (slot pos h fmt : Nat) (d : Bytes) : (u.sendMirrorLeaf b slot i pos h fmt d).ledger = u.ledger :=
    ledger_of_offTransit (sendMirrorLeaf_offTransit _ _ _ _ _ _ _ _)
  have hcount (u : State) (l : List Handle) : (l.foldl (fun s h => s.addRef h) u).ledger = u.ledger :=
    ledger_foldl (fun v h => ledger_of_offRack (addRef_offRack v h)) _ _
  have hspines (u : State) (b : BitVec 20) (slot pos : Nat) (l : List (Nat × Handle)) :
      (l.foldl (fun s k => s.sendMirrorLeaf b slot i pos k.2 5 (s.content k.2)) u).ledger = u.ledger :=
    ledger_foldl (fun v k => hsend v _ _ _ _ _ _) _ _
  have hmanifest (u : State) (b : BitVec 20) (pos : Nat) : (u.sendManifest b i pos).ledger = u.ledger :=
    ledger_of_offTransit (sendManifest_offTransit _ _ _ _)
  unfold State.takeMirror
  dsimp only
  split
  · rfl
  split
  · rfl
  split
  · rfl
  split
  · rw [hmanifest, hspines, hsend, hsend, hset, hcount]
  · rw [hspines, hsend, hsend, hset, hcount]

theorem closeStepOf_ledger (s : State) (u : WaveRun) : (s.closeStepOf u).ledger = s.ledger := by
  unfold State.closeStepOf
  dsimp only
  rw [retier_ledger, takeMirror_ledger, armRefresh_ledger, ledger_of_offRack (moveAdvances_offRack _ _)]
  split <;> rfl

theorem closeRefresh_ledger (s : State) (u : WaveRun) : (s.closeRefresh u).ledger = s.ledger := by
  have hmod (v : State) (i : Nat) (f : Stream → Stream) : (v.modStream i f).ledger = v.ledger := rfl
  unfold State.closeRefresh
  dsimp only
  split
  · rfl
  · rw [retier_ledger, hmod, ledger_of_offRack (moveAdvances_offRack _ _), hmod]

theorem modRuns_ledger (s : State) (c : Cmd) (f : WaveRun → WaveRun) : (s.modRuns c f).ledger = s.ledger := by
  unfold State.modRuns
  dsimp only
  split
  · exact modPart_ledger rfl
  · exact modPart_ledger (by simp)
  · rfl

theorem closeRun_ledger (s : State) (c : Cmd) (u : WaveRun) : (s.closeRun c u).ledger = s.ledger := by
  unfold State.closeRun
  dsimp only
  rw [modRuns_ledger]
  split
  · exact closeStepOf_ledger s u
  · exact closeStepOf_ledger s u
  · exact closeRefresh_ledger s u
  · rfl

/-! ### What follows a commit -/

theorem recovered_ledger (s : State) (c : Cmd) : (s.recovered c).ledger = s.ledger := by
  have hmod (u : State) (f : Plan → Plan) : (u.modPlan c.slot f).ledger = u.ledger := rfl
  have hraise (u : State) : (u.attention 1 cDone c.subject 0).ledger = u.ledger := rfl
  unfold State.recovered
  dsimp only
  rw [hraise, hmod]
  refine ledger_foldl (fun u h => ?_) _ _
  exact ledger_of_offRack (by simp)

theorem afterFork_ledger (s : State) (i : Nat) : (s.afterFork i).ledger = s.ledger := by
  refine ledger_foldl (fun u k => ?_) _ _
  split
  · exact (settle_ledger _ _ _).trans rfl
  · exact (endReq_ledger _ _ _ _).trans rfl

theorem afterCommit_ledger (s : State) (c : Cmd) (arr : Nat) : (s.afterCommit c arr).ledger = s.ledger := by
  unfold State.afterCommit
  dsimp only
  split
  · rfl
  · exact (Carried.endRerun s c cDone arr false).ledger
  · exact recovered_ledger s c
  · split
    · exact ledger_foldl afterFork_ledger _ _
    · exact ledger_foldl (fun u i => ledger_foldl (fun v k => endReq_ledger v k cDone []) _ _) _ _

/-! ### The commit -/

/-- The effects of a command made current and its record written; the command is one no longer. -/
def State.flipped (s : State) (c : Cmd) (arr : Nat) : State :=
  let s := s.unpinAll c.pins
  let s := c.effs.foldl (fun s e => s.flipEff c e) s
  let s := c.consumed.foldl (fun s rq => s.dropRx rq) s
  let s := if c.effs.any fun e => match e with
      | .lost _ => true
      | _ => false then s.attention 2 cWeightLost c.subject 0 else s
  (s.logEnd c cDone arr false).dropCmd c.id

theorem commit_eq (s : State) (c : Cmd) (arr : Nat) : s.commit c arr =
    ((((s.flipped c arr).closing c).foldl (fun s u => s.closeRun c u) (s.flipped c arr)).afterCommit c arr).dropVoid := rfl

theorem flipped_ledger (s : State) (c : Cmd) (arr : Nat) :
    (s.flipped c arr).cmds = s.cmds.filter (fun x => x.id != c.id) ∧
      (s.flipped c arr).logs = modAt s.logs c.home (fun l => l ++ [recordWords c cDone arr false]) := by
  have hpins : (s.unpinAll c.pins).ledger = s.ledger := ledger_of_offRack (by simp [State.unpinAll])
  unfold State.flipped
  dsimp only
  generalize s.unpinAll c.pins = u at *
  have heffs := ledger_foldl (fun v e => flipEff_ledger v c e) c.effs u
  generalize c.effs.foldl (fun s e => s.flipEff c e) u = v at *
  have hconsumed : (c.consumed.foldl (fun s rq => s.dropRx rq) v).ledger = v.ledger := ledger_foldl (g := fun s rq => s.dropRx rq) (fun _ _ => rfl) _ _
  generalize c.consumed.foldl (fun s rq => s.dropRx rq) v = w at *
  generalize hx : (if c.effs.any fun e => match e with
      | .lost _ => true
      | _ => false then w.attention 2 cWeightLost c.subject 0 else w) = x
  have hraise : x.ledger = w.ledger := by
    rw [← hx]
    split <;> rfl
  have hall := ((hraise.trans hconsumed).trans heffs).trans hpins
  have hcmds : x.cmds = s.cmds := congrArg (fun l => l.2.1) hall
  have hlogs : x.logs = s.logs := congrArg (fun l => l.1) hall
  rw [← hcmds, ← hlogs]
  exact ⟨rfl, rfl⟩

/-- A commit takes the command away and adds its record; no other command comes. -/
theorem commit_spec (s : State) (c : Cmd) (arr : Nat) :
    (∀ x ∈ (s.commit c arr).cmds, x ∈ s.cmds ∧ x.id ≠ c.id) ∧
      (s.commit c arr).logs = modAt s.logs c.home (fun l => l ++ [recordWords c cDone arr false]) := by
  rw [commit_eq]
  obtain ⟨hcmds, hlogs⟩ := flipped_ledger s c arr
  generalize s.flipped c arr = u at *
  have hclosed := ledger_foldl (fun v r => closeRun_ledger v c r) (u.closing c) u
  generalize (u.closing c).foldl (fun s r => s.closeRun c r) u = v at *
  have hall := (afterCommit_ledger v c arr).trans hclosed
  generalize v.afterCommit c arr = w at *
  have hwcmds : w.cmds = u.cmds := congrArg (fun l => l.2.1) hall
  have hwlogs : w.logs = u.logs := congrArg (fun l => l.1) hall
  refine ⟨fun x hx => ?_, hwlogs.trans hlogs⟩
  have hmem := dropVoid_subset w x hx
  rw [hwcmds, hcmds] at hmem
  simpa using hmem

end Sys2Proof.Machine
end

section
/-! SUPPORT. The commit flip (R24, R137 to R140, R198). -/

namespace Sys2Proof.Machine

/-! ### The turn of a command -/

theorem asOf_inTurn (s : State) (c d : Cmd) : (s.asOf c).inTurn d = s.inTurn d := by
  rw [asOf_frame]; rfl

theorem asOf_consumedRemote (s : State) (c d : Cmd) : (s.asOf c).consumedRemote d = s.consumedRemote d := by
  rw [asOf_frame]; rfl

theorem asOf_runNow (s : State) (c d : Cmd) (u : WaveRun) : (s.asOf c).runNow d u = s.runNow d u := by
  rw [asOf_frame]; rfl

/-- What is done under the image of a command's wave is done but for that image. -/
theorem under_back (s : State) (c : Cmd) (f : State → State) : s.under c f = { f (s.asOf c) with slots := (s.under c f).slots } := by
  unfold State.under
  split <;> rfl

/-- The end of a command's slices that meets no error. -/
def State.flipNow (s : State) (c : Cmd) (arr : Nat) : State :=
  if s.consumedRemote c then s.setCmd { c with phase := .held, arr := arr }
  else if !s.inTurn c then s
  else s.commit c arr

theorem exec_commitFlip {s : State} {id : Nat} {c : Cmd} (hc : s.cmd? id = some c) (hp : c.phase = .issued) (hw : c.waits = [])
    (hn : c.passes = 0) (hflawed : s.rack.flawed = []) (hread : (s.asOf c).unreadable c.pins = [])
    (hwrite : (s.asOf c).unwritable c = []) (arr : Nat) :
    exec (.commitFlip id arr) s = .next (s.under c fun u => u.flipNow c arr) := by
  have hexec : exec (.commitFlip id arr) s = execCommitFlip id arr s := rfl
  have htry : s.tryCommit id arr = s.under c fun u => u.flipNow c arr := by
    unfold State.tryCommit
    rw [hc]
    dsimp only
    refine under_congr ?_
    rw [meetPoison_none hread hwrite]
    rfl
  rw [hexec, execCommitFlip, hc]
  dsimp only
  rw [if_neg (by simp [hp, hw, hn]), meetErrors_none hflawed, hflawed, ← htry]
  rfl

theorem flipNow_remote {s : State} {c : Cmd} (h : s.consumedRemote c = true) (arr : Nat) :
    s.flipNow c arr = s.setCmd { c with phase := .held, arr := arr } := if_pos h

theorem flipNow_waits {s : State} {c : Cmd} (h : s.consumedRemote c = false) (ht : s.inTurn c = false) (arr : Nat) :
    s.flipNow c arr = s := by
  unfold State.flipNow
  rw [if_neg (by simp [h]), if_pos (by simp [ht])]

theorem flipNow_commits {s : State} {c : Cmd} (h : s.consumedRemote c = false) (ht : s.inTurn c = true) (arr : Nat) :
    s.flipNow c arr = s.commit c arr := by
  unfold State.flipNow
  rw [if_neg (by simp [h]), if_neg (by simp [ht])]

theorem consumedRemote_none {s : State} {c : Cmd} (h : c.consumed = []) : s.consumedRemote c = false := by
  unfold State.consumedRemote
  rw [h]
  rfl

/-- Under the image of its wave a command whose turn it is commits. -/
theorem under_commits {s : State} {c : Cmd} (h : s.consumedRemote c = false) (ht : s.inTurn c = true) (arr : Nat) :
    s.under c (fun u => u.flipNow c arr) = s.under c fun u => u.commit c arr :=
  under_congr (flipNow_commits (by rw [asOf_consumedRemote, h]) (by rw [asOf_inTurn, ht]) arr)

theorem under_commit_spec (s : State) (c : Cmd) (arr : Nat) :
    (∀ x ∈ (s.under c fun u => u.commit c arr).cmds, x ∈ s.cmds ∧ x.id ≠ c.id) ∧
      (s.under c fun u => u.commit c arr).logs = modAt s.logs c.home (fun l => l ++ [recordWords c cDone arr false]) := by
  obtain ⟨hcmds, hlogs⟩ := commit_spec (s.asOf c) c arr
  have hback := under_back s c fun u => u.commit c arr
  have hsame : (s.asOf c).cmds = s.cmds ∧ (s.asOf c).logs = s.logs := by
    rw [asOf_frame]; exact ⟨rfl, rfl⟩
  rw [hsame.1] at hcmds
  rw [hsame.2] at hlogs
  rw [hback]
  exact ⟨hcmds, hlogs⟩

theorem gone_of_left {s t : State} {c : Cmd} (h : ∀ x ∈ t.cmds, x ∈ s.cmds ∧ x.id ≠ c.id) : t.cmd? c.id = none :=
  List.find?_eq_none.2 fun x hx => by simpa using (h x hx).2

/-! ### A store of bytes -/

theorem commit_store {s : State} {c : Cmd} {prio : Bool} {k a : Nat} {d : List Byte} (arr : Nat)
    (he : c.effs = [.bytes (.core k) a d]) (hp : c.pins = []) (hu : c.consumed = []) (hz : c.closes = []) (ho : c.origin = .wave prio) :
    s.commit c arr = (((s.putCore (coreAddr k a) d).logEnd c cDone arr false).dropCmd c.id).dropVoid := by
  have hflipped : s.flipped c arr = ((s.putCore (coreAddr k a) d).logEnd c cDone arr false).dropCmd c.id := by
    unfold State.flipped
    rw [he, hp, hu]
    rfl
  have hclosing (u : State) : u.closing c = [] := by
    unfold State.closing
    rw [hz]
    rfl
  have hafter (u : State) : u.afterCommit c arr = u := by
    unfold State.afterCommit
    rw [ho]
  rw [commit_eq, hflipped, hclosing, hafter]
  rfl

/-- The state after a store of bytes, whose command is one no longer. -/
def State.stored (s : State) (c : Cmd) (arr a : Nat) (d : List Byte) : State :=
  (((s.putCore a d).logEnd c cDone arr false).dropCmd c.id).dropVoid

theorem dropVoid_slots (s : State) (l : List Slot) : ({ s with slots := l } : State).dropVoid = { s.dropVoid with slots := l } := rfl

theorem dropVoid_frame (s : State) : s.dropVoid = { s with cmds := s.dropVoid.cmds } := rfl

theorem recorded_slots (s : State) (c : Cmd) (arr : Nat) (l : List Slot) :
    (({ s with slots := l } : State).logEnd c cDone arr false).dropCmd c.id =
      { (s.logEnd c cDone arr false).dropCmd c.id with slots := l } := rfl

theorem stored_slots (s : State) (c : Cmd) (arr a : Nat) (d : List Byte) (l : List Slot) :
    ({ s with slots := l } : State).stored c arr a d = { s.stored c arr a d with slots := l } := by
  have hput : ({ s with slots := l } : State).putCore a d = { s.putCore a d with slots := l } := rfl
  rw [State.stored, hput, recorded_slots, dropVoid_slots]
  rfl

theorem stored_memory (s : State) (c : Cmd) (arr a : Nat) (d : List Byte) :
    (s.stored c arr a d).coreMem = s.coreMem.write a d ∧ (s.stored c arr a d).coreLines = addLines s.coreLines a d.length := ⟨rfl, rfl⟩

theorem stored_frame (s : State) (c : Cmd) (arr a : Nat) (d : List Byte) : s.stored c arr a d = { s with
    coreMem := (s.stored c arr a d).coreMem, coreLines := (s.stored c arr a d).coreLines
    logs := (s.stored c arr a d).logs, cmds := (s.stored c arr a d).cmds } := by
  have hput (u : State) : ((u.putCore a d).logEnd c cDone arr false).dropCmd c.id = { u with
      coreMem := (((u.putCore a d).logEnd c cDone arr false).dropCmd c.id).coreMem
      coreLines := (((u.putCore a d).logEnd c cDone arr false).dropCmd c.id).coreLines
      logs := (((u.putCore a d).logEnd c cDone arr false).dropCmd c.id).logs
      cmds := (((u.putCore a d).logEnd c cDone arr false).dropCmd c.id).cmds } := rfl
  have hframe := hput s
  unfold State.stored
  generalize ((s.putCore a d).logEnd c cDone arr false).dropCmd c.id = u at *
  have hdrop := dropVoid_frame u
  generalize u.dropVoid = t at *
  rw [hdrop, hframe]

theorem stored_keeps_slots (s : State) (c : Cmd) (arr a : Nat) (d : List Byte) : (s.stored c arr a d).slots = s.slots :=
  (congrArg State.slots (stored_frame s c arr a d)).trans rfl

theorem under_of {s t : State} {c : Cmd} {f : State → State} (hf : f (s.asOf c) = { t with slots := (s.asOf c).slots })
    (ht : t.slots = s.slots) : s.under c f = t := by
  have hslots : (f (s.asOf c)).slots = (s.asOf c).slots := by rw [hf]
  rw [under_eq (f := f) hslots, hf, ← ht]

theorem under_store {s : State} {c : Cmd} {prio : Bool} {k a : Nat} {d : List Byte} (arr : Nat)
    (he : c.effs = [.bytes (.core k) a d]) (hp : c.pins = []) (hu : c.consumed = []) (hz : c.closes = []) (ho : c.origin = .wave prio) :
    s.under c (fun u => u.commit c arr) = s.stored c arr (coreAddr k a) d := by
  have hcommit : (s.asOf c).commit c arr = (s.asOf c).stored c arr (coreAddr k a) d := commit_store arr he hp hu hz ho
  have hstored : (s.asOf c).stored c arr (coreAddr k a) d = { s.stored c arr (coreAddr k a) d with slots := (s.asOf c).slots } := by
    rw [← stored_slots, ← asOf_frame]
  exact under_of (f := fun u => u.commit c arr) (hcommit.trans hstored) (stored_keeps_slots s c arr (coreAddr k a) d)

/-! ### A step closed -/

/-- What a close of a step moves on in a stream's entry. -/
def Stream.progress (e : Stream) : Nat × Bool × Nat × Nat := (e.position, e.reset, e.exh, e.stepsLeft)

/-- The streams but one are as they were, and that one has come as far. -/
structure StreamHeld (s t : State) (i : Nat) : Prop where
  progress : (t.stream i).progress = (s.stream i).progress
  others : ∀ j, j ≠ i → t.stream j = s.stream j

theorem StreamHeld.of_streams {s t : State} (h : t.streams = s.streams) (i : Nat) : StreamHeld s t i :=
  ⟨by rw [stream_of_streams h], fun j _ => stream_of_streams h j⟩

theorem StreamHeld.trans {s t u : State} {i : Nat} (h : StreamHeld s t i) (g : StreamHeld t u i) : StreamHeld s u i :=
  ⟨g.progress.trans h.progress, fun j hj => (g.others j hj).trans (h.others j hj)⟩

theorem setStream_held {s : State} {i : Nat} {e : Stream} (h : e.progress = (s.stream i).progress) : StreamHeld s (s.setStream i e) i :=
  ⟨by rw [stream_setStream]; exact h, fun j hj => stream_setStream_other s i j e hj⟩

theorem armRefresh_held (s : State) (i : Nat) : StreamHeld s (s.armRefresh i) i := by
  unfold State.armRefresh
  dsimp only
  split
  · exact setStream_held rfl
  · exact StreamHeld.of_streams rfl i

theorem takeMirror_held (s : State) (i : Nat) : StreamHeld s (s.takeMirror i) i := by
  have hsend (u : State) (b : BitVec 20) (slot pos h fmt : Nat) (d : Bytes) : StreamHeld u (u.sendMirrorLeaf b slot i pos h fmt d) i :=
    StreamHeld.of_streams (streams_of_offTransit (sendMirrorLeaf_offTransit _ _ _ _ _ _ _ _)) i
  have hcount (u : State) (l : List Handle) : (l.foldl (fun s h => s.addRef h) u).streams = u.streams :=
    foldl_keeps State.streams _ (fun v h => streams_of_offRack (addRef_offRack v h)) _ _
  have hspines (u : State) (b : BitVec 20) (slot pos : Nat) (l : List (Nat × Handle)) :
      StreamHeld u (l.foldl (fun s k => s.sendMirrorLeaf b slot i pos k.2 5 (s.content k.2)) u) i :=
    StreamHeld.of_streams (foldl_keeps State.streams _
      (fun v k => streams_of_offTransit (sendMirrorLeaf_offTransit _ _ _ _ _ _ _ _)) _ _) i
  have hmanifest (u : State) (b : BitVec 20) (pos : Nat) : StreamHeld u (u.sendManifest b i pos) i :=
    StreamHeld.of_streams (streams_of_offTransit (sendManifest_offTransit _ _ _ _)) i
  have hset (u : State) (hu : u.streams = s.streams) (m : Option Nat) (l : List Handle) (w : List W32) :
      StreamHeld s (u.setStream i { s.stream i with mirrorOut := m, mirrorLeaves := l, mirrorEntry := w }) i := by
    refine (StreamHeld.of_streams hu i).trans (setStream_held ?_)
    rw [stream_of_streams hu]
    rfl
  unfold State.takeMirror
  dsimp only
  split
  · exact StreamHeld.of_streams rfl i
  split
  · exact StreamHeld.of_streams rfl i
  split
  · exact StreamHeld.of_streams rfl i
  split
  · exact ((((hset _ (hcount _ _) _ _ _).trans (hsend _ _ _ _ _ _ _)).trans (hsend _ _ _ _ _ _ _)).trans (hspines _ _ _ _ _)).trans
      (hmanifest _ _ _)
  · exact (((hset _ (hcount _ _) _ _ _).trans (hsend _ _ _ _ _ _ _)).trans (hsend _ _ _ _ _ _ _)).trans (hspines _ _ _ _ _)

/-- The stream's entry at the close of a step or a chunk. -/
def State.stepCounted (s : State) (u : WaveRun) : State :=
  s.modStream u.stream fun e => { e with
    position := e.position + u.run.rowCount, reset := e.reset && u.epoch != e.epoch, exh := 0, lastClose := s.now.setWidth 32
    stepsLeft := if u.kind == ItemKind.step then e.stepsLeft - u.run.rowCount else e.stepsLeft }

/-- The request's record at the close of a step or a chunk. -/
def State.stepQueued (s : State) (u : WaveRun) (t : W32) : State :=
  match u.req with
  | some q => s.modReq (reqKey q.1 q.2) fun r => { r with
      queued := t, inputDone := if u.kind == ItemKind.chunk then r.inputDone + u.run.rowCount else r.inputDone }
  | none => s

theorem closeStepOf_eq (s : State) (u : WaveRun) : s.closeStepOf u =
    (((((s.stepCounted u).stepQueued u (s.now.setWidth 32)).moveAdvances u.stream).armRefresh u.stream).takeMirror u.stream).retier
      u.stream := rfl

theorem stepQueued_streams (s : State) (u : WaveRun) (t : W32) : (s.stepQueued u t).streams = s.streams := by
  unfold State.stepQueued
  split <;> rfl

theorem stepCounted_spec {s : State} {u : WaveRun} (hk : u.kind = .step) :
    ((s.stepCounted u).stream u.stream).progress =
        ((s.stream u.stream).position + u.run.rowCount, (s.stream u.stream).reset && u.epoch != (s.stream u.stream).epoch, 0,
          (s.stream u.stream).stepsLeft - u.run.rowCount) ∧
      ∀ j, j ≠ u.stream → (s.stepCounted u).stream j = s.stream j := by
  unfold State.stepCounted State.modStream
  rw [hk]
  exact ⟨by rw [stream_setStream]; rfl, fun j hj => stream_setStream_other s u.stream j _ hj⟩

theorem closeStepOf_spec {s : State} {u : WaveRun} (hk : u.kind = .step) :
    ((s.closeStepOf u).stream u.stream).progress =
        ((s.stream u.stream).position + u.run.rowCount, (s.stream u.stream).reset && u.epoch != (s.stream u.stream).epoch, 0,
          (s.stream u.stream).stepsLeft - u.run.rowCount) ∧
      ∀ j, j ≠ u.stream → (s.closeStepOf u).stream j = s.stream j := by
  rw [closeStepOf_eq]
  obtain ⟨hprogress, hothers⟩ := stepCounted_spec (s := s) hk
  generalize s.stepCounted u = v at *
  have hqueued := StreamHeld.of_streams (stepQueued_streams v u (s.now.setWidth 32)) u.stream
  generalize v.stepQueued u (s.now.setWidth 32) = w at *
  have hall := (((hqueued.trans (StreamHeld.of_streams (streams_of_offRack (moveAdvances_offRack w u.stream)) _)).trans
    (armRefresh_held _ _)).trans (takeMirror_held _ _)).trans (StreamHeld.of_streams (streams_of_offRack (State_retier_offRack _ u.stream)) _)
  exact ⟨hall.progress.trans hprogress, fun j hj => (hall.others j hj).trans (hothers j hj)⟩

theorem closeRun_streams {s : State} {c : Cmd} {u : WaveRun} (hk : u.kind = .step) :
    (s.closeRun c u).streams = (s.closeStepOf u).streams := by
  have hruns (v : State) (f : WaveRun → WaveRun) : (v.modRuns c f).streams = v.streams := by
    unfold State.modRuns
    dsimp only
    split <;> rfl
  unfold State.closeRun
  rw [hk]
  exact hruns _ _

/-- A commit that closes one step, and does nothing else, moves its stream on. -/
theorem commit_step {s : State} {c : Cmd} {prio : Bool} {u : WaveRun} (arr : Nat) (he : c.effs = []) (hp : c.pins = [])
    (hc : c.consumed = []) (hz : c.closes = [u.stream]) (hr : c.runs = [u]) (ho : c.origin = .wave prio)
    (hv : (s.runNow c u).void = false) :
    s.commit c arr = (((s.logEnd c cDone arr false).dropCmd c.id).closeRun c u).dropVoid := by
  have hflipped : s.flipped c arr = (s.logEnd c cDone arr false).dropCmd c.id := by
    unfold State.flipped
    rw [he, hp, hc]
    rfl
  have hclosing : ((s.logEnd c cDone arr false).dropCmd c.id).closing c = [u] := by
    have hnow : ((s.logEnd c cDone arr false).dropCmd c.id).runNow c u = s.runNow c u := rfl
    unfold State.closing
    rw [hz, hr]
    simp [hnow, hv]
  have hafter (v : State) : v.afterCommit c arr = v := by
    unfold State.afterCommit
    rw [ho]
  rw [commit_eq, hflipped, hclosing, hafter]
  rfl

end Sys2Proof.Machine

namespace Sys2Proof.Proofs
open Sys2Proof.Machine

/-- Settles O35: a flip that meets no error holds the command, waits, or commits it; a commit adds the record, and a step that it
closes moves on its own stream alone. -/
theorem commitFlips : Obligations.CommitFlips := by
  unfold Obligations.CommitFlips
  intro s id arr c hc hp hw hn hflawed hread hwrite
  have hexec := exec_commitFlip hc hp hw hn hflawed hread hwrite arr
  have hid := cmd?_id hc
  rw [hexec]
  refine ⟨fun hremote => ?_, fun hremote hturn => ?_, fun hremote hturn => ?_, fun prio k a d hturn he hpins hu hz ho => ?_,
    fun prio u hturn he hpins hu hz hr ho hk hv => ?_⟩
  · have hheld : s.under c (fun u => u.flipNow c arr) = s.setCmd { c with phase := .held, arr := arr } := by
      rw [under_congr (g := fun u => u.setCmd { c with phase := .held, arr := arr })
        (flipNow_remote (by rw [asOf_consumedRemote, hremote]) arr), under_eq rfl, asOf_frame]
      rfl
    rw [hheld]
    exact ⟨_, rfl, cmd?_setCmd hc hid, rfl⟩
  · have hstays : s.under c (fun u => u.flipNow c arr) = s := by
      rw [under_congr (g := fun u => u) (flipNow_waits (by rw [asOf_consumedRemote, hremote]) (by rw [asOf_inTurn, hturn]) arr),
        under_eq rfl, asOf_frame]
    rw [hstays]
  · rw [under_commits hremote hturn]
    obtain ⟨hcmds, hlogs⟩ := under_commit_spec s c arr
    exact ⟨_, rfl, by rw [← hid]; exact gone_of_left hcmds, hlogs⟩
  · rw [under_commits (consumedRemote_none hu) hturn]
    have hgone := gone_of_left (under_commit_spec s c arr).1
    rw [under_store arr he hpins hu hz ho] at hgone ⊢
    rw [← hid]
    obtain ⟨hmem, hlines⟩ := stored_memory s c arr (coreAddr k a) d
    exact ⟨_, rfl, hmem, hlines, hgone, stored_frame _ _ _ _ _⟩
  · rw [under_commits (consumedRemote_none hu) hturn]
    have hvoid : ((s.asOf c).runNow c u).void = false := by rw [asOf_runNow, hv]
    have hback := under_back s c fun v => v.commit c arr
    generalize s.under c (fun v => v.commit c arr) = t at hback ⊢
    have hstep := commit_step (s := s.asOf c) arr he hpins hu hz hr ho hvoid
    have hstreams : t.streams = ((((s.asOf c).logEnd c cDone arr false).dropCmd c.id).closeStepOf u).streams := by
      have hcommit : t.streams = ((s.asOf c).commit c arr).streams := by rw [hback]
      rw [hcommit, hstep, ← closeRun_streams (c := c) hk]
      rfl
    obtain ⟨hprogress, hothers⟩ := closeStepOf_spec (s := ((s.asOf c).logEnd c cDone arr false).dropCmd c.id) hk
    have hsame (j : Nat) : (((s.asOf c).logEnd c cDone arr false).dropCmd c.id).stream j = s.stream j :=
      stream_of_streams (s := s) (by rw [asOf_frame]; rfl) j
    rw [hsame] at hprogress
    generalize (((s.asOf c).logEnd c cDone arr false).dropCmd c.id).closeStepOf u = v at hstreams hprogress hothers
    have hstream (j : Nat) : t.stream j = v.stream j := stream_of_streams hstreams j
    simp only [Stream.progress, Prod.mk.injEq] at hprogress
    obtain ⟨hposition, hreset, hexh, hsteps⟩ := hprogress
    exact ⟨t, rfl, by rw [hstream, hposition], by rw [hstream, hreset], by rw [hstream, hexh], by rw [hstream, hsteps],
      fun j hj => by rw [hstream, hothers j hj, hsame]⟩

end Sys2Proof.Proofs
end

section
/-! SUPPORT. The ends of an issued command without a commit (R145, R170, R362) and the commit sweep (R370). -/

namespace Sys2Proof.Machine

/-! ### The command-time limit -/

theorem exec_commandTimeLimit {s : State} {id : Nat} {c : Cmd} (hc : s.cmd? id = some c) (hp : c.phase = .issued) (waiting : Bool) :
    exec (.commandTimeLimit id waiting) s = .next (
      if !(waiting || !c.waits.isEmpty) then s.abort c cOverflow timeLimit false false
      else if c.opc = 0x0C && c.waits.isEmpty && c.timeouts != 0 then
        s.under c fun s => (if recvAdd c.words then s.missingHomes c else []).foldl (fun s a => s.listUnreachable a)
          (s.abort c cPartner timeLimit false false)
      else s.requeue c cRerun timeLimit true
        { c.fresh with rerun := true, timeouts := if c.waits.isEmpty then c.timeouts + 1 else c.timeouts }) := by
  have hexec : exec (.commandTimeLimit id waiting) s = execCommandTimeLimit id waiting s := rfl
  rw [hexec, execCommandTimeLimit, hc]
  dsimp only
  rw [if_neg (by simp [hp])]

/-- A command placed again stands behind the others, and its record is written. -/
theorem requeue_last (s : State) (c : Cmd) (code : Code) (arr : Nat) (next : Cmd) :
    (s.requeue c code arr true next).cmds = (s.cmds.filter fun x => x.id != c.id) ++ [next] ∧
      (s.requeue c code arr true next).logs = modAt s.logs c.home (fun l => l ++ [recordWords c code arr false]) := by
  have hledger := undo_ledger s c
  unfold State.requeue State.logKill
  generalize s.undo c = u at *
  have hcmds : u.cmds = s.cmds := congrArg (fun l => l.2.1) hledger
  have hlogs : u.logs = s.logs := congrArg (fun l => l.1) hledger
  rw [← hcmds, ← hlogs]
  exact ⟨rfl, rfl⟩

theorem timeLimit_overflow {s : State} {id : Nat} {c : Cmd} (hc : s.cmd? id = some c) (hp : c.phase = .issued) (hw : c.waits = []) :
    ∃ t, exec (.commandTimeLimit id false) s = .next t ∧ t.cmd? id = none ∧
      t.logs = modAt s.logs c.home (fun l => l ++ [recordWords c cOverflow 700000 false]) ∧
      t.port.attnPending.getLsbD 6 = true := by
  have hends := abort_spec s c cOverflow timeLimit false false
  have hgone := hends.gone
  rw [cmd?_id hc] at hgone
  exact ⟨_, by rw [exec_commandTimeLimit hc hp, if_pos (by simp [hw])], hgone, hends.logs, hends.raised 6 (by decide) (by decide)⟩

theorem timeLimit_waits {s : State} {id : Nat} {c : Cmd} (hc : s.cmd? id = some c) (hp : c.phase = .issued) {waiting : Bool}
    (hw : waiting = true ∨ c.waits ≠ []) (hr : c.opc ≠ 0x0C ∨ c.timeouts = 0 ∨ c.waits ≠ []) :
    ∃ t, exec (.commandTimeLimit id waiting) s = .next t ∧
      t.cmds = (s.cmds.filter fun x => x.id != id) ++
        [{ c.fresh with rerun := true, timeouts := if c.waits = [] then c.timeouts + 1 else c.timeouts }] ∧
      t.logs = modAt s.logs c.home (fun l => l ++ [recordWords c cRerun 700000 false]) := by
  obtain ⟨hcmds, hlogs⟩ := requeue_last s c cRerun timeLimit
    { c.fresh with rerun := true, timeouts := if c.waits.isEmpty then c.timeouts + 1 else c.timeouts }
  have hwaits : (waiting || !c.waits.isEmpty) = true := by
    rcases hw with hw | hw
    · rw [hw, Bool.true_or]
    · rw [List.isEmpty_eq_false_iff.2 hw]; simp
  have hagain : (decide (c.opc = 0x0C) && c.waits.isEmpty && c.timeouts != 0) = false := by
    rcases hr with hr | hr | hr
    · simp [hr]
    · simp [hr]
    · rw [List.isEmpty_eq_false_iff.2 hr]; simp
  refine ⟨_, by rw [exec_commandTimeLimit hc hp, hwaits, hagain]; rfl, ?_, hlogs⟩
  rw [hcmds, cmd?_id hc]
  simp only [List.isEmpty_iff]

theorem timeLimit_partner {s : State} {id : Nat} {c : Cmd} (hc : s.cmd? id = some c) (hp : c.phase = .issued) (ho : c.opc = 0x0C)
    (ht : c.timeouts ≠ 0) (hw : c.waits = []) :
    ∃ t, exec (.commandTimeLimit id true) s = .next t ∧ t.cmd? id = none ∧
      t.logs = modAt s.logs c.home (fun l => l ++ [recordWords c cPartner 700000 false]) ∧
      t.port.attnPending.getLsbD 2 = true := by
  have hgoes : exec (.commandTimeLimit id true) s = .next (s.under c fun s =>
      (if recvAdd c.words then s.missingHomes c else []).foldl (fun s a => s.listUnreachable a)
        (s.abort c cPartner timeLimit false false)) := by
    rw [exec_commandTimeLimit hc hp, if_neg (by simp), if_pos (by simp [ho, ht, hw])]
  have hback := under_back s c fun s =>
    (if recvAdd c.words then s.missingHomes c else []).foldl (fun s a => s.listUnreachable a) (s.abort c cPartner timeLimit false false)
  refine ⟨_, hgoes, ?_⟩
  generalize s.under c (fun s => (if recvAdd c.words then s.missingHomes c else []).foldl (fun s a => s.listUnreachable a)
    (s.abort c cPartner timeLimit false false)) = t at *
  have hends := abort_spec (s.asOf c) c cPartner timeLimit false false
  have hsame : (s.asOf c).logs = s.logs := by rw [asOf_frame]
  generalize (s.asOf c).abort c cPartner timeLimit false false = u at *
  generalize (if recvAdd c.words then (s.asOf c).missingHomes c else []) = far at *
  have hlisted : Carried u (far.foldl (fun s a => s.listUnreachable a) u) :=
    Carried.foldl (f := fun s a => s.listUnreachable a) (fun v a => ⟨rfl, by
      unfold State.listUnreachable State.modFabric
      dsimp only
      split <;> rfl, fun _ h => h⟩) far u
  generalize far.foldl (fun s a => s.listUnreachable a) u = v at *
  have hcmds : t.cmds = u.cmds := by rw [hback]; exact congrArg (fun l => l.2.1) hlisted.ledger
  have hlogs : t.logs = u.logs := by rw [hback]; exact congrArg (fun l => l.1) hlisted.ledger
  have hport : t.port = v.port := by rw [hback]
  have hgone := hends.gone
  rw [cmd?_id hc] at hgone
  refine ⟨by rw [State.cmd?, hcmds]; exact hgone, by rw [hlogs, hends.logs, hsame]; rfl, ?_⟩
  rw [hport]
  exact hlisted.pends 2 (hends.raised 2 (by decide) (by decide))

/-! ### An append without a leaf -/

theorem forkStarved_ledger (s : State) (i : Nat) : (s.forkStarved i).ledger = s.ledger := by
  have hraise (u : State) (a b : W32) : (u.attention 3 cPaused a b).ledger = u.ledger := rfl
  unfold State.forkStarved
  dsimp only
  split
  · rw [hraise, ledger_foldl fun u k => endReq_ledger u k cPaused []]
    rfl
  · rfl

theorem leafExhausted_spec {s : State} {id : Nat} {c : Cmd} (hc : s.cmd? id = some c) (hp : c.phase = .issued)
    (hs : c.starved = true) :
    ∃ t n, exec (.leafExhausted id) s = .next t ∧ n = Config.killTime s.draws ∧ t.cmd? id = none ∧
      t.logs = modAt s.logs c.home (fun l => l ++ [recordWords c cExhausted n false]) := by
  have hexec : exec (.leafExhausted id) s = execLeafExhausted id s := rfl
  have hgoes : exec (.leafExhausted id) s = .next (
      if c.origin == .service && c.opc = 0x0D then
        c.shape.rows.foldl (fun s i => s.forkStarved i) (s.failCmd c cExhausted)
      else s.failCmd c cExhausted) := by
    rw [hexec, execLeafExhausted, hc]
    dsimp only
    rw [if_neg (by simp [hp, hs])]
    rfl
  refine ⟨_, Config.killTime s.draws, hgoes, rfl, ?_⟩
  have hends := failCmd_spec s c cExhausted
  generalize s.failCmd c cExhausted = u at *
  have hledger : (if (c.origin == .service && decide (c.opc = 0x0D)) = true then
      c.shape.rows.foldl (fun s i => s.forkStarved i) u else u).ledger = u.ledger := by
    split
    · exact ledger_foldl forkStarved_ledger _ _
    · rfl
  generalize (if (c.origin == .service && decide (c.opc = 0x0D)) = true then
      c.shape.rows.foldl (fun s i => s.forkStarved i) u else u) = t at *
  have hcmds : t.cmds = u.cmds := congrArg (fun l => l.2.1) hledger
  have hlogs : t.logs = u.logs := congrArg (fun l => l.1) hledger
  have hgone := hends.gone
  rw [cmd?_id hc] at hgone
  exact ⟨by rw [State.cmd?, hcmds]; exact hgone, by rw [hlogs, hends.logs]⟩

/-! ### The sweep of idle ports -/

/-- A port swept whose check-value unit has nothing: the mark alone moves. -/
def FPort.marked (k : FPort) : FPort := { k with cvu := { k.cvu with prevMark := k.cvu.mark } }

/-- Has the check-value unit of a port nothing to tell? -/
def FPort.quiet (k : FPort) : Prop := k.cvu.overflow = false ∧ k.cvu.head = k.cvu.tail ∧ k.cvu.head < 128

theorem sweepPort_quiet {s : State} {p : Nat} (hp : p < s.fabric.ports.length) (h : (s.fport p).quiet) :
    s.sweepPort p = s.modFPort p FPort.marked := by
  obtain ⟨hover, hhead, hlt⟩ := h
  have hnone : ((s.fport p).cvu.head + 128 - (s.fport p).cvu.tail) % 128 = 0 := by rw [hhead]; omega
  have hset : modAt s.fabric.ports p (fun k => { k with cvu := { k.cvu with
      tail := (s.fport p).cvu.head, overflow := false, prevMark := (s.fport p).cvu.mark } }) = modAt s.fabric.ports p FPort.marked := by
    refine List.ext_getElem? fun j => ?_
    rw [modAt_getElem?, modAt_getElem?]
    split
    next hj =>
      subst hj
      have hport : s.fabric.ports[j]? = some (s.fport j) := by
        rw [State.fport, List.getD_eq_getElem?_getD, List.getElem?_eq_getElem hp]
        rfl
      rw [hport, Option.map_some, Option.map_some]
      generalize s.fport j = k at *
      refine congrArg some ?_
      unfold FPort.marked
      rw [hhead, ← hover]
    · rfl
  unfold State.sweepPort
  dsimp only
  rw [hnone, hover]
  exact congrArg (fun l => { s with fabric := { s.fabric with ports := l } }) hset

theorem sweepPorts_quiet {s : State} (hlen : s.fabric.ports.length = 16) (h : ∀ p, p < 16 → (s.fport p).quiet) {n : Nat} (hn : n ≤ 16) :
    (∀ p, ((List.range n).foldl (fun s p => s.sweepPort p) s).fport p = if p < n then (s.fport p).marked else s.fport p) ∧
      ((List.range n).foldl (fun s p => s.sweepPort p) s).fabric.ports.length = 16 ∧
      (List.range n).foldl (fun s p => s.sweepPort p) s = { s with fabric := { s.fabric with
        ports := ((List.range n).foldl (fun s p => s.sweepPort p) s).fabric.ports } } := by
  induction n with
  | zero => exact ⟨fun _ => rfl, hlen, rfl⟩
  | succ n ih =>
    obtain ⟨hports, hlength, hframe⟩ := ih (by omega)
    rw [List.range_succ, List.foldl_append]
    generalize (List.range n).foldl (fun s p => s.sweepPort p) s = t at *
    have hport : t.fport n = s.fport n := by rw [hports, if_neg (by omega)]
    have hstep : [n].foldl (fun s p => s.sweepPort p) t = t.modFPort n FPort.marked :=
      sweepPort_quiet (by omega) (by rw [hport]; exact h n (by omega))
    rw [hstep]
    refine ⟨fun p => ?_, (modAt_length _ _ _).trans hlength, ?_⟩
    · rcases Nat.lt_trichotomy p n with hp | hp | hp
      · rw [fport_modFPort_other _ _ _ _ (by omega), hports, if_pos hp, if_pos (by omega)]
      · subst hp
        rw [fport_modFPort _ _ _ (by omega), hport, if_pos (by omega)]
      · rw [fport_modFPort_other _ _ _ _ (by omega), hports, if_neg (by omega), if_neg (by omega)]
    · have hmod : t.modFPort n FPort.marked = { t with fabric := { t.fabric with ports := (t.modFPort n FPort.marked).fabric.ports } } := rfl
      rw [hmod, hframe]

/-! ### Held commands released -/

/-- A held command released in its turn, where it can write. -/
def State.release (s : State) (c : Cmd) : State :=
  match s.cmd? c.id with
  | some c => s.under c fun s => if s.inTurn c && (s.unwritable c).isEmpty then s.commit c c.arr else s
  | none => s

theorem release_gone {s : State} {c : Cmd} (h : s.cmd? c.id = none) : s.release c = s := by
  unfold State.release
  rw [h]

theorem release_commits {s : State} {c : Cmd} (h : s.cmd? c.id = some c) (ht : s.inTurn c = true)
    (hw : (s.asOf c).unwritable c = []) : (s.release c).cmd? c.id = none := by
  have hcommit : s.release c = s.under c fun u => u.commit c c.arr := by
    unfold State.release
    rw [h]
    dsimp only
    refine under_congr ?_
    rw [if_pos (by rw [asOf_inTurn, ht, hw]; rfl)]
  rw [hcommit]
  exact gone_of_left (under_commit_spec s c c.arr).1

/-- Where one command alone is held, in its turn and able to write, it is released. -/
theorem foldl_release {s : State} {c : Cmd} (h : s.cmd? c.id = some c) (ht : s.inTurn c = true)
    (hw : (s.asOf c).unwritable c = []) {l : List Cmd} (hl : c ∈ l) (hall : ∀ x ∈ l, x = c) :
    (l.foldl (fun s c => s.release c) s).cmd? c.id = none := by
  have hstays (l : List Cmd) (hall : ∀ x ∈ l, x = c) (u : State) (hu : u.cmd? c.id = none) :
      (l.foldl (fun s c => s.release c) u).cmd? c.id = none := by
    induction l with
    | nil => exact hu
    | cons x l ih =>
      rw [List.foldl_cons, hall x (List.mem_cons_self), release_gone hu]
      exact ih fun y hy => hall y (List.mem_cons_of_mem _ hy)
  cases l with
  | nil => exact absurd hl (by simp)
  | cons x l =>
    rw [List.foldl_cons, hall x (List.mem_cons_self)]
    exact hstays l (fun y hy => hall y (List.mem_cons_of_mem _ hy)) _ (release_commits h ht hw)

/-! ### What the sweep does after the releases -/

/-- No command has a number that none had before. -/
def IdsFrom (s t : State) : Prop := ∀ x ∈ t.cmds, ∃ y ∈ s.cmds, y.id = x.id

theorem IdsFrom.of_subset {s t : State} (h : ∀ x ∈ t.cmds, x ∈ s.cmds) : IdsFrom s t := fun x hx => ⟨x, h x hx, rfl⟩

theorem IdsFrom.of_cmds {s t : State} (h : t.cmds = s.cmds) : IdsFrom s t := IdsFrom.of_subset (by rw [h]; exact fun _ hx => hx)

theorem IdsFrom.trans {s t u : State} (h : IdsFrom s t) (g : IdsFrom t u) : IdsFrom s u := fun x hx => by
  obtain ⟨y, hy, hxy⟩ := g x hx
  obtain ⟨z, hz, hyz⟩ := h y hy
  exact ⟨z, hz, hyz.trans hxy⟩

theorem IdsFrom.foldl {α : Type} {f : State → α → State} (h : ∀ u x, IdsFrom u (f u x)) (l : List α) (s : State) :
    IdsFrom s (l.foldl f s) := by
  induction l generalizing s with
  | nil => exact IdsFrom.of_cmds rfl
  | cons x xs ih => exact (h s x).trans (ih _)

theorem IdsFrom.gone {s t : State} {n : Nat} (h : IdsFrom s t) (hs : s.cmd? n = none) : t.cmd? n = none :=
  List.find?_eq_none.2 fun x hx => by
    obtain ⟨y, hy, hxy⟩ := h x hx
    have hne := List.find?_eq_none.1 hs y hy
    rwa [← hxy]

theorem killRerun_ids (s : State) (c : Cmd) (code : Code) : IdsFrom s (s.killRerun c code) := fun x hx => by
  rw [killRerun_cmds] at hx
  obtain ⟨y, hy, rfl⟩ := List.mem_map.1 hx
  refine ⟨y, hy, ?_⟩
  split
  next he => exact beq_iff_eq.1 he
  · rfl

theorem coreFails_ids (s : State) (sec phys : Nat) : IdsFrom s (s.coreFails sec phys) := by
  have hcap (u : State) (a b : W32) : ((u.attention 2 0 a b).recapAs true 0).cmds = u.cmds := recapAs_cmds _ _ _
  unfold State.coreFails
  dsimp only
  split
  · exact IdsFrom.of_cmds (hcap _ _ _)
  split
  · exact IdsFrom.of_cmds rfl
  next l _ =>
    have hremap (ls map : List Nat) (a b : W32) :
        IdsFrom s (((((s.stopSection sec).voidOwners ls).mapCores sec map none).attention 2 0 a b).recapAs true 0) :=
      ((IdsFrom.foldl (fun u c => killRerun_ids u c cRerun) _ s).trans (IdsFrom.of_subset (voidOwners_same _ ls).2)).trans
        ((IdsFrom.of_cmds (mapCores_same _ sec map none).2).trans (IdsFrom.of_cmds (hcap _ a b)))
    exact hremap _ _ _ _

theorem settleCores_ids (s : State) (sec : Nat) : IdsFrom s (s.settleCores sec) := by
  unfold State.settleCores
  split
  · exact IdsFrom.of_cmds rfl
  · have hmod : IdsFrom s (s.modSect sec fun k => { k with failing := [] }) := IdsFrom.of_cmds rfl
    exact hmod.trans (IdsFrom.foldl (fun u p => coreFails_ids u sec p) _ _)

/-- With no core that waits to be remapped a section stays as it is. -/
theorem settleCores_none {s : State} {sec : Nat} (h : ∀ k ∈ s.sects, k.failing = []) : s.settleCores sec = s := by
  have hmod : (s.modSect sec fun k => { k with failing := [] }) = s := by
    have hsects : modAt s.sects sec (fun k => { k with failing := [] }) = s.sects := modAt_fixed fun k hk => by
      have hfailing := h k (List.mem_of_getElem? hk)
      rw [← hfailing]
    exact congrArg (fun l => { s with sects := l }) hsects
  have hnone : (s.sect sec).failing = [] := by
    rw [State.sect, List.getD_eq_getElem?_getD]
    cases hk : s.sects[sec]? with
    | none => rfl
    | some k => exact h k (List.mem_of_getElem? hk)
  unfold State.settleCores
  rw [hnone, hmod]
  exact ite_self s

theorem spargeIntake_cmds (s : State) (x : Rx) : (s.spargeIntake x).cmds = s.cmds := by
  unfold State.spargeIntake
  dsimp only
  split
  · rfl
  split
  · rfl
  split
  · split <;> rfl
  · split <;> rfl

/-- The rest of a sweep: parcels marked as swept, sparge parcels taken in, remaps made. -/
def State.sweptIn (s : State) : State :=
  let fresh := s.fabric.rx.filter fun x => x.takenBy.isNone
  let s := s.modFabric fun f => { f with rx := f.rx.map fun x => { x with swept := true } }
  (List.range 4).foldl (fun s sec => s.settleCores sec) (fresh.foldl (fun s x => s.spargeIntake x) s)

theorem sweptIn_ids (s : State) : IdsFrom s s.sweptIn := by
  have hmod : IdsFrom s (s.modFabric fun f => { f with rx := f.rx.map fun x => { x with swept := true } }) := IdsFrom.of_cmds rfl
  exact (hmod.trans (IdsFrom.foldl (fun u x => IdsFrom.of_cmds (spargeIntake_cmds u x)) _ _)).trans
    (IdsFrom.foldl (fun u sec => settleCores_ids u sec) _ _)

theorem sweptIn_none {s : State} (hrx : ∀ x ∈ s.fabric.rx, x.takenBy ≠ none) (h : ∀ k ∈ s.sects, k.failing = []) :
    s.sweptIn = { s with fabric := { s.fabric with rx := s.fabric.rx.map fun x => { x with swept := true } } } := by
  have hfresh : (s.fabric.rx.filter fun x => x.takenBy.isNone) = [] :=
    List.filter_eq_nil_iff.2 fun x hx => by simpa using hrx x hx
  unfold State.sweptIn
  dsimp only
  rw [hfresh]
  exact foldl_fixed _ fun sec _ => settleCores_none h

theorem exec_commitSweep {s : State} (htime : s.timeRuns = true) (hstate : s.power.state ≠ .dormant) :
    exec .commitSweep s = .next ((((List.range 16).foldl (fun s p => s.sweepPort p) s).cmds.filter fun c => c.phase == .held).foldl
      (fun s c => s.release c) ((List.range 16).foldl (fun s p => s.sweepPort p) s)).sweptIn := by
  have hexec : exec .commitSweep s = execCommitSweep s := rfl
  rw [hexec, execCommitSweep, if_neg (by simp [htime, hstate])]
  generalize (List.range 16).foldl (fun s p => s.sweepPort p) s = u
  rfl

theorem asOf_ports {s : State} (l : List FPort) (c : Cmd) :
    ({ s with fabric := { s.fabric with ports := l } } : State).asOf c =
      { s.asOf c with fabric := { s.fabric with ports := l } } := by
  have hold : ({ s with fabric := { s.fabric with ports := l } } : State).oldLeaves c = s.oldLeaves c := rfl
  unfold State.asOf
  rw [hold]
  split <;> rfl

end Sys2Proof.Machine

namespace Sys2Proof.Proofs
open Sys2Proof.Machine

/-- Settles O36: an end without a commit takes the command away, or places it again, and adds its record; a sweep of ports with
nothing to tell releases what is held and marks how far it has swept. -/
theorem commandsEnd : Obligations.CommandsEnd := by
  unfold Obligations.CommandsEnd
  refine ⟨fun s id c hc hp => ⟨timeLimit_overflow hc hp, fun waiting => timeLimit_waits hc hp, timeLimit_partner hc hp,
    leafExhausted_spec hc hp⟩, fun s htime hstate hlen hquiet => ?_⟩
  obtain ⟨hports, -, hframe⟩ := sweepPorts_quiet hlen hquiet (Nat.le_refl 16)
  have hexec := exec_commitSweep htime hstate
  generalize (List.range 16).foldl (fun s p => s.sweepPort p) s = u at *
  have hcmds : u.cmds = s.cmds := by rw [hframe]
  refine ⟨fun c hc hp hturn hwrite honly => ⟨_, hexec, ?_⟩, fun hheld hrx hfailing => ⟨_, hexec, ?_⟩⟩
  · have hcu : u.cmd? c.id = some c := by rw [State.cmd?, hcmds]; exact hc
    have hturnu : u.inTurn c = true := by rw [hframe]; exact hturn
    have hwriteu : (u.asOf c).unwritable c = [] := by
      rw [hframe, asOf_ports]
      exact hwrite
    have hgone := foldl_release hcu hturnu hwriteu (l := u.cmds.filter fun c => c.phase == .held)
      (List.mem_filter.2 ⟨List.mem_of_find?_eq_some hcu, by rw [hp]; rfl⟩)
      fun x hx => honly x (by rw [← hcmds]; exact (List.mem_filter.1 hx).1) (by simpa using (List.mem_filter.1 hx).2)
    exact (sweptIn_ids _).gone hgone
  · have hnone : (u.cmds.filter fun c => c.phase == .held) = [] :=
      List.filter_eq_nil_iff.2 fun c hc => by
        rw [hcmds] at hc
        simpa using hheld c hc
    have hrxu : u.fabric.rx = s.fabric.rx := by rw [hframe]
    have hsects : u.sects = s.sects := by rw [hframe]
    rw [hnone, List.foldl_nil, sweptIn_none (by rw [hrxu]; exact hrx) (by rw [hsects]; exact hfailing)]
    refine ⟨fun p hp => ?_, by rw [← hrxu], by rw [hframe]⟩
    exact (hports p).trans (if_pos hp)

end Sys2Proof.Proofs
end

section
/-! SUPPORT. What the end of work leaves of the DMA engines: how many channels each has. -/

namespace Sys2Proof.Machine

/-- The number of channels of each engine. -/
def State.lanes (s : State) : List Nat := s.port.engines.map fun e => e.channels.length

theorem hasChannel_of_lanes {s t : State} (h : t.lanes = s.lanes) {sec n : Nat} (hs : s.hasChannel sec n) : t.hasChannel sec n := by
  obtain ⟨e, ch, he, hc⟩ := hs
  have hlane : t.lanes[sec]? = some e.channels.length := by rw [h, State.lanes, List.getElem?_map, he]; rfl
  rw [State.lanes, List.getElem?_map] at hlane
  obtain ⟨x, hx, hlen⟩ := Option.map_eq_some_iff.1 hlane
  have hlt : n < x.channels.length := by
    rw [hlen]
    exact (List.getElem?_eq_some_iff.1 hc).1
  exact ⟨x, x.channels[n], hx, List.getElem?_eq_getElem hlt⟩

theorem lanes_foldl {α : Type} {g : State → α → State} (h : ∀ s x, (g s x).lanes = s.lanes) (l : List α) (s : State) :
    (l.foldl g s).lanes = s.lanes := foldl_keeps State.lanes g h l s

theorem lanes_of_offRack {s t : State} (h : t.offRack = s.offRack) : t.lanes = s.lanes := by
  rw [frame_of_offRack h]; rfl

/-! ### Commands of the control port that end -/

theorem lanes_modAt {l : List Dma} {i : Nat} {f : Dma → Dma} (hf : ∀ e, (f e).channels.length = e.channels.length) :
    (modAt l i f).map (fun e => e.channels.length) = l.map fun e => e.channels.length := by
  refine List.ext_getElem? fun j => ?_
  rw [List.getElem?_map, List.getElem?_map, modAt_getElem?]
  split
  · cases l[j]? with
    | none => rfl
    | some e => exact congrArg some (hf e)
  · rfl

theorem armBuffers_lanes (p : Port) :
    p.armBuffers.engines.map (fun e => e.channels.length) = p.engines.map fun e => e.channels.length := by
  have hone (p : Port) (t : Started) :
      (armBuffer p t).engines.map (fun e => e.channels.length) = p.engines.map fun e => e.channels.length := by
    unfold armBuffer
    split
    · rfl
    split
    · rfl
    · exact lanes_modAt fun e => modAt_length _ _ _
  have hall (l : List Started) (p : Port) :
      (l.foldl armBuffer p).engines.map (fun e => e.channels.length) = p.engines.map fun e => e.channels.length := by
    induction l generalizing p with
    | nil => rfl
    | cons t l ih => exact (ih _).trans (hone p t)
  exact hall p.started p

theorem leave_lanes (p : Port) (q tag : Nat) (c : Option Nat) :
    (p.leave q tag c).engines.map (fun e => e.channels.length) = p.engines.map fun e => e.channels.length := by
  refine lanes_modAt fun e => ?_
  cases c with
  | none => rfl
  | some n => exact modAt_length _ _ _

theorem finish_lanes (s : State) (q tag : Nat) (code : Code) (r0 r1 : W32) : (s.finish q tag code r0 r1).lanes = s.lanes := by
  cases hc : s.started? q tag with
  | none => rw [State.finish, hc]
  | some c => rw [State.lanes, finish_engines s q tag c code r0 r1 hc, armBuffers_lanes, leave_lanes]; rfl

theorem answerEnd_lanes (s : State) (r : Req) (st : Stream) (code : Code) : (s.answerEnd r st code).lanes = s.lanes := by
  unfold State.answerEnd
  split
  · exact finish_lanes _ _ _ _ _ _
  · rfl

theorem sendReply_lanes (s : State) (c : Ctxt) (i : Nat) (st : Stream) (code : Code) (final : Bool) (data : List Byte) :
    (s.sendReply c i st code final data).lanes = s.lanes := by
  refine lanes_foldl (fun u x => ?_) _ _
  split <;> rfl

theorem endReq_lanes (s : State) (k : Nat) (code : Code) (data : List Byte) : (s.endReq k code data).lanes = s.lanes := by
  have hserve (u : State) (r : Req) (st : Stream) : (u.serveAfter k r st).lanes = u.lanes := by
    unfold State.serveAfter
    dsimp only
    split
    · split <;> rfl
    · rfl
  have hreply (u : State) (r : Req) (st : Stream) : (u.replyEnd r st code data).lanes = u.lanes := by
    unfold State.replyEnd
    split
    · exact sendReply_lanes u _ _ _ _ _ _
    · rfl
  cases h : (s.req k).open_ with
  | false => rw [endReq_closed h]
  | true =>
    rw [endReq_open h, hserve, answerEnd_lanes, hreply]
    rfl

theorem endRerun_lanes (s : State) (c : Cmd) (code : Code) (arr : Nat) (refused : Bool) :
    (s.endRerun c code arr refused).lanes = s.lanes := by
  unfold State.endRerun
  split
  · exact finish_lanes _ _ _ _ _ _
  · rfl

theorem endAllReqs_lanes (s : State) (i : Nat) (code : Code) : (s.endAllReqs i code).lanes = s.lanes :=
  lanes_foldl (fun u k => endReq_lanes u k code []) _ _

/-! ### Work that stops -/

theorem undo_lanes (s : State) (c : Cmd) : (s.undo c).lanes = s.lanes := by
  have hstop (u : State) (k : Nat) : (u.stopArray c k).lanes = u.lanes := by
    have hpass : (u.passOff k).lanes = u.lanes := by
      unfold State.passOff
      split <;> rfl
    exact hpass
  have hrack (u : State) : (((u.unpinAll c.pins).giveBackAll c.taken).dropGrants c.shape.rows).offRack = u.offRack := by
    simp [State.unpinAll]
  have huntake (u : State) : (u.untake c.id).lanes = u.lanes := rfl
  unfold State.undo
  dsimp only
  rw [huntake, lanes_of_offRack (hrack _)]
  split
  · exact lanes_foldl hstop _ _
  · rfl

theorem killFinal_lanes (s : State) (c : Cmd) (code : Code) : (s.killFinal c code).lanes = s.lanes := by
  have hlog (u : State) (arr : Nat) : (u.logEnd c code arr false).lanes = u.lanes := rfl
  unfold State.killFinal
  dsimp only
  rw [hlog, undo_lanes]
  rfl

theorem killAll_lanes (s : State) (code : Code) : (s.killAll code).lanes = s.lanes := by
  have hkill (u : State) (l : List Cmd) :
      (l.foldl (fun s c => if c.phase == .placed then s else s.killFinal c cRerun) u).lanes = u.lanes :=
    lanes_foldl (fun v c => by
      split
      · rfl
      · exact killFinal_lanes v c cRerun) _ _
  have hrerun (u : State) (l : List Cmd) :
      (l.foldl (fun (s : State) c => s.endRerun c cRerun 0 true) { u with cmds := [] }).lanes = u.lanes :=
    lanes_foldl (fun v c => endRerun_lanes v c cRerun 0 true) _ _
  have htrain (u : State) (l : List Train) : (l.foldl (fun s t => s.endTrain t code) u).lanes = u.lanes :=
    lanes_foldl (fun v t => finish_lanes v _ _ _ _ _) _ _
  have hstarted (u : State) (l : List Started) : (l.foldl (fun (s : State) t =>
      if t.opc = 0x13 then s.finish t.q t.tag code (s.trainStep (bits (t.arg 1) 5 0)) 0 else s) u).lanes = u.lanes :=
    lanes_foldl (fun v t => by
      split
      · exact finish_lanes v _ _ _ _ _
      · rfl) _ _
  have hparts (u : State) (l : List Partition) : ({ u with parts := l } : State).lanes = u.lanes := rfl
  unfold State.killAll
  dsimp only
  rw [hparts, hstarted, htrain, hrerun, hkill]

theorem endRequests_lanes (s : State) (code : Code) : (s.endRequests code).lanes = s.lanes := by
  have hcode (u : State) (c : Ctxt) (i : Nat) : (u.replyCode c i code).lanes = u.lanes := sendReply_lanes u _ _ _ _ _ _
  unfold State.endRequests
  dsimp only
  rw [lanes_foldl fun u c => hcode u c _, lanes_foldl fun u k => endReq_lanes u k code []]

theorem takePortOut_lanes (s : State) (p cause : Nat) : (s.takePortOut p cause).lanes = s.lanes := by
  have hfree (u : State) : u.freeStreams.lanes = u.lanes := rfl
  have hclear (u : State) : u.clearCask.lanes = u.lanes := rfl
  have htail (u : State) (w : Power) (f : Cellar → Cellar) (x y : W32) :
      ((({ u with power := w } : State).modCellar f).attention 6 cCask x y).lanes = u.lanes := rfl
  have hmem (u : State) (f : MemPort → MemPort) : (u.modMem p f).lanes = u.lanes := rfl
  have hrestart (u : State) : (u.caskRestart p).lanes = u.lanes := by
    unfold State.caskRestart
    dsimp only
    rw [htail, hclear, hfree, endRequests_lanes, killAll_lanes]
  unfold State.takePortOut
  split
  · rfl
  · rw [hrestart, hmem]

theorem abandonAll_lanes (s : State) (i : Nat) : (s.abandonAll i).lanes = s.lanes := by
  have hvoid (u : State) : (u.voidRuns i).lanes = u.lanes := rfl
  have hmod (u : State) (f : Stream → Stream) : (u.modStream i f).lanes = u.lanes := rfl
  rw [State.abandonAll, State.abandon, hmod, lanes_of_offRack (dropAdvances_offRack _ _), hvoid]
  rfl

theorem pauseStream_lanes (s : State) (i : Nat) (cause : Code) : (s.pauseStream i cause).lanes = s.lanes := by
  rw [State.pauseStream, lanes_of_offRack (State_retier_offRack _ _), abandonAll_lanes]
  rfl

theorem dropPlan_lanes (s : State) (j : Nat) : (s.dropPlan j).lanes = s.lanes := by
  have hfresh : (s.dropFresh j).lanes = s.lanes := by
    have hfree : ((alGet [] j s.malt.newLeaves).foldl (fun s x => s.freeLeaf x.2) s).lanes = s.lanes :=
      lanes_foldl (fun (u : State) (x : Nat × Handle) => lanes_of_offRack (State_freeLeaf_offRack u x.2)) _ _
    unfold State.dropFresh
    dsimp only
    generalize (alGet [] j s.malt.newLeaves).foldl (fun s x => s.freeLeaf x.2) s = u at *
    exact (show _ = u.lanes from rfl).trans hfree
  have hretained (u : State) : (u.dropRetained j).lanes = u.lanes := by
    unfold State.dropRetained
    split
    · rfl
    · exact (show _ = State.lanes _ from rfl).trans (lanes_foldl (fun (v : State) (e : Nat × Handle) => lanes_of_offRack (State_drop_offRack v e.2)) _ _)
  have hdrop (u : State) (l : List Handle) : (l.foldl (fun s h => s.drop h) u).lanes = u.lanes :=
    lanes_foldl (fun v h => lanes_of_offRack (State_drop_offRack v h)) _ _
  have hscratch (u : State) (p : Option Plan) : ((p.map u.freeScratch).getD u).lanes = u.lanes := by
    cases p <;> rfl
  have hcolophon (u : State) : u.recolophon.lanes = u.lanes := by rw [recolophon_frame]; rfl
  have hslot (u : State) (f : Slot → Slot) : ((u.modSlot j f).attention 1 cDone (w32 j) 0).lanes = u.lanes := rfl
  unfold State.dropPlan
  dsimp only
  rw [hcolophon, hslot, hscratch, hdrop, hretained, hfresh]

/-! ### Uncorrectable sectors -/

theorem tableError_lanes (s : State) (first : Nat) : (s.tableError first).lanes = s.lanes := by
  unfold State.tableError
  dsimp only
  refine (lanes_foldl (fun u k => ?_) _ _).trans rfl
  exact lanes_of_offRack (by simp)

theorem planError_lanes (s : State) (unit : Nat) : (s.planError unit).lanes = s.lanes := by
  have hcmds (u : State) (l : List Cmd) : (l.foldl (fun s c =>
      if c.phase == .placed then s.dropCmd c.id else ((s.undo c).logEnd c cCask 0 false).dropCmd c.id) u).lanes = u.lanes :=
    lanes_foldl (fun v c => by
      split
      · rfl
      · exact undo_lanes v c) _ _
  have hreruns (u : State) (l : List Cmd) : (l.foldl (fun s c => s.endRerun c cCask 0 false) u).lanes = u.lanes :=
    lanes_foldl (fun v c => endRerun_lanes v c cCask 0 false) _ _
  have hvoid (u : State) (f : WaveRun → Bool) (l : List Partition) : ({ u.voidWhere f with parts := l } : State).lanes = u.lanes := rfl
  have hstreams (u : State) (l : List Nat) : (l.foldl (fun s i => (s.pauseStream i cCask).endAllReqs i cCask) u).lanes = u.lanes :=
    lanes_foldl (fun v i => (endAllReqs_lanes _ i cCask).trans (pauseStream_lanes v i cCask)) _ _
  unfold State.planError
  split
  · rfl
  · dsimp only
    rw [dropPlan_lanes, hstreams, hvoid, hreruns, hcmds]

theorem recordError_lanes (s : State) (a : Nat) : (s.recordError a).lanes = s.lanes := by
  unfold State.recordError
  dsimp only
  split
  · rfl
  · exact (lanes_foldl (fun u q => endReq_lanes u _ cCask []) _ _).trans rfl

theorem startFetch_lanes (s : State) (h : Handle) : (s.startFetch h).lanes = s.lanes := by
  obtain ⟨-, -, hport⟩ := startFetch_leaves s h
  rw [State.lanes, hport]
  rfl

/-- A sector of the leaf pool in error, of a leaf that is being promoted, or whose write-back has been admitted, or neither. -/
def State.poolErrorAs (s : State) (h : Handle) (off : Nat) (promoting back : Bool) : State :=
  if promoting then s
  else if (s.leaf h).inCellar && !(s.leaf h).dirty && !back then
    ((s.endMove h).modLeaf h fun e => { e with inCask := false }).startMove
      { handle := h, kind := .rewrite, section_ := 0, admitted := true }
  else
    let s := ((s.endMove h).patchCask h fun b => b.mark (off / 64) true).modLeaf h fun e =>
      { e with poisoned := true, dirty := e.dirty || back }
    if (s.weightPlace h).isSome then s.startFetch h else s.releaseMoved h

theorem poolError_eq (s : State) (h : Handle) (off : Nat) : ∃ promoting back, s.poolError h off = s.poolErrorAs h off promoting back :=
  ⟨_, _, rfl⟩

theorem poolError_lanes (s : State) (h : Handle) (off : Nat) : (s.poolError h off).lanes = s.lanes := by
  have hmoved (u : State) (f : Leaf → Leaf) (m : Move) : (((u.endMove h).modLeaf h f).startMove m).lanes = u.lanes :=
    lanes_of_offRack (by simp)
  have hmarked (u : State) (f : Bytes → Bytes) (g : Leaf → Leaf) : (((u.endMove h).patchCask h f).modLeaf h g).lanes = u.lanes :=
    lanes_of_offRack (by simp)
  obtain ⟨promoting, back, heq⟩ := poolError_eq s h off
  rw [heq]
  unfold State.poolErrorAs
  dsimp only
  split
  · rfl
  split
  · exact hmoved s _ _
  split
  · rw [startFetch_lanes, hmarked]
  · rw [lanes_of_offRack (State_releaseMoved_offRack _ _), hmarked]

theorem regionError_lanes (s : State) (a : Nat) : (s.regionError a).lanes = s.lanes := by
  have hreload (u : State) : u.reloadFirmware.lanes = u.lanes := by
    unfold State.reloadFirmware
    dsimp only
    split <;> rfl
  have hmark (u : State) : (u.markSector a).lanes = u.lanes := rfl
  unfold State.regionError
  split
  · exact tableError_lanes _ _
  split
  · exact hreload s
  split
  · exact hmark s
  split
  · exact planError_lanes _ _
  split
  · rw [recordError_lanes, hmark]
  split
  · split
    · exact poolError_lanes _ _ _
    · rfl
  · rfl

theorem sectorError_lanes (s : State) (a : Nat) : (s.sectorError { addr := a, uncorrectable := true }).lanes = s.lanes := by
  have hraise (u : State) (c : Nat) (x y : W32) : (u.attention c cCask x y).lanes = u.lanes := rfl
  have hmem (u : State) (p : Nat) (f : MemPort → MemPort) : (u.modMem p f).lanes = u.lanes := rfl
  unfold State.sectorError
  dsimp only
  split
  · rfl
  split
  · rename_i h
    exact absurd h (by decide)
  · split
    · rw [takePortOut_lanes, hraise, regionError_lanes, hmem]
    · rw [hraise, regionError_lanes, hmem]

theorem readBad_lanes (s : State) (ch : Channel) (a : W64) : (s.readBad ch a).lanes = s.lanes := by
  unfold State.readBad
  split
  · exact sectorError_lanes _ _
  · rfl

end Sys2Proof.Machine
end

section
/-! SUPPORT. Transfers that halt, and DMA_CONTROL (R430, R436, R437). -/

namespace Sys2Proof.Machine

/-! ### A channel that halts -/

theorem modChannel_fixed {s : State} {sec n : Nat} {f : Channel → Channel} (h : f (s.channel sec n) = s.channel sec n) :
    s.modChannel sec n f = s := by
  have hengines : modAt s.port.engines sec (fun e => { e with channels := modAt e.channels n f }) = s.port.engines :=
    modAt_fixed fun e he => by
      have hchannels : modAt e.channels n f = e.channels := modAt_fixed fun ch hch => by
        rwa [channel_of_getElem? he hch] at h
      rw [hchannels]
  exact congrArg (fun l => { s with port := { s.port with engines := l } }) hengines

theorem with_done {ch : Channel} {n : W64} (h : ch.done = n) : { ch with done := n } = ch := by rw [← h]

/-- A transfer that has moved nothing and is to move nothing has moved nothing. -/
theorem moveTo_nothing {s : State} {sec n : Nat} (hd : (s.channel sec n).done = 0) (host : List Byte) :
    ∃ k, s.moveTo sec n 0 host = { s with draws := k } := by
  have hcopied : (if (s.channel sec n).cfg.getLsbD 6 then s
      else State.copyBlks sec (s.channel sec n) (0 / 64 - (s.channel sec n).done.toNat / 64) ((s.channel sec n).done.toNat / 64) host s) = s := by
    rw [hd]
    exact ite_self s
  unfold State.moveTo
  dsimp only
  rw [hcopied]
  split
  · exact ⟨s.draws + 1, modChannel_fixed (with_done hd)⟩
  · exact ⟨s.draws, modChannel_fixed (with_done hd)⟩

/-- What a channel has read when it halts: where the cause is an uncorrectable source sector, that sector. -/
def State.haltRead (s : State) (ch : Channel) (cause : BitVec 4) (addr : W64) : State := if cause = 6 then s.readBad ch addr else s

theorem exec_dmaHalt {s : State} {sec : Nat} {e : Dma} (he : s.port.engines[sec]? = some e) (hs : (s.channel sec e.current).state = 2)
    (hd : (s.channel sec e.current).done = 0) (cause : BitVec 4) (dir : Bool) (addr : W64) (host : HostData) :
    ∃ k, exec (.dmaHalt sec cause dir addr 0 host) s =
      .next ((({ s with draws := k } : State).haltRead (s.channel sec e.current) cause addr).haltAt sec e.current dir cause addr) := by
  have hexec : exec (.dmaHalt sec cause dir addr 0 host) s = execDmaHalt sec cause dir addr 0 host s := rfl
  have hmax : max (min (0 / 64 * 64) (64 * (s.channel sec e.current).blocks)) (s.channel sec e.current).done.toNat = 0 := by
    rw [hd]
    simp
  rw [hexec, execDmaHalt, he]
  dsimp only
  rw [if_neg (by simp [hs]), hmax]
  by_cases hlow : e.current < 4
  · obtain ⟨k, hk⟩ := moveTo_nothing hd host
    rw [if_pos hlow, hk]
    exact ⟨k, rfl⟩
  · rw [if_neg hlow]
    exact ⟨s.draws, rfl⟩

theorem haltAt_channel {s : State} {sec n : Nat} (hex : s.hasChannel sec n) (dir : Bool) (cause : BitVec 4) (addr : W64) :
    (s.haltAt sec n dir cause addr).channel sec n =
      { s.channel sec n with state := 3, dir := dir, cause := cause, fail := addr } :=
  channel_modChannel (fun k => { k with state := 3, dir := dir, cause := cause, fail := addr }) hex

theorem dmaHalt_spec {s : State} {sec : Nat} {e : Dma} (he : s.port.engines[sec]? = some e) (hs : (s.channel sec e.current).state = 2)
    (hd : (s.channel sec e.current).done = 0) (cause : BitVec 4) (dir : Bool) (addr : W64) (host : HostData) :
    ∃ t, exec (.dmaHalt sec cause dir addr 0 host) s = .next t ∧
      (t.channel sec e.current).state = 3 ∧ (t.channel sec e.current).dir = dir ∧
      (t.channel sec e.current).cause = cause ∧ (t.channel sec e.current).fail = addr ∧
      t.port.attnPending.getLsbD 6 = true ∧
      (cause ≠ 6 →
        t.channel sec e.current = { s.channel sec e.current with state := 3, dir := dir, cause := cause, fail := addr } ∧
        t.port.started = s.port.started ∧ t.out = s.out ∧ t.coreMem = s.coreMem ∧ t.sectMem = s.sectMem ∧
        t.caskRaw = s.caskRaw) := by
  obtain ⟨k, hexec⟩ := exec_dmaHalt he hs hd cause dir addr host
  have hex : s.hasChannel sec e.current := hasChannel_of_state (by rw [hs]; decide)
  have hread : (({ s with draws := k } : State).haltRead (s.channel sec e.current) cause addr).lanes = s.lanes := by
    unfold State.haltRead
    split
    · exact (readBad_lanes _ _ _).trans rfl
    · rfl
  have hplain (h : cause ≠ 6) : ({ s with draws := k } : State).haltRead (s.channel sec e.current) cause addr = { s with draws := k } :=
    if_neg h
  generalize ({ s with draws := k } : State).haltRead (s.channel sec e.current) cause addr = u at *
  have hchannel := haltAt_channel (hasChannel_of_lanes hread hex) dir cause addr
  have hraised : (u.haltAt sec e.current dir cause addr).port.attnPending.getLsbD 6 = true :=
    attention_pending _ (by decide) _ _ _
  refine ⟨_, hexec, by rw [hchannel], by rw [hchannel], by rw [hchannel], by rw [hchannel], hraised, fun h => ?_⟩
  rw [hchannel, hplain h]
  exact ⟨rfl, rfl, rfl, rfl, rfl, rfl⟩

/-! ### DMA_CONTROL -/

theorem dmaSettle_installer {s : State} {c : Started} {sec n : Nat} (hr : c.role = 2) (hn : (sec, n) = ctrlChannel c)
    (hs : (s.channel sec n).state = 3) (f : Nat → Nat → Channel → State) :
    s.dmaSettle c f = (f sec n (s.channel sec n)).finish c.q c.tag cDone 0 0 := by
  unfold State.dmaSettle
  dsimp only
  rw [← hn]
  dsimp only
  rw [if_neg (by simp [hs]), if_neg (by simp [hr])]

theorem exec_dmaControlResume {s : State} {q tag : Nat} {c : Started} {sec n : Nat} (h : s.commandAt q tag 0x31 c) (hr : c.role = 2)
    (hn : (sec, n) = ctrlChannel c) (hs : (s.channel sec n).state = 3) (hq : c.q = q) (ht : c.tag = tag)
    (ha : bits (c.arg 1) 9 8 = 1) :
    exec (.dmaControlResume q tag) s =
      .next ((s.modChannel sec n fun k => { k with state := 2, cause := 0 }).finish q tag cDone 0 0) := by
  have hexec : exec (.dmaControlResume q tag) s = execDmaControlResume q tag s := rfl
  rw [hexec, execDmaControlResume, onStarted_commandAt h _ _ (by simp [ha]), dmaSettle_installer hr hn hs, hq, ht]

theorem exec_dmaControlAbort {s : State} {q tag : Nat} {c : Started} {sec n : Nat} (h : s.commandAt q tag 0x31 c) (hr : c.role = 2)
    (hn : (sec, n) = ctrlChannel c) (hs : (s.channel sec n).state = 3) (hq : c.q = q) (ht : c.tag = tag)
    (ha : bits (c.arg 1) 9 8 = 2) :
    exec (.dmaControlAbort q tag) s = .next ((s.abortChannel sec n (s.channel sec n)).finish q tag cDone 0 0) := by
  have hexec : exec (.dmaControlAbort q tag) s = execDmaControlAbort q tag s := rfl
  rw [hexec, execDmaControlAbort, onStarted_commandAt h _ _ (by simp [ha]), dmaSettle_installer hr hn hs, hq, ht]

theorem dmaResume_spec {s : State} {q tag : Nat} {c : Started} {sec n : Nat} (h : s.commandAt q tag 0x31 c) (hr : c.role = 2)
    (hn : (sec, n) = ctrlChannel c) (hs : (s.channel sec n).state = 3) (hq : c.q = q) (ht : c.tag = tag)
    (ha : bits (c.arg 1) 9 8 = 1) (hlt : n < 4) (hchan : c.chan = none) :
    ∃ t, exec (.dmaControlResume q tag) s = .next t ∧ Answered s t q tag (s.queue q) [] cDone 0 0 ∧
      t.channel sec n = { s.channel sec n with state := 2, cause := 0 } ∧
      t = { s with out := t.out, port := s.portOf t } := by
  obtain ⟨hstarted, hdiscard, htakes⟩ := commandAt_ends h
  have hex : s.hasChannel sec n := hasChannel_of_state (by rw [hs]; decide)
  have hchannel := channel_modChannel (fun k => { k with state := 2, cause := 0 }) hex
  have hframe : s.modChannel sec n (fun k => { k with state := 2, cause := 0 }) = { s with port := { s.port with
    engines := (s.modChannel sec n fun k => { k with state := 2, cause := 0 }).port.engines } } := rfl
  have htakes' : (s.modChannel sec n fun k => { k with state := 2, cause := 0 }).takesEntry q = true := htakes
  have hstarted' : (s.modChannel sec n fun k => { k with state := 2, cause := 0 }).started? q tag = some c := hstarted
  refine ⟨_, exec_dmaControlResume h hr hn hs hq ht ha, ?_⟩
  generalize (s.modChannel sec n fun k => { k with state := 2, cause := 0 }) = u at *
  have hqueue (p : Nat) : u.queue p = s.queue p := by rw [hframe]; rfl
  have hanswered := finish_answered (s := s) (data := []) cDone 0 0 htakes' hstarted' hdiscard (by rw [hframe]; simp)
    fun p _ => hqueue p
  rw [hqueue] at hanswered
  have hfinish := finish_frame cDone 0 0 htakes' hstarted' hdiscard
  have hkept := finish_channel u q tag c cDone 0 0 hstarted' sec hlt (by rw [hchan]; simp)
  generalize u.finish q tag cDone 0 0 = t at *
  exact ⟨hanswered, by rw [hkept, hchannel], by rw [hfinish, hframe]; rfl⟩

/-! ### The started commands that are left -/

theorem finish_started (s : State) (q tag : Nat) (c : Started) (code : Code) (r0 r1 : W32) (h : s.started? q tag = some c) :
    (s.finish q tag code r0 r1).port.started = (s.port.leave q tag c.chan).armBuffers.started := by
  have hcomplete (u : State) : (u.complete q tag code r0 r1).port.started = u.port.started := by
    unfold State.complete
    dsimp only
    split <;> rfl
  have hsession (u : State) : (u.endSession q).port.started = u.port.started := by
    unfold State.endSession
    dsimp only
    split <;> rfl
  have hdrain (u : State) : (u.settleDrain q).port.started = u.port.started := by
    unfold State.settleDrain
    dsimp only
    split
    · exact hsession u
    · rfl
  unfold State.finish
  rw [h]
  dsimp only
  rw [hdrain]
  split
  · rfl
  · rw [hcomplete]

/-- The command of another pair and TAG is started still when one ends, or is not. -/
theorem finish_other {s : State} {q tag p m : Nat} {c : Started} (code : Code) (r0 r1 : W32) (h : s.started? q tag = some c)
    (hne : (p, m) ≠ (q, tag)) :
    (∀ d, s.started? p m = some d → ∃ x, (s.finish q tag code r0 r1).started? p m = some x ∧ x.discard = d.discard) ∧
      (s.started? p m = none → (s.finish q tag code r0 r1).started? p m = none) := by
  obtain ⟨f, harmed⟩ := armBuffers_started (s.port.leave q tag c.chan)
  generalize hg : (fun u : Started => { u with chan := f u }) = g at harmed
  have hkey : ((fun u : Started => u.q == p && u.tag == m) ∘ g) = fun u => u.q == p && u.tag == m := by
    funext u
    rw [← hg]
    rfl
  have hleft : (s.finish q tag code r0 r1).started? p m = (s.started? p m).map g := by
    rw [State.started?, finish_started s q tag c code r0 r1 h, harmed, List.find?_map, hkey]
    refine congrArg (Option.map g) ?_
    have hfilter : (s.port.leave q tag c.chan).started = s.port.started.filter fun u => !(u.q == q && u.tag == tag) := rfl
    rw [hfilter, List.find?_filter]
    refine congrArg (fun p => s.port.started.find? p) (funext fun u => ?_)
    cases hu : (u.q == p && u.tag == m) with
    | false => simp
    | true =>
      have hother : (u.q == q && u.tag == tag) = false := by
        simp only [Bool.and_eq_true, beq_iff_eq] at hu
        obtain ⟨rfl, rfl⟩ := hu
        simpa [Prod.ext_iff] using hne
      rw [hother]
      rfl
  rw [hleft]
  exact ⟨fun d hd => ⟨g d, by rw [hd]; rfl, by rw [← hg]⟩, fun hnone => by rw [hnone]; rfl⟩

/-! ### A halted channel aborted -/

/-- A channel made idle, the last one served. -/
def State.channelIdled (s : State) (sec n : Nat) : State :=
  { s with port := { s.port with engines := modAt s.port.engines sec fun x =>
    { x with channels := modAt x.channels n fun k => { k with state := 0 }, last := n } } }

theorem abortChannel_eq (s : State) (sec n : Nat) (ch : Channel) : s.abortChannel sec n ch =
    (s.channelIdled sec n).finish ch.queue ch.tag cDmaBus (ch.done.setWidth 32) ((ch.done >>> 32).setWidth 32) := rfl

theorem channelIdled_channel {s : State} {sec n : Nat} (hex : s.hasChannel sec n) :
    (s.channelIdled sec n).channel sec n = { s.channel sec n with state := 0 } :=
  channel_modAt_engine (f := fun k => { k with state := 0 })
    (g := fun x => { x with channels := modAt x.channels n fun k => { k with state := 0 }, last := n }) (fun e => by rw [modAt_getElem?, if_pos rfl]) hex _ rfl

theorem dmaAbort_spec {s : State} {q tag : Nat} {c u : Started} {sec n : Nat} (h : s.commandAt q tag 0x31 c) (hr : c.role = 2)
    (hn : (sec, n) = ctrlChannel c) (hs : (s.channel sec n).state = 3) (hq : c.q = q) (ht : c.tag = tag)
    (ha : bits (c.arg 1) 9 8 = 2) (hlt : n < 4)
    (hu : s.started? (s.channel sec n).queue (s.channel sec n).tag = some u) (hdu : u.discard = false)
    (hne : (s.channel sec n).queue ≠ q) (htu : s.takesEntry (s.channel sec n).queue = true) :
    ∃ t, exec (.dmaControlAbort q tag) s = .next t ∧
      t.out = s.out ++
        [entryOut (s.queue (s.channel sec n).queue) s.port.attnPending cDmaBus (s.channel sec n).tag
          ((s.channel sec n).done.extractLsb' 0 32) ((s.channel sec n).done.extractLsb' 32 32),
         entryOut (s.queue q) s.port.attnPending cDone tag 0 0] ∧
      (t.channel sec n).state = 0 ∧ t.started? q tag = none ∧
      t.started? (s.channel sec n).queue (s.channel sec n).tag = none := by
  obtain ⟨hstarted, hdiscard, htakes⟩ := commandAt_ends h
  have hex : s.hasChannel sec n := hasChannel_of_state (by rw [hs]; decide)
  have hidle : ((s.channelIdled sec n).channel sec n).state = 0 := by rw [channelIdled_channel hex]
  refine ⟨_, exec_dmaControlAbort h hr hn hs hq ht ha, ?_⟩
  rw [abortChannel_eq, setWidth_32_eq_extractLsb', ushiftRight_setWidth_32_eq_extractLsb']
  generalize s.channel sec n = ch at *
  have hstartedCh : (s.channelIdled sec n).started? ch.queue ch.tag = some u := hu
  have hstartedQ : (s.channelIdled sec n).started? q tag = some c := hstarted
  have htakesCh : (s.channelIdled sec n).takesEntry ch.queue = true := htu
  have htakesQ : (s.channelIdled sec n).takesEntry q = true := htakes
  have hsame : (s.channelIdled sec n).out = s.out ∧ (s.channelIdled sec n).port.attnPending = s.port.attnPending ∧
      ∀ p, (s.channelIdled sec n).queue p = s.queue p := ⟨rfl, rfl, fun _ => rfl⟩
  generalize s.channelIdled sec n = v at *
  obtain ⟨hvout, hvattn, hvqueue⟩ := hsame
  have hpair : (q, tag) ≠ (ch.queue, ch.tag) := fun he => hne (Prod.mk.inj he).1.symm
  have hpair' : (ch.queue, ch.tag) ≠ (q, tag) := fun he => hne (Prod.mk.inj he).1
  generalize ch.done.extractLsb' 0 32 = r0
  generalize ch.done.extractLsb' 32 32 = r1
  obtain ⟨x, hx, hdx⟩ := (finish_other cDmaBus r0 r1 hstartedCh hpair).1 c hstartedQ
  have hgone := finish_gone v ch.queue ch.tag cDmaBus r0 r1
  have hidleW := finish_channel_idle ch.queue ch.tag cDmaBus r0 r1 hlt hidle
  obtain ⟨st, en, -, hw⟩ := finish_eq v ch.queue ch.tag u cDmaBus r0 r1 hstartedCh hdu htakesCh
  have hwtakes : (v.finish ch.queue ch.tag cDmaBus r0 r1).takesEntry q = true := by
    have htaken : (v.modQueue ch.queue Queue.advance).takesEntry q = v.takesEntry q := by
      have hlen : (v.modQueue ch.queue Queue.advance).port.queues.length = v.port.queues.length := modAt_length _ _ _
      rw [State.takesEntry, State.takesEntry, hlen, queue_modQueue_other _ (Ne.symm hne)]
      rfl
    rw [hw]
    exact htaken.trans htakesQ
  have hwout : (v.finish ch.queue ch.tag cDmaBus r0 r1).out =
      s.out ++ [entryOut (s.queue ch.queue) s.port.attnPending cDmaBus ch.tag r0 r1] := by rw [hw, hvout, hvqueue, hvattn]
  have hwattn : (v.finish ch.queue ch.tag cDmaBus r0 r1).port.attnPending = s.port.attnPending := by rw [hw]; exact hvattn
  have hwqueue : (v.finish ch.queue ch.tag cDmaBus r0 r1).queue q = s.queue q := by
    have hother : (v.modQueue ch.queue Queue.advance).queue q = v.queue q := queue_modQueue_other _ (Ne.symm hne)
    rw [hw]
    exact hother.trans (hvqueue q)
  generalize v.finish ch.queue ch.tag cDmaBus r0 r1 = w at *
  obtain ⟨st', en', -, ht'⟩ := finish_eq w q tag x cDone 0 0 hx (hdx.trans hdiscard) hwtakes
  have hout : (w.finish q tag cDone 0 0).out = w.out ++ [entryOut (w.queue q) w.port.attnPending cDone tag 0 0] := by rw [ht']
  refine ⟨by rw [hout, hwout, hwqueue, hwattn, List.append_assoc]; rfl, finish_channel_idle q tag cDone 0 0 hlt hidleW,
    finish_gone w q tag cDone 0 0, (finish_other cDone 0 0 hx hpair').2 hgone⟩

end Sys2Proof.Machine

namespace Sys2Proof.Proofs
open Sys2Proof.Machine

/-- Settles O25: a channel that halts keeps its place among its engine's channels, whatever its last read did; an abort ends two
commands, one after the other. -/
theorem dmaChannelsServed : Obligations.DmaChannelsServed := by
  unfold Obligations.DmaChannelsServed
  refine ⟨fun s sec e he => ⟨exec_dmaChannelStart_busy he, fun n hbusy hnext => dmaChannelStart_runs he hbusy hnext⟩,
    fun s sec e cause dir addr host he hs hd => dmaHalt_spec he hs hd cause dir addr host,
    fun s q tag c sec n h hr hn hs hq ht => ⟨fun ha hlt hchan => dmaResume_spec h hr hn hs hq ht ha hlt hchan,
      fun u ha hlt _ hu hdu _ hne htu => dmaAbort_spec h hr hn hs hq ht ha hlt hu hdu hne htu⟩⟩

end Sys2Proof.Proofs
end
